-- ==== Sys2Proof/Word.lean ====
section
/-!
DEFINITION. The plain widths of the machine and the shape of its keyed stores.
-/
namespace Sys2Proof

/-- A byte of memory (R3: addresses are byte addresses). -/
abbrev Byte := BitVec 8

/-- The value of one thread of a vector register, a mask, or a coherence word (R164, R79). -/
abbrev Word := BitVec 32

/-- A scalar register (R249). -/
abbrev DWord := BitVec 64

/-- A keyed store: pairs of a key and a value. The operations of Machine/FMap.lean keep the keys strictly rising
and list no entry equal to the default, so that equal stores are equal lists. -/
abbrev FMap (α : Type) := List (Nat × α)

/-- Sign extension of the low `n` bits of a natural number, as an integer. -/
abbrev sextNat (n x : Nat) : Int :=
  if x % 2 ^ n < 2 ^ (n - 1) then ((x % 2 ^ n : Nat) : Int) else ((x % 2 ^ n : Nat) : Int) - ((2 ^ n : Nat) : Int)

/-- `ceil (a / b)` on natural numbers. -/
abbrev ceilDiv (a b : Nat) : Nat := (a + b - 1) / b

end Sys2Proof
end

