-- ==== Sys2Proof/Config.lean ====
section
/-!
DEFINITION. What an implementation fixes: the parts of R1, the policy names of R393, the images of R394,
and the free values, which are constants without a body.
-/
namespace Sys2Proof

/-- The ordering codes of R1. -/
inductive Part where
  | sw4p
  | sw4m
  | sw2p
  deriving DecidableEq, Repr

/-- What POLICY_WRITE may write: the policies of R393 and the debug registers that have no row of their own
(R380, R381, R387, R388, R391), and the exported windows of R371. -/
inductive Policy where
  | xlease (ctx : BitVec 12)
  | dataLease (ctx : BitVec 12)
  | stashLease (ctx : BitVec 12)
  | lholdlim (ctx : BitVec 12)
  | dlkprobe
  | rbthresh
  | rbhigh
  | rbtime
  | minres
  | wpmask (slice n : Nat)
  | dlgmask (ctx : BitVec 12)
  | skey (ctx : BitVec 12)
  | cqbase (ctx : BitVec 12)
  | cqspill (ctx : BitVec 12)
  | queueCores (q : Nat)
  | queuePrio (q : Nat)
  | ageint (die : Nat)
  | stopt
  | sten
  | trbase (core : Nat)
  | trsize (core : Nat)
  | watchpoint (core n : Nat)
  | traceMark (uid : Nat)
  | replog (ctx : BitVec 12)
  | exportBase (peer : Nat)
  | exportSize (peer : Nat)
  | clockPlan (die : Nat)
  | replogBase (ctx : BitVec 12)
  | replogSize (ctx : BitVec 12)
  deriving DecidableEq, Repr

/-- A firmware image of R394: the signer's 64-byte public key, the signature of 29,792 bytes, and the header and the body, which the
signature covers. The header holds the SVN. -/
structure FwImage where
  key  : List Byte
  sig  : List Byte
  head : List Byte
  body : List Byte
  deriving DecidableEq, Repr

/-- R285: which of the two f32 neighbours of an irrational or unrepresentable result an approximation gives
(true: the upper one), a fixed function of the operation (0 rcp, 1 rsq, 2 exp2, 3 log2), the operand and the
silicon revision. Free value (log 5). -/
opaque Config.approxUpper : Nat → BitVec 32 → BitVec 8 → Bool

/-- R101: the order in which the manual leaves the threads of one instruction is free. The value picks a thread
among those that write one location, applied to the counter State.free (log 6). -/
opaque Config.freePick : Nat → Nat

/-- SHAKE256 with a 64-byte output (R394, R395). The manual names the function and does not give it: uninterpreted
(log 7). -/
opaque Config.shake256 : List Byte → BitVec 512

/-- SLH-DSA-SHAKE-256s verification of a signature over a message under a public key (R394). Uninterpreted
(log 7). -/
opaque Config.slhDsaVerify : List Byte → List Byte → List Byte → Bool

/-- R394: the SVN that an image's header holds, of which the manual gives no layout. Uninterpreted (log 7). -/
opaque Config.headerSvn : List Byte → BitVec 6

/-- R396: the SLH-DSA-SHAKE-256s signature of a list of digests under a device identity key. Uninterpreted (log 7). -/
opaque Config.attestSign : BitVec 512 → List (BitVec 512) → List Byte

/-- R396: the 64-byte digest of a die's boot ROM, a constant of the part (log 7). -/
opaque Config.romDigest : Nat → BitVec 512

/-- R224: the i8 code to which a nested-integer quantisation brings a quotient that is a NaN although x' is none, from x' and
the scale: the manual states none (log 26). -/
opaque Config.quantNan : BitVec 32 → BitVec 32 → BitVec 8

/-- R369: after a host completion timeout the word of an atomic holds either its old value or the atomic's result;
this says which (true: the result), applied to State.free (log 6). -/
opaque Config.timeoutDone : Nat → Bool

/-- R390, R192: the hold number that ARG holds for the records of a halted role: the manual gives none. It is one of the numbers 1 to
0xFFFF of R385; this picks it, applied to State.free (log 6). -/
opaque Config.roleHold : Nat → Fin 65535

/-- R397: what the critical-path replicas and the ring oscillators of a die measure at a tick: the slack in 0.1 ps and the loss in 0.01 %
(log 91). -/
opaque Config.dieSlack : Nat → Nat → BitVec 12
opaque Config.dieRosc : Nat → Nat → BitVec 12

/-- R398: whether the clock stays below 1.8 GHz at the end of a change of operating point that a plan began, applied to State.free
(log 91). -/
opaque Config.keepsLow : Nat → Bool

/-- R31: which of the valid entries of a 32 MiB page serves an access whose own entry has V = 0, from the address: the manual leaves it
open (log 80). -/
opaque Config.hugePick : Nat → Nat

/-- R377: where in host memory the 64-byte completion record of a checkpoint lies, from the extent list, and how it holds the status
(0 completed), the GTICK at the start and the GTICK at the end: the manual gives neither (log 92). -/
opaque Config.ckptRecordAt : List (Nat × Nat) → Nat
opaque Config.ckptRecord : Nat → BitVec 64 → BitVec 64 → BitVec 512

/-- R391: the number of the router that merges two requests: the manual numbers none; applied to State.free (log 6). -/
opaque Config.routerNo : Nat → BitVec 14

/-- R34: whether the 128 bytes of a line, as one little-endian number, compress under base-delta, of which the manual gives no exact
form (log 76). -/
opaque Config.baseDelta : Nat → Bool

/-- R5: whether a die whose clock is slowed misses a cycle at a tick, applied to State.free (log 69). -/
opaque Config.slowCycle : Nat → Bool

/-- R196: which cached record a deposit evicts when the record cache is full, applied to State.free (log 6). -/
opaque Config.evictPick : Nat → Nat

end Sys2Proof
end

