-- ==== Sys2Proof/Machine/Event.lean ====
section
/-!
DEFINITION. The events of the device as data that the state can hold (its agenda): one constructor per event row of the
table, with the arguments that the row's constructor of Instr has. Machine/EventRun.lean runs each by the same meaning.
-/
namespace Sys2Proof.Machine

inductive Event where
  | capabilityMint (pa : Nat) (space : BitVec 4) (base top addr : Nat) (perms : BitVec 7)
  | setRootTable (ctx : BitVec 12) (pa : BitVec 52)
  | tlbShootdown (ctx : BitVec 12) (lo hi : Nat)
  | generationRaise (frame : Nat)
  | generationRaiseComplete (frame : Nat)
  | generationSet (frame : Nat) (gen : BitVec 8)
  | lockDrainRequest (frame : Nat)
  | brokenMarkClear (line : Nat)
  | queueRegister (q : Nat) (ctx : BitVec 12) (cores : List Nat) (cb : Nat)
  | peerTableWrite (ctx : BitVec 12) (peer : BitVec 8) (en : Bool) (port base size : Nat)
  | policyWrite (p : Policy) (value : Nat)
  | preemptRequest (ctx : BitVec 12) (cores : List Nat)
  | preemptContextSave (ctx : BitVec 12) (core : Nat)
  | preemptWithdraw (ctx : BitVec 12) (cores : List Nat)
  | contextRestore (ctx : BitVec 12) (cores : List Nat)
  | thermalMigration (task : Nat)
  | contextEnd (ctx : BitVec 12)
  | faultResolveRetry (rid : Nat)
  | faultResolveSkip (rid : Nat)
  | faultResolveUser (rid : Nat)
  | faultResolveEnd (rid : Nat)
  | spillResizeResume (ctx : BitVec 12) (cqspill : BitVec 64)
  | eclkAdvance
  | xwLoad (uid n : Nat)
  | xwLeaseExpiry (uid n : Nat)
  | pageWalkComplete (walk : Nat)
  | requestRefused (rq : Nat)
  | homeRead (rq : Nat)
  | homeOwnership (rq : Nat)
  | homeWriteThrough (rq : Nat)
  | homeWriteBack (pair unit line : Nat) (mask : BitVec 32)
  | invalidationReceived (rq target : Nat)
  | recallReceived (rq pair unit : Nat) (mask : BitVec 32)
  | forwardedRead (rq : Nat)
  | invalidationAck (rq : Nat)
  | ownershipAck (rq : Nat)
  | releaseMarkerHead (core : Nat)
  | heldAccessRelease (uid op : Nat)
  | leaseRead (rq : Nat)
  | leaseWrite (rq : Nat)
  | leaseWriteHoldEnd (rq : Nat)
  | sliceLeaseSweep (slice : Nat)
  | coreLeaseSweep (core : Nat)
  | replyArrival (rq : Nat) (err : Bool)
  | stashFillArrival (fill : Nat)
  | homeAtomic (rq : Nat)
  | homeRowAtomic (rq : Nat)
  | routerMerge (rq other : Nat)
  | routerMergeReply (rq : Nat)
  | lockRequestArrival (rq : Nat)
  | lockReleaseArrival (rq : Nat)
  | lockWaiterExpiry (line uid : Nat)
  | lckHold (line : Nat)
  | deadlockProbe (line uid : Nat)
  | lockStatRequest (rq : Nat)
  | mwaitRequestArrival (rq : Nat)
  | monitorExpiry (mon : Nat)
  | barrierUpdate (core addr : Nat)
  | barrierCarriedCompletion (core addr : Nat)
  | barrierHeldArrival (uid op : Nat)
  | granuleRoleMove (core granule : Nat)
  | dispatcherServe
  | waitCounterPoll (q : Nat)
  | dispatchComplete (disp : Nat)
  | relaunchStep (core : Nat)
  | contStall (core : Nat)
  | rebalancePending (task : Nat)
  | sfpLate (ctx : BitVec 12) (core : Nat)
  | succReadComplete (task : Nat)
  | launchAction (rq : Nat)
  | xshfRequestArrival (rq : Nat)
  | xshfStale (core uid : Nat)
  | engineCommandComplete (cmd : Nat) (err : Option Nat)
  | graphNodeStart (core node : Nat)
  | matrixStart (cmd : Nat)
  | operandsConsumed (cmd : Nat)
  | matrixRetire (cmd : Nat)
  | ringPublishEffect (uid op : Nat)
  | deferredCauseDelivery (uid : Nat)
  | hostWrite (die pa : Nat) (data : List (BitVec 8))
  | hostRead (die pa len : Nat)
  | hostCompletion (rq : Nat) (refused : Bool)
  | hostCompletionTimeout (rq : Nat)
  | colWriteArrival (link peer pa : Nat) (flag : Bool) (data : List (BitVec 8))
  | flitData (link : Nat) (flit : BitVec 2048)
  | flitIdle (link : Nat) (flit : BitVec 2048)
  | flitNak (link : Nat) (flit : BitVec 2048) (bad : List Nat)
  | flitRetrainRequest (link : Nat) (flit : BitVec 2048)
  | retrainAttemptTimeout (link : Nat)
  | linkstatClear (link : Nat) (w : BitVec 64)
  | checkpointExtentList (extents : List (Nat × Nat))
  | checkpointHostCommand (die : Nat)
  | powerLossWarning
  | checkpointStream
  | checkpointRestore
  | namedTickStop (die : Nat)
  | sampctlWrite (core : Nat) (w : BitVec 64)
  | stallSample (core : Nat)
  | occupancyRecord (core : Nat)
  | debugHold (uid : Nat) (hold : BitVec 16)
  | debugRelease (uid : Nat)
  | debugStep (uid : Nat)
  | watchpointStop (core : Nat) (act : BitVec 2)
  | debugRoleHalt (task : Nat) (role : BitVec 2)
  | debugRoleRelease (task : Nat) (role : BitVec 2)
  | packageReset (images : List FwImage)
  | recoveryImageWrite (die : Nat) (image : FwImage)
  | firmwareImageStage (die : Nat) (image : FwImage)
  | attestationReport (die : Nat)
  | ageingMeasurement (die : Nat) (slack rosc : BitVec 12)
  | guardbandRequest (die mv : Nat)
  | thermalThrottle (die : Nat)
  | thermalTrip (die : Nat)
  | retrainComplete (link : Nat) (accepted : BitVec 12)
  | configurationSpaceWrite (die : Nat) (atomicOp : Bool)
  | hostPortWriteSent (rq : Nat)
  | operatingPointChangeDone (die : Nat)
  deriving DecidableEq, Repr

end Sys2Proof.Machine
end

