-- ==== Sys2Proof/Machine/State.lean ====
section
/-!
DEFINITION. The state of the device as plain data: every piece of state the spec names (INVENTORY.md, State), and a few
fields of the model's own, marked so. Stores keyed by a number are FMaps; what an unlisted key holds is the reset value.
-/
namespace Sys2Proof.Machine

/-- The 96 cause codes of R363. -/
inductive Cause where
  | encHalf | encFunc | encField | encSreg | encSro | fetchAlign | fetchErr | encMdst | encSgrp | encTrap | encBrk | encNest
  | regBound | regName | regDead | regEmpty | regPair | regSlots | slotForm | splitFull | scopeForm | roleEngine | exitForm
  | roleForm
  | capTag | capSealed | capSpace | capPerm | capBound | capAlign | capFormat | capGlobal | capTagstore | capMono | spaceRange
  | capPeer | memAlign
  | xltAbsent | xltRead | xltWrite | xltAtomic | xltLock | xltExec | ptFormat | ptRange | walkErr | xltMode | xltEngine
  | xltHostatom
  | atomAlign | atomOp | lckAlign | lckNotheld | lckLimit | lckHold | lckDlk | monForm | barrForm | barrAddr | teamForm
  | ordLine
  | engForm | engGraph | graphFull | ringForm | engErr | rmtFail | qntForm | graphCancel | mtxSat | smapForm | smapFull
  | stashRo
  | typeForm | cvtForm | tidInvalid | tidForm | tidFmt | tidGeom | accForm | sparseMeta | xshfForm | xshfDup | xshfStale
  | shflRange
  | contOverflow | sfpLate | sfpForm | contStall | launchForm | launchDeny | excNest | dbgWatch | dbgStep | dbgStop | memErr
  deriving DecidableEq, Repr

/-- A capability with its tag (R9): permission bits 0 to 6 are PR, PW, PX, PA, PL, PC, PG. -/
structure Cap where
  addr   : BitVec 56
  perms  : BitVec 7
  sealed : Bool
  space  : BitVec 4
  e      : BitVec 6
  b      : BitVec 27
  t      : BitVec 27
  tag    : Bool
  deriving DecidableEq, Repr

/-- The null capability (R9). -/
def Cap.null : Cap :=
  { addr := 0, perms := 0, sealed := false, space := 0, e := 0, b := 0, t := 0, tag := false }

/-- The value of a vector register name under its shape (R164). -/
inductive VVal where
  | u (x : Word)
  | a (base stride : Word)
  | g (ws : List Word)
  deriving DecidableEq, Repr

/-- What a page walk answers (R30, R36): the leaf of a translation, with the page's physical base. -/
structure Leaf where
  sz    : Bool
  r     : Bool
  w     : Bool
  a     : Bool
  l     : Bool
  x     : Bool
  tags  : Bool
  mode  : BitVec 2
  mbf   : BitVec 5
  gen   : BitVec 8
  base  : Nat
  deriving DecidableEq, Repr

/-- A translation held by a core's TLB (R37): the virtual page base it serves and its leaf. -/
structure TlbEntry where
  ctx   : BitVec 12
  vbase : Nat
  leaf  : Leaf
  deriving DecidableEq, Repr

/-- The answer to a walk that a fragment waits on: the page's virtual base in 64 KiB units, and the leaf or the cause. -/
inductive Walked where
  | leaf (vpage : Nat) (l : Leaf)
  | fail (vpage : Nat) (c : Cause)
  deriving DecidableEq, Repr

/-- A split-table entry (R175). `age` orders the splits (R177, youngest), `rdy` is the cycle from which the fragment
has been ready (R202), `redo` restricts its next instruction to the unfinished threads (R50, R262),
`redoAt` keeps the address and the place in program order of an
instruction that is to be finished (R102), `redoSpots` its address with the place and the size of each unfinished access, `walked` holds the
answers of the walks its instruction asked for, `walking` the walk it waits on, `why` the stall reason (R383) of an interlock
that held its last attempt. A fragment stopped by a refused request of an earlier instruction (R46) goes on at `resume`; `again` says
whether that request is to be translated once more, or given up. -/
structure Split where
  valid   : Bool
  st      : BitVec 2
  parent  : BitVec 3
  mask    : Word
  pc      : BitVec 56
  join    : BitVec 56
  saved   : BitVec 56
  age     : Nat
  rdy     : Nat
  redo    : Option Word
  redoAt  : Option (BitVec 56 × Nat)
  walked  : List Walked
  walking : Option Nat
  why     : Nat
  resume  : Option (BitVec 56) := none
  again   : Option Bool := none
  redoSpots : List (BitVec 56 × Nat × Nat × Nat) := []
  deriving DecidableEq, Repr

/-- An entry of the table that nothing uses. -/
def Split.free : Split :=
  { valid := false, st := 0, parent := 0, mask := 0, pc := 0, join := 0, saved := 0, age := 0, rdy := 0, redo := none,
    redoAt := none, walked := [], walking := none, why := 0 }

/-- A translation register (R38). -/
structure XW where
  valid  : Bool
  creg   : BitVec 4
  sz     : Bool
  rights : BitVec 4
  mode   : BitVec 2
  mbf    : BitVec 5
  gen    : BitVec 8
  limit  : BitVec 26
  pframe : BitVec 36
  vpage  : BitVec 40
  expiry : BitVec 32
  deriving DecidableEq, Repr

/-- A translation register at reset (R38). -/
def XW.zero : XW :=
  { valid := false, creg := 0, sz := false, rights := 0, mode := 0, mbf := 0, gen := 0, limit := 0, pframe := 0, vpage := 0,
    expiry := 0 }

/-- An entry of the held-lock list (R145, R191 section 9): the line, the generation of the acquire, whether it is
granted, whether it is marked to re-acquire with its remaining ticks (R148), and the status scalar of the acquire. -/
structure LockEnt where
  line    : Nat
  gen     : BitVec 8
  granted : Bool
  marked  : Bool
  remain  : BitVec 32
  sd      : BitVec 6
  op      : Nat
  deriving DecidableEq, Repr

/-- The resume condition of a record (R192) with its argument; a barrier's holds the scalar that its `barr.aw` writes as its fragment
resumes (R249). -/
inductive Cond where
  | regFill (scalar : Bool) (name : BitVec 6)
  | counter (cls : BitVec 2) (k : BitVec 6)
  | barrier (addr : Nat) (ph : Option Bool) (sd : BitVec 6)
  | lockWait (line : Nat)
  | monitor (pa : Nat)
  | faultRes (c : Cause)
  | range (entry : Nat)
  | tile (t : BitVec 4)
  | ring (k : BitVec 4) (slot : Nat) (phase : Bool)
  | exchange (core : Nat) (key : BitVec 32)
  | joined (a : BitVec 56)
  | preempted (n : BitVec 8)
  | debug (hold : BitVec 16)
  deriving DecidableEq, Repr

/-- Where a value that returns later goes. -/
inductive Dest where
  | none
  | vec (r : BitVec 6)
  | pair (r : BitVec 6)
  | scalar (r : BitVec 6)
  | capreg (r : BitVec 4)
  deriving DecidableEq, Repr

/-- The operations of an atomic (R132), with their type. -/
inductive AOp where
  | add (n : Nat)
  | smin (n : Nat) | smax (n : Nat) | umin (n : Nat) | umax (n : Nat)
  | and (n : Nat) | or (n : Nat) | xor (n : Nat)
  | xchg (n : Nat) | cas (n : Nat)
  | faddF32 (mrg : Bool) | faddF64 (mrg : Bool) | faddBf16x2 (mrg : Bool) | faddF16x2 (mrg : Bool)
  deriving DecidableEq, Repr

/-- What a translation says of a line that a mapped stash piece reaches: its number, generation, mode and MBF, and the timestamp with
which its home has acknowledged a lease-mode write (R94), with the words as that write left them. -/
structure LineInfo where
  line : Nat
  gen  : BitVec 8
  mode : BitVec 2
  mbf  : BitVec 5
  w    : Option (BitVec 16) := none
  data : FMap Word := []
  deriving DecidableEq, Repr

/-- One thread's part of an access after translation: thread number, space (0 directory or lease memory, 1 stash, 2
tile, 3 host), place, size in bytes, operand and expected operand. `shown` is the virtual address, for reports; `bound`
the physical address of each byte of a mapped stash access, none for a pad byte, and `lines` what is known of their lines; `keeps`
says that its entry and page copy tags (R20). -/
structure Piece where
  thread : Nat
  space  : Nat
  place  : Nat
  size   : Nat
  val    : DWord
  exp    : DWord
  shown  : Nat
  gen    : BitVec 8
  mode   : BitVec 2
  mbf    : BitVec 5
  bound  : List (Option Nat)
  lines  : List LineInfo := []
  keeps  : Bool := false
  deriving DecidableEq, Repr

/-- A tensor identifier entry (R220). -/
structure Tid where
  fmt    : BitVec 4
  ctx    : BitVec 12
  spl    : Nat
  rpl    : Nat
  sparse : Bool
  scv    : Bool
  smv    : Bool
  rowsm1 : Nat
  km1    : Nat
  pbase  : Nat
  scb    : Nat
  smb    : Nat
  mtb    : Nat
  deriving DecidableEq, Repr

/-- What an outstanding memory operation of a group does. `quant` holds the entry of a `vqnt` and each thread's two words. -/
inductive OpKind where
  | load (w : Nat)
  | quant (t : Tid) (xs : List (Nat × Word × Word))
  | store
  | ntStore
  | tileStore
  | atomic (a : AOp) (fetch : Bool)
  | rowAtomic (fetch : Bool)
  | capLoad (pc : Bool)
  | capStore (c : Cap)
  | lockAcq (timeout : BitVec 32) (try_ : Bool)
  | lockRel
  | lockStat
  | monitorWait (exp : Word) (timeout : BitVec 32)
  | barrier (drop wait : Bool)
  | fence (k : BitVec 2)
  | ntdrain
  | ringPublish (ring slot : Nat) (toE : Bool)
  | launch (q : Nat)
  | engine (cmd : Nat)
  deriving DecidableEq, Repr

/-- The registers that a precise cause loads besides XCAUSE and XPC (R241, R356). -/
structure TrapRegs where
  xinsn : BitVec 37
  xf0   : DWord
  xf1   : DWord
  xf2   : DWord
  xf3   : DWord
  xaddr : BitVec 56
  deriving DecidableEq, Repr

/-- No cause has loaded them. -/
def TrapRegs.zero : TrapRegs := { xinsn := 0, xf0 := 0, xf1 := 0, xf2 := 0, xf3 := 0, xaddr := 0 }

/-- An outstanding memory operation, in the group's program order (R102, R105). `pre` names the fragments whose later
accesses it precedes (R104). `acq` and `rel` are scope codes, `lineExt` the .line extent. `held` says that an ordering
rule holds it back, `left` counts the requests not yet answered, `got` the results so far, `swait` the pieces that wait
for a stash fill, `keep` that unfinished threads remain and the destination stays empty (R49), `seq` its place in program order, which a
replay of unfinished threads shares with its instruction (R102), `lane` the lane from which it issued (R158), `regs` what a cause of the instruction loads, should a request of it be
refused and fault when it is translated anew (R46). -/
structure Op where
  id      : Nat
  kind    : OpKind
  entry   : Nat
  pre     : BitVec 8
  pc      : BitVec 56
  mask    : Word
  uniform : Bool
  dst     : Dest
  pieces  : List Piece
  acq     : Option (BitVec 3)
  rel     : Option (BitVec 3)
  lineExt : Bool
  sig     : Bool
  lease   : Nat
  held    : Bool
  left    : Nat
  got     : List (Nat × DWord)
  swait   : List Piece
  keep    : Bool
  refused : Word
  seq     : Nat := 0
  lane    : Nat := 0
  regs    : TrapRegs := TrapRegs.zero
  deriving DecidableEq, Repr

/-- A deferred cause pending for a group (R358): the cause and the values of XF0, XF1 and XF2. -/
structure DefCause where
  cause : Cause
  xf0   : DWord
  xf1   : DWord
  xf2   : DWord
  deriving DecidableEq, Repr

/-- The kind of access that a fault record names (R50). -/
inductive AccKind where
  | load | store | atomic | lock | exec
  deriving DecidableEq, Repr

/-- A fault record (R361), with the access kind that R50 asks for (log 70). -/
structure FaultRec where
  tick : BitVec 64
  code : Cause
  defr : Bool
  ctx  : BitVec 12
  core : Nat
  slot : Nat
  gv   : Bool
  ecls : BitVec 2
  cseq : BitVec 16
  sub  : BitVec 8
  addr : Nat
  gid  : BitVec 32
  arg  : BitVec 32
  acc  : Option AccKind
  deriving DecidableEq, Repr

/-- Where a continuation record lies (R195, R196): the on-core cache with its units reserved, or written units. The
units are (spill area or ring, first unit). -/
structure RecPlace where
  cached : Bool
  spill  : Bool
  unit   : Nat
  deriving DecidableEq, Repr

/-- A continuation record (R190). What a body record holds besides is the group it names (R191). `wait` is the wait
word, `owner` the core that relaunches it (R195), `trap` what the parked cause loads if firmware sends it on (R360), `why` that
cause, `wrote` the bytes last written to its units (R196); `again` says that the fragment goes on at the instruction that was recorded (R360). -/
structure Record where
  id    : Nat
  uid   : Nat
  ctx   : BitVec 12
  cond  : Cond
  prio  : BitVec 3
  reacq : Bool
  ready : Bool
  sfpd  : Bool
  body  : Bool
  held  : Bool
  frag  : Nat
  pc    : BitVec 56
  mask  : Word
  evt   : BitVec 32
  dseq  : BitVec 16
  wait  : BitVec 32
  size  : Nat
  owner : Nat
  place : RecPlace
  trap  : Option TrapRegs
  why   : Option Cause
  wrote : List Byte
  again : Bool := true
  deriving DecidableEq, Repr

/-- A group (R162 to R178): its registers, its fragments and what it waits on. A group that is not resident keeps the
same data, which then is what its body record holds (R191). `hold` is the debugger's hold number (R385), `step` the number to
which it returns after one instruction (R386), `skid` what it issued since a watchpoint's match (R389), `gslot` the held
slot of each G name (R168), `moved` that a restore has brought it to another core than the one it left (R130). -/
structure Group where
  uid       : Nat
  ctx       : BitVec 12
  task      : Nat
  disp      : Nat
  core      : Nat
  slot      : Option Nat
  gid       : BitVec 32
  ngrp      : BitVec 32
  taskg     : BitVec 6
  role      : BitVec 2
  prio      : BitVec 3
  nNames    : Nat
  top       : Nat
  scopes    : List Nat
  slots     : List Nat
  gslot     : FMap Nat
  claim     : Option (Nat × BitVec 6)
  s         : FMap DWord
  sEmpty    : BitVec 64
  swr       : BitVec 64
  v         : FMap VVal
  vEmpty    : BitVec 64
  m         : FMap Word
  c         : FMap Cap
  cEmpty    : BitVec 16
  ec        : FMap Nat
  split     : FMap Split
  splitAge  : Nat
  xw        : FMap XW
  locks     : List LockEnt
  team      : Option (BitVec 6)
  handler   : Option Nat
  latch     : Option (BitVec 56 × Word)
  xcause    : BitVec 7
  xpc       : BitVec 56
  xinsn     : BitVec 37
  xf0       : DWord
  xf1       : DWord
  xf2       : DWord
  xf3       : DWord
  xaddr     : BitVec 56
  saving    : Option (BitVec 8)
  restoring : Bool
  deferred  : List (DefCause × FaultRec)
  ops       : List Op
  adm       : Nat
  ended     : Bool
  poisoned  : Bool
  late      : Bool
  hold      : Option (BitVec 16)
  marked    : Bool
  stuck     : List Record
  pts       : BitVec 16
  step      : Option (BitVec 16)
  skid      : Nat
  moved     : Bool
  deriving DecidableEq, Repr

/-- A group of no dispatch: what a key that names no group reads as. -/
def Group.none : Group :=
  { uid := 0, ctx := 0, task := 0, disp := 0, core := 0, slot := Option.none, gid := 0, ngrp := 0, taskg := 0, role := 0, prio := 0,
    nNames := 0, top := 0, scopes := [], slots := [], gslot := [], claim := Option.none, s := [], sEmpty := 0, swr := 0, v := [],
    vEmpty := 0, m := [], c := [], cEmpty := 0, ec := [], split := [], splitAge := 0, xw := [], locks := [],
    team := Option.none, handler := Option.none, latch := Option.none, xcause := 0, xpc := 0, xinsn := 0, xf0 := 0,
    xf1 := 0, xf2 := 0, xf3 := 0, xaddr := 0, saving := Option.none, restoring := false, deferred := [], ops := [],
    adm := 0, ended := false, poisoned := false, late := false, hold := Option.none, marked := false,
    stuck := [], pts := 0, step := Option.none, skid := 0, moved := false }

/-- A kernel header (R179). -/
structure Header where
  entry : BitVec 56
  n     : Nat
  nb    : Nat
  gsb   : Nat
  sgr   : Nat
  tsl   : Nat
  pipe  : Bool
  succ  : Bool
  rcp   : Nat
  rmx   : Nat
  rvc   : Nat
  lsreq : BitVec 32
  sfpb  : Nat
  tidp  : BitVec 56
  tidn  : Nat
  sfpt  : BitVec 56
  sfpn  : Nat
  deriving DecidableEq, Repr

/-- A header of zeros. -/
def Header.zero : Header :=
  { entry := 0, n := 1, nb := 1, gsb := 0, sgr := 0, tsl := 0, pipe := false, succ := false, rcp := 0, rmx := 0, rvc := 0,
    lsreq := 0, sfpb := 0, tidp := 0, tidn := 0, sfpt := 0, sfpn := 0 }

/-- A dispatch descriptor (R198). -/
structure Desc where
  hdr    : BitVec 56
  serial : Bool
  sig    : Bool
  ng     : Nat
  argc   : Cap
  codec  : Cap
  waita  : BitVec 56
  waitv  : BitVec 32
  deriving DecidableEq, Repr

/-- A descriptor of zeros. -/
def Desc.zero : Desc :=
  { hdr := 0, serial := false, sig := false, ng := 0, argc := Cap.null, codec := Cap.null, waita := 0, waitv := 0 }

/-- The successor slot of a task (R267). -/
inductive Succ where
  | none
  | reading (a : BitVec 56)
  | read (a : BitVec 56) (ok : Bool) (d : Desc) (h : Header)
  deriving DecidableEq, Repr

/-- A slot of a stage ring (R340), held by a TASKG when reserved. -/
inductive RingSlot where
  | e
  | w (taskg : BitVec 6)
  | f
  | r (taskg : BitVec 6)
  deriving DecidableEq, Repr

/-- A bound stage ring (R339, R340). -/
structure Ring where
  base   : Nat
  count  : Nat
  slines : Nat
  prod   : BitVec 2
  cons   : BitVec 2
  slots  : List RingSlot
  p      : Nat
  c      : Nat
  deriving DecidableEq, Repr

/-- A task (R180): its allocation, the registers it shares, and its rings. `off` says that pre-emption has taken it off its core,
`back` that a restore is to place it again, with the core that
it is not to go to (R206, R208, R209), `unit` the unit of tasks that left it together (R178), `restored` that one has; `succWait` lists the fragments whose `exit.succ` waits (R267). -/
structure Task where
  ctx       : BitVec 12
  core      : Nat
  disp      : Nat
  queue     : Nat
  prio      : BitVec 3
  hdr       : Header
  codec     : Cap
  argc      : Cap
  gbase     : Nat
  ngran     : Nat
  tiles     : List Nat
  ngroups   : Nat
  fflags    : BitVec 6
  tvec      : BitVec 56
  succ      : Succ
  succWait  : List (Nat × Nat × BitVec 6)
  rings     : FMap Ring
  pendRole  : Option (BitVec 6 × BitVec 2)
  loSince   : Option Nat
  hiSince   : Option Nat
  rbSince   : Nat
  halted    : List (BitVec 2)
  placed    : Nat
  off       : Bool
  back      : Option Nat
  restored  : Bool := false
  unit      : Nat := 0
  first     : Nat
  since     : Nat
  deriving DecidableEq, Repr

/-- A task that no key names. -/
def Task.none : Task :=
  { ctx := 0, core := 0, disp := 0, queue := 0, prio := 0, hdr := Header.zero, codec := Cap.null, argc := Cap.null,
    gbase := 0, ngran := 0, tiles := [], ngroups := 0, fflags := 0, tvec := 0, succ := Succ.none, succWait := [],
    rings := [], pendRole := Option.none, loSince := Option.none, hiSince := Option.none, rbSince := 0, halted := [],
    placed := 0, off := false, back := Option.none, first := 0, since := 0 }

/-- A dispatch in progress (R200, R201). `live` counts its tasks that have not ended. -/
structure Dispatch where
  queue  : Nat
  ctx    : BitVec 12
  desc   : Desc
  hdr    : Header
  next   : Nat
  live   : Nat
  placed : Bool
  done   : Bool
  deriving DecidableEq, Repr

/-- A registered launch queue (R197): context, cores it may use, control block, and the answer of the last read of the
wait counter of its head. `cores` is empty when firmware allows every core of the mask given at registration. -/
structure Queue where
  ctx      : BitVec 12
  cores    : List Nat
  cb       : Nat
  eligible : Bool
  current  : Option Nat
  last     : Option Nat
  deriving DecidableEq, Repr

/-- A peer table entry (R371). -/
structure Peer where
  en   : Bool
  port : Nat
  base : Nat
  size : Nat
  deriving DecidableEq, Repr

/-- A pre-emption request in progress on a core (R206): the tasks it names when it does not name the whole context (R209),
its tick, and whether a restore waits for its end. -/
structure Preempt where
  core : Nat
  only : Option (List Nat)
  t0   : Nat
  restore : Bool
  deriving DecidableEq, Repr

/-- What steers a replayed run of a context (R392): the logged decisions (R391) that are yet to come and those that have been made, how many
constituents of the merge that a word's home has begun to perform are done, and whether the end of the log has been told. -/
structure Replay where
  left    : List (BitVec 256)
  made    : List (BitVec 256)
  merging : FMap Nat
  told    : Bool
  deriving DecidableEq, Repr

/-- A context (R28, R42, R62, R93, R149, R194, R354, R371, R391): what the context interface and firmware set. `preemptWait` lists
the cores of a pre-emption that waits for its release (R390). `logBase` and `logSize` give the log buffer of R391, its virtual address and
its length in records, `logged` how many records it holds, `logOvf` its overflow bit. `replay` is present in a replayed run (R392). -/
structure Ctx where
  live      : Bool
  root      : BitVec 52
  xlease    : BitVec 21
  dataLease : BitVec 8
  stashLease : BitVec 8
  lholdlim  : BitVec 32
  skey      : BitVec 32
  cqbase    : BitVec 56
  cqspill   : BitVec 64
  dlgmask   : BitVec 128
  replog    : Bool
  logBase   : BitVec 56
  logSize   : Nat
  logged    : Nat
  logOvf    : Bool
  replay    : Option Replay
  peers     : FMap Peer
  faults    : List FaultRec
  preempts  : List Preempt
  overflow  : Bool
  preemptWait : List Nat
  deriving DecidableEq, Repr

/-- A context as it is made: DLGMASK has the bits of the causes whose default is User (R354); the values that firmware
sets, and that the manual gives no reset value, are named in log 4. -/
def Ctx.reset : Ctx :=
  { live := false, root := 0, xlease := 64, dataLease := 1, stashLease := 1, lholdlim := 0, skey := 0, cqbase := 0,
    cqspill := 0, dlgmask := 0x240bff0fcf0f9f00001fff0fff03bf, replog := false, logBase := 0, logSize := 0, logged := 0, logOvf := false, replay := none, peers := [], faults := [], preempts := [],
    overflow := false, preemptWait := [] }

/-- An owner record of a directory entry (R85). Its AGE is its place in the entry's list, oldest first. -/
structure Owner where
  pair : BitVec 6
  unit : BitVec 2
  mask : Word
  deriving DecidableEq, Repr

/-- A directory entry (R85). `used` orders the entries of a set for replacement (R90). -/
structure DirEntry where
  shr    : BitVec 48
  rep    : BitVec 4
  host   : Bool
  cpe    : Bool
  pin    : Bool
  lmode  : Bool
  old    : Bool
  owners : List Owner
  wts    : BitVec 16
  rts    : BitVec 16
  used   : Nat
  deriving DecidableEq, Repr

/-- A line without directory state (R82). -/
def DirEntry.empty : DirEntry :=
  { shr := 0, rep := 0, host := false, cpe := false, pin := false, lmode := false, old := false, owners := [], wts := 0,
    rts := 0, used := 0 }

/-- A waiter queued on a locked line (R142): its request and its expiry tick, none when it never expires. -/
structure Waiter where
  uid    : Nat
  rq     : Nat
  expiry : Option Nat
  since  : Nat
  deriving DecidableEq, Repr

/-- The lock state of a line (R141): the holder with its context, core and slot, the grant tick, the broken mark, the
queue, the requests whose writes the home holds (R144), and whether LCK_HOLD has been raised for this grant. -/
structure Lock where
  holder : Option Nat
  hcore  : Nat
  hslot  : Nat
  since  : Nat
  broken : Bool
  queue  : List Waiter
  writes : List Nat
  told   : Bool
  deriving DecidableEq, Repr

/-- An unlocked line. -/
def Lock.free : Lock :=
  { holder := none, hcore := 0, hslot := 0, since := 0, broken := false, queue := [], writes := [], told := false }

/-- A monitor entry (R154). -/
structure Monitor where
  id     : Nat
  word   : Nat
  gen    : BitVec 8
  uid    : Nat
  entry  : Nat
  rq     : Nat
  expiry : Option Nat
  deriving DecidableEq, Repr

/-- A word of a line in a pair cache: its value and dirty bit (R81). -/
structure CWord where
  val   : Word
  dirty : Bool
  deriving DecidableEq, Repr

/-- A line held by a set of a pair cache half or of an L2 slice (R81, R82): its line number, the kind (0 home line, 1
replica, 2 sector copy) whether it is a retain line (R83), its way, and the MBF under which it came. A set's list is in order of use, most recent first. -/
structure Way where
  line   : Nat
  kind   : Nat
  retain : Bool
  way    : Nat
  mbf    : BitVec 5
  deriving DecidableEq, Repr

/-- A lease copy in a pair cache (R18, R81, R92, R96), with the tags of the line's granules and the timestamp `w` of its version (R93). -/
structure LeaseCopy where
  words : FMap Word
  tags  : BitVec 8
  w     : BitVec 16
  wts   : BitVec 16
  rts   : BitVec 16
  cnt0  : BitVec 16
  cnt1  : BitVec 16
  deriving DecidableEq, Repr

/-- The evicted-timestamp register of a slice (R95). -/
structure Evts where
  valid : Bool
  ts    : BitVec 16
  deriving DecidableEq, Repr

/-- Who made a request (R97). -/
inductive Agent where
  | group (uid op : Nat)
  | engine (cmd : Nat)
  | host (die : Nat)
  | col (link : Nat)
  | prefetch (slice : Bool)
  | dispatcher
  deriving DecidableEq, Repr

/-- What a request asks of the home or of a port (R86, R93, R94, R135, R142). -/
inductive ReqKind where
  | read
  | own
  | write
  | atomic (a : AOp) (fetch : Bool)
  | rowAtomic (fetch : Bool)
  | capRead
  | capWrite (c : Cap)
  | lock (timeout : BitVec 32) (try_ : Bool)
  | unlock
  | stat
  | monitor (exp : Word) (timeout : BitVec 32)
  | launch (q : Nat)
  | exchange (key : BitVec 32) (partner : Nat) (vd : BitVec 6) (vals : List Word) (mask : Word)
  deriving DecidableEq, Repr

/-- A request in flight: its issuer, its line, the pieces it names, the acknowledgements it still gathers (R86), and
its result per thread. `merged` lists the constituents after the first (R137), or the stores that merged into a pending one
(R89), each a request. `whole` says that it asks for all 32 words of its line, `nt` that it is a non-temporal store's (R303), `tick` when
it was made (R369), `stamped` that it has taken ECLK at its arrival (R422). -/
structure Req where
  id     : Nat
  agent  : Agent
  core   : Nat
  unit   : BitVec 2
  ctx    : BitVec 12
  kind   : ReqKind
  line   : Nat
  gen    : BitVec 8
  mode   : BitVec 2
  mbf    : BitVec 5
  pieces : List Piece
  lease  : Nat
  pts    : BitVec 16
  sig    : Bool
  ord    : Nat
  acks   : Nat
  busy   : Bool
  stale  : Bool
  done   : Bool
  result : List (Nat × DWord)
  capRes : Cap
  data   : FMap Word
  wts    : BitVec 16
  rts    : BitVec 16
  merged : List Nat
  whole  : Bool := false
  nt     : Bool := false
  tick   : Nat := 0
  stamped : Bool := false
  deriving DecidableEq, Repr

/-- What a walk in flight is for (R36). -/
inductive WalkFor where
  | frag (uid entry : Nat)
  | request (rq : Nat)
  | xwreg (uid n : Nat) (creg : BitVec 4)
  deriving DecidableEq, Repr

/-- A walk in flight: the context, the core whose TLB takes the answer, and the address. -/
structure Walk where
  ctx  : BitVec 12
  core : Nat
  va   : Nat
  why  : WalkFor
  done : Option Walked
  deriving DecidableEq, Repr

/-- A stash mapping entry (R63), VALID being its presence. -/
structure MapEntry where
  cap    : Cap
  rwm    : Bool
  gath   : Bool
  err    : Bool
  ctx    : BitVec 12
  stride : Nat
  foff   : Nat
  flen   : Nat
  count  : Nat
  sbase  : Nat
  slen   : Nat
  idx    : Nat
  fills  : BitVec 16
  wbacks : BitVec 16
  deriving DecidableEq, Repr

/-- The state of a mapped stash word (R69): valid, dirty, and the physical address bound to each of its four bytes
(R70; none for a pad byte). A word with V 0 D 0 is I. A copy taken under a lease has its RTS, the WTS of each
line that it holds bytes of, and the words read from it (R74, R96). `keeps` says that its entry and its page copy tags (R20),
`mbfs` the MBF under which each of its lines was fetched (R34). -/
structure SWord where
  v     : Bool
  d     : Bool
  bound : List (Option Nat)
  rts   : Option (BitVec 16)
  wtss  : List (Nat × BitVec 16)
  cnt   : BitVec 16
  keeps : Bool
  mbfs  : List (Nat × BitVec 5)
  deriving DecidableEq, Repr

/-- A mapped word in state I, and a word under no mapping entry. -/
def SWord.zero : SWord := { v := false, d := false, bound := [], rts := none, wtss := [], cnt := 0, keeps := false, mbfs := [] }

/-- A stash line fill in flight (R70): the core, the line, the entry, whether it waits for firmware
(R423), and whether FILLS has counted it. -/
structure Fill where
  core   : Nat
  line   : Nat
  entry  : Nat
  uid    : Option Nat
  parked : Bool
  counted : Bool
  deriving DecidableEq, Repr

/-- An entry of the dirty-address FIFO (R91). -/
structure FifoEnt where
  line   : Nat
  mask   : Word
  uid    : Nat
  op     : Nat
  marker : Bool
  acked  : Bool
  deriving DecidableEq, Repr

/-- The state of a graph node (R333). -/
inductive NodeSt where
  | free | openN | armed | run | done
  deriving DecidableEq, Repr

/-- A graph node (R333). -/
structure Node where
  st    : NodeSt
  ctx   : BitVec 12
  task  : Nat
  count : Nat
  succs : List (Nat × BitVec 8)
  cmd   : Option Nat
  gen   : BitVec 8
  cancel : Bool
  deriving DecidableEq, Repr

/-- A node at reset. The spec gives its generation no reset value (log 4). -/
def Node.zero : Node :=
  { st := .free, ctx := 0, task := 0, count := 0, succs := [], cmd := none, gen := 0, cancel := false }

/-- The work of an engine command (R327 to R348), with its operands as issued. -/
inductive CmdKind where
  | copy (dst src : Cap) (len : Nat)
  | gather (dst src : Cap) (stride rlen count iaddr : Nat)
  | remote (dst src : Cap) (len : Nat) (flag : Option Nat)
  | transpose (dst src : Cap) (e rows cols pitch : Nat)
  | plane (c : Cap) (t : Tid) (unp : Bool)
  | fold (c : Cap) (a b : Tid)
  | mm (tile : Nat) (z sparse : Bool) (ta tb pa : Tid)
  | mzero (tile : Nat)
  deriving DecidableEq, Repr

/-- Where a command stands (R325, R335, R347). -/
inductive CmdSt where
  | held | armed | run | started | consumed | writing | flagging | completed
  deriving DecidableEq, Repr

/-- An engine command (R323). `id` is its key. `pos` counts the destination lines, or row blocks, that it has begun to write (R332), `todo`
holds the lines of its block that are to follow, and `held` the pieces of its present stash line that wait for ownership or for an operand
range. `entry` is the fragment that issued it (R104). `fail` says that it ended in error while writes of it are still held at a home (R144), `wmax` is the
largest timestamp of its lease-mode writes (R422). `result` holds the words a matrix operation will write at its retirement (R347). -/
structure Cmd where
  id     : Nat := 0
  cls    : BitVec 2
  num    : BitVec 16
  uid    : Nat
  gid    : BitVec 32
  ctx    : BitVec 12
  task   : Nat
  core   : Nat
  kind   : CmdKind
  node   : Option Nat
  st     : CmdSt
  cancel : Bool
  pts    : BitVec 16
  result : FMap Word
  fail   : Bool := false
  wmax   : Option (BitVec 16) := none
  pos    : Nat := 0
  todo   : List (Nat × List Byte) := []
  held   : List Piece := []
  entry  : Nat := 0
  deriving DecidableEq, Repr

/-- A listed operand range of a matrix operation (R346): the command, the entry of the table, the first stash byte and the
length. -/
structure OpRange where
  cmd  : Nat
  slot : Nat
  base : Nat
  len  : Nat
  deriving DecidableEq, Repr

/-- The tag of a tile (R345) : none is FREE; 0 f32, 1 i32, 2 f64. -/
abbrev TileTag := Option (BitVec 2)

/-- A waiting entry of an exchange table (R293). -/
structure XEntry where
  rq     : Nat
  since  : Nat
  stale  : Bool
  deriving DecidableEq, Repr

/-- A watchpoint (R388). -/
structure Watch where
  addr : Nat
  en   : Bool
  mat  : BitVec 3
  act  : BitVec 2
  ctx  : BitVec 12
  deriving DecidableEq, Repr

/-- A watchpoint at reset. -/
def Watch.zero : Watch := { addr := 0, en := false, mat := 0, act := 0, ctx := 0 }

/-- An entry of the in-flight table (R387). -/
structure InFlight where
  kind : BitVec 4
  slot : Nat
  dest : BitVec 7
  cseq : BitVec 16
  addr : Nat
  tick : BitVec 32
  op   : Nat
  deriving DecidableEq, Repr

/-- A skid record (R389), with the GTICK of its stop (R379). -/
structure Skid where
  tick : BitVec 64
  slot : Nat
  gid  : BitVec 32
  pc   : BitVec 56
  n    : Nat
  deriving DecidableEq, Repr

/-- A core. `trctx` is the context in which TRBASE is an address (R381), `blocked` the group that blocks its relaunch engine and
since when (R203). -/
structure Core where
  stashG   : Nat
  regG     : Nat
  cacheG   : Nat
  roles    : FMap (BitVec 2)
  gowner   : FMap Nat
  pend     : Bool
  moved    : Nat
  tomove   : Nat
  start    : BitVec 32
  stash    : FMap Byte
  stags    : FMap Bool
  maps     : FMap MapEntry
  swords   : FMap SWord
  tiles    : FMap Word
  ttags    : FMap TileTag
  towner   : List (Nat × Nat)
  tlb      : List TlbEntry
  pts      : BitVec 16
  lstale   : BitVec 64
  fifo     : List FifoEnt
  tids     : FMap Tid
  nodes    : FMap Node
  cmdSeq   : BitVec 16
  ranges   : List OpRange
  mqueue   : List Nat
  claims   : List (Nat × Nat)
  xtable   : List XEntry
  xheld    : List Nat
  teams    : FMap Nat
  dseq     : BitVec 16
  blocked  : Option (Nat × Nat)
  stalled  : Bool
  arrivals : List (Nat × Nat × Nat)
  sampctl  : BitVec 64
  trbase   : BitVec 56
  trsize   : Nat
  trctx    : BitVec 12
  trace    : List (BitVec 256)
  rot      : Nat
  watches  : FMap Watch
  inflight : List InFlight
  infOvf   : Bool
  stopped  : Bool
  skid     : List Skid
  deriving DecidableEq, Repr

/-- A core at reset (R54, R60, R63, R92, R96, R220, R333, R381, R388). PTS has no stated reset value: 0, which is ECLK
at reset (log 4). LSPART is 0x0008_4018. -/
def Core.reset : Core :=
  { stashG := 0x18, regG := 0x40, cacheG := 0x08, roles := [], gowner := [], pend := false, moved := 0, tomove := 0, start := 0,
    stash := [], stags := [], maps := [], swords := [], tiles := [], ttags := [], towner := [], tlb := [], pts := 0,
    lstale := 0, fifo := [], tids := [], nodes := [], cmdSeq := 0, ranges := [], mqueue := [], claims := [], xtable := [],
    xheld := [], teams := [], dseq := 0, blocked := none, stalled := false, arrivals := [], sampctl := 0xC, trbase := 0,
    trsize := 0, trctx := 0, trace := [], rot := 0, watches := [], inflight := [], infOvf := false, stopped := false, skid := [] }

/-- One end of a Col or UCIe link (R372 to R375). End 2d + p is Col port p of die d; end 8 + 4a + b is die a's end of the UCIe
bundle to die b. `outbox` holds the messages that wait for room in the send window, `sent` the flits put on the wire, `window` the data
flits sent and not yet acknowledged, by SEQ, `stored` the 256 window entries by SEQ modulo 256, and `parity` the parity flit of each
stripe (R373). -/
structure Link where
  outbox    : List (BitVec 1920)
  sent      : List (BitVec 2048)
  stored    : FMap (BitVec 2048)
  parity    : FMap (BitVec 2048)
  nextSeq   : BitVec 12
  lastAcc   : BitVec 12
  window    : List (BitVec 12 × BitVec 2048)
  nakSent   : Bool
  replays   : List (BitVec 2048)
  delivered : List (BitVec 1920)
  reissued  : List (BitVec 1920)
  retrySince : Nat
  attempts  : Nat
  replay    : BitVec 16
  rebuild   : BitVec 16
  retrain   : BitVec 12
  st        : BitVec 2
  deriving DecidableEq, Repr

/-- A link end at reset (R375). -/
def Link.reset : Link :=
  { outbox := [], sent := [], stored := [], parity := [], nextSeq := 0, lastAcc := 0xFFF, window := [], nakSent := false, replays := [], delivered := [],
    reissued := [], retrySince := 0, attempts := 0, replay := 0, rebuild := 0, retrain := 0, st := 0 }

/-- A die's Pergen controller and host port (R366, R369, R394 to R399). `stored` is the image that
recovery has stored, `secret` the fused secret of R396, `planned` says that a plan began the change of operating point, `measure` that a
measurement is due, `slowed` that firmware's power plan lowers the clock (R399). `lag` counts the ticks that brought the die no cycle of its
own clock, and `still` says that the present tick is one of them (R5, log 69). -/
structure Die where
  atomicOp  : Bool
  hostq     : List Nat
  hostReads : List (List Byte)
  image     : Option FwImage
  staged    : Option FwImage
  stored    : Option FwImage
  secret    : BitVec 512
  recovery  : Bool
  keyDigest : BitVec 512
  svn       : BitVec 6
  reports   : List (List Byte)
  ageint    : Nat
  slack     : BitVec 12
  rosc      : BitVec 12
  gb        : BitVec 8
  clamp     : Bool
  lowf      : Bool
  mtick     : BitVec 30
  opChange  : Bool
  planned   : Bool
  measure   : Bool
  slowed    : Bool
  throttled : Bool
  gated     : Bool
  lag       : Nat
  still     : Bool
  deriving DecidableEq, Repr

/-- A die at reset. The digests of the fuses, the AtomicOp enable and AGEINT have no stated reset value (log 4);
the fields of AGEHLTH are 0 (R398). -/
def Die.reset : Die :=
  { atomicOp := false, hostq := [], hostReads := [], image := none, staged := none, stored := none, secret := 0, recovery := false, keyDigest := 0,
    svn := 0, reports := [], ageint := 2 ^ 30, slack := 0, rosc := 0, gb := 0, clamp := false, lowf := false, mtick := 0,
    opChange := false, planned := false, measure := false, slowed := false, throttled := false, gated := false, lag := 0, still := false }

/-- The checkpoint engine (R376 to R378). `trigger` says that a trigger has been recorded, `refused` that the last one found no
extent list that is large enough, `quiesced` that the engine holds the device, `done` the GTICKs of the completion records. -/
structure Ckpt where
  extents  : List (Nat × Nat)
  trigger  : Bool
  powerLoss : Bool
  quiesced : Bool
  refused  : Bool
  start    : BitVec 64
  done     : List (BitVec 64 × BitVec 64)
  deriving DecidableEq, Repr

/-- The checkpoint engine at reset. -/
def Ckpt.reset : Ckpt :=
  { extents := [], trigger := false, powerLoss := false, quiesced := false, refused := false, start := 0, done := [] }

/-- The fragment that issues (the model's own): a group and a split-table entry, with the tick of the issue. -/
structure Cursor where
  uid   : Nat
  entry : Nat
  tick  : Nat
  deriving DecidableEq, Repr

/-- A choice of what comes next (the model's own): an event of the agenda by its place, a lane of a core, a store of a host CPU to host
memory (R370), or a transaction message that is handed to a link end (R372). -/
inductive Choice where
  | event (k : Nat)
  | lane (core lane : Nat)
  | hostStore (addr : Nat) (data : List Byte)
  | message (link : Nat) (payload : BitVec 1920)
  deriving DecidableEq, Repr

/-- Memory and the homes (R2, R16, R45, R85, R95, R141, R154). `errs` lists the lines whose stored data has an
uncorrectable error, which the outside world causes (log 12). `packed` is a line's compression metadata (R34): the scheme that
it was given, with bit 5 set when it is stored compressed. `hostBuf` and `cpeBuf` hold the words of a line that a host port's read
buffer and a copy engine's read-ahead buffer hold (R85), and `fmode` says that lease-mode requests have reached a frame under its
generation (R422, log 77). Replicas and sector copies are keyed by their slice (R80). -/
structure Homes where
  mem      : FMap Byte
  tags     : FMap Bool
  gens     : FMap (BitVec 8)
  raising  : FMap Bool
  draining : FMap Bool
  dir      : FMap DirEntry
  locks    : FMap Lock
  mons     : List Monitor
  evts     : FMap Evts
  wpmask   : FMap (BitVec 24)
  l2       : FMap (List Way)
  reps     : FMap Word
  repVec   : FMap (BitVec 12)
  sects    : FMap Word
  pcache   : FMap CWord
  psets    : FMap (List Way)
  leases   : FMap LeaseCopy
  waiting  : List Nat
  errs     : FMap Bool
  packed   : FMap (BitVec 6)
  hostBuf  : FMap Word
  cpeBuf   : FMap Word
  fmode    : FMap Bool
  deriving DecidableEq, Repr

/-- The homes at reset. -/
def Homes.reset : Homes :=
  { mem := [], tags := [], gens := [], raising := [], draining := [], dir := [], locks := [], mons := [], evts := [],
    wpmask := [], l2 := [], reps := [], repVec := [], sects := [], pcache := [], psets := [], leases := [], waiting := [], errs := [],
    packed := [], hostBuf := [], cpeBuf := [], fmode := [] }

/-- The device. -/
structure State where
  part     : Part
  rev      : BitVec 8
  gtick    : BitVec 64
  cur      : Cursor
  agenda   : List Event
  schedule : List Choice
  free     : Nat
  nextId   : Nat
  homes    : Homes
  cores    : FMap Core
  groups   : FMap Group
  records  : List Record
  tasks    : FMap Task
  disps    : FMap Dispatch
  queues   : FMap Queue
  ctxs     : FMap Ctx
  reqs     : FMap Req
  walks    : FMap Walk
  fills    : FMap Fill
  cmds     : FMap Cmd
  host     : FMap Byte
  peers    : FMap Byte
  windows  : FMap (Nat × Nat)
  links    : FMap Link
  dies     : FMap Die
  ckpt     : Ckpt
  pointer  : Nat
  served   : Nat
  dlkprobe : Nat
  rbthresh : Nat
  rbhigh   : Nat
  rbtime   : Nat
  minres   : Nat
  stopt    : BitVec 64
  sten     : Bool
  replog   : List (BitVec 256)
  stepped  : List (Nat × Nat)
  halted   : Bool
  deriving DecidableEq, Repr

/-- What stops the machine: nothing. No rule of the spec makes the device stop without a next state: causes are taken, and an
event that the state does not bring about leaves it as it is (log 68). -/
inductive Fault where
  deriving DecidableEq, Repr

/-- What the model refuses. -/
inductive Refusal where
  /-- An instruction that has no meaning yet, by its mnemonic. Safe: nothing follows from it. -/
  | notModelled (mnemonic : String)
  deriving DecidableEq, Repr

/-- The device right after package reset (R54, R200, R204, R209, R379 and the reset columns). It holds no context and no
group. The part, the revision and the values that firmware sets are named in log 4. -/
def State.reset : State :=
  { part := .sw4p, rev := 1, gtick := 0, cur := { uid := 0, entry := 0, tick := 0 }, agenda := [], schedule := [], free := 0,
    nextId := 1, homes := Homes.reset, cores := [], groups := [], records := [], tasks := [], disps := [], queues := [],
    ctxs := [], reqs := [], walks := [], fills := [], cmds := [], host := [], peers := [], windows := [], links := [],
    dies := [], ckpt := Ckpt.reset, pointer := 95, served := 63, dlkprobe := 65536, rbthresh := 0, rbhigh := 255,
    rbtime := 2 ^ 24, minres := 3600000, stopt := 0, sten := false, replog := [], stepped := [], halted := false }

end Sys2Proof.Machine
end

