-- ==== Sys2Proof/Syntax.lean ====
section
/-!
DEFINITION. The steps of the device: one constructor per row of the table of operations and events. The encoded
instructions carry the fields of their layout (R232, R236, R237) as bit vectors, from bit 31 down. The events of the
device carry what names them: a request, a record, a line, a core, or the data that an outside party supplies.
-/
namespace Sys2Proof

inductive Instr where
  | vadd (m : BitVec 2) (b2 : BitVec 1) (b1 : BitVec 1) (vs2 : BitVec 6) (vs1 : BitVec 6) (vd : BitVec 6)
  | vsub (m : BitVec 2) (b2 : BitVec 1) (b1 : BitVec 1) (vs2 : BitVec 6) (vs1 : BitVec 6) (vd : BitVec 6)
  | vmul (m : BitVec 2) (b2 : BitVec 1) (b1 : BitVec 1) (vs2 : BitVec 6) (vs1 : BitVec 6) (vd : BitVec 6)
  | vmulhiI32 (m : BitVec 2) (b2 : BitVec 1) (b1 : BitVec 1) (vs2 : BitVec 6) (vs1 : BitVec 6) (vd : BitVec 6)
  | vmulhiN32 (m : BitVec 2) (b2 : BitVec 1) (b1 : BitVec 1) (vs2 : BitVec 6) (vs1 : BitVec 6) (vd : BitVec 6)
  | vminI32 (m : BitVec 2) (b2 : BitVec 1) (b1 : BitVec 1) (vs2 : BitVec 6) (vs1 : BitVec 6) (vd : BitVec 6)
  | vmaxI32 (m : BitVec 2) (b2 : BitVec 1) (b1 : BitVec 1) (vs2 : BitVec 6) (vs1 : BitVec 6) (vd : BitVec 6)
  | vmad (m : BitVec 2) (b2 : BitVec 1) (b1 : BitVec 1) (vs2 : BitVec 6) (vs1 : BitVec 6) (vd : BitVec 6)
  | vand (m : BitVec 2) (b2 : BitVec 1) (b1 : BitVec 1) (vs2 : BitVec 6) (vs1 : BitVec 6) (vd : BitVec 6)
  | vor (m : BitVec 2) (b2 : BitVec 1) (b1 : BitVec 1) (vs2 : BitVec 6) (vs1 : BitVec 6) (vd : BitVec 6)
  | vxor (m : BitVec 2) (b2 : BitVec 1) (b1 : BitVec 1) (vs2 : BitVec 6) (vs1 : BitVec 6) (vd : BitVec 6)
  | vshl (m : BitVec 2) (b2 : BitVec 1) (b1 : BitVec 1) (vs2 : BitVec 6) (vs1 : BitVec 6) (vd : BitVec 6)
  | vshr (m : BitVec 2) (b2 : BitVec 1) (b1 : BitVec 1) (vs2 : BitVec 6) (vs1 : BitVec 6) (vd : BitVec 6)
  | vsra (m : BitVec 2) (b2 : BitVec 1) (b1 : BitVec 1) (vs2 : BitVec 6) (vs1 : BitVec 6) (vd : BitVec 6)
  | vminN32 (m : BitVec 2) (b2 : BitVec 1) (b1 : BitVec 1) (vs2 : BitVec 6) (vs1 : BitVec 6) (vd : BitVec 6)
  | vmaxN32 (m : BitVec 2) (b2 : BitVec 1) (b1 : BitVec 1) (vs2 : BitVec 6) (vs1 : BitVec 6) (vd : BitVec 6)
  | vaddB64 (m : BitVec 2) (b2 : BitVec 1) (b1 : BitVec 1) (vs2 : BitVec 6) (vs1 : BitVec 6) (vd : BitVec 6)
  | vsubB64 (m : BitVec 2) (b2 : BitVec 1) (b1 : BitVec 1) (vs2 : BitVec 6) (vs1 : BitVec 6) (vd : BitVec 6)
  | vmulB64 (m : BitVec 2) (b2 : BitVec 1) (b1 : BitVec 1) (vs2 : BitVec 6) (vs1 : BitVec 6) (vd : BitVec 6)
  | vshlB64 (m : BitVec 2) (b2 : BitVec 1) (b1 : BitVec 1) (vs2 : BitVec 6) (vs1 : BitVec 6) (vd : BitVec 6)
  | vshrB64 (m : BitVec 2) (b2 : BitVec 1) (b1 : BitVec 1) (vs2 : BitVec 6) (vs1 : BitVec 6) (vd : BitVec 6)
  | vsraB64 (m : BitVec 2) (b2 : BitVec 1) (b1 : BitVec 1) (vs2 : BitVec 6) (vs1 : BitVec 6) (vd : BitVec 6)
  | vminI64 (m : BitVec 2) (b2 : BitVec 1) (b1 : BitVec 1) (vs2 : BitVec 6) (vs1 : BitVec 6) (vd : BitVec 6)
  | vmaxI64 (m : BitVec 2) (b2 : BitVec 1) (b1 : BitVec 1) (vs2 : BitVec 6) (vs1 : BitVec 6) (vd : BitVec 6)
  | vandB64 (m : BitVec 2) (b2 : BitVec 1) (b1 : BitVec 1) (vs2 : BitVec 6) (vs1 : BitVec 6) (vd : BitVec 6)
  | vorB64 (m : BitVec 2) (b2 : BitVec 1) (b1 : BitVec 1) (vs2 : BitVec 6) (vs1 : BitVec 6) (vd : BitVec 6)
  | vxorB64 (m : BitVec 2) (b2 : BitVec 1) (b1 : BitVec 1) (vs2 : BitVec 6) (vs1 : BitVec 6) (vd : BitVec 6)
  | vminN64 (m : BitVec 2) (b2 : BitVec 1) (b1 : BitVec 1) (vs2 : BitVec 6) (vs1 : BitVec 6) (vd : BitVec 6)
  | vmaxN64 (m : BitVec 2) (b2 : BitVec 1) (b1 : BitVec 1) (vs2 : BitVec 6) (vs1 : BitVec 6) (vd : BitVec 6)
  | vmulhiI64 (m : BitVec 2) (b2 : BitVec 1) (b1 : BitVec 1) (vs2 : BitVec 6) (vs1 : BitVec 6) (vd : BitVec 6)
  | vmulhiN64 (m : BitVec 2) (b2 : BitVec 1) (b1 : BitVec 1) (vs2 : BitVec 6) (vs1 : BitVec 6) (vd : BitVec 6)
  | vnot (m : BitVec 2) (b1 : BitVec 1) (vs1 : BitVec 6) (vd : BitVec 6)
  | vnegI32 (m : BitVec 2) (b1 : BitVec 1) (vs1 : BitVec 6) (vd : BitVec 6)
  | vabsI32 (m : BitVec 2) (b1 : BitVec 1) (vs1 : BitVec 6) (vd : BitVec 6)
  | vpopc (m : BitVec 2) (b1 : BitVec 1) (vs1 : BitVec 6) (vd : BitVec 6)
  | vclz (m : BitVec 2) (b1 : BitVec 1) (vs1 : BitVec 6) (vd : BitVec 6)
  | vbrev (m : BitVec 2) (b1 : BitVec 1) (vs1 : BitVec 6) (vd : BitVec 6)
  | vnegI64 (m : BitVec 2) (b1 : BitVec 1) (vs1 : BitVec 6) (vd : BitVec 6)
  | vabsI64 (m : BitVec 2) (b1 : BitVec 1) (vs1 : BitVec 6) (vd : BitVec 6)
  | vaddSatI32 (m : BitVec 2) (b2 : BitVec 1) (b1 : BitVec 1) (vs2 : BitVec 6) (vs1 : BitVec 6) (vd : BitVec 6)
  | vsubSatI32 (m : BitVec 2) (b2 : BitVec 1) (b1 : BitVec 1) (vs2 : BitVec 6) (vs1 : BitVec 6) (vd : BitVec 6)
  | vaddSatN32 (m : BitVec 2) (b2 : BitVec 1) (b1 : BitVec 1) (vs2 : BitVec 6) (vs1 : BitVec 6) (vd : BitVec 6)
  | vsubSatN32 (m : BitVec 2) (b2 : BitVec 1) (b1 : BitVec 1) (vs2 : BitVec 6) (vs1 : BitVec 6) (vd : BitVec 6)
  | vaddSatI64 (m : BitVec 2) (b2 : BitVec 1) (b1 : BitVec 1) (vs2 : BitVec 6) (vs1 : BitVec 6) (vd : BitVec 6)
  | vsubSatI64 (m : BitVec 2) (b2 : BitVec 1) (b1 : BitVec 1) (vs2 : BitVec 6) (vs1 : BitVec 6) (vd : BitVec 6)
  | vaddSatN64 (m : BitVec 2) (b2 : BitVec 1) (b1 : BitVec 1) (vs2 : BitVec 6) (vs1 : BitVec 6) (vd : BitVec 6)
  | vsubSatN64 (m : BitVec 2) (b2 : BitVec 1) (b1 : BitVec 1) (vs2 : BitVec 6) (vs1 : BitVec 6) (vd : BitVec 6)
  | vsel (m : BitVec 2) (b2 : BitVec 1) (b1 : BitVec 1) (vs2 : BitVec 6) (vs1 : BitVec 6) (vd : BitVec 6) (mk : BitVec 3)
  | vtix (m : BitVec 2) (vd : BitVec 6)
  | vshape (vs1 : BitVec 6) (sd : BitVec 6)
  | vrdx (m : BitVec 2) (ss : BitVec 6) (vd : BitVec 6)
  | vwrx (m : BitVec 2) (b2 : BitVec 1) (vs2 : BitVec 6) (ss : BitVec 6)
  | vfaddF32 (m : BitVec 2) (b2 : BitVec 1) (b1 : BitVec 1) (vs2 : BitVec 6) (vs1 : BitVec 6) (vd : BitVec 6) (rm : BitVec 2)
  | vfsubF32 (m : BitVec 2) (b2 : BitVec 1) (b1 : BitVec 1) (vs2 : BitVec 6) (vs1 : BitVec 6) (vd : BitVec 6) (rm : BitVec 2)
  | vfmulF32 (m : BitVec 2) (b2 : BitVec 1) (b1 : BitVec 1) (vs2 : BitVec 6) (vs1 : BitVec 6) (vd : BitVec 6) (rm : BitVec 2)
  | vfmaF32 (m : BitVec 2) (b2 : BitVec 1) (b1 : BitVec 1) (vs2 : BitVec 6) (vs1 : BitVec 6) (vd : BitVec 6) (rm : BitVec 2)
  | vfdivF32 (m : BitVec 2) (b2 : BitVec 1) (b1 : BitVec 1) (vs2 : BitVec 6) (vs1 : BitVec 6) (vd : BitVec 6) (rm : BitVec 2)
  | vfsqrtF32 (m : BitVec 2) (b1 : BitVec 1) (vs1 : BitVec 6) (vd : BitVec 6) (rm : BitVec 2)
  | vfaddF64 (m : BitVec 2) (b2 : BitVec 1) (b1 : BitVec 1) (vs2 : BitVec 6) (vs1 : BitVec 6) (vd : BitVec 6) (rm : BitVec 2)
  | vfsubF64 (m : BitVec 2) (b2 : BitVec 1) (b1 : BitVec 1) (vs2 : BitVec 6) (vs1 : BitVec 6) (vd : BitVec 6) (rm : BitVec 2)
  | vfmulF64 (m : BitVec 2) (b2 : BitVec 1) (b1 : BitVec 1) (vs2 : BitVec 6) (vs1 : BitVec 6) (vd : BitVec 6) (rm : BitVec 2)
  | vfmaF64 (m : BitVec 2) (b2 : BitVec 1) (b1 : BitVec 1) (vs2 : BitVec 6) (vs1 : BitVec 6) (vd : BitVec 6) (rm : BitVec 2)
  | vfdivF64 (m : BitVec 2) (b2 : BitVec 1) (b1 : BitVec 1) (vs2 : BitVec 6) (vs1 : BitVec 6) (vd : BitVec 6) (rm : BitVec 2)
  | vfsqrtF64 (m : BitVec 2) (b1 : BitVec 1) (vs1 : BitVec 6) (vd : BitVec 6) (rm : BitVec 2)
  | vfminF32 (m : BitVec 2) (b2 : BitVec 1) (b1 : BitVec 1) (vs2 : BitVec 6) (vs1 : BitVec 6) (vd : BitVec 6)
  | vfmaxF32 (m : BitVec 2) (b2 : BitVec 1) (b1 : BitVec 1) (vs2 : BitVec 6) (vs1 : BitVec 6) (vd : BitVec 6)
  | vfminF64 (m : BitVec 2) (b2 : BitVec 1) (b1 : BitVec 1) (vs2 : BitVec 6) (vs1 : BitVec 6) (vd : BitVec 6)
  | vfmaxF64 (m : BitVec 2) (b2 : BitVec 1) (b1 : BitVec 1) (vs2 : BitVec 6) (vs1 : BitVec 6) (vd : BitVec 6)
  | vfrcpF32 (m : BitVec 2) (b1 : BitVec 1) (vs1 : BitVec 6) (vd : BitVec 6)
  | vfrsqF32 (m : BitVec 2) (b1 : BitVec 1) (vs1 : BitVec 6) (vd : BitVec 6)
  | vfexp2F32 (m : BitVec 2) (b1 : BitVec 1) (vs1 : BitVec 6) (vd : BitVec 6)
  | vflog2F32 (m : BitVec 2) (b1 : BitVec 1) (vs1 : BitVec 6) (vd : BitVec 6)
  | vcmpI32 (m : BitVec 2) (b2 : BitVec 1) (b1 : BitVec 1) (vs2 : BitVec 6) (vs1 : BitVec 6) (cond : BitVec 3) (md : BitVec 3)
  | vcmpN32 (m : BitVec 2) (b2 : BitVec 1) (b1 : BitVec 1) (vs2 : BitVec 6) (vs1 : BitVec 6) (cond : BitVec 3) (md : BitVec 3)
  | vcmpI64 (m : BitVec 2) (b2 : BitVec 1) (b1 : BitVec 1) (vs2 : BitVec 6) (vs1 : BitVec 6) (cond : BitVec 3) (md : BitVec 3)
  | vcmpN64 (m : BitVec 2) (b2 : BitVec 1) (b1 : BitVec 1) (vs2 : BitVec 6) (vs1 : BitVec 6) (cond : BitVec 3) (md : BitVec 3)
  | vfcmpF32 (m : BitVec 2) (b2 : BitVec 1) (b1 : BitVec 1) (vs2 : BitVec 6) (vs1 : BitVec 6) (cond : BitVec 3) (md : BitVec 3)
  | vfcmpF64 (m : BitVec 2) (b2 : BitVec 1) (b1 : BitVec 1) (vs2 : BitVec 6) (vs1 : BitVec 6) (cond : BitVec 3) (md : BitVec 3)
  | vcvt (m : BitVec 2) (b1 : BitVec 1) (rm : BitVec 2) (src : BitVec 4) (dst : BitVec 4) (vs1 : BitVec 6) (vd : BitVec 6)
  | vaddImm (m : BitVec 2) (b1 : BitVec 1) (imm : BitVec 10) (vs1 : BitVec 6) (vd : BitVec 6)
  | vandImm (m : BitVec 2) (b1 : BitVec 1) (imm : BitVec 10) (vs1 : BitVec 6) (vd : BitVec 6)
  | vshlImm (m : BitVec 2) (b1 : BitVec 1) (amt : BitVec 5) (vs1 : BitVec 6) (vd : BitVec 6)
  | vshrImm (m : BitVec 2) (b1 : BitVec 1) (amt : BitVec 5) (vs1 : BitVec 6) (vd : BitVec 6)
  | vsraImm (m : BitVec 2) (b1 : BitVec 1) (amt : BitVec 5) (vs1 : BitVec 6) (vd : BitVec 6)
  | vshfl (m : BitVec 2) (b2 : BitVec 1) (b1 : BitVec 1) (vs2 : BitVec 6) (vs1 : BitVec 6) (vd : BitVec 6)
  | vballot (m : BitVec 2) (b1 : BitVec 1) (vs1 : BitVec 6) (sd : BitVec 6)
  | xshf (m : BitVec 2) (b1 : BitVec 1) (ss : BitVec 6) (vs1 : BitVec 6) (vd : BitVec 6)
  | vred (m : BitVec 2) (b1 : BitVec 1) (rm : BitVec 2) (ty : BitVec 3) (op : BitVec 4) (vs1 : BitVec 6) (vd : BitVec 6)
  | vscan (m : BitVec 2) (b1 : BitVec 1) (excl : BitVec 1) (rm : BitVec 2) (ty : BitVec 3) (op : BitVec 4) (vs1 : BitVec 6) (vd : BitVec 6)
  | vminidx (m : BitVec 2) (b1 : BitVec 1) (ty : BitVec 2) (vs1 : BitVec 6) (vd : BitVec 6)
  | vmaxidx (m : BitVec 2) (b1 : BitVec 1) (ty : BitVec 2) (vs1 : BitVec 6) (vd : BitVec 6)
  | mand (mb : BitVec 3) (ma : BitVec 3) (md : BitVec 3)
  | mor (mb : BitVec 3) (ma : BitVec 3) (md : BitVec 3)
  | mnot (ma : BitVec 3) (md : BitVec 3)
  | mpopc (ma : BitVec 3) (sd : BitVec 6)
  | mfirst (ma : BitVec 3) (sd : BitVec 6)
  | vpln (m : BitVec 2) (b1 : BitVec 1) (plane : BitVec 6) (vs1 : BitVec 6) (vd : BitVec 6)
  | vqnt (m : BitVec 2) (b1 : BitVec 1) (tid : BitVec 7) (vs1 : BitVec 6) (vd : BitVec 6)
  | mma (z : BitVec 1) (tb : BitVec 7) (ta : BitVec 7) (tc : BitVec 4)
  | mmsp (z : BitVec 1) (tb : BitVec 7) (ta : BitVec 7) (tc : BitVec 4)
  | mzero (tc : BitVec 4)
  | cpyPln (ta : BitVec 7) (tc : BitVec 4)
  | cpyPlnUnp (ta : BitVec 7) (tc : BitVec 4)
  | cpyFold (tb : BitVec 7) (ta : BitVec 7) (tc : BitVec 4)
  | sadd (b2 : BitVec 1) (b1 : BitVec 1) (ss2 : BitVec 6) (ss1 : BitVec 6) (sd : BitVec 6)
  | ssub (b2 : BitVec 1) (b1 : BitVec 1) (ss2 : BitVec 6) (ss1 : BitVec 6) (sd : BitVec 6)
  | smul (b2 : BitVec 1) (b1 : BitVec 1) (ss2 : BitVec 6) (ss1 : BitVec 6) (sd : BitVec 6)
  | sand (b2 : BitVec 1) (b1 : BitVec 1) (ss2 : BitVec 6) (ss1 : BitVec 6) (sd : BitVec 6)
  | sor (b2 : BitVec 1) (b1 : BitVec 1) (ss2 : BitVec 6) (ss1 : BitVec 6) (sd : BitVec 6)
  | sxor (b2 : BitVec 1) (b1 : BitVec 1) (ss2 : BitVec 6) (ss1 : BitVec 6) (sd : BitVec 6)
  | smin (u : BitVec 1) (b2 : BitVec 1) (b1 : BitVec 1) (ss2 : BitVec 6) (ss1 : BitVec 6) (sd : BitVec 6)
  | smax (u : BitVec 1) (b2 : BitVec 1) (b1 : BitVec 1) (ss2 : BitVec 6) (ss1 : BitVec 6) (sd : BitVec 6)
  | sshl (b2 : BitVec 1) (b1 : BitVec 1) (ss2 : BitVec 6) (ss1 : BitVec 6) (sd : BitVec 6)
  | sshr (b2 : BitVec 1) (b1 : BitVec 1) (ss2 : BitVec 6) (ss1 : BitVec 6) (sd : BitVec 6)
  | ssra (b2 : BitVec 1) (b1 : BitVec 1) (ss2 : BitVec 6) (ss1 : BitVec 6) (sd : BitVec 6)
  | smov (b1 : BitVec 1) (ss1 : BitVec 6) (sd : BitVec 6)
  | scmp (u : BitVec 1) (b2 : BitVec 1) (b1 : BitVec 1) (ss2 : BitVec 6) (ss1 : BitVec 6) (sd : BitVec 6) (cond : BitVec 3)
  | saddImm (imm : BitVec 16) (sd : BitVec 6)
  | sandImm (imm : BitVec 16) (sd : BitVec 6)
  | sorImm (imm : BitVec 16) (sd : BitVec 6)
  | sxorImm (imm : BitVec 16) (sd : BitVec 6)
  | sshlImm (amt : BitVec 6) (sd : BitVec 6)
  | sshrImm (amt : BitVec 6) (sd : BitVec 6)
  | ssraImm (amt : BitVec 6) (sd : BitVec 6)
  | smulImm (imm : BitVec 16) (sd : BitVec 6)
  | sli (imm : BitVec 16) (sd : BitVec 6)
  | slih (imm : BitVec 16) (sd : BitVec 6) (h : BitVec 2)
  | sget (n : BitVec 16) (sd : BitVec 6)
  | sset (n : BitVec 16) (ss : BitVec 6)
  | bcnd (off : BitVec 16) (ss : BitVec 6) (cond : BitVec 3)
  | loop (off : BitVec 16) (ss : BitVec 6)
  | vbra (toff : BitVec 11) (joff : BitVec 11) (mk : BitVec 3)
  | bra (off : BitVec 25)
  | call (off : BitVec 25)
  | ret (b1 : BitVec 1) (ss : BitVec 6)
  | retX (b1 : BitVec 1) (ss : BitVec 6)
  | trap (code : BitVec 16)
  | brk (code : BitVec 16)
  | sfp (n : BitVec 8)
  | scopeOpen (k : BitVec 6)
  | rgive (k : BitVec 8)
  | rclaim (k : BitVec 8) (sd : BitVec 6)
  | exitSucc (sd : BitVec 6)
  | tjoin (k : BitVec 6) (sd : BitVec 6)
  | fence (scope : BitVec 3) (k : BitVec 2)
  | cmk (b2 : BitVec 1) (ss2 : BitVec 6) (cs : BitVec 4) (cd : BitVec 4)
  | cbnd (b2 : BitVec 1) (ss2 : BitVec 6) (cs : BitVec 4) (cd : BitVec 4)
  | cperm (b2 : BitVec 1) (ss2 : BitVec 6) (cs : BitVec 4) (cd : BitVec 4)
  | cseal (cs : BitVec 4) (cd : BitVec 4)
  | cget (sel : BitVec 6) (cs : BitVec 4) (sd : BitVec 6)
  | xbind (b2 : BitVec 1) (ss2 : BitVec 6) (cs : BitVec 4) (n : BitVec 3)
  | cld (bo : BitVec 1) (cap : BitVec 4) (so : BitVec 6) (cd : BitVec 4)
  | cst (bo : BitVec 1) (cap : BitVec 4) (so : BitVec 6) (cs : BitVec 4)
  | vld (m : BitVec 2) (lsel : BitVec 2) (bo : BitVec 1) (cap : BitVec 4) (vo : BitVec 6) (vd : BitVec 6) (w : BitVec 3)
  | vldAcq (m : BitVec 2) (ln : BitVec 1) (scope : BitVec 3) (cap : BitVec 4) (vo : BitVec 6) (vd : BitVec 6) (w : BitVec 3)
  | vst (m : BitVec 2) (bd : BitVec 1) (bo : BitVec 1) (cap : BitVec 4) (vo : BitVec 6) (vd : BitVec 6) (sg : BitVec 1) (w : BitVec 2)
  | vstRel (m : BitVec 2) (ln : BitVec 1) (scope : BitVec 3) (cap : BitVec 4) (vo : BitVec 6) (vd : BitVec 6) (sg : BitVec 1) (w : BitVec 2)
  | vldNt (m : BitVec 2) (lsel : BitVec 2) (bo : BitVec 1) (cap : BitVec 4) (vo : BitVec 6) (vd : BitVec 6) (w : BitVec 3)
  | vstNt (m : BitVec 2) (bd : BitVec 1) (bo : BitVec 1) (cap : BitVec 4) (vo : BitVec 6) (vd : BitVec 6) (w : BitVec 2)
  | sld (ord : BitVec 1) (scope : BitVec 3) (cap : BitVec 4) (so : BitVec 6) (sd : BitVec 6) (w : BitVec 3)
  | sst (ord : BitVec 1) (scope : BitVec 3) (cap : BitVec 4) (so : BitVec 6) (ss : BitVec 6) (sg : BitVec 1) (w : BitVec 2)
  | lds (m : BitVec 2) (lsel : BitVec 2) (bo : BitVec 1) (cap : BitVec 4) (so : BitVec 6) (vd : BitVec 6) (w : BitVec 3)
  | sts (m : BitVec 2) (bd : BitVec 1) (bo : BitVec 1) (cap : BitVec 4) (so : BitVec 6) (vd : BitVec 6) (sg : BitVec 1) (w : BitVec 2)
  | pfch (m : BitVec 2) (lsel : BitVec 2) (bo : BitVec 1) (cap : BitVec 4) (vo : BitVec 6)
  | tld (m : BitVec 2) (bo : BitVec 1) (cap : BitVec 4) (vo : BitVec 6) (vd : BitVec 6)
  | tst (m : BitVec 2) (bd : BitVec 1) (bo : BitVec 1) (cap : BitVec 4) (vo : BitVec 6) (vd : BitVec 6)
  | launch (cap : BitVec 4) (so : BitVec 6) (sq : BitVec 6)
  | smap (ss2 : BitVec 6) (cap : BitVec 4) (sd : BitVec 6)
  | sunmap (b1 : BitVec 1) (ss : BitVec 6)
  | sflush (b2 : BitVec 1) (ss2 : BitVec 6) (cap : BitVec 4)
  | sinval (b2 : BitVec 1) (ss2 : BitVec 6) (cap : BitVec 4)
  | vatomAddB32 (m : BitVec 2) (sg : BitVec 1) (f : BitVec 1) (os : BitVec 4) (cap : BitVec 4) (vo : BitVec 5) (vd : BitVec 5)
  | vatomMinI32 (m : BitVec 2) (sg : BitVec 1) (f : BitVec 1) (os : BitVec 4) (cap : BitVec 4) (vo : BitVec 5) (vd : BitVec 5)
  | vatomMaxI32 (m : BitVec 2) (sg : BitVec 1) (f : BitVec 1) (os : BitVec 4) (cap : BitVec 4) (vo : BitVec 5) (vd : BitVec 5)
  | vatomMinN32 (m : BitVec 2) (sg : BitVec 1) (f : BitVec 1) (os : BitVec 4) (cap : BitVec 4) (vo : BitVec 5) (vd : BitVec 5)
  | vatomMaxN32 (m : BitVec 2) (sg : BitVec 1) (f : BitVec 1) (os : BitVec 4) (cap : BitVec 4) (vo : BitVec 5) (vd : BitVec 5)
  | vatomAndB32 (m : BitVec 2) (sg : BitVec 1) (f : BitVec 1) (os : BitVec 4) (cap : BitVec 4) (vo : BitVec 5) (vd : BitVec 5)
  | vatomOrB32 (m : BitVec 2) (sg : BitVec 1) (f : BitVec 1) (os : BitVec 4) (cap : BitVec 4) (vo : BitVec 5) (vd : BitVec 5)
  | vatomXorB32 (m : BitVec 2) (sg : BitVec 1) (f : BitVec 1) (os : BitVec 4) (cap : BitVec 4) (vo : BitVec 5) (vd : BitVec 5)
  | vatomAddB64 (m : BitVec 2) (sg : BitVec 1) (f : BitVec 1) (os : BitVec 4) (cap : BitVec 4) (vo : BitVec 5) (vd : BitVec 5)
  | vatomMinI64 (m : BitVec 2) (sg : BitVec 1) (f : BitVec 1) (os : BitVec 4) (cap : BitVec 4) (vo : BitVec 5) (vd : BitVec 5)
  | vatomMaxI64 (m : BitVec 2) (sg : BitVec 1) (f : BitVec 1) (os : BitVec 4) (cap : BitVec 4) (vo : BitVec 5) (vd : BitVec 5)
  | vatomMinN64 (m : BitVec 2) (sg : BitVec 1) (f : BitVec 1) (os : BitVec 4) (cap : BitVec 4) (vo : BitVec 5) (vd : BitVec 5)
  | vatomMaxN64 (m : BitVec 2) (sg : BitVec 1) (f : BitVec 1) (os : BitVec 4) (cap : BitVec 4) (vo : BitVec 5) (vd : BitVec 5)
  | vatomAndB64 (m : BitVec 2) (sg : BitVec 1) (f : BitVec 1) (os : BitVec 4) (cap : BitVec 4) (vo : BitVec 5) (vd : BitVec 5)
  | vatomOrB64 (m : BitVec 2) (sg : BitVec 1) (f : BitVec 1) (os : BitVec 4) (cap : BitVec 4) (vo : BitVec 5) (vd : BitVec 5)
  | vatomXorB64 (m : BitVec 2) (sg : BitVec 1) (f : BitVec 1) (os : BitVec 4) (cap : BitVec 4) (vo : BitVec 5) (vd : BitVec 5)
  | vatomXchgB32 (m : BitVec 2) (sg : BitVec 1) (f : BitVec 1) (os : BitVec 4) (cap : BitVec 4) (vo : BitVec 5) (vd : BitVec 5)
  | vatomXchgB64 (m : BitVec 2) (sg : BitVec 1) (f : BitVec 1) (os : BitVec 4) (cap : BitVec 4) (vo : BitVec 5) (vd : BitVec 5)
  | vatomCasB32 (m : BitVec 2) (sg : BitVec 1) (os : BitVec 4) (cap : BitVec 4) (vo : BitVec 5) (vd : BitVec 5)
  | vatomCasB64 (m : BitVec 2) (sg : BitVec 1) (os : BitVec 4) (cap : BitVec 4) (vo : BitVec 5) (vd : BitVec 5)
  | vratomAddBf16 (m : BitVec 2) (sg : BitVec 1) (f : BitVec 1) (os : BitVec 4) (cap : BitVec 4) (so : BitVec 5) (vd : BitVec 5)
  | vatomFaddF32 (m : BitVec 2) (sg : BitVec 1) (f : BitVec 1) (os : BitVec 4) (cap : BitVec 4) (vo : BitVec 5) (vd : BitVec 5)
  | vatomFaddF64 (m : BitVec 2) (sg : BitVec 1) (f : BitVec 1) (os : BitVec 4) (cap : BitVec 4) (vo : BitVec 5) (vd : BitVec 5)
  | vatomFaddBf16x2 (m : BitVec 2) (sg : BitVec 1) (f : BitVec 1) (os : BitVec 4) (cap : BitVec 4) (vo : BitVec 5) (vd : BitVec 5)
  | vatomFaddF16x2 (m : BitVec 2) (sg : BitVec 1) (f : BitVec 1) (os : BitVec 4) (cap : BitVec 4) (vo : BitVec 5) (vd : BitVec 5)
  | vatomFaddF32Mrg (m : BitVec 2) (sg : BitVec 1) (f : BitVec 1) (os : BitVec 4) (cap : BitVec 4) (vo : BitVec 5) (vd : BitVec 5)
  | vatomFaddF64Mrg (m : BitVec 2) (sg : BitVec 1) (f : BitVec 1) (os : BitVec 4) (cap : BitVec 4) (vo : BitVec 5) (vd : BitVec 5)
  | vatomFaddBf16x2Mrg (m : BitVec 2) (sg : BitVec 1) (f : BitVec 1) (os : BitVec 4) (cap : BitVec 4) (vo : BitVec 5) (vd : BitVec 5)
  | vatomFaddF16x2Mrg (m : BitVec 2) (sg : BitVec 1) (f : BitVec 1) (os : BitVec 4) (cap : BitVec 4) (vo : BitVec 5) (vd : BitVec 5)
  | satom (aoph : BitVec 2) (sg : BitVec 1) (f : BitVec 1) (os : BitVec 4) (cap : BitVec 4) (so : BitVec 5) (sd : BitVec 5) (func : BitVec 3)
  | lckAcq (cap : BitVec 4) (st : BitVec 6) (so : BitVec 6) (sd : BitVec 6)
  | lckTry (cap : BitVec 4) (so : BitVec 6) (sd : BitVec 6)
  | lckRel (cap : BitVec 4) (so : BitVec 6)
  | lckStat (cap : BitVec 4) (so : BitVec 6) (sd : BitVec 6)
  | mwait (cap : BitVec 4) (st : BitVec 6) (so : BitVec 6) (sd : BitVec 6)
  | barrArr (cap : BitVec 4) (so : BitVec 6) (sd : BitVec 6)
  | barrAw (cap : BitVec 4) (so : BitVec 6) (sd : BitVec 6)
  | barrDrop (cap : BitVec 4) (so : BitVec 6) (sd : BitVec 6)
  | ewait (k : BitVec 6) (cls : BitVec 2)
  | gnode (sd : BitVec 6)
  | glink (succ : BitVec 6) (pred : BitVec 6)
  | ringGet (k : BitVec 4) (sd : BitVec 6)
  | ringPut (k : BitVec 4) (sd : BitVec 6)
  | tdesc (tid : BitVec 7) (ss : BitVec 6)
  | tdget (tid : BitVec 7) (sd : BitVec 6)
  | cpy (g : BitVec 1) (cdst : BitVec 4) (csrc : BitVec 4) (sk : BitVec 6) (sd : BitVec 6)
  | cpyGth (g : BitVec 1) (cdst : BitVec 4) (csrc : BitVec 4) (sk : BitVec 6) (sd : BitVec 6)
  | cpyRmt (g : BitVec 1) (cdst : BitVec 4) (csrc : BitVec 4) (sk : BitVec 6) (sd : BitVec 6)
  | cpyTr8 (g : BitVec 1) (cdst : BitVec 4) (csrc : BitVec 4) (sk : BitVec 6) (sd : BitVec 6)
  | cpyTr16 (g : BitVec 1) (cdst : BitVec 4) (csrc : BitVec 4) (sk : BitVec 6) (sd : BitVec 6)
  | vadd16 (vs2 : BitVec 5) (vd : BitVec 6)
  | vsub16 (vs2 : BitVec 5) (vd : BitVec 6)
  | vmul16 (vs2 : BitVec 5) (vd : BitVec 6)
  | vand16 (vs2 : BitVec 5) (vd : BitVec 6)
  | vor16 (vs2 : BitVec 5) (vd : BitVec 6)
  | vxor16 (vs2 : BitVec 5) (vd : BitVec 6)
  | vshl16 (vs2 : BitVec 5) (vd : BitVec 6)
  | vshr16 (vs2 : BitVec 5) (vd : BitVec 6)
  | vsra16 (vs2 : BitVec 5) (vd : BitVec 6)
  | vminI3216 (vs2 : BitVec 5) (vd : BitVec 6)
  | vmaxI3216 (vs2 : BitVec 5) (vd : BitVec 6)
  | vfaddF3216 (vs2 : BitVec 5) (vd : BitVec 6)
  | vfsubF3216 (vs2 : BitVec 5) (vd : BitVec 6)
  | vfmulF3216 (vs2 : BitVec 5) (vd : BitVec 6)
  | vfminF3216 (vs2 : BitVec 5) (vd : BitVec 6)
  | vfmaxF3216 (vs2 : BitVec 5) (vd : BitVec 6)
  | nop
  | vjoin
  | exit
  | roleYield
  | scopeClose
  | contDep
  | tleave
  | ntdrain
  | capabilityMint (pa : Nat) (space : BitVec 4) (base top addr : Nat) (perms : BitVec 7)
  | setRootTable (ctx : BitVec 12) (pa : BitVec 52)
  | tlbShootdown (ctx : BitVec 12) (lo hi : Nat)
  | generationRaise (frame : Nat)
  | generationRaiseComplete (frame : Nat)
  | generationSet (frame : Nat) (gen : BitVec 8)
  | lockDrainRequest (frame : Nat)
  | brokenMarkClear (line : Nat)
  | queueRegister (q : Nat) (ctx : BitVec 12) (cores : List Nat) (cb : Nat)
  | peerTableWrite (ctx : BitVec 12) (peer : BitVec 8) (en : Bool) (port base size : Nat)
  | policyWrite (p : Policy) (value : Nat)
  | preemptRequest (ctx : BitVec 12) (cores : List Nat)
  | preemptContextSave (ctx : BitVec 12) (core : Nat)
  | preemptWithdraw (ctx : BitVec 12) (cores : List Nat)
  | contextRestore (ctx : BitVec 12) (cores : List Nat)
  | thermalMigration (task : Nat)
  | contextEnd (ctx : BitVec 12)
  | faultResolveRetry (rid : Nat)
  | faultResolveSkip (rid : Nat)
  | faultResolveUser (rid : Nat)
  | faultResolveEnd (rid : Nat)
  | spillResizeResume (ctx : BitVec 12) (cqspill : BitVec 64)
  | eclkAdvance
  | xwLoad (uid n : Nat)
  | xwLeaseExpiry (uid n : Nat)
  | pageWalkComplete (walk : Nat)
  | requestRefused (rq : Nat)
  | homeRead (rq : Nat)
  | homeOwnership (rq : Nat)
  | homeWriteThrough (rq : Nat)
  | homeWriteBack (pair unit line : Nat) (mask : BitVec 32)
  | invalidationReceived (rq target : Nat)
  | recallReceived (rq pair unit : Nat) (mask : BitVec 32)
  | forwardedRead (rq : Nat)
  | invalidationAck (rq : Nat)
  | ownershipAck (rq : Nat)
  | releaseMarkerHead (core : Nat)
  | heldAccessRelease (uid op : Nat)
  | leaseRead (rq : Nat)
  | leaseWrite (rq : Nat)
  | leaseWriteHoldEnd (rq : Nat)
  | sliceLeaseSweep (slice : Nat)
  | coreLeaseSweep (core : Nat)
  | replyArrival (rq : Nat) (err : Bool)
  | stashFillArrival (fill : Nat)
  | homeAtomic (rq : Nat)
  | homeRowAtomic (rq : Nat)
  | routerMerge (rq other : Nat)
  | routerMergeReply (rq : Nat)
  | lockRequestArrival (rq : Nat)
  | lockReleaseArrival (rq : Nat)
  | lockWaiterExpiry (line uid : Nat)
  | lckHold (line : Nat)
  | deadlockProbe (line uid : Nat)
  | lockStatRequest (rq : Nat)
  | mwaitRequestArrival (rq : Nat)
  | monitorExpiry (mon : Nat)
  | barrierUpdate (core addr : Nat)
  | barrierCarriedCompletion (core addr : Nat)
  | barrierHeldArrival (uid op : Nat)
  | granuleRoleMove (core granule : Nat)
  | dispatcherServe
  | waitCounterPoll (q : Nat)
  | dispatchComplete (disp : Nat)
  | relaunchStep (core : Nat)
  | contStall (core : Nat)
  | rebalancePending (task : Nat)
  | sfpLate (ctx : BitVec 12) (core : Nat)
  | succReadComplete (task : Nat)
  | launchAction (rq : Nat)
  | xshfRequestArrival (rq : Nat)
  | xshfStale (core uid : Nat)
  | engineCommandComplete (cmd : Nat) (err : Option Nat)
  | graphNodeStart (core node : Nat)
  | matrixStart (cmd : Nat)
  | operandsConsumed (cmd : Nat)
  | matrixRetire (cmd : Nat)
  | ringPublishEffect (uid op : Nat)
  | deferredCauseDelivery (uid : Nat)
  | hostWrite (die pa : Nat) (data : List (BitVec 8))
  | hostRead (die pa len : Nat)
  | hostCompletion (rq : Nat) (refused : Bool)
  | hostCompletionTimeout (rq : Nat)
  | colWriteArrival (link peer pa : Nat) (flag : Bool) (data : List (BitVec 8))
  | flitData (link : Nat) (flit : BitVec 2048)
  | flitIdle (link : Nat) (flit : BitVec 2048)
  | flitNak (link : Nat) (flit : BitVec 2048) (bad : List Nat)
  | flitRetrainRequest (link : Nat) (flit : BitVec 2048)
  | retrainAttemptTimeout (link : Nat)
  | linkstatClear (link : Nat) (w : BitVec 64)
  | checkpointExtentList (extents : List (Nat × Nat))
  | checkpointHostCommand (die : Nat)
  | powerLossWarning
  | checkpointStream
  | checkpointRestore
  | namedTickStop (die : Nat)
  | sampctlWrite (core : Nat) (w : BitVec 64)
  | stallSample (core : Nat)
  | occupancyRecord (core : Nat)
  | debugHold (uid : Nat) (hold : BitVec 16)
  | debugRelease (uid : Nat)
  | debugStep (uid : Nat)
  | watchpointStop (core : Nat) (act : BitVec 2)
  | debugRoleHalt (task : Nat) (role : BitVec 2)
  | debugRoleRelease (task : Nat) (role : BitVec 2)
  | packageReset (images : List FwImage)
  | recoveryImageWrite (die : Nat) (image : FwImage)
  | firmwareImageStage (die : Nat) (image : FwImage)
  | attestationReport (die : Nat)
  | ageingMeasurement (die : Nat) (slack rosc : BitVec 12)
  | guardbandRequest (die mv : Nat)
  | thermalThrottle (die : Nat)
  | thermalTrip (die : Nat)
  | retrainComplete (link : Nat) (accepted : BitVec 12)
  | configurationSpaceWrite (die : Nat) (atomicOp : Bool)
  | hostPortWriteSent (rq : Nat)
  | operatingPointChangeDone (die : Nat)
  deriving DecidableEq, Repr

end Sys2Proof
end

