-- ==== Sys2Proof/Machine/FieldCheck.lean ====
section
/-!
DEFINITION. The checks of R239 steps 2 to 4 on the field values that a term of Instr holds. The decoder makes the
others, on bits that must be zero.
-/
namespace Sys2Proof.Machine

/-- R237: the operations and types that `vred` and `vscan` combine. -/
def redForm (op : BitVec 4) (ty : BitVec 3) : Bool :=
  (op.toNat ≤ 5 && ty.toNat ≤ 3) || (6 ≤ op.toNat && op.toNat ≤ 8 && 4 ≤ ty.toNat && ty.toNat ≤ 5)

/-- R238: the special registers that `sset` may not write. -/
def sregReadOnly (n : Nat) : Bool :=
  n ≤ 4 || n = 6 || (16 ≤ n && n ≤ 21) || n = 23

/-- R237: AOP of major 60. -/
def aopOf (aoph : BitVec 2) (func : BitVec 3) : Nat := aoph.toNat * 8 + func.toNat

/-- The first cause of a list whose condition holds. Where several checks of one step fail, the order is that in which
R239 lists them (log 11). -/
def firstCause : List (Bool × Cause) → Option Cause
  | [] => none
  | (true, c) :: _ => some c
  | (false, _) :: l => firstCause l

/-- The cause that R239 steps 2 to 4 raise for an instruction term, none when it is well formed. -/
def fieldCause (i : Instr) : Option Cause :=
  match i with
  | .vadd _ _ _ _ _ _ => none
  | .vsub _ _ _ _ _ _ => none
  | .vmul _ _ _ _ _ _ => none
  | .vmulhiI32 _ _ _ _ _ _ => none
  | .vmulhiN32 _ _ _ _ _ _ => none
  | .vminI32 _ _ _ _ _ _ => none
  | .vmaxI32 _ _ _ _ _ _ => none
  | .vmad _ _ _ _ _ _ => none
  | .vand _ _ _ _ _ _ => none
  | .vor _ _ _ _ _ _ => none
  | .vxor _ _ _ _ _ _ => none
  | .vshl _ _ _ _ _ _ => none
  | .vshr _ _ _ _ _ _ => none
  | .vsra _ _ _ _ _ _ => none
  | .vminN32 _ _ _ _ _ _ => none
  | .vmaxN32 _ _ _ _ _ _ => none
  | .vaddB64 _ _ _ _ _ _ => none
  | .vsubB64 _ _ _ _ _ _ => none
  | .vmulB64 _ _ _ _ _ _ => none
  | .vshlB64 _ _ _ _ _ _ => none
  | .vshrB64 _ _ _ _ _ _ => none
  | .vsraB64 _ _ _ _ _ _ => none
  | .vminI64 _ _ _ _ _ _ => none
  | .vmaxI64 _ _ _ _ _ _ => none
  | .vandB64 _ _ _ _ _ _ => none
  | .vorB64 _ _ _ _ _ _ => none
  | .vxorB64 _ _ _ _ _ _ => none
  | .vminN64 _ _ _ _ _ _ => none
  | .vmaxN64 _ _ _ _ _ _ => none
  | .vmulhiI64 _ _ _ _ _ _ => none
  | .vmulhiN64 _ _ _ _ _ _ => none
  | .vnot _ _ _ _ => none
  | .vnegI32 _ _ _ _ => none
  | .vabsI32 _ _ _ _ => none
  | .vpopc _ _ _ _ => none
  | .vclz _ _ _ _ => none
  | .vbrev _ _ _ _ => none
  | .vnegI64 _ _ _ _ => none
  | .vabsI64 _ _ _ _ => none
  | .vaddSatI32 _ _ _ _ _ _ => none
  | .vsubSatI32 _ _ _ _ _ _ => none
  | .vaddSatN32 _ _ _ _ _ _ => none
  | .vsubSatN32 _ _ _ _ _ _ => none
  | .vaddSatI64 _ _ _ _ _ _ => none
  | .vsubSatI64 _ _ _ _ _ _ => none
  | .vaddSatN64 _ _ _ _ _ _ => none
  | .vsubSatN64 _ _ _ _ _ _ => none
  | .vsel _ _ _ _ _ _ _ => none
  | .vtix _ _ => none
  | .vshape _ _ => none
  | .vrdx _ _ _ => none
  | .vwrx _ _ _ _ => none
  | .vfaddF32 _ _ _ _ _ _ _ => none
  | .vfsubF32 _ _ _ _ _ _ _ => none
  | .vfmulF32 _ _ _ _ _ _ _ => none
  | .vfmaF32 _ _ _ _ _ _ _ => none
  | .vfdivF32 _ _ _ _ _ _ _ => none
  | .vfsqrtF32 _ _ _ _ _ => none
  | .vfaddF64 _ _ _ _ _ _ _ => none
  | .vfsubF64 _ _ _ _ _ _ _ => none
  | .vfmulF64 _ _ _ _ _ _ _ => none
  | .vfmaF64 _ _ _ _ _ _ _ => none
  | .vfdivF64 _ _ _ _ _ _ _ => none
  | .vfsqrtF64 _ _ _ _ _ => none
  | .vfminF32 _ _ _ _ _ _ => none
  | .vfmaxF32 _ _ _ _ _ _ => none
  | .vfminF64 _ _ _ _ _ _ => none
  | .vfmaxF64 _ _ _ _ _ _ => none
  | .vfrcpF32 _ _ _ _ => none
  | .vfrsqF32 _ _ _ _ => none
  | .vfexp2F32 _ _ _ _ => none
  | .vflog2F32 _ _ _ _ => none
  | .vcmpI32 _ _ _ _ _ cond md => firstCause [(6 ≤ cond.toNat, .encField), (md = 0, .encMdst)]
  | .vcmpN32 _ _ _ _ _ cond md => firstCause [(6 ≤ cond.toNat, .encField), (md = 0, .encMdst)]
  | .vcmpI64 _ _ _ _ _ cond md => firstCause [(6 ≤ cond.toNat, .encField), (md = 0, .encMdst)]
  | .vcmpN64 _ _ _ _ _ cond md => firstCause [(6 ≤ cond.toNat, .encField), (md = 0, .encMdst)]
  | .vfcmpF32 _ _ _ _ _ _ md => firstCause [(md = 0, .encMdst)]
  | .vfcmpF64 _ _ _ _ _ _ md => firstCause [(md = 0, .encMdst)]
  | .vcvt _ _ rm src dst _ _ => firstCause [(src.toNat < 8 && dst.toNat < 8 && 2 ≤ rm.toNat, .encField)]
  | .vaddImm _ _ _ _ _ => none
  | .vandImm _ _ _ _ _ => none
  | .vshlImm _ _ _ _ _ => none
  | .vshrImm _ _ _ _ _ => none
  | .vsraImm _ _ _ _ _ => none
  | .vshfl _ _ _ _ _ _ => none
  | .vballot _ _ _ _ => none
  | .xshf _ _ _ _ _ => none
  | .vred _ _ rm ty op _ _ => firstCause [(!redForm op ty || (op ≠ 6 && rm ≠ 0), .encField)]
  | .vscan _ _ _ rm ty op _ _ => firstCause [(!redForm op ty || (op ≠ 6 && rm ≠ 0), .encField)]
  | .vminidx _ _ ty _ _ => firstCause [(ty = 3, .encField)]
  | .vmaxidx _ _ ty _ _ => firstCause [(ty = 3, .encField)]
  | .mand _ _ md => firstCause [(md = 0, .encMdst)]
  | .mor _ _ md => firstCause [(md = 0, .encMdst)]
  | .mnot _ md => firstCause [(md = 0, .encMdst)]
  | .mpopc _ _ => none
  | .mfirst _ _ => none
  | .vpln _ _ _ _ _ => none
  | .vqnt _ _ _ _ _ => none
  | .mma _ _ _ _ => none
  | .mmsp _ _ _ _ => none
  | .mzero _ => none
  | .cpyPln _ _ => none
  | .cpyPlnUnp _ _ => none
  | .cpyFold _ _ _ => none
  | .sadd _ _ _ _ _ => none
  | .ssub _ _ _ _ _ => none
  | .smul _ _ _ _ _ => none
  | .sand _ _ _ _ _ => none
  | .sor _ _ _ _ _ => none
  | .sxor _ _ _ _ _ => none
  | .smin _ _ _ _ _ _ => none
  | .smax _ _ _ _ _ _ => none
  | .sshl _ _ _ _ _ => none
  | .sshr _ _ _ _ _ => none
  | .ssra _ _ _ _ _ => none
  | .smov _ _ _ => none
  | .scmp _ _ _ _ _ _ cond => firstCause [(6 ≤ cond.toNat, .encFunc)]
  | .saddImm _ _ => none
  | .sandImm _ _ => none
  | .sorImm _ _ => none
  | .sxorImm _ _ => none
  | .sshlImm _ _ => none
  | .sshrImm _ _ => none
  | .ssraImm _ _ => none
  | .smulImm _ _ => none
  | .sli _ _ => none
  | .slih _ _ h => firstCause [(h = 0, .encField)]
  | .sget n _ => firstCause [(24 ≤ n.toNat, .encSreg)]
  | .sset n _ => firstCause [(24 ≤ n.toNat, .encSreg), (sregReadOnly n.toNat, .encSro)]
  | .bcnd _ _ cond => firstCause [(6 ≤ cond.toNat, .encFunc)]
  | .loop _ ss => firstCause [(ss = 0, .encField)]
  | .vbra _ _ _ => none
  | .bra _ => none
  | .call _ => none
  | .ret _ _ => none
  | .retX _ _ => none
  | .trap _ => none
  | .brk _ => none
  | .sfp _ => none
  | .scopeOpen k => firstCause [(k = 0, .encField)]
  | .rgive k => firstCause [(128 < k.toNat, .encField)]
  | .rclaim k sd => firstCause [(128 < k.toNat || sd = 0, .encField)]
  | .exitSucc _ => none
  | .tjoin _ _ => none
  | .fence scope _ => firstCause [(6 ≤ scope.toNat, .encField)]
  | .cmk _ _ _ _ => none
  | .cbnd _ _ _ _ => none
  | .cperm _ _ _ _ => none
  | .cseal _ _ => none
  | .cget sel _ _ => firstCause [(8 ≤ sel.toNat, .encField)]
  | .xbind _ _ _ _ => none
  | .cld _ _ _ _ => none
  | .cst _ _ _ _ => none
  | .vld _ _ _ _ _ _ w => firstCause [(6 ≤ w.toNat, .encFunc)]
  | .vldAcq _ _ scope _ _ _ w => firstCause [(6 ≤ w.toNat, .encFunc), (6 ≤ scope.toNat, .encField)]
  | .vst _ _ _ _ _ _ _ _ => none
  | .vstRel _ _ scope _ _ _ _ _ => firstCause [(6 ≤ scope.toNat, .encField)]
  | .vldNt _ _ _ _ _ _ w => firstCause [(6 ≤ w.toNat, .encFunc)]
  | .vstNt _ _ _ _ _ _ _ => none
  | .sld ord scope _ _ _ w => firstCause [(w = 7, .encFunc), (6 ≤ scope.toNat || (ord = 0 && scope ≠ 0), .encField)]
  | .sst ord scope _ _ _ _ _ => firstCause [(6 ≤ scope.toNat || (ord = 0 && scope ≠ 0), .encField)]
  | .lds _ _ _ _ _ _ w => firstCause [(6 ≤ w.toNat, .encFunc)]
  | .sts _ _ _ _ _ _ _ _ => none
  | .pfch _ lsel _ _ _ => firstCause [(2 ≤ lsel.toNat, .encField)]
  | .tld _ _ _ _ _ => none
  | .tst _ _ _ _ _ _ => none
  | .launch _ _ _ => none
  | .smap ss2 _ _ => firstCause [(60 < ss2.toNat, .encSgrp)]
  | .sunmap _ _ => none
  | .sflush _ _ _ => none
  | .sinval _ _ _ => none
  | .vatomAddB32 _ _ _ _ _ _ _ => none
  | .vatomMinI32 _ _ _ _ _ _ _ => none
  | .vatomMaxI32 _ _ _ _ _ _ _ => none
  | .vatomMinN32 _ _ _ _ _ _ _ => none
  | .vatomMaxN32 _ _ _ _ _ _ _ => none
  | .vatomAndB32 _ _ _ _ _ _ _ => none
  | .vatomOrB32 _ _ _ _ _ _ _ => none
  | .vatomXorB32 _ _ _ _ _ _ _ => none
  | .vatomAddB64 _ _ _ _ _ _ _ => none
  | .vatomMinI64 _ _ _ _ _ _ _ => none
  | .vatomMaxI64 _ _ _ _ _ _ _ => none
  | .vatomMinN64 _ _ _ _ _ _ _ => none
  | .vatomMaxN64 _ _ _ _ _ _ _ => none
  | .vatomAndB64 _ _ _ _ _ _ _ => none
  | .vatomOrB64 _ _ _ _ _ _ _ => none
  | .vatomXorB64 _ _ _ _ _ _ _ => none
  | .vatomXchgB32 _ _ _ _ _ _ _ => none
  | .vatomXchgB64 _ _ _ _ _ _ _ => none
  | .vatomCasB32 _ _ _ _ _ _ => none
  | .vatomCasB64 _ _ _ _ _ _ => none
  | .vratomAddBf16 _ _ _ _ _ _ _ => none
  | .vatomFaddF32 _ _ _ _ _ _ _ => none
  | .vatomFaddF64 _ _ _ _ _ _ _ => none
  | .vatomFaddBf16x2 _ _ _ _ _ _ _ => none
  | .vatomFaddF16x2 _ _ _ _ _ _ _ => none
  | .vatomFaddF32Mrg _ _ _ _ _ _ _ => none
  | .vatomFaddF64Mrg _ _ _ _ _ _ _ => none
  | .vatomFaddBf16x2Mrg _ _ _ _ _ _ _ => none
  | .vatomFaddF16x2Mrg _ _ _ _ _ _ _ => none
  | .satom aoph _ f _ _ _ _ func => firstCause [(28 ≤ aopOf aoph func || ((aopOf aoph func = 18 || aopOf aoph func = 19) && f = 0), .encField)]
  | .lckAcq _ _ _ sd => firstCause [(sd = 0, .encField)]
  | .lckTry _ _ sd => firstCause [(sd = 0, .encField)]
  | .lckRel _ _ => none
  | .lckStat _ _ sd => firstCause [(sd = 0, .encField)]
  | .mwait _ _ _ sd => firstCause [(sd = 0, .encField)]
  | .barrArr _ _ _ => none
  | .barrAw _ _ _ => none
  | .barrDrop _ _ _ => none
  | .ewait _ _ => none
  | .gnode sd => firstCause [(sd = 0, .encField)]
  | .glink _ _ => none
  | .ringGet _ _ => none
  | .ringPut _ _ => none
  | .tdesc _ ss => firstCause [(60 < ss.toNat, .encSgrp)]
  | .tdget _ sd => firstCause [(60 < sd.toNat, .encSgrp)]
  | .cpy g _ _ _ sd => firstCause [(g = 0 && sd ≠ 0, .encField)]
  | .cpyGth g _ _ sk sd => firstCause [(g = 0 && sd ≠ 0, .encField), (61 < sk.toNat, .encSgrp)]
  | .cpyRmt g _ _ sk sd => firstCause [(g = 0 && sd ≠ 0, .encField), (62 < sk.toNat, .encSgrp)]
  | .cpyTr8 g _ _ sk sd => firstCause [(g = 0 && sd ≠ 0, .encField), (62 < sk.toNat, .encSgrp)]
  | .cpyTr16 g _ _ sk sd => firstCause [(g = 0 && sd ≠ 0, .encField), (62 < sk.toNat, .encSgrp)]
  | .vadd16 vs2 vd => firstCause [(vs2 = 0 && vd = 0, .encHalf)]
  | .vsub16 _ _ => none
  | .vmul16 _ _ => none
  | .vand16 _ _ => none
  | .vor16 _ _ => none
  | .vxor16 _ _ => none
  | .vshl16 _ _ => none
  | .vshr16 _ _ => none
  | .vsra16 _ _ => none
  | .vminI3216 _ _ => none
  | .vmaxI3216 _ _ => none
  | .vfaddF3216 _ _ => none
  | .vfsubF3216 _ _ => none
  | .vfmulF3216 _ _ => none
  | .vfminF3216 _ _ => none
  | .vfmaxF3216 _ _ => none
  | .nop => none
  | .vjoin => none
  | .exit => none
  | .roleYield => none
  | .scopeClose => none
  | .contDep => none
  | .tleave => none
  | .ntdrain => none
  | .capabilityMint _ _ _ _ _ _ => none
  | .setRootTable _ _ => none
  | .tlbShootdown _ _ _ => none
  | .generationRaise _ => none
  | .generationRaiseComplete _ => none
  | .generationSet _ _ => none
  | .lockDrainRequest _ => none
  | .brokenMarkClear _ => none
  | .queueRegister _ _ _ _ => none
  | .peerTableWrite _ _ _ _ _ _ => none
  | .policyWrite _ _ => none
  | .preemptRequest _ _ => none
  | .preemptContextSave _ _ => none
  | .preemptWithdraw _ _ => none
  | .contextRestore _ _ => none
  | .thermalMigration _ => none
  | .contextEnd _ => none
  | .faultResolveRetry _ => none
  | .faultResolveSkip _ => none
  | .faultResolveUser _ => none
  | .faultResolveEnd _ => none
  | .spillResizeResume _ _ => none
  | .eclkAdvance => none
  | .xwLoad _ _ => none
  | .xwLeaseExpiry _ _ => none
  | .pageWalkComplete _ => none
  | .requestRefused _ => none
  | .homeRead _ => none
  | .homeOwnership _ => none
  | .homeWriteThrough _ => none
  | .homeWriteBack _ _ _ _ => none
  | .invalidationReceived _ _ => none
  | .recallReceived _ _ _ _ => none
  | .forwardedRead _ => none
  | .invalidationAck _ => none
  | .ownershipAck _ => none
  | .releaseMarkerHead _ => none
  | .heldAccessRelease _ _ => none
  | .leaseRead _ => none
  | .leaseWrite _ => none
  | .leaseWriteHoldEnd _ => none
  | .sliceLeaseSweep _ => none
  | .coreLeaseSweep _ => none
  | .replyArrival _ _ => none
  | .stashFillArrival _ => none
  | .homeAtomic _ => none
  | .homeRowAtomic _ => none
  | .routerMerge _ _ => none
  | .routerMergeReply _ => none
  | .lockRequestArrival _ => none
  | .lockReleaseArrival _ => none
  | .lockWaiterExpiry _ _ => none
  | .lckHold _ => none
  | .deadlockProbe _ _ => none
  | .lockStatRequest _ => none
  | .mwaitRequestArrival _ => none
  | .monitorExpiry _ => none
  | .barrierUpdate _ _ => none
  | .barrierCarriedCompletion _ _ => none
  | .barrierHeldArrival _ _ => none
  | .granuleRoleMove _ _ => none
  | .dispatcherServe => none
  | .waitCounterPoll _ => none
  | .dispatchComplete _ => none
  | .relaunchStep _ => none
  | .contStall _ => none
  | .rebalancePending _ => none
  | .sfpLate _ _ => none
  | .succReadComplete _ => none
  | .launchAction _ => none
  | .xshfRequestArrival _ => none
  | .xshfStale _ _ => none
  | .engineCommandComplete _ _ => none
  | .graphNodeStart _ _ => none
  | .matrixStart _ => none
  | .operandsConsumed _ => none
  | .matrixRetire _ => none
  | .ringPublishEffect _ _ => none
  | .deferredCauseDelivery _ => none
  | .hostWrite _ _ _ => none
  | .hostRead _ _ _ => none
  | .hostCompletion _ _ => none
  | .hostCompletionTimeout _ => none
  | .colWriteArrival _ _ _ _ _ => none
  | .flitData _ _ => none
  | .flitIdle _ _ => none
  | .flitNak _ _ _ => none
  | .flitRetrainRequest _ _ => none
  | .retrainAttemptTimeout _ => none
  | .linkstatClear _ _ => none
  | .checkpointExtentList _ => none
  | .checkpointHostCommand _ => none
  | .powerLossWarning => none
  | .checkpointStream => none
  | .checkpointRestore => none
  | .namedTickStop _ => none
  | .sampctlWrite _ _ => none
  | .stallSample _ => none
  | .occupancyRecord _ => none
  | .debugHold _ _ => none
  | .debugRelease _ => none
  | .debugStep _ => none
  | .watchpointStop _ _ => none
  | .debugRoleHalt _ _ => none
  | .debugRoleRelease _ _ => none
  | .packageReset _ => none
  | .recoveryImageWrite _ _ => none
  | .firmwareImageStage _ _ => none
  | .attestationReport _ => none
  | .ageingMeasurement _ _ _ => none
  | .guardbandRequest _ _ => none
  | .thermalThrottle _ => none
  | .thermalTrip _ => none
  | .retrainComplete _ _ => none
  | .configurationSpaceWrite _ _ => none
  | .hostPortWriteSent _ => none
  | .operatingPointChangeDone _ => none

end Sys2Proof.Machine
end

