-- ==== Sys2Proof/Decode.lean ====
section
/-!
DEFINITION. The words of instructions (R230 to R241): the decoder, total on every word, which refuses by the cause of
R239 steps 2 to 4 where the field at fault has no place in the term, and the encoder. The checks on values that the
terms hold stand in Machine/FieldCheck.lean.
-/
namespace Sys2Proof
open Machine

/-- One instruction in a code stream: a halfword, or a word whose low half comes first (R230). -/
structure Code where
  wide : Bool
  word : BitVec 32
  deriving DecidableEq, Repr

/-- The instruction at the start of a code stream whose first 32 bits, little-endian, are `w` (R230: bit 0 of the first
halfword gives the length). -/
def codeOfNat (w : Nat) : Code :=
  if w % 2 = 0 then { wide := false, word := BitVec.ofNat 32 (w % 2 ^ 16) } else { wide := true, word := BitVec.ofNat 32 w }

/-- The field of `n` bits that begins at bit `lo`. -/
def bf (w : BitVec 32) (lo n : Nat) : BitVec n := BitVec.ofNat n (w.toNat / 2 ^ lo)

/-- R239 step 4: the fields listed (first bit, width) must be zero, or the instruction raises ENC_FIELD. -/
def must (zs : List (Nat × Nat)) (w : BitVec 32) (i : Instr) : Except Cause Instr :=
  if zs.all fun z => w.toNat / 2 ^ z.1 % 2 ^ z.2 == 0 then .ok i else .error .encField

/-- R314: a bit that must be set, or the instruction raises ENC_FIELD. -/
def mustSet (k : Nat) (w : BitVec 32) (i : Instr) : Except Cause Instr :=
  if w.toNat / 2 ^ k % 2 = 1 then .ok i else .error .encField

/-- R239 step 3: a FUNC field at or above `n` is reserved. -/
def below (n : Nat) (w : BitVec 32) (r : Except Cause Instr) : Except Cause Instr :=
  if w.toNat / 2 ^ 7 % 8 < n then r else .error .encFunc

/-- The sixteen compact forms (R231); the halfword 0 is reserved. -/
def decode16 (w : BitVec 32) : Except Cause Instr :=
  if w = 0 then .error .encHalf else
  match (bf w 1 4).toNat with
  | 0 => .ok (.vadd16 (bf w 11 5) (bf w 5 6))
  | 1 => .ok (.vsub16 (bf w 11 5) (bf w 5 6))
  | 2 => .ok (.vmul16 (bf w 11 5) (bf w 5 6))
  | 3 => .ok (.vand16 (bf w 11 5) (bf w 5 6))
  | 4 => .ok (.vor16 (bf w 11 5) (bf w 5 6))
  | 5 => .ok (.vxor16 (bf w 11 5) (bf w 5 6))
  | 6 => .ok (.vshl16 (bf w 11 5) (bf w 5 6))
  | 7 => .ok (.vshr16 (bf w 11 5) (bf w 5 6))
  | 8 => .ok (.vsra16 (bf w 11 5) (bf w 5 6))
  | 9 => .ok (.vminI3216 (bf w 11 5) (bf w 5 6))
  | 10 => .ok (.vmaxI3216 (bf w 11 5) (bf w 5 6))
  | 11 => .ok (.vfaddF3216 (bf w 11 5) (bf w 5 6))
  | 12 => .ok (.vfsubF3216 (bf w 11 5) (bf w 5 6))
  | 13 => .ok (.vfmulF3216 (bf w 11 5) (bf w 5 6))
  | 14 => .ok (.vfminF3216 (bf w 11 5) (bf w 5 6))
  | _ => .ok (.vfmaxF3216 (bf w 11 5) (bf w 5 6))

/-- Major 0, VIA (R236). -/
def decodeVia (w : BitVec 32) : Except Cause Instr :=
  match (bf w 7 3).toNat with
  | 0 => .ok (.vadd (bf w 30 2) (bf w 29 1) (bf w 28 1) (bf w 22 6) (bf w 16 6) (bf w 10 6))
  | 1 => .ok (.vsub (bf w 30 2) (bf w 29 1) (bf w 28 1) (bf w 22 6) (bf w 16 6) (bf w 10 6))
  | 2 => .ok (.vmul (bf w 30 2) (bf w 29 1) (bf w 28 1) (bf w 22 6) (bf w 16 6) (bf w 10 6))
  | 3 => .ok (.vmulhiI32 (bf w 30 2) (bf w 29 1) (bf w 28 1) (bf w 22 6) (bf w 16 6) (bf w 10 6))
  | 4 => .ok (.vmulhiN32 (bf w 30 2) (bf w 29 1) (bf w 28 1) (bf w 22 6) (bf w 16 6) (bf w 10 6))
  | 5 => .ok (.vminI32 (bf w 30 2) (bf w 29 1) (bf w 28 1) (bf w 22 6) (bf w 16 6) (bf w 10 6))
  | 6 => .ok (.vmaxI32 (bf w 30 2) (bf w 29 1) (bf w 28 1) (bf w 22 6) (bf w 16 6) (bf w 10 6))
  | _ => .ok (.vmad (bf w 30 2) (bf w 29 1) (bf w 28 1) (bf w 22 6) (bf w 16 6) (bf w 10 6))

/-- Major 1, VIB (R236). -/
def decodeVib (w : BitVec 32) : Except Cause Instr :=
  match (bf w 7 3).toNat with
  | 0 => .ok (.vand (bf w 30 2) (bf w 29 1) (bf w 28 1) (bf w 22 6) (bf w 16 6) (bf w 10 6))
  | 1 => .ok (.vor (bf w 30 2) (bf w 29 1) (bf w 28 1) (bf w 22 6) (bf w 16 6) (bf w 10 6))
  | 2 => .ok (.vxor (bf w 30 2) (bf w 29 1) (bf w 28 1) (bf w 22 6) (bf w 16 6) (bf w 10 6))
  | 3 => .ok (.vshl (bf w 30 2) (bf w 29 1) (bf w 28 1) (bf w 22 6) (bf w 16 6) (bf w 10 6))
  | 4 => .ok (.vshr (bf w 30 2) (bf w 29 1) (bf w 28 1) (bf w 22 6) (bf w 16 6) (bf w 10 6))
  | 5 => .ok (.vsra (bf w 30 2) (bf w 29 1) (bf w 28 1) (bf w 22 6) (bf w 16 6) (bf w 10 6))
  | 6 => .ok (.vminN32 (bf w 30 2) (bf w 29 1) (bf w 28 1) (bf w 22 6) (bf w 16 6) (bf w 10 6))
  | _ => .ok (.vmaxN32 (bf w 30 2) (bf w 29 1) (bf w 28 1) (bf w 22 6) (bf w 16 6) (bf w 10 6))

/-- Major 2, VIC (R236). -/
def decodeVic (w : BitVec 32) : Except Cause Instr :=
  match (bf w 7 3).toNat with
  | 0 => .ok (.vaddB64 (bf w 30 2) (bf w 29 1) (bf w 28 1) (bf w 22 6) (bf w 16 6) (bf w 10 6))
  | 1 => .ok (.vsubB64 (bf w 30 2) (bf w 29 1) (bf w 28 1) (bf w 22 6) (bf w 16 6) (bf w 10 6))
  | 2 => .ok (.vmulB64 (bf w 30 2) (bf w 29 1) (bf w 28 1) (bf w 22 6) (bf w 16 6) (bf w 10 6))
  | 3 => .ok (.vshlB64 (bf w 30 2) (bf w 29 1) (bf w 28 1) (bf w 22 6) (bf w 16 6) (bf w 10 6))
  | 4 => .ok (.vshrB64 (bf w 30 2) (bf w 29 1) (bf w 28 1) (bf w 22 6) (bf w 16 6) (bf w 10 6))
  | 5 => .ok (.vsraB64 (bf w 30 2) (bf w 29 1) (bf w 28 1) (bf w 22 6) (bf w 16 6) (bf w 10 6))
  | 6 => .ok (.vminI64 (bf w 30 2) (bf w 29 1) (bf w 28 1) (bf w 22 6) (bf w 16 6) (bf w 10 6))
  | _ => .ok (.vmaxI64 (bf w 30 2) (bf w 29 1) (bf w 28 1) (bf w 22 6) (bf w 16 6) (bf w 10 6))

/-- Major 3, VID (R236). -/
def decodeVid (w : BitVec 32) : Except Cause Instr :=
  match (bf w 7 3).toNat with
  | 0 => .ok (.vandB64 (bf w 30 2) (bf w 29 1) (bf w 28 1) (bf w 22 6) (bf w 16 6) (bf w 10 6))
  | 1 => .ok (.vorB64 (bf w 30 2) (bf w 29 1) (bf w 28 1) (bf w 22 6) (bf w 16 6) (bf w 10 6))
  | 2 => .ok (.vxorB64 (bf w 30 2) (bf w 29 1) (bf w 28 1) (bf w 22 6) (bf w 16 6) (bf w 10 6))
  | 3 => .ok (.vminN64 (bf w 30 2) (bf w 29 1) (bf w 28 1) (bf w 22 6) (bf w 16 6) (bf w 10 6))
  | 4 => .ok (.vmaxN64 (bf w 30 2) (bf w 29 1) (bf w 28 1) (bf w 22 6) (bf w 16 6) (bf w 10 6))
  | 5 => .ok (.vmulhiI64 (bf w 30 2) (bf w 29 1) (bf w 28 1) (bf w 22 6) (bf w 16 6) (bf w 10 6))
  | 6 => .ok (.vmulhiN64 (bf w 30 2) (bf w 29 1) (bf w 28 1) (bf w 22 6) (bf w 16 6) (bf w 10 6))
  | _ => .error .encFunc

/-- Major 4, VUN (R236). -/
def decodeVun (w : BitVec 32) : Except Cause Instr :=
  match (bf w 7 3).toNat with
  | 0 => must [(22, 6), (29, 1)] w (.vnot (bf w 30 2) (bf w 28 1) (bf w 16 6) (bf w 10 6))
  | 1 => must [(22, 6), (29, 1)] w (.vnegI32 (bf w 30 2) (bf w 28 1) (bf w 16 6) (bf w 10 6))
  | 2 => must [(22, 6), (29, 1)] w (.vabsI32 (bf w 30 2) (bf w 28 1) (bf w 16 6) (bf w 10 6))
  | 3 => must [(22, 6), (29, 1)] w (.vpopc (bf w 30 2) (bf w 28 1) (bf w 16 6) (bf w 10 6))
  | 4 => must [(22, 6), (29, 1)] w (.vclz (bf w 30 2) (bf w 28 1) (bf w 16 6) (bf w 10 6))
  | 5 => must [(22, 6), (29, 1)] w (.vbrev (bf w 30 2) (bf w 28 1) (bf w 16 6) (bf w 10 6))
  | 6 => must [(22, 6), (29, 1)] w (.vnegI64 (bf w 30 2) (bf w 28 1) (bf w 16 6) (bf w 10 6))
  | _ => must [(22, 6), (29, 1)] w (.vabsI64 (bf w 30 2) (bf w 28 1) (bf w 16 6) (bf w 10 6))

/-- Major 5, VSAT (R236). -/
def decodeVsat (w : BitVec 32) : Except Cause Instr :=
  match (bf w 7 3).toNat with
  | 0 => .ok (.vaddSatI32 (bf w 30 2) (bf w 29 1) (bf w 28 1) (bf w 22 6) (bf w 16 6) (bf w 10 6))
  | 1 => .ok (.vsubSatI32 (bf w 30 2) (bf w 29 1) (bf w 28 1) (bf w 22 6) (bf w 16 6) (bf w 10 6))
  | 2 => .ok (.vaddSatN32 (bf w 30 2) (bf w 29 1) (bf w 28 1) (bf w 22 6) (bf w 16 6) (bf w 10 6))
  | 3 => .ok (.vsubSatN32 (bf w 30 2) (bf w 29 1) (bf w 28 1) (bf w 22 6) (bf w 16 6) (bf w 10 6))
  | 4 => .ok (.vaddSatI64 (bf w 30 2) (bf w 29 1) (bf w 28 1) (bf w 22 6) (bf w 16 6) (bf w 10 6))
  | 5 => .ok (.vsubSatI64 (bf w 30 2) (bf w 29 1) (bf w 28 1) (bf w 22 6) (bf w 16 6) (bf w 10 6))
  | 6 => .ok (.vaddSatN64 (bf w 30 2) (bf w 29 1) (bf w 28 1) (bf w 22 6) (bf w 16 6) (bf w 10 6))
  | _ => .ok (.vsubSatN64 (bf w 30 2) (bf w 29 1) (bf w 28 1) (bf w 22 6) (bf w 16 6) (bf w 10 6))

/-- Major 6, VSEL (R236). -/
def decodeVsel (w : BitVec 32) : Except Cause Instr :=
  .ok (.vsel (bf w 30 2) (bf w 29 1) (bf w 28 1) (bf w 22 6) (bf w 16 6) (bf w 10 6) (bf w 7 3))

/-- Major 7, VMISC (R236). -/
def decodeVmisc (w : BitVec 32) : Except Cause Instr :=
  match (bf w 7 3).toNat with
  | 0 => must [(16, 14)] w (.vtix (bf w 30 2) (bf w 10 6))
  | 1 => must [(22, 10)] w (.vshape (bf w 16 6) (bf w 10 6))
  | 2 => must [(22, 8)] w (.vrdx (bf w 30 2) (bf w 16 6) (bf w 10 6))
  | 3 => must [(10, 6), (28, 1)] w (.vwrx (bf w 30 2) (bf w 29 1) (bf w 22 6) (bf w 16 6))
  | _ => .error .encFunc

/-- Major 8, VFA32 (R236). -/
def decodeVfa32 (w : BitVec 32) : Except Cause Instr :=
  if bf w 7 1 = 0 then .ok (.vfaddF32 (bf w 30 2) (bf w 29 1) (bf w 28 1) (bf w 22 6) (bf w 16 6) (bf w 10 6) (bf w 8 2)) else .ok (.vfsubF32 (bf w 30 2) (bf w 29 1) (bf w 28 1) (bf w 22 6) (bf w 16 6) (bf w 10 6) (bf w 8 2))

/-- Major 9, VFM32 (R236). -/
def decodeVfm32 (w : BitVec 32) : Except Cause Instr :=
  if bf w 7 1 = 0 then .ok (.vfmulF32 (bf w 30 2) (bf w 29 1) (bf w 28 1) (bf w 22 6) (bf w 16 6) (bf w 10 6) (bf w 8 2)) else .ok (.vfmaF32 (bf w 30 2) (bf w 29 1) (bf w 28 1) (bf w 22 6) (bf w 16 6) (bf w 10 6) (bf w 8 2))

/-- Major 10, VFD32 (R236). -/
def decodeVfd32 (w : BitVec 32) : Except Cause Instr :=
  if bf w 7 1 = 0 then .ok (.vfdivF32 (bf w 30 2) (bf w 29 1) (bf w 28 1) (bf w 22 6) (bf w 16 6) (bf w 10 6) (bf w 8 2)) else must [(22, 6), (29, 1)] w (.vfsqrtF32 (bf w 30 2) (bf w 28 1) (bf w 16 6) (bf w 10 6) (bf w 8 2))

/-- Major 11, VFA64 (R236). -/
def decodeVfa64 (w : BitVec 32) : Except Cause Instr :=
  if bf w 7 1 = 0 then .ok (.vfaddF64 (bf w 30 2) (bf w 29 1) (bf w 28 1) (bf w 22 6) (bf w 16 6) (bf w 10 6) (bf w 8 2)) else .ok (.vfsubF64 (bf w 30 2) (bf w 29 1) (bf w 28 1) (bf w 22 6) (bf w 16 6) (bf w 10 6) (bf w 8 2))

/-- Major 12, VFM64 (R236). -/
def decodeVfm64 (w : BitVec 32) : Except Cause Instr :=
  if bf w 7 1 = 0 then .ok (.vfmulF64 (bf w 30 2) (bf w 29 1) (bf w 28 1) (bf w 22 6) (bf w 16 6) (bf w 10 6) (bf w 8 2)) else .ok (.vfmaF64 (bf w 30 2) (bf w 29 1) (bf w 28 1) (bf w 22 6) (bf w 16 6) (bf w 10 6) (bf w 8 2))

/-- Major 13, VFD64 (R236). -/
def decodeVfd64 (w : BitVec 32) : Except Cause Instr :=
  if bf w 7 1 = 0 then .ok (.vfdivF64 (bf w 30 2) (bf w 29 1) (bf w 28 1) (bf w 22 6) (bf w 16 6) (bf w 10 6) (bf w 8 2)) else must [(22, 6), (29, 1)] w (.vfsqrtF64 (bf w 30 2) (bf w 28 1) (bf w 16 6) (bf w 10 6) (bf w 8 2))

/-- Major 14, VFX (R236). -/
def decodeVfx (w : BitVec 32) : Except Cause Instr :=
  match (bf w 7 3).toNat with
  | 0 => .ok (.vfminF32 (bf w 30 2) (bf w 29 1) (bf w 28 1) (bf w 22 6) (bf w 16 6) (bf w 10 6))
  | 1 => .ok (.vfmaxF32 (bf w 30 2) (bf w 29 1) (bf w 28 1) (bf w 22 6) (bf w 16 6) (bf w 10 6))
  | 2 => .ok (.vfminF64 (bf w 30 2) (bf w 29 1) (bf w 28 1) (bf w 22 6) (bf w 16 6) (bf w 10 6))
  | 3 => .ok (.vfmaxF64 (bf w 30 2) (bf w 29 1) (bf w 28 1) (bf w 22 6) (bf w 16 6) (bf w 10 6))
  | 4 => must [(22, 6), (29, 1)] w (.vfrcpF32 (bf w 30 2) (bf w 28 1) (bf w 16 6) (bf w 10 6))
  | 5 => must [(22, 6), (29, 1)] w (.vfrsqF32 (bf w 30 2) (bf w 28 1) (bf w 16 6) (bf w 10 6))
  | 6 => must [(22, 6), (29, 1)] w (.vfexp2F32 (bf w 30 2) (bf w 28 1) (bf w 16 6) (bf w 10 6))
  | _ => must [(22, 6), (29, 1)] w (.vflog2F32 (bf w 30 2) (bf w 28 1) (bf w 16 6) (bf w 10 6))

/-- Major 15, VCMP (R236). -/
def decodeVcmp (w : BitVec 32) : Except Cause Instr :=
  match (bf w 7 3).toNat with
  | 0 => .ok (.vcmpI32 (bf w 30 2) (bf w 29 1) (bf w 28 1) (bf w 22 6) (bf w 16 6) (bf w 13 3) (bf w 10 3))
  | 1 => .ok (.vcmpN32 (bf w 30 2) (bf w 29 1) (bf w 28 1) (bf w 22 6) (bf w 16 6) (bf w 13 3) (bf w 10 3))
  | 2 => .ok (.vcmpI64 (bf w 30 2) (bf w 29 1) (bf w 28 1) (bf w 22 6) (bf w 16 6) (bf w 13 3) (bf w 10 3))
  | 3 => .ok (.vcmpN64 (bf w 30 2) (bf w 29 1) (bf w 28 1) (bf w 22 6) (bf w 16 6) (bf w 13 3) (bf w 10 3))
  | 4 => .ok (.vfcmpF32 (bf w 30 2) (bf w 29 1) (bf w 28 1) (bf w 22 6) (bf w 16 6) (bf w 13 3) (bf w 10 3))
  | 5 => .ok (.vfcmpF64 (bf w 30 2) (bf w 29 1) (bf w 28 1) (bf w 22 6) (bf w 16 6) (bf w 13 3) (bf w 10 3))
  | _ => .error .encFunc

/-- Major 16, VCVT (R236). -/
def decodeVcvt (w : BitVec 32) : Except Cause Instr :=
  .ok (.vcvt (bf w 30 2) (bf w 29 1) (bf w 27 2) (bf w 23 4) (bf w 19 4) (bf w 13 6) (bf w 7 6))

/-- Major 17, VADDI (R236). -/
def decodeVaddi (w : BitVec 32) : Except Cause Instr :=
  .ok (.vaddImm (bf w 30 2) (bf w 29 1) (bf w 19 10) (bf w 13 6) (bf w 7 6))

/-- Major 18, VANDI (R236). -/
def decodeVandi (w : BitVec 32) : Except Cause Instr :=
  .ok (.vandImm (bf w 30 2) (bf w 29 1) (bf w 19 10) (bf w 13 6) (bf w 7 6))

/-- Major 19, VSHI (R236). -/
def decodeVshi (w : BitVec 32) : Except Cause Instr :=
  match (bf w 27 2).toNat with
  | 0 => must [(24, 3)] w (.vshlImm (bf w 30 2) (bf w 29 1) (bf w 19 5) (bf w 13 6) (bf w 7 6))
  | 1 => must [(24, 3)] w (.vshrImm (bf w 30 2) (bf w 29 1) (bf w 19 5) (bf w 13 6) (bf w 7 6))
  | 2 => must [(24, 3)] w (.vsraImm (bf w 30 2) (bf w 29 1) (bf w 19 5) (bf w 13 6) (bf w 7 6))
  | _ => .error .encField

/-- Major 20, VXL (R236). -/
def decodeVxl (w : BitVec 32) : Except Cause Instr :=
  match (bf w 7 3).toNat with
  | 0 => .ok (.vshfl (bf w 30 2) (bf w 29 1) (bf w 28 1) (bf w 22 6) (bf w 16 6) (bf w 10 6))
  | 1 => must [(22, 6), (29, 1)] w (.vballot (bf w 30 2) (bf w 28 1) (bf w 16 6) (bf w 10 6))
  | 2 => must [(29, 1)] w (.xshf (bf w 30 2) (bf w 28 1) (bf w 22 6) (bf w 16 6) (bf w 10 6))
  | _ => .error .encFunc

/-- Major 21, VRED (R236). -/
def decodeVred (w : BitVec 32) : Except Cause Instr :=
  must [(28, 1)] w (.vred (bf w 30 2) (bf w 29 1) (bf w 26 2) (bf w 23 3) (bf w 19 4) (bf w 13 6) (bf w 7 6))

/-- Major 22, VSCAN (R236). -/
def decodeVscan (w : BitVec 32) : Except Cause Instr :=
  .ok (.vscan (bf w 30 2) (bf w 29 1) (bf w 28 1) (bf w 26 2) (bf w 23 3) (bf w 19 4) (bf w 13 6) (bf w 7 6))

/-- Major 23, VIDX (R236). -/
def decodeVidx (w : BitVec 32) : Except Cause Instr :=
  if bf w 19 1 = 0 then must [(22, 7)] w (.vminidx (bf w 30 2) (bf w 29 1) (bf w 20 2) (bf w 13 6) (bf w 7 6)) else must [(22, 7)] w (.vmaxidx (bf w 30 2) (bf w 29 1) (bf w 20 2) (bf w 13 6) (bf w 7 6))

/-- Major 24, MASK (R236). -/
def decodeMask (w : BitVec 32) : Except Cause Instr :=
  match (bf w 7 3).toNat with
  | 0 => must [(13, 3), (19, 3), (25, 7)] w (.mand (bf w 22 3) (bf w 16 3) (bf w 10 3))
  | 1 => must [(13, 3), (19, 3), (25, 7)] w (.mor (bf w 22 3) (bf w 16 3) (bf w 10 3))
  | 2 => must [(13, 3), (19, 13)] w (.mnot (bf w 16 3) (bf w 10 3))
  | 3 => must [(19, 13)] w (.mpopc (bf w 16 3) (bf w 10 6))
  | 4 => must [(19, 13)] w (.mfirst (bf w 16 3) (bf w 10 6))
  | _ => .error .encFunc

/-- Major 25, VPLN (R236). -/
def decodeVpln (w : BitVec 32) : Except Cause Instr :=
  must [(25, 4)] w (.vpln (bf w 30 2) (bf w 29 1) (bf w 19 6) (bf w 13 6) (bf w 7 6))

/-- Major 26, VQNT (R236). -/
def decodeVqnt (w : BitVec 32) : Except Cause Instr :=
  must [(26, 3)] w (.vqnt (bf w 30 2) (bf w 29 1) (bf w 19 7) (bf w 13 6) (bf w 7 6))

/-- Major 27, MTX (R236). -/
def decodeMtx (w : BitVec 32) : Except Cause Instr :=
  match (bf w 7 3).toNat with
  | 0 => must [(29, 3)] w (.mma (bf w 28 1) (bf w 21 7) (bf w 14 7) (bf w 10 4))
  | 1 => must [(29, 3)] w (.mmsp (bf w 28 1) (bf w 21 7) (bf w 14 7) (bf w 10 4))
  | 2 => must [(14, 18)] w (.mzero (bf w 10 4))
  | 3 => if bf w 28 1 = 0 then must [(21, 7), (29, 3)] w (.cpyPln (bf w 14 7) (bf w 10 4))
    else must [(21, 7), (29, 3)] w (.cpyPlnUnp (bf w 14 7) (bf w 10 4))
  | 4 => must [(28, 4)] w (.cpyFold (bf w 21 7) (bf w 14 7) (bf w 10 4))
  | _ => .error .encFunc

/-- Major 28, SALU (R236). -/
def decodeSalu (w : BitVec 32) : Except Cause Instr :=
  match (bf w 7 3).toNat with
  | 0 => must [(30, 2)] w (.sadd (bf w 29 1) (bf w 28 1) (bf w 22 6) (bf w 16 6) (bf w 10 6))
  | 1 => must [(30, 2)] w (.ssub (bf w 29 1) (bf w 28 1) (bf w 22 6) (bf w 16 6) (bf w 10 6))
  | 2 => must [(30, 2)] w (.smul (bf w 29 1) (bf w 28 1) (bf w 22 6) (bf w 16 6) (bf w 10 6))
  | 3 => must [(30, 2)] w (.sand (bf w 29 1) (bf w 28 1) (bf w 22 6) (bf w 16 6) (bf w 10 6))
  | 4 => must [(30, 2)] w (.sor (bf w 29 1) (bf w 28 1) (bf w 22 6) (bf w 16 6) (bf w 10 6))
  | 5 => must [(30, 2)] w (.sxor (bf w 29 1) (bf w 28 1) (bf w 22 6) (bf w 16 6) (bf w 10 6))
  | 6 => must [(31, 1)] w (.smin (bf w 30 1) (bf w 29 1) (bf w 28 1) (bf w 22 6) (bf w 16 6) (bf w 10 6))
  | _ => must [(31, 1)] w (.smax (bf w 30 1) (bf w 29 1) (bf w 28 1) (bf w 22 6) (bf w 16 6) (bf w 10 6))

/-- Major 29, SSH (R236). -/
def decodeSsh (w : BitVec 32) : Except Cause Instr :=
  match (bf w 7 3).toNat with
  | 0 => must [(30, 2)] w (.sshl (bf w 29 1) (bf w 28 1) (bf w 22 6) (bf w 16 6) (bf w 10 6))
  | 1 => must [(30, 2)] w (.sshr (bf w 29 1) (bf w 28 1) (bf w 22 6) (bf w 16 6) (bf w 10 6))
  | 2 => must [(30, 2)] w (.ssra (bf w 29 1) (bf w 28 1) (bf w 22 6) (bf w 16 6) (bf w 10 6))
  | 3 => must [(22, 6), (29, 3)] w (.smov (bf w 28 1) (bf w 16 6) (bf w 10 6))
  | _ => .error .encFunc

/-- Major 30, SCMP (R236). -/
def decodeScmp (w : BitVec 32) : Except Cause Instr :=
  below 6 w (must [(31, 1)] w (.scmp (bf w 30 1) (bf w 29 1) (bf w 28 1) (bf w 22 6) (bf w 16 6) (bf w 10 6) (bf w 7 3)))

/-- Major 31, SALUI (R236). -/
def decodeSalui (w : BitVec 32) : Except Cause Instr :=
  match (bf w 7 3).toNat with
  | 0 => .ok (.saddImm (bf w 16 16) (bf w 10 6))
  | 1 => .ok (.sandImm (bf w 16 16) (bf w 10 6))
  | 2 => .ok (.sorImm (bf w 16 16) (bf w 10 6))
  | 3 => .ok (.sxorImm (bf w 16 16) (bf w 10 6))
  | 4 => must [(22, 10)] w (.sshlImm (bf w 16 6) (bf w 10 6))
  | 5 => must [(22, 10)] w (.sshrImm (bf w 16 6) (bf w 10 6))
  | 6 => must [(22, 10)] w (.ssraImm (bf w 16 6) (bf w 10 6))
  | _ => .ok (.smulImm (bf w 16 16) (bf w 10 6))

/-- Major 32, SIMM (R236). -/
def decodeSimm (w : BitVec 32) : Except Cause Instr :=
  match (bf w 7 3).toNat with
  | 0 => .ok (.sli (bf w 16 16) (bf w 10 6))
  | 1 => .ok (.slih (bf w 16 16) (bf w 10 6) (bf w 7 2))
  | 2 => .ok (.slih (bf w 16 16) (bf w 10 6) (bf w 7 2))
  | 3 => .ok (.slih (bf w 16 16) (bf w 10 6) (bf w 7 2))
  | _ => .error .encFunc

/-- Major 33, SREG (R236). -/
def decodeSreg (w : BitVec 32) : Except Cause Instr :=
  match (bf w 7 3).toNat with
  | 0 => .ok (.sget (bf w 16 16) (bf w 10 6))
  | 1 => .ok (.sset (bf w 16 16) (bf w 10 6))
  | _ => .error .encFunc

/-- Major 34, BCND (R236). -/
def decodeBcnd (w : BitVec 32) : Except Cause Instr :=
  below 6 w (.ok (.bcnd (bf w 16 16) (bf w 10 6) (bf w 7 3)))

/-- Major 35, LOOP (R236). -/
def decodeLoop (w : BitVec 32) : Except Cause Instr :=
  match (bf w 7 3).toNat with
  | 0 => .ok (.loop (bf w 16 16) (bf w 10 6))
  | _ => .error .encFunc

/-- Major 36, VBRA (R236). -/
def decodeVbra (w : BitVec 32) : Except Cause Instr :=
  .ok (.vbra (bf w 21 11) (bf w 10 11) (bf w 7 3))

/-- Major 37, BRA (R236). -/
def decodeBra (w : BitVec 32) : Except Cause Instr :=
  .ok (.bra (bf w 7 25))

/-- Major 38, CALL (R236). -/
def decodeCall (w : BitVec 32) : Except Cause Instr :=
  .ok (.call (bf w 7 25))

/-- Major 39, CTL0 (R236). -/
def decodeCtl0 (w : BitVec 32) : Except Cause Instr :=
  match (bf w 7 3).toNat with
  | 0 => must [(10, 22)] w .nop
  | 1 => must [(10, 22)] w .vjoin
  | 2 => must [(10, 22)] w .exit
  | 3 => must [(10, 22)] w .roleYield
  | 4 => must [(10, 22)] w .scopeClose
  | 5 => must [(10, 22)] w .contDep
  | 6 => if bf w 30 1 = 0 then must [(10, 6), (22, 6), (29, 1), (31, 1)] w (.ret (bf w 28 1) (bf w 16 6))
    else must [(10, 6), (22, 6), (29, 1), (31, 1)] w (.retX (bf w 28 1) (bf w 16 6))
  | _ => must [(10, 22)] w .tleave

/-- Major 40, CTL1 (R236). -/
def decodeCtl1 (w : BitVec 32) : Except Cause Instr :=
  match (bf w 7 3).toNat with
  | 0 => must [(10, 6)] w (.trap (bf w 16 16))
  | 1 => must [(10, 6)] w (.brk (bf w 16 16))
  | 2 => must [(10, 6), (24, 8)] w (.sfp (bf w 16 8))
  | 3 => must [(10, 6), (22, 10)] w (.scopeOpen (bf w 16 6))
  | 4 => must [(10, 6), (24, 8)] w (.rgive (bf w 16 8))
  | 5 => must [(24, 8)] w (.rclaim (bf w 16 8) (bf w 10 6))
  | 6 => must [(16, 16)] w (.exitSucc (bf w 10 6))
  | _ => must [(22, 10)] w (.tjoin (bf w 16 6) (bf w 10 6))

/-- Major 41, FENCE (R236). -/
def decodeFence (w : BitVec 32) : Except Cause Instr :=
  match (bf w 7 3).toNat with
  | 0 => must [(10, 6), (21, 11)] w (.fence (bf w 18 3) (bf w 16 2))
  | 1 => must [(10, 22)] w .ntdrain
  | _ => .error .encFunc

/-- Major 42, CAPX (R236). -/
def decodeCapx (w : BitVec 32) : Except Cause Instr :=
  match (bf w 7 3).toNat with
  | 0 => must [(14, 2), (20, 2), (28, 1), (30, 2)] w (.cmk (bf w 29 1) (bf w 22 6) (bf w 16 4) (bf w 10 4))
  | 1 => must [(14, 2), (20, 2), (28, 1), (30, 2)] w (.cbnd (bf w 29 1) (bf w 22 6) (bf w 16 4) (bf w 10 4))
  | 2 => must [(14, 2), (20, 2), (28, 1), (30, 2)] w (.cperm (bf w 29 1) (bf w 22 6) (bf w 16 4) (bf w 10 4))
  | 3 => must [(14, 2), (20, 12)] w (.cseal (bf w 16 4) (bf w 10 4))
  | 4 => must [(20, 2), (28, 4)] w (.cget (bf w 22 6) (bf w 16 4) (bf w 10 6))
  | 5 => must [(13, 3), (20, 2), (28, 1), (30, 2)] w (.xbind (bf w 29 1) (bf w 22 6) (bf w 16 4) (bf w 10 3))
  | _ => .error .encFunc

/-- Major 43, CLS (R236). -/
def decodeCls (w : BitVec 32) : Except Cause Instr :=
  match (bf w 7 3).toNat with
  | 0 => must [(14, 2), (27, 5)] w (.cld (bf w 26 1) (bf w 22 4) (bf w 16 6) (bf w 10 4))
  | 1 => must [(14, 2), (27, 5)] w (.cst (bf w 26 1) (bf w 22 4) (bf w 16 6) (bf w 10 4))
  | _ => .error .encFunc

/-- Major 44, VLD (R236). -/
def decodeVld (w : BitVec 32) : Except Cause Instr :=
  below 6 w (must [(27, 1)] w (.vld (bf w 30 2) (bf w 28 2) (bf w 26 1) (bf w 22 4) (bf w 16 6) (bf w 10 6) (bf w 7 3)))

/-- Major 45, VLDA (R236). -/
def decodeVlda (w : BitVec 32) : Except Cause Instr :=
  below 6 w (.ok (.vldAcq (bf w 30 2) (bf w 29 1) (bf w 26 3) (bf w 22 4) (bf w 16 6) (bf w 10 6) (bf w 7 3)))

/-- Major 46, VST (R236). -/
def decodeVst (w : BitVec 32) : Except Cause Instr :=
  must [(28, 2)] w (.vst (bf w 30 2) (bf w 27 1) (bf w 26 1) (bf w 22 4) (bf w 16 6) (bf w 10 6) (bf w 9 1) (bf w 7 2))

/-- Major 47, VSTR (R236). -/
def decodeVstr (w : BitVec 32) : Except Cause Instr :=
  .ok (.vstRel (bf w 30 2) (bf w 29 1) (bf w 26 3) (bf w 22 4) (bf w 16 6) (bf w 10 6) (bf w 9 1) (bf w 7 2))

/-- Major 48, VLDNT (R236). -/
def decodeVldnt (w : BitVec 32) : Except Cause Instr :=
  below 6 w (must [(27, 1)] w (.vldNt (bf w 30 2) (bf w 28 2) (bf w 26 1) (bf w 22 4) (bf w 16 6) (bf w 10 6) (bf w 7 3)))

/-- Major 49, VSTNT (R236). -/
def decodeVstnt (w : BitVec 32) : Except Cause Instr :=
  must [(9, 1), (28, 2)] w (.vstNt (bf w 30 2) (bf w 27 1) (bf w 26 1) (bf w 22 4) (bf w 16 6) (bf w 10 6) (bf w 7 2))

/-- Major 50, SLD (R236). -/
def decodeSld (w : BitVec 32) : Except Cause Instr :=
  below 7 w (must [(30, 2)] w (.sld (bf w 29 1) (bf w 26 3) (bf w 22 4) (bf w 16 6) (bf w 10 6) (bf w 7 3)))

/-- Major 51, SST (R236). -/
def decodeSst (w : BitVec 32) : Except Cause Instr :=
  must [(30, 2)] w (.sst (bf w 29 1) (bf w 26 3) (bf w 22 4) (bf w 16 6) (bf w 10 6) (bf w 9 1) (bf w 7 2))

/-- Major 52, LDS (R236). -/
def decodeLds (w : BitVec 32) : Except Cause Instr :=
  below 6 w (must [(27, 1)] w (.lds (bf w 30 2) (bf w 28 2) (bf w 26 1) (bf w 22 4) (bf w 16 6) (bf w 10 6) (bf w 7 3)))

/-- Major 53, STS (R236). -/
def decodeSts (w : BitVec 32) : Except Cause Instr :=
  must [(28, 2)] w (.sts (bf w 30 2) (bf w 27 1) (bf w 26 1) (bf w 22 4) (bf w 16 6) (bf w 10 6) (bf w 9 1) (bf w 7 2))

/-- Major 54, MEMX (R236). -/
def decodeMemx (w : BitVec 32) : Except Cause Instr :=
  match (bf w 7 3).toNat with
  | 0 => must [(10, 6), (27, 1)] w (.pfch (bf w 30 2) (bf w 28 2) (bf w 26 1) (bf w 22 4) (bf w 16 6))
  | 1 => must [(27, 3)] w (.tld (bf w 30 2) (bf w 26 1) (bf w 22 4) (bf w 16 6) (bf w 10 6))
  | 2 => must [(28, 2)] w (.tst (bf w 30 2) (bf w 27 1) (bf w 26 1) (bf w 22 4) (bf w 16 6) (bf w 10 6))
  | 3 => must [(26, 6)] w (.launch (bf w 22 4) (bf w 16 6) (bf w 10 6))
  | _ => .error .encFunc

/-- Major 55, SMAPX (R236). -/
def decodeSmapx (w : BitVec 32) : Except Cause Instr :=
  match (bf w 7 3).toNat with
  | 0 => must [(20, 2), (28, 4)] w (.smap (bf w 22 6) (bf w 16 4) (bf w 10 6))
  | 1 => must [(10, 6), (22, 6), (29, 3)] w (.sunmap (bf w 28 1) (bf w 16 6))
  | 2 => must [(10, 6), (20, 2), (28, 1), (30, 2)] w (.sflush (bf w 29 1) (bf w 22 6) (bf w 16 4))
  | 3 => must [(10, 6), (20, 2), (28, 1), (30, 2)] w (.sinval (bf w 29 1) (bf w 22 6) (bf w 16 4))
  | _ => .error .encFunc

/-- Major 56, VAT32 (R236). -/
def decodeVat32 (w : BitVec 32) : Except Cause Instr :=
  match (bf w 7 3).toNat with
  | 0 => .ok (.vatomAddB32 (bf w 30 2) (bf w 29 1) (bf w 28 1) (bf w 24 4) (bf w 20 4) (bf w 15 5) (bf w 10 5))
  | 1 => .ok (.vatomMinI32 (bf w 30 2) (bf w 29 1) (bf w 28 1) (bf w 24 4) (bf w 20 4) (bf w 15 5) (bf w 10 5))
  | 2 => .ok (.vatomMaxI32 (bf w 30 2) (bf w 29 1) (bf w 28 1) (bf w 24 4) (bf w 20 4) (bf w 15 5) (bf w 10 5))
  | 3 => .ok (.vatomMinN32 (bf w 30 2) (bf w 29 1) (bf w 28 1) (bf w 24 4) (bf w 20 4) (bf w 15 5) (bf w 10 5))
  | 4 => .ok (.vatomMaxN32 (bf w 30 2) (bf w 29 1) (bf w 28 1) (bf w 24 4) (bf w 20 4) (bf w 15 5) (bf w 10 5))
  | 5 => .ok (.vatomAndB32 (bf w 30 2) (bf w 29 1) (bf w 28 1) (bf w 24 4) (bf w 20 4) (bf w 15 5) (bf w 10 5))
  | 6 => .ok (.vatomOrB32 (bf w 30 2) (bf w 29 1) (bf w 28 1) (bf w 24 4) (bf w 20 4) (bf w 15 5) (bf w 10 5))
  | _ => .ok (.vatomXorB32 (bf w 30 2) (bf w 29 1) (bf w 28 1) (bf w 24 4) (bf w 20 4) (bf w 15 5) (bf w 10 5))

/-- Major 57, VAT64 (R236). -/
def decodeVat64 (w : BitVec 32) : Except Cause Instr :=
  match (bf w 7 3).toNat with
  | 0 => .ok (.vatomAddB64 (bf w 30 2) (bf w 29 1) (bf w 28 1) (bf w 24 4) (bf w 20 4) (bf w 15 5) (bf w 10 5))
  | 1 => .ok (.vatomMinI64 (bf w 30 2) (bf w 29 1) (bf w 28 1) (bf w 24 4) (bf w 20 4) (bf w 15 5) (bf w 10 5))
  | 2 => .ok (.vatomMaxI64 (bf w 30 2) (bf w 29 1) (bf w 28 1) (bf w 24 4) (bf w 20 4) (bf w 15 5) (bf w 10 5))
  | 3 => .ok (.vatomMinN64 (bf w 30 2) (bf w 29 1) (bf w 28 1) (bf w 24 4) (bf w 20 4) (bf w 15 5) (bf w 10 5))
  | 4 => .ok (.vatomMaxN64 (bf w 30 2) (bf w 29 1) (bf w 28 1) (bf w 24 4) (bf w 20 4) (bf w 15 5) (bf w 10 5))
  | 5 => .ok (.vatomAndB64 (bf w 30 2) (bf w 29 1) (bf w 28 1) (bf w 24 4) (bf w 20 4) (bf w 15 5) (bf w 10 5))
  | 6 => .ok (.vatomOrB64 (bf w 30 2) (bf w 29 1) (bf w 28 1) (bf w 24 4) (bf w 20 4) (bf w 15 5) (bf w 10 5))
  | _ => .ok (.vatomXorB64 (bf w 30 2) (bf w 29 1) (bf w 28 1) (bf w 24 4) (bf w 20 4) (bf w 15 5) (bf w 10 5))

/-- Major 58, VATX (R236). -/
def decodeVatx (w : BitVec 32) : Except Cause Instr :=
  match (bf w 7 3).toNat with
  | 0 => .ok (.vatomXchgB32 (bf w 30 2) (bf w 29 1) (bf w 28 1) (bf w 24 4) (bf w 20 4) (bf w 15 5) (bf w 10 5))
  | 1 => .ok (.vatomXchgB64 (bf w 30 2) (bf w 29 1) (bf w 28 1) (bf w 24 4) (bf w 20 4) (bf w 15 5) (bf w 10 5))
  | 2 => mustSet 28 w (.vatomCasB32 (bf w 30 2) (bf w 29 1) (bf w 24 4) (bf w 20 4) (bf w 15 5) (bf w 10 5))
  | 3 => mustSet 28 w (.vatomCasB64 (bf w 30 2) (bf w 29 1) (bf w 24 4) (bf w 20 4) (bf w 15 5) (bf w 10 5))
  | 4 => .ok (.vratomAddBf16 (bf w 30 2) (bf w 29 1) (bf w 28 1) (bf w 24 4) (bf w 20 4) (bf w 15 5) (bf w 10 5))
  | _ => .error .encFunc

/-- Major 59, VATF (R236). -/
def decodeVatf (w : BitVec 32) : Except Cause Instr :=
  match (bf w 7 3).toNat with
  | 0 => .ok (.vatomFaddF32 (bf w 30 2) (bf w 29 1) (bf w 28 1) (bf w 24 4) (bf w 20 4) (bf w 15 5) (bf w 10 5))
  | 1 => .ok (.vatomFaddF64 (bf w 30 2) (bf w 29 1) (bf w 28 1) (bf w 24 4) (bf w 20 4) (bf w 15 5) (bf w 10 5))
  | 2 => .ok (.vatomFaddBf16x2 (bf w 30 2) (bf w 29 1) (bf w 28 1) (bf w 24 4) (bf w 20 4) (bf w 15 5) (bf w 10 5))
  | 3 => .ok (.vatomFaddF16x2 (bf w 30 2) (bf w 29 1) (bf w 28 1) (bf w 24 4) (bf w 20 4) (bf w 15 5) (bf w 10 5))
  | 4 => .ok (.vatomFaddF32Mrg (bf w 30 2) (bf w 29 1) (bf w 28 1) (bf w 24 4) (bf w 20 4) (bf w 15 5) (bf w 10 5))
  | 5 => .ok (.vatomFaddF64Mrg (bf w 30 2) (bf w 29 1) (bf w 28 1) (bf w 24 4) (bf w 20 4) (bf w 15 5) (bf w 10 5))
  | 6 => .ok (.vatomFaddBf16x2Mrg (bf w 30 2) (bf w 29 1) (bf w 28 1) (bf w 24 4) (bf w 20 4) (bf w 15 5) (bf w 10 5))
  | _ => .ok (.vatomFaddF16x2Mrg (bf w 30 2) (bf w 29 1) (bf w 28 1) (bf w 24 4) (bf w 20 4) (bf w 15 5) (bf w 10 5))

/-- Major 60, SATOM (R236). -/
def decodeSatom (w : BitVec 32) : Except Cause Instr :=
  .ok (.satom (bf w 30 2) (bf w 29 1) (bf w 28 1) (bf w 24 4) (bf w 20 4) (bf w 15 5) (bf w 10 5) (bf w 7 3))

/-- Major 61, SYNC (R236). -/
def decodeSync (w : BitVec 32) : Except Cause Instr :=
  match (bf w 7 3).toNat with
  | 0 => .ok (.lckAcq (bf w 28 4) (bf w 22 6) (bf w 16 6) (bf w 10 6))
  | 1 => must [(22, 6)] w (.lckTry (bf w 28 4) (bf w 16 6) (bf w 10 6))
  | 2 => must [(10, 6), (22, 6)] w (.lckRel (bf w 28 4) (bf w 16 6))
  | 3 => must [(22, 6)] w (.lckStat (bf w 28 4) (bf w 16 6) (bf w 10 6))
  | 4 => .ok (.mwait (bf w 28 4) (bf w 22 6) (bf w 16 6) (bf w 10 6))
  | 5 => must [(22, 6)] w (.barrArr (bf w 28 4) (bf w 16 6) (bf w 10 6))
  | 6 => must [(22, 6)] w (.barrAw (bf w 28 4) (bf w 16 6) (bf w 10 6))
  | _ => must [(22, 6)] w (.barrDrop (bf w 28 4) (bf w 16 6) (bf w 10 6))

/-- Major 62, ENGC (R236). -/
def decodeEngc (w : BitVec 32) : Except Cause Instr :=
  match (bf w 7 3).toNat with
  | 0 => must [(10, 6), (24, 8)] w (.ewait (bf w 18 6) (bf w 16 2))
  | 1 => must [(16, 16)] w (.gnode (bf w 10 6))
  | 2 => must [(22, 10)] w (.glink (bf w 16 6) (bf w 10 6))
  | 3 => must [(20, 12)] w (.ringGet (bf w 16 4) (bf w 10 6))
  | 4 => must [(20, 12)] w (.ringPut (bf w 16 4) (bf w 10 6))
  | 5 => must [(23, 9)] w (.tdesc (bf w 16 7) (bf w 10 6))
  | 6 => must [(23, 9)] w (.tdget (bf w 16 7) (bf w 10 6))
  | _ => .error .encFunc

/-- Major 63, ENGX (R236). -/
def decodeEngx (w : BitVec 32) : Except Cause Instr :=
  match (bf w 7 3).toNat with
  | 0 => must [(31, 1)] w (.cpy (bf w 30 1) (bf w 26 4) (bf w 22 4) (bf w 16 6) (bf w 10 6))
  | 1 => must [(31, 1)] w (.cpyGth (bf w 30 1) (bf w 26 4) (bf w 22 4) (bf w 16 6) (bf w 10 6))
  | 2 => must [(31, 1)] w (.cpyRmt (bf w 30 1) (bf w 26 4) (bf w 22 4) (bf w 16 6) (bf w 10 6))
  | 3 => must [(31, 1)] w (.cpyTr8 (bf w 30 1) (bf w 26 4) (bf w 22 4) (bf w 16 6) (bf w 10 6))
  | 4 => must [(31, 1)] w (.cpyTr16 (bf w 30 1) (bf w 26 4) (bf w 22 4) (bf w 16 6) (bf w 10 6))
  | _ => .error .encFunc

/-- The 32-bit instructions, by major (R236). -/
def decode32 (w : BitVec 32) : Except Cause Instr :=
  match (bf w 1 6).toNat with
  | 0 => decodeVia w
  | 1 => decodeVib w
  | 2 => decodeVic w
  | 3 => decodeVid w
  | 4 => decodeVun w
  | 5 => decodeVsat w
  | 6 => decodeVsel w
  | 7 => decodeVmisc w
  | 8 => decodeVfa32 w
  | 9 => decodeVfm32 w
  | 10 => decodeVfd32 w
  | 11 => decodeVfa64 w
  | 12 => decodeVfm64 w
  | 13 => decodeVfd64 w
  | 14 => decodeVfx w
  | 15 => decodeVcmp w
  | 16 => decodeVcvt w
  | 17 => decodeVaddi w
  | 18 => decodeVandi w
  | 19 => decodeVshi w
  | 20 => decodeVxl w
  | 21 => decodeVred w
  | 22 => decodeVscan w
  | 23 => decodeVidx w
  | 24 => decodeMask w
  | 25 => decodeVpln w
  | 26 => decodeVqnt w
  | 27 => decodeMtx w
  | 28 => decodeSalu w
  | 29 => decodeSsh w
  | 30 => decodeScmp w
  | 31 => decodeSalui w
  | 32 => decodeSimm w
  | 33 => decodeSreg w
  | 34 => decodeBcnd w
  | 35 => decodeLoop w
  | 36 => decodeVbra w
  | 37 => decodeBra w
  | 38 => decodeCall w
  | 39 => decodeCtl0 w
  | 40 => decodeCtl1 w
  | 41 => decodeFence w
  | 42 => decodeCapx w
  | 43 => decodeCls w
  | 44 => decodeVld w
  | 45 => decodeVlda w
  | 46 => decodeVst w
  | 47 => decodeVstr w
  | 48 => decodeVldnt w
  | 49 => decodeVstnt w
  | 50 => decodeSld w
  | 51 => decodeSst w
  | 52 => decodeLds w
  | 53 => decodeSts w
  | 54 => decodeMemx w
  | 55 => decodeSmapx w
  | 56 => decodeVat32 w
  | 57 => decodeVat64 w
  | 58 => decodeVatx w
  | 59 => decodeVatf w
  | 60 => decodeSatom w
  | 61 => decodeSync w
  | 62 => decodeEngc w
  | _ => decodeEngx w

/-- The decoder of R239 steps 2 to 4. -/
def decode (c : Code) : Except Cause Instr := if c.wide then decode32 c.word else decode16 c.word

/-- The instruction that the decoder reads from the bits `w` of a table row, the bits above `nbits` being zero. -/
def decodeTableWord (nbits w : Nat) : Option Instr := (decode (codeOfNat (w % 2 ^ nbits))).toOption

/-- A word given by the sum of its fields in place. -/
def wideCode (n : Nat) : Option Code := some { wide := true, word := BitVec.ofNat 32 n }

/-- A halfword given by the sum of its fields in place. -/
def halfCode (n : Nat) : Option Code := some { wide := false, word := BitVec.ofNat 32 n }

/-- The words of an instruction (R231, R232, R236, R237). An event has none. -/
def encode (i : Instr) : Option Code :=
  match i with
  | .vadd m b2 b1 vs2 vs1 vd => wideCode (0x1 + m.toNat * 0x40000000 + b2.toNat * 0x20000000 + b1.toNat * 0x10000000 + vs2.toNat * 0x400000 + vs1.toNat * 0x10000 + vd.toNat * 0x400)
  | .vsub m b2 b1 vs2 vs1 vd => wideCode (0x81 + m.toNat * 0x40000000 + b2.toNat * 0x20000000 + b1.toNat * 0x10000000 + vs2.toNat * 0x400000 + vs1.toNat * 0x10000 + vd.toNat * 0x400)
  | .vmul m b2 b1 vs2 vs1 vd => wideCode (0x101 + m.toNat * 0x40000000 + b2.toNat * 0x20000000 + b1.toNat * 0x10000000 + vs2.toNat * 0x400000 + vs1.toNat * 0x10000 + vd.toNat * 0x400)
  | .vmulhiI32 m b2 b1 vs2 vs1 vd => wideCode (0x181 + m.toNat * 0x40000000 + b2.toNat * 0x20000000 + b1.toNat * 0x10000000 + vs2.toNat * 0x400000 + vs1.toNat * 0x10000 + vd.toNat * 0x400)
  | .vmulhiN32 m b2 b1 vs2 vs1 vd => wideCode (0x201 + m.toNat * 0x40000000 + b2.toNat * 0x20000000 + b1.toNat * 0x10000000 + vs2.toNat * 0x400000 + vs1.toNat * 0x10000 + vd.toNat * 0x400)
  | .vminI32 m b2 b1 vs2 vs1 vd => wideCode (0x281 + m.toNat * 0x40000000 + b2.toNat * 0x20000000 + b1.toNat * 0x10000000 + vs2.toNat * 0x400000 + vs1.toNat * 0x10000 + vd.toNat * 0x400)
  | .vmaxI32 m b2 b1 vs2 vs1 vd => wideCode (0x301 + m.toNat * 0x40000000 + b2.toNat * 0x20000000 + b1.toNat * 0x10000000 + vs2.toNat * 0x400000 + vs1.toNat * 0x10000 + vd.toNat * 0x400)
  | .vmad m b2 b1 vs2 vs1 vd => wideCode (0x381 + m.toNat * 0x40000000 + b2.toNat * 0x20000000 + b1.toNat * 0x10000000 + vs2.toNat * 0x400000 + vs1.toNat * 0x10000 + vd.toNat * 0x400)
  | .vand m b2 b1 vs2 vs1 vd => wideCode (0x3 + m.toNat * 0x40000000 + b2.toNat * 0x20000000 + b1.toNat * 0x10000000 + vs2.toNat * 0x400000 + vs1.toNat * 0x10000 + vd.toNat * 0x400)
  | .vor m b2 b1 vs2 vs1 vd => wideCode (0x83 + m.toNat * 0x40000000 + b2.toNat * 0x20000000 + b1.toNat * 0x10000000 + vs2.toNat * 0x400000 + vs1.toNat * 0x10000 + vd.toNat * 0x400)
  | .vxor m b2 b1 vs2 vs1 vd => wideCode (0x103 + m.toNat * 0x40000000 + b2.toNat * 0x20000000 + b1.toNat * 0x10000000 + vs2.toNat * 0x400000 + vs1.toNat * 0x10000 + vd.toNat * 0x400)
  | .vshl m b2 b1 vs2 vs1 vd => wideCode (0x183 + m.toNat * 0x40000000 + b2.toNat * 0x20000000 + b1.toNat * 0x10000000 + vs2.toNat * 0x400000 + vs1.toNat * 0x10000 + vd.toNat * 0x400)
  | .vshr m b2 b1 vs2 vs1 vd => wideCode (0x203 + m.toNat * 0x40000000 + b2.toNat * 0x20000000 + b1.toNat * 0x10000000 + vs2.toNat * 0x400000 + vs1.toNat * 0x10000 + vd.toNat * 0x400)
  | .vsra m b2 b1 vs2 vs1 vd => wideCode (0x283 + m.toNat * 0x40000000 + b2.toNat * 0x20000000 + b1.toNat * 0x10000000 + vs2.toNat * 0x400000 + vs1.toNat * 0x10000 + vd.toNat * 0x400)
  | .vminN32 m b2 b1 vs2 vs1 vd => wideCode (0x303 + m.toNat * 0x40000000 + b2.toNat * 0x20000000 + b1.toNat * 0x10000000 + vs2.toNat * 0x400000 + vs1.toNat * 0x10000 + vd.toNat * 0x400)
  | .vmaxN32 m b2 b1 vs2 vs1 vd => wideCode (0x383 + m.toNat * 0x40000000 + b2.toNat * 0x20000000 + b1.toNat * 0x10000000 + vs2.toNat * 0x400000 + vs1.toNat * 0x10000 + vd.toNat * 0x400)
  | .vaddB64 m b2 b1 vs2 vs1 vd => wideCode (0x5 + m.toNat * 0x40000000 + b2.toNat * 0x20000000 + b1.toNat * 0x10000000 + vs2.toNat * 0x400000 + vs1.toNat * 0x10000 + vd.toNat * 0x400)
  | .vsubB64 m b2 b1 vs2 vs1 vd => wideCode (0x85 + m.toNat * 0x40000000 + b2.toNat * 0x20000000 + b1.toNat * 0x10000000 + vs2.toNat * 0x400000 + vs1.toNat * 0x10000 + vd.toNat * 0x400)
  | .vmulB64 m b2 b1 vs2 vs1 vd => wideCode (0x105 + m.toNat * 0x40000000 + b2.toNat * 0x20000000 + b1.toNat * 0x10000000 + vs2.toNat * 0x400000 + vs1.toNat * 0x10000 + vd.toNat * 0x400)
  | .vshlB64 m b2 b1 vs2 vs1 vd => wideCode (0x185 + m.toNat * 0x40000000 + b2.toNat * 0x20000000 + b1.toNat * 0x10000000 + vs2.toNat * 0x400000 + vs1.toNat * 0x10000 + vd.toNat * 0x400)
  | .vshrB64 m b2 b1 vs2 vs1 vd => wideCode (0x205 + m.toNat * 0x40000000 + b2.toNat * 0x20000000 + b1.toNat * 0x10000000 + vs2.toNat * 0x400000 + vs1.toNat * 0x10000 + vd.toNat * 0x400)
  | .vsraB64 m b2 b1 vs2 vs1 vd => wideCode (0x285 + m.toNat * 0x40000000 + b2.toNat * 0x20000000 + b1.toNat * 0x10000000 + vs2.toNat * 0x400000 + vs1.toNat * 0x10000 + vd.toNat * 0x400)
  | .vminI64 m b2 b1 vs2 vs1 vd => wideCode (0x305 + m.toNat * 0x40000000 + b2.toNat * 0x20000000 + b1.toNat * 0x10000000 + vs2.toNat * 0x400000 + vs1.toNat * 0x10000 + vd.toNat * 0x400)
  | .vmaxI64 m b2 b1 vs2 vs1 vd => wideCode (0x385 + m.toNat * 0x40000000 + b2.toNat * 0x20000000 + b1.toNat * 0x10000000 + vs2.toNat * 0x400000 + vs1.toNat * 0x10000 + vd.toNat * 0x400)
  | .vandB64 m b2 b1 vs2 vs1 vd => wideCode (0x7 + m.toNat * 0x40000000 + b2.toNat * 0x20000000 + b1.toNat * 0x10000000 + vs2.toNat * 0x400000 + vs1.toNat * 0x10000 + vd.toNat * 0x400)
  | .vorB64 m b2 b1 vs2 vs1 vd => wideCode (0x87 + m.toNat * 0x40000000 + b2.toNat * 0x20000000 + b1.toNat * 0x10000000 + vs2.toNat * 0x400000 + vs1.toNat * 0x10000 + vd.toNat * 0x400)
  | .vxorB64 m b2 b1 vs2 vs1 vd => wideCode (0x107 + m.toNat * 0x40000000 + b2.toNat * 0x20000000 + b1.toNat * 0x10000000 + vs2.toNat * 0x400000 + vs1.toNat * 0x10000 + vd.toNat * 0x400)
  | .vminN64 m b2 b1 vs2 vs1 vd => wideCode (0x187 + m.toNat * 0x40000000 + b2.toNat * 0x20000000 + b1.toNat * 0x10000000 + vs2.toNat * 0x400000 + vs1.toNat * 0x10000 + vd.toNat * 0x400)
  | .vmaxN64 m b2 b1 vs2 vs1 vd => wideCode (0x207 + m.toNat * 0x40000000 + b2.toNat * 0x20000000 + b1.toNat * 0x10000000 + vs2.toNat * 0x400000 + vs1.toNat * 0x10000 + vd.toNat * 0x400)
  | .vmulhiI64 m b2 b1 vs2 vs1 vd => wideCode (0x287 + m.toNat * 0x40000000 + b2.toNat * 0x20000000 + b1.toNat * 0x10000000 + vs2.toNat * 0x400000 + vs1.toNat * 0x10000 + vd.toNat * 0x400)
  | .vmulhiN64 m b2 b1 vs2 vs1 vd => wideCode (0x307 + m.toNat * 0x40000000 + b2.toNat * 0x20000000 + b1.toNat * 0x10000000 + vs2.toNat * 0x400000 + vs1.toNat * 0x10000 + vd.toNat * 0x400)
  | .vnot m b1 vs1 vd => wideCode (0x9 + m.toNat * 0x40000000 + b1.toNat * 0x10000000 + vs1.toNat * 0x10000 + vd.toNat * 0x400)
  | .vnegI32 m b1 vs1 vd => wideCode (0x89 + m.toNat * 0x40000000 + b1.toNat * 0x10000000 + vs1.toNat * 0x10000 + vd.toNat * 0x400)
  | .vabsI32 m b1 vs1 vd => wideCode (0x109 + m.toNat * 0x40000000 + b1.toNat * 0x10000000 + vs1.toNat * 0x10000 + vd.toNat * 0x400)
  | .vpopc m b1 vs1 vd => wideCode (0x189 + m.toNat * 0x40000000 + b1.toNat * 0x10000000 + vs1.toNat * 0x10000 + vd.toNat * 0x400)
  | .vclz m b1 vs1 vd => wideCode (0x209 + m.toNat * 0x40000000 + b1.toNat * 0x10000000 + vs1.toNat * 0x10000 + vd.toNat * 0x400)
  | .vbrev m b1 vs1 vd => wideCode (0x289 + m.toNat * 0x40000000 + b1.toNat * 0x10000000 + vs1.toNat * 0x10000 + vd.toNat * 0x400)
  | .vnegI64 m b1 vs1 vd => wideCode (0x309 + m.toNat * 0x40000000 + b1.toNat * 0x10000000 + vs1.toNat * 0x10000 + vd.toNat * 0x400)
  | .vabsI64 m b1 vs1 vd => wideCode (0x389 + m.toNat * 0x40000000 + b1.toNat * 0x10000000 + vs1.toNat * 0x10000 + vd.toNat * 0x400)
  | .vaddSatI32 m b2 b1 vs2 vs1 vd => wideCode (0xb + m.toNat * 0x40000000 + b2.toNat * 0x20000000 + b1.toNat * 0x10000000 + vs2.toNat * 0x400000 + vs1.toNat * 0x10000 + vd.toNat * 0x400)
  | .vsubSatI32 m b2 b1 vs2 vs1 vd => wideCode (0x8b + m.toNat * 0x40000000 + b2.toNat * 0x20000000 + b1.toNat * 0x10000000 + vs2.toNat * 0x400000 + vs1.toNat * 0x10000 + vd.toNat * 0x400)
  | .vaddSatN32 m b2 b1 vs2 vs1 vd => wideCode (0x10b + m.toNat * 0x40000000 + b2.toNat * 0x20000000 + b1.toNat * 0x10000000 + vs2.toNat * 0x400000 + vs1.toNat * 0x10000 + vd.toNat * 0x400)
  | .vsubSatN32 m b2 b1 vs2 vs1 vd => wideCode (0x18b + m.toNat * 0x40000000 + b2.toNat * 0x20000000 + b1.toNat * 0x10000000 + vs2.toNat * 0x400000 + vs1.toNat * 0x10000 + vd.toNat * 0x400)
  | .vaddSatI64 m b2 b1 vs2 vs1 vd => wideCode (0x20b + m.toNat * 0x40000000 + b2.toNat * 0x20000000 + b1.toNat * 0x10000000 + vs2.toNat * 0x400000 + vs1.toNat * 0x10000 + vd.toNat * 0x400)
  | .vsubSatI64 m b2 b1 vs2 vs1 vd => wideCode (0x28b + m.toNat * 0x40000000 + b2.toNat * 0x20000000 + b1.toNat * 0x10000000 + vs2.toNat * 0x400000 + vs1.toNat * 0x10000 + vd.toNat * 0x400)
  | .vaddSatN64 m b2 b1 vs2 vs1 vd => wideCode (0x30b + m.toNat * 0x40000000 + b2.toNat * 0x20000000 + b1.toNat * 0x10000000 + vs2.toNat * 0x400000 + vs1.toNat * 0x10000 + vd.toNat * 0x400)
  | .vsubSatN64 m b2 b1 vs2 vs1 vd => wideCode (0x38b + m.toNat * 0x40000000 + b2.toNat * 0x20000000 + b1.toNat * 0x10000000 + vs2.toNat * 0x400000 + vs1.toNat * 0x10000 + vd.toNat * 0x400)
  | .vsel m b2 b1 vs2 vs1 vd mk => wideCode (0xd + m.toNat * 0x40000000 + b2.toNat * 0x20000000 + b1.toNat * 0x10000000 + vs2.toNat * 0x400000 + vs1.toNat * 0x10000 + vd.toNat * 0x400 + mk.toNat * 0x80)
  | .vtix m vd => wideCode (0xf + m.toNat * 0x40000000 + vd.toNat * 0x400)
  | .vshape vs1 sd => wideCode (0x8f + vs1.toNat * 0x10000 + sd.toNat * 0x400)
  | .vrdx m ss vd => wideCode (0x10f + m.toNat * 0x40000000 + ss.toNat * 0x10000 + vd.toNat * 0x400)
  | .vwrx m b2 vs2 ss => wideCode (0x18f + m.toNat * 0x40000000 + b2.toNat * 0x20000000 + vs2.toNat * 0x400000 + ss.toNat * 0x10000)
  | .vfaddF32 m b2 b1 vs2 vs1 vd rm => wideCode (0x11 + m.toNat * 0x40000000 + b2.toNat * 0x20000000 + b1.toNat * 0x10000000 + vs2.toNat * 0x400000 + vs1.toNat * 0x10000 + vd.toNat * 0x400 + rm.toNat * 0x100)
  | .vfsubF32 m b2 b1 vs2 vs1 vd rm => wideCode (0x91 + m.toNat * 0x40000000 + b2.toNat * 0x20000000 + b1.toNat * 0x10000000 + vs2.toNat * 0x400000 + vs1.toNat * 0x10000 + vd.toNat * 0x400 + rm.toNat * 0x100)
  | .vfmulF32 m b2 b1 vs2 vs1 vd rm => wideCode (0x13 + m.toNat * 0x40000000 + b2.toNat * 0x20000000 + b1.toNat * 0x10000000 + vs2.toNat * 0x400000 + vs1.toNat * 0x10000 + vd.toNat * 0x400 + rm.toNat * 0x100)
  | .vfmaF32 m b2 b1 vs2 vs1 vd rm => wideCode (0x93 + m.toNat * 0x40000000 + b2.toNat * 0x20000000 + b1.toNat * 0x10000000 + vs2.toNat * 0x400000 + vs1.toNat * 0x10000 + vd.toNat * 0x400 + rm.toNat * 0x100)
  | .vfdivF32 m b2 b1 vs2 vs1 vd rm => wideCode (0x15 + m.toNat * 0x40000000 + b2.toNat * 0x20000000 + b1.toNat * 0x10000000 + vs2.toNat * 0x400000 + vs1.toNat * 0x10000 + vd.toNat * 0x400 + rm.toNat * 0x100)
  | .vfsqrtF32 m b1 vs1 vd rm => wideCode (0x95 + m.toNat * 0x40000000 + b1.toNat * 0x10000000 + vs1.toNat * 0x10000 + vd.toNat * 0x400 + rm.toNat * 0x100)
  | .vfaddF64 m b2 b1 vs2 vs1 vd rm => wideCode (0x17 + m.toNat * 0x40000000 + b2.toNat * 0x20000000 + b1.toNat * 0x10000000 + vs2.toNat * 0x400000 + vs1.toNat * 0x10000 + vd.toNat * 0x400 + rm.toNat * 0x100)
  | .vfsubF64 m b2 b1 vs2 vs1 vd rm => wideCode (0x97 + m.toNat * 0x40000000 + b2.toNat * 0x20000000 + b1.toNat * 0x10000000 + vs2.toNat * 0x400000 + vs1.toNat * 0x10000 + vd.toNat * 0x400 + rm.toNat * 0x100)
  | .vfmulF64 m b2 b1 vs2 vs1 vd rm => wideCode (0x19 + m.toNat * 0x40000000 + b2.toNat * 0x20000000 + b1.toNat * 0x10000000 + vs2.toNat * 0x400000 + vs1.toNat * 0x10000 + vd.toNat * 0x400 + rm.toNat * 0x100)
  | .vfmaF64 m b2 b1 vs2 vs1 vd rm => wideCode (0x99 + m.toNat * 0x40000000 + b2.toNat * 0x20000000 + b1.toNat * 0x10000000 + vs2.toNat * 0x400000 + vs1.toNat * 0x10000 + vd.toNat * 0x400 + rm.toNat * 0x100)
  | .vfdivF64 m b2 b1 vs2 vs1 vd rm => wideCode (0x1b + m.toNat * 0x40000000 + b2.toNat * 0x20000000 + b1.toNat * 0x10000000 + vs2.toNat * 0x400000 + vs1.toNat * 0x10000 + vd.toNat * 0x400 + rm.toNat * 0x100)
  | .vfsqrtF64 m b1 vs1 vd rm => wideCode (0x9b + m.toNat * 0x40000000 + b1.toNat * 0x10000000 + vs1.toNat * 0x10000 + vd.toNat * 0x400 + rm.toNat * 0x100)
  | .vfminF32 m b2 b1 vs2 vs1 vd => wideCode (0x1d + m.toNat * 0x40000000 + b2.toNat * 0x20000000 + b1.toNat * 0x10000000 + vs2.toNat * 0x400000 + vs1.toNat * 0x10000 + vd.toNat * 0x400)
  | .vfmaxF32 m b2 b1 vs2 vs1 vd => wideCode (0x9d + m.toNat * 0x40000000 + b2.toNat * 0x20000000 + b1.toNat * 0x10000000 + vs2.toNat * 0x400000 + vs1.toNat * 0x10000 + vd.toNat * 0x400)
  | .vfminF64 m b2 b1 vs2 vs1 vd => wideCode (0x11d + m.toNat * 0x40000000 + b2.toNat * 0x20000000 + b1.toNat * 0x10000000 + vs2.toNat * 0x400000 + vs1.toNat * 0x10000 + vd.toNat * 0x400)
  | .vfmaxF64 m b2 b1 vs2 vs1 vd => wideCode (0x19d + m.toNat * 0x40000000 + b2.toNat * 0x20000000 + b1.toNat * 0x10000000 + vs2.toNat * 0x400000 + vs1.toNat * 0x10000 + vd.toNat * 0x400)
  | .vfrcpF32 m b1 vs1 vd => wideCode (0x21d + m.toNat * 0x40000000 + b1.toNat * 0x10000000 + vs1.toNat * 0x10000 + vd.toNat * 0x400)
  | .vfrsqF32 m b1 vs1 vd => wideCode (0x29d + m.toNat * 0x40000000 + b1.toNat * 0x10000000 + vs1.toNat * 0x10000 + vd.toNat * 0x400)
  | .vfexp2F32 m b1 vs1 vd => wideCode (0x31d + m.toNat * 0x40000000 + b1.toNat * 0x10000000 + vs1.toNat * 0x10000 + vd.toNat * 0x400)
  | .vflog2F32 m b1 vs1 vd => wideCode (0x39d + m.toNat * 0x40000000 + b1.toNat * 0x10000000 + vs1.toNat * 0x10000 + vd.toNat * 0x400)
  | .vcmpI32 m b2 b1 vs2 vs1 cond md => wideCode (0x1f + m.toNat * 0x40000000 + b2.toNat * 0x20000000 + b1.toNat * 0x10000000 + vs2.toNat * 0x400000 + vs1.toNat * 0x10000 + cond.toNat * 0x2000 + md.toNat * 0x400)
  | .vcmpN32 m b2 b1 vs2 vs1 cond md => wideCode (0x9f + m.toNat * 0x40000000 + b2.toNat * 0x20000000 + b1.toNat * 0x10000000 + vs2.toNat * 0x400000 + vs1.toNat * 0x10000 + cond.toNat * 0x2000 + md.toNat * 0x400)
  | .vcmpI64 m b2 b1 vs2 vs1 cond md => wideCode (0x11f + m.toNat * 0x40000000 + b2.toNat * 0x20000000 + b1.toNat * 0x10000000 + vs2.toNat * 0x400000 + vs1.toNat * 0x10000 + cond.toNat * 0x2000 + md.toNat * 0x400)
  | .vcmpN64 m b2 b1 vs2 vs1 cond md => wideCode (0x19f + m.toNat * 0x40000000 + b2.toNat * 0x20000000 + b1.toNat * 0x10000000 + vs2.toNat * 0x400000 + vs1.toNat * 0x10000 + cond.toNat * 0x2000 + md.toNat * 0x400)
  | .vfcmpF32 m b2 b1 vs2 vs1 cond md => wideCode (0x21f + m.toNat * 0x40000000 + b2.toNat * 0x20000000 + b1.toNat * 0x10000000 + vs2.toNat * 0x400000 + vs1.toNat * 0x10000 + cond.toNat * 0x2000 + md.toNat * 0x400)
  | .vfcmpF64 m b2 b1 vs2 vs1 cond md => wideCode (0x29f + m.toNat * 0x40000000 + b2.toNat * 0x20000000 + b1.toNat * 0x10000000 + vs2.toNat * 0x400000 + vs1.toNat * 0x10000 + cond.toNat * 0x2000 + md.toNat * 0x400)
  | .vcvt m b1 rm src dst vs1 vd => wideCode (0x21 + m.toNat * 0x40000000 + b1.toNat * 0x20000000 + rm.toNat * 0x8000000 + src.toNat * 0x800000 + dst.toNat * 0x80000 + vs1.toNat * 0x2000 + vd.toNat * 0x80)
  | .vaddImm m b1 imm vs1 vd => wideCode (0x23 + m.toNat * 0x40000000 + b1.toNat * 0x20000000 + imm.toNat * 0x80000 + vs1.toNat * 0x2000 + vd.toNat * 0x80)
  | .vandImm m b1 imm vs1 vd => wideCode (0x25 + m.toNat * 0x40000000 + b1.toNat * 0x20000000 + imm.toNat * 0x80000 + vs1.toNat * 0x2000 + vd.toNat * 0x80)
  | .vshlImm m b1 amt vs1 vd => wideCode (0x27 + m.toNat * 0x40000000 + b1.toNat * 0x20000000 + amt.toNat * 0x80000 + vs1.toNat * 0x2000 + vd.toNat * 0x80)
  | .vshrImm m b1 amt vs1 vd => wideCode (0x8000027 + m.toNat * 0x40000000 + b1.toNat * 0x20000000 + amt.toNat * 0x80000 + vs1.toNat * 0x2000 + vd.toNat * 0x80)
  | .vsraImm m b1 amt vs1 vd => wideCode (0x10000027 + m.toNat * 0x40000000 + b1.toNat * 0x20000000 + amt.toNat * 0x80000 + vs1.toNat * 0x2000 + vd.toNat * 0x80)
  | .vshfl m b2 b1 vs2 vs1 vd => wideCode (0x29 + m.toNat * 0x40000000 + b2.toNat * 0x20000000 + b1.toNat * 0x10000000 + vs2.toNat * 0x400000 + vs1.toNat * 0x10000 + vd.toNat * 0x400)
  | .vballot m b1 vs1 sd => wideCode (0xa9 + m.toNat * 0x40000000 + b1.toNat * 0x10000000 + vs1.toNat * 0x10000 + sd.toNat * 0x400)
  | .xshf m b1 ss vs1 vd => wideCode (0x129 + m.toNat * 0x40000000 + b1.toNat * 0x10000000 + ss.toNat * 0x400000 + vs1.toNat * 0x10000 + vd.toNat * 0x400)
  | .vred m b1 rm ty op vs1 vd => wideCode (0x2b + m.toNat * 0x40000000 + b1.toNat * 0x20000000 + rm.toNat * 0x4000000 + ty.toNat * 0x800000 + op.toNat * 0x80000 + vs1.toNat * 0x2000 + vd.toNat * 0x80)
  | .vscan m b1 excl rm ty op vs1 vd => wideCode (0x2d + m.toNat * 0x40000000 + b1.toNat * 0x20000000 + excl.toNat * 0x10000000 + rm.toNat * 0x4000000 + ty.toNat * 0x800000 + op.toNat * 0x80000 + vs1.toNat * 0x2000 + vd.toNat * 0x80)
  | .vminidx m b1 ty vs1 vd => wideCode (0x2f + m.toNat * 0x40000000 + b1.toNat * 0x20000000 + ty.toNat * 0x100000 + vs1.toNat * 0x2000 + vd.toNat * 0x80)
  | .vmaxidx m b1 ty vs1 vd => wideCode (0x8002f + m.toNat * 0x40000000 + b1.toNat * 0x20000000 + ty.toNat * 0x100000 + vs1.toNat * 0x2000 + vd.toNat * 0x80)
  | .mand mb ma md => wideCode (0x31 + mb.toNat * 0x400000 + ma.toNat * 0x10000 + md.toNat * 0x400)
  | .mor mb ma md => wideCode (0xb1 + mb.toNat * 0x400000 + ma.toNat * 0x10000 + md.toNat * 0x400)
  | .mnot ma md => wideCode (0x131 + ma.toNat * 0x10000 + md.toNat * 0x400)
  | .mpopc ma sd => wideCode (0x1b1 + ma.toNat * 0x10000 + sd.toNat * 0x400)
  | .mfirst ma sd => wideCode (0x231 + ma.toNat * 0x10000 + sd.toNat * 0x400)
  | .vpln m b1 plane vs1 vd => wideCode (0x33 + m.toNat * 0x40000000 + b1.toNat * 0x20000000 + plane.toNat * 0x80000 + vs1.toNat * 0x2000 + vd.toNat * 0x80)
  | .vqnt m b1 tid vs1 vd => wideCode (0x35 + m.toNat * 0x40000000 + b1.toNat * 0x20000000 + tid.toNat * 0x80000 + vs1.toNat * 0x2000 + vd.toNat * 0x80)
  | .mma z tb ta tc => wideCode (0x37 + z.toNat * 0x10000000 + tb.toNat * 0x200000 + ta.toNat * 0x4000 + tc.toNat * 0x400)
  | .mmsp z tb ta tc => wideCode (0xb7 + z.toNat * 0x10000000 + tb.toNat * 0x200000 + ta.toNat * 0x4000 + tc.toNat * 0x400)
  | .mzero tc => wideCode (0x137 + tc.toNat * 0x400)
  | .cpyPln ta tc => wideCode (0x1b7 + ta.toNat * 0x4000 + tc.toNat * 0x400)
  | .cpyPlnUnp ta tc => wideCode (0x100001b7 + ta.toNat * 0x4000 + tc.toNat * 0x400)
  | .cpyFold tb ta tc => wideCode (0x237 + tb.toNat * 0x200000 + ta.toNat * 0x4000 + tc.toNat * 0x400)
  | .sadd b2 b1 ss2 ss1 sd => wideCode (0x39 + b2.toNat * 0x20000000 + b1.toNat * 0x10000000 + ss2.toNat * 0x400000 + ss1.toNat * 0x10000 + sd.toNat * 0x400)
  | .ssub b2 b1 ss2 ss1 sd => wideCode (0xb9 + b2.toNat * 0x20000000 + b1.toNat * 0x10000000 + ss2.toNat * 0x400000 + ss1.toNat * 0x10000 + sd.toNat * 0x400)
  | .smul b2 b1 ss2 ss1 sd => wideCode (0x139 + b2.toNat * 0x20000000 + b1.toNat * 0x10000000 + ss2.toNat * 0x400000 + ss1.toNat * 0x10000 + sd.toNat * 0x400)
  | .sand b2 b1 ss2 ss1 sd => wideCode (0x1b9 + b2.toNat * 0x20000000 + b1.toNat * 0x10000000 + ss2.toNat * 0x400000 + ss1.toNat * 0x10000 + sd.toNat * 0x400)
  | .sor b2 b1 ss2 ss1 sd => wideCode (0x239 + b2.toNat * 0x20000000 + b1.toNat * 0x10000000 + ss2.toNat * 0x400000 + ss1.toNat * 0x10000 + sd.toNat * 0x400)
  | .sxor b2 b1 ss2 ss1 sd => wideCode (0x2b9 + b2.toNat * 0x20000000 + b1.toNat * 0x10000000 + ss2.toNat * 0x400000 + ss1.toNat * 0x10000 + sd.toNat * 0x400)
  | .smin u b2 b1 ss2 ss1 sd => wideCode (0x339 + u.toNat * 0x40000000 + b2.toNat * 0x20000000 + b1.toNat * 0x10000000 + ss2.toNat * 0x400000 + ss1.toNat * 0x10000 + sd.toNat * 0x400)
  | .smax u b2 b1 ss2 ss1 sd => wideCode (0x3b9 + u.toNat * 0x40000000 + b2.toNat * 0x20000000 + b1.toNat * 0x10000000 + ss2.toNat * 0x400000 + ss1.toNat * 0x10000 + sd.toNat * 0x400)
  | .sshl b2 b1 ss2 ss1 sd => wideCode (0x3b + b2.toNat * 0x20000000 + b1.toNat * 0x10000000 + ss2.toNat * 0x400000 + ss1.toNat * 0x10000 + sd.toNat * 0x400)
  | .sshr b2 b1 ss2 ss1 sd => wideCode (0xbb + b2.toNat * 0x20000000 + b1.toNat * 0x10000000 + ss2.toNat * 0x400000 + ss1.toNat * 0x10000 + sd.toNat * 0x400)
  | .ssra b2 b1 ss2 ss1 sd => wideCode (0x13b + b2.toNat * 0x20000000 + b1.toNat * 0x10000000 + ss2.toNat * 0x400000 + ss1.toNat * 0x10000 + sd.toNat * 0x400)
  | .smov b1 ss1 sd => wideCode (0x1bb + b1.toNat * 0x10000000 + ss1.toNat * 0x10000 + sd.toNat * 0x400)
  | .scmp u b2 b1 ss2 ss1 sd cond => wideCode (0x3d + u.toNat * 0x40000000 + b2.toNat * 0x20000000 + b1.toNat * 0x10000000 + ss2.toNat * 0x400000 + ss1.toNat * 0x10000 + sd.toNat * 0x400 + cond.toNat * 0x80)
  | .saddImm imm sd => wideCode (0x3f + imm.toNat * 0x10000 + sd.toNat * 0x400)
  | .sandImm imm sd => wideCode (0xbf + imm.toNat * 0x10000 + sd.toNat * 0x400)
  | .sorImm imm sd => wideCode (0x13f + imm.toNat * 0x10000 + sd.toNat * 0x400)
  | .sxorImm imm sd => wideCode (0x1bf + imm.toNat * 0x10000 + sd.toNat * 0x400)
  | .sshlImm amt sd => wideCode (0x23f + amt.toNat * 0x10000 + sd.toNat * 0x400)
  | .sshrImm amt sd => wideCode (0x2bf + amt.toNat * 0x10000 + sd.toNat * 0x400)
  | .ssraImm amt sd => wideCode (0x33f + amt.toNat * 0x10000 + sd.toNat * 0x400)
  | .smulImm imm sd => wideCode (0x3bf + imm.toNat * 0x10000 + sd.toNat * 0x400)
  | .sli imm sd => wideCode (0x41 + imm.toNat * 0x10000 + sd.toNat * 0x400)
  | .slih imm sd h => wideCode (0x41 + imm.toNat * 0x10000 + sd.toNat * 0x400 + h.toNat * 0x80)
  | .sget n sd => wideCode (0x43 + n.toNat * 0x10000 + sd.toNat * 0x400)
  | .sset n ss => wideCode (0xc3 + n.toNat * 0x10000 + ss.toNat * 0x400)
  | .bcnd off ss cond => wideCode (0x45 + off.toNat * 0x10000 + ss.toNat * 0x400 + cond.toNat * 0x80)
  | .loop off ss => wideCode (0x47 + off.toNat * 0x10000 + ss.toNat * 0x400)
  | .vbra toff joff mk => wideCode (0x49 + toff.toNat * 0x200000 + joff.toNat * 0x400 + mk.toNat * 0x80)
  | .bra off => wideCode (0x4b + off.toNat * 0x80)
  | .call off => wideCode (0x4d + off.toNat * 0x80)
  | .ret b1 ss => wideCode (0x34f + b1.toNat * 0x10000000 + ss.toNat * 0x10000)
  | .retX b1 ss => wideCode (0x4000034f + b1.toNat * 0x10000000 + ss.toNat * 0x10000)
  | .trap code => wideCode (0x51 + code.toNat * 0x10000)
  | .brk code => wideCode (0xd1 + code.toNat * 0x10000)
  | .sfp n => wideCode (0x151 + n.toNat * 0x10000)
  | .scopeOpen k => wideCode (0x1d1 + k.toNat * 0x10000)
  | .rgive k => wideCode (0x251 + k.toNat * 0x10000)
  | .rclaim k sd => wideCode (0x2d1 + k.toNat * 0x10000 + sd.toNat * 0x400)
  | .exitSucc sd => wideCode (0x351 + sd.toNat * 0x400)
  | .tjoin k sd => wideCode (0x3d1 + k.toNat * 0x10000 + sd.toNat * 0x400)
  | .fence scope k => wideCode (0x53 + scope.toNat * 0x40000 + k.toNat * 0x10000)
  | .cmk b2 ss2 cs cd => wideCode (0x55 + b2.toNat * 0x20000000 + ss2.toNat * 0x400000 + cs.toNat * 0x10000 + cd.toNat * 0x400)
  | .cbnd b2 ss2 cs cd => wideCode (0xd5 + b2.toNat * 0x20000000 + ss2.toNat * 0x400000 + cs.toNat * 0x10000 + cd.toNat * 0x400)
  | .cperm b2 ss2 cs cd => wideCode (0x155 + b2.toNat * 0x20000000 + ss2.toNat * 0x400000 + cs.toNat * 0x10000 + cd.toNat * 0x400)
  | .cseal cs cd => wideCode (0x1d5 + cs.toNat * 0x10000 + cd.toNat * 0x400)
  | .cget sel cs sd => wideCode (0x255 + sel.toNat * 0x400000 + cs.toNat * 0x10000 + sd.toNat * 0x400)
  | .xbind b2 ss2 cs n => wideCode (0x2d5 + b2.toNat * 0x20000000 + ss2.toNat * 0x400000 + cs.toNat * 0x10000 + n.toNat * 0x400)
  | .cld bo cap so cd => wideCode (0x57 + bo.toNat * 0x4000000 + cap.toNat * 0x400000 + so.toNat * 0x10000 + cd.toNat * 0x400)
  | .cst bo cap so cs => wideCode (0xd7 + bo.toNat * 0x4000000 + cap.toNat * 0x400000 + so.toNat * 0x10000 + cs.toNat * 0x400)
  | .vld m lsel bo cap vo vd w => wideCode (0x59 + m.toNat * 0x40000000 + lsel.toNat * 0x10000000 + bo.toNat * 0x4000000 + cap.toNat * 0x400000 + vo.toNat * 0x10000 + vd.toNat * 0x400 + w.toNat * 0x80)
  | .vldAcq m ln scope cap vo vd w => wideCode (0x5b + m.toNat * 0x40000000 + ln.toNat * 0x20000000 + scope.toNat * 0x4000000 + cap.toNat * 0x400000 + vo.toNat * 0x10000 + vd.toNat * 0x400 + w.toNat * 0x80)
  | .vst m bd bo cap vo vd sg w => wideCode (0x5d + m.toNat * 0x40000000 + bd.toNat * 0x8000000 + bo.toNat * 0x4000000 + cap.toNat * 0x400000 + vo.toNat * 0x10000 + vd.toNat * 0x400 + sg.toNat * 0x200 + w.toNat * 0x80)
  | .vstRel m ln scope cap vo vd sg w => wideCode (0x5f + m.toNat * 0x40000000 + ln.toNat * 0x20000000 + scope.toNat * 0x4000000 + cap.toNat * 0x400000 + vo.toNat * 0x10000 + vd.toNat * 0x400 + sg.toNat * 0x200 + w.toNat * 0x80)
  | .vldNt m lsel bo cap vo vd w => wideCode (0x61 + m.toNat * 0x40000000 + lsel.toNat * 0x10000000 + bo.toNat * 0x4000000 + cap.toNat * 0x400000 + vo.toNat * 0x10000 + vd.toNat * 0x400 + w.toNat * 0x80)
  | .vstNt m bd bo cap vo vd w => wideCode (0x63 + m.toNat * 0x40000000 + bd.toNat * 0x8000000 + bo.toNat * 0x4000000 + cap.toNat * 0x400000 + vo.toNat * 0x10000 + vd.toNat * 0x400 + w.toNat * 0x80)
  | .sld ord scope cap so sd w => wideCode (0x65 + ord.toNat * 0x20000000 + scope.toNat * 0x4000000 + cap.toNat * 0x400000 + so.toNat * 0x10000 + sd.toNat * 0x400 + w.toNat * 0x80)
  | .sst ord scope cap so ss sg w => wideCode (0x67 + ord.toNat * 0x20000000 + scope.toNat * 0x4000000 + cap.toNat * 0x400000 + so.toNat * 0x10000 + ss.toNat * 0x400 + sg.toNat * 0x200 + w.toNat * 0x80)
  | .lds m lsel bo cap so vd w => wideCode (0x69 + m.toNat * 0x40000000 + lsel.toNat * 0x10000000 + bo.toNat * 0x4000000 + cap.toNat * 0x400000 + so.toNat * 0x10000 + vd.toNat * 0x400 + w.toNat * 0x80)
  | .sts m bd bo cap so vd sg w => wideCode (0x6b + m.toNat * 0x40000000 + bd.toNat * 0x8000000 + bo.toNat * 0x4000000 + cap.toNat * 0x400000 + so.toNat * 0x10000 + vd.toNat * 0x400 + sg.toNat * 0x200 + w.toNat * 0x80)
  | .pfch m lsel bo cap vo => wideCode (0x6d + m.toNat * 0x40000000 + lsel.toNat * 0x10000000 + bo.toNat * 0x4000000 + cap.toNat * 0x400000 + vo.toNat * 0x10000)
  | .tld m bo cap vo vd => wideCode (0xed + m.toNat * 0x40000000 + bo.toNat * 0x4000000 + cap.toNat * 0x400000 + vo.toNat * 0x10000 + vd.toNat * 0x400)
  | .tst m bd bo cap vo vd => wideCode (0x16d + m.toNat * 0x40000000 + bd.toNat * 0x8000000 + bo.toNat * 0x4000000 + cap.toNat * 0x400000 + vo.toNat * 0x10000 + vd.toNat * 0x400)
  | .launch cap so sq => wideCode (0x1ed + cap.toNat * 0x400000 + so.toNat * 0x10000 + sq.toNat * 0x400)
  | .smap ss2 cap sd => wideCode (0x6f + ss2.toNat * 0x400000 + cap.toNat * 0x10000 + sd.toNat * 0x400)
  | .sunmap b1 ss => wideCode (0xef + b1.toNat * 0x10000000 + ss.toNat * 0x10000)
  | .sflush b2 ss2 cap => wideCode (0x16f + b2.toNat * 0x20000000 + ss2.toNat * 0x400000 + cap.toNat * 0x10000)
  | .sinval b2 ss2 cap => wideCode (0x1ef + b2.toNat * 0x20000000 + ss2.toNat * 0x400000 + cap.toNat * 0x10000)
  | .vatomAddB32 m sg f os cap vo vd => wideCode (0x71 + m.toNat * 0x40000000 + sg.toNat * 0x20000000 + f.toNat * 0x10000000 + os.toNat * 0x1000000 + cap.toNat * 0x100000 + vo.toNat * 0x8000 + vd.toNat * 0x400)
  | .vatomMinI32 m sg f os cap vo vd => wideCode (0xf1 + m.toNat * 0x40000000 + sg.toNat * 0x20000000 + f.toNat * 0x10000000 + os.toNat * 0x1000000 + cap.toNat * 0x100000 + vo.toNat * 0x8000 + vd.toNat * 0x400)
  | .vatomMaxI32 m sg f os cap vo vd => wideCode (0x171 + m.toNat * 0x40000000 + sg.toNat * 0x20000000 + f.toNat * 0x10000000 + os.toNat * 0x1000000 + cap.toNat * 0x100000 + vo.toNat * 0x8000 + vd.toNat * 0x400)
  | .vatomMinN32 m sg f os cap vo vd => wideCode (0x1f1 + m.toNat * 0x40000000 + sg.toNat * 0x20000000 + f.toNat * 0x10000000 + os.toNat * 0x1000000 + cap.toNat * 0x100000 + vo.toNat * 0x8000 + vd.toNat * 0x400)
  | .vatomMaxN32 m sg f os cap vo vd => wideCode (0x271 + m.toNat * 0x40000000 + sg.toNat * 0x20000000 + f.toNat * 0x10000000 + os.toNat * 0x1000000 + cap.toNat * 0x100000 + vo.toNat * 0x8000 + vd.toNat * 0x400)
  | .vatomAndB32 m sg f os cap vo vd => wideCode (0x2f1 + m.toNat * 0x40000000 + sg.toNat * 0x20000000 + f.toNat * 0x10000000 + os.toNat * 0x1000000 + cap.toNat * 0x100000 + vo.toNat * 0x8000 + vd.toNat * 0x400)
  | .vatomOrB32 m sg f os cap vo vd => wideCode (0x371 + m.toNat * 0x40000000 + sg.toNat * 0x20000000 + f.toNat * 0x10000000 + os.toNat * 0x1000000 + cap.toNat * 0x100000 + vo.toNat * 0x8000 + vd.toNat * 0x400)
  | .vatomXorB32 m sg f os cap vo vd => wideCode (0x3f1 + m.toNat * 0x40000000 + sg.toNat * 0x20000000 + f.toNat * 0x10000000 + os.toNat * 0x1000000 + cap.toNat * 0x100000 + vo.toNat * 0x8000 + vd.toNat * 0x400)
  | .vatomAddB64 m sg f os cap vo vd => wideCode (0x73 + m.toNat * 0x40000000 + sg.toNat * 0x20000000 + f.toNat * 0x10000000 + os.toNat * 0x1000000 + cap.toNat * 0x100000 + vo.toNat * 0x8000 + vd.toNat * 0x400)
  | .vatomMinI64 m sg f os cap vo vd => wideCode (0xf3 + m.toNat * 0x40000000 + sg.toNat * 0x20000000 + f.toNat * 0x10000000 + os.toNat * 0x1000000 + cap.toNat * 0x100000 + vo.toNat * 0x8000 + vd.toNat * 0x400)
  | .vatomMaxI64 m sg f os cap vo vd => wideCode (0x173 + m.toNat * 0x40000000 + sg.toNat * 0x20000000 + f.toNat * 0x10000000 + os.toNat * 0x1000000 + cap.toNat * 0x100000 + vo.toNat * 0x8000 + vd.toNat * 0x400)
  | .vatomMinN64 m sg f os cap vo vd => wideCode (0x1f3 + m.toNat * 0x40000000 + sg.toNat * 0x20000000 + f.toNat * 0x10000000 + os.toNat * 0x1000000 + cap.toNat * 0x100000 + vo.toNat * 0x8000 + vd.toNat * 0x400)
  | .vatomMaxN64 m sg f os cap vo vd => wideCode (0x273 + m.toNat * 0x40000000 + sg.toNat * 0x20000000 + f.toNat * 0x10000000 + os.toNat * 0x1000000 + cap.toNat * 0x100000 + vo.toNat * 0x8000 + vd.toNat * 0x400)
  | .vatomAndB64 m sg f os cap vo vd => wideCode (0x2f3 + m.toNat * 0x40000000 + sg.toNat * 0x20000000 + f.toNat * 0x10000000 + os.toNat * 0x1000000 + cap.toNat * 0x100000 + vo.toNat * 0x8000 + vd.toNat * 0x400)
  | .vatomOrB64 m sg f os cap vo vd => wideCode (0x373 + m.toNat * 0x40000000 + sg.toNat * 0x20000000 + f.toNat * 0x10000000 + os.toNat * 0x1000000 + cap.toNat * 0x100000 + vo.toNat * 0x8000 + vd.toNat * 0x400)
  | .vatomXorB64 m sg f os cap vo vd => wideCode (0x3f3 + m.toNat * 0x40000000 + sg.toNat * 0x20000000 + f.toNat * 0x10000000 + os.toNat * 0x1000000 + cap.toNat * 0x100000 + vo.toNat * 0x8000 + vd.toNat * 0x400)
  | .vatomXchgB32 m sg f os cap vo vd => wideCode (0x75 + m.toNat * 0x40000000 + sg.toNat * 0x20000000 + f.toNat * 0x10000000 + os.toNat * 0x1000000 + cap.toNat * 0x100000 + vo.toNat * 0x8000 + vd.toNat * 0x400)
  | .vatomXchgB64 m sg f os cap vo vd => wideCode (0xf5 + m.toNat * 0x40000000 + sg.toNat * 0x20000000 + f.toNat * 0x10000000 + os.toNat * 0x1000000 + cap.toNat * 0x100000 + vo.toNat * 0x8000 + vd.toNat * 0x400)
  | .vatomCasB32 m sg os cap vo vd => wideCode (0x10000175 + m.toNat * 0x40000000 + sg.toNat * 0x20000000 + os.toNat * 0x1000000 + cap.toNat * 0x100000 + vo.toNat * 0x8000 + vd.toNat * 0x400)
  | .vatomCasB64 m sg os cap vo vd => wideCode (0x100001f5 + m.toNat * 0x40000000 + sg.toNat * 0x20000000 + os.toNat * 0x1000000 + cap.toNat * 0x100000 + vo.toNat * 0x8000 + vd.toNat * 0x400)
  | .vratomAddBf16 m sg f os cap so vd => wideCode (0x275 + m.toNat * 0x40000000 + sg.toNat * 0x20000000 + f.toNat * 0x10000000 + os.toNat * 0x1000000 + cap.toNat * 0x100000 + so.toNat * 0x8000 + vd.toNat * 0x400)
  | .vatomFaddF32 m sg f os cap vo vd => wideCode (0x77 + m.toNat * 0x40000000 + sg.toNat * 0x20000000 + f.toNat * 0x10000000 + os.toNat * 0x1000000 + cap.toNat * 0x100000 + vo.toNat * 0x8000 + vd.toNat * 0x400)
  | .vatomFaddF64 m sg f os cap vo vd => wideCode (0xf7 + m.toNat * 0x40000000 + sg.toNat * 0x20000000 + f.toNat * 0x10000000 + os.toNat * 0x1000000 + cap.toNat * 0x100000 + vo.toNat * 0x8000 + vd.toNat * 0x400)
  | .vatomFaddBf16x2 m sg f os cap vo vd => wideCode (0x177 + m.toNat * 0x40000000 + sg.toNat * 0x20000000 + f.toNat * 0x10000000 + os.toNat * 0x1000000 + cap.toNat * 0x100000 + vo.toNat * 0x8000 + vd.toNat * 0x400)
  | .vatomFaddF16x2 m sg f os cap vo vd => wideCode (0x1f7 + m.toNat * 0x40000000 + sg.toNat * 0x20000000 + f.toNat * 0x10000000 + os.toNat * 0x1000000 + cap.toNat * 0x100000 + vo.toNat * 0x8000 + vd.toNat * 0x400)
  | .vatomFaddF32Mrg m sg f os cap vo vd => wideCode (0x277 + m.toNat * 0x40000000 + sg.toNat * 0x20000000 + f.toNat * 0x10000000 + os.toNat * 0x1000000 + cap.toNat * 0x100000 + vo.toNat * 0x8000 + vd.toNat * 0x400)
  | .vatomFaddF64Mrg m sg f os cap vo vd => wideCode (0x2f7 + m.toNat * 0x40000000 + sg.toNat * 0x20000000 + f.toNat * 0x10000000 + os.toNat * 0x1000000 + cap.toNat * 0x100000 + vo.toNat * 0x8000 + vd.toNat * 0x400)
  | .vatomFaddBf16x2Mrg m sg f os cap vo vd => wideCode (0x377 + m.toNat * 0x40000000 + sg.toNat * 0x20000000 + f.toNat * 0x10000000 + os.toNat * 0x1000000 + cap.toNat * 0x100000 + vo.toNat * 0x8000 + vd.toNat * 0x400)
  | .vatomFaddF16x2Mrg m sg f os cap vo vd => wideCode (0x3f7 + m.toNat * 0x40000000 + sg.toNat * 0x20000000 + f.toNat * 0x10000000 + os.toNat * 0x1000000 + cap.toNat * 0x100000 + vo.toNat * 0x8000 + vd.toNat * 0x400)
  | .satom aoph sg f os cap so sd func => wideCode (0x79 + aoph.toNat * 0x40000000 + sg.toNat * 0x20000000 + f.toNat * 0x10000000 + os.toNat * 0x1000000 + cap.toNat * 0x100000 + so.toNat * 0x8000 + sd.toNat * 0x400 + func.toNat * 0x80)
  | .lckAcq cap st so sd => wideCode (0x7b + cap.toNat * 0x10000000 + st.toNat * 0x400000 + so.toNat * 0x10000 + sd.toNat * 0x400)
  | .lckTry cap so sd => wideCode (0xfb + cap.toNat * 0x10000000 + so.toNat * 0x10000 + sd.toNat * 0x400)
  | .lckRel cap so => wideCode (0x17b + cap.toNat * 0x10000000 + so.toNat * 0x10000)
  | .lckStat cap so sd => wideCode (0x1fb + cap.toNat * 0x10000000 + so.toNat * 0x10000 + sd.toNat * 0x400)
  | .mwait cap st so sd => wideCode (0x27b + cap.toNat * 0x10000000 + st.toNat * 0x400000 + so.toNat * 0x10000 + sd.toNat * 0x400)
  | .barrArr cap so sd => wideCode (0x2fb + cap.toNat * 0x10000000 + so.toNat * 0x10000 + sd.toNat * 0x400)
  | .barrAw cap so sd => wideCode (0x37b + cap.toNat * 0x10000000 + so.toNat * 0x10000 + sd.toNat * 0x400)
  | .barrDrop cap so sd => wideCode (0x3fb + cap.toNat * 0x10000000 + so.toNat * 0x10000 + sd.toNat * 0x400)
  | .ewait k cls => wideCode (0x7d + k.toNat * 0x40000 + cls.toNat * 0x10000)
  | .gnode sd => wideCode (0xfd + sd.toNat * 0x400)
  | .glink succ pred => wideCode (0x17d + succ.toNat * 0x10000 + pred.toNat * 0x400)
  | .ringGet k sd => wideCode (0x1fd + k.toNat * 0x10000 + sd.toNat * 0x400)
  | .ringPut k sd => wideCode (0x27d + k.toNat * 0x10000 + sd.toNat * 0x400)
  | .tdesc tid ss => wideCode (0x2fd + tid.toNat * 0x10000 + ss.toNat * 0x400)
  | .tdget tid sd => wideCode (0x37d + tid.toNat * 0x10000 + sd.toNat * 0x400)
  | .cpy g cdst csrc sk sd => wideCode (0x7f + g.toNat * 0x40000000 + cdst.toNat * 0x4000000 + csrc.toNat * 0x400000 + sk.toNat * 0x10000 + sd.toNat * 0x400)
  | .cpyGth g cdst csrc sk sd => wideCode (0xff + g.toNat * 0x40000000 + cdst.toNat * 0x4000000 + csrc.toNat * 0x400000 + sk.toNat * 0x10000 + sd.toNat * 0x400)
  | .cpyRmt g cdst csrc sk sd => wideCode (0x17f + g.toNat * 0x40000000 + cdst.toNat * 0x4000000 + csrc.toNat * 0x400000 + sk.toNat * 0x10000 + sd.toNat * 0x400)
  | .cpyTr8 g cdst csrc sk sd => wideCode (0x1ff + g.toNat * 0x40000000 + cdst.toNat * 0x4000000 + csrc.toNat * 0x400000 + sk.toNat * 0x10000 + sd.toNat * 0x400)
  | .cpyTr16 g cdst csrc sk sd => wideCode (0x27f + g.toNat * 0x40000000 + cdst.toNat * 0x4000000 + csrc.toNat * 0x400000 + sk.toNat * 0x10000 + sd.toNat * 0x400)
  | .vadd16 vs2 vd => halfCode (0x0 + vs2.toNat * 0x800 + vd.toNat * 0x20)
  | .vsub16 vs2 vd => halfCode (0x2 + vs2.toNat * 0x800 + vd.toNat * 0x20)
  | .vmul16 vs2 vd => halfCode (0x4 + vs2.toNat * 0x800 + vd.toNat * 0x20)
  | .vand16 vs2 vd => halfCode (0x6 + vs2.toNat * 0x800 + vd.toNat * 0x20)
  | .vor16 vs2 vd => halfCode (0x8 + vs2.toNat * 0x800 + vd.toNat * 0x20)
  | .vxor16 vs2 vd => halfCode (0xa + vs2.toNat * 0x800 + vd.toNat * 0x20)
  | .vshl16 vs2 vd => halfCode (0xc + vs2.toNat * 0x800 + vd.toNat * 0x20)
  | .vshr16 vs2 vd => halfCode (0xe + vs2.toNat * 0x800 + vd.toNat * 0x20)
  | .vsra16 vs2 vd => halfCode (0x10 + vs2.toNat * 0x800 + vd.toNat * 0x20)
  | .vminI3216 vs2 vd => halfCode (0x12 + vs2.toNat * 0x800 + vd.toNat * 0x20)
  | .vmaxI3216 vs2 vd => halfCode (0x14 + vs2.toNat * 0x800 + vd.toNat * 0x20)
  | .vfaddF3216 vs2 vd => halfCode (0x16 + vs2.toNat * 0x800 + vd.toNat * 0x20)
  | .vfsubF3216 vs2 vd => halfCode (0x18 + vs2.toNat * 0x800 + vd.toNat * 0x20)
  | .vfmulF3216 vs2 vd => halfCode (0x1a + vs2.toNat * 0x800 + vd.toNat * 0x20)
  | .vfminF3216 vs2 vd => halfCode (0x1c + vs2.toNat * 0x800 + vd.toNat * 0x20)
  | .vfmaxF3216 vs2 vd => halfCode (0x1e + vs2.toNat * 0x800 + vd.toNat * 0x20)
  | .nop => wideCode (0x4f)
  | .vjoin => wideCode (0xcf)
  | .exit => wideCode (0x14f)
  | .roleYield => wideCode (0x1cf)
  | .scopeClose => wideCode (0x24f)
  | .contDep => wideCode (0x2cf)
  | .tleave => wideCode (0x3cf)
  | .ntdrain => wideCode (0xd3)
  | .capabilityMint _ _ _ _ _ _ => none
  | .setRootTable _ _ => none
  | .tlbShootdown _ _ _ => none
  | .generationRaise _ => none
  | .generationRaiseComplete _ => none
  | .generationSet _ _ => none
  | .lockDrainRequest _ => none
  | .brokenMarkClear _ => none
  | .queueRegister _ _ _ _ => none
  | .peerTableWrite _ _ _ _ _ _ => none
  | .policyWrite _ _ => none
  | .preemptRequest _ _ => none
  | .preemptContextSave _ _ => none
  | .preemptWithdraw _ _ => none
  | .contextRestore _ _ => none
  | .thermalMigration _ => none
  | .contextEnd _ => none
  | .faultResolveRetry _ => none
  | .faultResolveSkip _ => none
  | .faultResolveUser _ => none
  | .faultResolveEnd _ => none
  | .spillResizeResume _ _ => none
  | .eclkAdvance => none
  | .xwLoad _ _ => none
  | .xwLeaseExpiry _ _ => none
  | .pageWalkComplete _ => none
  | .requestRefused _ => none
  | .homeRead _ => none
  | .homeOwnership _ => none
  | .homeWriteThrough _ => none
  | .homeWriteBack _ _ _ _ => none
  | .invalidationReceived _ _ => none
  | .recallReceived _ _ _ _ => none
  | .forwardedRead _ => none
  | .invalidationAck _ => none
  | .ownershipAck _ => none
  | .releaseMarkerHead _ => none
  | .heldAccessRelease _ _ => none
  | .leaseRead _ => none
  | .leaseWrite _ => none
  | .leaseWriteHoldEnd _ => none
  | .sliceLeaseSweep _ => none
  | .coreLeaseSweep _ => none
  | .replyArrival _ _ => none
  | .stashFillArrival _ => none
  | .homeAtomic _ => none
  | .homeRowAtomic _ => none
  | .routerMerge _ _ => none
  | .routerMergeReply _ => none
  | .lockRequestArrival _ => none
  | .lockReleaseArrival _ => none
  | .lockWaiterExpiry _ _ => none
  | .lckHold _ => none
  | .deadlockProbe _ _ => none
  | .lockStatRequest _ => none
  | .mwaitRequestArrival _ => none
  | .monitorExpiry _ => none
  | .barrierUpdate _ _ => none
  | .barrierCarriedCompletion _ _ => none
  | .barrierHeldArrival _ _ => none
  | .granuleRoleMove _ _ => none
  | .dispatcherServe => none
  | .waitCounterPoll _ => none
  | .dispatchComplete _ => none
  | .relaunchStep _ => none
  | .contStall _ => none
  | .rebalancePending _ => none
  | .sfpLate _ _ => none
  | .succReadComplete _ => none
  | .launchAction _ => none
  | .xshfRequestArrival _ => none
  | .xshfStale _ _ => none
  | .engineCommandComplete _ _ => none
  | .graphNodeStart _ _ => none
  | .matrixStart _ => none
  | .operandsConsumed _ => none
  | .matrixRetire _ => none
  | .ringPublishEffect _ _ => none
  | .deferredCauseDelivery _ => none
  | .hostWrite _ _ _ => none
  | .hostRead _ _ _ => none
  | .hostCompletion _ _ => none
  | .hostCompletionTimeout _ => none
  | .colWriteArrival _ _ _ _ _ => none
  | .flitData _ _ => none
  | .flitIdle _ _ => none
  | .flitNak _ _ _ => none
  | .flitRetrainRequest _ _ => none
  | .retrainAttemptTimeout _ => none
  | .linkstatClear _ _ => none
  | .checkpointExtentList _ => none
  | .checkpointHostCommand _ => none
  | .powerLossWarning => none
  | .checkpointStream => none
  | .checkpointRestore => none
  | .namedTickStop _ => none
  | .sampctlWrite _ _ => none
  | .stallSample _ => none
  | .occupancyRecord _ => none
  | .debugHold _ _ => none
  | .debugRelease _ => none
  | .debugStep _ => none
  | .watchpointStop _ _ => none
  | .debugRoleHalt _ _ => none
  | .debugRoleRelease _ _ => none
  | .packageReset _ => none
  | .recoveryImageWrite _ _ => none
  | .firmwareImageStage _ _ => none
  | .attestationReport _ => none
  | .ageingMeasurement _ _ _ => none
  | .guardbandRequest _ _ => none
  | .thermalThrottle _ => none
  | .thermalTrip _ => none
  | .retrainComplete _ _ => none
  | .configurationSpaceWrite _ _ => none
  | .hostPortWriteSent _ => none
  | .operatingPointChangeDone _ => none

/-- The code of an instruction, for the registers of R241. -/
def codeOf (i : Instr) : Code := (encode i).getD { wide := false, word := 0 }

/-- The length of an instruction in bytes (R230). -/
def Code.len (c : Code) : Nat := if c.wide then 4 else 2

/-- The layout number of a 32-bit instruction by its major (R236, R241). -/
def layoutOf (maj : Nat) : Nat :=
  if maj < 16 || maj = 20 || maj = 24 then 1
  else if maj < 27 then 2
  else if maj = 27 then 11
  else if maj ≤ 30 || maj = 39 || maj = 42 || maj = 55 then 3
  else if maj ≤ 33 || maj = 40 || maj = 41 || maj = 62 then 5
  else if maj ≤ 35 then 6
  else if maj = 36 then 7
  else if maj ≤ 38 then 8
  else if maj ≤ 54 then 9
  else if maj ≤ 60 then 10
  else if maj = 61 then 4
  else 12

end Sys2Proof
end

