-- ==== Sys2Proof/Machine/FMap.lean ====
section
/-!
DEFINITION. The operations on keyed stores. A store lists its keys strictly rising and no entry equal to the default
that the store is read with; Sys2Proof/Laws/FMap.lean proves that every operation here keeps that form.
-/
namespace Sys2Proof.Machine

variable {α : Type}

/-- The entry at a key. -/
def ffind : FMap α → Nat → Option α
  | [], _ => none
  | (j, x) :: m, k => if j = k then some x else ffind m k

/-- The value at a key, the default where the store lists none. -/
def fget (d : α) (m : FMap α) (k : Nat) : α := (ffind m k).getD d

/-- The store without its entry at a key. -/
def fdel : FMap α → Nat → FMap α
  | [], _ => []
  | (j, x) :: m, k => if j = k then fdel m k else (j, x) :: fdel m k

/-- The store with an entry at a key, placed before the first larger key. -/
def fput : FMap α → Nat → α → FMap α
  | [], k, v => [(k, v)]
  | (j, x) :: m, k, v =>
    if k < j then (k, v) :: (j, x) :: m else if j = k then (k, v) :: m else (j, x) :: fput m k v

/-- The store with a value at a key; the default removes the entry. -/
def fset [DecidableEq α] (d : α) (m : FMap α) (k : Nat) (v : α) : FMap α :=
  if v = d then fdel m k else fput m k v

/-- The store with the value at a key changed by `f`. -/
def fmod [DecidableEq α] (d : α) (m : FMap α) (k : Nat) (f : α → α) : FMap α := fset d m k (f (fget d m k))

/-- The canonical form: keys strictly rising, no value equal to the default. -/
def fwf [DecidableEq α] (d : α) : FMap α → Bool
  | [] => true
  | [(_, x)] => decide (x ≠ d)
  | (j, x) :: (k, y) :: m => decide (x ≠ d) && decide (j < k) && fwf d ((k, y) :: m)

/-- The values at `n` keys from `k` up. -/
def fgetN (d : α) (m : FMap α) (k : Nat) : Nat → List α
  | 0 => []
  | n + 1 => fget d m k :: fgetN d m (k + 1) n

/-- The store with a list of values from key `k` up. -/
def fsetN [DecidableEq α] (d : α) (m : FMap α) (k : Nat) : List α → FMap α
  | [] => m
  | v :: vs => fsetN d (fset d m k v) (k + 1) vs

/-- A byte store in canonical form. What an unlisted address reads as is 0 (log 3). -/
abbrev Memory.wf (m : FMap Byte) : Prop := fwf 0 m = true

/-- The little-endian value of bytes (R9, R88). -/
def leNat : List Byte → Nat
  | [] => 0
  | b :: bs => leNat bs * 256 + b.toNat

/-- The `n` little-endian bytes of a value. -/
def leBytes (x : Nat) : Nat → List Byte
  | 0 => []
  | n + 1 => BitVec.ofNat 8 x :: leBytes (x / 256) n

/-- The little-endian value of `n` bytes of a byte store from an address. -/
def readLe (m : FMap Byte) (a n : Nat) : Nat := leNat (fgetN 0 m a n)

/-- The byte store with the `n` little-endian bytes of a value at an address. -/
def writeLe (m : FMap Byte) (a n x : Nat) : FMap Byte := fsetN 0 m a (leBytes x n)

/-- Removes the first element equal to `x`. -/
def dropFirst {β : Type} [DecidableEq β] (x : β) : List β → List β
  | [] => []
  | y :: ys => if y = x then ys else y :: dropFirst x ys

/-- The `n`-th element and the list without it. -/
def takeNth {β : Type} : Nat → List β → Option (β × List β)
  | _, [] => none
  | 0, x :: xs => some (x, xs)
  | n + 1, x :: xs => match takeNth n xs with
    | some (y, ys) => some (y, x :: ys)
    | none => none

end Sys2Proof.Machine
end

