-- ==== Sys2Proof/Machine/Caps.lean ====
section
/-!
DEFINITION. Cause codes (R363), capabilities as bits (R9 to R12, R15) and the parts (R1, R2).
-/
namespace Sys2Proof.Machine

/-- The code of a cause (R363). -/
def causeCode (c : Cause) : Nat :=
  match c with
  | .encHalf => 0x00 | .encFunc => 0x01 | .encField => 0x02 | .encSreg => 0x03
  | .encSro => 0x04 | .fetchAlign => 0x05 | .fetchErr => 0x06 | .encMdst => 0x07
  | .encSgrp => 0x08 | .encTrap => 0x09 | .encBrk => 0x0a | .encNest => 0x0b
  | .regBound => 0x10 | .regName => 0x11 | .regDead => 0x12 | .regEmpty => 0x13
  | .regPair => 0x14 | .regSlots => 0x15 | .slotForm => 0x16 | .splitFull => 0x17
  | .scopeForm => 0x18 | .roleEngine => 0x19 | .exitForm => 0x1a | .roleForm => 0x1b
  | .capTag => 0x20 | .capSealed => 0x21 | .capSpace => 0x22 | .capPerm => 0x23
  | .capBound => 0x24 | .capAlign => 0x25 | .capFormat => 0x26 | .capGlobal => 0x27
  | .capTagstore => 0x28 | .capMono => 0x29 | .spaceRange => 0x2a | .capPeer => 0x2b
  | .memAlign => 0x2c | .xltAbsent => 0x30 | .xltRead => 0x31 | .xltWrite => 0x32
  | .xltAtomic => 0x33 | .xltLock => 0x34 | .xltExec => 0x35 | .ptFormat => 0x36
  | .ptRange => 0x37 | .walkErr => 0x38 | .xltMode => 0x39 | .xltEngine => 0x3a
  | .xltHostatom => 0x3b | .atomAlign => 0x40 | .atomOp => 0x41 | .lckAlign => 0x42
  | .lckNotheld => 0x43 | .lckLimit => 0x44 | .lckHold => 0x45 | .lckDlk => 0x46
  | .monForm => 0x47 | .barrForm => 0x48 | .barrAddr => 0x49 | .teamForm => 0x4a
  | .ordLine => 0x4b | .engForm => 0x50 | .engGraph => 0x51 | .graphFull => 0x52
  | .ringForm => 0x53 | .engErr => 0x54 | .rmtFail => 0x55 | .qntForm => 0x56
  | .graphCancel => 0x57 | .mtxSat => 0x58 | .smapForm => 0x59 | .smapFull => 0x5a
  | .stashRo => 0x5b | .typeForm => 0x60 | .cvtForm => 0x61 | .tidInvalid => 0x62
  | .tidForm => 0x63 | .tidFmt => 0x64 | .tidGeom => 0x65 | .accForm => 0x66
  | .sparseMeta => 0x67 | .xshfForm => 0x68 | .xshfDup => 0x69 | .xshfStale => 0x6a
  | .shflRange => 0x6b | .contOverflow => 0x70 | .sfpLate => 0x71 | .sfpForm => 0x72
  | .contStall => 0x73 | .launchForm => 0x74 | .launchDeny => 0x75 | .excNest => 0x76
  | .dbgWatch => 0x77 | .dbgStep => 0x78 | .dbgStop => 0x79 | .memErr => 0x7a

/-- The causes marked `Firmware, fixed` (R354, R363): their delegation bit reads 0. -/
def causeFixed (c : Cause) : Bool :=
  match c with
  | .fetchErr | .encNest | .walkErr | .engErr | .contOverflow | .sfpLate | .contStall
  | .excNest | .dbgWatch | .dbgStep | .dbgStop | .memErr => true
  | _ => false

/-- R240: the encoding class. -/
def causeEnc (c : Cause) : Bool := causeCode c < 0x10

/-- R49, R52: the translation faults of a memory instruction, 0x30 to 0x39. -/
def causeXlt (c : Cause) : Bool := 0x30 ≤ causeCode c && causeCode c ≤ 0x39

/-- R1: the dies of the part. -/
def ndie (p : Part) : Nat := match p with | .sw2p => 2 | _ => 4

/-- R256: the cores of the part. -/
def ncore (p : Part) : Nat := 24 * ndie p

/-- R2: the bytes of device memory. -/
def hbmSize (p : Part) : Nat := 0x2000000000 * ndie p

/-- The bounds of a capability (R10): base and top, or none when they decode as invalid. -/
def capDecode (c : Cap) : Option (Nat × Nat) :=
  if 30 < c.e.toNat then none else
  let w := c.e.toNat + 27
  let aHi := c.addr.toNat / 2 ^ w
  let aMid := c.addr.toNat / 2 ^ c.e.toNat % 2 ^ 27
  let rep := (c.b.toNat + 2 ^ 27 - 2 ^ 24) % 2 ^ 27
  let corr (x : Nat) : Int :=
    if aMid < rep ∧ rep ≤ x then -1 else if rep ≤ aMid ∧ x < rep then 1 else 0
  let base : Int := ((aHi : Int) + corr c.b.toNat) * 2 ^ w + c.b.toNat * 2 ^ c.e.toNat
  let top : Int := ((aHi : Int) + corr c.t.toNat) * 2 ^ w + c.t.toNat * 2 ^ c.e.toNat
  if base < 0 ∨ 2 ^ 56 < top ∨ top < base then none else some (base.toNat, top.toNat)

/-- The address of a capability replaced (R11): the tag stays when the bounds decode as before, that is when the new
address lies in the representable region. `a` is exact; outside 0 to 2^56 - 1 no such region lies. -/
def capWithAddr (c : Cap) (a : Int) : Cap :=
  let c' : Cap := { c with addr := BitVec.ofInt 56 a }
  if 0 ≤ a ∧ a < 2 ^ 56 ∧ capDecode c' = capDecode c ∧ capDecode c ≠ none then c' else { c' with tag := false }

/-- R12: the least exponent of 0 to 30 that holds the span, tried from `e` with `fuel` to go. -/
def capExponent (b t e : Nat) : Nat → Nat
  | 0 => e
  | fuel + 1 =>
    if ceilDiv t (2 ^ e) - b / 2 ^ e ≤ 2 ^ 26 then e else capExponent b t (e + 1) fuel

/-- R12: a capability given the bounds [b, t). -/
def capWithBounds (c : Cap) (b t : Nat) : Cap :=
  let e := capExponent b t 0 30
  { c with e := BitVec.ofNat 6 e, b := BitVec.ofNat 27 (b / 2 ^ e), t := BitVec.ofNat 27 (ceilDiv t (2 ^ e)) }

/-- The 128 bits of a capability (R9), without its tag. -/
def capBits (c : Cap) : Nat :=
  c.addr.toNat + 2 ^ 56 * c.perms.toNat + 2 ^ 63 * c.sealed.toNat + 2 ^ 64 * c.space.toNat + 2 ^ 68 * c.e.toNat +
    2 ^ 74 * c.b.toNat + 2 ^ 101 * c.t.toNat

/-- The capability that 128 bits and a tag give (R9). -/
def capOfBits (x : Nat) (tag : Bool) : Cap :=
  { addr := BitVec.ofNat 56 x, perms := BitVec.ofNat 7 (x / 2 ^ 56), sealed := x / 2 ^ 63 % 2 == 1,
    space := BitVec.ofNat 4 (x / 2 ^ 64), e := BitVec.ofNat 6 (x / 2 ^ 68), b := BitVec.ofNat 27 (x / 2 ^ 74),
    t := BitVec.ofNat 27 (x / 2 ^ 101), tag }

/-- The permission bit `i` of 0 PR, 1 PW, 2 PX, 3 PA, 4 PL, 5 PC, 6 PG (R9). -/
def capPerm (c : Cap) (i : Nat) : Bool := c.perms.getLsbD i

end Sys2Proof.Machine
end

