-- ==== Sys2Proof/Machine/Access.lean ====
section
/-!
DEFINITION. Reading and writing the pieces of the state: one accessor for each kind of register, group, core and table.
-/
namespace Sys2Proof.Machine

/-- What a step answers. -/
abbrev Out := Host.Outcome State Fault Refusal

/-- A bit vector with one bit given. -/
def withBit {w : Nat} (x : BitVec w) (i : Nat) (b : Bool) : BitVec w :=
  if b then x ||| BitVec.ofNat w (2 ^ i) else x &&& ~~~ BitVec.ofNat w (2 ^ i)

/-- The group of a key, `Group.none` where no group has it. -/
def getG (s : State) (u : Nat) : Group := fget Group.none s.groups u
def setG (s : State) (u : Nat) (g : Group) : State := { s with groups := fset Group.none s.groups u g }
def modG (s : State) (u : Nat) (f : Group → Group) : State := setG s u (f (getG s u))

/-- The core of an ID. -/
def getC (s : State) (c : Nat) : Core := fget Core.reset s.cores c
def setC (s : State) (c : Nat) (x : Core) : State := { s with cores := fset Core.reset s.cores c x }
def modC (s : State) (c : Nat) (f : Core → Core) : State := setC s c (f (getC s c))

def getT (s : State) (t : Nat) : Task := fget Task.none s.tasks t
def setT (s : State) (t : Nat) (x : Task) : State := { s with tasks := fset Task.none s.tasks t x }
def modT (s : State) (t : Nat) (f : Task → Task) : State := setT s t (f (getT s t))

/-- The context of a number. -/
def getX (s : State) (c : BitVec 12) : Ctx := fget Ctx.reset s.ctxs c.toNat
def setX (s : State) (c : BitVec 12) (x : Ctx) : State := { s with ctxs := fset Ctx.reset s.ctxs c.toNat x }
def modX (s : State) (c : BitVec 12) (f : Ctx → Ctx) : State := setX s c (f (getX s c))

def getDie (s : State) (d : Nat) : Die := fget Die.reset s.dies d
def modDie (s : State) (d : Nat) (f : Die → Die) : State := { s with dies := fset Die.reset s.dies d (f (getDie s d)) }

def getLink (s : State) (l : Nat) : Link := fget Link.reset s.links l
def modLink (s : State) (l : Nat) (f : Link → Link) : State :=
  { s with links := fset Link.reset s.links l (f (getLink s l)) }

def modH (s : State) (f : Homes → Homes) : State := { s with homes := f s.homes }

/-- Puts an event at the end of the agenda. -/
def push (s : State) (e : Event) : State := { s with agenda := s.agenda ++ [e] }
def pushAll (s : State) (es : List Event) : State := { s with agenda := s.agenda ++ es }

/-- A number that names one thing made in this state, and the state that has used it. -/
def fresh (s : State) : Nat × State := (s.nextId, { s with nextId := s.nextId + 1 })

/-- The group and the fragment that issue. -/
def curG (s : State) : Group := getG s s.cur.uid
def getF (g : Group) (k : Nat) : Split := fget Split.free g.split k
def setF (g : Group) (k : Nat) (f : Split) : Group := { g with split := fset Split.free g.split k f }
def modF (g : Group) (k : Nat) (h : Split → Split) : Group := setF g k (h (getF g k))
def curF (s : State) : Split := getF (curG s) s.cur.entry

/-- The issuing group changed by `f`. -/
def modCur (s : State) (f : Group → Group) : State := modG s s.cur.uid f
def modCurF (s : State) (h : Split → Split) : State := modCur s fun g => modF g s.cur.entry h

/-- The eight entries of a split table (R175). -/
def entries (g : Group) : List (Nat × Split) := (List.range 8).map fun k => (k, getF g k)

/-- How many entries are valid. -/
def validCount (g : Group) : Nat := ((entries g).filter fun p => p.2.valid).length

/-- A scalar register (R249): s0 reads as zero. -/
def sReg (g : Group) (r : BitVec 6) : DWord := if r = 0 then 0 else fget 0 g.s r.toNat

/-- A write of a scalar register (R249): a write to s0 is discarded; the empty bit clears, and SWR records the write. -/
def sPut (g : Group) (r : BitVec 6) (v : DWord) : Group :=
  if r = 0 then g else
    { g with s := fset 0 g.s r.toNat v, swr := withBit g.swr r.toNat true, sEmpty := withBit g.sEmpty r.toNat false }

def sIsEmpty (g : Group) (r : BitVec 6) : Bool := g.sEmpty.getLsbD r.toNat

/-- A scalar register is made empty; s0 never is (R249). -/
def sMakeEmpty (g : Group) (r : BitVec 6) : Group :=
  if r = 0 then g else { g with swr := withBit g.swr r.toNat true, sEmpty := withBit g.sEmpty r.toNat true }

/-- A mask register (R173): m0 reads as all ones. -/
def mReg (g : Group) (k : Nat) : Word := if k = 0 then 0xFFFFFFFF else fget 0 g.m k
def mPut (g : Group) (k : Nat) (v : Word) : Group := if k = 0 then g else { g with m := fset 0 g.m k v }

/-- A capability register. -/
def cReg (g : Group) (k : BitVec 4) : Cap := fget Cap.null g.c k.toNat

/-- R41: the translation registers bound to a capability register lose VALID. -/
def xwDropCreg (g : Group) (k : BitVec 4) : Group :=
  { g with xw := (List.range 8).foldl (fun m n =>
      let x := fget XW.zero m n
      if x.valid && x.creg == k then fset XW.zero m n { x with valid := false } else m) g.xw }

/-- A write of a capability register, with R41. -/
def cPut (g : Group) (k : BitVec 4) (v : Cap) : Group :=
  xwDropCreg { g with c := fset Cap.null g.c k.toNat v, cEmpty := withBit g.cEmpty k.toNat false } k

def cIsEmpty (g : Group) (k : BitVec 4) : Bool := g.cEmpty.getLsbD k.toNat

/-- A vector register by name (R164). -/
def vReg (g : Group) (r : Nat) : VVal := fget (VVal.u 0) g.v r
def vIsEmpty (g : Group) (r : Nat) : Bool := g.vEmpty.getLsbD r

/-- The value of thread `t` under a shape (R164). -/
def vAt (v : VVal) (t : Nat) : Word :=
  match v with
  | .u x => x
  | .a b st => b + BitVec.ofNat 32 t * st
  | .g ws => ws.getD t 0

/-- The 32 values under a shape. -/
def vList (v : VVal) : List Word := (List.range 32).map (vAt v)

/-- The code of a shape (R164). -/
def shapeCode (v : VVal) : Nat := match v with | .u _ => 0 | .a _ _ => 1 | .g _ => 2

def isG (v : VVal) : Bool := match v with | .g _ => true | _ => false
def isU (v : VVal) : Bool := match v with | .u _ => true | _ => false

/-- H, the held slots of a group (R170). -/
def heldH (g : Group) : Nat := g.slots.length

/-- R168, R170: a name that occupies a held slot. -/
def holdsSlot (g : Group) (r : Nat) : Bool := isG (vReg g r) || (ffind g.gslot r).isSome

/-- The key under which a fragment's `xshf` in flight has a slot set aside for its result (R170). -/
def xshfKey (entry : Nat) : Nat := 64 + entry

/-- The held slots that are set aside for results of `xshf`. -/
def setAside (g : Group) : List Nat := (g.gslot.filter fun p => 64 ≤ p.1).map fun p => p.1

/-- The live names that each occupy one held slot (R170), and the results that are to occupy one. -/
def gNames (g : Group) : Nat := ((List.range g.top).filter (holdsSlot g)).length + (setAside g).length

/-- The held slots that no name occupies (R170). -/
def freeHeld (g : Group) : List Nat := g.slots.filter fun k => !(g.gslot.any fun p => p.2 == k)

/-- R168: a name takes a held slot, the lowest listed that is free (log 71). -/
def takeSlot (g : Group) (r : Nat) : Group :=
  if (ffind g.gslot r).isSome then g else
  match freeHeld g with
  | k :: _ => { g with gslot := fput g.gslot r k }
  | [] => g

/-- R170: the slot of a name becomes free within H. -/
def dropSlot (g : Group) (r : Nat) : Group := { g with gslot := fdel g.gslot r }

/-- R203: the slots with which a group is admitted: its G names take them in order. -/
def withSlots (g : Group) (ks : List Nat) : Group :=
  let names := (List.range g.top).filter (holdsSlot g) ++ setAside g
  { g with slots := ks, gslot := (names.zip ks).foldl (fun m p => fput m p.1 p.2) [] }

/-- `n` held slots leave a group: those of a list first, then the last ones (log 71). -/
def giveSlots (g : Group) (pref : List Nat) (n : Nat) : Group :=
  let out := (pref.dedup.filter g.slots.contains).take n
  let l := out.foldl (fun l k => l.erase k) g.slots
  { g with slots := l.take (l.length - (n - out.length)) }

/-- The threads of a mask. -/
def threadsOf (m : Word) : List Nat := (List.range 32).filter fun t => m.getLsbD t

/-- The mask of a list of threads. -/
def maskOf (l : List Nat) : Word := l.foldl (fun m t => withBit m t true) 0

/-- The set active(m) of an instruction (R4, R234), restricted to the unfinished threads where R50 or R262 says so. -/
def activeMask (g : Group) (f : Split) (m : Nat) : Word := f.mask &&& mReg g m &&& f.redo.getD 0xFFFFFFFF

/-- A special register holder: the task of a group. -/
def taskOf (s : State) (g : Group) : Task := getT s g.task

/-- R390: whether the debugger halts the role of a group. -/
def groupHalted (s : State) (g : Group) : Bool := (taskOf s g).halted.contains g.role

/-- R374, R377, R378, R399: whether the package issues nothing and places nothing. -/
def frozen (s : State) : Bool := s.halted || s.ckpt.quiesced

/-- R396: whether the package is in recovery. -/
def inRecovery (s : State) : Bool := (getDie s 0).recovery

/-- The lane of a group slot (R162). -/
def laneOf (slot : Nat) : Nat := slot / 4

/-- The groups resident on a core, by slot. -/
def resident (s : State) (core : Nat) : List (Nat × Group) :=
  s.groups.filter fun p => p.2.core == core && p.2.slot.isSome

/-- The groups resident on a lane. -/
def onLane (s : State) (core lane : Nat) : List (Nat × Group) :=
  (resident s core).filter fun p => p.2.slot.any fun k => laneOf k == lane

/-- The role of a granule under the target layout (R55): 1 register, 2 stash, 3 cache. -/
def targetRole (c : Core) (g : Nat) : Nat := if g < c.stashG then 2 else if g < c.stashG + c.regG then 1 else 3

/-- The role that a granule has: `roles` lists the granules that have not yet moved, with their old role (R58). -/
def roleAt (c : Core) (g : Nat) : Nat := let r := (fget 0 c.roles g).toNat; if r = 0 then targetRole c g else r

/-- A granule whose role is the same under the present and the target layout, and is `r` (R59). -/
def settledRole (c : Core) (g r : Nat) : Bool := roleAt c g == r && targetRole c g == r

/-- The G-slots of a lane that no resident group holds, lowest first (log 71), among the granules that R59 allows: slots `2g` and
`2g + 1` lie in granule `g` (R53, R170). -/
def freeSlots (s : State) (core lane : Nat) : List Nat :=
  let held := (onLane s core lane).flatMap fun p => p.2.slots
  (List.range 192).filter fun k => settledRole (getC s core) (k / 2) 1 && !held.contains k

/-- The name granules of a lane that no resident group holds (R168). -/
def freeNames (s : State) (core lane : Nat) : Nat :=
  24 - ((onLane s core lane).map fun p => ceilDiv p.2.nNames 8).sum

/-- The 7-bit core ID's pair and die (R79). -/
def pairOf (core : Nat) : Nat := core / 2
def dieOf (core : Nat) : Nat := core / 24

/-- R5: the cycles of a core's own clock: one for each tick that its die's clock did not miss (log 69). -/
def cycleOf (s : State) (core : Nat) : Nat := s.gtick.toNat - (getDie s (dieOf core)).lag
/-- The cycle at the core of a group. -/
def cycleG (s : State) (uid : Nat) : Nat := cycleOf s (getG s uid).core

/-- ECLK (R92). -/
def eclk (s : State) : BitVec 16 := BitVec.ofNat 16 (s.gtick.toNat / 1024)

/-- The expression a precedes b of R92. -/
def tsBefore (a b : BitVec 16) : Bool := 1 ≤ (b - a).toNat && (b - a).toNat ≤ 2 ^ 15 - 1
def tsLe (a b : BitVec 16) : Bool := a == b || tsBefore a b
def lmax (a b : BitVec 16) : BitVec 16 := if tsBefore a b then b else a

/-- R92: a core's PTS raised to a timestamp. -/
def raisePts (s : State) (core : Nat) (w : BitVec 16) : State := modC s core fun c => { c with pts := lmax c.pts w }

/-- A fault record that a context's event queue receives (R361, R362: at the end). -/
def addFault (s : State) (r : FaultRec) : State := modX s r.ctx fun x => { x with faults := x.faults ++ [r] }

/-- A fault record with the fields that name no group, command or place zero (R361). -/
def faultRec (s : State) (ctx : BitVec 12) (c : Cause) (defr : Bool) : FaultRec :=
  { tick := s.gtick, code := c, defr, ctx, core := 0, slot := 0, gv := false, ecls := 0, cseq := 0, sub := 0, addr := 0,
    gid := 0, arg := 0, acc := none }

/-- R361: the 32 bytes of a fault record. -/
def faultBits (r : FaultRec) : BitVec 256 :=
  BitVec.ofNat 256 (r.tick.toNat + 2 ^ 64 * causeCode r.code + 2 ^ 71 * r.defr.toNat + 2 ^ 72 * r.ctx.toNat + 2 ^ 84 * (r.core % 2 ^ 7) +
    (if r.gv then 2 ^ 91 * (r.slot % 2 ^ 10) else 0) + 2 ^ 101 * r.gv.toNat + 2 ^ 102 * r.ecls.toNat + 2 ^ 104 * r.cseq.toNat +
    2 ^ 120 * r.sub.toNat + 2 ^ 128 * (r.addr % 2 ^ 56) + (if r.gv then 2 ^ 192 * r.gid.toNat else 0) + 2 ^ 224 * r.arg.toNat)

/-- A fault record that names a group: SLOT and GID are valid while it has a slot (R361). -/
def faultRecG (s : State) (g : Group) (c : Cause) (defr : Bool) : FaultRec :=
  { faultRec s g.ctx c defr with core := g.core, slot := g.slot.getD 0, gv := g.slot.isSome, gid := if g.slot.isSome then g.gid else 0 }

/-- R355: whether a cause goes to the user handler, for a group of the task. -/
def toUser (s : State) (g : Group) (c : Cause) : Bool :=
  (getX s g.ctx).dlgmask.getLsbD (causeCode c) && !causeFixed c && (taskOf s g).tvec != 0

/-- The registers of R241 for a word of code at an address, with active(m) of the instruction. -/
def insnRegs (c : Code) (pc : BitVec 56) (g : Group) (f : Split) : TrapRegs :=
  let w := c.word.toNat
  let bits (lo n : Nat) : Nat := w / 2 ^ lo % 2 ^ n
  let maj := bits 1 6
  let lay := if c.wide then layoutOf maj else 0
  let first := match lay with
    | 0 => bits 5 6
    | 1 | 3 | 4 | 5 | 6 | 9 | 12 => bits 10 6
    | 2 => bits 7 6
    | 10 => bits 10 5
    | _ => 0
  let second := match lay with
    | 1 | 3 | 4 | 9 => bits 16 6
    | 2 => bits 13 6
    | 10 => bits 15 5
    | 11 => bits 14 7
    | _ => 0
  let third := match lay with
    | 0 => bits 11 5
    | 1 | 3 | 4 => bits 22 6
    | 11 => bits 21 7
    | 12 => bits 16 6
    | _ => 0
  let sel := match lay with
    | 1 | 2 => bits 30 2
    | 7 => bits 7 3
    | 9 => bits 22 4 + bits 30 2 * 16
    | 10 => bits 20 4 + bits 30 2 * 16
    | 4 => bits 28 4
    | 11 => bits 10 4 + bits 28 4 * 16
    | 12 => bits 22 4 + bits 26 4 * 16
    | _ => 0
  let func := match lay with
    | 0 | 2 | 7 | 8 => 0
    | _ => bits 7 3
  let opm := if c.wide then maj else bits 1 4
  let imm := match lay with
    | 5 => if maj = 40 ∧ bits 7 3 ≤ 1 then bits 16 16 else (BitVec.signExtend 64 (BitVec.ofNat 16 (bits 16 16))).toNat
    | 2 => bits 19 10
    | 6 => bits 16 16
    | 8 => bits 7 25
    | 7 => bits 21 11 + 2 ^ 16 * bits 10 11
    | _ => 0
  let m := match lay with
    | 1 | 2 | 9 => bits 30 2
    | 10 => if maj = 60 then 0 else bits 30 2
    | _ => 0
  { xinsn := BitVec.ofNat 37 (w + 2 ^ 32 * c.wide.toNat + 2 ^ 33 * lay),
    xf0 := BitVec.ofNat 64 (first + 2 ^ 8 * second + 2 ^ 16 * third + 2 ^ 24 * sel + 2 ^ 32 * func + 2 ^ 35 * opm),
    xf1 := BitVec.ofNat 64 imm,
    xf2 := BitVec.zeroExtend 64 (f.mask &&& mReg g m),
    xf3 := BitVec.ofNat 64 ((pc.toNat + c.len) % 2 ^ 56),
    xaddr := 0 }

/-- R241: the registers of a cause raised at fetch, before a whole instruction word exists. -/
def fetchRegs (pc : BitVec 56) (f : Split) : TrapRegs :=
  { xinsn := 0, xf0 := 0, xf1 := 0, xf2 := BitVec.zeroExtend 64 f.mask, xf3 := BitVec.zeroExtend 64 pc, xaddr := 0 }

/-! Tracing of asynchronous operations (R387). -/

/-- R387: an operation of a group marked for tracing enters its core's in-flight table; a full table leaves it out. -/
def traceAdd (s : State) (g : Group) (kind : BitVec 4) (op addr : Nat) (dest : BitVec 7) (cseq : BitVec 16) : State :=
  if !g.marked then s else
  modC s g.core fun c => if c.inflight.length < 64 then
    { c with inflight := c.inflight ++ [{ kind, slot := g.slot.getD 0, dest, cseq, addr, tick := BitVec.truncate 32 s.gtick, op }] }
    else { c with infOvf := true }

/-- R387: a completed operation leaves the table. -/
def traceDone (s : State) (core op : Nat) : State :=
  modC s core fun c => { c with inflight := c.inflight.filter fun e => e.op != op }

/-! The replay log and a replayed run (R391, R392). -/

/-- R391: WHERE and WHO of a log record. -/
def logWhere (r : BitVec 256) : Nat := r.toNat / 2 ^ 48 % 2 ^ 45
def logWho (r : BitVec 256) : Nat := r.toNat / 2 ^ 128

/-- R391: whether a log record is of a kind and a source. -/
def logFrom (kind src : Nat) (r : BitVec 256) : Bool := r.toNat % 2 ^ 16 == kind + src % 2 ^ 14 * 4

/-- R392: whether a context's run is a replayed one. -/
def replays (s : State) (ctx : BitVec 12) : Bool := (getX s ctx).replay.isSome

/-- R392: the logged decisions of a context that are yet to come. -/
def logLeft (s : State) (ctx : BitVec 12) : List (BitVec 256) := match (getX s ctx).replay with | some p => p.left | none => []

/-- R392: the next logged decision of a source. -/
def logNext (s : State) (ctx : BitVec 12) (kind src : Nat) : Option (BitVec 256) := (logLeft s ctx).find? (logFrom kind src)

/-- R392: a logged decision is made. -/
def logTake (s : State) (ctx : BitVec 12) (r : BitVec 256) : State :=
  modX s ctx fun x => { x with replay := x.replay.map fun p => { p with left := dropFirst r p.left, made := p.made ++ [r] } }

/-- R392: the merge that the log holds next for a word, with the number of its constituents that its home has performed. -/
def mergeNext (s : State) (ctx : BitVec 12) (word : Nat) : Option (BitVec 256 × Nat) :=
  ((logLeft s ctx).find? fun r => r.toNat % 4 == 2 && logWhere r == word).map fun r =>
    (r, match (getX s ctx).replay with | some p => fget 0 p.merging word | none => 0)

/-- R392: whether an atomic of a core at a word is out of the logged merge order: the log names the cores of a merge's first two constituents. -/
def mergeWaits (s : State) (ctx : BitVec 12) (word core : Nat) : Bool :=
  (mergeNext s ctx word).any fun x =>
    (x.2 == 0 && logWho x.1 / 2 ^ 6 % 2 ^ 7 != core) || (x.2 == 1 && logWho x.1 / 2 ^ 13 % 2 ^ 7 != core)

/-- R392: a home has performed a constituent of a logged merge. -/
def mergeDone (s : State) (ctx : BitVec 12) (word : Nat) : State :=
  match mergeNext s ctx word with
  | none => s
  | some (r, n) =>
    let last := n + 1 = logWho r % 2 ^ 6
    let s1 := modX s ctx fun x => { x with replay := x.replay.map fun p =>
      { p with merging := fset 0 p.merging word (if last then 0 else n + 1) } }
    if last then logTake s1 ctx r else s1

end Sys2Proof.Machine
end

