-- ==== Sys2Proof/Machine/Coherent.lean ====
section
/-!
DEFINITION. What the homes, the caches and the stash words that stand for global words hold (R79 to R90): the value that
any agent reads at a byte, recalls, invalidations, evictions, and the reads and writes that one action performs.
-/
namespace Sys2Proof.Machine

/-- R80: the fold of a line number. -/
def foldY (line : Nat) : Nat := (line % 2 ^ 16) ^^^ (line / 2 ^ 16 % 2 ^ 16) ^^^ (line / 2 ^ 32)

/-- R80: the global slice that is a line's home. -/
def homeSlice (line : Nat) : Nat := 24 * (line / 2 ^ 30) + foldY line * 24 / 2 ^ 16

/-- The die whose memory holds a line (R2). -/
def lineDie (line : Nat) : Nat := line / 2 ^ 30

/-- R79: the sector of a global pair, among those of the package. -/
def sectorOf (pair : Nat) : Nat := 3 * (pair / 12) + pair % 12 / 4

/-- R80, R87, R88: the slice of a pair's own sector in which a replica or a sector copy of a line lies. -/
def copySlice (pair line : Nat) : Nat := 24 * (pair / 12) + 8 * (pair % 12 / 4) + foldY line % 8

/-- The three slices of a die in which replicas of a line may lie (R80, R87). -/
def dieSlices (die line : Nat) : List Nat := (List.range 3).map fun s => 24 * die + 8 * s + foldY line % 8

/-- R79: the sector of a line's home slice. -/
def homeSector (line : Nat) : Nat := 3 * lineDie line + homeSlice line % 24 / 8

def dirAt (s : State) (line : Nat) : DirEntry := fget DirEntry.empty s.homes.dir line
/-- R82: whether a line needs its directory entry. -/
def entryNeeded (e : DirEntry) : Bool :=
  e.shr != 0 || e.rep != 0 || e.host || e.cpe || e.pin || e.lmode || !e.owners.isEmpty
def setDir (s : State) (line : Nat) (e : DirEntry) : State :=
  modH s fun h => { h with dir := fset DirEntry.empty h.dir line (if entryNeeded e then e else DirEntry.empty) }
def modDir (s : State) (line : Nat) (f : DirEntry → DirEntry) : State := setDir s line (f (dirAt s line))

/-- A byte of device memory at its home (R2). -/
def memByte (s : State) (pa : Nat) : Byte := fget 0 s.homes.mem pa
def setMem (s : State) (pa : Nat) (b : Byte) : State := modH s fun h => { h with mem := fset 0 h.mem pa b }

/-- The tag of a 16-byte granule of device memory (R16). -/
def tagAt (s : State) (pa : Nat) : Bool := fget false s.homes.tags (pa / 16)
def setTag (s : State) (pa : Nat) (t : Bool) : State := modH s fun h => { h with tags := fset false h.tags (pa / 16) t }

/-- The key of a word of a pair cache, a replica or a sector copy: the holder's number and the global word. -/
def unitKey (holder gw : Nat) : Nat := 2 ^ 50 * holder + gw

/-- The record that owns a word of a line (R85). -/
def ownerOf (e : DirEntry) (i : Nat) : Option Owner := e.owners.find? fun o => o.mask.getLsbD i

/-- The core whose stash is unit 1 or 2 of a pair (R85). -/
def stashCore (pair : Nat) (unit : Nat) : Nat := 2 * pair + unit - 1

/-- The stash words of a core that hold a byte of a global word, with their states (R70). -/
def boundWords (s : State) (core gw : Nat) : List (Nat × SWord) :=
  (getC s core).swords.filter fun p => p.2.bound.any fun b => b.any fun a => a / 4 == gw

/-- The stash words that a piece touches. -/
def wordsOf (p : Piece) : List Nat := (List.range (ceilDiv (p.place % 4 + p.size) 4)).map (p.place / 4 + ·)

/-- R388: in whose name stash words are reached: the kind of access, 1 read, 2 write, 4 atomic, and the requester's core. -/
abbrev By := BitVec 3 × Nat

/-- No core's request: the model writes requester 127, which is no core, and takes the access for a write (log 44). -/
def noBy : By := (2, 127)

/-- R388: a DBG_WATCH record for each watchpoint that matches an access to a stash word. The spec gives no codes for the kind in ARG bits
4:2: the model writes 0 for a read, 1 for a write, 2 for an atomic (log 44). -/
def watchWord (s : State) (core : Nat) (ctx : BitVec 12) (by_ : By) (w : Nat) : State :=
  (List.range 4).foldl (fun s n =>
    let wp := fget Watch.zero (getC s core).watches n
    if !(wp.en && wp.ctx == ctx && wp.addr / 4 == w && wp.mat &&& by_.1 != 0) then s else
    let k : Nat := if by_.1 = 1 then 0 else if by_.1 = 2 then 1 else 2
    let r : FaultRec := { faultRec s ctx .dbgWatch true with
      core, addr := wp.addr, arg := BitVec.ofNat 32 (n + k * 4 + by_.2 % 128 * 32),
      gid := BitVec.ofNat 32 (readLe (getC s core).stash (4 * w) 4) }
    let s1 := addFault s r
    if wp.act = 0 then s1 else push s1 (.watchpointStop core wp.act)) s

/-- R388: the context whose stash a mapped word lies in. -/
def wordCtx (s : State) (core k : Nat) : Option (BitVec 12) :=
  ((getC s core).maps.find? fun p => p.2.sbase * 128 ≤ 4 * k && 4 * k < (p.2.sbase + p.2.slen) * 128).map fun p => p.2.ctx

/-- R388: watchpoints on mapped stash words of a core. -/
def watchWords (s : State) (core : Nat) (by_ : By) (ks : List Nat) : State :=
  ks.foldl (fun s k => match wordCtx s core k with
    | some ctx => watchWord s core ctx by_ k
    | none => s) s

/-- R388: watchpoints on the stash words by which a unit holds words of a line. -/
def watchUnit (s : State) (line pair unit : Nat) (mask : Word) (by_ : By) : State :=
  if unit = 0 then s else
  let core := stashCore pair unit
  watchWords s core by_ ((threadsOf mask).flatMap fun i => (boundWords s core (32 * line + i)).map fun p => p.1).dedup

/-- The stash byte of a core that a D word binds to a physical byte. -/
def stashByteOf (s : State) (core pa : Nat) : Option Byte :=
  (boundWords s core (pa / 4)).findSome? fun p =>
    if p.2.d then
      (p.2.bound.zipIdx.find? fun q => q.1 == some pa).map fun q => fget 0 (getC s core).stash (4 * p.1 + q.2)
    else none

/-- The value that an agent with no pending store reads at a byte of device memory (R85, R86, R89). -/
def visByte (s : State) (pa : Nat) : Byte :=
  match ownerOf (dirAt s (pa / 128)) (pa / 4 % 32) with
  | none => memByte s pa
  | some o =>
    if o.unit = 0 then
      match ffind s.homes.pcache (unitKey o.pair.toNat (pa / 4)) with
      | some w => BitVec.ofNat 8 (w.val.toNat / 2 ^ (8 * (pa % 4)))
      | none => memByte s pa
    else (stashByteOf s (stashCore o.pair.toNat o.unit.toNat) pa).getD (memByte s pa)

/-- The little-endian value of `n` bytes of device memory as an agent reads them. -/
def visLe (s : State) (pa n : Nat) : Nat := leNat ((List.range n).map fun i => visByte s (pa + i))

/-- A word of device memory as an agent reads it. -/
def visWord (s : State) (gw : Nat) : Word := BitVec.ofNat 32 (visLe s (4 * gw) 4)

/-- The bytes of a list written to the homes. -/
def memBytes (s : State) (pa : Nat) (bs : List Byte) : State :=
  modH s fun h => { h with mem := fsetN 0 h.mem pa bs }

/-- The state of a stash word set. -/
def setSWord (s : State) (core k : Nat) (w : SWord) : State :=
  modC s core fun c => { c with swords := fset SWord.zero c.swords k w }

/-- R63: the mapping entry that covers a stash byte, with its number. -/
def entryAt (c : Core) (ctx : BitVec 12) (b : Nat) : Option (Nat × MapEntry) :=
  c.maps.find? fun p => p.2.ctx == ctx && p.2.sbase * 128 ≤ b && b < (p.2.sbase + p.2.slen) * 128

/-- R86: the owner records of a line lose the words of a mask held by a unit. -/
def disown (s : State) (line : Nat) (pair unit : Nat) (mask : Word) : State :=
  let give (o : Owner) : Owner :=
    if o.pair.toNat == pair && o.unit.toNat == unit then { o with mask := o.mask &&& ~~~ mask } else o
  modDir s line fun e => { e with owners := (e.owners.map give).filter (fun o => o.mask != 0) }

/-! The sets of the pair caches and of the slices (R81 to R84, R87): they decide where copies lie, never a value. -/

/-- R34: whether a line's bytes compress under the scheme that an MBF gives. -/
def packs (mbf : BitVec 5) (bs : List Byte) : Bool :=
  match mbf.toNat % 8 with
  | 1 => bs.all fun b => b == 0
  | 2 => Config.baseDelta (leNat bs)
  | _ => false

/-- R34: on the SW2 a line that is written takes the scheme that it was given, and its metadata records whether it is stored
compressed (bit 5). -/
def packLine (s : State) (line : Nat) (mbf : BitVec 5) : State :=
  if s.part ≠ .sw2p then s else
  let m : BitVec 6 := BitVec.zeroExtend 6 mbf ||| (if packs mbf ((List.range 128).map fun i => memByte s (128 * line + i)) then 32 else 0)
  modH s fun h => { h with packed := fset 0 h.packed line m }

/-- R34: the same for a client that has no translation: the line keeps the scheme that its metadata names. -/
def repackLine (s : State) (line : Nat) : State := packLine s line (BitVec.truncate 5 (fget 0 s.homes.packed line))

/-- The set of a pair cache half in which a line is to lie, none when the half caches nothing (R56, R81). -/
def pairSet (s : State) (pair line : Nat) : Option Nat :=
  let n := (getC s (2 * pair + line % 2)).cacheG * 32
  if n = 0 then none else some (line / 2 % n)

/-- The key of a set of a pair's half. -/
def setKey (pair line n : Nat) : Nat := 2 ^ 20 * (pair * 2 + line % 2) + n

/-- The granule in which a set of a half lies: 32 sets fill one, the lowest sets the highest granule (log 78). -/
def setGranule (n : Nat) : Nat := 95 - n / 32

/-- The set of a half that holds a line, wherever that is (R83). -/
def wayKey (s : State) (pair line : Nat) : Option Nat :=
  (s.homes.psets.find? fun p => p.1 / 2 ^ 20 == pair * 2 + line % 2 && p.2.any fun w => w.line == line).map fun p => p.1

/-- A way list with a line put in its place: the most recent first, an evict-first line last (R83). -/
def wayInsert (ws : List Way) (w : Way) (first : Bool) : List Way := if first then w :: ws else ws ++ [w]

/-- R81, R83: the victim of a full set: the least recently used, retain lines only when all are retain lines. -/
def wayVictim (ws : List Way) : Option Way :=
  match (ws.filter fun w => !w.retain).getLast? with
  | some w => some w
  | none => ws.getLast?

/-- Whether a pair cache holds a word of a line, or a lease copy of it. -/
def cacheHolds (s : State) (pair line : Nat) : Bool :=
  ((List.range 32).any fun i => (ffind s.homes.pcache (unitKey pair (32 * line + i))).isSome) ||
    (ffind s.homes.leases (2 ^ 45 * pair + line)).isSome

/-- A line of which a pair cache holds no word any more leaves its way. -/
def tidyPair (s : State) (pair line : Nat) : State :=
  if cacheHolds s pair line then s else
  match wayKey s pair line with
  | none => s
  | some k => modH s fun h => { h with psets := fset [] h.psets k ((fget [] h.psets k).filter fun w => w.line != line) }

/-- The words of a line that a slice holds as a replica or as a sector copy. -/
def repWords (s : State) (slice line : Nat) : List Nat :=
  (List.range 32).filter fun i => (ffind s.homes.reps (unitKey slice (32 * line + i))).isSome
def sectWords (s : State) (slice line : Nat) : List Nat :=
  (List.range 32).filter fun i => (ffind s.homes.sects (unitKey slice (32 * line + i))).isSome

/-- R87: the slice of a pair's die whose replica holds all words of a mask of a line. -/
def replicaOf (s : State) (pair line : Nat) (m : Word) : Option Nat :=
  if lineDie line = pair / 12 then none
  else (dieSlices (pair / 12) line).find? fun k => (threadsOf m).all fun i => (repWords s k line).contains i

/-- A replica or a sector copy without words leaves its way, with the replica's vector. -/
def tidySlice (s : State) (slice line : Nat) : State :=
  if !(repWords s slice line).isEmpty || !(sectWords s slice line).isEmpty then s else
  modH s fun h =>
    let k := slice * 2048 + line / 32 % 2048
    { h with l2 := fset [] h.l2 k ((fget [] h.l2 k).filter fun w => !(w.line == line && w.kind != 0)),
             repVec := fdel h.repVec (2 ^ 45 * slice + line) }

/-- R69, R74: whether a stash of a pair holds a word of a line. -/
def stashHolds (s : State) (pair line : Nat) : Bool :=
  [2 * pair, 2 * pair + 1].any fun c => (getC s c).swords.any fun p => p.2.v && p.2.bound.any fun b => b.any fun a => a / 128 == line

/-- R86: a pair that holds no word of a line, and has none on its way, reports so: the home clears its sharer bit (log 74). A
sector copy of its sector counts as held (R88). -/
def shareReport (s : State) (line pair : Nat) : State :=
  let coming (q : Req) : Bool := q.kind == .read && q.line == line && q.core / 2 == pair && !q.data.isEmpty
  if !(dirAt s line).shr.getLsbD pair || cacheHolds s pair line || stashHolds s pair line ||
    !(sectWords s (copySlice pair line) line).isEmpty || (s.reqs.any fun p => coming p.2) then s
  else modDir s line fun e => { e with shr := withBit e.shr pair false }

/-- Whether a unit owns a word of a line. -/
def unitOwns (s : State) (line pair unit i : Nat) : Bool :=
  (ownerOf (dirAt s line) i).any fun o => o.pair.toNat == pair && o.unit.toNat == unit

/-- R86: the words of a mask that a pair holds clean are dropped, apart from those of the unit `keep` (0 pair cache, 1
and 2 the stashes, 3 none); a word that its cache owns is recalled, not invalidated. The sector copy of the pair's sector drops them too
(R88), and watchpoints see the stash words that go (R388). A reply on its way to the pair with such a word leaves no copy. -/
def dropPair (s : State) (line pair keep : Nat) (mask : Word) (by_ : By) : State :=
  let hit (q : Req) : Bool := q.kind == .read && q.line == line && q.core / 2 == pair &&
    q.data.any fun d => mask.getLsbD d.1
  let s := { s with reqs := s.reqs.map fun p => (p.1, if hit p.2 then { p.2 with stale := true } else p.2) }
  let s1 := (threadsOf mask).foldl (fun s i =>
    let gw := 32 * line + i
    let s := if keep == 0 || unitOwns s line pair 0 i then s else modH s fun h => { h with pcache := fdel h.pcache (unitKey pair gw) }
    let s := modH s fun h => { h with sects := fdel h.sects (unitKey (copySlice pair line) gw) }
    [1, 2].foldl (fun s u =>
      if keep == u then s else
      (boundWords s (stashCore pair u) gw).foldl (fun s p =>
        if p.2.d then s else setSWord (watchWords s (stashCore pair u) by_ [p.1]) (stashCore pair u) p.1 SWord.zero) s) s) s
  tidySlice (tidyPair s1 pair line) (copySlice pair line) line

/-- R87: a slice's replica drops the words of a mask and passes the invalidation to the pairs of its vector. -/
def dropReplicaAt (s : State) (line slice keepPair keepUnit : Nat) (mask : Word) (by_ : By) : State :=
  let s1 := (threadsOf mask).foldl (fun s i =>
    modH s fun h => { h with reps := fdel h.reps (unitKey slice (32 * line + i)) }) s
  let vec := fget 0 s1.homes.repVec (2 ^ 45 * slice + line)
  tidySlice (((List.range 12).filter fun k => vec.getLsbD k).foldl (fun s k =>
    let pair := 12 * (slice / 24) + k
    dropPair s line pair (if pair == keepPair then keepUnit else 3) mask by_) s1) slice line

/-- R87: a die that holds no replica of a line any more reports so: its REP bit clears. -/
def replicaReport (s : State) (line die : Nat) : State :=
  if (dieSlices die line).any fun k => !(repWords s k line).isEmpty then s
  else modDir s line fun e => { e with rep := withBit e.rep die false }

/-- R87: the replicas of a die drop the words of a mask. -/
def dropReplica (s : State) (line die keepPair keepUnit : Nat) (mask : Word) (by_ : By) : State :=
  replicaReport ((dieSlices die line).foldl (fun s k => dropReplicaAt s line k keepPair keepUnit mask by_) s) line die

/-- What a slice does with the line that it gives up: a replica goes with the words that pairs took from it, a sector copy with its
words (log 79). -/
def sliceVictim (s : State) (slice : Nat) (w : Way) : State :=
  match w.kind with
  | 1 => replicaReport (dropReplicaAt s w.line slice 64 3 0xFFFFFFFF noBy) w.line (slice / 24)
  | 2 => modH s fun h => { h with sects := (List.range 32).foldl (fun m i => fdel m (unitKey slice (32 * w.line + i))) h.sects }
  | _ => s

/-- R82, R83: a line takes a way of a slice's set under its partition, or moves in the order of use. -/
def sliceTouch (s : State) (slice line kind : Nat) (mbf : BitVec 5) : State :=
  let k := slice * 2048 + line / 32 % 2048
  let ws := fget [] s.homes.l2 k
  let pol := if s.part = .sw2p then 0 else mbf.toNat % 4
  let mask : BitVec 24 := if s.part = .sw2p then 0xFFFFFF else
    fget 0xFFFFFF s.homes.wpmask (slice * 8 + mbf.toNat / 4)
  match ws.find? fun w => w.line == line && w.kind == kind with
  | some w => modH s fun h => { h with l2 := fset [] h.l2 k (w :: dropFirst w ws) }
  | none =>
    if pol = 3 || mask = 0 then s else
    let ret := pol = 2 && (ws.filter fun w => w.retain).length < 18
    let ways := (List.range 24).filter fun n => mask.getLsbD n
    let free := ways.find? fun n => !ws.any fun w => w.way == n
    let victim := if free.isSome then none else wayVictim (ws.filter fun w => ways.contains w.way)
    let s1 := match victim with | some v => sliceVictim s slice v | none => s
    let ws1 := (fget [] s1.homes.l2 k).filter fun w => some w != victim
    let way := match free, victim with | some n, _ => n | none, some v => v.way | none, none => 0
    modH s1 fun h => { h with l2 := fset [] h.l2 k (wayInsert ws1 { line, kind, retain := ret, way, mbf } (pol ≠ 1)) }

/-- Whether a slice holds a line under a kind. -/
def sliceHas (s : State) (slice line kind : Nat) : Bool :=
  (fget [] s.homes.l2 (slice * 2048 + line / 32 % 2048)).any fun w => w.line == line && w.kind == kind

/-- What the home of a line does as data reaches it: the line's place in the slice (R83) and its metadata (R34). -/
def homeTouch (s : State) (line : Nat) (mbf : BitVec 5) : State := sliceTouch (packLine s line mbf) (homeSlice line) line 0 mbf

/-! Write-back, recall and invalidation. -/

/-- R20: whether the four words of a stash granule are valid. -/
def granuleWhole (c : Core) (k : Nat) : Bool := (List.range 4).all fun j => (fget SWord.zero c.swords (k / 4 * 4 + j)).v

/-- R20: the tag of the granule of a stash word, as a write-back stores it. -/
def stashTag (c : Core) (k : Nat) : Bool := fget false c.stags (k / 4) && (fget SWord.zero c.swords k).keeps

/-- R63: the entries count the lines of which dirty words were written back. -/
def countWbacks (s : State) (core : Nat) (ks : List Nat) : State :=
  let lines := (ks.map fun k => k / 32).dedup
  let up (m : MapEntry) : MapEntry := { m with wbacks := BitVec.ofNat 16 (min 0xFFFF (m.wbacks.toNat +
    (lines.filter fun l => m.sbase ≤ l && l < m.sbase + m.slen).length)) }
  if ks.isEmpty then s else modC s core fun c => { c with maps := c.maps.map fun p => (p.1, up p.2) }

/-- R20, R72, R86: the field bytes of a D word written to the bytes that it is bound to, with the tag of its granule where the entry
copies tags; the word becomes C, and the home takes back the global words of which no other byte is dirty there. Bytes of a
lease-mode line lie at their home already (R74). -/
def writeBackStash (s : State) (core k : Nat) : State :=
  let c := getC s core
  let w := fget SWord.zero c.swords k
  if !w.d then s else
  let put := w.bound.zipIdx.filterMap fun q => q.1.bind fun pa =>
    if w.wtss.any fun x => x.1 == pa / 128 then none else some (pa, fget 0 c.stash (4 * k + q.2))
  let tag (pa : Nat) : Bool := stashTag c k && (granuleWhole c k || tagAt s pa)
  let s1 := put.foldl (fun s x => setTag (setMem s x.1 x.2) x.1 (tag x.1)) s
  let mbf (l : Nat) : BitVec 5 := ((w.mbfs.find? fun x => x.1 == l).map fun x => x.2).getD 0
  let s2 := ((put.map fun x => x.1 / 128).dedup).foldl (fun s l => homeTouch s l (mbf l)) s1
  let s3 := setSWord s2 core k { w with d := false }
  ((put.map fun x => x.1 / 4).dedup).foldl (fun s gw =>
    if (boundWords s core gw).any fun p => p.2.d then s else
    let s4 := disown s (gw / 32) (pairOf core) (1 + core % 2) (BitVec.ofNat 32 (2 ^ (gw % 32)))
    modDir s4 (gw / 32) fun e => { e with shr := withBit e.shr (pairOf core) true }) s3

/-- The MBF under which a pair cache holds a line. -/
def pairMbf (s : State) (pair line : Nat) : BitVec 5 :=
  match wayKey s pair line with
  | some k => (((fget [] s.homes.psets k).find? fun w => w.line == line).map fun w => w.mbf).getD 0
  | none => 0

/-- R69, R89: a unit writes back and drops the words of a mask of a line that it owns, and the home takes them. Watchpoints see the stash words
that it reaches (R388). -/
def recallUnit (s : State) (line pair unit : Nat) (mask : Word) (by_ : By) : State :=
  let s := watchUnit s line pair unit mask by_
  let core := stashCore pair unit
  let ks := if unit == 0 then [] else ((threadsOf mask).flatMap fun i => (boundWords s core (32 * line + i)).map fun p => p.1).dedup
  let dirty := ks.filter fun k => (fget SWord.zero (getC s core).swords k).d
  let s1 := if unit == 0 then
      let mbf := pairMbf s pair line
      let s' := (threadsOf mask).foldl (fun s i =>
        let gw := 32 * line + i
        match ffind s.homes.pcache (unitKey pair gw) with
        | none => s
        | some w =>
          let s := if w.dirty then memBytes s (4 * gw) (leBytes w.val.toNat 4) else s
          modH s fun h => { h with pcache := fdel h.pcache (unitKey pair gw) }) s
      homeTouch (tidyPair s' pair line) line mbf
    else countWbacks (ks.foldl (fun s k => setSWord (writeBackStash s core k) core k SWord.zero) s) core dirty
  disown s1 line pair unit mask

/-- R85, R86: the read buffers of the host ports and of the copy engines drop the words of a mask. -/
def dropHost (s : State) (line : Nat) (mask : Word) : State :=
  if !(dirAt s line).host then s else
  let m := fget 0 s.homes.hostBuf line &&& ~~~mask
  modDir (modH s fun h => { h with hostBuf := fset 0 h.hostBuf line m }) line fun e => { e with host := m != 0 }
def dropCpe (s : State) (line : Nat) (mask : Word) : State :=
  if !(dirAt s line).cpe then s else
  let m := fget 0 s.homes.cpeBuf line &&& ~~~mask
  modDir (modH s fun h => { h with cpeBuf := fset 0 h.cpeBuf line m }) line fun e => { e with cpe := m != 0 }

/-- R85, R86: a read of a host port, or of a copy engine, leaves words of a line in its buffer. -/
def hostReads (s : State) (line : Nat) (mask : Word) : State :=
  modDir (modH s fun h => { h with hostBuf := fset 0 h.hostBuf line (fget 0 h.hostBuf line ||| mask) }) line fun e => { e with host := true }
def cpeReads (s : State) (line : Nat) (mask : Word) : State :=
  modDir (modH s fun h => { h with cpeBuf := fset 0 h.cpeBuf line (fget 0 h.cpeBuf line ||| mask) }) line fun e => { e with cpe := true }

/-- The pairs whose sharer bit is set (R85). -/
def sharers (e : DirEntry) : List Nat := (List.range 48).filter fun p => e.shr.getLsbD p

/-- The dies whose replica bit is set (R85). -/
def replicas (e : DirEntry) : List Nat := (List.range 4).filter fun d => e.rep.getLsbD d

/-- The owners of words of a mask, apart from one unit, with the words of the mask that each owns. -/
def ownersIn (e : DirEntry) (mask : Word) (pair unit : Nat) : List (Nat × Nat × Word) :=
  (e.owners.filter fun o => (o.mask &&& mask) != 0 && !(o.pair.toNat == pair && o.unit.toNat == unit)).map
    fun o => (o.pair.toNat, o.unit.toNat, o.mask &&& mask)

/-- R86, R89, as one action: every sharer but the unit named drops the words of a mask (log 22). -/
def dropSharers (s : State) (line : Nat) (mask : Word) (pair unit : Nat) (by_ : By) : State :=
  let e := dirAt s line
  let s1 := (sharers e).foldl (fun s p => dropPair s line p (if p == pair then unit else 3) mask by_) s
  dropCpe (dropHost ((replicas e).foldl (fun s d => dropReplica s line d pair unit mask by_) s1) line mask) line mask

/-- R86, as one action: every owner but the unit named gives up the words of a mask, and every sharer drops them. -/
def clearCopies (s : State) (line : Nat) (mask : Word) (pair unit : Nat) (by_ : By) : State :=
  dropSharers ((ownersIn (dirAt s line) mask pair unit).foldl (fun s o => recallUnit s line o.1 o.2.1 o.2.2 by_) s) line mask pair unit by_

/-- R17, R20: the tag of a granule of device memory as an agent reads it with the 16 bytes: where a stash owns words of it, the tag
that the stash keeps, with the home's when the stash does not hold all of the granule. -/
def visTag (s : State) (pa : Nat) : Bool :=
  let held := (List.range 4).filterMap fun j =>
    let gw := pa / 16 * 4 + j
    match ownerOf (dirAt s (pa / 128)) (gw % 32) with
    | some o => if o.unit = 0 then none else
      ((boundWords s (stashCore o.pair.toNat o.unit.toNat) gw).find? fun p => p.2.d).map fun p => (stashCore o.pair.toNat o.unit.toNat, p.1)
    | none => none
  if held.isEmpty then tagAt s pa else
  (held.all fun x => stashTag (getC s x.1) x.2) && ((held.any fun x => granuleWhole (getC s x.1) x.2) || tagAt s pa)

/-- A byte written where its newest value lies: at the unit that owns its word, else at the home. The tag of its granule
clears (R17). -/
def pokeByte (s : State) (pa : Nat) (b : Byte) : State :=
  let gw := pa / 4
  let s1 := match ownerOf (dirAt s (pa / 128)) (gw % 32) with
    | none => setMem s pa b
    | some o =>
      if o.unit = 0 then
        let v := (List.range 4).map fun i => if i = pa % 4 then b else visByte s (4 * gw + i)
        let w : CWord := { val := BitVec.ofNat 32 (leNat v), dirty := true }
        modH s fun h => { h with pcache := fput h.pcache (unitKey o.pair.toNat gw) w }
      else
        let core := stashCore o.pair.toNat o.unit.toNat
        let place := (boundWords s core gw).findSome? fun p => if p.2.d then
          (p.2.bound.zipIdx.find? fun q => q.1 == some pa).map fun q => 4 * p.1 + q.2 else none
        match place with
        | some k => modC s core fun c => { c with stash := fset 0 c.stash k b, stags := fset false c.stags (k / 16) false }
        | none => setMem s pa b
  setTag s1 pa false

/-- Bytes written where their newest values lie. -/
def pokeBytes (s : State) (pa : Nat) : List Byte → State
  | [] => s
  | b :: bs => pokeBytes (pokeByte s pa b) (pa + 1) bs

/-- R90, as one action: a line is recalled in full, every copy of it dropped, and its lease copies with it. -/
def recallLine (s : State) (line : Nat) : State :=
  let s1 := clearCopies s line 0xFFFFFFFF 64 3 noBy
  modH s1 fun h => { h with leases := h.leases.filter fun p => p.1 % 2 ^ 45 != line }

/-- R95: a lease-mode entry that is evicted leaves its RTS in EVTS. -/
def evictLease (s : State) (line : Nat) (e : DirEntry) : State :=
  if !e.lmode then s else
  modH s fun h =>
    let k := homeSlice line
    let old := fget { valid := false, ts := 0 } h.evts k
    let nw : Evts := { valid := true, ts := if old.valid then lmax old.ts e.rts else e.rts }
    { h with evts := fset { valid := false, ts := 0 } h.evts k nw }

/-- R90: a directory entry is evicted, its copies and owned words recalled. -/
def evictDir (s : State) (line : Nat) : State :=
  let e := dirAt s line
  let s1 := evictLease s line e
  let s2 := if e.lmode then s1 else recallLine s1 line
  setDir s2 line DirEntry.empty

/-- The words of its line that a request names. -/
def reqMask (q : Req) : Word :=
  if q.whole then 0xFFFFFFFF else
  match q.kind with
  | .rowAtomic _ | .lock _ _ => 0xFFFFFFFF
  | _ => maskOf (q.pieces.flatMap fun p =>
    if p.space = 1 then p.bound.filterMap fun b => b.bind fun a => if a / 128 = q.line then some (a / 4 % 32) else none
    else (wordsOf p).map fun w => w % 32)

/-- R86, R94: whether an earlier request that the home works on, or keeps waiting, names words of a line. `id` is the request that asks,
0 for an access that is none. -/
def busyOn (s : State) (id line : Nat) (mask : Word) : Bool :=
  let clash (r : Req) : Bool := r.id != id && r.line == line && ((reqMask r &&& mask) != 0 || (r.mode == 1 && r.busy))
  (s.reqs.any fun p => p.2.busy && clash p.2) ||
    ((s.homes.waiting.takeWhile fun x => x != id).any fun x => (ffind s.reqs x).any clash)

/-- The entries of a line's directory set, apart from its own (R82). -/
def dirSet (s : State) (line : Nat) : List (Nat × DirEntry) :=
  s.homes.dir.filter fun p => p.1 != line && homeSlice p.1 == homeSlice line && p.1 % 4096 == line % 4096

/-- R82, R90: whether the home works on a request that needs its line's directory entry, until it is acknowledged. -/
def takesEntry (q : Req) : Bool :=
  q.busy && (q.mode == 1 || match q.kind with | .own => true | .capRead | .capWrite _ => q.unit != 3 | _ => false)

/-- The lines of a line's directory set that requests at the home are to enter. -/
def dirClaims (s : State) (line : Nat) : List Nat :=
  ((s.reqs.filter fun p => takesEntry p.2 && p.2.line != line && homeSlice p.2.line == homeSlice line && p.2.line % 4096 == line % 4096 &&
    dirAt s p.2.line == DirEntry.empty).map fun p => p.2.line).dedup

/-- R82, R90: room in a line's directory set, among its entries and those that requests at the home are to make: the state with the least
recently used entry evicted when the set is full. A pinned entry is no victim, nor is one whose line the home works on (R86); without a
victim there is no room. -/
def dirRoom (s : State) (line : Nat) : Option State :=
  if dirAt s line ≠ DirEntry.empty then some s else
  let set := dirSet s line
  if set.length + (dirClaims s line).length < 16 then some s else
  let free (p : Nat × DirEntry) : Bool := !p.2.pin && !(s.reqs.any fun q => q.2.busy && q.2.line == p.1)
  match (set.filter free).foldl (fun (b : Option (Nat × DirEntry)) p => match b with
      | none => some p
      | some q => if p.2.used < q.2.used then some p else some q) none with
  | none => none
  | some p => some (evictDir s p.1)

/-- R95: the entry of a lease-mode line, made when there is none. -/
def leaseEntry (s : State) (line : Nat) : DirEntry :=
  let e := dirAt s line
  if e.lmode then e else
  let ev := fget { valid := false, ts := 0 } s.homes.evts (homeSlice line)
  let w := eclk s - 0x4000#16
  let t := if ev.valid then lmax ev.ts w else w
  { e with lmode := true, wts := t, rts := t, old := false }

/-- R93: the timestamp of the version that a lease read returns. -/
def leaseW (s : State) (line : Nat) : BitVec 16 :=
  let e := leaseEntry s line
  if e.old then eclk s - 0x4000#16 else e.wts

/-- R93: a read lease of `l` units, and what it answers: the state, WTS and RTS. -/
def leaseGrant (s : State) (line : Nat) (l : Nat) (pts : BitVec 16) : State × BitVec 16 × BitVec 16 :=
  let e := leaseEntry s line
  let w := leaseW s line
  let r := lmax (lmax e.rts (w + BitVec.ofNat 16 l)) (pts + BitVec.ofNat 16 l)
  let lim := eclk s + 0x2000#16
  let r := if tsBefore lim r then lim else r
  (modH (setDir s line { e with rts := r, used := s.gtick.toNat }) fun h => { h with fmode := fset false h.fmode (line / 512) true },
    e.wts, r)

/-- R94: the timestamp that a lease-mode write takes. -/
def leaseStamp (s : State) (line : Nat) (pts : BitVec 16) : BitVec 16 := lmax ((leaseEntry s line).rts + 1) pts

/-- R94: whether the home holds such a write. -/
def leaseHeld (s : State) (line : Nat) (pts : BitVec 16) : Bool :=
  tsBefore (eclk s + 0x2000#16) (leaseStamp s line pts)

/-- R94: the timestamps of a line after a write. -/
def leaseWritten (s : State) (line : Nat) (pts : BitVec 16) : State :=
  let w := leaseStamp s line pts
  modH (setDir s line { leaseEntry s line with wts := w, rts := w, old := false, used := s.gtick.toNat }) fun h =>
    { h with fmode := fset false h.fmode (line / 512) true }

/-- R92, R422: whether a line is in lease mode for a request that carries no translation (log 77). -/
def leaseLine (s : State) (line : Nat) : Bool := (dirAt s line).lmode || fget false s.homes.fmode (line / 512)

/-- One byte written at its home as one action, with the copies of its word recalled and dropped and its granule's tag
cleared (R17, R86). -/
def devByte (s : State) (by_ : By) (pa : Nat) (b : Byte) : State :=
  setTag (setMem (clearCopies s (pa / 128) (BitVec.ofNat 32 (2 ^ (pa / 4 % 32))) 64 3 by_) pa b) pa false

/-- Bytes written at their homes as one action. -/
def devBytes (s : State) (by_ : By) (pa : Nat) : List Byte → State
  | [] => s
  | b :: bs => devBytes (devByte s by_ pa b) by_ (pa + 1) bs

/-- The lines of a run of bytes. -/
def runOf (pa n : Nat) : List Nat := (List.range (ceilDiv (pa % 128 + n) 128)).map (pa / 128 + ·)

/-- Bytes written at their homes as one action, by a client without a translation (R34). -/
def devWrite (s : State) (pa : Nat) (bs : List Byte) : State := (runOf pa bs.length).foldl repackLine (devBytes s noBy pa bs)

/-- A little-endian value written at its home as one action. -/
def devWriteLe (s : State) (pa n x : Nat) : State := devWrite s pa (leBytes x n)

/-- R97, R422: a write-through to a line of a page in the given mode and MBF, as one action. -/
def devWriteMode (s : State) (by_ : By) (mode : BitVec 2) (mbf : BitVec 5) (pts : BitVec 16) (pa : Nat) (bs : List Byte) : State :=
  let ls := runOf pa bs.length
  let s1 := ls.foldl (fun s l => homeTouch s l mbf) (devBytes s by_ pa bs)
  if mode = 1 then ls.foldl (fun s l => leaseWritten ((dirRoom s l).getD s) l pts) s1 else s1

/-- R45: the generation of the 64 KiB frame of a physical address. -/
def genOf (s : State) (pa : Nat) : BitVec 8 := fget 0 s.homes.gens (pa / 2 ^ 16)

/-- R46, R86: whether the home of a line takes an access of words of it at once: the generation of its translation is the frame's, and
no earlier request holds it back. -/
def homeOpen (s : State) (line : Nat) (mask : Word) (gen : BitVec 8) : Bool :=
  gen == genOf s (line * 128) && !busyOn s 0 line mask

/-- The lock state of a line (R141). -/
def lockAt (s : State) (line : Nat) : Lock := fget Lock.free s.homes.locks line
def setLock (s : State) (line : Nat) (l : Lock) : State :=
  modH s fun h => { h with locks := fset Lock.free h.locks line l }

/-- R144: whether a line is locked by a group other than one. -/
def lockedBy (s : State) (line : Nat) (uid : Option Nat) : Bool := (lockAt s line).holder.any fun h => some h != uid

/-- R87: a line leaves a pair cache: dirty words are written back, and the valid words of a line homed on another die
become the replica in the pair's sector where the slice takes it, but for those that the home invalidates for a request (R86). A lease copy
is dropped. -/
def pairEvict (s : State) (pair line : Nat) : State :=
  let ws := (List.range 32).filterMap fun i => (ffind s.homes.pcache (unitKey pair (32 * line + i))).map fun w => (i, w)
  let mbf := pairMbf s pair line
  let dirty := maskOf ((ws.filter fun p => p.2.dirty).map fun p => p.1)
  let owned := ((dirAt s line).owners.filter fun o => o.pair.toNat == pair && o.unit == 0).foldl (fun m o => m ||| o.mask) (0 : Word)
  let s1 := recallUnit s line pair 0 (dirty ||| owned) noBy
  let moved := ws.filter fun p => !busyOn s 0 line (BitVec.ofNat 32 (2 ^ p.1))
  let s2 := ws.foldl (fun s p =>
    modH s fun h => { h with pcache := fdel h.pcache (unitKey pair (32 * line + p.1)) }) s1
  let s3 := tidyPair (modH s2 fun h => { h with leases := fdel h.leases (2 ^ 45 * pair + line) }) pair line
  let d := pair / 12
  let slice := copySlice pair line
  let s5 := if d == lineDie line || moved.isEmpty || (dirAt s line).lmode then s3 else
    let s4 := sliceTouch s3 slice line 1 mbf
    if !sliceHas s4 slice line 1 then s4 else
    modDir (moved.foldl (fun s p => modH s fun h => { h with reps := fput h.reps (unitKey slice (32 * line + p.1)) p.2.val }) s4)
      line fun e => { e with rep := withBit e.rep d true }
  shareReport s5 line pair

/-- R96: reads that a core made of a copy that is stale are added to its LSTALE. -/
def addStale (s : State) (core : Nat) (n : BitVec 16) : State := modC s core fun x =>
  { x with lstale := if 2 ^ 64 ≤ x.lstale.toNat + n.toNat then BitVec.allOnes 64 else x.lstale + BitVec.zeroExtend 64 n }

/-- R96: the counts of a lease copy are added to the LSTALE of both cores when the line's WTS differs, and the counts
return to 0. -/
def renewalCheck (s : State) (pair line : Nat) : State :=
  match ffind s.homes.leases (2 ^ 45 * pair + line) with
  | none => s
  | some c =>
    let s1 := if (dirAt s line).lmode && (dirAt s line).wts == c.wts then s else
      addStale (addStale s (2 * pair) c.cnt0) (2 * pair + 1) c.cnt1
    modH s1 fun h => { h with leases := fput h.leases (2 ^ 45 * pair + line) { c with cnt0 := 0, cnt1 := 0 } }

/-- R81, R83: a line takes a way of its pair cache set, or moves in the order of use; the victim is evicted (R87). The
answer is none when the pair caches nothing for it: a policy of bypass, a core without cache granules, or a set that does not lie in
a granule with the cache role under both layouts (R59). -/
def pairTouch (s : State) (pair line : Nat) (mbf : BitVec 5) : Option State :=
  match wayKey s pair line with
  | some k =>
    let ws := fget [] s.homes.psets k
    some (match ws.find? fun w => w.line == line with
      | some w => modH s fun h => { h with psets := fset [] h.psets k (w :: dropFirst w ws) }
      | none => s)
  | none =>
    match pairSet s pair line with
    | none => none
    | some n =>
      let pol := if s.part = .sw2p then 0 else mbf.toNat % 4
      if pol = 3 || !settledRole (getC s (2 * pair + line % 2)) (setGranule n) 3 then none else
      let k := setKey pair line n
      let ws := fget [] s.homes.psets k
      let victim := if ws.length < 16 then none else wayVictim ws
      let s1 := match victim with | some v => pairEvict (renewalCheck s pair v.line) pair v.line | none => s
      let ws1 := (fget [] s1.homes.psets k).filter fun w => some w != victim
      let way := match victim with
        | some v => v.way
        | none => ((List.range 16).find? fun n => !ws.any fun w => w.way == n).getD 0
      some (modH s1 fun h =>
        { h with psets := fset [] h.psets k (wayInsert ws1 { line, kind := 0, retain := pol = 2, way, mbf } (pol ≠ 1)) })

end Sys2Proof.Machine
end

