-- ==== Sys2Proof/Machine/Walk.lean ====
section
/-!
DEFINITION. Page walks, the core's TLB and the rights of an access (R28 to R37).
-/
namespace Sys2Proof.Machine

/-- The kinds of access of R35. -/
inductive Acc where
  | load
  | store
  | atomic (fetch : Bool)
  | rowAtomic (fetch : Bool)
  | lock
  | monitor
  | exec
  | fill
  /-- a store of a whole mapped stash word, which is to be written back (R35, R69) -/
  | stashStore
  /-- a store of part of one, which takes the rest from a fill -/
  | stashMerge
  deriving DecidableEq, Repr

/-- R36 step 4, R35: the first right of the access that a leaf lacks. -/
def rightsCause (a : Acc) (l : Leaf) : Option Cause :=
  let r := match a with | .load | .fill | .stashMerge | .lock | .monitor => true | .atomic f | .rowAtomic f => f | _ => false
  let w := match a with | .store | .stashStore | .stashMerge | .atomic _ | .rowAtomic _ => true | _ => false
  let at_ := match a with | .atomic _ | .rowAtomic _ => true | _ => false
  if r && !l.r then some .xltRead
  else if w && !l.w then some .xltWrite
  else if at_ && !l.a then some .xltAtomic
  else if a == .lock && !l.l then some .xltLock
  else if a == .exec && !l.x then some .xltExec
  else none

/-- R36 step 5, R35: the modes that an access is permitted in. -/
def modeCause (a : Acc) (l : Leaf) : Option Cause :=
  let ok := match a with
    | .load | .store | .atomic _ => l.mode != 3
    | .rowAtomic _ | .fill | .stashStore | .stashMerge => l.mode.toNat ≤ 1
    | .lock | .monitor | .exec => l.mode == 0
  if ok then none else some .xltMode

/-- R34: whether a leaf's MBF is a code that the part reserves. -/
def mbfReserved (p : Part) (mbf : Nat) : Bool :=
  p = .sw2p && (3 ≤ mbf % 8 || 2 ≤ mbf / 8 || (mbf % 8 = 0 && mbf / 8 ≠ 0))

/-- R31: the entry that serves an access of which the indexed entry has V = 0: one of the valid entries of the 32 MiB page that the 512
entries of its range make, if there is any. Which one is open (log 80). -/
def hugeEntry (s : State) (table idx va e : Nat) : Nat :=
  let es := ((List.range 512).map fun j => visLe s (table + 8 * (idx / 512 * 512 + j)) 8).filter fun x => x % 4 = 3
  if e % 2 = 1 then e else (es[Config.hugePick va % max 1 es.length]?).getD e

/-- The leaf that an entry of the last level gives (R30 to R32). -/
def leafOf (s : State) (bad : Bool) (e va : Nat) : Except Cause Leaf :=
  let frame := e / 2 ^ 24 % 2 ^ 36
  let sz := e / 2 % 2 = 1
  let mode := e / 2 ^ 8 % 4
  let mbf := e / 2 ^ 10 % 32
  if e % 2 = 0 then .error .xltAbsent
  else if bad || mode = 3 || e / 2 ^ 23 % 2 = 1 || e / 2 ^ 60 ≠ 0 || (sz && frame % 512 ≠ 0) || (mode ≠ 2 && mbfReserved s.part mbf) then
    .error .ptFormat
  else
    let base := 2 ^ 16 * frame
    let pa := base + (if sz then va % 2 ^ 25 else va % 2 ^ 16)
    if mode ≤ 1 && hbmSize s.part ≤ pa then .error .ptRange
    else .ok { sz, r := e / 4 % 2 = 1, w := e / 8 % 2 = 1, a := e / 16 % 2 = 1, l := e / 32 % 2 = 1, x := e / 64 % 2 = 1,
               tags := e / 128 % 2 = 1, mode := BitVec.ofNat 2 mode, mbf := BitVec.ofNat 5 mbf,
               gen := BitVec.ofNat 8 (e / 2 ^ 15), base }

/-- One level of a walk from a table: `n` pointer levels to go, `bad` that an entry so far was malformed. The causes come
in the order of R36: absence at any level, then form, then range. -/
def walkFrom (s : State) (va : Nat) : Nat → Nat → Bool → Except Cause Leaf
  | n, table, bad =>
    let idx := va / 2 ^ (16 + 10 * n) % 1024
    let at_ := table + 8 * idx
    if hbmSize s.part ≤ at_ then .error (if bad then .ptFormat else .ptRange)
    else if fget false s.homes.errs (at_ / 128) then .error .walkErr
    else
      let e := visLe s at_ 8
      match n with
      | 0 => leafOf s bad (hugeEntry s table idx va e) va
      | n + 1 =>
        if e % 2 = 0 then .error .xltAbsent
        else walkFrom s va n (2 ^ 13 * (e / 2 ^ 13 % 2 ^ 39)) (bad || e / 2 % 2 ^ 12 ≠ 0 || e / 2 ^ 52 ≠ 0)

/-- A walk of a context's tables (R28, R36 steps 1 to 3). -/
def walkTables (s : State) (ctx : BitVec 12) (va : Nat) : Except Cause Leaf :=
  walkFrom s va 3 (getX s ctx).root.toNat false

/-- The physical address of a byte of a leaf's page (R31). -/
def leafPa (l : Leaf) (va : Nat) : Nat := l.base + (if l.sz then va % 2 ^ 25 else va % 2 ^ 16)

/-- The first 64 KiB page of a leaf's page, and how many it has. -/
def leafPage (l : Leaf) (va : Nat) : Nat × Nat := if l.sz then (va / 2 ^ 25 * 512, 512) else (va / 2 ^ 16, 1)

/-- A core's TLB at an address (R37). -/
def tlbFind (c : Core) (ctx : BitVec 12) (va : Nat) : Option Leaf :=
  (c.tlb.find? fun t => t.ctx == ctx && t.vbase ≤ va / 2 ^ 16 &&
    va / 2 ^ 16 < t.vbase + (if t.leaf.sz then 512 else 1)).map fun t => t.leaf

/-- A translation enters a core's TLB, which holds 2,048 (R37); the oldest leaves. -/
def tlbAdd (s : State) (core : Nat) (ctx : BitVec 12) (va : Nat) (l : Leaf) : State :=
  modC s core fun c => { c with tlb := ({ ctx, vbase := (leafPage l va).1, leaf := l } ::
    c.tlb.filter fun t => !(t.ctx == ctx && t.vbase == (leafPage l va).1)).take 2048 }

/-- A core's TLB drops the translations of an address (R46). -/
def tlbDrop (s : State) (core : Nat) (ctx : BitVec 12) (va : Nat) : State :=
  modC s core fun c => { c with tlb := c.tlb.filter fun t => !(t.ctx == ctx && t.vbase ≤ va / 2 ^ 16 &&
    va / 2 ^ 16 < t.vbase + (if t.leaf.sz then 512 else 1)) }

/-- What translation of one address answers: a leaf, a fault, or a walk to be made. -/
inductive Xlt where
  | ok (l : Leaf)
  | fault (c : Cause)
  | miss
  deriving DecidableEq, Repr

/-- R36 steps 4 and 5 on a leaf. -/
def xltCheck (a : Acc) (l : Leaf) : Xlt :=
  match rightsCause a l with
  | some c => .fault c
  | none => match modeCause a l with
    | some c => .fault c
    | none => .ok l

/-- R36: the translation of an address for a fragment: the answers of its own walks first, then the TLB of its core. -/
def xlate (s : State) (g : Group) (f : Split) (a : Acc) (va : Nat) : Xlt :=
  match f.walked.findSome? fun w => match w with
      | .leaf p l => if p == va / 2 ^ 16 then some (xltCheck a l) else none
      | .fail p c => if p == va / 2 ^ 16 then some (.fault c) else none with
  | some r => r
  | none => match tlbFind (getC s g.core) g.ctx va with
    | some l => xltCheck a l
    | none => .miss

/-- A translation made as one action, by an agent that has no TLB (the dispatcher, engines, record writes). -/
def xlateNow (s : State) (ctx : BitVec 12) (a : Acc) (va : Nat) : Except Cause Leaf :=
  match walkTables s ctx va with
  | .error c => .error c
  | .ok l => match xltCheck a l with
    | .fault c => .error c
    | _ => .ok l

/-- R36, R37, R70: a translation made as one action by an access of a core: from its TLB where that holds the page, else by a walk. -/
def xlateCore (s : State) (core : Nat) (ctx : BitVec 12) (a : Acc) (va : Nat) : Except Cause Leaf :=
  match tlbFind (getC s core) ctx va with
  | some l => match xltCheck a l with
    | .fault c => .error c
    | _ => .ok l
  | none => xlateNow s ctx a va

/-- R37: the translation of an address enters a core's TLB, unless it is there or the address does not translate. -/
def tlbLoad (s : State) (core : Nat) (ctx : BitVec 12) (va : Nat) : State :=
  match tlbFind (getC s core) ctx va, walkTables s ctx va with
  | none, .ok l => tlbAdd s core ctx va l
  | _, _ => s

/-- The bytes of a context's virtual addresses, read as one action: a fault with its address, or the bytes. Host pages
(mode 2) read the host's memory (R131). -/
def readVirt (s : State) (ctx : BitVec 12) (a : Acc) : Nat → Nat → Except (Cause × Nat) (List Byte)
  | _, 0 => .ok []
  | va, n + 1 =>
    match xlateNow s ctx a va with
    | .error c => .error (c, va)
    | .ok l =>
      let pa := leafPa l va
      match readVirt s ctx a (va + 1) n with
      | .error e => .error e
      | .ok bs => .ok ((if l.mode = 2 then fget 0 s.host pa else visByte s pa) :: bs)

/-- R46: whether every page of a range is translated under the generation that its frame now has; an action that reaches it otherwise
waits, since its requests would be refused and translated anew. Pages of mode 2 carry no generation. -/
def framesFresh (s : State) (ctx : BitVec 12) (va n : Nat) : Bool :=
  (List.range (ceilDiv (va % 2 ^ 16 + n) (2 ^ 16))).all fun k =>
    let a := max va (va / 2 ^ 16 * 2 ^ 16 + 2 ^ 16 * k)
    match walkTables s ctx a with
    | .ok l => l.mode = 2 || l.gen == genOf s (leafPa l a)
    | .error _ => true

/-- R381, R391: bytes written through at a virtual address of a buffer, outside any program order. Nothing is written where the address does
not translate, or translates under another generation than its frame has (log 98). -/
def bufferWrite (s : State) (ctx : BitVec 12) (pts : BitVec 16) (va : Nat) (bs : List Byte) : State :=
  match xlateNow s ctx .store va with
  | .error _ => s
  | .ok l =>
    if l.mode = 2 then { s with host := fsetN 0 s.host (leafPa l va) bs }
    else if framesFresh s ctx va bs.length then devWriteMode s noBy l.mode l.mbf pts (leafPa l va) bs else s

/-- R391: a decision of a source is logged for a context with REPLOG set: a record joins its log buffer, and is written through there; one
that finds the buffer full is dropped, and sets the overflow bit, which stops logging. -/
def replogAdd (s : State) (ctx : BitVec 12) (kind src where_ who : Nat) : State :=
  let x := getX s ctx
  if !x.replog || x.logOvf then s
  else if x.logSize ≤ x.logged then modX s ctx fun x => { x with logOvf := true }
  else
    let seq := (s.replog.filter fun r => r.toNat % 2 ^ 16 == kind + src * 4).length
    let r : BitVec 256 := BitVec.ofNat 256 (kind + src * 4 + 2 ^ 16 * (seq % 2 ^ 32) + 2 ^ 48 * where_ + 2 ^ 128 * who)
    let s1 := modX { s with replog := s.replog ++ [r] } ctx fun x => { x with logged := x.logged + 1 }
    bufferWrite s1 ctx (eclk s) ((x.logBase.toNat + 32 * x.logged) % 2 ^ 56) (leBytes r.toNat 32)

/-- Whether a range of device memory has an uncorrectable error. -/
def errIn (s : State) (pa n : Nat) : Bool :=
  (List.range (ceilDiv (pa % 128 + n) 128)).any fun k => fget false s.homes.errs (pa / 128 + k)

end Sys2Proof.Machine
end

