-- ==== Sys2Proof/Machine/Records.lean ====
section
/-!
DEFINITION. Continuation records: their bytes (R190 to R192), their units and the record cache (R194 to R196), leaving a
lane, and the claims on a lane's pool (R171).
-/
namespace Sys2Proof.Machine

/-- The code of a resume condition (R192). -/
def condCode (c : Cond) : Nat :=
  match c with
  | .regFill _ _ => 0 | .counter _ _ => 1 | .barrier _ _ _ => 2 | .lockWait _ => 3 | .monitor _ => 4 | .faultRes _ => 5
  | .range _ => 6 | .tile _ => 7 | .ring _ _ _ => 8 | .exchange _ _ => 9 | .joined _ => 10 | .preempted _ => 11
  | .debug _ => 12

/-- The argument of a resume condition (R192). -/
def condArg (c : Cond) : Nat :=
  match c with
  | .regFill sc n => n.toNat + (if sc then 64 else 0)
  | .counter cls k => cls.toNat + 4 * k.toNat
  | .barrier a ph _ => a % 2 ^ 23 + (if ph = some true then 2 ^ 32 else 0)
  | .lockWait l => l
  | .monitor pa => pa / 4
  | .faultRes c => causeCode c
  | .range e => e % 8
  | .tile t => t.toNat
  | .ring k slot ph => k.toNat + 2 ^ 8 * (slot % 256) + 2 ^ 16 * ph.toNat
  | .exchange core key => core + 2 ^ 16 * key.toNat
  | .joined a => a.toNat / 2
  | .preempted n => n.toNat
  | .debug n => n.toNat

/-- A split entry's 208 bits (R175). -/
def splitBits (f : Split) : Nat :=
  f.valid.toNat + f.st.toNat * 2 + 2 ^ 3 * f.parent.toNat + 2 ^ 8 * f.mask.toNat + 2 ^ 40 * (f.pc.toNat / 2) +
    2 ^ 95 * (f.join.toNat / 2) + 2 ^ 150 * (f.saved.toNat / 2)

/-- The words of a vector name as a record stores it (R191 section 12). -/
def nameWords (v : VVal) : List Word :=
  match v with
  | .u x => [x]
  | .a b st => [b, st]
  | .g ws => (List.range 32).map fun t => ws.getD t 0

/-- The registers of a mask of 64 or 16 that are stored, ascending. -/
def storedS (g : Group) : List Nat := (List.range 64).filter fun i => g.swr.getLsbD i
def storedC (g : Group) : List Nat := (List.range 16).filter fun i => fget Cap.null g.c i ≠ Cap.null

/-- The sections of a body record after its header (R191). -/
def bodyBytes (g : Group) (r : Record) : List Byte :=
  let le (x n : Nat) : List Byte := leBytes x n
  le g.swr.toNat 8 ++
  le ((storedC g).foldl (fun x i => x + 2 ^ i) 0) 8 ++
  ((List.range 7).flatMap fun k => le (mReg g (k + 1)).toNat 4) ++ le 0 4 ++
  ((storedC g).flatMap fun i => le (capBits (fget Cap.null g.c i)) 16) ++
  ((storedS g).flatMap fun i => le (fget 0 g.s i).toNat 8) ++
  le (fget 0 g.ec 0 % 64 + 2 ^ 6 * (fget 0 g.ec 1 % 64) + 2 ^ 12 * (fget 0 g.ec 2 % 64) + 2 ^ 18 * (fget 0 g.ec 3 % 64) +
      2 ^ 24 * heldH g + (match g.team with | some t => 2 ^ 32 * t.toNat + 2 ^ 38 | none => 0) +
      (match g.claim with | some (k, _) => 2 ^ 48 * k | none => 0)) 8 ++
  le g.sEmpty.toNat 8 ++
  le ((g.scopes.reverse.zipIdx.map fun p => p.1 * 2 ^ (7 * p.2)).sum) 8 ++
  (g.locks.flatMap fun l =>
    le (l.line + 2 ^ 45 * l.gen.toNat + 2 ^ 53 * l.granted.toNat + 2 ^ 54 * l.marked.toNat) 8 ++
      le (if l.marked then l.remain.toNat else 0) 8) ++
  le r.wait.toNat 8 ++
  (((entries g).filter fun p => p.2.valid).flatMap fun p => le (splitBits p.2) 32) ++
  ((List.range g.top).flatMap fun i => (nameWords (vReg g i)).flatMap fun w => le w.toNat 4)

/-- The length of a record in 64-byte units (R190, R191). -/
def recordUnits (g : Group) (r : Record) : Nat := if r.body then ceilDiv (64 + (bodyBytes g r).length) 64 else 1

/-- The 64-byte header of a record (R190). -/
def headerBits (g : Group) (r : Record) : Nat :=
  r.ctx.toNat + 2 ^ 12 * condCode r.cond + 2 ^ 16 * r.prio.toNat + 2 ^ 19 * r.reacq.toNat + 2 ^ 20 * r.ready.toNat +
  2 ^ 21 * r.sfpd.toNat + 2 ^ 22 * r.body.toNat + 2 ^ 23 * r.held.toNat + 2 ^ 24 * g.taskg.toNat + 2 ^ 32 * r.frag +
  2 ^ 35 * g.scopes.length + 2 ^ 39 * g.locks.length + 2 ^ 43 * g.top + 2 ^ 50 * r.size + 2 ^ 64 * g.gid.toNat +
  2 ^ 96 * (r.pc.toNat / 2) + 2 ^ 152 * r.mask.toNat + 2 ^ 184 * condArg r.cond + 2 ^ 248 * r.evt.toNat +
  ((entries g).map fun p => (p.2.valid.toNat + p.2.st.toNat % 2 * 2 + p.2.st.toNat / 2 * 4) * 2 ^ (280 + 3 * p.1)).sum +
  2 ^ 304 * g.vEmpty.toNat +
  ((List.range 64).map fun i =>
    (if r.body && i < g.top then shapeCode (vReg g i) else 3) * 2 ^ (368 + 2 * i)).sum +
  2 ^ 496 * r.dseq.toNat

/-- The bytes of a record, padded to a multiple of 64 (R191). -/
def recordBytes (g : Group) (r : Record) : List Byte :=
  let b := leBytes (headerBits g r) 64 ++ (if r.body then bodyBytes g r else [])
  b ++ List.replicate (64 * recordUnits g r - b.length) 0

/-- The 16-byte granules of a body record that hold tagged capabilities, as offsets in bytes (R21, R191 section 4). -/
def recordTags (g : Group) (r : Record) : List Nat :=
  if !r.body then [] else
  ((storedC g).zipIdx.filter fun p => (fget Cap.null g.c p.1).tag).map fun p => 112 + 16 * p.2

/-- Whether `n` units from `u` lie in an area of `cap` units clear of the runs taken. -/
def runFits (taken : List (Nat × Nat)) (u n cap : Nat) : Bool :=
  u + n ≤ cap && taken.all fun r => u + n ≤ r.1 || r.1 + r.2 ≤ u

/-- R195: the lowest run of `n` units that is free: it begins at 0 or where a taken run ends. -/
def firstFit (taken : List (Nat × Nat)) (n cap : Nat) : Option Nat :=
  ((0 :: taken.map fun r => r.1 + r.2).filter fun u => runFits taken u n cap).foldl
    (fun (b : Option Nat) u => match b with | none => some u | some v => some (min u v)) none

/-- R195: the place of a record of `n` units: the ring of the core, else the spill area of the context. -/
def findPlace (s : State) (ctx : BitVec 12) (core n : Nat) : Option RecPlace :=
  let mine := s.records.filter fun r => r.ctx == ctx
  let runs (l : List Record) : List (Nat × Nat) := l.map fun r => (r.place.unit, r.size)
  match firstFit (runs (mine.filter fun r => !r.place.spill && r.owner == core)) n 4096 with
  | some u => some { cached := true, spill := false, unit := u }
  | none =>
    let size := (getX s ctx).cqspill.toNat / 2 ^ 56
    match firstFit (runs (mine.filter fun r => r.place.spill)) n (size * 16384) with
    | some u => some { cached := true, spill := true, unit := u }
    | none => none

/-- The virtual address of a record's units (R194). -/
def recordVa (s : State) (r : Record) : Nat :=
  (if r.place.spill then 2 ^ 16 * ((getX s r.ctx).cqspill.toNat / 2 ^ 16 % 2 ^ 40)
   else (getX s r.ctx).cqbase.toNat + 0x40000 * r.owner) + 64 * r.place.unit

/-- R196: why the pages under a record cannot take it, or the physical address of each 64-byte unit. -/
def recordPages (s : State) (ctx : BitVec 12) (va : Nat) : Nat → Except (Cause × Nat) (List Nat)
  | 0 => .ok []
  | n + 1 =>
    match xlateNow s ctx .store va with
    | .error c => .error (c, va)
    | .ok l =>
      if l.mode ≠ 0 then .error (.xltMode, va)
      else if !l.tags then .error (.capTagstore, va)
      else match recordPages s ctx (va + 64) n with
        | .error e => .error e
        | .ok ps => .ok (leafPa l va :: ps)

/-- R195, R196: the deferred event CONT_OVERFLOW, for firmware, and the context marked. -/
def contOverflow (s : State) (g : Group) (sub : Nat) (addr : Nat) : State :=
  modX (addFault s { faultRecG s g .contOverflow true with sub := BitVec.ofNat 8 sub, addr }) g.ctx
    fun x => { x with overflow := true }

/-- A record replaced where it stands in the list. -/
def putRecord (s : State) (r : Record) : State :=
  { s with records := s.records.map fun q => if q.id == r.id then r else q }

/-- A change made to every record, those included that wait for units or for room in the cache (R193, R195). -/
def mapRecords (s : State) (f : Record → Record) : State :=
  { s with records := s.records.map f, groups := s.groups.map fun p => (p.1, { p.2 with stuck := p.2.stuck.map f }) }

/-- R196: a record whose write fails stays in the cache. One that had left it comes back where the cache has room, and else stays with its
group, as a deposit that finds no room does (R195). -/
def keepRecord (s : State) (r : Record) : State :=
  let cached := s.records.filter fun q => q.owner == r.owner && q.place.cached && q.id != r.id
  if r.place.cached || cached.length < 64 then putRecord s { r with place := { r.place with cached := true } }
  else modG { s with records := s.records.filter fun q => q.id != r.id } r.uid fun g => { g with stuck := g.stuck ++ [r] }

/-- R196: a record is written to its units; one whose pages cannot take it stays in, or comes back to, the cache, with
CONT_OVERFLOW. While a page is translated under another generation than its frame has, the write waits (R46). -/
def writeRecord (s : State) (r : Record) : State :=
  let g := getG s r.uid
  match recordPages s r.ctx (recordVa s r) r.size with
  | .error (c, a) => contOverflow (keepRecord s r) g (causeCode c) a
  | .ok ps =>
    if !framesFresh s r.ctx (recordVa s r) (64 * r.size) then keepRecord s r else
    let bytes := (recordBytes g r).take (64 * r.size)
    let s1 := ps.zipIdx.foldl (fun s p => devWrite s p.1 ((bytes.drop (64 * p.2)).take 64)) s
    let s2 := (recordTags g r).foldl (fun s o => setTag s (ps.getD (o / 64) 0 + o % 64) true) s1
    putRecord s2 { r with place := { r.place with cached := false }, wrote := bytes }

/-- R191, R195: a body record whose length has changed, as a match of `xshf` gives a name another shape (R292), takes the units that its new
length needs: those at which it lies where they suffice, else a run anew. The spec gives no place for the added bytes (log 99). -/
def resizeRecord (s : State) (r : Record) : State :=
  let n := recordUnits (getG s r.uid) r
  if n = r.size then s
  else if n < r.size then putRecord s { r with size := n }
  else
    let others : State := { s with records := s.records.filter fun q => q.id != r.id }
    match findPlace others r.ctx r.owner n with
    | some p => putRecord s { r with size := n, place := { p with cached := r.place.cached }, wrote := [] }
    | none => contOverflow (modG others r.uid fun g => { g with stuck := g.stuck ++ [r] }) (getG s r.uid) 0 0

/-- R405: the expiry that an acquire on its way to its home has from the tick at which it was sent. -/
def sentExpiry (q : Req) : Option Nat :=
  match q.kind with
  | .lock t _ => if t = 0xFFFFFFFF then none else some (q.tick + t.toNat)
  | _ => none

/-- R191 section 10: the wait word of a fragment: the expiry, which its home keeps, of its `mwait` or of the queued acquire that its
condition names; 0 for an acquire that is marked, and for a wait that never expires. An acquire that has been sent and has not yet joined
its queue has the expiry of its sending (R405; log 35). -/
def waitWord (s : State) (uid k : Nat) (c : Cond) : BitVec 32 :=
  let sent (line : Nat) (q : Req) : Bool := q.line == line && match q.agent, q.kind with | .group u _, .lock _ _ => u == uid | _, _ => false
  let e : Option Nat := match c with
    | .lockWait line => (match (lockAt s line).queue.find? fun w => w.uid == uid with
      | some w => w.expiry
      | none => (s.reqs.find? fun p => sent line p.2).bind fun p => sentExpiry p.2)
    | .monitor pa => (s.homes.mons.find? fun m => m.uid == uid && m.entry == k && m.word == pa / 4).bind fun m => m.expiry
    | _ => none
  BitVec.ofNat 32 (e.getD 0)

/-- R191, R193, R207: what has changed in a record or in the group of a body record is written wherever the record lies. -/
def syncRecords (s : State) : State :=
  let fresh (r : Record) : Record := { r with wait := waitWord s r.uid r.frag r.cond }
  let s := s.records.foldl resizeRecord { s with records := s.records.map fresh }
  (s.records.filter fun r => !r.place.cached && (recordBytes (getG s r.uid) r).take (64 * r.size) != r.wrote).foldl writeRecord s

/-- R196: room in a core's cache of 64 records, none when the write of the record that is evicted fails. Which record is evicted is a
free choice (log 6). -/
def cacheRoom (s : State) (core : Nat) : State × Bool :=
  let cached := s.records.filter fun r => r.owner == core && r.place.cached
  if cached.length < 64 then (s, true) else
  match cached[Config.evictPick s.free % cached.length]? with
  | some r =>
    let s1 := writeRecord { s with free := s.free + 1 } r
    (s1, s1.records.any fun q => q.id == r.id && !q.place.cached)
  | none => (s, true)

/-- R171: waiting claims of a lane are granted in order of issue while each fits, at most `n` of them. -/
def grantClaims (s : State) (core lane : Nat) : Nat → State
  | 0 => s
  | n + 1 =>
    match (getC s core).claims.find? fun p => p.1 == lane with
    | none => s
    | some (_, uid) =>
      let g := getG s uid
      match g.claim with
      | none => modC s core fun c => { c with claims := dropFirst (lane, uid) c.claims }
      | some (k, sd) =>
        let free := freeSlots s core lane
        if free.length < k then s else
        let g1 := { g with slots := g.slots ++ free.take k, claim := none }
        let s1 := traceDone (setG s uid (sPut g1 sd (BitVec.ofNat 64 (heldH g1)))) core (2 ^ 62 + uid)
        grantClaims (modC s1 core fun c => { c with claims := dropFirst (lane, uid) c.claims }) core lane n

/-- A group leaves its lane: its slots and name granules go back, its translation registers are lost (R41) and a claim that
waits is withdrawn from the lane (R272). Claims that now fit are granted. R41 speaks of the deposit of a record; the model clears the
registers when the group leaves its lane, and not at a header-only deposit, after which the group goes on there (log 72). -/
def leaveLane (s : State) (uid : Nat) : State :=
  let g := getG s uid
  match g.slot with
  | none => s
  | some k =>
    let s1 := setG s uid { g with slot := none, xw := [], pts := (getC s g.core).pts }
    let s2 := modC s1 g.core fun c => { c with claims := c.claims.filter fun p => p.2 != uid }
    grantClaims s2 g.core (laneOf k) 256

/-- A record takes its units and its place in the owner's cache (R195, R196). R189: it is the body record, with which the group
leaves its lane, when no other fragment is ready and no other deposit of the group waits; else it is header-only. A record that a restore
has brought to its core stays what it is (R208). With no run of units, with
a cache that cannot make room, or while a `cld` of the group has not returned (R310), the group stays without issuing. -/
def placeRecord (s : State) (r : Record) : State :=
  let g := getG s r.uid
  let r := { r with reacq := g.locks.any fun l => l.marked }
  let body := if g.slot.isNone then r.body else
    g.stuck.isEmpty && !((entries g).any fun p => p.1 != r.frag && p.2.valid && p.2.st == 0)
  let r0 := { r with body, wait := waitWord s r.uid r.frag r.cond }
  let r1 := { r0 with id := s.nextId, size := recordUnits g r0,
                        dseq := if g.slot.isNone then r.dseq else (getC s g.core).dseq }
  let stay (s : State) : State := setG s r.uid { g with stuck := g.stuck ++ [r1] }
  if body && g.cEmpty != 0 then stay s else
  match findPlace s g.ctx g.core r1.size with
  | none => contOverflow (stay s) g 0 0
  | some p =>
    match cacheRoom s g.core with
    | (s1, false) => stay s1
    | (s1, true) =>
      let s2 := if g.slot.isNone then s1 else modC s1 g.core fun c => { c with dseq := c.dseq + 1 }
      let s3 := { s2 with nextId := s.nextId + 1, records := s2.records ++ [{ r1 with place := p }] }
      if body then leaveLane s3 r.uid else s3

/-- R189: a fragment of a group deposits a record. `mask` is the record's MASK, `st` the ST that the split entry takes, `why` the
cause that parks the fragment. -/
def depositWhy (s : State) (uid k : Nat) (cond : Cond) (mask : Word) (st : BitVec 2) (trap : Option TrapRegs) (why : Option Cause)
    (sfpd held : Bool) : State :=
  let g := getG s uid
  let s1 := setG s uid (modF g k fun f => { f with st, walking := none, walked := [], why := 0 })
  placeRecord s1
    { id := 0, uid, ctx := g.ctx, cond, prio := g.prio, reacq := g.locks.any fun l => l.marked, ready := false,
      sfpd, body := false, held, frag := k, pc := (getF g k).pc, mask, evt := 0, dseq := 0, wait := 0, size := 1,
      owner := g.core, place := { cached := true, spill := false, unit := 0 }, trap, why, wrote := [] }

/-- R189: a deposit that no cause brings about. -/
def deposit (s : State) (uid k : Nat) (cond : Cond) (mask : Word) (st : BitVec 2) (trap : Option TrapRegs)
    (sfpd held : Bool) : State :=
  depositWhy s uid k cond mask st trap none sfpd held

/-- The deposits that a group could not make are tried again, each once, in their order. -/
def retryDeposits (s : State) (uid : Nat) : State :=
  let l := (getG s uid).stuck
  (List.range l.length).foldl (fun s _ =>
    match (getG s uid).stuck with
    | r :: rest => placeRecord (setG s uid { getG s uid with stuck := rest }) r
    | [] => s) s

/-- The records of a group's fragments. -/
def recordsOf (s : State) (uid : Nat) : List Record := s.records.filter fun r => r.uid == uid

/-- The record of one fragment. -/
def recordOf (s : State) (uid k : Nat) : Option Record := s.records.find? fun r => r.uid == uid && r.frag == k

def dropRecord (s : State) (id : Nat) : State := { s with records := s.records.filter fun r => r.id != id }

/-- R193: a record's condition is met at the present tick. -/
def makeReady (r : Record) (now : BitVec 64) : Record :=
  if r.ready then r else { r with ready := true, evt := BitVec.ofNat 32 now.toNat }

end Sys2Proof.Machine
end

