-- ==== Sys2Proof/Machine/Ops.lean ====
section
/-!
DEFINITION. How an instruction ends: it completes, takes a precise exception (R352 to R359), suspends (R187 to R189), or
waits for a walk. Taking an exception is ONE operation, `takePrecise`; the return from it stands beside it.
-/
namespace Sys2Proof.Machine

/-- Why an instruction does not complete in this step. None of these changes anything but what R356, R359 or R189 names. -/
inductive Stop where
  /-- a precise cause, XADDR, and what XF1 holds when the cause's own rule says so (R273) -/
  | trap (c : Cause) (xaddr : Nat) (xf1 : Option DWord)
  /-- the fragment suspends on a condition (R188) -/
  | wait (c : Cond)
  /-- an interlock: the instruction is not issued in this step (R91, R185), with its stall reason (R383) -/
  | hold (why : Nat)
  /-- the translation of an address is not at hand: a walk is made (R36) -/
  | walk (va : Nat)
  /-- stash lines whose fills are to end while the instruction is still at issue (R51, R70) -/
  | fill (lines : List Nat)
  deriving DecidableEq, Repr

/-- A computation of an instruction that may stop. -/
abbrev X := Except Stop

/-- A precise cause with no address. -/
def trapX {α : Type} (c : Cause) : X α := .error (.trap c 0 none)

/-- A precise cause with the address that its rule names. -/
def trapAt {α : Type} (c : Cause) (a : Nat) : X α := .error (.trap c a none)

/-- A check: the cause where the condition fails. -/
def needX (ok : Bool) (c : Cause) : X Unit := if ok then .ok () else trapX c

/-- R239 steps 2 to 4 on the values that the term holds. -/
def checkField (i : Instr) : X Unit :=
  match fieldCause i with
  | some c => trapX c
  | none => .ok ()

/-- R189, R356: the fragment suspends at its present PC on a condition. -/
def suspendCur (s : State) (c : Cond) : State :=
  deposit s s.cur.uid s.cur.entry c (curF s).mask (match c with | .joined _ => 1 | _ => 2) none false false

/-- R241, R356: a cause's registers written to a group. -/
def loadTrap (g : Group) (c : Cause) (pc : BitVec 56) (t : TrapRegs) : Group :=
  { g with xcause := BitVec.ofNat 7 (causeCode c), xpc := pc, xinsn := t.xinsn, xf0 := t.xf0, xf1 := t.xf1, xf2 := t.xf2,
           xf3 := t.xf3, xaddr := t.xaddr }

/-- R262, R356: a fragment enters the user handler: the other fragments stop issuing, and a restriction that its next
instruction stood under is latched. -/
def enterHandler (g : Group) (k : Nat) (tvec : BitVec 56) : Group :=
  let f := getF g k
  let g1 := { g with handler := some k, latch := match f.redo with | some m => some (f.pc, m) | none => g.latch }
  modF g1 k fun f => { f with pc := tvec, redo := none, walked := [], walking := none }

/-- R359: COND of the record of a precise cause that parks. -/
def parkCond (c : Cause) : Cond :=
  if c = .encBrk || c = .dbgStep then .debug 0 else .faultRes c

/-- TAKING A PRECISE EXCEPTION in the issuing fragment (R352 to R356, R359). `t` holds the registers of R241 with XADDR,
`unf` the unfinished threads of a translation cause (R49), `acc` the kind of access that met it (R50). The destination is the user
handler when the delegation bit and TVEC say so (R355), else firmware. R356 puts an unfinished mask into XF0 for the codes 0x30 to 0x3F:
for XLT_HOSTATOM, after which no thread has acted, it is active(m) (log 32). In handler state a cause for firmware goes there
unchanged, and any other becomes ENC_NEST or EXC_NEST. Every precise cause loads the registers that R363 lists for it, whether or not
the handler is entered. -/
def takePrecise (s : State) (c : Cause) (t : TrapRegs) (unf : Option Word) (acc : Option AccKind) : State :=
  let g := curG s
  let f := curF s
  let redo : Word := f.redo.getD 0xFFFFFFFF
  let left : Word := if causeXlt c then unf.getD (f.mask &&& redo) else BitVec.truncate 32 t.xf2 &&& redo
  let t1 := if 0x30 ≤ causeCode c && causeCode c ≤ 0x3F && t.xinsn != 0 then
      { t with xf0 := (t.xf0 &&& 0xFFFFFFFF00000000) ||| BitVec.zeroExtend 64 left } else t
  let user := toUser s g c
  -- R102: what is left of the instruction keeps its place in program order
  let at_ : Option (BitVec 56 × Nat) := if !causeXlt c then f.redoAt else
    match f.redoAt with | some p => if p.1 == f.pc then some p else some (f.pc, s.nextId - 1) | none => some (f.pc, s.nextId - 1)
  let g := modF g s.cur.entry fun f => { f with redoAt := at_ }
  let park (c : Cause) : State :=
    let mask := if causeXlt c then left else f.mask
    let rec0 : FaultRec := { faultRecG s g c false with
      addr := t.xaddr.toNat, arg := if causeXlt c then mask else 0, acc := if causeXlt c then acc else none }
    depositWhy (addFault (setG s s.cur.uid (loadTrap g c f.pc t1)) rec0) s.cur.uid s.cur.entry (parkCond c) mask 2 (some t1) (some c)
      false false
  match g.handler, user with
  | none, true => setG s s.cur.uid (enterHandler (loadTrap g c f.pc t1) s.cur.entry (taskOf s g).tvec)
  | _, false => park c
  | some _, true => park (if causeEnc c then .encNest else .excNest)

/-- R36: the fragment waits for a walk of an address, which is sent. -/
def startWalk (s : State) (va : Nat) : State :=
  let (id, s1) := fresh s
  let w : Walk := { ctx := (curG s).ctx, core := (curG s).core, va, why := .frag s.cur.uid s.cur.entry, done := none }
  push { modCurF s1 (fun f => { f with walking := some id }) with walks := fput s1.walks id w } (.pageWalkComplete id)

/-- R70: the fill of a line is started unless one is in flight. -/
def startFill (s : State) (core : Nat) (ctx : BitVec 12) (uid : Option Nat) (line : Nat) : State :=
  if s.fills.any fun p => p.2.core == core && p.2.line == line then s else
  match entryAt (getC s core) ctx (128 * line) with
  | none => s
  | some (n, _) =>
    let (id, s1) := fresh s
    let s2 := match uid with | some u => traceAdd s1 (getG s1 u) 4 (2 ^ 63 + id) (128 * line) 0 0 | none => s1
    push { s2 with fills := fput s2.fills id { core, line, entry := n, uid, parked := false, counted := false } } (.stashFillArrival id)

/-- What an instruction's stop does to the state in which it began: nothing but the exception, the deposit or the walk
(R352). An interlocked fragment is ready again from the present cycle. -/
def stopped (s : State) (regs : TrapRegs) (e : Stop) : State :=
  match e with
  | .trap c a x1 =>
    takePrecise s c { regs with xaddr := BitVec.ofNat 56 a, xf1 := x1.getD regs.xf1 } none none
  | .wait c => suspendCur s c
  | .hold w => modCurF s fun f => { f with rdy := cycleG s s.cur.uid, why := w }
  | .walk va => startWalk s va
  | .fill ls =>
    modCurF (ls.foldl (fun s l => startFill s (curG s).core (curG s).ctx (some s.cur.uid) l) s) fun f =>
      { f with rdy := cycleG s s.cur.uid, why := 12 }

/-- The end of an instruction: the state that it makes, or its stop. -/
def commit (i : Instr) (s : State) (x : X State) : Out :=
  match x with
  | .ok s' => .next s'
  | .error e => .next (stopped s (insnRegs (codeOf i) (curF s).pc (curG s) (curF s)) e)

/-- The issuing fragment moves past its instruction: its next instruction stands under no restriction (R50, R262), and it is
ready from the present cycle (R202). -/
def advance (i : Instr) (s : State) : State :=
  modCurF s fun f => { f with
    pc := f.pc + BitVec.ofNat 56 (codeOf i).len, redo := none, redoAt := f.redoAt.filter fun p => p.1 != f.pc, walked := [],
    rdy := cycleG s s.cur.uid, why := 0 }

/-- An instruction that completes by moving past itself. -/
def commitNext (i : Instr) (s : State) (x : X State) : Out := commit i s (x.map (advance i))

/-- The issuing fragment continues at an address (R263). A restriction latched by `ret.x` does not outlive a branch that
leaves the group at another address (R262). -/
def jump (a : BitVec 56) (s : State) : State :=
  modCurF s fun f => { f with pc := a, redo := none, walked := [], rdy := cycleG s s.cur.uid, why := 0 }

/-- R358, R355: a deferred cause for a group: it is kept pending, at most 4, when it goes to the user handler and the
group is alive; else its fault record goes to firmware. -/
def raiseDeferred (s : State) (uid : Nat) (d : DefCause) (r : FaultRec) : State :=
  let g := getG s uid
  if g.uid = uid && uid ≠ 0 && !g.ended && toUser s g d.cause && g.deferred.length < 4 then
    setG s uid { g with deferred := g.deferred ++ [(d, { r with defr := true })] }
  else addFault s { r with defr := true }

/-- R355, R358: the pending deferred causes of a group go to firmware, when its task's TVEC is 0 or when it ends. -/
def deferredToFirmware (s : State) (uid : Nat) : State :=
  let g := getG s uid
  if g.deferred = [] then s else
  g.deferred.foldl (fun s d => addFault s d.2) (setG s uid { g with deferred := [] })

/-- R358: a pending deferred cause is delivered to the fragment that is about to issue, whose instruction is not executed. -/
def deliverDeferred (s : State) (d : DefCause) : State :=
  let g := curG s
  let f := curF s
  let g1 := { g with deferred := g.deferred.tail, xcause := BitVec.ofNat 7 (causeCode d.cause), xpc := f.pc, xinsn := 0,
                     xf0 := d.xf0, xf1 := d.xf1, xf2 := d.xf2, xf3 := BitVec.zeroExtend 64 f.pc }
  setG s s.cur.uid (enterHandler g1 s.cur.entry (taskOf s g).tvec)

/-- RETURN FROM THE USER HANDLER (R262, R357): handler state ends, the other fragments issue again, and the fragment
continues at the target. Where the cause was a request refused after its instruction had left issue (R46), a return to that instruction
has the request translated again, a return elsewhere gives it up, and the fragment goes on where it stood (log 20). The restriction to the unfinished threads holds there when the target is XPC, XCAUSE is a
translation cause and XF0 holds a mask, or when the target is the latched address. -/
def returnHandler (s : State) (a : BitVec 56) : State :=
  let g := curG s
  let m : Word := BitVec.truncate 32 g.xf0
  let own := a == g.xpc && 0x30 ≤ g.xcause.toNat && g.xcause.toNat ≤ 0x3F && m != 0
  let kept (a : BitVec 56) : Option Word := match g.latch with
    | some (p, m) => if p == a then some m else none
    | none => none
  let s1 := setG s s.cur.uid { g with handler := none, latch := none }
  match (curF s).resume with
  | some p =>
    let to_ := if a == g.xpc || a == BitVec.truncate 56 g.xf3 then p else a
    modCurF s1 fun f => { f with
      pc := to_, redo := kept to_, redoAt := f.redoAt.filter fun p => p.1 == to_, walked := [], rdy := cycleG s s.cur.uid, why := 0,
      resume := none, again := some (a == g.xpc) }
  | none =>
    let redo := if own then some m else kept a
    modCurF s1 fun f =>
      { f with pc := a, redo, redoAt := f.redoAt.filter fun p => p.1 == a, walked := [], rdy := cycleG s s.cur.uid, why := 0 }

/-- R188, R146: the condition on which a reader of an empty register suspends: the lock whose reply the register, or a
destination held behind its acquire, awaits; else the fill of the register. -/
def fillCond (g : Group) (scalar : Bool) (n : BitVec 6) : Cond :=
  let mine := g.locks.find? fun l => !l.granted && scalar && l.sd == n
  let dst (o : Op) : Bool := match o.dst with
    | .vec r => !scalar && r == n
    | .pair r => !scalar && (r == n || r + 1 == n)
    | .scalar r => scalar && r == n
    | _ => false
  let behind := g.ops.find? fun o => dst o && o.held
  match mine, behind with
  | some l, _ => .lockWait l.line
  | none, some o => match g.locks.find? fun l => !l.granted && l.op < o.seq with
    | some l => .lockWait l.line
    | none => .regFill scalar n
  | none, none => .regFill scalar n

/-- R167, R188, R233: a scalar source, which suspends or traps REG_EMPTY when it is empty. -/
def srcS (g : Group) (r : BitVec 6) (bang : Bool) : X DWord :=
  if sIsEmpty g r then (if bang then trapX .regEmpty else .error (.wait (fillCond g true r))) else .ok (sReg g r)

/-- R188: a scalar destination, whose write suspends when it is empty. -/
def dstS (g : Group) (r : BitVec 6) : X Unit :=
  if sIsEmpty g r then .error (.wait (fillCond g true r)) else .ok ()

/-- A capability source: an empty register suspends the fragment on its load (R188; log 14). -/
def srcC (g : Group) (r : BitVec 4) : X Cap :=
  if cIsEmpty g r then .error (.hold 11) else .ok (cReg g r)

/-- R239 step 5, R169: a static vector name. -/
def nameX (g : Group) (r : Nat) : X Unit :=
  if g.nNames ≤ r then trapX .regName else if g.top ≤ r then trapX .regDead else .ok ()

/-- R239 step 5, R164: the first register of a 64-bit pair is even. -/
def pairX (r : Nat) : X Unit := needX (r % 2 == 0) .regPair

/-- R275: a register pair: both names, then the pair rule. -/
def namePairX (g : Group) (r : Nat) : X Unit := do
  nameX g r
  pairX r
  nameX g (r + 1)

/-- R183: a check of the group's role. -/
def roleX (g : Group) (closed : List Nat) : X Unit := needX (!closed.contains g.role.toNat) .roleEngine

end Sys2Proof.Machine
end

