-- ==== Sys2Proof/Machine/Requests.lean ====
section
/-!
DEFINITION. Requests to homes and ports (R46, R86, R97), and the outstanding operations of a group that they serve.
-/
namespace Sys2Proof.Machine

/-- A request with nothing gathered yet. -/
def newReq (agent : Agent) (core : Nat) (ctx : BitVec 12) (kind : ReqKind) (line : Nat) : Req :=
  { id := 0, agent, core, unit := 0, ctx, kind, line, gen := 0, mode := 0, mbf := 0, pieces := [], lease := 0, pts := 0,
    sig := false, ord := 0, acks := 0, busy := false, stale := false, done := false, result := [], capRes := Cap.null,
    data := [], wts := 0, rts := 0, merged := [] }

/-- A request that no number names. -/
def Req.none : Req := newReq .dispatcher 0 0 .read 0

def getR (s : State) (r : Nat) : Req := fget Req.none s.reqs r
def setR (s : State) (r : Nat) (q : Req) : State := { s with reqs := fput s.reqs r q }
def modR (s : State) (r : Nat) (f : Req → Req) : State := setR s r (f (getR s r))
def delR (s : State) (r : Nat) : State := { s with reqs := fdel s.reqs r }

/-- A request enters the device under a number of its own. -/
def addReq (s : State) (q : Req) : Nat × State :=
  let (id, s1) := fresh s
  (id, setR s1 id { q with id, tick := s.gtick.toNat })

/-- The event with which a request reaches its home or port (R86, R93, R94, R135, R142, R154, R368). Unit 3 marks a
capability access by a pair that caches nothing for the line: it is performed at the home (R84). -/
def arrivalEvent (q : Req) : Event :=
  let cap := match q.kind with | .capRead | .capWrite _ => true | _ => false
  if cap && q.mode = 0 && q.unit ≠ 3 then .homeOwnership q.id else
  match q.kind with
  | .read | .capRead =>
    if q.mode = 2 then .hostCompletion q.id false else if q.mode = 1 then .leaseRead q.id else .homeRead q.id
  | .own => .homeOwnership q.id
  | .write | .capWrite _ =>
    if q.mode = 2 then .hostPortWriteSent q.id else if q.mode = 1 then .leaseWrite q.id else .homeWriteThrough q.id
  | .atomic _ _ => if q.mode = 2 then .hostPortWriteSent q.id else .homeAtomic q.id
  | .rowAtomic _ => .homeRowAtomic q.id
  | .lock _ _ => .lockRequestArrival q.id
  | .unlock => .lockReleaseArrival q.id
  | .stat => .lockStatRequest q.id
  | .monitor _ _ => .mwaitRequestArrival q.id
  | .launch _ => .launchAction q.id
  | .exchange _ _ _ _ _ => .xshfRequestArrival q.id

/-- A request is sent: it is in flight, and its arrival is due. -/
def sendReq (s : State) (q : Req) : State :=
  let (id, s1) := addReq s q
  push s1 (arrivalEvent { q with id })

/-- An outstanding operation of a group. -/
def opOf (g : Group) (id : Nat) : Option Op := g.ops.find? fun o => o.id == id
def modOp (g : Group) (id : Nat) (f : Op → Op) : Group :=
  { g with ops := g.ops.map fun o => if o.id == id then f o else o }
def dropOp (g : Group) (id : Nat) : Group := { g with ops := g.ops.filter fun o => o.id != id }

/-! The kinds of operations. -/

def opReads (k : OpKind) : Bool :=
  match k with
  | .load _ | .quant _ _ | .atomic _ _ | .rowAtomic _ | .capLoad _ | .lockAcq _ _ | .lockStat | .monitorWait _ _ | .launch _ => true
  | _ => false
def opWrites (k : OpKind) : Bool :=
  match k with
  | .store | .ntStore | .tileStore | .atomic _ _ | .rowAtomic _ | .capStore _ | .lockRel | .barrier _ _ | .ringPublish _ _ _
  | .launch _ => true
  | _ => false
def isFence (k : OpKind) : Bool := match k with | .fence _ | .ntdrain => true | _ => false
def isLockOp (k : OpKind) : Bool := match k with | .lockAcq _ _ | .lockRel | .lockStat => true | _ => false
def isNt (k : OpKind) : Bool := match k with | .ntStore => true | _ => false
def isEngine (k : OpKind) : Bool := match k with | .engine _ => true | _ => false
def isLoad (k : OpKind) : Bool := match k with | .load _ | .quant _ _ => true | _ => false
def isStore (k : OpKind) : Bool := match k with | .store => true | _ => false
def isBarrier (k : OpKind) : Bool := match k with | .barrier _ _ => true | _ => false

/-! What a request reaches. -/

/-- The pair, the group and the operation of a request. -/
def reqPair (q : Req) : Nat := pairOf q.core
def reqUid (q : Req) : Nat := match q.agent with | .group u _ => u | _ => 0
def reqOp (q : Req) : Nat := match q.agent with | .group _ o => o | _ => 0
def isGroupReq (q : Req) : Bool := match q.agent with | .group _ _ => true | _ => false

/-- The bytes that a request writes to its line: (physical address, value). -/
def reqBytes (q : Req) : List (Nat × Byte) :=
  q.pieces.flatMap fun p =>
    let bs := match q.kind with | .capWrite c => leBytes (capBits c) 16 | _ => leBytes p.val.toNat p.size
    let at_ : List (Option Nat) := if p.space = 1 then (p.bound.drop (p.place % 4)).take bs.length
      else (List.range bs.length).map fun i => some (p.place + i)
    (at_.zip bs).filterMap fun x => match x.1 with
      | some a => if a / 128 = q.line then some (a, x.2) else none
      | none => none

/-- R405, R148: the marked acquires of a group's held-lock list are sent again, in the order of the list, each with its
remaining ticks; marks clear. -/
def resendAcquires (s : State) (uid : Nat) : State :=
  let g := getG s uid
  let marked := g.locks.filter fun l => l.marked
  let s1 := setG s uid { g with locks := g.locks.map fun l => { l with marked := false } }
  let s2 := mapRecords s1 fun r => if r.uid == uid then { r with reacq := false } else r
  marked.foldl (fun s l => sendReq s { newReq (.group uid l.op) g.core g.ctx (.lock l.remain false) l.line with
    gen := l.gen, pieces := ((opOf g l.op).map fun o => o.pieces).getD [] }) s2

/-- R148: the acquires of a group that wait in a queue are cancelled there: each keeps its remaining ticks in its entry of the
held-lock list, which is marked to be sent again. -/
def cancelWaits (s : State) (uid : Nat) : State :=
  let mine := s.homes.locks.flatMap fun p => (p.2.queue.filter fun w => w.uid == uid).map fun w => (p.1, w)
  mine.foldl (fun s x =>
    let l := lockAt s x.1
    let remain : BitVec 32 := match x.2.expiry with | some e => BitVec.ofNat 32 (e - s.gtick.toNat) | none => 0xFFFFFFFF
    let op := match (getR s x.2.rq).agent with | .group _ o => o | _ => 0
    let mark (e : LockEnt) : LockEnt := if e.op == op && e.line == x.1 then { e with marked := true, remain } else e
    let s1 := delR (setLock s x.1 { l with queue := dropFirst x.2 l.queue }) x.2.rq
    let s2 := modG s1 uid fun g => { g with locks := g.locks.map mark }
    mapRecords s2 fun r => if r.uid == uid then { r with reacq := true } else r) s

end Sys2Proof.Machine
end

