-- ==== Sys2Proof/Machine/Lifecycle.lean ====
section
/-!
DEFINITION. Groups, tasks and dispatches from launch to end (R168, R173, R179 to R182, R198 to R201, R203, R220 to R223,
R266, R268, R400, R409), and relaunch.
-/
namespace Sys2Proof.Machine

/-- The field of `n` bits from bit `lo` of a number. -/
def fld (x lo n : Nat) : Nat := x / 2 ^ lo % 2 ^ n

/-- R54, R57: whether a value is a valid partition layout. -/
def layoutValid (x : Nat) : Bool :=
  fld x 0 7 + fld x 8 7 + fld x 16 7 = 96 && 4 ≤ fld x 8 7 && fld x 7 1 = 0 && fld x 15 1 = 0 && fld x 23 9 = 0

/-- LSPART of a core (R54). -/
def lspart (c : Core) : BitVec 32 := BitVec.ofNat 32 (c.stashG + 2 ^ 8 * c.regG + 2 ^ 16 * c.cacheG)

/-- The kernel header in 64 bytes, none when it is refused (R179). -/
def parseHeader (x : Nat) : Option Header :=
  let h : Header :=
    { entry := BitVec.ofNat 56 x, n := fld x 56 6 + 1, nb := fld x 64 6 + 1, gsb := fld x 72 8, sgr := fld x 80 7,
      tsl := fld x 88 5, pipe := fld x 93 1 = 1, succ := fld x 94 1 = 1, rcp := fld x 96 6, rmx := fld x 102 6,
      rvc := fld x 108 6, lsreq := BitVec.ofNat 32 (fld x 128 32), sfpb := fld x 160 32, tidp := BitVec.ofNat 56 (fld x 192 56),
      tidn := fld x 248 8, sfpt := BitVec.ofNat 56 (fld x 256 56), sfpn := fld x 312 8 }
  let roles := h.rcp + h.rmx + h.rvc
  let reserved := fld x 62 2 + fld x 70 2 + fld x 87 1 + fld x 95 1 + fld x 114 14 + fld x 320 192
  let ok := fld x 0 1 = 0 && h.nb ≤ h.n && h.gsb ≤ 128 && h.sgr ≤ 92 && h.tsl ≤ 16 && reserved = 0 && 1 ≤ h.sfpb &&
    h.tidn ≤ 128 && (if h.pipe then 1 ≤ roles && roles ≤ 64 else roles = 0) &&
    (h.lsreq = 0 || (layoutValid h.lsreq.toNat && h.gsb ≤ 2 * fld h.lsreq.toNat 8 7))
  if ok then some h else none

/-- The dispatch descriptor in 64 bytes, with the tags of its second and third granules; none when a reserved bit is set
or NG is 0 (R198, R199). -/
def parseDesc (x : Nat) (tagArg tagCode : Bool) : Option Desc :=
  let reserved := fld x 58 6 + fld x 96 32 + fld x 440 8 + fld x 480 32
  if reserved ≠ 0 || fld x 64 32 = 0 then none else
  some { hdr := BitVec.ofNat 56 x, serial := fld x 56 1 = 1, sig := fld x 57 1 = 1, ng := fld x 64 32,
         argc := capOfBits (fld x 128 128) tagArg, codec := capOfBits (fld x 256 128) tagCode,
         waita := BitVec.ofNat 56 (fld x 384 56), waitv := BitVec.ofNat 32 (fld x 448 32) }

/-- R199: CODEC passes R22 steps 1 to 5 for fetch. -/
def codecOk (c : Cap) : Bool := c.tag && (capDecode c).isSome && !c.sealed && c.space = 5 && capPerm c 2

/-- The groups of a task of a header (R200). -/
def taskSize (h : Header) : Nat := if h.pipe then h.rcp + h.rmx + h.rvc else 64

/-- R199: the checks of a descriptor with its header. -/
def dispatchOk (d : Desc) (h : Header) : Bool := codecOk d.codec && (!h.pipe || d.ng % taskSize h = 0)

/-- R180, R181, R199: whether the successor that a slot names may follow its task. A pipeline successor is one task, so its groups are
exactly those of its roles (log 84). -/
def succOk (s : State) (t : Task) (d : Desc) (h : Header) : Bool :=
  dispatchOk d h && d.hdr.toNat % 64 == 0 && d.ng ≤ 64 && (!h.pipe || d.ng == taskSize h) && h.sgr ≤ t.ngran &&
    h.tsl ≤ t.tiles.length && (h.lsreq == 0 || h.lsreq == lspart (getC s t.core))

/-- The tag of a virtual granule, false where the page keeps none or does not translate. -/
def virtTag (s : State) (ctx : BitVec 12) (va : Nat) : Bool :=
  match xlateNow s ctx .load va with
  | .ok l => l.tags && l.mode ≠ 2 && visTag s (leafPa l va)
  | .error _ => false

/-- Whether a range of virtual addresses reads data with an uncorrectable error. -/
def virtErr (s : State) (ctx : BitVec 12) (va n : Nat) : Bool :=
  (List.range (ceilDiv (va % 128 + n) 128)).any fun k =>
    let a := max va (va / 128 * 128 + 128 * k)
    match xlateNow s ctx .load a with
    | .ok l => l.mode ≠ 2 && errIn s (leafPa l a) 1
    | .error _ => false

/-- The fault code of reading a range: a translation's own code, 0x7A for an uncorrectable error (R223, R269). -/
def readVirtNat (s : State) (ctx : BitVec 12) (va n : Nat) : Except (Nat × Nat) Nat :=
  match readVirt s ctx .load va n with
  | .error (c, a) => .error (causeCode c, a)
  | .ok bs => if virtErr s ctx va n then .error (0x7A, va) else .ok (leNat bs)

/-! Tensor identifiers (R220 to R223). -/

/-- R221: the width in planes of a format: 0 where the format fixes none. -/
def fmtWidth (f : Nat) : Nat := match f with | 0 | 1 => 8 | 2 | 3 => 16 | 4 => 32 | 5 => 64 | _ => 0

/-- The image of an entry: the entry number, and the entry when it is well formed and valid (R220, R221). `strict` asks
that VALID be 1. -/
def parseTid (x : Nat) (ctx : BitVec 12) : Nat × Option Tid :=
  let fmt := fld x 20 4; let spl := fld x 24 7; let rpl := fld x 31 7; let sp := fld x 38 1
  let p2 (n : Nat) : Bool := n = 1 || n = 2 || n = 4 || n = 8
  let reserved := fld x 41 7 + fld x 80 16 + fld x 110 2 + fld x 133 11 + fld x 165 11 + fld x 190 66
  let ok := fmt ≤ 7 && reserved = 0 &&
    (if fmt ≤ 5 then spl = fmtWidth fmt && rpl = fmtWidth fmt
     else if fmt = 6 then p2 spl && p2 rpl && rpl ≤ spl else spl = 1 && rpl = 1) &&
    (sp = 0 || fmt ≤ 3 || fmt = 6)
  (fld x 1 7, if ok then some
    { fmt := BitVec.ofNat 4 fmt, ctx, spl, rpl, sparse := sp = 1, scv := fld x 39 1 = 1, smv := fld x 40 1 = 1,
      rowsm1 := fld x 48 16, km1 := fld x 64 16, pbase := fld x 96 14, scb := fld x 112 21, smb := fld x 144 21,
      mtb := fld x 176 14 } else none)

/-- The image of an entry as `tdget` reads it (R220). -/
def tidImage (n : Nat) (t : Tid) : Nat :=
  1 + n * 2 + 2 ^ 8 * t.ctx.toNat + 2 ^ 20 * t.fmt.toNat + 2 ^ 24 * t.spl + 2 ^ 31 * t.rpl + 2 ^ 38 * t.sparse.toNat +
    2 ^ 39 * t.scv.toNat + 2 ^ 40 * t.smv.toNat + 2 ^ 48 * t.rowsm1 + 2 ^ 64 * t.km1 + 2 ^ 96 * t.pbase + 2 ^ 112 * t.scb +
    2 ^ 144 * t.smb + 2 ^ 176 * t.mtb

/-- An entry of a core's table written, or made invalid. -/
def putTid (s : State) (core n : Nat) (t : Option Tid) : State :=
  modC s core fun c => { c with tids := match t with | some t => fput c.tids n t | none => fdel c.tids n }

/-- The group of TASKG 0 of a task, and the group of any TASKG. -/
def groupOfTask (s : State) (t : Nat) (k : BitVec 6) : Option Nat :=
  (s.groups.find? fun p => p.2.task == t && p.2.taskg == k).map fun p => p.1

/-- R223: the preload images of a header, from image `i` on, `n` of them to go. -/
def preloadTids (s : State) (t : Nat) (i : Nat) : Nat → State
  | 0 => s
  | n + 1 =>
    let tk := getT s t
    let bad (s : State) (sub : Nat) : State :=
      let uid := (groupOfTask s t 0).getD 0
      let a := tk.hdr.tidp.toNat + 32 * i
      raiseDeferred s uid { cause := .tidForm, xf0 := 0, xf1 := BitVec.ofNat 64 a, xf2 := BitVec.ofNat 64 i }
        { faultRec s tk.ctx .tidForm true with core := tk.core, addr := a, arg := BitVec.ofNat 32 i, sub := BitVec.ofNat 8 sub }
    let s1 := match readVirtNat s tk.ctx (tk.hdr.tidp.toNat + 32 * i) 32 with
      | .error (c, _) => bad s c
      | .ok x => match parseTid x tk.ctx with
        | (k, some e) => putTid s tk.core k (if fld x 0 1 = 1 then some e else none)
        | (k, none) => bad (putTid s tk.core k none) 0
    preloadTids s1 t (i + 1) n

/-! Admission to lanes (R162, R168, R170, R200, R203). -/

/-- The free position of a lane, as a group slot: R203 names the lane only, and the model takes its lowest free position (log 71). -/
def freePosition (s : State) (core lane : Nat) : Option Nat :=
  ((List.range 4).map fun p => 4 * lane + p).find? fun k => !(onLane s core lane).any fun p => p.2.slot == some k

/-- R203: the lowest lane with a free position, the name granules and the slots: the group slot. -/
def findLane (s : State) (core names slots : Nat) : Option Nat :=
  ((List.range 256).findSome? fun ln =>
    if freeNames s core ln < ceilDiv names 8 || (freeSlots s core ln).length < slots then none
    else freePosition s core ln)

/-- The stash and tile capabilities of a task (R400, R409). -/
def stashCap (t : Task) : Cap :=
  if t.ngran = 0 then Cap.null else
  capWithBounds { Cap.null with addr := BitVec.ofNat 56 (65536 * t.gbase), perms := 0b0001011, space := 1, tag := true }
    (65536 * t.gbase) (65536 * (t.gbase + t.ngran))

def tileCap (t : Task) : Cap :=
  if t.tiles.isEmpty then Cap.null else
  capWithBounds { Cap.null with perms := 0b0000011, space := 2, tag := true } 0 0x60000

/-- R182: the role of a TASKG at launch. -/
def launchRole (h : Header) (k : Nat) : BitVec 2 :=
  if !h.pipe then 0 else if k < h.rcp then 1 else if k < h.rcp + h.rmx then 2 else 3

/-- R173: a group as it is launched in a slot. -/
def freshGroup (s : State) (uid t k slot : Nat) : Group :=
  let tk := getT s t
  let ng := match ffind s.disps tk.disp with | some d => d.desc.ng | none => 0
  { Group.none with
    uid, ctx := tk.ctx, task := t, disp := tk.disp, core := tk.core, slot := some slot, gid := BitVec.ofNat 32 (tk.first + k),
    ngrp := BitVec.ofNat 32 ng, taskg := BitVec.ofNat 6 k, role := launchRole tk.hdr k, prio := tk.prio,
    nNames := tk.hdr.n, top := tk.hdr.nb, slots := (freeSlots s tk.core (laneOf slot)).take tk.hdr.gsb,
    c := fset Cap.null (fset Cap.null (fset Cap.null [] 1 tk.argc) 2 (stashCap tk)) 3 (tileCap tk),
    split := fset Split.free [] 0
      { Split.free with valid := true, mask := 0xFFFFFFFF, pc := tk.hdr.entry, rdy := cycleOf s tk.core },
    adm := s.gtick.toNat }

/-- The groups of a task that are not yet placed go to lanes in TASKG order while each fits, at most `n`. -/
def placeGroups (s : State) (t : Nat) : Nat → State
  | 0 => s
  | n + 1 =>
    let tk := getT s t
    if tk.ngroups ≤ tk.placed then s else
    match findLane s tk.core tk.hdr.n tk.hdr.gsb with
    | none => s
    | some slot =>
      let (uid, s1) := fresh s
      let s2 := setG s1 uid (freshGroup s uid t tk.placed slot)
      placeGroups (setT s2 t { tk with placed := tk.placed + 1 }) t n

/-- R200: whether all the groups of a task would fit: they are placed and the result thrown away. -/
def groupsFit (s : State) (t : Nat) : Bool :=
  (getT (placeGroups s t 64) t).placed == (getT s t).ngroups

/-- The tasks on a core. -/
def tasksOn (s : State) (core : Nat) : List (Nat × Task) :=
  s.tasks.filter fun p => p.2.core == core && !p.2.off && p.2 ≠ Task.none

/-- R59, R200: the lowest run of `n` free stash granules. -/
def findGranules (s : State) (core n : Nat) : Option Nat :=
  let used := (tasksOn s core).map fun p => (p.2.gbase, p.2.ngran)
  (List.range (97 - n)).find? fun b =>
    ((List.range n).all fun i => settledRole (getC s core) (b + i) 2) &&
      used.all fun r => r.2 = 0 || b + n ≤ r.1 || r.1 + r.2 ≤ b

/-- R200: the `n` lowest tile numbers that are free on both cores of the pair. -/
def findTiles (s : State) (core n : Nat) : Option (List Nat) :=
  let used := (tasksOn s (2 * pairOf core)).flatMap (fun p => p.2.tiles) ++
    (tasksOn s (2 * pairOf core + 1)).flatMap fun p => p.2.tiles
  let free := (List.range 16).filter fun t => !used.contains t
  if free.length < n then none else some (free.take n)

/-! The end of groups and tasks. -/

/-- R178: a group leaves its team. -/
def leaveTeam (s : State) (uid : Nat) : State :=
  let g := getG s uid
  match g.team with
  | none => s
  | some k =>
    let key := g.ctx.toNat * 64 + k.toNat
    modC (setG s uid { g with team := none }) g.core fun c => { c with teams := fset 0 c.teams key (fget 0 c.teams key - 1) }

/-- R341: the change of a slot's state takes effect. -/
def slotEffect (s : State) (t k n : Nat) (toE : Bool) : State :=
  modT s t fun x => { x with rings := x.rings.map fun p =>
    if p.1 == k then (p.1, { p.2 with slots := p.2.slots.set n (if toE then .e else .f) }) else p }

/-- R341: whether a publish or release takes effect in the cycle of issue: the group has no earlier access outstanding. -/
def publishesNow (s : State) (g : Group) : Bool :=
  (getC s g.core).fifo.all (fun e => e.uid != g.uid) && g.ops.all fun o => isFence o.kind || isEngine o.kind || isNt o.kind

/-- The slots that a group holds: the ring, the slot, and whether it holds it for reading; those of which a publish or release of the
group already waits apart. -/
def slotsHeld (s : State) (g : Group) : List (Nat × Nat × Bool) :=
  (taskOf s g).rings.flatMap fun p => p.2.slots.zipIdx.filterMap fun x =>
    let get : Option Bool := match x.1 with
      | .w h => if h = g.taskg then some false else none
      | .r h => if h = g.taskg then some true else none
      | _ => none
    match get with
    | some b => if g.ops.any fun o => o.kind == .ringPublish p.1 x.2 b then none else some (p.1, x.2, b)
    | none => none

/-- R341, R342: a group that ends publishes its W slots and releases its R slots: at once when it has no earlier access outstanding, else
when the release is satisfied, which every operation of the group then precedes. -/
def endRings (s : State) (uid : Nat) : State :=
  let g := getG s uid
  if g.task = 0 then s else
  if publishesNow s g then (slotsHeld s g).foldl (fun s x => slotEffect s g.task x.1 x.2.1 x.2.2) s else
  let op (id : Nat) (x : Nat × Nat × Bool) : Op :=
    { id, kind := .ringPublish x.1 x.2.1 x.2.2, entry := 0, pre := 0xFF, pc := 0, mask := 0, uniform := false, dst := .none, pieces := [],
      acq := none, rel := some 1, lineExt := false, sig := false, lease := 0, held := true, left := 0, got := [], swait := [],
      keep := false, refused := 0, seq := id }
  let s0 := setG s uid { g with ops := g.ops.map fun o => { o with pre := 0xFF } }
  (slotsHeld s g).foldl (fun s x =>
    let (id, s1) := fresh s
    modG s1 uid fun g => { g with ops := g.ops ++ [op id x] }) s0

/-- R335: the OPEN nodes of a task that ends are freed; each successor edge from them counts as met. -/
def freeOpenNodes (s : State) (core t : Nat) : State :=
  let opens := (getC s core).nodes.filter fun p => p.2.st = .openN && p.2.task == t
  let met (m : FMap Node) (q : Nat × BitVec 8) : FMap Node := match ffind m q.1 with
    | some n => if n.gen = q.2 then fput m q.1 { n with count := n.count - 1 } else m
    | none => m
  let close (p : Nat × Node) (m : FMap Node) : FMap Node :=
    p.2.succs.foldl met (fput m p.1 { p.2 with st := .free, succs := [], gen := p.2.gen + 1 })
  opens.foldl (fun s p => modC s core fun c => { c with nodes := close p c.nodes }) s

/-- R268: the successor of a task that has ended starts in its place. -/
def startSuccessor (s : State) (t : Nat) (d : Desc) (h : Header) : State :=
  let tk := getT s t
  let (disp, s1) := fresh s
  let s2 := { s1 with
    disps := fput s1.disps disp { queue := tk.queue, ctx := tk.ctx, desc := d, hdr := h, next := 1,
                                  live := 1, placed := true, done := false } }
  let new : Task := { Task.none with
    ctx := tk.ctx, core := tk.core, disp, queue := tk.queue, prio := tk.prio, hdr := h, codec := d.codec, argc := d.argc,
    gbase := tk.gbase, ngran := tk.ngran, tiles := tk.tiles, ngroups := d.ng, since := s.gtick.toNat }
  preloadTids (placeGroups (setT s2 t new) t 64) t 0 h.tidn

/-- The task's groups that have not ended, and those not yet placed. -/
def taskAlive (s : State) (t : Nat) : Bool :=
  (getT s t).placed < (getT s t).ngroups || s.groups.any fun p => p.2.task == t && !p.2.ended

/-- R181, R268: whether the groups of a task, all of which have ended, leave nothing that a successor's group could overtake: their accesses
are performed and their FIFO entries are gone. The spec orders nothing between them (log 100). -/
def taskDrained (s : State) (t : Nat) : Bool :=
  (s.groups.all fun p => p.2.task != t || p.2.ops.isEmpty) &&
    !(s.cores.any fun c => c.2.fifo.any fun e => (getG s e.uid).task == t)

/-- R46: whether what a task's start reads is translated under the generations that its frames have. -/
def tidsFresh (s : State) (ctx : BitVec 12) (h : Header) : Bool := framesFresh s ctx h.tidp.toNat (32 * h.tidn)

/-- R266, R268: a task whose last group has ended: the successor starts when its reads are complete and the groups' accesses performed, or
the task is over. While they are not, the task waits. The groups that have ended are released from the task. Where the slot is read, and its
descriptor no longer passes the checks of R181 and R199, no successor starts (log 100). -/
def endTask (s : State) (t : Nat) : State :=
  if taskAlive s t then s else
  let tk := getT s t
  let live (n : Nat) (s : State) : State := { s with disps := match ffind s.disps tk.disp with
    | some d => fput s.disps tk.disp { d with live := d.live - n }
    | none => s.disps }
  let s0 := { s with groups := s.groups.map fun p => if p.2.task == t then (p.1, { p.2 with task := 0 }) else p }
  match tk.succ with
  | .reading _ => s
  | .read _ ok d h =>
    if !taskDrained s t || !tidsFresh s tk.ctx h then s else
    let s1 := live 1 (freeOpenNodes s0 tk.core t)
    if ok && succOk s tk d h then startSuccessor s1 t d h else setT s1 t Task.none
  | _ => setT (live 1 (freeOpenNodes s0 tk.core t)) t Task.none

/-- R266: a group ends. Its stores, atomics and commands go on; values due to its registers are discarded; its pending deferred
causes go to firmware (R358). -/
def endGroup (s : State) (uid : Nat) : State :=
  let s1 := leaveLane (leaveTeam (deferredToFirmware s uid) uid) uid
  let g := getG s1 uid
  let s2 := setG s1 uid { g with
    ended := true, handler := none, latch := none, claim := none, ops := g.ops.map fun o => { o with dst := .none } }
  endTask (endRings s2 uid) g.task

/-! Relaunch (R203). -/

/-- R190: the order of records by EVT and DSEQ. -/
def evtBefore (a b : Record) : Bool :=
  let d := (b.evt - a.evt).toNat
  if a.evt ≠ b.evt then 1 ≤ d && d ≤ 2 ^ 31 - 1 else
  let q := (b.dseq - a.dseq).toNat
  1 ≤ q && q ≤ 2 ^ 15 - 1

/-- The first of a list of records in relaunch order. -/
def firstRecord : List Record → Option Record
  | [] => none
  | r :: rs => match firstRecord rs with
    | none => some r
    | some q => if evtBefore q r then some q else some r

/-- R130: whether a group that was moved to another core has no FIFO entry from before, and no non-temporal store that is still to be
performed. -/
def movedClear (s : State) (uid : Nat) : Bool :=
  let g := getG s uid
  let mine (q : Req) : Bool := match q.agent, q.kind with | .group u _, .write => u == uid | _, _ => false
  !g.moved || (!(s.cores.any fun p => p.1 != g.core && p.2.fifo.any fun e => e.uid == uid) &&
    !(g.ops.any fun o => isNt o.kind) && !(s.reqs.any fun p => mine p.2))

/-- R392: whether a record is the next that the log of a replayed run admits on a core. -/
def logAdmits (s : State) (core : Nat) (r : Record) : Bool :=
  !replays s r.ctx || (logNext s r.ctx 1 core).any fun x => logWho x % 2 ^ 48 == (getG s r.uid).gid.toNat + 2 ^ 32 * r.dseq.toNat

/-- R203, R130, R364: whether a record of a core may bring its group back to a lane. -/
def mayReturn (s : State) (core : Nat) (r : Record) : Bool :=
  r.owner == core && r.ready && !r.held && (getG s r.uid).slot.isNone && !(getG s r.uid).poisoned && (getG s r.uid).stuck.isEmpty &&
    movedClear s r.uid

/-- R203: the record by which the next group of a core is chosen: of the highest priority, least EVT, least DSEQ. In a replayed run the log
chooses (R392). -/
def relaunchHead (s : State) (core : Nat) : Option Record :=
  let ready := s.records.filter fun r => mayReturn s core r && logAdmits s core r
  (List.range 8).reverse.findSome? fun p => firstRecord (ready.filter fun r => r.prio.toNat == p)

/-- R249: the PH that a `barr.aw` writes as its fragment resumes. -/
def resumeBarrier (g : Group) (c : Cond) : Group :=
  match c with
  | .barrier _ (some ph) sd => sPut g sd (if ph then 1 else 0)
  | _ => g

/-- Whether the record of a fragment is that of a request, of an instruction before the one at which the fragment stands, whose new
translation faulted (R46, log 20). -/
def ofRequest (s : State) (r : Record) : Bool :=
  let g := getG s r.uid
  (getF g r.frag).resume.isSome && g.handler != some r.frag

/-- A fragment becomes ready on its lane as its record ends: a fault's record at whose instruction it goes on restricts it to the unfinished threads
(R50), unless the fault was that of a request of an earlier instruction, after which it goes on where it stood (R46); a record at the end of a save routine marks the group as restoring (R271). -/
def wakeFragment (s : State) (r : Record) : State :=
  let s1 := modG s r.uid fun g =>
    let g1 := modF (resumeBarrier g r.cond) r.frag fun f => { f with
      st := 0, pc := if ofRequest s r then f.resume.getD r.pc else r.pc, rdy := cycleG s r.uid,
      resume := if ofRequest s r then none else f.resume,
      redo := if r.again && (match r.cond with | .faultRes c => causeXlt c | _ => false) && f.resume.isNone then some r.mask else f.redo }
    { g1 with restoring := g1.restoring || r.sfpd }
  dropRecord s1 r.id

/-- R203: a group is admitted to a slot: its ready fragments run, and those that are not stay as header-only records. A
claim that waited joins the tail of the lane's claims (R272), and marked acquires are sent again (R148). -/
def admitGroup (s : State) (uid slot : Nat) : State :=
  let g := getG s uid
  let free := freeSlots s g.core (laneOf slot)
  let s1 := setG s uid { withSlots g (free.take (heldH g)) with slot := some slot, adm := s.gtick.toNat, moved := false }
  let s2 := modC s1 g.core fun c => { c with claims := c.claims ++
    (match g.claim with | some _ => [(laneOf slot, uid)] | none => []) }
  let s3 := resendAcquires s2 uid
  let s4 := ((recordsOf s3 uid).filter fun r => r.ready && !r.held).foldl wakeFragment s3
  let s5 := { s4 with records := s4.records.map fun r => if r.uid == uid && r.body then { r with body := false, size := 1 } else r }
  grantClaims s5 g.core (laneOf slot) 256

end Sys2Proof.Machine
end

