-- ==== Sys2Proof/Machine/Operands.lean ====
section
/-!
DEFINITION. Operand forms: the checks of a capability and of the addresses that an access forms (R6, R7, R13, R22, R23),
and the reading and writing of vector registers (R164 to R166, R170, R274, R275).
-/
namespace Sys2Proof.Machine

/-! Capability checks (R22). -/

/-- The permissions of R13 as masks of `Cap.perms`. -/
abbrev permR : BitVec 7 := 0b0000001
abbrev permW : BitVec 7 := 0b0000010
abbrev permX : BitVec 7 := 0b0000100
abbrev permA : BitVec 7 := 0b0001000
abbrev permL : BitVec 7 := 0b0010000
abbrev permC : BitVec 7 := 0b0100000
abbrev permG : BitVec 7 := 0b1000000

/-- R22 steps 1 to 3. -/
def capValid (c : Cap) : X Unit :=
  if !c.tag then trapAt .capTag c.addr.toNat
  else if (capDecode c).isNone then trapAt .capFormat c.addr.toNat
  else if c.sealed then trapAt .capSealed c.addr.toNat
  else .ok ()

/-- R22 steps 1 to 5: the spaces that the operation permits, and its permissions. -/
def capUse (c : Cap) (need : BitVec 7) (spaces : List Nat) : X Unit := do
  capValid c
  if !spaces.contains c.space.toNat then trapAt .capSpace c.addr.toNat
  else if c.perms &&& need != need then trapAt .capPerm c.addr.toNat
  else .ok ()

/-- An exact address as XADDR holds it. -/
def addr56 (a : Int) : Nat := (a % 2 ^ 56).toNat

/-- A check of each thread's address, in ascending thread order: the first that fails gives XADDR. -/
def eachX (l : List (Nat × Int)) (ok : Int → Bool) (c : Cause) : X Unit :=
  match l.find? fun p => !ok p.2 with
  | some p => trapAt c (addr56 p.2)
  | none => .ok ()

/-- R22 step 6: alignment. -/
def alignX (n : Nat) (c : Cause) (l : List (Nat × Int)) : X Unit := eachX l (fun a => a % n == 0) c

/-- R22 step 7, R23: bounds. -/
def boundsX (c : Cap) (size : Nat) (l : List (Nat × Int)) : X Unit :=
  match capDecode c with
  | some (b, t) => eachX l (fun a => (b : Int) ≤ a && a + size ≤ t) .capBound
  | none => .ok ()

/-- R7: whether the bytes of an access lie in the extent of its space. -/
def inExtent (s : State) (g : Group) (space : Nat) (a size : Nat) : Bool :=
  match space with
  | 1 => a + size ≤ 0x600000 && (List.range (ceilDiv (a % 65536 + size) 65536)).all fun i => roleAt (getC s g.core) (a / 65536 + i) == 2
  | 2 => (taskOf s g).tiles.contains (a / 0x6000) && a / 0x6000 == (a + size - 1) / 0x6000
  | _ => true

/-- R22 step 8: extent. -/
def extentX (s : State) (g : Group) (c : Cap) (size : Nat) (l : List (Nat × Int)) : X Unit :=
  eachX l (fun a => inExtent s g c.space.toNat a.toNat size) .spaceRange

/-- R23: the address that a scalar offset forms. -/
def scalarAddr (c : Cap) (so : DWord) : Int := (c.addr.toNat : Int) + so.toInt

/-- Translation of an address for the issuing fragment (R36): the leaf, the fault, or the walk to be made. -/
def xltX (s : State) (a : Acc) (va : Nat) : X Leaf :=
  match xlate s (curG s) (curF s) a va with
  | .ok l => .ok l
  | .fault c => trapAt c va
  | .miss => .error (.walk va)

/-- The bytes at addresses that the issuing fragment translates with an access right. -/
def xltBytes (s : State) (a : Acc) : Nat → Nat → X (List Byte)
  | _, 0 => .ok []
  | va, n + 1 => do
    let l ← xltX s a va
    let bs ← xltBytes s a (va + 1) n
    .ok (visByte s (leafPa l va) :: bs)

/-! Vector registers. -/

/-- R239 step 5 on the vector names of an instruction with whether each is a pair: every name, then the pair rule, then
the odd names of the pairs (log 10). -/
def regsX (g : Group) (l : List (Nat × Bool)) : X Unit := do
  l.forM fun p => nameX g p.1
  l.forM fun p => if p.2 then pairX p.1 else .ok ()
  l.forM fun p => if p.2 then nameX g (p.1 + 1) else .ok ()

/-- A vector source: a name or a pair, with its block-or-trap bit (R233). -/
structure Src where
  reg  : Nat
  pair : Bool
  bang : Bool
  deriving DecidableEq, Repr

/-- A source's values: the low word and the high word, 0 for a single name. -/
abbrev SrcVal := VVal × VVal

/-- An empty name of an operand. -/
def emptyName (g : Group) (r : Nat) (pair : Bool) : Option Nat :=
  if vIsEmpty g r then some r else if pair && vIsEmpty g (r + 1) then some (r + 1) else none

/-- R167, R188, R233: a vector source read. -/
def readSrc (g : Group) (x : Src) : X SrcVal :=
  match emptyName g x.reg x.pair with
  | some r => if x.bang then trapX .regEmpty else .error (.wait (fillCond g false (BitVec.ofNat 6 r)))
  | none => .ok (vReg g x.reg, if x.pair then vReg g (x.reg + 1) else .u 0)

/-- R188: a vector destination, whose write suspends when it is empty. -/
def dstV (g : Group) (r : Nat) (pair : Bool) : X Unit :=
  match emptyName g r pair with
  | some r => .error (.wait (fillCond g false (BitVec.ofNat 6 r)))
  | none => .ok ()

/-- The value of a source at a thread. -/
def srcAt (v : SrcVal) (t : Nat) : DWord := vAt v.2 t ++ vAt v.1 t

/-- Whether a source is U. -/
def srcU (v : SrcVal) : Bool := isU v.1 && isU v.2

/-- The low and high words of a value. -/
def lo32 (x : DWord) : Word := BitVec.truncate 32 x
def hi32 (x : DWord) : Word := BitVec.truncate 32 (x >>> 32)

/-- R166: a result under an active set. -/
def mergeV (old : VVal) (a : Word) (res : VVal) : VVal :=
  if a = 0 then old else if a = 0xFFFFFFFF then res else
  .g ((List.range 32).map fun t => if a.getLsbD t then vAt res t else vAt old t)

/-- A vector name written: a G name takes a held slot, and any other leaves the one that it had (R168, R170). -/
def putV (g : Group) (r : Nat) (v : VVal) : Group :=
  let g1 := if isG v then takeSlot g r else dropSlot g r
  { g1 with v := fset (VVal.u 0) g.v r v }

/-- R170: the held slots that a list of writes needs. With none free the write waits for a pending claim. -/
def slotsX (g : Group) (ws : List (Nat × VVal)) : X Unit :=
  let need := (ws.filter fun p => isG p.2 && !holdsSlot g p.1).length
  let give := (ws.filter fun p => !isG p.2 && holdsSlot g p.1).length
  if need + gNames g ≤ heldH g + give then .ok () else
  match g.claim with
  | some (_, sd) => .error (.wait (.regFill true sd))
  | none => trapX .regSlots

/-- R166, R170: results written under an active set, with the slots that they need. -/
def writeV (s : State) (a : Word) (ws : List (Nat × VVal)) : X State :=
  let g := curG s
  let ms := ws.map fun p => (p.1, mergeV (vReg g p.1) a p.2)
  match slotsX g ms with
  | .error e => .error e
  | .ok _ =>
    -- the slots that results give up are free for the others
    let ordered := (ms.filter fun p => !isG p.2) ++ ms.filter fun p => isG p.2
    .ok (modCur s fun g => ordered.foldl (fun g p => putV g p.1 p.2) g)

/-- R217: the flags of a list of threads set in FFLAGS. -/
def raiseFlags (s : State) (fl : BitVec 6) : State :=
  if fl = 0 then s else modT s (curG s).task fun t => { t with fflags := t.fflags ||| fl }

/-- The writes that give a name or a pair the values of 32 threads: U when `uni`, else G. -/
def resultV (vd : Nat) (pair uni : Bool) (f : Nat → DWord) : List (Nat × VVal) :=
  let sh (h : DWord → Word) : VVal := if uni then .u (h (f 0)) else .g ((List.range 32).map fun t => h (f t))
  if pair then [(vd, sh lo32), (vd + 1, sh hi32)] else [(vd, sh lo32)]

/-- R274: a lane operation. `aform` gives the result where R165 keeps shape A, `f` a thread's result and flags. -/
def laneOp (i : Instr) (m : BitVec 2) (srcs : List Src) (vd : BitVec 6) (pair : Bool)
    (aform : List VVal → Option VVal) (f : List DWord → DWord × BitVec 6) (s : State) : Out :=
  commitNext i s do
    checkField i
    let g := curG s
    regsX g ((srcs.map fun x => (x.reg, x.pair)) ++ [(vd.toNat, pair)])
    let vs ← srcs.mapM (readSrc g)
    dstV g vd.toNat pair
    let a := activeMask g (curF s) m.toNat
    let at_ (t : Nat) : DWord × BitVec 6 := f (vs.map fun v => srcAt v t)
    let uni := vs.all srcU
    let ws := match (if uni then none else aform (vs.map fun v => v.1)) with
      | some v => [(vd.toNat, v)]
      | none => resultV vd.toNat pair uni fun t => (at_ t).1
    let s1 ← writeV s a ws
    .ok (raiseFlags s1 ((threadsOf a).foldl (fun fl t => fl ||| (at_ t).2) 0))

/-- A 32-bit source in a field, and a 64-bit one. -/
def src32 (r : BitVec 6) (b : BitVec 1) : Src := { reg := r.toNat, pair := false, bang := b == 1 }
def src64 (r : BitVec 6) (b : BitVec 1) : Src := { reg := r.toNat, pair := true, bang := b == 1 }

/-- A result that never has shape A. -/
def noA (_ : List VVal) : Option VVal := none

end Sys2Proof.Machine
end

