-- ==== Sys2Proof/Machine/Control.lean ====
section
/-!
DEFINITION. Branches, divergence, the end of a group, safe points, roles, scopes, register slots, traps and `nop`
(R171 to R177, R184, R260 to R268, R271 to R273).
-/
namespace Sys2Proof.Machine

/-- R246, R260: the target of an offset in halfwords, from the issuing fragment's PC. -/
def branchTo (s : State) (off : BitVec 56) : BitVec 56 := (curF s).pc + off + off

/-- R261: the condition of `bcnd` on a value. -/
def condZ (c : BitVec 3) (v : DWord) : Bool :=
  match c.toNat with
  | 0 => v == 0
  | 1 => v != 0
  | 2 => v.slt 0
  | 3 => !v.slt 0
  | 4 => BitVec.slt 0 v
  | _ => v.sle 0

/-- R261: `bcnd`. -/
def execBcnd (off : BitVec 16) (ss : BitVec 6) (cond : BitVec 3) (s : State) : Out :=
  let i : Instr := .bcnd off ss cond
  commit i s do
    checkField i
    let v ← srcS (curG s) ss false
    .ok (if condZ cond v then jump (branchTo s (BitVec.signExtend 56 off)) s else advance i s)

/-- R261: `loop`. -/
def execLoop (off : BitVec 16) (ss : BitVec 6) (s : State) : Out :=
  let i : Instr := .loop off ss
  commit i s do
    checkField i
    let v ← srcS (curG s) ss false
    let s1 := modCur s fun g => sPut g ss (v - 1)
    .ok (if v - 1 ≠ 0 then jump (branchTo s (BitVec.signExtend 56 off)) s1 else advance i s1)

/-- R261: `bra`. -/
def execBra (off : BitVec 25) (s : State) : Out := .next (jump (branchTo s (BitVec.signExtend 56 off)) s)

/-- R261: `call`. -/
def execCall (off : BitVec 25) (s : State) : Out :=
  commit (.call off) s do
    dstS (curG s) 63
    let s1 := modCur s fun g => sPut g 63 (BitVec.zeroExtend 64 ((curF s).pc + 4))
    .ok (jump (branchTo s (BitVec.signExtend 56 off)) s1)

/-- R262: the target of a return, which is even. -/
def retTarget (s : State) (ss : BitVec 6) (b1 : BitVec 1) : X (BitVec 56) := do
  let v ← srcS (curG s) ss (b1 == 1)
  if v.getLsbD 0 then trapAt .fetchAlign (v.toNat % 2 ^ 56) else .ok (BitVec.truncate 56 v)

/-- R262: `ret`. -/
def execRet (b1 : BitVec 1) (ss : BitVec 6) (s : State) : Out :=
  commit (.ret b1 ss) s do
    let a ← retTarget s ss b1
    .ok (jump a s)

/-- R262, R357: `ret.x`, which outside the handler raises ENC_FIELD. -/
def execRetX (b1 : BitVec 1) (ss : BitVec 6) (s : State) : Out :=
  commit (.retX b1 ss) s do
    needX (curG s).handler.isSome .encField
    let a ← retTarget s ss b1
    .ok (returnHandler s a)

/-- The lowest-numbered invalid entry of a split table. -/
def freeEntry (g : Group) : Option Nat := (List.range 8).find? fun k => !(getF g k).valid

/-- R104: the order of a new fragment `c` begins with the accesses that precede the split of fragment `k`. -/
def forkOrder (k c : Nat) (ops : List Op) : List Op :=
  ops.map fun o => { o with pre := withBit o.pre c (o.pre.getLsbD k) }

/-- R104: what precedes the join in a fused fragment precedes what follows it. -/
def joinOrder (keep drop : Nat) (ops : List Op) : List Op :=
  ops.map fun o => { o with pre := withBit (withBit o.pre keep (o.pre.getLsbD keep || o.pre.getLsbD drop)) drop false }

/-- R176: the split of entry `k`: the taken threads go to `target`, the rest to `next`; the smaller side, the taken one of
two equal sides, goes to entry `c`. -/
def splitGroup (g : Group) (k c : Nat) (taken : Word) (target next join : BitVec 56) (now : Nat) : Group :=
  let p := getF g k
  let rest := p.mask &&& ~~~ taken
  let (dm, dpc, km, kpc) := if (threadsOf taken).length ≤ (threadsOf rest).length then (taken, target, rest, next)
    else (rest, next, taken, target)
  let child : Split := { Split.free with
    valid := true, parent := BitVec.ofNat 3 k, mask := dm, pc := dpc, join, saved := p.join, age := g.splitAge + 1, rdy := now }
  let g1 := setF { g with splitAge := g.splitAge + 1, ops := forkOrder k c g.ops } c child
  setF g1 k { p with mask := km, pc := kpc, join, redo := none, walked := [], why := 0, rdy := now }

/-- R264, R176: `vbra`. -/
def execVbra (toff joff : BitVec 11) (mk : BitVec 3) (s : State) : Out :=
  let i : Instr := .vbra toff joff mk
  commit i s do
    let g := curG s
    let f := curF s
    let target := branchTo s (BitVec.signExtend 56 toff)
    let join := if joff = 0 then 0 else branchTo s (BitVec.zeroExtend 56 joff)
    let taken := f.mask &&& mReg g mk.toNat
    if taken = 0 then .ok (advance i s)
    else if taken = f.mask then .ok (jump target s)
    else match freeEntry g with
      | none => trapX .splitFull
      | some c => .ok (setG s s.cur.uid (splitGroup g s.cur.entry c taken target (f.pc + 4) join (cycleG s s.cur.uid)))

/-- R177: the children of an entry that share a join, youngest first. -/
def kidsOf (g : Group) (x : Nat) (p : BitVec 56) : List Nat :=
  let l := (entries g).filter fun q => q.1 != 0 && q.2.valid && q.2.parent.toNat == x && q.2.join == p
  let ins (q : Nat × Split) (m : List (Nat × Split)) : List (Nat × Split) :=
    (m.takeWhile fun r => q.2.age < r.2.age) ++ [q] ++ m.dropWhile fun r => q.2.age < r.2.age
  (l.foldr ins []).map fun q => q.1

/-- R177: the partner of a fragment that reaches its join, with whether it is the fragment's parent; none when a younger
sibling fuses first. -/
def joinPartner (g : Group) (k : Nat) (p : BitVec 56) : Option (Nat × Bool) :=
  match kidsOf g k p with
  | c :: _ => some (c, false)
  | [] =>
    let q := (getF g k).parent.toNat
    if k != 0 && (kidsOf g q p).head? == some k then some (q, true) else none

/-- R177: whether a partner has exited or waits at the join. -/
def joinReady (g : Group) (k : Nat) (p : BitVec 56) : Bool :=
  (getF g k).st == 3 || ((getF g k).st == 1 && (getF g k).join == p)

/-- R177: the fusion of a parent and a child. -/
def fuse (g : Group) (keep drop : Nat) (next : BitVec 56) (now : Nat) : Group :=
  let a := getF g keep
  let b := getF g drop
  let live (f : Split) : Word := if f.st == 3 then 0 else f.mask
  setF (setF { g with ops := joinOrder keep drop g.ops } drop Split.free) keep
    { a with mask := live a ||| live b, join := b.saved, pc := next, st := 0, redo := none, walked := [], why := 0, rdy := now }

/-- R177: `on_vjoin` of fragment `k` at address `p`: it goes on after the `vjoin`, fuses, or waits at `p` (log 15). Each
fusion frees an entry, so that 8 rounds are enough. -/
def onVjoin (s : State) (uid : Nat) (p next : BitVec 56) : Nat → Nat → State
  | 0, _ => s
  | n + 1, k =>
    let g := getG s uid
    let wait (s : State) : State :=
      deposit (modG s uid fun g => modF g k fun f => { f with pc := p }) uid k (.joined p) (getF g k).mask 1 none false false
    if (getF g k).join = 0 || (getF g k).join ≠ p then s else
    match joinPartner g k p with
    | none => wait s
    | some (q, up) =>
      if !joinReady g q p then wait s else
      let (keep, drop) := if up then (q, k) else (k, q)
      let s1 := setG s uid (fuse g keep drop next (cycleG s uid))
      let s2 := { s1 with records := s1.records.filter fun r => !(r.uid == uid && r.frag == q) }
      onVjoin s2 uid p next n keep

/-- R265: `vjoin`. -/
def execVjoin (s : State) : Out :=
  let p := (curF s).pc
  .next (onVjoin (advance .vjoin s) s.cur.uid p (p + 4) 8 s.cur.entry)

/-- R266, R357: the issuing fragment exits: handler state and a latched restriction end with it, and the group ends when
every valid entry has exited. -/
def exitFragment (s : State) : State :=
  let s1 := modCur s fun g =>
    modF { g with handler := none, latch := none } s.cur.entry fun f => { f with
      st := 3, redo := none, walked := [], resume := none, again := if f.resume.isSome then some false else none }
  if (entries (curG s1)).all fun p => !p.2.valid || p.2.st == 3 then endGroup s1 s1.cur.uid else s1

/-- R266: `exit`. -/
def execExit (s : State) : Out :=
  commit .exit s do
    needX (curG s).locks.isEmpty .exitForm
    .ok (exitFragment s)

/-- R267: the fault that a read of the successor slot met, kept for the group that started the read. Its page is marked
by 2^56. -/
def succFault (f : Split) : Option (Nat × Cause) :=
  f.walked.findSome? fun w => match w with
    | .fail p c => if 2 ^ 56 ≤ p then some (p - 2 ^ 56, c) else none
    | .leaf _ _ => none

/-- R267: the scalar of `exit.succ` becomes empty at an unchanged PC, to be filled when the slot is read. -/
def succWaits (s : State) (sd : BitVec 6) : State :=
  let s1 := modCur s fun g => modF (sMakeEmpty g sd) s.cur.entry fun f => { f with rdy := cycleG s s.cur.uid }
  modT s1 (curG s).task fun t => { t with succWait := t.succWait ++ [(s.cur.uid, s.cur.entry, sd)] }

/-- R267: `exit.succ`. The descriptor's page is translated at issue; the descriptor and the header are read when
SUCC_READ_COMPLETE happens. -/
def execExitSucc (sd : BitVec 6) (s : State) : Out :=
  let i : Instr := .exitSucc sd
  let g := curG s
  let t := taskOf s g
  commit i s do
    checkField i
    needX (t.hdr.succ && g.locks.isEmpty) .exitForm
    let c ← srcC g 1
    let v ← srcS g sd false
    let a : Nat := v.toNat % 2 ^ 56
    needX (a % 64 == 0) .exitForm
    capUse c permR [0]
    boundsX c 64 [(0, Int.ofNat a)]
    match succFault (curF s) with
    | some (va, c) => trapAt c va
    | none =>
      match t.succ with
      | .none =>
        let _ ← xltX s .load a
        dstS g sd
        let s1 := succWaits (modT s g.task fun t => { t with succ := .reading (BitVec.ofNat 56 a) }) sd
        .ok (push s1 (.succReadComplete g.task))
      | .reading b =>
        needX (b.toNat == a) .exitForm
        .ok (succWaits s sd)
      | .read b ok d h =>
        needX (b.toNat == a) .exitForm
        if ok && succOk s t d h then .ok (exitFragment s) else
        let s1 := modT s g.task fun t => { t with succ := .none }
        .ok (stopped s1 (insnRegs (codeOf i) (curF s).pc g (curF s)) (.trap .exitForm 0 none))

/-- R205: an address of the safe-point table: entry `n`, its save routine at byte 0 or its restore routine at byte 8. The
table is at a code-space address and is read with execute right, and bit 0 of the address, which no PC holds (R175), is ignored (log 16). -/
def sfpEntry (s : State) (n off : Nat) : X (BitVec 56) := do
  let bs ← xltBytes s .exec (((taskOf s (curG s)).hdr.sfpt.toNat + 16 * n + off) % 2 ^ 56) 7
  .ok (BitVec.ofNat 56 (2 * (leNat bs / 2)))

/-- R206: whether a pre-emption request for a group is pending on its core. -/
def preemptPending (s : State) (g : Group) : Bool :=
  (getX s g.ctx).preempts.any fun p => p.core == g.core && (p.only.all fun l => l.contains g.task)

/-- R271: `sfp`. -/
def execSfp (n : BitVec 8) (s : State) : Out :=
  let i : Instr := .sfp n
  let g := curG s
  commit i s do
    needX (n.toNat < (taskOf s g).hdr.sfpn) .sfpForm
    if g.handler.isSome || g.saving.isSome then .ok (advance i s)
    else if preemptPending s g && validCount g == 1 then
      let a ← sfpEntry s n.toNat 0
      .ok (jump a (modCur s fun g => { g with restoring := false, saving := some n }))
    else .ok (advance i (modCur s fun g => { g with restoring := false }))

/-- R271: `cont.dep`. -/
def execContDep (s : State) : Out :=
  commit .contDep s do
    let g := curG s
    match g.saving with
    | none => trapX .sfpForm
    | some n =>
      needX (validCount g == 1) .sfpForm
      let a ← sfpEntry s n.toNat 8
      let s1 := cancelWaits (modCur (jump a s) fun g => { g with saving := none }) s.cur.uid
      .ok (deposit s1 s.cur.uid s.cur.entry (.preempted n) (curF s).mask 2 none true true)

/-- R272, R184: `role.yield`. The change pending for the group at issue is applied; the rebalancer's timers restart (R204). -/
def execRoleYield (s : State) : Out :=
  commitNext .roleYield s do
    let g := curG s
    needX (g.role != 0) .roleForm
    match (taskOf s g).pendRole with
    | some (k, r) =>
      if k ≠ g.taskg then .ok s else
      let s1 := modCur s fun g => { g with role := r }
      .ok (modT s1 g.task fun t => { t with pendRole := none, rbSince := cycleG s s.cur.uid, loSince := none, hiSince := none })
    | none => .ok s

/-- R172: `scope.open`. Each new name is U with value 0 and not empty. -/
def execScopeOpen (k : BitVec 6) (s : State) : Out :=
  commitNext (.scopeOpen k) s do
    checkField (.scopeOpen k)
    let g := curG s
    needX (g.scopes.length < 8 && g.top + k.toNat ≤ g.nNames && validCount g == 1) .scopeForm
    .ok (modCur s fun g => { g with
      scopes := g.top :: g.scopes, top := g.top + k.toNat, v := g.v.filter (fun p => p.1 < g.top),
      vEmpty := g.vEmpty &&& BitVec.ofNat 64 (2 ^ g.top - 1) })

/-- The destination of an operation when the names from `t` up die: a value due to them is discarded (R172). -/
def dropDest (t : Nat) (d : Dest) : Dest :=
  match d with
  | .vec r => if t ≤ r.toNat then .none else d
  | .pair r => if t ≤ r.toNat then .none else if t ≤ r.toNat + 1 then .vec r else d
  | _ => d

/-- R172: the names from `t` up die: their slots leave the group, their values and empty bits are gone. (R170 says that the slot of a
dying name becomes free within H; R172, which gives `scope.close` its effect, that it returns to the pool and lowers H: the model
follows R172, log 73.) -/
def killNames (g : Group) (t : Nat) : Group :=
  let dying := (List.range g.top).filter fun r => t ≤ r && holdsSlot g r
  let g1 := giveSlots g (dying.filterMap (ffind g.gslot)) dying.length
  { g1 with
    top := t, gslot := g.gslot.filter (fun p => p.1 < t || 64 ≤ p.1), v := g.v.filter (fun p => p.1 < t),
    vEmpty := g.vEmpty &&& BitVec.ofNat 64 (2 ^ t - 1), ops := g.ops.map fun o => { o with dst := dropDest t o.dst } }

/-- R171: slots that have come free on the lane of the issuing group go to the claims that wait there. -/
def grantLane (s : State) : State :=
  match (curG s).slot with
  | some k => grantClaims s (curG s).core (laneOf k) 256
  | none => s

/-- R172: `scope.close`. -/
def execScopeClose (s : State) : Out :=
  commitNext .scopeClose s do
    let g := curG s
    match g.scopes with
    | [] => trapX .scopeForm
    | t :: rest =>
      needX (validCount g == 1) .scopeForm
      .ok (grantLane (modCur s fun g => { killNames g t with scopes := rest }))

/-- R171, R272: `rgive`. Which free held slots go back is the model's choice: the last of the list (log 71). -/
def execRgive (k : BitVec 8) (s : State) : Out :=
  commitNext (.rgive k) s do
    checkField (.rgive k)
    let g := curG s
    needX (validCount g == 1 && k.toNat + gNames g ≤ heldH g) .slotForm
    .ok (grantLane (modCur s fun g => giveSlots g (freeHeld g).reverse k.toNat))

/-- R171, R272: `rclaim`. -/
def execRclaim (k : BitVec 8) (sd : BitVec 6) (s : State) : Out :=
  commitNext (.rclaim k sd) s do
    checkField (.rclaim k sd)
    let g := curG s
    needX (validCount g == 1 && heldH g + k.toNat ≤ 128 && g.claim.isNone) .slotForm
    dstS g sd
    let lane := laneOf (g.slot.getD 0)
    let free := freeSlots s g.core lane
    if ((getC s g.core).claims.any fun p => p.1 == lane) || free.length < k.toNat then
      let s1 := modCur s fun g => { sMakeEmpty g sd with claim := some (k.toNat, sd) }
      .ok (modC (traceAdd s1 g 10 (2 ^ 62 + s.cur.uid) 0 (BitVec.zeroExtend 7 sd + 64) 0) g.core fun c =>
        { c with claims := c.claims ++ [(lane, s.cur.uid)] })
    else
      .ok (modCur s fun g => sPut { g with slots := g.slots ++ free.take k.toNat } sd (BitVec.ofNat 64 (heldH g + k.toNat)))

/-- R273: `trap`. -/
def execTrap (code : BitVec 16) (s : State) : Out :=
  commit (.trap code) s (.error (.trap .encTrap 0 (some (BitVec.zeroExtend 64 code))))

/-- R273: `brk`. -/
def execBrk (code : BitVec 16) (s : State) : Out :=
  commit (.brk code) s (.error (.trap .encBrk 0 (some (BitVec.zeroExtend 64 code))))

/-- R273: `nop`. -/
def execNop (s : State) : Out := commitNext .nop s (.ok s)

end Sys2Proof.Machine
end

