-- ==== Sys2Proof/Machine/Flags.lean ====
section
/-!
DEFINITION. Numbers and the FFLAGS that operations on them raise (R211 to R219, R284, R285): exact values, one rounding at
the end, and saturation. Everything is exact arithmetic on integers.
-/
namespace Sys2Proof.Machine

/-- The flags of R217. -/
abbrev Fl := BitVec 6
abbrev flNX : Fl := 1
abbrev flUF : Fl := 2
abbrev flOF : Fl := 4
abbrev flDZ : Fl := 8
abbrev flNV : Fl := 16
abbrev flSAT : Fl := 32

/-- A rounding mode's code (R214): 0 nearest even, 1 toward zero, 2 down, 3 up. -/
abbrev Rm := BitVec 2

/-- A float type (R212): exponent bits, fraction bits, and whether it is f8a. -/
structure Fmt where
  eb  : Nat
  fb  : Nat
  f8a : Bool
  deriving DecidableEq, Repr

abbrev fmtF16 : Fmt := { eb := 5, fb := 10, f8a := false }
abbrev fmtBf16 : Fmt := { eb := 8, fb := 7, f8a := false }
abbrev fmtF32 : Fmt := { eb := 8, fb := 23, f8a := false }
abbrev fmtF64 : Fmt := { eb := 11, fb := 52, f8a := false }
abbrev fmtF8a : Fmt := { eb := 4, fb := 3, f8a := true }
abbrev fmtF8b : Fmt := { eb := 5, fb := 2, f8a := false }

/-- The bias, the sign bit's weight, the canonical NaN, the code of the largest finite value, the code of infinity, and the
exponent of the last place of a subnormal (R212). -/
def Fmt.bias (f : Fmt) : Nat := 2 ^ (f.eb - 1) - 1
def Fmt.sign (f : Fmt) : Nat := 2 ^ (f.eb + f.fb)
def Fmt.nan (f : Fmt) : Nat := if f.f8a then 0x7F else (2 ^ f.eb - 1) * 2 ^ f.fb + 2 ^ (f.fb - 1)
def Fmt.infCode (f : Fmt) : Nat := (2 ^ f.eb - 1) * 2 ^ f.fb
def Fmt.maxCode (f : Fmt) : Nat := if f.f8a then 0x7E else f.infCode - 1
def Fmt.qmin (f : Fmt) : Int := 1 - (f.bias : Int) - f.fb

/-- A float value: a NaN, signalling or quiet; an infinity; or ± m × 2^e. -/
inductive FVal where
  | nan (sig : Bool)
  | inf (neg : Bool)
  | fin (neg : Bool) (m : Nat) (e : Int)
  deriving DecidableEq, Repr

/-- The value of a code (R212, R213). -/
def fDecode (f : Fmt) (x : Nat) : FVal :=
  let x := x % (2 * f.sign)
  let neg := f.sign ≤ x
  let mag := x % f.sign
  let ex := mag / 2 ^ f.fb
  let fr := mag % 2 ^ f.fb
  if f.f8a && mag = 0x7F then .nan false
  else if !f.f8a && ex = 2 ^ f.eb - 1 then if fr = 0 then .inf neg else .nan (fr < 2 ^ (f.fb - 1))
  else if ex = 0 then .fin neg fr f.qmin
  else .fin neg (2 ^ f.fb + fr) (f.qmin + (ex - 1 : Nat))

/-- `n × 2^k` for k at least 0, else n. -/
def shlI (n : Nat) (k : Int) : Nat := n * 2 ^ k.toNat

/-- The integer part of `num / den × 2^(e - q)` rounded in a mode, and whether that is inexact. -/
def roundAt (rm : Rm) (neg : Bool) (num den : Nat) (e q : Int) : Nat × Bool :=
  let n := shlI num (e - q)
  let d := shlI den (q - e)
  let r := n % d
  let up := match rm.toNat with
    | 0 => d < 2 * r || (d = 2 * r && n / d % 2 = 1)
    | 1 => false
    | 2 => neg && r ≠ 0
    | _ => !neg && r ≠ 0
  (n / d + up.toNat, r ≠ 0)

/-- The exponent of the leading bit of `num / den × 2^e`, for num and den not 0. -/
def leadBit (num den : Nat) (e : Int) : Int :=
  let l : Int := (Nat.log2 num : Int) - Nat.log2 den
  if shlI den l ≤ shlI num (-l) then l + e else l - 1 + e

/-- R215: an overflow's code without the sign, in a mode. -/
def overCode (f : Fmt) (rm : Rm) (neg : Bool) : Nat :=
  if f.f8a then f.maxCode else
  match rm.toNat with
  | 0 => f.infCode
  | 1 => f.maxCode
  | 2 => if neg then f.infCode else f.maxCode
  | _ => if neg then f.maxCode else f.infCode

/-- R214, R215: the magnitude `num / den × 2^e` rounded once to a type, with the flags. Tininess is detected after
rounding, that is with the exponent unbounded. -/
def roundRat (f : Fmt) (rm : Rm) (neg : Bool) (num den : Nat) (e : Int) : Nat × Fl :=
  let sg := if neg then f.sign else 0
  if num = 0 then (sg, 0) else
  let l := leadBit num den e
  let q := max (l - f.fb) f.qmin
  let (n, inex) := roundAt rm neg num den e q
  let (n, q) := if n = 2 ^ (f.fb + 1) then (2 ^ f.fb, q + 1) else (n, q)
  let code := (q - f.qmin).toNat * 2 ^ f.fb + n
  if f.maxCode < code then (sg + overCode f rm neg, flOF ||| flNX) else
  let small := l < f.qmin + f.fb
  let tiny := small && (roundAt rm neg num den e (l - f.fb)).1 < 2 ^ (f.fb + (f.qmin - (l - f.fb)).toNat)
  (sg + code, if inex then (if tiny then flNX ||| flUF else flNX) else 0)

/-- A value rounded to a type. An infinity in f8a gives ± 448 with NV (R218). -/
def fEncode (f : Fmt) (rm : Rm) (v : FVal) : Nat × Fl :=
  match v with
  | .nan _ => (f.nan, 0)
  | .inf neg => if f.f8a then ((if neg then f.sign else 0) + f.maxCode, flNV) else
    ((if neg then f.sign else 0) + f.infCode, 0)
  | .fin neg m e => roundRat f rm neg m 1 e

/-- NV for a signalling operand (R216). -/
def sigFlag (l : List FVal) : Fl := if l.any fun v => v == .nan true then flNV else 0

def FVal.isNan : FVal → Bool
  | .nan _ => true
  | _ => false

def FVal.neg : FVal → FVal
  | .nan s => .nan s
  | .inf n => .inf !n
  | .fin n m e => .fin (!n) m e

/-- The exact product (R216). -/
def fMulE (a b : FVal) : FVal × Fl :=
  match a, b with
  | .nan _, _ | _, .nan _ => (.nan false, 0)
  | .inf n, .inf k => (.inf (n != k), 0)
  | .inf n, .fin k m _ | .fin k m _, .inf n => if m = 0 then (.nan false, flNV) else (.inf (n != k), 0)
  | .fin n m e, .fin k p d => (.fin (n != k) (m * p) (e + d), 0)

/-- The exact sum, with the sign of a zero sum in a mode (R216). -/
def fAddE (rm : Rm) (a b : FVal) : FVal × Fl :=
  match a, b with
  | .nan _, _ | _, .nan _ => (.nan false, 0)
  | .inf n, .inf k => if n = k then (.inf n, 0) else (.nan false, flNV)
  | .inf n, _ | _, .inf n => (.inf n, 0)
  | .fin n m e, .fin k p d =>
    let q := min e d
    let x : Int := (if n then -1 else 1) * (shlI m (e - q) : Int)
    let y : Int := (if k then -1 else 1) * (shlI p (d - q) : Int)
    if x + y = 0 then (.fin (if n = k then n else rm = 2) 0 0, 0) else (.fin (x + y < 0) (x + y).natAbs q, 0)

def fAdd (f : Fmt) (rm : Rm) (a b : FVal) : Nat × Fl :=
  let (v, fl) := fAddE rm a b
  let (x, g) := fEncode f rm v
  (x, fl ||| g ||| sigFlag [a, b])

def fSub (f : Fmt) (rm : Rm) (a b : FVal) : Nat × Fl := fAdd f rm a b.neg

def fMul (f : Fmt) (rm : Rm) (a b : FVal) : Nat × Fl :=
  let (v, fl) := fMulE a b
  let (x, g) := fEncode f rm v
  (x, fl ||| g ||| sigFlag [a, b])

/-- R214: one rounding of a × b + c. -/
def fFma (f : Fmt) (rm : Rm) (a b c : FVal) : Nat × Fl :=
  let (p, fl) := fMulE a b
  let (v, fl2) := fAddE rm p c
  let (x, g) := fEncode f rm v
  (x, fl ||| fl2 ||| g ||| sigFlag [a, b, c])

def fDiv (f : Fmt) (rm : Rm) (a b : FVal) : Nat × Fl :=
  let s (n : Bool) : Nat := if n then f.sign else 0
  match a, b with
  | .nan _, _ | _, .nan _ => (f.nan, sigFlag [a, b])
  | .inf _, .inf _ => (f.nan, flNV)
  | .inf n, .fin k _ _ => (s (n != k) + f.infCode, 0)
  | .fin n _ _, .inf k => (s (n != k), 0)
  | .fin n m e, .fin k p d =>
    if p = 0 then if m = 0 then (f.nan, flNV) else (s (n != k) + f.infCode, flDZ)
    else roundRat f rm (n != k) m p (e - d)

/-- The integer square root of a number below 4^(k + 1) - from its `k + 1` bits down. -/
def isqrt (n : Nat) : Nat → Nat → Nat
  | 0, r => if (r + 1) * (r + 1) ≤ n then r + 1 else r
  | k + 1, r => isqrt n k (if (r + 2 ^ (k + 1)) * (r + 2 ^ (k + 1)) ≤ n then r + 2 ^ (k + 1) else r)

/-- The square root of `n`. -/
def sqrtN (n : Nat) : Nat := isqrt n (Nat.log2 n / 2 + 1) 0

/-- √(m × 2^e) as a magnitude with its exponent: exact, or with a last bit of 1 below every place that a rounding
looks at. -/
def sqrtMag (m : Nat) (e : Int) : Nat × Int :=
  let odd := e % 2 = 1
  let m1 := if odd then 2 * m else m
  let e1 := if odd then e - 1 else e
  let n := 2 ^ 160 * m1
  let r := sqrtN n
  if r * r = n then (r, e1 / 2 - 80) else (2 * r + 1, e1 / 2 - 81)

def fSqrt (f : Fmt) (rm : Rm) (a : FVal) : Nat × Fl :=
  match a with
  | .nan s => (f.nan, if s then flNV else 0)
  | .inf n => if n then (f.nan, flNV) else (f.infCode, 0)
  | .fin n m e =>
    if m = 0 then (if n then f.sign else 0, 0)
    else if n then (f.nan, flNV)
    else let (r, q) := sqrtMag m e; roundRat f rm false r 1 q

/-- The order of the codes of a type, −0 below +0; NaNs are not ordered. -/
def fKey (f : Fmt) (x : Nat) : Int :=
  if f.sign ≤ x % (2 * f.sign) then -((x % f.sign : Nat) : Int) - 1 else ((x % f.sign : Nat) : Int)

/-- Comparison of values that are no NaN, with −0 = +0: less, equal. -/
def fLt (f : Fmt) (x y : Nat) : Bool := fKey f x < fKey f y && !(x % f.sign = 0 && y % f.sign = 0)
def fEq (f : Fmt) (x y : Nat) : Bool := fKey f x = fKey f y || (x % f.sign = 0 && y % f.sign = 0)

/-- R284: the lesser, or the greater, of two codes. -/
def fMinMax (f : Fmt) (mx : Bool) (x y : Nat) : Nat × Fl :=
  let a := fDecode f x
  let b := fDecode f y
  let fl := sigFlag [a, b]
  if a.isNan && b.isNan then (f.nan, fl)
  else if a.isNan then (y, fl)
  else if b.isNan then (x, fl)
  else if mx then (if fKey f x < fKey f y then y else x, fl) else (if fKey f y < fKey f x then y else x, fl)

/-- R281: a float condition and its flags. -/
def fCond (f : Fmt) (c : BitVec 3) (x y : Nat) : Bool × Fl :=
  let a := fDecode f x
  let b := fDecode f y
  let un := a.isNan || b.isNan
  let ordered := 2 ≤ c.toNat && c.toNat ≤ 5
  let fl := if un && ordered then flNV else sigFlag [a, b]
  (match c.toNat with
    | 0 => !un && fEq f x y
    | 1 => un || !fEq f x y
    | 2 => !un && fLt f x y
    | 3 => !un && (fLt f x y || fEq f x y)
    | 4 => !un && fLt f y x
    | 5 => !un && (fLt f y x || fEq f x y)
    | 6 => un
    | _ => !un, fl)

/-- A rational rounded to an integer in a mode, and whether that is inexact. -/
def roundInt (rm : Rm) (neg : Bool) (num den : Nat) (e : Int) : Int × Bool :=
  let (n, inex) := roundAt rm neg num den e 0
  ((if neg then -(n : Int) else n), inex)

/-- R211: a clamp to bounds, with SAT when it changes the value. -/
def satI (x lo hi : Int) : Int × Fl := if x < lo then (lo, flSAT) else if hi < x then (hi, flSAT) else (x, 0)

/-- The bounds of an integer type of `n` bits (R211). -/
def intLo (n : Nat) (u : Bool) : Int := if u then 0 else -(2 ^ (n - 1) : Nat)
def intHi (n : Nat) (u : Bool) : Int := if u then ((2 ^ n : Nat) : Int) - 1 else ((2 ^ (n - 1) : Nat) : Int) - 1

/-- R218: a float converted to an integer of `n` bits. -/
def fToInt (rm : Rm) (n : Nat) (u : Bool) (v : FVal) : Int × Fl :=
  match v with
  | .nan _ => (0, flNV)
  | .inf neg => (if neg then intLo n u else intHi n u, flNV)
  | .fin neg m e =>
    let (r, inex) := roundInt rm neg m 1 e
    if r < intLo n u then (intLo n u, flNV) else if intHi n u < r then (intHi n u, flNV)
    else (r, if inex then flNX else 0)

/-- R218: an integer converted to a float. -/
def intToF (f : Fmt) (rm : Rm) (x : Int) : Nat × Fl := roundRat f rm (x < 0) x.natAbs 1 0

/-! The approximations of R285. -/

/-- The roots 2^(2^−1), 2^(2^−2), … with 192 bits of fraction, each rounded down: the product of those that the bits of
`j / 2^n` name, from the highest bit down. -/
def expProd (j : Nat) : Nat → Nat → Nat → Nat
  | 0, _, acc => acc
  | n + 1, root, acc =>
    let r := sqrtN (2 ^ 192 * root)
    expProd j n r (if j / 2 ^ n % 2 = 1 then acc * r / 2 ^ 192 else acc)

/-- 2^(j / 2^n) for 0 < j < 2^n, as an odd number of 193 bits of fraction that no f32 value lies between it and the exact
value (log 17). -/
def expFrac (j n : Nat) : Nat := 2 * expProd j n (2 ^ 193) (2 ^ 192) + 1

/-- The first bits of log2 of `x / 2^256`, for a number from 1 below 2: by squaring. -/
def logBits : Nat → Nat → Nat → Nat
  | 0, _, acc => acc
  | n + 1, x, acc =>
    let y := x * x / 2 ^ 256
    if 2 ^ 257 ≤ y then logBits n (y / 2) (2 * acc + 1) else logBits n y (2 * acc)

/-- The exact value y of an approximation, as a sign, a fraction and an exponent that no f32 value but y itself separates
from y. `op` is 0 rcp, 1 rsq, 2 exp2, 3 log2, of ± m × 2^e with m not 0. -/
def approxExact (op : Nat) (neg : Bool) (m : Nat) (e : Int) : Bool × Nat × Nat × Int :=
  match op with
  | 0 => (neg, 1, m, -e)
  | 1 => let (r, q) := sqrtMag m e; (false, 2 ^ 80, r, -q - 80)
  | 2 =>
    let big := leadBit m 1 e
    if 8 ≤ big then (false, 1, 1, if neg then -300 else 300)
    else if 0 ≤ e then (false, 1, 1, (if neg then -1 else 1) * (shlI m e : Int))
    else
      let d := 2 ^ (-e).toNat
      let x : Int := (if neg then -1 else 1) * (m : Int)
      let k := x / d
      let j := (x % d).toNat
      if j = 0 then (false, 1, 1, k) else (false, expFrac j (-e).toNat, 1, k - 193)
  | _ =>
    let l := Nat.log2 m
    let ex : Int := l + e
    if m = 2 ^ l then (ex < 0, ex.natAbs, 1, 0) else
    let v : Int := 2 * (ex * 2 ^ 112 + (logBits 112 (2 ^ 256 * m / 2 ^ l) 0 : Int)) + 1
    (v < 0, v.natAbs, 1, -113)

/-- R285: the result of an approximation on f32 and its flags. Which neighbour of y it gives is a free value. -/
def fApprox (op : Nat) (rev : BitVec 8) (x : Nat) : Nat × Fl :=
  let f := fmtF32
  let a := fDecode f x
  match a with
  | .nan s => (f.nan, if s then flNV else 0)
  | .inf neg => match op with
    | 0 => (if neg then f.sign else 0, 0)
    | 2 => (if neg then 0 else f.infCode, 0)
    | 1 => if neg then (f.nan, flNV) else (0, 0)
    | _ => if neg then (f.nan, flNV) else (f.infCode, 0)
  | .fin neg m e =>
    if m = 0 then match op with
      | 0 | 1 => ((if neg then f.sign else 0) + f.infCode, flDZ)
      | 2 => (0x3F800000, 0)
      | _ => (f.sign + f.infCode, flDZ)
    else if neg && (op = 1 || op = 3) then (f.nan, flNV)
    else
      let (s, num, den, q) := approxExact op neg m e
      let down := roundRat f 2 s num den q
      let near := roundRat f 1 s num den q
      if near.2 &&& flNX = 0 then near
      else if f.maxCode ≤ near.1 % f.sign then ((if s then f.sign else 0) + f.infCode, flOF ||| flNX)
      else
        let r := if Config.approxUpper op (BitVec.ofNat 32 x) rev then (roundRat f 3 s num den q).1 else down.1
        (r, if leadBit num den q < -126 then flNX ||| flUF else flNX)

end Sys2Proof.Machine
end

