-- ==== Sys2Proof/Machine/Tensor.lean ====
section
/-!
DEFINITION. Tensors: their planes, scales and metadata in the stash (R219, R222), the accumulation of matrix operations
(R226 to R228) and quantisation (R224, R225).
-/
namespace Sys2Proof.Machine

/-- The float type of FMT 0 to 5 (R220). -/
def tidFmt (t : Tid) : Fmt :=
  match t.fmt.toNat with
  | 0 => fmtF8a | 1 => fmtF8b | 2 => fmtF16 | 3 => fmtBf16 | 4 => fmtF32 | _ => fmtF64

/-- W, the bits of an element's encoding (R222). -/
def tidW (t : Tid) : Nat := if t.fmt = 6 then 8 else if t.fmt = 7 then 1 else fmtWidth t.fmt.toNat

/-- Rows, logical columns, stored columns, column blocks and row blocks (R222). -/
def tidRows (t : Tid) : Nat := t.rowsm1 + 1
def tidK (t : Tid) : Nat := t.km1 + 1
def tidKC (t : Tid) : Nat := if t.sparse then 2 * ceilDiv (tidK t) 4 else tidK t
def tidKB (t : Tid) : Nat := ceilDiv (tidKC t) 64
def tidRB (t : Tid) : Nat := ceilDiv (tidRows t) 64

/-- The address of a plane tile, and the plane region with its length (R222, R346). -/
def tileAddr (t : Tid) (rb kb p : Nat) : Nat := t.pbase * 512 + 512 * ((rb * tidKB t + kb) * t.spl + p)
def planeRegion (t : Tid) : Nat × Nat := (t.pbase * 512, 512 * (tidRB t * tidKB t * t.spl))

/-- The stash addresses of a row's scale and of a column's smoothing value, and the metadata region (R222). -/
def scaleAddr (t : Tid) (r : Nat) : Nat := 4 * t.scb + 4 * r
def smoothAddr (t : Tid) (j : Nat) : Nat := 4 * t.smb + 4 * j
def metaRegion (t : Tid) : Nat × Nat := (t.mtb * 512, 16 * ceilDiv (tidK t) 128 * tidRows t)

/-- The bit of plane `p` of the element in row `r` and stored column `j`, of a stash read by `rd`. -/
def planeBit (rd : Nat → Byte) (t : Tid) (r j p : Nat) : Nat :=
  (rd (tileAddr t (r / 64) (j / 64) p + 8 * (r % 64) + j % 64 / 8)).toNat / 2 ^ (j % 8) % 2

/-- The W-bit encoding of an element from its first RPL planes, the rest of its bits 0 (R222). -/
def elemCode (rd : Nat → Byte) (t : Tid) (r j : Nat) : Nat :=
  ((List.range t.rpl).map fun p => planeBit rd t r j p * 2 ^ (tidW t - 1 - p)).sum

/-- R219: the value of a nested-integer element from its first k planes, whose bits are `code` with the rest 0. -/
def nestedValue (code k : Nat) : Int := sextNat 8 code + (if k = 8 then 0 else (2 ^ (7 - k) : Nat))

/-- R226: the products per chunk. -/
def chunkK (a b : Tid) : Nat :=
  match a.fmt.toNat with
  | 0 | 1 => 8
  | 2 | 3 => 4
  | 6 => 64 / max a.rpl b.rpl
  | _ => 1

/-- R226: whether the formats of A and B pair. -/
def fmtPair (a b : Tid) : Bool := (a.fmt.toNat ≤ 1 && b.fmt.toNat ≤ 1) || (a.fmt == b.fmt && a.fmt.toNat ≤ 6)

/-- R226: the accumulator of a format: 0 f32, 1 i32, 2 f64. -/
def accKind (a : Tid) : BitVec 2 := if a.fmt = 6 then 1 else if a.fmt = 5 then 2 else 0

/-- R222: the metadata nibble of a row and group. -/
def metaNibble (rd : Nat → Byte) (t : Tid) (r g : Nat) : Nat :=
  (rd ((metaRegion t).1 + 16 * ceilDiv (tidK t) 128 * r + g / 2)).toNat / 16 ^ (g % 2) % 16

/-- R228: the stored column that stands at logical column `k` of a row of A, none where the position is pruned. -/
def storedCol (rd : Nat → Byte) (t : Tid) (r k : Nat) : Option Nat :=
  if !t.sparse then some k else
  let g := k / 4
  let n := metaNibble rd t r g
  let (i0, i1) := (n % 4, n / 4)
  if i1 ≤ i0 then none else if k % 4 = i0 then some (2 * g) else if k % 4 = i1 then some (2 * g + 1) else none

/-- R228: whether some nibble of the first `rows` rows has i0 ≥ i1. -/
def metaBad (rd : Nat → Byte) (t : Tid) : Bool :=
  t.sparse && (List.range (tidRows t)).any fun r => (List.range (ceilDiv (tidK t) 4)).any fun g =>
    metaNibble rd t r g / 4 ≤ metaNibble rd t r g % 4

/-- R227: one float chunk. -/
def floatChunk (f : Fmt) (acc : Nat) (ps : List FVal) : Nat :=
  let bad := ps.any (fun v => v.isNan) || (ps.contains (.inf true) && ps.contains (.inf false))
  let s : FVal := if bad then .nan false else ps.foldl (fun x v => (fAddE 0 x v).1) (.fin false 0 0)
  (fAdd f 0 (fDecode f acc) s).1

/-- R227: one integer chunk, with whether it saturates. -/
def intChunk (acc : Int) (ps : List Int) : Int × Bool :=
  let x := acc + ps.sum
  let (y, fl) := satI x (intLo 32 false) (intHi 32 false)
  (y, fl ≠ 0)

/-- The columns of chunk `c` of Kc columns. -/
def chunkCols (k kc c : Nat) : List Nat := (List.range kc).map (c * kc + ·) |>.filter (· < k)

/-- R226 to R228: an element's accumulation over all of K, from the accumulator's bits: the new bits, and whether an integer
chunk saturated. Row `r` of A is read by `ra`, column `n` of B by `rb`. -/
def accumulate (ra rb : Nat → Byte) (a b : Tid) (r n acc : Nat) : Nat × Bool :=
  let kc := chunkK a b
  let chunks := List.range (ceilDiv (tidK a) kc)
  let cols (c : Nat) : List (Nat × Nat) := (chunkCols (tidK a) kc c).filterMap fun k => (storedCol ra a r k).map fun j => (j, k)
  if a.fmt = 6 then
    let prod (p : Nat × Nat) : Int := nestedValue (elemCode ra a r p.1) a.rpl * nestedValue (elemCode rb b n p.2) b.rpl
    let (x, sat) := chunks.foldl (fun (q : Int × Bool) c =>
      let (y, st) := intChunk q.1 ((cols c).map prod)
      (y, q.2 || st)) (sextNat 32 acc, false)
    ((x % 2 ^ 32).toNat, sat)
  else
    let f : Fmt := if a.fmt = 5 then fmtF64 else fmtF32
    let prod (p : Nat × Nat) : FVal :=
      (fMulE (fDecode (tidFmt a) (elemCode ra a r p.1)) (fDecode (tidFmt b) (elemCode rb b n p.2))).1
    (chunks.foldl (fun x c => floatChunk f x ((cols c).map prod)) acc, false)

/-! Quantisation (R224, R225). -/

/-- R224: qmax of a format as an f32. -/
def qmax (t : Tid) : Nat := if t.fmt = 6 then 0x42FE0000 else if t.fmt = 0 then 0x43E00000 else 0x47600000

/-- R224: the larger magnitude of two f32 codes; a NaN or an infinity stands for what is not finite. -/
def magMax (x y : Nat) : Nat := max (x % 2 ^ 31) (y % 2 ^ 31)

/-- R224: the scale of values whose largest magnitude is the f32 code M. -/
def scaleOf (t : Tid) (m : Nat) : Nat :=
  if m = 0 || 0x7F800000 ≤ m then 0x3F800000 else (fDiv fmtF32 0 (fDecode fmtF32 m) (fDecode fmtF32 (qmax t))).1

/-- R224: quant(x') with a scale, both f32 codes: the 8-bit code, and the flags that a vector instruction reports. For f8a an
infinite quotient counts as brought to ± 448 by overflow, with SAT alone (log 26). -/
def quant (t : Tid) (x sc : Nat) : BitVec 8 × Fl :=
  let xv := fDecode fmtF32 x
  let sv := fDecode fmtF32 sc
  let f := tidFmt t
  if xv.isNan then (BitVec.ofNat 8 (if t.fmt = 6 then 0 else f.nan), flSAT) else
  let zero : FVal → Bool := fun v => match v with | .fin _ m _ => m = 0 | _ => false
  let isInf : FVal → Bool := fun v => match v with | .inf _ => true | _ => false
  let neg : Bool := (2 ^ 31 ≤ x % 2 ^ 32) != (2 ^ 31 ≤ sc % 2 ^ 32)
  if sv.isNan || (zero xv && zero sv) || (isInf xv && isInf sv) then
    (if t.fmt = 6 then
        let q := Config.quantNan (BitVec.ofNat 32 x) (BitVec.ofNat 32 sc)
        if q = 0x80 then 0 else q
      else BitVec.ofNat 8 f.nan, 0)
  else if isInf xv || zero sv then
    if t.fmt = 6 then (BitVec.ofInt 8 (if neg then -127 else 127), flSAT)
    else if t.fmt = 0 then (BitVec.ofNat 8 ((if neg then f.sign else 0) + f.maxCode), flSAT)
    else (BitVec.ofNat 8 ((if neg then f.sign else 0) + f.infCode), 0)
  else
    match xv, sv with
    | .fin n m e, .fin k p d =>
      if t.fmt = 6 then
        let (y, fl) := satI (roundInt 0 (n != k) m p (e - d)).1 (-127) 127
        (BitVec.ofInt 8 y, fl)
      else
        let (y, fl) := roundRat f 0 (n != k) m p (e - d)
        (BitVec.ofNat 8 y, fl ||| (if t.fmt = 0 && fl &&& flOF != 0 then flSAT else 0))
    | _, _ => (BitVec.ofNat 8 (if neg then f.sign else 0), 0)

/-- R225, R349: the scaled read-out of an accumulator: exact product, one rounding; NV only for a signalling NaN. -/
def readOut (x : Nat) (isInt : Bool) (sc sm : Nat) : Nat × Fl :=
  let acc : FVal := if isInt then .fin (sextNat 32 x < 0) (sextNat 32 x).natAbs 0 else fDecode fmtF32 x
  let s := fDecode fmtF32 sc
  let m := fDecode fmtF32 sm
  let (y, fl) := fEncode fmtF32 0 (fMulE (fMulE acc s).1 m).1
  (y, fl ||| sigFlag [acc, s, m])

/-- R349: what `vqnt` gives a thread from its words x and index, a scale and a smoothing value. -/
def quantThread (t : Tid) (x idx : Word) (sc sm : Nat) : Word × Fl :=
  if t.fmt = 4 then
    let (y, fl) := readOut x.toNat (idx.getLsbD 31) sc sm
    (BitVec.ofNat 32 y, fl)
  else
    let x' := if t.smv then (fDiv fmtF32 0 (fDecode fmtF32 x.toNat) (fDecode fmtF32 sm)).1 else x.toNat
    let (y, fl) := quant t x' sc
    (if t.fmt = 6 then BitVec.signExtend 32 y else BitVec.zeroExtend 32 y, fl)

/-- The values of all threads of a `vqnt` from the words that it read: the scale of thread t under t, its smoothing value under
32 + t. -/
def quantAll (t : Tid) (xs : List (Nat × Word × Word)) (got : List (Nat × DWord)) : List (Nat × DWord) × Fl :=
  let at_ (k : Nat) : Nat := ((got.find? fun p => p.1 == k).map fun p => p.2.toNat % 2 ^ 32).getD 0x3F800000
  let done := xs.filter fun x => got.any (fun p => p.1 == x.1 || p.1 == 32 + x.1) || (!t.scv && !t.smv)
  let rs := done.map fun x => (x.1, quantThread t x.2.1 x.2.2 (at_ x.1) (at_ (32 + x.1)))
  (rs.map fun r => (r.1, BitVec.zeroExtend 64 r.2.1), rs.foldl (fun fl r => fl ||| r.2.2) 0)

end Sys2Proof.Machine
end

