-- ==== Sys2Proof/Machine/Pipe.lean ====
section
/-!
DEFINITION. The memory pipeline of a core (R89, R91, R98 to R117): what orders the outstanding operations of a group, the
dirty-address FIFO, the values that a load samples, and the writing of results.
-/
namespace Sys2Proof.Machine

/-! Pieces. -/

/-- The places that a piece reaches: (space, byte), with the global bytes that mapped stash bytes stand for. -/
def spots (p : Piece) : List (Nat × Nat) :=
  (List.range p.size).map (fun i => (p.space, p.place + i)) ++ p.bound.filterMap fun b => b.map fun a => (0, a)

/-- The lines that a piece reaches. -/
def spotLines (p : Piece) : List (Nat × Nat) := ((spots p).map fun x => (x.1, x.2 / 128)).dedup

def meets (p q : Piece) : Bool := (spots p).any fun x => (spots q).contains x
def sharesLine (a b : Op) : Bool :=
  a.pieces.any fun p => b.pieces.any fun q => (spotLines p).any fun x => (spotLines q).contains x

/-- The first byte of the words that a stash piece touches. -/
def wordBase (p : Piece) : Nat := p.place / 4 * 4

/-- The byte that a store's piece gives a place, none where it writes none. -/
def pieceByte (p : Piece) (space place : Nat) : Option Byte :=
  let at_ (b : Nat) : Option Byte :=
    if p.place ≤ b && b < p.place + p.size then some (BitVec.ofNat 8 (p.val.toNat / 2 ^ (8 * (b - p.place)))) else none
  if p.space = space then at_ place
  else if space = 0 && p.space = 1 then
    (p.bound.zipIdx.find? fun q => q.1 == some place).bind fun q => at_ (wordBase p + q.2)
  else none

/-- Accesses to unmapped stash words and barrier words (R103). -/
def inBank (o : Op) : Bool := isBarrier o.kind || o.pieces.any fun p => p.space == 1 && p.bound.isEmpty

/-- Whether a later load of the same group may take its bytes from this store before it is performed (R89, R103). -/
def forwards (o : Op) : Bool := isStore o.kind && o.pieces.all fun p => p.space ≤ 1 && p.mode == 0

/-- The words of its line that a piece reaches. -/
def pieceMask (p : Piece) : Word := maskOf ((wordsOf p).map fun w => w % 32)
def piecesMask (ps : List Piece) : Word := ps.foldl (fun m p => m ||| pieceMask p) 0

/-- The pieces of a list by their lines. -/
def byLine (ps : List Piece) : List (Nat × List Piece) :=
  ((ps.map fun p => p.place / 128).dedup).map fun l => (l, ps.filter fun p => p.place / 128 == l)

/-- R98, R115: a line-whole access, in device memory, in the stash or in host memory. -/
def lineWhole (o : Op) : Bool :=
  o.lineExt && o.pieces.length = 32 && (o.pieces.all fun p => p.size == 4 && p.space != 2) &&
    (o.pieces.map fun p => p.space).dedup.length = 1 && piecesMask o.pieces == 0xFFFFFFFF && (byLine o.pieces).length = 1

/-- Whether a request brings its unit words that it stores (R18, R89). -/
def bringsWords (q : Req) : Bool :=
  match q.kind with
  | .own => true
  | .capWrite _ => q.mode == 0 && q.unit != 3
  | _ => false

/-- R89: the request of a group by which all words of a mask are pending at a unit, into which a group's later store merges: none on a line
that another group has locked, and none that waits behind a lock (R144). -/
def pendingOwn (s : State) (uid pair unit line : Nat) (mask : Word) (gen : BitVec 8) : Option Nat :=
  let fits (p : Nat × Req) : Bool := bringsWords p.2 && isGroupReq p.2 && p.2.line == line && reqPair p.2 == pair &&
    p.2.unit.toNat == unit && p.2.gen == gen && mask &&& ~~~reqMask p.2 == 0 && !(lockAt s line).writes.contains p.1 &&
    !(s.reqs.any fun r => r.2.merged.contains p.1)
  if lockedBy s line (some uid) then none else (s.reqs.find? fits).map fun p => p.1

/-- The words of a line that the bytes of a mapped piece are bound to. -/
def boundMask (bound : List (Option Nat)) (line : Nat) : Word :=
  maskOf (bound.filterMap fun b => b.bind fun a => if a / 128 = line then some (a / 4 % 32) else none)

/-- The words for which a piece of a store asks at a line: those of the whole store where it is line-whole (R115). -/
def askedMask (o : Op) (p : Piece) (line : Nat) : Word :=
  (if lineWhole o then o.pieces else [p]).foldl (fun m q => m ||| if q.space = 1 then boundMask q.bound line else pieceMask q) 0

/-- R83, R84: whether a store of an instruction goes past its pair's cache to the home: its policy says so for a piece of its line, or the
cache takes no such line. -/
def passesCache (s : State) (core line : Nat) (ps : List Piece) : Bool :=
  (s.part != .sw2p && ps.any fun p => p.mbf.toNat % 4 == 3) ||
    (pairTouch s (pairOf core) line ((ps.head?.map fun p => p.mbf).getD 0)).isNone

/-- R89: whether every word of a piece of a store is pending at the unit that stores it, in one request for each line. -/
def allPending (s : State) (g : Group) (o : Op) (p : Piece) : Bool :=
  let at_ (unit line : Nat) (gen : BitVec 8) : Bool :=
    (pendingOwn s g.uid (pairOf g.core) unit line (askedMask o p line) gen).isSome
  if p.space = 0 then p.mode == 0 && at_ 0 (p.place / 128) p.gen &&
    !passesCache s g.core (p.place / 128) (o.pieces.filter fun q => q.space == 0 && q.place / 128 == p.place / 128)
  else p.space == 1 && p.mode == 0 && !p.bound.isEmpty && p.lines.all fun x => at_ (1 + g.core % 2) x.line x.gen

/-- Whether an operation stores to words of which a unit takes ownership. -/
def storesWords (o : Op) : Bool :=
  (match o.kind with | .store | .capStore _ => true | _ => false) && o.pieces.all fun p => p.space ≤ 1 && p.mode == 0

/-- R89: whether a store merges into the pending store of the same group that it meets. A piece of which only some words are pending takes
them all in one request of its own, which R98 has be performed whole, and follows the earlier store (log 94). -/
def mergesInto (s : State) (g : Group) (a b : Op) : Bool :=
  storesWords a && storesWords b &&
    b.pieces.all fun p => !(a.pieces.any fun q => meets q p) || allPending s g b p

/-! Order (R103 to R117). -/

/-- R102: whether an operation precedes another one in program order. -/
def opBefore (a b : Op) : Bool := a.seq < b.seq || (a.seq == b.seq && a.id < b.id)

/-- R103, same location. A line lock is a location of its own. -/
def conflicts (a b : Op) : Bool :=
  if isLockOp a.kind || isLockOp b.kind then isLockOp a.kind && isLockOp b.kind && sharesLine a b
  else (a.pieces.any fun p => b.pieces.any fun q => meets p q) && !(forwards a && isLoad b.kind)

/-- R113: whether a fence of kind `k` orders an access before it and one after it. -/
def fenceOrders (k : BitVec 2) (a b : OpKind) : Bool :=
  match k.toNat with
  | 0 => opWrites b
  | 1 => opReads a
  | 2 => opReads a || opWrites b
  | _ => true

/-- R113, R117: a fence or an `ntdrain` between two accesses that orders them. -/
def cutBetween (ops : List Op) (a b : Op) : Bool :=
  ops.any fun f => opBefore a f && opBefore f b && a.pre.getLsbD f.entry && f.pre.getLsbD b.entry &&
    match f.kind with
    | .fence k => !isNt a.kind && !isNt b.kind && fenceOrders k a.kind b.kind
    | .ntdrain => isNt a.kind
    | _ => false

/-- The scope of a qualifier beyond grp (R106). -/
def beyondGrp (x : Option (BitVec 3)) : Bool := x.any fun c => c != 0

/-- R102 to R118: whether an outstanding operation holds a later one of the same group back. `merges` says which stores merge into a
pending one (R89). -/
def blocks (merges : Op → Op → Bool) (ops : List Op) (a b : Op) : Bool :=
  opBefore a b && a.pre.getLsbD b.entry && !isFence a.kind && !isFence b.kind &&
  ((conflicts a b && !merges a b) ||
    (beyondGrp a.acq && !isNt b.kind && (!a.lineExt || sharesLine a b)) ||
    (beyondGrp b.rel && !isNt a.kind && !isEngine a.kind && (!b.lineExt || sharesLine a b)) ||
    (inBank a && inBank b) || (isEngine b.kind && !isEngine a.kind) || cutBetween ops a b)

/-- R113: a `fence.sc` of scope die or wider holds later reads until the group's earlier FIFO entries have retired. -/
def scHolds (g : Group) (fifo : List FifoEnt) (b : Op) : Bool :=
  opReads b.kind && g.ops.any fun f => f.kind == .fence 3 && f.acq.any (fun c => 3 ≤ c.toNat) && opBefore f b &&
    f.pre.getLsbD b.entry && fifo.any fun e => e.uid == g.uid && e.op < f.id

/-- The core whose FIFO holds entries of an operation: the group's, unless a restore has moved the group since (R130). -/
def fifoCore (s : State) (core uid op : Nat) : Nat :=
  ((s.cores.find? fun p => p.2.fifo.any fun e => e.uid == uid && e.op == op).map fun p => p.1).getD core

/-- R123: whether a byte of a core's stash lies in an operand range of a command that another group issued. -/
def rangeHeld (s : State) (core uid : Nat) (p : Piece) : Bool :=
  p.space == 1 && (getC s core).ranges.any fun r => p.place < r.base + r.len && r.base < p.place + p.size &&
    ((ffind s.cmds r.cmd).any fun c => c.uid != uid)

/-- Whether unfinished threads of an instruction that precedes an operation in program order are still to be performed: its fragment
is in the user handler, or about to execute it again. -/
def unfinishedBefore (g : Group) (b : Op) : Bool :=
  (List.range 8).any fun k => b.pre.getLsbD k && (getF g k).redoAt.any fun p =>
    p.2 < b.seq && (g.handler == some k || (getF g k).pc == p.1)

/-- R102, R103: whether a piece meets an access of the unfinished threads of an instruction that precedes an operation. -/
def meetsUnfinished (g : Group) (b : Op) : Bool :=
  (List.range 8).any fun k => b.pre.getLsbD k && (getF g k).redoSpots.any fun u =>
    ((getF g k).redoAt.any fun p => p.1 == u.1) && b.pieces.any fun p =>
      (if u.2.1 = 1 then p.space == 1 else p.space != 1 && p.space != 2) && p.shown < u.2.2.1 + u.2.2.2 && u.2.2.1 < p.shown + p.size

/-- R102, R103, R108, R113, R118: whether an operation of the user handler waits for the unfinished threads of the instruction whose fault
the handler serves: a release, an engine command, an access to their bytes, and what follows a fence (log 75). -/
def replayAhead (g : Group) (b : Op) : Bool :=
  ((beyondGrp b.rel || isEngine b.kind || meetsUnfinished g b) && unfinishedBefore g b) ||
    g.ops.any fun f => isFence f.kind && unfinishedBefore g f && opBefore f b && f.pre.getLsbD b.entry

/-- Whether an ordering rule holds an operation back (R105). An engine command waits for the group's FIFO entries (R118), a write for
the operand ranges of other groups' matrix operations (R123). -/
def opBlocked (s : State) (g : Group) (b : Op) : Bool :=
  let fifo := (getC s g.core).fifo
  (g.ops.any fun a => blocks (mergesInto s g) g.ops a b) || scHolds g fifo b || replayAhead g b ||
    (isEngine b.kind && fifo.any fun e => e.uid == g.uid && e.op < b.id) ||
    (opWrites b.kind && b.pieces.any (rangeHeld s g.core g.uid))

/-! The dirty-address FIFO (R91). -/

/-- The line numbers that a piece's FIFO entries name; lines of host memory are told apart by 2^50, lines of the stash of which no byte
of the piece is bound by 2^51. -/
def fifoKeys (p : Piece) : List Nat :=
  match p.space with
  | 1 =>
    let ls := (p.bound.filterMap fun b => b.map fun a => a / 128).dedup
    if ls.isEmpty then [2 ^ 51 + p.place / 128] else ls
  | 3 => [2 ^ 50 + p.place / 128]
  | _ => [p.place / 128]

/-- The FIFO entries of an operation: one for each distinct line. A store to stash words that nothing maps is not acknowledged, and takes
none; an atomic there takes one (R91, R135). -/
def fifoLines (o : Op) : List Nat :=
  match o.kind with
  | .atomic _ _ | .rowAtomic _ => (o.pieces.flatMap fifoKeys).dedup
  | .store | .capStore _ => ((o.pieces.flatMap fifoKeys).filter fun l => l < 2 ^ 51).dedup
  | _ => []

/-- R91: entries retire from the head only; a marker leaves when its release is sent. -/
def retire (s : State) (core : Nat) : State :=
  modC s core fun c => { c with fifo := c.fifo.dropWhile fun e => e.acked && !e.marker }

/-- R91: an entry is acknowledged. -/
def ackFifo (s : State) (core0 uid op line : Nat) : State :=
  let core := fifoCore s core0 uid op
  retire (modC s core fun c => { c with fifo := c.fifo.map fun e =>
    if e.uid == uid && e.op == op && e.line == line && !e.marker then { e with acked := true } else e }) core

/-- The entries of an operation that are left over: it is performed. -/
def ackAll (s : State) (core0 uid op : Nat) : State :=
  let core := fifoCore s core0 uid op
  retire (modC s core fun c => { c with fifo := c.fifo.map fun e =>
    if e.uid == uid && e.op == op && !e.marker then { e with acked := true } else e }) core

/-- The marker of a release leaves. -/
def dropMarker (s : State) (core0 uid op : Nat) : State :=
  let core := fifoCore s core0 uid op
  retire (modC s core fun c => { c with fifo := c.fifo.filter fun e => !(e.marker && e.uid == uid && e.op == op) }) core

/-- R91: room for entries, without which the instruction is not issued. -/
def fifoRoom (s : State) (n : Nat) : X Unit :=
  if (getC s (curG s).core).fifo.length + n ≤ 256 then .ok () else .error (.hold 9)

/-- R91, R108, R424: whether the marker of a release lets it be sent: a release waits for the head, one of `.line` extent for
the older entries of its line, a barrier arrival or a ring publication for the group's older entries. -/
def markerClear (s : State) (g : Group) (o : Op) : Bool :=
  let fifo := (getC s (fifoCore s g.core g.uid o.id)).fifo
  let older := fifo.takeWhile fun e => !(e.marker && e.uid == g.uid && e.op == o.id)
  if o.lineExt then
    let mine := o.pieces.flatMap fifoKeys
    older.all fun e => e.marker || !mine.contains e.line
  else match o.kind with
    | .barrier _ _ | .ringPublish _ _ _ => older.all fun e => e.uid != g.uid
    | _ => older.isEmpty

/-- Whether an operation waits for a release marker. -/
def isRelease (o : Op) : Bool := beyondGrp o.rel

/-- The event that sends a held operation, when nothing holds it back any more. -/
def sendEvent (s : State) (g : Group) (o : Op) : Option Event :=
  if !o.held || opBlocked s g o || isFence o.kind then none
  else if !isRelease o then some (.heldAccessRelease g.uid o.id)
  else if !markerClear s g o then none
  else match o.kind with
    | .barrier _ _ => some (.barrierHeldArrival g.uid o.id)
    | .ringPublish _ _ _ => some (.ringPublishEffect g.uid o.id)
    | _ => if o.lineExt then some (.heldAccessRelease g.uid o.id) else some (.releaseMarkerHead (fifoCore s g.core g.uid o.id))

/-- R113, R117: a fence whose earlier accesses have all been performed is dropped. -/
def fenceDone (s : State) (g : Group) (f : Op) : Bool :=
  let before (a : Op) : Bool := opBefore a f && a.pre.getLsbD f.entry && !isFence a.kind
  !unfinishedBefore g f && match f.kind with
  | .fence k => !(g.ops.any fun a => before a && !isNt a.kind) &&
      !(k == 3 && f.acq.any (fun c => 3 ≤ c.toNat) && (getC s g.core).fifo.any fun e => e.uid == g.uid && e.op < f.id)
  | .ntdrain => !(g.ops.any fun a => before a && isNt a.kind)
  | _ => false

/-! Tracing of asynchronous operations (R387). -/

/-- The destination as ARG of COND 0 codes it (R192). -/
def destCode (d : Dest) : BitVec 7 :=
  match d with
  | .vec r | .pair r => BitVec.zeroExtend 7 r
  | .scalar r => BitVec.zeroExtend 7 r + 64
  | _ => 0

def traceKind (k : OpKind) : Option (BitVec 4) :=
  match k with
  | .load _ | .capLoad _ | .lockStat => some 0
  | .atomic _ true | .rowAtomic true => some 1
  | .lockAcq _ _ => some 2
  | .monitorWait _ _ => some 3
  | _ => none

/-! Watchpoints (R388). -/

/-- R388: an access to the stash words of a piece is watched. -/
def watchPiece (s : State) (core : Nat) (ctx : BitVec 12) (kind : BitVec 3) (p : Piece) : State :=
  if p.space ≠ 1 then s else (wordsOf p).foldl (fun s w => watchWord s core ctx (kind, core) w) s

/-! Results. -/

/-- R300, R259: the value that a width code gives from the bytes read: 0 to 5 a vector width, 8 to 14 a scalar one. -/
def extW (w : Nat) (x : DWord) : DWord :=
  let sx (n m : Nat) : DWord := BitVec.zeroExtend 64 (BitVec.signExtend m (BitVec.truncate n x))
  match w with
  | 0 => sx 8 32 | 1 | 9 => BitVec.zeroExtend 64 (BitVec.truncate 8 x) | 2 => sx 16 32
  | 3 | 11 => BitVec.zeroExtend 64 (BitVec.truncate 16 x) | 4 | 13 => BitVec.zeroExtend 64 (BitVec.truncate 32 x)
  | 8 => sx 8 64 | 10 => sx 16 64 | 12 => sx 32 64
  | _ => x

/-- R316: the value that a result writes: a 32-bit old value of a signed operation is sign-extended into a scalar. -/
def resExt (o : Op) (x : DWord) : DWord :=
  match o.kind, o.dst with
  | .load w, _ => extW w x
  | .atomic (.smin 4) _, .scalar _ | .atomic (.smax 4) _, .scalar _ => extW 12 x
  | _, _ => x

def lookupT (l : List (Nat × DWord)) (t : Nat) : Option DWord := (l.find? fun p => p.1 == t).map fun p => p.2

/-- The results of threads merged into a vector name. -/
def mergeGot (old : VVal) (o : Op) (h : DWord → Word) : VVal :=
  if o.uniform then mergeV old o.mask (.u (h (resExt o ((lookupT o.got 0).getD 0)))) else
  .g ((List.range 32).map fun t => match lookupT o.got t with
    | some v => h (resExt o v)
    | none => vAt old t)

/-- The capability that three results give: the low and the high half and the tag. -/
def gotCap (o : Op) : Cap :=
  capOfBits (((lookupT o.got 0).getD 0).toNat + 2 ^ 64 * ((lookupT o.got 1).getD 0).toNat) ((lookupT o.got 2).getD 0 != 0)

/-- An operation's results written to its destination (R193: in the lane, or in the record). -/
def writeGot (g : Group) (o : Op) : Group :=
  if o.got.isEmpty then g else
  match o.dst with
  | .none => g
  | .vec r => putV g r.toNat (mergeGot (vReg g r.toNat) o lo32)
  | .pair r =>
    putV (putV g r.toNat (mergeGot (vReg g r.toNat) o lo32)) (r.toNat + 1) (mergeGot (vReg g (r.toNat + 1)) o hi32)
  | .scalar r => sPut g r (resExt o ((lookupT o.got 0).getD 0))
  | .capreg r => cPut g r (gotCap o)

/-- The empty bit or bits of a destination. -/
def setEmpty (g : Group) (d : Dest) (e : Bool) : Group :=
  match d with
  | .none => g
  | .vec r => { g with vEmpty := withBit g.vEmpty r.toNat e }
  | .pair r => { g with vEmpty := withBit (withBit g.vEmpty r.toNat e) (r.toNat + 1) e }
  | .scalar r => if e then sMakeEmpty g r else { g with sEmpty := withBit g.sEmpty r.toNat false }
  | .capreg r => { g with cEmpty := withBit g.cEmpty r.toNat e }

/-- The results of an operation as they go to its destination, with the flags that they set: those of a `vqnt` are made from the
words that it read (R349). -/
def settleGot (o : Op) : Op × Fl :=
  match o.kind with
  | .quant t xs =>
    let (got, fl) := quantAll t xs o.got
    ({ o with got }, fl)
  | _ => (o, 0)

/-- R369: the deferred cause of a host atomic that the completer refused for some threads, once every thread has returned. -/
def tellRefused (s : State) (g : Group) (o : Op) : State :=
  if o.refused = 0 then s else
  let a := ((o.pieces.find? fun p => o.refused.getLsbD p.thread).map fun p => p.shown).getD 0
  raiseDeferred s g.uid { cause := .xltHostatom, xf0 := 0, xf1 := BitVec.ofNat 64 a, xf2 := BitVec.zeroExtend 64 o.refused }
    { faultRecG s g .xltHostatom true with addr := a, arg := o.refused }

/-- An operation is over: its results are in place, and its destination is no longer empty, unless unfinished threads
remain (R49) or another part of the same instruction has yet to return. -/
def finishOp (s : State) (uid id : Nat) : State :=
  let g := getG s uid
  match opOf g id with
  | none => s
  | some o0 =>
    let (o, fl) := settleGot o0
    let s := if fl = 0 || g.task = 0 then s else modT s g.task fun t => { t with fflags := t.fflags ||| fl }
    let g1 := writeGot g o
    let busy := o.keep || g.ops.any fun p => p.id != id && p.dst == o.dst && o.dst != .none
    let g2 := dropOp (setEmpty g1 o.dst busy) id
    let g2 := if o.dst == .none then dropOp g1 id else g2
    tellRefused (traceDone (setG s uid g2) g.core id) g2 o

/-- An operation with nothing left to wait for is over. -/
def settleOp (s : State) (uid id : Nat) : State :=
  match opOf (getG s uid) id with
  | some o => if !o.held && o.left == 0 && o.swait.isEmpty then finishOp s uid id else s
  | none => s

/-- A request's answer to its group: the results, and one answer fewer to wait for. -/
def answer (s : State) (rq : Nat) (res : List (Nat × DWord)) : State :=
  let q := getR s rq
  let s1 := delR s rq
  match q.agent with
  | .group uid op =>
    let s2 := setG s1 uid (modOp (getG s1 uid) op fun o => { o with got := o.got ++ res, left := o.left - 1 })
    settleOp s2 uid op
  | _ => s1

/-! Monitors (R155) as stores and atomics reach them. -/

/-- A monitor entry is removed and its request answered with a status. -/
def monitorReply (s : State) (m : Monitor) (code : Nat) : State :=
  answer (modH s fun h => { h with mons := h.mons.filter fun x => x.id != m.id }) m.rq [(0, BitVec.ofNat 64 code)]

/-- R155: a signalling write wakes every entry on a word, in the order in which the entries were made. -/
def wakeMonitors (s : State) (gw : Nat) : State :=
  (s.homes.mons.filter fun m => m.word == gw).foldl (fun s m => monitorReply s m 0) s

/-- A signalling write to the global words of a piece. -/
def signal (s : State) (sig : Bool) (p : Piece) : State :=
  if !sig then s else
  (((spots p).filter fun x => x.1 == 0).map fun x => x.2 / 4).dedup.foldl wakeMonitors s

/-! Stash words (R61, R64, R69 to R71). -/

/-- R64: the global address of the field byte at a stash byte of an entry, none for a pad byte. -/
def fieldSrc (c : Core) (e : MapEntry) (b : Nat) : Option Nat :=
  let off := b - e.sbase * 128
  let i := off / e.flen
  if e.count ≤ i then none else
  let x := if e.gath then readLe c.stash (4 * e.idx + 4 * i) 4 else i
  some (e.cap.addr.toNat + x * e.stride + e.foff + off % e.flen)

/-- R75: whether the element that a stash byte of a gather entry belongs to lies in the capability's bounds. -/
def elementOk (c : Core) (e : MapEntry) (b : Nat) : Bool :=
  if !e.gath then true else
  let off := b - e.sbase * 128
  match fieldSrc c e (b - off % e.flen), capDecode e.cap with
  | some a, some (lo, hi) => lo ≤ a && a + e.flen ≤ hi
  | none, _ => true
  | _, none => false

/-- The global addresses of the bytes of a stash word of an entry. -/
def wordSrc (c : Core) (e : MapEntry) (k : Nat) : List (Option Nat) :=
  (List.range 4).map fun j => if elementOk c e (4 * k + j) then fieldSrc c e (4 * k + j) else none

/-- R70: the physical byte that each byte of a stash word stands for, with the leaf of its page; the fault of the first field
byte that does not translate is named by the word's first field byte (R411). -/
def bindWord (s : State) (core : Nat) (e : MapEntry) (a : Acc) (k : Nat) :
    Except (Cause × Nat) (List (Option (Nat × Leaf))) :=
  let src := wordSrc (getC s core) e k
  let first := (src.findSome? id).getD 0
  src.mapM fun x => match x with
    | none => .ok none
    | some va => match xlateCore s core e.ctx a va with
      | .ok l => .ok (some (leafPa l va, l))
      | .error c => .error (c, first)

/-- The state of a stash word of a core: a copy whose lease has ended is I (R74). -/
def swordAt (s : State) (core k : Nat) : SWord :=
  let w := fget SWord.zero (getC s core).swords k
  if !w.d && w.rts.any (fun r => !tsLe (getC s core).pts r) then { w with v := false } else w

/-- R74, R96: the words that a thread reads from a stash copy under a lease are counted. -/
def countStash (s : State) (core : Nat) (p : Piece) : State :=
  (wordsOf p).foldl (fun s k =>
    let w := swordAt s core k
    if p.space == 1 && w.v && w.rts.isSome then
      setSWord s core k { w with cnt := BitVec.ofNat 16 (min 0xFFFF (w.cnt.toNat + 1)) } else s) s

/-- Whether a stash byte lies in a mapping entry's range (R66). -/
def mappedAt (s : State) (core : Nat) (ctx : BitVec 12) (b : Nat) : Bool := (entryAt (getC s core) ctx b).isSome

/-- R61: whether a stash word may be read at once. -/
def wordReady (s : State) (core : Nat) (ctx : BitVec 12) (k : Nat) : Bool :=
  (swordAt s core k).v || !mappedAt s core ctx (4 * k)

/-- Bytes written to a stash, with the tags of their granules cleared (R17). -/
def stashWrite (s : State) (core place : Nat) (bs : List Byte) : State :=
  modC s core fun c => { c with
    stash := fsetN 0 c.stash place bs,
    stags := (List.range (ceilDiv (place % 16 + bs.length) 16)).foldl (fun m k => fset false m (place / 16 + k) false) c.stags }

/-- Whether a unit owns the global words of the bound bytes. -/
def ownsBound (s : State) (pair unit : Nat) (bound : List (Option Nat)) : Bool :=
  bound.all fun b => b.all fun a => (ownerOf (dirAt s (a / 128)) (a / 4 % 32)).any fun o =>
    o.pair.toNat == pair && o.unit.toNat == unit

/-- R20: whether an entry's fields copy tags: its fields are whole granules of global memory. -/
def keepsTags (e : MapEntry) : Bool :=
  e.stride == e.flen && e.flen % 16 == 0 && (e.cap.addr.toNat + e.foff) % 16 == 0

/-- Whether a piece covers a whole stash word. -/
def coversWord (p : Piece) (k : Nat) : Bool := p.place ≤ 4 * k && 4 * k + 4 ≤ p.place + p.size

/-- R35, R69: the rights that an access of an I word of a mapped entry needs: those of its fill for a read, those of a write-back for a
store, which takes the fill too where it covers part of the word. Atomics are performed at the home (R135). -/
def stashAcc (a : Acc) (p : Piece) (k : Nat) : Acc :=
  match a with
  | .load => .fill
  | .store => if coversWord p k then .stashStore else .stashMerge
  | .atomic f => .rowAtomic f
  | a => a

/-- What is known of the lines of a valid stash word: its frames have kept their generation (R45). -/
def wordLines (s : State) (w : SWord) : List LineInfo :=
  ((w.bound.filterMap fun b => b.map fun a => a / 128).dedup).map fun l =>
    { line := l, gen := genOf s (128 * l), mode := if w.wtss.any fun x => x.1 == l then 1 else 0,
      mbf := ((w.mbfs.find? fun x => x.1 == l).map fun x => x.2).getD 0 }

/-- What a translation says of the lines of a word's bytes. -/
def leafLines (b : List (Option (Nat × Leaf))) : List LineInfo :=
  b.filterMap fun x => x.map fun y => { line := y.1 / 128, gen := y.2.gen, mode := y.2.mode, mbf := y.2.mbf }

/-- One entry for each line. -/
def oneEach (l : List LineInfo) : List LineInfo := l.foldl (fun m x => if m.any fun y => y.line == x.line then m else m ++ [x]) []

/-- R70, R71: a stash piece as its entry binds it: a valid word keeps its binding, an I word is translated. The generation that it
carries is that of its first line; `mode` is 1 where it reaches a lease-mode line. -/
def bindPiece (s : State) (core : Nat) (ctx : BitVec 12) (a : Acc) (p : Piece) : Except (Cause × Nat) Piece :=
  match entryAt (getC s core) ctx p.place with
  | none => .ok { p with bound := [], lines := [], mode := 0, keeps := false }
  | some (_, e) =>
    let one (k : Nat) : Except (Cause × Nat) (List (Option Nat) × List LineInfo × Bool) :=
      let w := swordAt s core k
      if w.v then .ok (w.bound, wordLines s w, w.keeps) else
      (bindWord s core e (stashAcc a p k) k).map fun b => (b.map fun x => x.map fun y => y.1, leafLines b,
        keepsTags e && (b.findSome? id).any fun x => x.2.tags)
    ((wordsOf p).mapM one).map fun l =>
      let lines := oneEach (l.flatMap fun x => x.2.1)
      { p with
        bound := l.flatMap fun x => x.1, lines, keeps := l.all fun x => x.2.2,
        gen := (lines.head?.map fun x => x.gen).getD 0, mode := if lines.any fun x => x.mode == 1 then 1 else 0,
        mbf := (lines.head?.map fun x => x.mbf).getD 0 }

/-- R35: the rights that a store to a C word, or an atomic on a valid word, needs of its pages: those of its write-back, or its own. A D word
has been stored to under them (log 95). -/
def validRights (s : State) (core : Nat) (ctx : BitVec 12) (a : Acc) (p : Piece) : Except (Cause × Nat) Unit :=
  match entryAt (getC s core) ctx p.place with
  | none => .ok ()
  | some (_, e) =>
    ((wordsOf p).filterMap fun k =>
      let w := swordAt s core k
      match a with
      | .store => if w.v && !w.d then some (k, Acc.stashStore) else none
      | .atomic f | .rowAtomic f => if w.v then some (k, Acc.rowAtomic f) else none
      | _ => none).forM fun x => (bindWord s core e x.2 x.1).map fun _ => ()

/-- R74, R96: the renewal check of a stash copy: its count is added to LSTALE when the WTS of a line of it differs. -/
def stashCheck (s : State) (core k : Nat) : State :=
  let w := fget SWord.zero (getC s core).swords k
  if w.cnt = 0 then s else
  let stale := w.wtss.any fun x => !((dirAt s x.1).lmode && (dirAt s x.1).wts == x.2)
  let s1 := setSWord s core k { w with cnt := 0 }
  if stale then addStale s1 core w.cnt else s1

/-- R94: the bytes of a stash word that stand for a lease-mode line as the home left them with a write. -/
def leaseBytes (s : State) (core k : Nat) (bound : List (Option Nat)) (x : LineInfo) : State :=
  let byteOf (a : Nat) : Option Byte := if a / 128 ≠ x.line then none else
    (ffind x.data (a / 4 % 32)).map fun w => BitVec.ofNat 8 (w.toNat / 2 ^ (8 * (a % 4)))
  let put (m : FMap Byte) (b : Option Nat × Nat) : FMap Byte := match b.1.bind byteOf with
    | some v => fset 0 m (4 * k + b.2) v
    | none => m
  modC s core fun c => { c with stash := bound.zipIdx.foldl put c.stash }

/-- R69, R71, R74: the words of a mapped piece take the bytes of a store at its acknowledgement: they become D where the stash owns
them, and copies of the version that the write made on a lease-mode line, under its timestamp (log 23). -/
def storeMapped (s : State) (core : Nat) (p : Piece) (bs : List Byte) : State :=
  let base := wordBase p
  let s1 := (wordsOf p).foldl (fun s k =>
    let bound := (p.bound.drop (4 * k - base)).take 4
    let mine := (bound.filterMap fun b => b.map fun a => a / 128).dedup
    let info := p.lines.filter fun x => mine.contains x.line
    let lease := info.filter fun x => x.mode == 1
    let dir := info.filter fun x => x.mode != 1
    let s := stashCheck s core k
    let s := dir.foldl (fun s x => dropSharers s x.line (boundMask bound x.line) (pairOf core) (1 + core % 2) (2, core)) s
    let s := lease.foldl (fun s x => leaseBytes s core k bound x) s
    let wts := lease.filterMap fun x => x.w.map fun w => (x.line, w)
    let rts := wts.foldl (fun (r : Option (BitVec 16)) x => match r with
      | some y => some (if tsBefore x.2 y then x.2 else y)
      | none => some x.2) none
    setSWord s core k { v := true, d := lease.isEmpty || !dir.isEmpty, bound, rts, wtss := wts, cnt := 0, keeps := p.keeps,
                        mbfs := info.map fun x => (x.line, x.mbf) }) s
  stashWrite s1 core p.place bs

/-! Sampling (R89, R98, R103). -/

/-- The byte that the group's latest earlier store not yet performed gives a place. -/
def ownByte (g : Group) (o : Op) (places : List (Nat × Nat)) : Option Byte :=
  (g.ops.reverse.filter fun a => opBefore a o && a.pre.getLsbD o.entry && forwards a).findSome? fun a =>
    a.pieces.reverse.findSome? fun q => places.findSome? fun x => pieceByte q x.1 x.2

/-- The places by which byte `i` of a piece is known. -/
def placesAt (p : Piece) (i : Nat) : List (Nat × Nat) :=
  (p.space, p.place + i) :: match p.bound[p.place % 4 + i]? with
    | some (some a) => [(0, a)]
    | _ => []

/-- The byte that a reader with no store of its own takes at byte `i` of a piece. -/
def baseByte (s : State) (core : Nat) (p : Piece) (i : Nat) : Byte :=
  match p.space with
  | 1 => fget 0 (getC s core).stash (p.place + i)
  | 2 => BitVec.ofNat 8 ((fget 0 (getC s core).tiles ((p.place + i) / 4)).toNat / 2 ^ (8 * ((p.place + i) % 4)))
  | 3 => fget 0 s.host (p.place + i)
  | _ => visByte s (p.place + i)

/-- The value that an operation reads at a piece. -/
def samplePiece (s : State) (g : Group) (o : Op) (p : Piece) : DWord :=
  BitVec.ofNat 64 (leNat ((List.range p.size).map fun i => (ownByte g o (placesAt p i)).getD (baseByte s g.core p i)))

/-- R61, R69: whether every byte of a stash piece may be read: its words are valid, or the group's own stores give it. -/
def pieceReady (s : State) (g : Group) (o : Op) (p : Piece) : Bool :=
  ((wordsOf p).all fun k => wordReady s g.core g.ctx k) ||
    (List.range p.size).all fun i => (ownByte g o (placesAt p i)).isSome

/-! Locations written by several threads (R101). -/

/-- A list in an order of free choice. -/
def shuffle {α : Type} (k : Nat) : Nat → List α → List α
  | 0, l => l
  | n + 1, l => match takeNth (Config.freePick k % max 1 l.length) l with
    | some (x, xs) => x :: shuffle (k + 1) n xs
    | none => l

/-- Whether two pieces of different threads meet. -/
def collide (ps : List Piece) : Bool := ps.zipIdx.any fun p => ps.zipIdx.any fun q => p.2 < q.2 && meets p.1 q.1

/-- R101: the pieces in the order in which they are performed: free where threads meet (log 6). -/
def orderPieces (s : State) (ps : List Piece) : State × List Piece :=
  if collide ps then ({ s with free := s.free + ps.length }, shuffle s.free ps.length ps) else (s, ps)

end Sys2Proof.Machine
end

