-- ==== Sys2Proof/Machine/Issue.lean ====
section
/-!
DEFINITION. The arithmetic of atomics (R132, R133, R139), the sending of operations to their homes, ports and banks (R86,
R89, R93, R135, R368), the translation of an instruction's threads (R36, R40, R49 to R51) and the issue of an operation.
-/
namespace Sys2Proof.Machine

/-! Atomics. -/

/-- R132: the width of an atomic in bytes. -/
def aopSize (a : AOp) : Nat :=
  match a with
  | .add n | .smin n | .smax n | .umin n | .umax n | .and n | .or n | .xor n | .xchg n | .cas n => n
  | .faddF64 _ => 8
  | .faddF32 _ | .faddBf16x2 _ | .faddF16x2 _ => 4

/-- R132: whether the host performs the operation as a PCIe AtomicOp. -/
def aopHost (a : AOp) : Bool := match a with | .add _ | .xchg _ | .cas _ => true | _ => false

/-- R132, R136: whether routers may merge the operation. -/
def aopMerges (a : AOp) : Bool :=
  match a with
  | .xchg _ | .cas _ => false
  | .faddF32 m | .faddF64 m | .faddBf16x2 m | .faddF16x2 m => m
  | _ => true

/-- R133: a sum rounded once, to nearest even. -/
def sumRne (f : Fmt) (x y : Nat) : Nat := (fAdd f 0 (fDecode f x) (fDecode f y)).1

/-- R133: a sum of two pairs of 16-bit values. -/
def sumHalves (f : Fmt) (x y : Nat) : Nat :=
  sumRne f (x % 2 ^ 16) (y % 2 ^ 16) + 2 ^ 16 * sumRne f (x / 2 ^ 16 % 2 ^ 16) (y / 2 ^ 16 % 2 ^ 16)

/-- R132: the value that an atomic writes, from the old value, the operand and the expected value, each of its width. -/
def aopNew (a : AOp) (old x e : DWord) : DWord :=
  let w := 8 * aopSize a
  let o := old.toNat % 2 ^ w
  let y := x.toNat % 2 ^ w
  let lt := sextNat w o < sextNat w y
  let r := match a with
    | .add _ => o + y
    | .smin _ => if lt then o else y
    | .smax _ => if lt then y else o
    | .umin _ => min o y
    | .umax _ => max o y
    | .and _ => (old &&& x).toNat
    | .or _ => (old ||| x).toNat
    | .xor _ => (old ^^^ x).toNat
    | .xchg _ => y
    | .cas _ => if o = e.toNat % 2 ^ w then y else o
    | .faddF32 _ => sumRne fmtF32 o y
    | .faddF64 _ => sumRne fmtF64 o y
    | .faddBf16x2 _ => sumHalves fmtBf16 o y
    | .faddF16x2 _ => sumHalves fmtF16 o y
  BitVec.ofNat 64 (r % 2 ^ w)

/-- The global byte that each byte of an atomic's location is, none for a pad byte. -/
def atomBytes (p : Piece) : List (Option Nat) :=
  if p.space = 1 then (p.bound.drop (p.place % 4)).take p.size else (List.range p.size).map fun i => some (p.place + i)

/-- R135: an atomic performed at its home, or in the unit of a lock's holder: the state and the old value. -/
def atomicHome (s : State) (by_ : By) (a : AOp) (p : Piece) (inUnit : Bool) : State × DWord :=
  let bs := atomBytes p
  let old := BitVec.ofNat 64 (leNat (bs.map fun b => match b with | some x => visByte s x | none => 0))
  let nw := leBytes (aopNew a old p.val p.exp).toNat p.size
  ((bs.zip nw).foldl (fun s q => match q.1 with
    | some x => if inUnit then pokeByte s x q.2 else devByte s by_ x q.2
    | none => s) s, old)

/-- R135: an atomic performed in the stash bank. -/
def atomicBank (s : State) (core : Nat) (a : AOp) (p : Piece) : State × DWord :=
  let old := BitVec.ofNat 64 (readLe (getC s core).stash p.place p.size)
  (stashWrite s core p.place (leBytes (aopNew a old p.val p.exp).toNat p.size), old)

/-- R139: the words of a row atomic's line after it, from the words before it. -/
def rowWord (old x : Word) : Word := BitVec.ofNat 32 (sumHalves fmtBf16 old.toNat x.toNat)

/-! Requests of an operation. -/

/-- The core's PTS. -/
def ptsOf (s : State) (core : Nat) : BitVec 16 := (getC s core).pts

/-- A request of an operation for a line, with the pieces that it serves. -/
def reqFor (s : State) (g : Group) (o : Op) (kind : ReqKind) (line : Nat) (ps : List Piece) : Req :=
  let p := ps.headD { thread := 0, space := 0, place := 0, size := 0, val := 0, exp := 0, shown := 0, gen := 0, mode := 0,
                      mbf := 0, bound := [] }
  { newReq (.group g.uid o.id) g.core g.ctx kind line with
    gen := p.gen, mode := p.mode, mbf := p.mbf, pieces := ps, sig := o.sig, pts := ptsOf s g.core,
    lease := if o.lease = 0 then (getX s g.ctx).dataLease.toNat else o.lease,
    nt := isNt o.kind, ord := (o.acq.getD 0).toNat * 8 + (o.rel.getD 0).toNat }

/-- One answer more to wait for. -/
def expect (s : State) (uid op : Nat) : State :=
  setG s uid (modOp (getG s uid) op fun o => { o with left := o.left + 1 })

/-- A request of an operation is sent. -/
def sendFor (s : State) (uid op : Nat) (q : Req) : State := sendReq (expect s uid op) q

/-- An access that a cache serves: its answer is on its way. -/
def replyFor (s : State) (uid op : Nat) (q : Req) (res : List (Nat × DWord)) : State :=
  let (id, s1) := addReq (expect s uid op) { q with done := true, result := res }
  push s1 (.replyArrival id false)

/-- Results of loads. -/
def samples (s : State) (g : Group) (o : Op) (ps : List Piece) : List (Nat × DWord) :=
  ps.map fun p => (p.thread, samplePiece s g o p)

/-- Results kept in an operation. -/
def addGot (s : State) (uid op : Nat) (l : List (Nat × DWord)) : State :=
  setG s uid (modOp (getG s uid) op fun o => { o with got := o.got ++ l })

def setWait (s : State) (uid op : Nat) (l : List Piece) : State :=
  setG s uid (modOp (getG s uid) op fun o => { o with swait := l })
def addWait (s : State) (uid op : Nat) (l : List Piece) : State :=
  setG s uid (modOp (getG s uid) op fun o => { o with swait := o.swait ++ l })

/-- Whether two pieces are one thread's part of one operation. -/
def samePiece (p q : Piece) : Bool := p.thread == q.thread && p.space == q.space && p.place == q.place

/-- The pieces of a write replaced; the FIFO entries that none of them names any more are acknowledged (R91). -/
def mapPieces (s : State) (core uid op : Nat) (f : Piece → List Piece) : State :=
  let old := ((opOf (getG s uid) op).map fun o => o.pieces).getD []
  let rest := old.flatMap f
  let s1 := setG s uid (modOp (getG s uid) op fun o => { o with pieces := rest, swait := o.swait.flatMap f })
  let keys := rest.flatMap fifoKeys
  if rest.isEmpty then ackAll s1 core uid op
  else ((old.flatMap fifoKeys).filter fun l => !keys.contains l).dedup.foldl (fun s l => ackFifo s core uid op l) s1

/-- Pieces of a write that are performed leave its operation, so that no later load takes their bytes. -/
def donePieces (s : State) (core uid op : Nat) (ps : List Piece) : State :=
  mapPieces s core uid op fun p => if ps.any (samePiece p) then [] else [p]

/-- R93: a live lease copy that holds the words of a mask. -/
def liveCopy (s : State) (core line : Nat) (m : Word) : Option LeaseCopy :=
  match ffind s.homes.leases (2 ^ 45 * pairOf core + line) with
  | some c => if tsLe (ptsOf s core) c.rts && (threadsOf m).all (fun i => (ffind c.words i).isSome) then some c else none
  | none => none

/-- The value of a piece in a lease copy. -/
def copyValue (c : LeaseCopy) (p : Piece) : DWord :=
  let b (i : Nat) : Byte := BitVec.ofNat 8 ((fget (0 : Word) c.words ((p.place + i) / 4 % 32)).toNat / 2 ^ (8 * ((p.place + i) % 4)))
  BitVec.ofNat 64 (leNat ((List.range p.size).map b))

/-- R96: the words that each thread reads are counted, for the core. -/
def countReads (c : LeaseCopy) (core n : Nat) : LeaseCopy :=
  let up (x : BitVec 16) : BitVec 16 := BitVec.ofNat 16 (min 0xFFFF (x.toNat + n))
  if core % 2 = 0 then { c with cnt0 := up c.cnt0 } else { c with cnt1 := up c.cnt1 }

/-- R81, R93, R124, R125: an operation's read of a live lease copy: the line moves in the order of use, the words read are counted, and
PTS reaches the timestamp of the copy's version, which a read of the pair's other core may have brought. -/
def hitLease (s : State) (g : Group) (line n : Nat) (c : LeaseCopy) (mbf : BitVec 5) : State :=
  let s1 := modH s fun h => { h with leases := fput h.leases (2 ^ 45 * pairOf g.core + line) (countReads c g.core n) }
  let s2 := (pairTouch s1 (pairOf g.core) line mbf).getD s1
  raisePts s2 g.core c.w

/-- R93, R418: the loads of an instruction that reach one lease-mode line: served from a live copy, or by one request. -/
def sendLeaseLoad (s : State) (g : Group) (o : Op) (line : Nat) (ps : List Piece) : State :=
  let q := reqFor s g o .read line ps
  match liveCopy s g.core line (piecesMask ps) with
  | some c =>
    replyFor (hitLease s g line ((ps.map fun p => (wordsOf p).length).sum) c q.mbf) g.uid o.id q (ps.map fun p => (p.thread, copyValue c p))
  | none => sendFor s g.uid o.id q

/-- Whether the pair holds every word of a mask of a directory-mode line. -/
def pairHolds (s : State) (pair line : Nat) (m : Word) : Bool :=
  (threadsOf m).all fun i => (ffind s.homes.pcache (unitKey pair (32 * line + i))).isSome

/-- R84: whether a read leaves a copy in the pair cache: bypass reads and pairs without cache granules keep none. -/
def pairKeeps (s : State) (pair line : Nat) (mbf : BitVec 5) : Bool :=
  (pairSet s pair line).isSome && (s.part == .sw2p || mbf.toNat % 4 != 3)

/-- The words of a line as a reader sees them. -/
def lineWords (s : State) (line : Nat) (m : Word) : FMap Word :=
  (threadsOf m).foldl (fun d i => fput d i (visWord s (32 * line + i))) []

/-- The loads of a directory-mode line that one request serves: a hit in the pair cache, a read of its die's replica (R87), or a read of
the home (R86). -/
def sendDirLoad (s : State) (g : Group) (o : Op) (line : Nat) (ps : List Piece) : State :=
  let q := reqFor s g o .read line ps
  let pair := pairOf g.core
  let m := piecesMask ps
  if pairHolds s pair line m then
    let s1 := (pairTouch s pair line q.mbf).getD s
    replyFor s1 g.uid o.id q (samples s1 g o ps)
  else match replicaOf s pair line m with
    | none => sendFor s g.uid o.id q
    | some k =>
      let keeps := pairKeeps s pair line q.mbf
      let s1 := sliceTouch s k line 1 q.mbf
      let s2 := if keeps then modH s1 fun h => { h with repVec := fmod 0 h.repVec (2 ^ 45 * k + line) fun v => withBit v (pair % 12) true }
        else s1
      let (id, s3) := addReq (expect s2 g.uid o.id)
        { q with done := true, result := samples s2 g o ps, data := if keeps then lineWords s2 line m else [] }
      push s3 (.replyArrival id false)

/-- Whether a tile piece may be read (R306): the operations accepted before it, up to the command that `exp` names, have
retired. -/
def tileReady (s : State) (core : Nat) (p : Piece) : Bool :=
  !(getC s (2 * pairOf core)).mqueue.contains (p.exp.toNat - 1) || p.exp = 0

/-- R69: whether a mapped store's piece needs no fill: it covers each of its words whole, or the word is valid. -/
def storeReady (s : State) (g : Group) (p : Piece) : Bool :=
  (wordsOf p).all fun k => coversWord p k || wordReady s g.core g.ctx k

/-- Whether a piece in the core's own stores may be read now, or written there or at its home. -/
def localReady (s : State) (g : Group) (o : Op) (p : Piece) : Bool :=
  if p.space ≠ 1 then tileReady s g.core p
  else match o.kind with
    | .store | .capStore _ => storeReady s g p && !rangeHeld s g.core g.uid p
    | _ => pieceReady s g o p

/-- R98: the pieces of a line-whole access are served together. -/
def readyOf (s : State) (g : Group) (o : Op) (ps : List Piece) : List Piece :=
  let now := ps.filter (localReady s g o)
  if lineWhole o && now.length < ps.length then [] else now

/-- The fills that pieces wait for are started (R69). -/
def fillFor (s : State) (g : Group) (ps : List Piece) : State :=
  ps.foldl (fun s p => if p.space ≠ 1 then s else
    (wordsOf p).foldl (fun s k => if wordReady s g.core g.ctx k then s else startFill s g.core g.ctx (some g.uid) (k / 32)) s) s

/-- The accesses of host memory are sent: one request for a line-whole access (R98), else one for each thread. -/
def sendHost (s : State) (g : Group) (o : Op) (kind : ReqKind) : State :=
  let ps := o.pieces.filter fun p => p.space == 3
  if lineWhole o then (byLine ps).foldl (fun s l => sendFor s g.uid o.id (reqFor s g o kind l.1 l.2)) s
  else ps.foldl (fun s p => sendFor s g.uid o.id (reqFor s g o kind (p.place / 128) [p])) s

/-- A load is sent. -/
def sendLoad (s : State) (g : Group) (o : Op) : State :=
  let here := o.pieces.filter fun p => p.space == 1 || p.space == 2
  let now := readyOf s g o here
  let later := here.filter fun p => !now.contains p
  let s0 := now.foldl (fun s p => countStash s g.core p) s
  let s1 := here.foldl (fun s p => watchPiece s g.core g.ctx 1 p) s0
  let s2 := setWait (addGot s1 g.uid o.id (samples s g o now)) g.uid o.id later
  let s3 := fillFor s2 g later
  let glob := o.pieces.filter fun p => p.space == 0
  let s4 := (byLine (glob.filter fun p => p.mode == 1)).foldl (fun s l => sendLeaseLoad s g o l.1 l.2) s3
  let dir := glob.filter fun p => p.mode == 0
  let s5 := if lineWhole o then (byLine dir).foldl (fun s l => sendDirLoad s g o l.1 l.2) s4
    else dir.foldl (fun s p => sendDirLoad s g o (p.place / 128) [p]) s4
  sendHost s5 g o .read

/-- The bytes that a store's piece writes; a capability's 16 bytes. -/
def storeBytes (o : Op) (p : Piece) : List Byte :=
  match o.kind with
  | .capStore c => leBytes (capBits c) 16
  | _ => leBytes p.val.toNat p.size

/-- The tag that a write leaves in its granule: a tag is set only by a `cst` of a tagged capability (R17). -/
def storeTag (o : Op) : Bool := match o.kind with | .capStore c => c.tag | _ => false

/-- A write at its home or owner as one action: the copies of its words are dropped, its bytes are written where their newest
values lie, and a signalling write wakes monitors. -/
def performGlobal (s : State) (g : Group) (o : Op) (p : Piece) : State :=
  let s1 := dropSharers s (p.place / 128) (pieceMask p) (pairOf g.core) 0 (2, g.core)
  let s2 := pokeBytes s1 p.place (storeBytes o p)
  signal (if storeTag o then setTag s2 p.place true else s2) o.sig p

/-- A store to the bank, or to the words of an entry: the tag of a `cst` is kept with the bytes (R16, R17). It reaches the global granule
with a write-back (R20). -/
def performStash (s : State) (g : Group) (o : Op) (p : Piece) : State :=
  let s0 := watchPiece s g.core g.ctx 2 p
  let s1 := if p.bound.isEmpty || !mappedAt s g.core g.ctx p.place then stashWrite s0 g.core p.place (storeBytes o p)
    else storeMapped s0 g.core p (storeBytes o p)
  let s2 := if !storeTag o then s1 else modC s1 g.core fun c => { c with stags := fset false c.stags (p.place / 16) true }
  signal s2 o.sig p

/-- R83, R84: whether a pair performs a store of a directory-mode line in its cache. -/
def pairTakes (s : State) (core : Nat) (p : Piece) : Option State := pairTouch s (pairOf core) (p.place / 128) p.mbf

/-- Whether the pair's cache owns the words of pieces, on a line that no other group has locked (R89, R144). -/
def ownsPieces (s : State) (g : Group) (line : Nat) (ps : List Piece) : Bool :=
  !lockedBy s line (some g.uid) &&
    (threadsOf (piecesMask ps)).all fun i => (ownerOf (dirAt s line) i).any fun w =>
      w.pair.toNat == pairOf g.core && w.unit == 0

/-- R89: a store of an operation that merges into a pending one. -/
def mergeReq (s : State) (uid op r : Nat) (q : Req) : State :=
  let (id, s1) := addReq (expect s uid op) q
  modR s1 r fun x => { x with merged := x.merged ++ [id] }

/-- R89, R115: the ownership requests of a unit for pieces of a line: those whose words are pending at the unit merge into the request that
is on its way, and the others make one; a line-whole store is one request for its 32 words, or merges whole. The holder of the line's lock
asks for all of its words (R144). -/
def requestOwn (s : State) (g : Group) (o : Op) (q : Req) : State :=
  let into (p : Piece) : Option Nat := pendingOwn s g.uid (pairOf g.core) q.unit.toNat q.line (askedMask o p q.line) q.gen
  let rest := q.pieces.filter fun p => (into p).isNone
  let s1 := if rest.isEmpty then s else
    sendFor s g.uid o.id { q with pieces := rest, whole := q.unit == 0 && (lockAt s q.line).holder == some g.uid }
  (q.pieces.filterMap into).dedup.foldl (fun s r =>
    mergeReq s g.uid o.id r { q with pieces := q.pieces.filter fun p => into p == some r }) s1

/-- The stores of a directory-mode line: performed at once where the pair's cache owns the words, else an ownership request for
the words written (R89); a write-through where nothing is allocated (R84, R303). -/
def sendDirStore (s : State) (g : Group) (o : Op) (line : Nat) (ps : List Piece) : State :=
  let mine (s : State) : List Piece :=
    if isNt o.kind then [] else if lineWhole o then (if ownsPieces s g line ps then ps else []) else ps.filter fun p => ownsPieces s g line [p]
  let bypass := isNt o.kind || (s.part != .sw2p && (ps.any fun p => p.mbf.toNat % 4 == 3))
  let takes := if bypass && (mine s).isEmpty then none else ps.head?.bind (pairTakes s g.core)
  match takes with
  | none => sendFor s g.uid o.id (reqFor s g o .write line ps)
  | some s1 =>
    let now := mine s1
    let rest := ps.filter fun p => !now.contains p
    let s2 := now.foldl (fun s p => performGlobal s g o p) s1
    let s3 := if now.isEmpty then s2 else donePieces s2 g.core g.uid o.id now
    if rest.isEmpty then s3
    else if bypass then sendFor s3 g.uid o.id (reqFor s3 g o .write line rest)
    else requestOwn s3 g o (reqFor s3 g o .own line rest)

/-- Whether a stash piece stands for no global word: unmapped, or pad bytes only (R64, R135). -/
def bankOnly (p : Piece) : Bool := p.bound.all fun b => b.isNone

/-- R71, R89, R94: whether what a mapped piece waits for is there: the stash owns the words of each of its directory lines, on a line that
no other group has locked, and each of its lease-mode lines is written. -/
def mappedReady (s : State) (g : Group) (p : Piece) : Bool :=
  p.lines.all fun x => if x.mode = 1 then x.w.isSome else
    !lockedBy s x.line (some g.uid) &&
      ownsBound s (pairOf g.core) (1 + g.core % 2) (p.bound.filter fun b => b.any fun a => a / 128 == x.line)

/-- R71, R74: the requests of mapped pieces for one line: ownership of the global words of the directory lines that the stash does not own,
a lease write of a lease-mode line. -/
def requestMapped (s : State) (g : Group) (o : Op) (ps : List Piece) (x : LineInfo) : State :=
  let lacks (p : Piece) : Bool := p.lines.any (fun y => y.line == x.line && y.w.isNone) &&
    !mappedReady s g { p with lines := [{ x with w := none }] }
  let mine := ps.filter lacks
  let c (k : ReqKind) : Req := { reqFor s g o k x.line mine with
    gen := x.gen, mode := x.mode, mbf := x.mbf, unit := BitVec.ofNat 2 (1 + g.core % 2) }
  if mine.isEmpty then s
  else if x.mode = 1 then sendFor s g.uid o.id (c (match o.kind with
    | .capStore k => .capWrite { k with tag := k.tag && mine.all fun p => p.keeps }
    | _ => .write))
  else requestOwn s g o (c .own)

/-- The mapped pieces of a store that is not yet performed. -/
def mappedPieces (o : Op) : List Piece := o.pieces.filter fun p => p.space == 1 && !p.bound.isEmpty

/-- R69, R71: mapped pieces that need no fill are performed where they may be, all together for a line-whole store (R98); for the others
ownership or lease writes are requested. -/
def sendMapped (s : State) (g : Group) (o : Op) (ps : List Piece) : State :=
  let all := ((opOf (getG s g.uid) o.id).map mappedPieces).getD []
  let now := if lineWhole o then (if all.all (mappedReady s g) then all else []) else ps.filter (mappedReady s g)
  let s1 := now.foldl (fun s p => performStash s g o p) s
  let s2 := if now.isEmpty then s1 else donePieces s1 g.core g.uid o.id now
  let rest := ps.filter fun p => !now.contains p
  (oneEach (rest.flatMap fun p => p.lines)).foldl (fun s x => requestMapped s g o rest x) s2

/-- Mapped pieces are sent, those that lack the rest of a word after its fill (R69). -/
def startMapped (s : State) (g : Group) (o : Op) (ps : List Piece) : State :=
  let later := ps.filter fun p => !localReady s g o p
  let s1 := if later.isEmpty then s else fillFor (addWait s g.uid o.id later) g later
  sendMapped s1 g o (ps.filter fun p => !later.contains p)

/-- A store is sent. -/
def sendStore (s : State) (g : Group) (o : Op) : State :=
  let bank := o.pieces.filter fun p => p.space == 1 && p.bound.isEmpty
  let s1 := bank.foldl (fun s p => performStash s g o p) s
  let s2 := if bank.isEmpty then s1 else donePieces s1 g.core g.uid o.id bank
  let s3 := startMapped s2 g o (mappedPieces o)
  let glob := o.pieces.filter fun p => p.space == 0
  let s4 := (byLine (glob.filter fun p => p.mode == 0)).foldl (fun s l => sendDirStore s g o l.1 l.2) s3
  let s5 := (byLine (glob.filter fun p => p.mode == 1)).foldl (fun s l =>
    sendFor s g.uid o.id (reqFor s g o .write l.1 l.2)) s4
  sendHost s5 g o .write

/-- R306: a tile store is performed. -/
def sendTiles (s : State) (g : Group) (o : Op) : State :=
  donePieces (modC s g.core fun c => { c with tiles := o.pieces.foldl (fun t p => fset 0 t (p.place / 4) (lo32 p.val)) c.tiles })
    g.core g.uid o.id o.pieces

/-- The home line of an atomic's location. -/
def atomLine (p : Piece) : Nat := ((atomBytes p).findSome? id).getD 0 / 128

/-- R91, R135: the FIFO entries of the stash lines on which none of an operation's atomics waits any more are acknowledged. -/
def ackBanks (s : State) (uid op : Nat) : State :=
  match opOf (getG s uid) op with
  | none => s
  | some o =>
    let done := (o.pieces.flatMap fifoKeys).dedup.filter fun l => 2 ^ 51 ≤ l && !(o.swait.flatMap fifoKeys).contains l
    done.foldl (fun s l => ackFifo s (getG s uid).core uid op l) s

/-- One thread's atomic is sent: performed in the bank, or by the home or the host (R135). -/
def sendAtomic (a : AOp) (fetch : Bool) (s : State) (g : Group) (o : Op) (p : Piece) : State :=
  if p.space = 1 && bankOnly p then
    if p.bound.isEmpty || pieceReady s g o p then
      let r := atomicBank (watchPiece s g.core g.ctx 4 p) g.core a p
      let s1 := (wordsOf p).foldl (fun s k => if p.bound.isEmpty then s else
        setSWord s g.core k { swordAt s g.core k with v := true, d := true }) r.1
      if fetch then addGot s1 g.uid o.id [(p.thread, r.2)] else s1
    else
      let s1 := setG s g.uid (modOp (getG s g.uid) o.id fun x => { x with swait := x.swait ++ [p] })
      fillFor s1 g [p]
  else sendFor s g.uid o.id (reqFor s g o (.atomic a fetch) (atomLine p) [p])

/-- A row atomic is sent (R139, R140). -/
def sendRow (fetch : Bool) (s : State) (g : Group) (o : Op) : State :=
  match o.pieces with
  | [] => s
  | p :: _ =>
    if p.space ≠ 1 then sendFor s g.uid o.id (reqFor s g o (.rowAtomic fetch) (p.place / 128) o.pieces) else
    o.pieces.foldl (fun s q =>
      let old := readLe (getC s g.core).stash q.place 4
      let s1 := stashWrite (watchPiece s g.core g.ctx 4 q) g.core q.place
        (leBytes (rowWord (BitVec.ofNat 32 old) (lo32 q.val)).toNat 4)
      if fetch then addGot s1 g.uid o.id [(q.thread, BitVec.ofNat 64 old)] else s1) s

/-- The results by which an operation holds a capability. -/
def capGot (x : Nat) (tag pc : Bool) : List (Nat × DWord) :=
  [(0, BitVec.ofNat 64 x), (1, BitVec.ofNat 64 (x / 2 ^ 64)), (2, if tag && pc then 1 else 0)]

/-- The 16 bytes at a stash granule with their tag. -/
def stashCapGot (s : State) (core place : Nat) (pc : Bool) : List (Nat × DWord) :=
  capGot (readLe (getC s core).stash place 16) (fget false (getC s core).stags (place / 16)) pc

/-- A `cld` or `cst` is sent (R18). Unit 3 marks one that passes the pair's cache (R84). -/
def sendCap (s : State) (g : Group) (o : Op) : State :=
  match o.pieces with
  | [] => s
  | p :: _ =>
    let line := p.place / 128
    let unit : BitVec 2 := if p.mode = 0 && passesCache s g.core line [p] then 3 else 0
    match o.kind with
    | .capLoad pc =>
      if p.space = 1 then
        let s := watchPiece s g.core g.ctx 1 p
        if pieceReady s g o p then addGot s g.uid o.id (stashCapGot s g.core p.place pc)
        else fillFor (setWait s g.uid o.id [p]) g [p]
      else
        match (if p.mode = 1 then liveCopy s g.core line (pieceMask p) else none) with
        | some c =>
          let x := ((List.range 4).map fun i => (fget (0 : Word) c.words ((p.place / 4 + i) % 32)).toNat * 2 ^ (32 * i)).sum
          replyFor (hitLease s g line 4 c p.mbf) g.uid o.id (reqFor s g o .capRead line [p])
            (capGot x (c.tags.getLsbD (p.place / 16 % 8)) pc)
        | none => sendFor s g.uid o.id { reqFor s g o .capRead line [p] with unit }
    | .capStore c =>
      let q : Req := { reqFor s g o (.capWrite c) line [p] with unit }
      if p.space = 1 then
        if p.bound.isEmpty then donePieces (performStash s g o p) g.core g.uid o.id [p] else startMapped s g o [p]
      else if p.mode = 0 && ownsPieces s g line [p] then
        donePieces (performGlobal ((pairTakes s g.core p).getD s) g o p) g.core g.uid o.id [p]
      else match (if p.space = 0 && p.mode = 0 && unit = 0 then pendingOwn s g.uid (pairOf g.core) 0 line (pieceMask p) p.gen else none) with
        | some r => mergeReq s g.uid o.id r q
        | none => sendFor s g.uid o.id q
    | _ => s

/-- R118, R325: a command that the issuing group's accesses hold no longer may start. -/
def sendEngine (s : State) (cmd : Nat) : State :=
  { s with cmds := match ffind s.cmds cmd with
    | some c => if c.st = .held then fput s.cmds cmd { c with st := .armed } else s.cmds
    | none => s.cmds }

/-- An operation is sent: nothing holds it back any more. -/
def sendOp (s : State) (uid id : Nat) : State :=
  let g := getG s uid
  match opOf g id with
  | none => s
  | some o0 =>
    let o := { o0 with held := false }
    let s0 := setG s uid (modOp g id fun x => { x with held := false })
    let one (k : ReqKind) : State := match o.pieces with
      | p :: _ => sendFor s0 uid id (reqFor s0 g o k (p.place / 128) o.pieces)
      | [] => s0
    let s1 := match o.kind with
      | .load _ | .quant _ _ => sendLoad s0 g o
      | .store | .ntStore => sendStore s0 g o
      | .tileStore => sendTiles s0 g o
      | .atomic a f => ackBanks (o.pieces.foldl (fun s p => sendAtomic a f s g o p) s0) uid id
      | .rowAtomic f => ackBanks (sendRow f s0 g o) uid id
      | .capLoad _ | .capStore _ => sendCap s0 g o
      | .lockAcq t y => one (.lock t y)
      | .lockRel => one .unlock
      | .lockStat => one .stat
      | .monitorWait e t => one (.monitor e t)
      | .launch q => one (.launch q)
      | .engine c => sendEngine s0 c
      | .barrier _ _ | .fence _ | .ntdrain | .ringPublish _ _ _ => s0
    settleOp s1 uid id

/-! The unfinished part of mapped stores. -/

/-- R70, R71: mapped pieces of an operation bound anew and sent again: a line written under a lease stays written, a piece that is no longer
mapped is performed in the bank, and what no longer translates waits for a fill (R423). -/
def resendMapped (s : State) (uid op : Nat) (ps : List Piece) : State :=
  let g := getG s uid
  match opOf g op with
  | none => s
  | some o =>
    let keep (old : Piece) (x : LineInfo) : LineInfo :=
      { x with w := (old.lines.find? fun y => y.line == x.line && y.mode == x.mode).bind fun y => y.w }
    let re (p : Piece) : Option Piece :=
      ((bindPiece s g.core g.ctx .store p).toOption).map fun n => { n with lines := n.lines.map (keep p) }
    let bad := ps.filter fun p => (re p).isNone
    let ok := ps.filterMap re
    let nw (p : Piece) : Piece := (ok.find? (samePiece p)).getD p
    let s1 := setG s uid (modOp g op fun x => { x with pieces := x.pieces.map nw })
    let bank := ok.filter fun p => p.bound.isEmpty
    let s2 := bank.foldl (fun s p => performStash s g o p) s1
    let s3 := if bank.isEmpty then s2 else donePieces s2 g.core uid op bank
    let s4 := if bad.isEmpty then s3 else fillFor (addWait s3 uid op bad) g bad
    settleOp (startMapped s4 g o (ok.filter fun p => !p.bound.isEmpty)) uid op

/-- R71, R98: what an answer does for the mapped pieces of a store: those whose lines are all answered are performed, a line-whole store
as a whole; one whose binding or ownership was lost meanwhile is bound and requested anew, and one in a listed operand range waits
(R123). -/
def finishMapped (s : State) (uid op : Nat) : State :=
  let g := getG s uid
  match opOf g op with
  | none => s
  | some o =>
    let ps := mappedPieces o
    let asked (p : Piece) : Bool := s.reqs.any fun r => r.2.agent == .group uid op && r.2.pieces.any (samePiece p)
    let idle := ps.filter fun p => !asked p && !o.swait.any (samePiece p)
    let held := idle.filter (rangeHeld s g.core uid)
    let free := idle.filter fun p => !held.contains p
    let stands (p : Piece) : Bool := mappedReady s g p && match bindPiece s g.core g.ctx .store p with
      | .ok b => b.bound == p.bound
      | .error _ => false
    let lost := free.filter fun p => !stands p
    let good := free.filter stands
    let now := if lineWhole o && good.length < ps.length then [] else good
    let s1 := now.foldl (fun s p => performStash s g o p) (if held.isEmpty then s else addWait s uid op held)
    let s2 := if now.isEmpty then s1 else donePieces s1 g.core uid op now
    if lost.isEmpty then settleOp s2 uid op else resendMapped s2 uid op lost

/-- R70, R423: the accesses that wait on a core's stash words, or its tiles, are served where they now may be. -/
def serveGroup (s : State) (uid : Nat) : State :=
  (getG s uid).ops.foldl (fun s o0 =>
    let g := getG s uid
    match opOf g o0.id with
    | none => s
    | some o =>
      if o.swait.isEmpty then s else
      let now := readyOf s g o o.swait
      let later := o.swait.filter fun p => !now.contains p
      if now.isEmpty then s else
      let s1 := setWait s uid o.id later
      let s2 := match o.kind with
        | .load _ | .quant _ _ => settleOp (addGot s1 uid o.id (samples s g o now)) uid o.id
        | .capLoad pc => settleOp (addGot s1 uid o.id (match now with
          | p :: _ => stashCapGot s g.core p.place pc
          | [] => [])) uid o.id
        | .atomic a f => settleOp (ackBanks (now.foldl (fun s p => sendAtomic a f s g o p) s1) uid o.id) uid o.id
        | .store | .capStore _ => resendMapped s1 uid o.id now
        | _ => s1
      s2) s

def serveCore (s : State) (core : Nat) : State :=
  (s.groups.filter fun p => p.2.core == core).foldl (fun s p => serveGroup s p.1) s

/-! Translation of an instruction's threads. -/

/-- R40: the translation register that serves an access through a capability register. -/
def xwServes (g : Group) (creg : Nat) (a : Acc) (va size : Nat) : Option Leaf :=
  (List.range 8).findSome? fun n =>
    let x := fget XW.zero g.xw n
    let l : Leaf := { sz := x.sz, r := x.rights.getLsbD 0, w := x.rights.getLsbD 1, a := x.rights.getLsbD 2,
                      l := x.rights.getLsbD 3, x := false, tags := false, mode := x.mode, mbf := x.mbf, gen := x.gen,
                      base := 2 ^ 16 * x.pframe.toNat }
    let page := 2 ^ 16 * x.vpage.toNat
    if x.valid && x.creg.toNat == creg && page ≤ va && va + size ≤ page + x.limit.toNat && (rightsCause a l).isNone
    then some l else none

/-- The translation of one thread's address: a translation register where one serves, else the TLB (R40). `creg` is none for
an access that no translation register serves. -/
def threadXlt (s : State) (creg : Option Nat) (a : Acc) (va size : Nat) : Xlt :=
  match creg.bind fun k => xwServes (curG s) k a va size with
  | some l => match modeCause a l with
    | some c => .fault c
    | none => .ok l
  | none => xlate s (curG s) (curF s) a va

/-- What one thread's access comes to: its piece, or the fault that leaves it unfinished with the address that XADDR names. -/
abbrev Placed := Except (Cause × Nat) Piece

/-- A stash access: the rights of its valid words (R35) and the binding of its words (R51, R70). -/
def placeStash (s : State) (g : Group) (a : Acc) (t size place : Nat) (val exp : DWord) : Placed := do
  let p : Piece := { thread := t, space := 1, place, size, val, exp, shown := place, gen := 0, mode := 0, mbf := 0, bound := [] }
  validRights s g.core g.ctx a p
  bindPiece s g.core g.ctx a p

/-- One thread's access in space 0, 3 or 5, or in the stash. R6 has a code-space address translated with execute permission and R35 gives
a load the right LR: the model asks a load through a code-space capability for LR alone (log 81). -/
def placeOne (s : State) (a : Acc) (space : Nat) (creg : Option Nat) (t size : Nat) (addr : Nat) (val exp : DWord) : X Placed :=
  match space with
  | 1 => .ok (placeStash s (curG s) a t size addr val exp)
  | 3 => .ok (.ok { thread := t, space := 3, place := addr, size, val, exp, shown := addr, gen := 0, mode := 2, mbf := 0, bound := [] })
  | _ =>
    match threadXlt s (if space = 0 then creg else none) a addr size with
    | .miss => .error (.walk addr)
    | .fault c => .ok (.error (c, addr))
    | .ok l => .ok (.ok
      { thread := t, space := if l.mode = 2 then 3 else 0, place := leafPa l addr % 2 ^ 52, size, val, exp, shown := addr,
        gen := l.gen, mode := l.mode, mbf := l.mbf, bound := [] })

/-- The threads that did not translate, with cause and address, and the access that each is to make: space, address and size. -/
abbrev Unf := List (Nat × Cause × Nat × Nat × Nat × Nat)

/-- R49: the threads of an instruction translated: the pieces of those that may be performed, and the unfinished ones. -/
def placeAll (s : State) (a : Acc) (c : Cap) (creg : Option Nat) (size : Nat) (val exp : Nat → DWord) :
    List (Nat × Int) → X (List Piece × Unf)
  | [] => .ok ([], [])
  | (t, x) :: l => do
    let r ← placeOne s a c.space.toNat creg t size x.toNat (val t) (exp t)
    let (ps, us) ← placeAll s a c creg size val exp l
    match r with
    | .ok p => .ok (p :: ps, us)
    | .error (k, ad) => .ok (ps, (t, k, ad, c.space.toNat, x.toNat, size) :: us)

/-- R49: an instruction ends: it moves on, or it takes the fault of its lowest unfinished thread with the other threads
performed. `one` gives the mask of an instruction that makes one
access for several threads (R304), `acc` the kind of its access (R50). -/
def endMem (i : Instr) (s s1 : State) (us : Unf) (one : Option Word) (acc : AccKind) : State :=
  match us with
  | [] => advance i s1
  | (_, c, a, _) :: _ =>
    let pc := (curF s).pc
    let regs := insnRegs (codeOf i) pc (curG s) (curF s)
    let s1 := modCurF s1 fun f => { f with redoSpots := us.map fun u => (pc, u.2.2.2) }
    takePrecise s1 c { regs with xaddr := BitVec.ofNat 56 a } (some (one.getD (maskOf (us.map fun u => u.1)))) (some acc)

/-! Issue. -/

/-- An operation of the issuing fragment for an instruction. -/
def mkOp (i : Instr) (s : State) (kind : OpKind) (mask : Word) (dst : Dest) (pieces : List Piece) : Op :=
  { id := 0, kind, entry := s.cur.entry, pre := withBit 0 s.cur.entry true, pc := (curF s).pc, mask, uniform := false, dst,
    pieces, acq := none, rel := none, lineExt := false, sig := false, lease := 0, held := false, left := 0, got := [],
    swait := [], keep := false, refused := 0, regs := insnRegs (codeOf i) (curF s).pc (curG s) (curF s) }

/-- An operation of the issuing fragment enters the pipeline: its FIFO entries and the marker of a release (R91), its trace
entry (R387), and its sending where nothing holds it back (R105). A replay of unfinished threads takes the place of its instruction in
program order (R102). -/
def issueOp (s : State) (o : Op) : State :=
  let g := curG s
  let (id, s1) := fresh s
  let (s2, ps) := if opWrites o.kind then orderPieces s1 o.pieces else (s1, o.pieces)
  let f := curF s
  let o1 := { o with id, pieces := ps, lane := laneOf (g.slot.getD 0), seq := ((f.redoAt.filter fun p => p.1 == f.pc).map fun p => p.2).getD id }
  let words (line : Nat) (p : Piece) : Word :=
    if p.space = 1 && line < 2 ^ 51 then boundMask p.bound line else if (fifoKeys p).contains line then pieceMask p else 0
  let ent (line : Nat) (marker : Bool) : FifoEnt :=
    { line, mask := ps.foldl (fun m p => m ||| words line p) 0, uid := g.uid, op := id, marker, acked := false }
  let es := (if isRelease o1 then [ent 0 true] else []) ++ (fifoLines o1).map fun l => ent l false
  let s3 := modC s2 g.core fun c => { c with fifo := c.fifo ++ es }
  let held := isRelease o1 || isFence o1.kind || opBlocked s3 g o1
  let s4 := setG s3 g.uid { g with ops := g.ops ++ [{ o1 with held }] }
  let s5 := match traceKind o1.kind with
    | some k => traceAdd s4 g k id ((ps.map fun p => p.shown).headD 0) (destCode o1.dst) 0
    | none => s4
  if held then s5 else sendOp s5 g.uid id

/-- How many FIFO entries an operation takes. -/
def fifoNeed (o : Op) : Nat := (fifoLines o).length + (if isRelease o then 1 else 0)

/-- R50, R262: at the re-execution of unfinished threads the parts of the same instruction that have not yet returned keep the
destination empty exactly as long as threads remain unfinished. -/
def rejoin (g : Group) (d : Dest) (keep : Bool) : Group :=
  { g with ops := g.ops.map fun o => if o.dst == d && d != .none then { o with keep } else o }

/-- R166, R170, R188: a destination made ready for values that return later: G, or U where all 32 threads take one value,
with its old bits, and empty. -/
def markDest (g : Group) (d : Dest) (uni : Bool) : Group :=
  let sh (r : Nat) : VVal := if uni then .u (vAt (vReg g r) 0) else .g (vList (vReg g r))
  let g1 := match d with
    | .vec r => putV g r.toNat (sh r.toNat)
    | .pair r => putV (putV g r.toNat (sh r.toNat)) (r.toNat + 1) (sh (r.toNat + 1))
    | _ => g
  setEmpty g1 d true

/-- R170: the slots that such a destination needs. -/
def destSlots (g : Group) (d : Dest) (uni : Bool) : X Unit :=
  let sh (r : Nat) : Nat × VVal := (r, if uni then .u 0 else .g [])
  match d with
  | .vec r => slotsX g [sh r.toNat]
  | .pair r => slotsX g [sh r.toNat, sh (r.toNat + 1)]
  | _ => .ok ()

/-- Whether the issuing fragment re-executes its instruction for the threads that were unfinished. -/
def reexecuting (s : State) : Bool := (curF s).redo.isSome

/-- R188: the destination of an instruction that is not re-executed must not be empty. -/
def destFree (s : State) (d : Dest) : X Unit :=
  let g := curG s
  if reexecuting s then .ok () else
  match d with
  | .none => .ok ()
  | .vec r => dstV g r.toNat false
  | .pair r => dstV g r.toNat true
  | .scalar r => dstS g r
  | .capreg r => if cIsEmpty g r then .error (.hold 11) else .ok ()

/-- R49: whether an instruction reads a value for each thread, so that its destination stays empty while threads are unfinished,
even when every thread is (log 19). An instruction that makes one access changes nothing when that faults. -/
def perThread (o : Op) : Bool :=
  match o.kind, o.dst with
  | .load _, .vec _ | .load _, .pair _ => !o.uniform
  | .atomic _ _, .vec _ | .atomic _ _, .pair _ => true
  | _, _ => false

/-- R51, R70: the stash lines that the threads of an operation which may be performed still lack, while other threads of its instruction
fault: it stays at issue until their fills have ended. -/
def fillsLacking (s : State) (o : Op) : List Nat :=
  let g := curG s
  let lacks (p : Piece) : Bool := p.space == 1 && !p.bound.isEmpty && match o.kind with
    | .load _ | .quant _ _ | .capLoad _ => !pieceReady s g o p
    | .store | .capStore _ => !storeReady s g p
    | .atomic _ _ => bankOnly p && !pieceReady s g o p
    | _ => false
  ((o.pieces.filter lacks).flatMap fun p => (wordsOf p).filterMap fun k => if wordReady s g.core g.ctx k then none else some (k / 32)).dedup

/-- An operation with a destination is issued, or only its unfinished threads are noted (R49). -/
def issueTo (s : State) (o : Op) (uni : Bool) (us : Unf) : X State := do
  if o.pieces.isEmpty then
    if !perThread o then .ok s else
    destSlots (curG s) o.dst uni
    .ok (modCur s fun g => markDest (rejoin g o.dst true) o.dst uni)
  else if !us.isEmpty && !(fillsLacking s o).isEmpty then .error (.fill (fillsLacking s o)) else
  fifoRoom s (fifoNeed o)
  destSlots (curG s) o.dst uni
  let keep := !us.isEmpty
  .ok (issueOp (modCur s fun g => markDest (rejoin g o.dst keep) o.dst uni) { o with keep })

/-- R123: a write to the stash waits while the operand ranges of a matrix operation hold a byte of it. -/
def rangeX (s : State) (ps : List Piece) : X Unit :=
  match (getC s (curG s).core).ranges.zipIdx.find? fun r => ps.any fun p =>
      p.space == 1 && p.place < r.1.base + r.1.len && r.1.base < p.place + p.size with
  | some r => .error (.wait (.range (8 * r.1.cmd + r.1.slot)))
  | none => .ok ()

/-- R73: a write to a word of a read-only entry. -/
def stashRoX (s : State) (g : Group) (c : Cap) (l : List (Nat × Int)) : X Unit :=
  if c.space ≠ 1 then .ok () else
  eachX l (fun a => (entryAt (getC s g.core) g.ctx a.toNat).all fun e => e.2.rwm) .stashRo

end Sys2Proof.Machine
end

