-- ==== Sys2Proof/Machine/Memory.lean ====
section
/-!
DEFINITION. Vector, uniform and scalar loads and stores, prefetch and tile transfers (R258, R259, R297 to R306).
-/
namespace Sys2Proof.Machine

/-- R297: the addresses of the threads of a mask under a vector offset register. -/
def vecAddrs (c : Cap) (vo : SrcVal) (a : Word) : List (Nat × Int) :=
  (threadsOf a).map fun t => (t, (c.addr.toNat : Int) + (vAt vo.1 t).toInt)

/-- R115: a `.line` access stays in the line that holds the lowest active thread's address. -/
def lineX (on : Bool) (l : List (Nat × Int)) : X Unit :=
  match on, l with
  | true, (_, a0) :: _ => eachX l (fun a => a / 128 == a0 / 128) .ordLine
  | _, _ => .ok ()

/-- R22 steps 1 to 8 for a memory operand: the spaces, the permissions, the alignment with its cause, the size, and whether the
access has `.line` extent. -/
def memChecks (s : State) (c : Cap) (need : BitVec 7) (spaces : List Nat) (al : Nat) (alc : Cause) (size : Nat) (line : Bool)
    (l : List (Nat × Int)) : X Unit := do
  capUse c need spaces
  alignX al alc l
  lineX line l
  boundsX c size l
  extentX s (curG s) c size l

/-- The width in bytes of a vector load's code (R237). -/
def loadSize (w : Nat) : Nat := match w with | 0 | 1 | 8 | 9 => 1 | 2 | 3 | 10 | 11 => 2 | 4 | 12 | 13 => 4 | _ => 8

/-- R299: the lease that LSEL names, 0 for the context default. -/
def leaseOf (lsel : BitVec 2) : Nat := match lsel.toNat with | 0 => 0 | 1 => 4 | 2 => 16 | _ => 64

/-- R303: the policy of a non-temporal load on the SW4: evict-first, the partition as named. -/
def ntPolicy (p : Part) (nt : Bool) (q : Piece) : Piece :=
  if nt && p ≠ .sw2p then { q with mbf := q.mbf &&& 0b11100 ||| 1 } else q

/-- The ordering of an access: acquire, release and `.line` (R107). -/
structure Order where
  acq  : Option (BitVec 3)
  rel  : Option (BitVec 3)
  line : Bool
  deriving DecidableEq, Repr

def Order.none : Order := { acq := Option.none, rel := Option.none, line := false }

/-- The offsets of a load or of a fetching atomic. A re-execution whose destination is the offset register itself finds it empty and
takes what it holds: the unfinished threads' values are still the offsets (R49, R50). -/
def readOff (s : State) (vo : Src) (d : Dest) : X SrcVal :=
  let own := match d with
    | .vec r => vo.reg == r.toNat
    | .pair r => vo.reg == r.toNat || vo.reg == r.toNat + 1
    | _ => false
  if own && reexecuting s then .ok (vReg (curG s) vo.reg, .u 0) else readSrc (curG s) vo

/-- R300, R302, R303: a vector load. -/
def vload (i : Instr) (m : BitVec 2) (vo : Src) (vd : BitVec 6) (w : Nat) (cap : BitVec 4) (lease : Nat) (nt : Bool)
    (od : Order) (s : State) : Out :=
  commit i s do
    checkField i
    let g := curG s
    let pair := w == 5
    regsX g [(vo.reg, false), (vd.toNat, pair)]
    let d : Dest := if pair then .pair vd else .vec vd
    let c ← srcC g cap
    let off ← readOff s vo d
    destFree s d
    let a := activeMask g (curF s) m.toNat
    if a = 0 then .ok (advance i s) else
    let l := vecAddrs c off a
    let n := loadSize w
    memChecks s c permR [0, 1, 3, 5] n .memAlign n od.line l
    let (ps, us) ← placeAll s .load c (some cap.toNat) n (fun _ => 0) (fun _ => 0) l
    let o := { mkOp i s (.load w) a d (ps.map (ntPolicy s.part nt)) with
      acq := od.acq, rel := od.rel, lineExt := od.line, lease := lease }
    let s1 ← issueTo s o false us
    .ok (endMem i s s1 us none .load)

def execVld (m lsel : BitVec 2) (bo : BitVec 1) (cap : BitVec 4) (vo vd : BitVec 6) (w : BitVec 3) (s : State) : Out :=
  vload (.vld m lsel bo cap vo vd w) m (src32 vo bo) vd w.toNat cap (leaseOf lsel) false Order.none s
def execVldNt (m lsel : BitVec 2) (bo : BitVec 1) (cap : BitVec 4) (vo vd : BitVec 6) (w : BitVec 3) (s : State) : Out :=
  vload (.vldNt m lsel bo cap vo vd w) m (src32 vo bo) vd w.toNat cap (leaseOf lsel) true Order.none s
def execVldAcq (m : BitVec 2) (ln : BitVec 1) (scope : BitVec 3) (cap : BitVec 4) (vo vd : BitVec 6) (w : BitVec 3)
    (s : State) : Out :=
  vload (.vldAcq m ln scope cap vo vd w) m (src32 vo 0) vd w.toNat cap 0 false
    { acq := some scope, rel := none, line := ln == 1 } s

/-- R301, R302, R303: a vector store. -/
def vstore (i : Instr) (m : BitVec 2) (vo dv : Src) (w : Nat) (cap : BitVec 4) (nt sig : Bool) (od : Order)
    (s : State) : Out :=
  commit i s do
    checkField i
    let g := curG s
    regsX g [(vo.reg, false), (dv.reg, dv.pair)]
    let c ← srcC g cap
    let off ← readSrc g vo
    let v ← readSrc g dv
    let a := activeMask g (curF s) m.toNat
    if a = 0 then .ok (advance i s) else
    let l := vecAddrs c off a
    let n := 2 ^ w
    memChecks s c (permR ||| permW) [0, 1, 3] n .memAlign n od.line l
    stashRoX s g c l
    let (ps, us) ← placeAll s .store c (some cap.toNat) n (srcAt v) (fun _ => 0) l
    rangeX s ps
    let o := { mkOp i s (if nt && c.space ≠ 1 then .ntStore else .store) a .none ps with
      acq := od.acq, rel := od.rel, lineExt := od.line, sig := sig }
    let s1 ← issueTo s o false us
    .ok (endMem i s s1 us none .store)

/-- The source of a stored value: a pair for the 64-bit width. -/
def storeSrc (vd : BitVec 6) (b : BitVec 1) (w : BitVec 2) : Src := { reg := vd.toNat, pair := w == 3, bang := b == 1 }

def execVst (m : BitVec 2) (bd bo : BitVec 1) (cap : BitVec 4) (vo vd : BitVec 6) (sg : BitVec 1) (w : BitVec 2)
    (s : State) : Out :=
  vstore (.vst m bd bo cap vo vd sg w) m (src32 vo bo) (storeSrc vd bd w) w.toNat cap false (sg == 1) Order.none s
def execVstNt (m : BitVec 2) (bd bo : BitVec 1) (cap : BitVec 4) (vo vd : BitVec 6) (w : BitVec 2) (s : State) : Out :=
  vstore (.vstNt m bd bo cap vo vd w) m (src32 vo bo) (storeSrc vd bd w) w.toNat cap true false Order.none s
def execVstRel (m : BitVec 2) (ln : BitVec 1) (scope : BitVec 3) (cap : BitVec 4) (vo vd : BitVec 6) (sg : BitVec 1)
    (w : BitVec 2) (s : State) : Out :=
  vstore (.vstRel m ln scope cap vo vd sg w) m (src32 vo 0) (storeSrc vd 0 w) w.toNat cap false (sg == 1)
    { acq := none, rel := some scope, line := ln == 1 } s

/-- The lowest thread of a mask. -/
def lowest (m : Word) : Nat := (threadsOf m).headD 0

/-- R304: `lds`. -/
def execLds (m lsel : BitVec 2) (bo : BitVec 1) (cap : BitVec 4) (so vd : BitVec 6) (w : BitVec 3) (s : State) : Out :=
  let i : Instr := .lds m lsel bo cap so vd w
  commit i s do
    checkField i
    let g := curG s
    let pair := w == 5
    regsX g [(vd.toNat, pair)]
    let c ← srcC g cap
    let off ← srcS g so (bo == 1)
    let d : Dest := if pair then .pair vd else .vec vd
    destFree s d
    let a := activeMask g (curF s) m.toNat
    if a = 0 then .ok (advance i s) else
    let l := [(0, scalarAddr c off)]
    let n := loadSize w.toNat
    memChecks s c permR [0, 1, 3, 5] n .memAlign n false l
    let (ps, us) ← placeAll s .load c (some cap.toNat) n (fun _ => 0) (fun _ => 0) l
    let o := { mkOp i s (.load w.toNat) a d ps with uniform := true, lease := leaseOf lsel }
    let s1 ← issueTo s o (a == 0xFFFFFFFF) us
    .ok (endMem i s s1 us (some a) .load)

/-- R304: `sts`. -/
def execSts (m : BitVec 2) (bd bo : BitVec 1) (cap : BitVec 4) (so vd : BitVec 6) (sg : BitVec 1) (w : BitVec 2)
    (s : State) : Out :=
  let i : Instr := .sts m bd bo cap so vd sg w
  commit i s do
    checkField i
    let g := curG s
    let dv := storeSrc vd bd w
    regsX g [(dv.reg, dv.pair)]
    let c ← srcC g cap
    let off ← srcS g so (bo == 1)
    let v ← readSrc g dv
    let a := activeMask g (curF s) m.toNat
    if a = 0 then .ok (advance i s) else
    let l := [(lowest a, scalarAddr c off)]
    let n := 2 ^ w.toNat
    memChecks s c (permR ||| permW) [0, 1, 3] n .memAlign n false l
    stashRoX s g c l
    let (ps, us) ← placeAll s .store c (some cap.toNat) n (srcAt v) (fun _ => 0) l
    rangeX s ps
    let s1 ← issueTo s { mkOp i s .store a .none ps with sig := sg == 1 } false us
    .ok (endMem i s s1 us (some a) .store)

/-- R258, R259: `sld`. -/
def execSld (ord : BitVec 1) (scope : BitVec 3) (cap : BitVec 4) (so sd : BitVec 6) (w : BitVec 3) (s : State) : Out :=
  let i : Instr := .sld ord scope cap so sd w
  commit i s do
    checkField i
    let g := curG s
    let c ← srcC g cap
    let off ← srcS g so false
    let d : Dest := if sd = 0 then .none else .scalar sd
    destFree s d
    let l := [(0, scalarAddr c off)]
    let n := loadSize (8 + w.toNat)
    memChecks s c permR [0, 1, 3, 5] n .memAlign n false l
    let (ps, us) ← placeAll s .load c (some cap.toNat) n (fun _ => 0) (fun _ => 0) l
    let one := withBit 0 (lowest (curF s).mask) true
    let s1 ← issueTo s { mkOp i s (.load (8 + w.toNat)) one d ps with acq := if ord = 1 then some scope else none } false us
    .ok (endMem i s s1 us (some one) .load)

/-- R258, R259: `sst`. -/
def execSst (ord : BitVec 1) (scope : BitVec 3) (cap : BitVec 4) (so ss : BitVec 6) (sg : BitVec 1) (w : BitVec 2)
    (s : State) : Out :=
  let i : Instr := .sst ord scope cap so ss sg w
  commit i s do
    checkField i
    let g := curG s
    let c ← srcC g cap
    let off ← srcS g so false
    let v ← srcS g ss false
    let l := [(0, scalarAddr c off)]
    let n := 2 ^ w.toNat
    memChecks s c (permR ||| permW) [0, 1, 3] n .memAlign n false l
    stashRoX s g c l
    let (ps, us) ← placeAll s .store c (some cap.toNat) n (fun _ => v) (fun _ => 0) l
    rangeX s ps
    let one := withBit 0 (lowest (curF s).mask) true
    let s1 ← issueTo s { mkOp i s .store one .none ps with rel := (if ord = 1 then some scope else none), sig := sg == 1 } false us
    .ok (endMem i s s1 us (some one) .store)

/-- R305: the fetch of one thread's line into a level: a read that no register awaits. A translation that fails, a missing
right, a bypass policy, host space and mode-2 pages do nothing. No group waits for it. -/
def prefetchLine (s : State) (level : BitVec 2) (va : Nat) : State :=
  let g := curG s
  match xlateNow s g.ctx .load va with
  | .error _ => s
  | .ok l =>
    if l.mode = 2 || (l.mbf.toNat % 4 = 3 && s.part ≠ .sw2p) then s else
    let line := leafPa l va / 128
    let p : Piece := { thread := 0, space := 0, place := 128 * line, size := 128, val := 0, exp := 0, shown := va, gen := l.gen,
                       mode := l.mode, mbf := l.mbf, bound := [] }
    sendReq s { newReq (.prefetch (level == 1)) g.core g.ctx .read line with
      gen := l.gen, mode := l.mode, mbf := l.mbf, pieces := [p], pts := ptsOf s g.core,
      lease := (getX s g.ctx).dataLease.toNat }

/-- R305: the fill of a touched mapped line with I words; a fault drops it. -/
def prefetchStash (s : State) (a : Nat) : State :=
  let g := curG s
  let fails (e : MapEntry) : Bool := (List.range 32).any fun j =>
    let k := a / 128 * 32 + j
    !(swordAt s g.core k).v && (bindWord s g.core e .fill k).toOption.isNone
  match entryAt (getC s g.core) g.ctx a with
  | none => s
  | some (_, e) =>
    if ((List.range 32).all fun j => (swordAt s g.core (a / 128 * 32 + j)).v) || fails e then s
    else startFill s g.core g.ctx none (a / 128)

/-- R305: `pfch`. Its access is checked as one byte. -/
def execPfch (m lsel : BitVec 2) (bo : BitVec 1) (cap : BitVec 4) (vo : BitVec 6) (s : State) : Out :=
  let i : Instr := .pfch m lsel bo cap vo
  commitNext i s do
    checkField i
    let g := curG s
    regsX g [(vo.toNat, false)]
    let c ← srcC g cap
    let off ← readSrc g (src32 vo bo)
    let l := vecAddrs c off (activeMask g (curF s) m.toNat)
    if l.isEmpty then .ok s else
    memChecks s c permR [0, 1, 3, 5] 1 .memAlign 1 false l
    .ok (l.foldl (fun s p =>
      if c.space = 3 then s else if c.space = 1 then prefetchStash s p.2.toNat else prefetchLine s lsel p.2.toNat) s)

/-! Tiles (R306). -/

/-- The last accepted operation that owns a tile of a pair. -/
def tileOwner (s : State) (core tile : Nat) : Option Nat :=
  ((getC s (2 * pairOf core)).towner.filter fun p => p.1 == tile).foldl (fun (b : Option Nat) p => some (max p.2 (b.getD 0))) none

/-- The tile pieces of the threads of an instruction. -/
def tilePieces (s : State) (val : Nat → DWord) (l : List (Nat × Int)) : List Piece :=
  l.map fun p =>
    { thread := p.1, space := 2, place := p.2.toNat, size := 4, val := val p.1,
      exp := match tileOwner s (curG s).core (p.2.toNat / 0x6000) with | some c => BitVec.ofNat 64 (c + 1) | none => 0,
      shown := p.2.toNat, gen := 0, mode := 0, mbf := 0, bound := [] }

/-- R306: `tld`. -/
def execTld (m : BitVec 2) (bo : BitVec 1) (cap : BitVec 4) (vo vd : BitVec 6) (s : State) : Out :=
  let i : Instr := .tld m bo cap vo vd
  commitNext i s do
    checkField i
    let g := curG s
    regsX g [(vo.toNat, false), (vd.toNat, false)]
    let c ← srcC g cap
    let off ← readSrc g (src32 vo bo)
    destFree s (.vec vd)
    let a := activeMask g (curF s) m.toNat
    if a = 0 then .ok s else
    let l := vecAddrs c off a
    memChecks s c permR [2] 4 .memAlign 4 false l
    issueTo s (mkOp i s (.load 4) a (.vec vd) (tilePieces s (fun _ => 0) l)) false []

/-- R306: `tst`. -/
def execTst (m : BitVec 2) (bd bo : BitVec 1) (cap : BitVec 4) (vo vd : BitVec 6) (s : State) : Out :=
  let i : Instr := .tst m bd bo cap vo vd
  commitNext i s do
    checkField i
    let g := curG s
    regsX g [(vo.toNat, false), (vd.toNat, false)]
    let c ← srcC g cap
    let off ← readSrc g (src32 vo bo)
    let v ← readSrc g (src32 vd bd)
    let a := activeMask g (curF s) m.toNat
    if a = 0 then .ok s else
    let l := vecAddrs c off a
    memChecks s c (permR ||| permW) [2] 4 .memAlign 4 false l
    match (List.range 16).find? fun t => (l.any fun p => p.2.toNat / 0x6000 == t) && (tileOwner s g.core t).isSome with
    | some t => .error (.wait (.tile (BitVec.ofNat 4 t)))
    | none => issueTo s (mkOp i s .tileStore a .none (tilePieces s (srcAt v) l)) false []

end Sys2Proof.Machine
end

