-- ==== Sys2Proof/Machine/Atomic.lean ====
section
/-!
DEFINITION. Vector, row and scalar atomics (R132 to R140, R313 to R316).
-/
namespace Sys2Proof.Machine

/-- R235: the ordering that an OS code names. -/
def osOrder (os : BitVec 4) : Order :=
  let n := os.toNat
  let sc (k : Nat) : Option (BitVec 3) := some (BitVec.ofNat 3 k)
  if n = 0 then Order.none else
  if n ≤ 5 then { acq := none, rel := sc n, line := false } else
  if n ≤ 10 then { acq := sc (n - 5), rel := none, line := false } else
  { acq := sc (n - 10), rel := sc (n - 10), line := false }

/-- R13: the permissions of an atomic. -/
def atomPerms (fetch : Bool) : BitVec 7 := permA ||| permW ||| (if fetch then permR else 0)

/-- R369: whether AtomicOp requests are enabled at the port of the core's die. -/
def hostAtomics (s : State) (core : Nat) : Bool := (getDie s (dieOf core)).atomicOp

/-- R134: the checks of step 6 on an atomic through a host-space capability, ahead of alignment. -/
def hostAtomX (s : State) (c : Cap) (hostable : Bool) (l : List (Nat × Int)) : X Unit :=
  let a := addr56 ((l.map fun p => p.2).headD 0)
  if c.space ≠ 3 then .ok ()
  else if !hostable then trapAt .atomOp a
  else if !hostAtomics s (curG s).core then trapAt .xltHostatom a
  else .ok ()

/-- R134, R369: the checks on a page of mode 2, found at translation. -/
def modeAtomX (s : State) (c : Cap) (hostable : Bool) (ps : List Piece) : X Unit :=
  match ps.find? fun p => c.space == 0 && p.space == 3 with
  | none => .ok ()
  | some p =>
    if !hostable then trapAt .atomOp p.shown
    else if !hostAtomics s (curG s).core then trapAt .xltHostatom p.shown
    else .ok ()

/-- The checks of R22 for an atomic. -/
def atomChecks (s : State) (c : Cap) (fetch hostable : Bool) (spaces : List Nat) (n : Nat) (l : List (Nat × Int)) : X Unit := do
  capUse c (atomPerms fetch) spaces
  hostAtomX s c hostable l
  alignX n .atomAlign l
  boundsX c n l
  extentX s (curG s) c n l
  stashRoX s (curG s) c l

/-- R313: the operand names of an atomic: its operand and destination, and for cas the expected value. -/
def atomNames (a : AOp) (vd : Nat) : List Nat :=
  match a with
  | .cas 8 => [vd, vd + 1, vd + 2, vd + 3]
  | .cas _ => [vd, vd + 1]
  | _ => if aopSize a = 8 then [vd, vd + 1] else [vd]

/-- R239 step 5 for an atomic: the names encoded, then the pair rule (R313, R314), then the names that follow. -/
def atomRegs (g : Group) (a : AOp) (vo : Option Nat) (vd : Nat) : X Unit := do
  (vo.toList).forM fun r => nameX g r
  nameX g vd
  let k := (atomNames a vd).length
  needX (vd % k == 0) .regPair
  (atomNames a vd).forM fun r => nameX g r

/-- R313: an operand name read. A re-executed fetching atomic does not block on the bit that it set itself. -/
def atomSrc (s : State) (g : Group) (own : Bool) (r : Nat) : X VVal :=
  if vIsEmpty g r && !(own && reexecuting s) then .error (.wait (fillCond g false (BitVec.ofNat 6 r))) else .ok (vReg g r)

/-- R313, R314: a vector atomic. -/
def vatom (i : Instr) (a : AOp) (m : BitVec 2) (sg fetch : Bool) (os cap : BitVec 4) (vo vd : BitVec 5) (s : State) : Out :=
  commit i s do
    checkField i
    let g := curG s
    let d := vd.toNat
    atomRegs g a (some vo.toNat) d
    let wide := aopSize a = 8
    let r6 : BitVec 6 := BitVec.zeroExtend 6 vd
    let dst : Dest := if !fetch then .none else if wide then .pair r6 else .vec r6
    let c ← srcC g cap
    let off ← readOff s { reg := vo.toNat, pair := false, bang := false } dst
    let xs ← (atomNames a d).mapM fun r => atomSrc s g (fetch && (r == d || (wide && r == d + 1))) r
    let act := activeMask g (curF s) m.toNat
    if act = 0 then .ok (advance i s) else
    let l := vecAddrs c off act
    atomChecks s c fetch (aopHost a) [0, 1, 3] (aopSize a) l
    let w (k t : Nat) : DWord := BitVec.zeroExtend 64 (vAt (xs.getD k (.u 0)) t)
    let val (t : Nat) : DWord := if wide then w 0 t ||| (w 1 t <<< 32) else w 0 t
    let ex (t : Nat) : DWord := if wide then w 2 t ||| (w 3 t <<< 32) else w 1 t
    let (ps, us) ← placeAll s (.atomic fetch) c (some cap.toNat) (aopSize a) val ex l
    modeAtomX s c (aopHost a) ps
    rangeX s ps
    let od := osOrder os
    let s1 ← issueTo s { mkOp i s (.atomic a fetch) act dst ps with acq := od.acq, rel := od.rel, sig := sg } false us
    .ok (endMem i s s1 us none .atomic)

def execVatomAddB32 (m : BitVec 2) (sg f : BitVec 1) (os cap : BitVec 4) (vo vd : BitVec 5) (s : State) : Out :=
  vatom (.vatomAddB32 m sg f os cap vo vd) (.add 4) m (sg == 1) (f == 1) os cap vo vd s
def execVatomMinI32 (m : BitVec 2) (sg f : BitVec 1) (os cap : BitVec 4) (vo vd : BitVec 5) (s : State) : Out :=
  vatom (.vatomMinI32 m sg f os cap vo vd) (.smin 4) m (sg == 1) (f == 1) os cap vo vd s
def execVatomMaxI32 (m : BitVec 2) (sg f : BitVec 1) (os cap : BitVec 4) (vo vd : BitVec 5) (s : State) : Out :=
  vatom (.vatomMaxI32 m sg f os cap vo vd) (.smax 4) m (sg == 1) (f == 1) os cap vo vd s
def execVatomMinN32 (m : BitVec 2) (sg f : BitVec 1) (os cap : BitVec 4) (vo vd : BitVec 5) (s : State) : Out :=
  vatom (.vatomMinN32 m sg f os cap vo vd) (.umin 4) m (sg == 1) (f == 1) os cap vo vd s
def execVatomMaxN32 (m : BitVec 2) (sg f : BitVec 1) (os cap : BitVec 4) (vo vd : BitVec 5) (s : State) : Out :=
  vatom (.vatomMaxN32 m sg f os cap vo vd) (.umax 4) m (sg == 1) (f == 1) os cap vo vd s
def execVatomAndB32 (m : BitVec 2) (sg f : BitVec 1) (os cap : BitVec 4) (vo vd : BitVec 5) (s : State) : Out :=
  vatom (.vatomAndB32 m sg f os cap vo vd) (.and 4) m (sg == 1) (f == 1) os cap vo vd s
def execVatomOrB32 (m : BitVec 2) (sg f : BitVec 1) (os cap : BitVec 4) (vo vd : BitVec 5) (s : State) : Out :=
  vatom (.vatomOrB32 m sg f os cap vo vd) (.or 4) m (sg == 1) (f == 1) os cap vo vd s
def execVatomXorB32 (m : BitVec 2) (sg f : BitVec 1) (os cap : BitVec 4) (vo vd : BitVec 5) (s : State) : Out :=
  vatom (.vatomXorB32 m sg f os cap vo vd) (.xor 4) m (sg == 1) (f == 1) os cap vo vd s
def execVatomAddB64 (m : BitVec 2) (sg f : BitVec 1) (os cap : BitVec 4) (vo vd : BitVec 5) (s : State) : Out :=
  vatom (.vatomAddB64 m sg f os cap vo vd) (.add 8) m (sg == 1) (f == 1) os cap vo vd s
def execVatomMinI64 (m : BitVec 2) (sg f : BitVec 1) (os cap : BitVec 4) (vo vd : BitVec 5) (s : State) : Out :=
  vatom (.vatomMinI64 m sg f os cap vo vd) (.smin 8) m (sg == 1) (f == 1) os cap vo vd s
def execVatomMaxI64 (m : BitVec 2) (sg f : BitVec 1) (os cap : BitVec 4) (vo vd : BitVec 5) (s : State) : Out :=
  vatom (.vatomMaxI64 m sg f os cap vo vd) (.smax 8) m (sg == 1) (f == 1) os cap vo vd s
def execVatomMinN64 (m : BitVec 2) (sg f : BitVec 1) (os cap : BitVec 4) (vo vd : BitVec 5) (s : State) : Out :=
  vatom (.vatomMinN64 m sg f os cap vo vd) (.umin 8) m (sg == 1) (f == 1) os cap vo vd s
def execVatomMaxN64 (m : BitVec 2) (sg f : BitVec 1) (os cap : BitVec 4) (vo vd : BitVec 5) (s : State) : Out :=
  vatom (.vatomMaxN64 m sg f os cap vo vd) (.umax 8) m (sg == 1) (f == 1) os cap vo vd s
def execVatomAndB64 (m : BitVec 2) (sg f : BitVec 1) (os cap : BitVec 4) (vo vd : BitVec 5) (s : State) : Out :=
  vatom (.vatomAndB64 m sg f os cap vo vd) (.and 8) m (sg == 1) (f == 1) os cap vo vd s
def execVatomOrB64 (m : BitVec 2) (sg f : BitVec 1) (os cap : BitVec 4) (vo vd : BitVec 5) (s : State) : Out :=
  vatom (.vatomOrB64 m sg f os cap vo vd) (.or 8) m (sg == 1) (f == 1) os cap vo vd s
def execVatomXorB64 (m : BitVec 2) (sg f : BitVec 1) (os cap : BitVec 4) (vo vd : BitVec 5) (s : State) : Out :=
  vatom (.vatomXorB64 m sg f os cap vo vd) (.xor 8) m (sg == 1) (f == 1) os cap vo vd s
def execVatomXchgB32 (m : BitVec 2) (sg f : BitVec 1) (os cap : BitVec 4) (vo vd : BitVec 5) (s : State) : Out :=
  vatom (.vatomXchgB32 m sg f os cap vo vd) (.xchg 4) m (sg == 1) (f == 1) os cap vo vd s
def execVatomXchgB64 (m : BitVec 2) (sg f : BitVec 1) (os cap : BitVec 4) (vo vd : BitVec 5) (s : State) : Out :=
  vatom (.vatomXchgB64 m sg f os cap vo vd) (.xchg 8) m (sg == 1) (f == 1) os cap vo vd s
def execVatomFaddF32 (m : BitVec 2) (sg f : BitVec 1) (os cap : BitVec 4) (vo vd : BitVec 5) (s : State) : Out :=
  vatom (.vatomFaddF32 m sg f os cap vo vd) (.faddF32 false) m (sg == 1) (f == 1) os cap vo vd s
def execVatomFaddF64 (m : BitVec 2) (sg f : BitVec 1) (os cap : BitVec 4) (vo vd : BitVec 5) (s : State) : Out :=
  vatom (.vatomFaddF64 m sg f os cap vo vd) (.faddF64 false) m (sg == 1) (f == 1) os cap vo vd s
def execVatomFaddBf16x2 (m : BitVec 2) (sg f : BitVec 1) (os cap : BitVec 4) (vo vd : BitVec 5) (s : State) : Out :=
  vatom (.vatomFaddBf16x2 m sg f os cap vo vd) (.faddBf16x2 false) m (sg == 1) (f == 1) os cap vo vd s
def execVatomFaddF16x2 (m : BitVec 2) (sg f : BitVec 1) (os cap : BitVec 4) (vo vd : BitVec 5) (s : State) : Out :=
  vatom (.vatomFaddF16x2 m sg f os cap vo vd) (.faddF16x2 false) m (sg == 1) (f == 1) os cap vo vd s
def execVatomFaddF32Mrg (m : BitVec 2) (sg f : BitVec 1) (os cap : BitVec 4) (vo vd : BitVec 5) (s : State) : Out :=
  vatom (.vatomFaddF32Mrg m sg f os cap vo vd) (.faddF32 true) m (sg == 1) (f == 1) os cap vo vd s
def execVatomFaddF64Mrg (m : BitVec 2) (sg f : BitVec 1) (os cap : BitVec 4) (vo vd : BitVec 5) (s : State) : Out :=
  vatom (.vatomFaddF64Mrg m sg f os cap vo vd) (.faddF64 true) m (sg == 1) (f == 1) os cap vo vd s
def execVatomFaddBf16x2Mrg (m : BitVec 2) (sg f : BitVec 1) (os cap : BitVec 4) (vo vd : BitVec 5) (s : State) : Out :=
  vatom (.vatomFaddBf16x2Mrg m sg f os cap vo vd) (.faddBf16x2 true) m (sg == 1) (f == 1) os cap vo vd s
def execVatomFaddF16x2Mrg (m : BitVec 2) (sg f : BitVec 1) (os cap : BitVec 4) (vo vd : BitVec 5) (s : State) : Out :=
  vatom (.vatomFaddF16x2Mrg m sg f os cap vo vd) (.faddF16x2 true) m (sg == 1) (f == 1) os cap vo vd s
def execVatomCasB32 (m : BitVec 2) (sg : BitVec 1) (os cap : BitVec 4) (vo vd : BitVec 5) (s : State) : Out :=
  vatom (.vatomCasB32 m sg os cap vo vd) (.cas 4) m (sg == 1) true os cap vo vd s
def execVatomCasB64 (m : BitVec 2) (sg : BitVec 1) (os cap : BitVec 4) (vo vd : BitVec 5) (s : State) : Out :=
  vatom (.vatomCasB64 m sg os cap vo vd) (.cas 8) m (sg == 1) true os cap vo vd s

/-- R139, R140, R315: `vratom.add.bf16`. -/
def execVratomAddBf16 (m : BitVec 2) (sg f : BitVec 1) (os cap : BitVec 4) (so vd : BitVec 5) (s : State) : Out :=
  let i : Instr := .vratomAddBf16 m sg f os cap so vd
  commit i s do
    checkField i
    let g := curG s
    let fetch := f == 1
    let d := vd.toNat
    nameX g d
    let c ← srcC g cap
    let off ← srcS g (BitVec.zeroExtend 6 so) false
    let v ← atomSrc s g fetch d
    let act := activeMask g (curF s) m.toNat
    if act = 0 then .ok (advance i s) else
    let l := [(lowest act, scalarAddr c off)]
    capUse c (atomPerms fetch) [0, 1]
    alignX 128 .atomAlign l
    boundsX c 128 l
    extentX s g c 128 l
    let a := (scalarAddr c off).toNat
    if c.space = 1 && (mappedAt s g.core g.ctx a) then trapAt .atomOp a else
    let (ps, us) ← placeAll s (.rowAtomic fetch) c (some cap.toNat) 128 (fun _ => 0) (fun _ => 0) l
    let words := ps.flatMap fun p => (threadsOf act).map fun t =>
      { p with thread := t, place := p.place + 4 * t, size := 4, val := BitVec.zeroExtend 64 (vAt v t) }
    rangeX s words
    let od := osOrder os
    let dst : Dest := if fetch then .vec (BitVec.zeroExtend 6 vd) else .none
    let s1 ← issueTo s { mkOp i s (.rowAtomic fetch) act dst words with acq := od.acq, rel := od.rel, sig := sg == 1 } false us
    .ok (endMem i s s1 us (some act) .atomic)

/-- R237: the operation of an AOP code. -/
def aopCode (n : Nat) : AOp :=
  match n with
  | 0 => .add 4 | 1 => .add 8 | 2 => .smin 4 | 3 => .smax 4 | 4 => .umin 4 | 5 => .umax 4 | 6 => .smin 8 | 7 => .smax 8
  | 8 => .umin 8 | 9 => .umax 8 | 10 => .and 4 | 11 => .or 4 | 12 => .xor 4 | 13 => .and 8 | 14 => .or 8 | 15 => .xor 8
  | 16 => .xchg 4 | 17 => .xchg 8 | 18 => .cas 4 | 19 => .cas 8 | 20 => .faddF32 false | 21 => .faddF64 false
  | 22 => .faddBf16x2 false | 23 => .faddF16x2 false | 24 => .faddF32 true | 25 => .faddF64 true | 26 => .faddBf16x2 true
  | _ => .faddF16x2 true

/-- Whether an operation is a compare and swap. -/
def isCas (a : AOp) : Bool := match a with | .cas _ => true | _ => false

/-- R316: `satom`. -/
def execSatom (aoph : BitVec 2) (sg f : BitVec 1) (os cap : BitVec 4) (so sd : BitVec 5) (func : BitVec 3) (s : State) : Out :=
  let i : Instr := .satom aoph sg f os cap so sd func
  commit i s do
    checkField i
    let g := curG s
    let a := aopCode (aopOf aoph func)
    let fetch := f == 1
    let d : BitVec 6 := BitVec.zeroExtend 6 sd
    needX (!isCas a || sd.toNat % 2 == 0) .regPair
    let c ← srcC g cap
    let off ← srcS g (BitVec.zeroExtend 6 so) false
    let v ← srcS g d false
    let e ← if isCas a then srcS g (d + 1) false else .ok 0
    let l := [(0, scalarAddr c off)]
    atomChecks s c fetch (aopHost a) [0, 1, 3] (aopSize a) l
    let (ps, us) ← placeAll s (.atomic fetch) c (some cap.toNat) (aopSize a) (fun _ => v) (fun _ => e) l
    modeAtomX s c (aopHost a) ps
    rangeX s ps
    let one := withBit 0 (lowest (curF s).mask) true
    let od := osOrder os
    let dst : Dest := if fetch && sd ≠ 0 then .scalar d else .none
    let s1 ← issueTo s { mkOp i s (.atomic a fetch) one dst ps with acq := od.acq, rel := od.rel, sig := sg == 1 } false us
    .ok (endMem i s s1 us (some one) .atomic)

end Sys2Proof.Machine
end

