-- ==== Sys2Proof/Machine/Capability.lean ====
section
/-!
DEFINITION. Capability instructions, translation registers, and the load and store of a capability (R16 to R19, R38, R39,
R307 to R310).
-/
namespace Sys2Proof.Machine

/-- R310: a capability destination, which is interlocked while empty. -/
def dstC (g : Group) (r : BitVec 4) : X Unit := if cIsEmpty g r then .error (.hold 11) else .ok ()

/-- R307: a derivation: the scalar operand, the source with R22 steps 1 to 3, and the result. -/
def derive_ (i : Instr) (b2 : BitVec 1) (ss2 : BitVec 6) (cs cd : BitVec 4) (f : Cap → DWord → X Cap) (s : State) : Out :=
  commitNext i s do
    checkField i
    let g := curG s
    let c ← srcC g cs
    dstC g cd
    let v ← srcS g ss2 (b2 == 1)
    capValid c
    let r ← f c v
    .ok (modCur s fun g => cPut g cd r)

/-- R307: `cmk`. -/
def execCmk (b2 : BitVec 1) (ss2 : BitVec 6) (cs cd : BitVec 4) (s : State) : Out :=
  derive_ (.cmk b2 ss2 cs cd) b2 ss2 cs cd (fun c v => .ok (capWithAddr c ((c.addr.toNat : Int) + v.toInt))) s

/-- R12, R307: bounds that do not widen. -/
def boundTo (c : Cap) (v : DWord) : X Cap :=
  let b := c.addr.toNat
  let t := b + v.toNat
  let r := capWithBounds c b t
  match capDecode c, capDecode r with
  | some (lo, hi), some (lo', hi') => if 2 ^ 56 < t || lo' < lo || hi < hi' then trapX .capMono else .ok r
  | _, _ => trapX .capMono

/-- R307: `cbnd`. -/
def execCbnd (b2 : BitVec 1) (ss2 : BitVec 6) (cs cd : BitVec 4) (s : State) : Out :=
  derive_ (.cbnd b2 ss2 cs cd) b2 ss2 cs cd boundTo s

/-- R307: `cperm`. -/
def execCperm (b2 : BitVec 1) (ss2 : BitVec 6) (cs cd : BitVec 4) (s : State) : Out :=
  derive_ (.cperm b2 ss2 cs cd) b2 ss2 cs cd (fun c v =>
    let p : BitVec 7 := BitVec.truncate 7 v
    if p &&& ~~~ c.perms ≠ 0 then trapX .capMono else .ok { c with perms := p }) s

/-- R307: `cseal`. -/
def execCseal (cs cd : BitVec 4) (s : State) : Out :=
  commitNext (.cseal cs cd) s do
    let g := curG s
    let c ← srcC g cs
    dstC g cd
    if c.tag && (capDecode c).isNone then trapAt .capFormat c.addr.toNat else
    .ok (modCur s fun g => cPut g cd { c with sealed := true })

/-- R308: a field of a capability. -/
def capField (c : Cap) (sel : Nat) : DWord :=
  match sel, capDecode c with
  | 0, _ => BitVec.zeroExtend 64 c.addr
  | 1, some (b, _) => BitVec.ofNat 64 b
  | 2, some (_, t) => BitVec.ofNat 64 t
  | 3, _ => BitVec.zeroExtend 64 c.perms ||| (if c.sealed then 0x80 else 0)
  | 4, _ => BitVec.zeroExtend 64 c.space
  | 5, _ => if c.tag then 1 else 0
  | 6, _ => if c.sealed then 1 else 0
  | 7, some (b, t) => BitVec.ofNat 64 (t - b)
  | _, _ => 0

/-- R308: `cget`. -/
def execCget (sel : BitVec 6) (cs : BitVec 4) (sd : BitVec 6) (s : State) : Out :=
  commitNext (.cget sel cs sd) s do
    checkField (.cget sel cs sd)
    let c ← srcC (curG s) cs
    dstS (curG s) sd
    .ok (modCur s fun g => sPut g sd (capField c sel.toNat))

/-- R39: the translation that a register waits for: its walk, or the TLB's answer on its way. A later `xbind` takes the place of
an earlier one. -/
def bindXw (s : State) (n : Nat) (creg : BitVec 4) (va : Nat) : State :=
  let g := curG s
  let mine (w : Walk) : Bool := match w.why with | .xwreg u k _ => u == g.uid && k == n | _ => false
  let s1 := { s with walks := s.walks.filter fun p => !mine p.2 }
  let s2 := setG s1 g.uid { g with xw := fmod XW.zero g.xw n fun x => { x with valid := false } }
  let (id, s3) := fresh s2
  let hit := (tlbFind (getC s g.core) g.ctx va).map fun l => Walked.leaf (va / 2 ^ 16) l
  let w : Walk := { ctx := g.ctx, core := g.core, va, why := .xwreg g.uid n creg, done := hit }
  push { s3 with walks := fput s3.walks id w } (if hit.isSome then .xwLoad g.uid n else .pageWalkComplete id)

/-- R39: `xbind`. -/
def execXbind (b2 : BitVec 1) (ss2 : BitVec 6) (cs : BitVec 4) (n : BitVec 3) (s : State) : Out :=
  commitNext (.xbind b2 ss2 cs n) s do
    checkField (.xbind b2 ss2 cs n)
    let g := curG s
    let c ← srcC g cs
    let v ← srcS g ss2 (b2 == 1)
    capValid c
    if c.space ≠ 0 then trapAt .capSpace c.addr.toNat else
    let a := scalarAddr c v
    boundsX c 1 [(0, a)]
    .ok (bindXw s n.toNat cs a.toNat)

/-- The leaf of a page that the issuing fragment has translated, for its TAGS bit (R16, R19). -/
def pageTags (s : State) (va : Nat) : Bool :=
  match xlate s (curG s) (curF s) .load va with
  | .ok l => l.tags && l.mode != 2
  | _ => match xlate s (curG s) (curF s) .store va with
    | .ok l => l.tags && l.mode != 2
    | _ => false

/-- R309, R310: `cld`. No translation register serves it: a register does not hold the page's TAGS bit (log 24). -/
def execCld (bo : BitVec 1) (cap : BitVec 4) (so : BitVec 6) (cd : BitVec 4) (s : State) : Out :=
  let i : Instr := .cld bo cap so cd
  commit i s do
    checkField i
    let g := curG s
    let c ← srcC g cap
    destFree s (.capreg cd)
    let off ← srcS g so (bo == 1)
    let l := [(0, scalarAddr c off)]
    memChecks s c permR [0, 1, 3, 5] 16 .capAlign 16 false l
    let (ps, us) ← placeAll s .load c none 16 (fun _ => 0) (fun _ => 0) l
    let one := withBit 0 (lowest (curF s).mask) true
    let keeps := c.space = 1 || (ps.all fun p => p.space == 0 && pageTags s p.shown)
    let s1 ← issueTo s (mkOp i s (.capLoad (capPerm c 5 && keeps)) one (.capreg cd) ps) false us
    .ok (endMem i s s1 us (some one) .load)

/-- R19, R309: `cst`. -/
def execCst (bo : BitVec 1) (cap : BitVec 4) (so : BitVec 6) (cs : BitVec 4) (s : State) : Out :=
  let i : Instr := .cst bo cap so cs
  commit i s do
    checkField i
    let g := curG s
    let c ← srcC g cap
    let v ← srcC g cs
    let off ← srcS g so (bo == 1)
    let l := [(0, scalarAddr c off)]
    capUse c (if v.tag then permW ||| permC else permW) (if v.tag then [0, 1] else [0, 1, 3])
    if v.tag && !capPerm v 6 && c.space ≠ 1 then trapAt .capGlobal c.addr.toNat else
    alignX 16 .capAlign l
    boundsX c 16 l
    extentX s g c 16 l
    stashRoX s g c l
    let (ps, us) ← placeAll s .store c none 16 (fun _ => 0) (fun _ => 0) l
    match (ps.find? fun p => v.tag && p.space ≠ 1 && !pageTags s p.shown) with
    | some p => trapAt .capTagstore p.shown
    | none =>
      rangeX s ps
      let one := withBit 0 (lowest (curF s).mask) true
      let s1 ← issueTo s (mkOp i s (.capStore v) one .none ps) false us
      .ok (endMem i s s1 us (some one) .store)

end Sys2Proof.Machine
end

