-- ==== Sys2Proof/Machine/Sync.lean ====
section
/-!
DEFINITION. Fences, locks, monitors, barriers, teams and `launch` (R105, R113, R117, R141 to R160, R178, R269, R302, R318 to
R322, R424).
-/
namespace Sys2Proof.Machine

/-! Fences (R113, R117). -/

/-- A hold of the fence kind enters the pipeline, unless all that it waits for is already done. -/
def holdAfter (s : State) (o : Op) : State :=
  if fenceDone s (curG s) { o with id := s.nextId, seq := s.nextId } then s else issueOp s o

/-- R113: `fence.K.S`. At scope grp it holds nothing back (R106). -/
def execFence (scope : BitVec 3) (k : BitVec 2) (s : State) : Out :=
  commitNext (.fence scope k) s do
    checkField (.fence scope k)
    if scope = 0 then .ok s else .ok (holdAfter s { mkOp (.fence scope k) s (.fence k) 0 .none [] with acq := some scope })

/-- R117: `ntdrain`. -/
def execNtdrain (s : State) : Out := commitNext .ntdrain s (.ok (holdAfter s (mkOp .ntdrain s .ntdrain 0 .none [])))

/-! Locks (R142 to R145, R153, R319). -/

/-- The mask of an access that the instruction makes once (R304). -/
def oneMask (s : State) : Word := withBit 0 (lowest (curF s).mask) true

/-- The destination of a status: s0 discards it. -/
def statusDest (sd : BitVec 6) : Dest := if sd = 0 then .none else .scalar sd

/-- R22 for a line lock: the address, with the checks of R142. -/
def lockAddr (s : State) (c : Cap) (so : DWord) : X (List (Nat × Int)) := do
  let l := [(0, scalarAddr c so)]
  memChecks s c (permL ||| permR) [0] 128 .lckAlign 128 false l
  .ok l

/-- A lock request's place: its line translated (R36). -/
def lockPlace (s : State) (cap : BitVec 4) (c : Cap) (l : List (Nat × Int)) : X (List Piece × Unf) :=
  placeAll s .lock c (some cap.toNat) 128 (fun _ => 0) (fun _ => 0) l

/-- R142, R145, R319: an acquire: the line enters the held-lock list, and sd is empty until the home's status. -/
def acquire (i : Instr) (cap : BitVec 4) (so sd : BitVec 6) (st : Option (BitVec 6)) (s : State) : Out :=
  commit i s do
    checkField i
    let g := curG s
    let c ← srcC g cap
    let t ← match st with
      | some r => srcS g r false
      | none => .ok 0
    let off ← srcS g so false
    let l ← lockAddr s c off
    needX (g.locks.length < 8) .lckLimit
    destFree s (.scalar sd)
    let (ps, us) ← lockPlace s cap c l
    let ent (p : Piece) : LockEnt :=
      { line := p.place / 128, gen := p.gen, granted := false, marked := false, remain := 0, sd, op := s.nextId }
    let s1 := modCur s fun g => { g with locks := g.locks ++ ps.map ent }
    let s2 ← issueTo s1 { mkOp i s (.lockAcq (lo32 t) st.isNone) 0 (.scalar sd) ps with acq := some 4 } false us
    .ok (endMem i s s2 us (some (oneMask s)) .lock)

def execLckAcq (cap : BitVec 4) (st so sd : BitVec 6) (s : State) : Out :=
  acquire (.lckAcq cap st so sd) cap so sd (some st) s
def execLckTry (cap : BitVec 4) (so sd : BitVec 6) (s : State) : Out := acquire (.lckTry cap so sd) cap so sd none s

/-- R145, R319: `lck.rel`: the entry of the hold is removed at issue, one of another acquire of the line stays until the home's reply; the release
is sent when its marker drains. -/
def execLckRel (cap : BitVec 4) (so : BitVec 6) (s : State) : Out :=
  let i : Instr := .lckRel cap so
  commit i s do
    checkField i
    let g := curG s
    let c ← srcC g cap
    let off ← srcS g so false
    let l ← lockAddr s c off
    let (ps, us) ← lockPlace s cap c l
    match ps.find? fun p => !(g.locks.any fun e => e.line == p.place / 128 && e.granted) with
    | some p => trapAt .lckNotheld p.shown
    | none =>
      let s1 := modCur s fun g => { g with locks := g.locks.filter fun e => !(e.granted && ps.any fun p => p.place / 128 == e.line) }
      let s2 ← issueTo s1 { mkOp i s .lockRel 0 .none ps with rel := some 4 } false us
      .ok (endMem i s s2 us (some (oneMask s)) .lock)

/-- R153, R319: `lck.stat`, a load of the home's snapshot. -/
def execLckStat (cap : BitVec 4) (so sd : BitVec 6) (s : State) : Out :=
  let i : Instr := .lckStat cap so sd
  commit i s do
    checkField i
    let g := curG s
    let c ← srcC g cap
    let off ← srcS g so false
    let l ← lockAddr s c off
    destFree s (.scalar sd)
    let (ps, us) ← lockPlace s cap c l
    let s1 ← issueTo s (mkOp i s .lockStat 0 (.scalar sd) ps) false us
    .ok (endMem i s s1 us (some (oneMask s)) .lock)

/-! Monitors (R154, R320). -/

/-- R154, R249, R320: `mwait`: sd is empty, and the fragment suspends behind the instruction, until the home's status fills it. -/
def execMwait (cap : BitVec 4) (st so sd : BitVec 6) (s : State) : Out :=
  let i : Instr := .mwait cap st so sd
  commit i s do
    checkField i
    let g := curG s
    let c ← srcC g cap
    let e ← srcS g sd false
    let t ← srcS g st false
    let off ← srcS g so false
    let l := [(0, scalarAddr c off)]
    memChecks s c permR [0] 4 .monForm 4 false l
    let (ps, us) ← placeAll s .monitor c (some cap.toNat) 4 (fun _ => 0) (fun _ => 0) l
    match ps with
    | [] => .ok (endMem i s s us (some (oneMask s)) .load)
    | p :: _ =>
      let s1 := issueOp (modCur s fun g => setEmpty g (statusDest sd) true) (mkOp i s (.monitorWait (lo32 e) (lo32 t)) 0 (statusDest sd) ps)
      .ok (suspendCur (advance i s1) (.monitor p.place))

/-! Barriers (R157 to R160, R321, R424). -/

/-- A barrier word's fields (R157). -/
def barArr (w : Nat) : Nat := fld w 0 16
def barExp (w : Nat) : Nat := fld w 16 16
def barDrop (w : Nat) : Nat := fld w 32 16
def barPh (w : Nat) : Bool := fld w 48 1 = 1

/-- A barrier word of four fields; its reserved bits are written as zero (R157). -/
def barWord (arr exp drop : Nat) (ph : Bool) : Nat :=
  arr % 2 ^ 16 + 2 ^ 16 * (exp % 2 ^ 16) + 2 ^ 32 * (drop % 2 ^ 16) + 2 ^ 48 * ph.toNat

/-- R158: whether the evaluation after `know` arrivals of the current phase completes it. -/
def barCompletes (w know : Nat) : Bool := barArr w + know == barExp w

/-- R158: the update of a barrier word. -/
def barUpdate (w know dnow knext dnext : Nat) : Nat :=
  if barCompletes w know then barWord knext (barExp w - (barDrop w + dnow)) dnext (!barPh w)
  else barWord (barArr w + know) (barExp w) (barDrop w + dnow) (barPh w)

/-- An arrival at a barrier word: its group and operation, its lane, whether it drops. -/
structure Arrival where
  uid  : Nat
  op   : Nat
  lane : Nat
  drop : Bool
  deriving DecidableEq, Repr

/-- R158: arrivals ranked by ascending issuing lane. -/
def rankInsert (x : Arrival) : List Arrival → List Arrival
  | [] => [x]
  | y :: l => if x.lane < y.lane then x :: y :: l else y :: rankInsert x l
def rank (l : List Arrival) : List Arrival := l.foldl (fun m x => rankInsert x m) []

/-- The value of a barrier word of a core. -/
def barRead (s : State) (core addr : Nat) : Nat := readLe (getC s core).stash addr 8

/-- R158: one combined update of a word: the state, and each arrival with the PH in which it counted. A completion that the
surplus makes already due is evaluated in the next cycle. -/
def barCount (s : State) (core addr : Nat) (l : List Arrival) : State × List (Arrival × Bool) :=
  let w := barRead s core addr
  let r := rank l
  let know := min r.length (barExp w - barArr w)
  let drops (m : List Arrival) : Nat := (m.filter fun x => x.drop).length
  let nw := barUpdate w know (drops (r.take know)) (r.length - know) (drops (r.drop know))
  let s1 := stashWrite s core addr (leBytes nw 8)
  let s2 := if barCompletes w know && barArr nw == barExp nw && barExp nw != 0 then
    push s1 (.barrierCarriedCompletion core addr) else s1
  (s2, (r.take know).map (fun x => (x, barPh w)) ++ (r.drop know).map fun x => (x, !barPh w))

/-- R424: the arrival of an operation has counted in a phase: its destination takes the PH, and the record of its `barr.aw`, which
writes its own as it resumes (R249), names it. -/
def barCounted (s : State) (addr : Nat) (x : Arrival × Bool) : State :=
  match opOf (getG s x.1.uid) x.1.op with
  | none => s
  | some o =>
    let named (r : Record) : Record :=
      match r.cond with
      | .barrier a none sd => if r.uid == x.1.uid && r.frag == o.entry && a == addr then { r with cond := .barrier addr (some x.2) sd } else r
      | _ => r
    let s1 := { s with records := s.records.map named }
    let s2 := modG s1 x.1.uid fun g => { modOp g o.id (fun o => { o with held := false, got := [(0, if x.2 then 1 else 0)] }) with
      stuck := g.stuck.map named }
    finishOp s2 x.1.uid o.id

/-- R158: the arrivals that a core's stash atomic unit has gathered for a word, each with the lane from which it issued. -/
def gathered (s : State) (core addr : Nat) : List Arrival :=
  ((getC s core).arrivals.filter fun p => p.1 == addr).filterMap fun p =>
    (opOf (getG s p.2.1) p.2.2).map fun o =>
      { uid := p.2.1, op := p.2.2, lane := o.lane,
        drop := match o.kind with | .barrier d _ => d | _ => false }

/-- R158: the arrivals gathered for a word are counted, with one more where an instruction counts at issue: the state and the
phases of R158. -/
def countGathered (s : State) (core addr : Nat) (more : List Arrival) : State × List (Arrival × Bool) :=
  let l := gathered s core addr ++ more
  let s0 := modC s core fun c => { c with arrivals := c.arrivals.filter fun p => p.1 != addr }
  let ctx := (getG s0 ((l.headD { uid := 0, op := 0, lane := 0, drop := false }).uid)).ctx
  let (s1, rs) := barCount (watchWord (watchWord s0 core ctx (4, core) (addr / 4)) core ctx (4, core) (addr / 4 + 1)) core addr l
  (rs.foldl (fun s x => barCounted s addr x) s1, rs)

/-- R424, R128: whether the arrival of the issuing fragment is counted in the cycle of issue: the group has no FIFO entry
outstanding and no access held, and no earlier access of it is outstanding, a read that has yet to return included. -/
def countsNow (s : State) (o : Op) : Bool :=
  let g := curG s
  (getC s g.core).fifo.all (fun e => e.uid != g.uid) && (g.ops.all fun a => !a.held || isFence a.kind) &&
    !opBlocked s g { o with id := s.nextId, seq := s.nextId }

/-- R157 to R160, R321, R424: the barrier instructions. -/
def barrier (i : Instr) (drop wait : Bool) (cap : BitVec 4) (so sd : BitVec 6) (s : State) : Out :=
  commit i s do
    checkField i
    let g := curG s
    let c ← srcC g cap
    let off ← srcS g so false
    destFree s (statusDest sd)
    let x := scalarAddr c off
    memChecks s c (permR ||| permW) [1] 8 .barrAddr 8 false [(0, x)]
    let a := x.toNat
    if mappedAt s g.core g.ctx a then trapAt .barrAddr a else
    let w := barRead s g.core a
    if barExp w = 0 || barExp w < barArr w || (drop && barExp w < barDrop w + 1) then trapAt .barrForm a else
    let p : Piece := { thread := 0, space := 1, place := a, size := 8, val := 0, exp := 0, shown := a, gen := 0, mode := 0,
                       mbf := 0, bound := [] }
    let o := { mkOp i s (.barrier drop wait) 0 (if wait then .none else statusDest sd) [p] with rel := some 1 }
    if countsNow s o then
      let me : Arrival := { uid := g.uid, op := 0, lane := laneOf (g.slot.getD 0), drop }
      let (s1, rs) := countGathered s g.core a [me]
      let ph := ((rs.find? fun r => r.1 == me).map fun r => r.2).getD (barPh w)
      let s2 := advance i s1
      .ok (if wait && barPh (barRead s2 g.core a) == ph then suspendCur s2 (.barrier a (some ph) sd)
        else modCur s2 fun g => sPut g sd (if ph then 1 else 0))
    else
      fifoRoom s 1
      let s1 := advance i (issueOp (if wait then s else modCur s fun g => setEmpty g (statusDest sd) true) o)
      .ok (if wait then suspendCur s1 (.barrier a none sd) else s1)

def execBarrArr (cap : BitVec 4) (so sd : BitVec 6) (s : State) : Out :=
  barrier (.barrArr cap so sd) false false cap so sd s
def execBarrAw (cap : BitVec 4) (so sd : BitVec 6) (s : State) : Out := barrier (.barrAw cap so sd) false true cap so sd s
def execBarrDrop (cap : BitVec 4) (so sd : BitVec 6) (s : State) : Out :=
  barrier (.barrDrop cap so sd) true false cap so sd s

/-- R424: the event in which a held arrival is sent to the stash atomic unit, which gathers it. -/
def execBarrierHeldArrival (uid op : Nat) (s : State) : Out :=
  let g := getG s uid
  match opOf g op with
  | some o =>
    match o.kind, o.pieces with
    | .barrier _ _, p :: _ =>
      if !o.held || opBlocked s g o || !markerClear s g o then .next s else
      let s1 := dropMarker (setG s uid (modOp g op fun o => { o with held := false })) g.core uid op
      let s2 := modC s1 g.core fun c => { c with arrivals := c.arrivals ++ [(p.place, uid, op)] }
      .next (push s2 (.barrierUpdate g.core p.place))
    | _, _ => .next s
  | none => .next s

/-- R158: the event of the unit's update with the arrivals of one cycle. -/
def execBarrierUpdate (core addr : Nat) (s : State) : Out :=
  if (gathered s core addr).isEmpty then .next s else .next (countGathered s core addr []).1

/-- R158: the event of the evaluation of a carried completion in the next cycle. Arrivals of that cycle rank into the next
phase. -/
def execBarrierCarriedCompletion (core addr : Nat) (s : State) : Out :=
  let w := barRead s core addr
  if barArr w == barExp w && barExp w != 0 then .next (countGathered s core addr []).1
  else .next s

/-! Teams (R178, R322). -/

/-- R178: the members of a team of the issuing group's context on its core. -/
def teamKey (g : Group) (k : BitVec 6) : Nat := g.ctx.toNat * 64 + k.toNat

/-- R178, R322: `tjoin`. -/
def execTjoin (k sd : BitVec 6) (s : State) : Out :=
  commitNext (.tjoin k sd) s do
    checkField (.tjoin k sd)
    let g := curG s
    let n := fget 0 (getC s g.core).teams (teamKey g k)
    needX (g.team.isNone && n < 64 && validCount g == 1) .teamForm
    dstS g sd
    let s1 := modC s g.core fun c => { c with teams := fset 0 c.teams (teamKey g k) (n + 1) }
    .ok (modCur s1 fun g => sPut { g with team := some k } sd (BitVec.ofNat 64 n))

/-- R178, R322: `tleave`. -/
def execTleave (s : State) : Out :=
  commitNext .tleave s do
    let g := curG s
    needX (g.team.isSome && validCount g == 1) .teamForm
    .ok (leaveTeam s s.cur.uid)

/-! `launch` (R269, R270). -/

/-- The location that `launch` reads, in 16-byte parts: the physical place where a part translates, for the order of R103. -/
def launchPieces (s : State) (ctx : BitVec 12) (a : Nat) : List Piece :=
  (List.range 4).map fun k =>
    let va := a + 16 * k
    let (sp, pl) := match xlateNow s ctx .load va with
      | .ok l => (if l.mode = 2 then 3 else 0, leafPa l va)
      | .error _ => (6, va)
    { thread := k, space := sp, place := pl, size := 16, val := 0, exp := 0, shown := va, gen := 0, mode := 0, mbf := 0, bound := [] }

/-- R197: the control block of a queue, as its home holds it. It is named by its physical address (log 25). -/
def queueWord (s : State) (q : Queue) (lo n : Nat) : Nat := fld (visLe s q.cb 64) lo n

/-- R269: `launch`. -/
def execLaunch (cap : BitVec 4) (so sq : BitVec 6) (s : State) : Out :=
  let i : Instr := .launch cap so sq
  commit i s do
    checkField i
    let g := curG s
    let c ← srcC g cap
    let v ← srcS g sq false
    let off ← srcS g so false
    match if v.toNat < 64 then ffind s.queues v.toNat else none with
    | none => trapX .launchDeny
    | some q =>
      needX (q.ctx == g.ctx && queueWord s q 63 1 == 1) .launchDeny
      let x := scalarAddr c off
      capUse c permR [0]
      boundsX c 64 [(0, x)]
      if x % 16 ≠ 0 then trapAt .memAlign (addr56 x) else
      fifoRoom s 1
      let o := { mkOp i s (.launch v.toNat) 0 (statusDest sq) (launchPieces s g.ctx x.toNat) with rel := some 5 }
      .ok (advance i (issueOp (modCur s fun g => setEmpty g (statusDest sq) true) o))

end Sys2Proof.Machine
end

