-- ==== Sys2Proof/Machine/Directory.lean ====
section
/-!
DEFINITION. Ownership at the directory (R85, R86, R90), and writes that one action performs as a unit's own stores.
-/
namespace Sys2Proof.Machine

/-- R85, R90: words join the record of a unit, whose pair is a sharer of the line: a new owner beyond four recalls the record with
AGE 0. The other owners and sharers of the words have given them up, and the gate has kept room for the line's entry. -/
def joinOwner (s : State) (line pair unit : Nat) (mask : Word) (by_ : By) : State :=
  let mine (o : Owner) : Bool := o.pair.toNat == pair && o.unit.toNat == unit
  let s1 := match (dirAt s line).owners with
    | o :: rest => if (o :: rest).any mine || rest.length < 3 then s else recallUnit s line o.pair.toNat o.unit.toNat o.mask by_
    | [] => s
  modDir s1 line fun e =>
    let e := { e with used := s.gtick.toNat, shr := withBit e.shr pair true }
    if e.owners.any mine then
      { e with owners := e.owners.map fun o => if mine o then { o with mask := o.mask ||| mask } else o }
    else { e with owners := e.owners ++ [{ pair := BitVec.ofNat 6 pair, unit := BitVec.ofNat 2 unit, mask }] }

/-- Ownership of words taken as one action (R86); none while the line's directory set is pinned in full (R90). -/
def ownNow (s : State) (line pair unit : Nat) (mask : Word) (by_ : By) : Option State :=
  (dirRoom s line).map fun s => joinOwner (clearCopies s line mask pair unit by_) line pair unit mask by_

end Sys2Proof.Machine
end

