-- ==== Sys2Proof/Machine/Stash.lean ====
section
/-!
DEFINITION. Stash fills and the stash mapping instructions (R65 to R70, R72 to R76, R311, R312, R410, R411, R423).
-/
namespace Sys2Proof.Machine

/-! What commands read and write of the stash (R25, R327 to R348). -/

/-- The length of element form in bytes (R337). -/
def formLen (t : Tid) : Nat :=
  if t.fmt = 7 then ceilDiv (tidRows t * tidKC t) 8 else tidRows t * tidKC t * (tidW t / 8)

/-- The stash ranges that a command reads, and those that it writes. -/
def cmdReads (c : Cmd) : List (Nat × Nat) :=
  let from_ (x : Cap) (n : Nat) : List (Nat × Nat) := if x.space = 1 then [(x.addr.toNat, n)] else []
  match c.kind with
  | .copy _ x n | .remote _ x n _ => from_ x n
  | .gather _ _ _ _ n ia => [(ia, 4 * n)]
  | .transpose _ x e r k p => from_ x ((r - 1) * p + k * e)
  | .plane cap t unp => if unp then [planeRegion t] else from_ cap (formLen t)
  | .fold cap a b => (smoothAddr b 0, 4 * tidK b) :: from_ cap (4 * (tidRows a * tidK a))
  | .mm _ _ _ _ _ _ | .mzero _ => []
def cmdWrites (c : Cmd) : List (Nat × Nat) :=
  let to_ (x : Cap) (n : Nat) : List (Nat × Nat) := if x.space = 1 then [(x.addr.toNat, n)] else []
  match c.kind with
  | .copy d _ n | .remote d _ n _ => to_ d n
  | .gather d _ _ rl n _ => to_ d (n * rl)
  | .transpose d _ e r k _ => to_ d (r * k * e)
  | .plane cap t unp => if unp then to_ cap (formLen t) else [planeRegion t]
  | .fold _ a _ => [planeRegion a, (scaleAddr a 0, 4 * tidRows a)]
  | .mm _ _ _ _ _ _ | .mzero _ => []
/-- R69: the stash words that a command writes in part, whose other bytes a fill brings. -/
def cmdEdges (c : Cmd) : List (Nat × Nat) :=
  (cmdWrites c).flatMap fun r => if r.2 = 0 then [] else
    (if r.1 % 4 = 0 then [] else [(r.1 / 4 * 4, 4)]) ++ (if (r.1 + r.2) % 4 = 0 then [] else [((r.1 + r.2) / 4 * 4, 4)])

/-- The stash ranges that a command reads as tables: planes, indices and smoothing values. -/
def tableReads (c : Cmd) : List (Nat × Nat) :=
  match c.kind with
  | .gather _ _ _ _ n ia => [(ia, 4 * n)]
  | .plane _ t true => [planeRegion t]
  | .fold _ _ b => [(smoothAddr b 0, 4 * tidK b)]
  | _ => []

/-- The stash words of a list of ranges. -/
def rangeWords (l : List (Nat × Nat)) : List Nat :=
  (l.flatMap fun r => if r.2 = 0 then [] else (List.range (ceilDiv (r.1 % 4 + r.2) 4)).map (r.1 / 4 + ·)).dedup

/-- R346: the operand ranges of the leader and of the partner. -/
def mmLeader (k : CmdKind) : List (Nat × Nat) :=
  match k with
  | .mm _ _ sp a b _ => planeRegion a :: planeRegion b :: (if sp then [metaRegion a] else [])
  | _ => []
def mmPartner (k : CmdKind) : List (Nat × Nat) :=
  match k with
  | .mm _ _ _ _ _ p => [planeRegion p]
  | _ => []
/-- The ranges that the operation reads of each core: the partner's metadata is read too, and not listed (R346). -/
def mmReads (k : CmdKind) (side : Nat) : List (Nat × Nat) :=
  match k, side with
  | .mm _ _ sp _ _ p, 1 => planeRegion p :: (if sp then [metaRegion p] else [])
  | k, _ => mmLeader k

/-- The other core of a pair. -/
def partner (core : Nat) : Nat := if core % 2 = 0 then core + 1 else core - 1

/-! Leaving a mapping entry. -/

/-- R72, R69: the words of a range of stash bytes that are D are written back; the entry counts the lines (R63). -/
def writeBackRange (s : State) (core lo hi : Nat) : State :=
  let ws := (getC s core).swords.filter fun p => lo ≤ 4 * p.1 && 4 * p.1 < hi && p.2.d
  let s1 := ws.foldl (fun s p => writeBackStash s core p.1) s
  countWbacks s1 core (ws.map fun p => p.1)

/-- R86: the stash of a core reports on the lines of words that it no longer holds. -/
def reportWords (s : State) (core : Nat) (ws : List (Nat × SWord)) : State :=
  ((ws.flatMap fun p => p.2.bound.filterMap fun b => b.map fun a => a / 128).dedup).foldl (fun s l => shareReport s l (pairOf core)) s

/-- A range of a core's stash loses its word states: the words are unmapped, after the renewal check of those that are lease copies
(R96). -/
def clearWords (s : State) (core lo hi : Nat) : State :=
  let gone := (getC s core).swords.filter fun p => lo ≤ 4 * p.1 && 4 * p.1 < hi
  let s := gone.foldl (fun s p => stashCheck s core p.1) s
  reportWords (modC s core fun c => { c with swords := c.swords.filter fun p => !(lo ≤ 4 * p.1 && 4 * p.1 < hi) }) core gone

/-! Fills. -/

/-- R70, R85: the stash of a core registers as a sharer of the lines of its bound bytes; none while a line's directory set is
pinned in full (R90). -/
def shareBound (s : State) (core : Nat) (lines : List Nat) : Option State :=
  (lines.foldlM (fun s line => (dirRoom s line).map fun s =>
    modDir s line fun e => { e with shr := withBit e.shr (pairOf core) true, used := s.gtick.toNat }) s).filter fun s =>
      lines.all fun line => (dirAt s line).shr.getLsbD (pairOf core)

/-- R74, R93: the lease of a word's line: the state, WTS and RTS. -/
def leaseWord (s : State) (core lease line : Nat) : State × BitVec 16 × BitVec 16 :=
  let w := leaseW s line
  let (s1, wts, r) := leaseGrant s line lease (getC s core).pts
  (raisePts s1 core w, wts, r)

/-- What a fill's translation of one I word gives. -/
inductive FillWord where
  | ready (b : List (Option (Nat × Leaf)))
  | refused (drop : List Nat)
  | bad (a : Nat)
  | fault (c : Cause) (a : Nat)
  deriving DecidableEq, Repr

/-- R87: the replica in the core's die from which a fill takes the bytes of a word that lie in a directory-mode line. -/
def nearReplica (s : State) (core : Nat) (bound : List (Option Nat)) (x : LineInfo) : Option Nat :=
  if x.mode = 1 then none else replicaOf s (pairOf core) x.line (boundMask bound x.line)

/-- R70, R46, R86: the translation of an I word. A word whose frame has another generation is refused, and translated again once the TLB has
dropped it; one that the home works on waits; one of which a byte has an uncorrectable error is not delivered (R364). -/
def fillWord (s : State) (core : Nat) (e : MapEntry) (k : Nat) : FillWord :=
  match bindWord s core e .fill k with
  | .error (c, a) => .fault c a
  | .ok b =>
    let ws := ((wordSrc (getC s core) e k).zip b).filterMap fun x => x.1.bind fun va => x.2.map fun y => (va, y)
    let bit (a : Nat) : Word := BitVec.ofNat 32 (2 ^ (a / 4 % 32))
    let near (y : Nat × Leaf) : Bool := y.2.mode != 1 && (replicaOf s (pairOf core) (y.1 / 128) (bit y.1)).isSome
    let wrong (x : Nat × Nat × Leaf) : Bool :=
      fget false s.homes.errs (x.2.1 / 128) && (ownerOf (dirAt s (x.2.1 / 128)) (x.2.1 / 4 % 32)).isNone && !near x.2
    let old := ws.filter fun x => x.2.2.gen != genOf s x.2.1
    if !old.isEmpty then .refused (old.map fun x => x.1)
    else if ws.any fun x => !near x.2 && busyOn s 0 (x.2.1 / 128) (bit x.2.1) then .refused []
    else match ws.find? wrong with
      | some x => .bad x.2.1
      | none => .ready b

/-- R70, R83, R87: the core's pair registers for the lines of a word: with the replica of its die that holds the word's bytes, else at their
homes; none while a home has no room (R90). -/
def registerWord (s : State) (core : Nat) (bound : List (Option Nat)) (infos : List LineInfo) : Option State :=
  let home := infos.filter fun x => (nearReplica s core bound x).isNone
  let room := (shareBound s core ((home.filter fun x => x.mode != 1).map fun x => x.line)).bind fun s =>
    ((home.filter fun x => x.mode == 1).map fun x => x.line).foldlM (fun s l => dirRoom s l) s
  room.map fun s =>
    let s1 := home.foldl (fun s x => sliceTouch s (homeSlice x.line) x.line 0 x.mbf) s
    (infos.filter fun x => !home.contains x).foldl (fun s x => match nearReplica s core bound x with
      | some k => modH (sliceTouch s k x.line 1 x.mbf) fun h =>
          { h with repVec := fmod 0 h.repVec (2 ^ 45 * k + x.line) fun v => withBit v (pairOf core % 12) true }
      | none => s) s1

/-- R70, R74, R96: the values of one I word delivered: it becomes C, bound to the bytes read, with the tag of the global granule where the
entry and its page keep tags (R20). The spec does not say what tag a granule has in which a fill brings a word beside D words, as after a
`sinval` of one word of a granule that a `cst` wrote: the model has it keep its own tag as far as the global granule's tag is set too
(log 97). -/
def deliverWord (s : State) (core : Nat) (e : MapEntry) (k : Nat) (b : List (Option (Nat × Leaf))) : Option State :=
  let infos := oneEach (leafLines b)
  let bound := b.map fun x => x.map fun y => y.1
  let leases := (infos.filter fun x => x.mode == 1).map fun x => x.line
  let keeps := keepsTags e && (b.findSome? id).any fun y => y.2.tags
  (registerWord (stashCheck s core k) core bound infos).map fun s =>
    let bytes := b.map fun x => match x with | some y => visByte s y.1 | none => 0
    let dirty := [0, 1, 2, 3].any fun j => (swordAt s core (k / 4 * 4 + j)).d
    let tag := keeps && (b.headD none).any fun y => visTag s y.1
    let tag' := if dirty then fget false (getC s core).stags (k / 4) && tag else tag
    let len := (getX s e.ctx).stashLease.toNat
    let (s1, rts, wts) := leases.foldl (fun (q : State × Option (BitVec 16) × List (Nat × BitVec 16)) line =>
      let (s2, w, r) := leaseWord q.1 core len line
      (s2, some (match q.2.1 with | some x => if tsBefore r x then r else x | none => r), q.2.2 ++ [(line, w)])) (s, none, [])
    let s2 := stashWrite s1 core (4 * k) bytes
    let s3 := setSWord s2 core k
      { v := true, d := false, bound, rts, wtss := wts, cnt := 0, keeps, mbfs := infos.map fun x => (x.line, x.mbf) }
    modC s3 core fun c => { c with stags := fset false c.stags (k / 4) tag' }

/-- R46: a core's TLB drops the translations of the global bytes that the words of mapped pieces stand for. -/
def dropBound (s : State) (q : Req) : State :=
  let c := getC s q.core
  let srcs (p : Piece) : List Nat := match entryAt c q.ctx p.place with
    | some (_, e) => (wordsOf p).flatMap fun k => (wordSrc c e k).filterMap id
    | none => []
  (q.pieces.flatMap fun p => if p.space = 1 then srcs p else []).foldl (fun s a => tlbDrop s q.core q.ctx a) s

/-- R75: the elements of a gather entry that fail their bounds check in a line: the element and its global address. -/
def badElements (s : State) (core : Nat) (e : MapEntry) (line : Nat) : List (Nat × Nat) :=
  let c := getC s core
  if !e.gath then [] else
  ((List.range 128).filterMap fun j =>
    let b := 128 * line + j
    let i := (b - e.sbase * 128) / e.flen
    let off := (b - e.sbase * 128) % e.flen
    if (swordAt s core (b / 4)).v || elementOk c e b then none
    else (fieldSrc c e b).map fun a => (i, a - off)).dedup

/-- R75: the report of one failing element. -/
def reportElement (s : State) (core n : Nat) (e : MapEntry) (uid : Option Nat) (x : Nat × Nat) : State :=
  let r : FaultRec := match uid with
    | some u => faultRecG s (getG s u) .capBound true
    | none => { faultRec s e.ctx .capBound true with core }
  raiseDeferred s (uid.getD 0)
    { cause := .capBound, xf0 := BitVec.ofNat 64 (n + 2 ^ 63), xf1 := BitVec.ofNat 64 x.2, xf2 := BitVec.ofNat 64 x.1 }
    { r with ctx := e.ctx, sub := 1, cseq := BitVec.ofNat 16 n, ecls := 0, addr := x.2, arg := BitVec.ofNat 32 x.1 }

/-- The threads of a group whose accesses wait on words of a stash line. -/
def waitingThreads (g : Group) (ks : List Nat) : Word :=
  maskOf (g.ops.flatMap fun o => (o.swait.filter fun p => p.space == 1 && (wordsOf p).any ks.contains).map fun p => p.thread)

/-- The groups of a core of which an access waits on words of its stash. -/
def waitingGroups (s : State) (core : Nat) (ks : List Nat) : List Nat :=
  (s.groups.filter fun p => p.2.core == core && waitingThreads p.2 ks != 0).map fun p => p.1

/-- R77, R123: whether an engine command or a matrix operation that is not held waits on words of a core's stash. -/
def engineWaits (s : State) (core : Nat) (ks : List Nat) : Bool :=
  s.cmds.any fun p =>
    let c := p.2
    let waits (l : List (Nat × Nat)) : Bool := (rangeWords l).any ks.contains
    (c.st == .armed || c.st == .run) && !c.cancel &&
      if c.cls = 2 then (c.core == core && waits (mmReads c.kind 0)) || (partner c.core == core && waits (mmReads c.kind 1))
      else c.core == core && waits (cmdReads c ++ cmdEdges c)

/-- R423: a fill's fault that some access, command or operation waits on: a deferred fault record for firmware, whatever DLGMASK holds;
the fill stays parked until firmware resolves it. It names the group that started the fill when its access waits, else the first
one that waits (log 45). -/
def fillFault (s : State) (id : Nat) (f : Fill) (ctx : BitVec 12) (ks : List Nat) (c : Cause) (a : Nat) : State :=
  let us := waitingGroups s f.core ks
  let who : Option Nat := match f.uid with | some u => if us.contains u then some u else us.head? | none => us.head?
  let base : FaultRec := match who with
    | some u => { faultRecG s (getG s u) c true with gv := true }
    | none => { faultRec s ctx c true with core := f.core }
  let arg := match who with | some u => waitingThreads (getG s u) ks | none => 0
  { addFault s { base with ctx, core := f.core, addr := a, arg } with fills := fput s.fills id { f with parked := true } }

/-- R364: the groups whose accesses wait on a word that a fill returned with an uncorrectable error never issue again. -/
def fillError (s : State) (core : Nat) (k a : Nat) : State :=
  (waitingGroups s core [k]).foldl (fun s u =>
    let g := getG s u
    if g.poisoned then s else
    addFault (setG s u { g with poisoned := true }) { faultRecG s g .memErr true with addr := a }) s

/-- R70, R411: a fill delivers: the I words whose bytes translate become C, FILLS counts the fill once when there is such a word, and
the accesses that wait are served. What does not translate is reported when an access, a command or an operation waits on it (R423); a
refused word, or one whose home works on it or has no room for its line, is fetched again. -/
def fillNow (s : State) (id : Nat) : State :=
  match ffind s.fills id with
  | none => s
  | some f =>
    let gone (s : State) : State := serveCore (traceDone { s with fills := fdel s.fills id } f.core (2 ^ 63 + id)) f.core
    match ffind (getC s f.core).maps f.entry with
    | none => gone s
    | some e =>
      if f.line < e.sbase || e.sbase + e.slen ≤ f.line then gone s else
      let ks := (List.range 32).map (32 * f.line + ·)
      let srcs (s : State) (k : Nat) : List Nat := (wordSrc (getC s f.core) e k).filterMap fun x => x
      let todo := ks.filter fun k => !(swordAt s f.core k).v
      let bad := badElements s f.core e f.line
      let (s1, n, again, fault) := todo.foldl (fun (q : State × Nat × Bool × Option (Cause × Nat)) k =>
        match fillWord q.1 f.core e k with
        | .ready b => match deliverWord q.1 f.core e k b with
          | some s' => ((srcs s' k).foldl (fun s a => tlbLoad s f.core e.ctx a) s', q.2.1 + 1, q.2.2.1, q.2.2.2)
          | none => (q.1, q.2.1, true, q.2.2.2)
        | .refused l => (l.foldl (fun s a => tlbDrop s f.core e.ctx a) q.1, q.2.1, true, q.2.2.2)
        | .bad a => (fillError q.1 f.core k a, q.2.1, q.2.2.1, q.2.2.2)
        | .fault c a => (q.1, q.2.1, q.2.2.1, match q.2.2.2 with | some x => some x | none => some (c, a)))
        (s, 0, false, none)
      let up (x : MapEntry) : MapEntry := { x with
        fills := if n = 0 || f.counted then x.fills else BitVec.ofNat 16 (min 0xFFFF (x.fills.toNat + 1)), err := x.err || !bad.isEmpty }
      let s2 := modC s1 f.core fun c => { c with maps := fput c.maps f.entry (up e) }
      let s3 := bad.foldl (fun s x => reportElement s f.core f.entry e f.uid x) s2
      let f1 : Fill := { f with counted := f.counted || n ≠ 0 }
      let left := ks.filter fun k => !(swordAt s3 f.core k).v
      let s4 := serveCore { s3 with fills := fput s3.fills id f1 } f.core
      match fault with
      | some (c, a) =>
        if !(waitingGroups s4 f.core left).isEmpty || engineWaits s4 f.core left then fillFault s4 id f1 e.ctx left c a
        else gone s4
      | none => if again then push s4 (.stashFillArrival id) else gone s4

/-- R69: whether a fill into one of some ranges of stash bytes is in flight: what concerns an F word comes after its fill, so the
instruction or the event that would remove or write back such words waits (log 96). -/
def fillsIn (s : State) (core : Nat) (l : List (Nat × Nat)) : Bool :=
  s.fills.any fun p => p.2.core == core && l.any fun r => r.1 < 128 * (p.2.line + 1) && 128 * p.2.line < r.2

/-- The stash bytes of a mapping entry. -/
def entryBytes (m : MapEntry) : Nat × Nat := (m.sbase * 128, (m.sbase + m.slen) * 128)

/-! Mapped stores in flight as their words leave their entry (R67, R69, R71, R312). -/

/-- The bytes that a store's piece gives to physical bytes, in runs of consecutive ones of at most `n` bytes. -/
def byteRuns (n : Nat) (l : List (Nat × Byte)) : List (Nat × List Byte) :=
  l.foldl (fun m x => match m.getLast? with
    | some r => if r.1 + r.2.length = x.1 && r.2.length < n then m.dropLast ++ [(r.1, r.2 ++ [x.2])] else m ++ [(x.1, [x.2])]
    | none => [(x.1, [x.2])]) []

/-- The global store that a mapped piece stands for, on those of its lines for which no write is on its way or made. -/
def globalPieces (s : State) (uid : Nat) (o : Op) (p : Piece) : List Piece :=
  let bs := ((p.bound.drop (p.place % 4)).zip (storeBytes o p)).filterMap fun x => x.1.map fun a => (a, x.2)
  let sent (l : Nat) : Bool := s.reqs.any fun r => r.2.agent == .group uid o.id && r.2.line == l && r.2.mode == 1
  p.lines.flatMap fun x =>
    if x.w.isSome || (x.mode == 1 && sent x.line) then [] else
    (byteRuns 8 (bs.filter fun b => b.1 / 128 == x.line)).map fun r =>
      { p with space := 0, place := r.1, size := r.2.length, val := BitVec.ofNat 64 (leNat r.2), shown := p.shown, gen := x.gen,
               mode := x.mode, mbf := x.mbf, bound := [], lines := [], keeps := false }

/-- R69, R71: a store that is not yet performed keeps the global words that it was bound to as its stash words leave their entry: the bank
takes its bytes, which stay there, and the store goes on as a store to those words. -/
def unmapOp (s : State) (core uid lo hi : Nat) (o : Op) : State :=
  let out (p : Piece) : Bool := p.space == 1 && !p.bound.isEmpty && p.place < hi && lo < p.place + p.size
  let ps := o.pieces.filter out
  let whole := ps.all fun p => p.keeps && p.lines.all fun x => x.w.isNone
  let nw (p : Piece) : List Piece := match o.kind with
    | .capStore _ => if whole then [{ p with space := 0, place := (p.bound.findSome? id).getD 0, bound := [], lines := [] }]
      else globalPieces s uid o p
    | _ => globalPieces s uid o p
  if ps.isEmpty then s else
  let s1 := ps.foldl (fun s p => stashWrite s core p.place (storeBytes o p)) s
  let kind : OpKind := match o.kind with | .capStore c => if whole then .capStore c else .store | k => k
  let s2 := setG s1 uid (modOp (getG s1 uid) o.id fun x => { x with kind })
  let s3 := mapPieces s2 core uid o.id fun p => if out p then nw p else [p]
  let s4 := setG s3 uid (modOp (getG s3 uid) o.id fun x => { x with swait := x.swait.filter fun p => p.space == 1 })
  if o.held then s4 else
  let o1 := { o with kind, pieces := ps.flatMap nw }
  settleOp (match kind with
    | .capStore _ => sendCap s4 (getG s4 uid) o1
    | _ => sendStore s4 (getG s4 uid) o1) uid o.id

/-- Whether an operation is a store that may be performed in mapped stash words. -/
def storesMapped (o : Op) : Bool := match o.kind with | .store | .capStore _ => true | _ => false

/-- The stores in flight to mapped words of a context in a range of a core's stash, as the words leave their entry. -/
def unmapStores (s : State) (core : Nat) (ctx : BitVec 12) (lo hi : Nat) : State :=
  (s.groups.filter fun p => p.2.core == core && p.2.ctx == ctx).foldl (fun s p =>
    (p.2.ops.filter storesMapped).foldl (fun s o => unmapOp s core p.1 lo hi ((opOf (getG s p.1) o.id).getD o)) s) s

/-- What is left of a store's piece without the words of a list. -/
def lessWords (o : Op) (p : Piece) (ks : List Nat) : List Piece :=
  let bs := storeBytes o p
  ((wordsOf p).filter fun k => !ks.contains k).filterMap fun k =>
    let a := max p.place (4 * k)
    let b := min (p.place + p.size) (4 * k + 4)
    if a < b then some { p with place := a, size := b - a, val := BitVec.ofNat 64 (leNat ((bs.drop (a - p.place)).take (b - a))),
                                bound := (p.bound.drop (4 * k - wordBase p)).take 4 } else none

/-- R69, R312: the stores of a group to mapped words that are not yet performed are discarded with the words' values. -/
def discardStores (s : State) (uid : Nat) (ks : List Nat) : State :=
  ((getG s uid).ops.filter storesMapped).foldl (fun s o =>
    let hit (p : Piece) : Bool := p.space == 1 && !p.bound.isEmpty && (wordsOf p).any ks.contains
    if !o.pieces.any hit then s else
    let part := o.pieces.any fun p => hit p && !(lessWords o p ks).isEmpty
    let kind : OpKind := match o.kind with | .capStore _ => if part then .store else o.kind | k => k
    let s1 := setG s uid (modOp (getG s uid) o.id fun x => { x with kind })
    let s2 := mapPieces s1 (getG s uid).core uid o.id fun p => if hit p then lessWords o p ks else [p]
    if o.held then s2 else finishMapped s2 uid o.id) s

/-- A mapping entry is removed: its dirty words are written back, its words unmapped with their values
kept. -/
def dropEntry (s : State) (core n : Nat) : State :=
  match ffind (getC s core).maps n with
  | none => s
  | some e =>
    let lo := e.sbase * 128; let hi := (e.sbase + e.slen) * 128
    let s1 := unmapStores s core e.ctx lo hi
    modC (clearWords (writeBackRange s1 core lo hi) core lo hi) core fun c => { c with maps := fdel c.maps n }

/-- R76: the entries of other contexts over stash bytes that are given to a task. -/
def foreignMaps (s : State) (core : Nat) (ctx : BitVec 12) (lo hi : Nat) : FMap MapEntry :=
  (getC s core).maps.filter fun p => p.2.ctx != ctx && p.2.sbase * 128 < hi && lo < (p.2.sbase + p.2.slen) * 128

/-- R69, R76: whether a hand-over of stash bytes waits for fills into entries of other contexts. -/
def handOverWaits (s : State) (core : Nat) (ctx : BitVec 12) (lo hi : Nat) : Bool :=
  fillsIn s core ((foreignMaps s core ctx lo hi).map fun p => entryBytes p.2)

/-- R76: the stash bytes given to a task of another context: entries of other contexts over them are written back and
removed, and the bytes they held become zero, with their tags. -/
def handOver (s : State) (core : Nat) (ctx : BitVec 12) (lo hi : Nat) : State :=
  let s1 := (foreignMaps s core ctx lo hi).foldl (fun s p => dropEntry s core p.1) s
  let gr := (List.range 96).filter fun g => lo ≤ 65536 * g && 65536 * g < hi &&
    fget (0 : Nat) (getC s1 core).gowner g ≠ ctx.toNat + 1 && fget (0 : Nat) (getC s1 core).gowner g ≠ 0
  let s2 := modC s1 core fun c => { c with
    stash := c.stash.filter fun p => !gr.contains (p.1 / 65536), stags := c.stags.filter fun p => !gr.contains (p.1 / 4096) }
  modC s2 core fun c => { c with gowner := (List.range 96).foldl (fun m g =>
    if lo ≤ 65536 * g && 65536 * g < hi then fset 0 m g (ctx.toNat + 1) else m) c.gowner }

/-! `smap` (R65 to R68). -/

/-- The four scalars of `smap` as an entry with its stash range, none when the form is wrong (R311, R65 step 2). -/
def smapForm (c : Cap) (ctx : BitVec 12) (w0 w1 w2 w3 : DWord) (others : List MapEntry) : Option MapEntry :=
  let x0 := w0.toNat; let x1 := w1.toNat; let x2 := w2.toNat; let x3 := w3.toNat
  let e : MapEntry :=
    { cap := c, rwm := fld x0 56 1 = 1, gath := fld x0 57 1 = 1, err := false, ctx, stride := fld x0 0 25, foff := fld x0 25 24,
      flen := fld x0 49 7, count := fld x1 0 23, sbase := fld x2 7 16, slen := fld x2 32 16, idx := fld x3 2 21,
      fills := 0, wbacks := 0 }
  let il := 4 * e.idx
  let ih := il + 4 * e.count
  let clear (m : MapEntry) : Bool := ih ≤ m.sbase * 128 || (m.sbase + m.slen) * 128 ≤ il
  let ok := fld x0 58 6 = 0 && fld x1 23 41 = 0 && fld x2 0 7 = 0 && fld x2 23 9 = 0 && fld x2 48 16 = 0 &&
    fld x3 0 2 = 0 && fld x3 23 41 = 0 && 1 ≤ e.flen && e.flen ≤ 64 && 1 ≤ e.stride && e.stride ≤ 0x1000000 && 1 ≤ e.count &&
    1 ≤ e.slen && e.count * e.flen ≤ e.slen * 128 && !(e.rwm && (e.stride < e.flen || e.gath)) && (e.gath || e.idx = 0) &&
    (!e.gath || (clear e && others.all clear))
  if ok then some e else none

/-- R65 step 3: the stash range and the index list lie in the task's allocation, then in granules with the stash role. -/
def smapRange (s : State) (g : Group) (e : MapEntry) : X Unit :=
  let t := taskOf s g
  let spans := (e.sbase * 128, (e.sbase + e.slen) * 128) :: (if e.gath then [(4 * e.idx, 4 * e.idx + 4 * e.count)] else [])
  match spans.find? fun r => !(65536 * t.gbase ≤ r.1 && r.2 ≤ 65536 * (t.gbase + t.ngran)), spans.find? fun r =>
      !inExtent s g 1 r.1 (r.2 - r.1) with
  | some r, _ => trapAt .capBound r.1
  | none, some r => trapAt .spaceRange r.1
  | none, none => .ok ()

/-- R65 step 4, R25: the reach of an entry, which for a gather entry does not include the targets of its indices. -/
def smapReach (e : MapEntry) : X Unit :=
  let a := e.cap.addr.toNat + e.foff
  match capDecode e.cap with
  | some (b, t) => if e.gath || (b ≤ a && a + (e.count - 1) * e.stride + e.flen ≤ t) then .ok () else trapAt .capBound a
  | none => trapAt .capBound a

/-- R66: an entry that a `smap` renews. The spec does not say whether ERR counts among the fields to be the same: the model renews an entry
whose ERR is set, and ERR stays (log 97). -/
def renews (e m : MapEntry) : Bool :=
  { m with cap := Cap.null, fills := 0, wbacks := 0, err := false } == { e with cap := Cap.null, fills := 0, wbacks := 0, err := false } &&
    { m.cap with perms := 0, e := 0, b := 0, t := 0 } == { e.cap with perms := 0, e := 0, b := 0, t := 0 }

/-- R58, R67: an entry cut back to the lines below a line. -/
def cutEntry (s : State) (core n line : Nat) : State :=
  match ffind (getC s core).maps n with
  | none => s
  | some m =>
    let lo := line * 128
    let hi := (m.sbase + m.slen) * 128
    let s0 := unmapStores s core m.ctx lo hi
    let s1 := clearWords (writeBackRange s0 core lo hi) core lo hi
    modC s1 core fun c =>
      let m := fget m c.maps n
      let slen := line - m.sbase
      let count := min m.count (slen * 128 / m.flen)
      { c with maps := if slen = 0 || count = 0 then fdel c.maps n else fput c.maps n { m with slen, count } }

/-- R67: whether a new entry cuts an entry that it conflicts with back, rather than removing it. -/
def cutsBack (e m : MapEntry) : Bool := m.sbase < e.sbase && m.sbase + m.slen ≤ e.sbase + e.slen

/-- R67: whether a new entry lies over an entry of its context, and over the index list of one. -/
def overlaps (e m : MapEntry) : Bool := m.ctx == e.ctx && m.sbase < e.sbase + e.slen && e.sbase < m.sbase + m.slen
def overIndex (e m : MapEntry) : Bool :=
  m.ctx == e.ctx && m.gath && 4 * m.idx < (e.sbase + e.slen) * 128 && e.sbase * 128 < 4 * m.idx + 4 * m.count

/-- R67: the entries of a context that a new entry conflicts with are cut or removed. -/
def conflictOut (s : State) (core : Nat) (e : MapEntry) : State :=
  let s1 := (getC s core).maps.foldl (fun s p =>
    if !overlaps e p.2 then s else if cutsBack e p.2 then cutEntry s core p.1 e.sbase else dropEntry s core p.1) s
  (getC s1 core).maps.foldl (fun s p => if overIndex e p.2 then dropEntry s core p.1 else s) s1

/-- The stash bytes that leave their entries as a new entry conflicts with them (R67). -/
def conflictBytes (s : State) (core : Nat) (e : MapEntry) : List (Nat × Nat) :=
  (getC s core).maps.filterMap fun p =>
    if overIndex e p.2 || (overlaps e p.2 && !cutsBack e p.2) then some (entryBytes p.2)
    else if overlaps e p.2 then some (e.sbase * 128, (entryBytes p.2).2) else none

/-- R68: an entry whose range no resident task's allocation touches. -/
def orphaned (s : State) (core : Nat) (m : MapEntry) : Bool :=
  (tasksOn s core).all fun p => p.2.ngran = 0 || (m.sbase + m.slen) * 128 ≤ 65536 * p.2.gbase ||
    65536 * (p.2.gbase + p.2.ngran) ≤ m.sbase * 128

/-- R68: the orphan that a new entry takes the place of, when no number is free. -/
def orphanFor (s : State) (core : Nat) : Option (Nat × MapEntry) :=
  let maps := (getC s core).maps
  if (List.range 32).any fun n => (ffind maps n).isNone then none else maps.find? fun p => orphaned s core p.2

/-- R68: the number of a new entry, after the orphan that it takes the place of is written back. -/
def entrySlot (s : State) (core : Nat) : Option (State × Nat) :=
  match (List.range 32).find? fun n => (ffind (getC s core).maps n).isNone with
  | some n => some (s, n)
  | none => (orphanFor s core).map fun p => (dropEntry s core p.1, p.1)

/-- R65 to R68, R311: `smap`. R65 does not say whether entries that the `smap` itself removes count as available for its step 5: the model
looks for a slot once the conflicting entries are out (log 82). It waits for the fills into the words that it unmaps (R69). -/
def execSmap (ss2 : BitVec 6) (cap : BitVec 4) (sd : BitVec 6) (s : State) : Out :=
  let i : Instr := .smap ss2 cap sd
  commitNext i s do
    checkField i
    let g := curG s
    let c ← srcC g cap
    let w0 ← srcS g ss2 false
    let w1 ← srcS g (ss2 + 1) false
    let w2 ← srcS g (ss2 + 2) false
    let w3 ← srcS g (ss2 + 3) false
    capUse c (if w0.getLsbD 56 then permR ||| permW else permR) [0]
    let maps := (getC s g.core).maps
    match smapForm c g.ctx w0 w1 w2 w3 [] with
    | none => trapX .smapForm
    | some e =>
      let others := (maps.filter fun p => !renews e p.2).map fun p => p.2
      needX (smapForm c g.ctx w0 w1 w2 w3 others).isSome .smapForm
      smapRange s g e
      smapReach e
      dstS g sd
      match maps.find? fun p => renews e p.2 with
      | some (n, m) =>
        let s1 := modC s g.core fun x => { x with maps := fput x.maps n { m with cap := c } }
        .ok (modCur s1 fun g => sPut g sd (BitVec.ofNat 64 n))
      | none =>
        let s0 := conflictOut s g.core e
        let out := conflictBytes s g.core e ++ ((orphanFor s0 g.core).map fun p => entryBytes p.2).toList
        if fillsIn s g.core out then .error (.hold 12) else
        match entrySlot s0 g.core with
        | none => trapX .smapFull
        | some (s1, n) =>
          let lo := e.sbase * 128
          let s2 := clearWords s1 g.core lo (lo + e.slen * 128)
          let s3 := modC s2 g.core fun x => { x with maps := fput x.maps n e }
          .ok (modCur s3 fun g => sPut g sd (BitVec.ofNat 64 n))

/-! `sunmap`, `sflush` and `sinval` (R312). -/

/-- R312: `sunmap`, which waits for the fills of its entry (R69). -/
def execSunmap (b1 : BitVec 1) (ss : BitVec 6) (s : State) : Out :=
  commitNext (.sunmap b1 ss) s do
    checkField (.sunmap b1 ss)
    let g := curG s
    let v ← srcS g ss (b1 == 1)
    match entryAt (getC s g.core) g.ctx (v.toNat % 2 ^ 23) with
    | none => .ok s
    | some (n, m) =>
      if fillsIn s g.core [entryBytes m] then .error (.hold 12) else .ok (serveCore (dropEntry s g.core n) g.core)

/-- The mapped words of the group's context with a byte in a range. -/
def mappedWords (s : State) (g : Group) (lo hi : Nat) : List Nat :=
  ((getC s g.core).swords.filter fun p => lo < 4 * p.1 + 4 && 4 * p.1 < hi && mappedAt s g.core g.ctx (4 * p.1)).map fun p => p.1

/-- R69, R103: whether a store of the group to mapped words of a range is yet to be performed, for which a `sflush` of them waits (log 96). -/
def storesIn (s : State) (g : Group) (lo hi : Nat) : Bool :=
  let ks := rangeWords [(lo, hi - lo)]
  (getG s g.uid).ops.any fun o => storesMapped o && o.pieces.any fun p => p.space == 1 && !p.bound.isEmpty && (wordsOf p).any ks.contains

/-- R69: `sflush` of a range: the D words of the context's entries in it are written back and become C. -/
def flushRange (s : State) (g : Group) (lo hi : Nat) : State :=
  (getC s g.core).maps.foldl (fun s p =>
    if p.2.ctx ≠ g.ctx then s else
    writeBackRange s g.core (max (lo / 4 * 4) (p.2.sbase * 128)) (min hi ((p.2.sbase + p.2.slen) * 128))) s

/-- R69: `sinval` of a word: a D word's value is discarded and its ownership returned unwritten. -/
def invalWord (s : State) (core k : Nat) : State :=
  let w := swordAt s core k
  let s1 := setSWord (stashCheck s core k) core k SWord.zero
  let s2 := if !w.d then s1 else w.bound.foldl (fun s b => match b with
    | some pa =>
      if (boundWords s core (pa / 4)).any fun p => p.2.d then s
      else disown s (pa / 128) (pairOf core) (1 + core % 2) (BitVec.ofNat 32 (2 ^ (pa / 4 % 32)))
    | none => s) s1
  reportWords s2 core [(k, w)]

/-- R69, R312: `sinval` of a range: the group's stores to its words that are in flight are discarded too. -/
def invalRange (s : State) (g : Group) (lo hi : Nat) : State :=
  let ks := (rangeWords [(lo, hi - lo)]).filter fun k => mappedAt s g.core g.ctx (4 * k)
  (mappedWords s g lo hi).foldl (fun s k => invalWord s g.core k) (discardStores s g.uid ks)

/-- R312: an operation on the mapped words of a range, checked as one access. It waits for the fills into them (R69), and for what `waits`
says. -/
def stashRange (i : Instr) (b2 : BitVec 1) (ss2 : BitVec 6) (cap : BitVec 4) (need : BitVec 7)
    (waits : State → Group → Nat → Nat → Bool) (f : State → Group → Nat → Nat → State) (s : State) : Out :=
  commitNext i s do
    checkField i
    let g := curG s
    let c ← srcC g cap
    let v ← srcS g ss2 (b2 == 1)
    if v = 0 then .ok s else
    capUse c need [1]
    let a := c.addr.toNat
    let l : List (Nat × Int) := [(0, (a : Int))]
    boundsX c v.toNat l
    extentX s g c v.toNat l
    if fillsIn s g.core [(a, a + v.toNat)] || waits s g a (a + v.toNat) then .error (.hold 12) else
    .ok (f s g a (a + v.toNat))

def execSflush (b2 : BitVec 1) (ss2 : BitVec 6) (cap : BitVec 4) (s : State) : Out :=
  stashRange (.sflush b2 ss2 cap) b2 ss2 cap permR storesIn flushRange s
def execSinval (b2 : BitVec 1) (ss2 : BitVec 6) (cap : BitVec 4) (s : State) : Out :=
  stashRange (.sinval b2 ss2 cap) b2 ss2 cap (permR ||| permW) (fun _ _ _ _ => false) invalRange s

end Sys2Proof.Machine
end

