-- ==== Sys2Proof/Machine/Work.lean ====
section
/-!
DEFINITION. The work of engine commands (R25, R51, R73, R77, R118 to R122, R325 to R338) and of matrix operations (R123, R343
to R348), and their completion.
-/
namespace Sys2Proof.Machine

def getCmd (s : State) (id : Nat) : Option Cmd := ffind s.cmds id
def putCmd (s : State) (id : Nat) (c : Cmd) : State := { s with cmds := fput s.cmds id c }

/-- Why a command ends early: a translation fault, an uncorrectable error, a read-only word, or a peer or link that cannot
complete it (R332). -/
inductive EndWhy where
  | xlt (c : Cause) (a : Nat)
  | err (a : Nat)
  | ro (a : Nat)
  | remote (a : Nat)
  deriving DecidableEq, Repr

abbrev Eng := Except EndWhy

/-! Reading a source and writing a destination line. -/

/-- A stash word that its fill returned with an uncorrectable error: the global byte at fault (R364). -/
def wordBad (s : State) (core : Nat) (ctx : BitVec 12) (k : Nat) : Option Nat :=
  if wordReady s core ctx k then none else
  match entryAt (getC s core) ctx (4 * k) with
  | none => none
  | some (_, e) => match fillWord s core e k with
    | .bad a => some a
    | _ => none

/-- A source byte of a command: in global memory (space 0), the core's stash (1) or host memory (3). -/
def srcByte (s : State) (c : Cmd) (space a : Nat) : Eng Byte :=
  match space with
  | 1 => match wordBad s c.core c.ctx (a / 4) with
    | some g => .error (.err g)
    | none => .ok (fget 0 (getC s c.core).stash a)
  | 3 => .ok (fget 0 s.host a)
  | _ => match xlateNow s c.ctx .load a with
    | .error k => .error (.xlt k a)
    | .ok l =>
      let pa := leafPa l a
      if l.mode = 2 then .ok (fget 0 s.host pa) else if errIn s pa 1 then .error (.err a) else .ok (visByte s pa)

/-- Host bytes written (R131, R368). -/
def hostBytes (s : State) (a : Nat) (bs : List Byte) : State := { s with host := fsetN 0 s.host a bs }

/-- The words of a line that a run of bytes in it reaches. -/
def runMask (pa n : Nat) : Word := maskOf ((List.range (ceilDiv (pa % 4 + n) 4)).map fun i => (pa / 4 + i) % 32)

/-- A request of a command. -/
def engineReq (c : Cmd) (kind : ReqKind) (x : LineInfo) (ps : List Piece) (unit : BitVec 2) : Req :=
  { newReq (.engine c.id) c.core c.ctx kind x.line with
    gen := x.gen, mode := x.mode, mbf := x.mbf, pieces := ps, pts := c.pts, unit }

/-- R422: the largest timestamp of a command's lease-mode writes. -/
def noteLease (s : State) (id : Nat) (w : BitVec 16) : State :=
  match getCmd s id with
  | some c => putCmd s id { c with wmax := some (match c.wmax with | some y => lmax y w | none => w) }
  | none => s

/-- R46, R86, R94, R144: whether the home of a line performs a command's write of words of it at once: the line is not locked, no earlier
request holds it back, and its timestamp needs no hold. -/
def openFor (s : State) (c : Cmd) (x : LineInfo) (mask : Word) : Bool :=
  homeOpen s x.line mask x.gen && (dirRoom s x.line).isSome &&
    if x.mode = 1 then !leaseHeld s x.line c.pts else (lockAt s x.line).holder.isNone

/-- The aligned pieces of at most 8 bytes of a run of a line (R98, R332). -/
def linePieces (va pa : Nat) (bs : List Byte) (x : LineInfo) : List Piece :=
  (List.range (ceilDiv (pa % 8 + bs.length) 8)).map fun k =>
    let lo := max pa (pa / 8 * 8 + 8 * k)
    let hi := min (pa + bs.length) (pa / 8 * 8 + 8 * (k + 1))
    { thread := k, space := 0, place := lo, size := hi - lo, val := BitVec.ofNat 64 (leNat ((bs.drop (lo - pa)).take (hi - lo))), exp := 0,
      shown := va + (lo - pa), gen := x.gen, mode := x.mode, mbf := x.mbf, bound := [] }

/-- What a translation says of the line of an address. -/
def lineInfo (l : Leaf) (pa : Nat) : LineInfo := { line := pa / 128, gen := l.gen, mode := l.mode, mbf := l.mbf }

/-- Bytes of one line written through to global memory (R86, R97, R422), at the command's timestamp: as one action where the home performs
the write at once, else by a request that the home holds. -/
def globalBytes (s : State) (c : Cmd) (a : Nat) (bs : List Byte) : Eng State :=
  match xlateNow s c.ctx .store a with
  | .error k => .error (.xlt k a)
  | .ok l =>
    let pa := leafPa l a
    let x := lineInfo l pa
    if l.mode = 2 then .ok (hostBytes s pa bs)
    else if openFor s c x (runMask pa bs.length) then
      let s1 := devWriteMode s (2, c.core) l.mode l.mbf c.pts pa bs
      .ok (if l.mode = 1 then noteLease s1 c.id (dirAt s1 x.line).wts else s1)
    else .ok (sendReq s (engineReq c .write x (linePieces a pa bs x) 0))

/-- The bytes of a mapped piece that belong to a line. -/
def pieceBytes (p : Piece) (line : Nat) : List (Nat × Byte) :=
  ((p.bound.drop (p.place % 4)).zip (leBytes p.val.toNat p.size)).filterMap fun x =>
    x.1.bind fun a => if a / 128 = line then some (a, x.2) else none

/-- R71, R94: a lease-mode line of the pieces that a command holds is written, under a timestamp and with its words as they then are. -/
def noteWritten (s : State) (id line : Nat) (w : BitVec 16) (data : FMap Word) : State :=
  let up (x : LineInfo) : LineInfo := if x.line == line then { x with w := some w, data } else x
  match getCmd s id with
  | some c => noteLease (putCmd s id { c with held := c.held.map fun p => { p with lines := p.lines.map up } }) id w
  | none => s

/-- R77, R71, R74: one line of the mapped words that a command holds: its words are owned by the stash, or its bytes written under a lease, at
once where the home does so, else by a request. -/
def stashOwn (s : State) (id : Nat) (x : LineInfo) : State :=
  match getCmd s id with
  | none => s
  | some c =>
    let mine := c.held.filter fun p => p.lines.any fun y => y.line == x.line
    let mask := mine.foldl (fun m p => m ||| boundMask p.bound x.line) 0
    let unit := 1 + c.core % 2
    let free := homeOpen s x.line mask x.gen && (dirRoom s x.line).isSome
    if x.mode = 1 then
      if free && !leaseHeld s x.line c.pts then
        let s0 := (mine.flatMap wordsOf).foldl (fun s k => stashCheck s c.core k) s
        let s1 := (mine.flatMap fun p => pieceBytes p x.line).foldl (fun s b => devByte s (2, c.core) b.1 b.2) s0
        let s2 := leaseWritten (homeTouch ((dirRoom s1 x.line).getD s1) x.line x.mbf) x.line c.pts
        noteWritten s2 id x.line (dirAt s2 x.line).wts (lineWords s2 x.line mask)
      else sendReq s (engineReq c .write x mine (BitVec.ofNat 2 unit))
    else if free && !lockedBy s x.line (some c.uid) then (ownNow s x.line (pairOf c.core) unit mask (2, c.core)).getD s
    else sendReq s (engineReq c .own x mine (BitVec.ofNat 2 unit))

/-- Whether a line of the pieces that a command holds is still to be owned or written (R71, R74, R144). -/
def lineLacks (s : State) (c : Cmd) (x : LineInfo) : Bool :=
  if x.mode = 1 then x.w.isNone else
  lockedBy s x.line (some c.uid) || !ownsBound s (pairOf c.core) (1 + c.core % 2)
    (c.held.flatMap fun p => p.bound.filter fun b => b.any fun a => a / 128 == x.line)

/-- A piece that a command holds takes its bytes; one whose word has left its entry meanwhile goes to the global words that it was bound to,
and stays in the bank. -/
def engineStore (s : State) (c : Cmd) (p : Piece) : State :=
  let bs := leBytes p.val.toNat p.size
  let same := match bindPiece s c.core c.ctx .store p with | .ok b => b.bound == p.bound | .error _ => false
  if same then (if p.bound.isEmpty then stashWrite s c.core p.place bs else storeMapped s c.core p bs) else
  let dir := p.lines.filter fun x => x.mode != 1
  let s1 := if mappedAt s c.core c.ctx p.place then s else stashWrite s c.core p.place bs
  (dir.flatMap fun x => pieceBytes p x.line).foldl (fun s b => devByte s (2, c.core) b.1 b.2) s1

/-- Whether a request of a command is outstanding. -/
def cmdAsks (s : State) (id : Nat) : Bool := s.reqs.any fun r => r.2.agent == .engine id

/-- R123, R332: whether a listed operand range holds a stash write of a command. -/
def inRange (s : State) (core : Nat) (p : Piece) : Bool :=
  (getC s core).ranges.any fun r => p.place < r.base + r.len && r.base < p.place + p.size

/-- R77, R332: what the pieces of a command's present stash line lack is asked for; once nothing is lacking and no operand range holds one,
they are performed together. -/
def engineStep (s : State) (id : Nat) : State :=
  match getCmd s id with
  | none => s
  | some c =>
    if c.fail then (if cmdAsks s id then s else putCmd s id { c with held := [] })
    else if c.held.isEmpty then s else
    let asked (l : Nat) : Bool := s.reqs.any fun r => r.2.agent == .engine id && r.2.line == l
    let lines := oneEach (c.held.flatMap fun p => p.lines)
    let s1 := lines.foldl (fun s x => if lineLacks s c x && !asked x.line then stashOwn s id x else s) s
    let c1 := (getCmd s1 id).getD c
    let mine (l : Nat) : List Piece := c1.held.filter fun p => p.lines.any fun y => y.line == l
    let lost := (oneEach (c1.held.flatMap fun p => p.lines)).filter (lineLacks s1 c1)
    if cmdAsks s1 id then s1
    else if !lost.isEmpty then
      lost.foldl (fun s x => sendReq s (engineReq c1 (if x.mode = 1 then .write else .own) x (mine x.line)
        (BitVec.ofNat 2 (1 + c.core % 2)))) s1
    else if c1.held.any (inRange s1 c1.core) then s1
    else
      let s2 := c1.held.foldl (fun s p => engineStore s c1 p) s1
      putCmd s2 id { (getCmd s2 id).getD c1 with held := [] }

/-- Whether what a command wrote last is yet to be performed. -/
def cmdBusy (s : State) (id : Nat) : Bool := cmdAsks s id || (getCmd s id).any fun c => !c.held.isEmpty

/-- R77: the bytes of a stash line that a command writes, one piece for each word: bank words, and mapped words as a store of the issuing
group writes them. A word that does not translate, or whose rest cannot be filled, keeps the whole line unwritten (R332). -/
def stashLine (s : State) (c : Cmd) (a : Nat) (bs : List Byte) : Eng State :=
  let part (k : Nat) : Eng Piece :=
    let lo := max a (a / 4 * 4 + 4 * k)
    let hi := min (a + bs.length) (a / 4 * 4 + 4 * (k + 1))
    let p : Piece := { thread := lo, space := 1, place := lo, size := hi - lo, val := BitVec.ofNat 64 (leNat ((bs.drop (lo - a)).take (hi - lo))),
                       exp := 0, shown := lo, gen := 0, mode := 0, mbf := 0, bound := [] }
    match (if coversWord p (lo / 4) then none else wordBad s c.core c.ctx (lo / 4)), validRights s c.core c.ctx .store p,
        bindPiece s c.core c.ctx .store p with
    | some g, _, _ => .error (.err g)
    | none, .error (k, g), _ => .error (.xlt k g)
    | none, .ok _, .error (k, g) => .error (.xlt k g)
    | none, .ok _, .ok b => .ok b
  ((List.range (ceilDiv (a % 4 + bs.length) 4)).mapM part).map fun ps =>
    engineStep (putCmd s c.id { (getCmd s c.id).getD c with held := ps }) c.id

/-- R73: the first word of a read-only entry that bytes of a stash reach. -/
def roWord (s : State) (core : Nat) (ctx : BitVec 12) (a n : Nat) : Option Nat :=
  ((List.range n).find? fun i => (entryAt (getC s core) ctx (a + i)).any fun e => !e.2.rwm).map fun i => (a + i) / 4 * 4

/-- A destination line written: all of its bytes, or none when the line faults (R332). -/
def dstLine (s : State) (c : Cmd) (space a : Nat) (bs : List Byte) : Eng State :=
  match space with
  | 1 =>
    match roWord s c.core c.ctx a bs.length with
    | some w => .error (.ro w)
    | none =>
      let s1 := ((List.range (ceilDiv (a % 4 + bs.length) 4)).map (a / 4 + ·)).foldl (fun s w => watchWord s c.core c.ctx (2, c.core) w) s
      stashLine s1 c a bs
  | 3 => .ok (hostBytes s a bs)
  | 4 => .ok { s with peers := fsetN 0 s.peers a bs }
  | _ => globalBytes s c a bs

/-- The destination lines of a range: each a first byte and a length (R332). -/
def linesOf (a len : Nat) : List (Nat × Nat) :=
  (List.range (ceilDiv (a % 128 + len) 128)).filterMap fun k =>
    let lo := max a (a / 128 * 128 + 128 * k)
    let hi := min (a + len) (a / 128 * 128 + 128 * (k + 1))
    if lo < hi then some (lo, hi - lo) else none

/-- The end of a command's work: the state, and why it ended early, with the first byte of the line at which it did. -/
abbrev Done := State × Option (EndWhy × Nat)

/-- R388: watchpoints on the stash words from which a command reads a destination line; `reads` gives the stash bytes for a byte of it. -/
def watchReads (s : State) (c : Cmd) (reads : State → Nat → List Nat) (o n : Nat) : State :=
  if (getC s c.core).watches.isEmpty then s else
  (((List.range n).flatMap fun i => reads s (o + i)).map fun a => a / 4).dedup.foldl (fun s w => watchWord s c.core c.ctx (1, c.core) w) s

/-- A command goes on to its next destination line or block. -/
def stepPos (s : State) (id : Nat) : State :=
  match getCmd s id with
  | some c => putCmd s id { c with pos := c.pos + 1 }
  | none => s

/-- R332: the work by destination lines in ascending order: the source bytes of a line are read before the line is written, and
the first line that faults ends the command. It stops at a line whose write its home, or an operand range, holds: the next follows when that is
performed. -/
def byLines (c : Cmd) (space a : Nat) (reads : State → Nat → List Nat) (src : State → Nat → Eng Byte) : List (Nat × Nat) → State → Done
  | [], s => (s, none)
  | (lo, n) :: ls, s0 =>
    let s := watchReads s0 c reads (lo - a) n
    match ((List.range n).mapM fun i => src s (lo - a + i)) with
    | .error x => (s, some (x, lo))
    | .ok bs => match dstLine s c space lo bs with
      | .error x => (s, some (x, lo))
      | .ok s1 =>
        let s2 := stepPos s1 c.id
        if cmdBusy s2 c.id then (s2, none) else byLines c space a reads src ls s2

/-- Lines with their bytes written in ascending order, up to one whose write is held; the rest is kept. -/
def putLines (c : Cmd) : List (Nat × List Byte) → State → Done
  | [], s => (s, none)
  | (a, bs) :: ls, s => match dstLine s c 1 a bs with
    | .error x => (s, some (x, a))
    | .ok s1 =>
      let s2 := putCmd s1 c.id { (getCmd s1 c.id).getD c with todo := ls }
      if cmdBusy s2 c.id then (s2, none) else putLines c ls s2

/-- Byte runs cut into lines, in ascending order of address. -/
def runLines (rs : List (Nat × List Byte)) : List (Nat × List Byte) :=
  let cut (r : Nat × List Byte) : List (Nat × List Byte) :=
    (linesOf r.1 r.2.length).map fun l => (l.1, (r.2.drop (l.1 - r.1)).take l.2)
  let ins (x : Nat × List Byte) (l : List (Nat × List Byte)) : List (Nat × List Byte) :=
    (l.takeWhile fun y => y.1 < x.1) ++ x :: l.dropWhile fun y => y.1 < x.1
  (rs.flatMap cut).foldl (fun l x => ins x l) []

/-! The commands. -/

/-- The bytes of the command's stash, and a word of it. -/
def stashRd (s : State) (core : Nat) : Nat → Byte := fun a => fget 0 (getC s core).stash a
def stashWord (s : State) (core a : Nat) : Nat := readLe (getC s core).stash a 4

/-- R329: the address of row `i` of a gather, exact. -/
def rowAddr (s : State) (c : Cmd) (src : Cap) (stride ia i : Nat) : Nat := src.addr.toNat + stashWord s c.core (ia + 4 * i) * stride

/-- R329: whether a row lies in the bounds of the source. -/
def rowOk (src : Cap) (a rlen : Nat) : Bool :=
  match capDecode src with | some (b, t) => b ≤ a && a + rlen ≤ t | none => false

/-- R329: a byte of a gather. -/
def gatherByte (c : Cmd) (src : Cap) (stride rlen ia : Nat) (s : State) (o : Nat) : Eng Byte :=
  match wordBad s c.core c.ctx ((ia + 4 * (o / rlen)) / 4) with
  | some g => .error (.err g)
  | none =>
    let a := rowAddr s c src stride ia (o / rlen)
    if rowOk src a rlen then srcByte s c src.space.toNat (a + o % rlen) else .ok 0

/-- R331: the source byte of a transposition for a destination byte. -/
def transAt (src : Cap) (e rows pitch o : Nat) : Nat := src.addr.toNat + o / e % rows * pitch + o / e / rows * e + o % e
def transByte (c : Cmd) (src : Cap) (e rows pitch : Nat) (s : State) (o : Nat) : Eng Byte :=
  srcByte s c src.space.toNat (transAt src e rows pitch o)

/-- R337: the bits of an element as element form holds them. -/
def formCode (s : State) (core : Nat) (t : Tid) (r j : Nat) : Nat :=
  let x := elemCode (stashRd s core) t r j
  if t.fmt = 6 then (nestedValue x t.rpl % 256).toNat else x

/-- R337: a byte of element form from planes. -/
def formByte (t : Tid) (s : State) (core o : Nat) : Byte :=
  let kc := tidKC t
  if t.fmt = 7 then
    BitVec.ofNat 8 ((List.range 8).map fun b =>
      let n := 8 * o + b
      if n / kc < tidRows t then formCode s core t (n / kc) (n % kc) * 2 ^ b else 0).sum
  else
    let e := tidW t / 8
    BitVec.ofNat 8 (formCode s core t (o / e / kc) (o / e % kc) / 256 ^ (o % e))

/-- R222, R337: the stash bytes of the planes that a byte of element form is made of. -/
def formAddrs (t : Tid) (o : Nat) : List Nat :=
  let kc := tidKC t
  let ns := if t.fmt = 7 then (List.range 8).map (8 * o + ·) else [o / (tidW t / 8)]
  ns.flatMap fun n => if n / kc < tidRows t then
    (List.range t.rpl).map fun p => tileAddr t (n / kc / 64) (n % kc / 64) p + 8 * (n / kc % 64) + n % kc % 64 / 8 else []

/-- R337, R364: the same byte, unless a plane's fill brought an uncorrectable error. -/
def formByteE (c : Cmd) (t : Tid) (s : State) (o : Nat) : Eng Byte :=
  match (formAddrs t o).findSome? fun a => wordBad s c.core c.ctx (a / 4) with
  | some g => .error (.err g)
  | none => .ok (formByte t s c.core o)

/-- R337: an element read from element form. -/
def formRead (s : State) (c : Cmd) (cap : Cap) (t : Tid) (r j : Nat) : Eng Nat :=
  let a := cap.addr.toNat
  let n := r * tidKC t + j
  if t.fmt = 7 then (srcByte s c cap.space.toNat (a + n / 8)).map fun b => b.toNat / 2 ^ (n % 8) % 2
  else
    let e := tidW t / 8
    ((List.range e).mapM fun i => srcByte s c cap.space.toNat (a + n * e + i)).map leNat

/-- The plane tiles of a row block from its elements' codes, pads 0 (R222, R337). -/
def planeRun (t : Tid) (rb : Nat) (code : Nat → Nat → Nat) : Nat × List Byte :=
  let byte (o : Nat) : Byte :=
    let kb := o / 512 / t.spl
    let p := o / 512 % t.spl
    let r := 64 * rb + o % 512 / 8
    BitVec.ofNat 8 ((List.range 8).map fun b =>
      let j := 64 * kb + o % 8 * 8 + b
      if r < tidRows t && j < tidKC t then code (r - 64 * rb) j / 2 ^ (tidW t - 1 - p) % 2 * 2 ^ b else 0).sum
  (tileAddr t rb 0 0, (List.range (512 * tidKB t * t.spl)).map byte)

/-- Row blocks in ascending order (R332): each is read in full before any of it is written; a source fault ends the command at
its block. `read` gives the runs of a block, `reads` the stash bytes it reads. -/
def byBlocks (c : Cmd) (reads : Nat → List (Nat × Nat)) (read : State → Nat → Eng (List (Nat × List Byte))) (rb : Nat) : Nat → State → Done
  | 0, s => (s, none)
  | n + 1, s0 =>
    let s := if (getC s0 c.core).watches.isEmpty then s0 else
      (rangeWords (reads rb)).foldl (fun s w => watchWord s c.core c.ctx (1, c.core) w) s0
    match read s rb with
    | .error x => (s, some (x, 0))
    | .ok rs => match putLines c (runLines rs) (stepPos s c.id) with
      | (s', none) => if cmdBusy s' c.id then (s', none) else byBlocks c reads read (rb + 1) n s'
      | (s', some x) => (s', some x)

/-- The blocks that a command has not begun, after the rest of the one that it has. -/
def workBlocks (c : Cmd) (n : Nat) (reads : Nat → List (Nat × Nat)) (read : State → Nat → Eng (List (Nat × List Byte))) (s : State) : Done :=
  match putLines c c.todo s with
  | (s', none) => if cmdBusy s' c.id then (s', none) else byBlocks c reads read c.pos (n - c.pos) s'
  | r => r

/-- The rows of a block. -/
def blockRows (t : Tid) (rb : Nat) : List Nat := (List.range 64).map (64 * rb + ·) |>.filter (· < tidRows t)

/-- R337: the runs of a block of `cpy.pln`. -/
def planeBlock (c : Cmd) (cap : Cap) (t : Tid) (s : State) (rb : Nat) : Eng (List (Nat × List Byte)) :=
  ((blockRows t rb).mapM fun r => (List.range (tidKC t)).mapM fun j => formRead s c cap t r j).map fun m =>
    [planeRun t rb fun r j => (m.getD r []).getD j 0]

/-- R338: the runs of a block of `cpy.fold`: the plane tiles and each row's scale. -/
def foldBlock (c : Cmd) (cap : Cap) (a b : Tid) (s : State) (rb : Nat) : Eng (List (Nat × List Byte)) :=
  let k := tidK a
  match (rangeWords [(smoothAddr b 0, 4 * k)]).findSome? (wordBad s c.core c.ctx) with
  | some g => .error (.err g)
  | none =>
  let f32 (i : Nat) : Eng Nat := ((List.range 4).mapM fun x => srcByte s c cap.space.toNat (cap.addr.toNat + 4 * i + x)).map leNat
  let sm (j : Nat) : Nat := stashWord s c.core (smoothAddr b j)
  ((blockRows a rb).mapM fun r => (List.range k).mapM fun j => f32 (r * k + j)).map fun m =>
    let w := m.map fun row => row.zipIdx.map fun x =>
      (fMul fmtF32 0 (fDecode fmtF32 x.1) (fDecode fmtF32 (sm x.2))).1
    let sc := w.map fun row => scaleOf a (row.foldl magMax 0)
    let q := (w.zip sc).map fun x => x.1.map fun v => (quant a v x.2).1.toNat
    planeRun a rb (fun r j => (q.getD r []).getD j 0) ::
      (sc.zipIdx.map fun x => (scaleAddr a (64 * rb + x.2), leBytes x.1 4))

/-- R122, R330: the completion flag: an atomic add of 1, once every write of the copy is performed: as one action, or by a request that the
home holds. -/
def addFlag (s : State) (c : Cmd) (space a : Nat) : Done :=
  match space with
  | 4 => ({ s with peers := writeLe s.peers a 4 (readLe s.peers a 4 + 1) }, none)
  | _ => match xlateNow s c.ctx (.atomic false) a with
    | .error k => (s, some (.xlt k a, a))
    | .ok l =>
      let pa := leafPa l a
      let x := lineInfo l pa
      if l.mode = 2 then (hostBytes s pa (leBytes (readLe s.host pa 4 + 1) 4), none)
      else if errIn s pa 4 then (s, some (.err a, a))
      else if openFor s c x (runMask pa 4) then
        let s1 := devWriteMode s (4, c.core) l.mode l.mbf c.pts pa (leBytes (visLe s pa 4 + 1) 4)
        (if l.mode = 1 then noteLease s1 c.id (dirAt s1 x.line).wts else s1, none)
      else (sendReq s (engineReq c (.atomic (.add 4) false) x (linePieces a pa (leBytes 1 4) x) 0), none)

/-- The completion flag of a command, with its space (R330). -/
def cmdFlag (c : Cmd) : Option (Nat × Nat) :=
  match c.kind with
  | .remote d _ _ (some a) => some (d.space.toNat, a)
  | _ => none

/-- The destination lines of a command that works by lines (R332). -/
def cmdLines (c : Cmd) : List (Nat × Nat) :=
  match c.kind with
  | .copy d _ n | .remote d _ n _ => linesOf d.addr.toNat n
  | .gather d _ _ rl n _ => linesOf d.addr.toNat (n * rl)
  | .transpose d _ e r k _ => linesOf d.addr.toNat (r * k * e)
  | .plane cap t true => linesOf cap.addr.toNat (formLen t)
  | _ => []

/-- R332: whether destination lines or blocks of a command are still to be written. -/
def cmdUnfinished (c : Cmd) : Bool :=
  !c.fail && (!c.todo.isEmpty || c.pos < match c.kind with
    | .plane _ t false => tidRB t
    | .fold _ a _ => tidRB a
    | _ => (cmdLines c).length)

/-- The work of a command that is not a matrix operation, from where it stands, but for its completion flag. `cut` is the byte from which a peer
or a link takes no more (R332). -/
def cmdWork (s : State) (c : Cmd) (cut : Option Nat) : Done :=
  let ls := (cmdLines c).drop c.pos
  let from_ (x : Cap) (o : Nat) : List Nat := if x.space = 1 then [x.addr.toNat + o] else []
  match c.kind with
  | .copy d x _ => byLines c d.space.toNat d.addr.toNat (fun _ o => from_ x o) (fun s o => srcByte s c x.space.toNat (x.addr.toNat + o)) ls s
  | .gather d x st rl _ ia =>
    let reads (_ : State) (o : Nat) : List Nat := [ia + 4 * (o / rl)]
    byLines c 1 d.addr.toNat reads (gatherByte c x st rl ia) ls s
  | .remote d x _ _ =>
    let ls' := match cut with | some k => ls.filter fun l => l.1 + l.2 ≤ d.addr.toNat + k | none => ls
    match byLines c d.space.toNat d.addr.toNat (fun _ o => from_ x o) (fun s o => srcByte s c x.space.toNat (x.addr.toNat + o)) ls' s with
    | (s1, some e) => (s1, some e)
    | (s1, none) => if cmdBusy s1 c.id then (s1, none) else (s1, cut.map fun k => (.remote (d.addr.toNat + k), d.addr.toNat + k))
  | .transpose d x e r _ p =>
    byLines c 1 d.addr.toNat (fun _ o => if x.space = 1 then [transAt x e r p o] else []) (transByte c x e r p) ls s
  | .plane cap t true => byLines c cap.space.toNat cap.addr.toNat (fun _ o => formAddrs t o) (formByteE c t) ls s
  | .plane cap t false =>
    let row := if t.fmt = 7 then ceilDiv (64 * tidKC t) 8 else 64 * tidKC t * (tidW t / 8)
    workBlocks c (tidRB t) (fun rb => if cap.space = 1 then [(cap.addr.toNat + rb * row, min row (formLen t - rb * row))] else [])
      (planeBlock c cap t) s
  | .fold cap a b =>
    let row := 256 * tidK a
    workBlocks c (tidRB a) (fun rb => (smoothAddr b 0, 4 * tidK b) ::
      (if cap.space = 1 then [(cap.addr.toNat + rb * row, min row (4 * tidK a * tidRows a - rb * row))] else [])) (foldBlock c cap a b) s
  | .mm _ _ _ _ _ _ | .mzero _ => (s, none)

/-! What a command waits for. -/

/-- The global ranges that a command reads. -/
def cmdSources (s : State) (c : Cmd) : List (Nat × Nat) :=
  let from_ (x : Cap) (n : Nat) : List (Nat × Nat) := if x.space = 0 then [(x.addr.toNat, n)] else []
  match c.kind with
  | .copy _ x n | .remote _ x n _ => from_ x n
  | .gather _ x st rl n ia => if x.space ≠ 0 then [] else
    ((List.range n).map (rowAddr s c x st ia)).filterMap fun a => if rowOk x a rl then some (a, rl) else none
  | .transpose _ x e r k p => from_ x ((r - 1) * p + k * e)
  | .plane cap t false => from_ cap (formLen t)
  | .fold cap a _ => from_ cap (4 * (tidRows a * tidK a))
  | _ => []

/-- The lines of the global sources of a command that translate to device memory: the leaf, the physical address and the length. -/
def sourceLines (s : State) (c : Cmd) : List (Leaf × Nat × Nat) :=
  let one (l : Nat × Nat) : Option (Leaf × Nat × Nat) := match xlateNow s c.ctx .load l.1 with
    | .ok f => if f.mode = 2 then none else some (f, leafPa f l.1, l.2)
    | .error _ => none
  (cmdSources s c).flatMap fun r => (linesOf r.1 r.2).filterMap one

/-- R46, R86: whether the homes of a command's global sources answer it: no earlier request holds back a read of their words, and the
frames have the generations of their leaves. -/
def sourcesOpen (s : State) (c : Cmd) : Bool :=
  (sourceLines s c).all fun x => homeOpen s (x.2.1 / 128) (runMask x.2.1 x.2.2) x.1.gen

/-- R83, R85: what a command's reads leave at the homes: the line's place in the slice, and the copy engine's read-ahead buffer. -/
def touchSources (s : State) (c : Cmd) : State :=
  (sourceLines s c).foldl (fun s x =>
    let line := x.2.1 / 128
    let s1 := sliceTouch s (homeSlice line) line 0 x.1.mbf
    if x.1.mode == 1#2 then s1 else match dirRoom s1 line with
      | some s2 => cpeReads s2 line (runMask x.2.1 x.2.2)
      | none => s1) s

/-- R131, R367: whether a command reads host memory, whose completions come in the order of the host port. -/
def readsHost (s : State) (c : Cmd) : Bool :=
  let host (x : Cap) : Bool := x.space == 3
  (match c.kind with
    | .copy _ x _ | .remote _ x _ _ | .gather _ x _ _ _ _ | .transpose _ x _ _ _ _ | .plane x _ false | .fold x _ _ => host x
    | _ => false) ||
    (cmdSources s c).any fun r => (linesOf r.1 r.2).any fun l => match xlateNow s c.ctx .load l.1 with
      | .ok f => f.mode == 2
      | .error _ => false

/-- The words of ranges of a core's stash that have yet to be filled (R61). -/
def unready (s : State) (core : Nat) (ctx : BitVec 12) (l : List (Nat × Nat)) : List Nat :=
  (rangeWords l).filter fun k => !wordReady s core ctx k && (wordBad s core ctx k).isNone

/-- The fills of words started for an engine (R77). -/
def fillWords (s : State) (core : Nat) (ctx : BitVec 12) (ks : List Nat) : State :=
  ((ks.map fun k => k / 32).dedup).foldl (fun s l => startFill s core ctx none l) s

/-- Whether a command that has started may do its work: its stash sources, and the words that it writes in part, are filled (R77), the homes
of its global sources answer (R86), no earlier write waits at the host port that its reads return through (R367), and no operand range holds
its stash destination (R123, R332). -/
def cmdFree (s : State) (c : Cmd) : Bool :=
  c.cancel || ((unready s c.core c.ctx (cmdReads c ++ cmdEdges c)).isEmpty && sourcesOpen s c &&
    ((getDie s (dieOf c.core)).hostq.isEmpty || !readsHost s c) &&
    (cmdWrites c).all fun r => (getC s c.core).ranges.all fun x => r.1 + r.2 ≤ x.base || x.base + x.len ≤ r.1)

/-! Completion (R325, R335). -/

/-- The identity of a command as a deferred cause holds it (R323, R358). -/
def cmdIdent (c : Cmd) : DWord := BitVec.ofNat 64 (c.num.toNat + 2 ^ 16 * c.cls.toNat + 2 ^ 18 * c.core)

/-- A deferred cause that names a command (R358, R361). -/
def cmdCause (s : State) (c : Cmd) (k : Cause) (a row sub : Nat) : State :=
  let g := getG s c.uid
  let r : FaultRec := { faultRec s c.ctx k true with
    core := c.core, slot := g.slot.getD 0, gv := g.slot.isSome, gid := c.gid, ecls := c.cls, cseq := c.num, sub := BitVec.ofNat 8 sub,
    addr := a, arg := BitVec.ofNat 32 row }
  raiseDeferred s c.uid { cause := k, xf0 := cmdIdent c, xf1 := BitVec.ofNat 64 a, xf2 := BitVec.ofNat 64 row } r

/-- R329: the reports of the gathered rows out of bounds, of the rows worked through before the byte `end_`. -/
def gatherReports (s : State) (c : Cmd) (end_ : Option Nat) : State :=
  match c.kind with
  | .gather d x st rl n ia =>
    (List.range n).foldl (fun s i =>
      let a := rowAddr s c x st ia i
      if rowOk x a rl || end_.any (fun e => e ≤ d.addr.toNat + i * rl) then s else cmdCause s c .capBound (a % 2 ^ 56) i 0) s
  | _ => s

/-- R332: the report of a command that ended early. -/
def endReport (s : State) (c : Cmd) (e : EndWhy) : State :=
  match e with
  | .xlt k a => cmdCause s c .xltEngine a 0 (causeCode k)
  | .err a => cmdCause s c .engErr a 0 0
  | .ro a => cmdCause s c .stashRo a 0 0
  | .remote a => cmdCause s c .rmtFail a 0 0

/-- R325: the commands of a group and class that have completed with all their elders are signalled. -/
def signalCmds (s : State) (uid : Nat) (cls : BitVec 2) : State :=
  let mine := s.cmds.filter fun p => p.2.uid == uid && p.2.cls == cls
  let done := mine.takeWhile fun p => p.2.st == .completed
  let s1 := { s with cmds := s.cmds.filter fun p => !done.any fun d => d.1 == p.1 }
  modG s1 uid fun g => { g with ec := fmod 0 g.ec cls.toNat fun n => n - done.length }

/-- R335: the successors of a node that ends: an edge is met; after a failure they are to be cancelled. -/
def metEdges (s : State) (core : Nat) (succs : List (Nat × BitVec 8)) (fail : Bool) : State :=
  modC s core fun c => { c with nodes := succs.foldl (fun m q =>
    let n := fget Node.zero m q.1
    if n.gen = q.2 && n.st ≠ .free then fput m q.1 { n with count := n.count - 1, cancel := n.cancel || fail } else m) c.nodes }

/-- R333: a node is freed: its generation rises. -/
def freeNode (s : State) (core n : Nat) : State :=
  modC s core fun c => { c with nodes := fset Node.zero c.nodes n { Node.zero with gen := (fget Node.zero c.nodes n).gen + 1 } }

/-- R119, R325, R335, R351: a command completes. `fail` says that it ended in error; a cancelled command passes that on. GRAPH_CANCEL is
raised once, for the command that failed or was cancelled itself, and not for those that are cancelled after it. -/
def completeCmd (s : State) (id : Nat) (fail : Bool) : State :=
  match getCmd s id with
  | none => s
  | some c =>
    let s1 := putCmd s id { c with st := .completed }
    let s2 := match c.node with
      | none => s1
      | some n =>
        let nd := fget Node.zero (getC s c.core).nodes n
        let sx := if (fail || (c.cancel && !nd.cancel)) && !nd.succs.isEmpty then cmdCause s1 c .graphCancel 0 0 0 else s1
        freeNode (metEdges sx c.core nd.succs (fail || c.cancel)) c.core n
    traceDone (signalCmds s2 c.uid c.cls) c.core (2 ^ 60 + id)

/-- R119, R422: a command whose work is done, and every write of it performed, completes: its core's PTS reaches the timestamps of its
lease-mode writes. -/
def cmdDone (s : State) (id : Nat) : State :=
  match getCmd s id with
  | none => s
  | some c => completeCmd (match c.wmax with | some w => raisePts s c.core w | none => s) id c.fail

/-- R119, R122, R330, R332: what follows when all that a command wrote is performed: the rest of its work, then the completion flag, then
completion. -/
def cmdNext (s : State) (id : Nat) : State :=
  match getCmd s id with
  | none => s
  | some c =>
    if cmdBusy s id then s else
    match c.st with
    | .flagging => cmdDone s id
    | .writing =>
      if cmdUnfinished c then push (putCmd s id { c with st := .run }) (.engineCommandComplete id none) else
      match cmdFlag c with
      | some (sp, a) =>
        if c.fail then cmdDone s id else
        let (s1, e) := addFlag (putCmd s id { c with st := .flagging }) c sp a
        match e with
        | some x =>
          let c1 := (getCmd s1 id).getD c
          cmdDone (endReport (putCmd s1 id { c1 with fail := true }) c x.1) id
        | none => if cmdAsks s1 id then s1 else cmdDone s1 id
      | none => cmdDone s id
    | _ => s

/-- A request of a command that fails ends the command in error at its line (R332). -/
def engineFail (s : State) (q : Req) (id : Nat) (e : EndWhy) : State :=
  match getCmd s id with
  | none => delR s q.id
  | some c =>
    let s1 := engineStep (putCmd (delR s q.id) id { c with fail := true }) id
    cmdNext (endReport (gatherReports s1 c (((cmdLines c)[c.pos - 1]?).map fun l => l.1)) c e) id

/-- R119: a write-through of a command is performed. -/
def engineAcked (s : State) (q : Req) (id : Nat) : State :=
  cmdNext (if q.mode = 1 then noteLease (delR s q.id) id q.wts else delR s q.id) id

/-- R71, R74, R77: the acknowledgement of one line of mapped words that a command writes. -/
def engineMapped (s : State) (q : Req) (id : Nat) : State :=
  cmdNext (engineStep (if q.mode = 1 then noteWritten (delR s q.id) id q.line q.wts q.data else delR s q.id) id) id

/-- R46: a refused request of a command is translated anew and sent again; a fault ends the command in error. -/
def engineRetry (s : State) (q : Req) (id : Nat) : State :=
  let a := (q.pieces.map fun p => p.shown).headD 0
  if q.unit = 0 then
    match xlateNow s q.ctx (match q.kind with | .atomic _ f => .atomic f | _ => .store) a with
    | .error k => engineFail s q id (.xlt k a)
    | .ok l =>
      let place (p : Piece) : Piece := { p with place := leafPa l p.shown, gen := l.gen, mode := l.mode, mbf := l.mbf }
      let line := leafPa l a / 128
      if l.mode = 2 then
        let put (s : State) (p : Piece) : State := match q.kind with
          | .atomic _ _ => hostBytes s (leafPa l p.shown) (leBytes (readLe s.host (leafPa l p.shown) 4 + 1) 4)
          | _ => hostBytes s (leafPa l p.shown) (leBytes p.val.toNat p.size)
        cmdNext (q.pieces.foldl put (delR s q.id)) id
      else sendReq (delR s q.id) { q with line, gen := l.gen, mode := l.mode, mbf := l.mbf, pieces := q.pieces.map place }
  else match getCmd s id with
    | none => delR s q.id
    | some c =>
      let keep (old : Piece) (x : LineInfo) : LineInfo := match old.lines.find? fun y => y.line == x.line && y.mode == x.mode with
        | some y => { x with w := y.w, data := y.data }
        | none => x
      let s0 := dropBound (delR s q.id) q
      match (c.held.mapM fun p => (bindPiece s0 c.core c.ctx .store p).map fun b => { b with lines := b.lines.map (keep p) }) with
      | .error (k, g) => engineFail s q id (.xlt k g)
      | .ok ps => cmdNext (engineStep (putCmd s0 id { c with held := ps }) id) id

/-- R123: the stash writes of commands that an operand range held go on. -/
def engineResume (s : State) (core : Nat) : State :=
  (s.cmds.filter fun p => p.2.core == core && !p.2.held.isEmpty).foldl (fun s p => cmdNext (engineStep s p.1) p.1) s

/-! Matrix operations (R123, R343 to R348). -/

/-- The even core of a pair, which holds the pair's matrix queue and its tile owners. -/
def pairCore (core : Nat) : Nat := 2 * pairOf core

/-- The tiles of an operation (R344). -/
def mmTiles (k : CmdKind) : List Nat :=
  match k with
  | .mm tc _ _ a _ _ => if a.fmt = 5 then [tc, tc + 1] else [tc]
  | .mzero tc => [tc]
  | _ => []

/-- The core of a side of an operation, and the key of a word in its snapshot. -/
def sideCore (c : Cmd) (side : Nat) : Nat := if side = 0 then c.core else partner c.core
def snapKey (side k : Nat) : Nat := 2 ^ 24 * side + k

/-- R123: the words of an operation's snapshot that are not in it yet. -/
def snapMissing (c : Cmd) (side : Nat) : List Nat :=
  (rangeWords (mmReads c.kind side)).filter fun k => (ffind c.result (snapKey side k)).isNone

/-- R123: the stores and atomics of the issuing group, not yet performed, that precede an operation in program order. -/
def earlierWrites (s : State) (c : Cmd) : List Op :=
  (getG s c.uid).ops.filter fun o => o.seq < c.id && o.pre.getLsbD c.entry && opWrites o.kind

/-- R123: the value of a stash word of a side as the snapshot takes it: the earlier writes of the issuing group are in it, to the word or to the
global bytes that it stands for. Bytes of its earlier stores not yet performed come first; none while another write of it to the word is
outstanding, or while the word is to be filled. -/
def snapWord (s : State) (c : Cmd) (side k : Nat) : Option Word :=
  let core := sideCore c side
  let here := (getG s c.uid).core == core
  let bound := (swordAt s core k).bound
  let places (i : Nat) : List (Nat × Nat) := (if here then [(1, 4 * k + i)] else []) ++ match bound[i]? with
    | some (some a) => [(0, a)]
    | _ => []
  let all := (List.range 4).flatMap places
  let earlier := (earlierWrites s c).filter fun o => o.pieces.any fun p => all.any fun x => (spots p).contains x
  let own (i : Nat) : Option Byte := earlier.reverse.findSome? fun o => o.pieces.reverse.findSome? fun p =>
    (places i).findSome? fun x => pieceByte p x.1 x.2
  let bs := (List.range 4).map own
  if earlier.any fun o => !forwards o then none
  else if wordReady s core c.ctx k || bs.all fun b => b.isSome then
    some (BitVec.ofNat 32 (leNat (bs.zipIdx.map fun b => b.1.getD (fget 0 (getC s core).stash (4 * k + b.2)))))
  else none

/-- R123, R388: the words of a side that may now be read enter the snapshot, and watchpoints see them. -/
def captureSide (s : State) (id side : Nat) : State :=
  match getCmd s id with
  | none => s
  | some c =>
    let new := (snapMissing c side).filterMap fun k => (snapWord s c side k).map fun x => (k, x)
    let s1 := putCmd s id { c with result := new.foldl (fun m x => fput m (snapKey side x.1) x.2) c.result }
    new.foldl (fun s x => watchWord s (sideCore c side) c.ctx (1, c.core) x.1) s1
def capture (s : State) (id : Nat) : State := captureSide (captureSide s id 0) id 1

/-- R123: every operation of a pair that waits for fills takes what has been delivered. -/
def captureAll (s : State) (core : Nat) : State := (getC s (pairCore core)).mqueue.foldl capture s

/-- Whether an operation's snapshot is whole. -/
def snapWhole (c : Cmd) : Bool := (snapMissing c 0).isEmpty && (snapMissing c 1).isEmpty

/-- The bytes of a side's snapshot. -/
def snapRd (c : Cmd) (side : Nat) : Nat → Byte := fun a =>
  BitVec.ofNat 8 ((fget (0 : Word) c.result (snapKey side (a / 4))).toNat / 2 ^ (8 * (a % 4)))

/-- A tile's word of element (r, n) (R6). -/
def tileWord (tc r n : Nat) : Nat := 0x1800 * tc + 96 * r + n

/-- One side of an operation on its core's tiles: the tiles, and whether an integer chunk saturated. -/
def mmSide (tiles : FMap Word) (c : Cmd) (side tc : Nat) (a b : Tid) : FMap Word × Bool :=
  let ra := snapRd c side
  let rb := snapRd c 0
  (List.range (tidRows a)).foldl (fun q r => (List.range (tidRows b)).foldl (fun (q : FMap Word × Bool) n =>
    let lo := tileWord tc r n
    let hi := tileWord (tc + 1) r n
    let acc := (fget 0 q.1 lo).toNat + (if a.fmt = 5 then 2 ^ 32 * (fget 0 q.1 hi).toNat else 0)
    let (x, sat) := accumulate ra rb a b r n acc
    let t1 := fset 0 q.1 lo (BitVec.ofNat 32 x)
    (if a.fmt = 5 then fset 0 t1 hi (BitVec.ofNat 32 (x / 2 ^ 32)) else t1, q.2 || sat)) q) (tiles, false)

/-- A tile without its words. -/
def zeroTile (tiles : FMap Word) (tc : Nat) : FMap Word := tiles.filter fun p => !(p.1 / 0x1800 == tc)

/-- R345, R348: the tags that an operation gives its tiles at its start. -/
def tagTiles (s : State) (c : Cmd) : State :=
  let tag : TileTag := match c.kind with | .mm _ _ _ a _ _ => some (accKind a) | _ => none
  [0, 1].foldl (fun s side => modC s (sideCore c side) fun x => { x with
    ttags := (mmTiles c.kind).foldl (fun m t => fset none m t tag) x.ttags }) s

/-- R345: the result of an operation written to the tiles of both cores, with its deferred events. -/
def mmWrite (s : State) (c : Cmd) : State :=
  match c.kind with
  | .mm tc z _ a b p =>
    let zero (m : FMap Word) : FMap Word := if z then (mmTiles c.kind).foldl zeroTile m else m
    let l := mmSide (zero (getC s c.core).tiles) c 0 tc a b
    let r := mmSide (zero (getC s (partner c.core)).tiles) c 1 tc p b
    let s1 := modC (modC s c.core fun x => { x with tiles := l.1 }) (partner c.core) fun x => { x with tiles := r.1 }
    let s2 := if l.2 || r.2 then cmdCause s1 c .mtxSat 0 0 0 else s1
    if metaBad (snapRd c 0) a || metaBad (snapRd c 1) p then cmdCause s2 c .sparseMeta 0 0 0 else s2
  | .mzero tc => [0, 1].foldl (fun s side => modC s (sideCore c side) fun x => { x with tiles := zeroTile x.tiles tc }) s
  | _ => s

/-- R347: the operation that may start: the first of the queue that has not, once the one before it has consumed its operands. -/
def mmNext (s : State) (core : Nat) : Option Nat :=
  let l := (getC s (pairCore core)).mqueue.filterMap fun id => (getCmd s id).map fun c => (id, c)
  if l.any fun p => p.2.st == .started then none else (l.find? fun p => p.2.st == .armed).map fun p => p.1

end Sys2Proof.Machine
end

