-- ==== Sys2Proof/Machine/Engine.lean ====
section
/-!
DEFINITION. The issue of engine commands and matrix operations, graph nodes, tensor entries, stage rings, `vqnt` and `vpln`
(R323 to R350).
-/
namespace Sys2Proof.Machine

/-! Issue (R323, R324). -/

/-- R324: a group's counter of a class. -/
def ecOf (g : Group) (cls : BitVec 2) : Nat := fget 0 g.ec cls.toNat

/-- R335: the node that a handle names, for a command with G = 1. -/
def nodeX (s : State) (g : Group) (h : DWord) : X Nat :=
  let n := h.toNat % 256
  let nd := fget Node.zero (getC s g.core).nodes n
  if nd.st = .openN && nd.gen.toNat == h.toNat / 256 % 256 && nd.ctx == g.ctx then .ok n else trapX .engGraph

/-- R324: a full counter suspends the fragment at its instruction. -/
def counterX (g : Group) (cls : BitVec 2) : X Unit :=
  if ecOf g cls = 63 then .error (.wait (.counter cls 62)) else .ok ()

/-- R387: the first address that a command reaches: of its source, its index list or its planes; 0 for one that reads nothing. -/
def firstReached (k : CmdKind) : Nat :=
  match k with
  | .copy _ x n | .remote _ x n _ => if n = 0 then 0 else x.addr.toNat
  | .gather _ _ _ _ _ ia => ia
  | .transpose _ x _ _ _ _ => x.addr.toNat
  | .plane c t unp => if unp then (planeRegion t).1 else c.addr.toNat
  | .fold c _ _ => c.addr.toNat
  | .mm _ _ _ a _ _ => (planeRegion a).1
  | .mzero _ => 0

/-- R323: a command of the issuing group takes its number and counts; it is held until R118 lets it go. -/
def newCmd (s : State) (cls : BitVec 2) (kind : CmdKind) (node : Option Nat) (st : CmdSt) : Nat × State :=
  let g := curG s
  let (id, s1) := fresh s
  let c : Cmd := { id, cls, num := (getC s g.core).cmdSeq, uid := g.uid, gid := g.gid, ctx := g.ctx, task := g.task, core := g.core,
                   kind, node, st, cancel := false, pts := (getC s g.core).pts, result := [], entry := s.cur.entry }
  let s2 := modC (putCmd s1 id c) g.core fun x => { x with cmdSeq := x.cmdSeq + 1 }
  let s3 := modCur s2 fun g => { g with ec := fmod 0 g.ec cls.toNat (· + 1) }
  let k : BitVec 4 := match cls.toNat with | 0 => 5 | 1 => 6 | 2 => 7 | _ => 8
  (id, traceAdd s3 g k (2 ^ 60 + id) (firstReached kind) 0 c.num)

/-- R324: a checked command that is not a matrix operation is queued, or arms its node. -/
def queueCmd (s : State) (cls : BitVec 2) (kind : CmdKind) (node : Option Nat) : State :=
  let (id, s1) := newCmd s cls kind node .held
  let core := (curG s).core
  let s2 := match node with
    | some n => modC s1 core fun c => { c with nodes := fmod Node.zero c.nodes n fun x => { x with st := .armed, cmd := some id } }
    | none => s1
  issueOp s2 (mkOp .nop s2 (.engine id) 0 .none [])

/-- The node that a command attaches to. -/
def attachX (s : State) (gbit : BitVec 1) (h : DWord) : X (Option Nat) :=
  if gbit = 0 then .ok none else (nodeX s (curG s) h).map some

/-- R324: the last part of the issue of a command: its node, its counter, and its queueing. -/
def issueCmd (s : State) (cls : BitVec 2) (kind : CmdKind) (gbit : BitVec 1) (h : DWord) : X State := do
  let n ← attachX s gbit h
  counterX (curG s) cls
  .ok (queueCmd s cls kind n)

/-- R7: a peer access: the device's enable, then the window. -/
def peerX (s : State) (g : Group) (a len : Nat) : X Unit :=
  match ffind (getX s g.ctx).peers (a / 2 ^ 48) with
  | some p => if !p.en then trapAt .capPeer a else if p.size < a % 2 ^ 48 + len then trapAt .spaceRange a else .ok ()
  | none => trapAt .capPeer a

/-- R22, R25: bounds and extent of a whole reach from a capability's address; an empty reach is none. R22 speaks of threads: XADDR of a
check of a whole command is the capability's ADDR, and for `smap` (smapReach) ADDR + FOFF (log 83). -/
def reachX (s : State) (c : Cap) (len : Nat) : X Unit := do
  let l : List (Nat × Int) := [(0, (c.addr.toNat : Int))]
  if len = 0 then .ok () else
  boundsX c len l
  if c.space = 4 then peerX s (curG s) c.addr.toNat len
  else extentX s (curG s) c len l

/-- R73: an engine's stash destination reaches no read-only word. -/
def dstRoX (s : State) (space : BitVec 4) (a len : Nat) : X Unit :=
  if space ≠ 1 then .ok () else
  match roWord s (curG s).core (curG s).ctx a len with
  | some w => trapAt .stashRo w
  | none => .ok ()

/-- Whether two ranges overlap. -/
def overlap (a n b m : Nat) : Bool := n ≠ 0 && m ≠ 0 && a < b + m && b < a + n

/-- Whether stash bytes lie in a core's stash extent (R7). -/
def stashExtent (s : State) (core a n : Nat) : Bool :=
  a + n ≤ 0x600000 && (List.range (ceilDiv (a % 65536 + n) 65536)).all fun i => roleAt (getC s core) (a / 65536 + i) == 2

/-- The scalars, the handle and the capabilities of a command in the EC layout (R327). -/
def ecOperands (g : Group) (gbit : BitVec 1) (cdst csrc : BitVec 4) (sk sd : BitVec 6) (n : Nat) :
    X (List Nat × DWord × Cap × Cap) := do
  let d ← srcC g cdst
  let x ← srcC g csrc
  let ws ← (List.range n).mapM fun k => srcS g (sk + BitVec.ofNat 6 k) false
  let h ← if gbit = 1 then srcS g sd false else .ok 0
  .ok (ws.map fun w => w.toNat, h, d, x)

/-- R328: `cpy`. -/
def execCpy (gb : BitVec 1) (cdst csrc : BitVec 4) (sk sd : BitVec 6) (s : State) : Out :=
  commitNext (.cpy gb cdst csrc sk sd) s do
    checkField (.cpy gb cdst csrc sk sd)
    roleX (curG s) [2, 3]
    let (ws, h, d, x) ← ecOperands (curG s) gb cdst csrc sk sd 1
    let w := ws.headD 0
    let len := fld w 0 32
    needX (fld w 32 32 == 0) .engForm
    capUse x permR [0, 1, 3]
    reachX s x len
    capUse d (permR ||| permW) [0, 1, 3]
    reachX s d len
    dstRoX s d.space d.addr.toNat len
    needX (!(d.space == x.space && overlap d.addr.toNat len x.addr.toNat len)) .engForm
    issueCmd s 0 (.copy d x len) gb h

/-- R329: `cpy.gth`. -/
def execCpyGth (gb : BitVec 1) (cdst csrc : BitVec 4) (sk sd : BitVec 6) (s : State) : Out :=
  commitNext (.cpyGth gb cdst csrc sk sd) s do
    checkField (.cpyGth gb cdst csrc sk sd)
    roleX (curG s) [2, 3]
    let (ws, h, d, x) ← ecOperands (curG s) gb cdst csrc sk sd 3
    let w0 := ws.getD 0 0; let w1 := ws.getD 1 0; let w2 := ws.getD 2 0
    let st := fld w0 0 25; let rl := fld w0 32 13; let n := fld w1 0 23; let ia := fld w2 0 23
    needX (fld w0 25 7 + fld w0 45 19 + fld w1 23 41 + fld w2 23 41 == 0 && 1 ≤ st && st ≤ 0x1000000 && 1 ≤ rl && rl ≤ 4096 &&
      1 ≤ n && ia % 4 == 0) .engForm
    capUse x permR [0, 3]
    capUse d (permR ||| permW) [1]
    reachX s d (n * rl)
    dstRoX s d.space d.addr.toNat (n * rl)
    needX (stashExtent s (curG s).core ia (4 * n) && !overlap ia (4 * n) d.addr.toNat (n * rl)) .engForm
    issueCmd s 1 (.gather d x st rl n ia) gb h

/-- R330: `cpy.rmt`. -/
def execCpyRmt (gb : BitVec 1) (cdst csrc : BitVec 4) (sk sd : BitVec 6) (s : State) : Out :=
  commitNext (.cpyRmt gb cdst csrc sk sd) s do
    checkField (.cpyRmt gb cdst csrc sk sd)
    roleX (curG s) [2, 3]
    let (ws, h, d, x) ← ecOperands (curG s) gb cdst csrc sk sd 2
    let w0 := ws.getD 0 0; let w1 := ws.getD 1 0
    let len := fld w0 0 32; let fa := fld w1 0 56; let fen := fld w1 63 1 == 1
    needX (fld w0 32 32 + fld w1 56 7 == 0 && fa % 4 == 0 &&
      (!fen || d.space != 4 || fa / 2 ^ 48 == d.addr.toNat / 2 ^ 48)) .engForm
    capUse x permR [0, 1]
    reachX s x len
    capUse d (if fen then permR ||| permW ||| permA else permR ||| permW) [0, 4]
    reachX s d len
    if fen then do
      boundsX d 4 [(0, (fa : Int))]
      if d.space = 4 then peerX s (curG s) fa 4 else .ok ()
    needX (!(d.space == x.space && overlap d.addr.toNat len x.addr.toNat len)) .engForm
    issueCmd s 3 (.remote d x len (if fen then some fa else none)) gb h

/-- R331: the transpositions, with elements of `e` bytes. -/
def transpose (i : Instr) (e : Nat) (gb : BitVec 1) (cdst csrc : BitVec 4) (sk sd : BitVec 6) (s : State) : Out :=
  commitNext i s do
    checkField i
    roleX (curG s) [2, 3]
    let (ws, h, d, x) ← ecOperands (curG s) gb cdst csrc sk sd 2
    let w0 := ws.getD 0 0; let w1 := ws.getD 1 0
    let r := fld w0 0 16; let c := fld w0 16 16; let p := fld w1 0 24
    needX (fld w0 32 32 + fld w1 24 40 == 0 && 1 ≤ r && r ≤ 1024 && 1 ≤ c && c ≤ 1024 && c * e ≤ p &&
      x.addr.toNat % e == 0 && d.addr.toNat % e == 0 && p % e == 0) .engForm
    capUse x permR [0, 1]
    reachX s x ((r - 1) * p + c * e)
    capUse d (permR ||| permW) [1]
    reachX s d (r * c * e)
    dstRoX s d.space d.addr.toNat (r * c * e)
    issueCmd s 0 (.transpose d x e r c p) gb h

def execCpyTr8 (gb : BitVec 1) (cdst csrc : BitVec 4) (sk sd : BitVec 6) (s : State) : Out :=
  transpose (.cpyTr8 gb cdst csrc sk sd) 1 gb cdst csrc sk sd s
def execCpyTr16 (gb : BitVec 1) (cdst csrc : BitVec 4) (sk sd : BitVec 6) (s : State) : Out :=
  transpose (.cpyTr16 gb cdst csrc sk sd) 2 gb cdst csrc sk sd s

/-! Counters, graph nodes and tensor entries (R326, R333, R334, R336). -/

/-- R326: `ewait`, which suspends behind itself. -/
def execEwait (k : BitVec 6) (cls : BitVec 2) (s : State) : Out :=
  commit (.ewait k cls) s do
    checkField (.ewait k cls)
    let s1 := advance (.ewait k cls) s
    .ok (if ecOf (curG s) cls ≤ k.toNat then s1 else suspendCur s1 (.counter cls k))

/-- R333: `gnode`. -/
def execGnode (sd : BitVec 6) (s : State) : Out :=
  commitNext (.gnode sd) s do
    checkField (.gnode sd)
    let g := curG s
    roleX g [2, 3]
    let nd (n : Nat) : Node := fget Node.zero (getC s g.core).nodes n
    match (List.range 256).find? fun n => (nd n).st == .free with
    | none => trapX .graphFull
    | some n =>
      dstS g sd
      let opened : Node := { Node.zero with st := .openN, ctx := g.ctx, task := g.task, gen := (nd n).gen }
      let s1 := modC s g.core fun c => { c with nodes := fput c.nodes n opened }
      .ok (modCur s1 fun g => sPut g sd (BitVec.ofNat 64 (n + (nd n).gen.toNat * 256)))

/-- R334: `glink`. -/
def execGlink (succ pred : BitVec 6) (s : State) : Out :=
  commitNext (.glink succ pred) s do
    checkField (.glink succ pred)
    let g := curG s
    roleX g [2, 3]
    let hs ← srcS g succ false
    let hp ← srcS g pred false
    let a ← nodeX s g hs
    let b := hp.toNat % 256
    let nb := fget Node.zero (getC s g.core).nodes b
    let na := fget Node.zero (getC s g.core).nodes a
    if a = b then trapX .engGraph
    else if nb.gen.toNat ≠ hp.toNat / 256 % 256 || nb.st = .free || nb.st = .done then .ok s
    else if nb.ctx ≠ g.ctx || nb.succs.length = 8 || na.count = 255 then trapX .engGraph
    else .ok (modC s g.core fun c => { c with
      nodes := fput (fput c.nodes b { nb with succs := nb.succs ++ [(a, na.gen)] }) a { na with count := na.count + 1 } })

/-- R220: the entry that an instruction names, of the group's context. -/
def tidX (s : State) (core : Nat) (ctx : BitVec 12) (n : Nat) : X Tid :=
  match ffind (getC s core).tids n with
  | some t => if t.ctx = ctx then .ok t else trapX .tidInvalid
  | none => trapX .tidInvalid

/-- R336: `tdesc`. -/
def execTdesc (tid : BitVec 7) (ss : BitVec 6) (s : State) : Out :=
  commitNext (.tdesc tid ss) s do
    checkField (.tdesc tid ss)
    let g := curG s
    let ws ← (List.range 4).mapM fun k => srcS g (ss + BitVec.ofNat 6 k) false
    let x := (ws.zipIdx.map fun p => p.1.toNat * 2 ^ (64 * p.2)).sum
    if fld x 0 1 = 0 then .ok (putTid s g.core tid.toNat none) else
    match (parseTid x g.ctx).2 with
    | some t => .ok (putTid s g.core tid.toNat (some t))
    | none => trapX .tidForm

/-- R336: `tdget`. -/
def execTdget (tid : BitVec 7) (sd : BitVec 6) (s : State) : Out :=
  commitNext (.tdget tid sd) s do
    checkField (.tdget tid sd)
    let g := curG s
    (List.range 4).forM fun k => dstS g (sd + BitVec.ofNat 6 k)
    let x := match ffind (getC s g.core).tids tid.toNat with
      | some t => if t.ctx = g.ctx then tidImage tid.toNat t else 0
      | none => 0
    .ok (modCur s fun g => (List.range 4).foldl (fun g k => sPut g (sd + BitVec.ofNat 6 k) (BitVec.ofNat 64 (x / 2 ^ (64 * k)))) g)

/-! Plane conversion and folding (R337, R338). -/

/-- R221: a tensor's region lies in the stash extent of a core. -/
def regionX (s : State) (core : Nat) (r : Nat × Nat) : X Unit :=
  if stashExtent s core r.1 r.2 then .ok () else trapAt .spaceRange r.1

/-- R337: `cpy.pln` and `cpy.pln.unp`. -/
def planeCmd (i : Instr) (unp : Bool) (ta : BitVec 7) (tc : BitVec 4) (s : State) : Out :=
  commitNext i s do
    checkField i
    let g := curG s
    roleX g [2, 3]
    let c ← srcC g tc
    let t ← tidX s g.core g.ctx ta.toNat
    capUse c (if unp then permR ||| permW else permR) [0, 1, 3]
    reachX s c (formLen t)
    regionX s g.core (planeRegion t)
    if unp then dstRoX s c.space c.addr.toNat (formLen t) else dstRoX s 1 (planeRegion t).1 (planeRegion t).2
    issueCmd s 0 (.plane c t unp) 0 0

def execCpyPln (ta : BitVec 7) (tc : BitVec 4) (s : State) : Out := planeCmd (.cpyPln ta tc) false ta tc s
def execCpyPlnUnp (ta : BitVec 7) (tc : BitVec 4) (s : State) : Out := planeCmd (.cpyPlnUnp ta tc) true ta tc s

/-- R338: `cpy.fold`. -/
def execCpyFold (tb ta : BitVec 7) (tc : BitVec 4) (s : State) : Out :=
  commitNext (.cpyFold tb ta tc) s do
    checkField (.cpyFold tb ta tc)
    let g := curG s
    roleX g [2, 3]
    let c ← srcC g tc
    let a ← tidX s g.core g.ctx ta.toNat
    let b ← tidX s g.core g.ctx tb.toNat
    needX ((a.fmt.toNat ≤ 1 || a.fmt == 6) && a.scv && !a.sparse && b.smv) .tidFmt
    needX (a.km1 == b.km1) .tidGeom
    capUse c permR [0, 1, 3]
    reachX s c (4 * (tidRows a * tidK a))
    regionX s g.core (planeRegion a)
    regionX s g.core (scaleAddr a 0, 4 * tidRows a)
    regionX s g.core (smoothAddr b 0, 4 * tidK b)
    dstRoX s 1 (planeRegion a).1 (planeRegion a).2
    dstRoX s 1 (scaleAddr a 0) (4 * tidRows a)
    issueCmd s 0 (.fold c a b) 0 0

/-! Matrix operations (R343 to R348). -/

/-- The tag that a tile will have when every operation of the queue that has not started has run (log 27). -/
def pendTag (s : State) (core tile : Nat) : TileTag :=
  (getC s (pairCore core)).mqueue.foldl (fun t id => match getCmd s id with
    | some c => if c.st = .armed && (mmTiles c.kind).contains tile then
        (match c.kind with | .mm _ _ _ a _ _ => some (accKind a) | _ => none) else t
    | none => t) (fget none (getC s core).ttags tile)

/-- R346: room for operand ranges in a core's table of 8. -/
def rangeRoom (s : State) (core n : Nat) : Bool := (getC s core).ranges.length + n ≤ 8

/-- R346: the ranges of an operation take the lowest free entries of a core's table. -/
def listRanges (s : State) (core id : Nat) (l : List (Nat × Nat)) : State :=
  modC s core fun c => l.foldl (fun c r =>
    let slot := ((List.range 8).find? fun n => !c.ranges.any fun x => x.slot == n).getD 0
    { c with ranges := c.ranges ++ [{ cmd := id, slot, base := r.1, len := r.2 }] }) c

/-- R103: whether a tile access of the group, held by an ordering rule, is to come before an operation on its tile. -/
def tileHeld (g : Group) (kind : CmdKind) : Bool :=
  g.ops.any fun o => o.held && o.pieces.any fun p => p.space == 2 && (mmTiles kind).contains (p.place / 0x6000)

/-- R123, R343, R346: an operation is accepted by the pair's queue, which the issue waits for, with the snapshot of its operands. It waits
for the group's earlier accesses to its tiles that are held (R103). -/
def acceptMatrix (s : State) (kind : CmdKind) : X State := do
  let g := curG s
  counterX g 2
  let pc := pairCore g.core
  if tileHeld g kind || 8 ≤ (getC s pc).mqueue.length || !rangeRoom s g.core (mmLeader kind).length ||
      !rangeRoom s (partner g.core) (mmPartner kind).length then .error (.hold 10) else
  let (id, s1) := newCmd s 2 kind none .armed
  let s2 := modC s1 pc fun c => { c with mqueue := c.mqueue ++ [id], towner := c.towner ++ (mmTiles kind).map fun t => (t, id) }
  let s3 := listRanges (listRanges s2 g.core id (mmLeader kind)) (partner g.core) id (mmPartner kind)
  .ok (capture s3 id)

/-- R344: the tile slots of an operation. -/
def tilesX (s : State) (g : Group) (tc : Nat) (f64 : Bool) : X Unit := do
  let held (t : Nat) : Bool := (taskOf s g).tiles.contains t
  if !held tc then trapX .spaceRange else
  if !f64 then .ok () else
  needX (tc % 2 == 0) .accForm
  if held (tc + 1) then .ok () else trapX .spaceRange

/-- R344: `mma` and `mmsp`. The checks come in the order of its table; that an accumulator is f64 is known once the entries
are. -/
def matrixOp (i : Instr) (sparse : Bool) (z : BitVec 1) (tb ta : BitVec 7) (tc : BitVec 4) (s : State) : Out :=
  commitNext i s do
    checkField i
    let g := curG s
    roleX g [1, 3]
    let other := partner g.core
    let isF64 := match ffind (getC s g.core).tids ta.toNat with | some t => t.ctx == g.ctx && t.fmt == 5 | none => false
    tilesX s g tc.toNat isF64
    let a ← tidX s g.core g.ctx ta.toNat
    let b ← tidX s g.core g.ctx tb.toNat
    let p ← tidX s other g.ctx ta.toNat
    needX (fmtPair a b && a.sparse == sparse && !b.sparse) .tidFmt
    needX (a.fmt == p.fmt && a.rpl == p.rpl && a.sparse == p.sparse && a.km1 == p.km1 && a.rowsm1 ≤ 63 && p.rowsm1 ≤ 63 &&
      b.rowsm1 ≤ 95 && a.km1 == b.km1) .tidGeom
    let kind : CmdKind := .mm tc.toNat (z == 1) sparse a b p
    let fits (core t : Nat) : Bool := match pendTag s core t with | none => true | some k => k == accKind a
    needX (z == 1 || (mmTiles kind).all fun t => fits g.core t && fits other t) .accForm
    let scale (t : Tid) : List (Nat × Nat) := if t.scv then [(scaleAddr t 0, 4 * tidRows t)] else []
    (mmLeader kind ++ scale a ++ scale b).forM (regionX s g.core)
    (mmReads kind 1 ++ scale p).forM (regionX s other)
    acceptMatrix s kind

def execMma (z : BitVec 1) (tb ta : BitVec 7) (tc : BitVec 4) (s : State) : Out :=
  matrixOp (.mma z tb ta tc) false z tb ta tc s
def execMmsp (z : BitVec 1) (tb ta : BitVec 7) (tc : BitVec 4) (s : State) : Out :=
  matrixOp (.mmsp z tb ta tc) true z tb ta tc s

/-- R348: `mzero`. -/
def execMzero (tc : BitVec 4) (s : State) : Out :=
  commitNext (.mzero tc) s do
    checkField (.mzero tc)
    roleX (curG s) [1, 3]
    tilesX s (curG s) tc.toNat false
    acceptMatrix s (.mzero tc.toNat)

/-! Stage rings (R339 to R342). -/

/-- The phase bit of a slot (R340). -/
def phaseOf (x : RingSlot) : Bool := match x with | .f | .r _ => true | _ => false

/-- R339, R340: a ring bound to its descriptor, none when the descriptor is malformed. -/
def bindRing (t : Task) (x : Nat) : Option Ring :=
  let lo := 65536 * t.gbase
  let hi := 65536 * (t.gbase + t.ngran)
  let base := fld x 0 23; let n := fld x 32 7; let sl := fld x 40 8
  let len := n * sl * 128
  let ok := fld x 23 9 + fld x 39 1 + fld x 52 12 = 0 && base % 128 = 0 && 1 ≤ n && n ≤ 64 && 1 ≤ sl &&
    lo ≤ base && base + len ≤ hi && lo + 128 ≤ base
  if ok then some { base, count := n, slines := sl, prod := BitVec.ofNat 2 (fld x 48 2), cons := BitVec.ofNat 2 (fld x 50 2),
                    slots := List.replicate n .e, p := 0, c := 0 } else none

/-- R340: the ring as it is bound, with its state; a descriptor word that is not valid starts its fill, and the fragment
suspends in that state. -/
def ringX (s : State) (k : BitVec 4) : X (State × Ring × Bool) :=
  let g := curG s
  let t := taskOf s g
  match ffind t.rings k.toNat with
  | some r => .ok (s, r, true)
  | none =>
    let a := 65536 * t.gbase + 8 * k.toNat
    let p : Piece := { thread := 0, space := 1, place := a, size := 8, val := 0, exp := 0, shown := a, gen := 0, mode := 0, mbf := 0,
                       bound := (swordAt s g.core (a / 4)).bound ++ (swordAt s g.core (a / 4 + 1)).bound }
    let o := { mkOp .nop s (.load 5) 0 .none [p] with id := s.nextId, seq := s.nextId }
    if t.ngran = 0 then trapX .ringForm
    else if !pieceReady s g o p then
      match placeStash s g .fill 0 8 a 0 0 with
      | .error (c, x) => trapAt c x
      | .ok _ => .ok (fillFor s g [p], { base := 0, count := 0, slines := 0, prod := 0, cons := 0, slots := [], p := 0, c := 0 }, false)
    else match bindRing t (samplePiece s g o p).toNat with
      | none => trapX .ringForm
      | some r => .ok (modT s g.task fun t => { t with rings := fput t.rings k.toNat r }, r, true)

/-- The slot of a ring that a group holds for writing (or for reading) and has not yet given up. -/
def heldSlot (g : Group) (k : BitVec 4) (r : Ring) (get : Bool) : Option Nat :=
  let mine (x : RingSlot) : Bool := match x with | .w t => !get && t == g.taskg | .r t => get && t == g.taskg | _ => false
  (List.range r.count).find? fun n => mine (r.slots.getD n .e) &&
    !g.ops.any fun o => o.kind == .ringPublish k.toNat n get

/-- R341: the group's slot is given up, at once or when the release is satisfied. -/
def giveSlot (i : Instr) (s : State) (k : BitVec 4) (n : Nat) (get : Bool) : X State :=
  if publishesNow s (curG s) then .ok (slotEffect s (curG s).task k.toNat n get) else do
  fifoRoom s 1
  .ok (issueOp s { mkOp i s (.ringPublish k.toNat n get) 0 .none [] with rel := some 1 })

/-- R341: the reservation: the slot at a cursor, or the suspension on its phase. -/
def reserve (i : Instr) (s : State) (k : BitVec 4) (sd : BitVec 6) (get : Bool) : State :=
  let g := curG s
  match ffind (taskOf s g).rings k.toNat with
  | none => s
  | some r =>
    let n := if get then r.c else r.p
    let x := r.slots.getD n .e
    if (if get then x == .f else x == .e) then
      let nxt := (n + 1) % r.count
      let slots := r.slots.set n (if get then .r g.taskg else .w g.taskg)
      let r1 := if get then { r with slots, c := nxt } else { r with slots, p := nxt }
      let s1 := modT s g.task fun t => { t with rings := fput t.rings k.toNat r1 }
      advance i (modCur s1 fun g => sPut g sd (BitVec.ofNat 64 (r.base + 128 * r.slines * n)))
    else suspendCur s (.ring k n (!phaseOf x))

/-- R340, R341: `ring.put` and `ring.get`. -/
def ringOp (i : Instr) (get : Bool) (k : BitVec 4) (sd : BitVec 6) (s : State) : Out :=
  commit i s do
    checkField i
    dstS (curG s) sd
    let (s1, r, bound) ← ringX s k
    if !bound then .ok (suspendCur s1 (.ring k 0xFF false)) else
    let s2 ← match heldSlot (curG s1) k r get with
      | some n => giveSlot i s1 k n get
      | none => .ok s1
    .ok (if sd = 0 then advance i s2 else reserve i s2 k sd get)

def execRingPut (k : BitVec 4) (sd : BitVec 6) (s : State) : Out := ringOp (.ringPut k sd) false k sd s
def execRingGet (k : BitVec 4) (sd : BitVec 6) (s : State) : Out := ringOp (.ringGet k sd) true k sd s

/-- R341: the event in which a held publish or release takes effect. -/
def execRingPublishEffect (uid op : Nat) (s : State) : Out :=
  let g := getG s uid
  match opOf g op with
  | some o =>
    match o.kind with
    | .ringPublish k n toE =>
      if opBlocked s g o || !markerClear s g o then .next s else
      let s1 := dropMarker (setG s uid (dropOp g op)) g.core uid op
      .next (if g.task = 0 then s1 else slotEffect s1 g.task k n toE)
    | _ => .next s
  | none => .next s

/-! Vector instructions of the matrix path (R349, R350). -/

/-- R350: `vpln`. Every active thread takes one word: U when all 32 are active, as `vred` is (log 28). -/
def execVpln (m : BitVec 2) (b1 : BitVec 1) (plane vs1 vd : BitVec 6) (s : State) : Out :=
  commitNext (.vpln m b1 plane vs1 vd) s do
    checkField (.vpln m b1 plane vs1 vd)
    let g := curG s
    let high := 32 ≤ plane.toNat
    regsX g [(vs1.toNat, high), (vd.toNat, false)]
    let x ← readSrc g { reg := vs1.toNat + (if high then 1 else 0), pair := false, bang := b1 == 1 }
    dstV g vd.toNat false
    let a := activeMask g (curF s) m.toNat
    let w := maskOf ((threadsOf a).filter fun t => (vAt x.1 t).getLsbD (plane.toNat % 32))
    writeV s a [(vd.toNat, .u w)]

/-- The words that a thread's `vqnt` reads: its scale under the thread's number, its smoothing value 32 above. -/
def quantPlaces (t : Tid) (th : Nat) (idx : Word) : List (Nat × Nat) :=
  (if t.scv then [(th, scaleAddr t (idx.toNat / 2 ^ 16 % 2 ^ 15))] else []) ++
    (if t.smv then [(32 + th, smoothAddr t (idx.toNat % 2 ^ 16))] else [])

/-- R349: whether a thread's index word fits the entry. -/
def quantOk (t : Tid) (idx : Word) : Bool :=
  (t.fmt == 4 || !idx.getLsbD 31) && idx.toNat / 2 ^ 16 % 2 ^ 15 ≤ t.rowsm1 && idx.toNat % 2 ^ 16 ≤ t.km1

/-- R349: `vqnt`. Its scale and smoothing words are stash reads: a word to be filled leaves vd empty, and one whose fill faults
leaves its threads unfinished (R51). -/
def execVqnt (m : BitVec 2) (b1 : BitVec 1) (tid : BitVec 7) (vs1 vd : BitVec 6) (s : State) : Out :=
  let i : Instr := .vqnt m b1 tid vs1 vd
  commit i s do
    checkField i
    let g := curG s
    regsX g [(vs1.toNat, true), (vd.toNat, false)]
    let x ← readSrc g (src64 vs1 b1)
    let t ← tidX s g.core g.ctx tid.toNat
    needX (t.fmt.toNat ≤ 1 || t.fmt == 4 || t.fmt == 6) .tidFmt
    let a := activeMask g (curF s) m.toNat
    let ths := threadsOf a
    needX (ths.all fun th => quantOk t (vAt x.2 th)) .qntForm
    let reads := ths.flatMap fun th => quantPlaces t th (vAt x.2 th)
    match reads.find? fun r => !stashExtent s g.core r.2 4 with
    | some r => trapAt .spaceRange r.2
    | none =>
      destFree s (.vec vd)
      let uni := srcU x && a == 0xFFFFFFFF
      let xs := ths.map fun th => (th, vAt x.1 th, vAt x.2 th)
      let placed := reads.map fun r => (r.1, r.2, placeStash s g .load r.1 4 r.2 0 0)
      let us : Unf := ths.filterMap fun th =>
        placed.findSome? fun p => if p.1 % 32 == th then (match p.2.2 with
          | .error e => some (th, e.1, e.2, 1, p.2.1, 4)
          | .ok _ => none) else none
      let good := placed.filterMap fun p => if us.any (fun u => u.1 == p.1 % 32) then none else p.2.2.toOption
      if reads.isEmpty then
        let (got, fl) := quantAll t xs []
        let v (th : Nat) : DWord := (lookupT got th).getD 0
        let s1 ← writeV s a (resultV vd.toNat false uni v)
        .ok (advance i (raiseFlags s1 fl))
      else
        let s1 ← issueTo s (mkOp i s (.quant t (xs.filter fun y => !us.any fun u => u.1 == y.1)) a (.vec vd) good |>
          fun o => { o with uniform := uni }) uni us
        .ok (endMem i s s1 us none .load)

end Sys2Proof.Machine
end

