-- ==== Sys2Proof/Machine/Home.lean ====
section
/-!
DEFINITION. Requests at their homes and the answers of the homes (R45, R46, R84 to R97, R113, R135 to R140, R144, R366 to R369,
R418, R422).
-/
namespace Sys2Proof.Machine

/-- What an event does: where its condition holds, it leaves the second state; where it does not, the device has no such event
there, and nothing changes (log 68). -/
def enabled (s : State) (ok : Bool) (s1 : State) : Out := .next (if ok then s1 else s)

/-! The gate of a home (R46, R86, R90, R144). -/

inductive Gate where
  | refuse | held | wait | go
  deriving DecidableEq, Repr

/-- Whether a request carries the generation of a translation (R46). -/
def carriesGen (q : Req) : Bool := match q.agent with | .group _ _ | .engine _ | .prefetch _ => true | _ => false

/-- Whether an earlier request that the home works on, or keeps waiting, names the same words. -/
def inTheWay (s : State) (q : Req) : Bool := busyOn s q.id q.line (reqMask q)

/-- The group for which a request writes words that a unit is to own, if any: it may be the holder of a lock (R77, R144). -/
def writerOf (s : State) (q : Req) : Option Nat :=
  match q.agent, q.kind with
  | .group u _, _ => some u
  | .engine id, .own => (getCmd s id).map fun c => c.uid
  | _, _ => none

/-- Whether a line is locked by a group other than the request's (R144). -/
def lockedFrom (s : State) (q : Req) : Bool := lockedBy s q.line (writerOf s q)

/-- R82, R84, R90: whether a request needs the line's directory entry. -/
def needsEntry (s : State) (q : Req) : Bool :=
  q.mode == 1 || match q.kind, q.agent with
    | .own, _ => true
    | .capRead, _ | .capWrite _, _ => q.unit != 3
    | .read, .group _ _ | .read, .prefetch false => pairKeeps s (reqPair q) q.line q.mbf
    | .read, .host _ => !leaseLine s q.line
    | .write, .host _ | .write, .col _ | .atomic _ _, .col _ => leaseLine s q.line
    | _, _ => false

def gateOf (s : State) (q : Req) (write : Bool) : Gate :=
  if carriesGen q && q.gen != genOf s (q.line * 128) then .refuse
  else if write && q.mode == 0 && lockedFrom s q then .held
  else if inTheWay s q then .wait
  else if needsEntry s q && (dirRoom s q.line).isNone then .wait
  else .go

/-- R144: the holder of a line's lock, whose unit has evicted the line, regains all 32 words with its next access. -/
def regain (s : State) (q : Req) : State :=
  let whole := (List.range 32).all fun i => (ownerOf (dirAt s q.line) i).any fun o => o.pair.toNat == reqPair q && o.unit == 0
  if !isGroupReq q || q.mode != 0 || q.unit != 0 || (lockAt s q.line).holder != some (reqUid q) || whole then s
  else joinOwner (clearCopies s q.line 0xFFFFFFFF (reqPair q) 0 (2, q.core)) q.line (reqPair q) 0 0xFFFFFFFF (2, q.core)

/-- A request waits at its home. -/
def waitReq (s : State) (rq : Nat) : State :=
  modH s fun h => { h with waiting := if h.waiting.contains rq then h.waiting else h.waiting ++ [rq] }

/-- The requests that waited on a directory set arrive again, in their order, before anything else. -/
def wakeReqs (s : State) (line : Nat) : State :=
  let near (x : Nat) : Bool := let l := (getR s x).line; homeSlice l == homeSlice line && l % 4096 == line % 4096
  let ws := s.homes.waiting.filter near
  let s1 := modH s fun h => { h with waiting := h.waiting.filter fun x => !near x }
  { s1 with agenda := ws.map (fun x => arrivalEvent (getR s x)) ++ s1.agenda }

/-- R422: a request of a writer without a core takes ECLK as it first reaches its home. -/
def stampReq (s : State) (rq : Nat) : State :=
  let q := getR s rq
  if carriesGen q || q.stamped then s else setR s rq { q with pts := eclk s, stamped := true }

/-- R144: at a locked line the holder's requests and those of others that were merged on their way part again: the ones come after the
others. -/
def splitLocked (s : State) (rq : Nat) : State :=
  let q := getR s rq
  match (lockAt s q.line).holder with
  | none => s
  | some h =>
    let out := if !isGroupReq q then [] else q.merged.filter fun r => (reqUid (getR s r) == h) != (reqUid q == h)
    if out.isEmpty then s else
    pushAll (setR s rq { q with merged := q.merged.filter fun r => !out.contains r }) (out.map fun r => arrivalEvent (getR s r))

/-- A home takes a request: it is refused, held behind a lock, kept waiting, or goes on with room in the directory. -/
def atGate (s : State) (rq : Nat) (write : Bool) (go : State → Req → State) : State :=
  let s := splitLocked (stampReq s rq) rq
  let q := getR s rq
  match gateOf s q write with
  | .refuse => push s (.requestRefused rq)
  | .held => setLock s q.line { lockAt s q.line with writes := (lockAt s q.line).writes ++ [rq] }
  | .wait => waitReq s rq
  | .go =>
    let s0 := modH s fun h => { h with waiting := h.waiting.filter fun x => x != rq }
    let s1 := if needsEntry s0 q then (dirRoom s0 q.line).getD s0 else s0
    go (regain (modDir s1 q.line fun e => if e = DirEntry.empty then e else { e with used := s.gtick.toNat }) q) q

/-! Acknowledgements (R91, R119, R367, R371). -/

/-- R366, R367: a host port: the request at its head is at a home, or is a completion that the port passes on; a finished one leaves, and the
next follows. -/
def hostNext (s : State) (die : Nat) : State :=
  match (getDie s die).hostq with
  | rq :: _ =>
    let q := getR s rq
    push s (if q.mode = 2 then .hostCompletion rq q.stale else arrivalEvent q)
  | [] => s
def hostDone (s : State) (die rq : Nat) : State :=
  hostNext (delR (modDie s die fun d => { d with hostq := d.hostq.filter fun x => x != rq }) rq) die

/-- R122, R371: the requests that arrive over a Col link follow one another. -/
def colDone (s : State) (q : Req) : State :=
  let s1 := delR s q.id
  match q.merged with
  | r :: rest => push (setR s1 r { getR s1 r with merged := rest }) (arrivalEvent (getR s1 r))
  | [] => s1

/-- R91: the FIFO entries of a request's lines are acknowledged where no other request of the operation names them, but for those that a host
port has sent (R368). -/
def ackKeys (s : State) (q : Req) : State :=
  let others (l : Nat) : Bool := s.reqs.any fun r => r.1 != q.id && r.2.agent == q.agent && !(r.2.mode == 2 && r.2.done) &&
    r.2.pieces.any fun p => (fifoKeys p).contains l
  ((q.pieces.flatMap fifoKeys).dedup.filter fun l => !others l).foldl (fun s l => ackFifo s q.core (reqUid q) (reqOp q) l) s

/-- The acknowledgement of a request at its issuer: the pieces of a write are performed, its FIFO entries acknowledged, and its answer
taken. -/
def ackReq (s : State) (q : Req) (res : List (Nat × DWord)) : State :=
  match q.agent with
  | .group u op => answer (match q.kind with
      | .write | .capWrite _ | .own => donePieces s q.core u op q.pieces
      | _ => ackKeys s q) q.id res
  | .host die => hostDone s die q.id
  | .col _ => colDone s q
  | .engine id => engineAcked s q id
  | _ => delR s q.id

/-! Memory errors (R364, R365). -/

/-- R364: an access returned an uncorrectable error: its group never issues again, and its destination stays empty. An engine command
ends in error (R332). -/
def memErrorOne (s : State) (q : Req) : State :=
  match q.agent with
  | .group u _ =>
    let g := getG s u
    let a := (q.pieces.map fun p => p.shown).headD 0
    let s1 := if g.poisoned then s else
      addFault (setG s u { g with poisoned := true }) { faultRecG s g .memErr true with addr := a }
    delR (ackKeys s1 q) q.id
  | .engine id => engineFail s q id (.err ((q.pieces.map fun p => p.shown).headD 0))
  | .host die => hostDone s die q.id
  | .col _ => colDone s q
  | _ => delR s q.id

/-- R138, R364: the same for every constituent of a merged request. -/
def memError (s : State) (q : Req) : State :=
  if isGroupReq q then q.merged.foldl (fun s r => memErrorOne s (getR s r)) (memErrorOne s q) else memErrorOne s q

/-! Reads (R86 to R88, R93). -/

/-- The results that a read's pieces take at this moment: the group's own stores not yet performed come first (R89). -/
def reqResults (s : State) (q : Req) : List (Nat × DWord) :=
  match q.agent with
  | .group u op =>
    let g := getG s u
    match opOf g op with
    | some o =>
      (match q.kind with
      | .capRead =>
        let p := q.pieces.headD { thread := 0, space := 0, place := 0, size := 0, val := 0, exp := 0, shown := 0, gen := 0, mode := 0,
                                  mbf := 0, bound := [] }
        let pc := match o.kind with | .capLoad b => b | _ => false
        capGot (visLe s p.place 16) (visTag s p.place) pc
      | _ => q.pieces.map fun p => (p.thread, samplePiece s g o p))
    | none => []
  | _ => []

/-- Whether a read of words of a line meets an uncorrectable error: some word has its newest value in the memory. -/
def readErr (s : State) (line : Nat) (m : Word) : Bool :=
  fget false s.homes.errs line && (threadsOf m).any fun i => (ownerOf (dirAt s line) i).isNone

/-- R86, R88: what a read leaves at the home: the reader's sharer bit, and, for a reader in another sector of the home's die, a sector copy of
the words that no unit owns, with the bits of its sector's pairs. The spec lets such a read leave a sector copy: the model has it leave
one whenever the slice takes it (log 85). -/
def shareRead (s : State) (q : Req) (m : Word) : State :=
  let pair := reqPair q
  let line := q.line
  let s1 := modDir s line fun e => { e with shr := withBit e.shr pair true, used := s.gtick.toNat }
  if pair / 12 ≠ lineDie line || sectorOf pair = homeSector line then s1 else
  let k := copySlice pair line
  let s2 := sliceTouch s1 k line 2 q.mbf
  if !sliceHas s2 k line 2 then s2 else
  let s3 := modDir s2 line fun e => { e with shr := (List.range 48).foldl (fun b p =>
    if sectorOf p == sectorOf pair then withBit b p true else b) e.shr }
  let free := (threadsOf m).filter fun i => (ownerOf (dirAt s line) i).isNone
  modH s3 fun h => { h with sects := free.foldl (fun f i => fput f (unitKey k (32 * line + i)) (visWord s (32 * line + i))) h.sects }

/-- The read of a request made: its value is on its way, and the line moves in the home slice's order of use (R83). A read that leaves no
copy (R84) sets no sharer bit; a prefetch into the slice ends there (R305). -/
def readNow (s : State) (q : Req) : State :=
  let m := reqMask q
  let s0 := sliceTouch s (homeSlice q.line) q.line 0 q.mbf
  if q.agent = .prefetch true then delR s0 q.id else
  let keeps := q.kind == .read && pairKeeps s (reqPair q) q.line q.mbf
  let s1 := if keeps then shareRead s0 q m else s0
  let owned := (threadsOf m).any fun i => (ownerOf (dirAt s q.line) i).isSome
  let q1 := { q with done := true, result := reqResults s q, data := if keeps && !owned then lineWords s q.line m else [] }
  push (setR s1 q.id q1) (.replyArrival q.id (readErr s q.line m))

/-- R86, R367: the event of a read at its home. Words that another unit owns are forwarded to it. -/
def execHomeRead (rq : Nat) (s : State) : Out :=
  let q := getR s rq
  enabled s (q.id == rq && rq != 0 && !q.busy && !q.done && q.mode != 2) <|
    atGate s rq false fun s q =>
      match q.agent with
      | .host die =>
        let bs := q.pieces.flatMap fun p => (List.range p.size).map fun i => visByte s (p.place + i)
        let s1 := sliceTouch s (homeSlice q.line) q.line 0 0
        let s2 := if leaseLine s q.line then s1 else hostReads s1 q.line (reqMask q)
        hostDone (modDie s2 die fun d => { d with hostReads := d.hostReads ++ [bs] }) die rq
      | _ =>
        let e := dirAt s q.line
        if (ownersIn e (reqMask q) (reqPair q) 0).isEmpty then readNow s q
        else push (setR s rq { q with busy := true }) (.forwardedRead rq)

/-- R86: the event in which the owner of words supplies a forwarded read. -/
def execForwardedRead (rq : Nat) (s : State) : Out :=
  let q := getR s rq
  enabled s (q.id == rq && rq != 0 && q.busy && (q.kind == .read || q.kind == .capRead) && q.mode == 0) <|
    let s0 := (ownersIn (dirAt s q.line) (reqMask q) (reqPair q) 0).foldl (fun s o =>
      watchUnit s q.line o.1 o.2.1 o.2.2 (1, q.core)) s
    wakeReqs (readNow (setR s0 rq { q with busy := false }) { q with busy := false }) q.line

/-! Answers. -/

/-- R86: the clean words of a reply enter the pair cache. -/
def installWords (s : State) (q : Req) : State :=
  match pairTouch s (reqPair q) q.line q.mbf with
  | none => s
  | some s1 => modH s1 fun h => { h with pcache := q.data.foldl (fun m d =>
      let k := unitKey (reqPair q) (32 * q.line + d.1)
      if (ffind m k).isSome then m else fput m k { val := d.2, dirty := false }) h.pcache }

/-- The tags of a line, granule 0 in bit 0. -/
def lineTags (s : State) (line : Nat) : BitVec 8 :=
  (List.range 8).foldl (fun b i => withBit b i (tagAt s (128 * line + 16 * i))) 0

/-- R93, R96, R99: a lease copy enters the pair cache in the place of the one that it renews, and PTS reaches the timestamp that the home
gave. A copy of an older version than the pair's copy does not take its place. -/
def installLease (s : State) (q : Req) : State :=
  let s0 := renewalCheck s (reqPair q) q.line
  let s1 := raisePts s0 q.core q.pts
  if (ffind s1.homes.leases (2 ^ 45 * reqPair q + q.line)).any fun c => tsBefore q.pts c.w then s1 else
  match pairTouch s1 (reqPair q) q.line q.mbf with
  | none => s1
  | some s2 =>
    let c : LeaseCopy := { words := q.data, tags := q.capRes.addr.truncate 8, w := q.pts, wts := q.wts, rts := q.rts, cnt0 := 0, cnt1 := 0 }
    modH s2 fun h => { h with leases := fput h.leases (2 ^ 45 * reqPair q + q.line) c }

/-- R86, R93: the event in which a read's value arrives. Words that were invalidated on the way leave no copy, and their pair says so. -/
def execReplyArrival (rq : Nat) (err : Bool) (s : State) : Out :=
  let q := getR s rq
  enabled s (q.id == rq && rq != 0 && q.done && (q.kind == .read || q.kind == .capRead)) <|
    if err then memError s q else
    let s1 := if q.stale || q.data.isEmpty then s else if q.mode = 1 then installLease s q else installWords s q
    let s2 := answer s1 rq q.result
    if q.stale then shareReport s2 q.line (reqPair q) else s2

/-! Leases (R93 to R97, R418, R422). -/

/-- R93: the event of a lease read at its home. The renewal check comes first (R96, R418); a prefetch into the slice takes its lease and ends
there (R305). -/
def execLeaseRead (rq : Nat) (s : State) : Out :=
  let q := getR s rq
  enabled s (q.id == rq && rq != 0 && !q.busy && !q.done && q.mode == 1) <|
    atGate s rq false fun s q =>
      let s0 := sliceTouch s (homeSlice q.line) q.line 0 q.mbf
      if q.agent = .prefetch true then delR (leaseGrant s0 q.line q.lease q.pts).1 q.id else
      let s1 := renewalCheck s0 (reqPair q) q.line
      let (s2, wts, r) := leaseGrant s1 q.line q.lease q.pts
      let q1 := { q with
        done := true, result := reqResults s1 q, data := lineWords s2 q.line 0xFFFFFFFF, pts := leaseW s1 q.line, wts, rts := r,
        capRes := { Cap.null with addr := BitVec.zeroExtend 56 (lineTags s2 q.line) } }
      push (setR s2 rq q1) (.replyArrival rq (fget false s2.homes.errs q.line))

/-- What a write at the home does to the line's place and its metadata: under the MBF of the writer's translation, or under the scheme that
the line has (R34, R83). A non-temporal store brings no line into the slice (R303). R83 speaks of requests with a translation: the model
has a write of a host port or a Col link take no way, and a read of a host port touch its line under MBF 0 (log 97). -/
def writeTouch (s : State) (q : Req) : State :=
  if !carriesGen q then repackLine s q.line
  else if q.nt && !sliceHas s (homeSlice q.line) q.line 0 then packLine s q.line q.mbf else homeTouch s q.line q.mbf

/-- The writes of a request made at the home: its bytes, the tags, and the monitors that a signalling write wakes. -/
def writeHome (s : State) (q : Req) : State :=
  let bs := reqBytes q
  let s1 := bs.foldl (fun s x => setTag (memBytes s x.1 [x.2]) x.1 false) s
  let s2 := writeTouch (match q.kind, bs with
    | .capWrite c, x :: _ => if c.tag then setTag s1 x.1 true else s1
    | _, _ => s1) q
  if q.sig then ((bs.map fun x => x.1 / 4).dedup).foldl wakeMonitors s2 else s2

/-- R133, R137: the atomics of a request and of those merged with it, performed in order at the home or in the holder's unit. A signalling row
atomic wakes the monitors of every word of its line (R315). -/
def atomicsOf (s : State) (ids : List Nat) (inUnit : Bool) : State :=
  ids.foldl (fun s id =>
    let q := getR s id
    let after (s : State) : State := if inUnit then s else writeTouch s q
    match q.kind, q.pieces with
    | .atomic a f, p :: _ =>
      let s0 := if inUnit then dropSharers s q.line (reqMask q) (reqPair q) 0 (4, q.core) else s
      let (s1, old) := atomicHome s0 (4, q.core) a p inUnit
      let s1 := if aopMerges a && q.mode = 0 then mergeDone s1 q.ctx (p.place / 128) else s1
      let s2 := after (setR s1 id { q with result := if f then [(p.thread, old)] else [] })
      if q.sig then ((reqBytes q).map fun x => x.1 / 4).dedup.foldl wakeMonitors s2 else s2
    | .rowAtomic f, ps =>
      let olds := ps.map fun p => (p, visWord s (p.place / 4))
      let s1 := olds.foldl (fun s x =>
        let bs := leBytes (rowWord x.2 (lo32 x.1.val)).toNat 4
        if inUnit then pokeBytes (dropSharers s q.line (pieceMask x.1) (reqPair q) 0 (4, q.core)) x.1.place bs
        else devBytes s (4, q.core) x.1.place bs) s
      let s2 := after (setR s1 id { q with result := if f then olds.map fun x => (x.1.thread, BitVec.zeroExtend 64 x.2) else [] })
      if q.sig then ((List.range 32).map fun i => 32 * q.line + i).foldl wakeMonitors s2 else s2
    | _, _ => s) s

/-- R74, R96: the renewal checks of the copies that a writer holds as its lease-mode write reaches the home. -/
def writerChecks (s : State) (q : Req) : State :=
  if !isGroupReq q then s
  else if q.unit = 0 then renewalCheck s (reqPair q) q.line
  else (q.pieces.flatMap wordsOf).foldl (fun s k => stashCheck s q.core k) s

/-- R94, R96: a lease-mode write performed at its home: its timestamp, its bytes or its atomic, and the acknowledgement sent with the words
as this write leaves them. An atomic that meets an uncorrectable error takes MEM_ERR, whether or not it fetches (R364; log 97). -/
def leasePerform (s : State) (q : Req) : State :=
  let isAtomic := match q.kind with | .atomic _ _ | .rowAtomic _ => true | _ => false
  if isAtomic && fget false s.homes.errs q.line then memError s q else
  let s1 := leaseWritten (writerChecks s q) q.line q.pts
  let w := (dirAt s1 q.line).wts
  let s2 := if isAtomic then atomicsOf s1 [q.id] false else writeHome s1 q
  push (setR s2 q.id { getR s2 q.id with
    busy := false, done := true, wts := w, mode := 1, data := lineWords s2 q.line (reqMask q),
    capRes := { Cap.null with addr := BitVec.zeroExtend 56 (lineTags s2 q.line) } }) (.ownershipAck q.id)

/-- R94, R422: a lease-mode write at its home: held while its timestamp lies too far ahead. -/
def leaseStart (s : State) (q : Req) : State :=
  let q := { q with mode := 1 }
  let s1 := setR s q.id { q with busy := true }
  if leaseHeld s q.line q.pts then s1 else leasePerform s1 q

/-- R94: the event of a lease-mode write at its home. -/
def execLeaseWrite (rq : Nat) (s : State) : Out :=
  let q := getR s rq
  enabled s (q.id == rq && rq != 0 && !q.busy && !q.done && q.mode == 1) <| atGate s rq true leaseStart

/-- R94: the event in which the hold of a lease-mode write ends. -/
def execLeaseWriteHoldEnd (rq : Nat) (s : State) : Out :=
  let q := getR s rq
  enabled s (q.id == rq && rq != 0 && q.busy && q.mode == 1 && !leaseHeld s q.line q.pts) <|
    wakeReqs (leasePerform s q) q.line

/-- R94, R96: what the acknowledgement of a lease-mode write does at the core: PTS, and the pair's copy of the line, in which the words
written take the timestamp of the write and the others are invalidated. The spec does not say whether the write counts as a use of the line's
way: the model does not move it (log 97). -/
def leaseAcked (s : State) (q : Req) : State :=
  let s1 := renewalCheck (raisePts s q.core q.wts) (reqPair q) q.line
  let k := 2 ^ 45 * reqPair q + q.line
  match ffind s1.homes.leases k with
  | none => s1
  | some c =>
    let c1 := { c with words := q.data, tags := q.capRes.addr.truncate 8, w := q.wts, wts := q.wts, rts := q.wts, cnt0 := 0, cnt1 := 0 }
    modH s1 fun h => { h with leases := fput h.leases k c1 }

/-- R95: the event in which a slice sweeps its lease-mode entries and its evicted-timestamp register. -/
def execSliceLeaseSweep (slice : Nat) (s : State) : Out :=
  let far (t : BitVec 16) : Bool := 2 ^ 14 ≤ (eclk s - t).toNat
  let sweep (e : DirEntry) : DirEntry :=
    { e with old := e.old || far e.wts, rts := if far e.rts then eclk s - 0x4000#16 else e.rts }
  let ev := fget { valid := false, ts := 0 } s.homes.evts slice
  enabled s true <| modH s fun h => { h with
    dir := h.dir.map fun p => if p.2.lmode && homeSlice p.1 == slice then (p.1, sweep p.2) else p,
    evts := if ev.valid && far ev.ts then fdel h.evts slice else h.evts }

/-- R95: the event in which a core sweeps the lease copies of its pair cache and its stash. -/
def execCoreLeaseSweep (core : Nat) (s : State) : Out :=
  let lag (t : BitVec 16) : Bool := 2 ^ 13 ≤ (eclk s - t).toNat && (eclk s - t).toNat < 2 ^ 15
  let pair := pairOf core
  let copies := s.homes.leases.filter fun p => p.1 / 2 ^ 45 == pair && lag p.2.rts
  let s1 := copies.foldl (fun s p =>
    let s1 := renewalCheck s pair (p.1 % 2 ^ 45)
    tidyPair (modH s1 fun h => { h with leases := fdel h.leases p.1 }) pair (p.1 % 2 ^ 45)) s
  let words := (getC s core).swords.filter fun p => !p.2.d && p.2.rts.any lag
  enabled s true <| words.foldl (fun s p => setSWord (stashCheck s core p.1) core p.1 SWord.zero) s1

/-! Ownership, write-throughs and atomics (R86, R89, R135). -/

/-- R86: a home asks every other holder of the words to give them up, and gathers the acknowledgements. -/
def gather (s : State) (q : Req) (unit : Nat) : State :=
  let m := reqMask q
  let e := dirAt s q.line
  let pair := if isGroupReq q then reqPair q else 64
  let es := ((ownersIn e m pair unit).map fun o => Event.recallReceived q.id o.1 o.2.1 o.2.2) ++
    ((sharers e).map fun p => Event.invalidationReceived q.id p) ++
    ((replicas e).map fun d => Event.invalidationReceived q.id (64 + d)) ++
    (if e.host then [Event.invalidationReceived q.id 68] else []) ++ (if e.cpe then [Event.invalidationReceived q.id 69] else [])
  let s1 := setR s q.id { q with busy := true, acks := es.length }
  if es.isEmpty then push s1 (.ownershipAck q.id) else pushAll s1 es

/-- The unit that keeps its copies while a request is made: that of an ownership request; none for a write at the home. -/
def keepUnit (q : Req) : Nat :=
  match q.kind with
  | .own => q.unit.toNat
  | .capRead | .capWrite _ => if q.unit = 3 then 3 else 0
  | _ => 3

/-- R86, R89: the event of an ownership request at its home. -/
def execHomeOwnership (rq : Nat) (s : State) : Out :=
  let q := getR s rq
  enabled s (q.id == rq && rq != 0 && !q.busy && !q.done && q.mode == 0) <|
    atGate s rq (q.kind != .capRead) fun s q =>
      if q.kind == .capRead && lockedFrom s q then readNow s q else gather s q (keepUnit q)

/-- R84, R86: the event of a write-through at its home. A read that leaves no copy is made at once. -/
def execHomeWriteThrough (rq : Nat) (s : State) : Out :=
  let q := getR s rq
  enabled s (q.id == rq && rq != 0 && !q.busy && !q.done && q.mode == 0) <|
    atGate s rq (q.kind != .capRead) fun s q =>
      if !carriesGen q && leaseLine s q.line then leaseStart s q
      else if q.kind == .capRead then readNow s q else gather s q 3

/-- R135: an atomic at its home. The holder of a lock performs its own in its unit. -/
def homeAtomicAt (s : State) (q : Req) : State :=
  if q.mode = 1 || (!carriesGen q && leaseLine s q.line) then leaseStart s q
  else if (lockAt s q.line).holder == some (reqUid q) && isGroupReq q then
    push (setR s q.id { q with busy := true, stale := true }) (.ownershipAck q.id)
  else gather s q 3
def execHomeAtomic (rq : Nat) (s : State) : Out :=
  let q := getR s rq
  let isAtomic := match q.kind with | .atomic _ _ => true | _ => false
  let mergeable := match q.kind with | .atomic a _ => aopMerges a && q.mode == 0 | _ => false
  enabled s (q.id == rq && rq != 0 && !q.busy && !q.done && isAtomic && q.mode != 2) <|
    if mergeable && mergeWaits s q.ctx (((q.pieces.map fun p => p.place).headD 0) / 128) q.core then waitReq s rq
    else atGate s rq true homeAtomicAt
def execHomeRowAtomic (rq : Nat) (s : State) : Out :=
  let q := getR s rq
  let isRow := match q.kind with | .rowAtomic _ => true | _ => false
  enabled s (q.id == rq && rq != 0 && !q.busy && !q.done && isRow && q.mode != 2) <| atGate s rq true homeAtomicAt

/-- R388: in whose name a request's recalls and invalidations reach stash words. -/
def recallBy (q : Req) : By :=
  (match q.kind with | .atomic _ _ | .rowAtomic _ => 4 | _ => 2, match q.agent with | .group _ _ | .engine _ => q.core | _ => 127)

/-- R69, R86: the event in which an owner gives up words. -/
def execRecallReceived (rq pair unit : Nat) (mask : BitVec 32) (s : State) : Out :=
  let q := getR s rq
  enabled s (q.id == rq && rq != 0 && q.busy && 0 < q.acks) <|
    push (recallUnit s q.line pair unit mask (recallBy q)) (.invalidationAck rq)

/-- R86, R87: the event in which a sharer, a die's replica (64 on), or the read buffers of the host ports (68) or the copy engines (69)
drop the words of a request. -/
def execInvalidationReceived (rq target : Nat) (s : State) : Out :=
  let q := getR s rq
  let pair := if isGroupReq q then reqPair q else 64
  let m := reqMask q
  enabled s (q.id == rq && rq != 0 && q.busy && 0 < q.acks) <|
    if target < 64 then push (dropPair s q.line target (if target == pair then keepUnit q else 3) m (recallBy q)) (.invalidationAck rq)
    else push (if target = 68 then dropHost s q.line m else if target = 69 then dropCpe s q.line m
      else dropReplica s q.line (target - 64) pair (keepUnit q) m (recallBy q)) (.invalidationAck rq)

/-- R86: the event in which an acknowledgement reaches the home; after the last the home acknowledges the request. -/
def execInvalidationAck (rq : Nat) (s : State) : Out :=
  let q := getR s rq
  enabled s (q.id == rq && rq != 0 && q.busy && 0 < q.acks) <|
    let s1 := setR s rq { q with acks := q.acks - 1 }
    if q.acks = 1 then push s1 (.ownershipAck rq) else s1

/-- R71, R86: the words of a line that a stash was given and uses for nothing: no dirty word of it, and no store on its way, holds a byte of
them. The home takes them back. -/
def returnIdle (s : State) (core line : Nat) (mask : Word) : State :=
  let pieces := (s.groups.filter fun p => p.2.core == core).flatMap fun p => p.2.ops.flatMap fun o => o.pieces
  let used (i : Nat) : Bool := ((boundWords s core (32 * line + i)).any fun p => p.2.d) ||
    pieces.any fun p => p.space == 1 && p.bound.any fun b => b.any fun a => a / 4 == 32 * line + i
  disown s line (pairOf core) (1 + core % 2) (maskOf ((threadsOf mask).filter fun i => !used i))

/-- R71, R74: an answer for one line of a mapped store: `w` is the timestamp of a lease-mode write. The pieces for which nothing is left to
wait for are performed; a refused line is asked for anew. -/
def mappedBack (s : State) (q : Req) (w : Option (BitVec 16)) : State :=
  let line (x : LineInfo) : LineInfo := if x.line == q.line && w.isSome then { x with w, data := q.data } else x
  let up (p : Piece) : Piece := if q.pieces.any (samePiece p) then { p with lines := p.lines.map line } else p
  let s1 := modG (delR s q.id) (reqUid q) fun g => modOp g (reqOp q) fun o =>
    { o with left := o.left - 1, pieces := o.pieces.map up, swait := o.swait.map up }
  finishMapped s1 (reqUid q) (reqOp q)

/-- The acknowledgement of one line of mapped words at the stash that writes them. -/
def ackMapped (s : State) (q : Req) : State :=
  match q.agent with
  | .engine id => engineMapped s q id
  | _ => mappedBack s q (if q.mode = 1 then some q.wts else none)

/-- R89: a store whose words the pair cache owns is performed there. -/
def ownedStore (s : State) (q : Req) : State :=
  let s1 := (reqBytes q).foldl (fun s x => pokeByte s x.1 x.2) s
  let s2 := match q.kind, reqBytes q with
    | .capWrite c, x :: _ => if c.tag then setTag s1 x.1 true else s1
    | _, _ => s1
  if q.sig then ((reqBytes q).map fun x => x.1 / 4).dedup.foldl wakeMonitors s2 else s2

/-- R83, R89: the words of a request join the pair cache's record, and the line moves in the home slice's order of use; the stores that wait for them, the request's own first, are performed
there. A cache that no longer takes the line writes it back. -/
def ownNowCached (s : State) (q : Req) (f : State → State) : State :=
  let s1 := sliceTouch (joinOwner s q.line (reqPair q) 0 (reqMask q) (recallBy q)) (homeSlice q.line) q.line 0 q.mbf
  match pairTouch s1 (reqPair q) q.line q.mbf with
  | some s2 => f s2
  | none => recallUnit (f s1) q.line (reqPair q) 0 (reqMask q) (recallBy q)

/-- A request is performed: every other holder has given up its words. One that reads data with an uncorrectable error takes MEM_ERR, an atomic
or a row atomic that does not fetch among them (R364; log 97). -/
def finishReq (s : State) (rq : Nat) : State :=
  let q := getR s rq
  let s0 := modR s rq fun q => { q with busy := false }
  let errs := readErr s0 q.line (reqMask q)
  let all := if isGroupReq q then q :: q.merged.map (getR s) else [q]
  match q.kind with
  | .own =>
    if q.unit = 0 then ownNowCached s0 q fun s => all.foldl (fun s x => ackReq (ownedStore s x) x []) s
    else
      let s1 := all.foldl ackMapped (sliceTouch (joinOwner s0 q.line (reqPair q) q.unit.toNat (reqMask q) (recallBy q))
        (homeSlice q.line) q.line 0 q.mbf)
      if isGroupReq q then returnIdle s1 q.core q.line (reqMask q) else s1
  | .capRead =>
    if errs then memError s0 q else ownNowCached s0 q fun s => answer s rq (reqResults s q)
  | .capWrite _ =>
    if q.unit = 3 then ackReq (writeHome s0 q) q [] else
      ownNowCached s0 q fun s => all.foldl (fun s x => ackReq (ownedStore s x) x []) s
  | .atomic _ _ =>
    if errs then memError s0 q else
    let s1 := atomicsOf s0 (if isGroupReq q then rq :: q.merged else [rq]) q.stale
    if q.merged.isEmpty || !isGroupReq q then ackReq s1 (getR s1 rq) (getR s1 rq).result
    else push (modR s1 rq fun q => { q with done := true }) (.routerMergeReply rq)
  | .rowAtomic _ =>
    if errs then memError s0 q else
    let s1 := atomicsOf s0 [rq] q.stale
    ackReq s1 (getR s1 rq) (getR s1 rq).result
  | _ => ackReq (writeHome s0 q) q []

/-- R94: the acknowledgement of a lease-mode write at its writer. -/
def ackLease (s : State) (q : Req) : State :=
  let s1 := if isGroupReq q then leaseAcked s q else s
  if q.unit = 0 then ackReq s1 q q.result else ackMapped s1 q

/-- R86, R89, R94: the event in which the home acknowledges a request: at that moment its value is visible to every agent. -/
def execOwnershipAck (rq : Nat) (s : State) : Out :=
  let q := getR s rq
  enabled s (q.id == rq && rq != 0 && ((q.busy && q.acks == 0 && q.mode == 0) || (q.done && q.mode == 1))) <|
    let s1 := if q.mode = 1 then ackLease s q else finishReq s rq
    wakeReqs s1 q.line

/-- R144: a write that the home held is performed, as one action. -/
def performHeld (s : State) (rq : Nat) : State :=
  let q := getR s rq
  if q.id ≠ rq || rq = 0 then s else
  finishReq (clearCopies s q.line (reqMask q) (if isGroupReq q then reqPair q else 64) (keepUnit q) (recallBy q)) rq

/-- R72, R86: the event in which a pair cache writes words back of its own accord and keeps clean copies. A stash writes back on the events
of R69 alone. -/
def execHomeWriteBack (pair unit line : Nat) (mask : BitVec 32) (s : State) : Out :=
  let mine := (dirAt s line).owners.any fun o => o.pair.toNat == pair && o.unit.toNat == 0 && o.mask &&& mask == mask
  enabled s (unit == 0 && mine && mask != 0 && (lockAt s line).holder.isNone) <|
    let s1 := (threadsOf mask).foldl (fun s i =>
      let gw := 32 * line + i
      match ffind s.homes.pcache (unitKey pair gw) with
      | some w => modH (if w.dirty then memBytes s (4 * gw) (leBytes w.val.toNat 4) else s) fun h =>
          { h with pcache := fput h.pcache (unitKey pair gw) { w with dirty := false } }
      | none => s) s
    modDir (disown (homeTouch s1 line (pairMbf s pair line)) line pair 0 mask) line fun e => { e with shr := withBit e.shr pair true }

/-! Merging (R136 to R138). -/

/-- R136: whether two atomics in flight may merge. -/
def mayMerge (q r : Req) : Bool :=
  match q.kind, r.kind with
  | .atomic a _, .atomic b _ =>
    a == b && aopMerges a && q.id != r.id && isGroupReq q && isGroupReq r && q.mode == 0 && r.mode == 0 && q.gen == r.gen &&
      q.ord == r.ord && q.sig == r.sig && ((q.pieces.map atomBytes) == (r.pieces.map atomBytes)) &&
      q.merged.length + r.merged.length + 2 ≤ 32 && !q.busy && !r.busy
  | _, _ => false

/-- R136, R137: the event in which a router merges a later request into an earlier one; both are on their way to the home. In a replayed run
it merges none (R392), and none of a lock's holder, whose unit performs its own (R135). -/
def execRouterMerge (rq other : Nat) (s : State) : Out :=
  let q := getR s rq
  let r := getR s other
  let holds (h : Nat) : Bool := h == reqUid q || h == reqUid r
  enabled s (mayMerge q r && !replays s q.ctx && !(lockAt s q.line).holder.any holds && s.agenda.contains (.homeAtomic rq) && s.agenda.contains (.homeAtomic other)) <|
    let s1 := setR (setR s other { r with merged := [] }) rq { q with merged := q.merged ++ other :: r.merged }
    let cores := ((rq :: q.merged) ++ other :: r.merged).map fun id => (getR s id).core
    let word := ((q.pieces.map fun p => p.place).headD 0) / 128
    let who := cores.length + 2 ^ 6 * (cores.headD 0 % 2 ^ 7) + 2 ^ 13 * ((cores.drop 1).headD 0 % 2 ^ 7)
    let s2 := replogAdd { s1 with free := s1.free + 1 } q.ctx 2 (Config.routerNo s1.free).toNat word who
    { s2 with agenda := s2.agenda.filter fun e => e != .homeAtomic other }

/-- R138: the event in which the routers give each constituent its answer. -/
def execRouterMergeReply (rq : Nat) (s : State) : Out :=
  let q := getR s rq
  enabled s (q.id == rq && rq != 0 && q.done && !q.merged.isEmpty) <|
    (rq :: q.merged).foldl (fun s id => ackReq s (getR s id) (getR s id).result) s

/-! Refused requests (R46, R138). -/

/-- R46: the issuer drops the translation of a refused request from its TLB and its translation registers, and walks again. -/
def retranslate (s : State) (rq : Nat) : State :=
  let q := getR s rq
  let va := (q.pieces.map fun p => p.shown).headD 0
  let drop (m : FMap XW) (n : Nat) : FMap XW :=
    let x := fget XW.zero m n
    if x.valid && x.vpage.toNat ≤ va / 2 ^ 16 && va < 2 ^ 16 * x.vpage.toNat + x.limit.toNat then
      fset XW.zero m n { x with valid := false } else m
  let s1 := modG (tlbDrop s q.core q.ctx va) (reqUid q) fun g => { g with xw := (List.range 8).foldl drop g.xw }
  let (id, s2) := fresh s1
  let w : Walk := { ctx := q.ctx, core := q.core, va, why := .request rq, done := none }
  push { s2 with walks := fput s2.walks id w } (.pageWalkComplete id)

/-- R46, R71: one refused request: it is translated anew and sent again by its issuer, a mapped store is bound anew, a prefetch is dropped. -/
def refuseOne (s : State) (id : Nat) : State :=
  let q := { getR s id with merged := [] }
  let s1 := setR s id q
  match q.agent with
  | .engine c => engineRetry s1 q c
  | .group _ _ => if q.pieces.any fun p => p.space == 1 then (match q.kind with
      | .atomic _ _ | .rowAtomic _ => retranslate (dropBound s1 q) id
      | _ => mappedBack (dropBound s1 q) q none)
    else retranslate s1 id
  | _ => delR s1 id

/-- R46, R71, R138: the event of a refusal; the constituents of a merged request go back to their issuers. -/
def execRequestRefused (rq : Nat) (s : State) : Out :=
  let q := getR s rq
  enabled s (q.id == rq && rq != 0 && carriesGen q && !q.busy && !q.done && q.mode != 2 && q.gen != genOf s (q.line * 128)) <|
    (rq :: q.merged).foldl refuseOne s

/-! Releases and held accesses (R91, R105, R108). -/

/-- R91: the event in which the marker at the head of a core's FIFO lets its release be sent. -/
def execReleaseMarkerHead (core : Nat) (s : State) : Out :=
  match (getC s core).fifo with
  | e :: _ =>
    let g := getG s e.uid
    match opOf g e.op with
    | some o =>
      if e.marker && sendEvent s g o = some (.releaseMarkerHead core) then .next (sendOp (dropMarker s core e.uid e.op) e.uid e.op)
      else .next s
    | none => .next s
  | [] => .next s

/-- R105: the event in which an access that an ordering rule held is sent. -/
def execHeldAccessRelease (uid op : Nat) (s : State) : Out :=
  let g := getG s uid
  match opOf g op with
  | some o =>
    if sendEvent s g o = some (.heldAccessRelease uid op) then .next (sendOp (dropMarker s g.core uid op) uid op)
    else .next s
  | none => .next s

/-- R70: the event in which a stash fill delivers. -/
def execStashFillArrival (fill : Nat) (s : State) : Out :=
  enabled s ((ffind s.fills fill).any fun f => !f.parked) (fillNow s fill)

/-! Host memory and host ports (R131, R366 to R371). -/

/-- The piece of a host request. -/
def hostPiece (q : Req) : Piece :=
  q.pieces.headD { thread := 0, space := 3, place := 0, size := 0, val := 0, exp := 0, shown := 0, gen := 0, mode := 2, mbf := 0, bound := [] }

/-- R131, R369: what a completion of a host request does. The completer's refusal of an atomic leaves 0 in its thread's word, and is told once
every thread has returned. -/
def hostComplete (s : State) (q : Req) (refused : Bool) : State :=
  let p := hostPiece q
  match q.kind with
  | .atomic a f =>
    if refused then
      let note (o : Op) : Op := { o with refused := o.refused ||| maskOf [p.thread] }
      ackReq (modG s (reqUid q) fun g => modOp g (reqOp q) note) q (if f then [(p.thread, 0)] else [])
    else
      let old := BitVec.ofNat 64 (readLe s.host p.place p.size)
      let s1 := hostBytes s p.place (leBytes (aopNew a old p.val p.exp).toNat p.size)
      ackReq s1 q (if f then [(p.thread, old)] else [])
  | .capRead => if refused then memError s q else answer s q.id (capGot (readLe s.host p.place 16) false false)
  | _ => if refused then memError s q else answer s q.id (reqResults s q)

/-- R131, R367, R369: the event in which the completion of a host read or atomic returns. It follows the posted writes that the port took
before it. -/
def execHostCompletion (rq : Nat) (refused : Bool) (s : State) : Out :=
  let q := getR s rq
  let die := dieOf q.core
  let port := (getDie s die).hostq
  let waits := match q.kind with | .read | .capRead | .atomic _ _ => true | _ => false
  enabled s (q.id == rq && rq != 0 && q.mode == 2 && isGroupReq q && waits && (port.head? == some rq || !port.contains rq)) <|
    if port.head? = some rq then
      hostNext (modDie (hostComplete s q refused) die fun d => { d with hostq := d.hostq.drop 1 }) die
    else if port.isEmpty then hostComplete s q refused
    else modDie (setR s rq { q with stale := refused }) die fun d => { d with hostq := d.hostq ++ [rq] }

/-- R369: the tick at which a request that a host completes times out, once its port has sent it. -/
def hostTimeout (s : State) (q : Req) : Option Nat :=
  let waits := match q.kind with | .read | .capRead | .atomic _ _ => true | _ => false
  if q.mode == 2 && isGroupReq q && waits && !(getDie s (dieOf q.core)).hostq.contains q.id then some (2 ^ 22 + q.tick) else none

/-- R369: the event in which a host request times out: whether an atomic was performed is free (log 6). -/
def execHostCompletionTimeout (rq : Nat) (s : State) : Out :=
  let q := getR s rq
  enabled s (q.id == rq && rq != 0 && (hostTimeout s q).any fun t => t ≤ s.gtick.toNat) <|
    match q.kind, q.pieces with
    | .atomic a _, p :: _ =>
      let s1 := { s with free := s.free + 1 }
      let old := BitVec.ofNat 64 (readLe s.host p.place p.size)
      memError (if Config.timeoutDone s.free then hostBytes s1 p.place (leBytes (aopNew a old p.val p.exp).toNat p.size) else s1) q
    | _, _ => memError s q

/-- Whether a host port has a write or an atomic to send. -/
def hostSends (q : Req) : Bool := match q.kind with | .write | .capWrite _ => true | .atomic _ _ => !q.done | _ => false

/-- R91, R368: the event in which a host port has sent a write or an atomic: its FIFO entries are acknowledged. A write is over; the completion
of an atomic is due. -/
def execHostPortWriteSent (rq : Nat) (s : State) : Out :=
  let q := getR s rq
  enabled s (q.id == rq && rq != 0 && q.mode == 2 && isGroupReq q && hostSends q) <|
    match q.kind with
    | .atomic _ _ => push (setR (ackKeys s q) rq { q with done := true }) (.hostCompletion rq false)
    | _ => ackReq (q.pieces.foldl (fun s p => hostBytes s p.place
        (match q.kind with | .capWrite c => leBytes (capBits c) 16 | _ => leBytes p.val.toNat p.size)) s) q []

/-- The requests of a port for bytes of device memory, one for each line, in pieces of at most 8 bytes. -/
def portReqs (agent : Agent) (kind : ReqKind) (pa : Nat) (bs : List Byte) : List Req :=
  (linesOf pa bs.length).map fun l =>
    let part := (bs.drop (l.1 - pa)).take l.2
    let n := if kind == .write then 8 else 128
    let piece (i : Nat) : Piece :=
      let b := (part.drop (n * i)).take n
      { thread := i, space := 0, place := l.1 + n * i, size := b.length, val := BitVec.ofNat 64 (leNat b), exp := 0,
        shown := l.1 + n * i, gen := 0, mode := 0, mbf := 0, bound := [] }
    { newReq agent 0 0 kind (l.1 / 128) with pieces := (List.range (ceilDiv l.2 n)).map piece }

/-- R366, R367: requests join the order of a host port. -/
def hostEnqueue (s : State) (die : Nat) (qs : List Req) : State :=
  let idle := (getDie s die).hostq.isEmpty
  let (s1, ids) := qs.foldl (fun (x : State × List Nat) q => let (id, s') := addReq x.1 q; (s', x.2 ++ [id])) (s, [])
  let s2 := modDie s1 die fun d => { d with hostq := d.hostq ++ ids }
  if idle then hostNext s2 die else s2

/-- R366, R367: the event of a host write through BAR2. -/
def execHostWrite (die pa : Nat) (data : List (BitVec 8)) (s : State) : Out :=
  enabled s (die < ndie s.part && !inRecovery s && pa + data.length ≤ hbmSize s.part && !data.isEmpty) <|
    hostEnqueue s die (portReqs (.host die) .write pa data)

/-- R366, R367: the event of a host read through BAR2; its bytes are what the host receives. -/
def execHostRead (die pa len : Nat) (s : State) : Out :=
  enabled s (die < ndie s.part && !inRecovery s && pa + len ≤ hbmSize s.part && 0 < len) <|
    hostEnqueue s die (portReqs (.host die) .read pa (List.replicate len 0))

/-- R122, R371: requests join those of a Col link, behind the ones that have arrived there before. -/
def colEnqueue (s : State) (link : Nat) (qs : List Req) : State :=
  let first := (s.reqs.find? fun p => p.2.agent == .col link).map fun p => p.1
  let (s1, ids) := qs.foldl (fun (x : State × List Nat) q => let (id, s') := addReq x.1 q; (s', x.2 ++ [id])) (s, [])
  match first, ids with
  | some r, _ => modR s1 r fun q => { q with merged := q.merged ++ ids }
  | none, id :: rest => push (setR s1 id { getR s1 id with merged := rest }) (arrivalEvent (getR s1 id))
  | none, [] => s1

/-- R1, R122, R371: the event in which a peer's write arrives over a Col link: inside the window exported to it, the data is written
through, and its completion flag is added to once every write before it on the link is performed. `flag` says that the 4 bytes at `pa`
are the flag. -/
def execColWriteArrival (link peer pa : Nat) (flag : Bool) (data : List (BitVec 8)) (s : State) : Out :=
  let (base, size) := fget (0, 0) s.windows peer
  enabled s (link < 2 * ndie s.part && !inRecovery s && (!data.isEmpty || flag)) <|
    let n := if flag then 4 else data.length
    if !(pa + n ≤ size && base + pa + n ≤ hbmSize s.part) then s else
    let a := base + pa
    let one : Piece := { thread := 0, space := 0, place := a, size := 4, val := 1, exp := 0, shown := a, gen := 0, mode := 0,
                         mbf := 0, bound := [] }
    colEnqueue s link (if flag then [{ newReq (.col link) 0 0 (.atomic (.add 4) false) (a / 128) with pieces := [one] }]
      else portReqs (.col link) .write a data)

end Sys2Proof.Machine
end

