-- ==== Sys2Proof/Machine/LockHome.lean ====
section
/-!
DEFINITION. Line locks and monitors at their homes, and the generations of frames (R45, R48, R141 to R156, R391).
-/
namespace Sys2Proof.Machine

/-! Locks (R141 to R153). -/

/-- R152: whether a frame's locks drain. -/
def draining (s : State) (line : Nat) : Bool := fget false s.homes.draining (line / 512)

/-- R141: the lines that a slice has pinned, and the waiters in its queues. -/
def pinnedIn (s : State) (slice : Nat) : Nat := (s.homes.dir.filter fun p => p.2.pin && homeSlice p.1 == slice).length
def waitersIn (s : State) (slice : Nat) : Nat :=
  ((s.homes.locks.filter fun p => homeSlice p.1 == slice).map fun p => p.2.queue.length).sum

/-- R145, R193: the home's reply to an acquire fills its status; its entry of the held-lock list is granted, or leaves. -/
def lockReply (s : State) (rq code : Nat) : State :=
  let q := getR s rq
  let mine (l : LockEnt) : Bool := l.op == reqOp q && l.line == q.line
  let after (ls : List LockEnt) : List LockEnt :=
    if code ≤ 1 then ls.map fun l => (if mine l then { l with granted := true } else l) else ls.filter fun l => !mine l
  answer (modG s (reqUid q) fun g => { g with locks := after g.locks }) rq [(0, BitVec.ofNat 64 code)]

/-- R144: the home performs, in their order of arrival, the writes that it held. -/
def performWrites (s : State) (line : Nat) : State :=
  let ws := (lockAt s line).writes
  ws.foldl performHeld (setLock s line { lockAt s line with writes := [] })

/-- R144: the words of a line pass from the unit of the last holder, which owns them all, to that of the next one; none where no unit holds
them, or the next one's cache does not take the line. -/
def passWords (s : State) (line a b : Nat) : Option State :=
  let all := (List.range 32).all fun i => (ownerOf (dirAt s line) i).any fun o => o.pair.toNat == a && o.unit == 0
  if !all then none else
  (pairTouch (dropSharers s line 0xFFFFFFFF a 0 (2, 2 * b)) b line (pairMbf s a line)).map fun s =>
    let move (m : FMap CWord) (i : Nat) : FMap CWord := match ffind m (unitKey a (32 * line + i)) with
      | some w => fput (fdel m (unitKey a (32 * line + i))) (unitKey b (32 * line + i)) w
      | none => m
    let s1 := modH s fun h => { h with pcache := (List.range 32).foldl move h.pcache }
    joinOwner (disown (tidyPair s1 a line) line a 0 0xFFFFFFFF) line b 0 0xFFFFFFFF (2, 2 * b)

/-- R144: a grant: held writes, the recall of every copy, or the last holder's words passed on where nothing was held, the new holder's
ownership of the 32 words, and the reply. -/
def grantLock (s : State) (line rq : Nat) (brk : Bool) : State :=
  let q := getR s rq
  let g := getG s (reqUid q)
  let l := lockAt s line
  let s1 := match (if l.writes.isEmpty && l.since != 0 then passWords s line (pairOf l.hcore) (reqPair q) else none) with
    | some s1 => s1
    | none => joinOwner (clearCopies (performWrites s line) line 0xFFFFFFFF 64 3 (2, q.core)) line (reqPair q) 0 0xFFFFFFFF (2, q.core)
  let s2 := modDir s1 line fun e => { e with pin := true }
  let slot := g.slot.getD 0
  let s3 := setLock s2 line { lockAt s2 line with
    holder := some (reqUid q), hcore := q.core, hslot := slot, since := s.gtick.toNat, broken := false, told := false }
  let who := q.core % 2 ^ 7 + 2 ^ 7 * g.gid.toNat + 2 ^ 39 * (slot % 2 ^ 10)
  lockReply (replogAdd s3 q.ctx 0 (homeSlice line) line who) rq (if brk then 1 else 0)

/-- R144, R150: a lock leaves its holder: the next waiter is granted, or the line is unpinned, unless it stays marked broken. In a replayed
run the waiters wait for the logged grant (R392). -/
def passLock (s : State) (line : Nat) (brk : Bool) : State :=
  let l := lockAt s line
  match l.queue with
  | w :: rest =>
    if replays s (getR s w.rq).ctx then setLock s line { l with holder := none, broken := brk }
    else grantLock (setLock s line { l with holder := none, queue := rest }) line w.rq brk
  | [] =>
    let s1 := performWrites s line
    let s2 := setLock s1 line { Lock.free with broken := brk }
    wakeReqs (modDir s2 line fun e => { e with pin := brk }) line

/-- The expiry of a timeout that starts now (R142, R154). -/
def expiryOf (s : State) (timeout : BitVec 32) : Option Nat :=
  if timeout = 0xFFFFFFFF then none else some (s.gtick.toNat + timeout.toNat)

/-- R148, R206: whether a group's queue entries are cancelled: its context is being pre-empted and it is in no save routine, or its
task is off its core. -/
def waitsOff (s : State) (g : Group) : Bool := (preemptPending s g && g.saving.isNone) || (taskOf s g).off

/-- R148: an acquire that would wait is marked to be sent again at the restore. -/
def markWait (s : State) (q : Req) (timeout : BitVec 32) : State :=
  let mark (e : LockEnt) : LockEnt :=
    if e.op == reqOp q && e.line == q.line then { e with marked := true, remain := timeout } else e
  let s1 := modG (delR s q.id) (reqUid q) fun g => { g with locks := g.locks.map mark }
  mapRecords s1 fun r => if r.uid == reqUid q then { r with reacq := true } else r

/-- A waiter joins the tail of a line's queue (R142). -/
def awaitGrant (s : State) (q : Req) (timeout : BitVec 32) : State :=
  let w : Waiter := { uid := reqUid q, rq := q.id, expiry := expiryOf s timeout, since := s.gtick.toNat }
  setLock s q.line { lockAt s q.line with queue := (lockAt s q.line).queue ++ [w] }

/-- R392: the waiter of a free line whose grant is the next that the log of its context holds for the line's slice. -/
def loggedGrant (s : State) (line : Nat) (l : Lock) : Option (Waiter × BitVec 256) :=
  if l.holder.isSome then none else l.queue.findSome? fun w =>
    let q := getR s w.rq
    (logNext s q.ctx 0 (homeSlice line)).bind fun r =>
      if logWhere r == line && logWho r % 2 ^ 39 == q.core % 2 ^ 7 + 2 ^ 7 * (getG s w.uid).gid.toNat then some (w, r) else none

/-- R392: the homes grant the locks of replayed runs in the logged order, at most `n` of them. -/
def grantLogged (s : State) : Nat → State
  | 0 => s
  | n + 1 =>
    match s.homes.locks.findSome? fun p => (loggedGrant s p.1 p.2).map fun x => (p.1, x) with
    | none => s
    | some (line, w, r) =>
      let l := lockAt s line
      let s1 := setLock (logTake s (getR s w.rq).ctx r) line { l with queue := dropFirst w l.queue }
      grantLogged (grantLock s1 line w.rq l.broken) n

/-- R142, R143: the decision on a lock request at its home. -/
def lockArrive (s : State) (q : Req) (timeout : BitVec 32) : State :=
  let l := lockAt s q.line
  let slice := homeSlice q.line
  if draining s q.line then lockReply s q.id 5
  else if l.holder == some (reqUid q) then lockReply s q.id 3
  else if l.holder.isNone && l.queue.isEmpty then
    if !(dirAt s q.line).pin && 2048 ≤ pinnedIn s slice then lockReply s q.id 4
    else if inTheWay s q || (dirRoom s q.line).isNone then waitReq s q.id
    else
      let s0 := modH s fun h => { h with waiting := h.waiting.filter fun x => x != q.id }
      let s1 := (dirRoom s0 q.line).getD s0
      if replays s q.ctx then awaitGrant (modDir s1 q.line fun e => { e with pin := true }) q timeout
      else grantLock s1 q.line q.id l.broken
  else if l.holder.isNone && replays s q.ctx then awaitGrant s q timeout
  else if timeout = 0 then lockReply s q.id 2
  else if waitsOff s (getG s (reqUid q)) then markWait s q timeout
  else if 8192 ≤ waitersIn s slice then lockReply s q.id 4
  else awaitGrant s q timeout

/-- R142: the event of a lock request at its home. -/
def execLockRequestArrival (rq : Nat) (s : State) : Out :=
  let q := getR s rq
  match q.kind with
  | .lock t y =>
    enabled s (q.id == rq && rq != 0 && !((lockAt s q.line).queue.any fun w => w.rq == rq)) <|
      if q.gen != genOf s (q.line * 128) then push s (.requestRefused rq)
      else lockArrive s q (if y then 0 else t)
  | _ => .next s

/-- R144: the event in which a release reaches its home. -/
def execLockReleaseArrival (rq : Nat) (s : State) : Out :=
  let q := getR s rq
  enabled s (q.id == rq && rq != 0 && q.kind == .unlock) <|
    if q.gen != genOf s (q.line * 128) then push s (.requestRefused rq)
    else if (lockAt s q.line).holder == some (reqUid q) then passLock (answer s rq []) q.line false
    else answer s rq []

/-- R390: whether a role of a context is halted, which freezes its lock timers. -/
def ctxHalted (s : State) (ctx : BitVec 12) : Bool := s.tasks.any fun p => p.2.ctx == ctx && !p.2.halted.isEmpty

/-- R147: whether a waiter's expiry has come: not while the role of its context is halted (R390), and not while the line of a replayed run
waits, free, for its logged grant (R392). -/
def expiryDue (s : State) (l : Lock) (w : Waiter) : Bool :=
  w.expiry.any (fun e => e ≤ s.gtick.toNat) && !ctxHalted s (getG s w.uid).ctx &&
    !(l.holder.isNone && replays s (getR s w.rq).ctx)

/-- R147: the event of a waiter's expiry. -/
def execLockWaiterExpiry (line uid : Nat) (s : State) : Out :=
  let l := lockAt s line
  match l.queue.find? fun w => w.uid == uid && expiryDue s l w with
  | some w => .next <| lockReply (setLock s line { l with queue := dropFirst w l.queue }) w.rq 2
  | none => .next s

/-- R149: whether a hold has lasted LHOLDLIM ticks and has not been told. -/
def holdDue (s : State) (l : Lock) : Bool :=
  match l.holder with
  | some h =>
    let x := getX s (getG s h).ctx
    !l.told && x.lholdlim != 0 && l.since + x.lholdlim.toNat ≤ s.gtick.toNat && !ctxHalted s (getG s h).ctx
  | none => false

/-- A deferred cause of a lock, which names the line (R149, R151). -/
def lockCause (s : State) (uid line : Nat) (c : Cause) : State :=
  raiseDeferred s uid { cause := c, xf0 := 0, xf1 := BitVec.ofNat 64 (line * 128), xf2 := 0 }
    { faultRecG s (getG s uid) c true with addr := line * 128 }

/-- R149: the event of a hold that has lasted LHOLDLIM ticks. -/
def execLckHold (line : Nat) (s : State) : Out :=
  let l := lockAt s line
  enabled s (holdDue s l) <| lockCause (setLock s line { l with told := true }) (l.holder.getD 0) line .lckHold

/-- R151: whether a chain of holders that are themselves queued comes back to the initiator within the hops left. -/
def chase (s : State) (init : Nat) : Nat → List Nat → Bool
  | 0, _ => false
  | n + 1, hs =>
    let next := ((s.homes.locks.filter fun p => p.2.queue.any fun w => hs.contains w.uid).filterMap fun p => p.2.holder).dedup
    hs.contains init || (!hs.isEmpty && chase s init n next)

/-- R151: whether a waiter's next probe is due. -/
def probeDue (s : State) (w : Waiter) : Bool := w.since + s.dlkprobe ≤ s.gtick.toNat

/-- R151: the event of a deadlock probe: the initiator alone fails. -/
def execDeadlockProbe (line uid : Nat) (s : State) : Out :=
  let l := lockAt s line
  match l.queue.find? fun w => w.uid == uid && probeDue s w with
  | some w =>
    .next <| if chase s uid 64 l.holder.toList then
      lockCause (lockReply (setLock s line { l with queue := dropFirst w l.queue }) w.rq 3) uid line .lckDlk
    else setLock s line { l with queue := l.queue.map fun x => if x == w then { w with since := s.gtick.toNat } else x }
  | none => .next s

/-- R153: the snapshot of a line. An unlocked line with no broken mark reads as zero. -/
def lockSnapshot (s : State) (line : Nat) : Nat :=
  let l := lockAt s line
  if l.holder.isNone && !l.broken then 0 else
  let held := l.holder.isSome
  held.toNat + l.broken.toNat * 2 + (draining s line).toNat * 4 + (decide (2048 ≤ pinnedIn s (homeSlice line))).toNat * 8 +
    2 ^ 8 * min 255 l.queue.length +
    (if held then 2 ^ 16 * (l.hcore % 2 ^ 7) + 2 ^ 24 * (l.hslot % 2 ^ 10) +
      2 ^ 40 * min (2 ^ 24 - 1) ((s.gtick.toNat - l.since) / 1024) else 0)

/-- R153: the event of a status request at its home. -/
def execLockStatRequest (rq : Nat) (s : State) : Out :=
  let q := getR s rq
  enabled s (q.id == rq && rq != 0 && q.kind == .stat) <|
    if q.gen != genOf s (q.line * 128) then push s (.requestRefused rq)
    else answer s rq [(0, BitVec.ofNat 64 (lockSnapshot s q.line))]

/-! Monitors (R154 to R156). -/

/-- R154: the event of a monitor request at its home. A comparison that meets an uncorrectable error takes MEM_ERR, as a load does (R364; log 97). -/
def execMwaitRequestArrival (rq : Nat) (s : State) : Out :=
  let q := getR s rq
  match q.kind, q.pieces with
  | .monitor exp t, p :: _ =>
    enabled s (q.id == rq && rq != 0 && !(s.homes.mons.any fun m => m.rq == rq)) <|
      if q.gen != genOf s (q.line * 128) then push s (.requestRefused rq)
      else if readErr s q.line (pieceMask p) then memError s q
      else if visWord s (p.place / 4) ≠ exp then answer s rq [(0, 1)]
      else if t = 0 then answer s rq [(0, 2)]
      else if 512 ≤ (s.homes.mons.filter fun m => homeSlice (m.word / 32) == homeSlice q.line).length then answer s rq [(0, 4)]
      else
        let (id, s1) := fresh s
        let e := expiryOf s t
        let m : Monitor := { id, word := p.place / 4, gen := q.gen, uid := reqUid q, entry := ((opOf (getG s (reqUid q)) (reqOp q)).map fun o => o.entry).getD 0,
                             rq, expiry := e }
        modH s1 fun h => { h with mons := h.mons ++ [m] }
  | _, _ => .next s

/-- R154: the event of a monitor's expiry. -/
def execMonitorExpiry (mon : Nat) (s : State) : Out :=
  match s.homes.mons.find? fun m => m.id == mon && m.expiry.any (fun e => e ≤ s.gtick.toNat) with
  | some m => .next (monitorReply s m 2)
  | none => .next s

/-! Generations (R45, R48, R152, R156). -/

/-- R152: every waiter on a line of a frame is removed with CANCELLED, and new requests to it are. -/
def drainFrame (s : State) (frame : Nat) : State :=
  let s1 := modH s fun h => { h with draining := fput h.draining frame true }
  (s1.homes.locks.filter fun p => p.1 / 512 == frame).foldl (fun s p =>
    let q := (lockAt s p.1).queue
    q.foldl (fun s w => lockReply s w.rq 5) (setLock s p.1 { lockAt s p.1 with queue := [] })) s1

/-- R152: the event in which system software asks that a frame's locks drain. -/
def execLockDrainRequest (frame : Nat) (s : State) : Out :=
  enabled s (2 ^ 16 * frame < hbmSize s.part) (drainFrame s frame)

/-- R45, R152: the event in which a raise of a frame's generation begins. -/
def execGenerationRaise (frame : Nat) (s : State) : Out :=
  enabled s (2 ^ 16 * frame < hbmSize s.part && !fget false s.homes.raising frame) <|
    let s1 := drainFrame s frame
    modH s1 fun h => { h with raising := fput h.raising frame true }

/-- R45, R152: a raise may complete: every line of the frame is unlocked, and no home works on a request for one. -/
def raiseReady (s : State) (frame : Nat) : Bool :=
  fget false s.homes.raising frame && (s.homes.locks.all fun p => p.1 / 512 != frame || p.2.holder.isNone) &&
    s.reqs.all fun p => !(p.2.busy && p.2.line / 512 == frame && p.2.mode != 2)

/-- R45: the copies of a line's words that its home does not track, under a lease and on their way in replies, are dropped; those under a
lease after their renewal check, as for an eviction (R96). -/
def dropUntracked (s : State) (line : Nat) : State :=
  let here (w : SWord) : Bool := !w.d && w.bound.any fun b => b.any fun a => a / 128 == line
  let s := (List.range (ncore s.part / 2)).foldl (fun s p => renewalCheck s p line) s
  let s := s.cores.foldl (fun s p => (p.2.swords.filter fun w => here w.2).foldl (fun s w => stashCheck s p.1 w.1) s) s
  let late (q : Req) : Req := if q.line == line && q.kind == .read then { q with stale := true } else q
  let words (c : Core) : FMap SWord :=
    c.swords.filter fun p => !here p.2
  let s2 : State := { s with
    reqs := s.reqs.map fun p => (p.1, late p.2),
    cores := s.cores.map fun p => (p.1, { p.2 with swords := words p.2 }) }
  modH s2 fun h => { h with leases := h.leases.filter fun p => p.1 % 2 ^ 45 != line }

/-- The lines of a frame of which some copy or some directory state exists. -/
def frameLines (s : State) (frame : Nat) : List Nat :=
  let here (l : Nat) : Bool := l / 512 == frame
  let bound (c : Core) : List Nat := c.swords.flatMap fun p => p.2.bound.filterMap fun b => b.map fun a => a / 128
  let dirs : List Nat := s.homes.dir.map fun p => p.1
  let copies : List Nat := s.homes.leases.map fun p => p.1 % 2 ^ 45
  let asked : List Nat := s.reqs.map fun p => p.2.line
  (dirs ++ copies ++ (s.cores.flatMap fun p => bound p.2) ++ asked).dedup.filter here

/-- R45, R152, R156: the event in which a raise completes: broken marks go, the lines are unpinned and recalled, monitors are
removed with CANCELLED, and the frame has its next generation. -/
def execGenerationRaiseComplete (frame : Nat) (s : State) : Out :=
  enabled s (raiseReady s frame) <|
    let lines := frameLines s frame
    let s1 := lines.foldl (fun s l => setLock (modDir s l fun e => { e with pin := false }) l Lock.free) s
    let s2 := lines.foldl (fun s l => dropUntracked (evictDir s l) l) s1
    let s3 := (s2.homes.mons.filter fun m => m.word / 2 ^ 14 == frame).foldl (fun s m => monitorReply s m 5) s2
    let g := genOf s3 (2 ^ 16 * frame) + 1
    let s4 := modH s3 fun h => { h with
      gens := fset 0 h.gens frame g, fmode := fset false h.fmode frame false, raising := fdel h.raising frame, draining := fdel h.draining frame }
    lines.foldl wakeReqs s4

/-- R48: the event in which system software sets a frame's generation. -/
def execGenerationSet (frame : Nat) (gen : BitVec 8) (s : State) : Out :=
  enabled s (2 ^ 16 * frame < hbmSize s.part) <| modH s fun h =>
    { h with gens := fset 0 h.gens frame gen, fmode := fset false h.fmode frame false }

/-- R150: the event in which the context interface clears a broken mark. -/
def execBrokenMarkClear (line : Nat) (s : State) : Out :=
  enabled s ((lockAt s line).broken && (lockAt s line).holder.isNone) <|
    let s1 := setLock s line Lock.free
    wakeReqs (modDir s1 line fun e => { e with pin := false }) line

end Sys2Proof.Machine
end

