-- ==== Sys2Proof/Machine/Dispatcher.lean ====
section
/-!
DEFINITION. The dispatcher, partition changes, the relaunch engine, the role rebalancer, the successor's reads, the action of
`launch` and the exchange tables (R53 to R60, R76, R197 to R204, R267 to R269, R292, R293).
-/
namespace Sys2Proof.Machine

/-! Launch queues (R197). -/

/-- R197: the event in which system software registers a launch queue. -/
def execQueueRegister (q : Nat) (ctx : BitVec 12) (cores : List Nat) (cb : Nat) (s : State) : Out :=
  let x : Queue := { ctx, cores, cb, eligible := false, current := none, last := none }
  enabled s (q < 64 && cb % 64 == 0 && cb + 64 ≤ hbmSize s.part) { s with queues := fput s.queues q x }

/-- The control block's fields (R197). -/
def qHead (s : State) (q : Queue) : Nat := queueWord s q 64 32
def qTail (s : State) (q : Queue) : Nat := queueWord s q 96 32
def qPrio (s : State) (q : Queue) : Nat := queueWord s q 60 3
def qServed (s : State) (q : Queue) : Bool := queueWord s q 63 1 == 1 && qHead s q != qTail s q && (getX s q.ctx).live
def qDesc (s : State) (q : Queue) (i : Nat) : Nat := queueWord s q 0 56 + 64 * (i % 2 ^ queueWord s q 56 4)

/-- What the dispatcher finds at HEAD: a descriptor with its header, or a refusal (R199; log 29). -/
inductive Head where
  | refused
  | ok (d : Desc) (h : Header)
  deriving DecidableEq, Repr

/-- R179, R198, R199: a descriptor and its header, read under a context. -/
def readHead (s : State) (ctx : BitVec 12) (va : Nat) : Head :=
  match readVirtNat s ctx va 64 with
  | .error _ => .refused
  | .ok x => match parseDesc x (virtTag s ctx (va + 16)) (virtTag s ctx (va + 32)) with
    | none => .refused
    | some d => match readVirtNat s ctx d.hdr.toNat 64 with
      | .error _ => .refused
      | .ok y => match parseHeader y with
        | some h => if d.hdr.toNat % 64 = 0 && dispatchOk d h then .ok d h else .refused
        | none => .refused

/-- R199: whether the wait counter of a descriptor has reached its value. -/
def counterMet (s : State) (ctx : BitVec 12) (d : Desc) : Bool :=
  d.waita == 0 || match readVirtNat s ctx d.waita.toNat 4 with
    | .ok x => d.waitv.toNat ≤ x
    | .error _ => false

/-- R46: whether what the dispatcher reads of a descriptor, its header and its wait counter is translated under the generations that the
frames have; else it reads them later. -/
def headFresh (s : State) (ctx : BitVec 12) (va : Nat) : Bool :=
  framesFresh s ctx va 64 && match readHead s ctx va with
    | .ok d _ => framesFresh s ctx d.hdr.toNat 64 && framesFresh s ctx d.waita.toNat 4
    | .refused => match readVirtNat s ctx va 64 with
      | .ok x => framesFresh s ctx (x % 2 ^ 56) 64
      | .error _ => true

/-- R199: whether the previous dispatch of a queue has completed. -/
def previousDone (s : State) (q : Queue) : Bool := q.last.all fun d => (ffind s.disps d).all fun x => x.done

/-- R199: the event in which the dispatcher reads the counter that the head of a queue waits for. -/
def execWaitCounterPoll (q : Nat) (s : State) : Out :=
  match ffind s.queues q with
  | none => .next s
  | some x =>
    enabled s (qServed s x && headFresh s x.ctx (qDesc s x (qHead s x))) <|
      match readHead s x.ctx (qDesc s x (qHead s x)) with
      | .ok d _ => if counterMet s x.ctx d then { s with queues := fput s.queues q { x with eligible := true } } else s
      | .refused => s

/-- R199: whether the head of a queue is to be served: it is refused, its dispatch is in progress, or it is eligible. -/
def headServed (s : State) (q : Queue) : Bool :=
  qServed s q && headFresh s q.ctx (qDesc s q (qHead s q)) && match readHead s q.ctx (qDesc s q (qHead s q)) with
    | .refused => true
    | .ok d _ => q.current.isSome || ((q.eligible || d.waita == 0) && (!d.serial || previousDone s q))

/-- R199: the queues whose heads are of the highest priority among those to be served, in ascending order after the one that the
dispatcher served last. -/
def pickQueues (s : State) : List (Nat × Queue) :=
  let cand := s.queues.filter fun p => headServed s p.2
  let top := (cand.map fun p => qPrio s p.2).foldl max 0
  let l := cand.filter fun p => qPrio s p.2 == top
  (l.filter fun p => s.served < p.1) ++ l.filter fun p => p.1 ≤ s.served

/-- The control block's HEAD advances (R197, R199). -/
def advanceHead (s : State) (n : Nat) (q : Queue) : State :=
  devWriteLe { s with queues := fput s.queues n { q with eligible := false, current := none } } (q.cb + 8) 4 ((qHead s q + 1) % 2 ^ 32)

/-- R199, R269, R361: the deferred event LAUNCH_FORM. -/
def launchForm (s : State) (n : Nat) (ctx : BitVec 12) (idx addr code : Nat) : State :=
  addFault s { faultRec s ctx .launchForm true with
    cseq := BitVec.ofNat 16 n, arg := BitVec.ofNat 32 idx, addr, sub := BitVec.ofNat 8 code }

/-! Partition changes (R54 to R60). -/

/-- The role that a granule has under a layout (R55). -/
def layoutRole (x g : Nat) : Nat := if g < fld x 0 7 then 2 else if g < fld x 0 7 + fld x 8 7 then 1 else 3

/-- R58: what the sets of a core's half of the pair cache that lie in a granule hold is written back and dropped. -/
def flushGranule (s : State) (core g : Nat) : State :=
  let pair := pairOf core
  let keys := (List.range 32).map fun i => 2 ^ 20 * core + (32 * (95 - g) + i)
  let lines := keys.flatMap fun k => (fget [] s.homes.psets k).map fun w => w.line
  let s1 := lines.foldl (fun s l => pairEvict (renewalCheck s pair l) pair l) s
  modH s1 fun h => { h with psets := h.psets.filter fun p => !keys.contains p.1 }

/-- R57, R58: a partition change starts: LSPART takes the layout, and each granule whose role differs is to move. -/
def startChange (s : State) (core x : Nat) : State :=
  let c := getC s core
  let moving := (List.range 96).filter fun g => roleAt c g != layoutRole x g
  modC s core fun c => { c with
    stashG := fld x 0 7, regG := fld x 8 7, cacheG := fld x 16 7, pend := !moving.isEmpty, moved := 0, tomove := moving.length,
    start := BitVec.truncate 32 s.gtick,
    roles := moving.foldl (fun m g => fput m g (BitVec.ofNat 2 (roleAt (getC s core) g))) [] }

/-- R58: whether a granule that is to move has drained: of a stash granule, every fill into it, and into the lines that mapping entries lose
with it (R69), has completed. -/
def drained (s : State) (core g : Nat) : Bool :=
  match roleAt (getC s core) g with
  | 1 => (resident s core).all fun p => p.2.slots.all fun k => k / 2 != g
  | 2 =>
    let cut (m : MapEntry) : Option (Nat × Nat) :=
      if g * 512 < m.sbase + m.slen && m.sbase < g * 512 + 512 then some (128 * max (g * 512) m.sbase, (entryBytes m).2) else none
    ((tasksOn s core).all fun p => !(p.2.gbase ≤ g && g < p.2.gbase + p.2.ngran)) &&
      !fillsIn s core ((65536 * g, 65536 * (g + 1)) :: (getC s core).maps.filterMap fun p => cut p.2)
  | _ => true

/-- R58: the granule that moves next. -/
def nextMove (s : State) (core : Nat) : Option Nat :=
  ((List.range 96).filter fun g => (ffind (getC s core).roles g).isSome).find? (drained s core)

/-- R58: what is done as a granule leaves the stash role. -/
def leaveStash (s : State) (core g : Nat) : State :=
  let lo := 65536 * g
  let line := g * 512
  let s2 := (getC s core).maps.foldl (fun s p =>
    if line < p.2.sbase + p.2.slen && p.2.sbase < line + 512 then cutEntry s core p.1 (max line p.2.sbase) else s) s
  modC (clearWords s2 core lo (lo + 65536)) core fun c => { c with
    stash := c.stash.filter (fun p => p.1 / 65536 != g), stags := c.stags.filter (fun p => p.1 / 4096 != g),
    gowner := fset 0 c.gowner g 0 }

/-- R58: the event in which a drained granule takes its new role; the last one completes the change. A granule that takes the register role
gives each lane slots, and waiting claims that now fit are granted (R171). -/
def execGranuleRoleMove (core granule : Nat) (s : State) : Out :=
  enabled s (nextMove s core == some granule) <|
    let s1 := match roleAt (getC s core) granule with
      | 2 => leaveStash s core granule
      | 3 => flushGranule s core granule
      | _ => s
    let s2 := modC s1 core fun c =>
      let roles := fdel c.roles granule
      { c with roles, moved := c.moved + 1, pend := !roles.isEmpty }
    if targetRole (getC s2 core) granule ≠ 1 then s2
    else (List.range 256).foldl (fun s l => grantClaims s core l 256) s2

/-! Placement (R76, R200, R223, R400). -/

/-- The cores in the order of R200: ascending after the pointer, wrapping. -/
def coreOrder (s : State) : List Nat :=
  (List.range (ncore s.part)).map fun i => (s.pointer + 1 + i) % ncore s.part

/-- R200: a task's allocation on a core, where its layout, its granules and its tiles are to be had. -/
def allocate (s : State) (core : Nat) (h : Header) : Option (Nat × List Nat) :=
  if !(h.lsreq == 0 || h.lsreq == lspart (getC s core)) then none else
  match findGranules s core h.sgr, findTiles s core h.tsl with
  | some b, some ts => some (b, ts)
  | _, _ => none

/-- R200: the next task of a dispatch as it would be on a core: the state with it, if it fits there. -/
def placeOn (s : State) (disp : Nat) (d : Dispatch) (prio : Nat) (core : Nat) : Option State :=
  match allocate s core d.hdr with
  | none => none
  | some (b, ts) =>
    let n := min (taskSize d.hdr) (d.desc.ng - d.next)
    let (t, s1) := fresh s
    let task : Task := { Task.none with
      ctx := d.ctx, core, disp, queue := d.queue, prio := BitVec.ofNat 3 prio, hdr := d.hdr, codec := d.desc.codec, argc := d.desc.argc,
      gbase := b, ngran := d.hdr.sgr, tiles := ts, ngroups := n, first := d.next, since := s.gtick.toNat }
    let s2 := handOver s1 core d.ctx (65536 * b) (65536 * (b + d.hdr.sgr))
    let s3 := setT s2 t task
    if handOverWaits s core d.ctx (65536 * b) (65536 * (b + d.hdr.sgr)) || !groupsFit s3 t then none else
    let d1 := { d with next := d.next + n, live := d.live + 1, placed := d.next + n == d.desc.ng }
    let s4 := preloadTids (placeGroups { s3 with disps := fput s3.disps disp d1, pointer := core } t 64) t 0 d.hdr.tidn
    some s4

/-- R200: the next task of a dispatch is placed on the first core that takes it. -/
def placeTask (s : State) (disp : Nat) (q : Queue) (prio : Nat) : Option State :=
  match ffind s.disps disp with
  | none => none
  | some d => if !tidsFresh s d.ctx d.hdr then none else ((coreOrder s).filter fun c => q.cores.contains c).findSome? (placeOn s disp d prio)

/-- R57: the core on which the dispatcher starts a partition change for a layout that no core of the mask has: the first in the
order of R200 without a change pending. -/
def changeCore (s : State) (q : Queue) (h : Header) : Option Nat :=
  if h.lsreq = 0 then none else
  let mask := (coreOrder s).filter fun c => q.cores.contains c
  if mask.any fun c => lspart (getC s c) == h.lsreq then none else mask.find? fun c => !(getC s c).pend

/-- R199, R200: one service of the head of a queue: a refusal, a task placed, or a partition change started; none when the dispatch
waits at the head. -/
def serveHead (s : State) (n : Nat) (q : Queue) : Option State :=
  let idx := qHead s q
  let va := qDesc s q idx
  match readHead s q.ctx va with
  | .refused => some (launchForm (advanceHead s n q) n q.ctx idx va 0)
  | .ok d h =>
    let (id, s1) := match q.current with
      | some id => (id, s)
      | none =>
        let (id, s1) := fresh s
        let new : Dispatch := { queue := n, ctx := q.ctx, desc := d, hdr := h, next := 0, live := 0, placed := false, done := false }
        (id, { s1 with disps := fput s1.disps id new })
    let q1 := { q with current := some id }
    match placeTask s1 id q (qPrio s q) with
    | some s2 =>
      let s3 := { s2 with queues := fput s2.queues n q1 }
      if (ffind s3.disps id).any fun d => d.placed then some (advanceHead s3 n { q1 with last := some id }) else some s3
    | none => (changeCore s q h).map fun c => startChange s c h.lsreq.toNat

/-- R199: the event in which the dispatcher serves a head. Heads of the highest priority are served in turn; one that waits for a
core leaves the turn to the next, and lower priorities wait. -/
def execDispatcherServe (s : State) : Out :=
  match (pickQueues s).findSome? fun p => serveHead { s with served := p.1 } p.1 p.2 with
  | some s1 => enabled s (!frozen s) s1
  | none => .next s

/-! Completion of a dispatch (R201). -/

/-- R201, R266: whether a dispatch is complete: its tasks are over, and neither a command nor a record of its groups is left; its groups'
accesses are performed, since the increment is a release, and their FIFO entries have retired. -/
def dispatchOver (s : State) (disp : Nat) (d : Dispatch) : Bool :=
  let mine (uid : Nat) : Bool := (getG s uid).disp == disp
  d.placed && d.live == 0 && !d.done && !(s.cmds.any fun p => mine p.2.uid) && !(s.records.any fun r => mine r.uid) &&
    !(s.cores.any fun c => c.2.fifo.any fun e => mine e.uid) &&
    s.groups.all fun p => p.2.disp != disp || (p.2.ended && p.2.ops.isEmpty)

/-- R46, R86, R94, R144, R422: whether the homes of a range of virtual addresses take a write by an agent that has no core, at once: its
translation has the generation of the frame, no earlier request and no lock holds it back, and its timestamp needs no hold. -/
def writeOpen (s : State) (ctx : BitVec 12) (a : Acc) (va n : Nat) : Bool :=
  match xlateNow s ctx a va with
  | .error _ => true
  | .ok l =>
    let pa := leafPa l va
    l.mode = 2 || (framesFresh s ctx va n && (runOf pa n).all fun line =>
      homeOpen s line (runMask pa n) l.gen && (lockAt s line).holder.isNone && (dirRoom s line).isSome &&
        (l.mode = 0 || !leaseHeld s line (eclk s)))

/-- R201: the increment of a completion counter, as an atomic add. -/
def countDone (s : State) (ctx : BitVec 12) (a : Nat) (sig : Bool) : State :=
  if a = 0 then s else
  match xlateNow s ctx (.atomic false) a with
  | .error c => addFault s { faultRec s ctx c true with addr := a }
  | .ok l =>
    let pa := leafPa l a
    if l.mode = 2 then { s with host := writeLe s.host pa 4 (readLe s.host pa 4 + 1) }
    else
      let s1 := devWriteMode s noBy l.mode l.mbf (eclk s) pa (leBytes (visLe s pa 4 + 1) 4)
      if sig then wakeMonitors s1 (pa / 4) else s1

/-- R197, R201: where the completion counter of a dispatch stands: DONEA of its queue's control block. -/
def doneAddr (s : State) (d : Dispatch) : Nat := match ffind s.queues d.queue with | some q => queueWord s q 128 56 | none => 0

/-- R201: whether the home of a dispatch's completion counter performs the increment. -/
def doneOpen (s : State) (d : Dispatch) : Bool := doneAddr s d = 0 || writeOpen s d.ctx (.atomic false) (doneAddr s d) 4

/-- R201: the event in which a dispatch completes. Its groups leave the device. -/
def execDispatchComplete (disp : Nat) (s : State) : Out :=
  match ffind s.disps disp with
  | none => .next s
  | some d =>
    enabled s (dispatchOver s disp d && doneOpen s d) <|
      let s1 := { s with disps := fdel s.disps disp, groups := s.groups.filter fun p => p.2.disp != disp }
      countDone s1 d.ctx (doneAddr s d) d.desc.sig

/-! Relaunch (R203). -/

/-- R203: the lane position for the group that blocks or goes next, none while it does not fit. -/
def relaunchSlot (s : State) (core : Nat) : Option (Record × Nat) :=
  if frozen s then none else (relaunchHead s core).bind fun r =>
    let g := getG s r.uid
    (findLane s core g.nNames (heldH g)).map fun k => (r, k)

/-- R203: the event in which the relaunch engine of a core admits a group. -/
def execRelaunchStep (core : Nat) (s : State) : Out :=
  match relaunchSlot s core with
  | none => .next s
  | some (r, k) =>
    let g := getG s r.uid
    let s := match logNext s g.ctx 1 core with | some x => logTake s g.ctx x | none => s
    .next (admitGroup (replogAdd s g.ctx 1 core 0 (g.gid.toNat + 2 ^ 32 * r.dseq.toNat)) r.uid k)

/-- R203: the event CONT_STALL, once for each blocking. -/
def execContStall (core : Nat) (s : State) : Out :=
  let c := getC s core
  match c.blocked with
  | none => .next s
  | some (u, t) =>
    enabled s (!c.stalled && t + 65536 ≤ cycleOf s core) <|
      addFault (modC s core fun c => { c with stalled := true }) (faultRecG s (getG s u) .contStall true)

/-! The role rebalancer (R204). -/

/-- R204: O, the full slots of a task's rings from the copy role to the matrix role. -/
def fullSlots (t : Task) : Nat :=
  ((t.rings.filter fun p => p.2.prod == 1 && p.2.cons == 2).map fun p => (p.2.slots.filter fun x => x == .f).length).sum

/-- The groups of a task in a role. -/
def inRole (s : State) (t : Nat) (role : BitVec 2) : List Group :=
  (s.groups.filter fun p => p.2.task == t && p.2.role == role && !p.2.ended).map fun p => p.2

/-- R204: whether each of a task's timers runs: O below RBTHRESH, and O at or above RBHIGH. -/
def lowNow (s : State) (t : Nat) : Bool := fullSlots (getT s t) < s.rbthresh && 2 ≤ (inRole s t 2).length
def highNow (s : State) (t : Nat) : Bool := s.rbhigh ≤ fullSlots (getT s t) && 2 ≤ (inRole s t 1).length

/-- R204: the group chosen for a change: of highest TASKG among those whose record waits on a ring phase, else in the role. -/
def chooseGroup (s : State) (t : Nat) (role : BitVec 2) : Option (BitVec 6) :=
  let l := inRole s t role
  let onRing (g : Group) : Bool := (recordsOf s g.uid).any fun r => match r.cond with | .ring _ _ _ => true | _ => false
  let best (l : List Group) : Option (BitVec 6) :=
    l.foldl (fun b g => match b with | some k => if k.toNat < g.taskg.toNat then some g.taskg else b | none => some g.taskg) none
  match best (l.filter onRing) with
  | some k => some k
  | none => best l

/-- R204: the change that a task's timers bring about. -/
def roleChange (s : State) (t : Nat) : Option (BitVec 6 × BitVec 2) :=
  let x := getT s t
  let long (since : Option Nat) : Bool := since.any fun b => b + s.rbtime ≤ cycleOf s x.core
  if !x.hdr.pipe || x.pendRole.isSome || ctxHalted s x.ctx || !(x.rbSince == 0 || x.rbSince + 4096 ≤ cycleOf s x.core) then none
  else if long x.loSince && lowNow s t then (chooseGroup s t 2).map fun k => (k, 1)
  else if long x.hiSince && highNow s t then (chooseGroup s t 1).map fun k => (k, 2)
  else none

/-- R204: the event in which a role change becomes pending. -/
def execRebalancePending (task : Nat) (s : State) : Out :=
  match roleChange s task with
  | some c => .next (modT s task fun t => { t with pendRole := some c })
  | none => .next s

/-! The successor's reads (R267). -/

/-- R267: the scalars that the slot made empty are filled with their unchanged values. -/
def succFill (s : State) (t : Nat) : State :=
  let ws := (getT s t).succWait
  ws.foldl (fun s w => modG s w.1 fun g => { g with sEmpty := withBit g.sEmpty w.2.2.toNat false })
    (modT s t fun x => { x with succWait := [] })

/-- R267: a read of the slot faults: the group that started it takes the fault at its `exit.succ`. -/
def succFails (s : State) (t : Nat) (c : Cause) (va : Nat) : State :=
  let told := match (getT s t).succWait with
    | (u, k, _) :: _ => modG s u fun g => modF g k fun f => { f with walked := f.walked ++ [.fail (2 ^ 56 + va) c] }
    | [] => s
  modT (succFill told t) t fun x => { x with succ := .none }

/-- R364: a read of the slot meets an uncorrectable error: the group that started it never issues again. -/
def succErr (s : State) (t : Nat) (va : Nat) : State :=
  let s1 := match (getT s t).succWait with
    | (u, _, _) :: _ => addFault (modG s u fun g => { g with poisoned := true }) { faultRecG s (getG s u) .memErr true with addr := va }
    | [] => s
  modT (succFill s1 t) t fun x => { x with succ := .none }

/-- R46: whether the descriptor that a slot names, and its header, are translated under the generations that their frames have. -/
def succFresh (s : State) (ctx : BitVec 12) (a : Nat) : Bool :=
  framesFresh s ctx a 64 && match readVirt s ctx .load a 64 with
    | .ok bs => framesFresh s ctx (leNat bs % 2 ^ 56) 64
    | .error _ => true

/-- R267: the event in which the reads of the successor's descriptor and header complete: the header is read at HDR whatever else the
descriptor holds. A task that has ended meanwhile is over (R268). -/
def execSuccReadComplete (task : Nat) (s : State) : Out :=
  let t := getT s task
  match t.succ with
  | .reading a =>
    enabled s (succFresh s t.ctx a.toNat) <| (fun s => endTask s task) <|
      match readVirt s t.ctx .load a.toNat 64 with
      | .error (c, va) => succFails s task c va
      | .ok bs =>
        if virtErr s t.ctx a.toNat 64 then succErr s task a.toNat else
        let hdr := leNat bs % 2 ^ 56
        match readVirt s t.ctx .load hdr 64 with
        | .error (c, va) => succFails s task c va
        | .ok hs =>
          if virtErr s t.ctx hdr 64 then succErr s task hdr else
          let read (ok : Bool) (d : Desc) (h : Header) : State :=
            modT (succFill s task) task fun x => { x with succ := .read a ok d h }
          match parseDesc (leNat bs) (virtTag s t.ctx (a.toNat + 16)) (virtTag s t.ctx (a.toNat + 32)), parseHeader (leNat hs) with
          | some d, some h => read true d h
          | _, _ => read false Desc.zero Header.zero
  | _ => .next s

/-! The action of `launch` (R269). -/

/-- R269: the copy of a descriptor with its tags: the state, or the fault code and its address. -/
def launchCopy (s : State) (by_ : By) (ctx : BitVec 12) (src dst : Nat) : Except (Nat × Nat) State :=
  match readVirtNat s ctx src 64, xlateNow s ctx .store dst with
  | .error e, _ => .error e
  | .ok _, .error c => .error (causeCode c, dst)
  | .ok x, .ok l =>
    let pa := leafPa l dst
    if l.mode = 2 then .ok { s with host := writeLe s.host pa 64 x }
    else if errIn s pa 64 then .error (0x7A, dst)
    else
      let s1 := devWriteMode s by_ l.mode l.mbf (eclk s) pa (leBytes x 64)
      .ok ((List.range 4).foldl (fun s' k => if l.tags && virtTag s ctx (src + 16 * k) then setTag s' (pa + 16 * k) true else s') s1)

/-- R46, R94, R269: whether the copy that a `launch` makes can be made at once. -/
def launchOpen (s : State) (q : Req) : Bool :=
  match q.kind with
  | .launch n => (ffind s.queues n).all fun x =>
    (q.pieces.head?.all fun p => framesFresh s q.ctx p.shown 64) && writeOpen s q.ctx .store (qDesc s x (qTail s x)) 64
  | _ => false

/-- R269: the event of the action at the home of the queue's control block. -/
def execLaunchAction (rq : Nat) (s : State) : Out :=
  let q := getR s rq
  match q.kind, q.pieces with
  | .launch n, p :: _ =>
    enabled s (q.id == rq && rq != 0 && launchOpen s q) <|
      let reply (s : State) (r : Nat) : State := answer s rq [(0, BitVec.ofNat 64 r)]
      match ffind s.queues n with
      | none => reply s (2 ^ 64 - 2)
      | some x =>
        let tail := qTail s x
        if (tail + 2 ^ 32 - qHead s x) % 2 ^ 32 == 2 ^ queueWord s x 56 4 then reply s (2 ^ 64 - 1) else
        match launchCopy s (2, q.core) q.ctx p.shown (qDesc s x tail) with
        | .ok s1 => reply (devWriteLe s1 (x.cb + 12) 4 ((tail + 1) % 2 ^ 32)) tail
        | .error (c, a) => reply (launchForm s n q.ctx tail a c) (2 ^ 64 - 2)
  | _, _ => .next s

/-! The exchange tables (R292, R293). -/

/-- The parts of an exchange request. -/
def xchg (q : Req) : BitVec 32 × Nat × BitVec 6 × List Word × Word :=
  match q.kind with
  | .exchange key partner vd vals mask => (key, partner, vd, vals, mask)
  | _ => (0, 0, 0, [], 0)

/-- R293: whether a waiting request matches one that arrives. -/
def exchanges (r q : Req) : Bool :=
  r.ctx == q.ctx && (xchg r).1 == (xchg q).1 && r.core == (xchg q).2.1 && (xchg r).2.1 == q.core

/-- R292: one side of a match: the threads of both sets take the other's values, and the side's PC moves past the `xshf`. -/
def exchangeSide (s : State) (q other : Req) : State :=
  let (_, _, vd, _, mine) := xchg q
  let (_, _, _, vals, theirs) := xchg other
  let both := mine &&& theirs
  let put (g0 : Group) : Group :=
    let g := dropSlot g0 (xshfKey (reqOp q))
    if both = 0 then g else
    putV g vd.toNat (.g ((List.range 32).map fun t => if both.getLsbD t then vals.getD t 0 else vAt (vReg g vd.toNat) t))
  let move (r : Record) : Record := if r.uid == reqUid q && r.frag == reqOp q then { r with pc := r.pc + 4 } else r
  let s1 := modG s (reqUid q) fun g =>
    { modF (put g) (reqOp q) (fun f => { f with pc := f.pc + 4 }) with stuck := g.stuck.map move }
  traceDone (delR { s1 with records := s1.records.map move } q.id) q.core (2 ^ 61 + q.id)

/-- R293: freed entries go to the held requests in the order of their first arrival: those that find room are sent again. -/
def resendHeld (s : State) (core : Nat) : State :=
  let c := getC s core
  pushAll s (((c.xheld.take (64 - c.xtable.length)).map Event.xshfRequestArrival).filter fun e => !s.agenda.contains e)

/-- R293: the event in which an exchange request reaches its table: it matches a waiting entry, or takes an entry when there is one that no
request held before it is to have. -/
def execXshfRequestArrival (rq : Nat) (s : State) : Out :=
  let q := getR s rq
  let core := min q.core (xchg q).2.1
  let isX := match q.kind with | .exchange _ _ _ _ _ => true | _ => false
  enabled s (q.id == rq && rq != 0 && isX && !((getC s core).xtable.any fun e => e.rq == rq)) <|
    let leave (s : State) : State := modC s core fun c => { c with xheld := c.xheld.filter fun x => x != rq }
    let c := getC s core
    match c.xtable.find? fun e => exchanges (getR s e.rq) q with
    | some e =>
      let s1 := modC (leave s) core fun c => { c with xtable := c.xtable.filter fun x => x.rq != e.rq }
      resendHeld (exchangeSide (exchangeSide s1 (getR s e.rq) q) q (getR s e.rq)) core
    | none =>
      if c.xtable.length + (c.xheld.takeWhile fun x => x != rq).length < 64 then
        resendHeld (modC (leave s) core fun c => { c with xtable := c.xtable ++ [{ rq, since := s.gtick.toNat, stale := false }] }) core
      else if c.xheld.contains rq then s
      else modC s core fun c => { c with xheld := c.xheld ++ [rq] }

/-- R293: whether an entry has waited 2^24 ticks and has not been told. -/
def xStale (s : State) (e : XEntry) : Bool := !e.stale && e.since + 2 ^ 24 ≤ s.gtick.toNat

/-- R293: the event XSHF_STALE of a waiting group. -/
def execXshfStale (core uid : Nat) (s : State) : Out :=
  match (getC s core).xtable.find? fun e => reqUid (getR s e.rq) == uid && xStale s e with
  | none => .next s
  | some e =>
    let s1 := modC s core fun c => { c with xtable := c.xtable.map fun x => if x.rq == e.rq then { x with stale := true } else x }
    .next (raiseDeferred s1 uid { cause := .xshfStale, xf0 := 0, xf1 := 0, xf2 := 0 } (faultRecG s (getG s uid) .xshfStale true))

/-- R294: the waiting entries of a group are removed; its records execute the `xshf` again. Entries that become free go to held requests
(R293). -/
def dropExchanges (s : State) (uid : Nat) : State :=
  let mine (rq : Nat) : Bool := reqUid (getR s rq) == uid
  let ids := (s.reqs.filter fun p => reqUid p.2 == uid && (match p.2.kind with | .exchange _ _ _ _ _ => true | _ => false)).map
    fun p => p.1
  let clean (c : Core) : Core := { c with xtable := c.xtable.filter (fun e => !mine e.rq), xheld := c.xheld.filter fun r => !mine r }
  let s1 := { s with cores := s.cores.map fun p => (p.1, clean p.2) }
  let aside (g : Group) : Group := { g with gslot := g.gslot.filter fun p => p.1 < 64 }
  let s2 := ids.foldl (fun s r => traceDone (delR s r) (getG s uid).core (2 ^ 61 + r)) (if ids.isEmpty then s1 else modG s1 uid aside)
  if ids.isEmpty then s2 else s2.cores.foldl (fun s p => resendHeld s p.1) s2

end Sys2Proof.Machine
end

