-- ==== Sys2Proof/Machine/Paging.lean ====
section
/-!
DEFINITION. The events of translation: the root table, shootdowns, walks that return, translation registers, the lease clock, and
requests that are translated again (R28, R36 to R46, R49 to R51, R92).
-/
namespace Sys2Proof.Machine

/-- R28: the event in which system software sets a context's root table, by which the context is live. -/
def execSetRootTable (ctx : BitVec 12) (pa : BitVec 52) (s : State) : Out :=
  enabled s (pa.toNat % 8192 == 0 && !inRecovery s) <| modX s ctx fun x => { x with root := pa, live := true }

/-- R43: the event of a shootdown: no TLB, no answer of a walk that a fragment keeps, and no answer on its way to a translation register
holds an entry of a page with a byte of the range; the last is walked again. -/
def execTlbShootdown (ctx : BitVec 12) (lo hi : Nat) (s : State) : Out :=
  let page (base n : Nat) : Bool := 2 ^ 16 * base < hi && lo < 2 ^ 16 * (base + n)
  let keep (t : TlbEntry) : Bool := !(t.ctx == ctx && page t.vbase (if t.leaf.sz then 512 else 1))
  let old (w : Walked) : Bool := match w with | .leaf p l => page p 1 || (l.sz && page (p / 512 * 512) 512) | .fail p _ => page p 1
  let calm (f : Split) : Split := { f with walked := f.walked.filter fun w => !old w }
  let late (w : Walk) : Bool := w.ctx == ctx && w.done.any old && match w.why with | .xwreg _ _ _ => true | _ => false
  enabled s (lo < hi) <|
    pushAll { s with
      cores := s.cores.map fun p => (p.1, { p.2 with tlb := p.2.tlb.filter keep }),
      groups := s.groups.map fun p => if p.2.ctx == ctx then (p.1, { p.2 with split := p.2.split.map fun f => (f.1, calm f.2) }) else p,
      walks := s.walks.map fun p => if late p.2 then (p.1, { p.2 with done := none }) else p }
      ((s.walks.filter fun p => late p.2).map fun p => Event.pageWalkComplete p.1)

/-- R92: what every core does at a tick at which ECLK changes. -/
def eclkEffect (s : State) : State :=
  (List.range (ncore s.part)).foldl (fun s c => raisePts s c (eclk s)) s

/-- R92: the event of a change of ECLK. -/
def execEclkAdvance (s : State) : Out := enabled s (s.gtick.toNat % 1024 == 0) (eclkEffect s)

/-! Translation registers (R38 to R41). -/

/-- R38, R39: a translation register as a walk's answer loads it. -/
def loadedXw (s : State) (ctx : BitVec 12) (creg : BitVec 4) (va top : Nat) (l : Leaf) : XW :=
  let page := 2 ^ 16 * (leafPage l va).1
  let end_ := page + 2 ^ 16 * (leafPage l va).2
  { valid := true, creg, sz := l.sz, rights := BitVec.ofNat 4 (l.r.toNat + l.w.toNat * 2 + l.a.toNat * 4 + l.l.toNat * 8),
    mode := l.mode, mbf := l.mbf, gen := l.gen, limit := BitVec.ofNat 26 (min end_ top - page),
    pframe := BitVec.ofNat 36 (l.base / 2 ^ 16), vpage := BitVec.ofNat 40 (page / 2 ^ 16),
    expiry := BitVec.ofNat 32 (s.gtick.toNat + (getX s ctx).xlease.toNat) }

/-- R39: the event in which the translation of an `xbind` arrives. A fault leaves the register invalid. The spec does not say what a write
of the capability register before the arrival does: the model loads the register where the capability that then stands there covers the
address, with LIMIT from its top, and leaves it invalid where it does not (log 101). -/
def execXwLoad (uid n : Nat) (s : State) : Out :=
  match s.walks.find? fun p => p.2.done.isSome && (match p.2.why with | .xwreg u k _ => u == uid && k == n | _ => false) with
  | none => .next s
  | some (id, w) =>
    let g := getG s uid
    let s1 := { s with walks := fdel s.walks id }
    match w.why, w.done with
    | .xwreg _ _ creg, some (.leaf _ l) =>
      (match capDecode (cReg g creg) with
      | some (lo, hi) =>
        .next <| if g.slot.isSome && (cReg g creg).tag && lo ≤ w.va && w.va < hi then
          setG s1 uid { g with xw := fset XW.zero g.xw n (loadedXw s w.ctx creg w.va hi l) } else s1
      | none => .next s1)
    | _, _ => .next s1

/-- R41: a translation register whose lease ends at this tick. -/
def xwEnds (s : State) (x : XW) : Bool := x.valid && x.expiry == BitVec.truncate 32 s.gtick

/-- R41: the event in which the lease of a translation register ends. -/
def execXwLeaseExpiry (uid n : Nat) (s : State) : Out :=
  let g := getG s uid
  let x := fget XW.zero g.xw n
  enabled s (xwEnds s x) <| setG s uid { g with xw := fset XW.zero g.xw n { x with valid := false } }

/-- R41: every translation register whose lease ends at this tick. -/
def expireXw (s : State) : State :=
  { s with groups := s.groups.map fun p =>
    (p.1, { p.2 with xw := p.2.xw.map fun x => if xwEnds s x.2 then (x.1, { x.2 with valid := false }) else x }) }

/-! Requests translated again (R46, R48). -/

/-- The kind of access of a request. -/
def reqAcc (q : Req) : Acc :=
  match q.kind with
  | .read | .capRead => .load
  | .atomic _ f => .atomic f
  | .rowAtomic f => .rowAtomic f
  | .lock _ _ | .unlock | .stat => .lock
  | .monitor _ _ => .monitor
  | _ => .store

/-- The kind of access that a fault record names (R50). -/
def reqAccKind (q : Req) : AccKind :=
  match reqAcc q with
  | .load | .monitor => .load
  | .atomic _ | .rowAtomic _ => .atomic
  | .lock => .lock
  | _ => .store

/-- The FIFO entries of an operation take the lines of the pieces in their new places. -/
def moveFifo (s : State) (core0 uid op : Nat) (old nw : List Nat) : State :=
  let core := fifoCore s core0 uid op
  modC s core fun c => { c with fifo := c.fifo.map fun e =>
    if e.uid == uid && e.op == op && !e.marker then
      { e with line := (((old.zip nw).find? fun x => x.1 == e.line).map fun x => x.2).getD e.line } else e }

/-- R46: a request goes to the place that a new leaf gives it. The capability register of a `cld`, which a fault had left full, is empty
again (R310). -/
def resend (s : State) (q : Req) (l : Leaf) : State :=
  let mv (p : Piece) : Piece :=
    { p with place := leafPa l p.shown % 2 ^ 52, space := if l.mode = 2 then 3 else 0, gen := l.gen, mode := l.mode, mbf := l.mbf }
  let ps := q.pieces.map mv
  let line := ((ps.map fun p => p.place).headD 0) / 128
  let kind : ReqKind := match q.kind with | .own => if l.mode = 0 then .own else .write | k => k
  let q1 := { q with pieces := ps, line, kind, gen := l.gen, mode := l.mode, mbf := l.mbf, busy := false, stale := false }
  let u := reqUid q
  let g0 := getG s u
  let g := match (opOf g0 (reqOp q)).map fun o => (o.kind, o.dst) with
    | some (.capLoad _, d) => setEmpty g0 d true
    | _ => g0
  let g1 := modOp g (reqOp q) fun o => { o with pieces := o.pieces.map fun p => if q.pieces.contains p then mv p else p }
  let g2 := { g1 with locks := g1.locks.map fun e => if e.op == reqOp q && e.line == q.line then { e with line, gen := l.gen } else e }
  let move (r : Record) : Record := if r.uid != u then r else match r.cond with
    | .lockWait x => if x == q.line && line != x then { r with cond := .lockWait line } else r
    | .monitor a => if q.pieces.any fun p => p.place == a then
        { r with cond := .monitor ((ps.map fun p => p.place).headD 0) } else r
    | _ => r
  let s1 := moveFifo (setG s u g2) q.core u (reqOp q) (q.pieces.flatMap fifoKeys) (ps.flatMap fifoKeys)
  push { setR s1 q.id q1 with records := s1.records.map move } (arrivalEvent q1)

/-- R46, R71: an atomic on a mapped stash location is bound anew; one that no entry covers any more goes to the bank. -/
def rebind (s : State) (q : Req) : Except (Cause × Nat) State :=
  let g := getG s (reqUid q)
  match q.pieces, q.kind, opOf g (reqOp q) with
  | p :: _, .atomic a f, some o =>
    (bindPiece s g.core g.ctx (.atomic f) p).map fun p1 =>
      let s1 := setG s g.uid (modOp g o.id fun o => { o with pieces := o.pieces.map fun x => if samePiece x p then p1 else x })
      let s2 := moveFifo s1 q.core g.uid o.id (fifoKeys p) (fifoKeys p1)
      match (atomBytes p1).findSome? id with
      | some x =>
        let l := (p1.lines.find? fun y => y.line == x / 128).getD { line := x / 128, gen := p1.gen, mode := p1.mode, mbf := p1.mbf }
        let q1 := { q with pieces := [p1], line := l.line, gen := l.gen, mode := l.mode, mbf := l.mbf, busy := false, stale := false }
        push (setR s2 q.id q1) (arrivalEvent q1)
      | none =>
        let s3 := ackBanks (sendAtomic a f (delR s2 q.id) (getG s2 g.uid) o p1) g.uid o.id
        settleOp (modG s3 g.uid fun g => modOp g o.id fun o => { o with left := o.left - 1 }) g.uid o.id
  | _, _, _ => .ok s

/-- R360, R356: a parked record relaunches into the user handler with a cause. -/
def parkedUser (s : State) (r : Record) (c : Cause) (t : TrapRegs) : State :=
  let g := getG s r.uid
  let tvec := (taskOf s g).tvec
  let s1 := setG s r.uid (modF (enterHandler (loadTrap g c r.pc t) r.frag tvec) r.frag fun f => { f with pc := tvec })
  putRecord s1 (makeReady { r with pc := tvec, mask := (getF g r.frag).mask, again := false } s.gtick)

/-- R46, R48, R50, R355, R359: the new translation of a request faults. The fragment of its instruction stops where it stands, at a record
that is positioned at the instruction and holds the unfinished threads, or in the user handler, as the delegation mask says; the request
waits, and is translated again when the fault is resolved (log 20). The registers of R363 are loaded whether it parks or enters the handler; a
nested cause leaves in XPC the address at which it was met (R355). A capability register that a `cld` was to load is not empty after the fault
(R310). Further requests of the instruction add their threads. -/
def requestFault (s : State) (q : Req) (c : Cause) (va : Nat) : State :=
  let g0 := getG s (reqUid q)
  let g := match (opOf g0 (reqOp q)).map fun o => (o.kind, o.dst) with
    | some (.capLoad _, d) => setEmpty g0 d false
    | _ => g0
  let s := if g == g0 then s else setG s g0.uid g
  let m := maskOf (q.pieces.map fun p => p.thread)
  let told (c : Cause) : State := addFault s { faultRecG s g c false with addr := va, arg := m, acc := some (reqAccKind q) }
  match opOf g (reqOp q) with
  | none => told c
  | some o =>
    let k := o.entry
    let f := getF g k
    let stop (s : State) : State := modG s g.uid fun g => modF g k fun f => { f with resume := some (f.resume.getD f.pc) }
    let old := (recordOf s g.uid k).filter fun r => match r.cond with | .joined _ => false | _ => true
    let mine := f.resume.isSome && g.handler == some k && g.xpc == o.pc
    let again := f.resume.isSome && old.any fun r => r.pc == o.pc && !r.ready
    let user := toUser s g c
    let nested := user && g.handler.isSome
    let c1 := if nested then Cause.excNest else c
    let regs : TrapRegs := { o.regs with
      xaddr := BitVec.ofNat 56 va,
      xf0 := if causeXlt c1 then (o.regs.xf0 &&& 0xFFFFFFFF00000000) ||| BitVec.zeroExtend 64 m else o.regs.xf0 }
    let loaded (s : State) : State := modG s g.uid fun g => loadTrap g c1 o.pc regs
    if !f.valid || g.ended || g.poisoned then told c
    else if mine then setG s g.uid { g with xf0 := g.xf0 ||| BitVec.zeroExtend 64 m }
    else if again then { s with records := s.records.map fun r => match old with
      | some x => if r.id == x.id then { r with mask := r.mask ||| m } else r
      | none => r }
    else if user && !nested && (f.st == 0 && g.slot.isSome && old.isNone) then
      modG (stop s) g.uid fun g => enterHandler (loadTrap g c o.pc regs) k (taskOf s g).tvec
    else match old with
      | some r =>
        if user && !nested then parkedUser (stop s) { r with pc := o.pc } c regs else
        putRecord (loaded (stop (told c1))) { r with
          cond := parkCond c1, ready := false, pc := o.pc, mask := if causeXlt c1 then m else f.mask, trap := some regs, why := some c1 }
      | none =>
        if f.st ≠ 0 || g.slot.isNone then told c1 else
        let s1 := depositWhy (loaded (stop (told c1))) g.uid k (parkCond c1) (if causeXlt c1 then m else f.mask) 2 (some regs) (some c1) false false
        let at_ (r : Record) : Record := if r.uid == g.uid && r.frag == k then { r with pc := o.pc } else r
        modG { s1 with records := s1.records.map at_ } g.uid fun g => { g with stuck := g.stuck.map at_ }

/-- R19: whether a request stores a tagged capability, which needs a page that keeps tags. -/
def taggedStore (q : Req) : Bool := match q.kind with | .capWrite c => c.tag | _ => false

/-- R46: the answer to the walk of a refused request. -/
def retranslated (s : State) (walk : Nat) (w : Walk) (rq : Nat) : State :=
  let q := getR s rq
  let rest := { s with walks := fdel s.walks walk }
  if q.id ≠ rq then rest else
  let res : Except (Cause × Nat) State :=
    if q.pieces.any fun p => p.space == 1 then rebind rest q else
    match walkTables s w.ctx w.va with
    | .error c => .error (c, w.va)
    | .ok l => match xltCheck (reqAcc q) l with
      | .fault c => .error (c, w.va)
      | _ => if taggedStore q && (!l.tags || l.mode = 2) then .error (.capTagstore, w.va) else .ok (resend (tlbAdd rest w.core w.ctx w.va l) q l)
  match res with
  | .ok s1 => s1
  | .error (c, a) =>
    requestFault { s with walks := fput s.walks walk { w with done := some (.fail (a / 2 ^ 16) c) } } q c a

/-- R36, R37: the event in which a walk returns its leaf or its fault. -/
def execPageWalkComplete (walk : Nat) (s : State) : Out :=
  match ffind s.walks walk with
  | none => .next s
  | some w =>
    enabled s w.done.isNone <|
      let ans : Walked := match walkTables s w.ctx w.va with
        | .ok l => .leaf (w.va / 2 ^ 16) l
        | .error c => .fail (w.va / 2 ^ 16) c
      let s1 := match ans with
        | .leaf _ l => tlbAdd s w.core w.ctx w.va l
        | .fail _ _ => s
      match w.why with
      | .frag uid k =>
        let heard (f : Split) : Split := if f.walking == some walk then { f with walking := none, walked := f.walked ++ [ans] } else f
        { modG s1 uid (fun g => modF g k heard) with walks := fdel s1.walks walk }
      | .xwreg uid n _ => push { s1 with walks := fput s1.walks walk { w with done := some ans } } (.xwLoad uid n)
      | .request rq => retranslated s walk w rq

end Sys2Proof.Machine
end

