-- ==== Sys2Proof/Machine/Preempt.lean ====
section
/-!
DEFINITION. Pre-emption, restore, migration, the end of a context, and firmware's resolutions (R148, R150, R156, R195, R206 to
R209, R294, R360, R423).
-/
namespace Sys2Proof.Machine

/-! The handshake (R206). -/

/-- The groups of a context on a core, or those of some of its tasks. -/
def groupsOn (s : State) (ctx : BitVec 12) (core : Nat) (only : Option (List Nat)) : List Group :=
  (s.groups.filter fun p => p.2.ctx == ctx && p.2.core == core && p.2.uid == p.1 && !p.2.ended &&
    only.all fun l => l.contains p.2.task).map fun p => p.2

/-- R206 step 1, R148, R294: a request for a core: waiters leave their queues and exchange entries are removed. -/
def askPreempt (s : State) (ctx : BitVec 12) (core : Nat) (only : Option (List Nat)) (restore : Bool) : State :=
  if (getX s ctx).preempts.any fun p => p.core == core && p.only.isNone then s else
  let s1 := modX s ctx fun x => { x with preempts := x.preempts ++ [{ core, only, t0 := s.gtick.toNat, restore }] }
  (groupsOn s1 ctx core only).foldl (fun s g => dropExchanges (if g.saving.isNone then cancelWaits s g.uid else s) g.uid) s1

/-- R206: the event of a request for a context on a set of cores. It waits while a role of the context is halted (R390). -/
def execPreemptRequest (ctx : BitVec 12) (cores : List Nat) (s : State) : Out :=
  enabled s (cores.all fun c => c < ncore s.part) <|
    if ctxHalted s ctx then modX s ctx fun x => { x with preemptWait := (x.preemptWait ++ cores).dedup }
    else cores.foldl (fun s c => askPreempt s ctx c none false) s

/-- R206 step 4, R335: whether a command must complete before the stash of its task is freed: it runs and reaches that stash. A command
that has made no access yet is queued (log 86). -/
def cmdRuns (c : Cmd) : Bool :=
  let reaches := !(cmdReads c).isEmpty || !(cmdWrites c).isEmpty || c.cls == 2
  reaches && (c.st == .run || c.st == .started || c.st == .consumed || c.st == .writing || c.st == .flagging)

/-- R206 step 4: whether every group of a request has deposited, those inside a save routine its last record, and no running command or
fill needs the stash. A record parked for firmware counts as deposited (R365). After a failed record write the save waits for firmware
(R196). -/
def saveReady (s : State) (ctx : BitVec 12) (p : Preempt) : Bool :=
  let gs := groupsOn s ctx p.core p.only
  let tasks := (gs.map fun g => g.task).dedup
  !(getX s ctx).overflow &&
    (gs.all fun g => g.slot.isNone && g.saving.isNone && g.stuck.isEmpty && g.ops.all fun o => o.swait.isEmpty) &&
    !(s.cmds.any fun c => tasks.contains c.2.task && c.2.core == p.core && !c.2.cancel && cmdRuns c.2)

/-- R178: the members of the teams of tasks that leave a core, or come to one. -/
def moveTeams (s : State) (gs : List Group) (core : Nat) (off : Bool) : State :=
  gs.foldl (fun s g => match g.team with
    | some k => modC s core fun c => { c with teams := fmod 0 c.teams (teamKey g k) fun n => if off then n - 1 else n + 1 }
    | none => s) s

/-- The team numbers of a task's groups. -/
def teamsOf (s : State) (t : Nat) : List (BitVec 6) := s.groups.filterMap fun p => if p.2.task == t then p.2.team else none

/-- R178, R208: the tasks of a core that share a team with those of a list, directly or through others. -/
def shareTeams (s : State) : Nat → List Nat → List Nat
  | 0, l => l
  | n + 1, l =>
    let t0 := getT s (l.headD 0)
    let more := (s.tasks.filter fun p => p.2.ctx == t0.ctx && p.2.core == t0.core &&
      !p.2.off && l.any fun u => u == p.1 || (teamsOf s u).any fun k => (teamsOf s p.1).contains k).map fun p => p.1
    if more.length ≤ l.length then l else shareTeams s n more

/-- R178, R208: the tasks that go together with one: those that share a team with it, or left their core with it as a unit. -/
def unitOf (s : State) (t : Nat) : List Nat :=
  if (getT s t).off then (s.tasks.filter fun p => p.2.off && p.2.unit == (getT s t).unit && p.2.ctx == (getT s t).ctx).map fun p => p.1
  else shareTeams s s.tasks.length [t]

/-- R178, R209: a request for a unit of tasks takes in those that have since joined a team of it, with step 1 of R206 for their groups. -/
def widenPreempts (s : State) : State :=
  let grown (p : Preempt) : Option (List Nat) := p.only.bind fun l =>
    let l1 := shareTeams s s.tasks.length l
    if l.length < l1.length then some l1 else none
  let more := s.ctxs.flatMap fun x => x.2.preempts.filterMap fun p => (grown p).map fun l => (x.1, p, l)
  more.foldl (fun s m =>
    let ctx := BitVec.ofNat 12 m.1
    let s1 := modX s ctx fun x => { x with preempts := x.preempts.map fun q => if q == m.2.1 then { q with only := some m.2.2 } else q }
    let fresh := m.2.2.filter fun t => !(m.2.1.only.getD []).contains t
    (groupsOn s1 ctx m.2.1.core (some fresh)).foldl (fun s g => dropExchanges (if g.saving.isNone then cancelWaits s g.uid else s) g.uid) s1) s

/-- R206 step 4: a core writes the context's cached records and frees the tasks' lanes, stash and tiles; commands that have not
started are cancelled (R335). When a record cannot be written (R196), nothing is freed, and firmware is told. The tasks that share a team
leave as one unit, by which they are placed again (R178): a number of a team that has left its core is free for other tasks there. -/
def saveContext (s : State) (ctx : BitVec 12) (p : Preempt) : State :=
  let gs := groupsOn s ctx p.core p.only
  let tasks := (s.tasks.filter fun t => t.2.ctx == ctx && t.2.core == p.core && !t.2.off && p.only.all fun l => l.contains t.1).map
    fun t => t.1
  let mine (r : Record) : Bool := r.place.cached && r.owner == p.core && gs.any fun g => g.uid == r.uid
  let s1 := (s.records.filter mine).foldl writeRecord s
  if s1.records.any mine then s1 else
  let stop (c : Cmd) : Cmd :=
    if tasks.contains c.task && c.core == p.core && (c.st == .held || c.st == .armed) then { c with cancel := true } else c
  let s2 := { s1 with cmds := s1.cmds.map fun c => (c.1, stop c.2) }
  let s3 := modX (moveTeams s2 gs p.core true) ctx fun x => { x with preempts := x.preempts.filter fun q => q != p }
  let unit (t : Nat) : Nat := s.nextId + (tasks.findIdx? fun u => (unitOf s t).contains u).getD 0
  let s3 := { s3 with nextId := s.nextId + tasks.length }
  let avoid : Option Nat := if p.restore then some (if p.only.isSome then p.core else 2 ^ 7) else none
  tasks.foldl (fun s t => modT s t fun x => { x with off := true, back := avoid, restored := false, unit := unit t }) s3

/-- R206 step 4: the event in which a core saves a context. -/
def execPreemptContextSave (ctx : BitVec 12) (core : Nat) (s : State) : Out :=
  match (getX s ctx).preempts.find? fun p => p.core == core && saveReady s ctx p with
  | some p => .next (saveContext s ctx p)
  | none => .next s

/-- R206 step 5: the event in which firmware withdraws a request, with a restore that waits on it: every held record of the context's
tasks there clears HELD. On a core on which no request is in progress, as after step 4, it has no effect. -/
def execPreemptWithdraw (ctx : BitVec 12) (all : List Nat) (s : State) : Out :=
  let cores := all.filter fun c => (getX s ctx).preempts.any fun p => p.core == c
  enabled s true <|
    let s1 := modX s ctx fun x => { x with
      preempts := x.preempts.filter (fun p => !cores.contains p.core), preemptWait := x.preemptWait.filter fun c => !all.contains c }
    { s1 with
      groups := s1.groups.map fun p =>
        if p.2.ctx == ctx && cores.contains p.2.core then (p.1, { p.2 with late := false }) else p,
      tasks := s1.tasks.map fun p =>
        if p.2.ctx == ctx && cores.contains p.2.core && !p.2.off then (p.1, { p.2 with restored := false }) else p }

/-- R206 step 5: the groups that are late for a request: those on their lanes, and those that have left them inside a save routine, which
have not deposited the record of step 3. -/
def lateGroups (s : State) (ctx : BitVec 12) (core : Nat) : List Group :=
  (getX s ctx).preempts.flatMap fun p => if p.core != core then [] else
    (groupsOn s ctx core p.only).filter fun g => (g.slot.isSome || g.saving.isSome) && p.t0 + (taskOf s g).hdr.sfpb ≤ s.gtick.toNat

/-- R206 step 5: the event SFP_LATE of a context: its groups on the core that have not deposited stop issuing. -/
def execSfpLate (ctx : BitVec 12) (core : Nat) (s : State) : Out :=
  match (lateGroups s ctx core).find? fun g => !g.late with
  | none => .next s
  | some g =>
    let stop (x : Group) : Group := if x.ctx == ctx && x.core == core && (x.slot.isSome || x.saving.isSome) then { x with late := true } else x
    let s1 := { s with groups := s.groups.map fun p => (p.1, stop p.2) }
    .next (addFault s1 (faultRecG s g .sfpLate true))

/-! Restore and migration (R130, R178, R208, R209). -/

/-- R203: whether the groups of a task all fit on the lanes of a core, each admitted in turn. -/
def admitAll (s : State) (core : Nat) : List Group → Bool
  | [] => true
  | g :: gs => match findLane s core g.nNames (heldH g) with
    | none => false
    | some k =>
      let slots := (freeSlots s core (laneOf k)).take (heldH g)
      admitAll (setG s g.uid { g with core, slot := some k, slots }) core gs

/-- R208: a record of a task goes to its core's ring, or to a spill place where the ring has no run. Where neither has a run, the context
takes CONT_OVERFLOW, and the record waits with its group for the larger spill area (R195). -/
def moveRecord (s : State) (core : Nat) (r : Record) : State :=
  if r.owner = core && !r.place.spill then s else
  match findPlace { s with records := s.records.filter fun q => q.id != r.id } r.ctx core r.size with
  | some p =>
    if r.owner = core && p.spill then s else
    let r1 := { r with owner := core, place := { p with cached := false } }
    writeRecord (putRecord s r1) r1
  | none =>
    let s1 := modG (dropRecord s r.id) r.uid fun g => { g with stuck := g.stuck ++ [{ r with owner := core }] }
    contOverflow s1 (getG s1 r.uid) 0 0

/-- R208, R255: a task is placed again on a core, with its groups and its records; what is kept with the task's state on its core
reads as zero, the time since its last role change is counted on in the cycles of its new core (R5, R204), and the handler state and the restrictions kept with it are over (R262, R356; log 30). It has the stash of its own header
(R200). -/
def backOn (core : Nat) (s : State) (t : Nat) : Option State :=
  let x := getT s t
  match allocate s core x.hdr with
  | none => none
  | some (b, ts) =>
    let gs := (s.groups.filter fun p => p.2.task == t && !p.2.ended).map fun p => p.2
    let shift (r : Ring) : Ring := { r with base := r.base + 65536 * b - 65536 * x.gbase }
    let x1 := { x with
      core, gbase := b, ngran := x.hdr.sgr, tiles := ts, off := false, back := none, restored := true, unit := 0, since := s.gtick.toNat,
      rbSince := if x.rbSince = 0 then 0 else max 1 (cycleOf s core - (cycleOf s x.core - x.rbSince)), tvec := 0, fflags := 0, loSince := none,
      hiSince := none, rings := x.rings.map fun p => (p.1, shift p.2) }
    let s1 := { handOver s core x.ctx (65536 * b) (65536 * (b + x.hdr.sgr)) with pointer := core }
    let s2 := setT s1 t x1
    let calm (g : Group) (p : Nat × Split) : Nat × Split :=
      (p.1, if g.handler == some p.1 && p.2.resume.isSome then { p.2 with redo := none, resume := none, again := some true }
            else { p.2 with redo := none })
    let come (s : State) (g : Group) : State := raisePts (modG s g.uid fun g => { g with
      core, moved := g.moved || g.core != core, handler := none, latch := none, split := g.split.map (calm g),
      xcause := 0, xpc := 0, xinsn := 0, xf0 := 0, xf1 := 0, xf2 := 0, xf3 := 0, xaddr := 0 }) core g.pts
    if handOverWaits s core x.ctx (65536 * b) (65536 * (b + x.hdr.sgr)) || !tidsFresh s x.ctx x.hdr || !admitAll s2 core gs then none else
    let s3 := moveTeams (gs.foldl come s2) gs core false
    let recs := s3.records.filter fun r => gs.any fun g => g.uid == r.uid
    some (preloadTids (recs.foldl (fun s r => moveRecord s core r) s3) t 0 x.hdr.tidn)

/-- R178, R208: a unit of tasks placed on a core on which its team numbers are free. -/
def unitOn (s : State) (unit : List Nat) (core : Nat) : Option State :=
  let t0 := getT s (unit.headD 0)
  let allowed := unit.all fun t =>
    ((ffind s.queues (getT s t).queue).any fun q => q.cores.contains core) && (getT s t).back != some core
  let free := unit.all fun t => (teamsOf s t).all fun k => fget 0 (getC s core).teams (t0.ctx.toNat * 64 + k.toNat) == 0
  if !allowed || !free then none else unit.foldl (fun o t => o.bind fun s => backOn core s t) (some s)

/-- R208: the unit of a task that is to come back, on the first core that takes it. -/
def placeBack (s : State) (t : Nat) : Option State :=
  let unit := unitOf s t
  if !(unit.all fun u => (getT s u).off && (getT s u).back.isSome) then none else
  (coreOrder s).findSome? fun c => unitOn s unit c

/-- R208: the tasks of a context that are to come back. -/
def toPlace (s : State) (ctx : BitVec 12) : List Nat :=
  (s.tasks.filter fun p => p.2.ctx == ctx && p.2.off && p.2.back.isSome).map fun p => p.1

/-- R208: the event of a restore. It waits for the handshake on its cores; a task that fits nowhere waits too. -/
def execContextRestore (ctx : BitVec 12) (cores : List Nat) (s : State) : Out :=
  enabled s true <|
    let s1 := modX s ctx fun x => { x with
      preempts := x.preempts.map fun p => if cores.contains p.core then { p with restore := true } else p }
    let want (t : Task) : Task :=
      if t.ctx == ctx && t.off && t.back.isNone && cores.contains t.core then { t with back := some (2 ^ 7) } else t
    let s2 := { s1 with tasks := s1.tasks.map fun p => (p.1, want p.2) }
    (toPlace s2 ctx).foldl (fun s t => if (getT s t).off then (placeBack s t).getD s else s) s2

/-- R209: the event of a thermal migration of a task with its team partners. -/
def execThermalMigration (task : Nat) (s : State) : Out :=
  let t := getT s task
  let unit := unitOf s task
  let rest (u : Nat) : Bool := (getT s u).since + max s.minres 360000 ≤ s.gtick.toNat && !(getT s u).off
  enabled s ((ffind s.tasks task).isSome && unit.all rest && !ctxHalted s t.ctx) <|
    askPreempt s t.ctx t.core (some unit) true

/-! The end of a context (R150). -/

/-- R150: every lock and every queue entry of a group of a context. -/
def breakLocks (s : State) (ctx : BitVec 12) : State :=
  let mine (s : State) (u : Nat) : Bool := (getG s u).ctx == ctx && (getG s u).uid == u && u != 0
  let leave (s : State) (line : Nat) : State :=
    let l := lockAt s line
    let gone := l.queue.filter fun w => mine s w.uid
    gone.foldl (fun s w => delR s w.rq) (setLock s line { l with queue := l.queue.filter fun w => !mine s w.uid })
  let lines := s.homes.locks.map fun p => p.1
  let s1 := lines.foldl leave s
  lines.foldl (fun s line =>
    if (lockAt s line).holder.any (mine s) then
      let back := (ownersIn (dirAt s line) 0xFFFFFFFF 64 3).foldl (fun s o => recallUnit s line o.1 o.2.1 o.2.2 noBy) s
      passLock back line true
    else s) s1

/-- A group of a context that ends: it never issues again and nothing is due to it; its stores go on. -/
def quitGroup (s : State) (uid : Nat) : State :=
  let s1 := leaveLane (dropExchanges (leaveTeam (deferredToFirmware s uid) uid) uid) uid
  modG s1 uid fun g => { g with
    ended := true, task := 0, disp := 0, split := [], locks := [], deferred := [], stuck := [], claim := none, handler := none,
    latch := none, cEmpty := 0, ops := g.ops.map fun o => { o with dst := .none } }

/-- R150, R156, R294, R335: the event of a context's end: its locks are broken, and its queue entries, monitors, exchange entries,
graph nodes with their commands, tasks and records are gone. The rule speaks of held locks and queue entries: the model leaves an acquire
that is still on its way to the home, or waits there for a directory entry (log 87). -/
def execContextEnd (ctx : BitVec 12) (s : State) : Out :=
  enabled s true <|
    let s1 := breakLocks s ctx
    let us := (s1.groups.filter fun p => p.2.ctx == ctx && p.2.uid == p.1).map fun p => p.1
    let watch := s1.homes.mons.filter fun m => us.contains m.uid
    let s2 := watch.foldl (fun s m => delR (modH s fun h => { h with mons := h.mons.filter fun x => x.id != m.id }) m.rq) s1
    let s3 := us.foldl quitGroup s2
    let ctxOf (c : Core) (id : Nat) : Bool := c.nodes.any fun n => n.2.cmd == some id && n.2.ctx == ctx
    let cmds := (s3.cmds.filter fun p => s3.cores.any fun c => ctxOf c.2 p.1).map fun p => p.1
    let nodes (c : Core) : Core := { c with
      nodes := c.nodes.map fun n => if n.2.ctx == ctx && n.2.st != .free then (n.1, { Node.zero with gen := n.2.gen + 1 }) else n }
    let s4 := { s3 with
      cores := s3.cores.map fun p => (p.1, nodes p.2), cmds := s3.cmds.filter fun p => !cmds.contains p.1,
      records := s3.records.filter fun r => r.ctx != ctx, tasks := s3.tasks.filter fun p => p.2.ctx != ctx,
      disps := s3.disps.filter fun p => p.2.ctx != ctx,
      queues := s3.queues.map fun p => if p.2.ctx == ctx then (p.1, { p.2 with current := none, eligible := false }) else p,
      walks := s3.walks.filter fun p => match p.2.why with | .frag u _ | .xwreg u _ _ => !us.contains u | .request _ => true }
    modX s4 ctx fun x => { x with live := false, preempts := [], preemptWait := [], overflow := false }

/-! Firmware's resolutions (R195, R360, R423). -/

/-- R195: the event in which firmware writes a larger CQSPILL and resumes the deposits of a context. Its reserved bits 15:0 take no
write (R4, R194). -/
def execSpillResizeResume (ctx : BitVec 12) (cqspill : BitVec 64) (s : State) : Out :=
  enabled s ((getX s ctx).cqspill.toNat / 2 ^ 56 ≤ cqspill.toNat / 2 ^ 56) <|
    let s1 := modX s ctx fun x => { x with cqspill := cqspill &&& 0xFFFFFFFFFFFF0000, overflow := false }
    ((s1.groups.filter fun p => p.2.ctx == ctx && !p.2.stuck.isEmpty).map fun p => p.1).foldl retryDeposits s1

/-- A record that firmware may resolve, and has not resolved. -/
def parkedRecord (s : State) (rid : Nat) : Option Record :=
  s.records.find? fun r => r.id == rid && !r.ready && match r.cond with | .faultRes _ => true | .debug _ => r.trap.isSome | _ => false

/-- A walk of a request whose fault firmware may resolve. -/
def parkedWalk (s : State) (rid : Nat) : Option Walk := (ffind s.walks rid).bind fun w =>
  match w.why, w.done with
  | .request _, some (.fail _ _) => some w
  | _, _ => none

/-- R46: the walks of a group's requests are made again. -/
def walkAgain (s : State) (f : Walk → Bool) : State :=
  let l := s.walks.filter fun p => (parkedWalk s p.1).any f
  pushAll { s with walks := s.walks.map fun p => if l.any fun q => q.1 == p.1 then (p.1, { p.2 with done := none }) else p }
    (l.map fun p => Event.pageWalkComplete p.1)

/-- The walks that belong to a fragment's requests. -/
def walksOf (s : State) (uid k : Nat) (w : Walk) : Bool :=
  match w.why with
  | .request rq => reqUid (getR s rq) == uid && (opOf (getG s uid) (reqOp (getR s rq))).any fun o => o.entry == k
  | _ => false

/-- The requests of a fragment that wait for a resolution are given up. -/
def giveUp (s : State) (uid k : Nat) : State :=
  let gone := s.walks.filter fun p => (parkedWalk s p.1).any (walksOf s uid k)
  gone.foldl (fun s p => match p.2.why with
    | .request rq => ackReq { s with walks := fdel s.walks p.1 } (getR s rq) []
    | _ => s) s

/-- What a handler's return has decided for the requests of its fragment (log 20): they are translated again, or given up. -/
def answerHandlers (s : State) : State :=
  let due := s.groups.flatMap fun p => p.2.split.filterMap fun f => f.2.again.map fun b => (p.1, f.1, b)
  due.foldl (fun s x =>
    let s1 := modG s x.1 fun g => modF g x.2.1 fun f => { f with again := none }
    if x.2.2 then walkAgain s1 (walksOf s1 x.1 x.2.1) else giveUp s1 x.1 x.2.1) s

/-- A record is resolved: it is ready, at a PC, for a mask, its fragment with it. -/
def resolve (s : State) (r : Record) (pc : BitVec 56) (mask : Word) : State :=
  let s1 := putRecord s (makeReady { r with pc, mask } s.gtick)
  modG s1 r.uid fun g => modF g r.frag fun f => { f with pc }

/-- R360, R423: the event RETRY: the record relaunches at its instruction, a fill starts again, a request is translated again. -/
def execFaultResolveRetry (rid : Nat) (s : State) : Out :=
  match parkedRecord s rid, parkedWalk s rid, ffind s.fills rid with
  | some r, _, _ =>
    let s1 := resolve s r r.pc r.mask
    .next (if ofRequest s r then walkAgain s1 (walksOf s1 r.uid r.frag) else s1)
  | none, some w, _ => .next (walkAgain s fun x => x == w)
  | none, none, some f =>
    enabled s f.parked <|
      push { s with fills := fput s.fills rid { f with parked := false } } (.stashFillArrival rid)
  | none, none, none => .next s

/-- R50, R262, R360: a record goes on at another instruction than the one that it recorded, which stands under no restriction to the
unfinished threads of that one. -/
def elsewhere (s : State) (r : Record) : State :=
  let s1 := putRecord s { r with again := false }
  modG s1 r.uid fun g => modF g r.frag fun f => { f with redo := none, redoAt := none }

/-- R360: the event SKIP: the record relaunches at the following instruction. A request that faulted after its instruction had left
issue is given up (log 20). -/
def execFaultResolveSkip (rid : Nat) (s : State) : Out :=
  match parkedRecord s rid with
  | none => .next s
  | some r =>
    let f := getF (getG s r.uid) r.frag
    .next <| if ofRequest s r then giveUp (resolve s r r.pc f.mask) r.uid r.frag
      else
        let s1 := elsewhere s r
        resolve s1 { r with again := false } (BitVec.truncate 56 ((r.trap.getD TrapRegs.zero).xf3)) f.mask

/-- The cause of a parked record. -/
def parkedCause (r : Record) : Cause := r.why.getD (match r.cond with | .faultRes c => c | _ => .encBrk)

/-- R355: a cause that firmware sends to a group in handler state is a nested one, which comes back to firmware. -/
def nestParked (s : State) (r : Record) (c : Cause) (t : TrapRegs) : State :=
  let g := getG s r.uid
  let c1 : Cause := if causeEnc c then .encNest else .excNest
  let s1 := setG s r.uid (loadTrap g c1 r.pc t)
  putRecord (addFault s1 { faultRecG s1 (getG s1 r.uid) c1 false with addr := t.xaddr.toNat })
    { r with cond := parkCond c1, ready := false, trap := some t, why := some c1, mask := (getF g r.frag).mask }

/-- R360, R356: the event USER: the record relaunches into the user handler with the recorded cause; in a group that is in handler state
the cause nests (R355). -/
def execFaultResolveUser (rid : Nat) (s : State) : Out :=
  match parkedRecord s rid with
  | none => .next s
  | some r =>
    let g := getG s r.uid
    let tvec := (taskOf s g).tvec
    let t := r.trap.getD TrapRegs.zero
    enabled s (!causeFixed (parkedCause r) && tvec != 0) <|
      if g.handler.isNone then parkedUser s r (parkedCause r) t else nestParked s r (parkedCause r) t

/-- R360, R150: the event END: the context of the record, the fill or the request ends. -/
def execFaultResolveEnd (rid : Nat) (s : State) : Out :=
  match parkedRecord s rid, parkedWalk s rid, ffind s.fills rid with
  | some r, _, _ => execContextEnd r.ctx s
  | none, some w, _ => execContextEnd w.ctx s
  | none, none, some f =>
    (match ffind (getC s f.core).maps f.entry with
    | some e => if f.parked then execContextEnd e.ctx s else .next s
    | none => .next s)
  | none, none, none => .next s

end Sys2Proof.Machine
end

