-- ==== Sys2Proof/Machine/Debug.lean ====
section
/-!
DEFINITION. The debugger's holds, steps and stops, the stall and occupancy samples, and the delivery of a pending deferred
cause (R202, R358, R364, R380 to R390).
-/
namespace Sys2Proof.Machine

/-! The fragment that issues next, and a pending deferred cause (R202, R358). -/

/-- Whether a fragment may be selected: it is ready, it waits for no walk, and no handler of another fragment stops it (R356). -/
def mayIssue (g : Group) (k : Nat) : Bool :=
  let f := getF g k
  f.valid && f.st == 0 && f.walking.isNone && g.handler.all fun h => h == k

/-- R202: the fragment of a group that issues next: the least `rdy`, then the lower entry. -/
def nextFragment (g : Group) : Option Nat :=
  ((List.range 8).filter (mayIssue g)).foldl (fun (b : Option Nat) k => match b with
    | none => some k
    | some j => if (getF g k).rdy < (getF g j).rdy then some k else some j) none

/-! Selection (R202). -/

/-- Whether a group may issue: it is resident, and nothing of R206, R364, R380, R385, R389 or R390 holds it. A stepped group issues on a core
that a watchpoint has stopped too (R386). -/
def groupIssues (s : State) (g : Group) : Bool :=
  g.slot.isSome && !g.ended && !g.poisoned && !g.late && g.hold.isNone && g.stuck.isEmpty && !groupHalted s g &&
    (!(getC s g.core).stopped || g.step.isSome) && !frozen s

/-- A fragment that may be selected: its group, its entry, and the keys of R202. -/
structure Cand where
  uid   : Nat
  entry : Nat
  slot  : Nat
  adm   : Nat
  rdy   : Nat
  deriving DecidableEq, Repr

/-- R202: whether a candidate is selected before another: promoted ones first, by `rdy`; the others by `adm`. -/
def candBefore (now : Nat) (a b : Cand) : Bool :=
  let pa := a.rdy + 8192 ≤ now
  let pb := b.rdy + 8192 ≤ now
  let ka := if pa then a.rdy else a.adm
  let kb := if pb then b.rdy else b.adm
  if pa != pb then pa
  else if ka ≠ kb then ka < kb
  else if a.slot ≠ b.slot then a.slot < b.slot
  else a.entry < b.entry

/-- A candidate put in its place. -/
def candInsert (now : Nat) (c : Cand) : List Cand → List Cand
  | [] => [c]
  | d :: l => if candBefore now c d then c :: d :: l else d :: candInsert now c l

/-- The candidates of a group. -/
def groupCands (g : Group) : List Cand :=
  ((List.range 8).filter (mayIssue g)).map fun k =>
    { uid := g.uid, entry := k, slot := g.slot.getD 0, adm := g.adm, rdy := (getF g k).rdy }

/-- The candidates of a lane of a core in the order of R202, none in a tick that brings the core no cycle. -/
def laneCands (s : State) (core lane : Nat) : List Cand :=
  if (getDie s (dieOf core)).still then [] else (((onLane s core lane).filter fun p => groupIssues s p.2).flatMap fun p => groupCands p.2).foldl
    (fun l c => candInsert (cycleOf s core) c l) []

/-- R355, R358: the event in which a pending deferred cause enters the user handler at the next issue of its group, in the fragment that
R202 selects of it, which no interlock holds; it goes to firmware when TVEC is 0. -/
def execDeferredCauseDelivery (uid : Nat) (s : State) : Out :=
  let g := getG s uid
  match g.deferred, (laneCands s g.core (laneOf (g.slot.getD 0))).find? fun c => c.uid == uid with
  | d :: _, some c =>
    enabled s (g.handler.isNone && g.uid == uid && (getF g c.entry).why == 0) <|
      if (taskOf s g).tvec = 0 then deferredToFirmware s uid
      else deliverDeferred { s with cur := { uid, entry := c.entry, tick := s.gtick.toNat } } d.1
  | _, _ => .next s

/-! Holds and steps (R385, R386). -/

/-- R385: a resident group deposits its fragments that are not waiting, with COND 12 and the hold number. -/
def holdFragments (s : State) (uid : Nat) (n : BitVec 16) : State :=
  if (getG s uid).slot.isNone then s else
  (List.range 8).foldl (fun s k =>
    let f := getF (getG s uid) k
    if f.valid && f.st == 0 then deposit s uid k (.debug n) f.mask 2 none false true else s) s

/-- R385: a group is held under a number. -/
def holdGroup (s : State) (uid : Nat) (n : BitVec 16) : State :=
  holdFragments (modG s uid fun g => { g with hold := some n, step := none }) uid n

/-- A group that has not ended. -/
def liveGroup (s : State) (uid : Nat) : Bool := (getG s uid).uid == uid && uid != 0 && !(getG s uid).ended

/-- R385: the event in which the debugger holds a group. -/
def execDebugHold (uid : Nat) (hold : BitVec 16) (s : State) : Out :=
  enabled s (liveGroup s uid && hold != 0) (holdGroup s uid hold)

/-- R385: the records that a hold alone keeps waiting become ready: those of COND 12 but for a parked ENC_BRK. -/
def releaseRecords (s : State) (uid : Nat) (n : Option (BitVec 16)) : State :=
  let mine (r : Record) : Bool := r.uid == uid && match r.cond with | .debug m => r.trap.isNone || some m == n | _ => false
  mapRecords s fun r => if mine r then makeReady r s.gtick else r

/-- R389: the cores whose groups a stop held issue again once the last of those groups is released. -/
def stopOver (s : State) (core : Nat) : State :=
  if s.groups.any fun p => p.2.core == core && p.2.hold == some 0xFFFF then s
  else modC s core fun c => { c with stopped := false }

/-- R385: the event in which the debugger releases a hold. -/
def execDebugRelease (uid : Nat) (s : State) : Out :=
  let g := getG s uid
  enabled s (liveGroup s uid && g.hold.isSome) <|
    stopOver (releaseRecords (modG s uid fun g => { g with hold := none }) uid g.hold) g.core

/-- R386: the event in which the debugger steps a held group: it is released for one instruction, after which it is held again
under its number. -/
def execDebugStep (uid : Nat) (s : State) : Out :=
  let g := getG s uid
  enabled s (liveGroup s uid && g.hold.isSome) <|
    releaseRecords (modG s uid fun g => { g with hold := none, step := g.hold }) uid g.hold

/-! Watchpoint stops and role halts (R389, R390). -/

/-- R389: the cores that an action stops. -/
def stopCores (s : State) (core : Nat) (act : BitVec 2) : List Nat :=
  match act.toNat with
  | 0 => []
  | 1 => [core]
  | 2 => [2 * pairOf core, 2 * pairOf core + 1]
  | _ => (List.range (ncore s.part)).filter fun c => dieOf c == dieOf core

/-- The fragment of a group whose PC a report shows: the one that issues next, else the lowest valid entry. -/
def shownFragment (g : Group) : Nat :=
  match nextFragment g with
  | some k => k
  | none => ((List.range 8).find? fun k => (getF g k).valid).getD 0

/-- R379, R389: the skid record of a group. -/
def skidOf (s : State) (g : Group) : Skid := { tick := s.gtick, slot := g.slot.getD 0, gid := g.gid, pc := (getF g (shownFragment g)).pc, n := min 255 g.skid }

/-- R364: DBG_STOP reaches a core, for each context that has a group there. -/
def stopReport (s : State) (core : Nat) (arg : BitVec 32) : State :=
  ((s.groups.filter fun p => p.2.core == core && liveGroup s p.1).map fun p => p.2.ctx).dedup.foldl (fun s x =>
    addFault s { faultRec s x .dbgStop true with core, arg }) s

/-- R389: a core stops: its skid records are written, its groups are held under 0xFFFF, and DBG_STOP reaches it. A core that stands
writes no second stop. -/
def stopCore (s : State) (core : Nat) : State :=
  if (getC s core).stopped then s else
  let here := (resident s core).map fun p => p.2
  let s1 := modC s core fun c => { c with stopped := true, skid := c.skid ++ here.map (skidOf s) }
  let us := (s1.groups.filter fun p => p.2.core == core && liveGroup s1 p.1).map fun p => p.1
  stopOver (stopReport (us.foldl (fun s u => modG (holdGroup s u 0xFFFF) u fun g => { g with skid := 0 }) s1) core 0xFFFF) core

/-- R389: the event of a watchpoint's stop. -/
def execWatchpointStop (core : Nat) (act : BitVec 2) (s : State) : Out :=
  enabled s (core < ncore s.part && act != 0) <| (stopCores s core act).foldl stopCore s

/-- R385, R390, R392: the hold number of the groups of a halted role, and of a context whose log has ended: one of 1 to 0xFFFF (log 6). -/
def roleHoldNo (s : State) : BitVec 16 := BitVec.ofNat 16 ((Config.roleHold s.free).val + 1)

/-- R390: the event in which the debugger halts a role of a pipeline task: its groups are held. -/
def execDebugRoleHalt (task : Nat) (role : BitVec 2) (s : State) : Out :=
  let t := getT s task
  enabled s ((ffind s.tasks task).isSome && t.hdr.pipe && role != 0 && !t.halted.contains role) <|
    let s1 := modT s task fun t => { t with halted := t.halted ++ [role] }
    let n := roleHoldNo s
    (inRole s1 task role).foldl (fun s g => holdFragments s g.uid n) { s1 with free := s.free + 1 }

/-- R390: the event in which the debugger releases a halted role: the records of its groups go on, and pre-emption requests that
waited for the last release of the context are made. -/
def execDebugRoleRelease (task : Nat) (role : BitVec 2) (s : State) : Out :=
  let t := getT s task
  enabled s (t.halted.contains role) <|
    let s1 := modT s task fun t => { t with halted := t.halted.filter fun r => r != role }
    let s2 := (inRole s1 task role).foldl (fun s g => if g.hold.isNone then releaseRecords s g.uid none else s) s1
    if ctxHalted s2 t.ctx then s2 else
    let waits := (getX s2 t.ctx).preemptWait
    waits.foldl (fun s c => askPreempt s t.ctx c none false) (modX s2 t.ctx fun x => { x with preemptWait := [] })

/-! A replayed run (R392). -/

/-- R392: the decisions that contexts have reached and that their logs do not hold: a free line with waiters, or a ready record, with
no decision left of the slice or the core. An atomic that the log merges with none was not merged in the logged run (R391), which is no
decision that the log lacks. -/
def logEnds (s : State) : List (BitVec 12 × Nat × Nat) :=
  (s.homes.locks.flatMap fun p => if p.2.holder.isSome then [] else p.2.queue.filterMap fun w =>
    let x := (getR s w.rq).ctx
    let slice := homeSlice p.1
    if replays s x && (logNext s x 0 slice).isNone then some (x, 0, slice) else none) ++
  s.records.filterMap fun r =>
    if replays s r.ctx && mayReturn s r.owner r && (logNext s r.ctx 1 r.owner).isNone then some (r.ctx, 1, r.owner) else none

/-- R392: at a decision that the log does not hold, DBG_STOP is raised with SEQ in ARG, once, and the context is held. -/
def endReplay (s : State) (e : BitVec 12 × Nat × Nat) : State :=
  match (getX s e.1).replay with
  | none => s
  | some p =>
    if p.told then s else
    let seq := (p.made.filter (logFrom e.2.1 e.2.2)).length
    let core := if e.2.1 = 1 then e.2.2 else 0
    let s1 := addFault (modX s e.1 fun x => { x with replay := some { p with told := true } })
      { faultRec s e.1 .dbgStop true with core, arg := BitVec.ofNat 32 seq }
    let n := roleHoldNo s
    ((s1.groups.filter fun q => q.2.ctx == e.1 && liveGroup s1 q.1).map fun q => q.1).foldl (fun s u => holdGroup s u n)
      { s1 with free := s.free + 1 }

/-- R392: what a replayed run does of itself: the grants that the log holds next, and the stop at its end. -/
def replayRuns (s : State) : State :=
  if s.ctxs.all fun p => p.2.replay.isNone then s else
  let n := (s.ctxs.map fun p => match p.2.replay with | some r => r.left.length | none => 0).sum
  let s1 := grantLogged s n
  (logEnds s1).foldl endReplay s1

/-! The named tick (R380). -/

/-- R380, R364: the event in which GTICK reaches STOPT: the die gates its clocks. -/
def execNamedTickStop (die : Nat) (s : State) : Out :=
  enabled s (s.sten && s.gtick == s.stopt && die < ndie s.part && !(getDie s die).gated) <|
    let cores := (List.range (ncore s.part)).filter fun c => dieOf c == die
    modDie (cores.foldl (fun s c => stopReport s c 0) s) die fun d => { d with gated := true }

/-! Stall sampling (R381 to R384). -/

/-- R381: the event of a debugger's write of SAMPCTL. -/
def execSampctlWrite (core : Nat) (w : BitVec 64) (s : State) : Out :=
  enabled s (core < ncore s.part) <| modC s core fun c => { c with
    sampctl := (w &&& 0x7F) ||| (if w.getLsbD 7 then 0 else c.sampctl &&& 0x80) }

/-- R381: the sampling interval in cycles, none while sampling is off. -/
def sampleEvery (c : Core) : Option Nat :=
  let n := (c.sampctl.toNat / 2) % 32
  if c.sampctl.getLsbD 0 && 6 ≤ n && n ≤ 16 then some (2 ^ n) else none

/-- R381: a record enters a core's trace buffer, in order; one that finds it full is dropped and sets OVF. It is written through at
its place in the context that TRBASE names. -/
def traceRecord (s : State) (core : Nat) (r : BitVec 256) : State :=
  let c := getC s core
  if c.trsize ≤ c.trace.length then modC s core fun c => { c with sampctl := c.sampctl ||| 0x80 } else
  let va := (c.trbase.toNat + 32 * c.trace.length) % 2 ^ 56
  let s1 := modC s core fun c => { c with trace := c.trace ++ [r] }
  bufferWrite s1 c.trctx c.pts va (leBytes r.toNat 32)

/-- R383: the stall reasons of a fragment of a resident group that did not issue. -/
def fragReasons (s : State) (g : Group) (k : Nat) : List Nat :=
  let f := getF g k
  let held := if g.hold.isSome || (getC s g.core).stopped || groupHalted s g then [2] else []
  let other := if g.handler.any fun h => h != k then [3] else []
  let state := match (recordOf s g.uid k).map fun r => r.cond with
    | some (.debug _) => [2]
    | some (.faultRes _) => [4]
    | some (.counter _ _) | some (.range _) | some (.tile _) => [6]
    | some (.regFill sc n) => 7 :: (if sc && g.claim.any fun c => c.2 == n then [8] else [])
    | some _ => [5]
    | none => if f.why != 0 then [f.why] else [14]
  held ++ other ++ state

/-- The precedence of R383: the codes in its order. -/
def worst (l : List Nat) : Nat := ([2, 3, 4, 5, 6, 7, 8, 9, 10, 11, 12, 13, 14].find? fun n => l.contains n).getD 14

/-- R383: REASON, with the fragment that decides it and whether the group issued in the present cycle. -/
def sampleOf (s : State) (g : Group) : Nat × Nat × Bool :=
  if s.cur.uid == g.uid && s.cur.tick == s.gtick.toNat then (0, s.cur.entry, true) else
  let ks := (List.range 8).filter fun k => (getF g k).valid
  let r := worst (ks.flatMap fun k => fragReasons s g k)
  (r, (ks.find? fun k => (fragReasons s g k).contains r).getD 0, false)

/-- R382: the record of a lane's position. -/
def sampleRecord (s : State) (core lane pos : Nat) : BitVec 256 :=
  let slot := 4 * lane + pos
  let head := s.gtick.toNat + 2 ^ 64 * core + 2 ^ 71 * lane
  match (onLane s core lane).find? fun p => p.2.slot == some slot with
  | none => BitVec.ofNat 256 (head + 2 ^ 89)
  | some (_, g) =>
    let (r, k, iss) := sampleOf s g
    BitVec.ofNat 256 (head + 2 ^ 79 * slot + 2 ^ 89 * r + 2 ^ 94 * iss.toNat + 2 ^ 96 * ((getF g k).pc.toNat / 2) +
      2 ^ 152 * g.ctx.toNat + 2 ^ 192 * g.gid.toNat)

/-- R382: the event of a sample: each lane writes the record of the position whose turn it is. -/
def execStallSample (core : Nat) (s : State) : Out :=
  let c := getC s core
  enabled s (core < ncore s.part && !(getDie s (dieOf core)).still &&
      (sampleEvery c).any fun n => cycleOf s core % n == 0) <|
    let s1 := (List.range 256).foldl (fun x ln => traceRecord x core (sampleRecord s core ln c.rot)) s
    modC s1 core fun c => { c with rot := (c.rot + 1) % 4 }

/-- R384: the event of an occupancy record, in the cycle after the sample. -/
def execOccupancyRecord (core : Nat) (s : State) : Out :=
  let c := getC s core
  enabled s (core < ncore s.part && c.sampctl.getLsbD 6 && !(getDie s (dieOf core)).still &&
      (sampleEvery c).any fun n => cycleOf s core % n == 1) <|
    let mine := s.records.filter fun r => r.owner == core
    let units (l : List Record) : Nat := (l.map fun r => r.size).sum
    let ringu := units (mine.filter fun r => !r.place.spill)
    let spillu := units (mine.filter fun r => r.place.spill)
    let cached := (mine.filter fun r => r.place.cached).length
    let rdy := min 0xFFFF (mine.filter fun r => r.ready && !r.held).length
    let hld := min 0xFFFF (mine.filter fun r => r.held).length
    traceRecord s core (BitVec.ofNat 256 (s.gtick.toNat + 2 ^ 64 * core + 2 ^ 95 + 2 ^ 96 * (ringu % 2 ^ 32) +
      2 ^ 128 * (spillu % 2 ^ 32) + 2 ^ 160 * (cached % 2 ^ 7) + 2 ^ 176 * rdy + 2 ^ 192 * hld))

end Sys2Proof.Machine
end

