-- ==== Sys2Proof/Machine/EngineEvents.lean ====
section
/-!
DEFINITION. The events of the engines: the completion of a command, the start of a graph node, and the start, the consumption
and the retirement of a matrix operation (R118 to R123, R325, R332, R335, R345 to R348).
-/
namespace Sys2Proof.Machine

/-- R390: whether a command that has not started waits for the release of its group's role. -/
def cmdHalted (s : State) (c : Cmd) : Bool := c.st == .armed && groupHalted s (getG s c.uid)

/-- R119, R325, R335: whether a command may do its work and complete: it is not held, and its node runs. -/
def cmdReady (s : State) (c : Cmd) : Bool :=
  c.cls != 2 && (c.st == .run || (c.st == .armed && c.node.isNone)) && !cmdHalted s c && (c.cancel || cmdFree s c)

/-- R330: the other dies on which the destination lines of a remote copy are homed. -/
def remoteDies (s : State) (c : Cmd) : List Nat :=
  match c.kind with
  | .remote d _ n _ => if d.space ≠ 0 then [] else
    ((linesOf d.addr.toNat n).filterMap fun l => match xlateNow s c.ctx .store l.1 with
      | .ok f => if f.mode = 2 then none else some (lineDie (leafPa f l.1 / 128))
      | .error _ => none).dedup.filter fun x => x != dieOf c.core
  | _ => []

/-- R330, R371, R374: the link end over which a remote copy reaches an address of its destination: the Col port that the peer table names, or
the bundle to the die of the line's home. -/
def linkOf (s : State) (c : Cmd) (d : Cap) (a : Nat) : Option Nat :=
  if d.space = 4 then (ffind (getX s c.ctx).peers (d.addr.toNat / 2 ^ 48)).map fun e => 2 * dieOf c.core + e.port % 2
  else if d.space ≠ 0 then none
  else match xlateNow s c.ctx .store a with
    | .ok f => if f.mode = 2 || lineDie (leafPa f a / 128) = dieOf c.core then none else some (8 + 4 * dieOf c.core + lineDie (leafPa f a / 128))
    | .error _ => none

/-- R332, R374: the byte of a remote copy from which a link that is down takes no more: that of the first line left, or of the flag, that
goes over it. -/
def downAt (s : State) (c : Cmd) : Option Nat :=
  match c.kind with
  | .remote d _ n flag =>
    let down (a : Nat) : Bool := (linkOf s c d a).any fun l => (getLink s l).st == 2
    match ((cmdLines c).drop c.pos).find? fun l => down l.1 with
    | some l => some (l.1 - d.addr.toNat)
    | none => if flag.any down then some n else none
  | _ => none

/-- R332: whether a remote copy may be cut at a byte by its peer or a link. -/
def cutOk (s : State) (c : Cmd) (err : Option Nat) : Bool :=
  match err, c.kind with
  | none, _ => true
  | some k, .remote d _ n _ => (d.space == 4 || !(remoteDies s c).isEmpty) && k ≤ n &&
      ((cmdLines c).take c.pos).all fun l => l.1 + l.2 ≤ d.addr.toNat + k
  | some _, _ => false

/-- R119, R325, R329, R332: the event in which a command works, from where it stands: where a write is held, the rest follows once that is
performed; else the command completes as soon as every write of it is performed, and its completion flag added to. `err` is the byte from
which the peer or the link of a remote copy takes no more; over a link that is down it takes none (R374). -/
def execEngineCommandComplete (cmd : Nat) (err : Option Nat) (s : State) : Out :=
  match getCmd s cmd with
  | none => .next s
  | some c =>
    let err := err.orElse fun _ => downAt s c
    enabled s (cmdReady s c && cutOk s c err) <|
      if c.cancel then completeCmd s cmd false else
      let (s1, e) := cmdWork (if c.pos = 0 then touchSources s c else s) c err
      let c1 := (getCmd s1 cmd).getD c
      if e.isNone && cmdUnfinished c1 then serveCore (putCmd s1 cmd { c1 with st := .writing }) c.core else
      let s2 := gatherReports s1 c (e.map fun x => x.2)
      let s3 := match e with | some x => endReport s2 c x.1 | none => s2
      let c3 := (getCmd s3 cmd).getD c
      cmdNext (serveCore (putCmd s3 cmd { c3 with fail := c3.fail || e.isSome, st := .writing }) c.core) cmd

/-- R335: whether a node starts: it is ARMED, no edge is left to meet, and R118 holds its command no longer. -/
def nodeReady (s : State) (nd : Node) : Bool :=
  nd.st == .armed && nd.count == 0 && nd.cmd.any fun id => (getCmd s id).any fun c => c.st == .armed && !cmdHalted s c

/-- R120, R335: the event in which a node enters RUN. After a predecessor's failure its command makes no access. -/
def execGraphNodeStart (core node : Nat) (s : State) : Out :=
  let nd := fget Node.zero (getC s core).nodes node
  enabled s (nodeReady s nd) <|
    let s1 := modC s core fun c => { c with nodes := fput c.nodes node { nd with st := .run } }
    match nd.cmd.bind fun id => (getCmd s id).map fun c => (id, c) with
    | some (id, c) => putCmd s1 id { c with st := .run, cancel := c.cancel || nd.cancel }
    | none => s1

/-- R123, R346: the ranges of an operation leave the operand tables of both cores; the engine writes that they held go on. -/
def operandsFree (s : State) (c : Cmd) (id : Nat) : State :=
  let free (x : Core) : Core := { x with ranges := x.ranges.filter fun r => r.cmd != id }
  engineResume (engineResume (modC (modC s c.core free) (partner c.core) free) c.core) (partner c.core)

/-- R346, R347: an operation leaves the pair's queue: its tiles are free, and it completes in ec2. -/
def mmLeave (s : State) (c : Cmd) (id : Nat) : State :=
  let s1 := modC s (pairCore c.core) fun x => { x with
    mqueue := x.mqueue.filter (fun i => i != id), towner := x.towner.filter fun t => t.2 != id }
  serveCore (serveCore (completeCmd s1 id false) c.core) (partner c.core)

/-- R345, R347: the event in which a matrix operation starts: its snapshot is whole, and the one before it has consumed its
operands. One that step 4 of R206 has cancelled completes then without any access (R335). -/
def execMatrixStart (cmd : Nat) (s : State) : Out :=
  match getCmd s cmd with
  | some c =>
    enabled s (mmNext s c.core == some cmd && (c.cancel || snapWhole c) && !cmdHalted s c) <|
      if c.cancel then mmLeave (operandsFree s c cmd) c cmd else
      push (tagTiles (putCmd s cmd { c with st := .started }) c) (.operandsConsumed cmd)
  | none => .next s

/-- R346, R347: the event in which an operation has consumed its operands and releases its ranges on both cores. -/
def execOperandsConsumed (cmd : Nat) (s : State) : Out :=
  match getCmd s cmd with
  | some c =>
    enabled s (c.st == .started) <|
      push (operandsFree (putCmd s cmd { c with st := .consumed }) c cmd) (.matrixRetire cmd)
  | none => .next s

/-- R345, R347: the event in which an operation retires: its result is in the tiles of both cores, which are free, and it completes
in ec2. -/
def execMatrixRetire (cmd : Nat) (s : State) : Out :=
  match getCmd s cmd with
  | some c =>
    enabled s (c.st == .consumed && (getC s (pairCore c.core)).mqueue.head? == some cmd) <| mmLeave (mmWrite s c) c cmd
  | none => .next s

end Sys2Proof.Machine
end

