-- ==== Sys2Proof/Machine/Firmware.lean ====
section
/-!
DEFINITION. What system software, firmware and the debugger write through the Pergen controllers, the checkpoint engine, secure
boot, ageing and thermal limits (R15, R197, R354, R369, R371, R376 to R381, R387, R388, R391, R393 to R399).
-/
namespace Sys2Proof.Machine

/-! Capabilities, peers and policies. -/

/-- R8, R12, R15: the event in which system software makes a capability, tagged, in a granule of device memory: the bounds that the
encoding cannot hold are widened outwards, and PG is cleared in spaces 1 and 2. -/
def execCapabilityMint (pa : Nat) (space : BitVec 4) (base top addr : Nat) (perms : BitVec 7) (s : State) : Out :=
  let allowed : BitVec 7 := if space = 1 || space = 2 then perms &&& ~~~ permG else perms
  let c := capWithBounds { Cap.null with addr := BitVec.ofNat 56 addr, perms := allowed, space, tag := true } base top
  -- an address outside the representable region of its own bounds has no tagged value (R11)
  enabled s (pa % 16 == 0 && pa + 16 ≤ hbmSize s.part && addr < 2 ^ 56 && base ≤ top && top ≤ 2 ^ 56 &&
      (capDecode c).any fun q => q.1 ≤ base && top ≤ q.2 && q.2 - q.1 ≤ 2 * (top - base) + 2 ^ 31) <|
    setTag (devWriteLe s pa 16 (capBits c)) pa true

/-- R371: the event in which system software fills an entry of a context's peer table. -/
def execPeerTableWrite (ctx : BitVec 12) (peer : BitVec 8) (en : Bool) (port base size : Nat) (s : State) : Out :=
  enabled s (port < 2) <|
    modX s ctx fun x => { x with peers := fput x.peers peer.toNat { en, port, base, size } }

/-- R393: a value brought to the nearer end of its range. -/
def clampTo (lo hi v : Nat) : Nat := max lo (min hi v)

/-- R354: the bits of DLGMASK that are not writable: those of unassigned codes and of codes fixed to firmware. -/
def dlgWritable : BitVec 128 := 0x340fff0fef0fff0eff1fff0fff07bf

/-- R388: a watchpoint's register. -/
def watchOf (v : Nat) : Watch :=
  { addr := v % 2 ^ 23, en := v.testBit 23, mat := BitVec.ofNat 3 (v / 2 ^ 24), act := BitVec.ofNat 2 (v / 2 ^ 27),
    ctx := BitVec.ofNat 12 (v / 2 ^ 29) }

/-- R393 and the registers' own rules: what a write of a policy or a debug register does. A write of the base of a trace or a log buffer
starts the buffer anew, and that of a log buffer clears its overflow bit (log 44). -/
def writePolicy (p : Policy) (v : Nat) (s : State) : State :=
  match p with
  | .xlease c => modX s c fun x => { x with xlease := BitVec.ofNat 21 (clampTo 64 (2 ^ 20) v) }
  | .dataLease c => modX s c fun x => { x with dataLease := BitVec.ofNat 8 (clampTo 1 255 v) }
  | .stashLease c => modX s c fun x => { x with stashLease := BitVec.ofNat 8 (clampTo 1 255 v) }
  | .lholdlim c => modX s c fun x => { x with lholdlim := BitVec.ofNat 32 (clampTo 0 (2 ^ 32 - 1) v) }
  | .dlkprobe => { s with dlkprobe := clampTo (2 ^ 10) (2 ^ 24) v }
  | .rbthresh => { s with rbthresh := clampTo 0 255 v }
  | .rbhigh => { s with rbhigh := clampTo 0 255 v }
  | .rbtime => { s with rbtime := clampTo 1 (2 ^ 24) v }
  | .minres => { s with minres := max 360000 v }
  | .clockPlan d => modDie s d fun x => { x with slowed := v % 2 == 1 }
  | .wpmask k n => modH s fun h => { h with wpmask := fset 0xFFFFFF h.wpmask (k * 8 + n % 8) (BitVec.ofNat 24 (clampTo 0 0xFFFFFF v)) }
  | .dlgmask c => modX s c fun x => { x with dlgmask := BitVec.ofNat 128 v &&& dlgWritable }
  | .skey c => modX s c fun x => { x with skey := BitVec.ofNat 32 v }
  | .cqbase c => modX s c fun x => { x with cqbase := BitVec.ofNat 56 (2 ^ 18 * (v % 2 ^ 56 / 2 ^ 18)) }
  | .cqspill c => modX s c fun x => { x with cqspill := BitVec.ofNat 64 (2 ^ 16 * (v % 2 ^ 64 / 2 ^ 16)) }
  | .queueCores q => { s with queues := s.queues.map fun p => if p.1 == q then
      (p.1, { p.2 with cores := (List.range (ncore s.part)).filter fun c => v.testBit c }) else p }
  | .queuePrio q =>
    (match ffind s.queues q with
    | some x =>
      let b := visByte s (x.cb + 7)
      devWrite s (x.cb + 7) [(b &&& 0x8F#8) ||| BitVec.ofNat 8 (clampTo 0 7 v * 16)]
    | none => s)
  | .ageint d => modDie s d fun x => { x with ageint := clampTo (2 ^ 30) (2 ^ 40) v }
  | .stopt => { s with stopt := BitVec.ofNat 64 v }
  | .sten => { s with sten := v % 2 == 1 }
  | .trbase k => modC s k fun c => { c with trbase := BitVec.ofNat 56 v, trctx := BitVec.ofNat 12 (v / 2 ^ 56), trace := [] }
  | .trsize k => modC s k fun c => { c with trsize := v }
  | .watchpoint k n => modC s k fun c => { c with watches := fset Watch.zero c.watches (n % 4) (watchOf v) }
  | .traceMark u => if (getG s u).uid == u then modG s u fun g => { g with marked := v != 0 } else s
  | .replog c => modX s c fun x => { x with replog := v % 2 == 1 }
  | .replogBase c => modX s c fun x => { x with logBase := BitVec.ofNat 56 v, logged := 0, logOvf := false }
  | .replogSize c => modX s c fun x => { x with logSize := v }
  | .exportBase p => { s with windows := fset (0, 0) s.windows p (v, (fget (0, 0) s.windows p).2) }
  | .exportSize p => { s with windows := fset (0, 0) s.windows p ((fget (0, 0) s.windows p).1, v) }

/-- R1, R2: whether the part has the register that a write names. -/
def policyThere (s : State) (p : Policy) : Bool :=
  match p with
  | .wpmask k n => decide (k < 24 * ndie s.part ∧ n < 8)
  | .ageint d | .clockPlan d => decide (d < ndie s.part)
  | .trbase k | .trsize k => decide (k < ncore s.part)
  | .watchpoint k n => decide (k < ncore s.part ∧ n < 4)
  | _ => true

/-- R393: the event of such a write, which clamps the value. A register that the part lacks takes none (R1), and in recovery, where the
boot ROM runs alone, no firmware writes (R396). -/
def execPolicyWrite (p : Policy) (value : Nat) (s : State) : Out :=
  enabled s (policyThere s p && !inRecovery s) (writePolicy p value s)

/-! Checkpoint (R376 to R378). -/

/-- R377: the size of the image: device memory, and one tag bit for each 16 bytes. -/
def imageSize (s : State) : Nat := hbmSize s.part + hbmSize s.part / 128

/-- The total of an extent list. -/
def extentTotal (l : List (Nat × Nat)) : Nat := (l.map fun e => e.2).sum

/-- R376: the event in which system software gives the engine its extent list, in host bus addresses. -/
def execCheckpointExtentList (extents : List (Nat × Nat)) (s : State) : Out :=
  enabled s (!inRecovery s) { s with ckpt := { s.ckpt with extents } }

/-- R376, R377: a trigger: without an extent list that is large enough it is only recorded; else the engine quiesces the device. In recovery
the engine is closed (R396). A trigger that comes while a checkpoint is under way starts no second one; after a power-loss warning the
device does not resume from the one under way (log 93). -/
def ckptTrigger (s : State) (power : Bool) : State :=
  let k := s.ckpt
  if inRecovery s then s
  else if k.quiesced then { s with ckpt := { k with powerLoss := k.powerLoss || power } }
  else if extentTotal k.extents < imageSize s then { s with ckpt := { k with trigger := true, refused := true } }
  else { s with ckpt := { k with trigger := true, refused := false, quiesced := true, powerLoss := power, start := s.gtick } }

/-- R376: the event of a host command to a die's BAR0. -/
def execCheckpointHostCommand (die : Nat) (s : State) : Out :=
  enabled s (die < ndie s.part && !inRecovery s) (ckptTrigger s false)

/-- R376: the event of the power-loss warning. -/
def execPowerLossWarning (s : State) : Out := enabled s (!inRecovery s) (ckptTrigger s true)

/-- R377: whether a request waits for a lock, a monitor or an exchange, which a checkpoint leaves as they are. -/
def reqRests (s : State) (rq : Nat) : Bool :=
  (s.homes.locks.any fun p => (p.2.queue.any fun w => w.rq == rq) || p.2.writes.contains rq) ||
    (s.homes.mons.any fun m => m.rq == rq) || s.homes.waiting.contains rq ||
    s.cores.any fun p => (p.2.xtable.any fun e => e.rq == rq) || p.2.xheld.contains rq

/-- R377 step 2: every outstanding request has completed. -/
def ckptQuiet (s : State) : Bool :=
  (s.reqs.all fun p => reqRests s p.1) && (s.walks.all fun p => p.2.done.isSome) && (s.fills.all fun p => p.2.parked) &&
    s.cmds.all fun p => p.2.st != .started && p.2.st != .consumed && !cmdReady s p.2

/-- R377 step 3: the dirty words of the pair caches are written back, and their homes hold them. -/
def cleanPairs (s : State) : State :=
  (s.homes.pcache.filter fun p => p.2.dirty).foldl (fun s p =>
    let gw := p.1 % 2 ^ 50
    let pair := p.1 / 2 ^ 50
    let s1 := homeTouch (memBytes s (4 * gw) (leBytes p.2.val.toNat 4)) (gw / 32) (pairMbf s pair (gw / 32))
    let s2 := modH s1 fun h => { h with pcache := fput h.pcache p.1 { p.2 with dirty := false } }
    let s3 := disown s2 (gw / 32) pair 0 (BitVec.ofNat 32 (2 ^ (gw % 32)))
    modDir s3 (gw / 32) fun e => { e with shr := withBit e.shr pair true }) s

/-- R377 step 3: the dirty words of the stashes are written back. -/
def cleanStashes (s : State) : State :=
  s.cores.foldl (fun s p =>
    let ks := (p.2.swords.filter fun w => w.2.d).map fun w => w.1
    countWbacks (ks.foldl (fun s k => writeBackStash s p.1 k) s) p.1 ks) s

/-- The host address of a byte of the image. -/
def extentAddr : List (Nat × Nat) → Nat → Option Nat
  | [], _ => none
  | (b, n) :: es, o => if o < n then some (b + o) else extentAddr es (o - n)

/-- The byte of the image that a host address holds, within the image's size. -/
def extentOffset : List (Nat × Nat) → Nat → Nat → Option Nat
  | [], _, _ => none
  | (b, n) :: es, a, o => if b ≤ a && a < b + n then some (o + (a - b)) else extentOffset es a (o + n)

/-- R377: the image's bytes that are not zero: the memory in ascending physical address, then the tag map. -/
def imageBytes (s : State) : FMap Byte :=
  let base := hbmSize s.part
  let tag (m : FMap Byte) (p : Nat × Bool) : FMap Byte :=
    if p.2 then fmod 0 m (base + p.1 / 8) fun b => withBit b (p.1 % 8) true else m
  s.homes.tags.foldl tag s.homes.mem

/-- R377: the image written to host memory. -/
def streamImage (s : State) : State :=
  let es := s.ckpt.extents
  let size := imageSize s
  let kept := s.host.filter fun p => (extentOffset es p.1 0).all fun o => size ≤ o
  { s with host := (imageBytes s).foldl (fun m p => match extentAddr es p.1 with
    | some a => fset 0 m a p.2
    | none => m) kept }

/-- R377: the completion record in host memory: the status, and GTICK at the start and at the end. -/
def ckptReport (s : State) : State :=
  hostBytes s (Config.ckptRecordAt s.ckpt.extents) (leBytes (Config.ckptRecord 0 s.ckpt.start s.gtick).toNat 64)

/-- R377, R378: the event in which the image is streamed and the completion record written. After a power-loss trigger the device
does not resume. -/
def execCheckpointStream (s : State) : Out :=
  enabled s (s.ckpt.quiesced && ckptQuiet s) <|
    let s1 := ckptReport (streamImage (cleanStashes (cleanPairs s)))
    let k := s1.ckpt
    { s1 with
      ckpt := { k with trigger := false, quiesced := false, done := k.done ++ [(k.start, s.gtick)] },
      halted := s1.halted || k.powerLoss }

/-- R378: memory and tags as the extent list holds them. Every copy goes, the lease-mode lines take the timestamp of a write that no core makes
(R422), and the metadata of lines follows their bytes (R34). -/
def loadImage (s : State) : State :=
  let es := s.ckpt.extents
  let base := hbmSize s.part
  let img : List (Nat × Byte) := s.host.filterMap fun p => (extentOffset es p.1 0).map fun o => (o, p.2)
  let put (m : FMap Byte) (p : Nat × Byte) : FMap Byte := if p.1 < base then fset 0 m p.1 p.2 else m
  let mem := img.foldl put []
  let tagBits (p : Nat × Byte) : List Nat :=
    if base ≤ p.1 && p.1 < imageSize s then
      ((List.range 8).filter fun i => p.2.getLsbD i).map fun i => 8 * (p.1 - base) + i
    else []
  let tags := (img.flatMap tagBits).foldl (fun m g => fset false m g true) ([] : FMap Bool)
  let s1 := (s.homes.dir.map fun p => p.1).foldl recallLine s
  let s2 := modH s1 fun h => { h with mem, tags, leases := [] }
  let clean (c : Core) : Core := { c with swords := c.swords.filter fun w => w.2.d || w.2.rts.isNone }
  let s3 : State := { s2 with cores := s2.cores.map fun p => (p.1, clean p.2) }
  let s4 := ((s3.homes.dir.filter fun p => p.2.lmode).map fun p => p.1).foldl (fun s l => leaseWritten s l (eclk s)) s3
  (s4.homes.packed.map fun p => p.1).foldl repackLine s4

/-- R378: the event of a restore command, accepted only while no context is live. -/
def execCheckpointRestore (s : State) : Out :=
  enabled s
    (!inRecovery s && (s.ctxs.all fun p => !p.2.live) && imageSize s ≤ extentTotal s.ckpt.extents) (loadImage s)

/-! Secure boot (R394 to R396). -/

/-- R395: the digest of an image. -/
def imageDigest (i : FwImage) : BitVec 512 := Config.shake256 (i.key ++ i.sig ++ i.head ++ i.body)

/-- R394: the SVN of an image, which its signed header holds. -/
def imageSvn (i : FwImage) : BitVec 6 := Config.headerSvn i.head

/-- R394: whether a die's boot ROM accepts an image. -/
def imageOk (d : Die) (i : FwImage) : Bool :=
  i.key.length == 64 && i.sig.length == 29792 && Config.shake256 i.key == d.keyDigest && Config.slhDsaVerify i.sig (i.head ++ i.body) i.key &&
    d.svn.toNat ≤ (imageSvn i).toNat

/-- R394, R395: a die after a package reset: it runs the image, or enters recovery. Its fuses keep what they hold, and a higher SVN is
blown before the image runs; the image that it has stored stays (R396). -/
def bootDie (d : Die) (i : FwImage) (ok : Bool) : Die :=
  let kept : Die := { Die.reset with keyDigest := d.keyDigest, secret := d.secret, stored := d.stored }
  if ok then { kept with image := some i, svn := imageSvn i } else { kept with recovery := true, svn := d.svn }

/-- R395: whether every die accepts its image and all the digests agree. -/
def imagesAgree (s : State) (l : List FwImage) : Bool :=
  (l.zipIdx.all fun p => imageOk (getDie s p.2) p.1) &&
    l.all fun i => imageDigest i == imageDigest (l.headD { key := [], sig := [], head := [], body := [] })

/-- R395: a package reset with the images that the dies find. What lies outside the package stays, and the model's own counters. -/
def resetPackage (s : State) (l : List FwImage) : State :=
  let ok := imagesAgree s l
  { State.reset with
    part := s.part, rev := s.rev, schedule := s.schedule, free := s.free, nextId := s.nextId, host := s.host, peers := s.peers,
    dies := l.zipIdx.foldl (fun m p => fset Die.reset m p.2 (bootDie (getDie s p.2) p.1 ok)) [] }

/-- R394, R395: the event of a package reset. A die boots the image that was staged while it ran, else the one that recovery stored, else
the one of `images`, which the package was given from outside. -/
def execPackageReset (images : List FwImage) (s : State) : Out :=
  enabled s (images.length == ndie s.part) <|
    resetPackage s (images.zipIdx.map fun p => ((getDie s p.2).staged.orElse fun _ => (getDie s p.2).stored).getD p.1)

/-- R396: the event in which recovery receives an image: one that verifies is stored for the package, which resets. -/
def execRecoveryImageWrite (die : Nat) (image : FwImage) (s : State) : Out :=
  enabled s (die < ndie s.part && (getDie s die).recovery) <|
    if imageOk (getDie s die) image then
      let s1 := (List.range (ndie s.part)).foldl (fun s d => modDie s d fun x => { x with stored := some image }) s
      resetPackage s1 (List.replicate (ndie s.part) image)
    else s

/-- R395: the event in which an image is loaded while the package runs: it is verified at once, and staged. -/
def execFirmwareImageStage (die : Nat) (image : FwImage) (s : State) : Out :=
  enabled s (die < ndie s.part && !(getDie s die).recovery) <|
    if imageOk (getDie s die) image then modDie s die fun d => { d with staged := some image, stored := some image } else s

/-- The little-endian bytes of a digest. -/
def digestBytes (x : BitVec 512) : List Byte := leBytes x.toNat 64

/-- R396: the measurements of a die: its ROM, its image and its fuse state. -/
def measurements (die : Nat) (d : Die) : List (BitVec 512) :=
  let image : List (BitVec 512) := match d.image with | some i => [imageDigest i] | none => []
  [Config.romDigest die] ++ image ++ [Config.shake256 (digestBytes d.keyDigest ++ [BitVec.zeroExtend 8 d.svn])]

/-- R396: the device identity key that the boot ROM derives from the fused secret. -/
def deviceKey (d : Die) : BitVec 512 := Config.shake256 (digestBytes d.secret)

/-- R396: the event of an attestation report: the digests, and a signature over them. -/
def execAttestationReport (die : Nat) (s : State) : Out :=
  enabled s (die < ndie s.part) <|
    let l := measurements die (getDie s die)
    modDie s die fun d => { d with reports := d.reports ++ [l.flatMap digestBytes ++ Config.attestSign (deviceKey (getDie s die)) l] }

/-! Ageing and thermal limits (R397 to R399). -/

/-- R397, R398: a measurement taken: AGEHLTH shows it, and below 8 ps of slack the clock steps below 1.8 GHz, which changes the operating
point. A clock that is low stays so, whatever slack it then shows (log 91). -/
def measure (d : Die) (now : BitVec 64) (slack rosc : BitVec 12) : Die :=
  let low := slack.toNat < 80
  { d with slack, rosc, lowf := d.lowf || low, mtick := now.extractLsb' 34 30, measure := false, opChange := d.opChange || low,
           planned := d.planned && !low }

/-- R397: the event of a measurement that has fallen due. One that falls due during an operating-point change is taken at its end. -/
def execAgeingMeasurement (die : Nat) (slack rosc : BitVec 12) (s : State) : Out :=
  let d := getDie s die
  enabled s (die < ndie s.part && d.measure && !d.opChange) <| modDie s die fun d => measure d s.gtick slack rosc

/-- R397: the event in which firmware asks for a guardband, in mV: it is clamped, and the operating point changes. -/
def execGuardbandRequest (die mv : Nat) (s : State) : Out :=
  enabled s (die < ndie s.part) <|
    let v := clampTo 15 120 mv
    modDie s die fun d => { d with gb := BitVec.ofNat 8 v, clamp := v != mv, opChange := true, planned := true }

/-- R397: the measurement of a die that is due, as the outside world gives it (log 91). -/
def measureEvent (s : State) (die : Nat) : Event :=
  .ageingMeasurement die (Config.dieSlack die s.gtick.toNat) (Config.dieRosc die s.gtick.toNat)

/-- R397: the event in which an operating-point change completes: a measurement that fell due meanwhile is taken. After a plan the clock may
be at 1.8 GHz again (log 91). -/
def execOperatingPointChangeDone (die : Nat) (s : State) : Out :=
  let d := getDie s die
  enabled s d.opChange <|
    let lifts := d.lowf && d.planned
    let s1 := modDie (if lifts then { s with free := s.free + 1 } else s) die fun d =>
      { d with opChange := false, planned := false, lowf := d.lowf && !(lifts && !Config.keepsLow s.free) }
    if d.measure then push s1 (measureEvent s1 die) else s1

/-- R398: AGEHLTH as system software reads it. -/
def agehlth (d : Die) : BitVec 64 :=
  BitVec.ofNat 64 (d.slack.toNat + 2 ^ 12 * d.rosc.toNat + 2 ^ 24 * d.gb.toNat + 2 ^ 32 * d.clamp.toNat + 2 ^ 33 * d.lowf.toNat +
    2 ^ 34 * d.mtick.toNat)

/-- R399: the event of 105 degrees: the die's clock is lowered, which changes timing only. -/
def execThermalThrottle (die : Nat) (s : State) : Out :=
  enabled s (die < ndie s.part) <| modDie s die fun d => { d with throttled := true, opChange := true, planned := false }

/-- R399: the event of 115 degrees: all issue in the package stops, and the power-loss trigger is raised. -/
def execThermalTrip (die : Nat) (s : State) : Out :=
  enabled s (die < ndie s.part) <| { ckptTrigger s true with halted := true }

/-- R369: the event in which system software enables or disables AtomicOp requests at a host port. -/
def execConfigurationSpaceWrite (die : Nat) (atomicOp : Bool) (s : State) : Out :=
  enabled s (die < ndie s.part) <| modDie s die fun d => { d with atomicOp }

end Sys2Proof.Machine
end

