-- ==== Sys2Proof/Machine/Links.lean ====
section
/-!
DEFINITION. The ends of the Col and UCIe links: flits, replay, retraining, and a link that is down (R332, R372 to R375).
-/
namespace Sys2Proof.Machine

/-- R372: one step of the CRC over a bit. -/
def crcStep (r : Nat) (b : Bool) : Nat :=
  let top := r / 2 ^ 63 % 2 == 1
  let sh := r * 2 % 2 ^ 64
  if top != b then sh ^^^ 0x42F0E1EBA9EA3693 else sh

/-- R372: the CRC-64 of the low `n` bits of a number, from its most significant bit (log 40). -/
def crcBits (x : Nat) : Nat → Nat → Nat
  | 0, r => r
  | n + 1, r => crcBits x n (crcStep r (x.testBit n))

/-- The fields of a flit (R372). -/
def flitSeq (f : BitVec 2048) : BitVec 12 := f.extractLsb' 0 12
def flitAck (f : BitVec 2048) : BitVec 12 := f.extractLsb' 12 12
def flitKind (f : BitVec 2048) : BitVec 4 := f.extractLsb' 24 4
def flitPayload (f : BitVec 2048) : BitVec 1920 := f.extractLsb' 64 1920
def flitCrc (f : BitVec 2048) : BitVec 64 := f.extractLsb' 1984 64

/-- R372: whether a flit's CRC matches. -/
def flitOk (f : BitVec 2048) : Bool := (flitCrc f).toNat == crcBits f.toNat 1984 0

/-- Whether a sequence number lies after another, modulo 4,096. -/
def seqAfter (a b : BitVec 12) : Bool := a != b && (a - b).toNat < 2048

/-- R372: a link that is up, and neither retrains nor is down. -/
def linkUp (l : Link) : Bool := l.st == 0

/-- R1, R2: the link ends that a part has: two Col ports for each die, and a bundle from each die to every other. -/
def linkExists (s : State) (link : Nat) : Bool :=
  if link < 8 then link < 2 * ndie s.part
  else (link - 8) / 4 < ndie s.part && (link - 8) % 4 < ndie s.part && (link - 8) / 4 != (link - 8) % 4

/-- R372: a flit as a link end composes it: SEQ, ACK, KIND, the payload, and the CRC over bits 1983:0. -/
def composeFlit (seq ack : BitVec 12) (kind : Nat) (payload : BitVec 1920) : BitVec 2048 :=
  let body := seq.toNat + 2 ^ 12 * ack.toNat + 2 ^ 24 * kind + 2 ^ 64 * payload.toNat
  BitVec.ofNat 2048 (body + 2 ^ 1984 * crcBits body 1984 0)

/-- R372: an idle flit (kind 1), a NAK (2) or a retrain request (3) is sent. Its SEQ, which the spec does not give, is that of the next data
flit, and its payload is 0 (log 40). -/
def sendControl (l : Link) (kind : Nat) : Link := { l with sent := l.sent ++ [composeFlit l.nextSeq l.lastAcc kind 0] }

/-- R373: the entry of the send window that a SEQ takes, and its stripe. -/
def entryOf (q : BitVec 12) : Nat := q.toNat % 256
def stripeOf (q : BitVec 12) : Nat := entryOf q / 8

/-- R372, R373: a message is sent in a data flit, which its window entry keeps, with the parity flit of its stripe. -/
def sendData (l : Link) (m : BitVec 1920) : Link :=
  let f := composeFlit l.nextSeq l.lastAcc 0 m
  let e := entryOf l.nextSeq
  let k := stripeOf l.nextSeq
  { l with
    nextSeq := l.nextSeq + 1, sent := l.sent ++ [f], window := l.window ++ [(l.nextSeq, f)],
    parity := fset 0 l.parity k (fget 0 l.parity k ^^^ fget 0 l.stored e ^^^ f), stored := fset 0 l.stored e f }

/-- R373: the messages that wait are sent while the link is up and the send window of 256 entries has room, at most `n` of them. -/
def pump : Nat → Link → Link
  | 0, l => l
  | n + 1, l => match l.outbox with
    | [] => l
    | m :: rest => if l.st != 0 || 256 ≤ l.window.length then l else pump n (sendData { l with outbox := rest } m)

/-- R373: the acknowledged flits leave the send window, and messages that waited for it go out. -/
def acked (l : Link) (a : BitVec 12) : Link := pump l.outbox.length { l with window := l.window.filter fun p => seqAfter p.1 a }

/-- R372: a receiver that finds a mismatch or a gap sends a NAK and accepts nothing before the replayed flit. -/
def sendNak (l : Link) : Link := sendControl { l with nakSent := true } 2

/-- R372: a data flit at a receiver: the next in order is delivered, and acknowledged in an idle flit (log 40); a gap makes a NAK, unless one has
been sent, and an earlier flit is not delivered again. -/
def takeFlit (l : Link) (f : BitVec 2048) : Link :=
  let q := flitSeq f
  if q == l.lastAcc + 1 then sendControl { l with lastAcc := q, delivered := l.delivered ++ [flitPayload f], nakSent := false } 1
  else if seqAfter q (l.lastAcc + 1) && !l.nakSent then sendNak l else l

/-- R372: a transaction message that is handed to a link end. What the messages are, and which of them share a flit, the spec does not give:
the model takes them from the schedule, one a flit (log 40). -/
def takeMessage (s : State) (link : Nat) (m : BitVec 1920) : State :=
  if !linkExists s link || (getLink s link).st == 2 then s else
  modLink s link fun l => pump (l.outbox.length + 1) { l with outbox := l.outbox ++ [m] }

/-- R372: what a flit does at a link end that is up: a CRC mismatch makes a NAK, else the flit acts with its acknowledgement taken. -/
def onFlit (s : State) (link : Nat) (flit : BitVec 2048) (kinds : List Nat) (act : Link → Link) : Out :=
  let l := getLink s link
  enabled s (linkExists s link && linkUp l && (!flitOk flit || kinds.contains (flitKind flit).toNat)) <|
    modLink s link fun l => if flitOk flit then act (acked l (flitAck flit)) else sendNak l

/-- R372: the event of a data flit. A flit of a reserved kind is discarded. -/
def execFlitData (link : Nat) (flit : BitVec 2048) (s : State) : Out :=
  let l := getLink s link
  enabled s (linkExists s link && linkUp l && (!flitOk flit || flitKind flit == 0 || 4 ≤ (flitKind flit).toNat)) <|
    modLink s link fun l =>
      if !flitOk flit then sendNak l
      else if flitKind flit == 0 then takeFlit (acked l (flitAck flit)) flit else l

/-- R372: the event of an idle flit, which acknowledges. -/
def execFlitIdle (link : Nat) (flit : BitVec 2048) (s : State) : Out := onFlit s link flit [1] id

/-- R374, R375: a retrain begins, which the other end of the link has asked for, or is asked for. -/
def startRetrain (s : State) (l : Link) : Link :=
  { l with st := 1, attempts := 0, retrySince := s.gtick.toNat, retrain := if l.retrain == 0xFFF then l.retrain else l.retrain + 1 }

/-- R375: a 16-bit count that saturates. -/
def countUp (x : BitVec 16) : BitVec 16 := if x == 0xFFFF then x else x + 1

/-- R373: an entry rebuilt from the other seven of its stripe and their parity. -/
def rebuilt (l : Link) (e : Nat) : BitVec 2048 :=
  ((List.range 8).filter fun i => 8 * (e / 8) + i != e).foldl (fun x i => x ^^^ fget 0 l.stored (8 * (e / 8) + i)) (fget 0 l.parity (e / 8))

/-- R373: the replay of the flit after the acknowledged one. `bad` lists the window entries, by number, that SECDED cannot read:
one of a stripe is rebuilt from the other seven and their parity; two or more of a stripe make the link retrain. -/
def replay (s : State) (bad : List Nat) (a : BitVec 12) (l : Link) : Link :=
  match l.window.find? fun p => p.1 == a + 1 with
  | none => l
  | some (q, _) =>
    let lost := bad.dedup.filter fun e => e < 256 && e / 8 == stripeOf q
    if 2 ≤ lost.length then startRetrain s (sendControl l 3) else
    let broken := lost.contains (entryOf q)
    let f := if broken then rebuilt l (entryOf q) else fget 0 l.stored (entryOf q)
    let l1 := if broken then { l with rebuild := countUp l.rebuild } else l
    { l1 with sent := l1.sent ++ [f], replays := l1.replays ++ [f], replay := countUp l1.replay }

/-- R373: the event of a NAK. -/
def execFlitNak (link : Nat) (flit : BitVec 2048) (bad : List Nat) (s : State) : Out :=
  onFlit s link flit [2] (replay s bad (flitAck flit))

/-- R374: the event of a retrain request. -/
def execFlitRetrainRequest (link : Nat) (flit : BitVec 2048) (s : State) : Out :=
  onFlit s link flit [3] (startRetrain s)

/-- R374: a link end after a retrain: its window is empty; the messages after the last SEQ that the other end accepted are reported to
their originators, which reissue them, ahead of those that waited; numbering goes on from there (log 40). -/
def retrained (l : Link) (accepted : BitVec 12) : Link :=
  let lost := (l.window.filter fun p => seqAfter p.1 accepted).map fun p => flitPayload p.2
  let l1 : Link := { l with
    st := 0, attempts := 0, nakSent := false, window := [], stored := [], parity := [], nextSeq := accepted + 1,
    reissued := l.reissued ++ lost, outbox := lost ++ l.outbox }
  pump l1.outbox.length l1

/-- R2: the other end of a bundle between two dies. -/
def otherEnd (link : Nat) : Option Nat := if link < 8 then none else some (8 + 4 * ((link - 8) % 4) + (link - 8) / 4)

/-- R374: the event in which a retrain succeeds. The ends of a bundle exchange the last SEQ that each accepted, and both go on; the other end of
a Col link lies in another package. -/
def execRetrainComplete (link : Nat) (accepted : BitVec 12) (s : State) : Out :=
  let l := getLink s link
  let agrees := (otherEnd link).all fun o => (getLink s o).lastAcc == accepted
  enabled s (linkExists s link && l.st == 1 && agrees && s.gtick.toNat ≤ l.retrySince + 2 ^ 16) <|
    let s1 := modLink s link fun l => retrained l accepted
    match otherEnd link with
    | some o => modLink s1 o fun x => retrained x l.lastAcc
    | none => s1

/-- R330, R371, R374: the remote copies that are outstanding over a Col port, or over a bundle between two dies. -/
def copiesOver (s : State) (link : Nat) : List Nat :=
  let ends (a b : Nat) : Bool := (link == 8 + 4 * a + b) || (link == 8 + 4 * b + a)
  (s.cmds.filter fun p => match p.2.kind with
    | .remote d _ _ _ => !p.2.cancel && p.2.st != .completed && p.2.st != .held &&
        if d.space = 4 then (ffind (getX s p.2.ctx).peers (d.addr.toNat / 2 ^ 48)).any fun e => dieOf p.2.core * 2 + e.port % 2 == link
        else (remoteDies s p.2).any fun b => ends (dieOf p.2.core) b
    | _ => false).map fun p => p.1

/-- R332, R374: a remote copy ends with RMT_FAIL, its flag not written. -/
def failCopy (s : State) (id : Nat) : State :=
  match getCmd s id with
  | none => s
  | some c =>
    let a := match c.kind with | .remote d _ _ _ => d.addr.toNat | _ => 0
    let s1 : State := { s with reqs := s.reqs.filter fun r => r.2.agent != .engine id }
    serveCore (completeCmd (endReport s1 c (.remote a)) id true) c.core

/-- R86, R374: the dies from which the data of a read come: that of the home, and of the units that own words that it reads. -/
def dataDies (s : State) (q : Req) : List Nat :=
  lineDie q.line :: (ownersIn (dirAt s q.line) (reqMask q) 64 3).map fun o => dieOf (2 * o.1)

/-- Whether data from one of some dies come to a core over the bundle between two dies. -/
def crosses (a b core : Nat) (froms : List Nat) : Bool :=
  (dieOf core == a && froms.contains b) || (dieOf core == b && froms.contains a)

/-- R374: the loads that await data over the UCIe bundle between two dies. -/
def loadsOver (s : State) (a b : Nat) : List Nat :=
  (s.reqs.filter fun p => isGroupReq p.2 && (p.2.kind == .read || p.2.kind == .capRead) && p.2.mode != 2 && !p.2.done &&
    crosses a b p.2.core (dataDies s p.2)).map fun p => p.1

/-- R374: the stash words whose fills await data over that bundle: the core, the word, and a global byte of it. -/
def fillsOver (s : State) (a b : Nat) : List (Nat × Nat × Nat) :=
  s.fills.flatMap fun p => match ffind (getC s p.2.core).maps p.2.entry with
    | none => []
    | some e => ((List.range 32).map (32 * p.2.line + ·)).filterMap fun k =>
      if (swordAt s p.2.core k).v then none else
      (((wordSrc (getC s p.2.core) e k).filterMap fun x => x).find? fun x => match xlateCore s p.2.core e.ctx .fill x with
        | .ok l => crosses a b p.2.core [lineDie (leafPa l x / 128)]
        | .error _ => false).map fun x => (p.2.core, k, x)

/-- R374: a link is down: a Col link's remote copies fail; a UCIe link, both ends of which are down, stops the package's issue, and its loads,
those that wait for fills included, take MEM_ERR. -/
def linkDown (s : State) (link : Nat) : State :=
  let down (s : State) (k : Nat) : State := modLink s k fun l => { l with st := 2, window := [] }
  let s1 := (otherEnd link).toList.foldl down (down s link)
  let s2 := (copiesOver s1 link).foldl failCopy s1
  if link < 8 then s2
  else
    let a := (link - 8) / 4
    let b := (link - 8) % 4
    let s3 := (loadsOver s2 a b).foldl (fun s r => memError s (getR s r)) { s2 with halted := true }
    (fillsOver s3 a b).foldl (fun s x => fillError s x.1 x.2.1 x.2.2) s3

/-- R374: the event in which a retrain attempt has lasted 2^16 ticks. The eighth failure takes the link down. -/
def execRetrainAttemptTimeout (link : Nat) (s : State) : Out :=
  let l := getLink s link
  enabled s (linkExists s link && l.st == 1 && l.retrySince + 2 ^ 16 ≤ s.gtick.toNat) <|
    if 8 ≤ l.attempts + 1 then linkDown (modLink s link fun l => { l with attempts := 8 }) link
    else modLink s link fun l => { l with attempts := l.attempts + 1, retrySince := s.gtick.toNat }

/-- R375: LINKSTAT as system software reads it. -/
def linkstat (l : Link) : BitVec 64 :=
  BitVec.ofNat 64 (l.replay.toNat + 2 ^ 16 * l.rebuild.toNat + 2 ^ 32 * l.retrain.toNat + 2 ^ 44 * l.st.toNat)

/-- R375: the event of a write of LINKSTAT: each bit written as 1 clears a bit of a count. -/
def execLinkstatClear (link : Nat) (w : BitVec 64) (s : State) : Out :=
  enabled s (linkExists s link) <| modLink s link fun l => { l with
    replay := l.replay &&& ~~~ w.extractLsb' 0 16, rebuild := l.rebuild &&& ~~~ w.extractLsb' 16 16,
    retrain := l.retrain &&& ~~~ w.extractLsb' 32 12 }

end Sys2Proof.Machine
end

