-- ==== Sys2Proof/Machine/Scalar.lean ====
section
/-!
DEFINITION. Scalar arithmetic, constants and special registers (R249 to R257).
-/
namespace Sys2Proof.Machine

/-- R251: a register form: both sources, then the destination. -/
def scalar2 (i : Instr) (b2 b1 : BitVec 1) (ss2 ss1 sd : BitVec 6) (f : DWord → DWord → DWord) (s : State) : Out :=
  commitNext i s do
    checkField i
    let a ← srcS (curG s) ss1 (b1 == 1)
    let b ← srcS (curG s) ss2 (b2 == 1)
    dstS (curG s) sd
    .ok (modCur s fun g => sPut g sd (f a b))

/-- R252: an immediate form, which reads sd and writes it back. -/
def scalarImm (i : Instr) (sd : BitVec 6) (f : DWord → DWord) (s : State) : Out :=
  commitNext i s do
    checkField i
    let a ← srcS (curG s) sd false
    .ok (modCur s fun g => sPut g sd (f a))

/-- The sign extension of IMM16 (R252). -/
def immS (imm : BitVec 16) : DWord := BitVec.signExtend 64 imm

/-- R251: the lesser of two values as i64, or as n64. -/
def minS (u : Bool) (a b : DWord) : DWord := if (if u then a.ule b else a.sle b) then a else b
def maxS (u : Bool) (a b : DWord) : DWord := if (if u then a.ule b else a.sle b) then b else a

/-- R251: COND 0 to 5 on i64, or on n64. -/
def condS (u : Bool) (c : BitVec 3) (a b : DWord) : Bool :=
  let lt := if u then a.ult b else a.slt b
  match c.toNat with
  | 0 => a == b
  | 1 => a != b
  | 2 => lt
  | 3 => lt || a == b
  | 4 => !(lt || a == b)
  | _ => !lt

def execSadd (b2 b1 : BitVec 1) (ss2 ss1 sd : BitVec 6) (s : State) : Out :=
  scalar2 (.sadd b2 b1 ss2 ss1 sd) b2 b1 ss2 ss1 sd (fun a b => a + b) s
def execSsub (b2 b1 : BitVec 1) (ss2 ss1 sd : BitVec 6) (s : State) : Out :=
  scalar2 (.ssub b2 b1 ss2 ss1 sd) b2 b1 ss2 ss1 sd (fun a b => a - b) s
def execSmul (b2 b1 : BitVec 1) (ss2 ss1 sd : BitVec 6) (s : State) : Out :=
  scalar2 (.smul b2 b1 ss2 ss1 sd) b2 b1 ss2 ss1 sd (fun a b => a * b) s
def execSand (b2 b1 : BitVec 1) (ss2 ss1 sd : BitVec 6) (s : State) : Out :=
  scalar2 (.sand b2 b1 ss2 ss1 sd) b2 b1 ss2 ss1 sd (fun a b => a &&& b) s
def execSor (b2 b1 : BitVec 1) (ss2 ss1 sd : BitVec 6) (s : State) : Out :=
  scalar2 (.sor b2 b1 ss2 ss1 sd) b2 b1 ss2 ss1 sd (fun a b => a ||| b) s
def execSxor (b2 b1 : BitVec 1) (ss2 ss1 sd : BitVec 6) (s : State) : Out :=
  scalar2 (.sxor b2 b1 ss2 ss1 sd) b2 b1 ss2 ss1 sd (fun a b => a ^^^ b) s
def execSmin (u b2 b1 : BitVec 1) (ss2 ss1 sd : BitVec 6) (s : State) : Out :=
  scalar2 (.smin u b2 b1 ss2 ss1 sd) b2 b1 ss2 ss1 sd (minS (u == 1)) s
def execSmax (u b2 b1 : BitVec 1) (ss2 ss1 sd : BitVec 6) (s : State) : Out :=
  scalar2 (.smax u b2 b1 ss2 ss1 sd) b2 b1 ss2 ss1 sd (maxS (u == 1)) s
def execSshl (b2 b1 : BitVec 1) (ss2 ss1 sd : BitVec 6) (s : State) : Out :=
  scalar2 (.sshl b2 b1 ss2 ss1 sd) b2 b1 ss2 ss1 sd (fun a b => a <<< (b.toNat % 64)) s
def execSshr (b2 b1 : BitVec 1) (ss2 ss1 sd : BitVec 6) (s : State) : Out :=
  scalar2 (.sshr b2 b1 ss2 ss1 sd) b2 b1 ss2 ss1 sd (fun a b => a >>> (b.toNat % 64)) s
def execSsra (b2 b1 : BitVec 1) (ss2 ss1 sd : BitVec 6) (s : State) : Out :=
  scalar2 (.ssra b2 b1 ss2 ss1 sd) b2 b1 ss2 ss1 sd (fun a b => a.sshiftRight (b.toNat % 64)) s
def execScmp (u b2 b1 : BitVec 1) (ss2 ss1 sd : BitVec 6) (cond : BitVec 3) (s : State) : Out :=
  scalar2 (.scmp u b2 b1 ss2 ss1 sd cond) b2 b1 ss2 ss1 sd (fun a b => if condS (u == 1) cond a b then 1 else 0) s

/-- R251: `smov`. -/
def execSmov (b1 : BitVec 1) (ss1 sd : BitVec 6) (s : State) : Out :=
  commitNext (.smov b1 ss1 sd) s do
    let a ← srcS (curG s) ss1 (b1 == 1)
    dstS (curG s) sd
    .ok (modCur s fun g => sPut g sd a)

def execSaddImm (imm : BitVec 16) (sd : BitVec 6) (s : State) : Out :=
  scalarImm (.saddImm imm sd) sd (fun a => a + immS imm) s
def execSandImm (imm : BitVec 16) (sd : BitVec 6) (s : State) : Out :=
  scalarImm (.sandImm imm sd) sd (fun a => a &&& immS imm) s
def execSorImm (imm : BitVec 16) (sd : BitVec 6) (s : State) : Out :=
  scalarImm (.sorImm imm sd) sd (fun a => a ||| immS imm) s
def execSxorImm (imm : BitVec 16) (sd : BitVec 6) (s : State) : Out :=
  scalarImm (.sxorImm imm sd) sd (fun a => a ^^^ immS imm) s
def execSshlImm (amt sd : BitVec 6) (s : State) : Out :=
  scalarImm (.sshlImm amt sd) sd (fun a => a <<< amt.toNat) s
def execSshrImm (amt sd : BitVec 6) (s : State) : Out :=
  scalarImm (.sshrImm amt sd) sd (fun a => a >>> amt.toNat) s
def execSsraImm (amt sd : BitVec 6) (s : State) : Out :=
  scalarImm (.ssraImm amt sd) sd (fun a => a.sshiftRight amt.toNat) s
def execSmulImm (imm : BitVec 16) (sd : BitVec 6) (s : State) : Out :=
  scalarImm (.smulImm imm sd) sd (fun a => a * immS imm) s

/-- R253: `sli`. -/
def execSli (imm : BitVec 16) (sd : BitVec 6) (s : State) : Out :=
  commitNext (.sli imm sd) s do
    dstS (curG s) sd
    .ok (modCur s fun g => sPut g sd (immS imm))

/-- R253: one halfword of a value replaced. -/
def putHalf (a : DWord) (h : Nat) (imm : BitVec 16) : DWord :=
  (a &&& ~~~ (0xFFFF#64 <<< (16 * h))) ||| (BitVec.zeroExtend 64 imm <<< (16 * h))

def execSlih (imm : BitVec 16) (sd : BitVec 6) (h : BitVec 2) (s : State) : Out :=
  scalarImm (.slih imm sd h) sd (fun a => putHalf a h.toNat imm) s

/-- R60: PARTSTAT of a core. WAITREG counts the granules that have yet to leave the register role and in which a resident
group holds a slot. -/
def partstat (s : State) (core : Nat) : DWord :=
  let c := getC s core
  let held := (resident s core).flatMap fun p => p.2.slots
  let wait := (List.range 96).filter fun g => fget 0 c.roles g == 1 && held.any fun k => k / 2 == g
  BitVec.ofNat 64 (c.pend.toNat + 2 ^ 8 * c.moved + 2 ^ 16 * c.tomove + 2 ^ 24 * wait.length + 2 ^ 32 * c.start.toNat)

/-- R256: CAPS as a core reads it. -/
def capsWord (s : State) (core : Nat) : DWord :=
  BitVec.ofNat 64 (ndie s.part + 2 ^ 3 * dieOf core + (if s.part = .sw2p then 2 ^ 8 else 0) +
    (if s.part = .sw4m then 2 ^ 9 else 0) + 2 ^ 10 + 2 ^ 16 * s.rev.toNat + 2 ^ 24 * ncore s.part)

/-- R238, R254, R255: the value of a special register as a group reads it. -/
def specialRead (s : State) (g : Group) (n : Nat) : DWord :=
  match n with
  | 0x00 => BitVec.zeroExtend 64 g.gid
  | 0x01 => BitVec.zeroExtend 64 g.ngrp
  | 0x02 => BitVec.zeroExtend 64 g.taskg
  | 0x03 => BitVec.ofNat 64 g.core
  | 0x04 => BitVec.zeroExtend 64 g.role
  | 0x05 => BitVec.zeroExtend 64 (taskOf s g).fflags
  | 0x06 => s.gtick
  | 0x07 => BitVec.zeroExtend 64 (taskOf s g).tvec
  | 0x08 => BitVec.zeroExtend 64 g.xcause
  | 0x09 => BitVec.zeroExtend 64 g.xpc
  | 0x0A => BitVec.zeroExtend 64 g.xinsn
  | 0x0B => g.xf0
  | 0x0C => g.xf1
  | 0x0D => g.xf2
  | 0x0E => g.xf3
  | 0x0F => BitVec.zeroExtend 64 g.xaddr
  | 0x10 => BitVec.zeroExtend 64 (lspart (getC s g.core))
  | 0x11 => partstat s g.core
  | 0x12 => BitVec.zeroExtend 64 (getX s g.ctx).skey
  | 0x13 => BitVec.zeroExtend 64 (getX s g.ctx).xlease
  | 0x14 => BitVec.zeroExtend 64 (getX s g.ctx).cqbase
  | 0x15 => (getX s g.ctx).cqspill
  | 0x16 => (getC s g.core).lstale
  | 0x17 => capsWord s g.core
  | _ => 0

/-- An address register whose bit 0 is not defined (R255). -/
def evenAddr (v : DWord) : BitVec 56 := BitVec.truncate 56 v &&& ~~~ 1

/-- R254, R255: a write of a special register's defined bits. -/
def specialWrite (s : State) (n : Nat) (v : DWord) : State :=
  let g := curG s
  match n with
  | 0x05 => modT s g.task fun t => { t with fflags := BitVec.truncate 6 v }
  | 0x07 => modT s g.task fun t => { t with tvec := evenAddr v }
  | 0x08 => modCur s fun g => { g with xcause := BitVec.truncate 7 v }
  | 0x09 => modCur s fun g => { g with xpc := evenAddr v }
  | 0x0A => modCur s fun g => { g with xinsn := BitVec.truncate 37 v }
  | 0x0B => modCur s fun g => { g with xf0 := v }
  | 0x0C => modCur s fun g => { g with xf1 := v }
  | 0x0D => modCur s fun g => { g with xf2 := v }
  | 0x0E => modCur s fun g => { g with xf3 := v }
  | 0x0F => modCur s fun g => { g with xaddr := BitVec.truncate 56 v }
  | 0x16 => modC s g.core fun c => { c with lstale := v }
  | _ => s

/-- R254: `sget`. -/
def execSget (n : BitVec 16) (sd : BitVec 6) (s : State) : Out :=
  commitNext (.sget n sd) s do
    checkField (.sget n sd)
    dstS (curG s) sd
    .ok (modCur s fun g => sPut g sd (specialRead s g n.toNat))

/-- R254: `sset`. -/
def execSset (n : BitVec 16) (ss : BitVec 6) (s : State) : Out :=
  commitNext (.sset n ss) s do
    checkField (.sset n ss)
    let v ← srcS (curG s) ss false
    .ok (specialWrite s n.toNat v)

end Sys2Proof.Machine
end

