-- ==== Sys2Proof/Machine/VecInt.lean ====
section
/-!
DEFINITION. Vector integer instructions: arithmetic, logic, shifts, saturation, immediates, selection and comparison
(R164 to R169, R231, R274 to R282).
-/
namespace Sys2Proof.Machine

/-- A value that is U or A, as base and stride. -/
def asA (v : VVal) : Option (Word × Word) :=
  match v with
  | .u x => some (x, 0)
  | .a b st => some (b, st)
  | .g _ => none

/-- R165: `vadd` and `vsub` of U and A. -/
def affAdd (l : List VVal) : Option VVal :=
  match l.map asA with
  | [some (b, x), some (c, y)] => some (.a (b + c) (x + y))
  | _ => none
def affSub (l : List VVal) : Option VVal :=
  match l.map asA with
  | [some (b, x), some (c, y)] => some (.a (b - c) (x - y))
  | _ => none

/-- R165: a product of one A and one U. -/
def affMul (l : List VVal) : Option VVal :=
  match l with
  | [.a b x, .u k] => some (.a (b * k) (x * k))
  | [.u k, .a b x] => some (.a (b * k) (x * k))
  | _ => none

/-- R165: `vmad`: such a product, and an addend U or A. -/
def affMad (l : List VVal) : Option VVal :=
  match l with
  | [x, y, z] => match affMul [x, y] with
    | some p => affAdd [p, z]
    | none => none
  | _ => none

/-- R165: `vshl` of an A by a U, and `vneg` of an A. -/
def affShl (l : List VVal) : Option VVal :=
  match l with
  | [.a b x, .u k] => some (.a (b <<< (k.toNat % 32)) (x <<< (k.toNat % 32)))
  | _ => none
def affNeg (l : List VVal) : Option VVal :=
  match l with
  | [.a b x] => some (.a (0 - b) (0 - x))
  | _ => none

/-- A function of 32-bit or 64-bit operands, as a lane function without flags. -/
def on1 (f : Word → Word) (l : List DWord) : DWord × Fl :=
  match l with
  | [a] => (BitVec.zeroExtend 64 (f (lo32 a)), 0)
  | _ => (0, 0)
def on2 (f : Word → Word → Word) (l : List DWord) : DWord × Fl :=
  match l with
  | [a, b] => (BitVec.zeroExtend 64 (f (lo32 a) (lo32 b)), 0)
  | _ => (0, 0)
def on1q (f : DWord → DWord) (l : List DWord) : DWord × Fl :=
  match l with
  | [a] => (f a, 0)
  | _ => (0, 0)
def on2q (f : DWord → DWord → DWord) (l : List DWord) : DWord × Fl :=
  match l with
  | [a, b] => (f a b, 0)
  | _ => (0, 0)

/-- Bits `n` up of the exact product, signed or not (R277). -/
def mulHi {n : Nat} (u : Bool) (a b : BitVec n) : BitVec n :=
  if u then BitVec.ofNat n (a.toNat * b.toNat / 2 ^ n) else BitVec.ofInt n (a.toInt * b.toInt / 2 ^ n)

/-- The lesser and the greater, signed or not (R277). -/
def minB {n : Nat} (u : Bool) (a b : BitVec n) : BitVec n := if (if u then a.ule b else a.sle b) then a else b
def maxB {n : Nat} (u : Bool) (a b : BitVec n) : BitVec n := if (if u then a.ule b else a.sle b) then b else a

/-- R277: shifts by the low 5 or 6 bits of the amount, of which 64-bit forms take the low half. -/
def shlB (a b : Word) : Word := a <<< (b.toNat % 32)
def shrB (a b : Word) : Word := a >>> (b.toNat % 32)
def sraB (a b : Word) : Word := a.sshiftRight (b.toNat % 32)
def shlQ (a b : DWord) : DWord := a <<< (b.toNat % 64)
def shrQ (a b : DWord) : DWord := a >>> (b.toNat % 64)
def sraQ (a b : DWord) : DWord := a.sshiftRight (b.toNat % 64)

/-- R277, R211: a saturating sum or difference of `n`-bit values. -/
def satOp (n : Nat) (u sub : Bool) (l : List DWord) : DWord × Fl :=
  match l with
  | [a, b] =>
    let v (x : DWord) : Int := let y := BitVec.truncate n x; if u then (y.toNat : Int) else y.toInt
    let (r, fl) := satI (if sub then v a - v b else v a + v b) (intLo n u) (intHi n u)
    (BitVec.zeroExtend 64 (BitVec.ofInt n r), fl)
  | _ => (0, 0)

/-- R278: the unary functions. -/
def absB {n : Nat} (a : BitVec n) : BitVec n := if a.slt 0 then 0 - a else a
def popCount {n : Nat} (a : BitVec n) : Nat := ((List.range n).filter fun i => a.getLsbD i).length
def leadZeros (a : Word) : Nat := ((List.range 32).takeWhile fun i => !a.getLsbD (31 - i)).length
def bitRev (a : Word) : Word := (List.range 32).foldl (fun x i => withBit x (31 - i) (a.getLsbD i)) 0

/-- R277: the forms of majors 0 to 5 with two sources. -/
def vec2 (i : Instr) (m : BitVec 2) (b2 b1 : BitVec 1) (vs2 vs1 vd : BitVec 6) (aform : List VVal → Option VVal)
    (f : List DWord → DWord × Fl) (s : State) : Out :=
  laneOp i m [src32 vs1 b1, src32 vs2 b2] vd false aform f s
def vec2q (i : Instr) (m : BitVec 2) (b2 b1 : BitVec 1) (vs2 vs1 vd : BitVec 6)
    (f : List DWord → DWord × Fl) (s : State) : Out :=
  laneOp i m [src64 vs1 b1, src64 vs2 b2] vd true noA f s

/-- R231: a compact form: VS1 = VD, M = 0 and no block-or-trap bit. -/
def vec16 (i : Instr) (vs2 : BitVec 5) (vd : BitVec 6) (aform : List VVal → Option VVal)
    (f : List DWord → DWord × Fl) (s : State) : Out :=
  laneOp i 0 [src32 vd 0, src32 (BitVec.zeroExtend 6 vs2) 0] vd false aform f s

/-! R277: the 32-bit forms. -/
def execVadd (m : BitVec 2) (b2 b1 : BitVec 1) (vs2 vs1 vd : BitVec 6) (s : State) : Out :=
  vec2 (.vadd m b2 b1 vs2 vs1 vd) m b2 b1 vs2 vs1 vd affAdd (on2 fun a b => a + b) s
def execVsub (m : BitVec 2) (b2 b1 : BitVec 1) (vs2 vs1 vd : BitVec 6) (s : State) : Out :=
  vec2 (.vsub m b2 b1 vs2 vs1 vd) m b2 b1 vs2 vs1 vd affSub (on2 fun a b => a - b) s
def execVmul (m : BitVec 2) (b2 b1 : BitVec 1) (vs2 vs1 vd : BitVec 6) (s : State) : Out :=
  vec2 (.vmul m b2 b1 vs2 vs1 vd) m b2 b1 vs2 vs1 vd affMul (on2 fun a b => a * b) s
def execVmulhiI32 (m : BitVec 2) (b2 b1 : BitVec 1) (vs2 vs1 vd : BitVec 6) (s : State) : Out :=
  vec2 (.vmulhiI32 m b2 b1 vs2 vs1 vd) m b2 b1 vs2 vs1 vd noA (on2 (mulHi false)) s
def execVmulhiN32 (m : BitVec 2) (b2 b1 : BitVec 1) (vs2 vs1 vd : BitVec 6) (s : State) : Out :=
  vec2 (.vmulhiN32 m b2 b1 vs2 vs1 vd) m b2 b1 vs2 vs1 vd noA (on2 (mulHi true)) s
def execVminI32 (m : BitVec 2) (b2 b1 : BitVec 1) (vs2 vs1 vd : BitVec 6) (s : State) : Out :=
  vec2 (.vminI32 m b2 b1 vs2 vs1 vd) m b2 b1 vs2 vs1 vd noA (on2 (minB false)) s
def execVmaxI32 (m : BitVec 2) (b2 b1 : BitVec 1) (vs2 vs1 vd : BitVec 6) (s : State) : Out :=
  vec2 (.vmaxI32 m b2 b1 vs2 vs1 vd) m b2 b1 vs2 vs1 vd noA (on2 (maxB false)) s
def execVand (m : BitVec 2) (b2 b1 : BitVec 1) (vs2 vs1 vd : BitVec 6) (s : State) : Out :=
  vec2 (.vand m b2 b1 vs2 vs1 vd) m b2 b1 vs2 vs1 vd noA (on2 fun a b => a &&& b) s
def execVor (m : BitVec 2) (b2 b1 : BitVec 1) (vs2 vs1 vd : BitVec 6) (s : State) : Out :=
  vec2 (.vor m b2 b1 vs2 vs1 vd) m b2 b1 vs2 vs1 vd noA (on2 fun a b => a ||| b) s
def execVxor (m : BitVec 2) (b2 b1 : BitVec 1) (vs2 vs1 vd : BitVec 6) (s : State) : Out :=
  vec2 (.vxor m b2 b1 vs2 vs1 vd) m b2 b1 vs2 vs1 vd noA (on2 fun a b => a ^^^ b) s
def execVshl (m : BitVec 2) (b2 b1 : BitVec 1) (vs2 vs1 vd : BitVec 6) (s : State) : Out :=
  vec2 (.vshl m b2 b1 vs2 vs1 vd) m b2 b1 vs2 vs1 vd affShl (on2 shlB) s
def execVshr (m : BitVec 2) (b2 b1 : BitVec 1) (vs2 vs1 vd : BitVec 6) (s : State) : Out :=
  vec2 (.vshr m b2 b1 vs2 vs1 vd) m b2 b1 vs2 vs1 vd noA (on2 shrB) s
def execVsra (m : BitVec 2) (b2 b1 : BitVec 1) (vs2 vs1 vd : BitVec 6) (s : State) : Out :=
  vec2 (.vsra m b2 b1 vs2 vs1 vd) m b2 b1 vs2 vs1 vd noA (on2 sraB) s
def execVminN32 (m : BitVec 2) (b2 b1 : BitVec 1) (vs2 vs1 vd : BitVec 6) (s : State) : Out :=
  vec2 (.vminN32 m b2 b1 vs2 vs1 vd) m b2 b1 vs2 vs1 vd noA (on2 (minB true)) s
def execVmaxN32 (m : BitVec 2) (b2 b1 : BitVec 1) (vs2 vs1 vd : BitVec 6) (s : State) : Out :=
  vec2 (.vmaxN32 m b2 b1 vs2 vs1 vd) m b2 b1 vs2 vs1 vd noA (on2 (maxB true)) s
/-- R277: `vmad`, which reads VD. -/
def execVmad (m : BitVec 2) (b2 b1 : BitVec 1) (vs2 vs1 vd : BitVec 6) (s : State) : Out :=
  laneOp (.vmad m b2 b1 vs2 vs1 vd) m [src32 vs1 b1, src32 vs2 b2, src32 vd 0] vd false affMad
    (fun l => match l with
      | [a, b, c] => (BitVec.zeroExtend 64 (lo32 a * lo32 b + lo32 c), 0)
      | _ => (0, 0)) s
/-! R277: the 64-bit forms. -/
def execVaddB64 (m : BitVec 2) (b2 b1 : BitVec 1) (vs2 vs1 vd : BitVec 6) (s : State) : Out :=
  vec2q (.vaddB64 m b2 b1 vs2 vs1 vd) m b2 b1 vs2 vs1 vd (on2q fun a b => a + b) s
def execVsubB64 (m : BitVec 2) (b2 b1 : BitVec 1) (vs2 vs1 vd : BitVec 6) (s : State) : Out :=
  vec2q (.vsubB64 m b2 b1 vs2 vs1 vd) m b2 b1 vs2 vs1 vd (on2q fun a b => a - b) s
def execVmulB64 (m : BitVec 2) (b2 b1 : BitVec 1) (vs2 vs1 vd : BitVec 6) (s : State) : Out :=
  vec2q (.vmulB64 m b2 b1 vs2 vs1 vd) m b2 b1 vs2 vs1 vd (on2q fun a b => a * b) s
def execVshlB64 (m : BitVec 2) (b2 b1 : BitVec 1) (vs2 vs1 vd : BitVec 6) (s : State) : Out :=
  vec2q (.vshlB64 m b2 b1 vs2 vs1 vd) m b2 b1 vs2 vs1 vd (on2q shlQ) s
def execVshrB64 (m : BitVec 2) (b2 b1 : BitVec 1) (vs2 vs1 vd : BitVec 6) (s : State) : Out :=
  vec2q (.vshrB64 m b2 b1 vs2 vs1 vd) m b2 b1 vs2 vs1 vd (on2q shrQ) s
def execVsraB64 (m : BitVec 2) (b2 b1 : BitVec 1) (vs2 vs1 vd : BitVec 6) (s : State) : Out :=
  vec2q (.vsraB64 m b2 b1 vs2 vs1 vd) m b2 b1 vs2 vs1 vd (on2q sraQ) s
def execVminI64 (m : BitVec 2) (b2 b1 : BitVec 1) (vs2 vs1 vd : BitVec 6) (s : State) : Out :=
  vec2q (.vminI64 m b2 b1 vs2 vs1 vd) m b2 b1 vs2 vs1 vd (on2q (minB false)) s
def execVmaxI64 (m : BitVec 2) (b2 b1 : BitVec 1) (vs2 vs1 vd : BitVec 6) (s : State) : Out :=
  vec2q (.vmaxI64 m b2 b1 vs2 vs1 vd) m b2 b1 vs2 vs1 vd (on2q (maxB false)) s
def execVandB64 (m : BitVec 2) (b2 b1 : BitVec 1) (vs2 vs1 vd : BitVec 6) (s : State) : Out :=
  vec2q (.vandB64 m b2 b1 vs2 vs1 vd) m b2 b1 vs2 vs1 vd (on2q fun a b => a &&& b) s
def execVorB64 (m : BitVec 2) (b2 b1 : BitVec 1) (vs2 vs1 vd : BitVec 6) (s : State) : Out :=
  vec2q (.vorB64 m b2 b1 vs2 vs1 vd) m b2 b1 vs2 vs1 vd (on2q fun a b => a ||| b) s
def execVxorB64 (m : BitVec 2) (b2 b1 : BitVec 1) (vs2 vs1 vd : BitVec 6) (s : State) : Out :=
  vec2q (.vxorB64 m b2 b1 vs2 vs1 vd) m b2 b1 vs2 vs1 vd (on2q fun a b => a ^^^ b) s
def execVminN64 (m : BitVec 2) (b2 b1 : BitVec 1) (vs2 vs1 vd : BitVec 6) (s : State) : Out :=
  vec2q (.vminN64 m b2 b1 vs2 vs1 vd) m b2 b1 vs2 vs1 vd (on2q (minB true)) s
def execVmaxN64 (m : BitVec 2) (b2 b1 : BitVec 1) (vs2 vs1 vd : BitVec 6) (s : State) : Out :=
  vec2q (.vmaxN64 m b2 b1 vs2 vs1 vd) m b2 b1 vs2 vs1 vd (on2q (maxB true)) s
def execVmulhiI64 (m : BitVec 2) (b2 b1 : BitVec 1) (vs2 vs1 vd : BitVec 6) (s : State) : Out :=
  vec2q (.vmulhiI64 m b2 b1 vs2 vs1 vd) m b2 b1 vs2 vs1 vd (on2q (mulHi false)) s
def execVmulhiN64 (m : BitVec 2) (b2 b1 : BitVec 1) (vs2 vs1 vd : BitVec 6) (s : State) : Out :=
  vec2q (.vmulhiN64 m b2 b1 vs2 vs1 vd) m b2 b1 vs2 vs1 vd (on2q (mulHi true)) s
/-! R277, R211: the saturating forms. -/
def execVaddSatI32 (m : BitVec 2) (b2 b1 : BitVec 1) (vs2 vs1 vd : BitVec 6) (s : State) : Out :=
  vec2 (.vaddSatI32 m b2 b1 vs2 vs1 vd) m b2 b1 vs2 vs1 vd noA (satOp 32 false false) s
def execVsubSatI32 (m : BitVec 2) (b2 b1 : BitVec 1) (vs2 vs1 vd : BitVec 6) (s : State) : Out :=
  vec2 (.vsubSatI32 m b2 b1 vs2 vs1 vd) m b2 b1 vs2 vs1 vd noA (satOp 32 false true) s
def execVaddSatN32 (m : BitVec 2) (b2 b1 : BitVec 1) (vs2 vs1 vd : BitVec 6) (s : State) : Out :=
  vec2 (.vaddSatN32 m b2 b1 vs2 vs1 vd) m b2 b1 vs2 vs1 vd noA (satOp 32 true false) s
def execVsubSatN32 (m : BitVec 2) (b2 b1 : BitVec 1) (vs2 vs1 vd : BitVec 6) (s : State) : Out :=
  vec2 (.vsubSatN32 m b2 b1 vs2 vs1 vd) m b2 b1 vs2 vs1 vd noA (satOp 32 true true) s
def execVaddSatI64 (m : BitVec 2) (b2 b1 : BitVec 1) (vs2 vs1 vd : BitVec 6) (s : State) : Out :=
  vec2q (.vaddSatI64 m b2 b1 vs2 vs1 vd) m b2 b1 vs2 vs1 vd (satOp 64 false false) s
def execVsubSatI64 (m : BitVec 2) (b2 b1 : BitVec 1) (vs2 vs1 vd : BitVec 6) (s : State) : Out :=
  vec2q (.vsubSatI64 m b2 b1 vs2 vs1 vd) m b2 b1 vs2 vs1 vd (satOp 64 false true) s
def execVaddSatN64 (m : BitVec 2) (b2 b1 : BitVec 1) (vs2 vs1 vd : BitVec 6) (s : State) : Out :=
  vec2q (.vaddSatN64 m b2 b1 vs2 vs1 vd) m b2 b1 vs2 vs1 vd (satOp 64 true false) s
def execVsubSatN64 (m : BitVec 2) (b2 b1 : BitVec 1) (vs2 vs1 vd : BitVec 6) (s : State) : Out :=
  vec2q (.vsubSatN64 m b2 b1 vs2 vs1 vd) m b2 b1 vs2 vs1 vd (satOp 64 true true) s
/-! R278: the unary forms. -/
def execVnot (m : BitVec 2) (b1 : BitVec 1) (vs1 vd : BitVec 6) (s : State) : Out :=
  laneOp (.vnot m b1 vs1 vd) m [src32 vs1 b1] vd false noA (on1 fun a => ~~~a) s
def execVnegI32 (m : BitVec 2) (b1 : BitVec 1) (vs1 vd : BitVec 6) (s : State) : Out :=
  laneOp (.vnegI32 m b1 vs1 vd) m [src32 vs1 b1] vd false affNeg (on1 fun a => 0 - a) s
def execVabsI32 (m : BitVec 2) (b1 : BitVec 1) (vs1 vd : BitVec 6) (s : State) : Out :=
  laneOp (.vabsI32 m b1 vs1 vd) m [src32 vs1 b1] vd false noA (on1 absB) s
def execVpopc (m : BitVec 2) (b1 : BitVec 1) (vs1 vd : BitVec 6) (s : State) : Out :=
  laneOp (.vpopc m b1 vs1 vd) m [src32 vs1 b1] vd false noA (on1 fun a => BitVec.ofNat 32 (popCount a)) s
def execVclz (m : BitVec 2) (b1 : BitVec 1) (vs1 vd : BitVec 6) (s : State) : Out :=
  laneOp (.vclz m b1 vs1 vd) m [src32 vs1 b1] vd false noA (on1 fun a => BitVec.ofNat 32 (leadZeros a)) s
def execVbrev (m : BitVec 2) (b1 : BitVec 1) (vs1 vd : BitVec 6) (s : State) : Out :=
  laneOp (.vbrev m b1 vs1 vd) m [src32 vs1 b1] vd false noA (on1 bitRev) s
def execVnegI64 (m : BitVec 2) (b1 : BitVec 1) (vs1 vd : BitVec 6) (s : State) : Out :=
  laneOp (.vnegI64 m b1 vs1 vd) m [src64 vs1 b1] vd true noA (on1q fun a => 0 - a) s
def execVabsI64 (m : BitVec 2) (b1 : BitVec 1) (vs1 vd : BitVec 6) (s : State) : Out :=
  laneOp (.vabsI64 m b1 vs1 vd) m [src64 vs1 b1] vd true noA (on1q absB) s
/-! R231: the compact forms. -/
def execVadd16 (vs2 : BitVec 5) (vd : BitVec 6) (s : State) : Out :=
  vec16 (.vadd16 vs2 vd) vs2 vd affAdd (on2 fun a b => a + b) s
def execVsub16 (vs2 : BitVec 5) (vd : BitVec 6) (s : State) : Out :=
  vec16 (.vsub16 vs2 vd) vs2 vd affSub (on2 fun a b => a - b) s
def execVmul16 (vs2 : BitVec 5) (vd : BitVec 6) (s : State) : Out :=
  vec16 (.vmul16 vs2 vd) vs2 vd affMul (on2 fun a b => a * b) s
def execVminI3216 (vs2 : BitVec 5) (vd : BitVec 6) (s : State) : Out :=
  vec16 (.vminI3216 vs2 vd) vs2 vd noA (on2 (minB false)) s
def execVmaxI3216 (vs2 : BitVec 5) (vd : BitVec 6) (s : State) : Out :=
  vec16 (.vmaxI3216 vs2 vd) vs2 vd noA (on2 (maxB false)) s
def execVand16 (vs2 : BitVec 5) (vd : BitVec 6) (s : State) : Out :=
  vec16 (.vand16 vs2 vd) vs2 vd noA (on2 fun a b => a &&& b) s
def execVor16 (vs2 : BitVec 5) (vd : BitVec 6) (s : State) : Out :=
  vec16 (.vor16 vs2 vd) vs2 vd noA (on2 fun a b => a ||| b) s
def execVxor16 (vs2 : BitVec 5) (vd : BitVec 6) (s : State) : Out :=
  vec16 (.vxor16 vs2 vd) vs2 vd noA (on2 fun a b => a ^^^ b) s
def execVshl16 (vs2 : BitVec 5) (vd : BitVec 6) (s : State) : Out :=
  vec16 (.vshl16 vs2 vd) vs2 vd affShl (on2 shlB) s
def execVshr16 (vs2 : BitVec 5) (vd : BitVec 6) (s : State) : Out :=
  vec16 (.vshr16 vs2 vd) vs2 vd noA (on2 shrB) s
def execVsra16 (vs2 : BitVec 5) (vd : BitVec 6) (s : State) : Out :=
  vec16 (.vsra16 vs2 vd) vs2 vd noA (on2 sraB) s
/-! R279: the immediate forms. -/

/-- R237: IMM10 sign-extended. -/
def imm10 (imm : BitVec 10) : Word := BitVec.signExtend 32 imm

def execVaddImm (m : BitVec 2) (b1 : BitVec 1) (imm : BitVec 10) (vs1 vd : BitVec 6) (s : State) : Out :=
  laneOp (.vaddImm m b1 imm vs1 vd) m [src32 vs1 b1] vd false
    (fun l => match l with
      | [.a b st] => some (.a (b + imm10 imm) st)
      | _ => none) (on1 fun a => a + imm10 imm) s
def execVandImm (m : BitVec 2) (b1 : BitVec 1) (imm : BitVec 10) (vs1 vd : BitVec 6) (s : State) : Out :=
  laneOp (.vandImm m b1 imm vs1 vd) m [src32 vs1 b1] vd false noA (on1 fun a => a &&& imm10 imm) s
def execVshlImm (m : BitVec 2) (b1 : BitVec 1) (amt : BitVec 5) (vs1 vd : BitVec 6) (s : State) : Out :=
  laneOp (.vshlImm m b1 amt vs1 vd) m [src32 vs1 b1] vd false
    (fun l => affShl (l ++ [.u (BitVec.zeroExtend 32 amt)])) (on1 fun a => a <<< amt.toNat) s
def execVshrImm (m : BitVec 2) (b1 : BitVec 1) (amt : BitVec 5) (vs1 vd : BitVec 6) (s : State) : Out :=
  laneOp (.vshrImm m b1 amt vs1 vd) m [src32 vs1 b1] vd false noA (on1 fun a => a >>> amt.toNat) s
def execVsraImm (m : BitVec 2) (b1 : BitVec 1) (amt : BitVec 5) (vs1 vd : BitVec 6) (s : State) : Out :=
  laneOp (.vsraImm m b1 amt vs1 vd) m [src32 vs1 b1] vd false noA (on1 fun a => a.sshiftRight amt.toNat) s

/-- R280: `vsel`. The selectors m1 to m7 count as a G source. -/
def execVsel (m : BitVec 2) (b2 b1 : BitVec 1) (vs2 vs1 vd : BitVec 6) (mk : BitVec 3) (s : State) : Out :=
  commitNext (.vsel m b2 b1 vs2 vs1 vd mk) s do
    let g := curG s
    regsX g [(vs1.toNat, false), (vs2.toNat, false), (vd.toNat, false)]
    let x ← readSrc g (src32 vs1 b1)
    let y ← readSrc g (src32 vs2 b2)
    dstV g vd.toNat false
    let sel := mReg g mk.toNat
    let uni := mk == 0 && srcU x && srcU y
    writeV s (activeMask g (curF s) m.toNat)
      (resultV vd.toNat false uni fun t => if sel.getLsbD t then srcAt x t else srcAt y t)

/-- R281: COND 0 to 5 on integers. -/
def condI {n : Nat} (u : Bool) (c : BitVec 3) (a b : BitVec n) : Bool :=
  let lt := if u then a.ult b else a.slt b
  match c.toNat with
  | 0 => a == b
  | 1 => a != b
  | 2 => lt
  | 3 => lt || a == b
  | 4 => !(lt || a == b)
  | _ => !lt

/-- R281: a comparison into a mask: `f` gives a thread's condition and flags. -/
def compareOp (i : Instr) (m : BitVec 2) (x y : Src) (md : BitVec 3) (f : DWord → DWord → Bool × Fl) (s : State) : Out :=
  commitNext i s do
    checkField i
    let g := curG s
    regsX g [(x.reg, x.pair), (y.reg, y.pair)]
    let a ← readSrc g x
    let b ← readSrc g y
    let act := activeMask g (curF s) m.toNat
    let at_ (t : Nat) : Bool × Fl := f (srcAt a t) (srcAt b t)
    let set := maskOf ((threadsOf act).filter fun t => (at_ t).1)
    let old := mReg g md.toNat
    let s1 := modCur s fun g => mPut g md.toNat ((old &&& ~~~act) ||| set)
    .ok (raiseFlags s1 ((threadsOf act).foldl (fun fl t => fl ||| (at_ t).2) 0))

def execVcmpI32 (m : BitVec 2) (b2 b1 : BitVec 1) (vs2 vs1 : BitVec 6) (cond md : BitVec 3) (s : State) : Out :=
  compareOp (.vcmpI32 m b2 b1 vs2 vs1 cond md) m (src32 vs1 b1) (src32 vs2 b2) md (fun a b => (condI false cond (lo32 a) (lo32 b), 0)) s
def execVcmpN32 (m : BitVec 2) (b2 b1 : BitVec 1) (vs2 vs1 : BitVec 6) (cond md : BitVec 3) (s : State) : Out :=
  compareOp (.vcmpN32 m b2 b1 vs2 vs1 cond md) m (src32 vs1 b1) (src32 vs2 b2) md (fun a b => (condI true cond (lo32 a) (lo32 b), 0)) s
def execVcmpI64 (m : BitVec 2) (b2 b1 : BitVec 1) (vs2 vs1 : BitVec 6) (cond md : BitVec 3) (s : State) : Out :=
  compareOp (.vcmpI64 m b2 b1 vs2 vs1 cond md) m (src64 vs1 b1) (src64 vs2 b2) md (fun a b => (condI false cond a b, 0)) s
def execVcmpN64 (m : BitVec 2) (b2 b1 : BitVec 1) (vs2 vs1 : BitVec 6) (cond md : BitVec 3) (s : State) : Out :=
  compareOp (.vcmpN64 m b2 b1 vs2 vs1 cond md) m (src64 vs1 b1) (src64 vs2 b2) md (fun a b => (condI true cond a b, 0)) s
/-! R282: `vtix`, `vshape`, `vrdx` and `vwrx`. -/

def execVtix (m : BitVec 2) (vd : BitVec 6) (s : State) : Out :=
  commitNext (.vtix m vd) s do
    let g := curG s
    regsX g [(vd.toNat, false)]
    dstV g vd.toNat false
    writeV s (activeMask g (curF s) m.toNat) [(vd.toNat, .a 0 1)]

def execVshape (vs1 sd : BitVec 6) (s : State) : Out :=
  commitNext (.vshape vs1 sd) s do
    let g := curG s
    regsX g [(vs1.toNat, false)]
    dstS g sd
    let x := shapeCode (vReg g vs1.toNat) + (if vIsEmpty g vs1.toNat then 4 else 0)
    .ok (modCur s fun g => sPut g sd (BitVec.ofNat 64 x))

/-- R282, R169: a computed vector name. -/
def indexX (g : Group) (ss : BitVec 6) : X Nat := do
  let k ← srcS g ss false
  if g.nNames ≤ k.toNat then trapX .regBound
  else if g.top ≤ k.toNat then trapX .regDead
  else .ok k.toNat

/-- R282: the result of a move of one name: U stays U, any other shape gives G. -/
def moveV (s : State) (a : Word) (vd : Nat) (v : SrcVal) : X State :=
  writeV s a (resultV vd false (srcU v) fun t => srcAt v t)

def execVrdx (m : BitVec 2) (ss vd : BitVec 6) (s : State) : Out :=
  commitNext (.vrdx m ss vd) s do
    let g := curG s
    regsX g [(vd.toNat, false)]
    let k ← indexX g ss
    let v ← readSrc g { reg := k, pair := false, bang := false }
    dstV g vd.toNat false
    moveV s (activeMask g (curF s) m.toNat) vd.toNat v

def execVwrx (m : BitVec 2) (b2 : BitVec 1) (vs2 ss : BitVec 6) (s : State) : Out :=
  commitNext (.vwrx m b2 vs2 ss) s do
    let g := curG s
    regsX g [(vs2.toNat, false)]
    let k ← indexX g ss
    let v ← readSrc g (src32 vs2 b2)
    dstV g k false
    moveV s (activeMask g (curF s) m.toNat) k v

end Sys2Proof.Machine
end

