-- ==== Sys2Proof/Machine/VecFloat.lean ====
section
/-!
DEFINITION. Vector floating point and conversion (R231, R283 to R286, R218).
-/
namespace Sys2Proof.Machine

/-- A float operation on codes, as a lane function. -/
def fOn1 (f : Fmt) (op : FVal → Nat × Fl) (l : List DWord) : DWord × Fl :=
  match l with
  | [a] => let (x, fl) := op (fDecode f a.toNat); (BitVec.ofNat 64 x, fl)
  | _ => (0, 0)
def fOn2 (f : Fmt) (op : FVal → FVal → Nat × Fl) (l : List DWord) : DWord × Fl :=
  match l with
  | [a, b] => let (x, fl) := op (fDecode f a.toNat) (fDecode f b.toNat); (BitVec.ofNat 64 x, fl)
  | _ => (0, 0)
def fOn3 (f : Fmt) (op : FVal → FVal → FVal → Nat × Fl) (l : List DWord) : DWord × Fl :=
  match l with
  | [a, b, c] => let (x, fl) := op (fDecode f a.toNat) (fDecode f b.toNat) (fDecode f c.toNat); (BitVec.ofNat 64 x, fl)
  | _ => (0, 0)

/-- R284: `vfmin` and `vfmax`, which give an operand unchanged. -/
def fMm (f : Fmt) (mx : Bool) (l : List DWord) : DWord × Fl :=
  match l with
  | [a, b] => let (x, fl) := fMinMax f mx (a.toNat % (2 * f.sign)) (b.toNat % (2 * f.sign)); (BitVec.ofNat 64 x, fl)
  | _ => (0, 0)

/-- R285: an approximation on the part's revision. -/
def fAp (op : Nat) (s : State) (l : List DWord) : DWord × Fl :=
  match l with
  | [a] => let (x, fl) := fApprox op s.rev (a.toNat % 2 ^ 32); (BitVec.ofNat 64 x, fl)
  | _ => (0, 0)

/-! R283: the arithmetic forms. -/
def execVfaddF32 (m : BitVec 2) (b2 b1 : BitVec 1) (vs2 vs1 vd : BitVec 6) (rm : BitVec 2) (s : State) : Out :=
  vec2 (.vfaddF32 m b2 b1 vs2 vs1 vd rm) m b2 b1 vs2 vs1 vd noA (fOn2 fmtF32 (fAdd fmtF32 rm)) s
def execVfsubF32 (m : BitVec 2) (b2 b1 : BitVec 1) (vs2 vs1 vd : BitVec 6) (rm : BitVec 2) (s : State) : Out :=
  vec2 (.vfsubF32 m b2 b1 vs2 vs1 vd rm) m b2 b1 vs2 vs1 vd noA (fOn2 fmtF32 (fSub fmtF32 rm)) s
def execVfmulF32 (m : BitVec 2) (b2 b1 : BitVec 1) (vs2 vs1 vd : BitVec 6) (rm : BitVec 2) (s : State) : Out :=
  vec2 (.vfmulF32 m b2 b1 vs2 vs1 vd rm) m b2 b1 vs2 vs1 vd noA (fOn2 fmtF32 (fMul fmtF32 rm)) s
def execVfdivF32 (m : BitVec 2) (b2 b1 : BitVec 1) (vs2 vs1 vd : BitVec 6) (rm : BitVec 2) (s : State) : Out :=
  vec2 (.vfdivF32 m b2 b1 vs2 vs1 vd rm) m b2 b1 vs2 vs1 vd noA (fOn2 fmtF32 (fDiv fmtF32 rm)) s
def execVfmaF32 (m : BitVec 2) (b2 b1 : BitVec 1) (vs2 vs1 vd : BitVec 6) (rm : BitVec 2) (s : State) : Out :=
  laneOp (.vfmaF32 m b2 b1 vs2 vs1 vd rm) m [src32 vs1 b1, src32 vs2 b2, src32 vd 0] vd false noA
    (fOn3 fmtF32 (fFma fmtF32 rm)) s
def execVfsqrtF32 (m : BitVec 2) (b1 : BitVec 1) (vs1 vd : BitVec 6) (rm : BitVec 2) (s : State) : Out :=
  laneOp (.vfsqrtF32 m b1 vs1 vd rm) m [src32 vs1 b1] vd false noA (fOn1 fmtF32 (fSqrt fmtF32 rm)) s
def execVfaddF64 (m : BitVec 2) (b2 b1 : BitVec 1) (vs2 vs1 vd : BitVec 6) (rm : BitVec 2) (s : State) : Out :=
  vec2q (.vfaddF64 m b2 b1 vs2 vs1 vd rm) m b2 b1 vs2 vs1 vd (fOn2 fmtF64 (fAdd fmtF64 rm)) s
def execVfsubF64 (m : BitVec 2) (b2 b1 : BitVec 1) (vs2 vs1 vd : BitVec 6) (rm : BitVec 2) (s : State) : Out :=
  vec2q (.vfsubF64 m b2 b1 vs2 vs1 vd rm) m b2 b1 vs2 vs1 vd (fOn2 fmtF64 (fSub fmtF64 rm)) s
def execVfmulF64 (m : BitVec 2) (b2 b1 : BitVec 1) (vs2 vs1 vd : BitVec 6) (rm : BitVec 2) (s : State) : Out :=
  vec2q (.vfmulF64 m b2 b1 vs2 vs1 vd rm) m b2 b1 vs2 vs1 vd (fOn2 fmtF64 (fMul fmtF64 rm)) s
def execVfdivF64 (m : BitVec 2) (b2 b1 : BitVec 1) (vs2 vs1 vd : BitVec 6) (rm : BitVec 2) (s : State) : Out :=
  vec2q (.vfdivF64 m b2 b1 vs2 vs1 vd rm) m b2 b1 vs2 vs1 vd (fOn2 fmtF64 (fDiv fmtF64 rm)) s
def execVfmaF64 (m : BitVec 2) (b2 b1 : BitVec 1) (vs2 vs1 vd : BitVec 6) (rm : BitVec 2) (s : State) : Out :=
  laneOp (.vfmaF64 m b2 b1 vs2 vs1 vd rm) m [src64 vs1 b1, src64 vs2 b2, src64 vd 0] vd true noA
    (fOn3 fmtF64 (fFma fmtF64 rm)) s
def execVfsqrtF64 (m : BitVec 2) (b1 : BitVec 1) (vs1 vd : BitVec 6) (rm : BitVec 2) (s : State) : Out :=
  laneOp (.vfsqrtF64 m b1 vs1 vd rm) m [src64 vs1 b1] vd true noA (fOn1 fmtF64 (fSqrt fmtF64 rm)) s
/-! R284, R285. -/
def execVfminF32 (m : BitVec 2) (b2 b1 : BitVec 1) (vs2 vs1 vd : BitVec 6) (s : State) : Out :=
  vec2 (.vfminF32 m b2 b1 vs2 vs1 vd) m b2 b1 vs2 vs1 vd noA (fMm fmtF32 false) s
def execVfmaxF32 (m : BitVec 2) (b2 b1 : BitVec 1) (vs2 vs1 vd : BitVec 6) (s : State) : Out :=
  vec2 (.vfmaxF32 m b2 b1 vs2 vs1 vd) m b2 b1 vs2 vs1 vd noA (fMm fmtF32 true) s
def execVfminF64 (m : BitVec 2) (b2 b1 : BitVec 1) (vs2 vs1 vd : BitVec 6) (s : State) : Out :=
  vec2q (.vfminF64 m b2 b1 vs2 vs1 vd) m b2 b1 vs2 vs1 vd (fMm fmtF64 false) s
def execVfmaxF64 (m : BitVec 2) (b2 b1 : BitVec 1) (vs2 vs1 vd : BitVec 6) (s : State) : Out :=
  vec2q (.vfmaxF64 m b2 b1 vs2 vs1 vd) m b2 b1 vs2 vs1 vd (fMm fmtF64 true) s
def execVfrcpF32 (m : BitVec 2) (b1 : BitVec 1) (vs1 vd : BitVec 6) (s : State) : Out :=
  laneOp (.vfrcpF32 m b1 vs1 vd) m [src32 vs1 b1] vd false noA (fAp 0 s) s
def execVfrsqF32 (m : BitVec 2) (b1 : BitVec 1) (vs1 vd : BitVec 6) (s : State) : Out :=
  laneOp (.vfrsqF32 m b1 vs1 vd) m [src32 vs1 b1] vd false noA (fAp 1 s) s
def execVfexp2F32 (m : BitVec 2) (b1 : BitVec 1) (vs1 vd : BitVec 6) (s : State) : Out :=
  laneOp (.vfexp2F32 m b1 vs1 vd) m [src32 vs1 b1] vd false noA (fAp 2 s) s
def execVflog2F32 (m : BitVec 2) (b1 : BitVec 1) (vs1 vd : BitVec 6) (s : State) : Out :=
  laneOp (.vflog2F32 m b1 vs1 vd) m [src32 vs1 b1] vd false noA (fAp 3 s) s
/-! R231: the compact forms, in f32 with RNE. -/
def execVfaddF3216 (vs2 : BitVec 5) (vd : BitVec 6) (s : State) : Out :=
  vec16 (.vfaddF3216 vs2 vd) vs2 vd noA (fOn2 fmtF32 (fAdd fmtF32 0)) s
def execVfsubF3216 (vs2 : BitVec 5) (vd : BitVec 6) (s : State) : Out :=
  vec16 (.vfsubF3216 vs2 vd) vs2 vd noA (fOn2 fmtF32 (fSub fmtF32 0)) s
def execVfmulF3216 (vs2 : BitVec 5) (vd : BitVec 6) (s : State) : Out :=
  vec16 (.vfmulF3216 vs2 vd) vs2 vd noA (fOn2 fmtF32 (fMul fmtF32 0)) s
def execVfminF3216 (vs2 : BitVec 5) (vd : BitVec 6) (s : State) : Out :=
  vec16 (.vfminF3216 vs2 vd) vs2 vd noA (fMm fmtF32 false) s
def execVfmaxF3216 (vs2 : BitVec 5) (vd : BitVec 6) (s : State) : Out :=
  vec16 (.vfmaxF3216 vs2 vd) vs2 vd noA (fMm fmtF32 true) s
/-! R281: the float comparisons. -/
def execVfcmpF32 (m : BitVec 2) (b2 b1 : BitVec 1) (vs2 vs1 : BitVec 6) (cond md : BitVec 3) (s : State) : Out :=
  compareOp (.vfcmpF32 m b2 b1 vs2 vs1 cond md) m (src32 vs1 b1) (src32 vs2 b2) md
    (fun a b => fCond fmtF32 cond (a.toNat % 2 ^ 32) (b.toNat % 2 ^ 32)) s
def execVfcmpF64 (m : BitVec 2) (b2 b1 : BitVec 1) (vs2 vs1 : BitVec 6) (cond md : BitVec 3) (s : State) : Out :=
  compareOp (.vfcmpF64 m b2 b1 vs2 vs1 cond md) m (src64 vs1 b1) (src64 vs2 b2) md
    (fun a b => fCond fmtF64 cond (a.toNat % 2 ^ 64) (b.toNat % 2 ^ 64)) s
/-! R286, R218, R237: conversion. -/

/-- A type of `vcvt`: an integer with its width and whether it is unsigned, or a float. -/
inductive CvtTy where
  | int (n : Nat) (u : Bool)
  | flt (f : Fmt)
  deriving DecidableEq, Repr

/-- The type of a code, none for 14 and 15 (R237). -/
def cvtTy (c : BitVec 4) : Option CvtTy :=
  match c.toNat with
  | 0 => some (.int 8 false) | 1 => some (.int 16 false) | 2 => some (.int 32 false) | 3 => some (.int 64 false)
  | 4 => some (.int 8 true) | 5 => some (.int 16 true) | 6 => some (.int 32 true) | 7 => some (.int 64 true)
  | 8 => some (.flt fmtF16) | 9 => some (.flt fmtBf16) | 10 => some (.flt fmtF32) | 11 => some (.flt fmtF64)
  | 12 => some (.flt fmtF8a) | 13 => some (.flt fmtF8b)
  | _ => none

/-- Whether a type takes a pair. -/
def cvtWide (c : BitVec 4) : Bool := c == 3 || c == 7 || c == 11

/-- An integer of `n` bits read from an operand, and written to a result: extended to 32 bits as R211 requires, or 64. -/
def cvtIn (n : Nat) (u : Bool) (x : DWord) : Int :=
  let y := BitVec.truncate n x
  if u then (y.toNat : Int) else y.toInt
def cvtOut (n : Nat) (u : Bool) (x : Int) : DWord :=
  let y := BitVec.ofInt n x
  if n = 64 then BitVec.truncate 64 y else
  BitVec.zeroExtend 64 (if u then BitVec.zeroExtend 32 y else BitVec.signExtend 32 y)

/-- R218: a conversion of a value. For two integers, RM bit 0 is `.sat`. -/
def cvtVal (rm : BitVec 2) (src dst : CvtTy) (x : DWord) : DWord × Fl :=
  match src, dst with
  | .int n u, .int k w =>
    let v := cvtIn n u x
    let (r, fl) := if rm.getLsbD 0 then satI v (intLo k w) (intHi k w) else (v, 0)
    (cvtOut k w r, fl)
  | .int n u, .flt f => let (r, fl) := intToF f rm (cvtIn n u x); (BitVec.ofNat 64 r, fl)
  | .flt f, .int k w => let (r, fl) := fToInt rm k w (fDecode f x.toNat); (cvtOut k w r, fl)
  | .flt f, .flt h =>
    let v := fDecode f x.toNat
    let (r, fl) := fEncode h rm v
    (BitVec.ofNat 64 r, fl ||| sigFlag [v])

def execVcvt (m : BitVec 2) (b1 : BitVec 1) (rm : BitVec 2) (src dst : BitVec 4) (vs1 vd : BitVec 6) (s : State) : Out :=
  let i : Instr := .vcvt m b1 rm src dst vs1 vd
  commitNext i s do
    checkField i
    let g := curG s
    regsX g [(vs1.toNat, cvtWide src), (vd.toNat, cvtWide dst)]
    match cvtTy src, cvtTy dst with
    | some a, some b =>
      if src = dst then trapX .cvtForm else
      let v ← readSrc g { reg := vs1.toNat, pair := cvtWide src, bang := b1 == 1 }
      dstV g vd.toNat (cvtWide dst)
      let act := activeMask g (curF s) m.toNat
      let at_ (t : Nat) : DWord × Fl := cvtVal rm a b (srcAt v t)
      let s1 ← writeV s act (resultV vd.toNat (cvtWide dst) (srcU v) fun t => (at_ t).1)
      .ok (raiseFlags s1 ((threadsOf act).foldl (fun fl t => fl ||| (at_ t).2) 0))
    | _, _ => trapX .cvtForm

end Sys2Proof.Machine
end

