-- ==== Sys2Proof/Machine/VecCross.lean ====
section
/-!
DEFINITION. Cross-lane operations, the exchange, and mask instructions (R287 to R295).
-/
namespace Sys2Proof.Machine

/-- R288: `vshfl`. -/
def execVshfl (m : BitVec 2) (b2 b1 : BitVec 1) (vs2 vs1 vd : BitVec 6) (s : State) : Out :=
  commitNext (.vshfl m b2 b1 vs2 vs1 vd) s do
    let g := curG s
    regsX g [(vs1.toNat, false), (vs2.toNat, false), (vd.toNat, false)]
    let x ← readSrc g (src32 vs1 b1)
    let k ← readSrc g (src32 vs2 b2)
    dstV g vd.toNat false
    let act := activeMask g (curF s) m.toNat
    needX ((threadsOf act).all fun t => (srcAt k t).toNat ≤ 31) .shflRange
    writeV s act (resultV vd.toNat false (srcU x) fun t => srcAt x (srcAt k t).toNat)

/-- R289: `vballot`. -/
def execVballot (m : BitVec 2) (b1 : BitVec 1) (vs1 sd : BitVec 6) (s : State) : Out :=
  commitNext (.vballot m b1 vs1 sd) s do
    let g := curG s
    regsX g [(vs1.toNat, false)]
    let x ← readSrc g (src32 vs1 b1)
    dstS g sd
    let set := (threadsOf (activeMask g (curF s) m.toNat)).filter fun t => srcAt x t ≠ 0
    .ok (modCur s fun g => sPut g sd (BitVec.zeroExtend 64 (maskOf set)))

/-- R237: whether a reduction's type is 64 bits wide. -/
def redWide (ty : BitVec 3) : Bool := ty == 2 || ty == 3 || ty == 5

/-- R290: one step of a reduction. -/
def redStep (op : BitVec 4) (ty : BitVec 3) (rm : BitVec 2) (r x : DWord) : DWord × Fl :=
  let f := if ty = 5 then fmtF64 else fmtF32
  let u := ty == 1 || ty == 3
  let n := if redWide ty then 64 else 32
  let lim (v : DWord) : DWord := if redWide ty then v else BitVec.zeroExtend 64 (lo32 v)
  let mm (mx : Bool) : DWord :=
    let a := BitVec.truncate n r
    let b := BitVec.truncate n x
    BitVec.zeroExtend 64 (if mx then maxB u a b else minB u a b)
  match op.toNat with
  | 0 => (lim (r + x), 0)
  | 1 => (mm false, 0)
  | 2 => (mm true, 0)
  | 3 => (r &&& x, 0)
  | 4 => (r ||| x, 0)
  | 5 => (r ^^^ x, 0)
  | 6 => let (v, fl) := fAdd f rm (fDecode f r.toNat) (fDecode f x.toNat); (BitVec.ofNat 64 v, fl)
  | 7 => let (v, fl) := fMinMax f false r.toNat x.toNat; (BitVec.ofNat 64 v, fl)
  | _ => let (v, fl) := fMinMax f true r.toNat x.toNat; (BitVec.ofNat 64 v, fl)

/-- R290: the identities. -/
def redIdent (op : BitVec 4) (ty : BitVec 3) (rm : BitVec 2) : DWord :=
  let f := if ty = 5 then fmtF64 else fmtF32
  let u := ty == 1 || ty == 3
  let n := if redWide ty then 64 else 32
  match op.toNat with
  | 1 => BitVec.ofInt 64 (intHi n u)
  | 2 => BitVec.zeroExtend 64 (BitVec.ofInt n (intLo n u))
  | 3 => BitVec.ofNat 64 (2 ^ n - 1)
  | 6 => BitVec.ofNat 64 (if rm = 2 then 0 else f.sign)
  | 7 => BitVec.ofNat 64 f.infCode
  | 8 => BitVec.ofNat 64 (f.sign + f.infCode)
  | _ => 0

/-- R290: the running values of a scan over a list of threads: each thread with the value before and after its step,
and the flags. -/
def scanList (step : DWord → DWord → DWord × Fl) (val : Nat → DWord) : DWord → List Nat → List (Nat × DWord × DWord × Fl)
  | _, [] => []
  | r, t :: ts =>
    let (v, fl) := step r (val t)
    (t, r, v, fl) :: scanList step val v ts

/-- R290: the value that a thread takes from a scan. -/
def scanAt (l : List (Nat × DWord × DWord × Fl)) (excl : Bool) (t : Nat) : DWord :=
  match l.find? fun p => p.1 == t with
  | some p => if excl then p.2.1 else p.2.2.1
  | none => 0

/-- R290: `vred` and `vscan`: `pick` gives each thread's value from the running values, `uni` whether the result is U when
all 32 threads are active. -/
def reduceOp (i : Instr) (m : BitVec 2) (b1 : BitVec 1) (rm : BitVec 2) (ty : BitVec 3) (op : BitVec 4) (vs1 vd : BitVec 6)
    (uni : Bool) (pick : List (Nat × DWord × DWord × Fl) → Nat → DWord) (s : State) : Out :=
  commitNext i s do
    checkField i
    let g := curG s
    let w := redWide ty
    regsX g [(vs1.toNat, w), (vd.toNat, w)]
    let x ← readSrc g { reg := vs1.toNat, pair := w, bang := b1 == 1 }
    dstV g vd.toNat w
    let act := activeMask g (curF s) m.toNat
    let l := scanList (redStep op ty rm) (srcAt x) (redIdent op ty rm) (threadsOf act)
    let s1 ← writeV s act (resultV vd.toNat w uni (pick l))
    .ok (raiseFlags s1 (l.foldl (fun fl p => fl ||| p.2.2.2) 0))

def execVred (m : BitVec 2) (b1 : BitVec 1) (rm : BitVec 2) (ty : BitVec 3) (op : BitVec 4) (vs1 vd : BitVec 6)
    (s : State) : Out :=
  reduceOp (.vred m b1 rm ty op vs1 vd) m b1 rm ty op vs1 vd true
    (fun l _ => match l.getLast? with
      | some p => p.2.2.1
      | none => 0) s

def execVscan (m : BitVec 2) (b1 excl : BitVec 1) (rm : BitVec 2) (ty : BitVec 3) (op : BitVec 4) (vs1 vd : BitVec 6)
    (s : State) : Out :=
  reduceOp (.vscan m b1 excl rm ty op vs1 vd) m b1 rm ty op vs1 vd false (fun l t => scanAt l (excl == 1) t) s

/-- R291: whether value `x` goes before the best so far, `y`. -/
def idxBetter (ty : BitVec 2) (mx : Bool) (x y : Word) : Bool :=
  match ty.toNat with
  | 0 => if mx then y.slt x else x.slt y
  | 1 => if mx then y.ult x else x.ult y
  | _ => if mx then fKey fmtF32 y.toNat < fKey fmtF32 x.toNat else fKey fmtF32 x.toNat < fKey fmtF32 y.toNat

/-- R291: the best of a list of threads and its number, NaNs passed over. -/
def idxBest (ty : BitVec 2) (mx : Bool) (val : Nat → Word) (l : List Nat) : Option (Word × Nat) :=
  l.foldl (fun (b : Option (Word × Nat)) t =>
    if ty = 2 && (fDecode fmtF32 (val t).toNat).isNan then b else
    match b with
    | none => some (val t, t)
    | some p => if idxBetter ty mx (val t) p.1 then some (val t, t) else b) none

/-- R291: `vminidx` and `vmaxidx`. -/
def idxOp (i : Instr) (mx : Bool) (m : BitVec 2) (b1 : BitVec 1) (ty : BitVec 2) (vs1 vd : BitVec 6) (s : State) : Out :=
  commitNext i s do
    checkField i
    let g := curG s
    regsX g [(vs1.toNat, false), (vd.toNat, true)]
    let x ← readSrc g (src32 vs1 b1)
    dstV g vd.toNat true
    let act := activeMask g (curF s) m.toNat
    let ts := threadsOf act
    let val (t : Nat) : Word := lo32 (srcAt x t)
    let (v, k) := (idxBest ty mx val ts).getD (BitVec.ofNat 32 fmtF32.nan, ts.headD 0)
    let s1 ← writeV s act [(vd.toNat, .u v), (vd.toNat + 1, .u (BitVec.ofNat 32 k))]
    .ok (raiseFlags s1 (if ty = 2 then sigFlag (ts.map fun t => fDecode fmtF32 (val t).toNat) else 0))

def execVminidx (m : BitVec 2) (b1 : BitVec 1) (ty : BitVec 2) (vs1 vd : BitVec 6) (s : State) : Out :=
  idxOp (.vminidx m b1 ty vs1 vd) false m b1 ty vs1 vd s
def execVmaxidx (m : BitVec 2) (b1 : BitVec 1) (ty : BitVec 2) (vs1 vd : BitVec 6) (s : State) : Out :=
  idxOp (.vmaxidx m b1 ty vs1 vd) true m b1 ty vs1 vd s

/-! R292: the exchange. -/

/-- R292: `xshf`. The request goes to the lower core's table, and the fragment suspends at the `xshf`. The slot that a G
result may need is set aside at issue (log 18). -/
def execXshf (m : BitVec 2) (b1 : BitVec 1) (ss vs1 vd : BitVec 6) (s : State) : Out :=
  let i : Instr := .xshf m b1 ss vs1 vd
  let g := curG s
  commit i s do
    regsX g [(vs1.toNat, false), (vd.toNat, false)]
    let x ← readSrc g (src32 vs1 b1)
    let v ← srcS g ss false
    dstV g vd.toNat false
    let pc := v.toNat % 128
    needX (v.toNat / 2 ^ 7 % 2 ^ 25 == 0 && pc < ncore s.part && pairOf pc != pairOf g.core) .xshfForm
    needX (!(recordsOf s s.cur.uid).any fun r => match r.cond with
      | .exchange _ _ => true
      | _ => false) .xshfDup
    let act := activeMask g (curF s) m.toNat
    slotsX g [(vd.toNat, if act = 0 then vReg g vd.toNat else .g [])]
    let s := if act = 0 || holdsSlot g vd.toNat then s else modCur s fun g => takeSlot g (xshfKey s.cur.entry)
    let key : BitVec 32 := BitVec.ofNat 32 (v.toNat / 2 ^ 32)
    let rq := newReq (.group s.cur.uid s.cur.entry) g.core g.ctx (.exchange key pc vd ((List.range 32).map fun t => lo32 (srcAt x t)) act) 0
    let s1 := traceAdd (sendReq s rq) g 9 (2 ^ 61 + s.nextId) 0 (BitVec.zeroExtend 7 vd) 0
    .ok (suspendCur s1 (.exchange pc key))

/-! R295: masks. -/

def execMand (mb ma md : BitVec 3) (s : State) : Out :=
  commitNext (.mand mb ma md) s do
    checkField (.mand mb ma md)
    .ok (modCur s fun g => mPut g md.toNat (mReg g ma.toNat &&& mReg g mb.toNat))
def execMor (mb ma md : BitVec 3) (s : State) : Out :=
  commitNext (.mor mb ma md) s do
    checkField (.mor mb ma md)
    .ok (modCur s fun g => mPut g md.toNat (mReg g ma.toNat ||| mReg g mb.toNat))
def execMnot (ma md : BitVec 3) (s : State) : Out :=
  commitNext (.mnot ma md) s do
    checkField (.mnot ma md)
    .ok (modCur s fun g => mPut g md.toNat (~~~ mReg g ma.toNat))
def execMpopc (ma : BitVec 3) (sd : BitVec 6) (s : State) : Out :=
  commitNext (.mpopc ma sd) s do
    dstS (curG s) sd
    .ok (modCur s fun g => sPut g sd (BitVec.ofNat 64 (popCount (mReg g ma.toNat))))
def execMfirst (ma : BitVec 3) (sd : BitVec 6) (s : State) : Out :=
  commitNext (.mfirst ma sd) s do
    dstS (curG s) sd
    .ok (modCur s fun g => sPut g sd (BitVec.ofNat 64 ((threadsOf (mReg g ma.toNat)).headD 32)))

end Sys2Proof.Machine
end

