-- ==== Sys2Proof/Machine/Dispatch.lean ====
section
/-!
DEFINITION. The dispatch: one arm per row of the table of operations and events, each one call of its meaning.
-/
namespace Sys2Proof.Machine

def exec (i : Instr) (s : State) : Host.Outcome State Fault Refusal :=
  match i with
  | .vadd m b2 b1 vs2 vs1 vd => Sys2Proof.Machine.execVadd m b2 b1 vs2 vs1 vd s
  | .vsub m b2 b1 vs2 vs1 vd => Sys2Proof.Machine.execVsub m b2 b1 vs2 vs1 vd s
  | .vmul m b2 b1 vs2 vs1 vd => Sys2Proof.Machine.execVmul m b2 b1 vs2 vs1 vd s
  | .vmulhiI32 m b2 b1 vs2 vs1 vd => Sys2Proof.Machine.execVmulhiI32 m b2 b1 vs2 vs1 vd s
  | .vmulhiN32 m b2 b1 vs2 vs1 vd => Sys2Proof.Machine.execVmulhiN32 m b2 b1 vs2 vs1 vd s
  | .vminI32 m b2 b1 vs2 vs1 vd => Sys2Proof.Machine.execVminI32 m b2 b1 vs2 vs1 vd s
  | .vmaxI32 m b2 b1 vs2 vs1 vd => Sys2Proof.Machine.execVmaxI32 m b2 b1 vs2 vs1 vd s
  | .vmad m b2 b1 vs2 vs1 vd => Sys2Proof.Machine.execVmad m b2 b1 vs2 vs1 vd s
  | .vand m b2 b1 vs2 vs1 vd => Sys2Proof.Machine.execVand m b2 b1 vs2 vs1 vd s
  | .vor m b2 b1 vs2 vs1 vd => Sys2Proof.Machine.execVor m b2 b1 vs2 vs1 vd s
  | .vxor m b2 b1 vs2 vs1 vd => Sys2Proof.Machine.execVxor m b2 b1 vs2 vs1 vd s
  | .vshl m b2 b1 vs2 vs1 vd => Sys2Proof.Machine.execVshl m b2 b1 vs2 vs1 vd s
  | .vshr m b2 b1 vs2 vs1 vd => Sys2Proof.Machine.execVshr m b2 b1 vs2 vs1 vd s
  | .vsra m b2 b1 vs2 vs1 vd => Sys2Proof.Machine.execVsra m b2 b1 vs2 vs1 vd s
  | .vminN32 m b2 b1 vs2 vs1 vd => Sys2Proof.Machine.execVminN32 m b2 b1 vs2 vs1 vd s
  | .vmaxN32 m b2 b1 vs2 vs1 vd => Sys2Proof.Machine.execVmaxN32 m b2 b1 vs2 vs1 vd s
  | .vaddB64 m b2 b1 vs2 vs1 vd => Sys2Proof.Machine.execVaddB64 m b2 b1 vs2 vs1 vd s
  | .vsubB64 m b2 b1 vs2 vs1 vd => Sys2Proof.Machine.execVsubB64 m b2 b1 vs2 vs1 vd s
  | .vmulB64 m b2 b1 vs2 vs1 vd => Sys2Proof.Machine.execVmulB64 m b2 b1 vs2 vs1 vd s
  | .vshlB64 m b2 b1 vs2 vs1 vd => Sys2Proof.Machine.execVshlB64 m b2 b1 vs2 vs1 vd s
  | .vshrB64 m b2 b1 vs2 vs1 vd => Sys2Proof.Machine.execVshrB64 m b2 b1 vs2 vs1 vd s
  | .vsraB64 m b2 b1 vs2 vs1 vd => Sys2Proof.Machine.execVsraB64 m b2 b1 vs2 vs1 vd s
  | .vminI64 m b2 b1 vs2 vs1 vd => Sys2Proof.Machine.execVminI64 m b2 b1 vs2 vs1 vd s
  | .vmaxI64 m b2 b1 vs2 vs1 vd => Sys2Proof.Machine.execVmaxI64 m b2 b1 vs2 vs1 vd s
  | .vandB64 m b2 b1 vs2 vs1 vd => Sys2Proof.Machine.execVandB64 m b2 b1 vs2 vs1 vd s
  | .vorB64 m b2 b1 vs2 vs1 vd => Sys2Proof.Machine.execVorB64 m b2 b1 vs2 vs1 vd s
  | .vxorB64 m b2 b1 vs2 vs1 vd => Sys2Proof.Machine.execVxorB64 m b2 b1 vs2 vs1 vd s
  | .vminN64 m b2 b1 vs2 vs1 vd => Sys2Proof.Machine.execVminN64 m b2 b1 vs2 vs1 vd s
  | .vmaxN64 m b2 b1 vs2 vs1 vd => Sys2Proof.Machine.execVmaxN64 m b2 b1 vs2 vs1 vd s
  | .vmulhiI64 m b2 b1 vs2 vs1 vd => Sys2Proof.Machine.execVmulhiI64 m b2 b1 vs2 vs1 vd s
  | .vmulhiN64 m b2 b1 vs2 vs1 vd => Sys2Proof.Machine.execVmulhiN64 m b2 b1 vs2 vs1 vd s
  | .vnot m b1 vs1 vd => Sys2Proof.Machine.execVnot m b1 vs1 vd s
  | .vnegI32 m b1 vs1 vd => Sys2Proof.Machine.execVnegI32 m b1 vs1 vd s
  | .vabsI32 m b1 vs1 vd => Sys2Proof.Machine.execVabsI32 m b1 vs1 vd s
  | .vpopc m b1 vs1 vd => Sys2Proof.Machine.execVpopc m b1 vs1 vd s
  | .vclz m b1 vs1 vd => Sys2Proof.Machine.execVclz m b1 vs1 vd s
  | .vbrev m b1 vs1 vd => Sys2Proof.Machine.execVbrev m b1 vs1 vd s
  | .vnegI64 m b1 vs1 vd => Sys2Proof.Machine.execVnegI64 m b1 vs1 vd s
  | .vabsI64 m b1 vs1 vd => Sys2Proof.Machine.execVabsI64 m b1 vs1 vd s
  | .vaddSatI32 m b2 b1 vs2 vs1 vd => Sys2Proof.Machine.execVaddSatI32 m b2 b1 vs2 vs1 vd s
  | .vsubSatI32 m b2 b1 vs2 vs1 vd => Sys2Proof.Machine.execVsubSatI32 m b2 b1 vs2 vs1 vd s
  | .vaddSatN32 m b2 b1 vs2 vs1 vd => Sys2Proof.Machine.execVaddSatN32 m b2 b1 vs2 vs1 vd s
  | .vsubSatN32 m b2 b1 vs2 vs1 vd => Sys2Proof.Machine.execVsubSatN32 m b2 b1 vs2 vs1 vd s
  | .vaddSatI64 m b2 b1 vs2 vs1 vd => Sys2Proof.Machine.execVaddSatI64 m b2 b1 vs2 vs1 vd s
  | .vsubSatI64 m b2 b1 vs2 vs1 vd => Sys2Proof.Machine.execVsubSatI64 m b2 b1 vs2 vs1 vd s
  | .vaddSatN64 m b2 b1 vs2 vs1 vd => Sys2Proof.Machine.execVaddSatN64 m b2 b1 vs2 vs1 vd s
  | .vsubSatN64 m b2 b1 vs2 vs1 vd => Sys2Proof.Machine.execVsubSatN64 m b2 b1 vs2 vs1 vd s
  | .vsel m b2 b1 vs2 vs1 vd mk => Sys2Proof.Machine.execVsel m b2 b1 vs2 vs1 vd mk s
  | .vtix m vd => Sys2Proof.Machine.execVtix m vd s
  | .vshape vs1 sd => Sys2Proof.Machine.execVshape vs1 sd s
  | .vrdx m ss vd => Sys2Proof.Machine.execVrdx m ss vd s
  | .vwrx m b2 vs2 ss => Sys2Proof.Machine.execVwrx m b2 vs2 ss s
  | .vfaddF32 m b2 b1 vs2 vs1 vd rm => Sys2Proof.Machine.execVfaddF32 m b2 b1 vs2 vs1 vd rm s
  | .vfsubF32 m b2 b1 vs2 vs1 vd rm => Sys2Proof.Machine.execVfsubF32 m b2 b1 vs2 vs1 vd rm s
  | .vfmulF32 m b2 b1 vs2 vs1 vd rm => Sys2Proof.Machine.execVfmulF32 m b2 b1 vs2 vs1 vd rm s
  | .vfmaF32 m b2 b1 vs2 vs1 vd rm => Sys2Proof.Machine.execVfmaF32 m b2 b1 vs2 vs1 vd rm s
  | .vfdivF32 m b2 b1 vs2 vs1 vd rm => Sys2Proof.Machine.execVfdivF32 m b2 b1 vs2 vs1 vd rm s
  | .vfsqrtF32 m b1 vs1 vd rm => Sys2Proof.Machine.execVfsqrtF32 m b1 vs1 vd rm s
  | .vfaddF64 m b2 b1 vs2 vs1 vd rm => Sys2Proof.Machine.execVfaddF64 m b2 b1 vs2 vs1 vd rm s
  | .vfsubF64 m b2 b1 vs2 vs1 vd rm => Sys2Proof.Machine.execVfsubF64 m b2 b1 vs2 vs1 vd rm s
  | .vfmulF64 m b2 b1 vs2 vs1 vd rm => Sys2Proof.Machine.execVfmulF64 m b2 b1 vs2 vs1 vd rm s
  | .vfmaF64 m b2 b1 vs2 vs1 vd rm => Sys2Proof.Machine.execVfmaF64 m b2 b1 vs2 vs1 vd rm s
  | .vfdivF64 m b2 b1 vs2 vs1 vd rm => Sys2Proof.Machine.execVfdivF64 m b2 b1 vs2 vs1 vd rm s
  | .vfsqrtF64 m b1 vs1 vd rm => Sys2Proof.Machine.execVfsqrtF64 m b1 vs1 vd rm s
  | .vfminF32 m b2 b1 vs2 vs1 vd => Sys2Proof.Machine.execVfminF32 m b2 b1 vs2 vs1 vd s
  | .vfmaxF32 m b2 b1 vs2 vs1 vd => Sys2Proof.Machine.execVfmaxF32 m b2 b1 vs2 vs1 vd s
  | .vfminF64 m b2 b1 vs2 vs1 vd => Sys2Proof.Machine.execVfminF64 m b2 b1 vs2 vs1 vd s
  | .vfmaxF64 m b2 b1 vs2 vs1 vd => Sys2Proof.Machine.execVfmaxF64 m b2 b1 vs2 vs1 vd s
  | .vfrcpF32 m b1 vs1 vd => Sys2Proof.Machine.execVfrcpF32 m b1 vs1 vd s
  | .vfrsqF32 m b1 vs1 vd => Sys2Proof.Machine.execVfrsqF32 m b1 vs1 vd s
  | .vfexp2F32 m b1 vs1 vd => Sys2Proof.Machine.execVfexp2F32 m b1 vs1 vd s
  | .vflog2F32 m b1 vs1 vd => Sys2Proof.Machine.execVflog2F32 m b1 vs1 vd s
  | .vcmpI32 m b2 b1 vs2 vs1 cond md => Sys2Proof.Machine.execVcmpI32 m b2 b1 vs2 vs1 cond md s
  | .vcmpN32 m b2 b1 vs2 vs1 cond md => Sys2Proof.Machine.execVcmpN32 m b2 b1 vs2 vs1 cond md s
  | .vcmpI64 m b2 b1 vs2 vs1 cond md => Sys2Proof.Machine.execVcmpI64 m b2 b1 vs2 vs1 cond md s
  | .vcmpN64 m b2 b1 vs2 vs1 cond md => Sys2Proof.Machine.execVcmpN64 m b2 b1 vs2 vs1 cond md s
  | .vfcmpF32 m b2 b1 vs2 vs1 cond md => Sys2Proof.Machine.execVfcmpF32 m b2 b1 vs2 vs1 cond md s
  | .vfcmpF64 m b2 b1 vs2 vs1 cond md => Sys2Proof.Machine.execVfcmpF64 m b2 b1 vs2 vs1 cond md s
  | .vcvt m b1 rm src dst vs1 vd => Sys2Proof.Machine.execVcvt m b1 rm src dst vs1 vd s
  | .vaddImm m b1 imm vs1 vd => Sys2Proof.Machine.execVaddImm m b1 imm vs1 vd s
  | .vandImm m b1 imm vs1 vd => Sys2Proof.Machine.execVandImm m b1 imm vs1 vd s
  | .vshlImm m b1 amt vs1 vd => Sys2Proof.Machine.execVshlImm m b1 amt vs1 vd s
  | .vshrImm m b1 amt vs1 vd => Sys2Proof.Machine.execVshrImm m b1 amt vs1 vd s
  | .vsraImm m b1 amt vs1 vd => Sys2Proof.Machine.execVsraImm m b1 amt vs1 vd s
  | .vshfl m b2 b1 vs2 vs1 vd => Sys2Proof.Machine.execVshfl m b2 b1 vs2 vs1 vd s
  | .vballot m b1 vs1 sd => Sys2Proof.Machine.execVballot m b1 vs1 sd s
  | .xshf m b1 ss vs1 vd => Sys2Proof.Machine.execXshf m b1 ss vs1 vd s
  | .vred m b1 rm ty op vs1 vd => Sys2Proof.Machine.execVred m b1 rm ty op vs1 vd s
  | .vscan m b1 excl rm ty op vs1 vd => Sys2Proof.Machine.execVscan m b1 excl rm ty op vs1 vd s
  | .vminidx m b1 ty vs1 vd => Sys2Proof.Machine.execVminidx m b1 ty vs1 vd s
  | .vmaxidx m b1 ty vs1 vd => Sys2Proof.Machine.execVmaxidx m b1 ty vs1 vd s
  | .mand mb ma md => Sys2Proof.Machine.execMand mb ma md s
  | .mor mb ma md => Sys2Proof.Machine.execMor mb ma md s
  | .mnot ma md => Sys2Proof.Machine.execMnot ma md s
  | .mpopc ma sd => Sys2Proof.Machine.execMpopc ma sd s
  | .mfirst ma sd => Sys2Proof.Machine.execMfirst ma sd s
  | .vpln m b1 plane vs1 vd => Sys2Proof.Machine.execVpln m b1 plane vs1 vd s
  | .vqnt m b1 tid vs1 vd => Sys2Proof.Machine.execVqnt m b1 tid vs1 vd s
  | .mma z tb ta tc => Sys2Proof.Machine.execMma z tb ta tc s
  | .mmsp z tb ta tc => Sys2Proof.Machine.execMmsp z tb ta tc s
  | .mzero tc => Sys2Proof.Machine.execMzero tc s
  | .cpyPln ta tc => Sys2Proof.Machine.execCpyPln ta tc s
  | .cpyPlnUnp ta tc => Sys2Proof.Machine.execCpyPlnUnp ta tc s
  | .cpyFold tb ta tc => Sys2Proof.Machine.execCpyFold tb ta tc s
  | .sadd b2 b1 ss2 ss1 sd => Sys2Proof.Machine.execSadd b2 b1 ss2 ss1 sd s
  | .ssub b2 b1 ss2 ss1 sd => Sys2Proof.Machine.execSsub b2 b1 ss2 ss1 sd s
  | .smul b2 b1 ss2 ss1 sd => Sys2Proof.Machine.execSmul b2 b1 ss2 ss1 sd s
  | .sand b2 b1 ss2 ss1 sd => Sys2Proof.Machine.execSand b2 b1 ss2 ss1 sd s
  | .sor b2 b1 ss2 ss1 sd => Sys2Proof.Machine.execSor b2 b1 ss2 ss1 sd s
  | .sxor b2 b1 ss2 ss1 sd => Sys2Proof.Machine.execSxor b2 b1 ss2 ss1 sd s
  | .smin u b2 b1 ss2 ss1 sd => Sys2Proof.Machine.execSmin u b2 b1 ss2 ss1 sd s
  | .smax u b2 b1 ss2 ss1 sd => Sys2Proof.Machine.execSmax u b2 b1 ss2 ss1 sd s
  | .sshl b2 b1 ss2 ss1 sd => Sys2Proof.Machine.execSshl b2 b1 ss2 ss1 sd s
  | .sshr b2 b1 ss2 ss1 sd => Sys2Proof.Machine.execSshr b2 b1 ss2 ss1 sd s
  | .ssra b2 b1 ss2 ss1 sd => Sys2Proof.Machine.execSsra b2 b1 ss2 ss1 sd s
  | .smov b1 ss1 sd => Sys2Proof.Machine.execSmov b1 ss1 sd s
  | .scmp u b2 b1 ss2 ss1 sd cond => Sys2Proof.Machine.execScmp u b2 b1 ss2 ss1 sd cond s
  | .saddImm imm sd => Sys2Proof.Machine.execSaddImm imm sd s
  | .sandImm imm sd => Sys2Proof.Machine.execSandImm imm sd s
  | .sorImm imm sd => Sys2Proof.Machine.execSorImm imm sd s
  | .sxorImm imm sd => Sys2Proof.Machine.execSxorImm imm sd s
  | .sshlImm amt sd => Sys2Proof.Machine.execSshlImm amt sd s
  | .sshrImm amt sd => Sys2Proof.Machine.execSshrImm amt sd s
  | .ssraImm amt sd => Sys2Proof.Machine.execSsraImm amt sd s
  | .smulImm imm sd => Sys2Proof.Machine.execSmulImm imm sd s
  | .sli imm sd => Sys2Proof.Machine.execSli imm sd s
  | .slih imm sd h => Sys2Proof.Machine.execSlih imm sd h s
  | .sget n sd => Sys2Proof.Machine.execSget n sd s
  | .sset n ss => Sys2Proof.Machine.execSset n ss s
  | .bcnd off ss cond => Sys2Proof.Machine.execBcnd off ss cond s
  | .loop off ss => Sys2Proof.Machine.execLoop off ss s
  | .vbra toff joff mk => Sys2Proof.Machine.execVbra toff joff mk s
  | .bra off => Sys2Proof.Machine.execBra off s
  | .call off => Sys2Proof.Machine.execCall off s
  | .ret b1 ss => Sys2Proof.Machine.execRet b1 ss s
  | .retX b1 ss => Sys2Proof.Machine.execRetX b1 ss s
  | .trap code => Sys2Proof.Machine.execTrap code s
  | .brk code => Sys2Proof.Machine.execBrk code s
  | .sfp n => Sys2Proof.Machine.execSfp n s
  | .scopeOpen k => Sys2Proof.Machine.execScopeOpen k s
  | .rgive k => Sys2Proof.Machine.execRgive k s
  | .rclaim k sd => Sys2Proof.Machine.execRclaim k sd s
  | .exitSucc sd => Sys2Proof.Machine.execExitSucc sd s
  | .tjoin k sd => Sys2Proof.Machine.execTjoin k sd s
  | .fence scope k => Sys2Proof.Machine.execFence scope k s
  | .cmk b2 ss2 cs cd => Sys2Proof.Machine.execCmk b2 ss2 cs cd s
  | .cbnd b2 ss2 cs cd => Sys2Proof.Machine.execCbnd b2 ss2 cs cd s
  | .cperm b2 ss2 cs cd => Sys2Proof.Machine.execCperm b2 ss2 cs cd s
  | .cseal cs cd => Sys2Proof.Machine.execCseal cs cd s
  | .cget sel cs sd => Sys2Proof.Machine.execCget sel cs sd s
  | .xbind b2 ss2 cs n => Sys2Proof.Machine.execXbind b2 ss2 cs n s
  | .cld bo cap so cd => Sys2Proof.Machine.execCld bo cap so cd s
  | .cst bo cap so cs => Sys2Proof.Machine.execCst bo cap so cs s
  | .vld m lsel bo cap vo vd w => Sys2Proof.Machine.execVld m lsel bo cap vo vd w s
  | .vldAcq m ln scope cap vo vd w => Sys2Proof.Machine.execVldAcq m ln scope cap vo vd w s
  | .vst m bd bo cap vo vd sg w => Sys2Proof.Machine.execVst m bd bo cap vo vd sg w s
  | .vstRel m ln scope cap vo vd sg w => Sys2Proof.Machine.execVstRel m ln scope cap vo vd sg w s
  | .vldNt m lsel bo cap vo vd w => Sys2Proof.Machine.execVldNt m lsel bo cap vo vd w s
  | .vstNt m bd bo cap vo vd w => Sys2Proof.Machine.execVstNt m bd bo cap vo vd w s
  | .sld ord scope cap so sd w => Sys2Proof.Machine.execSld ord scope cap so sd w s
  | .sst ord scope cap so ss sg w => Sys2Proof.Machine.execSst ord scope cap so ss sg w s
  | .lds m lsel bo cap so vd w => Sys2Proof.Machine.execLds m lsel bo cap so vd w s
  | .sts m bd bo cap so vd sg w => Sys2Proof.Machine.execSts m bd bo cap so vd sg w s
  | .pfch m lsel bo cap vo => Sys2Proof.Machine.execPfch m lsel bo cap vo s
  | .tld m bo cap vo vd => Sys2Proof.Machine.execTld m bo cap vo vd s
  | .tst m bd bo cap vo vd => Sys2Proof.Machine.execTst m bd bo cap vo vd s
  | .launch cap so sq => Sys2Proof.Machine.execLaunch cap so sq s
  | .smap ss2 cap sd => Sys2Proof.Machine.execSmap ss2 cap sd s
  | .sunmap b1 ss => Sys2Proof.Machine.execSunmap b1 ss s
  | .sflush b2 ss2 cap => Sys2Proof.Machine.execSflush b2 ss2 cap s
  | .sinval b2 ss2 cap => Sys2Proof.Machine.execSinval b2 ss2 cap s
  | .vatomAddB32 m sg f os cap vo vd => Sys2Proof.Machine.execVatomAddB32 m sg f os cap vo vd s
  | .vatomMinI32 m sg f os cap vo vd => Sys2Proof.Machine.execVatomMinI32 m sg f os cap vo vd s
  | .vatomMaxI32 m sg f os cap vo vd => Sys2Proof.Machine.execVatomMaxI32 m sg f os cap vo vd s
  | .vatomMinN32 m sg f os cap vo vd => Sys2Proof.Machine.execVatomMinN32 m sg f os cap vo vd s
  | .vatomMaxN32 m sg f os cap vo vd => Sys2Proof.Machine.execVatomMaxN32 m sg f os cap vo vd s
  | .vatomAndB32 m sg f os cap vo vd => Sys2Proof.Machine.execVatomAndB32 m sg f os cap vo vd s
  | .vatomOrB32 m sg f os cap vo vd => Sys2Proof.Machine.execVatomOrB32 m sg f os cap vo vd s
  | .vatomXorB32 m sg f os cap vo vd => Sys2Proof.Machine.execVatomXorB32 m sg f os cap vo vd s
  | .vatomAddB64 m sg f os cap vo vd => Sys2Proof.Machine.execVatomAddB64 m sg f os cap vo vd s
  | .vatomMinI64 m sg f os cap vo vd => Sys2Proof.Machine.execVatomMinI64 m sg f os cap vo vd s
  | .vatomMaxI64 m sg f os cap vo vd => Sys2Proof.Machine.execVatomMaxI64 m sg f os cap vo vd s
  | .vatomMinN64 m sg f os cap vo vd => Sys2Proof.Machine.execVatomMinN64 m sg f os cap vo vd s
  | .vatomMaxN64 m sg f os cap vo vd => Sys2Proof.Machine.execVatomMaxN64 m sg f os cap vo vd s
  | .vatomAndB64 m sg f os cap vo vd => Sys2Proof.Machine.execVatomAndB64 m sg f os cap vo vd s
  | .vatomOrB64 m sg f os cap vo vd => Sys2Proof.Machine.execVatomOrB64 m sg f os cap vo vd s
  | .vatomXorB64 m sg f os cap vo vd => Sys2Proof.Machine.execVatomXorB64 m sg f os cap vo vd s
  | .vatomXchgB32 m sg f os cap vo vd => Sys2Proof.Machine.execVatomXchgB32 m sg f os cap vo vd s
  | .vatomXchgB64 m sg f os cap vo vd => Sys2Proof.Machine.execVatomXchgB64 m sg f os cap vo vd s
  | .vatomCasB32 m sg os cap vo vd => Sys2Proof.Machine.execVatomCasB32 m sg os cap vo vd s
  | .vatomCasB64 m sg os cap vo vd => Sys2Proof.Machine.execVatomCasB64 m sg os cap vo vd s
  | .vratomAddBf16 m sg f os cap so vd => Sys2Proof.Machine.execVratomAddBf16 m sg f os cap so vd s
  | .vatomFaddF32 m sg f os cap vo vd => Sys2Proof.Machine.execVatomFaddF32 m sg f os cap vo vd s
  | .vatomFaddF64 m sg f os cap vo vd => Sys2Proof.Machine.execVatomFaddF64 m sg f os cap vo vd s
  | .vatomFaddBf16x2 m sg f os cap vo vd => Sys2Proof.Machine.execVatomFaddBf16x2 m sg f os cap vo vd s
  | .vatomFaddF16x2 m sg f os cap vo vd => Sys2Proof.Machine.execVatomFaddF16x2 m sg f os cap vo vd s
  | .vatomFaddF32Mrg m sg f os cap vo vd => Sys2Proof.Machine.execVatomFaddF32Mrg m sg f os cap vo vd s
  | .vatomFaddF64Mrg m sg f os cap vo vd => Sys2Proof.Machine.execVatomFaddF64Mrg m sg f os cap vo vd s
  | .vatomFaddBf16x2Mrg m sg f os cap vo vd => Sys2Proof.Machine.execVatomFaddBf16x2Mrg m sg f os cap vo vd s
  | .vatomFaddF16x2Mrg m sg f os cap vo vd => Sys2Proof.Machine.execVatomFaddF16x2Mrg m sg f os cap vo vd s
  | .satom aoph sg f os cap so sd func => Sys2Proof.Machine.execSatom aoph sg f os cap so sd func s
  | .lckAcq cap st so sd => Sys2Proof.Machine.execLckAcq cap st so sd s
  | .lckTry cap so sd => Sys2Proof.Machine.execLckTry cap so sd s
  | .lckRel cap so => Sys2Proof.Machine.execLckRel cap so s
  | .lckStat cap so sd => Sys2Proof.Machine.execLckStat cap so sd s
  | .mwait cap st so sd => Sys2Proof.Machine.execMwait cap st so sd s
  | .barrArr cap so sd => Sys2Proof.Machine.execBarrArr cap so sd s
  | .barrAw cap so sd => Sys2Proof.Machine.execBarrAw cap so sd s
  | .barrDrop cap so sd => Sys2Proof.Machine.execBarrDrop cap so sd s
  | .ewait k cls => Sys2Proof.Machine.execEwait k cls s
  | .gnode sd => Sys2Proof.Machine.execGnode sd s
  | .glink succ pred => Sys2Proof.Machine.execGlink succ pred s
  | .ringGet k sd => Sys2Proof.Machine.execRingGet k sd s
  | .ringPut k sd => Sys2Proof.Machine.execRingPut k sd s
  | .tdesc tid ss => Sys2Proof.Machine.execTdesc tid ss s
  | .tdget tid sd => Sys2Proof.Machine.execTdget tid sd s
  | .cpy g cdst csrc sk sd => Sys2Proof.Machine.execCpy g cdst csrc sk sd s
  | .cpyGth g cdst csrc sk sd => Sys2Proof.Machine.execCpyGth g cdst csrc sk sd s
  | .cpyRmt g cdst csrc sk sd => Sys2Proof.Machine.execCpyRmt g cdst csrc sk sd s
  | .cpyTr8 g cdst csrc sk sd => Sys2Proof.Machine.execCpyTr8 g cdst csrc sk sd s
  | .cpyTr16 g cdst csrc sk sd => Sys2Proof.Machine.execCpyTr16 g cdst csrc sk sd s
  | .vadd16 vs2 vd => Sys2Proof.Machine.execVadd16 vs2 vd s
  | .vsub16 vs2 vd => Sys2Proof.Machine.execVsub16 vs2 vd s
  | .vmul16 vs2 vd => Sys2Proof.Machine.execVmul16 vs2 vd s
  | .vand16 vs2 vd => Sys2Proof.Machine.execVand16 vs2 vd s
  | .vor16 vs2 vd => Sys2Proof.Machine.execVor16 vs2 vd s
  | .vxor16 vs2 vd => Sys2Proof.Machine.execVxor16 vs2 vd s
  | .vshl16 vs2 vd => Sys2Proof.Machine.execVshl16 vs2 vd s
  | .vshr16 vs2 vd => Sys2Proof.Machine.execVshr16 vs2 vd s
  | .vsra16 vs2 vd => Sys2Proof.Machine.execVsra16 vs2 vd s
  | .vminI3216 vs2 vd => Sys2Proof.Machine.execVminI3216 vs2 vd s
  | .vmaxI3216 vs2 vd => Sys2Proof.Machine.execVmaxI3216 vs2 vd s
  | .vfaddF3216 vs2 vd => Sys2Proof.Machine.execVfaddF3216 vs2 vd s
  | .vfsubF3216 vs2 vd => Sys2Proof.Machine.execVfsubF3216 vs2 vd s
  | .vfmulF3216 vs2 vd => Sys2Proof.Machine.execVfmulF3216 vs2 vd s
  | .vfminF3216 vs2 vd => Sys2Proof.Machine.execVfminF3216 vs2 vd s
  | .vfmaxF3216 vs2 vd => Sys2Proof.Machine.execVfmaxF3216 vs2 vd s
  | .nop => Sys2Proof.Machine.execNop s
  | .vjoin => Sys2Proof.Machine.execVjoin s
  | .exit => Sys2Proof.Machine.execExit s
  | .roleYield => Sys2Proof.Machine.execRoleYield s
  | .scopeClose => Sys2Proof.Machine.execScopeClose s
  | .contDep => Sys2Proof.Machine.execContDep s
  | .tleave => Sys2Proof.Machine.execTleave s
  | .ntdrain => Sys2Proof.Machine.execNtdrain s
  | .capabilityMint pa space base top addr perms => Sys2Proof.Machine.execCapabilityMint pa space base top addr perms s
  | .setRootTable ctx pa => Sys2Proof.Machine.execSetRootTable ctx pa s
  | .tlbShootdown ctx lo hi => Sys2Proof.Machine.execTlbShootdown ctx lo hi s
  | .generationRaise frame => Sys2Proof.Machine.execGenerationRaise frame s
  | .generationRaiseComplete frame => Sys2Proof.Machine.execGenerationRaiseComplete frame s
  | .generationSet frame gen => Sys2Proof.Machine.execGenerationSet frame gen s
  | .lockDrainRequest frame => Sys2Proof.Machine.execLockDrainRequest frame s
  | .brokenMarkClear line => Sys2Proof.Machine.execBrokenMarkClear line s
  | .queueRegister q ctx cores cb => Sys2Proof.Machine.execQueueRegister q ctx cores cb s
  | .peerTableWrite ctx peer en port base size => Sys2Proof.Machine.execPeerTableWrite ctx peer en port base size s
  | .policyWrite p value => Sys2Proof.Machine.execPolicyWrite p value s
  | .preemptRequest ctx cores => Sys2Proof.Machine.execPreemptRequest ctx cores s
  | .preemptContextSave ctx core => Sys2Proof.Machine.execPreemptContextSave ctx core s
  | .preemptWithdraw ctx cores => Sys2Proof.Machine.execPreemptWithdraw ctx cores s
  | .contextRestore ctx cores => Sys2Proof.Machine.execContextRestore ctx cores s
  | .thermalMigration task => Sys2Proof.Machine.execThermalMigration task s
  | .contextEnd ctx => Sys2Proof.Machine.execContextEnd ctx s
  | .faultResolveRetry rid => Sys2Proof.Machine.execFaultResolveRetry rid s
  | .faultResolveSkip rid => Sys2Proof.Machine.execFaultResolveSkip rid s
  | .faultResolveUser rid => Sys2Proof.Machine.execFaultResolveUser rid s
  | .faultResolveEnd rid => Sys2Proof.Machine.execFaultResolveEnd rid s
  | .spillResizeResume ctx cqspill => Sys2Proof.Machine.execSpillResizeResume ctx cqspill s
  | .eclkAdvance => Sys2Proof.Machine.execEclkAdvance s
  | .xwLoad uid n => Sys2Proof.Machine.execXwLoad uid n s
  | .xwLeaseExpiry uid n => Sys2Proof.Machine.execXwLeaseExpiry uid n s
  | .pageWalkComplete walk => Sys2Proof.Machine.execPageWalkComplete walk s
  | .requestRefused rq => Sys2Proof.Machine.execRequestRefused rq s
  | .homeRead rq => Sys2Proof.Machine.execHomeRead rq s
  | .homeOwnership rq => Sys2Proof.Machine.execHomeOwnership rq s
  | .homeWriteThrough rq => Sys2Proof.Machine.execHomeWriteThrough rq s
  | .homeWriteBack pair unit line mask => Sys2Proof.Machine.execHomeWriteBack pair unit line mask s
  | .invalidationReceived rq target => Sys2Proof.Machine.execInvalidationReceived rq target s
  | .recallReceived rq pair unit mask => Sys2Proof.Machine.execRecallReceived rq pair unit mask s
  | .forwardedRead rq => Sys2Proof.Machine.execForwardedRead rq s
  | .invalidationAck rq => Sys2Proof.Machine.execInvalidationAck rq s
  | .ownershipAck rq => Sys2Proof.Machine.execOwnershipAck rq s
  | .releaseMarkerHead core => Sys2Proof.Machine.execReleaseMarkerHead core s
  | .heldAccessRelease uid op => Sys2Proof.Machine.execHeldAccessRelease uid op s
  | .leaseRead rq => Sys2Proof.Machine.execLeaseRead rq s
  | .leaseWrite rq => Sys2Proof.Machine.execLeaseWrite rq s
  | .leaseWriteHoldEnd rq => Sys2Proof.Machine.execLeaseWriteHoldEnd rq s
  | .sliceLeaseSweep slice => Sys2Proof.Machine.execSliceLeaseSweep slice s
  | .coreLeaseSweep core => Sys2Proof.Machine.execCoreLeaseSweep core s
  | .replyArrival rq err => Sys2Proof.Machine.execReplyArrival rq err s
  | .stashFillArrival fill => Sys2Proof.Machine.execStashFillArrival fill s
  | .homeAtomic rq => Sys2Proof.Machine.execHomeAtomic rq s
  | .homeRowAtomic rq => Sys2Proof.Machine.execHomeRowAtomic rq s
  | .routerMerge rq other => Sys2Proof.Machine.execRouterMerge rq other s
  | .routerMergeReply rq => Sys2Proof.Machine.execRouterMergeReply rq s
  | .lockRequestArrival rq => Sys2Proof.Machine.execLockRequestArrival rq s
  | .lockReleaseArrival rq => Sys2Proof.Machine.execLockReleaseArrival rq s
  | .lockWaiterExpiry line uid => Sys2Proof.Machine.execLockWaiterExpiry line uid s
  | .lckHold line => Sys2Proof.Machine.execLckHold line s
  | .deadlockProbe line uid => Sys2Proof.Machine.execDeadlockProbe line uid s
  | .lockStatRequest rq => Sys2Proof.Machine.execLockStatRequest rq s
  | .mwaitRequestArrival rq => Sys2Proof.Machine.execMwaitRequestArrival rq s
  | .monitorExpiry mon => Sys2Proof.Machine.execMonitorExpiry mon s
  | .barrierUpdate core addr => Sys2Proof.Machine.execBarrierUpdate core addr s
  | .barrierCarriedCompletion core addr => Sys2Proof.Machine.execBarrierCarriedCompletion core addr s
  | .barrierHeldArrival uid op => Sys2Proof.Machine.execBarrierHeldArrival uid op s
  | .granuleRoleMove core granule => Sys2Proof.Machine.execGranuleRoleMove core granule s
  | .dispatcherServe => Sys2Proof.Machine.execDispatcherServe s
  | .waitCounterPoll q => Sys2Proof.Machine.execWaitCounterPoll q s
  | .dispatchComplete disp => Sys2Proof.Machine.execDispatchComplete disp s
  | .relaunchStep core => Sys2Proof.Machine.execRelaunchStep core s
  | .contStall core => Sys2Proof.Machine.execContStall core s
  | .rebalancePending task => Sys2Proof.Machine.execRebalancePending task s
  | .sfpLate ctx core => Sys2Proof.Machine.execSfpLate ctx core s
  | .succReadComplete task => Sys2Proof.Machine.execSuccReadComplete task s
  | .launchAction rq => Sys2Proof.Machine.execLaunchAction rq s
  | .xshfRequestArrival rq => Sys2Proof.Machine.execXshfRequestArrival rq s
  | .xshfStale core uid => Sys2Proof.Machine.execXshfStale core uid s
  | .engineCommandComplete cmd err => Sys2Proof.Machine.execEngineCommandComplete cmd err s
  | .graphNodeStart core node => Sys2Proof.Machine.execGraphNodeStart core node s
  | .matrixStart cmd => Sys2Proof.Machine.execMatrixStart cmd s
  | .operandsConsumed cmd => Sys2Proof.Machine.execOperandsConsumed cmd s
  | .matrixRetire cmd => Sys2Proof.Machine.execMatrixRetire cmd s
  | .ringPublishEffect uid op => Sys2Proof.Machine.execRingPublishEffect uid op s
  | .deferredCauseDelivery uid => Sys2Proof.Machine.execDeferredCauseDelivery uid s
  | .hostWrite die pa data => Sys2Proof.Machine.execHostWrite die pa data s
  | .hostRead die pa len => Sys2Proof.Machine.execHostRead die pa len s
  | .hostCompletion rq refused => Sys2Proof.Machine.execHostCompletion rq refused s
  | .hostCompletionTimeout rq => Sys2Proof.Machine.execHostCompletionTimeout rq s
  | .colWriteArrival link peer pa flag data => Sys2Proof.Machine.execColWriteArrival link peer pa flag data s
  | .flitData link flit => Sys2Proof.Machine.execFlitData link flit s
  | .flitIdle link flit => Sys2Proof.Machine.execFlitIdle link flit s
  | .flitNak link flit bad => Sys2Proof.Machine.execFlitNak link flit bad s
  | .flitRetrainRequest link flit => Sys2Proof.Machine.execFlitRetrainRequest link flit s
  | .retrainAttemptTimeout link => Sys2Proof.Machine.execRetrainAttemptTimeout link s
  | .linkstatClear link w => Sys2Proof.Machine.execLinkstatClear link w s
  | .checkpointExtentList extents => Sys2Proof.Machine.execCheckpointExtentList extents s
  | .checkpointHostCommand die => Sys2Proof.Machine.execCheckpointHostCommand die s
  | .powerLossWarning => Sys2Proof.Machine.execPowerLossWarning s
  | .checkpointStream => Sys2Proof.Machine.execCheckpointStream s
  | .checkpointRestore => Sys2Proof.Machine.execCheckpointRestore s
  | .namedTickStop die => Sys2Proof.Machine.execNamedTickStop die s
  | .sampctlWrite core w => Sys2Proof.Machine.execSampctlWrite core w s
  | .stallSample core => Sys2Proof.Machine.execStallSample core s
  | .occupancyRecord core => Sys2Proof.Machine.execOccupancyRecord core s
  | .debugHold uid hold => Sys2Proof.Machine.execDebugHold uid hold s
  | .debugRelease uid => Sys2Proof.Machine.execDebugRelease uid s
  | .debugStep uid => Sys2Proof.Machine.execDebugStep uid s
  | .watchpointStop core act => Sys2Proof.Machine.execWatchpointStop core act s
  | .debugRoleHalt task role => Sys2Proof.Machine.execDebugRoleHalt task role s
  | .debugRoleRelease task role => Sys2Proof.Machine.execDebugRoleRelease task role s
  | .packageReset images => Sys2Proof.Machine.execPackageReset images s
  | .recoveryImageWrite die image => Sys2Proof.Machine.execRecoveryImageWrite die image s
  | .firmwareImageStage die image => Sys2Proof.Machine.execFirmwareImageStage die image s
  | .attestationReport die => Sys2Proof.Machine.execAttestationReport die s
  | .ageingMeasurement die slack rosc => Sys2Proof.Machine.execAgeingMeasurement die slack rosc s
  | .guardbandRequest die mv => Sys2Proof.Machine.execGuardbandRequest die mv s
  | .thermalThrottle die => Sys2Proof.Machine.execThermalThrottle die s
  | .thermalTrip die => Sys2Proof.Machine.execThermalTrip die s
  | .retrainComplete link accepted => Sys2Proof.Machine.execRetrainComplete link accepted s
  | .configurationSpaceWrite die atomicOp => Sys2Proof.Machine.execConfigurationSpaceWrite die atomicOp s
  | .hostPortWriteSent rq => Sys2Proof.Machine.execHostPortWriteSent rq s
  | .operatingPointChangeDone die => Sys2Proof.Machine.execOperatingPointChangeDone die s

end Sys2Proof.Machine
end

