-- ==== Sys2Proof/Machine/EventRun.lean ====
section
/-!
DEFINITION. The event of the device that a term of Event stands for.
-/
namespace Sys2Proof.Machine

/-- The outcome of an event: the meaning of its row. -/
def runEvent (e : Event) (s : State) : Out :=
  match e with
  | .capabilityMint pa space base top addr perms => execCapabilityMint pa space base top addr perms s
  | .setRootTable ctx pa => execSetRootTable ctx pa s
  | .tlbShootdown ctx lo hi => execTlbShootdown ctx lo hi s
  | .generationRaise frame => execGenerationRaise frame s
  | .generationRaiseComplete frame => execGenerationRaiseComplete frame s
  | .generationSet frame gen => execGenerationSet frame gen s
  | .lockDrainRequest frame => execLockDrainRequest frame s
  | .brokenMarkClear line => execBrokenMarkClear line s
  | .queueRegister q ctx cores cb => execQueueRegister q ctx cores cb s
  | .peerTableWrite ctx peer en port base size => execPeerTableWrite ctx peer en port base size s
  | .policyWrite p value => execPolicyWrite p value s
  | .preemptRequest ctx cores => execPreemptRequest ctx cores s
  | .preemptContextSave ctx core => execPreemptContextSave ctx core s
  | .preemptWithdraw ctx cores => execPreemptWithdraw ctx cores s
  | .contextRestore ctx cores => execContextRestore ctx cores s
  | .thermalMigration task => execThermalMigration task s
  | .contextEnd ctx => execContextEnd ctx s
  | .faultResolveRetry rid => execFaultResolveRetry rid s
  | .faultResolveSkip rid => execFaultResolveSkip rid s
  | .faultResolveUser rid => execFaultResolveUser rid s
  | .faultResolveEnd rid => execFaultResolveEnd rid s
  | .spillResizeResume ctx cqspill => execSpillResizeResume ctx cqspill s
  | .eclkAdvance => execEclkAdvance s
  | .xwLoad uid n => execXwLoad uid n s
  | .xwLeaseExpiry uid n => execXwLeaseExpiry uid n s
  | .pageWalkComplete walk => execPageWalkComplete walk s
  | .requestRefused rq => execRequestRefused rq s
  | .homeRead rq => execHomeRead rq s
  | .homeOwnership rq => execHomeOwnership rq s
  | .homeWriteThrough rq => execHomeWriteThrough rq s
  | .homeWriteBack pair unit line mask => execHomeWriteBack pair unit line mask s
  | .invalidationReceived rq target => execInvalidationReceived rq target s
  | .recallReceived rq pair unit mask => execRecallReceived rq pair unit mask s
  | .forwardedRead rq => execForwardedRead rq s
  | .invalidationAck rq => execInvalidationAck rq s
  | .ownershipAck rq => execOwnershipAck rq s
  | .releaseMarkerHead core => execReleaseMarkerHead core s
  | .heldAccessRelease uid op => execHeldAccessRelease uid op s
  | .leaseRead rq => execLeaseRead rq s
  | .leaseWrite rq => execLeaseWrite rq s
  | .leaseWriteHoldEnd rq => execLeaseWriteHoldEnd rq s
  | .sliceLeaseSweep slice => execSliceLeaseSweep slice s
  | .coreLeaseSweep core => execCoreLeaseSweep core s
  | .replyArrival rq err => execReplyArrival rq err s
  | .stashFillArrival fill => execStashFillArrival fill s
  | .homeAtomic rq => execHomeAtomic rq s
  | .homeRowAtomic rq => execHomeRowAtomic rq s
  | .routerMerge rq other => execRouterMerge rq other s
  | .routerMergeReply rq => execRouterMergeReply rq s
  | .lockRequestArrival rq => execLockRequestArrival rq s
  | .lockReleaseArrival rq => execLockReleaseArrival rq s
  | .lockWaiterExpiry line uid => execLockWaiterExpiry line uid s
  | .lckHold line => execLckHold line s
  | .deadlockProbe line uid => execDeadlockProbe line uid s
  | .lockStatRequest rq => execLockStatRequest rq s
  | .mwaitRequestArrival rq => execMwaitRequestArrival rq s
  | .monitorExpiry mon => execMonitorExpiry mon s
  | .barrierUpdate core addr => execBarrierUpdate core addr s
  | .barrierCarriedCompletion core addr => execBarrierCarriedCompletion core addr s
  | .barrierHeldArrival uid op => execBarrierHeldArrival uid op s
  | .granuleRoleMove core granule => execGranuleRoleMove core granule s
  | .dispatcherServe => execDispatcherServe s
  | .waitCounterPoll q => execWaitCounterPoll q s
  | .dispatchComplete disp => execDispatchComplete disp s
  | .relaunchStep core => execRelaunchStep core s
  | .contStall core => execContStall core s
  | .rebalancePending task => execRebalancePending task s
  | .sfpLate ctx core => execSfpLate ctx core s
  | .succReadComplete task => execSuccReadComplete task s
  | .launchAction rq => execLaunchAction rq s
  | .xshfRequestArrival rq => execXshfRequestArrival rq s
  | .xshfStale core uid => execXshfStale core uid s
  | .engineCommandComplete cmd err => execEngineCommandComplete cmd err s
  | .graphNodeStart core node => execGraphNodeStart core node s
  | .matrixStart cmd => execMatrixStart cmd s
  | .operandsConsumed cmd => execOperandsConsumed cmd s
  | .matrixRetire cmd => execMatrixRetire cmd s
  | .ringPublishEffect uid op => execRingPublishEffect uid op s
  | .deferredCauseDelivery uid => execDeferredCauseDelivery uid s
  | .hostWrite die pa data => execHostWrite die pa data s
  | .hostRead die pa len => execHostRead die pa len s
  | .hostCompletion rq refused => execHostCompletion rq refused s
  | .hostCompletionTimeout rq => execHostCompletionTimeout rq s
  | .colWriteArrival link peer pa flag data => execColWriteArrival link peer pa flag data s
  | .flitData link flit => execFlitData link flit s
  | .flitIdle link flit => execFlitIdle link flit s
  | .flitNak link flit bad => execFlitNak link flit bad s
  | .flitRetrainRequest link flit => execFlitRetrainRequest link flit s
  | .retrainAttemptTimeout link => execRetrainAttemptTimeout link s
  | .linkstatClear link w => execLinkstatClear link w s
  | .checkpointExtentList extents => execCheckpointExtentList extents s
  | .checkpointHostCommand die => execCheckpointHostCommand die s
  | .powerLossWarning => execPowerLossWarning s
  | .checkpointStream => execCheckpointStream s
  | .checkpointRestore => execCheckpointRestore s
  | .namedTickStop die => execNamedTickStop die s
  | .sampctlWrite core w => execSampctlWrite core w s
  | .stallSample core => execStallSample core s
  | .occupancyRecord core => execOccupancyRecord core s
  | .debugHold uid hold => execDebugHold uid hold s
  | .debugRelease uid => execDebugRelease uid s
  | .debugStep uid => execDebugStep uid s
  | .watchpointStop core act => execWatchpointStop core act s
  | .debugRoleHalt task role => execDebugRoleHalt task role s
  | .debugRoleRelease task role => execDebugRoleRelease task role s
  | .packageReset images => execPackageReset images s
  | .recoveryImageWrite die image => execRecoveryImageWrite die image s
  | .firmwareImageStage die image => execFirmwareImageStage die image s
  | .attestationReport die => execAttestationReport die s
  | .ageingMeasurement die slack rosc => execAgeingMeasurement die slack rosc s
  | .guardbandRequest die mv => execGuardbandRequest die mv s
  | .thermalThrottle die => execThermalThrottle die s
  | .thermalTrip die => execThermalTrip die s
  | .retrainComplete link accepted => execRetrainComplete link accepted s
  | .configurationSpaceWrite die atomicOp => execConfigurationSpaceWrite die atomicOp s
  | .hostPortWriteSent rq => execHostPortWriteSent rq s
  | .operatingPointChangeDone die => execOperatingPointChangeDone die s

end Sys2Proof.Machine
end

