-- ==== Sys2Proof/Machine/Run.lean ====
section
/-!
DEFINITION. Fetching and issuing: the instruction at a fragment's PC (R24, R230, R239), the fragment that a lane selects (R202), one
issue with what follows it (R358, R386, R389), and what happens at each tick (R5, R41, R92, R95, R390).
-/
namespace Sys2Proof.Machine

/-! Fetch (R24, R230, R239, R263). -/

/-- R24, R36: the halfword at an address that the issuing fragment fetches. -/
def fetchHalf (s : State) (a : Nat) : X Nat :=
  match capDecode (taskOf s (curG s)).codec with
  | none => trapAt .capFormat a
  | some (b, t) =>
    if a < b || t < a + 2 then trapAt .capBound (if b ≤ a && a < t then a + 1 else a) else do
    let l ← xltX s .exec a
    let pa := leafPa l a
    if errIn s pa 2 then trapAt .fetchErr a else .ok (visLe s pa 2)

/-- R46: a translation by which the issuing fragment would fetch is dropped when its generation is not that of the frame; the address is
then translated anew. -/
def freshFetch (s : State) : State :=
  let pc := (curF s).pc.toNat
  let stale (s : State) (a : Nat) : Bool := match xlate s (curG s) (curF s) .exec a with
    | .ok l => l.mode != 2 && l.gen != genOf s (leafPa l a)
    | _ => false
  [pc, pc + 2].foldl (fun s a => if stale s a then
    modCurF (tlbDrop s (curG s).core (curG s).ctx a) fun f => { f with walked := f.walked.filter fun w => match w with
      | .leaf p l => !(p == a / 2 ^ 16 || (l.sz && p / 512 == a / 2 ^ 25))
      | .fail _ _ => true }
    else s) s

/-- R230: the instruction at the PC of the issuing fragment. -/
def fetchCode (s : State) : X Code := do
  let pc := (curF s).pc.toNat
  let lo ← fetchHalf s pc
  if lo % 2 = 0 then .ok (codeOfNat lo) else do
  let hi ← fetchHalf s (pc + 2)
  .ok (codeOfNat (lo + 2 ^ 16 * hi))

/-- R241, R50: a stop at fetch. -/
def fetchStopped (s : State) (e : Stop) : State :=
  match e with
  | .trap c a _ => takePrecise s c { fetchRegs (curF s).pc (curF s) with xaddr := BitVec.ofNat 56 a } none (some .exec)
  | e => stopped s (fetchRegs (curF s).pc (curF s)) e

/-- R239: the issuing fragment runs the instruction at its PC. -/
def runFragment (s0 : State) : Out :=
  let s := freshFetch s0
  match fetchCode s with
  | .error e => .next (fetchStopped s e)
  | .ok c => match decode c with
    | .error k => .next (stopped s (insnRegs c (curF s).pc (curG s) (curF s)) (.trap k 0 none))
    | .ok i => exec i s

/-! One issue. -/

/-- R389: what a group issues between a match and the stop that it causes is counted. -/
def skidCount (s : State) (g : Group) : Nat :=
  let stops (e : Event) : Bool := match e with | .watchpointStop c a => (stopCores s c a).contains g.core | _ => false
  if s.agenda.any stops then g.skid + 1 else g.skid

/-- R386: the registers that DBG_STEP loads: those of the instruction at which the group parks. -/
def stepRegs (s : State) : TrapRegs :=
  match fetchCode s with
  | .ok c => insnRegs c (curF s).pc (curG s) (curF s)
  | .error _ => fetchRegs (curF s).pc (curF s)

/-- R386: a stepped group is held again, at its next fragment where the instruction ended the one that issued: after an issue DBG_STEP parks
it, after a suspension the step reports the stall reason, and a precise cause goes where it goes. -/
def stepEnds (s s1 : State) (n : BitVec 16) : State :=
  let u := s.cur.uid
  let g := getG s1 u
  let k := if (getF g s.cur.entry).valid then s.cur.entry else (nextFragment g).getD (shownFragment g)
  let s2 := modG s1 u fun g => { g with hold := some n, step := none }
  if g.uid != u || g.ended then s1 else
  let done (s : State) : State := holdFragments s u n
  match recordOf s1 u k with
  | some r => match r.cond with
    | .faultRes _ | .debug _ => done s2
    | _ => done { s2 with stepped := s2.stepped ++ [(u, worst (fragReasons s1 g k))] }
  | none =>
    if (g.handler.isSome && (getG s u).handler.isNone) || (getF g k).st != 0 then done s2 else
    let rec0 : FaultRec := { faultRecG s2 g .dbgStep false with arg := BitVec.zeroExtend 32 n }
    let regs := stepRegs { s2 with cur := { s2.cur with entry := k } }
    let s3 := modG (addFault s2 rec0) u fun x => loadTrap x .dbgStep (getF g k).pc regs
    done (depositWhy s3 u k (.debug n) (getF g k).mask 2 (some regs) (some .dbgStep) false true)

/-- Whether the fragment that was selected went on: it is not interlocked, and it waits for no walk. -/
def didIssue (s1 : State) (c : Cand) : Bool :=
  let f := getF (getG s1 c.uid) c.entry
  f.why == 0 && f.walking.isNone

/-- What a group's record of a fragment parks or suspends it on, whether the record has its units or not. -/
def stopRecord (s : State) (c : Cand) : Option Record :=
  (s.records ++ (getG s c.uid).stuck).find? fun r => r.uid == c.uid && r.frag == c.entry

/-- Whether the instruction at which the fragment stood suspended it without issuing (R188, R386): its record stands at that instruction, and
neither a cause nor an exchange, whose request has gone out, brought it about. -/
def onlyWaits (s s1 : State) (c : Cand) : Bool :=
  (getF (getG s1 c.uid) c.entry).pc == (getF (getG s c.uid) c.entry).pc && (getF (getG s1 c.uid) c.entry).st != 0 &&
    (stopRecord s1 c).any fun r => r.trap.isNone && match r.cond with | .exchange _ _ | .preempted _ | .faultRes _ | .debug _ => false | _ => true

/-- R382, R389: whether the fragment issued its instruction. -/
def didRun (s s1 : State) (c : Cand) : Bool := didIssue s1 c && !onlyWaits s s1 c

/-- Whether the instruction raised a precise cause: its fragment entered the handler, or a record holds the cause. -/
def didTrap (s s1 : State) (c : Cand) : Bool :=
  ((getG s1 c.uid).handler == some c.entry && (getG s c.uid).handler.isNone) || (stopRecord s1 c).any fun r => r.trap.isSome

/-- The cursor of a tick in which no fragment issued (R382, R383). -/
def noIssue (s : State) : State := { s with cur := { s.cur with tick := 0 } }

/-- R202, R355, R358: a candidate runs. A pending deferred cause is delivered instead of an instruction that is about to issue: one that an
interlock or a walk holds, or that suspends, does not issue, and a precise cause of the same cycle is taken first. It goes to firmware, and the
instruction runs, when TVEC is 0. -/
def runCand (s : State) (c : Cand) : Out :=
  let s0 := modF' { s with cur := { uid := c.uid, entry := c.entry, tick := s.gtick.toNat } }
  let g := curG s0
  match g.deferred with
  | d :: _ =>
    if g.handler.isSome then runFragment s0
    else if (taskOf s0 g).tvec = 0 then runFragment (deferredToFirmware s0 c.uid)
    else match runFragment s0 with
      | .next s1 => .next (if didRun s0 s1 c && !didTrap s0 s1 c then deliverDeferred s0 d.1 else s1)
      | o => o
  | [] => runFragment s0
where
  /-- The fragment forgets the interlock of its last attempt. -/
  modF' (s : State) : State := modCurF s fun f => { f with why := 0 }

/-- What follows an issue or a suspension: the count of R389 and the end of a step (R386). -/
def afterIssue (s s1 : State) (c : Cand) : State :=
  let s2 := if didRun s s1 c && (getG s1 c.uid).uid == c.uid && (getG s c.uid).skid != skidCount s (getG s c.uid) then
    modG s1 c.uid fun g => { g with skid := g.skid + 1 } else s1
  let s3 := match (getG s c.uid).step with
    | some n => stepEnds { s with cur := s1.cur } s2 n
    | none => s2
  if didRun s s1 c then s3 else noIssue s3

/-- R202: the first candidate that is not interlocked issues. The answer is the outcome, none when the lane is idle, with the state
in which the interlocks that were met are noted. -/
def issueFirst (s : State) : List Cand → State × Option Out
  | [] => (s, none)
  | c :: l =>
    match runCand s c with
    | .next s1 =>
      if (getF (getG s1 c.uid) c.entry).why != 0 then issueFirst (noIssue s1) l
      else (s, some (.next (if didIssue s1 c then afterIssue s s1 c else noIssue s1)))
    | o => (s, some o)

/-- The lane of a core issues. -/
def issueLane (s : State) (core lane : Nat) : State × Option Out := issueFirst s (laneCands s core lane)

/-- A lane in the order in which the model lets lanes issue when nothing is scheduled: by the oldest `rdy` (log 2). -/
def laneInsert (x : Nat × Nat × Nat) : List (Nat × Nat × Nat) → List (Nat × Nat × Nat)
  | [] => [x]
  | y :: l => if x.1 < y.1 then x :: y :: l else y :: laneInsert x l

/-- The lanes that hold a candidate: each with its oldest `rdy`, its core and its number. -/
def busyLanes (s : State) : List (Nat × Nat × Nat) :=
  let gs := s.groups.filter fun p => groupIssues s p.2 && !(groupCands p.2).isEmpty
  let lanes := (gs.map fun p => (p.2.core, laneOf (p.2.slot.getD 0))).dedup
  (lanes.map fun l => (((laneCands s l.1 l.2).map fun c => c.rdy).foldl min (2 ^ 64), l.1, l.2)).foldl (fun m x => laneInsert x m) []

/-- The first lane of a list that issues. -/
def issueLanes (s : State) : List (Nat × Nat × Nat) → State × Option Out
  | [] => (s, none)
  | x :: l => match issueLane s x.2.1 x.2.2 with
    | (s1, none) => issueLanes s1 l
    | r => r

/-! The tick (R5). -/

/-- R390: the lock timers and the rebalancer's timers of a context stand still for a tick. -/
def freezeCtx (s : State) (ctx : BitVec 12) : State :=
  let mine (u : Nat) : Bool := (getG s u).ctx == ctx && (getG s u).uid == u
  let wait (w : Waiter) : Waiter := if mine w.uid then { w with expiry := w.expiry.map fun e => e + 1 } else w
  let lock (l : Lock) : Lock := { l with
    since := if l.holder.any mine then l.since + 1 else l.since, queue := l.queue.map wait }
  let task (t : Task) : Task := if t.ctx == ctx && !(getDie s (dieOf t.core)).still then
      { t with loSince := t.loSince.map fun b => b + 1, hiSince := t.hiSince.map fun b => b + 1 } else t
  modH { s with tasks := s.tasks.map fun p => (p.1, task p.2) } fun h =>
    { h with locks := h.locks.map fun p => (p.1, lock p.2) }

/-- R95: the sweeps that fall due: of the slices and the cores that hold anything under a lease. -/
def sweepEvents (s : State) : List Event :=
  let slices := ((s.homes.dir.filter fun p => p.2.lmode).map fun p => homeSlice p.1) ++ s.homes.evts.map fun p => p.1
  let pairs := s.homes.leases.flatMap fun p => [2 * (p.1 / 2 ^ 45), 2 * (p.1 / 2 ^ 45) + 1]
  let stashes := (s.cores.filter fun p => p.2.swords.any fun w => w.2.rts.isSome).map fun p => p.1
  slices.dedup.map Event.sliceLeaseSweep ++ (pairs ++ stashes).dedup.map Event.coreLeaseSweep

/-- R5, R397, R399: whether each die whose clock is lowered has a cycle of its own at this tick (log 69). -/
def tickDies (s : State) : State :=
  s.dies.foldl (fun s p =>
    let slow := p.2.throttled || p.2.lowf || p.2.slowed
    if !slow then modDie s p.1 fun d => { d with still := false } else
    let miss := Config.slowCycle s.free
    modDie { s with free := s.free + 1 } p.1 fun d => { d with still := miss, lag := if miss then d.lag + 1 else d.lag }) s

/-- R397: the measurements that fall due at this tick: every AGEINT ticks, counted from reset (log 91). In recovery there is no firmware that
measures (R396). -/
def measureDue (s : State) : State :=
  if inRecovery s then s else
  ((List.range (ndie s.part)).filter fun d => s.gtick.toNat % (getDie s d).ageint = 0).foldl (fun s d =>
    let s1 := modDie s d fun x => { x with measure := true }
    if (getDie s d).opChange then s1 else push s1 (measureEvent s1 d)) s

/-- One tick of the device's time. R95 asks for a sweep at least once per 2^12 units of ECLK: the model sweeps all slices and cores together
when that many have passed, counted from reset, and at no other time (log 88). -/
def tick (s : State) : State :=
  let s1 := measureDue (expireXw (tickDies { s with gtick := s.gtick + 1 }))
  let now := s1.gtick.toNat
  let s2 := if now % 1024 = 0 then eclkEffect s1 else s1
  let s3 := if now % (1024 * 4096) = 0 then pushAll s2 (sweepEvents s2) else s2
  ((s3.tasks.filter fun p => !p.2.halted.isEmpty).map fun p => p.2.ctx).dedup.foldl freezeCtx s3

end Sys2Proof.Machine
end

