-- ==== Sys2Proof/Machine/Sched.lean ====
section
/-!
DEFINITION. What the device does of itself between issues: the resume conditions of records (R192, R193), what is held (R206, R208,
R385, R390), the events that fall due, and the order in which the model takes them (log 2).
-/
namespace Sys2Proof.Machine

/-! Records (R192, R193, R206, R208). -/

/-- R192: whether the condition of a record is met. A tile is waited for until the operations issued before the deposit have retired, and a
ring descriptor until its words are valid, or their fill is over without them: the instruction is then executed anew and takes the fault
(R51, R340). -/
def condMet (s : State) (r : Record) : Bool :=
  let g := getG s r.uid
  match r.cond with
  | .regFill sc n => !(if sc then sIsEmpty g n else vIsEmpty g n.toNat)
  | .counter c k => ecOf g c ≤ k.toNat
  | .barrier a (some ph) _ => barPh (barRead s g.core a) != ph
  | .barrier _ none _ => false
  | .lockWait line =>
    !(g.ops.any fun o => (match o.kind with | .lockAcq _ _ => true | _ => false) && o.pieces.any fun p => p.place / 128 == line)
  | .monitor _ => !(g.ops.any fun o => o.entry == r.frag && (match o.kind with | .monitorWait _ _ => true | _ => false))
  | .faultRes _ => false
  | .range e => !((getC s g.core).ranges.any fun x => 8 * x.cmd + x.slot == e)
  | .tile t => !((getC s (pairCore g.core)).towner.any fun x => x.1 == t.toNat && x.2 < r.id)
  | .ring k n ph =>
    let t := taskOf s g
    if n = 0xFF then
      let w := (65536 * t.gbase + 8 * k.toNat) / 4
      (wordReady s g.core g.ctx w && wordReady s g.core g.ctx (w + 1)) ||
        !(s.fills.any fun f => f.2.core == g.core && f.2.line == w / 32 && !f.2.parked)
    else match ffind t.rings k.toNat with
      | some x => phaseOf (x.slots.getD n .e) == ph
      | none => true
  | .exchange _ _ =>
    !(s.reqs.any fun p => reqUid p.2 == r.uid && reqOp p.2 == r.frag && (match p.2.kind with | .exchange _ _ _ _ _ => true | _ => false))
  | .joined a => (joinPartner g r.frag a).any fun q => joinReady g q.1 a
  | .preempted _ => !preemptPending s g && !(taskOf s g).off
  | .debug _ => false

/-- R208: whether the SFPD records of a task are yet to execute their first `sfp` after relaunch. -/
def taskRestoring (s : State) (t : Nat) : Bool :=
  (s.records.any fun r => r.sfpd && (getG s r.uid).task == t) ||
    s.groups.any fun p => p.2.task == t && !p.2.ended && (p.2.restoring || p.2.stuck.any fun r => r.sfpd)

/-- HELD of a record (R206, R208, R385, R390). -/
def heldNow (s : State) (r : Record) : Bool :=
  let g := getG s r.uid
  g.hold.isSome || groupHalted s g || (preemptPending s g && g.saving.isNone) || (taskOf s g).off ||
    ((taskOf s g).restored && taskRestoring s g.task && !r.sfpd && !g.restoring)

/-- R192, R193: HELD, READY and EVT of every record. A group that MEM_ERR or a poisoned fill stopped never relaunches (R364). -/
def updateRecords (s : State) : State :=
  let one (r : Record) : Record :=
    let r1 := { r with held := heldNow s r }
    if condMet s r && !(getG s r.uid).poisoned then makeReady r1 s.gtick else r1
  mapRecords s one

/-- The records of resident groups that are ready and not held (R206, R365): their fragments run again (log 31). -/
def wakeResident (s : State) : State :=
  if frozen s then s else
  (s.records.filter fun r => r.ready && !r.held && !r.body && (getG s r.uid).slot.isSome && !(getG s r.uid).poisoned).foldl wakeFragment s

/-- R148, R405: groups whose marked acquires are to be sent again without an admission: those on a lane, and those whose body record waits for
a lock while no record of theirs is ready. An admission sends the others (R203). -/
def resendDue (s : State) (g : Group) : Bool :=
  let rs := recordsOf s g.uid
  let onLock (r : Record) : Bool := match r.cond with | .lockWait _ => true | _ => false
  (g.locks.any fun l => l.marked) && !waitsOff s g && !g.ended &&
    (g.slot.isSome || (rs.any fun r => r.body && !r.held && onLock r) && !rs.any fun r => r.ready)

/-- R385, R390: a resident group that is held, or in a halted role, deposits what is ready. -/
def holdDueGroups (s : State) : State :=
  (s.groups.filter fun p => p.2.slot.isSome && (p.2.hold.isSome || groupHalted s p.2)).foldl (fun s p =>
    holdFragments s p.1 (p.2.hold.getD (roleHoldNo s))) s

/-- R113, R117: fences with nothing left to wait for. -/
def dropFences (s : State) : State :=
  { s with groups := s.groups.map fun p =>
    if p.2.ops.any fun o => isFence o.kind then (p.1, { p.2 with ops := p.2.ops.filter fun o => !fenceDone s p.2 o }) else p }

/-- R195, R310: deposits that waited for room or for a `cld`. -/
def depositAgain (s : State) : State :=
  (s.groups.filter fun p => !p.2.stuck.isEmpty && p.2.cEmpty == 0 && !(getX s p.2.ctx).overflow).foldl
    (fun s p => retryDeposits s p.1) s

/-- R268: the tasks whose groups have all ended, and which waited for the accesses of those groups. -/
def endTasks (s : State) : State :=
  (s.tasks.filter fun p => !p.2.off && p.2.placed == p.2.ngroups && match p.2.succ with | .read _ _ _ _ => true | _ => false).foldl
    (fun s p => endTask s p.1) s

/-- R268: the groups of a successor that did not fit at once. -/
def placeRest (s : State) : State :=
  if frozen s then s else
  (s.tasks.filter fun p => p.2.placed < p.2.ngroups && !p.2.off).foldl (fun s p => placeGroups s p.1 64) s

/-- The groups that have ended, and of which nothing is left, leave the device. -/
def dropEnded (s : State) : State :=
  { s with groups := s.groups.filter fun p =>
    !(p.2.ended && p.2.ops.isEmpty && (ffind s.disps p.2.disp).isNone && !s.cmds.any fun c => c.2.uid == p.1) }

/-! Engines (R77, R123). -/

/-- R77, R123: the fills of the words that engine commands and matrix operations wait for, and what has been delivered to them. -/
def feedEngines (s : State) : State :=
  let one (s : State) (p : Nat × Cmd) : State :=
    let c := p.2
    if c.cancel then s else
    if c.cls == 2 then
      if c.st != .armed then s else
      let s1 := capture s p.1
      [0, 1].foldl (fun s side =>
        fillWords s (sideCore c side) c.ctx ((snapMissing ((getCmd s1 p.1).getD c) side).filter fun k =>
          !wordReady s (sideCore c side) c.ctx k)) s1
    else if c.st == .run || (c.st == .armed && c.node.isNone) then fillWords s c.core c.ctx (unready s c.core c.ctx (cmdReads c ++ cmdEdges c))
    else s
  s.cmds.foldl one s

/-! The relaunch engines' and the rebalancer's timers (R203, R204). -/

/-- R203: since when the head of a core's relaunch order does not fit. -/
def blockTimer (s : State) (core : Nat) (c : Core) : Core :=
  match relaunchHead s core, relaunchSlot s core with
  | some r, none =>
    if c.blocked.any fun b => b.1 == r.uid then c else { c with blocked := some (r.uid, cycleOf s core), stalled := false }
  | _, _ => { c with blocked := none, stalled := false }

/-- R204: since when O has been below RBTHRESH, or at or above RBHIGH. -/
def roleTimers (s : State) (t : Nat) (x : Task) : Task :=
  if !x.hdr.pipe then x else
  let run (on : Bool) (since : Option Nat) : Option Nat := if on then some (since.getD (cycleOf s x.core)) else none
  { x with loSince := run (lowNow s t) x.loSince, hiSince := run (highNow s t) x.hiSince }

/-- Both kinds of timers. -/
def updateTimers (s : State) : State :=
  let cores := (s.records.map fun r => r.owner).dedup
  let s1 := cores.foldl (fun x c => modC x c (blockTimer s c)) s
  let clear (p : Nat × Core) : Nat × Core :=
    if p.2.blocked.isSome && !cores.contains p.1 then (p.1, { p.2 with blocked := none, stalled := false }) else p
  { s1 with cores := s1.cores.map clear, tasks := s1.tasks.map fun p => (p.1, roleTimers s p.1 p.2) }

/-! The events that fall due. -/

/-- The events of groups: operations that nothing holds any more (R105). -/
def opsDue (s : State) : List Event := s.groups.flatMap fun p => p.2.ops.filterMap fun o => sendEvent s p.2 o

/-- The events of the relaunch engines and of partition changes. -/
def coresDue (s : State) : List Event :=
  let owners := (s.records.map fun r => r.owner).dedup
  ((owners.filter fun c => (relaunchSlot s c).isSome).map Event.relaunchStep) ++
    ((s.cores.filter fun p => p.2.pend).filterMap fun p => (nextMove s p.1).map fun g => Event.granuleRoleMove p.1 g) ++
    ((s.cores.filter fun p => !p.2.stalled && p.2.blocked.any fun b => b.2 + 65536 ≤ cycleOf s p.1).map fun p => Event.contStall p.1) ++
    s.cores.flatMap fun p => (p.2.xtable.filter (xStale s)).map fun e => Event.xshfStale p.1 (reqUid (getR s e.rq))

/-- The events of the dispatcher. -/
def dispatchDue (s : State) : List Event :=
  let poll (q : Queue) : Bool :=
    !q.eligible && qServed s q && match readHead s q.ctx (qDesc s q (qHead s q)) with
      | .ok d _ => d.waita != 0 && headFresh s q.ctx (qDesc s q (qHead s q)) && counterMet s q.ctx d
      | .refused => false
  let slot (t : Task) : Bool := match t.succ with | .reading a => succFresh s t.ctx a.toNat | _ => false
  ((s.tasks.filter fun p => slot p.2).map fun p => Event.succReadComplete p.1) ++
    ((s.disps.filter fun p => dispatchOver s p.1 p.2 && doneOpen s p.2).map fun p => Event.dispatchComplete p.1) ++
    ((s.queues.filter fun p => poll p.2).map fun p => Event.waitCounterPoll p.1) ++
    (if !frozen s && (pickQueues s).any fun p => (serveHead { s with served := p.1 } p.1 p.2).isSome then [Event.dispatcherServe] else []) ++
    (s.tasks.filter fun p => (roleChange s p.1).isSome).map fun p => Event.rebalancePending p.1

/-- The events of pre-emption. -/
def preemptDue (s : State) : List Event :=
  s.ctxs.flatMap fun p =>
    let x := BitVec.ofNat 12 p.1
    ((p.2.preempts.filter (saveReady s x)).map fun q => Event.preemptContextSave x q.core) ++
      ((p.2.preempts.filter fun q => (lateGroups s x q.core).any fun g => !g.late).map fun q => Event.sfpLate x q.core) ++
      (if !frozen s && (toPlace s x).any fun t => (placeBack s t).isSome then [Event.contextRestore x []] else [])

/-- The events of the engines. -/
def enginesDue (s : State) : List Event :=
  ((s.cmds.filter fun p => cmdReady s p.2).map fun p => Event.engineCommandComplete p.1 none) ++
    ((s.cmds.filter fun p => p.2.cls == 2 && mmNext s p.2.core == some p.1 && (p.2.cancel || snapWhole p.2) && !cmdHalted s p.2).map
      fun p => Event.matrixStart p.1) ++
    s.cores.flatMap fun p => (p.2.nodes.filter fun n => nodeReady s n.2).map fun n => Event.graphNodeStart p.1 n.1

/-- The events of locks, monitors, leases and frames. -/
def homesDue (s : State) : List Event :=
  let now := s.gtick.toNat
  (s.homes.locks.flatMap fun p =>
    (if holdDue s p.2 then [Event.lckHold p.1] else []) ++
    ((p.2.queue.filter (expiryDue s p.2)).map fun w => Event.lockWaiterExpiry p.1 w.uid) ++
    (p.2.queue.filter (probeDue s)).map fun w => Event.deadlockProbe p.1 w.uid) ++
  ((s.homes.mons.filter fun m => m.expiry.any fun e => e ≤ now).map fun m => Event.monitorExpiry m.id) ++
  ((s.reqs.filter fun p => p.2.busy && p.2.mode == 1 && !p.2.done && !leaseHeld s p.2.line p.2.pts).map
    fun p => Event.leaseWriteHoldEnd p.1) ++
  ((s.reqs.filter fun p => (match p.2.kind with | .launch _ => true | _ => false) && launchOpen s p.2).map fun p => Event.launchAction p.1) ++
  ((s.homes.raising.filter fun p => p.2 && raiseReady s p.1).map fun p => Event.generationRaiseComplete p.1)

/-- The events of links and of the checkpoint engine. -/
def outerDue (s : State) : List Event :=
  ((s.links.filter fun p => p.2.st == 1 && p.2.retrySince + 2 ^ 16 ≤ s.gtick.toNat).map fun p => Event.retrainAttemptTimeout p.1) ++
    (if s.ckpt.quiesced && ckptQuiet s then [Event.checkpointStream] else []) ++
    (s.reqs.filter fun p => (hostTimeout s p.2).any fun t => t ≤ s.gtick.toNat).map fun p => Event.hostCompletionTimeout p.1

/-- Every event that falls due of itself in a state. -/
def due (s : State) : List Event :=
  opsDue s ++ coresDue s ++ dispatchDue s ++ preemptDue s ++ enginesDue s ++ homesDue s ++ outerDue s

/-- The events that fall due and are not in the agenda join it. -/
def pushDue (s : State) : State := pushAll s ((due s).dedup.filter fun e => !s.agenda.contains e)

/-- What follows every event and every issue. -/
def settle (s : State) : State :=
  let s1 := dropFences (depositAgain (holdDueGroups (replayRuns (answerHandlers (widenPreempts s)))))
  let s2 := wakeResident (updateRecords s1)
  let s3 := (s2.groups.filter fun p => resendDue s2 p.2).foldl (fun s p => resendAcquires s p.1) s2
  pushDue (updateTimers (syncRecords (dropEnded (placeRest (endTasks (feedEngines s3))))))

/-! Samples and named ticks (R380 to R384). -/

/-- The state that an outcome leaves, the state before it when the event was not enabled. -/
def orElse (s : State) (o : Out) : State := match o with | .next s1 => s1 | _ => s

/-- R382, R384: the samples that fall in the present cycle. -/
def sampleCycle (s : State) : State :=
  let on := (s.cores.filter fun p => (sampleEvery p.2).isSome).map fun p => p.1
  on.foldl (fun s c => orElse s (execOccupancyRecord c (orElse s (execStallSample c s)))) s

/-- R380: the end of a tick: the dies whose GTICK has reached STOPT gate their clocks. -/
def endTick (s : State) : State :=
  let s1 := sampleCycle s
  if s1.sten && s1.gtick == s1.stopt then (List.range (ndie s1.part)).foldl (fun s d => orElse s (execNamedTickStop d s)) s1 else s1

/-- R380: whether the clocks are gated. -/
def gated (s : State) : Bool := s.dies.any fun p => p.2.gated

/-! The step. -/

/-- An event taken from the agenda by its place. An event whose condition no longer holds falls away (log 2). -/
def takeEvent (s : State) (k : Nat) : State :=
  match takeNth k s.agenda with
  | none => s
  | some (e, rest) => orElse { s with agenda := rest } (runEvent e { s with agenda := rest })

/-- The outcome of a state made by an issue, with what follows it. -/
def settled (o : Out) : Out := match o with | .next s => .next (endTick (settle s)) | o => o

/-- What the model does in a tick when nothing is scheduled: the oldest event of the agenda, else an issue (log 2). -/
def unscheduled (s : State) : Out :=
  if s.agenda.isEmpty then
    match issueLanes s (busyLanes s) with
    | (_, some o) => settled o
    | (s1, none) => settled (.next s1)
  else settled (.next (takeEvent s 0))

/-- One step: a tick, then what the schedule names; a host CPU's store to host memory is one action (R370). A gated device waits for a package reset (R380). -/
def stepOnce (s : State) : Out :=
  if gated s then
    match s.agenda.find? fun e => match e with | .packageReset _ => true | _ => false with
    | some e => runEvent e s
    | none => .next s
  else
    let s1 := tick s
    match s1.schedule with
    | [] => unscheduled s1
    | .event k :: rest => settled (.next (takeEvent { s1 with schedule := rest } k))
    | .lane c l :: rest => match issueLane { s1 with schedule := rest } c l with
      | (_, some o) => settled o
      | (s2, none) => settled (.next s2)
    | .hostStore a d :: rest => settled (.next (hostBytes { s1 with schedule := rest } a d))
    | .message k m :: rest => settled (.next (takeMessage { s1 with schedule := rest } k m))

/-! Placing an instruction (log 8). -/

/-- The code page that the model's loader uses: virtual and physical address of the first instruction. -/
def loadVa : Nat := 0x4000000000
def loadPa : Nat := 0x10000000

/-- The task that the loader makes: its code capability spans one page, its kernel header has 64 names. -/
def loadTask : Task :=
  let codec := capWithBounds { Cap.null with addr := BitVec.ofNat 56 loadVa, perms := 0b0000100, space := 5, tag := true }
    loadVa (loadVa + 0x10000)
  { Task.none with
    ctx := 1, codec, ngroups := 1, placed := 1, hdr := { Header.zero with entry := BitVec.ofNat 56 loadVa, n := 64, nb := 64, gsb := 64 } }

/-- The leaf of the code page. -/
def loadLeaf : Leaf :=
  { sz := false, r := true, w := false, a := false, l := false, x := true, tags := false, mode := 0, mbf := 0, gen := 0, base := loadPa }

/-- The group that the loader makes: it is the only one, on lane 0 of core 0, as R173 launches it. -/
def loadGroup : Group :=
  { Group.none with
    uid := 1, ctx := 1, task := 1, slot := some 0, ngrp := 1, nNames := 64, top := 64, slots := List.range 64,
    split := [(0, { Split.free with valid := true, mask := 0xFFFFFFFF, pc := BitVec.ofNat 56 loadVa })] }

/-- A state with one instruction, given by its bytes, where the next step fetches. -/
def placeInsn (s : State) (bytes : List Byte) : State :=
  let s1 := modX { s with
    groups := [(1, loadGroup)], tasks := [(1, loadTask)], records := [], agenda := [], schedule := [], nextId := max s.nextId 2,
    halted := false } 1 fun x => { x with live := true }
  let s2 := modC s1 0 fun c => { c with tlb := [{ ctx := 1, vbase := loadVa / 2 ^ 16, leaf := loadLeaf }], stopped := false }
  modH s2 fun h => { h with mem := fsetN 0 h.mem loadPa bytes, dir := fdel h.dir (loadPa / 128) }

end Sys2Proof.Machine
end

