-- ==== Sys2Proof/Machine/Step.lean ====
section
/-!
DEFINITION. The step of the device, and the placing of an instruction for the next step.
-/
namespace Sys2Proof.Machine

/-- One step of the device: one tick of GTICK, with one event or one issue. -/
def step (s : State) : Host.Outcome State Fault Refusal := stepOnce s

/-- The state with an instruction's bits, little-endian, where the next step fetches (log 8). -/
def State.withFetchWord (s : State) (nbits w : Nat) : State := placeInsn s (leBytes (w % 2 ^ nbits) 4)

end Sys2Proof.Machine
end

