-- ==== Sys2Proof/Laws/FMap.lean ====
section
/-!
SUPPORT. The laws of keyed stores: reading after writing, and that every operation keeps the canonical form.
-/
namespace Sys2Proof.Machine

variable {α : Type}

@[simp] theorem ffind_nil (k : Nat) : ffind ([] : FMap α) k = none := rfl

theorem ffind_fdel (m : FMap α) (k j : Nat) : ffind (fdel m k) j = if j = k then none else ffind m j := by
  induction m with
  | nil => simp [fdel]
  | cons p m ih =>
    obtain ⟨i, x⟩ := p
    by_cases h : i = k
    · subst h; simp only [fdel, if_true, ih, ffind]
      by_cases hj : j = i
      · simp [hj]
      · simp [hj, Ne.symm hj]
    · simp only [fdel, if_neg h, ffind, ih]
      by_cases hi : i = j
      · subst hi; simp [h]
      · simp [hi]

theorem ffind_fput (m : FMap α) (k j : Nat) (v : α) : ffind (fput m k v) j = if j = k then some v else ffind m j := by
  induction m with
  | nil => simp only [fput, ffind, eq_comm]
  | cons p m ih =>
    obtain ⟨i, x⟩ := p
    simp only [fput]
    split
    · simp only [ffind, eq_comm]
    · split
      · rename_i h; subst h; simp only [ffind]
        by_cases hj : j = i
        · simp [hj]
        · simp [hj, Ne.symm hj]
      · rename_i h; simp only [ffind, ih]
        by_cases hi : i = j
        · subst hi; simp [h]
        · simp [hi]

/-- Reading a store after one write. -/
theorem fget_fset [DecidableEq α] (d : α) (m : FMap α) (k j : Nat) (v : α) :
    fget d (fset d m k v) j = if j = k then v else fget d m j := by
  unfold fset fget
  split
  · rename_i h; rw [ffind_fdel]; split <;> simp [h]
  · rw [ffind_fput]; split <;> simp

@[simp] theorem fget_fset_same [DecidableEq α] (d : α) (m : FMap α) (k : Nat) (v : α) :
    fget d (fset d m k v) k = v := by simp [fget_fset]

theorem fget_fset_ne [DecidableEq α] (d : α) (m : FMap α) (k j : Nat) (v : α) (h : j ≠ k) :
    fget d (fset d m k v) j = fget d m j := by simp [fget_fset, h]

/-- The bounds of a canonical store's keys. -/
def fabove (b : Nat) : FMap α → Prop
  | [] => True
  | (j, _) :: _ => b < j

theorem fwf_cons [DecidableEq α] (d : α) (j : Nat) (x : α) (m : FMap α) :
    fwf d ((j, x) :: m) = true ↔ x ≠ d ∧ fabove j m ∧ fwf d m = true := by
  cases m with
  | nil => simp [fwf, fabove]
  | cons p m => obtain ⟨k, y⟩ := p; simp [fwf, fabove, and_assoc]

theorem fabove_trans {b c : Nat} {m : FMap α} (h : fabove b m) (hc : c ≤ b) : fabove c m := by
  cases m with
  | nil => trivial
  | cons p m => exact lt_of_le_of_lt hc h

theorem fabove_fdel [DecidableEq α] (d : α) (b k : Nat) (m : FMap α) (hw : fwf d m = true) (h : fabove b m) :
    fabove b (fdel m k) := by
  induction m with
  | nil => trivial
  | cons p m ih =>
    obtain ⟨j, x⟩ := p
    rw [fwf_cons] at hw
    simp only [fdel]
    split
    · exact ih hw.2.2 (fabove_trans hw.2.1 (le_of_lt h))
    · exact h

theorem fwf_fdel [DecidableEq α] (d : α) (m : FMap α) (k : Nat) (h : fwf d m = true) : fwf d (fdel m k) = true := by
  induction m with
  | nil => rfl
  | cons p m ih =>
    obtain ⟨j, x⟩ := p
    have hw := (fwf_cons d j x m).1 h
    simp only [fdel]
    split
    · exact ih hw.2.2
    · exact (fwf_cons _ _ _ _).2 ⟨hw.1, fabove_fdel d j k m hw.2.2 hw.2.1, ih hw.2.2⟩

theorem fabove_fput (b k : Nat) (v : α) (m : FMap α) (h : fabove b m) (hk : b < k) : fabove b (fput m k v) := by
  cases m with
  | nil => exact hk
  | cons p m =>
    obtain ⟨j, x⟩ := p
    simp only [fput]
    split
    · exact hk
    · split
      · exact hk
      · exact h

theorem fwf_fput [DecidableEq α] (d : α) (m : FMap α) (k : Nat) (v : α) (hv : v ≠ d) (h : fwf d m = true) :
    fwf d (fput m k v) = true := by
  induction m with
  | nil => simp [fput, fwf, hv]
  | cons p m ih =>
    obtain ⟨j, x⟩ := p
    have hw := (fwf_cons d j x m).1 h
    simp only [fput]
    split
    · rename_i hlt; exact (fwf_cons _ _ _ _).2 ⟨hv, hlt, h⟩
    · split
      · rename_i _ he; subst he; exact (fwf_cons _ _ _ _).2 ⟨hv, hw.2.1, hw.2.2⟩
      · rename_i h1 h2
        exact (fwf_cons _ _ _ _).2 ⟨hw.1, fabove_fput j k v m hw.2.1 (by omega), ih hw.2.2⟩

/-- A write keeps the canonical form. -/
theorem fwf_fset [DecidableEq α] (d : α) (m : FMap α) (k : Nat) (v : α) (h : fwf d m = true) :
    fwf d (fset d m k v) = true := by
  unfold fset
  split
  · exact fwf_fdel d m k h
  · exact fwf_fput d m k v ‹_› h

/-- A write of several values keeps the canonical form. -/
theorem fwf_fsetN [DecidableEq α] (d : α) (m : FMap α) (k : Nat) (vs : List α) (h : fwf d m = true) :
    fwf d (fsetN d m k vs) = true := by
  induction vs generalizing m k with
  | nil => exact h
  | cons v vs ih => exact ih _ _ (fwf_fset d m k v h)

/-- A little-endian write keeps the memory canonical. -/
theorem wf_writeLe (m : FMap Byte) (a n x : Nat) (h : Memory.wf m) : Memory.wf (writeLe m a n x) :=
  fwf_fsetN 0 m a _ h

/-- Reading a store outside the keys of a write of several values. -/
theorem fget_fsetN_ne [DecidableEq α] (d : α) (m : FMap α) (k j : Nat) (vs : List α) (h : j < k ∨ k + vs.length ≤ j) :
    fget d (fsetN d m k vs) j = fget d m j := by
  induction vs generalizing m k with
  | nil => rfl
  | cons v vs ih =>
    simp only [List.length_cons] at h
    rw [fsetN, ih _ _ (by omega), fget_fset_ne _ _ _ _ _ (by omega)]

@[simp] theorem leBytes_length (x n : Nat) : (leBytes x n).length = n := by
  induction n generalizing x with
  | zero => rfl
  | succ n ih => simp [leBytes, ih]

/-- A byte outside a little-endian write keeps its value. -/
theorem fget_writeLe_ne (m : FMap Byte) (a n x j : Nat) (h : j < a ∨ a + n ≤ j) :
    fget 0 (writeLe m a n x) j = fget 0 m j := by
  refine fget_fsetN_ne 0 m a j _ ?_
  simpa using h

end Sys2Proof.Machine
end

