-- ==== Sys2Proof/Laws/State.lean ====
section
/-!
SUPPORT. What each update of the state leaves unchanged, one lemma for each field, and what a read answers after a write.
-/
namespace Sys2Proof.Machine

section Fields
variable (s : State)


@[simp] theorem setG_part (u : Nat) (g : Group) : (setG s u g).part = s.part := rfl
@[simp] theorem setG_rev (u : Nat) (g : Group) : (setG s u g).rev = s.rev := rfl
@[simp] theorem setG_gtick (u : Nat) (g : Group) : (setG s u g).gtick = s.gtick := rfl
@[simp] theorem setG_cur (u : Nat) (g : Group) : (setG s u g).cur = s.cur := rfl
@[simp] theorem setG_agenda (u : Nat) (g : Group) : (setG s u g).agenda = s.agenda := rfl
@[simp] theorem setG_schedule (u : Nat) (g : Group) : (setG s u g).schedule = s.schedule := rfl
@[simp] theorem setG_free (u : Nat) (g : Group) : (setG s u g).free = s.free := rfl
@[simp] theorem setG_nextId (u : Nat) (g : Group) : (setG s u g).nextId = s.nextId := rfl
@[simp] theorem setG_homes (u : Nat) (g : Group) : (setG s u g).homes = s.homes := rfl
@[simp] theorem setG_cores (u : Nat) (g : Group) : (setG s u g).cores = s.cores := rfl
@[simp] theorem setG_records (u : Nat) (g : Group) : (setG s u g).records = s.records := rfl
@[simp] theorem setG_tasks (u : Nat) (g : Group) : (setG s u g).tasks = s.tasks := rfl
@[simp] theorem setG_disps (u : Nat) (g : Group) : (setG s u g).disps = s.disps := rfl
@[simp] theorem setG_queues (u : Nat) (g : Group) : (setG s u g).queues = s.queues := rfl
@[simp] theorem setG_ctxs (u : Nat) (g : Group) : (setG s u g).ctxs = s.ctxs := rfl
@[simp] theorem setG_reqs (u : Nat) (g : Group) : (setG s u g).reqs = s.reqs := rfl
@[simp] theorem setG_walks (u : Nat) (g : Group) : (setG s u g).walks = s.walks := rfl
@[simp] theorem setG_fills (u : Nat) (g : Group) : (setG s u g).fills = s.fills := rfl
@[simp] theorem setG_cmds (u : Nat) (g : Group) : (setG s u g).cmds = s.cmds := rfl
@[simp] theorem setG_host (u : Nat) (g : Group) : (setG s u g).host = s.host := rfl
@[simp] theorem setG_peers (u : Nat) (g : Group) : (setG s u g).peers = s.peers := rfl
@[simp] theorem setG_windows (u : Nat) (g : Group) : (setG s u g).windows = s.windows := rfl
@[simp] theorem setG_links (u : Nat) (g : Group) : (setG s u g).links = s.links := rfl
@[simp] theorem setG_dies (u : Nat) (g : Group) : (setG s u g).dies = s.dies := rfl
@[simp] theorem setG_ckpt (u : Nat) (g : Group) : (setG s u g).ckpt = s.ckpt := rfl
@[simp] theorem setG_pointer (u : Nat) (g : Group) : (setG s u g).pointer = s.pointer := rfl
@[simp] theorem setG_served (u : Nat) (g : Group) : (setG s u g).served = s.served := rfl
@[simp] theorem setG_dlkprobe (u : Nat) (g : Group) : (setG s u g).dlkprobe = s.dlkprobe := rfl
@[simp] theorem setG_rbthresh (u : Nat) (g : Group) : (setG s u g).rbthresh = s.rbthresh := rfl
@[simp] theorem setG_rbhigh (u : Nat) (g : Group) : (setG s u g).rbhigh = s.rbhigh := rfl
@[simp] theorem setG_rbtime (u : Nat) (g : Group) : (setG s u g).rbtime = s.rbtime := rfl
@[simp] theorem setG_minres (u : Nat) (g : Group) : (setG s u g).minres = s.minres := rfl
@[simp] theorem setG_stopt (u : Nat) (g : Group) : (setG s u g).stopt = s.stopt := rfl
@[simp] theorem setG_sten (u : Nat) (g : Group) : (setG s u g).sten = s.sten := rfl
@[simp] theorem setG_replog (u : Nat) (g : Group) : (setG s u g).replog = s.replog := rfl
@[simp] theorem setG_stepped (u : Nat) (g : Group) : (setG s u g).stepped = s.stepped := rfl
@[simp] theorem setG_halted (u : Nat) (g : Group) : (setG s u g).halted = s.halted := rfl

@[simp] theorem modG_part (u : Nat) (f : Group → Group) : (modG s u f).part = s.part := rfl
@[simp] theorem modG_rev (u : Nat) (f : Group → Group) : (modG s u f).rev = s.rev := rfl
@[simp] theorem modG_gtick (u : Nat) (f : Group → Group) : (modG s u f).gtick = s.gtick := rfl
@[simp] theorem modG_cur (u : Nat) (f : Group → Group) : (modG s u f).cur = s.cur := rfl
@[simp] theorem modG_agenda (u : Nat) (f : Group → Group) : (modG s u f).agenda = s.agenda := rfl
@[simp] theorem modG_schedule (u : Nat) (f : Group → Group) : (modG s u f).schedule = s.schedule := rfl
@[simp] theorem modG_free (u : Nat) (f : Group → Group) : (modG s u f).free = s.free := rfl
@[simp] theorem modG_nextId (u : Nat) (f : Group → Group) : (modG s u f).nextId = s.nextId := rfl
@[simp] theorem modG_homes (u : Nat) (f : Group → Group) : (modG s u f).homes = s.homes := rfl
@[simp] theorem modG_cores (u : Nat) (f : Group → Group) : (modG s u f).cores = s.cores := rfl
@[simp] theorem modG_records (u : Nat) (f : Group → Group) : (modG s u f).records = s.records := rfl
@[simp] theorem modG_tasks (u : Nat) (f : Group → Group) : (modG s u f).tasks = s.tasks := rfl
@[simp] theorem modG_disps (u : Nat) (f : Group → Group) : (modG s u f).disps = s.disps := rfl
@[simp] theorem modG_queues (u : Nat) (f : Group → Group) : (modG s u f).queues = s.queues := rfl
@[simp] theorem modG_ctxs (u : Nat) (f : Group → Group) : (modG s u f).ctxs = s.ctxs := rfl
@[simp] theorem modG_reqs (u : Nat) (f : Group → Group) : (modG s u f).reqs = s.reqs := rfl
@[simp] theorem modG_walks (u : Nat) (f : Group → Group) : (modG s u f).walks = s.walks := rfl
@[simp] theorem modG_fills (u : Nat) (f : Group → Group) : (modG s u f).fills = s.fills := rfl
@[simp] theorem modG_cmds (u : Nat) (f : Group → Group) : (modG s u f).cmds = s.cmds := rfl
@[simp] theorem modG_host (u : Nat) (f : Group → Group) : (modG s u f).host = s.host := rfl
@[simp] theorem modG_peers (u : Nat) (f : Group → Group) : (modG s u f).peers = s.peers := rfl
@[simp] theorem modG_windows (u : Nat) (f : Group → Group) : (modG s u f).windows = s.windows := rfl
@[simp] theorem modG_links (u : Nat) (f : Group → Group) : (modG s u f).links = s.links := rfl
@[simp] theorem modG_dies (u : Nat) (f : Group → Group) : (modG s u f).dies = s.dies := rfl
@[simp] theorem modG_ckpt (u : Nat) (f : Group → Group) : (modG s u f).ckpt = s.ckpt := rfl
@[simp] theorem modG_pointer (u : Nat) (f : Group → Group) : (modG s u f).pointer = s.pointer := rfl
@[simp] theorem modG_served (u : Nat) (f : Group → Group) : (modG s u f).served = s.served := rfl
@[simp] theorem modG_dlkprobe (u : Nat) (f : Group → Group) : (modG s u f).dlkprobe = s.dlkprobe := rfl
@[simp] theorem modG_rbthresh (u : Nat) (f : Group → Group) : (modG s u f).rbthresh = s.rbthresh := rfl
@[simp] theorem modG_rbhigh (u : Nat) (f : Group → Group) : (modG s u f).rbhigh = s.rbhigh := rfl
@[simp] theorem modG_rbtime (u : Nat) (f : Group → Group) : (modG s u f).rbtime = s.rbtime := rfl
@[simp] theorem modG_minres (u : Nat) (f : Group → Group) : (modG s u f).minres = s.minres := rfl
@[simp] theorem modG_stopt (u : Nat) (f : Group → Group) : (modG s u f).stopt = s.stopt := rfl
@[simp] theorem modG_sten (u : Nat) (f : Group → Group) : (modG s u f).sten = s.sten := rfl
@[simp] theorem modG_replog (u : Nat) (f : Group → Group) : (modG s u f).replog = s.replog := rfl
@[simp] theorem modG_stepped (u : Nat) (f : Group → Group) : (modG s u f).stepped = s.stepped := rfl
@[simp] theorem modG_halted (u : Nat) (f : Group → Group) : (modG s u f).halted = s.halted := rfl

@[simp] theorem modCur_part (f : Group → Group) : (modCur s f).part = s.part := rfl
@[simp] theorem modCur_rev (f : Group → Group) : (modCur s f).rev = s.rev := rfl
@[simp] theorem modCur_gtick (f : Group → Group) : (modCur s f).gtick = s.gtick := rfl
@[simp] theorem modCur_cur (f : Group → Group) : (modCur s f).cur = s.cur := rfl
@[simp] theorem modCur_agenda (f : Group → Group) : (modCur s f).agenda = s.agenda := rfl
@[simp] theorem modCur_schedule (f : Group → Group) : (modCur s f).schedule = s.schedule := rfl
@[simp] theorem modCur_free (f : Group → Group) : (modCur s f).free = s.free := rfl
@[simp] theorem modCur_nextId (f : Group → Group) : (modCur s f).nextId = s.nextId := rfl
@[simp] theorem modCur_homes (f : Group → Group) : (modCur s f).homes = s.homes := rfl
@[simp] theorem modCur_cores (f : Group → Group) : (modCur s f).cores = s.cores := rfl
@[simp] theorem modCur_records (f : Group → Group) : (modCur s f).records = s.records := rfl
@[simp] theorem modCur_tasks (f : Group → Group) : (modCur s f).tasks = s.tasks := rfl
@[simp] theorem modCur_disps (f : Group → Group) : (modCur s f).disps = s.disps := rfl
@[simp] theorem modCur_queues (f : Group → Group) : (modCur s f).queues = s.queues := rfl
@[simp] theorem modCur_ctxs (f : Group → Group) : (modCur s f).ctxs = s.ctxs := rfl
@[simp] theorem modCur_reqs (f : Group → Group) : (modCur s f).reqs = s.reqs := rfl
@[simp] theorem modCur_walks (f : Group → Group) : (modCur s f).walks = s.walks := rfl
@[simp] theorem modCur_fills (f : Group → Group) : (modCur s f).fills = s.fills := rfl
@[simp] theorem modCur_cmds (f : Group → Group) : (modCur s f).cmds = s.cmds := rfl
@[simp] theorem modCur_host (f : Group → Group) : (modCur s f).host = s.host := rfl
@[simp] theorem modCur_peers (f : Group → Group) : (modCur s f).peers = s.peers := rfl
@[simp] theorem modCur_windows (f : Group → Group) : (modCur s f).windows = s.windows := rfl
@[simp] theorem modCur_links (f : Group → Group) : (modCur s f).links = s.links := rfl
@[simp] theorem modCur_dies (f : Group → Group) : (modCur s f).dies = s.dies := rfl
@[simp] theorem modCur_ckpt (f : Group → Group) : (modCur s f).ckpt = s.ckpt := rfl
@[simp] theorem modCur_pointer (f : Group → Group) : (modCur s f).pointer = s.pointer := rfl
@[simp] theorem modCur_served (f : Group → Group) : (modCur s f).served = s.served := rfl
@[simp] theorem modCur_dlkprobe (f : Group → Group) : (modCur s f).dlkprobe = s.dlkprobe := rfl
@[simp] theorem modCur_rbthresh (f : Group → Group) : (modCur s f).rbthresh = s.rbthresh := rfl
@[simp] theorem modCur_rbhigh (f : Group → Group) : (modCur s f).rbhigh = s.rbhigh := rfl
@[simp] theorem modCur_rbtime (f : Group → Group) : (modCur s f).rbtime = s.rbtime := rfl
@[simp] theorem modCur_minres (f : Group → Group) : (modCur s f).minres = s.minres := rfl
@[simp] theorem modCur_stopt (f : Group → Group) : (modCur s f).stopt = s.stopt := rfl
@[simp] theorem modCur_sten (f : Group → Group) : (modCur s f).sten = s.sten := rfl
@[simp] theorem modCur_replog (f : Group → Group) : (modCur s f).replog = s.replog := rfl
@[simp] theorem modCur_stepped (f : Group → Group) : (modCur s f).stepped = s.stepped := rfl
@[simp] theorem modCur_halted (f : Group → Group) : (modCur s f).halted = s.halted := rfl

@[simp] theorem modCurF_part (h : Split → Split) : (modCurF s h).part = s.part := rfl
@[simp] theorem modCurF_rev (h : Split → Split) : (modCurF s h).rev = s.rev := rfl
@[simp] theorem modCurF_gtick (h : Split → Split) : (modCurF s h).gtick = s.gtick := rfl
@[simp] theorem modCurF_cur (h : Split → Split) : (modCurF s h).cur = s.cur := rfl
@[simp] theorem modCurF_agenda (h : Split → Split) : (modCurF s h).agenda = s.agenda := rfl
@[simp] theorem modCurF_schedule (h : Split → Split) : (modCurF s h).schedule = s.schedule := rfl
@[simp] theorem modCurF_free (h : Split → Split) : (modCurF s h).free = s.free := rfl
@[simp] theorem modCurF_nextId (h : Split → Split) : (modCurF s h).nextId = s.nextId := rfl
@[simp] theorem modCurF_homes (h : Split → Split) : (modCurF s h).homes = s.homes := rfl
@[simp] theorem modCurF_cores (h : Split → Split) : (modCurF s h).cores = s.cores := rfl
@[simp] theorem modCurF_records (h : Split → Split) : (modCurF s h).records = s.records := rfl
@[simp] theorem modCurF_tasks (h : Split → Split) : (modCurF s h).tasks = s.tasks := rfl
@[simp] theorem modCurF_disps (h : Split → Split) : (modCurF s h).disps = s.disps := rfl
@[simp] theorem modCurF_queues (h : Split → Split) : (modCurF s h).queues = s.queues := rfl
@[simp] theorem modCurF_ctxs (h : Split → Split) : (modCurF s h).ctxs = s.ctxs := rfl
@[simp] theorem modCurF_reqs (h : Split → Split) : (modCurF s h).reqs = s.reqs := rfl
@[simp] theorem modCurF_walks (h : Split → Split) : (modCurF s h).walks = s.walks := rfl
@[simp] theorem modCurF_fills (h : Split → Split) : (modCurF s h).fills = s.fills := rfl
@[simp] theorem modCurF_cmds (h : Split → Split) : (modCurF s h).cmds = s.cmds := rfl
@[simp] theorem modCurF_host (h : Split → Split) : (modCurF s h).host = s.host := rfl
@[simp] theorem modCurF_peers (h : Split → Split) : (modCurF s h).peers = s.peers := rfl
@[simp] theorem modCurF_windows (h : Split → Split) : (modCurF s h).windows = s.windows := rfl
@[simp] theorem modCurF_links (h : Split → Split) : (modCurF s h).links = s.links := rfl
@[simp] theorem modCurF_dies (h : Split → Split) : (modCurF s h).dies = s.dies := rfl
@[simp] theorem modCurF_ckpt (h : Split → Split) : (modCurF s h).ckpt = s.ckpt := rfl
@[simp] theorem modCurF_pointer (h : Split → Split) : (modCurF s h).pointer = s.pointer := rfl
@[simp] theorem modCurF_served (h : Split → Split) : (modCurF s h).served = s.served := rfl
@[simp] theorem modCurF_dlkprobe (h : Split → Split) : (modCurF s h).dlkprobe = s.dlkprobe := rfl
@[simp] theorem modCurF_rbthresh (h : Split → Split) : (modCurF s h).rbthresh = s.rbthresh := rfl
@[simp] theorem modCurF_rbhigh (h : Split → Split) : (modCurF s h).rbhigh = s.rbhigh := rfl
@[simp] theorem modCurF_rbtime (h : Split → Split) : (modCurF s h).rbtime = s.rbtime := rfl
@[simp] theorem modCurF_minres (h : Split → Split) : (modCurF s h).minres = s.minres := rfl
@[simp] theorem modCurF_stopt (h : Split → Split) : (modCurF s h).stopt = s.stopt := rfl
@[simp] theorem modCurF_sten (h : Split → Split) : (modCurF s h).sten = s.sten := rfl
@[simp] theorem modCurF_replog (h : Split → Split) : (modCurF s h).replog = s.replog := rfl
@[simp] theorem modCurF_stepped (h : Split → Split) : (modCurF s h).stepped = s.stepped := rfl
@[simp] theorem modCurF_halted (h : Split → Split) : (modCurF s h).halted = s.halted := rfl

@[simp] theorem setC_part (c : Nat) (x : Core) : (setC s c x).part = s.part := rfl
@[simp] theorem setC_rev (c : Nat) (x : Core) : (setC s c x).rev = s.rev := rfl
@[simp] theorem setC_gtick (c : Nat) (x : Core) : (setC s c x).gtick = s.gtick := rfl
@[simp] theorem setC_cur (c : Nat) (x : Core) : (setC s c x).cur = s.cur := rfl
@[simp] theorem setC_agenda (c : Nat) (x : Core) : (setC s c x).agenda = s.agenda := rfl
@[simp] theorem setC_schedule (c : Nat) (x : Core) : (setC s c x).schedule = s.schedule := rfl
@[simp] theorem setC_free (c : Nat) (x : Core) : (setC s c x).free = s.free := rfl
@[simp] theorem setC_nextId (c : Nat) (x : Core) : (setC s c x).nextId = s.nextId := rfl
@[simp] theorem setC_homes (c : Nat) (x : Core) : (setC s c x).homes = s.homes := rfl
@[simp] theorem setC_groups (c : Nat) (x : Core) : (setC s c x).groups = s.groups := rfl
@[simp] theorem setC_records (c : Nat) (x : Core) : (setC s c x).records = s.records := rfl
@[simp] theorem setC_tasks (c : Nat) (x : Core) : (setC s c x).tasks = s.tasks := rfl
@[simp] theorem setC_disps (c : Nat) (x : Core) : (setC s c x).disps = s.disps := rfl
@[simp] theorem setC_queues (c : Nat) (x : Core) : (setC s c x).queues = s.queues := rfl
@[simp] theorem setC_ctxs (c : Nat) (x : Core) : (setC s c x).ctxs = s.ctxs := rfl
@[simp] theorem setC_reqs (c : Nat) (x : Core) : (setC s c x).reqs = s.reqs := rfl
@[simp] theorem setC_walks (c : Nat) (x : Core) : (setC s c x).walks = s.walks := rfl
@[simp] theorem setC_fills (c : Nat) (x : Core) : (setC s c x).fills = s.fills := rfl
@[simp] theorem setC_cmds (c : Nat) (x : Core) : (setC s c x).cmds = s.cmds := rfl
@[simp] theorem setC_host (c : Nat) (x : Core) : (setC s c x).host = s.host := rfl
@[simp] theorem setC_peers (c : Nat) (x : Core) : (setC s c x).peers = s.peers := rfl
@[simp] theorem setC_windows (c : Nat) (x : Core) : (setC s c x).windows = s.windows := rfl
@[simp] theorem setC_links (c : Nat) (x : Core) : (setC s c x).links = s.links := rfl
@[simp] theorem setC_dies (c : Nat) (x : Core) : (setC s c x).dies = s.dies := rfl
@[simp] theorem setC_ckpt (c : Nat) (x : Core) : (setC s c x).ckpt = s.ckpt := rfl
@[simp] theorem setC_pointer (c : Nat) (x : Core) : (setC s c x).pointer = s.pointer := rfl
@[simp] theorem setC_served (c : Nat) (x : Core) : (setC s c x).served = s.served := rfl
@[simp] theorem setC_dlkprobe (c : Nat) (x : Core) : (setC s c x).dlkprobe = s.dlkprobe := rfl
@[simp] theorem setC_rbthresh (c : Nat) (x : Core) : (setC s c x).rbthresh = s.rbthresh := rfl
@[simp] theorem setC_rbhigh (c : Nat) (x : Core) : (setC s c x).rbhigh = s.rbhigh := rfl
@[simp] theorem setC_rbtime (c : Nat) (x : Core) : (setC s c x).rbtime = s.rbtime := rfl
@[simp] theorem setC_minres (c : Nat) (x : Core) : (setC s c x).minres = s.minres := rfl
@[simp] theorem setC_stopt (c : Nat) (x : Core) : (setC s c x).stopt = s.stopt := rfl
@[simp] theorem setC_sten (c : Nat) (x : Core) : (setC s c x).sten = s.sten := rfl
@[simp] theorem setC_replog (c : Nat) (x : Core) : (setC s c x).replog = s.replog := rfl
@[simp] theorem setC_stepped (c : Nat) (x : Core) : (setC s c x).stepped = s.stepped := rfl
@[simp] theorem setC_halted (c : Nat) (x : Core) : (setC s c x).halted = s.halted := rfl

@[simp] theorem modC_part (c : Nat) (f : Core → Core) : (modC s c f).part = s.part := rfl
@[simp] theorem modC_rev (c : Nat) (f : Core → Core) : (modC s c f).rev = s.rev := rfl
@[simp] theorem modC_gtick (c : Nat) (f : Core → Core) : (modC s c f).gtick = s.gtick := rfl
@[simp] theorem modC_cur (c : Nat) (f : Core → Core) : (modC s c f).cur = s.cur := rfl
@[simp] theorem modC_agenda (c : Nat) (f : Core → Core) : (modC s c f).agenda = s.agenda := rfl
@[simp] theorem modC_schedule (c : Nat) (f : Core → Core) : (modC s c f).schedule = s.schedule := rfl
@[simp] theorem modC_free (c : Nat) (f : Core → Core) : (modC s c f).free = s.free := rfl
@[simp] theorem modC_nextId (c : Nat) (f : Core → Core) : (modC s c f).nextId = s.nextId := rfl
@[simp] theorem modC_homes (c : Nat) (f : Core → Core) : (modC s c f).homes = s.homes := rfl
@[simp] theorem modC_groups (c : Nat) (f : Core → Core) : (modC s c f).groups = s.groups := rfl
@[simp] theorem modC_records (c : Nat) (f : Core → Core) : (modC s c f).records = s.records := rfl
@[simp] theorem modC_tasks (c : Nat) (f : Core → Core) : (modC s c f).tasks = s.tasks := rfl
@[simp] theorem modC_disps (c : Nat) (f : Core → Core) : (modC s c f).disps = s.disps := rfl
@[simp] theorem modC_queues (c : Nat) (f : Core → Core) : (modC s c f).queues = s.queues := rfl
@[simp] theorem modC_ctxs (c : Nat) (f : Core → Core) : (modC s c f).ctxs = s.ctxs := rfl
@[simp] theorem modC_reqs (c : Nat) (f : Core → Core) : (modC s c f).reqs = s.reqs := rfl
@[simp] theorem modC_walks (c : Nat) (f : Core → Core) : (modC s c f).walks = s.walks := rfl
@[simp] theorem modC_fills (c : Nat) (f : Core → Core) : (modC s c f).fills = s.fills := rfl
@[simp] theorem modC_cmds (c : Nat) (f : Core → Core) : (modC s c f).cmds = s.cmds := rfl
@[simp] theorem modC_host (c : Nat) (f : Core → Core) : (modC s c f).host = s.host := rfl
@[simp] theorem modC_peers (c : Nat) (f : Core → Core) : (modC s c f).peers = s.peers := rfl
@[simp] theorem modC_windows (c : Nat) (f : Core → Core) : (modC s c f).windows = s.windows := rfl
@[simp] theorem modC_links (c : Nat) (f : Core → Core) : (modC s c f).links = s.links := rfl
@[simp] theorem modC_dies (c : Nat) (f : Core → Core) : (modC s c f).dies = s.dies := rfl
@[simp] theorem modC_ckpt (c : Nat) (f : Core → Core) : (modC s c f).ckpt = s.ckpt := rfl
@[simp] theorem modC_pointer (c : Nat) (f : Core → Core) : (modC s c f).pointer = s.pointer := rfl
@[simp] theorem modC_served (c : Nat) (f : Core → Core) : (modC s c f).served = s.served := rfl
@[simp] theorem modC_dlkprobe (c : Nat) (f : Core → Core) : (modC s c f).dlkprobe = s.dlkprobe := rfl
@[simp] theorem modC_rbthresh (c : Nat) (f : Core → Core) : (modC s c f).rbthresh = s.rbthresh := rfl
@[simp] theorem modC_rbhigh (c : Nat) (f : Core → Core) : (modC s c f).rbhigh = s.rbhigh := rfl
@[simp] theorem modC_rbtime (c : Nat) (f : Core → Core) : (modC s c f).rbtime = s.rbtime := rfl
@[simp] theorem modC_minres (c : Nat) (f : Core → Core) : (modC s c f).minres = s.minres := rfl
@[simp] theorem modC_stopt (c : Nat) (f : Core → Core) : (modC s c f).stopt = s.stopt := rfl
@[simp] theorem modC_sten (c : Nat) (f : Core → Core) : (modC s c f).sten = s.sten := rfl
@[simp] theorem modC_replog (c : Nat) (f : Core → Core) : (modC s c f).replog = s.replog := rfl
@[simp] theorem modC_stepped (c : Nat) (f : Core → Core) : (modC s c f).stepped = s.stepped := rfl
@[simp] theorem modC_halted (c : Nat) (f : Core → Core) : (modC s c f).halted = s.halted := rfl

@[simp] theorem setT_part (k : Nat) (x : Task) : (setT s k x).part = s.part := rfl
@[simp] theorem setT_rev (k : Nat) (x : Task) : (setT s k x).rev = s.rev := rfl
@[simp] theorem setT_gtick (k : Nat) (x : Task) : (setT s k x).gtick = s.gtick := rfl
@[simp] theorem setT_cur (k : Nat) (x : Task) : (setT s k x).cur = s.cur := rfl
@[simp] theorem setT_agenda (k : Nat) (x : Task) : (setT s k x).agenda = s.agenda := rfl
@[simp] theorem setT_schedule (k : Nat) (x : Task) : (setT s k x).schedule = s.schedule := rfl
@[simp] theorem setT_free (k : Nat) (x : Task) : (setT s k x).free = s.free := rfl
@[simp] theorem setT_nextId (k : Nat) (x : Task) : (setT s k x).nextId = s.nextId := rfl
@[simp] theorem setT_homes (k : Nat) (x : Task) : (setT s k x).homes = s.homes := rfl
@[simp] theorem setT_cores (k : Nat) (x : Task) : (setT s k x).cores = s.cores := rfl
@[simp] theorem setT_groups (k : Nat) (x : Task) : (setT s k x).groups = s.groups := rfl
@[simp] theorem setT_records (k : Nat) (x : Task) : (setT s k x).records = s.records := rfl
@[simp] theorem setT_disps (k : Nat) (x : Task) : (setT s k x).disps = s.disps := rfl
@[simp] theorem setT_queues (k : Nat) (x : Task) : (setT s k x).queues = s.queues := rfl
@[simp] theorem setT_ctxs (k : Nat) (x : Task) : (setT s k x).ctxs = s.ctxs := rfl
@[simp] theorem setT_reqs (k : Nat) (x : Task) : (setT s k x).reqs = s.reqs := rfl
@[simp] theorem setT_walks (k : Nat) (x : Task) : (setT s k x).walks = s.walks := rfl
@[simp] theorem setT_fills (k : Nat) (x : Task) : (setT s k x).fills = s.fills := rfl
@[simp] theorem setT_cmds (k : Nat) (x : Task) : (setT s k x).cmds = s.cmds := rfl
@[simp] theorem setT_host (k : Nat) (x : Task) : (setT s k x).host = s.host := rfl
@[simp] theorem setT_peers (k : Nat) (x : Task) : (setT s k x).peers = s.peers := rfl
@[simp] theorem setT_windows (k : Nat) (x : Task) : (setT s k x).windows = s.windows := rfl
@[simp] theorem setT_links (k : Nat) (x : Task) : (setT s k x).links = s.links := rfl
@[simp] theorem setT_dies (k : Nat) (x : Task) : (setT s k x).dies = s.dies := rfl
@[simp] theorem setT_ckpt (k : Nat) (x : Task) : (setT s k x).ckpt = s.ckpt := rfl
@[simp] theorem setT_pointer (k : Nat) (x : Task) : (setT s k x).pointer = s.pointer := rfl
@[simp] theorem setT_served (k : Nat) (x : Task) : (setT s k x).served = s.served := rfl
@[simp] theorem setT_dlkprobe (k : Nat) (x : Task) : (setT s k x).dlkprobe = s.dlkprobe := rfl
@[simp] theorem setT_rbthresh (k : Nat) (x : Task) : (setT s k x).rbthresh = s.rbthresh := rfl
@[simp] theorem setT_rbhigh (k : Nat) (x : Task) : (setT s k x).rbhigh = s.rbhigh := rfl
@[simp] theorem setT_rbtime (k : Nat) (x : Task) : (setT s k x).rbtime = s.rbtime := rfl
@[simp] theorem setT_minres (k : Nat) (x : Task) : (setT s k x).minres = s.minres := rfl
@[simp] theorem setT_stopt (k : Nat) (x : Task) : (setT s k x).stopt = s.stopt := rfl
@[simp] theorem setT_sten (k : Nat) (x : Task) : (setT s k x).sten = s.sten := rfl
@[simp] theorem setT_replog (k : Nat) (x : Task) : (setT s k x).replog = s.replog := rfl
@[simp] theorem setT_stepped (k : Nat) (x : Task) : (setT s k x).stepped = s.stepped := rfl
@[simp] theorem setT_halted (k : Nat) (x : Task) : (setT s k x).halted = s.halted := rfl

@[simp] theorem modT_part (k : Nat) (f : Task → Task) : (modT s k f).part = s.part := rfl
@[simp] theorem modT_rev (k : Nat) (f : Task → Task) : (modT s k f).rev = s.rev := rfl
@[simp] theorem modT_gtick (k : Nat) (f : Task → Task) : (modT s k f).gtick = s.gtick := rfl
@[simp] theorem modT_cur (k : Nat) (f : Task → Task) : (modT s k f).cur = s.cur := rfl
@[simp] theorem modT_agenda (k : Nat) (f : Task → Task) : (modT s k f).agenda = s.agenda := rfl
@[simp] theorem modT_schedule (k : Nat) (f : Task → Task) : (modT s k f).schedule = s.schedule := rfl
@[simp] theorem modT_free (k : Nat) (f : Task → Task) : (modT s k f).free = s.free := rfl
@[simp] theorem modT_nextId (k : Nat) (f : Task → Task) : (modT s k f).nextId = s.nextId := rfl
@[simp] theorem modT_homes (k : Nat) (f : Task → Task) : (modT s k f).homes = s.homes := rfl
@[simp] theorem modT_cores (k : Nat) (f : Task → Task) : (modT s k f).cores = s.cores := rfl
@[simp] theorem modT_groups (k : Nat) (f : Task → Task) : (modT s k f).groups = s.groups := rfl
@[simp] theorem modT_records (k : Nat) (f : Task → Task) : (modT s k f).records = s.records := rfl
@[simp] theorem modT_disps (k : Nat) (f : Task → Task) : (modT s k f).disps = s.disps := rfl
@[simp] theorem modT_queues (k : Nat) (f : Task → Task) : (modT s k f).queues = s.queues := rfl
@[simp] theorem modT_ctxs (k : Nat) (f : Task → Task) : (modT s k f).ctxs = s.ctxs := rfl
@[simp] theorem modT_reqs (k : Nat) (f : Task → Task) : (modT s k f).reqs = s.reqs := rfl
@[simp] theorem modT_walks (k : Nat) (f : Task → Task) : (modT s k f).walks = s.walks := rfl
@[simp] theorem modT_fills (k : Nat) (f : Task → Task) : (modT s k f).fills = s.fills := rfl
@[simp] theorem modT_cmds (k : Nat) (f : Task → Task) : (modT s k f).cmds = s.cmds := rfl
@[simp] theorem modT_host (k : Nat) (f : Task → Task) : (modT s k f).host = s.host := rfl
@[simp] theorem modT_peers (k : Nat) (f : Task → Task) : (modT s k f).peers = s.peers := rfl
@[simp] theorem modT_windows (k : Nat) (f : Task → Task) : (modT s k f).windows = s.windows := rfl
@[simp] theorem modT_links (k : Nat) (f : Task → Task) : (modT s k f).links = s.links := rfl
@[simp] theorem modT_dies (k : Nat) (f : Task → Task) : (modT s k f).dies = s.dies := rfl
@[simp] theorem modT_ckpt (k : Nat) (f : Task → Task) : (modT s k f).ckpt = s.ckpt := rfl
@[simp] theorem modT_pointer (k : Nat) (f : Task → Task) : (modT s k f).pointer = s.pointer := rfl
@[simp] theorem modT_served (k : Nat) (f : Task → Task) : (modT s k f).served = s.served := rfl
@[simp] theorem modT_dlkprobe (k : Nat) (f : Task → Task) : (modT s k f).dlkprobe = s.dlkprobe := rfl
@[simp] theorem modT_rbthresh (k : Nat) (f : Task → Task) : (modT s k f).rbthresh = s.rbthresh := rfl
@[simp] theorem modT_rbhigh (k : Nat) (f : Task → Task) : (modT s k f).rbhigh = s.rbhigh := rfl
@[simp] theorem modT_rbtime (k : Nat) (f : Task → Task) : (modT s k f).rbtime = s.rbtime := rfl
@[simp] theorem modT_minres (k : Nat) (f : Task → Task) : (modT s k f).minres = s.minres := rfl
@[simp] theorem modT_stopt (k : Nat) (f : Task → Task) : (modT s k f).stopt = s.stopt := rfl
@[simp] theorem modT_sten (k : Nat) (f : Task → Task) : (modT s k f).sten = s.sten := rfl
@[simp] theorem modT_replog (k : Nat) (f : Task → Task) : (modT s k f).replog = s.replog := rfl
@[simp] theorem modT_stepped (k : Nat) (f : Task → Task) : (modT s k f).stepped = s.stepped := rfl
@[simp] theorem modT_halted (k : Nat) (f : Task → Task) : (modT s k f).halted = s.halted := rfl

@[simp] theorem setX_part (c : BitVec 12) (x : Ctx) : (setX s c x).part = s.part := rfl
@[simp] theorem setX_rev (c : BitVec 12) (x : Ctx) : (setX s c x).rev = s.rev := rfl
@[simp] theorem setX_gtick (c : BitVec 12) (x : Ctx) : (setX s c x).gtick = s.gtick := rfl
@[simp] theorem setX_cur (c : BitVec 12) (x : Ctx) : (setX s c x).cur = s.cur := rfl
@[simp] theorem setX_agenda (c : BitVec 12) (x : Ctx) : (setX s c x).agenda = s.agenda := rfl
@[simp] theorem setX_schedule (c : BitVec 12) (x : Ctx) : (setX s c x).schedule = s.schedule := rfl
@[simp] theorem setX_free (c : BitVec 12) (x : Ctx) : (setX s c x).free = s.free := rfl
@[simp] theorem setX_nextId (c : BitVec 12) (x : Ctx) : (setX s c x).nextId = s.nextId := rfl
@[simp] theorem setX_homes (c : BitVec 12) (x : Ctx) : (setX s c x).homes = s.homes := rfl
@[simp] theorem setX_cores (c : BitVec 12) (x : Ctx) : (setX s c x).cores = s.cores := rfl
@[simp] theorem setX_groups (c : BitVec 12) (x : Ctx) : (setX s c x).groups = s.groups := rfl
@[simp] theorem setX_records (c : BitVec 12) (x : Ctx) : (setX s c x).records = s.records := rfl
@[simp] theorem setX_tasks (c : BitVec 12) (x : Ctx) : (setX s c x).tasks = s.tasks := rfl
@[simp] theorem setX_disps (c : BitVec 12) (x : Ctx) : (setX s c x).disps = s.disps := rfl
@[simp] theorem setX_queues (c : BitVec 12) (x : Ctx) : (setX s c x).queues = s.queues := rfl
@[simp] theorem setX_reqs (c : BitVec 12) (x : Ctx) : (setX s c x).reqs = s.reqs := rfl
@[simp] theorem setX_walks (c : BitVec 12) (x : Ctx) : (setX s c x).walks = s.walks := rfl
@[simp] theorem setX_fills (c : BitVec 12) (x : Ctx) : (setX s c x).fills = s.fills := rfl
@[simp] theorem setX_cmds (c : BitVec 12) (x : Ctx) : (setX s c x).cmds = s.cmds := rfl
@[simp] theorem setX_host (c : BitVec 12) (x : Ctx) : (setX s c x).host = s.host := rfl
@[simp] theorem setX_peers (c : BitVec 12) (x : Ctx) : (setX s c x).peers = s.peers := rfl
@[simp] theorem setX_windows (c : BitVec 12) (x : Ctx) : (setX s c x).windows = s.windows := rfl
@[simp] theorem setX_links (c : BitVec 12) (x : Ctx) : (setX s c x).links = s.links := rfl
@[simp] theorem setX_dies (c : BitVec 12) (x : Ctx) : (setX s c x).dies = s.dies := rfl
@[simp] theorem setX_ckpt (c : BitVec 12) (x : Ctx) : (setX s c x).ckpt = s.ckpt := rfl
@[simp] theorem setX_pointer (c : BitVec 12) (x : Ctx) : (setX s c x).pointer = s.pointer := rfl
@[simp] theorem setX_served (c : BitVec 12) (x : Ctx) : (setX s c x).served = s.served := rfl
@[simp] theorem setX_dlkprobe (c : BitVec 12) (x : Ctx) : (setX s c x).dlkprobe = s.dlkprobe := rfl
@[simp] theorem setX_rbthresh (c : BitVec 12) (x : Ctx) : (setX s c x).rbthresh = s.rbthresh := rfl
@[simp] theorem setX_rbhigh (c : BitVec 12) (x : Ctx) : (setX s c x).rbhigh = s.rbhigh := rfl
@[simp] theorem setX_rbtime (c : BitVec 12) (x : Ctx) : (setX s c x).rbtime = s.rbtime := rfl
@[simp] theorem setX_minres (c : BitVec 12) (x : Ctx) : (setX s c x).minres = s.minres := rfl
@[simp] theorem setX_stopt (c : BitVec 12) (x : Ctx) : (setX s c x).stopt = s.stopt := rfl
@[simp] theorem setX_sten (c : BitVec 12) (x : Ctx) : (setX s c x).sten = s.sten := rfl
@[simp] theorem setX_replog (c : BitVec 12) (x : Ctx) : (setX s c x).replog = s.replog := rfl
@[simp] theorem setX_stepped (c : BitVec 12) (x : Ctx) : (setX s c x).stepped = s.stepped := rfl
@[simp] theorem setX_halted (c : BitVec 12) (x : Ctx) : (setX s c x).halted = s.halted := rfl

@[simp] theorem modX_part (c : BitVec 12) (f : Ctx → Ctx) : (modX s c f).part = s.part := rfl
@[simp] theorem modX_rev (c : BitVec 12) (f : Ctx → Ctx) : (modX s c f).rev = s.rev := rfl
@[simp] theorem modX_gtick (c : BitVec 12) (f : Ctx → Ctx) : (modX s c f).gtick = s.gtick := rfl
@[simp] theorem modX_cur (c : BitVec 12) (f : Ctx → Ctx) : (modX s c f).cur = s.cur := rfl
@[simp] theorem modX_agenda (c : BitVec 12) (f : Ctx → Ctx) : (modX s c f).agenda = s.agenda := rfl
@[simp] theorem modX_schedule (c : BitVec 12) (f : Ctx → Ctx) : (modX s c f).schedule = s.schedule := rfl
@[simp] theorem modX_free (c : BitVec 12) (f : Ctx → Ctx) : (modX s c f).free = s.free := rfl
@[simp] theorem modX_nextId (c : BitVec 12) (f : Ctx → Ctx) : (modX s c f).nextId = s.nextId := rfl
@[simp] theorem modX_homes (c : BitVec 12) (f : Ctx → Ctx) : (modX s c f).homes = s.homes := rfl
@[simp] theorem modX_cores (c : BitVec 12) (f : Ctx → Ctx) : (modX s c f).cores = s.cores := rfl
@[simp] theorem modX_groups (c : BitVec 12) (f : Ctx → Ctx) : (modX s c f).groups = s.groups := rfl
@[simp] theorem modX_records (c : BitVec 12) (f : Ctx → Ctx) : (modX s c f).records = s.records := rfl
@[simp] theorem modX_tasks (c : BitVec 12) (f : Ctx → Ctx) : (modX s c f).tasks = s.tasks := rfl
@[simp] theorem modX_disps (c : BitVec 12) (f : Ctx → Ctx) : (modX s c f).disps = s.disps := rfl
@[simp] theorem modX_queues (c : BitVec 12) (f : Ctx → Ctx) : (modX s c f).queues = s.queues := rfl
@[simp] theorem modX_reqs (c : BitVec 12) (f : Ctx → Ctx) : (modX s c f).reqs = s.reqs := rfl
@[simp] theorem modX_walks (c : BitVec 12) (f : Ctx → Ctx) : (modX s c f).walks = s.walks := rfl
@[simp] theorem modX_fills (c : BitVec 12) (f : Ctx → Ctx) : (modX s c f).fills = s.fills := rfl
@[simp] theorem modX_cmds (c : BitVec 12) (f : Ctx → Ctx) : (modX s c f).cmds = s.cmds := rfl
@[simp] theorem modX_host (c : BitVec 12) (f : Ctx → Ctx) : (modX s c f).host = s.host := rfl
@[simp] theorem modX_peers (c : BitVec 12) (f : Ctx → Ctx) : (modX s c f).peers = s.peers := rfl
@[simp] theorem modX_windows (c : BitVec 12) (f : Ctx → Ctx) : (modX s c f).windows = s.windows := rfl
@[simp] theorem modX_links (c : BitVec 12) (f : Ctx → Ctx) : (modX s c f).links = s.links := rfl
@[simp] theorem modX_dies (c : BitVec 12) (f : Ctx → Ctx) : (modX s c f).dies = s.dies := rfl
@[simp] theorem modX_ckpt (c : BitVec 12) (f : Ctx → Ctx) : (modX s c f).ckpt = s.ckpt := rfl
@[simp] theorem modX_pointer (c : BitVec 12) (f : Ctx → Ctx) : (modX s c f).pointer = s.pointer := rfl
@[simp] theorem modX_served (c : BitVec 12) (f : Ctx → Ctx) : (modX s c f).served = s.served := rfl
@[simp] theorem modX_dlkprobe (c : BitVec 12) (f : Ctx → Ctx) : (modX s c f).dlkprobe = s.dlkprobe := rfl
@[simp] theorem modX_rbthresh (c : BitVec 12) (f : Ctx → Ctx) : (modX s c f).rbthresh = s.rbthresh := rfl
@[simp] theorem modX_rbhigh (c : BitVec 12) (f : Ctx → Ctx) : (modX s c f).rbhigh = s.rbhigh := rfl
@[simp] theorem modX_rbtime (c : BitVec 12) (f : Ctx → Ctx) : (modX s c f).rbtime = s.rbtime := rfl
@[simp] theorem modX_minres (c : BitVec 12) (f : Ctx → Ctx) : (modX s c f).minres = s.minres := rfl
@[simp] theorem modX_stopt (c : BitVec 12) (f : Ctx → Ctx) : (modX s c f).stopt = s.stopt := rfl
@[simp] theorem modX_sten (c : BitVec 12) (f : Ctx → Ctx) : (modX s c f).sten = s.sten := rfl
@[simp] theorem modX_replog (c : BitVec 12) (f : Ctx → Ctx) : (modX s c f).replog = s.replog := rfl
@[simp] theorem modX_stepped (c : BitVec 12) (f : Ctx → Ctx) : (modX s c f).stepped = s.stepped := rfl
@[simp] theorem modX_halted (c : BitVec 12) (f : Ctx → Ctx) : (modX s c f).halted = s.halted := rfl

@[simp] theorem modDie_part (d : Nat) (f : Die → Die) : (modDie s d f).part = s.part := rfl
@[simp] theorem modDie_rev (d : Nat) (f : Die → Die) : (modDie s d f).rev = s.rev := rfl
@[simp] theorem modDie_gtick (d : Nat) (f : Die → Die) : (modDie s d f).gtick = s.gtick := rfl
@[simp] theorem modDie_cur (d : Nat) (f : Die → Die) : (modDie s d f).cur = s.cur := rfl
@[simp] theorem modDie_agenda (d : Nat) (f : Die → Die) : (modDie s d f).agenda = s.agenda := rfl
@[simp] theorem modDie_schedule (d : Nat) (f : Die → Die) : (modDie s d f).schedule = s.schedule := rfl
@[simp] theorem modDie_free (d : Nat) (f : Die → Die) : (modDie s d f).free = s.free := rfl
@[simp] theorem modDie_nextId (d : Nat) (f : Die → Die) : (modDie s d f).nextId = s.nextId := rfl
@[simp] theorem modDie_homes (d : Nat) (f : Die → Die) : (modDie s d f).homes = s.homes := rfl
@[simp] theorem modDie_cores (d : Nat) (f : Die → Die) : (modDie s d f).cores = s.cores := rfl
@[simp] theorem modDie_groups (d : Nat) (f : Die → Die) : (modDie s d f).groups = s.groups := rfl
@[simp] theorem modDie_records (d : Nat) (f : Die → Die) : (modDie s d f).records = s.records := rfl
@[simp] theorem modDie_tasks (d : Nat) (f : Die → Die) : (modDie s d f).tasks = s.tasks := rfl
@[simp] theorem modDie_disps (d : Nat) (f : Die → Die) : (modDie s d f).disps = s.disps := rfl
@[simp] theorem modDie_queues (d : Nat) (f : Die → Die) : (modDie s d f).queues = s.queues := rfl
@[simp] theorem modDie_ctxs (d : Nat) (f : Die → Die) : (modDie s d f).ctxs = s.ctxs := rfl
@[simp] theorem modDie_reqs (d : Nat) (f : Die → Die) : (modDie s d f).reqs = s.reqs := rfl
@[simp] theorem modDie_walks (d : Nat) (f : Die → Die) : (modDie s d f).walks = s.walks := rfl
@[simp] theorem modDie_fills (d : Nat) (f : Die → Die) : (modDie s d f).fills = s.fills := rfl
@[simp] theorem modDie_cmds (d : Nat) (f : Die → Die) : (modDie s d f).cmds = s.cmds := rfl
@[simp] theorem modDie_host (d : Nat) (f : Die → Die) : (modDie s d f).host = s.host := rfl
@[simp] theorem modDie_peers (d : Nat) (f : Die → Die) : (modDie s d f).peers = s.peers := rfl
@[simp] theorem modDie_windows (d : Nat) (f : Die → Die) : (modDie s d f).windows = s.windows := rfl
@[simp] theorem modDie_links (d : Nat) (f : Die → Die) : (modDie s d f).links = s.links := rfl
@[simp] theorem modDie_ckpt (d : Nat) (f : Die → Die) : (modDie s d f).ckpt = s.ckpt := rfl
@[simp] theorem modDie_pointer (d : Nat) (f : Die → Die) : (modDie s d f).pointer = s.pointer := rfl
@[simp] theorem modDie_served (d : Nat) (f : Die → Die) : (modDie s d f).served = s.served := rfl
@[simp] theorem modDie_dlkprobe (d : Nat) (f : Die → Die) : (modDie s d f).dlkprobe = s.dlkprobe := rfl
@[simp] theorem modDie_rbthresh (d : Nat) (f : Die → Die) : (modDie s d f).rbthresh = s.rbthresh := rfl
@[simp] theorem modDie_rbhigh (d : Nat) (f : Die → Die) : (modDie s d f).rbhigh = s.rbhigh := rfl
@[simp] theorem modDie_rbtime (d : Nat) (f : Die → Die) : (modDie s d f).rbtime = s.rbtime := rfl
@[simp] theorem modDie_minres (d : Nat) (f : Die → Die) : (modDie s d f).minres = s.minres := rfl
@[simp] theorem modDie_stopt (d : Nat) (f : Die → Die) : (modDie s d f).stopt = s.stopt := rfl
@[simp] theorem modDie_sten (d : Nat) (f : Die → Die) : (modDie s d f).sten = s.sten := rfl
@[simp] theorem modDie_replog (d : Nat) (f : Die → Die) : (modDie s d f).replog = s.replog := rfl
@[simp] theorem modDie_stepped (d : Nat) (f : Die → Die) : (modDie s d f).stepped = s.stepped := rfl
@[simp] theorem modDie_halted (d : Nat) (f : Die → Die) : (modDie s d f).halted = s.halted := rfl

@[simp] theorem modLink_part (l : Nat) (f : Link → Link) : (modLink s l f).part = s.part := rfl
@[simp] theorem modLink_rev (l : Nat) (f : Link → Link) : (modLink s l f).rev = s.rev := rfl
@[simp] theorem modLink_gtick (l : Nat) (f : Link → Link) : (modLink s l f).gtick = s.gtick := rfl
@[simp] theorem modLink_cur (l : Nat) (f : Link → Link) : (modLink s l f).cur = s.cur := rfl
@[simp] theorem modLink_agenda (l : Nat) (f : Link → Link) : (modLink s l f).agenda = s.agenda := rfl
@[simp] theorem modLink_schedule (l : Nat) (f : Link → Link) : (modLink s l f).schedule = s.schedule := rfl
@[simp] theorem modLink_free (l : Nat) (f : Link → Link) : (modLink s l f).free = s.free := rfl
@[simp] theorem modLink_nextId (l : Nat) (f : Link → Link) : (modLink s l f).nextId = s.nextId := rfl
@[simp] theorem modLink_homes (l : Nat) (f : Link → Link) : (modLink s l f).homes = s.homes := rfl
@[simp] theorem modLink_cores (l : Nat) (f : Link → Link) : (modLink s l f).cores = s.cores := rfl
@[simp] theorem modLink_groups (l : Nat) (f : Link → Link) : (modLink s l f).groups = s.groups := rfl
@[simp] theorem modLink_records (l : Nat) (f : Link → Link) : (modLink s l f).records = s.records := rfl
@[simp] theorem modLink_tasks (l : Nat) (f : Link → Link) : (modLink s l f).tasks = s.tasks := rfl
@[simp] theorem modLink_disps (l : Nat) (f : Link → Link) : (modLink s l f).disps = s.disps := rfl
@[simp] theorem modLink_queues (l : Nat) (f : Link → Link) : (modLink s l f).queues = s.queues := rfl
@[simp] theorem modLink_ctxs (l : Nat) (f : Link → Link) : (modLink s l f).ctxs = s.ctxs := rfl
@[simp] theorem modLink_reqs (l : Nat) (f : Link → Link) : (modLink s l f).reqs = s.reqs := rfl
@[simp] theorem modLink_walks (l : Nat) (f : Link → Link) : (modLink s l f).walks = s.walks := rfl
@[simp] theorem modLink_fills (l : Nat) (f : Link → Link) : (modLink s l f).fills = s.fills := rfl
@[simp] theorem modLink_cmds (l : Nat) (f : Link → Link) : (modLink s l f).cmds = s.cmds := rfl
@[simp] theorem modLink_host (l : Nat) (f : Link → Link) : (modLink s l f).host = s.host := rfl
@[simp] theorem modLink_peers (l : Nat) (f : Link → Link) : (modLink s l f).peers = s.peers := rfl
@[simp] theorem modLink_windows (l : Nat) (f : Link → Link) : (modLink s l f).windows = s.windows := rfl
@[simp] theorem modLink_dies (l : Nat) (f : Link → Link) : (modLink s l f).dies = s.dies := rfl
@[simp] theorem modLink_ckpt (l : Nat) (f : Link → Link) : (modLink s l f).ckpt = s.ckpt := rfl
@[simp] theorem modLink_pointer (l : Nat) (f : Link → Link) : (modLink s l f).pointer = s.pointer := rfl
@[simp] theorem modLink_served (l : Nat) (f : Link → Link) : (modLink s l f).served = s.served := rfl
@[simp] theorem modLink_dlkprobe (l : Nat) (f : Link → Link) : (modLink s l f).dlkprobe = s.dlkprobe := rfl
@[simp] theorem modLink_rbthresh (l : Nat) (f : Link → Link) : (modLink s l f).rbthresh = s.rbthresh := rfl
@[simp] theorem modLink_rbhigh (l : Nat) (f : Link → Link) : (modLink s l f).rbhigh = s.rbhigh := rfl
@[simp] theorem modLink_rbtime (l : Nat) (f : Link → Link) : (modLink s l f).rbtime = s.rbtime := rfl
@[simp] theorem modLink_minres (l : Nat) (f : Link → Link) : (modLink s l f).minres = s.minres := rfl
@[simp] theorem modLink_stopt (l : Nat) (f : Link → Link) : (modLink s l f).stopt = s.stopt := rfl
@[simp] theorem modLink_sten (l : Nat) (f : Link → Link) : (modLink s l f).sten = s.sten := rfl
@[simp] theorem modLink_replog (l : Nat) (f : Link → Link) : (modLink s l f).replog = s.replog := rfl
@[simp] theorem modLink_stepped (l : Nat) (f : Link → Link) : (modLink s l f).stepped = s.stepped := rfl
@[simp] theorem modLink_halted (l : Nat) (f : Link → Link) : (modLink s l f).halted = s.halted := rfl

@[simp] theorem modH_part (f : Homes → Homes) : (modH s f).part = s.part := rfl
@[simp] theorem modH_rev (f : Homes → Homes) : (modH s f).rev = s.rev := rfl
@[simp] theorem modH_gtick (f : Homes → Homes) : (modH s f).gtick = s.gtick := rfl
@[simp] theorem modH_cur (f : Homes → Homes) : (modH s f).cur = s.cur := rfl
@[simp] theorem modH_agenda (f : Homes → Homes) : (modH s f).agenda = s.agenda := rfl
@[simp] theorem modH_schedule (f : Homes → Homes) : (modH s f).schedule = s.schedule := rfl
@[simp] theorem modH_free (f : Homes → Homes) : (modH s f).free = s.free := rfl
@[simp] theorem modH_nextId (f : Homes → Homes) : (modH s f).nextId = s.nextId := rfl
@[simp] theorem modH_cores (f : Homes → Homes) : (modH s f).cores = s.cores := rfl
@[simp] theorem modH_groups (f : Homes → Homes) : (modH s f).groups = s.groups := rfl
@[simp] theorem modH_records (f : Homes → Homes) : (modH s f).records = s.records := rfl
@[simp] theorem modH_tasks (f : Homes → Homes) : (modH s f).tasks = s.tasks := rfl
@[simp] theorem modH_disps (f : Homes → Homes) : (modH s f).disps = s.disps := rfl
@[simp] theorem modH_queues (f : Homes → Homes) : (modH s f).queues = s.queues := rfl
@[simp] theorem modH_ctxs (f : Homes → Homes) : (modH s f).ctxs = s.ctxs := rfl
@[simp] theorem modH_reqs (f : Homes → Homes) : (modH s f).reqs = s.reqs := rfl
@[simp] theorem modH_walks (f : Homes → Homes) : (modH s f).walks = s.walks := rfl
@[simp] theorem modH_fills (f : Homes → Homes) : (modH s f).fills = s.fills := rfl
@[simp] theorem modH_cmds (f : Homes → Homes) : (modH s f).cmds = s.cmds := rfl
@[simp] theorem modH_host (f : Homes → Homes) : (modH s f).host = s.host := rfl
@[simp] theorem modH_peers (f : Homes → Homes) : (modH s f).peers = s.peers := rfl
@[simp] theorem modH_windows (f : Homes → Homes) : (modH s f).windows = s.windows := rfl
@[simp] theorem modH_links (f : Homes → Homes) : (modH s f).links = s.links := rfl
@[simp] theorem modH_dies (f : Homes → Homes) : (modH s f).dies = s.dies := rfl
@[simp] theorem modH_ckpt (f : Homes → Homes) : (modH s f).ckpt = s.ckpt := rfl
@[simp] theorem modH_pointer (f : Homes → Homes) : (modH s f).pointer = s.pointer := rfl
@[simp] theorem modH_served (f : Homes → Homes) : (modH s f).served = s.served := rfl
@[simp] theorem modH_dlkprobe (f : Homes → Homes) : (modH s f).dlkprobe = s.dlkprobe := rfl
@[simp] theorem modH_rbthresh (f : Homes → Homes) : (modH s f).rbthresh = s.rbthresh := rfl
@[simp] theorem modH_rbhigh (f : Homes → Homes) : (modH s f).rbhigh = s.rbhigh := rfl
@[simp] theorem modH_rbtime (f : Homes → Homes) : (modH s f).rbtime = s.rbtime := rfl
@[simp] theorem modH_minres (f : Homes → Homes) : (modH s f).minres = s.minres := rfl
@[simp] theorem modH_stopt (f : Homes → Homes) : (modH s f).stopt = s.stopt := rfl
@[simp] theorem modH_sten (f : Homes → Homes) : (modH s f).sten = s.sten := rfl
@[simp] theorem modH_replog (f : Homes → Homes) : (modH s f).replog = s.replog := rfl
@[simp] theorem modH_stepped (f : Homes → Homes) : (modH s f).stepped = s.stepped := rfl
@[simp] theorem modH_halted (f : Homes → Homes) : (modH s f).halted = s.halted := rfl

@[simp] theorem push_part (e : Event) : (push s e).part = s.part := rfl
@[simp] theorem push_rev (e : Event) : (push s e).rev = s.rev := rfl
@[simp] theorem push_gtick (e : Event) : (push s e).gtick = s.gtick := rfl
@[simp] theorem push_cur (e : Event) : (push s e).cur = s.cur := rfl
@[simp] theorem push_schedule (e : Event) : (push s e).schedule = s.schedule := rfl
@[simp] theorem push_free (e : Event) : (push s e).free = s.free := rfl
@[simp] theorem push_nextId (e : Event) : (push s e).nextId = s.nextId := rfl
@[simp] theorem push_homes (e : Event) : (push s e).homes = s.homes := rfl
@[simp] theorem push_cores (e : Event) : (push s e).cores = s.cores := rfl
@[simp] theorem push_groups (e : Event) : (push s e).groups = s.groups := rfl
@[simp] theorem push_records (e : Event) : (push s e).records = s.records := rfl
@[simp] theorem push_tasks (e : Event) : (push s e).tasks = s.tasks := rfl
@[simp] theorem push_disps (e : Event) : (push s e).disps = s.disps := rfl
@[simp] theorem push_queues (e : Event) : (push s e).queues = s.queues := rfl
@[simp] theorem push_ctxs (e : Event) : (push s e).ctxs = s.ctxs := rfl
@[simp] theorem push_reqs (e : Event) : (push s e).reqs = s.reqs := rfl
@[simp] theorem push_walks (e : Event) : (push s e).walks = s.walks := rfl
@[simp] theorem push_fills (e : Event) : (push s e).fills = s.fills := rfl
@[simp] theorem push_cmds (e : Event) : (push s e).cmds = s.cmds := rfl
@[simp] theorem push_host (e : Event) : (push s e).host = s.host := rfl
@[simp] theorem push_peers (e : Event) : (push s e).peers = s.peers := rfl
@[simp] theorem push_windows (e : Event) : (push s e).windows = s.windows := rfl
@[simp] theorem push_links (e : Event) : (push s e).links = s.links := rfl
@[simp] theorem push_dies (e : Event) : (push s e).dies = s.dies := rfl
@[simp] theorem push_ckpt (e : Event) : (push s e).ckpt = s.ckpt := rfl
@[simp] theorem push_pointer (e : Event) : (push s e).pointer = s.pointer := rfl
@[simp] theorem push_served (e : Event) : (push s e).served = s.served := rfl
@[simp] theorem push_dlkprobe (e : Event) : (push s e).dlkprobe = s.dlkprobe := rfl
@[simp] theorem push_rbthresh (e : Event) : (push s e).rbthresh = s.rbthresh := rfl
@[simp] theorem push_rbhigh (e : Event) : (push s e).rbhigh = s.rbhigh := rfl
@[simp] theorem push_rbtime (e : Event) : (push s e).rbtime = s.rbtime := rfl
@[simp] theorem push_minres (e : Event) : (push s e).minres = s.minres := rfl
@[simp] theorem push_stopt (e : Event) : (push s e).stopt = s.stopt := rfl
@[simp] theorem push_sten (e : Event) : (push s e).sten = s.sten := rfl
@[simp] theorem push_replog (e : Event) : (push s e).replog = s.replog := rfl
@[simp] theorem push_stepped (e : Event) : (push s e).stepped = s.stepped := rfl
@[simp] theorem push_halted (e : Event) : (push s e).halted = s.halted := rfl

@[simp] theorem pushAll_part (es : List Event) : (pushAll s es).part = s.part := rfl
@[simp] theorem pushAll_rev (es : List Event) : (pushAll s es).rev = s.rev := rfl
@[simp] theorem pushAll_gtick (es : List Event) : (pushAll s es).gtick = s.gtick := rfl
@[simp] theorem pushAll_cur (es : List Event) : (pushAll s es).cur = s.cur := rfl
@[simp] theorem pushAll_schedule (es : List Event) : (pushAll s es).schedule = s.schedule := rfl
@[simp] theorem pushAll_free (es : List Event) : (pushAll s es).free = s.free := rfl
@[simp] theorem pushAll_nextId (es : List Event) : (pushAll s es).nextId = s.nextId := rfl
@[simp] theorem pushAll_homes (es : List Event) : (pushAll s es).homes = s.homes := rfl
@[simp] theorem pushAll_cores (es : List Event) : (pushAll s es).cores = s.cores := rfl
@[simp] theorem pushAll_groups (es : List Event) : (pushAll s es).groups = s.groups := rfl
@[simp] theorem pushAll_records (es : List Event) : (pushAll s es).records = s.records := rfl
@[simp] theorem pushAll_tasks (es : List Event) : (pushAll s es).tasks = s.tasks := rfl
@[simp] theorem pushAll_disps (es : List Event) : (pushAll s es).disps = s.disps := rfl
@[simp] theorem pushAll_queues (es : List Event) : (pushAll s es).queues = s.queues := rfl
@[simp] theorem pushAll_ctxs (es : List Event) : (pushAll s es).ctxs = s.ctxs := rfl
@[simp] theorem pushAll_reqs (es : List Event) : (pushAll s es).reqs = s.reqs := rfl
@[simp] theorem pushAll_walks (es : List Event) : (pushAll s es).walks = s.walks := rfl
@[simp] theorem pushAll_fills (es : List Event) : (pushAll s es).fills = s.fills := rfl
@[simp] theorem pushAll_cmds (es : List Event) : (pushAll s es).cmds = s.cmds := rfl
@[simp] theorem pushAll_host (es : List Event) : (pushAll s es).host = s.host := rfl
@[simp] theorem pushAll_peers (es : List Event) : (pushAll s es).peers = s.peers := rfl
@[simp] theorem pushAll_windows (es : List Event) : (pushAll s es).windows = s.windows := rfl
@[simp] theorem pushAll_links (es : List Event) : (pushAll s es).links = s.links := rfl
@[simp] theorem pushAll_dies (es : List Event) : (pushAll s es).dies = s.dies := rfl
@[simp] theorem pushAll_ckpt (es : List Event) : (pushAll s es).ckpt = s.ckpt := rfl
@[simp] theorem pushAll_pointer (es : List Event) : (pushAll s es).pointer = s.pointer := rfl
@[simp] theorem pushAll_served (es : List Event) : (pushAll s es).served = s.served := rfl
@[simp] theorem pushAll_dlkprobe (es : List Event) : (pushAll s es).dlkprobe = s.dlkprobe := rfl
@[simp] theorem pushAll_rbthresh (es : List Event) : (pushAll s es).rbthresh = s.rbthresh := rfl
@[simp] theorem pushAll_rbhigh (es : List Event) : (pushAll s es).rbhigh = s.rbhigh := rfl
@[simp] theorem pushAll_rbtime (es : List Event) : (pushAll s es).rbtime = s.rbtime := rfl
@[simp] theorem pushAll_minres (es : List Event) : (pushAll s es).minres = s.minres := rfl
@[simp] theorem pushAll_stopt (es : List Event) : (pushAll s es).stopt = s.stopt := rfl
@[simp] theorem pushAll_sten (es : List Event) : (pushAll s es).sten = s.sten := rfl
@[simp] theorem pushAll_replog (es : List Event) : (pushAll s es).replog = s.replog := rfl
@[simp] theorem pushAll_stepped (es : List Event) : (pushAll s es).stepped = s.stepped := rfl
@[simp] theorem pushAll_halted (es : List Event) : (pushAll s es).halted = s.halted := rfl

@[simp] theorem fresh_part : ((fresh s).2).part = s.part := rfl
@[simp] theorem fresh_rev : ((fresh s).2).rev = s.rev := rfl
@[simp] theorem fresh_gtick : ((fresh s).2).gtick = s.gtick := rfl
@[simp] theorem fresh_cur : ((fresh s).2).cur = s.cur := rfl
@[simp] theorem fresh_agenda : ((fresh s).2).agenda = s.agenda := rfl
@[simp] theorem fresh_schedule : ((fresh s).2).schedule = s.schedule := rfl
@[simp] theorem fresh_free : ((fresh s).2).free = s.free := rfl
@[simp] theorem fresh_homes : ((fresh s).2).homes = s.homes := rfl
@[simp] theorem fresh_cores : ((fresh s).2).cores = s.cores := rfl
@[simp] theorem fresh_groups : ((fresh s).2).groups = s.groups := rfl
@[simp] theorem fresh_records : ((fresh s).2).records = s.records := rfl
@[simp] theorem fresh_tasks : ((fresh s).2).tasks = s.tasks := rfl
@[simp] theorem fresh_disps : ((fresh s).2).disps = s.disps := rfl
@[simp] theorem fresh_queues : ((fresh s).2).queues = s.queues := rfl
@[simp] theorem fresh_ctxs : ((fresh s).2).ctxs = s.ctxs := rfl
@[simp] theorem fresh_reqs : ((fresh s).2).reqs = s.reqs := rfl
@[simp] theorem fresh_walks : ((fresh s).2).walks = s.walks := rfl
@[simp] theorem fresh_fills : ((fresh s).2).fills = s.fills := rfl
@[simp] theorem fresh_cmds : ((fresh s).2).cmds = s.cmds := rfl
@[simp] theorem fresh_host : ((fresh s).2).host = s.host := rfl
@[simp] theorem fresh_peers : ((fresh s).2).peers = s.peers := rfl
@[simp] theorem fresh_windows : ((fresh s).2).windows = s.windows := rfl
@[simp] theorem fresh_links : ((fresh s).2).links = s.links := rfl
@[simp] theorem fresh_dies : ((fresh s).2).dies = s.dies := rfl
@[simp] theorem fresh_ckpt : ((fresh s).2).ckpt = s.ckpt := rfl
@[simp] theorem fresh_pointer : ((fresh s).2).pointer = s.pointer := rfl
@[simp] theorem fresh_served : ((fresh s).2).served = s.served := rfl
@[simp] theorem fresh_dlkprobe : ((fresh s).2).dlkprobe = s.dlkprobe := rfl
@[simp] theorem fresh_rbthresh : ((fresh s).2).rbthresh = s.rbthresh := rfl
@[simp] theorem fresh_rbhigh : ((fresh s).2).rbhigh = s.rbhigh := rfl
@[simp] theorem fresh_rbtime : ((fresh s).2).rbtime = s.rbtime := rfl
@[simp] theorem fresh_minres : ((fresh s).2).minres = s.minres := rfl
@[simp] theorem fresh_stopt : ((fresh s).2).stopt = s.stopt := rfl
@[simp] theorem fresh_sten : ((fresh s).2).sten = s.sten := rfl
@[simp] theorem fresh_replog : ((fresh s).2).replog = s.replog := rfl
@[simp] theorem fresh_stepped : ((fresh s).2).stepped = s.stepped := rfl
@[simp] theorem fresh_halted : ((fresh s).2).halted = s.halted := rfl

@[simp] theorem addFault_part (r : FaultRec) : (addFault s r).part = s.part := rfl
@[simp] theorem addFault_rev (r : FaultRec) : (addFault s r).rev = s.rev := rfl
@[simp] theorem addFault_gtick (r : FaultRec) : (addFault s r).gtick = s.gtick := rfl
@[simp] theorem addFault_cur (r : FaultRec) : (addFault s r).cur = s.cur := rfl
@[simp] theorem addFault_agenda (r : FaultRec) : (addFault s r).agenda = s.agenda := rfl
@[simp] theorem addFault_schedule (r : FaultRec) : (addFault s r).schedule = s.schedule := rfl
@[simp] theorem addFault_free (r : FaultRec) : (addFault s r).free = s.free := rfl
@[simp] theorem addFault_nextId (r : FaultRec) : (addFault s r).nextId = s.nextId := rfl
@[simp] theorem addFault_homes (r : FaultRec) : (addFault s r).homes = s.homes := rfl
@[simp] theorem addFault_cores (r : FaultRec) : (addFault s r).cores = s.cores := rfl
@[simp] theorem addFault_groups (r : FaultRec) : (addFault s r).groups = s.groups := rfl
@[simp] theorem addFault_records (r : FaultRec) : (addFault s r).records = s.records := rfl
@[simp] theorem addFault_tasks (r : FaultRec) : (addFault s r).tasks = s.tasks := rfl
@[simp] theorem addFault_disps (r : FaultRec) : (addFault s r).disps = s.disps := rfl
@[simp] theorem addFault_queues (r : FaultRec) : (addFault s r).queues = s.queues := rfl
@[simp] theorem addFault_reqs (r : FaultRec) : (addFault s r).reqs = s.reqs := rfl
@[simp] theorem addFault_walks (r : FaultRec) : (addFault s r).walks = s.walks := rfl
@[simp] theorem addFault_fills (r : FaultRec) : (addFault s r).fills = s.fills := rfl
@[simp] theorem addFault_cmds (r : FaultRec) : (addFault s r).cmds = s.cmds := rfl
@[simp] theorem addFault_host (r : FaultRec) : (addFault s r).host = s.host := rfl
@[simp] theorem addFault_peers (r : FaultRec) : (addFault s r).peers = s.peers := rfl
@[simp] theorem addFault_windows (r : FaultRec) : (addFault s r).windows = s.windows := rfl
@[simp] theorem addFault_links (r : FaultRec) : (addFault s r).links = s.links := rfl
@[simp] theorem addFault_dies (r : FaultRec) : (addFault s r).dies = s.dies := rfl
@[simp] theorem addFault_ckpt (r : FaultRec) : (addFault s r).ckpt = s.ckpt := rfl
@[simp] theorem addFault_pointer (r : FaultRec) : (addFault s r).pointer = s.pointer := rfl
@[simp] theorem addFault_served (r : FaultRec) : (addFault s r).served = s.served := rfl
@[simp] theorem addFault_dlkprobe (r : FaultRec) : (addFault s r).dlkprobe = s.dlkprobe := rfl
@[simp] theorem addFault_rbthresh (r : FaultRec) : (addFault s r).rbthresh = s.rbthresh := rfl
@[simp] theorem addFault_rbhigh (r : FaultRec) : (addFault s r).rbhigh = s.rbhigh := rfl
@[simp] theorem addFault_rbtime (r : FaultRec) : (addFault s r).rbtime = s.rbtime := rfl
@[simp] theorem addFault_minres (r : FaultRec) : (addFault s r).minres = s.minres := rfl
@[simp] theorem addFault_stopt (r : FaultRec) : (addFault s r).stopt = s.stopt := rfl
@[simp] theorem addFault_sten (r : FaultRec) : (addFault s r).sten = s.sten := rfl
@[simp] theorem addFault_replog (r : FaultRec) : (addFault s r).replog = s.replog := rfl
@[simp] theorem addFault_stepped (r : FaultRec) : (addFault s r).stepped = s.stepped := rfl
@[simp] theorem addFault_halted (r : FaultRec) : (addFault s r).halted = s.halted := rfl

end Fields

/-! A read after a write. -/

theorem getG_setG (s : State) (u v : Nat) (g : Group) : getG (setG s u g) v = if v = u then g else getG s v :=
  fget_fset _ _ _ _ _
theorem getC_setC (s : State) (c d : Nat) (x : Core) : getC (setC s c x) d = if d = c then x else getC s d :=
  fget_fset _ _ _ _ _
theorem getT_setT (s : State) (k j : Nat) (x : Task) : getT (setT s k x) j = if j = k then x else getT s j :=
  fget_fset _ _ _ _ _
theorem getX_setX (s : State) (c d : BitVec 12) (x : Ctx) : getX (setX s c x) d = if d = c then x else getX s d := by
  simp only [getX, setX, fget_fset, BitVec.toNat_inj]
theorem getDie_modDie (s : State) (d e : Nat) (f : Die → Die) :
    getDie (modDie s d f) e = if e = d then f (getDie s d) else getDie s e := fget_fset _ _ _ _ _
theorem getLink_modLink (s : State) (l k : Nat) (f : Link → Link) :
    getLink (modLink s l f) k = if k = l then f (getLink s l) else getLink s k := fget_fset _ _ _ _ _
theorem getF_setF (g : Group) (k j : Nat) (f : Split) : getF (setF g k f) j = if j = k then f else getF g j :=
  fget_fset _ _ _ _ _

@[simp] theorem getG_setG_same (s : State) (u : Nat) (g : Group) : getG (setG s u g) u = g := by simp [getG_setG]
@[simp] theorem getC_setC_same (s : State) (c : Nat) (x : Core) : getC (setC s c x) c = x := by simp [getC_setC]
@[simp] theorem getT_setT_same (s : State) (k : Nat) (x : Task) : getT (setT s k x) k = x := by simp [getT_setT]
@[simp] theorem getX_setX_same (s : State) (c : BitVec 12) (x : Ctx) : getX (setX s c x) c = x := by simp [getX_setX]
@[simp] theorem getF_setF_same (g : Group) (k : Nat) (f : Split) : getF (setF g k f) k = f := by simp [getF_setF]
theorem getG_setG_ne (s : State) (u v : Nat) (g : Group) (h : v ≠ u) : getG (setG s u g) v = getG s v := by
  simp [getG_setG, h]
theorem getC_setC_ne (s : State) (c d : Nat) (x : Core) (h : d ≠ c) : getC (setC s c x) d = getC s d := by
  simp [getC_setC, h]
theorem getT_setT_ne (s : State) (k j : Nat) (x : Task) (h : j ≠ k) : getT (setT s k x) j = getT s j := by
  simp [getT_setT, h]
theorem getX_setX_ne (s : State) (c d : BitVec 12) (x : Ctx) (h : d ≠ c) : getX (setX s c x) d = getX s d := by
  simp [getX_setX, h]
theorem getF_setF_ne (g : Group) (k j : Nat) (f : Split) (h : j ≠ k) : getF (setF g k f) j = getF g j := by
  simp [getF_setF, h]

@[simp] theorem getG_modG (s : State) (u : Nat) (f : Group → Group) : getG (modG s u f) u = f (getG s u) := by
  simp [modG]
@[simp] theorem getC_modC (s : State) (c : Nat) (f : Core → Core) : getC (modC s c f) c = f (getC s c) := by simp [modC]
@[simp] theorem getT_modT (s : State) (k : Nat) (f : Task → Task) : getT (modT s k f) k = f (getT s k) := by simp [modT]
@[simp] theorem getX_modX (s : State) (c : BitVec 12) (f : Ctx → Ctx) : getX (modX s c f) c = f (getX s c) := by
  simp [modX]
@[simp] theorem getF_modF (g : Group) (k : Nat) (h : Split → Split) : getF (modF g k h) k = h (getF g k) := by
  simp [modF]
theorem getF_modF_ne (g : Group) (k j : Nat) (h : Split → Split) (hj : j ≠ k) : getF (modF g k h) j = getF g j := by
  simp [modF, getF_setF_ne _ _ _ _ hj]
@[simp] theorem curG_modCur (s : State) (f : Group → Group) : curG (modCur s f) = f (curG s) := by
  simp [curG, modCur]
@[simp] theorem curG_modCurF (s : State) (h : Split → Split) : curG (modCurF s h) = modF (curG s) s.cur.entry h := by
  simp [modCurF]
@[simp] theorem curF_modCurF (s : State) (h : Split → Split) : curF (modCurF s h) = h (curF s) := by
  simp [curF, modCurF]
theorem getG_modCur_ne (s : State) (f : Group → Group) (v : Nat) (h : v ≠ s.cur.uid) : getG (modCur s f) v = getG s v := by
  simp [modCur, modG, getG_setG_ne _ _ _ _ h]

/-! A reader that an update does not touch. -/

@[simp] theorem getC_setG (s : State) (u : Nat) (g : Group) (v : Nat) : getC (setG s u g) v = getC s v := rfl
@[simp] theorem getT_setG (s : State) (u : Nat) (g : Group) (v : Nat) : getT (setG s u g) v = getT s v := rfl
@[simp] theorem getX_setG (s : State) (u : Nat) (g : Group) (v : BitVec 12) : getX (setG s u g) v = getX s v := rfl
@[simp] theorem getDie_setG (s : State) (u : Nat) (g : Group) (v : Nat) : getDie (setG s u g) v = getDie s v := rfl
@[simp] theorem getLink_setG (s : State) (u : Nat) (g : Group) (v : Nat) : getLink (setG s u g) v = getLink s v := rfl
@[simp] theorem getC_modG (s : State) (u : Nat) (f : Group → Group) (v : Nat) : getC (modG s u f) v = getC s v := rfl
@[simp] theorem getT_modG (s : State) (u : Nat) (f : Group → Group) (v : Nat) : getT (modG s u f) v = getT s v := rfl
@[simp] theorem getX_modG (s : State) (u : Nat) (f : Group → Group) (v : BitVec 12) : getX (modG s u f) v = getX s v := rfl
@[simp] theorem getDie_modG (s : State) (u : Nat) (f : Group → Group) (v : Nat) : getDie (modG s u f) v = getDie s v := rfl
@[simp] theorem getLink_modG (s : State) (u : Nat) (f : Group → Group) (v : Nat) : getLink (modG s u f) v = getLink s v := rfl
@[simp] theorem getC_modCur (s : State) (f : Group → Group) (v : Nat) : getC (modCur s f) v = getC s v := rfl
@[simp] theorem getT_modCur (s : State) (f : Group → Group) (v : Nat) : getT (modCur s f) v = getT s v := rfl
@[simp] theorem getX_modCur (s : State) (f : Group → Group) (v : BitVec 12) : getX (modCur s f) v = getX s v := rfl
@[simp] theorem getDie_modCur (s : State) (f : Group → Group) (v : Nat) : getDie (modCur s f) v = getDie s v := rfl
@[simp] theorem getLink_modCur (s : State) (f : Group → Group) (v : Nat) : getLink (modCur s f) v = getLink s v := rfl
@[simp] theorem getC_modCurF (s : State) (h : Split → Split) (v : Nat) : getC (modCurF s h) v = getC s v := rfl
@[simp] theorem getT_modCurF (s : State) (h : Split → Split) (v : Nat) : getT (modCurF s h) v = getT s v := rfl
@[simp] theorem getX_modCurF (s : State) (h : Split → Split) (v : BitVec 12) : getX (modCurF s h) v = getX s v := rfl
@[simp] theorem getDie_modCurF (s : State) (h : Split → Split) (v : Nat) : getDie (modCurF s h) v = getDie s v := rfl
@[simp] theorem getLink_modCurF (s : State) (h : Split → Split) (v : Nat) : getLink (modCurF s h) v = getLink s v := rfl
@[simp] theorem getG_setC (s : State) (c : Nat) (x : Core) (v : Nat) : getG (setC s c x) v = getG s v := rfl
@[simp] theorem getT_setC (s : State) (c : Nat) (x : Core) (v : Nat) : getT (setC s c x) v = getT s v := rfl
@[simp] theorem getX_setC (s : State) (c : Nat) (x : Core) (v : BitVec 12) : getX (setC s c x) v = getX s v := rfl
@[simp] theorem getDie_setC (s : State) (c : Nat) (x : Core) (v : Nat) : getDie (setC s c x) v = getDie s v := rfl
@[simp] theorem getLink_setC (s : State) (c : Nat) (x : Core) (v : Nat) : getLink (setC s c x) v = getLink s v := rfl
@[simp] theorem curG_setC (s : State) (c : Nat) (x : Core) : curG (setC s c x) = curG s := rfl
@[simp] theorem curF_setC (s : State) (c : Nat) (x : Core) : curF (setC s c x) = curF s := rfl
@[simp] theorem getG_modC (s : State) (c : Nat) (f : Core → Core) (v : Nat) : getG (modC s c f) v = getG s v := rfl
@[simp] theorem getT_modC (s : State) (c : Nat) (f : Core → Core) (v : Nat) : getT (modC s c f) v = getT s v := rfl
@[simp] theorem getX_modC (s : State) (c : Nat) (f : Core → Core) (v : BitVec 12) : getX (modC s c f) v = getX s v := rfl
@[simp] theorem getDie_modC (s : State) (c : Nat) (f : Core → Core) (v : Nat) : getDie (modC s c f) v = getDie s v := rfl
@[simp] theorem getLink_modC (s : State) (c : Nat) (f : Core → Core) (v : Nat) : getLink (modC s c f) v = getLink s v := rfl
@[simp] theorem curG_modC (s : State) (c : Nat) (f : Core → Core) : curG (modC s c f) = curG s := rfl
@[simp] theorem curF_modC (s : State) (c : Nat) (f : Core → Core) : curF (modC s c f) = curF s := rfl
@[simp] theorem getG_setT (s : State) (k : Nat) (x : Task) (v : Nat) : getG (setT s k x) v = getG s v := rfl
@[simp] theorem getC_setT (s : State) (k : Nat) (x : Task) (v : Nat) : getC (setT s k x) v = getC s v := rfl
@[simp] theorem getX_setT (s : State) (k : Nat) (x : Task) (v : BitVec 12) : getX (setT s k x) v = getX s v := rfl
@[simp] theorem getDie_setT (s : State) (k : Nat) (x : Task) (v : Nat) : getDie (setT s k x) v = getDie s v := rfl
@[simp] theorem getLink_setT (s : State) (k : Nat) (x : Task) (v : Nat) : getLink (setT s k x) v = getLink s v := rfl
@[simp] theorem curG_setT (s : State) (k : Nat) (x : Task) : curG (setT s k x) = curG s := rfl
@[simp] theorem curF_setT (s : State) (k : Nat) (x : Task) : curF (setT s k x) = curF s := rfl
@[simp] theorem getG_modT (s : State) (k : Nat) (f : Task → Task) (v : Nat) : getG (modT s k f) v = getG s v := rfl
@[simp] theorem getC_modT (s : State) (k : Nat) (f : Task → Task) (v : Nat) : getC (modT s k f) v = getC s v := rfl
@[simp] theorem getX_modT (s : State) (k : Nat) (f : Task → Task) (v : BitVec 12) : getX (modT s k f) v = getX s v := rfl
@[simp] theorem getDie_modT (s : State) (k : Nat) (f : Task → Task) (v : Nat) : getDie (modT s k f) v = getDie s v := rfl
@[simp] theorem getLink_modT (s : State) (k : Nat) (f : Task → Task) (v : Nat) : getLink (modT s k f) v = getLink s v := rfl
@[simp] theorem curG_modT (s : State) (k : Nat) (f : Task → Task) : curG (modT s k f) = curG s := rfl
@[simp] theorem curF_modT (s : State) (k : Nat) (f : Task → Task) : curF (modT s k f) = curF s := rfl
@[simp] theorem getG_setX (s : State) (c : BitVec 12) (x : Ctx) (v : Nat) : getG (setX s c x) v = getG s v := rfl
@[simp] theorem getC_setX (s : State) (c : BitVec 12) (x : Ctx) (v : Nat) : getC (setX s c x) v = getC s v := rfl
@[simp] theorem getT_setX (s : State) (c : BitVec 12) (x : Ctx) (v : Nat) : getT (setX s c x) v = getT s v := rfl
@[simp] theorem getDie_setX (s : State) (c : BitVec 12) (x : Ctx) (v : Nat) : getDie (setX s c x) v = getDie s v := rfl
@[simp] theorem getLink_setX (s : State) (c : BitVec 12) (x : Ctx) (v : Nat) : getLink (setX s c x) v = getLink s v := rfl
@[simp] theorem curG_setX (s : State) (c : BitVec 12) (x : Ctx) : curG (setX s c x) = curG s := rfl
@[simp] theorem curF_setX (s : State) (c : BitVec 12) (x : Ctx) : curF (setX s c x) = curF s := rfl
@[simp] theorem getG_modX (s : State) (c : BitVec 12) (f : Ctx → Ctx) (v : Nat) : getG (modX s c f) v = getG s v := rfl
@[simp] theorem getC_modX (s : State) (c : BitVec 12) (f : Ctx → Ctx) (v : Nat) : getC (modX s c f) v = getC s v := rfl
@[simp] theorem getT_modX (s : State) (c : BitVec 12) (f : Ctx → Ctx) (v : Nat) : getT (modX s c f) v = getT s v := rfl
@[simp] theorem getDie_modX (s : State) (c : BitVec 12) (f : Ctx → Ctx) (v : Nat) : getDie (modX s c f) v = getDie s v := rfl
@[simp] theorem getLink_modX (s : State) (c : BitVec 12) (f : Ctx → Ctx) (v : Nat) : getLink (modX s c f) v = getLink s v := rfl
@[simp] theorem curG_modX (s : State) (c : BitVec 12) (f : Ctx → Ctx) : curG (modX s c f) = curG s := rfl
@[simp] theorem curF_modX (s : State) (c : BitVec 12) (f : Ctx → Ctx) : curF (modX s c f) = curF s := rfl
@[simp] theorem getG_modDie (s : State) (d : Nat) (f : Die → Die) (v : Nat) : getG (modDie s d f) v = getG s v := rfl
@[simp] theorem getC_modDie (s : State) (d : Nat) (f : Die → Die) (v : Nat) : getC (modDie s d f) v = getC s v := rfl
@[simp] theorem getT_modDie (s : State) (d : Nat) (f : Die → Die) (v : Nat) : getT (modDie s d f) v = getT s v := rfl
@[simp] theorem getX_modDie (s : State) (d : Nat) (f : Die → Die) (v : BitVec 12) : getX (modDie s d f) v = getX s v := rfl
@[simp] theorem getLink_modDie (s : State) (d : Nat) (f : Die → Die) (v : Nat) : getLink (modDie s d f) v = getLink s v := rfl
@[simp] theorem curG_modDie (s : State) (d : Nat) (f : Die → Die) : curG (modDie s d f) = curG s := rfl
@[simp] theorem curF_modDie (s : State) (d : Nat) (f : Die → Die) : curF (modDie s d f) = curF s := rfl
@[simp] theorem getG_modLink (s : State) (l : Nat) (f : Link → Link) (v : Nat) : getG (modLink s l f) v = getG s v := rfl
@[simp] theorem getC_modLink (s : State) (l : Nat) (f : Link → Link) (v : Nat) : getC (modLink s l f) v = getC s v := rfl
@[simp] theorem getT_modLink (s : State) (l : Nat) (f : Link → Link) (v : Nat) : getT (modLink s l f) v = getT s v := rfl
@[simp] theorem getX_modLink (s : State) (l : Nat) (f : Link → Link) (v : BitVec 12) : getX (modLink s l f) v = getX s v := rfl
@[simp] theorem getDie_modLink (s : State) (l : Nat) (f : Link → Link) (v : Nat) : getDie (modLink s l f) v = getDie s v := rfl
@[simp] theorem curG_modLink (s : State) (l : Nat) (f : Link → Link) : curG (modLink s l f) = curG s := rfl
@[simp] theorem curF_modLink (s : State) (l : Nat) (f : Link → Link) : curF (modLink s l f) = curF s := rfl
@[simp] theorem getG_modH (s : State) (f : Homes → Homes) (v : Nat) : getG (modH s f) v = getG s v := rfl
@[simp] theorem getC_modH (s : State) (f : Homes → Homes) (v : Nat) : getC (modH s f) v = getC s v := rfl
@[simp] theorem getT_modH (s : State) (f : Homes → Homes) (v : Nat) : getT (modH s f) v = getT s v := rfl
@[simp] theorem getX_modH (s : State) (f : Homes → Homes) (v : BitVec 12) : getX (modH s f) v = getX s v := rfl
@[simp] theorem getDie_modH (s : State) (f : Homes → Homes) (v : Nat) : getDie (modH s f) v = getDie s v := rfl
@[simp] theorem getLink_modH (s : State) (f : Homes → Homes) (v : Nat) : getLink (modH s f) v = getLink s v := rfl
@[simp] theorem curG_modH (s : State) (f : Homes → Homes) : curG (modH s f) = curG s := rfl
@[simp] theorem curF_modH (s : State) (f : Homes → Homes) : curF (modH s f) = curF s := rfl
@[simp] theorem getG_push (s : State) (e : Event) (v : Nat) : getG (push s e) v = getG s v := rfl
@[simp] theorem getC_push (s : State) (e : Event) (v : Nat) : getC (push s e) v = getC s v := rfl
@[simp] theorem getT_push (s : State) (e : Event) (v : Nat) : getT (push s e) v = getT s v := rfl
@[simp] theorem getX_push (s : State) (e : Event) (v : BitVec 12) : getX (push s e) v = getX s v := rfl
@[simp] theorem getDie_push (s : State) (e : Event) (v : Nat) : getDie (push s e) v = getDie s v := rfl
@[simp] theorem getLink_push (s : State) (e : Event) (v : Nat) : getLink (push s e) v = getLink s v := rfl
@[simp] theorem curG_push (s : State) (e : Event) : curG (push s e) = curG s := rfl
@[simp] theorem curF_push (s : State) (e : Event) : curF (push s e) = curF s := rfl
@[simp] theorem getG_pushAll (s : State) (es : List Event) (v : Nat) : getG (pushAll s es) v = getG s v := rfl
@[simp] theorem getC_pushAll (s : State) (es : List Event) (v : Nat) : getC (pushAll s es) v = getC s v := rfl
@[simp] theorem getT_pushAll (s : State) (es : List Event) (v : Nat) : getT (pushAll s es) v = getT s v := rfl
@[simp] theorem getX_pushAll (s : State) (es : List Event) (v : BitVec 12) : getX (pushAll s es) v = getX s v := rfl
@[simp] theorem getDie_pushAll (s : State) (es : List Event) (v : Nat) : getDie (pushAll s es) v = getDie s v := rfl
@[simp] theorem getLink_pushAll (s : State) (es : List Event) (v : Nat) : getLink (pushAll s es) v = getLink s v := rfl
@[simp] theorem curG_pushAll (s : State) (es : List Event) : curG (pushAll s es) = curG s := rfl
@[simp] theorem curF_pushAll (s : State) (es : List Event) : curF (pushAll s es) = curF s := rfl
@[simp] theorem getG_fresh (s : State)  (v : Nat) : getG ((fresh s).2) v = getG s v := rfl
@[simp] theorem getC_fresh (s : State)  (v : Nat) : getC ((fresh s).2) v = getC s v := rfl
@[simp] theorem getT_fresh (s : State)  (v : Nat) : getT ((fresh s).2) v = getT s v := rfl
@[simp] theorem getX_fresh (s : State)  (v : BitVec 12) : getX ((fresh s).2) v = getX s v := rfl
@[simp] theorem getDie_fresh (s : State)  (v : Nat) : getDie ((fresh s).2) v = getDie s v := rfl
@[simp] theorem getLink_fresh (s : State)  (v : Nat) : getLink ((fresh s).2) v = getLink s v := rfl
@[simp] theorem curG_fresh (s : State)  : curG ((fresh s).2) = curG s := rfl
@[simp] theorem curF_fresh (s : State)  : curF ((fresh s).2) = curF s := rfl
@[simp] theorem getG_addFault (s : State) (r : FaultRec) (v : Nat) : getG (addFault s r) v = getG s v := rfl
@[simp] theorem getC_addFault (s : State) (r : FaultRec) (v : Nat) : getC (addFault s r) v = getC s v := rfl
@[simp] theorem getT_addFault (s : State) (r : FaultRec) (v : Nat) : getT (addFault s r) v = getT s v := rfl
@[simp] theorem getDie_addFault (s : State) (r : FaultRec) (v : Nat) : getDie (addFault s r) v = getDie s v := rfl
@[simp] theorem getLink_addFault (s : State) (r : FaultRec) (v : Nat) : getLink (addFault s r) v = getLink s v := rfl
@[simp] theorem curG_addFault (s : State) (r : FaultRec) : curG (addFault s r) = curG s := rfl
@[simp] theorem curF_addFault (s : State) (r : FaultRec) : curF (addFault s r) = curF s := rfl

/-! Fields of a group that the updates of its split table leave unchanged. -/

@[simp] theorem setF_uid (g : Group) (k : Nat) (f : Split) : (setF g k f).uid = g.uid := rfl
@[simp] theorem modF_uid (g : Group) (k : Nat) (h : Split → Split) : (modF g k h).uid = g.uid := rfl
@[simp] theorem setF_ctx (g : Group) (k : Nat) (f : Split) : (setF g k f).ctx = g.ctx := rfl
@[simp] theorem modF_ctx (g : Group) (k : Nat) (h : Split → Split) : (modF g k h).ctx = g.ctx := rfl
@[simp] theorem setF_task (g : Group) (k : Nat) (f : Split) : (setF g k f).task = g.task := rfl
@[simp] theorem modF_task (g : Group) (k : Nat) (h : Split → Split) : (modF g k h).task = g.task := rfl
@[simp] theorem setF_disp (g : Group) (k : Nat) (f : Split) : (setF g k f).disp = g.disp := rfl
@[simp] theorem modF_disp (g : Group) (k : Nat) (h : Split → Split) : (modF g k h).disp = g.disp := rfl
@[simp] theorem setF_core (g : Group) (k : Nat) (f : Split) : (setF g k f).core = g.core := rfl
@[simp] theorem modF_core (g : Group) (k : Nat) (h : Split → Split) : (modF g k h).core = g.core := rfl
@[simp] theorem setF_slot (g : Group) (k : Nat) (f : Split) : (setF g k f).slot = g.slot := rfl
@[simp] theorem modF_slot (g : Group) (k : Nat) (h : Split → Split) : (modF g k h).slot = g.slot := rfl
@[simp] theorem setF_gid (g : Group) (k : Nat) (f : Split) : (setF g k f).gid = g.gid := rfl
@[simp] theorem modF_gid (g : Group) (k : Nat) (h : Split → Split) : (modF g k h).gid = g.gid := rfl
@[simp] theorem setF_ngrp (g : Group) (k : Nat) (f : Split) : (setF g k f).ngrp = g.ngrp := rfl
@[simp] theorem modF_ngrp (g : Group) (k : Nat) (h : Split → Split) : (modF g k h).ngrp = g.ngrp := rfl
@[simp] theorem setF_taskg (g : Group) (k : Nat) (f : Split) : (setF g k f).taskg = g.taskg := rfl
@[simp] theorem modF_taskg (g : Group) (k : Nat) (h : Split → Split) : (modF g k h).taskg = g.taskg := rfl
@[simp] theorem setF_role (g : Group) (k : Nat) (f : Split) : (setF g k f).role = g.role := rfl
@[simp] theorem modF_role (g : Group) (k : Nat) (h : Split → Split) : (modF g k h).role = g.role := rfl
@[simp] theorem setF_prio (g : Group) (k : Nat) (f : Split) : (setF g k f).prio = g.prio := rfl
@[simp] theorem modF_prio (g : Group) (k : Nat) (h : Split → Split) : (modF g k h).prio = g.prio := rfl
@[simp] theorem setF_nNames (g : Group) (k : Nat) (f : Split) : (setF g k f).nNames = g.nNames := rfl
@[simp] theorem modF_nNames (g : Group) (k : Nat) (h : Split → Split) : (modF g k h).nNames = g.nNames := rfl
@[simp] theorem setF_top (g : Group) (k : Nat) (f : Split) : (setF g k f).top = g.top := rfl
@[simp] theorem modF_top (g : Group) (k : Nat) (h : Split → Split) : (modF g k h).top = g.top := rfl
@[simp] theorem setF_scopes (g : Group) (k : Nat) (f : Split) : (setF g k f).scopes = g.scopes := rfl
@[simp] theorem modF_scopes (g : Group) (k : Nat) (h : Split → Split) : (modF g k h).scopes = g.scopes := rfl
@[simp] theorem setF_slots (g : Group) (k : Nat) (f : Split) : (setF g k f).slots = g.slots := rfl
@[simp] theorem modF_slots (g : Group) (k : Nat) (h : Split → Split) : (modF g k h).slots = g.slots := rfl
@[simp] theorem setF_gslot (g : Group) (k : Nat) (f : Split) : (setF g k f).gslot = g.gslot := rfl
@[simp] theorem modF_gslot (g : Group) (k : Nat) (h : Split → Split) : (modF g k h).gslot = g.gslot := rfl
@[simp] theorem setF_claim (g : Group) (k : Nat) (f : Split) : (setF g k f).claim = g.claim := rfl
@[simp] theorem modF_claim (g : Group) (k : Nat) (h : Split → Split) : (modF g k h).claim = g.claim := rfl
@[simp] theorem setF_s (g : Group) (k : Nat) (f : Split) : (setF g k f).s = g.s := rfl
@[simp] theorem modF_s (g : Group) (k : Nat) (h : Split → Split) : (modF g k h).s = g.s := rfl
@[simp] theorem setF_sEmpty (g : Group) (k : Nat) (f : Split) : (setF g k f).sEmpty = g.sEmpty := rfl
@[simp] theorem modF_sEmpty (g : Group) (k : Nat) (h : Split → Split) : (modF g k h).sEmpty = g.sEmpty := rfl
@[simp] theorem setF_swr (g : Group) (k : Nat) (f : Split) : (setF g k f).swr = g.swr := rfl
@[simp] theorem modF_swr (g : Group) (k : Nat) (h : Split → Split) : (modF g k h).swr = g.swr := rfl
@[simp] theorem setF_v (g : Group) (k : Nat) (f : Split) : (setF g k f).v = g.v := rfl
@[simp] theorem modF_v (g : Group) (k : Nat) (h : Split → Split) : (modF g k h).v = g.v := rfl
@[simp] theorem setF_vEmpty (g : Group) (k : Nat) (f : Split) : (setF g k f).vEmpty = g.vEmpty := rfl
@[simp] theorem modF_vEmpty (g : Group) (k : Nat) (h : Split → Split) : (modF g k h).vEmpty = g.vEmpty := rfl
@[simp] theorem setF_m (g : Group) (k : Nat) (f : Split) : (setF g k f).m = g.m := rfl
@[simp] theorem modF_m (g : Group) (k : Nat) (h : Split → Split) : (modF g k h).m = g.m := rfl
@[simp] theorem setF_c (g : Group) (k : Nat) (f : Split) : (setF g k f).c = g.c := rfl
@[simp] theorem modF_c (g : Group) (k : Nat) (h : Split → Split) : (modF g k h).c = g.c := rfl
@[simp] theorem setF_cEmpty (g : Group) (k : Nat) (f : Split) : (setF g k f).cEmpty = g.cEmpty := rfl
@[simp] theorem modF_cEmpty (g : Group) (k : Nat) (h : Split → Split) : (modF g k h).cEmpty = g.cEmpty := rfl
@[simp] theorem setF_ec (g : Group) (k : Nat) (f : Split) : (setF g k f).ec = g.ec := rfl
@[simp] theorem modF_ec (g : Group) (k : Nat) (h : Split → Split) : (modF g k h).ec = g.ec := rfl
@[simp] theorem setF_splitAge (g : Group) (k : Nat) (f : Split) : (setF g k f).splitAge = g.splitAge := rfl
@[simp] theorem modF_splitAge (g : Group) (k : Nat) (h : Split → Split) : (modF g k h).splitAge = g.splitAge := rfl
@[simp] theorem setF_xw (g : Group) (k : Nat) (f : Split) : (setF g k f).xw = g.xw := rfl
@[simp] theorem modF_xw (g : Group) (k : Nat) (h : Split → Split) : (modF g k h).xw = g.xw := rfl
@[simp] theorem setF_locks (g : Group) (k : Nat) (f : Split) : (setF g k f).locks = g.locks := rfl
@[simp] theorem modF_locks (g : Group) (k : Nat) (h : Split → Split) : (modF g k h).locks = g.locks := rfl
@[simp] theorem setF_team (g : Group) (k : Nat) (f : Split) : (setF g k f).team = g.team := rfl
@[simp] theorem modF_team (g : Group) (k : Nat) (h : Split → Split) : (modF g k h).team = g.team := rfl
@[simp] theorem setF_handler (g : Group) (k : Nat) (f : Split) : (setF g k f).handler = g.handler := rfl
@[simp] theorem modF_handler (g : Group) (k : Nat) (h : Split → Split) : (modF g k h).handler = g.handler := rfl
@[simp] theorem setF_latch (g : Group) (k : Nat) (f : Split) : (setF g k f).latch = g.latch := rfl
@[simp] theorem modF_latch (g : Group) (k : Nat) (h : Split → Split) : (modF g k h).latch = g.latch := rfl
@[simp] theorem setF_xcause (g : Group) (k : Nat) (f : Split) : (setF g k f).xcause = g.xcause := rfl
@[simp] theorem modF_xcause (g : Group) (k : Nat) (h : Split → Split) : (modF g k h).xcause = g.xcause := rfl
@[simp] theorem setF_xpc (g : Group) (k : Nat) (f : Split) : (setF g k f).xpc = g.xpc := rfl
@[simp] theorem modF_xpc (g : Group) (k : Nat) (h : Split → Split) : (modF g k h).xpc = g.xpc := rfl
@[simp] theorem setF_xinsn (g : Group) (k : Nat) (f : Split) : (setF g k f).xinsn = g.xinsn := rfl
@[simp] theorem modF_xinsn (g : Group) (k : Nat) (h : Split → Split) : (modF g k h).xinsn = g.xinsn := rfl
@[simp] theorem setF_xf0 (g : Group) (k : Nat) (f : Split) : (setF g k f).xf0 = g.xf0 := rfl
@[simp] theorem modF_xf0 (g : Group) (k : Nat) (h : Split → Split) : (modF g k h).xf0 = g.xf0 := rfl
@[simp] theorem setF_xf1 (g : Group) (k : Nat) (f : Split) : (setF g k f).xf1 = g.xf1 := rfl
@[simp] theorem modF_xf1 (g : Group) (k : Nat) (h : Split → Split) : (modF g k h).xf1 = g.xf1 := rfl
@[simp] theorem setF_xf2 (g : Group) (k : Nat) (f : Split) : (setF g k f).xf2 = g.xf2 := rfl
@[simp] theorem modF_xf2 (g : Group) (k : Nat) (h : Split → Split) : (modF g k h).xf2 = g.xf2 := rfl
@[simp] theorem setF_xf3 (g : Group) (k : Nat) (f : Split) : (setF g k f).xf3 = g.xf3 := rfl
@[simp] theorem modF_xf3 (g : Group) (k : Nat) (h : Split → Split) : (modF g k h).xf3 = g.xf3 := rfl
@[simp] theorem setF_xaddr (g : Group) (k : Nat) (f : Split) : (setF g k f).xaddr = g.xaddr := rfl
@[simp] theorem modF_xaddr (g : Group) (k : Nat) (h : Split → Split) : (modF g k h).xaddr = g.xaddr := rfl
@[simp] theorem setF_saving (g : Group) (k : Nat) (f : Split) : (setF g k f).saving = g.saving := rfl
@[simp] theorem modF_saving (g : Group) (k : Nat) (h : Split → Split) : (modF g k h).saving = g.saving := rfl
@[simp] theorem setF_restoring (g : Group) (k : Nat) (f : Split) : (setF g k f).restoring = g.restoring := rfl
@[simp] theorem modF_restoring (g : Group) (k : Nat) (h : Split → Split) : (modF g k h).restoring = g.restoring := rfl
@[simp] theorem setF_deferred (g : Group) (k : Nat) (f : Split) : (setF g k f).deferred = g.deferred := rfl
@[simp] theorem modF_deferred (g : Group) (k : Nat) (h : Split → Split) : (modF g k h).deferred = g.deferred := rfl
@[simp] theorem setF_ops (g : Group) (k : Nat) (f : Split) : (setF g k f).ops = g.ops := rfl
@[simp] theorem modF_ops (g : Group) (k : Nat) (h : Split → Split) : (modF g k h).ops = g.ops := rfl
@[simp] theorem setF_adm (g : Group) (k : Nat) (f : Split) : (setF g k f).adm = g.adm := rfl
@[simp] theorem modF_adm (g : Group) (k : Nat) (h : Split → Split) : (modF g k h).adm = g.adm := rfl
@[simp] theorem setF_ended (g : Group) (k : Nat) (f : Split) : (setF g k f).ended = g.ended := rfl
@[simp] theorem modF_ended (g : Group) (k : Nat) (h : Split → Split) : (modF g k h).ended = g.ended := rfl
@[simp] theorem setF_poisoned (g : Group) (k : Nat) (f : Split) : (setF g k f).poisoned = g.poisoned := rfl
@[simp] theorem modF_poisoned (g : Group) (k : Nat) (h : Split → Split) : (modF g k h).poisoned = g.poisoned := rfl
@[simp] theorem setF_late (g : Group) (k : Nat) (f : Split) : (setF g k f).late = g.late := rfl
@[simp] theorem modF_late (g : Group) (k : Nat) (h : Split → Split) : (modF g k h).late = g.late := rfl
@[simp] theorem setF_hold (g : Group) (k : Nat) (f : Split) : (setF g k f).hold = g.hold := rfl
@[simp] theorem modF_hold (g : Group) (k : Nat) (h : Split → Split) : (modF g k h).hold = g.hold := rfl
@[simp] theorem setF_marked (g : Group) (k : Nat) (f : Split) : (setF g k f).marked = g.marked := rfl
@[simp] theorem modF_marked (g : Group) (k : Nat) (h : Split → Split) : (modF g k h).marked = g.marked := rfl
@[simp] theorem setF_stuck (g : Group) (k : Nat) (f : Split) : (setF g k f).stuck = g.stuck := rfl
@[simp] theorem modF_stuck (g : Group) (k : Nat) (h : Split → Split) : (modF g k h).stuck = g.stuck := rfl
@[simp] theorem setF_pts (g : Group) (k : Nat) (f : Split) : (setF g k f).pts = g.pts := rfl
@[simp] theorem modF_pts (g : Group) (k : Nat) (h : Split → Split) : (modF g k h).pts = g.pts := rfl
@[simp] theorem setF_step (g : Group) (k : Nat) (f : Split) : (setF g k f).step = g.step := rfl
@[simp] theorem modF_step (g : Group) (k : Nat) (h : Split → Split) : (modF g k h).step = g.step := rfl
@[simp] theorem setF_skid (g : Group) (k : Nat) (f : Split) : (setF g k f).skid = g.skid := rfl
@[simp] theorem modF_skid (g : Group) (k : Nat) (h : Split → Split) : (modF g k h).skid = g.skid := rfl
@[simp] theorem setF_moved (g : Group) (k : Nat) (f : Split) : (setF g k f).moved = g.moved := rfl
@[simp] theorem modF_moved (g : Group) (k : Nat) (h : Split → Split) : (modF g k h).moved = g.moved := rfl

end Sys2Proof.Machine
end

