-- ==== Sys2Proof/Laws/Commit.lean ====
section
/-!
SUPPORT. How an instruction ends: what `commit`, `commitNext` and `advance` answer, and what reading and writing scalar registers
gives. Later proofs cite these and do not unfold the meanings' frame.
-/
namespace Sys2Proof.Machine

theorem commit_ok (i : Instr) (s t : State) : commit i s (.ok t) = .next t := rfl

theorem commit_error (i : Instr) (s : State) (e : Stop) :
    commit i s (.error e) = .next (stopped s (insnRegs (codeOf i) (curF s).pc (curG s) (curF s)) e) := rfl

theorem commitNext_ok (i : Instr) (s t : State) : commitNext i s (.ok t) = .next (advance i t) := rfl

theorem commitNext_error (i : Instr) (s : State) (e : Stop) :
    commitNext i s (.error e) = .next (stopped s (insnRegs (codeOf i) (curF s).pc (curG s) (curF s)) e) := rfl

/-- An instruction always answers a next state. -/
theorem commit_next (i : Instr) (s : State) (x : X State) : ∃ t, commit i s x = .next t := by
  cases x with
  | ok t => exact ⟨_, rfl⟩
  | error e => exact ⟨_, rfl⟩

theorem commitNext_next (i : Instr) (s : State) (x : X State) : ∃ t, commitNext i s x = .next t :=
  commit_next _ _ _

@[simp] theorem ok_bind {α β : Type} (a : α) (f : α → X β) : ((Except.ok a : X α) >>= f) = f a := rfl
@[simp] theorem error_bind {α β : Type} (e : Stop) (f : α → X β) : ((Except.error e : X α) >>= f) = .error e := rfl

theorem checkField_ok {i : Instr} (h : fieldCause i = none) : checkField i = .ok () := by simp [checkField, h]

theorem checkField_error {i : Instr} {c : Cause} (h : fieldCause i = some c) : checkField i = .error (.trap c 0 none) := by
  simp [checkField, h, trapX]

@[simp] theorem needX_true (c : Cause) : needX true c = .ok () := rfl
@[simp] theorem needX_false (c : Cause) : needX false c = .error (.trap c 0 none) := rfl
theorem needX_ok {b : Bool} (c : Cause) (h : b = true) : needX b c = .ok () := by subst h; rfl

theorem srcS_ok {g : Group} {r : BitVec 6} (b : Bool) (h : sIsEmpty g r = false) : srcS g r b = .ok (sReg g r) := by
  simp [srcS, h]

theorem srcS_bang {g : Group} {r : BitVec 6} (h : sIsEmpty g r = true) : srcS g r true = .error (.trap .regEmpty 0 none) := by
  simp [srcS, h, trapX]

theorem srcS_wait {g : Group} {r : BitVec 6} (h : sIsEmpty g r = true) :
    srcS g r false = .error (.wait (fillCond g true r)) := by simp [srcS, h]

theorem dstS_ok {g : Group} {r : BitVec 6} (h : sIsEmpty g r = false) : dstS g r = .ok () := by simp [dstS, h]

theorem srcC_ok {g : Group} {r : BitVec 4} (h : cIsEmpty g r = false) : srcC g r = .ok (cReg g r) := by simp [srcC, h]

/-! The issuing fragment moved past its instruction. -/

@[simp] theorem curG_advance (i : Instr) (s : State) : curG (advance i s) = modF (curG s) s.cur.entry (fun f =>
    { f with
      pc := f.pc + BitVec.ofNat 56 (codeOf i).len, redo := none, redoAt := f.redoAt.filter fun p => p.1 != f.pc, walked := [],
      rdy := cycleG s s.cur.uid, why := 0 }) := by
  simp [advance]

@[simp] theorem curF_advance (i : Instr) (s : State) : curF (advance i s) =
    { curF s with
      pc := (curF s).pc + BitVec.ofNat 56 (codeOf i).len, redo := none, redoAt := (curF s).redoAt.filter fun p => p.1 != (curF s).pc,
      walked := [], rdy := cycleG s s.cur.uid, why := 0 } := by
  simp [advance]

theorem getG_advance_ne (i : Instr) (s : State) (v : Nat) (h : v ≠ s.cur.uid) : getG (advance i s) v = getG s v := by
  simp [advance, modCurF, getG_modCur_ne _ _ _ h]

theorem getF_advance_ne (i : Instr) (s : State) (k : Nat) (h : k ≠ s.cur.entry) :
    getF (curG (advance i s)) k = getF (curG s) k := by
  simp [getF_modF_ne _ _ _ _ h]

theorem advance_groups (i : Instr) (s : State) : advance i s = { s with groups := (advance i s).groups } := rfl
theorem modCur_groups (s : State) (f : Group → Group) : modCur s f = { s with groups := (modCur s f).groups } := rfl
@[simp] theorem advance_cur (i : Instr) (s : State) : (advance i s).cur = s.cur := rfl
@[simp] theorem curG_jump (a : BitVec 56) (s : State) : curG (jump a s) = modF (curG s) s.cur.entry (fun f =>
    { f with pc := a, redo := none, walked := [], rdy := cycleG s s.cur.uid, why := 0 }) := by
  simp [jump]
@[simp] theorem curF_jump (a : BitVec 56) (s : State) : curF (jump a s) =
    { curF s with pc := a, redo := none, walked := [], rdy := cycleG s s.cur.uid, why := 0 } := by
  simp [jump]
theorem getG_jump_ne (a : BitVec 56) (s : State) (v : Nat) (h : v ≠ s.cur.uid) : getG (jump a s) v = getG s v := by
  simp [jump, modCurF, getG_modCur_ne _ _ _ h]
theorem jump_groups (a : BitVec 56) (s : State) : jump a s = { s with groups := (jump a s).groups } := rfl
@[simp] theorem jump_cur (a : BitVec 56) (s : State) : (jump a s).cur = s.cur := rfl

/-! Scalar registers. -/

theorem withBit_getLsbD {w : Nat} (x : BitVec w) (i j : Nat) (b : Bool) (hi : i < w) :
    (withBit x i b).getLsbD j = if j = i then b else x.getLsbD j := by
  have hp (k : Nat) : (BitVec.ofNat w (2 ^ i)).getLsbD k = (decide (k < w) && decide (i = k)) := by
    rw [BitVec.getLsbD_ofNat, Nat.testBit_two_pow]
  unfold withBit
  generalize BitVec.ofNat w (2 ^ i) = p at hp
  by_cases hj : j = i
  · subst hj
    cases b <;> simp [hp, hi]
  · have hij : ¬ i = j := fun h => hj h.symm
    have hpj : p.getLsbD j = false := by simp [hp, hij]
    cases b
    · by_cases hw : j < w
      · simp only [hj, if_false, Bool.false_eq_true, BitVec.getLsbD_and, BitVec.getLsbD_not, hpj, hw, decide_true, Bool.not_false,
          Bool.and_true]
      · simp [hj, hw, BitVec.getLsbD_of_ge x j (by omega)]
    · simp [hj, hpj]

theorem sReg_sPut (g : Group) (d r : BitVec 6) (v : DWord) :
    sReg (sPut g d v) r = if r = d ∧ d ≠ 0 then v else sReg g r := by
  unfold sPut
  by_cases hd : d = 0
  · rw [if_pos hd, if_neg (by tauto)]
  · rw [if_neg hd]
    by_cases hr : r = d
    · subst hr
      rw [if_pos ⟨rfl, hd⟩]
      exact (if_neg hd).trans (fget_fset_same _ _ _ _)
    · have : r.toNat ≠ d.toNat := fun h => hr (BitVec.toNat_inj.mp h)
      rw [if_neg (by tauto)]
      unfold sReg
      rw [fget_fset_ne _ _ _ _ _ this]

theorem sIsEmpty_sPut (g : Group) (d r : BitVec 6) (v : DWord) :
    sIsEmpty (sPut g d v) r = if r = d ∧ d ≠ 0 then false else sIsEmpty g r := by
  have hi : d.toNat < 64 := d.isLt
  unfold sPut
  by_cases hd : d = 0
  · rw [if_pos hd, if_neg (by tauto)]
  · rw [if_neg hd]
    unfold sIsEmpty
    rw [withBit_getLsbD _ _ _ _ hi]
    by_cases hr : r = d
    · subst hr; rw [if_pos rfl, if_pos ⟨rfl, hd⟩]
    · have : r.toNat ≠ d.toNat := fun h => hr (BitVec.toNat_inj.mp h)
      rw [if_neg this, if_neg (by tauto)]

/-- A scalar write changes the scalar registers, their empty bits and SWR, and nothing else. -/
theorem sPut_rest (g : Group) (d : BitVec 6) (v : DWord) :
    sPut g d v = { g with s := (sPut g d v).s, swr := (sPut g d v).swr, sEmpty := (sPut g d v).sEmpty } := by
  unfold sPut; split <;> rfl

@[simp] theorem sReg_modF (g : Group) (k : Nat) (h : Split → Split) (r : BitVec 6) : sReg (modF g k h) r = sReg g r := rfl
@[simp] theorem sIsEmpty_modF (g : Group) (k : Nat) (h : Split → Split) (r : BitVec 6) :
    sIsEmpty (modF g k h) r = sIsEmpty g r := rfl
@[simp] theorem getF_sPut (g : Group) (d : BitVec 6) (v : DWord) (k : Nat) : getF (sPut g d v) k = getF g k := by
  unfold sPut; split <;> rfl

/-- A register form that completes (R251). -/
theorem scalar2_next (i : Instr) (b2 b1 : BitVec 1) (ss2 ss1 sd : BitVec 6) (f : DWord → DWord → DWord) (s : State)
    (hi : fieldCause i = none) (h1 : sIsEmpty (curG s) ss1 = false) (h2 : sIsEmpty (curG s) ss2 = false)
    (hd : sIsEmpty (curG s) sd = false) :
    scalar2 i b2 b1 ss2 ss1 sd f s =
      .next (advance i (modCur s fun g => sPut g sd (f (sReg (curG s) ss1) (sReg (curG s) ss2)))) := by
  simp [scalar2, checkField_ok hi, srcS_ok _ h1, srcS_ok _ h2, dstS_ok hd, commitNext_ok]

/-- An immediate form that completes (R252). -/
theorem scalarImm_next (i : Instr) (sd : BitVec 6) (f : DWord → DWord) (s : State)
    (hi : fieldCause i = none) (hd : sIsEmpty (curG s) sd = false) :
    scalarImm i sd f s = .next (advance i (modCur s fun g => sPut g sd (f (sReg (curG s) sd)))) := by
  simp [scalarImm, checkField_ok hi, srcS_ok _ hd, commitNext_ok]

end Sys2Proof.Machine
end

