-- ==== Sys2Proof/WellFormed.lean ====
section
/-!
DEFINITION. What a well-formed instruction is: one whose field values pass the checks of R239 steps 2 to 4.
-/
namespace Sys2Proof

/-- The instruction passes every check of R239 steps 2 to 4. -/
abbrev Instr.WellFormed (i : Instr) : Prop := Machine.fieldCause i = none

end Sys2Proof
end

