-- ==== Sys2Proof/Safety.lean ====
section
/-!
DEFINITION. What counts as a safe run, and the invariants that statements name.
-/
namespace Sys2Proof

open Machine

/-- The byte stores of a state are in canonical form: memory, host memory, the peers' memory and every core's stash. -/
def Safety.BytesCanonical (s : State) : Prop :=
  Memory.wf s.homes.mem ∧ Memory.wf s.host ∧ Memory.wf s.peers ∧ ∀ c, Memory.wf (getC s c).stash

/-- The device goes on: a step answers a next state. -/
def Safety.GoesOn (s : State) : Prop := ∃ t, step s = .next t

/-- `n` steps lead from a state to another: no fault and no refusal is met. -/
def Safety.SafeRun : Nat → State → State → Prop
  | 0, s, t => t = s
  | n + 1, s, t => ∃ m, step s = .next m ∧ Safety.SafeRun n m t

end Sys2Proof
end

