-- ==== Sys2Proof/Certificates/Slice0/Obligations.lean ====
section
/-! DEFINITION. The statements for the provers. -/

namespace Sys2Proof.Claim
open Machine

/-- What holds of a value that is there. -/
def OnSome {α : Type} (o : Option α) (P : α → Prop) : Prop := ∀ x, o = some x → P x

/-! What an instruction leaves as it was. -/

/-- Every byte of device memory reads after as before: at its home, and as an agent with no pending store reads it. -/
def MemKept (s t : State) : Prop := ∀ a, memByte t a = memByte s a ∧ visByte t a = visByte s a

/-- The step changed the record of the issuing group, and nothing else: no byte of memory, no other group, no core, no task
register, no capability tag, no queue. -/
def OnlyGroup (s t : State) : Prop :=
  t = { s with groups := t.groups } ∧ (∀ u, u ≠ s.cur.uid → getG t u = getG s u) ∧ MemKept s t

/-- The issuing fragment stands at an address, with no restriction to some threads; the other fragments are as they were. -/
def At (s t : State) (pc : BitVec 56) : Prop :=
  (curF t).pc = pc ∧ (curF t).redo = none ∧ (curF t).mask = (curF s).mask ∧
    ∀ k, k ≠ s.cur.entry → getF (curG t) k = getF (curG s) k

/-- The fragment moved past an instruction of `n` bytes. -/
def Past (s t : State) (n : Nat) : Prop := At s t ((curF s).pc + BitVec.ofNat 56 n)

/-- R249: scalar register `sd` holds `v` (s0 still reads as zero), every other scalar register and every empty bit is as it was,
and so is all the rest of the group but its split table. -/
def ScalarWritten (s t : State) (sd : BitVec 6) (v : DWord) : Prop :=
  (∀ r, sReg (curG t) r = if r = sd ∧ sd ≠ 0 then v else sReg (curG s) r) ∧
  (∀ r, sIsEmpty (curG t) r = sIsEmpty (curG s) r) ∧
  curG t = { curG s with s := (curG t).s, swr := (curG t).swr, sEmpty := (curG t).sEmpty, split := (curG t).split }

/-- An instruction that only writes a scalar register. -/
def ScalarOnly (s t : State) (sd : BitVec 6) (v : DWord) : Prop :=
  OnlyGroup s t ∧ Past s t 4 ∧ ScalarWritten s t sd v

/-- None of the scalar registers is empty. -/
def Full (s : State) (l : List (BitVec 6)) : Prop := ∀ r ∈ l, sIsEmpty (curG s) r = false

/-! R251: what the register forms compute, on natural numbers and integers. -/

/-- The result as a 64-bit word of a natural number, and of an integer. -/
def wordN (x : Nat) : DWord := BitVec.ofNat 64 x
def wordZ (x : Int) : DWord := BitVec.ofInt 64 x

/-- R251: COND on two integers. -/
def holdsZ (c : BitVec 3) (x y : Int) : Bool :=
  match c.toNat with
  | 0 => decide (x = y)
  | 1 => decide (x ≠ y)
  | 2 => decide (x < y)
  | 3 => decide (x ≤ y)
  | 4 => decide (y < x)
  | _ => decide (y ≤ x)

/-- The value of a register as i64 or as n64. -/
def intOf (u : BitVec 1) (x : DWord) : Int := if u = 1 then (x.toNat : Int) else x.toInt

/-- The register forms: (ss1, ss2, sd, the value of sd). -/
def scalarForm (i : Instr) : Option (BitVec 6 × BitVec 6 × BitVec 6 × (DWord → DWord → DWord)) :=
  match i with
  | .sadd _ _ ss2 ss1 sd => some (ss1, ss2, sd, fun a b => wordN (a.toNat + b.toNat))
  | .ssub _ _ ss2 ss1 sd => some (ss1, ss2, sd, fun a b => wordZ (a.toInt - b.toInt))
  | .smul _ _ ss2 ss1 sd => some (ss1, ss2, sd, fun a b => wordN (a.toNat * b.toNat))
  | .sand _ _ ss2 ss1 sd => some (ss1, ss2, sd, fun a b => wordN (Nat.land a.toNat b.toNat))
  | .sor _ _ ss2 ss1 sd => some (ss1, ss2, sd, fun a b => wordN (Nat.lor a.toNat b.toNat))
  | .sxor _ _ ss2 ss1 sd => some (ss1, ss2, sd, fun a b => wordN (Nat.xor a.toNat b.toNat))
  | .smin u _ _ ss2 ss1 sd => some (ss1, ss2, sd, fun a b => wordZ (min (intOf u a) (intOf u b)))
  | .smax u _ _ ss2 ss1 sd => some (ss1, ss2, sd, fun a b => wordZ (max (intOf u a) (intOf u b)))
  | .sshl _ _ ss2 ss1 sd => some (ss1, ss2, sd, fun a b => wordN (a.toNat * 2 ^ (b.toNat % 64)))
  | .sshr _ _ ss2 ss1 sd => some (ss1, ss2, sd, fun a b => wordN (a.toNat / 2 ^ (b.toNat % 64)))
  | .ssra _ _ ss2 ss1 sd => some (ss1, ss2, sd, fun a b => wordZ (a.toInt / 2 ^ (b.toNat % 64)))
  | .smov _ ss1 sd => some (ss1, ss1, sd, fun a _ => a)
  | .scmp u _ _ ss2 ss1 sd c => some (ss1, ss2, sd, fun a b => if holdsZ c (intOf u a) (intOf u b) then 1 else 0)
  | _ => none

/-- IMM16 sign-extended (R252). -/
def sext (imm : BitVec 16) : Int := imm.toInt

/-- The immediate forms and `slih`, which read sd: (sd, its value). -/
def scalarImmForm (i : Instr) : Option (BitVec 6 × (DWord → DWord)) :=
  match i with
  | .saddImm imm sd => some (sd, fun a => wordZ (a.toInt + sext imm))
  | .sandImm imm sd => some (sd, fun a => wordN (Nat.land a.toNat (wordZ (sext imm)).toNat))
  | .sorImm imm sd => some (sd, fun a => wordN (Nat.lor a.toNat (wordZ (sext imm)).toNat))
  | .sxorImm imm sd => some (sd, fun a => wordN (Nat.xor a.toNat (wordZ (sext imm)).toNat))
  | .sshlImm n sd => some (sd, fun a => wordN (a.toNat * 2 ^ n.toNat))
  | .sshrImm n sd => some (sd, fun a => wordN (a.toNat / 2 ^ n.toNat))
  | .ssraImm n sd => some (sd, fun a => wordZ (a.toInt / 2 ^ n.toNat))
  | .smulImm imm sd => some (sd, fun a => wordZ (a.toInt * sext imm))
  | .sli imm sd => some (sd, fun _ => wordZ (sext imm))
  | .slih imm sd h => some (sd, fun a => wordN
      (a.toNat % 2 ^ (16 * h.toNat) + imm.toNat * 2 ^ (16 * h.toNat) +
        a.toNat / 2 ^ (16 * h.toNat + 16) * 2 ^ (16 * h.toNat + 16)))
  | _ => none

end Sys2Proof.Claim

open Sys2Proof Sys2Proof.Machine

/-- R249, R251: every register form and `smov` completes when none of its registers is empty: sd receives the value of the table, modulo
2^64, a write to s0 is discarded, and nothing else changes. Forms: sadd, ssub, smul, sand, sor, sxor, smin, smax, sshl, sshr, ssra, smov,
scmp. -/
def Obligations.ScalarRegisterForms : Prop :=
  ∀ (s : State) (i : Instr), i.WellFormed → Claim.OnSome (Claim.scalarForm i) fun (ss1, ss2, sd, f) => Claim.Full s [ss1, ss2, sd] →
    ∃ t, exec i s = .next t ∧ Claim.ScalarOnly s t sd (f (sReg (curG s) ss1) (sReg (curG s) ss2))

/-- Every immediate form of R252 and sli and slih completes when sd is not empty: sd receives the value of the table modulo 2^64, a write to
s0 is discarded, and nothing else changes but the PC. Forms: saddImm, sandImm, sorImm, sxorImm, sshlImm, sshrImm, ssraImm, smulImm, sli,
slih. -/
def Obligations.ScalarImmediateForms : Prop :=
  ∀ (s : State) (i : Instr), i.WellFormed → Claim.OnSome (Claim.scalarImmForm i) fun (sd, f) => Claim.Full s [sd] →
    ∃ t, exec i s = .next t ∧ Claim.ScalarOnly s t sd (f (sReg (curG s) sd))

namespace Sys2Proof.Claim
open Machine

/-! Vector instructions. -/

/-- R4, R50, R234: thread `k` is active under mask register `m`. -/
def Active (s : State) (m : Nat) (k : Nat) : Bool :=
  (curF s).mask.getLsbD k && (mReg (curG s) m).getLsbD k && (curF s).redo.all fun x => x.getLsbD k

/-- R164: the value of thread `k` of a name, or of the pair that begins at it, as a natural number. -/
def laneNat (g : Group) (r : Nat × Bool) (k : Nat) : Nat :=
  (vAt (vReg g r.1) k).toNat + if r.2 then 2 ^ 32 * (vAt (vReg g (r.1 + 1)) k).toNat else 0

/-- The names of operands: a name, or both names of a pair. -/
def namesOf (l : List (Nat × Bool)) : List Nat := l.flatMap fun r => if r.2 then [r.1, r.1 + 1] else [r.1]

/-- R164, R169: the names of operands are live, and a pair begins at an even name. -/
def Named (g : Group) (l : List (Nat × Bool)) : Prop :=
  (∀ r ∈ namesOf l, r < g.nNames ∧ r < g.top) ∧ ∀ r ∈ l, r.2 = true → r.1 % 2 = 0

/-- R188: no name of the operands is empty. -/
def Filled (g : Group) (l : List (Nat × Bool)) : Prop := ∀ r ∈ namesOf l, vIsEmpty g r = false

/-- R167, R169: operands that an instruction can use at once. -/
def Usable (g : Group) (l : List (Nat × Bool)) : Prop := Named g l ∧ Filled g l

/-- The active threads, ascending. -/
def activeList (s : State) (m : Nat) : List Nat := (List.range 32).filter (Active s m)

/-- R166: the code of the shape of a name after a write of a result whose shape is `shape`: as it was with no thread active, the
result's with all 32, else G. -/
def newShape (s : State) (m shape r : Nat) : Nat :=
  if activeList s m = [] then shapeCode (vReg (curG s) r) else if (activeList s m).length = 32 then shape else 2

/-- R170: the names of results that become G find free held slots, among them those that names give up which become U or A. -/
def Room (s : State) (m : Nat) (d : Nat × Bool) (shape : Nat) : Prop :=
  gNames (curG s) + ((namesOf [d]).filter fun r => newShape s m shape r == 2 && !holdsSlot (curG s) r).length ≤
    heldH (curG s) + ((namesOf [d]).filter fun r => newShape s m shape r != 2 && holdsSlot (curG s) r).length

/-- An instruction may have changed the issuing group and, as R217 says, FFLAGS of its task; nothing else. -/
def OnlyGroupFlags (s t : State) (fl : BitVec 6) : Prop :=
  t = { s with groups := t.groups, tasks := t.tasks } ∧ (∀ u, u ≠ s.cur.uid → getG t u = getG s u) ∧ MemKept s t ∧
  ∀ k, getT t k = if k = (curG s).task then { getT s k with fflags := (getT s k).fflags ||| fl } else getT s k

/-- R164 to R166: the destination holds the results of the active threads and keeps the others' values, in the shape that R166
gives; every other name, and all the rest of the group but its split table, is as it was. -/
def VectorWritten (s t : State) (m : Nat) (d : Nat × Bool) (shape : Nat) (res : Nat → Nat) : Prop :=
  (∀ k, k < 32 → laneNat (curG t) d k = if Active s m k then res k else laneNat (curG s) d k) ∧
  (∀ r ∈ namesOf [d], shapeCode (vReg (curG t) r) = newShape s m shape r) ∧
  (∀ r, r ∉ namesOf [d] → vReg (curG t) r = vReg (curG s) r) ∧
  curG t = { curG s with v := (curG t).v, gslot := (curG t).gslot, split := (curG t).split }

/-- The flags that the active threads raise. -/
def flagsOf (s : State) (m : Nat) (fl : Nat → BitVec 6) : BitVec 6 :=
  ((List.range 32).filter (Active s m)).foldl (fun x k => x ||| fl k) 0

/-- R165: the code of a result's shape from those of the sources' names: U with nothing but U, A where the instruction keeps it
(`keeps`), else G. -/
def shapeBy (keeps : List Nat → Bool) (l : List Nat) : Nat := if l.all (· == 0) then 0 else if keeps l then 1 else 2

/-- A vector operation of R274: its predicate, its sources with their block-or-trap bits, its destination, its length in bytes, the
names that its fields give, and each thread's result, from the sources' values by thread, with the flags that it raises; and the shape
of the result with every thread active, from the shapes of the sources' names. -/
structure LaneForm where
  m     : Nat
  srcs  : List (Nat × Bool)
  bang  : List (BitVec 1)
  dst   : Nat × Bool
  len   : Nat
  val   : Nat → List (Nat → Nat) → Nat × BitVec 6
  shape : List Nat → Nat := shapeBy fun _ => false
  names : List (Nat × Bool) := srcs ++ [dst]

/-- The shape of a form's result (R165). -/
def LaneForm.result (x : LaneForm) (s : State) : Nat := x.shape ((namesOf x.srcs).map fun r => shapeCode (vReg (curG s) r))

/-- What a lane operation leaves. -/
def LaneDone (s t : State) (x : LaneForm) : Prop :=
  let at_ (k : Nat) := x.val k (x.srcs.map (laneNat (curG s)))
  OnlyGroupFlags s t (flagsOf s x.m fun k => (at_ k).2) ∧ Past s t x.len ∧
    VectorWritten s t x.m x.dst (x.result s) fun k => (at_ k).1

/-- A lane operation completes whenever its operands can be used and its result finds room. -/
def LaneCompletes (form : Option LaneForm) (s : State) (i : Instr) : Prop :=
  i.WellFormed → OnSome form fun x =>
    Named (curG s) (x.names ++ x.srcs ++ [x.dst]) → Filled (curG s) (x.srcs ++ [x.dst]) → Room s x.m x.dst (x.result s) →
    ∃ t, exec i s = .next t ∧ LaneDone s t x

/-! Arithmetic on natural numbers below 2^n (R3, R277). -/

/-- The value as a signed number of n bits, and an integer brought to n bits. -/
def sgn (n x : Nat) : Int := if x < 2 ^ (n - 1) then x else (x : Int) - 2 ^ n
def bits (n : Nat) (z : Int) : Nat := (z % 2 ^ n).toNat

/-- A function of each thread's own operands. -/
def one (f : Nat → Nat) (k : Nat) (l : List (Nat → Nat)) : Nat × BitVec 6 := match l with | [a] => (f (a k), 0) | _ => (0, 0)
def two (f : Nat → Nat → Nat) (k : Nat) (l : List (Nat → Nat)) : Nat × BitVec 6 :=
  match l with | [a, b] => (f (a k) (b k), 0) | _ => (0, 0)
def three (f : Nat → Nat → Nat → Nat) (k : Nat) (l : List (Nat → Nat)) : Nat × BitVec 6 :=
  match l with | [a, b, c] => (f (a k) (b k) (c k), 0) | _ => (0, 0)

/-- A 32-bit form with two sources, a 64-bit one, and a 32-bit form with one source. -/
def wide32 (m : BitVec 2) (b : List (BitVec 1)) (vs1 vs2 vd : BitVec 6) (f : Nat → Nat → Nat) (keeps : List Nat → Bool := fun _ => false) :
    Option LaneForm :=
  some { m := m.toNat, srcs := [(vs1.toNat, false), (vs2.toNat, false)], bang := b, dst := (vd.toNat, false), len := 4, val := two f,
         shape := shapeBy keeps }
def wide64 (m : BitVec 2) (b : List (BitVec 1)) (vs1 vs2 vd : BitVec 6) (f : Nat → Nat → Nat) : Option LaneForm :=
  some { m := m.toNat, srcs := [(vs1.toNat, true), (vs2.toNat, true)], bang := b, dst := (vd.toNat, true), len := 4, val := two f }
def unary32 (m : BitVec 2) (b : BitVec 1) (vs1 vd : BitVec 6) (f : Nat → Nat) (keeps : List Nat → Bool := fun _ => false) :
    Option LaneForm :=
  some { m := m.toNat, srcs := [(vs1.toNat, false)], bang := [b], dst := (vd.toNat, false), len := 4, val := one f, shape := shapeBy keeps }
def unary64 (m : BitVec 2) (b : BitVec 1) (vs1 vd : BitVec 6) (f : Nat → Nat) : Option LaneForm :=
  some { m := m.toNat, srcs := [(vs1.toNat, true)], bang := [b], dst := (vd.toNat, true), len := 4, val := one f }
/-- R231: a compact form, with vd as its first source. -/
def compact (vs2 : BitVec 5) (vd : BitVec 6) (f : Nat → Nat → Nat) (keeps : List Nat → Bool := fun _ => false) : Option LaneForm :=
  some { m := 0, srcs := [(vd.toNat, false), (vs2.toNat, false)], bang := [0, 0], dst := (vd.toNat, false), len := 2, val := two f,
         shape := shapeBy keeps }

/-! R165: the instructions that keep shape A, by the codes of their sources: sums of U and A, products of one A and one U, a product with
an addend U or A, and an A moved left by a U. -/
def keepSum (l : List Nat) : Bool := l.all (· ≤ 1)
def keepMul (l : List Nat) : Bool := l == [1, 0] || l == [0, 1]
def keepMad (l : List Nat) : Bool := match l with | [x, y, z] => keepMul [x, y] && decide (z ≤ 1) | _ => false
def keepShl (l : List Nat) : Bool := l == [1, 0]

/-- R277: the operations on n bits. -/
def addB (n a b : Nat) : Nat := (a + b) % 2 ^ n
def subB (n a b : Nat) : Nat := bits n ((a : Int) - b)
def mulB (n a b : Nat) : Nat := a * b % 2 ^ n
def hiS (n a b : Nat) : Nat := bits n (sgn n a * sgn n b / 2 ^ n)
def hiU (n a b : Nat) : Nat := a * b / 2 ^ n
def minZ (n a b : Nat) : Nat := bits n (min (sgn n a) (sgn n b))
def maxZ (n a b : Nat) : Nat := bits n (max (sgn n a) (sgn n b))
def leftB (n a b : Nat) : Nat := a * 2 ^ (b % n) % 2 ^ n
def rightB (n a b : Nat) : Nat := a / 2 ^ (b % n)
def rightZ (n a b : Nat) : Nat := bits n (sgn n a / 2 ^ (b % n))

/-- R277: the 32-bit register forms. -/
def int32Form (i : Instr) : Option LaneForm :=
  match i with
  | .vadd m b2 b1 vs2 vs1 vd => wide32 m [b1, b2] vs1 vs2 vd (addB 32) keepSum
  | .vsub m b2 b1 vs2 vs1 vd => wide32 m [b1, b2] vs1 vs2 vd (subB 32) keepSum
  | .vmul m b2 b1 vs2 vs1 vd => wide32 m [b1, b2] vs1 vs2 vd (mulB 32) keepMul
  | .vmulhiI32 m b2 b1 vs2 vs1 vd => wide32 m [b1, b2] vs1 vs2 vd (hiS 32)
  | .vmulhiN32 m b2 b1 vs2 vs1 vd => wide32 m [b1, b2] vs1 vs2 vd (hiU 32)
  | .vminI32 m b2 b1 vs2 vs1 vd => wide32 m [b1, b2] vs1 vs2 vd (minZ 32)
  | .vmaxI32 m b2 b1 vs2 vs1 vd => wide32 m [b1, b2] vs1 vs2 vd (maxZ 32)
  | .vminN32 m b2 b1 vs2 vs1 vd => wide32 m [b1, b2] vs1 vs2 vd min
  | .vmaxN32 m b2 b1 vs2 vs1 vd => wide32 m [b1, b2] vs1 vs2 vd max
  | .vand m b2 b1 vs2 vs1 vd => wide32 m [b1, b2] vs1 vs2 vd Nat.land
  | .vor m b2 b1 vs2 vs1 vd => wide32 m [b1, b2] vs1 vs2 vd Nat.lor
  | .vxor m b2 b1 vs2 vs1 vd => wide32 m [b1, b2] vs1 vs2 vd Nat.xor
  | .vshl m b2 b1 vs2 vs1 vd => wide32 m [b1, b2] vs1 vs2 vd (leftB 32) keepShl
  | .vshr m b2 b1 vs2 vs1 vd => wide32 m [b1, b2] vs1 vs2 vd (rightB 32)
  | .vsra m b2 b1 vs2 vs1 vd => wide32 m [b1, b2] vs1 vs2 vd (rightZ 32)
  | .vmad m b2 b1 vs2 vs1 vd => some
      { m := m.toNat, srcs := [(vs1.toNat, false), (vs2.toNat, false), (vd.toNat, false)], bang := [b1, b2, 0],
        dst := (vd.toNat, false), len := 4, val := three fun a b c => (a * b + c) % 2 ^ 32, shape := shapeBy keepMad }
  | _ => none

/-- R231, R277: the compact integer forms. -/
def intCompactForm (i : Instr) : Option LaneForm :=
  match i with
  | .vadd16 vs2 vd => compact vs2 vd (addB 32) keepSum
  | .vsub16 vs2 vd => compact vs2 vd (subB 32) keepSum
  | .vmul16 vs2 vd => compact vs2 vd (mulB 32) keepMul
  | .vand16 vs2 vd => compact vs2 vd Nat.land
  | .vor16 vs2 vd => compact vs2 vd Nat.lor
  | .vxor16 vs2 vd => compact vs2 vd Nat.xor
  | .vshl16 vs2 vd => compact vs2 vd (leftB 32) keepShl
  | .vshr16 vs2 vd => compact vs2 vd (rightB 32)
  | .vsra16 vs2 vd => compact vs2 vd (rightZ 32)
  | .vminI3216 vs2 vd => compact vs2 vd (minZ 32)
  | .vmaxI3216 vs2 vd => compact vs2 vd (maxZ 32)
  | _ => none

/-- R275, R277: the 64-bit register forms. -/
def int64Form (i : Instr) : Option LaneForm :=
  match i with
  | .vaddB64 m b2 b1 vs2 vs1 vd => wide64 m [b1, b2] vs1 vs2 vd (addB 64)
  | .vsubB64 m b2 b1 vs2 vs1 vd => wide64 m [b1, b2] vs1 vs2 vd (subB 64)
  | .vmulB64 m b2 b1 vs2 vs1 vd => wide64 m [b1, b2] vs1 vs2 vd (mulB 64)
  | .vshlB64 m b2 b1 vs2 vs1 vd => wide64 m [b1, b2] vs1 vs2 vd (leftB 64)
  | .vshrB64 m b2 b1 vs2 vs1 vd => wide64 m [b1, b2] vs1 vs2 vd (rightB 64)
  | .vsraB64 m b2 b1 vs2 vs1 vd => wide64 m [b1, b2] vs1 vs2 vd (rightZ 64)
  | .vminI64 m b2 b1 vs2 vs1 vd => wide64 m [b1, b2] vs1 vs2 vd (minZ 64)
  | .vmaxI64 m b2 b1 vs2 vs1 vd => wide64 m [b1, b2] vs1 vs2 vd (maxZ 64)
  | .vandB64 m b2 b1 vs2 vs1 vd => wide64 m [b1, b2] vs1 vs2 vd Nat.land
  | .vorB64 m b2 b1 vs2 vs1 vd => wide64 m [b1, b2] vs1 vs2 vd Nat.lor
  | .vxorB64 m b2 b1 vs2 vs1 vd => wide64 m [b1, b2] vs1 vs2 vd Nat.xor
  | .vminN64 m b2 b1 vs2 vs1 vd => wide64 m [b1, b2] vs1 vs2 vd min
  | .vmaxN64 m b2 b1 vs2 vs1 vd => wide64 m [b1, b2] vs1 vs2 vd max
  | .vmulhiI64 m b2 b1 vs2 vs1 vd => wide64 m [b1, b2] vs1 vs2 vd (hiS 64)
  | .vmulhiN64 m b2 b1 vs2 vs1 vd => wide64 m [b1, b2] vs1 vs2 vd (hiU 64)
  | _ => none

/-- R278: the number of one bits, the leading zeros, and the bits in reverse. -/
def onesOf (a : Nat) : Nat := ((List.range 32).filter fun k => a.testBit k).length
def zerosOf (a : Nat) : Nat := if a = 0 then 32 else 31 - Nat.log2 a
def mirror (a : Nat) : Nat := ((List.range 32).map fun k => if a.testBit k then 2 ^ (31 - k) else 0).sum

/-- R278, R279: the forms with one vector source. -/
def unaryForm (i : Instr) : Option LaneForm :=
  match i with
  | .vnot m b vs1 vd => unary32 m b vs1 vd fun a => 2 ^ 32 - 1 - a
  | .vnegI32 m b vs1 vd => unary32 m b vs1 vd (fun a => bits 32 (-(a : Int))) keepSum
  | .vabsI32 m b vs1 vd => unary32 m b vs1 vd fun a => (sgn 32 a).natAbs
  | .vpopc m b vs1 vd => unary32 m b vs1 vd onesOf
  | .vclz m b vs1 vd => unary32 m b vs1 vd zerosOf
  | .vbrev m b vs1 vd => unary32 m b vs1 vd mirror
  | .vnegI64 m b vs1 vd => unary64 m b vs1 vd fun a => bits 64 (-(a : Int))
  | .vabsI64 m b vs1 vd => unary64 m b vs1 vd fun a => (sgn 64 a).natAbs
  | .vaddImm m b imm vs1 vd => unary32 m b vs1 vd (fun a => bits 32 ((a : Int) + imm.toInt)) keepSum
  | .vandImm m b imm vs1 vd => unary32 m b vs1 vd (fun a => Nat.land a (bits 32 imm.toInt))
  | .vshlImm m b n vs1 vd => unary32 m b vs1 vd (fun a => leftB 32 a n.toNat) keepSum
  | .vshrImm m b n vs1 vd => unary32 m b vs1 vd (fun a => rightB 32 a n.toNat)
  | .vsraImm m b n vs1 vd => unary32 m b vs1 vd (fun a => rightZ 32 a n.toNat)
  | _ => none

/-- R211, R277: an exact value clamped to a type, with SAT (bit 5) when it was. -/
def clamp (n : Nat) (lo hi : Int) (z : Int) : Nat × BitVec 6 :=
  if z < lo then (bits n lo, 0b100000) else if hi < z then (bits n hi, 0b100000) else (bits n z, 0)
def satS (n : Nat) (sub : Bool) (k : Nat) (l : List (Nat → Nat)) : Nat × BitVec 6 :=
  match l with
  | [a, b] => clamp n (-(2 ^ (n - 1))) (2 ^ (n - 1) - 1)
      (if sub then sgn n (a k) - sgn n (b k) else sgn n (a k) + sgn n (b k))
  | _ => (0, 0)
def satU (n : Nat) (sub : Bool) (k : Nat) (l : List (Nat → Nat)) : Nat × BitVec 6 :=
  match l with
  | [a, b] => clamp n 0 (2 ^ n - 1) (if sub then (a k : Int) - b k else a k + b k)
  | _ => (0, 0)
def satForm (i : Instr) : Option LaneForm :=
  let w (m : BitVec 2) (b : List (BitVec 1)) (vs1 vs2 vd : BitVec 6) (p : Bool) (f : Nat → List (Nat → Nat) → Nat × BitVec 6) :
      Option LaneForm :=
    some { m := m.toNat, srcs := [(vs1.toNat, p), (vs2.toNat, p)], bang := b, dst := (vd.toNat, p), len := 4, val := f }
  match i with
  | .vaddSatI32 m b2 b1 vs2 vs1 vd => w m [b1, b2] vs1 vs2 vd false (satS 32 false)
  | .vsubSatI32 m b2 b1 vs2 vs1 vd => w m [b1, b2] vs1 vs2 vd false (satS 32 true)
  | .vaddSatN32 m b2 b1 vs2 vs1 vd => w m [b1, b2] vs1 vs2 vd false (satU 32 false)
  | .vsubSatN32 m b2 b1 vs2 vs1 vd => w m [b1, b2] vs1 vs2 vd false (satU 32 true)
  | .vaddSatI64 m b2 b1 vs2 vs1 vd => w m [b1, b2] vs1 vs2 vd true (satS 64 false)
  | .vsubSatI64 m b2 b1 vs2 vs1 vd => w m [b1, b2] vs1 vs2 vd true (satS 64 true)
  | .vaddSatN64 m b2 b1 vs2 vs1 vd => w m [b1, b2] vs1 vs2 vd true (satU 64 false)
  | .vsubSatN64 m b2 b1 vs2 vs1 vd => w m [b1, b2] vs1 vs2 vd true (satU 64 true)
  | _ => none

/-- R216, R283 to R285: the float forms, on the values that the codes stand for: `p` says 64 bits. -/
def floatForm (s : State) (i : Instr) : Option LaneForm :=
  let f (p : Bool) : Fmt := if p then fmtF64 else fmtF32
  let w2 (m : Nat) (bb : List (BitVec 1)) (vs1 vs2 vd : Nat) (p : Bool) (len : Nat) (op : Fmt → Nat → Nat → Nat × BitVec 6) : Option LaneForm :=
    some { m, srcs := [(vs1, p), (vs2, p)], bang := bb, dst := (vd, p), len,
           val := fun k l => match l with
             | [a, b] => ((op (f p) (a k) (b k)).1 % 2 ^ (if p then 64 else 32), (op (f p) (a k) (b k)).2)
             | _ => (0, 0) }
  let w1 (m : Nat) (bb : BitVec 1) (vs1 vd : Nat) (p : Bool) (op : Fmt → Nat → Nat × BitVec 6) : Option LaneForm :=
    some { m, srcs := [(vs1, p)], bang := [bb], dst := (vd, p), len := 4,
           val := fun k l => match l with
             | [a] => ((op (f p) (a k)).1 % 2 ^ (if p then 64 else 32), (op (f p) (a k)).2)
             | _ => (0, 0) }
  let w3 (m : Nat) (bb : List (BitVec 1)) (vs1 vs2 vd : Nat) (p : Bool) (op : Fmt → Nat → Nat → Nat → Nat × BitVec 6) : Option LaneForm :=
    some { m, srcs := [(vs1, p), (vs2, p), (vd, p)], bang := bb, dst := (vd, p), len := 4,
           val := fun k l => match l with
             | [a, b, c] => ((op (f p) (a k) (b k) (c k)).1 % 2 ^ (if p then 64 else 32), (op (f p) (a k) (b k) (c k)).2)
             | _ => (0, 0) }
  let add (rm : BitVec 2) (f : Fmt) (a b : Nat) := fAdd f rm (fDecode f a) (fDecode f b)
  let sub (rm : BitVec 2) (f : Fmt) (a b : Nat) := fSub f rm (fDecode f a) (fDecode f b)
  let mul (rm : BitVec 2) (f : Fmt) (a b : Nat) := fMul f rm (fDecode f a) (fDecode f b)
  let div (rm : BitVec 2) (f : Fmt) (a b : Nat) := fDiv f rm (fDecode f a) (fDecode f b)
  let fma (rm : BitVec 2) (f : Fmt) (a b c : Nat) := fFma f rm (fDecode f a) (fDecode f b) (fDecode f c)
  let root (rm : BitVec 2) (f : Fmt) (a : Nat) := fSqrt f rm (fDecode f a)
  let mm (mx : Bool) (f : Fmt) (a b : Nat) := fMinMax f mx a b
  match i with
  | .vfaddF32 m b2 b1 b a d rm => w2 m.toNat [b1, b2] a.toNat b.toNat d.toNat false 4 (add rm)
  | .vfsubF32 m b2 b1 b a d rm => w2 m.toNat [b1, b2] a.toNat b.toNat d.toNat false 4 (sub rm)
  | .vfmulF32 m b2 b1 b a d rm => w2 m.toNat [b1, b2] a.toNat b.toNat d.toNat false 4 (mul rm)
  | .vfdivF32 m b2 b1 b a d rm => w2 m.toNat [b1, b2] a.toNat b.toNat d.toNat false 4 (div rm)
  | .vfmaF32 m b2 b1 b a d rm => w3 m.toNat [b1, b2, 0] a.toNat b.toNat d.toNat false (fma rm)
  | .vfsqrtF32 m b1 a d rm => w1 m.toNat b1 a.toNat d.toNat false (root rm)
  | .vfaddF64 m b2 b1 b a d rm => w2 m.toNat [b1, b2] a.toNat b.toNat d.toNat true 4 (add rm)
  | .vfsubF64 m b2 b1 b a d rm => w2 m.toNat [b1, b2] a.toNat b.toNat d.toNat true 4 (sub rm)
  | .vfmulF64 m b2 b1 b a d rm => w2 m.toNat [b1, b2] a.toNat b.toNat d.toNat true 4 (mul rm)
  | .vfdivF64 m b2 b1 b a d rm => w2 m.toNat [b1, b2] a.toNat b.toNat d.toNat true 4 (div rm)
  | .vfmaF64 m b2 b1 b a d rm => w3 m.toNat [b1, b2, 0] a.toNat b.toNat d.toNat true (fma rm)
  | .vfsqrtF64 m b1 a d rm => w1 m.toNat b1 a.toNat d.toNat true (root rm)
  | .vfminF32 m b2 b1 b a d => w2 m.toNat [b1, b2] a.toNat b.toNat d.toNat false 4 (mm false)
  | .vfmaxF32 m b2 b1 b a d => w2 m.toNat [b1, b2] a.toNat b.toNat d.toNat false 4 (mm true)
  | .vfminF64 m b2 b1 b a d => w2 m.toNat [b1, b2] a.toNat b.toNat d.toNat true 4 (mm false)
  | .vfmaxF64 m b2 b1 b a d => w2 m.toNat [b1, b2] a.toNat b.toNat d.toNat true 4 (mm true)
  | .vfrcpF32 m b1 a d => w1 m.toNat b1 a.toNat d.toNat false fun _ x => fApprox 0 s.rev x
  | .vfrsqF32 m b1 a d => w1 m.toNat b1 a.toNat d.toNat false fun _ x => fApprox 1 s.rev x
  | .vfexp2F32 m b1 a d => w1 m.toNat b1 a.toNat d.toNat false fun _ x => fApprox 2 s.rev x
  | .vflog2F32 m b1 a d => w1 m.toNat b1 a.toNat d.toNat false fun _ x => fApprox 3 s.rev x
  | .vfaddF3216 b d => w2 0 [0, 0] d.toNat b.toNat d.toNat false 2 (add 0)
  | .vfsubF3216 b d => w2 0 [0, 0] d.toNat b.toNat d.toNat false 2 (sub 0)
  | .vfmulF3216 b d => w2 0 [0, 0] d.toNat b.toNat d.toNat false 2 (mul 0)
  | .vfminF3216 b d => w2 0 [0, 0] d.toNat b.toNat d.toNat false 2 (mm false)
  | .vfmaxF3216 b d => w2 0 [0, 0] d.toNat b.toNat d.toNat false 2 (mm true)
  | _ => none

/-- R286, R237: the types of `vcvt`: an integer of n bits, unsigned or not, or a float. -/
inductive Ty where
  | int (n : Nat) (u : Bool)
  | flt (f : Fmt)

def tyOf (c : BitVec 4) : Option Ty :=
  match c.toNat with
  | 0 => some (.int 8 false) | 1 => some (.int 16 false) | 2 => some (.int 32 false) | 3 => some (.int 64 false)
  | 4 => some (.int 8 true) | 5 => some (.int 16 true) | 6 => some (.int 32 true) | 7 => some (.int 64 true)
  | 8 => some (.flt fmtF16) | 9 => some (.flt fmtBf16) | 10 => some (.flt fmtF32) | 11 => some (.flt fmtF64)
  | 12 => some (.flt fmtF8a) | 13 => some (.flt fmtF8b)
  | _ => none

/-- An integer of a type read from an operand's low bits, and written: brought to n bits, and extended to 32 when it is narrower. -/
def intIn (n : Nat) (u : Bool) (x : Nat) : Int := if u then (x % 2 ^ n : Nat) else sgn n (x % 2 ^ n)
def intOut (n : Nat) (u : Bool) (z : Int) : Nat := bits (max n 32) (intIn n u (bits n z))
/-- R211, R218: a conversion, with the flags of the functions of R214 to R218. -/
def convert (rm : BitVec 2) (src dst : Ty) (x : Nat) : Nat × BitVec 6 :=
  match src, dst with
  | .int n u, .int k w =>
    let z := intIn n u x
    if rm.getLsbD 0 then
      let (lo, hi) : Int × Int := if w then (0, 2 ^ k - 1) else (-(2 ^ (k - 1)), 2 ^ (k - 1) - 1)
      (intOut k w (max lo (min hi z)), if z < lo ∨ hi < z then 0b100000 else 0)
    else (intOut k w z, 0)
  | .int n u, .flt f => intToF f rm (intIn n u x)
  | .flt f, .int k w => let (z, fl) := fToInt rm k w (fDecode f x); (intOut k w z, fl)
  | .flt f, .flt h => let (y, fl) := fEncode h rm (fDecode f x); (y, fl ||| sigFlag [fDecode f x])

/-- R290: the width of a reduction's type, its step and its identity. -/
def redBits (ty : BitVec 3) : Nat := if ty = 2 ∨ ty = 3 ∨ ty = 5 then 64 else 32
def redFmt (ty : BitVec 3) : Fmt := if ty = 5 then fmtF64 else fmtF32
def redUnsigned (ty : BitVec 3) : Bool := ty == 1 || ty == 3
def fold1 (op : BitVec 4) (ty : BitVec 3) (rm : BitVec 2) (r x : Nat) : Nat × BitVec 6 :=
  let n := redBits ty
  let f := redFmt ty
  match op.toNat with
  | 0 => (addB n r x, 0)
  | 1 => (if redUnsigned ty then min r x else minZ n r x, 0)
  | 2 => (if redUnsigned ty then max r x else maxZ n r x, 0)
  | 3 => (Nat.land r x, 0)
  | 4 => (Nat.lor r x, 0)
  | 5 => (Nat.xor r x, 0)
  | 6 => fAdd f rm (fDecode f r) (fDecode f x)
  | 7 => fMinMax f false r x
  | _ => fMinMax f true r x
def fold0 (op : BitVec 4) (ty : BitVec 3) (rm : BitVec 2) : Nat :=
  let n := redBits ty
  match op.toNat with
  | 1 => if redUnsigned ty then 2 ^ n - 1 else 2 ^ (n - 1) - 1
  | 2 => if redUnsigned ty then 0 else 2 ^ (n - 1)
  | 3 => 2 ^ n - 1
  | 6 => if rm = 2 then 0 else 2 ^ (n - 1)
  | 7 => if n = 32 then 0x7F800000 else 0x7FF0000000000000
  | 8 => if n = 32 then 0xFF800000 else 0xFFF0000000000000
  | _ => 0

/-- R290: the value of a fold over threads in ascending order, with the flags. -/
def foldOver (op : BitVec 4) (ty : BitVec 3) (rm : BitVec 2) (val : Nat → Nat) (l : List Nat) : Nat × BitVec 6 :=
  l.foldl (fun r k => let x := fold1 op ty rm r.1 (val k); (x.1, r.2 ||| x.2)) (fold0 op ty rm, 0)

/-- R291: the key by which values are compared: an integer, or a float with −0 below +0. -/
def keyOf (ty : BitVec 2) (x : Nat) : Int :=
  match ty.toNat with
  | 0 => sgn 32 x
  | 1 => x
  | _ => if x < 2 ^ 31 then x else -(x - 2 ^ 31 : Int) - 1
def isNan32 (x : Nat) : Bool := 0x7F800000 < x % 2 ^ 31
/-- R291: the threads that take part, and the first of them with the least or the greatest key. -/
def idxOf (mx : Bool) (ty : BitVec 2) (val : Nat → Nat) (l : List Nat) : Nat × Nat :=
  let part := l.filter fun k => !(ty == 2 && isNan32 (val k))
  match part.find? fun k => part.all fun j => if mx then keyOf ty (val j) ≤ keyOf ty (val k) else keyOf ty (val k) ≤ keyOf ty (val j) with
  | some k => (val k, k)
  | none => (0x7FC00000, l.headD 0)

/-- R286: whether a type of `vcvt` is 64 bits wide. -/
def wideTy (c : BitVec 4) : Bool := c == 3 || c == 7 || c == 11

/-- R280 to R292, R350: the vector operations whose threads look at a mask, at their number or at one another, with the shapes of
their results (that of `vpln` is the model's reading, log 28). A form that a register's value makes trap (R282, R288) is left out
here: see `Obligations.RaisedCauses`. -/
def crossForm (s : State) (i : Instr) : Option LaneForm :=
  let g := curG s
  match i with
  | .vsel m b2 b1 b a d mk => some
      { m := m.toNat, srcs := [(a.toNat, false), (b.toNat, false)], bang := [b1, b2], dst := (d.toNat, false), len := 4,
        val := fun k l => match l with
          | [x, y] => (if (mReg g mk.toNat).getLsbD k then x k else y k, 0)
          | _ => (0, 0),
        shape := fun l => if mk = 0 then shapeBy (fun _ => false) l else 2 }
  | .vtix m d => some { m := m.toNat, srcs := [], bang := [], dst := (d.toNat, false), len := 4, val := fun k _ => (k, 0), shape := fun _ => 1 }
  | .vrdx m ss d => if sIsEmpty g ss then none else some
      { m := m.toNat, srcs := [((sReg g ss).toNat, false)], bang := [0], dst := (d.toNat, false), len := 4, val := one id,
        names := [(d.toNat, false)] }
  | .vwrx m b2 b ss => if sIsEmpty g ss then none else some
      { m := m.toNat, srcs := [(b.toNat, false)], bang := [b2], dst := ((sReg g ss).toNat, false), len := 4, val := one id,
        names := [(b.toNat, false)] }
  | .vcvt m b1 rm src dst a d => match tyOf src, tyOf dst with
    | some x, some y => if src = dst then none else some
      { m := m.toNat, srcs := [(a.toNat, wideTy src)], bang := [b1], dst := (d.toNat, wideTy dst), len := 4,
        val := fun k l => match l with
          | [v] => ((convert rm x y (v k)).1 % 2 ^ (if wideTy dst then 64 else 32), (convert rm x y (v k)).2)
          | _ => (0, 0) }
    | _, _ => none
  | .vshfl m b2 b1 b a d =>
    if (activeList s m.toNat).any fun k => 31 < laneNat g (b.toNat, false) k then none else some
      { m := m.toNat, srcs := [(a.toNat, false), (b.toNat, false)], bang := [b1, b2], dst := (d.toNat, false), len := 4,
        val := fun k l => match l with
          | [x, y] => (x (y k), 0)
          | _ => (0, 0),
        shape := fun l => if l.headD 2 = 0 then 0 else 2 }
  | .vred m b1 rm ty op a d => some
      { m := m.toNat, srcs := [(a.toNat, redBits ty == 64)], bang := [b1], dst := (d.toNat, redBits ty == 64), len := 4,
        val := fun _ l => match l with
          | [x] => let r := foldOver op ty rm x (activeList s m.toNat); (r.1 % 2 ^ redBits ty, r.2)
          | _ => (0, 0),
        shape := fun _ => 0 }
  | .vscan m b1 ex rm ty op a d => some
      { m := m.toNat, srcs := [(a.toNat, redBits ty == 64)], bang := [b1], dst := (d.toNat, redBits ty == 64), len := 4,
        val := fun k l => match l with
          | [x] =>
            let before := (activeList s m.toNat).filter fun j => decide (j < k)
            ((foldOver op ty rm x (if ex = 1 then before else before ++ [k])).1 % 2 ^ redBits ty, (foldOver op ty rm x (before ++ [k])).2)
          | _ => (0, 0),
        shape := fun _ => 2 }
  | .vminidx m b1 ty a d => some (idxForm m b1 a d false ty)
  | .vmaxidx m b1 ty a d => some (idxForm m b1 a d true ty)
  | .vpln m b1 b a d =>
    let high := decide (32 ≤ b.toNat)
    some
      { m := m.toNat, srcs := [(a.toNat + (if high then 1 else 0), false)], bang := [b1], dst := (d.toNat, false), len := 4,
        val := fun _ l => match l with
          | [x] => (((activeList s m.toNat).map fun k => if (x k).testBit (b.toNat % 32) then 2 ^ k else 0).sum, 0)
          | _ => (0, 0),
        shape := fun _ => 0, names := [(a.toNat, high), (d.toNat, false)] }
  | _ => none
where
  idxForm (m : BitVec 2) (b1 : BitVec 1) (a d : BitVec 6) (mx : Bool) (ty : BitVec 2) : LaneForm :=
    { m := m.toNat, srcs := [(a.toNat, false)], bang := [b1], dst := (d.toNat, true), len := 4,
      val := fun _ l => match l with
        | [x] =>
          let r := idxOf mx ty x (activeList s m.toNat)
          (r.1 + 2 ^ 32 * r.2, if ty = 2 then sigFlag ((activeList s m.toNat).map fun k => fDecode fmtF32 (x k)) else 0)
        | _ => (0, 0),
      shape := fun _ => 0 }

end Sys2Proof.Claim

open Sys2Proof Sys2Proof.Machine

/-- The 32-bit integer vector forms complete when their operands are usable and the destination has room: each active thread of the
destination receives the value of the table, other threads and every other name keep theirs, its shape is the one of R165 and R166, FFLAGS
takes exactly the flags raised, and nothing else changes but the PC. A result that becomes U or A needs no free slot. Forms: vadd, vsub,
vmul, vmulhiI32, vmulhiN32, vminI32, vmaxI32, vmad, vand, vor, vxor, vshl, vshr, vsra, vminN32, vmaxN32. -/
def Obligations.VectorInteger32Forms : Prop :=
  ∀ (s : State) (i : Instr), Claim.LaneCompletes (Claim.int32Form i) s i
/-- The 16-bit integer forms, whose destination is also the first source, complete as R231 gives: each thread of the fragment receives the
result in the shape of R165 and R166, the PC moves by 2, and nothing else changes. Forms: vadd16, vsub16, vmul16, vand16, vor16, vxor16,
vshl16, vshr16, vsra16, vminI3216, vmaxI3216. -/
def Obligations.VectorCompactForms : Prop :=
  ∀ (s : State) (i : Instr), Claim.LaneCompletes (Claim.intCompactForm i) s i
/-- The 64-bit integer vector forms complete on even pairs: the pair receives the 64-bit result for each active thread, each of its names in
the shape of R166, and nothing else changes but the PC. Forms: vaddB64, vsubB64, vmulB64, vshlB64, vshrB64, vsraB64, vminI64, vmaxI64,
vandB64, vorB64, vxorB64, vminN64, vmaxN64, vmulhiI64, vmulhiN64. -/
def Obligations.VectorInteger64Forms : Prop :=
  ∀ (s : State) (i : Instr), Claim.LaneCompletes (Claim.int64Form i) s i
/-- vnot, vneg, vabs, vpopc, vclz and vbrev, vneg and vabs of 64 bits, and the five forms with an immediate complete: each active thread
receives the value of its table, the destination has the shape of R165 and R166, and nothing else changes. Forms: vnot, vnegI32, vabsI32,
vpopc, vclz, vbrev, vnegI64, vabsI64, vaddImm, vandImm, vshlImm, vshrImm, vsraImm. -/
def Obligations.VectorUnaryForms : Prop :=
  ∀ (s : State) (i : Instr), Claim.LaneCompletes (Claim.unaryForm i) s i
/-- The saturating forms complete: each active thread receives the value clamped to its type, SAT is raised exactly when a value of an
active thread is clamped, the destination has the shape of R166, and nothing else changes. Forms: vaddSatI32, vsubSatI32, vaddSatN32,
vsubSatN32, vaddSatI64, vsubSatI64, vaddSatN64, vsubSatN64. -/
def Obligations.VectorSaturatingForms : Prop :=
  ∀ (s : State) (i : Instr), Claim.LaneCompletes (Claim.satForm i) s i
/-- The floating-point vector forms complete: each active thread receives fAdd, fSub, fMul, fDiv, fFma, fSqrt, fMinMax or fApprox of its
operands, FFLAGS takes the OR of the flags of the active threads and no other, the destination has the shape of R166, and nothing else
changes. What those functions give is FloatArithmetic's statement. For vfrcp, vfrsq, vfexp2 and vflog2 the value is free within its bound by
the model's choice of logs 5 and 17. Forms: vfaddF32, vfsubF32, vfmulF32, vfmaF32, vfdivF32, vfsqrtF32, vfaddF64, vfsubF64, vfmulF64,
vfmaF64, vfdivF64, vfsqrtF64, vfminF32, vfmaxF32, vfminF64, vfmaxF64, vfrcpF32, vfrsqF32, vfexp2F32, vflog2F32, vfaddF3216, vfsubF3216,
vfmulF3216, vfminF3216, vfmaxF3216. -/
def Obligations.VectorFloatForms : Prop :=
  ∀ (s : State) (i : Instr), Claim.LaneCompletes (Claim.floatForm s i) s i

/-- vshfl, vred, vscan, vminidx and vmaxidx, vsel, vtix, vrdx and vwrx, vcvt and vpln complete when their operands are usable and the
destination has room: each active thread receives the value of its rule in the shape of R166, and nothing else changes but the flags of vcvt
and of float reductions and the PC. That the word of vpln, the same for all 32 threads, is U is log 28. The traps of vshfl, vrdx, vwrx and
vcvt are RaisedCauses'. Forms: vsel, vtix, vrdx, vwrx, vcvt, vshfl, vred, vscan, vminidx, vmaxidx, vpln. -/
def Obligations.VectorCrossForms : Prop :=
  ∀ (s : State) (i : Instr), Claim.LaneCompletes (Claim.crossForm s i) s i

namespace Sys2Proof.Claim
open Machine

/-! Masks, comparisons, and scalars read from vectors and masks. -/

/-- Mask register `md` holds `v`; the others, and all the rest of the group but its split table, are as they were. -/
def MaskWritten (s t : State) (md : Nat) (v : Nat → Bool) : Prop :=
  (∀ k, k < 32 → (mReg (curG t) md).getLsbD k = v k) ∧ (∀ r, r ≠ md → mReg (curG t) r = mReg (curG s) r) ∧
  curG t = { curG s with m := (curG t).m, split := (curG t).split }

/-- R281: COND on integers, and on float codes of n bits whose infinity is `inf`: the integer that orders the codes, with −0 = +0. -/
def holdsF (n inf : Nat) (c : BitVec 3) (x y : Nat) : Bool :=
  let nan (v : Nat) : Bool := decide (inf < v % 2 ^ (n - 1))
  let ord (v : Nat) : Int := if v < 2 ^ (n - 1) then v else -((v : Int) - 2 ^ (n - 1))
  if nan x || nan y then c == 1 || c == 6
  else if c == 6 then false
  else if c == 7 then true
  else holdsZ c (ord x) (ord y)

/-- R281: NV, bit 4: a signalling NaN (its quiet bit is clear) under every condition, any NaN under lt, le, gt and ge. -/
def nvF (n inf quiet : Nat) (c : BitVec 3) (x y : Nat) : BitVec 6 :=
  let nan (v : Nat) : Bool := decide (inf < v % 2 ^ (n - 1))
  let sig (v : Nat) : Bool := nan v && !v.testBit quiet
  if sig x || sig y || ((nan x || nan y) && 2 ≤ c.toNat && c.toNat ≤ 5) then 0b010000 else 0

/-- R281: the comparisons: the sources with their pair mark, MD, the condition on two values, and the flags. -/
structure CompareForm where
  m     : Nat
  a     : Nat × Bool
  b     : Nat × Bool
  md    : Nat
  holds : Nat → Nat → Bool
  flags : Nat → Nat → BitVec 6

def compareForm (i : Instr) : Option CompareForm :=
  match i with
  | .vcmpI32 m _ _ b a c md => some ⟨m.toNat, (a.toNat, false), (b.toNat, false), md.toNat, fun x y => holdsZ c (sgn 32 x) (sgn 32 y), fun _ _ => 0⟩
  | .vcmpN32 m _ _ b a c md => some ⟨m.toNat, (a.toNat, false), (b.toNat, false), md.toNat, fun x y => holdsZ c x y, fun _ _ => 0⟩
  | .vcmpI64 m _ _ b a c md => some ⟨m.toNat, (a.toNat, true), (b.toNat, true), md.toNat, fun x y => holdsZ c (sgn 64 x) (sgn 64 y), fun _ _ => 0⟩
  | .vcmpN64 m _ _ b a c md => some ⟨m.toNat, (a.toNat, true), (b.toNat, true), md.toNat, fun x y => holdsZ c x y, fun _ _ => 0⟩
  | .vfcmpF32 m _ _ b a c md => some ⟨m.toNat, (a.toNat, false), (b.toNat, false), md.toNat, holdsF 32 0x7F800000 c, nvF 32 0x7F800000 22 c⟩
  | .vfcmpF64 m _ _ b a c md => some ⟨m.toNat, (a.toNat, true), (b.toNat, true), md.toNat, holdsF 64 0x7FF0000000000000 c, nvF 64 0x7FF0000000000000 51 c⟩
  | _ => none

/-- R295: the mask forms, by bit: MD and the value of a bit of it. -/
def maskForm (s : State) (i : Instr) : Option (Nat × (Nat → Bool)) :=
  let bit (r : BitVec 3) (k : Nat) : Bool := (mReg (curG s) r.toNat).getLsbD k
  match i with
  | .mand b a md => some (md.toNat, fun k => bit a k && bit b k)
  | .mor b a md => some (md.toNat, fun k => bit a k || bit b k)
  | .mnot a md => some (md.toNat, fun k => !bit a k)
  | _ => none

/-- R282, R295: the forms that write a scalar from a mask or a vector: the vector names that are read, those that must not
be empty, sd and its value. -/
def toScalarForm (s : State) (i : Instr) : Option (List Nat × List Nat × BitVec 6 × Nat) :=
  let g := curG s
  let on (m : BitVec 3) : List Nat := (List.range 32).filter fun k => (mReg g m.toNat).getLsbD k
  match i with
  | .mpopc a sd => some ([], [], sd, (on a).length)
  | .mfirst a sd => some ([], [], sd, (on a).headD 32)
  | .vshape a sd => some ([a.toNat], [], sd,
      (match vReg g a.toNat with | .u _ => 0 | .a _ _ => 1 | .g _ => 2) + (if vIsEmpty g a.toNat then 4 else 0))
  | _ => none

end Sys2Proof.Claim

open Sys2Proof Sys2Proof.Machine

/-- Every vector compare completes: bits of the mask destination at active threads become the result of the condition, other bits keep their
value, NV is raised as R213 and R281 give, and nothing else changes. Forms: vcmpI32, vcmpN32, vcmpI64, vcmpN64, vfcmpF32, vfcmpF64. -/
def Obligations.VectorCompareForms : Prop :=
  ∀ (s : State) (i : Instr), i.WellFormed → Claim.OnSome (Claim.compareForm i) fun x =>
    Claim.Usable (curG s) [x.a, x.b] →
    let va := Claim.laneNat (curG s) x.a
    let vb := Claim.laneNat (curG s) x.b
    ∃ t, exec i s = .next t ∧ Claim.OnlyGroupFlags s t (Claim.flagsOf s x.m fun k => x.flags (va k) (vb k)) ∧ Claim.Past s t 4 ∧
      Claim.MaskWritten s t x.md fun k =>
        if Claim.Active s x.m k then x.holds (va k) (vb k) else (mReg (curG s) x.md).getLsbD k

/-- mand, mor, mnot and the other mask forms complete: every bit of md is the stated function of the source bits, m0 reads as all ones, and
nothing else changes. Forms: mand, mor, mnot. -/
def Sys2Proof.Claim.MaskForms : Prop :=
  ∀ (s : State) (i : Instr), i.WellFormed → Claim.OnSome (Claim.maskForm s i) fun (md, v) =>
    ∃ t, exec i s = .next t ∧ Claim.OnlyGroup s t ∧ Claim.Past s t 4 ∧ Claim.MaskWritten s t md v

/-- mpopc gives the number of set bits, mfirst the lowest set bit or 32, vshape the shape code with the empty bit; sd alone changes. Forms:
vshape, mpopc, mfirst. -/
def Sys2Proof.Claim.ScalarFromMaskOrVector : Prop :=
  ∀ (s : State) (i : Instr), i.WellFormed → Claim.OnSome (Claim.toScalarForm s i) fun (names, full, sd, v) =>
    (∀ r ∈ names, r < (curG s).nNames ∧ r < (curG s).top) → (∀ r ∈ full, vIsEmpty (curG s) r = false) → Claim.Full s [sd] →
    ∃ t, exec i s = .next t ∧ Claim.ScalarOnly s t sd (BitVec.ofNat 64 v)

/-- R289: the word of `vballot` (layout V3, major 20, FUNC 1, VS2 and B2 zero), and its effect: sd := Σ (vs1(t) ≠ 0) × 2^t over the active
threads, bits 63:32 zero, 0 with no active thread; nothing else changes. Forms: vballot. -/
def Obligations.BallotInstruction : Prop :=
  ∀ (s : State) (m : BitVec 2) (b1 : BitVec 1) (vs1 sd : BitVec 6),
    let i : Instr := .vballot m b1 vs1 sd
    let v := ((Claim.activeList s m.toNat).map fun k => if Claim.laneNat (curG s) (vs1.toNat, false) k = 0 then 0 else 2 ^ k).sum
    encode i = some ⟨true, BitVec.ofNat 32
      (2 ^ 30 * m.toNat + 2 ^ 28 * b1.toNat + 2 ^ 16 * vs1.toNat + 2 ^ 10 * sd.toNat + 2 ^ 7 * 1 + 20 * 2 + 1)⟩ ∧
    v < 2 ^ 32 ∧ (Claim.activeList s m.toNat = [] → v = 0) ∧
    (vs1.toNat < (curG s).nNames → vs1.toNat < (curG s).top → vIsEmpty (curG s) vs1.toNat = false → Claim.Full s [sd] →
      ∃ t, exec i s = .next t ∧ Claim.ScalarOnly s t sd (BitVec.ofNat 64 v))

namespace Sys2Proof.Claim
open Machine

/-! Special registers (R238, R254 to R256). -/

/-- The value of a special register, as R255 and R256 place its bits. -/
def special (s : State) (n : Nat) : Nat :=
  let g := curG s
  let t := getT s g.task
  let c := getC s g.core
  let x := getX s g.ctx
  match n with
  | 0x00 => g.gid.toNat
  | 0x01 => g.ngrp.toNat
  | 0x02 => g.taskg.toNat
  | 0x03 => g.core
  | 0x04 => g.role.toNat
  | 0x05 => t.fflags.toNat
  | 0x06 => s.gtick.toNat
  | 0x07 => t.tvec.toNat
  | 0x08 => g.xcause.toNat
  | 0x09 => g.xpc.toNat
  | 0x0A => g.xinsn.toNat
  | 0x0B => g.xf0.toNat
  | 0x0C => g.xf1.toNat
  | 0x0D => g.xf2.toNat
  | 0x0E => g.xf3.toNat
  | 0x0F => g.xaddr.toNat
  | 0x10 => (c.stashG + 2 ^ 8 * c.regG + 2 ^ 16 * c.cacheG) % 2 ^ 32
  | 0x11 => (partstat s g.core).toNat
  | 0x12 => x.skey.toNat
  | 0x13 => x.xlease.toNat
  | 0x14 => x.cqbase.toNat
  | 0x15 => x.cqspill.toNat
  | 0x16 => c.lstale.toNat
  | 0x17 => (match s.part with | .sw4p => 4 | .sw4m => 4 | .sw2p => 2) + 2 ^ 3 * (g.core / 24) + (if s.part = .sw2p then 2 ^ 8 else 0) +
      (if s.part = .sw4m then 2 ^ 9 else 0) + 2 ^ 10 + 2 ^ 16 * s.rev.toNat + 2 ^ 24 * (if s.part = .sw2p then 48 else 96)
  | _ => 0

/-- R255: the defined bits of the registers that `sset` writes, none of a register that it does not. -/
def definedBits (n : Nat) : Nat :=
  match n with
  | 0x05 => 2 ^ 6 - 1
  | 0x07 => 2 ^ 56 - 2
  | 0x08 => 2 ^ 7 - 1
  | 0x09 => 2 ^ 56 - 2
  | 0x0A => 2 ^ 37 - 1
  | 0x0B => 2 ^ 64 - 1
  | 0x0C => 2 ^ 64 - 1
  | 0x0D => 2 ^ 64 - 1
  | 0x0E => 2 ^ 64 - 1
  | 0x0F => 2 ^ 56 - 1
  | 0x16 => 2 ^ 64 - 1
  | _ => 0

/-- The first source of a scalar register form, with its block-or-trap bit (R233). -/
def firstScalar (i : Instr) : Option (BitVec 6 × BitVec 1) :=
  match i with
  | .sadd _ b _ r _ => some (r, b)
  | .ssub _ b _ r _ => some (r, b)
  | .smul _ b _ r _ => some (r, b)
  | .sand _ b _ r _ => some (r, b)
  | .sor _ b _ r _ => some (r, b)
  | .sxor _ b _ r _ => some (r, b)
  | .smin _ _ b _ r _ => some (r, b)
  | .smax _ _ b _ r _ => some (r, b)
  | .sshl _ b _ r _ => some (r, b)
  | .sshr _ b _ r _ => some (r, b)
  | .ssra _ b _ r _ => some (r, b)
  | .scmp _ _ b _ r _ _ => some (r, b)
  | .smov b r _ => some (r, b)
  | _ => none

/-! Exceptions and suspension. -/

/-- The state in which instruction `i` has raised a precise cause, with the address that the cause's rule names, and XF1 where the
rule says so: what `takePrecise` makes of the state before the instruction. -/
def raised (s : State) (i : Instr) (c : Cause) (addr : BitVec 56) (xf1 : Option DWord) : State :=
  let r := insnRegs (codeOf i) (curF s).pc (curG s) (curF s)
  takePrecise s c { r with xaddr := addr, xf1 := xf1.getD r.xf1 } none none

/-- R355: the cause's bit of DLGMASK is 1, the cause is not fixed to firmware, and TVEC is not 0. -/
def Delegated (s : State) (c : Cause) : Prop :=
  (getX s (curG s).ctx).dlgmask.getLsbD (causeCode c) = true ∧ causeFixed c = false ∧ (getT s (curG s).task).tvec ≠ 0

/-- XPC and the registers that a precise cause loads are those of a record; XF0 of a code 0x30 to 0x3F holds the unfinished threads. -/
def LoadedRest (g : Group) (c : Cause) (pc : BitVec 56) (r : TrapRegs) (mask : Word) : Prop :=
  g.xpc = pc ∧ g.xinsn = r.xinsn ∧ g.xf1 = r.xf1 ∧ g.xf2 = r.xf2 ∧ g.xf3 = r.xf3 ∧ g.xaddr = r.xaddr ∧
    g.xf0 = if 0x30 ≤ causeCode c ∧ causeCode c ≤ 0x3F ∧ r.xinsn ≠ 0 then BitVec.ofNat 64 (2 ^ 32 * (r.xf0.toNat / 2 ^ 32) + mask.toNat)
      else r.xf0

/-- XCAUSE holds the cause, and the other exception registers are loaded. -/
def Loaded (g : Group) (c : Cause) (pc : BitVec 56) (r : TrapRegs) (mask : Word) : Prop :=
  g.xcause.toNat = causeCode c ∧ LoadedRest g c pc r mask

/-- The exception registers are as they were. -/
def TrapRegsKept (g h : Group) : Prop :=
  h.xcause = g.xcause ∧ h.xpc = g.xpc ∧ h.xinsn = g.xinsn ∧ h.xf0 = g.xf0 ∧ h.xf1 = g.xf1 ∧ h.xf2 = g.xf2 ∧ h.xf3 = g.xf3 ∧
    h.xaddr = g.xaddr

/-- The scalar, vector, mask and capability registers with their empty bits, and the event counters, are as they were. -/
def RegsKept (g h : Group) : Prop :=
  h.s = g.s ∧ h.sEmpty = g.sEmpty ∧ h.v = g.v ∧ h.vEmpty = g.vEmpty ∧ h.m = g.m ∧ h.c = g.c ∧ h.cEmpty = g.cEmpty ∧ h.ec = g.ec ∧
    h.top = g.top ∧ h.scopes = g.scopes ∧ h.locks = g.locks

/-- R356: the fragment is in the user handler, with the registers loaded: the rest of the group, but for a restriction that is
latched, and all the rest of the device is as it was. -/
def InHandler (s t : State) (c : Cause) (r : TrapRegs) (mask : Word) : Prop :=
  OnlyGroup s t ∧ At s t (getT s (curG s).task).tvec ∧ Loaded (curG t) c (curF s).pc r mask ∧
  curG t = { curG s with
    handler := some s.cur.entry, latch := (curG t).latch, xcause := (curG t).xcause, xpc := (curG t).xpc, xinsn := (curG t).xinsn,
    xf0 := (curG t).xf0, xf1 := (curG t).xf1, xf2 := (curG t).xf2, xf3 := (curG t).xf3, xaddr := (curG t).xaddr,
    split := (curG t).split }

/-- R189, R190: the issuing fragment has deposited a record at its PC, with a condition and a mask: the last of the device's records,
or, with no unit for it or while a capability register is empty, kept by the group. Its split entry has the given ST. No register
has changed, and no memory unless the record cache was full. -/
def Deposited (s t : State) (cond : Cond) (mask : Word) (st : BitVec 2) : Prop :=
  (∃ r : Record, ((∃ l, t.records = l ++ [r] ∧ l.length = s.records.length) ∨ (t.records.length = s.records.length ∧ r ∈ (curG t).stuck)) ∧
    r.uid = s.cur.uid ∧ r.frag = s.cur.entry ∧ r.ctx = (curG s).ctx ∧ r.pc = (curF s).pc ∧ r.mask = mask ∧ r.cond = cond ∧
    r.ready = false ∧ r.owner = (curG s).core ∧ r.prio = (curG s).prio ∧
    (r.body = true ↔ (curG s).slot ≠ none ∧ (curG s).stuck = [] ∧ ∀ k, k < 8 → k ≠ s.cur.entry → ¬((getF (curG s) k).valid = true ∧ (getF (curG s) k).st = 0))) ∧
  (curF t).st = st ∧ (curF t).pc = (curF s).pc ∧ (curF t).mask = (curF s).mask ∧
  (∀ k, k ≠ s.cur.entry → getF (curG t) k = getF (curG s) k) ∧ RegsKept (curG s) (curG t) ∧
  ((s.records.filter fun r => r.owner == (curG s).core && r.place.cached).length < 64 → MemKept s t)

/-- A register that an outstanding operation will write. -/
def destines (o : Op) (scalar : Bool) (n : BitVec 6) : Bool :=
  match o.dst with
  | .vec r => !scalar && r == n
  | .pair r => !scalar && (r == n || r + 1 == n)
  | .scalar r => scalar && r == n
  | _ => false

/-- R188, R146: what a reader of an empty register waits for: the lock whose acquire or try gives that register its status, or behind
whose acquire the operation that will write it is held; else the fill of the register. -/
def ReaderWaits (g : Group) (scalar : Bool) (n : BitVec 6) (c : Cond) : Prop :=
  let status (l : LockEnt) : Prop := scalar = true ∧ l.granted = false ∧ l.sd = n
  (∃ l ∈ g.locks, c = .lockWait l.line ∧ l.granted = false ∧ (status l ∨ ((∀ k ∈ g.locks, ¬status k) ∧
    ∃ o ∈ g.ops, o.held = true ∧ destines o scalar n = true ∧ l.op < o.seq))) ∨
  (c = .regFill scalar n ∧ (∀ k ∈ g.locks, ¬status k) ∧
    OnSome (g.ops.find? fun o => destines o scalar n && o.held) fun o => ∀ l ∈ g.locks, l.granted = false → o.seq ≤ l.op)

/-- R188: the fragment has suspended at its PC on an empty register. -/
def SuspendedOn (s t : State) (scalar : Bool) (n : BitVec 6) : Prop :=
  ∃ c, ReaderWaits (curG s) scalar n c ∧ Deposited s t c (curF s).mask 2

/-- R361, R50: the context's queue of fault records has received one with these fields; it names the group while that has a slot. -/
def Reported (s t : State) (c : Cause) (addr : Nat) (arg : Word) (acc : Option AccKind) : Prop :=
  ∃ (fr : FaultRec) (tail : List FaultRec), (getX t (curG s).ctx).faults = (getX s (curG s).ctx).faults ++ fr :: tail ∧
    fr.tick = s.gtick ∧ fr.code = c ∧ fr.defr = false ∧ fr.ctx = (curG s).ctx ∧ fr.core = (curG s).core ∧
    fr.slot = (curG s).slot.getD 0 ∧ fr.gv = (curG s).slot.isSome ∧ fr.gid = (if (curG s).slot.isSome then (curG s).gid else 0) ∧
    fr.addr = addr ∧ fr.arg = arg ∧ fr.acc = acc

/-- R359: the condition of the record of a parked cause. -/
def parkedOn (c : Cause) : Cond := match c with | .encBrk => .debug 0 | .dbgStep => .debug 0 | c => .faultRes c

/-! The operands of vector instructions (R239 step 5). -/

/-- A vector operation of R274 to R291. -/
def laneForm (s : State) (i : Instr) : Option LaneForm :=
  (int32Form i).or ((intCompactForm i).or ((int64Form i).or ((unaryForm i).or ((satForm i).or ((floatForm s i).or (crossForm s i))))))

/-- The names that the fields of a vector instruction give, each with whether it begins a pair. Forms that a register's value makes
trap are among them. -/
def staticNames (i : Instr) : Option (List (Nat × Bool)) :=
  match i with
  | .vrdx _ _ d => some [(d.toNat, false)]
  | .vwrx _ _ b _ => some [(b.toNat, false)]
  | .vshfl _ _ _ b a d => some [(a.toNat, false), (b.toNat, false), (d.toNat, false)]
  | .vcvt _ _ _ x y a d => some [(a.toNat, wideTy x), (d.toNat, wideTy y)]
  | .vballot _ _ a _ => some [(a.toNat, false)]
  | .vshape a _ => some [(a.toNat, false)]
  | .vqnt _ _ _ a d => some [(a.toNat, true), (d.toNat, false)]
  | .xshf _ _ _ a d => some [(a.toNat, false), (d.toNat, false)]
  | i => ((laneForm State.reset i).map fun x => x.names).or ((compareForm i).map fun x => [x.a, x.b])

/-- R169, R164, R239 step 5: the cause of a list of names: the first that is not live, then an odd pair, then the odd names of pairs. The
order among them is the model's choice (log 10). -/
def nameFault (g : Group) (l : List (Nat × Bool)) : Option Cause :=
  let live (r : Nat) : Option Cause := if g.nNames ≤ r then some .regName else if g.top ≤ r then some .regDead else none
  (l.findSome? fun p => live p.1).or <|
    (l.findSome? fun p => if p.2 ∧ p.1 % 2 = 1 then some .regPair else none).or <|
    l.findSome? fun p => if p.2 then live (p.1 + 1) else none

/-- R282: the scalar that gives the name of `vrdx` and `vwrx`; R286: the types of `vcvt`; R288: the predicate, the thread numbers and
the names of `vshfl`. -/
def indexOf (i : Instr) : Option (BitVec 6) := match i with | .vrdx _ ss _ => some ss | .vwrx _ _ _ ss => some ss | _ => none
def typesOf (i : Instr) : Option (BitVec 4 × BitVec 4) := match i with | .vcvt _ _ _ x y _ _ => some (x, y) | _ => none
def shuffleOf (i : Instr) : Option (Nat × Nat × List Nat) :=
  match i with | .vshfl m _ _ b a d => some (m.toNat, b.toNat, [a.toNat, b.toNat, d.toNat]) | _ => none

/-- R233, R188: the names whose being empty stops a vector instruction, in their order: the sources, each with its block-or-trap bit, and
the destination, which always waits. -/
def waitsOf (s : State) (i : Instr) : Option (List (Nat × BitVec 1)) :=
  let src (p : (Nat × Bool) × BitVec 1) : List (Nat × BitVec 1) := (namesOf [p.1]).map fun r => (r, p.2)
  match i with
  | .vcmpI32 _ b2 b1 b a _ _ | .vcmpN32 _ b2 b1 b a _ _ | .vfcmpF32 _ b2 b1 b a _ _ => some [(a.toNat, b1), (b.toNat, b2)]
  | .vcmpI64 _ b2 b1 b a _ _ | .vcmpN64 _ b2 b1 b a _ _ | .vfcmpF64 _ b2 b1 b a _ _ =>
    some [(a.toNat, b1), (a.toNat + 1, b1), (b.toNat, b2), (b.toNat + 1, b2)]
  | .vballot _ b1 a _ => some [(a.toNat, b1)]
  | .vqnt _ b1 _ a _ => some [(a.toNat, b1), (a.toNat + 1, b1)]
  | .xshf _ b1 _ a _ => some [(a.toNat, b1)]
  | .vshfl _ b2 b1 b a d => some [(a.toNat, b1), (b.toNat, b2), (d.toNat, 0)]
  | i => (laneForm s i).bind fun x =>
    if (namesOf (x.srcs ++ [x.dst])).all fun r => decide (r < (curG s).nNames ∧ r < (curG s).top)
    then some ((x.srcs.zip x.bang).flatMap src ++ (namesOf [x.dst]).map fun r => (r, 0)) else none

end Sys2Proof.Claim

open Sys2Proof Sys2Proof.Machine

/-- sget of every assigned number completes and sd receives the register as R255 and R256 place its bits; nothing else changes. The CAPS
revision and the values that firmware sets are the model's choice at reset (log 4). Forms: sget. -/
def Sys2Proof.Claim.SpecialRegisterRead : Prop :=
  ∀ (s : State) (n : BitVec 16) (sd : BitVec 6), (Instr.sget n sd).WellFormed → Claim.Full s [sd] →
    ∃ t, exec (.sget n sd) s = .next t ∧ Claim.ScalarOnly s t sd (BitVec.ofNat 64 (Claim.special s n.toNat))

/-- sset of every writable number completes: that register holds the defined bits of the source, every other special register and all
registers and memory are as before. Forms: sset. -/
def Sys2Proof.Claim.SpecialRegisterWrite : Prop :=
  ∀ (s : State) (n : BitVec 16) (ss : BitVec 6), (Instr.sset n ss).WellFormed → Claim.Full s [ss] →
    ∃ t, exec (.sset n ss) s = .next t ∧ Claim.Past s t 4 ∧
      (∀ k, k < 24 → Claim.special t k =
        if k = n.toNat then Nat.land (sReg (curG s) ss).toNat (Claim.definedBits k) else Claim.special s k) ∧
      Claim.RegsKept (curG s) (curG t) ∧ Claim.MemKept s t ∧ t = { s with groups := t.groups, tasks := t.tasks, cores := t.cores } ∧
      (∀ u, u ≠ s.cur.uid → getG t u = getG s u) ∧
      (∀ k, getT t k = { getT s k with fflags := (getT t k).fflags, tvec := (getT t k).tvec } ∧
        (k ≠ (curG s).task → getT t k = getT s k)) ∧
      (∀ k, getC t k = { getC s k with lstale := (getC t k).lstale } ∧ (k ≠ (curG s).core → getC t k = getC s k))

/-- Where the first source of a scalar register form is empty, the instruction takes REG_EMPTY if its block-or-trap bit is 1, else the
fragment deposits a record at the same PC that waits for that register, or, where it is the status of an acquire of that group, for the line
of that acquire. Forms: sadd, ssub, smul, sand, sor, sxor, smin, smax, sshl, sshr, ssra, smov, scmp. -/
def Obligations.EmptyScalarSource : Prop :=
  ∀ (s : State) (i : Instr), i.WellFormed → Claim.OnSome (Claim.firstScalar i) fun (r, b) =>
    sIsEmpty (curG s) r = true →
    if b = 1 then exec i s = .next (Claim.raised s i .regEmpty 0 none)
    else ∃ t, exec i s = .next t ∧ Claim.SuspendedOn s t true r

/-- Outside handler state a delegated cause enters the user handler: the registers of R241 are loaded, XF0 bits 31:0 take the unfinished
mask for translation causes, the PC becomes TVEC. Any other cause parks the fragment in a record and reports a fault record, loading the
registers. In handler state a delegated cause becomes ENC_NEST or EXC_NEST, which parks likewise. The mask for XLT_HOSTATOM follows log 32;
ARG is 0 for causes that R361 does not list by log 63, the access kind beside the record is log 70, and hold number 0 in the record of
ENC_BRK and DBG_STEP is log 102. -/
def Obligations.TakingAnException : Prop :=
  ∀ (s : State) (c : Cause) (r : TrapRegs) (unf : Option Word) (acc : Option AccKind),
    let t := takePrecise s c r unf acc
    let only : Word := (curF s).redo.getD 0xFFFFFFFF
    let left : Word := if causeXlt c then unf.getD ((curF s).mask &&& only) else BitVec.truncate 32 r.xf2 &&& only
    let mask : Word := if causeXlt c then left else (curF s).mask
    let n : Cause := if causeCode c < 0x10 then .encNest else .excNest
    -- to the user handler
    ((curG s).handler = none → Claim.Delegated s c → Claim.InHandler s t c r left) ∧
    -- to firmware
    (¬Claim.Delegated s c →
      Claim.Deposited s t (Claim.parkedOn c) mask 2 ∧
      Claim.Reported s t c r.xaddr.toNat (if causeXlt c then mask else 0) (if causeXlt c then acc else none) ∧
      (curG t).handler = (curG s).handler ∧ Claim.Loaded (curG t) c (curF s).pc r left) ∧
    -- in handler state
    ((curG s).handler ≠ none → Claim.Delegated s c →
      Claim.Deposited s t (.faultRes n) (curF s).mask 2 ∧ Claim.Reported s t n r.xaddr.toNat 0 none ∧
      (curG t).handler = (curG s).handler ∧ (curG t).xcause.toNat = causeCode n ∧ Claim.LoadedRest (curG t) c (curF s).pc r left)

/-- An instruction whose fields fail steps 3 to 4 of R239 raises that cause precisely, whatever else holds, and changes nothing but what
taking the exception changes. -/
def Sys2Proof.Claim.IllFormedRaises : Prop :=
  ∀ (s : State) (i : Instr), Claim.OnSome (fieldCause i) fun c => exec i s = .next (Claim.raised s i c 0 none)

/-- R170, R188, R239 step 5 and the checks that follow it, of the vector operations and comparisons: names that are not live and odd pairs;
an index that a scalar gives; an empty source; a thread number above 31; equal or reserved types; no slot for a result. Forms: vadd, vsub,
vmul, vmulhiI32, vmulhiN32, vminI32, vmaxI32, vmad, vand, vor, vxor, vshl, vshr, vsra, vminN32, vmaxN32, vaddB64, vsubB64, vmulB64, vshlB64,
vshrB64, vsraB64, vminI64, vmaxI64, vandB64, vorB64, vxorB64, vminN64, vmaxN64, vmulhiI64, vmulhiN64, vnot, vnegI32, vabsI32, vpopc, vclz,
vbrev, vnegI64, vabsI64, vaddSatI32, vsubSatI32, vaddSatN32, vsubSatN32, vaddSatI64, vsubSatI64, vaddSatN64, vsubSatN64, vsel, vtix, vshape,
vrdx, vwrx, vfaddF32, vfsubF32, vfmulF32, vfmaF32, vfdivF32, vfsqrtF32, vfaddF64, vfsubF64, vfmulF64, vfmaF64, vfdivF64, vfsqrtF64,
vfminF32, vfmaxF32, vfminF64, vfmaxF64, vfrcpF32, vfrsqF32, vfexp2F32, vflog2F32, vcmpI32, vcmpN32, vcmpI64, vcmpN64, vfcmpF32, vfcmpF64,
vcvt, vaddImm, vandImm, vshlImm, vshrImm, vsraImm, vshfl, vballot, xshf, vred, vscan, vminidx, vmaxidx, vpln, vqnt, vadd16, vsub16, vmul16,
vand16, vor16, vxor16, vshl16, vshr16, vsra16, vminI3216, vmaxI3216, vfaddF3216, vfsubF3216, vfmulF3216, vfminF3216, vfmaxF3216. -/
def Sys2Proof.Claim.VectorOperandChecks : Prop :=
  ∀ (s : State) (i : Instr), i.WellFormed →
    let g := curG s
    -- REG_NAME, REG_DEAD, REG_PAIR
    (∀ c, (Claim.staticNames i).bind (Claim.nameFault g) = some c → exec i s = .next (Claim.raised s i c 0 none)) ∧
    ((Claim.staticNames i).bind (Claim.nameFault g) = none →
      -- REG_BOUND and REG_DEAD of an index, and its wait
      (Claim.OnSome (Claim.indexOf i) fun ss =>
        (sIsEmpty g ss = true → ∃ t, exec i s = .next t ∧ Claim.SuspendedOn s t true ss) ∧
        (sIsEmpty g ss = false → g.nNames ≤ (sReg g ss).toNat → exec i s = .next (Claim.raised s i .regBound 0 none)) ∧
        (sIsEmpty g ss = false → (sReg g ss).toNat < g.nNames → g.top ≤ (sReg g ss).toNat →
          exec i s = .next (Claim.raised s i .regDead 0 none))) ∧
      -- CVT_FORM
      (Claim.OnSome (Claim.typesOf i) fun (a, b) => a = b ∨ 14 ≤ a.toNat ∨ 14 ≤ b.toNat →
        exec i s = .next (Claim.raised s i .cvtForm 0 none)) ∧
      -- an empty source traps REG_EMPTY with its bit, and suspends without; an empty destination suspends
      (Claim.OnSome (Claim.waitsOf s i) fun l => Claim.OnSome (l.find? fun p => vIsEmpty g p.1) fun (r, b) =>
        if b = 1 then exec i s = .next (Claim.raised s i .regEmpty 0 none)
        else ∃ t, exec i s = .next t ∧ Claim.SuspendedOn s t false (BitVec.ofNat 6 r)) ∧
      -- SHFL_RANGE
      (Claim.OnSome (Claim.shuffleOf i) fun (m, b, l) => (∀ r ∈ l, vIsEmpty g r = false) →
        ((Claim.activeList s m).any fun k => decide (31 < (vAt (vReg g b) k).toNat)) = true →
        exec i s = .next (Claim.raised s i .shflRange 0 none)) ∧
      -- REG_SLOTS, and the wait for a pending claim
      (Claim.OnSome (Claim.laneForm s i) fun x =>
        Claim.Named g (x.srcs ++ [x.dst]) → Claim.Filled g (x.srcs ++ [x.dst]) → ¬Claim.Room s x.m x.dst (x.result s) →
        (g.claim = none → exec i s = .next (Claim.raised s i .regSlots 0 none)) ∧
        Claim.OnSome g.claim fun (_, sd) => ∃ t, exec i s = .next t ∧ Claim.Deposited s t (.regFill true sd) (curF s).mask 2))

/-- trap raises ENC_TRAP with its code in XF1 and enters the user handler when delegated; brk raises ENC_BRK, whose default destination is
firmware, which deposits a debug record and a fault record (logs 63 and 70; hold number 0 is log 102). Forms: trap, brk. -/
def Sys2Proof.Claim.TrapInstruction : Prop :=
  ∀ (s : State) (code : BitVec 16),
    ((curG s).handler = none → Claim.Delegated s .encTrap →
      ∃ t, exec (.trap code) s = .next t ∧ Claim.At s t (getT s (curG s).task).tvec ∧ (curG t).handler = some s.cur.entry ∧
        (curG t).xcause = 0x09 ∧ (curG t).xpc = (curF s).pc ∧ (curG t).xf1 = BitVec.zeroExtend 64 code ∧
        (curG t).xf3 = BitVec.zeroExtend 64 ((curF s).pc + 4) ∧ (curG t).xaddr = 0 ∧
        (curG t).xinsn.toNat % 2 ^ 32 = 2 ^ 16 * code.toNat + 0x51 ∧ Claim.OnlyGroup s t) ∧
    exec (.trap code) s = .next (Claim.raised s (.trap code) .encTrap 0 (some (BitVec.zeroExtend 64 code))) ∧
    ∃ t, exec (.brk code) s = .next t ∧ t = Claim.raised s (.brk code) .encBrk 0 (some (BitVec.zeroExtend 64 code)) ∧
      (¬Claim.Delegated s .encBrk → Claim.Deposited s t (.debug 0) (curF s).mask 2 ∧ Claim.Reported s t .encBrk 0 0 none ∧
        (curG t).xcause = 0x0A ∧ (curG t).xf1 = BitVec.zeroExtend 64 code)

/-- ret.x in handler state clears it and continues at its target; when the target is XPC and the cause was a translation cause, the
instruction stands under the unfinished mask of XF0; a latched restriction is restored. That a fragment whose fault was a refused request's
goes on where it stood is log 20. Outside handler state it raises ENC_FIELD. Forms: retX. -/
def Sys2Proof.Claim.ReturnFromHandler : Prop :=
  ∀ (s : State) (b : BitVec 1) (ss : BitVec 6), Claim.Full s [ss] → (sReg (curG s) ss).getLsbD 0 = false →
    if (curG s).handler = none then exec (.retX b ss) s = .next (Claim.raised s (.retX b ss) .encField 0 none)
    else
      let to_ : BitVec 56 := BitVec.truncate 56 (sReg (curG s) ss)
      let latched (a : BitVec 56) : Option Word := match (curG s).latch with
        | some (p, m) => if p = a then some m else none
        | none => none
      let pc : BitVec 56 := match (curF s).resume with
        | some p => if to_ = (curG s).xpc ∨ to_ = BitVec.truncate 56 (curG s).xf3 then p else to_
        | none => to_
      ∃ t, exec (.retX b ss) s = .next t ∧ Claim.OnlyGroup s t ∧ (curF t).pc = pc ∧ (curF t).mask = (curF s).mask ∧
        (∀ k, k ≠ s.cur.entry → getF (curG t) k = getF (curG s) k) ∧
        curG t = { curG s with handler := none, latch := none, split := (curG t).split } ∧
        (curF t).redo =
          if (curF s).resume = none ∧ to_ = (curG s).xpc ∧ 0x30 ≤ (curG s).xcause.toNat ∧ (curG s).xcause.toNat ≤ 0x3F ∧
            (curG s).xf0.toNat % 2 ^ 32 ≠ 0 then some (BitVec.truncate 32 (curG s).xf0) else latched pc

/-- The delivery event completes for a resident group out of handler state with a pending deferred cause: it loads the registers of R358 and
enters TVEC, or, with TVEC 0, sends all pending causes to firmware as fault records, by log 38. Forms: deferredCauseDelivery. -/
def Sys2Proof.Claim.DeferredCauseDelivered : Prop :=
  ∀ (s : State) (uid : Nat),
    let g := getG s uid
    g.uid = uid → g.handler = none → Claim.OnSome g.deferred.head? fun (d, _) =>
    Claim.OnSome ((laneCands s g.core (laneOf (g.slot.getD 0))).find? fun c => c.uid == uid) fun c =>
    let k := c.entry
    (getF g k).why = 0 →
    ∃ t, exec (.deferredCauseDelivery uid) s = .next t ∧ Claim.MemKept s t ∧
      (∀ u, u ≠ uid → getG t u = getG s u) ∧
      if (getT s g.task).tvec = 0 then
        getG t uid = { g with deferred := [] } ∧ ((∀ p ∈ g.deferred, p.2.ctx = g.ctx) →
          (getX t g.ctx).faults = (getX s g.ctx).faults ++ g.deferred.map fun p => p.2)
      else
        let h := getG t uid
        h.handler = some k ∧ h.deferred = g.deferred.tail ∧ h.xcause.toNat = causeCode d.cause ∧ h.xpc = (getF g k).pc ∧ h.xinsn = 0 ∧ h.xf0 = d.xf0 ∧
        h.xf1 = d.xf1 ∧ h.xf2 = d.xf2 ∧ h.xf3 = BitVec.zeroExtend 64 (getF g k).pc ∧ (getF h k).pc = (getT s g.task).tvec ∧
        (getF h k).mask = (getF g k).mask ∧ (∀ j, j ≠ k → getF h j = getF g j) ∧ Claim.RegsKept g h

namespace Sys2Proof.Claim
open Machine

/-! Control flow. -/

/-- R246: an address at an offset in halfwords from the PC, modulo 2^56. -/
def target (s : State) (off : Int) : BitVec 56 := BitVec.ofInt 56 ((curF s).pc.toNat + 2 * off)

/-- R261: COND of `bcnd` on an i64. -/
def testZ (c : BitVec 3) (x : Int) : Bool :=
  match c.toNat with
  | 0 => decide (x = 0)
  | 1 => decide (x ≠ 0)
  | 2 => decide (x < 0)
  | 3 => decide (0 ≤ x)
  | 4 => decide (0 < x)
  | _ => decide (x ≤ 0)

/-- Only the fragment's place has changed. -/
def Moved (s t : State) (pc : BitVec 56) : Prop :=
  OnlyGroup s t ∧ At s t pc ∧ curG t = { curG s with split := (curG t).split }

/-- R175, R176: a split-table entry has these threads, PC and JOIN, and may issue. -/
def Runs (f : Split) (mask : Word) (pc join : BitVec 56) : Prop :=
  f.valid = true ∧ f.st = 0 ∧ f.mask = mask ∧ f.pc = pc ∧ f.join = join ∧ f.redo = none

/-- The number of threads of a mask. -/
def count (m : Word) : Nat := ((List.range 32).filter fun k => m.getLsbD k).length

/-- The lowest invalid entry of a split table. -/
def LowestFree (g : Group) (c : Nat) : Prop := c < 8 ∧ (getF g c).valid = false ∧ ∀ k, k < c → (getF g k).valid = true

/-- R177: entry `q` has exited or waits at join address `p`. -/
def AtJoin (f : Split) (p : BitVec 56) : Prop := f.st = 3 ∨ (f.st = 1 ∧ f.join = p)

/-- R177: a valid child of `k` with join address `p`. -/
def Child (g : Group) (k : Nat) (p : BitVec 56) (c : Nat) : Prop :=
  0 < c ∧ c < 8 ∧ (getF g c).valid = true ∧ (getF g c).parent.toNat = k ∧ (getF g c).join = p

/-- The threads that a fragment contributes to a fusion: none when it has exited. -/
def live (f : Split) : Word := if f.st = 3 then 0 else f.mask

end Sys2Proof.Claim

open Sys2Proof Sys2Proof.Machine

/-- R261, R262: `bcnd`, `loop`, `bra`, `call` and `ret`: where each goes, what it writes, and when it traps or waits. Forms: bcnd, loop,
bra, call, ret. -/
def Obligations.BranchForms : Prop :=
  ∀ (s : State),
    (∀ (off : BitVec 16) (ss : BitVec 6) (c : BitVec 3), (Instr.bcnd off ss c).WellFormed → Claim.Full s [ss] →
      ∃ t, exec (.bcnd off ss c) s = .next t ∧
        Claim.Moved s t (if Claim.testZ c (sReg (curG s) ss).toInt then Claim.target s off.toInt else (curF s).pc + 4)) ∧
    (∀ (off : BitVec 16) (ss : BitVec 6), (Instr.loop off ss).WellFormed → Claim.Full s [ss] →
      ∃ t, exec (.loop off ss) s = .next t ∧ Claim.OnlyGroup s t ∧
        Claim.ScalarWritten s t ss (Claim.wordZ ((sReg (curG s) ss).toInt - 1)) ∧
        Claim.At s t (if (sReg (curG s) ss).toNat = 1 then (curF s).pc + 4 else Claim.target s off.toInt)) ∧
    (∀ off : BitVec 16, exec (.loop off 0) s = .next (Claim.raised s (.loop off 0) .encField 0 none)) ∧
    (∀ off : BitVec 25, ∃ t, exec (.bra off) s = .next t ∧ Claim.Moved s t (Claim.target s off.toInt)) ∧
    (∀ off : BitVec 25, Claim.Full s [63] → ∃ t, exec (.call off) s = .next t ∧ Claim.OnlyGroup s t ∧
      Claim.ScalarWritten s t 63 (BitVec.zeroExtend 64 ((curF s).pc + 4)) ∧ Claim.At s t (Claim.target s off.toInt)) ∧
    (∀ off : BitVec 25, sIsEmpty (curG s) 63 = true → ∃ t, exec (.call off) s = .next t ∧
      Claim.SuspendedOn s t true 63) ∧
    (∀ (b : BitVec 1) (ss : BitVec 6), Claim.Full s [ss] →
      if (sReg (curG s) ss).getLsbD 0 then
        exec (.ret b ss) s = .next (Claim.raised s (.ret b ss) .fetchAlign (BitVec.truncate 56 (sReg (curG s) ss)) none)
      else ∃ t, exec (.ret b ss) s = .next t ∧ Claim.Moved s t (BitVec.truncate 56 (sReg (curG s) ss)))

/-- vbra with all, none or some threads taken does what R176 says: the smaller side detaches into the lowest free entry with its mask, join
and parent; with no entry free it raises SPLIT_FULL. Forms: vbra. -/
def Sys2Proof.Claim.DivergentBranch : Prop :=
  ∀ (s : State) (toff joff : BitVec 11) (mk : BitVec 3),
    let g := curG s
    let f := curF s
    let taken := f.mask &&& mReg g mk.toNat
    let rest := f.mask &&& ~~~ mReg g mk.toNat
    let go := Claim.target s toff.toInt
    let join := if joff = 0 then 0 else Claim.target s joff.toNat
    (taken = 0 → ∃ t, exec (.vbra toff joff mk) s = .next t ∧ Claim.Moved s t (f.pc + 4)) ∧
    (taken ≠ 0 → rest = 0 → ∃ t, exec (.vbra toff joff mk) s = .next t ∧ Claim.Moved s t go) ∧
    (taken ≠ 0 → rest ≠ 0 → f.st = 0 → f.valid = true → ∀ c, Claim.LowestFree g c →
      ∃ t, exec (.vbra toff joff mk) s = .next t ∧ Claim.OnlyGroup s t ∧ Claim.RegsKept g (curG t) ∧
        (getF (curG t) c).parent.toNat = s.cur.entry % 8 ∧ (getF (curG t) c).saved = f.join ∧ (curF t).saved = f.saved ∧
        (curF t).parent = f.parent ∧ (∀ k, k < 8 → k ≠ c → (getF (curG t) k).age < (getF (curG t) c).age ∨ g.splitAge < (getF g k).age) ∧
        (∀ k, k ≠ c → k ≠ s.cur.entry → getF (curG t) k = getF g k) ∧
        if Claim.count taken ≤ Claim.count rest then
          Claim.Runs (getF (curG t) c) taken go join ∧ Claim.Runs (curF t) rest (f.pc + 4) join
        else Claim.Runs (getF (curG t) c) rest (f.pc + 4) join ∧ Claim.Runs (curF t) taken go join) ∧
    (taken ≠ 0 → rest ≠ 0 → (∀ k, k < 8 → (getF g k).valid = true) →
      exec (.vbra toff joff mk) s = .next (Claim.raised s (.vbra toff joff mk) .splitFull 0 none))

/-- At its join address a fragment fuses with its waiting partner or deposits a record and suspends; elsewhere vjoin is a nop. Where the
waiting record's PC stands follows log 15. Forms: vjoin. -/
def Sys2Proof.Claim.JoinInstruction : Prop :=
  ∀ (s : State),
    let g := curG s
    let f := curF s
    let k := s.cur.entry
    k < 8 → f.valid = true → f.st = 0 →
    -- another address, or none: the fragment goes on
    (f.join = 0 ∨ f.join ≠ f.pc → ∃ t, exec .vjoin s = .next t ∧ Claim.Moved s t (f.pc + 4)) ∧
    -- the youngest child with this join, or, without children, the parent whose youngest such child the fragment is
    (f.join = f.pc → f.pc ≠ 0 → ∀ q up,
      (if up = true then (∀ c, ¬Claim.Child g k f.pc c) ∧ 0 < k ∧ q = f.parent.toNat ∧ (getF g q).valid = true ∧
          ∀ c, c ≠ k → Claim.Child g q f.pc c → (getF g c).age < f.age
        else Claim.Child g k f.pc q ∧ ∀ c, c ≠ q → Claim.Child g k f.pc c → (getF g c).age < (getF g q).age) →
      -- the partner is there: the two fuse at the parent's entry
      (Claim.AtJoin (getF g q) f.pc → q ≠ k →
        let keep := if up = true then q else k
        let drop := if up = true then k else q
        (getF g drop).saved ≠ f.pc →
        ∃ t, exec .vjoin s = .next t ∧ Claim.MemKept s t ∧ Claim.RegsKept g (curG t) ∧
          Claim.Runs (getF (curG t) keep)
            ((if keep = k then f.mask else Claim.live (getF g keep)) ||| (if drop = k then f.mask else Claim.live (getF g drop)))
            (f.pc + 4) (getF g drop).saved ∧
          (getF (curG t) drop).valid = false ∧ (∀ j, j ≠ keep → j ≠ drop → getF (curG t) j = getF g j) ∧
          t.records = s.records.filter fun r => !(r.uid == s.cur.uid && r.frag == q)) ∧
      -- it is not: the fragment waits at the join
      (¬Claim.AtJoin (getF g q) f.pc → ∃ t, exec .vjoin s = .next t ∧ Claim.Deposited s t (.joined f.pc) f.mask 1))

/-- exit completes: the fragment's entry is freed or marked exited as R266 says, and with its last fragment the group ends; its pending
deferred causes go to firmware (log 38). Forms: exit. -/
def Sys2Proof.Claim.ExitForms : Prop :=
  ∀ (s : State),
    let g := curG s
    let k := s.cur.entry
    k < 8 → s.cur.uid < s.nextId →
    (g.locks ≠ [] → exec .exit s = .next (Claim.raised s .exit .exitForm 0 none)) ∧
    (g.locks = [] → (∃ j, j < 8 ∧ j ≠ k ∧ (getF g j).valid = true ∧ (getF g j).st ≠ 3) →
      ∃ t, exec .exit s = .next t ∧ Claim.OnlyGroup s t ∧ (curF t).st = 3 ∧ (curF t).mask = (curF s).mask ∧
        (∀ j, j ≠ k → getF (curG t) j = getF g j) ∧
        curG t = { g with handler := none, latch := none, split := (curG t).split }) ∧
    (g.locks = [] → (∀ j, j < 8 → j ≠ k → (getF g j).valid = false ∨ (getF g j).st = 3) →
      ∃ t, exec .exit s = .next t ∧ Claim.MemKept s t ∧ (getG t s.cur.uid).ended = true ∧ (getG t s.cur.uid).slot = none ∧
        (getG t s.cur.uid).handler = none ∧ (getG t s.cur.uid).team = none ∧
        (getX s g.ctx).faults ++ ((g.deferred.filter fun p => p.2.ctx == g.ctx).map fun p => p.2) <+: (getX t g.ctx).faults)

namespace Sys2Proof.Claim
open Machine

/-! Safe points, roles, scopes and register slots. -/

/-- A computation of the machine that does not stop: it has a value, or a value with a property. -/
def IsOk {α : Type} (x : X α) : Prop := ∃ a, x = .ok a
def OnOk {α : Type} (x : X α) (P : α → Prop) : Prop := ∀ a, x = .ok a → P a

/-- R267: the address in a task's successor slot, with whether the descriptor read there can start (R181, R199, R268). -/
def succAt (s : State) (t : Task) : Option (Nat × Option Bool) :=
  match t.succ with
  | .none => none
  | .reading b => some (b.toNat, none)
  | .read b ok d h => some (b.toNat, some (ok && succOk s t d h))

/-- R175: exactly one split-table entry is valid: the issuing fragment's. -/
def Alone (s : State) : Prop :=
  s.cur.entry < 8 ∧ (curF s).valid = true ∧ ∀ k, k < 8 → k ≠ s.cur.entry → (getF (curG s) k).valid = false

/-- R170: the live names of G shape. -/
def heldNames (g : Group) : Nat := ((List.range g.top).filter fun r => match vReg g r with | .g _ => true | _ => false).length

/-- R206: a pre-emption request is pending for the issuing group. -/
def Asked (s : State) : Prop :=
  ∃ p ∈ (getX s (curG s).ctx).preempts, p.core = (curG s).core ∧ (p.only.all fun l => l.contains (curG s).task) = true

/-- The scalars, masks, capabilities and their empty bits are as they were. -/
def NonVectorKept (g h : Group) : Prop :=
  h.m = g.m ∧ h.c = g.c ∧ h.cEmpty = g.cEmpty ∧ h.ec = g.ec ∧ h.locks = g.locks

/-- R172: the live names below `n` are as they were. -/
def NamesKept (g h : Group) (n : Nat) : Prop :=
  ∀ r, r < n → vReg h r = vReg g r ∧ (r < 64 → vIsEmpty h r = vIsEmpty g r)

end Sys2Proof.Claim

open Sys2Proof Sys2Proof.Machine

/-- exit.succ raises EXIT_FORM where its conditions fail; else it starts the read of the successor slot with sd empty, waits for another
group's read, or exits when the slot holds a descriptor that can start. Forms: exitSucc. -/
def Sys2Proof.Claim.SuccessorExit : Prop :=
  ∀ (s : State) (sd : BitVec 6),
    let g := curG s
    let tk := getT s g.task
    let a : Nat := (sReg g sd).toNat % 2 ^ 56
    let i := Instr.exitSucc sd
    i.WellFormed → Claim.Full s [sd] → cIsEmpty g 1 = false →
    (tk.hdr.succ = false ∨ g.locks ≠ [] ∨ a % 64 ≠ 0 → exec i s = .next (Claim.raised s i .exitForm 0 none)) ∧
    (tk.hdr.succ = true → g.locks = [] → a % 64 = 0 → Claim.IsOk (capUse (cReg g 1) permR [0]) →
      Claim.IsOk (boundsX (cReg g 1) 64 [(0, (a : Int))]) → succFault (curF s) = none →
      -- the read of the slot begins: sd is empty at an unchanged PC
      (tk.succ = .none → Claim.IsOk (xltX s .load a) →
        ∃ t, exec i s = .next t ∧ (getT t g.task).succ = .reading (BitVec.ofNat 56 a) ∧ sIsEmpty (curG t) sd = decide (sd ≠ 0) ∧
          (curF t).pc = (curF s).pc ∧ (∀ r, sReg (curG t) r = sReg g r) ∧ .succReadComplete g.task ∈ t.agenda ∧ Claim.MemKept s t) ∧
      -- another group's read is in progress
      (Claim.succAt s tk = some (a, none) →
        ∃ t, exec i s = .next t ∧ (getT t g.task).succ = tk.succ ∧ sIsEmpty (curG t) sd = decide (sd ≠ 0) ∧ (curF t).pc = (curF s).pc ∧
          Claim.MemKept s t) ∧
      -- the slot holds a descriptor that can start: the fragment exits
      (Claim.succAt s tk = some (a, some true) →
        (∃ j, j < 8 ∧ j ≠ s.cur.entry ∧ (getF g j).valid = true ∧ (getF g j).st ≠ 3) →
        ∃ t, exec i s = .next t ∧ Claim.OnlyGroup s t ∧ (curF t).st = 3 ∧ (∀ j, j ≠ s.cur.entry → getF (curG t) j = getF g j) ∧
          curG t = { g with handler := none, latch := none, split := (curG t).split }) ∧
      -- the slot holds one that cannot, or the slot is about another descriptor
      (Claim.succAt s tk = some (a, some false) →
        exec i s = .next (Claim.raised (setT s g.task { tk with succ := .none }) i .exitForm 0 none)) ∧
      (Claim.OnSome (Claim.succAt s tk) fun p => p.1 ≠ a → exec i s = .next (Claim.raised s i .exitForm 0 none)))

/-- sfp n raises SFP_FORM where n is not below SFPN, does nothing in handler state or in a save routine, enters the save routine for a
pending request when one fragment is left, and passes otherwise; cont.dep raises SFP_FORM outside a save routine and else deposits the
group's record with the restore address. How the table is read follows log 16. Forms: sfp, contDep. -/
def Sys2Proof.Claim.SafePoints : Prop :=
  ∀ (s : State) (n : BitVec 8),
    let g := curG s
    let tk := getT s g.task
    (tk.hdr.sfpn ≤ n.toNat → exec (.sfp n) s = .next (Claim.raised s (.sfp n) .sfpForm 0 none)) ∧
    (n.toNat < tk.hdr.sfpn →
      (g.handler ≠ none ∨ g.saving ≠ none → ∃ t, exec (.sfp n) s = .next t ∧ Claim.Moved s t ((curF s).pc + 4)) ∧
      (g.handler = none → g.saving = none →
        (¬(Claim.Asked s ∧ Claim.Alone s) → s.cur.entry < 8 → (curF s).valid = true →
          ∃ t, exec (.sfp n) s = .next t ∧ Claim.OnlyGroup s t ∧ Claim.Past s t 4 ∧
            curG t = { g with restoring := false, split := (curG t).split }) ∧
        (Claim.Asked s → Claim.Alone s → Claim.OnOk (sfpEntry s n.toNat 0) fun a =>
          ∃ t, exec (.sfp n) s = .next t ∧ Claim.OnlyGroup s t ∧ Claim.At s t a ∧
            curG t = { g with restoring := false, saving := some n, split := (curG t).split }))) ∧
    (g.saving = none → exec .contDep s = .next (Claim.raised s .contDep .sfpForm 0 none)) ∧
    (g.saving = some n → Claim.Alone s → g.uid = s.cur.uid → Claim.OnOk (sfpEntry s n.toNat 8) fun a =>
      ∃ t, exec .contDep s = .next t ∧
        (curG t).saving = none ∧ (curG t).s = g.s ∧ (curG t).v = g.v ∧ (curG t).m = g.m ∧ (curG t).c = g.c ∧
        ∃ r ∈ t.records ++ (curG t).stuck, r.uid = s.cur.uid ∧ r.frag = s.cur.entry ∧
          r.cond = .preempted n ∧ r.sfpd = true ∧ r.held = true ∧ r.body = true ∧ r.pc = a ∧ r.mask = (curF s).mask)

/-- role.yield raises ROLE_FORM for role 0, takes the role that the rebalancer has pending for the group, and else does nothing; nop only
advances the PC. Forms: nop, roleYield. -/
def Sys2Proof.Claim.RoleYield : Prop :=
  ∀ (s : State),
    let g := curG s
    (g.role = 0 → exec .roleYield s = .next (Claim.raised s .roleYield .roleForm 0 none)) ∧
    (g.role ≠ 0 →
      (∀ r, (getT s g.task).pendRole = some (g.taskg, r) →
        ∃ t, exec .roleYield s = .next t ∧ Claim.Past s t 4 ∧ curG t = { g with role := r, split := (curG t).split } ∧
          (getT t g.task).pendRole = none ∧ (∀ u, u ≠ s.cur.uid → getG t u = getG s u) ∧
          (∀ k, k ≠ g.task → getT t k = getT s k) ∧ t = { s with groups := t.groups, tasks := t.tasks } ∧ Claim.MemKept s t) ∧
      ((∀ r, (getT s g.task).pendRole ≠ some (g.taskg, r)) →
        ∃ t, exec .roleYield s = .next t ∧ Claim.Moved s t ((curF s).pc + 4))) ∧
    ∃ t, exec .nop s = .next t ∧ Claim.Moved s t ((curF s).pc + 4)

/-- scope.open k raises the live top by k names, which read U 0, when a lone fragment has the names; scope.close returns it to the innermost
mark and gives back slots; otherwise both raise SCOPE_FORM. Forms: scopeOpen, scopeClose. -/
def Sys2Proof.Claim.Scopes : Prop :=
  ∀ (s : State) (k : BitVec 6),
    let g := curG s
    let i := Instr.scopeOpen k
    s.cur.entry < 8 → (curF s).valid = true →
    (i.WellFormed → g.scopes.length < 8 → g.top + k.toNat ≤ g.nNames → g.nNames ≤ 64 → Claim.Alone s →
      ∃ t, exec i s = .next t ∧ Claim.OnlyGroup s t ∧ Claim.Past s t 4 ∧ (curG t).top = g.top + k.toNat ∧
        (curG t).scopes = g.top :: g.scopes ∧ Claim.NamesKept g (curG t) g.top ∧
        (∀ r, g.top ≤ r → r < g.top + k.toNat → vReg (curG t) r = .u 0 ∧ vIsEmpty (curG t) r = false) ∧
        curG t = { g with scopes := (curG t).scopes, top := (curG t).top, v := (curG t).v, gslot := (curG t).gslot, vEmpty := (curG t).vEmpty,
                          split := (curG t).split }) ∧
    (i.WellFormed → 8 ≤ g.scopes.length ∨ g.nNames < g.top + k.toNat ∨ ¬Claim.Alone s →
      exec i s = .next (Claim.raised s i .scopeForm 0 none)) ∧
    (let n := g.scopes.headD 0
     g.scopes ≠ [] → n ≤ g.top → Claim.Alone s → g.claim = none →
      ∃ t, exec .scopeClose s = .next t ∧ Claim.Past s t 4 ∧ (curG t).top = n ∧ (curG t).scopes = g.scopes.tail ∧
        Claim.NamesKept g (curG t) n ∧ (∀ r, n ≤ r → r < 64 → vIsEmpty (curG t) r = false) ∧
        (curG t).slots = g.slots.take (g.slots.length -
          ((List.range g.top).filter fun r => n ≤ r && match vReg g r with | .g _ => true | _ => false).length) ∧
        (curG t).s = g.s ∧ (curG t).sEmpty = g.sEmpty ∧ Claim.NonVectorKept g (curG t) ∧ Claim.MemKept s t) ∧
    (g.scopes = [] ∨ ¬Claim.Alone s → exec .scopeClose s = .next (Claim.raised s .scopeClose .scopeForm 0 none))

/-- rgive gives the highest held slots back when enough stay for the live G names; rclaim takes slots from the lane's pool at once, or
queues the claim with sd empty; otherwise both raise SLOT_FORM. Which slots go first is the model's (logs 71, 73). Forms: rgive, rclaim. -/
def Sys2Proof.Claim.RegisterSlots : Prop :=
  ∀ (s : State) (k : BitVec 8) (sd : BitVec 6),
    let g := curG s
    let h := g.slots.length
    let lane := (g.slot.getD 0) / 4
    let pool := freeSlots s g.core lane
    s.cur.entry < 8 → (curF s).valid = true →
    ((Instr.rgive k).WellFormed → Claim.Alone s → k.toNat + Claim.heldNames g ≤ h → g.claim = none →
      ∃ t, exec (.rgive k) s = .next t ∧ Claim.Past s t 4 ∧ (curG t).slots = g.slots.take (h - k.toNat) ∧
        Claim.RegsKept g (curG t) ∧ Claim.MemKept s t) ∧
    ((Instr.rgive k).WellFormed → ¬Claim.Alone s ∨ h < k.toNat + Claim.heldNames g →
      exec (.rgive k) s = .next (Claim.raised s (.rgive k) .slotForm 0 none)) ∧
    ((Instr.rclaim k sd).WellFormed → Claim.Alone s → h + k.toNat ≤ 128 → g.claim = none → Claim.Full s [sd] →
      ((∀ p ∈ (getC s g.core).claims, p.1 ≠ lane) → k.toNat ≤ pool.length →
        ∃ t, exec (.rclaim k sd) s = .next t ∧ Claim.OnlyGroup s t ∧ Claim.Past s t 4 ∧
          (∀ r, sReg (curG t) r = if r = sd then BitVec.ofNat 64 (h + k.toNat) else sReg g r) ∧
          (curG t).slots = g.slots ++ pool.take k.toNat ∧ (curG t).claim = none ∧
          curG t = { g with s := (curG t).s, swr := (curG t).swr, sEmpty := (curG t).sEmpty, slots := (curG t).slots,
                            split := (curG t).split }) ∧
      ((∃ p ∈ (getC s g.core).claims, p.1 = lane) ∨ pool.length < k.toNat →
        ∃ t, exec (.rclaim k sd) s = .next t ∧ Claim.Past s t 4 ∧ sIsEmpty (curG t) sd = true ∧ (curG t).claim = some (k.toNat, sd) ∧
          (curG t).slots = g.slots ∧ (getC t g.core).claims = (getC s g.core).claims ++ [(lane, s.cur.uid)] ∧ Claim.MemKept s t)) ∧
    ((Instr.rclaim k sd).WellFormed → ¬Claim.Alone s ∨ 128 < h + k.toNat ∨ g.claim ≠ none →
      exec (.rclaim k sd) s = .next (Claim.raised s (.rclaim k sd) .slotForm 0 none))

namespace Sys2Proof.Claim
open Machine

/-! Capabilities and translation registers (R9 to R16, R22, R38, R39, R307, R308). -/

/-- R11: the representable region of a capability, as the rule gives its first address. -/
def inRegion (c : Cap) (a : Nat) : Bool :=
  let w := c.e.toNat + 27
  let rep := (c.b.toNat + 2 ^ 27 - 2 ^ 24) % 2 ^ 27
  let mid := c.addr.toNat / 2 ^ c.e.toNat % 2 ^ 27
  let hi : Int := (c.addr.toNat / 2 ^ w : Nat)
  let corr : Int := if mid < rep ∧ rep ≤ c.b.toNat then -1 else if rep ≤ mid ∧ c.b.toNat < rep then 1 else 0
  let first : Int := (hi + corr) * 2 ^ w + rep * 2 ^ c.e.toNat - (if c.b.toNat < rep then 2 ^ w else 0)
  decide (first ≤ a ∧ a < first + 2 ^ w)

/-- R12: whether an exponent holds the span of [b, t). -/
def spans (b t e : Nat) : Bool := decide ((t + 2 ^ e - 1) / 2 ^ e ≤ b / 2 ^ e + 2 ^ 26)

/-- A capability that steps 1 to 3 of R22 pass. -/
def Sound (c : Cap) : Prop := c.tag = true ∧ (capDecode c).isSome = true ∧ c.sealed = false

/-- The cause of steps 1 to 3 of R22 on a capability that they do not pass. -/
def unsound (c : Cap) : Cause := if c.tag = false then .capTag else if (capDecode c).isNone then .capFormat else .capSealed

/-- Capability register `cd` holds `v`; the other registers of the group are as they were, but for translation registers that were
bound to it (R41). -/
def CapWritten (s t : State) (cd : BitVec 4) (v : Cap) : Prop :=
  (∀ r, cReg (curG t) r = if r = cd then v else cReg (curG s) r) ∧ (∀ r, cIsEmpty (curG t) r = cIsEmpty (curG s) r) ∧
  (∀ n, n < 8 → fget XW.zero (curG t).xw n = fget XW.zero (curG s).xw n ∨
    ((fget XW.zero (curG s).xw n).creg = cd ∧ fget XW.zero (curG t).xw n = { fget XW.zero (curG s).xw n with valid := false })) ∧
  curG t = { curG s with c := (curG t).c, cEmpty := (curG t).cEmpty, xw := (curG t).xw, split := (curG t).split }

/-- The instruction only writes a capability register. -/
def CapOnly (s t : State) (cd : BitVec 4) (v : Cap) : Prop := OnlyGroup s t ∧ Past s t 4 ∧ CapWritten s t cd v

/-- The interlock of R91: the fragment does not issue, and nothing changes but when it was last ready. -/
def Interlocked (s t : State) : Prop :=
  t = modCurF s fun f => { f with rdy := (curF t).rdy, why := (curF t).why }

/-- R308: the value that a selector reads. -/
def capRead (c : Cap) (sel : Nat) : Nat :=
  let bt := (capDecode c).getD (0, 0)
  match sel with
  | 0 => c.addr.toNat
  | 1 => bt.1
  | 2 => bt.2
  | 3 => capBits c / 2 ^ 56 % 2 ^ 8
  | 4 => c.space.toNat
  | 5 => if c.tag then 1 else 0
  | 6 => if c.sealed then 1 else 0
  | _ => bt.2 - bt.1

end Sys2Proof.Claim

open Sys2Proof Sys2Proof.Machine

/-- For every capability whose bounds decode, the region of R11 is exactly the set of addresses that leave the decoded bounds as they are.
Given bounds [b, t), the encoded exponent is the least that spans them and the decoded bounds are the least multiples of 2^E around them.
The 128 bits give the capability back, and the null capability is all zero. -/
def Sys2Proof.Claim.CapabilityBounds : Prop :=
  ∀ (c : Cap) (x b : BitVec 56) (t : Nat),
    (capDecode c ≠ none → (Claim.inRegion c x.toNat = true ↔ capDecode { c with addr := x } = capDecode c)) ∧
    (b.toNat ≤ t → t ≤ 2 ^ 56 →
      let r := capWithBounds { c with addr := b } b.toNat t
      r.e.toNat ≤ 30 ∧ Claim.spans b.toNat t r.e.toNat = true ∧ (∀ e, e < r.e.toNat → Claim.spans b.toNat t e = false) ∧
      capDecode r = some (b.toNat / 2 ^ r.e.toNat * 2 ^ r.e.toNat,
        (t + 2 ^ r.e.toNat - 1) / 2 ^ r.e.toNat * 2 ^ r.e.toNat)) ∧
    capOfBits (capBits c) c.tag = c ∧ capBits Cap.null = 0 ∧ Cap.null.tag = false

/-- Each derivation makes steps 1 to 3 of R22 on its source, gives cd the value of R307 and changes nothing else but translation registers
bound to cd; bounds or permissions that the source lacks raise CAP_MONO. An empty capability register interlocks (log 14). Forms: cmk, cbnd,
cperm, cseal. -/
def Sys2Proof.Claim.CapabilityDerivations : Prop :=
  ∀ (s : State) (b2 : BitVec 1) (ss : BitVec 6) (cs cd : BitVec 4),
    let g := curG s
    let c := cReg g cs
    let v := sReg g ss
    let a : Int := c.addr.toNat + v.toInt
    let lim := c.addr.toNat + v.toNat
    let perms : BitVec 7 := BitVec.truncate 7 v
    let nb := capWithBounds c c.addr.toNat lim
    (∀ i ∈ [Instr.cmk b2 ss cs cd, .cbnd b2 ss cs cd, .cperm b2 ss cs cd],
      (cIsEmpty g cs = true ∨ cIsEmpty g cd = true → i.WellFormed → ∃ t, exec i s = .next t ∧ Claim.Interlocked s t) ∧
      (cIsEmpty g cs = false → cIsEmpty g cd = false → Claim.Full s [ss] → ¬Claim.Sound c → exec i s = .next (Claim.raised s i (Claim.unsound c) c.addr none))) ∧
    (Claim.Full s [ss] → cIsEmpty g cs = false → cIsEmpty g cd = false → Claim.Sound c →
      (∃ t, exec (.cmk b2 ss cs cd) s = .next t ∧ Claim.CapOnly s t cd
        { c with addr := BitVec.ofInt 56 a, tag := decide (0 ≤ a ∧ a < 2 ^ 56) && Claim.inRegion c a.toNat }) ∧
      (2 ^ 56 < lim ∨ Claim.OnSome (capDecode nb) (fun p => p.1 < ((capDecode c).getD (0, 0)).1 ∨ ((capDecode c).getD (0, 0)).2 < p.2) →
        capDecode nb ≠ none ∨ 2 ^ 56 < lim →
        exec (.cbnd b2 ss cs cd) s = .next (Claim.raised s (.cbnd b2 ss cs cd) .capMono 0 none)) ∧
      (lim ≤ 2 ^ 56 → capDecode nb ≠ none →
        Claim.OnSome (capDecode nb) (fun p => ((capDecode c).getD (0, 0)).1 ≤ p.1 ∧ p.2 ≤ ((capDecode c).getD (0, 0)).2) →
        ∃ t, exec (.cbnd b2 ss cs cd) s = .next t ∧ Claim.CapOnly s t cd nb) ∧
      (perms &&& ~~~c.perms ≠ 0 →
        exec (.cperm b2 ss cs cd) s = .next (Claim.raised s (.cperm b2 ss cs cd) .capMono 0 none)) ∧
      (perms &&& ~~~c.perms = 0 →
        ∃ t, exec (.cperm b2 ss cs cd) s = .next t ∧ Claim.CapOnly s t cd { c with perms := perms })) ∧
    (cIsEmpty g cs = true ∨ cIsEmpty g cd = true → ∃ t, exec (.cseal cs cd) s = .next t ∧ Claim.Interlocked s t) ∧
    (cIsEmpty g cs = false → cIsEmpty g cd = false →
      (c.tag = true → capDecode c = none → exec (.cseal cs cd) s = .next (Claim.raised s (.cseal cs cd) .capFormat c.addr none)) ∧
      (c.tag = false ∨ capDecode c ≠ none →
        ∃ t, exec (.cseal cs cd) s = .next t ∧ Claim.CapOnly s t cd { c with sealed := true }))

/-- R308: `cget` reads a field of any capability value, and never traps on it; selectors from 8 up trap ENC_FIELD. Forms: cget. -/
def Obligations.CapabilityRead : Prop :=
  ∀ (s : State) (cs : BitVec 4) (sd sel : BitVec 6), cIsEmpty (curG s) cs = false → Claim.Full s [sd] →
    (sel.toNat < 8 →
      ∃ t, exec (.cget sel cs sd) s = .next t ∧
        Claim.ScalarOnly s t sd (BitVec.ofNat 64 (Claim.capRead (cReg (curG s) cs) sel.toNat))) ∧
    (8 ≤ sel.toNat → exec (.cget sel cs sd) s = .next (Claim.raised s (.cget sel cs sd) .encField 0 none))

/-- xbind makes its checks in order, then clears VALID of its register, and either holds the TLB's answer or a walk for the address that it
binds; no other register changes. Forms: xbind. -/
def Obligations.TranslationRegisterBind : Prop :=
  ∀ (s : State) (b2 : BitVec 1) (ss : BitVec 6) (cs : BitVec 4) (n : BitVec 3),
    let g := curG s
    let c := cReg g cs
    let i := Instr.xbind b2 ss cs n
    let a : Int := c.addr.toNat + (sReg g ss).toInt
    (cIsEmpty g cs = true → i.WellFormed → ∃ t, exec i s = .next t ∧ Claim.Interlocked s t) ∧
    (g.uid = s.cur.uid → Claim.Full s [ss] → cIsEmpty g cs = false →
    (¬Claim.Sound c → exec i s = .next (Claim.raised s i (Claim.unsound c) c.addr none)) ∧
    (Claim.Sound c → c.space ≠ 0 → exec i s = .next (Claim.raised s i .capSpace c.addr none)) ∧
    (Claim.Sound c → c.space = 0 → Claim.OnSome (capDecode c) fun (b, l) =>
      (¬((b : Int) ≤ a ∧ a < l) → exec i s = .next (Claim.raised s i .capBound (BitVec.ofInt 56 a) none)) ∧
      ((b : Int) ≤ a → a < l →
        ∃ t, exec i s = .next t ∧ Claim.Past s t 4 ∧ Claim.MemKept s t ∧
          (∀ k, k < 8 → fget XW.zero (curG t).xw k =
            if k = n.toNat then { fget XW.zero g.xw k with valid := false } else fget XW.zero g.xw k) ∧
          curG t = { g with xw := (curG t).xw, split := (curG t).split } ∧
          (∃ p ∈ t.walks, p.2.va = a.toNat ∧ p.2.ctx = g.ctx ∧ p.2.core = g.core ∧ p.2.why = .xwreg g.uid n.toNat cs ∧
            (if p.2.done.isSome then .xwLoad g.uid n.toNat else .pageWalkComplete p.1) ∈ t.agenda) ∧
          t = { s with groups := t.groups, walks := t.walks, agenda := t.agenda, nextId := t.nextId })))

namespace Sys2Proof.Claim
open Machine

/-! Memory instructions (R7, R13, R22, R23, R297 to R306, R309, R313 to R316). -/

/-- What an access of an instruction needs, and where it goes. -/
structure Access where
  /-- vector names that must be usable, those that must be multiples of a number, scalars, and capability registers -/
  vecs   : List Nat
  evens  : List (Nat × Nat)
  scal   : List (BitVec 6)
  caps   : List (BitVec 4)
  /-- the capability, the permissions and spaces, a check after them, the alignment with its cause, the width -/
  cap    : Cap
  perms  : BitVec 7
  spaces : List Nat
  mid    : Option (Cause × Nat)
  align  : Nat
  cause  : Cause
  size   : Nat
  /-- a `.line` access; an access that writes; one that may not reach a mapped stash word -/
  line   : Bool
  writes : Bool
  row    : Bool
  /-- the threads that access memory, with their exact addresses -/
  addrs  : List (Nat × Int)

/-- R165, R297: the active threads, with the addresses that a vector offset register gives, or a scalar one. -/
def vecAt (s : State) (m : BitVec 2) (c : Cap) (vo : Nat) : List (Nat × Int) :=
  (threadsOf (activeMask (curG s) (curF s) m.toNat)).map fun t => (t, c.addr.toNat + (vAt (vReg (curG s) vo) t).toInt)
def oneAt (s : State) (c : Cap) (so : BitVec 6) (t : Nat) : List (Nat × Int) := [(t, c.addr.toNat + (sReg (curG s) so).toInt)]
def someAt (a : Word) (l : List (Nat × Int)) : List (Nat × Int) := if a = 0 then [] else l

/-- R237: the bytes of a load's width code. -/
def vecBytes (w : Nat) : Nat := match w with | 0 => 1 | 1 => 1 | 2 => 2 | 3 => 2 | 4 => 4 | _ => 8
def scaBytes (w : Nat) : Nat := match w with | 0 => 1 | 1 => 1 | 2 => 2 | 3 => 2 | 4 => 4 | 5 => 4 | _ => 8

/-- R132: the vector atomics: (operation, m, SIG, F, OS, cap, vo, vd). -/
def vatomForm (i : Instr) : Option (AOp × BitVec 2 × BitVec 1 × BitVec 1 × BitVec 4 × BitVec 4 × BitVec 5 × BitVec 5) :=
  match i with
  | .vatomAddB32 m sg f os cap vo vd => some (.add 4, m, sg, f, os, cap, vo, vd)
  | .vatomMinI32 m sg f os cap vo vd => some (.smin 4, m, sg, f, os, cap, vo, vd)
  | .vatomMaxI32 m sg f os cap vo vd => some (.smax 4, m, sg, f, os, cap, vo, vd)
  | .vatomMinN32 m sg f os cap vo vd => some (.umin 4, m, sg, f, os, cap, vo, vd)
  | .vatomMaxN32 m sg f os cap vo vd => some (.umax 4, m, sg, f, os, cap, vo, vd)
  | .vatomAndB32 m sg f os cap vo vd => some (.and 4, m, sg, f, os, cap, vo, vd)
  | .vatomOrB32 m sg f os cap vo vd => some (.or 4, m, sg, f, os, cap, vo, vd)
  | .vatomXorB32 m sg f os cap vo vd => some (.xor 4, m, sg, f, os, cap, vo, vd)
  | .vatomAddB64 m sg f os cap vo vd => some (.add 8, m, sg, f, os, cap, vo, vd)
  | .vatomMinI64 m sg f os cap vo vd => some (.smin 8, m, sg, f, os, cap, vo, vd)
  | .vatomMaxI64 m sg f os cap vo vd => some (.smax 8, m, sg, f, os, cap, vo, vd)
  | .vatomMinN64 m sg f os cap vo vd => some (.umin 8, m, sg, f, os, cap, vo, vd)
  | .vatomMaxN64 m sg f os cap vo vd => some (.umax 8, m, sg, f, os, cap, vo, vd)
  | .vatomAndB64 m sg f os cap vo vd => some (.and 8, m, sg, f, os, cap, vo, vd)
  | .vatomOrB64 m sg f os cap vo vd => some (.or 8, m, sg, f, os, cap, vo, vd)
  | .vatomXorB64 m sg f os cap vo vd => some (.xor 8, m, sg, f, os, cap, vo, vd)
  | .vatomXchgB32 m sg f os cap vo vd => some (.xchg 4, m, sg, f, os, cap, vo, vd)
  | .vatomXchgB64 m sg f os cap vo vd => some (.xchg 8, m, sg, f, os, cap, vo, vd)
  | .vatomCasB32 m sg os cap vo vd => some (.cas 4, m, sg, 1, os, cap, vo, vd)
  | .vatomCasB64 m sg os cap vo vd => some (.cas 8, m, sg, 1, os, cap, vo, vd)
  | .vatomFaddF32 m sg f os cap vo vd => some (.faddF32 false, m, sg, f, os, cap, vo, vd)
  | .vatomFaddF64 m sg f os cap vo vd => some (.faddF64 false, m, sg, f, os, cap, vo, vd)
  | .vatomFaddBf16x2 m sg f os cap vo vd => some (.faddBf16x2 false, m, sg, f, os, cap, vo, vd)
  | .vatomFaddF16x2 m sg f os cap vo vd => some (.faddF16x2 false, m, sg, f, os, cap, vo, vd)
  | .vatomFaddF32Mrg m sg f os cap vo vd => some (.faddF32 true, m, sg, f, os, cap, vo, vd)
  | .vatomFaddF64Mrg m sg f os cap vo vd => some (.faddF64 true, m, sg, f, os, cap, vo, vd)
  | .vatomFaddBf16x2Mrg m sg f os cap vo vd => some (.faddBf16x2 true, m, sg, f, os, cap, vo, vd)
  | .vatomFaddF16x2Mrg m sg f os cap vo vd => some (.faddF16x2 true, m, sg, f, os, cap, vo, vd)
  | _ => none

/-- R237: the AOP codes. -/
def aopAt (n : Nat) : AOp :=
  [.add 4, .add 8, .smin 4, .smax 4, .umin 4, .umax 4, .smin 8, .smax 8, .umin 8, .umax 8, .and 4, .or 4, .xor 4, .and 8, .or 8, .xor 8,
   .xchg 4, .xchg 8, .cas 4, .cas 8, .faddF32 false, .faddF64 false, .faddBf16x2 false, .faddF16x2 false, .faddF32 true, .faddF64 true,
   .faddBf16x2 true, .faddF16x2 true].getD n (.add 4)

/-- R132: the bytes of an atomic, and the operations that the host performs. -/
def aopBytes (a : AOp) : Nat :=
  match a with
  | .add n => n | .smin n => n | .smax n => n | .umin n => n | .umax n => n | .and n => n | .or n => n | .xor n => n
  | .xchg n => n | .cas n => n | .faddF64 _ => 8 | _ => 4
def onHost (a : AOp) : Bool := match a with | .add _ => true | .xchg _ => true | .cas _ => true | _ => false

/-- R22 step 6: the checks of an atomic through a host-space capability. -/
def hostCheck (s : State) (c : Cap) (a : AOp) (l : List (Nat × Int)) : Option (Cause × Nat) :=
  let x := ((l.map Prod.snd).headD 0 % 2 ^ 56).toNat
  if c.space ≠ 3 then none else if !onHost a then some (.atomOp, x) else
  if (getDie s (dieOf (curG s).core)).atomicOp then none else some (.xltHostatom, x)

/-- The permissions of R13, in the order of R9. -/
def pR : BitVec 7 := 1
def pW : BitVec 7 := 2
def pA : BitVec 7 := 8
def pC : BitVec 7 := 32

/-- The access of a load, a store, a prefetch or a tile transfer. -/
def plain (c : Cap) (cap : BitVec 4) (perms : BitVec 7) (spaces : List Nat) (size : Nat) (line : Bool) (l : List (Nat × Int)) : Access :=
  { vecs := [], evens := [], scal := [], caps := [cap], cap := c, perms, spaces, mid := none, align := size, cause := .memAlign, size,
    line, writes := perms != pR, row := false, addrs := l }

def accessOf (s : State) (i : Instr) : Option Access :=
  let g := curG s
  let f := curF s
  let act (m : BitVec 2) : Word := activeMask g f m.toNat
  let low (m : Word) : Nat := (threadsOf m).headD 0
  let pair (r : BitVec 6) (w : Bool) : List Nat := if w then [r.toNat, r.toNat + 1] else [r.toNat]
  let ev (r : BitVec 6) (w : Bool) : List (Nat × Nat) := if w then [(r.toNat, 2)] else []
  let rd := [0, 1, 3, 5]
  let wr := [0, 1, 3]
  let vload (m : BitVec 2) (cap : BitVec 4) (vo vd : BitVec 6) (w : BitVec 3) (line : Bool) : Access :=
    let c := cReg g cap
    { plain c cap pR rd (vecBytes w.toNat) line (vecAt s m c vo.toNat) with vecs := vo.toNat :: pair vd (w == 5), evens := ev vd (w == 5) }
  let vstore (m : BitVec 2) (cap : BitVec 4) (vo vd : BitVec 6) (w : BitVec 2) (line : Bool) : Access :=
    let c := cReg g cap
    { plain c cap (pR ||| pW) wr (2 ^ w.toNat) line (vecAt s m c vo.toNat) with vecs := vo.toNat :: pair vd (w == 3), evens := ev vd (w == 3) }
  match i with
  | .vld m _ _ cap vo vd w => some (vload m cap vo vd w false)
  | .vldNt m _ _ cap vo vd w => some (vload m cap vo vd w false)
  | .vldAcq m ln _ cap vo vd w => some (vload m cap vo vd w (ln == 1))
  | .vst m _ _ cap vo vd _ w => some (vstore m cap vo vd w false)
  | .vstNt m _ _ cap vo vd w => some (vstore m cap vo vd w false)
  | .vstRel m ln _ cap vo vd _ w => some (vstore m cap vo vd w (ln == 1))
  | .lds m _ _ cap so vd w =>
    let c := cReg g cap
    some { plain c cap pR rd (vecBytes w.toNat) false (someAt (act m) (oneAt s c so 0)) with
      vecs := pair vd (w == 5), evens := ev vd (w == 5), scal := [so] }
  | .sts m _ _ cap so vd _ w =>
    let c := cReg g cap
    some { plain c cap (pR ||| pW) wr (2 ^ w.toNat) false (someAt (act m) (oneAt s c so (low (act m)))) with
      vecs := pair vd (w == 3), evens := ev vd (w == 3), scal := [so] }
  | .sld _ _ cap so sd w => some { plain (cReg g cap) cap pR rd (scaBytes w.toNat) false (oneAt s (cReg g cap) so 0) with scal := [so, sd] }
  | .sst _ _ cap so ss _ w =>
    some { plain (cReg g cap) cap (pR ||| pW) wr (2 ^ w.toNat) false (oneAt s (cReg g cap) so 0) with scal := [so, ss] }
  | .pfch m _ _ cap vo => some { plain (cReg g cap) cap pR rd 1 false (vecAt s m (cReg g cap) vo.toNat) with vecs := [vo.toNat] }
  | .tld m _ cap vo vd =>
    some { plain (cReg g cap) cap pR [2] 4 false (vecAt s m (cReg g cap) vo.toNat) with vecs := [vo.toNat, vd.toNat] }
  | .tst m _ _ cap vo vd =>
    some { plain (cReg g cap) cap (pR ||| pW) [2] 4 false (vecAt s m (cReg g cap) vo.toNat) with vecs := [vo.toNat, vd.toNat] }
  | .vratomAddBf16 m _ f _ cap so vd =>
    let c := cReg g cap
    some { plain c cap (pA ||| pW ||| (if f = 1 then pR else 0)) [0, 1] 128 false
        (someAt (act m) (oneAt s c (BitVec.zeroExtend 6 so) (low (act m)))) with
      vecs := [vd.toNat], scal := [BitVec.zeroExtend 6 so], cause := .atomAlign, row := true, writes := false }
  | .satom aoph _ f _ cap so sd func =>
    let c := cReg g cap
    let a := aopAt (aoph.toNat * 8 + func.toNat)
    let l := oneAt s c (BitVec.zeroExtend 6 so) 0
    let d : BitVec 6 := BitVec.zeroExtend 6 sd
    let cas := match a with | .cas _ => true | _ => false
    some { plain c cap (pA ||| pW ||| (if f = 1 then pR else 0)) wr (aopBytes a) false l with
      evens := if cas then [(sd.toNat, 2)] else [], scal := [BitVec.zeroExtend 6 so, d] ++ (if cas then [d + 1] else []),
      mid := hostCheck s c a l, cause := .atomAlign }
  | .cld _ cap so cd =>
    some { plain (cReg g cap) cap pR rd 16 false (oneAt s (cReg g cap) so 0) with scal := [so], caps := [cap, cd], cause := .capAlign }
  | .cst _ cap so cs =>
    let c := cReg g cap
    let v := cReg g cs
    some { plain c cap (if v.tag then pW ||| pC else pW) (if v.tag then [0, 1] else wr) 16 false (oneAt s c so 0) with
      scal := [so], caps := [cap, cs], cause := .capAlign,
      mid := if v.tag && !v.perms.getLsbD 6 && c.space ≠ 1 then some (.capGlobal, c.addr.toNat) else none }
  | i => (vatomForm i).map fun (a, m, _, f, _, cap, vo, vd) =>
    let c := cReg g cap
    let l := vecAt s m c vo.toNat
    let k := match a with | .cas 8 => 4 | .cas _ => 2 | _ => aopBytes a / 4
    { plain c cap (pA ||| pW ||| (if f = 1 then pR else 0)) wr (aopBytes a) false l with
      vecs := vo.toNat :: (List.range k).map (vd.toNat + ·), evens := [(vd.toNat, k)], mid := hostCheck s c a l, cause := .atomAlign }

/-- The names, the scalars and the capability registers of an access are usable, and the fragment stands under no restriction. -/
def Readable (s : State) (x : Access) : Prop :=
  let g := curG s
  (∀ r ∈ x.vecs, r < g.top ∧ r < g.nNames ∧ vIsEmpty g r = false) ∧ (∀ p ∈ x.evens, p.1 % p.2 = 0) ∧ Full s x.scal ∧
    (∀ k ∈ x.caps, cIsEmpty g k = false) ∧ (curF s).redo = none

/-- R7: the extent of a space. -/
def inSpace (s : State) (space a size : Nat) : Bool :=
  let g := curG s
  (List.range size).all fun k =>
    if space = 1 then decide (a + k < 0x600000) && roleAt (getC s g.core) ((a + k) / 2 ^ 16) == 2
    else if space = 2 then (taskOf s g).tiles.contains ((a + k) / 0x6000) else true

/-- R22: the first check that fails, with XADDR. -/
def firstFault (s : State) (x : Access) : Option (Cause × BitVec 56) :=
  let c := x.cap
  let g := curG s
  let bt := (capDecode c).getD (0, 0)
  let at_ (ok : Int → Bool) (k : Cause) : Option (Cause × BitVec 56) :=
    (x.addrs.find? fun p => !ok p.2).map fun p => (k, BitVec.ofInt 56 p.2)
  let line0 := ((x.addrs.map fun p => p.2).headD 0) / 128
  let ro (a : Int) : Bool := c.space ≠ 1 || (entryAt (getC s g.core) g.ctx a.toNat).all fun e => e.2.rwm
  [if c.tag then none else some (.capTag, c.addr),
   if (capDecode c).isSome then none else some (.capFormat, c.addr),
   if c.sealed then some (.capSealed, c.addr) else none,
   if x.spaces.contains c.space.toNat then none else some (.capSpace, c.addr),
   if c.perms &&& x.perms = x.perms then none else some (.capPerm, c.addr),
   x.mid.map fun p => (p.1, BitVec.ofNat 56 p.2),
   at_ (fun a => a % x.align == 0) x.cause,
   if x.line then at_ (fun a => a / 128 == line0) .ordLine else none,
   at_ (fun a => decide ((bt.1 : Int) ≤ a ∧ a + x.size ≤ bt.2)) .capBound,
   at_ (fun a => inSpace s c.space.toNat a.toNat x.size) .spaceRange,
   if x.writes then at_ ro .stashRo else none,
   if x.row && c.space = 1 then at_ (fun a => (entryAt (getC s g.core) g.ctx a.toNat).isNone) .atomOp else none].findSome? id

end Sys2Proof.Claim

open Sys2Proof Sys2Proof.Machine

/-- For each load, store, prefetch, tile transfer, atomic, cld and cst whose names and registers are usable: the first check of R22 that
fails raises its cause with the XADDR of the table, and no thread performs anything; with no active thread the instruction only moves on.
Forms: cld, cst, vld, vldAcq, vst, vstRel, vldNt, vstNt, sld, sst, lds, sts, pfch, tld, tst, vatomAddB32, vatomMinI32, vatomMaxI32,
vatomMinN32, vatomMaxN32, vatomAndB32, vatomOrB32, vatomXorB32, vatomAddB64, vatomMinI64, vatomMaxI64, vatomMinN64, vatomMaxN64,
vatomAndB64, vatomOrB64, vatomXorB64, vatomXchgB32, vatomXchgB64, vatomCasB32, vatomCasB64, vratomAddBf16, vatomFaddF32, vatomFaddF64,
vatomFaddBf16x2, vatomFaddF16x2, vatomFaddF32Mrg, vatomFaddF64Mrg, vatomFaddBf16x2Mrg, vatomFaddF16x2Mrg, satom. -/
def Obligations.AccessChecks : Prop :=
  ∀ (s : State) (i : Instr), i.WellFormed → Claim.OnSome (Claim.accessOf s i) fun x => Claim.Readable s x →
    (x.addrs ≠ [] → Claim.OnSome (Claim.firstFault s x) fun p => exec i s = .next (Claim.raised s i p.1 p.2 none)) ∧
    (x.addrs = [] → ∃ t, exec i s = .next t ∧ Claim.OnlyGroup s t ∧ Claim.Past s t 4 ∧
      curG t = { curG s with split := (curG t).split })

namespace Sys2Proof.Claim
open Machine

/-! The operations that memory instructions issue (R89, R91, R101, R105, R258, R297 to R304, R309, R313 to R316). -/

/-- What an instruction asks for at each of its addresses: the access right, the values stored and expected, the operation. -/
structure Form where
  acc   : Acc
  creg  : Option Nat
  val   : Nat → DWord
  exp   : Nat → DWord
  kind  : OpKind
  mask  : Word
  dst   : Dest
  /-- one value for all threads; a destination that takes it in all 32 -/
  one   : Bool
  whole : Bool
  acq   : Option (BitVec 3)
  rel   : Option (BitVec 3)
  sig   : Bool
  lease : Nat
  /-- a non-temporal load; the host's atomics -/
  nt    : Bool
  host  : Bool

/-- R299: LSEL. -/
def lselOf (l : BitVec 2) : Nat := if l = 0 then 0 else 4 ^ l.toNat

/-- R235: the ordering codes of atomics. -/
def acqOf (os : BitVec 4) : Option (BitVec 3) := if os.toNat < 6 then none else some (BitVec.ofNat 3 (if os.toNat < 11 then os.toNat - 5 else os.toNat - 10))
def relOf (os : BitVec 4) : Option (BitVec 3) :=
  if os = 0 then none else if os.toNat < 6 then some (BitVec.ofNat 3 os.toNat) else if os.toNat < 11 then none
  else some (BitVec.ofNat 3 (os.toNat - 10))

/-- The value of a name or of a pair at a thread. -/
def nameAt (s : State) (r : Nat) (pair : Bool) (t : Nat) : DWord :=
  BitVec.ofNat 64 ((vAt (vReg (curG s) r) t).toNat + if pair then 2 ^ 32 * (vAt (vReg (curG s) (r + 1)) t).toNat else 0)

def loadForm (w : Nat) (cap : BitVec 4) (mask : Word) (dst : Dest) (lease : Nat) : Form :=
  { acc := .load, creg := some cap.toNat, val := fun _ => 0, exp := fun _ => 0, kind := .load w, mask, dst, one := false, whole := false,
    acq := none, rel := none, sig := false, lease, nt := false, host := true }
def storeForm (cap : BitVec 4) (mask : Word) (val : Nat → DWord) (sig : Bool) : Form :=
  { acc := .store, creg := some cap.toNat, val, exp := fun _ => 0, kind := .store, mask, dst := .none, one := false, whole := false,
    acq := none, rel := none, sig, lease := 0, nt := false, host := true }

def formOf (s : State) (i : Instr) : Option Form :=
  let g := curG s
  let f := curF s
  let act (m : BitVec 2) : Word := activeMask g f m.toNat
  let lowest : Word := BitVec.ofNat 32 (2 ^ ((threadsOf f.mask).headD 0))
  let dst (vd : BitVec 6) (w : BitVec 3) : Dest := if w = 5 then .pair vd else .vec vd
  let atom (a : AOp) (cap : BitVec 4) (mask : Word) (d : Dest) (os : BitVec 4) (sig f : Bool) (val exp : Nat → DWord) : Form :=
    { storeForm cap mask val sig with
      acc := .atomic f, exp, kind := .atomic a f, dst := if f then d else .none, acq := acqOf os, rel := relOf os,
      host := onHost a && (getDie s (dieOf g.core)).atomicOp }
  match i with
  | .vld m lsel _ cap _ vd w => some (loadForm w.toNat cap (act m) (dst vd w) (lselOf lsel))
  | .vldNt m lsel _ cap _ vd w => some { loadForm w.toNat cap (act m) (dst vd w) (lselOf lsel) with nt := true }
  | .vldAcq m _ scope cap _ vd w => some { loadForm w.toNat cap (act m) (dst vd w) 0 with acq := some scope }
  | .vst m _ _ cap _ vd sg w => some (storeForm cap (act m) (nameAt s vd.toNat (w == 3)) (sg == 1))
  | .vstNt m _ _ cap _ vd w =>
    some { storeForm cap (act m) (nameAt s vd.toNat (w == 3)) false with kind := if (cReg g cap).space = 1 then .store else .ntStore }
  | .vstRel m _ scope cap _ vd sg w => some { storeForm cap (act m) (nameAt s vd.toNat (w == 3)) (sg == 1) with rel := some scope }
  | .lds m lsel _ cap _ vd w =>
    some { loadForm w.toNat cap (act m) (dst vd w) (lselOf lsel) with one := true, whole := act m == 0xFFFFFFFF }
  | .sts m _ _ cap _ vd sg w => some (storeForm cap (act m) (nameAt s vd.toNat (w == 3)) (sg == 1))
  | .sld ord scope cap _ sd w =>
    some { loadForm (8 + w.toNat) cap lowest (if sd = 0 then .none else .scalar sd) 0 with acq := if ord = 1 then some scope else none }
  | .sst ord scope cap _ ss sg _ =>
    some { storeForm cap lowest (fun _ => sReg g ss) (sg == 1) with rel := if ord = 1 then some scope else none }
  | .cld _ cap _ cd => some { loadForm 0 cap lowest (.capreg cd) 0 with creg := none, kind := .capLoad false }
  | .cst _ cap _ cs => some { storeForm cap lowest (fun _ => 0) false with creg := none, kind := .capStore (cReg g cs) }
  | .satom aoph sg f os cap _ sd func =>
    let a := aopAt (aoph.toNat * 8 + func.toNat)
    let d : BitVec 6 := BitVec.zeroExtend 6 sd
    let e := match a with | .cas _ => sReg g (d + 1) | _ => 0
    some (atom a cap lowest (if sd = 0 then .none else .scalar d) os (sg == 1) (f == 1) (fun _ => sReg g d) fun _ => e)
  | .vratomAddBf16 m sg f os cap _ vd =>
    some { storeForm cap (act m) (nameAt s vd.toNat false) (sg == 1) with
      acc := .rowAtomic (f == 1), kind := .rowAtomic (f == 1), dst := if f = 1 then .vec (BitVec.zeroExtend 6 vd) else .none,
      acq := acqOf os, rel := relOf os }
  | i => (vatomForm i).map fun (a, m, sg, f, os, cap, _, vd) =>
    let w := aopBytes a == 8
    let e : Nat → DWord := match a with | .cas _ => nameAt s (if w then vd.toNat + 2 else vd.toNat + 1) w | _ => fun _ => 0
    let d : BitVec 6 := BitVec.zeroExtend 6 vd
    atom a cap (act m) (if w then .pair d else .vec d) os (sg == 1) (f == 1) (nameAt s vd.toNat w) e

/-- R303: on the SW4 a non-temporal load allocates evict-first. -/
def ntMbf (s : State) (x : Form) (p : Piece) : Piece :=
  if x.nt && s.part != .sw2p then { p with mbf := BitVec.ofNat 5 (p.mbf.toNat / 4 * 4 + 1) } else p

/-- The values of the pieces as they are placed; those of a row atomic come with its words. -/
def first (x : Form) : Nat → DWord := match x.kind with | .rowAtomic _ => fun _ => 0 | _ => x.val

/-- R139: the words of a row atomic's line, one for each active thread. -/
def rowWords (x : Form) (p : Piece) : List Piece :=
  match x.kind with
  | .rowAtomic _ => (threadsOf x.mask).map fun t => { p with thread := t, place := p.place + 4 * t, size := 4, val := x.val t }
  | _ => [p]

/-- The place in program order of what the issuing fragment issues: that of an instruction of which threads are left unfinished, as it is
executed again (R102). -/
def placeInOrder (s : State) : Nat :=
  match (curF s).redoAt with
  | some (a, n) => if a = (curF s).pc then n else s.nextId
  | none => s.nextId

/-- The operation of a form of an instruction, with its pieces. -/
def opOfForm (s : State) (i : Instr) (x : Form) (line : Bool) (ps : List Piece) : Op :=
  { id := s.nextId, kind := x.kind, entry := s.cur.entry, pre := BitVec.ofNat 8 (2 ^ s.cur.entry), pc := (curF s).pc, mask := x.mask,
    uniform := x.one, dst := x.dst, pieces := ps, acq := x.acq, rel := x.rel, lineExt := line, sig := x.sig, lease := x.lease, held := false,
    left := 0, got := [], swait := [], keep := false, refused := 0, seq := placeInOrder s,
    lane := (curG s).slot.getD 0 / 4, regs := insnRegs (codeOf i) (curF s).pc (curG s) (curF s) }

/-- The names of a destination. -/
def dstNames (d : Dest) : List Nat := match d with | .vec r => [r.toNat] | .pair r => [r.toNat, r.toNat + 1] | _ => []

/-- R170: the names of a destination that take shape G have slots. -/
def SlotsFor (g : Group) (d : Dest) (uni : Bool) : Prop :=
  let isGv (r : Nat) : Bool := match vReg g r with | .g _ => true | _ => false
  heldNames g + (if uni then 0 else ((dstNames d).filter fun r => !isGv r).length) ≤
    g.slots.length + if uni then ((dstNames d).filter isGv).length else 0

/-- R166, R188: the destination is empty, every register holds what it held (but a destination that takes one value in all
32 threads), and the group's operations are as given. -/
def Awaits (s t : State) (d : Dest) (whole : Bool) (ops : List Op) : Prop :=
  let g := curG s
  let h := curG t
  h.ops = ops ∧ (∀ r k, k < 32 → (whole = true ∧ r ∈ dstNames d) ∨ vAt (vReg h r) k = vAt (vReg g r) k) ∧
    (∀ r, r < 64 → vIsEmpty h r = ((dstNames d).contains r || vIsEmpty g r)) ∧
    (∀ r, sReg h r = sReg g r ∧ sIsEmpty h r = (d == .scalar r && r != 0 || sIsEmpty g r)) ∧
    (∀ r, cReg h r = cReg g r ∧ cIsEmpty h r = (d == .capreg r || cIsEmpty g r)) ∧
    h = { g with ops := h.ops, v := h.v, gslot := h.gslot, vEmpty := h.vEmpty, sEmpty := h.sEmpty, swr := h.swr, cEmpty := h.cEmpty, split := h.split }

/-- A request of an operation for a piece is on its way to its home, under the generation of a piece of its line, or has merged into a
pending ownership request of the same group (R89). -/
def Sent (s t : State) (uid id : Nat) (ok : ReqKind → Bool) (ps : List Piece) (p : Piece) : Prop :=
  ∃ q ∈ t.reqs, q.2.agent = .group uid id ∧ p ∈ q.2.pieces ∧ ok q.2.kind = true ∧ q.2.line = p.place / 128 ∧ q.2.mode = p.mode ∧
    (∃ r ∈ ps, r.place / 128 = p.place / 128 ∧ q.2.gen = r.gen) ∧ q.2.done = false ∧
    (arrivalEvent q.2 ∈ t.agenda ∨ ∃ r ∈ t.reqs, q.1 ∈ r.2.merged ∧ bringsWords r.2 = true ∧ r.2.line = q.2.line ∧
      ((∃ o, r.2.agent = .group uid o) ∧ ∃ x ∈ s.reqs, x.1 = r.1))

/-- R84 to R89, R135, R368: the kinds of request of a form's piece in global or host memory. -/
def reqIs (s : State) (x : Form) (ps : List Piece) (p : Piece) (k : ReqKind) : Bool :=
  let cached := p.space = 0 && p.mode = 0 &&
    !passesCache s (curG s).core (p.place / 128) (ps.filter fun q => q.space == 0 && q.mode == 0 && q.place / 128 == p.place / 128)
  match x.kind with
  | .store => if cached then k == .own else k == .write
  | .ntStore => k == .write
  | .atomic a f => k == .atomic a f
  | .rowAtomic f => k == .rowAtomic f
  | .capLoad _ => k == .capRead
  | .capStore c => k == .capWrite c
  | _ => k == .read

/-- The pair holds nothing that would serve the piece, or take its store, at once; and its set has room for the line. -/
def NeedsRequest (s : State) (n : Nat) (p : Piece) : Prop :=
  let pair := (curG s).core / 2
  let line := p.place / 128
  p.space = 3 ∨ (p.space = 0 ∧
    (OnSome (pairSet s pair line) fun k => (fget [] s.homes.psets (setKey pair line k)).length + n ≤ 16) ∧
    (replicaOf s pair line (pieceMask p)).isNone ∧
    (∀ w ∈ wordsOf p, ((ownerOf (dirAt s line) (w % 32)).all fun o => !(o.pair.toNat == pair && o.unit == 0)) = true ∧ (ffind s.homes.pcache (unitKey pair w)).isNone) ∧
    (ffind s.homes.leases (2 ^ 45 * pair + line)).isNone)

/-- R91: the FIFO entries of a form: a marker for a release, then one for each line that it writes. -/
def fifoOf (x : Form) (o : Op) : List (Nat × Bool) :=
  (if x.rel.any (· != 0) then [(0, true)] else []) ++ match x.kind with
    | .ntStore => []
    | .load _ => []
    | .capLoad _ => []
    | _ => ((o.pieces.flatMap fifoKeys).dedup.map fun l => (l, false))

/-- The pages of a `cst` keep tags, and a mode-2 page takes the atomic (R19, R134, R369). -/
def PagesAllow (s : State) (c : Cap) (x : Form) (p : Piece) : Prop :=
  (match x.kind with | .capStore v => !v.tag || pageTags s p.shown | _ => true) = true ∧
  (c.space = 0 → p.space = 3 → x.host = true)

/-- What an issue leaves as it was: everything but the group, requests, and the core's FIFO and trace table. -/
def IssueFrame (s t : State) : Prop :=
  (∀ u, u ≠ s.cur.uid → getG t u = getG s u) ∧ MemKept s t ∧
  t.homes = { s.homes with psets := t.homes.psets } ∧
  (∀ k, getC t k = { getC s k with fifo := (getC t k).fifo, inflight := (getC t k).inflight, infOvf := (getC t k).infOvf }) ∧
  (∀ k, k ≠ (curG s).core → getC t k = getC s k) ∧
  t = { s with groups := t.groups, cores := t.cores, homes := t.homes, reqs := t.reqs, agenda := t.agenda, nextId := t.nextId,
               free := t.free }

end Sys2Proof.Claim

open Sys2Proof Sys2Proof.Machine

/-- When every thread translates and the pair holds nothing of the lines, the instruction completes: its destination is empty and keeps its
values, one operation with the stated kind, mask, ordering, lease and pieces is outstanding, the FIFO holds a marker for a release and one
entry for each line written, and, unless an ordering rule holds the operation, each piece has its request on the way. No byte of memory
changes. Where words of a mapped stash are still to be filled the instruction waits at issue (log 96). Forms: cld, cst, vld, vldAcq, vst,
vstRel, vldNt, vstNt, sld, sst, lds, sts, vatomAddB32, vatomMinI32, vatomMaxI32, vatomMinN32, vatomMaxN32, vatomAndB32, vatomOrB32,
vatomXorB32, vatomAddB64, vatomMinI64, vatomMaxI64, vatomMinN64, vatomMaxN64, vatomAndB64, vatomOrB64, vatomXorB64, vatomXchgB32,
vatomXchgB64, vatomCasB32, vatomCasB64, vratomAddBf16, vatomFaddF32, vatomFaddF64, vatomFaddBf16x2, vatomFaddF16x2, vatomFaddF32Mrg,
vatomFaddF64Mrg, vatomFaddBf16x2Mrg, vatomFaddF16x2Mrg, satom. -/
def Obligations.MemoryRequests : Prop :=
  ∀ (s : State) (i : Instr), i.WellFormed → Claim.OnSome (Claim.accessOf s i) fun x => Claim.OnSome (Claim.formOf s i) fun f =>
    let g := curG s
    g.uid = s.cur.uid → x.addrs ≠ [] → Claim.Readable s x → Claim.firstFault s x = none →
    Claim.OnOk (placeAll s f.acc x.cap f.creg x.size (Claim.first f) f.exp x.addrs) fun (qs, us) =>
      let ps := (qs.map (Claim.ntMbf s f)).flatMap (Claim.rowWords f)
      us = [] → (∀ p ∈ ps, Claim.NeedsRequest s ps.length p ∧ Claim.PagesAllow s x.cap f p) → Claim.SlotsFor g f.dst f.whole →
      (f.dst = .none ∨ ∀ o ∈ g.ops, o.dst ≠ f.dst) → (getC s g.core).fifo.length + ps.length + 1 ≤ 256 →
      ∃ t, exec i s = .next t ∧ Claim.Past s t 4 ∧ Claim.IssueFrame s t ∧ (opOf (curG t) s.nextId).isSome = true ∧ Claim.OnSome (opOf (curG t) s.nextId) fun o =>
        o = { Claim.opOfForm s i f x.line o.pieces with kind := o.kind, held := o.held, left := o.left } ∧
        (o.kind = f.kind ∨ (f.kind = .capLoad false ∧ ∃ b ∈ [true, false], o.kind = .capLoad b)) ∧
        (o.pieces.Perm ps) ∧ (collide ps = false → o.pieces = ps) ∧
        Claim.Awaits s t f.dst f.whole (g.ops ++ [o]) ∧
        (getC t g.core).fifo.take (getC s g.core).fifo.length = (getC s g.core).fifo ∧
        (((getC t g.core).fifo.drop (getC s g.core).fifo.length).map fun e => (e.line, e.marker)) = Claim.fifoOf f o ∧
        (∀ e ∈ (getC t g.core).fifo.drop (getC s g.core).fifo.length, e.uid = g.uid ∧ e.op = s.nextId ∧ e.acked = false) ∧
        (o.held = (f.rel.any (· != 0) || opBlocked s g o)) ∧
        (o.held = true → t.reqs = s.reqs ∧ t.agenda = s.agenda ∧ o.left = 0) ∧
        (o.held = false → 0 < o.left ∧ ∀ p ∈ ps, Claim.Sent s t g.uid s.nextId (Claim.reqIs s f ps p) ps p)

namespace Sys2Proof.Claim
open Machine

/-! Accesses to unmapped stash words, which the bank performs at once (R60, R103, R135, R140). -/

/-- R300, R259: what a width code makes of the bytes read: signed or unsigned. -/
def loaded (w x : Nat) : Int :=
  match w with
  | 0 => Int.bmod x (2 ^ 8)
  | 2 => Int.bmod x (2 ^ 16)
  | 8 => Int.bmod x (2 ^ 8)
  | 10 => Int.bmod x (2 ^ 16)
  | 12 => Int.bmod x (2 ^ 32)
  | _ => x

/-- R132: the new value of an integer atomic on values of `n` bytes, and of the float ones (R133). -/
def aopValue (a : AOp) (old x e : Nat) : Nat :=
  let sg (n v : Nat) : Int := Int.bmod v (2 ^ (8 * n))
  match a with
  | .add n => (old + x) % 2 ^ (8 * n)
  | .smin n => if sg n x < sg n old then x else old
  | .smax n => if sg n old < sg n x then x else old
  | .umin _ => min old x
  | .umax _ => max old x
  | .and _ => Nat.land old x
  | .or _ => Nat.lor old x
  | .xor _ => Nat.xor old x
  | .xchg _ => x
  | .cas _ => if old = e then x else old
  | a => (aopNew a (BitVec.ofNat 64 old) (BitVec.ofNat 64 x) 0).toNat

/-- The old value of an atomic as its destination takes it (R316). -/
def oldValue (a : AOp) (scalar : Bool) (old : Nat) : Int :=
  match a with
  | .smin 4 => if scalar then Int.bmod old (2 ^ 32) else old
  | .smax 4 => if scalar then Int.bmod old (2 ^ 32) else old
  | _ => old

/-- No operation of the group is outstanding, no watchpoint of the core is enabled, and no release beyond the group is asked for. -/
def Calm (s : State) (x : Form) : Prop :=
  let c := getC s (curG s).core
  (curG s).ops = [] ∧ (∀ n, n < 4 → (fget Watch.zero c.watches n).en = false) ∧ x.rel.any (· != 0) = false ∧ c.fifo.length ≤ 256

/-- The bytes of an access lie in the stash, unmapped, and, where it writes, outside the operands of matrix operations. -/
def InBank (s : State) (x : Access) (write : Bool) : Prop :=
  let g := curG s
  let c := getC s g.core
  x.cap.space = 1 ∧ ∀ p ∈ x.addrs, (List.range x.size).all (fun k => (entryAt c g.ctx (p.2.toNat + k)).isNone) = true ∧
    (write = true → ∀ r ∈ c.ranges, p.2.toNat + x.size ≤ r.base ∨ r.base + r.len ≤ p.2.toNat)

/-- The value that each thread of a mask receives, in a vector name, a pair, a scalar or a capability register: the rest of the group
is as it was. -/
def Received (s t : State) (d : Dest) (mask : Word) (v : Nat → Int) (cap : Cap) : Prop :=
  let g := curG s
  let h := curG t
  let word (k j : Nat) : Word := BitVec.ofInt 32 (v k / 2 ^ (32 * j))
  (∀ r k, k < 32 → vAt (vReg h r) k =
    if mask.getLsbD k then (match d with
      | .vec x => if r = x.toNat then word k 0 else vAt (vReg g r) k
      | .pair x => if r = x.toNat then word k 0 else if r = x.toNat + 1 then word k 1 else vAt (vReg g r) k
      | _ => vAt (vReg g r) k) else vAt (vReg g r) k) ∧
  (∀ r, r < 64 → vIsEmpty h r = vIsEmpty g r) ∧
  (∀ r, sReg h r = if d = .scalar r ∧ r ≠ 0 then BitVec.ofInt 64 (v 0) else sReg g r) ∧ (∀ r, sIsEmpty h r = sIsEmpty g r) ∧
  (∀ r, cReg h r = if d = .capreg r then cap else cReg g r) ∧ (∀ r, cIsEmpty h r = cIsEmpty g r) ∧
  h = { g with v := h.v, gslot := h.gslot, vEmpty := h.vEmpty, s := h.s, swr := h.swr, sEmpty := h.sEmpty, c := h.c, cEmpty := h.cEmpty, xw := h.xw,
               split := h.split }

/-- The step changed the group, and of the cores only the stash and the stash tags of the group's own, with its trace table; what it
leaves in the FIFOs, see `FifoLeft`. -/
def BankFrame (s t : State) : Prop :=
  let k := (curG s).core
  (∀ u, u ≠ s.cur.uid → getG t u = getG s u) ∧ (∀ j, j ≠ k → getC t j = { getC s j with fifo := (getC t j).fifo }) ∧
  getC t k = { getC s k with stash := (getC t k).stash, stags := (getC t k).stags, inflight := (getC t k).inflight,
                             infOvf := (getC t k).infOvf, fifo := (getC t k).fifo } ∧
  t = { s with groups := t.groups, cores := t.cores, nextId := t.nextId, free := t.free }

/-- R91, R135: where the FIFOs hold entries of operations issued before, none of them acknowledged, the instruction leaves them, and adds
acknowledged entries of its own only where it is an atomic that stands behind others. -/
def FifoLeft (s t : State) (adds : Bool) : Prop :=
  (∀ p ∈ s.cores, ∀ e ∈ p.2.fifo, e.acked = false ∧ e.op < s.nextId) →
  (∀ j, j ≠ (curG s).core → (getC t j).fifo = (getC s j).fifo) ∧
  ∃ l, (getC t (curG s).core).fifo = (getC s (curG s).core).fifo ++ l ∧
    (∀ e ∈ l, e.uid = (curG s).uid ∧ e.op = s.nextId ∧ e.acked = true ∧ e.marker = false) ∧
    (adds = false ∨ (getC s (curG s).core).fifo = [] → l = [])

/-- The value of `n` bytes of the group's stash. -/
def bank (s : State) (a n : Nat) : Nat := readLe (getC s (curG s).core).stash a n
def bankByte (s : State) (a : Nat) : Byte := fget 0 (getC s (curG s).core).stash a
def bankTag (s : State) (j : Nat) : Bool := fget false (getC s (curG s).core).stags j

/-- The bytes that a store's form writes for a thread, and whether it leaves a tag. -/
def formBytes (f : Form) (size k : Nat) : List Byte :=
  match f.kind with
  | .capStore c => leBytes (capBits c) 16
  | _ => leBytes (f.val k).toNat size
def formTag (f : Form) : Bool := match f.kind with | .capStore c => c.tag | _ => false

/-- Whether the bytes of two threads' accesses meet. -/
def apart (l : List (Nat × Int)) (size : Nat) : Bool :=
  l.all fun p => l.all fun q => p.1 == q.1 || p.2 + size ≤ q.2 || q.2 + size ≤ p.2

end Sys2Proof.Claim

open Sys2Proof Sys2Proof.Machine

/-- A load, uniform load, scalar load or cld of unmapped stash bytes, with nothing of the group outstanding, completes at once: each active
thread receives the little-endian bytes at its address, extended as the width code says; the stash and all memory are as before. Forms: cld,
vld, vldAcq, vldNt, sld, lds. -/
def Obligations.StashLoads : Prop :=
  ∀ (s : State) (i : Instr), i.WellFormed → Claim.OnSome (Claim.accessOf s i) fun x => Claim.OnSome (Claim.formOf s i) fun f =>
    let g := curG s
    let w := match f.kind with | .load w => w | _ => 4
    let at_ (k : Nat) : Nat := (((x.addrs.find? fun (j, _) => j == k || f.one || x.addrs.length == 1).map Prod.snd).getD 0).toNat
    let a0 := at_ 0
    g.uid = s.cur.uid → x.addrs ≠ [] → Claim.Readable s x → Claim.firstFault s x = none → Claim.Calm s f → Claim.InBank s x false →
    Claim.SlotsFor g f.dst f.whole → (isLoad f.kind = true ∨ f.kind = .capLoad false) →
    ∃ t, exec i s = .next t ∧ Claim.Past s t 4 ∧ Claim.BankFrame s t ∧ Claim.FifoLeft s t false ∧ Claim.MemKept s t ∧
      (getC t g.core).stash = (getC s g.core).stash ∧ (getC t g.core).stags = (getC s g.core).stags ∧
      Claim.Received s t f.dst f.mask (fun k => Claim.loaded w (Claim.bank s (at_ k) x.size))
        (capOfBits (Claim.bank s a0 16) (Claim.bankTag s (a0 / 16) && x.cap.perms.getLsbD 5))

/-- A store, sts, sst or cst to unmapped stash bytes completes at once: every byte outside the threads' accesses is as before, each byte
inside one is the byte of one thread that covers it, and the tags of the granules touched are cleared, or set by a cst of a tagged value.
Forms: cst, vst, vstRel, vstNt, sst, sts. -/
def Obligations.StashStores : Prop :=
  ∀ (s : State) (i : Instr), i.WellFormed → Claim.OnSome (Claim.accessOf s i) fun x => Claim.OnSome (Claim.formOf s i) fun f =>
    let g := curG s
    g.uid = s.cur.uid → x.addrs ≠ [] → Claim.Readable s x → Claim.firstFault s x = none → Claim.Calm s f → Claim.InBank s x true →
    (isStore f.kind = true ∨ f.acc = .store) →
    ∃ t, exec i s = .next t ∧ Claim.Past s t 4 ∧ Claim.BankFrame s t ∧ Claim.FifoLeft s t false ∧ Claim.MemKept s t ∧
      curG t = { g with split := (curG t).split } ∧
      (∀ b, (∀ p ∈ x.addrs, b < p.2.toNat ∨ p.2.toNat + x.size ≤ b) → Claim.bankByte t b = Claim.bankByte s b) ∧
      (∀ p ∈ x.addrs, ∀ j, j < x.size → ∃ q ∈ x.addrs, q.2.toNat ≤ p.2.toNat + j ∧ p.2.toNat + j < q.2.toNat + x.size ∧
        Claim.bankByte t (p.2.toNat + j) = (Claim.formBytes f x.size q.1).getD (p.2.toNat + j - q.2.toNat) 0) ∧
      (∀ k, Claim.bankTag t k = if (∃ p ∈ x.addrs, 16 * k < p.2.toNat + x.size ∧ p.2.toNat < 16 * k + 16) then Claim.formTag f
        else Claim.bankTag s k)

/-- Each atomic on unmapped stash words completes at once: where the threads' locations lie apart, each location holds the new value of R132
or R139 and a fetching thread receives the old one; bytes outside are as before. Forms: vatomAddB32, vatomMinI32, vatomMaxI32, vatomMinN32,
vatomMaxN32, vatomAndB32, vatomOrB32, vatomXorB32, vatomAddB64, vatomMinI64, vatomMaxI64, vatomMinN64, vatomMaxN64, vatomAndB64, vatomOrB64,
vatomXorB64, vatomXchgB32, vatomXchgB64, vatomCasB32, vatomCasB64, vratomAddBf16, vatomFaddF32, vatomFaddF64, vatomFaddBf16x2,
vatomFaddF16x2, vatomFaddF32Mrg, vatomFaddF64Mrg, vatomFaddBf16x2Mrg, vatomFaddF16x2Mrg, satom. -/
def Obligations.StashAtomics : Prop :=
  ∀ (s : State) (i : Instr), i.WellFormed → Claim.OnSome (Claim.accessOf s i) fun x => Claim.OnSome (Claim.formOf s i) fun f =>
    let g := curG s
    let row := x.row
    let ex := f.dst ≠ .none
    let at_ (k : Nat) : Nat := if row then ((x.addrs.map Prod.snd).headD 0).toNat + 4 * k else
      (((x.addrs.find? fun (j, _) => j == k).map Prod.snd).getD 0).toNat
    let sz := if row then 4 else x.size
    let old (k : Nat) : Nat := Claim.bank s (at_ k) sz
    let lanes := if row then threadsOf f.mask else x.addrs.map Prod.fst
    let new (k : Nat) : Nat := match f.kind with
      | .atomic a _ => Claim.aopValue a (old k) ((f.val k).toNat % 2 ^ (8 * sz)) ((f.exp k).toNat % 2 ^ (8 * sz))
      | _ => Claim.aopValue (.faddBf16x2 false) (old k) (f.val k).toNat 0
    let back (k : Nat) : Int := match f.kind with
      | .atomic a _ => Claim.oldValue a (x.vecs = []) (old k)
      | _ => old k
    g.uid = s.cur.uid → x.addrs ≠ [] → Claim.Readable s x → Claim.firstFault s x = none → Claim.Calm s f → (getC s g.core).fifo.length + 2 * x.addrs.length ≤ 256 → Claim.InBank s x true →
    Claim.SlotsFor g f.dst false → (x.cause = .atomAlign) →
    ∃ t, exec i s = .next t ∧ Claim.Past s t 4 ∧ Claim.BankFrame s t ∧ Claim.FifoLeft s t true ∧ Claim.MemKept s t ∧
      (∀ b, (∀ k ∈ lanes, b < at_ k ∨ at_ k + sz ≤ b) → Claim.bankByte t b = Claim.bankByte s b) ∧
      (∀ k, Claim.bankTag t k = if (∃ l ∈ lanes, 16 * k < at_ l + sz ∧ at_ l < 16 * k + 16) then false else Claim.bankTag s k) ∧
      (¬ex → curG t = { g with split := (curG t).split }) ∧
      (Claim.apart x.addrs x.size = true →
        (∀ k ∈ lanes, Claim.bank t (at_ k) sz = new k) ∧ Claim.Received s t f.dst f.mask back Cap.null)

namespace Sys2Proof.Claim
open Machine

/-! Translation, partial completion, tiles, prefetch, `vqnt` and `xshf`. -/

/-- R35: the leaf rights of an access, as (needed, present, cause), in the order of R36, and the modes that it is permitted in. -/
def rightsOf (a : Acc) (l : Leaf) : List (Bool × Bool × Cause) :=
  let rd := a == .load || a == .fill || a == .lock || a == .monitor || a == .atomic true || a == .rowAtomic true
  let atom := a == .atomic true || a == .atomic false || a == .rowAtomic true || a == .rowAtomic false
  [(rd, l.r, .xltRead), (a == .store || atom, l.w, .xltWrite), (atom, l.a, .xltAtomic), (a == .lock, l.l, .xltLock), (a == .exec, l.x, .xltExec)]
def modesOf (a : Acc) : List (BitVec 2) :=
  match a with
  | .load => [0, 1, 2]
  | .store => [0, 1, 2]
  | .atomic _ => [0, 1, 2]
  | .rowAtomic _ => [0, 1]
  | .fill => [0, 1]
  | _ => [0]

/-- R36 steps 4 and 5: the fault of an access to a page. -/
def leafFault (a : Acc) (l : Leaf) : Option Cause :=
  match (rightsOf a l).find? fun r => r.1 && !r.2.1 with
  | some r => some r.2.2
  | none => if (modesOf a).contains l.mode then none else some .xltMode

/-- The piece of one thread's access to global memory through a page (R31, R35, R131). -/
def pieceAt (l : Leaf) (t size va : Nat) (val exp : DWord) : Piece :=
  { thread := t, space := if l.mode = 2 then 3 else 0, place := (l.base + if l.sz then va % 2 ^ 25 else va % 2 ^ 16) % 2 ^ 52, size, val, exp,
    shown := va, gen := l.gen, mode := l.mode, mbf := l.mbf, bound := [] }

/-- R40: what translation register `x` of the group holds as a page. -/
def xwLeaf (x : XW) : Leaf :=
  { sz := x.sz, r := x.rights.getLsbD 0, w := x.rights.getLsbD 1, a := x.rights.getLsbD 2, l := x.rights.getLsbD 3, x := false, tags := false,
    mode := x.mode, mbf := x.mbf, gen := x.gen, base := 2 ^ 16 * x.pframe.toNat }

/-- R40: whether a translation register serves an access through a capability register. -/
def xwTakes (x : XW) (creg : Nat) (a : Acc) (va size : Nat) : Bool :=
  x.valid && x.creg.toNat == creg && decide (2 ^ 16 * x.vpage.toNat ≤ va ∧ va + size ≤ 2 ^ 16 * x.vpage.toNat + x.limit.toNat) &&
    ((rightsOf a (xwLeaf x)).all fun r => !r.1 || r.2.1)

/-- R50: the kind of access that a fault record names. -/
def accessKind (a : Acc) : AccKind :=
  match a with
  | .atomic _ => .atomic
  | .rowAtomic _ => .atomic
  | .store => .store
  | .lock => .lock
  | .monitor => .load
  | .exec => .exec
  | _ => .load

/-- R49: the state in which instruction `i` has taken a translation fault with an unfinished mask, from a state in which the other
threads have performed. The accesses that are left, as (space, address, size), keep their place in the order of the instruction (R102). -/
def faulted (s s1 : State) (i : Instr) (c : Cause) (a : Nat) (mask : Word) (acc : AccKind) (left : List (Nat × Nat × Nat)) : State :=
  let pc := (curF s).pc
  takePrecise (modCurF s1 fun f => { f with redoSpots := left.map fun x => (pc, x) }) c { insnRegs (codeOf i) (curF s).pc (curG s) (curF s) with xaddr := BitVec.ofNat 56 a } (some mask) (some acc)

/-- The instructions whose every thread reads a value of its own. -/
def perThreadDst (f : Form) : Bool :=
  match f.kind, f.dst with
  | .load _, .vec _ => !f.one
  | .load _, .pair _ => !f.one
  | .atomic _ _, .vec _ => true
  | .atomic _ _, .pair _ => true
  | _, _ => false

/-- A tile of the task that an operation of the pair's matrix queue owns. -/
def owned (s : State) (tile : Nat) : Bool := (getC s ((curG s).core / 2 * 2)).towner.any fun p => p.1 == tile

/-- The tile transfers: m and vd; the source of `tst`. -/
def tldForm (i : Instr) : Option (BitVec 2 × BitVec 6) := match i with | .tld m _ _ _ vd => some (m, vd) | _ => none
def tstForm (i : Instr) : Option (BitVec 6) := match i with | .tst _ _ _ _ _ vd => some vd | _ => none
def isPfch (i : Instr) : Bool := match i with | .pfch _ _ _ _ _ => true | _ => false

/-- A word of the tile store of the group's core. -/
def tileWord (s : State) (a : Nat) : Word := fget 0 (getC s (curG s).core).tiles (a / 4)

/-- R224, R225, R349: the entry and the words of a thread of `vqnt`: the scale and the smoothing value that stand in the stash, 1.0 where the
entry has none. -/
def quantAt (s : State) (t : Tid) (x j : Word) : Word × BitVec 6 :=
  let sc := if t.scv then bank s (4 * t.scb + 4 * (j.toNat / 2 ^ 16 % 2 ^ 15)) 4 else 0x3F800000
  let sm := if t.smv then bank s (4 * t.smb + 4 * (j.toNat % 2 ^ 16)) 4 else 0x3F800000
  if t.fmt = 4 then
    let r := readOut x.toNat (j.getLsbD 31) sc sm
    (BitVec.ofNat 32 r.1, r.2)
  else
    let x' := if t.smv then (fDiv fmtF32 0 (fDecode fmtF32 x.toNat) (fDecode fmtF32 sm)).1 else x.toNat
    let r := quant t x' sc
    (if t.fmt = 6 then BitVec.ofInt 32 r.1.toInt else BitVec.ofNat 32 r.1.toNat, r.2)

/-- `vqnt`: m, the entry's number, vs1 and vd. -/
def quantForm (i : Instr) : Option (BitVec 2 × BitVec 7 × BitVec 6 × BitVec 6) :=
  match i with | .vqnt m _ tid vs vd => some (m, tid, vs, vd) | _ => none

/-- `xshf`: m, ss, vs1 and vd. -/
def exchangeForm (i : Instr) : Option (BitVec 2 × BitVec 6 × BitVec 6 × BitVec 6) :=
  match i with | .xshf m _ ss vs vd => some (m, ss, vs, vd) | _ => none

/-- The stash words that a thread of `vqnt` reads. -/
def quantReads (t : Tid) (j : Word) : List Nat :=
  (if t.scv then [4 * t.scb + 4 * (j.toNat / 2 ^ 16 % 2 ^ 15)] else []) ++ (if t.smv then [4 * t.smb + 4 * (j.toNat % 2 ^ 16)] else [])

end Sys2Proof.Claim

open Sys2Proof Sys2Proof.Machine

/-- An address that the core's TLB holds translates, or takes the first missing right in the order of R36, or XLT_MODE; one that it does not
hold needs a walk. The lowest translation register that qualifies under R40 serves a global access. Host and unmapped stash addresses are
used as they are. -/
def Sys2Proof.Claim.Translation : Prop :=
  ∀ (s : State) (a : Acc) (va t size : Nat) (val exp : DWord) (k : Nat),
    let g := curG s
    (curF s).walked = [] →
    (Claim.OnSome (tlbFind (getC s g.core) g.ctx va) fun l =>
      xlate s g (curF s) a va = (match Claim.leafFault a l with | some c => .fault c | none => .ok l) ∧
      ((∀ n, n < 8 → (fget XW.zero g.xw n).valid = false) → ∀ sp ∈ [0, 5],
        placeOne s a sp (some k) t size va val exp = .ok (match Claim.leafFault a l with
          | some c => .error (c, va)
          | none => .ok (Claim.pieceAt l t size va val exp)))) ∧
    (tlbFind (getC s g.core) g.ctx va = none → xlate s g (curF s) a va = .miss ∧ placeOne s a 5 (some k) t size va val exp = .error (.walk va)) ∧
    (∀ n, n < 8 → Claim.xwTakes (fget XW.zero g.xw n) k a va size = true →
      (∀ m, m < n → Claim.xwTakes (fget XW.zero g.xw m) k a va size = false) →
      let l := Claim.xwLeaf (fget XW.zero g.xw n)
      placeOne s a 0 (some k) t size va val exp = .ok (if (Claim.modesOf a).contains l.mode then .ok (Claim.pieceAt l t size va val exp)
        else .error (.xltMode, va))) ∧
    placeOne s a 3 (some k) t size va val exp =
      .ok (.ok { Claim.pieceAt { Claim.xwLeaf XW.zero with mode := 2 } t size va val exp with place := va }) ∧
    (entryAt (getC s g.core) g.ctx va = none → placeOne s a 1 (some k) t size va val exp =
      .ok (.ok { Claim.pieceAt (Claim.xwLeaf XW.zero) t size va val exp with space := 1, place := va }))

/-- When some threads of a memory instruction do not translate, the others perform, and the instruction takes the fault of its lowest
unfinished thread with XADDR its address and the mask of the unfinished threads; when an address needs a walk, the fragment waits for it and
nothing else changes. An instruction that must wait for fills of the stash stays at issue (log 96); the access of a line address is log 19,
the walks of several threads log 81. Forms: cld, cst, vld, vldAcq, vst, vstRel, vldNt, vstNt, sld, sst, lds, sts, vatomAddB32, vatomMinI32,
vatomMaxI32, vatomMinN32, vatomMaxN32, vatomAndB32, vatomOrB32, vatomXorB32, vatomAddB64, vatomMinI64, vatomMaxI64, vatomMinN64,
vatomMaxN64, vatomAndB64, vatomOrB64, vatomXorB64, vatomXchgB32, vatomXchgB64, vatomCasB32, vatomCasB64, vratomAddBf16, vatomFaddF32,
vatomFaddF64, vatomFaddBf16x2, vatomFaddF16x2, vatomFaddF32Mrg, vatomFaddF64Mrg, vatomFaddBf16x2Mrg, vatomFaddF16x2Mrg, satom. -/
def Sys2Proof.Claim.TranslationFaults : Prop :=
  ∀ (s : State) (i : Instr), i.WellFormed → Claim.OnSome (Claim.accessOf s i) fun x => Claim.OnSome (Claim.formOf s i) fun f =>
    let g := curG s
    x.addrs ≠ [] → Claim.Readable s x → Claim.firstFault s x = none →
    (∀ va, placeAll s f.acc x.cap f.creg x.size (Claim.first f) f.exp x.addrs = .error (.walk va) →
      ∃ t, exec i s = .next t ∧ Claim.OnlyGroup s { t with walks := s.walks, agenda := s.agenda, nextId := s.nextId } ∧
        (curF t).pc = (curF s).pc ∧ (curF t).walking = some s.nextId ∧ .pageWalkComplete s.nextId ∈ t.agenda ∧
        curG t = { g with split := (curG t).split }) ∧
    (Claim.OnOk (placeAll s f.acc x.cap f.creg x.size (Claim.first f) f.exp x.addrs) fun (qs, us) =>
      let ps := (qs.map (Claim.ntMbf s f)).flatMap (Claim.rowWords f)
      let mask : Word := if x.scal = [] then BitVec.ofNat 32 ((us.map fun (k, _) => 2 ^ k).sum) else f.mask
      let o := { Claim.opOfForm s i f x.line ps with id := 0, seq := 0, keep := true }
      Claim.OnSome us.head? fun (_, c, a, _) =>
        (∀ p ∈ ps, Claim.PagesAllow s x.cap f p ∧ (p.space = 1 → (getC s g.core).ranges = [])) →
        (∀ b ∈ [false, true], f.kind ≠ .capLoad b) → x.row = false →
        -- words that the other threads may access are still to be filled: the instruction stays at issue (log 96)
        (fillsLacking s o ≠ [] → ∃ t, exec i s = .next t ∧ (curF t).pc = (curF s).pc ∧ (curF t).why = 12 ∧ Claim.MemKept s t ∧
          curG t = { g with split := (curG t).split }) ∧
        -- else they perform, and the fault is taken
        (fillsLacking s o = [] → Claim.SlotsFor g f.dst f.whole → (getC s g.core).fifo.length + fifoNeed o ≤ 256 →
        exec i s = .next (Claim.faulted s
          (if ps ≠ [] then issueOp (modCur s fun g => markDest (rejoin g f.dst true) f.dst f.whole) o
            else if Claim.perThreadDst f then modCur s fun g => markDest (rejoin g f.dst true) f.dst f.whole else s) i c a mask
              (Claim.accessKind f.acc) (us.map fun u => u.2.2.2))))

/-- tld of tiles that no accepted matrix operation owns gives each thread its word at once; tst writes its words, or suspends on the lowest
tile that is owned; pfch changes no register, no memory and no FIFO entry. Forms: tld, tst, pfch. -/
def Obligations.TileTransfers : Prop :=
  ∀ (s : State) (i : Instr), i.WellFormed → Claim.OnSome (Claim.accessOf s i) fun x =>
    let g := curG s
    let c := getC s g.core
    let tileOf (a : Int) : Nat := a.toNat / 0x6000
    x.addrs ≠ [] → Claim.Readable s x → Claim.firstFault s x = none → g.uid = s.cur.uid →
    (Claim.OnSome (Claim.tldForm i) fun (m, vd) =>
        (x.addrs.all fun (_, a) => !Claim.owned s (tileOf a)) = true → g.ops = [] → c.fifo.length ≤ 256 → Claim.SlotsFor g (.vec vd) false →
        ∃ t, exec i s = .next t ∧ Claim.Past s t 4 ∧ Claim.BankFrame s t ∧ Claim.FifoLeft s t false ∧ (getC t g.core).stash = c.stash ∧
          (∀ r k, k < 32 → vAt (vReg (curG t) r) k = if r = vd.toNat ∧ (activeMask g (curF s) m.toNat).getLsbD k then
            Claim.tileWord s (((x.addrs.find? fun (j, _) => j == k).map Prod.snd).getD 0).toNat else vAt (vReg g r) k) ∧
          curG t = { g with v := (curG t).v, gslot := (curG t).gslot, split := (curG t).split } ∧ Claim.MemKept s t) ∧
    (Claim.OnSome (Claim.tstForm i) fun vd =>
        ((x.addrs.all fun (_, a) => !Claim.owned s (tileOf a)) = true → g.ops = [] →
          ∃ t, exec i s = .next t ∧ Claim.Past s t 4 ∧ (∀ u, u ≠ s.cur.uid → getG t u = getG s u) ∧ Claim.MemKept s t ∧
            curG t = { g with split := (curG t).split } ∧ (∀ k, getC t k = { getC s k with tiles := (getC t k).tiles, fifo := (getC t k).fifo }) ∧
            (∀ k, k ≠ g.core → (getC t k).tiles = (getC s k).tiles) ∧ Claim.FifoLeft s t false ∧ t = { s with groups := t.groups, cores := t.cores, free := t.free, nextId := t.nextId } ∧
            (∀ p ∈ x.addrs, ∃ q ∈ x.addrs, q.2 = p.2 ∧ Claim.tileWord t p.2.toNat = vAt (vReg g vd.toNat) q.1) ∧
            (∀ b, (∀ p ∈ x.addrs, p.2.toNat / 4 ≠ b / 4) → Claim.tileWord t b = Claim.tileWord s b)) ∧
        (∀ n, n < 16 → (x.addrs.any fun (_, a) => tileOf a == n) = true → Claim.owned s n = true →
          (∀ k, k < n → (x.addrs.any fun (_, a) => tileOf a == k) = false ∨ Claim.owned s k = false) →
          ∃ t, exec i s = .next t ∧ Claim.Deposited s t (.tile (BitVec.ofNat 4 n)) (curF s).mask 2)) ∧
    (Claim.isPfch i = true →
        ∃ t, exec i s = .next t ∧ Claim.Past s t 4 ∧ (∀ u, u ≠ s.cur.uid → getG t u = getG s u) ∧ Claim.MemKept s t ∧
          curG t = { g with split := (curG t).split } ∧
          (∀ k, getC t k = { getC s k with inflight := (getC t k).inflight, infOvf := (getC t k).infOvf }) ∧
          t = { s with groups := t.groups, cores := t.cores, reqs := t.reqs, fills := t.fills, agenda := t.agenda, nextId := t.nextId })

/-- vqnt raises TID_INVALID, TID_FMT or QNT_FORM where R349 says so, and else gives each active thread the quantised value or the scaled
read-out, with the flags of R224 or R215; the scales and smoothing values are read from the stash. Quotients that are NaN or infinite follow
log 26, NV of a read-out log 49: the model's choices. Forms: vqnt. -/
def Obligations.QuantiseInstruction : Prop :=
  ∀ (s : State) (i : Instr), i.WellFormed → Claim.OnSome (Claim.quantForm i) fun (m, tid, vs, vd) =>
    let g := curG s
    let c := getC s g.core
    let x (k : Nat) : Word := vAt (vReg g vs.toNat) k
    let j (k : Nat) : Word := vAt (vReg g (vs.toNat + 1)) k
    let on := (List.range 32).filter (Claim.Active s m.toNat)
    let shape := Claim.shapeBy (fun _ => false) [shapeCode (vReg g vs.toNat), shapeCode (vReg g (vs.toNat + 1))]
    g.uid = s.cur.uid → Claim.Usable g [(vs.toNat, true), (vd.toNat, false)] → (curF s).redo = none →
    ((ffind c.tids tid.toNat).all (fun e => e.ctx != g.ctx) = true → exec i s = .next (Claim.raised s i .tidInvalid 0 none)) ∧
    (Claim.OnSome (ffind c.tids tid.toNat) fun e => e.ctx = g.ctx →
      (e.fmt ≠ 0 → e.fmt ≠ 1 → e.fmt ≠ 4 → e.fmt ≠ 6 → exec i s = .next (Claim.raised s i .tidFmt 0 none)) ∧
      (e.fmt = 0 ∨ e.fmt = 1 ∨ e.fmt = 4 ∨ e.fmt = 6 →
        let bad (k : Nat) : Bool := (e.fmt != 4 && (j k).getLsbD 31) || decide (e.rowsm1 < (j k).toNat / 2 ^ 16 % 2 ^ 15) ||
          decide (e.km1 < (j k).toNat % 2 ^ 16)
        (on.any bad = true → exec i s = .next (Claim.raised s i .qntForm 0 none)) ∧
        (on.any bad = false → g.ops = [] → (∀ n, n < 4 → (fget Watch.zero c.watches n).en = false) → c.fifo.length ≤ 256 →
          Claim.Room s m.toNat (vd.toNat, false) shape →
          (∀ k ∈ on, ∀ a ∈ Claim.quantReads e (j k), Claim.inSpace s 1 a 4 = true ∧ (entryAt c g.ctx a).isNone = true) →
          ∃ t, exec i s = .next t ∧ Claim.Past s t 4 ∧ Claim.BankFrame s { t with tasks := s.tasks } ∧ Claim.FifoLeft s t false ∧ Claim.MemKept s t ∧
            (getC t g.core).stash = c.stash ∧
            Claim.VectorWritten s t m.toNat (vd.toNat, false) shape (fun k => (Claim.quantAt s e (x k) (j k)).1.toNat) ∧
            (∀ k, getT t k = if k = g.task ∧ g.task ≠ 0 then
              { getT s k with fflags := (getT s k).fflags ||| Claim.flagsOf s m.toNat fun k => (Claim.quantAt s e (x k) (j k)).2 } else getT s k))))

/-- xshf raises XSHF_FORM or XSHF_DUP where R292 says so, and else sends its context, key, active set and values to the exchange and
deposits a record with the exchange condition at the same PC. Forms: xshf. -/
def Obligations.ExchangeRequest : Prop :=
  ∀ (s : State) (i : Instr), Claim.OnSome (Claim.exchangeForm i) fun (m, ss, vs, vd) =>
    let g := curG s
    let v := (sReg g ss).toNat
    let pc := v % 2 ^ 7
    let bad := v / 2 ^ 7 % 2 ^ 25 ≠ 0 ∨ (match s.part with | .sw2p => 48 | _ => 96) ≤ pc ∨ pc / 2 = g.core / 2
    let dup := (s.records ++ g.stuck).any fun r => r.uid == s.cur.uid && match r.cond with | .exchange _ _ => true | _ => false
    Claim.Usable g [(vs.toNat, false), (vd.toNat, false)] → Claim.Full s [ss] → g.uid = s.cur.uid → s.cur.entry < 8 →
    (bad → exec i s = .next (Claim.raised s i .xshfForm 0 none)) ∧
    (¬bad → dup = true → exec i s = .next (Claim.raised s i .xshfDup 0 none)) ∧
    (¬bad → dup = false → Claim.Room s m.toNat (vd.toNat, false) 2 →
      ∃ t, exec i s = .next t ∧ Claim.Deposited s t (.exchange pc (BitVec.ofNat 32 (v / 2 ^ 32))) (curF s).mask 2 ∧
        (∃ q ∈ t.reqs, q.2.agent = .group g.uid s.cur.entry ∧ .xshfRequestArrival q.1 ∈ t.agenda ∧ q.2.core = g.core ∧ q.2.ctx = g.ctx ∧
          q.2.kind = .exchange (BitVec.ofNat 32 (v / 2 ^ 32)) pc vd ((List.range 32).map fun k => vAt (vReg g vs.toNat) k)
            (BitVec.ofNat 32 (((List.range 32).filter (Claim.Active s m.toNat)).map (2 ^ ·)).sum)))

namespace Sys2Proof.Claim
open Machine

/-! Stash mappings, locks, monitors, barriers, fences, teams and `launch`. -/

/-- R63, R311: the mapping entry that the four scalars of `smap` give. -/
def mapOf (c : Cap) (ctx : BitVec 12) (x0 x1 x2 x3 : Nat) : MapEntry :=
  { cap := c, rwm := x0.testBit 56, gath := x0.testBit 57, err := false, ctx, stride := x0 % 2 ^ 25, foff := x0 / 2 ^ 25 % 2 ^ 24,
    flen := x0 / 2 ^ 49 % 2 ^ 7, count := x1 % 2 ^ 23, sbase := x2 / 2 ^ 7 % 2 ^ 16, slen := x2 / 2 ^ 32 % 2 ^ 16,
    idx := x3 / 4 % 2 ^ 21, fills := 0, wbacks := 0 }

/-- The stash bytes of an entry, from the first to before the last, and those of its index list. -/
def mapLo (e : MapEntry) : Nat := 128 * e.sbase
def mapHi (e : MapEntry) : Nat := 128 * (e.sbase + e.slen)
def Apart (lo hi lo' hi' : Nat) : Prop := hi ≤ lo' ∨ hi' ≤ lo

/-- R65 step 2: the fields are well formed, beside the entries that the new one does not renew. -/
def MapFormed (e : MapEntry) (x0 x1 x2 x3 : Nat) (others : List MapEntry) : Prop :=
  (x0 / 2 ^ 58 = 0 ∧ x1 / 2 ^ 23 = 0 ∧ x2 % 2 ^ 7 = 0 ∧ x2 / 2 ^ 23 % 2 ^ 9 = 0 ∧ x2 / 2 ^ 48 = 0 ∧ x3 % 4 = 0 ∧ x3 / 2 ^ 23 = 0) ∧
  (1 ≤ e.flen ∧ e.flen ≤ 64 ∧ 1 ≤ e.stride ∧ e.stride ≤ 2 ^ 24 ∧ 1 ≤ e.count ∧ 1 ≤ e.slen ∧ e.count * e.flen ≤ 128 * e.slen) ∧
  (e.rwm = true → e.flen ≤ e.stride ∧ e.gath = false) ∧ (e.gath = false → e.idx = 0) ∧
  (e.gath = true → ∀ m ∈ e :: others, Apart (4 * e.idx) (4 * e.idx + 4 * e.count) (mapLo m) (mapHi m))

/-- R66: an entry that a `smap` renews: all fields but CAP's bounds and permissions, FILLS, WBACKS and ERR agree. -/
abbrev Renewed (e m : MapEntry) : Prop :=
  m = { e with
    cap := { e.cap with perms := m.cap.perms, e := m.cap.e, b := m.cap.b, t := m.cap.t }, err := m.err, fills := m.fills, wbacks := m.wbacks }

/-- R65 step 3: a stretch of stash bytes lies in the task's allocation and in granules with the stash role. -/
def InStash (s : State) (lo hi : Nat) : Prop :=
  let t := getT s (curG s).task
  65536 * t.gbase ≤ lo ∧ hi ≤ 65536 * (t.gbase + t.ngran) ∧ hi ≤ 0x600000 ∧
  ∀ k ∈ List.range 96, lo < 65536 * (k + 1) → 65536 * k < hi → roleAt (getC s (curG s).core) k = 2

/-- R25, R65 step 4: the reach of an entry lies in its capability's bounds. -/
def Reaches (e : MapEntry) : Prop :=
  let a := e.cap.addr.toNat + e.foff
  e.gath = true ∨ OnSome (capDecode e.cap) fun (b, t) => b ≤ a ∧ a + (e.count - 1) * e.stride + e.flen ≤ t

/-- The dirty bytes of a core's mapped words in a stretch of stash bytes that are bound to device memory, with their values. -/
def dirtyBytes (s : State) (core : Nat) (inside : Nat → Bool) : List (Nat × Byte) :=
  ((getC s core).swords.filter fun p => inside p.1 && p.2.d).flatMap fun p =>
    p.2.bound.zipIdx.filterMap fun x => x.1.map fun a => (a, fget 0 (getC s core).stash (4 * p.1 + x.2))

/-- R72: those bytes are written back; every other byte of memory at its home is as it was. -/
def WrittenBack (s t : State) (l : List (Nat × Byte)) : Prop :=
  ∀ a, (a, memByte t a) ∈ l ∨ ((∀ x ∈ l, x.1 ≠ a) ∧ memByte t a = memByte s a)

/-- The state of a mapped word. -/
def wordOf (s : State) (core k : Nat) : SWord := fget SWord.zero (getC s core).swords k

/-- What the instructions on mapped words leave as it was: every register, every stash byte, every other core and group. LSTALE may rise as
words that are copies under a lease go (R96). -/
def StashFrame (s t : State) : Prop :=
  let core := (curG s).core
  (∀ u, u ≠ s.cur.uid → getG t u = getG s u) ∧ (∀ k, k ≠ core → getC t k = getC s k) ∧
  getC t core = { getC s core with maps := (getC t core).maps, swords := (getC t core).swords, lstale := (getC t core).lstale } ∧
  t = { s with groups := t.groups, cores := t.cores, homes := t.homes } ∧
  t.homes = { s.homes with
    mem := t.homes.mem, tags := t.homes.tags, dir := t.homes.dir, l2 := t.homes.l2, packed := t.homes.packed, reps := t.homes.reps,
    repVec := t.homes.repVec, sects := t.homes.sects }

/-- No fill of the core's stash is in flight, and no access of a group there to its words is outstanding. -/
def Settled (s : State) (core : Nat) : Prop :=
  (∀ p ∈ s.fills, p.2.core ≠ core) ∧
    ∀ p ∈ s.groups, p.2.core = core → ∀ o ∈ p.2.ops ++ (getG s p.1).ops, o.swait = [] ∧ ∀ q ∈ o.pieces, q.space ≠ 1

/-- R312: the words with a byte in a range that an entry of the group's context governs. -/
def mappedIn (s : State) (lo hi k : Nat) : Bool :=
  decide (lo < 4 * k + 4 ∧ 4 * k < hi) && (entryAt (getC s (curG s).core) (curG s).ctx (4 * k)).isSome

/-- R22, R312: the checks of `sflush` and `sinval` on their range pass. -/
def RangeAllowed (s : State) (c : Cap) (need : BitVec 7) (n : Nat) : Prop :=
  Sound c ∧ c.space = 1 ∧ c.perms &&& need = need ∧
    OnSome (capDecode c) (fun (b, t) => b ≤ c.addr.toNat ∧ c.addr.toNat + n ≤ t) ∧ c.addr.toNat + n ≤ 0x600000 ∧
    ∀ k ∈ List.range 96, c.addr.toNat < 65536 * (k + 1) → 65536 * k < c.addr.toNat + n → roleAt (getC s (curG s).core) k = 2

end Sys2Proof.Claim

open Sys2Proof Sys2Proof.Machine

/-- R65 to R68, R311: `smap`: a form that is not well formed traps SMAP_FORM; an entry that renews another replaces its capability; one that
lies clear of the entries of its context takes the lowest free number, with all its words invalid. Forms: smap. -/
def Sys2Proof.Claim.StashMap : Prop :=
  ∀ (s : State) (ss : BitVec 6) (cap : BitVec 4) (sd : BitVec 6),
    let g := curG s
    let core := g.core
    let c := cReg g cap
    let i : Instr := .smap ss cap sd
    let x (k : BitVec 6) : Nat := (sReg g (ss + k)).toNat
    let e := Claim.mapOf c g.ctx (x 0) (x 1) (x 2) (x 3)
    let others := ((getC s core).maps.filter fun p => !decide (Claim.Renewed e p.2)).map fun p => p.2
    let need : BitVec 7 := if e.rwm then Claim.pR ||| Claim.pW else Claim.pR
    i.WellFormed → Claim.Full s [ss, ss + 1, ss + 2, ss + 3, sd] → cIsEmpty g cap = false → Claim.Sound c → c.space = 0 →
    c.perms &&& need = need →
    (¬Claim.MapFormed e (x 0) (x 1) (x 2) (x 3) others → exec i s = .next (Claim.raised s i .smapForm 0 none)) ∧
    (Claim.MapFormed e (x 0) (x 1) (x 2) (x 3) others → Claim.InStash s (Claim.mapLo e) (Claim.mapHi e) →
      (e.gath = true → Claim.InStash s (4 * e.idx) (4 * e.idx + 4 * e.count)) → Claim.Reaches e →
      (∀ n ∈ List.range 32, Claim.OnSome (ffind (getC s core).maps n) fun m => Claim.Renewed e m →
        (∀ p ∈ (getC s core).maps, p.1 ≠ n → ¬Claim.Renewed e p.2) →
        ∃ t, exec i s = .next t ∧ Claim.Past s t 4 ∧ Claim.ScalarWritten s t sd (BitVec.ofNat 64 n) ∧ Claim.StashFrame s t ∧
          t.homes = s.homes ∧ (getC t core).swords = (getC s core).swords ∧
          ∀ k ∈ List.range 32, ffind (getC t core).maps k = if k = n then some { m with cap := c } else ffind (getC s core).maps k) ∧
      ((∀ p ∈ (getC s core).maps, p.2.ctx = g.ctx → ¬Claim.Renewed e p.2 ∧
          Claim.Apart (Claim.mapLo e) (Claim.mapHi e) (Claim.mapLo p.2) (Claim.mapHi p.2) ∧
          (p.2.gath = true → Claim.Apart (Claim.mapLo e) (Claim.mapHi e) (4 * p.2.idx) (4 * p.2.idx + 4 * p.2.count))) →
        ∀ n ∈ List.range 32, ffind (getC s core).maps n = none → (∀ k ∈ List.range n, (ffind (getC s core).maps k).isSome = true) →
        ∃ t, exec i s = .next t ∧ Claim.Past s t 4 ∧ Claim.ScalarWritten s t sd (BitVec.ofNat 64 n) ∧ Claim.StashFrame s t ∧
          t.homes = { s.homes with dir := t.homes.dir } ∧
          (∀ k, k < 1572864 → Claim.wordOf t core k =
            if Claim.mapLo e ≤ 4 * k ∧ 4 * k < Claim.mapHi e then SWord.zero else Claim.wordOf s core k) ∧
          ∀ k ∈ List.range 32, ffind (getC t core).maps k = if k = n then some e else ffind (getC s core).maps k))

/-- R69, R72, R312: `sunmap` removes the entry that governs a byte, with its dirty words written back; `sflush` writes the dirty words of a
range back and they become clean; `sinval` discards the words of a range; a range of length 0 does nothing. Forms: sunmap, sflush, sinval.
-/
def Sys2Proof.Claim.StashMaintenance : Prop :=
  ∀ (s : State),
    let g := curG s
    let core := g.core
    Claim.Settled s core →
    (∀ (b : BitVec 1) (ss : BitVec 6), Claim.Full s [ss] →
      let a := (sReg g ss).toNat % 2 ^ 23
      (entryAt (getC s core) g.ctx a = none →
        ∃ t, exec (.sunmap b ss) s = .next t ∧ Claim.OnlyGroup s t ∧ Claim.Past s t 4 ∧ curG t = { g with split := (curG t).split }) ∧
      (Claim.OnSome (entryAt (getC s core) g.ctx a) fun (n, e) => ffind (getC s core).maps n = some e →
        let inside (k : Nat) : Bool := decide (Claim.mapLo e ≤ 4 * k ∧ 4 * k < Claim.mapHi e)
        ∃ t, exec (.sunmap b ss) s = .next t ∧ Claim.Past s t 4 ∧ Claim.RegsKept g (curG t) ∧ Claim.StashFrame s t ∧
          Claim.WrittenBack s t (Claim.dirtyBytes s core inside) ∧
          (∀ k, k < 1572864 → Claim.wordOf t core k = if inside k then SWord.zero else Claim.wordOf s core k) ∧
          ffind (getC t core).maps n = none ∧
          ∀ k ∈ List.range 32, k ≠ n → (ffind (getC t core).maps k).map (fun m => { m with wbacks := 0 }) =
            (ffind (getC s core).maps k).map fun m => { m with wbacks := 0 })) ∧
    (∀ (b : BitVec 1) (ss : BitVec 6) (cap : BitVec 4),
      let v := (sReg g ss).toNat
      let c := cReg g cap
      let inside := Claim.mappedIn s c.addr.toNat (c.addr.toNat + v)
      Claim.Full s [ss] → cIsEmpty g cap = false →
      (v = 0 → ∀ i ∈ [Instr.sflush b ss cap, .sinval b ss cap], i.WellFormed →
        ∃ t, exec i s = .next t ∧ Claim.OnlyGroup s t ∧ Claim.Past s t 4 ∧ curG t = { g with split := (curG t).split }) ∧
      (v ≠ 0 → (Instr.sflush b ss cap).WellFormed → Claim.RangeAllowed s c Claim.pR v →
        ∃ t, exec (.sflush b ss cap) s = .next t ∧ Claim.Past s t 4 ∧ Claim.RegsKept g (curG t) ∧ Claim.StashFrame s t ∧
          Claim.WrittenBack s t (Claim.dirtyBytes s core inside) ∧
          ∀ k, k < 1572864 → Claim.wordOf t core k = { Claim.wordOf s core k with d := (Claim.wordOf s core k).d && !inside k }) ∧
      (v ≠ 0 → (Instr.sinval b ss cap).WellFormed → Claim.RangeAllowed s c (Claim.pR ||| Claim.pW) v →
        ∃ t, exec (.sinval b ss cap) s = .next t ∧ Claim.Past s t 4 ∧ Claim.RegsKept g (curG t) ∧ Claim.StashFrame s t ∧
          Claim.WrittenBack s t [] ∧ (getC t core).maps = (getC s core).maps ∧
          ∀ k, k < 1572864 → (if inside k then (Claim.wordOf t core k).v = false ∧ (Claim.wordOf t core k).d = false
            else Claim.wordOf t core k = Claim.wordOf s core k)))

namespace Sys2Proof.Claim
open Machine

/-! Locks, monitors, barriers, fences, teams and `launch` (R113, R117, R142, R145, R154, R157 to R160, R178, R269, R319 to R322, R424). -/

/-- R13: the lock permission. -/
def pL : BitVec 7 := 16

/-- The access of an instruction that names one location by a capability and a scalar offset. -/
def oneAccess (s : State) (cap : BitVec 4) (so : BitVec 6) (perms : BitVec 7) (space size : Nat) (k : Cause) : Access :=
  { plain (cReg (curG s) cap) cap perms [space] size false (oneAt s (cReg (curG s) cap) so 0) with scal := [so], cause := k, writes := false }

/-- An operation of the issuing fragment that acts once for it. -/
def opWith (s : State) (i : Instr) (kind : OpKind) (dst : Dest) (ps : List Piece) (acq rel : Option (BitVec 3)) : Op :=
  { id := s.nextId, kind, entry := s.cur.entry, pre := BitVec.ofNat 8 (2 ^ s.cur.entry), pc := (curF s).pc, mask := 0, uniform := false,
    dst, pieces := ps, acq, rel, lineExt := false, sig := false, lease := 0, held := false, left := 0, got := [], swait := [],
    keep := false, refused := 0, seq := placeInOrder s, lane := (curG s).slot.getD 0 / 4,
    regs := insnRegs (codeOf i) (curF s).pc (curG s) (curF s) }

/-- The group after such an operation: the operation is its youngest, its destination is empty, its held locks are as given. -/
def OpIssued (s t : State) (o : Op) (locks : List LockEnt) : Prop :=
  let g := curG s
  let h := curG t
  h.ops = g.ops ++ [o] ∧ h.locks = locks ∧ (∀ r, sReg h r = sReg g r ∧ sIsEmpty h r = (o.dst == .scalar r && r != 0 || sIsEmpty g r)) ∧
    h = { g with ops := h.ops, locks := h.locks, sEmpty := h.sEmpty, swr := h.swr, split := h.split }

/-- The core's FIFO has gained these entries of the operation that is issued, and is else as it was. -/
def FifoGains (s t : State) (es : List (Nat × Bool)) : Prop :=
  let c := (curG s).core
  (getC t c).fifo.take (getC s c).fifo.length = (getC s c).fifo ∧
    (((getC t c).fifo.drop (getC s c).fifo.length).map fun e => (e.line, e.marker)) = es ∧
    ∀ e ∈ (getC t c).fifo.drop (getC s c).fifo.length, e.uid = (curG s).uid ∧ e.op = s.nextId ∧ e.acked = false

/-- The operation waits in the request queue, or its one request is on its way. -/
def Goes (s t : State) (o : Op) (held : Bool) (k : ReqKind) : Prop :=
  o.held = held ∧ o.left = (if held then 0 else 1) ∧
    (held = true → t.reqs = s.reqs) ∧
    (held = false → ∀ p ∈ o.pieces, Sent s t (curG s).uid s.nextId (fun x => x == k) o.pieces p)

/-- The fields of a barrier word, and a word of such fields (R157). -/
def bArr (w : Nat) : Nat := w % 2 ^ 16
def bExp (w : Nat) : Nat := w / 2 ^ 16 % 2 ^ 16
def bDrop (w : Nat) : Nat := w / 2 ^ 32 % 2 ^ 16
def bPh (w : Nat) : Nat := w / 2 ^ 48 % 2
def bWord (arr exp drop ph : Nat) : Nat := arr + 2 ^ 16 * exp + 2 ^ 32 * drop + 2 ^ 48 * ph

/-- R158: one arrival at a word: the new word, and the phase in which the arrival counts. -/
def oneArrival (w : Nat) (drop : Bool) : Nat × Nat :=
  let d := if drop then 1 else 0
  if bArr w = bExp w then (bWord 1 (bExp w - bDrop w) d (1 - bPh w), 1 - bPh w)
  else if bArr w + 1 = bExp w then (bWord 0 (bExp w - (bDrop w + d)) 0 (1 - bPh w), bPh w)
  else (bWord (bArr w + 1) (bExp w) (bDrop w + d) (bPh w), bPh w)

/-- The eight bytes of a core's stash at an address. -/
def wordAt (s : State) (core a : Nat) : Nat := ((List.range 8).map fun k => (fget (0 : Byte) (getC s core).stash (a + k)).toNat * 2 ^ (8 * k)).sum

/-- R189, R190: the issuing fragment has deposited a record with a condition at a PC, under its mask, and waits. -/
def DepositedAt (s t : State) (pc : BitVec 56) (cond : Cond) : Prop :=
  (∃ r ∈ t.records ++ (curG t).stuck, r.uid = s.cur.uid ∧ r.frag = s.cur.entry ∧ r.ctx = (curG s).ctx ∧ r.pc = pc ∧ r.mask = (curF s).mask ∧
    r.cond = cond ∧ r.ready = false ∧ r.owner = (curG s).core) ∧
  (curF t).st = 2 ∧ (curF t).pc = pc ∧ (curF t).mask = (curF s).mask ∧ ∀ k, k ≠ s.cur.entry → getF (curG t) k = getF (curG s) k

/-- R158, R160, R321: an arrival that counts at issue: the word, the phase in sd, and the record of a `barr.aw` whose phase is not over. -/
def Counted (s t : State) (a : Nat) (sd : BitVec 6) (n : Nat × Nat) (wait : Bool) : Prop :=
  let core := (curG s).core
  wordAt t core a = n.1 ∧
  (∀ b, b < a ∨ a + 8 ≤ b → fget (0 : Byte) (getC t core).stash b = fget 0 (getC s core).stash b) ∧
  (∀ r, sReg (curG t) r = if r = sd ∧ sd ≠ 0 ∧ ¬(wait = true ∧ bPh n.1 = n.2) then BitVec.ofNat 64 n.2 else sReg (curG s) r) ∧
  (∀ r, sIsEmpty (curG t) r = sIsEmpty (curG s) r) ∧
  if wait = true ∧ bPh n.1 = n.2 then DepositedAt s t ((curF s).pc + 4) (.barrier a (some (n.2 == 1)) sd)
  else Past s t 4 ∧ t.records = s.records ∧ ∀ u, u ≠ s.cur.uid → getG t u = getG s u

/-- R424: an arrival that waits for earlier accesses: a held operation with its marker; sd is empty, or `barr.aw` suspends. -/
def ArrivalHeld (s t : State) (a : Nat) (sd : BitVec 6) (drop wait : Bool) : Prop :=
  (∃ o ∈ (curG t).ops, o.id = s.nextId ∧ o.kind = .barrier drop wait ∧ o.held = true ∧
    o.dst = (if wait = true ∨ sd = 0 then .none else .scalar sd) ∧ o.pieces.map (fun p => p.place) = [a]) ∧
  FifoGains s t [(0, true)] ∧ (curG t).s = (curG s).s ∧
  (wait = false → Past s t 4 ∧ ∀ r, sIsEmpty (curG t) r = (r == sd && r != 0 || sIsEmpty (curG s) r)) ∧
  (wait = true → DepositedAt s t ((curF s).pc + 4) (.barrier a none sd))

/-- R102: whether the issuing fragment is in the user handler of an instruction with unfinished threads, or about to execute those. -/
def unfinished (s : State) : Bool :=
  (curF s).redoAt.any fun p => decide (p.2 < s.nextId) && ((curG s).handler == some s.cur.entry || (curF s).pc == p.1)

/-- R113, R117: whether an earlier operation of the fragment is one that a fence of kind k, or `ntdrain` (none), waits for. -/
def fenceWaits (s : State) (k : Option (BitVec 2)) (scope : BitVec 3) : Bool :=
  let g := curG s
  let nt (o : Op) : Bool := match o.kind with | .ntStore => true | _ => false
  let fence (o : Op) : Bool := match o.kind with | .fence _ => true | .ntdrain => true | _ => false
  let earlier := g.ops.filter fun o => (decide (o.seq < s.nextId) || (o.seq == s.nextId && decide (o.id < s.nextId))) &&
    o.pre.getLsbD s.cur.entry && !fence o
  unfinished s || match k with
  | none => earlier.any nt
  | some k => (earlier.any fun o => !nt o) ||
      (k == 3 && decide (3 ≤ scope.toNat) && (getC s g.core).fifo.any fun e => e.uid == g.uid && decide (e.op < s.nextId))

/-- R178: the members of a team. -/
def teamSize (s : State) (k : BitVec 6) : Nat := fget 0 (getC s (curG s).core).teams ((curG s).ctx.toNat * 64 + k.toNat)

/-- Only the group, and the member count of one team on its core, have changed. -/
def TeamFrame (s t : State) (k : BitVec 6) (n : Nat) : Prop :=
  let core := (curG s).core
  (∀ j, fget 0 (getC t core).teams j = if j = (curG s).ctx.toNat * 64 + k.toNat then n else fget 0 (getC s core).teams j) ∧
  getC t core = { getC s core with teams := (getC t core).teams } ∧ (∀ c, c ≠ core → getC t c = getC s c) ∧
  (∀ u, u ≠ s.cur.uid → getG t u = getG s u) ∧ MemKept s t ∧ t = { s with groups := t.groups, cores := t.cores }

/-- R197: a field of a queue's control block, as its home holds it. -/
def blockBits (s : State) (q : Queue) (lo n : Nat) : Nat := visLe s q.cb 64 / 2 ^ lo % 2 ^ n

end Sys2Proof.Claim

open Sys2Proof Sys2Proof.Machine

/-- R142, R145, R153, R319: `lck.acq`, `lck.try`, `lck.rel` and `lck.stat`: their checks, and what each issues. Forms: lckAcq, lckTry,
lckRel, lckStat. -/
def Sys2Proof.Claim.LockInstructions : Prop :=
  ∀ (s : State) (cap : BitVec 4) (so st sd : BitVec 6),
    let g := curG s
    let x := Claim.oneAccess s cap so (Claim.pL ||| Claim.pR) 0 128 .lckAlign
    g.uid = s.cur.uid → Claim.Readable s x → Claim.Full s [st, sd] →
    (∀ i ∈ [Instr.lckAcq cap st so sd, .lckTry cap so sd, .lckRel cap so, .lckStat cap so sd], i.WellFormed →
      Claim.OnSome (Claim.firstFault s x) fun p => exec i s = .next (Claim.raised s i p.1 p.2 none)) ∧
    (Claim.firstFault s x = none →
      (8 ≤ g.locks.length → ∀ i ∈ [Instr.lckAcq cap st so sd, .lckTry cap so sd], i.WellFormed →
        exec i s = .next (Claim.raised s i .lckLimit 0 none)) ∧
      (Claim.OnOk (placeAll s .lock x.cap (some cap.toNat) 128 (fun _ => 0) (fun _ => 0) x.addrs) fun (ps, us) => us = [] → ∀ p ∈ ps,
        -- an acquire: the line enters the held-lock list, and the request goes to its home
        (g.locks.length < 8 → ∀ a ∈ [(Instr.lckAcq cap st so sd, BitVec.truncate 32 (sReg g st), false), (.lckTry cap so sd, 0, true)],
          a.1.WellFormed →
          let o := Claim.opWith s a.1 (.lockAcq a.2.1 a.2.2) (.scalar sd) ps (some 4) none
          let held := opBlocked s g o
          let e : LockEnt := { line := p.place / 128, gen := p.gen, granted := false, marked := false, remain := 0, sd, op := s.nextId }
          ∃ t, exec a.1 s = .next t ∧ Claim.Past s t 4 ∧ Claim.IssueFrame s t ∧ Claim.FifoGains s t [] ∧
            Claim.OpIssued s t { o with held, left := if held then 0 else 1 } (g.locks ++ [e]) ∧
            Claim.Goes s t { o with held, left := if held then 0 else 1 } held (.lock a.2.1 a.2.2)) ∧
        -- a release: a line that the group does not hold traps; else the entry of the hold is removed and a marker enters the FIFO
        ((Instr.lckRel cap so).WellFormed →
          let i := Instr.lckRel cap so
          let o := { Claim.opWith s i .lockRel .none ps none (some 4) with held := true }
          ((∀ e ∈ g.locks, e.line = p.place / 128 → e.granted = false) → exec i s = .next (Claim.raised s i .lckNotheld p.shown none)) ∧
          ((∃ e ∈ g.locks, e.line = p.place / 128 ∧ e.granted = true) → (getC s g.core).fifo.length < 256 →
            ∃ t, exec i s = .next t ∧ Claim.Past s t 4 ∧ Claim.IssueFrame s t ∧ Claim.FifoGains s t [(0, true)] ∧
              Claim.OpIssued s t o (g.locks.filter fun e => e.line != p.place / 128 || !e.granted) ∧ Claim.Goes s t { o with left := 0 } true .unlock)) ∧
        -- the snapshot of a lock
        ((Instr.lckStat cap so sd).WellFormed →
          let o := Claim.opWith s (.lckStat cap so sd) .lockStat (.scalar sd) ps none none
          let held := opBlocked s g o
          ∃ t, exec (.lckStat cap so sd) s = .next t ∧ Claim.Past s t 4 ∧ Claim.IssueFrame s t ∧ Claim.FifoGains s t [] ∧
            Claim.OpIssued s t { o with held, left := if held then 0 else 1 } g.locks ∧
            Claim.Goes s t { o with held, left := if held then 0 else 1 } held .stat)))

/-- R154, R320: `mwait`: its checks; it sends the expected value and the timeout to the word's home, and suspends behind itself. Forms:
mwait. -/
def Sys2Proof.Claim.MonitorWait : Prop :=
  ∀ (s : State) (cap : BitVec 4) (so st sd : BitVec 6),
    let g := curG s
    let x := Claim.oneAccess s cap so Claim.pR 0 4 .monForm
    let i := Instr.mwait cap st so sd
    i.WellFormed → g.uid = s.cur.uid → Claim.Readable s x → Claim.Full s [st, sd] →
    (Claim.OnSome (Claim.firstFault s x) fun p => exec i s = .next (Claim.raised s i p.1 p.2 none)) ∧
    (Claim.firstFault s x = none →
      Claim.OnOk (placeAll s .monitor x.cap (some cap.toNat) 4 (fun _ => 0) (fun _ => 0) x.addrs) fun (ps, us) => us = [] → ∀ p ∈ ps,
        let k : Word × BitVec 32 := (BitVec.truncate 32 (sReg g sd), BitVec.truncate 32 (sReg g st))
        let o := Claim.opWith s i (.monitorWait k.1 k.2) (if sd = 0 then .none else .scalar sd) ps none none
        let held := opBlocked s g o
        ∃ t, exec i s = .next t ∧ Claim.DepositedAt s t ((curF s).pc + 4) (.monitor p.place) ∧
          Claim.RegsKept g { curG t with sEmpty := g.sEmpty } ∧ (∀ r, sIsEmpty (curG t) r = (r == sd && r != 0 || sIsEmpty g r)) ∧
          (curG t).ops = g.ops ++ [{ o with held, left := if held then 0 else 1 }] ∧
          Claim.Goes s t { o with held, left := if held then 0 else 1 } held
            (.monitor k.1 k.2))

/-- R159: a barrier instruction traps BARR_FORM when EXP is 0, when ARR exceeds EXP, or when its drop would make DROP exceed EXP, with the
word unchanged; a word with ARR = EXP does not trap. Forms: barrArr, barrAw, barrDrop. -/
def Obligations.BarrierForm : Prop :=
  ∀ (s : State) (cap : BitVec 4) (so sd : BitVec 6),
    let g := curG s
    let x := Claim.oneAccess s cap so (Claim.pR ||| Claim.pW) 1 8 .barrAddr
    Claim.Readable s x → Claim.Full s [sd] → Claim.firstFault s x = none →
    ∀ a ∈ x.addrs.map (fun p => p.2.toNat), entryAt (getC s g.core) g.ctx a = none →
    ∀ i ∈ [(Instr.barrArr cap so sd, false), (.barrAw cap so sd, false), (.barrDrop cap so sd, true)], i.1.WellFormed →
      let w := Claim.wordAt s g.core a
      (Claim.bExp w = 0 ∨ Claim.bExp w < Claim.bArr w ∨ (i.2 = true ∧ Claim.bExp w < Claim.bDrop w + 1) →
        exec i.1 s = .next (Claim.raised s i.1 .barrForm (BitVec.ofNat 56 a) none) ∧
        Claim.wordAt (Claim.raised s i.1 .barrForm (BitVec.ofNat 56 a) none) g.core a = w) ∧
      (Claim.bExp w ≠ 0 → Claim.bArr w = Claim.bExp w → (i.2 = true → Claim.bDrop w < Claim.bExp w) → g.ops = [] → Claim.unfinished s = false →
        (∀ e ∈ (getC s g.core).fifo, e.uid ≠ g.uid) → (∀ r ∈ (getC s g.core).ranges, a + 8 ≤ r.base ∨ r.base + r.len ≤ a) →
        ∃ t, exec i.1 s = .next t ∧ (curF t).pc = (curF s).pc + 4 ∧ (curG t).handler = g.handler)

/-- R157, R158, R160, R321, R424: a barrier instruction that counts at issue: the word, the phase that it returns, and whether `barr.aw`
waits; and one that must wait for earlier accesses. Forms: barrArr, barrAw, barrDrop. -/
def Sys2Proof.Claim.BarrierArrival : Prop :=
  ∀ (s : State) (cap : BitVec 4) (so sd : BitVec 6),
    let g := curG s
    let core := g.core
    let x := Claim.oneAccess s cap so (Claim.pR ||| Claim.pW) 1 8 .barrAddr
    g.uid = s.cur.uid → Claim.Readable s x → Claim.Full s [sd] → Claim.firstFault s x = none →
    ∀ a ∈ x.addrs.map (fun p => p.2.toNat),
    ∀ i ∈ [(Instr.barrArr cap so sd, false, false), (.barrAw cap so sd, false, true), (.barrDrop cap so sd, true, false)], i.1.WellFormed →
      let w := Claim.wordAt s core a
      let n := Claim.oneArrival w i.2.1
      ((entryAt (getC s core) g.ctx a).isSome = true → exec i.1 s = .next (Claim.raised s i.1 .barrAddr (BitVec.ofNat 56 a) none)) ∧
      (entryAt (getC s core) g.ctx a = none → Claim.bExp w ≠ 0 → Claim.bArr w ≤ Claim.bExp w → (i.2.1 = true → Claim.bDrop w < Claim.bExp w) →
        (g.ops = [] → Claim.unfinished s = false → (∀ e ∈ (getC s core).fifo, e.uid ≠ g.uid) →
          (∀ e ∈ (getC s core).arrivals, e.1 ≠ a) → (∀ r ∈ (getC s core).ranges, a + 8 ≤ r.base ∨ r.base + r.len ≤ a) → s.records = [] →
          (∀ n, fget Watch.zero (getC s core).watches n = Watch.zero) →
          Claim.bDrop w + (if i.2.1 then 1 else 0) ≤ Claim.bExp w →
          ∃ t, exec i.1 s = .next t ∧ Claim.Counted s t a sd n i.2.2) ∧
        ((∃ e ∈ (getC s core).fifo, e.uid = g.uid) ∨ Claim.unfinished s = true → (getC s core).fifo.length < 256 →
          ∃ t, exec i.1 s = .next t ∧ Claim.wordAt t core a = w ∧ Claim.ArrivalHeld s t a sd i.2.1 i.2.2))

/-- R105, R113, R117: `fence` and `ntdrain`: nothing where nothing is to be waited for or at scope grp; else a hold enters the group's
request queue. Forms: fence, ntdrain. -/
def Sys2Proof.Claim.Fences : Prop :=
  ∀ (s : State) (scope : BitVec 3) (k : BitVec 2),
    let g := curG s
    g.uid = s.cur.uid →
    ∀ i ∈ [(Instr.fence scope k, some k, OpKind.fence k, some scope), (.ntdrain, none, .ntdrain, none)], i.1.WellFormed →
      ((i.2.2.2 = some 0 ∨ Claim.fenceWaits s i.2.1 scope = false) →
        ∃ t, exec i.1 s = .next t ∧ Claim.OnlyGroup s t ∧ Claim.Past s t 4 ∧ curG t = { g with split := (curG t).split }) ∧
      (i.2.2.2 ≠ some 0 → Claim.fenceWaits s i.2.1 scope = true →
        let o := { Claim.opWith s i.1 i.2.2.1 .none [] i.2.2.2 none with held := true }
        ∃ t, exec i.1 s = .next t ∧ Claim.Past s t 4 ∧ Claim.IssueFrame s t ∧ Claim.FifoGains s t [] ∧ Claim.OpIssued s t o g.locks ∧
          t.reqs = s.reqs ∧ t.agenda = s.agenda)

/-- R178, R322: `tjoin` and `tleave`. Forms: tjoin, tleave. -/
def Sys2Proof.Claim.Teams : Prop :=
  ∀ (s : State) (k sd : BitVec 6),
    let g := curG s
    let n := Claim.teamSize s k
    s.cur.entry < 8 → (curF s).valid = true → Claim.Full s [sd] →
    ((Instr.tjoin k sd).WellFormed →
      (g.team ≠ none ∨ 64 ≤ n ∨ ¬Claim.Alone s → exec (.tjoin k sd) s = .next (Claim.raised s (.tjoin k sd) .teamForm 0 none)) ∧
      (g.team = none → n < 64 → Claim.Alone s → ∃ t, exec (.tjoin k sd) s = .next t ∧ Claim.Past s t 4 ∧ Claim.TeamFrame s t k (n + 1) ∧
        (∀ r, sReg (curG t) r = if r = sd ∧ sd ≠ 0 then BitVec.ofNat 64 n else sReg g r) ∧ (∀ r, sIsEmpty (curG t) r = sIsEmpty g r) ∧
          curG t = { g with team := some k, s := (curG t).s, swr := (curG t).swr, sEmpty := (curG t).sEmpty, split := (curG t).split })) ∧
    (g.team = none ∨ ¬Claim.Alone s → exec .tleave s = .next (Claim.raised s .tleave .teamForm 0 none)) ∧
    (g.team = some k → Claim.Alone s → ∃ t, exec .tleave s = .next t ∧ Claim.Past s t 4 ∧ Claim.TeamFrame s t k (n - 1) ∧
      curG t = { g with team := none, split := (curG t).split })

/-- R270: `launch` raises LAUNCH_DENY when it names a queue that is 64 or above, that is registered to another context, or that is disabled;
no queue state changes. Forms: launch. -/
def Obligations.LaunchDenied : Prop :=
  ∀ (s : State) (cap : BitVec 4) (so sq : BitVec 6),
    let g := curG s
    let i := Instr.launch cap so sq
    i.WellFormed → Claim.Full s [sq, so] → g.cEmpty.getLsbD cap.toNat = false →
    (64 ≤ (sReg g sq).toNat ∨ (Claim.OnSome (ffind s.queues (sReg g sq).toNat) fun q => q.ctx ≠ g.ctx ∨ Claim.blockBits s q 63 1 = 0) →
      exec i s = .next (Claim.raised s i .launchDeny 0 none) ∧ (Claim.raised s i .launchDeny 0 none).queues = s.queues)

/-- R269: `launch` on a queue of its context that is enabled: its checks, and the held operation with the four parts of its source, sq
empty. Forms: launch. -/
def Sys2Proof.Claim.LaunchInstruction : Prop :=
  ∀ (s : State) (cap : BitVec 4) (so sq : BitVec 6),
    let g := curG s
    let i := Instr.launch cap so sq
    let x := { Claim.oneAccess s cap so Claim.pR 0 64 .memAlign with align := 1 }
    let a := (x.addrs.map fun p => p.2).headD 0
    g.uid = s.cur.uid → i.WellFormed → Claim.Readable s x → Claim.Full s [sq] →
    ((sReg g sq).toNat < 64 → Claim.OnSome (ffind s.queues (sReg g sq).toNat) fun q => q.ctx = g.ctx → Claim.blockBits s q 63 1 = 1 →
      (Claim.OnSome (Claim.firstFault s x) fun p => exec i s = .next (Claim.raised s i p.1 p.2 none)) ∧
      (Claim.firstFault s x = none → a % 16 ≠ 0 → exec i s = .next (Claim.raised s i .memAlign (BitVec.ofInt 56 a) none)) ∧
      (Claim.firstFault s x = none → a % 16 = 0 → (getC s g.core).fifo.length < 256 →
        let o := { Claim.opWith s (.launch cap so sq) (.launch (sReg g sq).toNat) (if sq = 0 then .none else .scalar sq)
          (launchPieces s g.ctx a.toNat) none (some 5) with held := true }
        ∃ t, exec i s = .next t ∧ Claim.Past s t 4 ∧ Claim.IssueFrame s t ∧ Claim.FifoGains s t [(0, true)] ∧
          Claim.OpIssued s t o g.locks ∧ t.reqs = s.reqs ∧ t.agenda = s.agenda))

namespace Sys2Proof.Claim
open Machine

/-! Engine commands, matrix operations, graph nodes, tensor entries and stage rings (R220, R323 to R348). -/

/-- A check that fails, with its cause and XADDR. -/
abbrev Check := Option (Cause × BitVec 56)

def needs (ok : Bool) (c : Cause) (a : Nat) : Check := if ok then none else some (c, BitVec.ofNat 56 a)

/-- Stands for an entry that is not there. -/
def noTid : Tid :=
  { fmt := 0, ctx := 0, spl := 0, rpl := 0, sparse := false, scv := false, smv := false, rowsm1 := 0, km1 := 0, pbase := 0, scb := 0,
    smb := 0, mtb := 0 }

/-- R22 steps 1 to 5 on a capability. -/
def usable (c : Cap) (perms : BitVec 7) (spaces : List Nat) : Check :=
  [needs c.tag .capTag c.addr.toNat, needs (capDecode c).isSome .capFormat c.addr.toNat, needs (!c.sealed) .capSealed c.addr.toNat,
   needs (spaces.contains c.space.toNat) .capSpace c.addr.toNat, needs (c.perms &&& perms == perms) .capPerm c.addr.toNat].findSome? id

/-- R7, R22, R25: n bytes from an address: the bounds of the capability, then the extent of its space or of its peer window. -/
def within (s : State) (c : Cap) (a n : Nat) : Check :=
  let bt := (capDecode c).getD (0, 0)
  if !decide (bt.1 ≤ a ∧ a + n ≤ bt.2) then some (.capBound, BitVec.ofNat 56 a)
  else if n = 0 then none
  else if c.space = 4 then
    match ffind (getX s (curG s).ctx).peers (a / 2 ^ 48) with
    | some p => if !p.en then some (.capPeer, BitVec.ofNat 56 a) else needs (decide (a % 2 ^ 48 + n ≤ p.size)) .spaceRange a
    | none => some (.capPeer, BitVec.ofNat 56 a)
  else if c.space = 1 then needs (stashExtent s (curG s).core a n) .spaceRange a
  else none

/-- R73: no byte of a stash destination belongs to a read-only entry. -/
def writable (s : State) (space : BitVec 4) (a n : Nat) : Check :=
  if space ≠ 1 then none else
  ((List.range n).find? fun i => (entryAt (getC s (curG s).core) (curG s).ctx (a + i)).any fun e => !e.2.rwm).map fun i =>
    (.stashRo, BitVec.ofNat 56 ((a + i) / 4 * 4))

/-- Two ranges have a byte in common. -/
def overlaps (a n b m : Nat) : Bool := (List.range n).any fun i => decide (b ≤ a + i ∧ a + i < b + m)

/-- R220: a valid entry of the group's context. -/
def entryFor (s : State) (core : Nat) (n : BitVec 7) : Option Tid := (ffind (getC s core).tids n.toNat).filter fun t => t.ctx == (curG s).ctx

/-- A command as its instruction gives it: the class, G with the scalar that holds the handle, the scalars and capability registers that
must be filled, the checks of its rule in their order, and what it does. -/
structure Order where
  cls    : BitVec 2
  node   : Option (BitVec 6)
  scal   : List (BitVec 6)
  caps   : List (BitVec 4)
  checks : List Check
  kind   : CmdKind

/-- R183: the roles that may issue to the copy engines. -/
def roleOk (s : State) : Check := needs (decide ((curG s).role.toNat < 2)) .roleEngine 0

/-- R328 to R331, R337, R338: the engine commands. -/
def orderOf (s : State) (i : Instr) : Option Order :=
  let g := curG s
  let core := g.core
  let w (r : BitVec 6) : Nat := (sReg g r).toNat
  let h (gb : BitVec 1) (sd : BitVec 6) : Option (BitVec 6) := if gb = 1 then some sd else none
  let hs (gb : BitVec 1) (sd : BitVec 6) : List (BitVec 6) := if gb = 1 then [sd] else []
  let trans (e : Nat) (gb : BitVec 1) (cd cs : BitVec 4) (sk sd : BitVec 6) : Order :=
    let d := cReg g cd; let x := cReg g cs
    let r := w sk % 2 ^ 16; let c := w sk / 2 ^ 16 % 2 ^ 16; let p := w (sk + 1) % 2 ^ 24
    { cls := 0, node := h gb sd, scal := [sk, sk + 1] ++ hs gb sd, caps := [cd, cs], kind := .transpose d x e r c p,
      checks := [roleOk s, needs (decide (w sk / 2 ^ 32 = 0 ∧ w (sk + 1) / 2 ^ 24 = 0 ∧ 1 ≤ r ∧ r ≤ 1024 ∧ 1 ≤ c ∧ c ≤ 1024 ∧ c * e ≤ p ∧
          x.addr.toNat % e = 0 ∧ d.addr.toNat % e = 0 ∧ p % e = 0)) .engForm 0,
        usable x pR [0, 1], within s x x.addr.toNat ((r - 1) * p + c * e), usable d (pR ||| pW) [1], within s d d.addr.toNat (r * c * e),
        writable s d.space d.addr.toNat (r * c * e)] }
  let planes (unp : Bool) (ta : BitVec 7) (cc : BitVec 4) : Order :=
    let c := cReg g cc
    let t := (entryFor s core ta).getD noTid
    { cls := 0, node := none, scal := [], caps := [cc], kind := .plane c t unp,
      checks := [roleOk s, needs (entryFor s core ta).isSome .tidInvalid 0, usable c (if unp then pR ||| pW else pR) [0, 1, 3],
        within s c c.addr.toNat (formLen t), needs (stashExtent s core (planeRegion t).1 (planeRegion t).2) .spaceRange (planeRegion t).1,
        if unp then writable s c.space c.addr.toNat (formLen t) else writable s 1 (planeRegion t).1 (planeRegion t).2] }
  match i with
  | .cpy gb cd cs sk sd =>
    let d := cReg g cd; let x := cReg g cs
    let n := w sk % 2 ^ 32
    some
      { cls := 0, node := h gb sd, scal := sk :: hs gb sd, caps := [cd, cs], kind := .copy d x n,
        checks := [roleOk s, needs (decide (w sk / 2 ^ 32 = 0)) .engForm 0, usable x pR [0, 1, 3], within s x x.addr.toNat n,
        usable d (pR ||| pW) [0, 1, 3], within s d d.addr.toNat n, writable s d.space d.addr.toNat n,
        needs (!(d.space == x.space && overlaps d.addr.toNat n x.addr.toNat n)) .engForm 0] }
  | .cpyGth gb cd cs sk sd =>
    let d := cReg g cd; let x := cReg g cs
    let st := w sk % 2 ^ 25; let rl := w sk / 2 ^ 32 % 2 ^ 13; let n := w (sk + 1) % 2 ^ 23; let ia := w (sk + 2) % 2 ^ 23
    some
      { cls := 1, node := h gb sd, scal := [sk, sk + 1, sk + 2] ++ hs gb sd, caps := [cd, cs], kind := .gather d x st rl n ia,
        checks := [roleOk s, needs (decide (w sk / 2 ^ 25 % 2 ^ 7 = 0 ∧ w sk / 2 ^ 45 = 0 ∧ w (sk + 1) / 2 ^ 23 = 0 ∧ w (sk + 2) / 2 ^ 23 = 0 ∧ 1 ≤ st ∧
          st ≤ 2 ^ 24 ∧ 1 ≤ rl ∧ rl ≤ 4096 ∧ 1 ≤ n ∧ ia % 4 = 0)) .engForm 0,
        usable x pR [0, 3], usable d (pR ||| pW) [1], within s d d.addr.toNat (n * rl), writable s d.space d.addr.toNat (n * rl),
        needs (stashExtent s core ia (4 * n) && !overlaps ia (4 * n) d.addr.toNat (n * rl)) .engForm 0] }
  | .cpyRmt gb cd cs sk sd =>
    let d := cReg g cd; let x := cReg g cs
    let n := w sk % 2 ^ 32; let fa := w (sk + 1) % 2 ^ 56; let fen := (w (sk + 1)).testBit 63
    some
      { cls := 3, node := h gb sd, scal := [sk, sk + 1] ++ hs gb sd, caps := [cd, cs], kind := .remote d x n (if fen then some fa else none),
        checks := [roleOk s, needs (decide (w sk / 2 ^ 32 = 0 ∧ w (sk + 1) / 2 ^ 56 % 2 ^ 7 = 0 ∧ fa % 4 = 0 ∧
          (fen = true → d.space = 4 → fa / 2 ^ 48 = d.addr.toNat / 2 ^ 48))) .engForm 0,
        usable x pR [0, 1], within s x x.addr.toNat n, usable d (if fen then pR ||| pW ||| pA else pR ||| pW) [0, 4],
        within s d d.addr.toNat n, if fen then within s d fa 4 else none,
        needs (!(d.space == x.space && overlaps d.addr.toNat n x.addr.toNat n)) .engForm 0] }
  | .cpyTr8 gb cd cs sk sd => some (trans 1 gb cd cs sk sd)
  | .cpyTr16 gb cd cs sk sd => some (trans 2 gb cd cs sk sd)
  | .cpyPln ta tc => some (planes false ta tc)
  | .cpyPlnUnp ta tc => some (planes true ta tc)
  | .cpyFold tb ta tc =>
    let c := cReg g tc
    let a := (entryFor s core ta).getD noTid; let b := (entryFor s core tb).getD noTid
    let n := 4 * (tidRows a * tidK a)
    some
      { cls := 0, node := none, scal := [], caps := [tc], kind := .fold c a b,
        checks := [roleOk s, needs (entryFor s core ta).isSome .tidInvalid 0, needs (entryFor s core tb).isSome .tidInvalid 0,
        needs ((a.fmt == 0 || a.fmt == 1 || a.fmt == 6) && a.scv && !a.sparse && b.smv) .tidFmt 0, needs (a.km1 == b.km1) .tidGeom 0,
        usable c pR [0, 1, 3], within s c c.addr.toNat n,
        needs (stashExtent s core (planeRegion a).1 (planeRegion a).2) .spaceRange (planeRegion a).1,
        needs (stashExtent s core (scaleAddr a 0) (4 * tidRows a)) .spaceRange (scaleAddr a 0),
        needs (stashExtent s core (smoothAddr b 0) (4 * tidK b)) .spaceRange (smoothAddr b 0),
        writable s 1 (planeRegion a).1 (planeRegion a).2, writable s 1 (scaleAddr a 0) (4 * tidRows a)] }
  | _ => none

/-- R335: the open node that a handle names, in the group's context. -/
def openNode (s : State) (h : DWord) : Option Nat :=
  let n := h.toNat % 256
  let nd := fget Node.zero (getC s (curG s).core).nodes n
  if nd.st = .openN ∧ nd.gen.toNat = h.toNat / 256 % 256 ∧ nd.ctx = (curG s).ctx then some n else none

/-- R323, R324: the command that is issued, with the counters that it advances; the group's registers are as they were. -/
def Commanded (s t : State) (cls : BitVec 2) (kind : CmdKind) (node : Option Nat) (st : CmdSt) : Prop :=
  let g := curG s
  let core := g.core
  (OnSome (getCmd t s.nextId) fun c => c =
    { id := s.nextId, cls, num := (getC s core).cmdSeq, uid := g.uid, gid := g.gid, ctx := g.ctx, task := g.task, core, kind, node, st, cancel := false,
      pts := (getC s core).pts, result := c.result, entry := s.cur.entry } ∧ (cls ≠ 2 → c.result = [])) ∧
  (getCmd t s.nextId).isSome = true ∧ (∀ k, k ≠ s.nextId → getCmd t k = getCmd s k) ∧ (getC t core).cmdSeq = (getC s core).cmdSeq + 1 ∧
  (∀ k, k < 4 → fget 0 (curG t).ec k = fget 0 g.ec k + if k = cls.toNat then 1 else 0) ∧
  curG t = { g with ec := (curG t).ec, ops := (curG t).ops, split := (curG t).split } ∧
  (∀ u, u ≠ s.cur.uid → getG t u = getG s u) ∧ MemKept s t ∧ t.reqs = s.reqs ∧ t.homes = s.homes

/-- R105, R118: whether the group's earlier accesses hold an engine command back. -/
def engineHeld (s : State) : Bool :=
  opBlocked s (curG s) (opWith { s with nextId := s.nextId + 1 } .nop (.engine s.nextId) .none [] none none)

/-- R344: the tiles of an accumulator are of the task. -/
def tilesHeld (s : State) (tc : Nat) (f64 : Bool) : List Check :=
  let held (t : Nat) : Bool := (getT s (curG s).task).tiles.contains t
  [needs (held tc) .spaceRange 0] ++ if f64 then [needs (decide (tc % 2 = 0)) .accForm 0, needs (held (tc + 1)) .spaceRange 0] else []

/-- R343 to R348: the checks of a matrix operation in their order, and what it does. -/
def matrixForm (s : State) (i : Instr) : Option (List Check × CmdKind) :=
  let g := curG s
  let role := needs (decide (g.role.toNat = 0 ∨ g.role.toNat = 2)) .roleEngine 0
  let other := partner g.core
  let mm (sparse : Bool) (z : BitVec 1) (tb ta : BitVec 7) (tc : BitVec 4) : List Check × CmdKind :=
    let ea := entryFor s g.core ta; let eb := entryFor s g.core tb; let ep := entryFor s other ta
    let a := ea.getD noTid; let b := eb.getD noTid; let p := ep.getD noTid
    let kind : CmdKind := .mm tc.toNat (z == 1) sparse a b p
    let fits (core t : Nat) : Bool := match pendTag s core t with | none => true | some k => k == accKind a
    let region (core : Nat) (r : Nat × Nat) : Check := needs (stashExtent s core r.1 r.2) .spaceRange r.1
    let scale (t : Tid) : List (Nat × Nat) := if t.scv then [(scaleAddr t 0, 4 * tidRows t)] else []
    (role :: tilesHeld s tc.toNat (ea.any fun t => t.fmt == 5) ++
      [needs ea.isSome .tidInvalid 0, needs eb.isSome .tidInvalid 0, needs ep.isSome .tidInvalid 0,
       needs (fmtPair a b && a.sparse == sparse && !b.sparse) .tidFmt 0,
       needs (decide (a.fmt = p.fmt ∧ a.rpl = p.rpl ∧ a.sparse = p.sparse ∧ a.km1 = p.km1 ∧ a.rowsm1 ≤ 63 ∧ p.rowsm1 ≤ 63 ∧ b.rowsm1 ≤ 95 ∧
         a.km1 = b.km1)) .tidGeom 0,
       needs (z == 1 || (mmTiles kind).all fun t => fits g.core t && fits other t) .accForm 0] ++
      (mmLeader kind ++ scale a ++ scale b).map (region g.core) ++ (mmReads kind 1 ++ scale p).map (region other), kind)
  match i with
  | .mma z tb ta tc => some (mm false z tb ta tc)
  | .mmsp z tb ta tc => some (mm true z tb ta tc)
  | .mzero tc => some (role :: tilesHeld s tc.toNat false, .mzero tc.toNat)
  | _ => none

/-- R103, R343, R346: the pair's queue and the operand tables of its cores have room, and no tile access of the group that is held comes
before. -/
def MatrixRoom (s : State) (kind : CmdKind) : Prop :=
  let core := (curG s).core
  (getC s (core / 2 * 2)).mqueue.length < 8 ∧ (getC s core).ranges.length + (mmLeader kind).length ≤ 8 ∧
    (getC s (partner core)).ranges.length + (mmPartner kind).length ≤ 8 ∧
    ∀ o ∈ (curG s).ops, o.held = true → ∀ p ∈ o.pieces, p.space = 2 → p.place / 0x6000 ∉ mmTiles kind

/-- The 256 bits of a tensor entry that four scalars hold, and what `tdget` reads of one (R220). -/
def four (g : Group) (r : BitVec 6) : Nat :=
  (sReg g r).toNat + 2 ^ 64 * (sReg g (r + 1)).toNat + 2 ^ 128 * (sReg g (r + 2)).toNat + 2 ^ 192 * (sReg g (r + 3)).toNat

/-- Only one core's record has changed, beside the group. -/
def CoreFrame (s t : State) : Prop :=
  (∀ u, u ≠ s.cur.uid → getG t u = getG s u) ∧ (∀ k, k ≠ (curG s).core → getC t k = getC s k) ∧ MemKept s t ∧
    t = { s with groups := t.groups, cores := t.cores }

/-- The node of a number on the group's core. -/
def nodeAt (s : State) (n : Nat) : Node := fget Node.zero (getC s (curG s).core).nodes n

/-- R341: nothing of the group is outstanding that a publish waits for. -/
def Quiet (s : State) : Prop :=
  (∀ e ∈ (getC s (curG s).core).fifo, e.uid ≠ (curG s).uid) ∧ (curG s).ops = []

end Sys2Proof.Claim

open Sys2Proof Sys2Proof.Machine

/-- R323, R324, R328 to R331, R335, R337, R338: each engine command: the first check of its rule that fails raises its cause; a command that
names no open node traps ENG_GRAPH; a full counter suspends; else the command is numbered, counted and queued. Forms: cpyPln, cpyPlnUnp,
cpyFold, cpy, cpyGth, cpyRmt, cpyTr8, cpyTr16. -/
def Obligations.EngineCommands : Prop :=
  ∀ (s : State) (i : Instr), i.WellFormed → Claim.OnSome (Claim.orderOf s i) fun x =>
    let g := curG s
    let node := x.node.bind fun r => Claim.openNode s (sReg g r)
    g.uid = s.cur.uid → Claim.Full s x.scal → (∀ k ∈ x.caps, cIsEmpty g k = false) →
    (Claim.OnSome (x.checks.findSome? id) fun p => exec i s = .next (Claim.raised s i p.1 p.2 none)) ∧
    (x.checks.findSome? id = none →
      (x.node.isSome = true → node = none → exec i s = .next (Claim.raised s i .engGraph 0 none)) ∧
      (x.node.isSome = node.isSome →
        (fget 0 g.ec x.cls.toNat = 63 → ∃ t, exec i s = .next t ∧ Claim.Deposited s t (.counter x.cls 62) (curF s).mask 2) ∧
        (fget 0 g.ec x.cls.toNat ≠ 63 →
          ∃ t, exec i s = .next t ∧ Claim.Past s t 4 ∧
            Claim.Commanded s t x.cls x.kind node (if Claim.engineHeld s then .held else .armed) ∧
            (curG t).ops.map (fun o => (o.kind, o.held)) = g.ops.map (fun o => (o.kind, o.held)) ++
              (if Claim.engineHeld s then [(.engine s.nextId, true)] else []) ∧
            ∀ n, n < 256 → Claim.nodeAt t n =
              if node = some n then { Claim.nodeAt s n with st := .armed, cmd := some s.nextId } else Claim.nodeAt s n)))

/-- R324, R343 to R348: `mma`, `mmsp` and `mzero`: their checks in the order of the table; a full counter suspends; else, where the queue
and the operand tables have room, the operation joins the pair's queue and owns its tiles. Forms: mma, mmsp, mzero. -/
def Obligations.MatrixOperations : Prop :=
  ∀ (s : State) (i : Instr), i.WellFormed → Claim.OnSome (Claim.matrixForm s i) fun (checks, kind) =>
    let g := curG s
    let home := g.core / 2 * 2
    g.uid = s.cur.uid →
    (Claim.OnSome (checks.findSome? id) fun p => exec i s = .next (Claim.raised s i p.1 p.2 none)) ∧
    (checks.findSome? id = none →
      (fget 0 g.ec 2 = 63 → ∃ t, exec i s = .next t ∧ Claim.Deposited s t (.counter 2 62) (curF s).mask 2) ∧
      (fget 0 g.ec 2 ≠ 63 → Claim.MatrixRoom s kind →
        ∃ t, exec i s = .next t ∧ Claim.Past s t 4 ∧ Claim.Commanded s t 2 kind none .armed ∧ (curG t).ops = g.ops ∧
          (getC t home).mqueue = (getC s home).mqueue ++ [s.nextId] ∧
          (getC t home).towner = (getC s home).towner ++ (mmTiles kind).map (fun k => (k, s.nextId)) ∧
          (∀ c ∈ [(g.core, mmLeader kind), (partner g.core, mmPartner kind)], g.core ≠ partner g.core →
            (getC t c.1).ranges.map (fun r => (r.cmd, r.base, r.len)) =
              (getC s c.1).ranges.map (fun r => (r.cmd, r.base, r.len)) ++ c.2.map fun r => (s.nextId, r.1, r.2))))

/-- R333, R334, R336: graph nodes and tensor entries. Forms: gnode, glink, tdesc, tdget. -/
def Sys2Proof.Claim.NodesAndTensors : Prop :=
  ∀ (s : State),
    let g := curG s
    let core := g.core
    (∀ (n : Nat) (sd : BitVec 6), (Instr.gnode sd).WellFormed → Claim.Full s [sd] → g.role.toNat < 2 → n < 256 →
      (∀ k, k < n → (Claim.nodeAt s k).st ≠ .free) → (Claim.nodeAt s n).st = .free →
      ∃ t, exec (.gnode sd) s = .next t ∧ Claim.Past s t 4 ∧ Claim.CoreFrame s t ∧
        Claim.ScalarWritten s t sd (BitVec.ofNat 64 (n + 256 * (Claim.nodeAt s n).gen.toNat)) ∧
        getC t core = { getC s core with nodes := (getC t core).nodes } ∧
        ∀ k, k < 256 → Claim.nodeAt t k = if k = n then { Node.zero with st := .openN, ctx := g.ctx, task := g.task, gen := (Claim.nodeAt s n).gen }
          else Claim.nodeAt s k) ∧
    (∀ (sa sb : BitVec 6), (Instr.glink sa sb).WellFormed → Claim.Full s [sa, sb] → g.role.toNat < 2 →
      let b := (sReg g sb).toNat % 256
      let nb := Claim.nodeAt s b
      Claim.OnSome (Claim.openNode s (sReg g sa)) fun a => a ≠ b →
        (nb.gen.toNat ≠ (sReg g sb).toNat / 256 % 256 ∨ nb.st = .free ∨ nb.st = .done →
          ∃ t, exec (.glink sa sb) s = .next t ∧ Claim.OnlyGroup s t ∧ Claim.Past s t 4 ∧ curG t = { g with split := (curG t).split }) ∧
        (nb.gen.toNat = (sReg g sb).toNat / 256 % 256 → nb.st ≠ .free → nb.st ≠ .done →
          (nb.ctx ≠ g.ctx ∨ nb.succs.length = 8 ∨ (Claim.nodeAt s a).count = 255 →
            exec (.glink sa sb) s = .next (Claim.raised s (.glink sa sb) .engGraph 0 none)) ∧
          (nb.ctx = g.ctx → nb.succs.length ≠ 8 → (Claim.nodeAt s a).count ≠ 255 →
            ∃ t, exec (.glink sa sb) s = .next t ∧ Claim.Past s t 4 ∧ Claim.CoreFrame s t ∧ curG t = { g with split := (curG t).split } ∧
              ∀ k, k < 256 → Claim.nodeAt t k =
                if k = a then { Claim.nodeAt s a with count := (Claim.nodeAt s a).count + 1 }
                else if k = b then { nb with succs := nb.succs ++ [(a, (Claim.nodeAt s a).gen)] } else Claim.nodeAt s k))) ∧
    (∀ (tid : BitVec 7) (ss : BitVec 6), (Instr.tdesc tid ss).WellFormed → Claim.Full s [ss, ss + 1, ss + 2, ss + 3] →
      let x := Claim.four g ss
      let e := (parseTid x g.ctx).2
      (x % 2 = 1 → e = none → exec (.tdesc tid ss) s = .next (Claim.raised s (.tdesc tid ss) .tidForm 0 none)) ∧
      (x % 2 = 0 ∨ e ≠ none →
        ∃ t, exec (.tdesc tid ss) s = .next t ∧ Claim.Past s t 4 ∧ Claim.CoreFrame s t ∧ curG t = { g with split := (curG t).split } ∧
          ∀ k, k < 128 → ffind (getC t core).tids k = if k = tid.toNat then (if x % 2 = 0 then none else e) else ffind (getC s core).tids k)) ∧
    (∀ (tid : BitVec 7) (sd : BitVec 6), (Instr.tdget tid sd).WellFormed → Claim.Full s [sd, sd + 1, sd + 2, sd + 3] →
      let x := ((Claim.entryFor s core tid).map (tidImage tid.toNat)).getD 0
      ∃ t, exec (.tdget tid sd) s = .next t ∧ Claim.OnlyGroup s t ∧ Claim.Past s t 4 ∧
        (∀ r, sIsEmpty (curG t) r = sIsEmpty g r) ∧
        (∀ k : BitVec 6, k.toNat < 4 → sReg (curG t) (sd + k) = if sd + k = 0 then 0 else BitVec.ofNat 64 (x / 2 ^ (64 * k.toNat))) ∧
        (∀ r : BitVec 6, 4 ≤ (r - sd).toNat → sReg (curG t) r = sReg g r) ∧
        curG t = { g with s := (curG t).s, swr := (curG t).swr, split := (curG t).split })

/-- R324, R326: `ewait` passes when at most k commands of the class are outstanding, else it suspends behind itself. Forms: ewait. -/
def Sys2Proof.Claim.EngineWait : Prop :=
  ∀ (s : State) (k : BitVec 6) (cls : BitVec 2), (Instr.ewait k cls).WellFormed →
    (fget 0 (curG s).ec cls.toNat ≤ k.toNat → ∃ t, exec (.ewait k cls) s = .next t ∧ Claim.OnlyGroup s t ∧ Claim.Past s t 4 ∧
      curG t = { curG s with split := (curG t).split }) ∧
    (k.toNat < fget 0 (curG s).ec cls.toNat → ∃ t, exec (.ewait k cls) s = .next t ∧ Claim.RegsKept (curG s) (curG t) ∧
      Claim.DepositedAt s t ((curF s).pc + 4) (.counter cls k))

/-- R340, R341: `ring.put` and `ring.get` on a bound ring whose slot the group does not hold yet, and on one whose slot it holds. Forms:
ringGet, ringPut. -/
def Sys2Proof.Claim.StageRings : Prop :=
  ∀ (s : State) (k : BitVec 4) (sd : BitVec 6),
    let g := curG s
    let tk := getT s g.task
    ∀ i ∈ [(Instr.ringPut k sd, false), (.ringGet k sd, true)], i.1.WellFormed → Claim.Full s [sd] →
    Claim.OnSome (ffind tk.rings k.toNat) fun r =>
      let get := i.2
      let slot (n : Nat) : RingSlot := r.slots.getD n .e
      let mine (n : Nat) : Bool := if get then slot n == .r g.taskg else slot n == .w g.taskg
      let n := if get then r.c else r.p
      0 < r.count → n < r.count → r.slots.length = r.count → r.count ≤ 64 → Claim.Quiet s →
      -- no slot is held: a reservation, or the wait for its phase
      ((∀ m, m < 64 → m < r.count → mine m = false) → sd ≠ 0 →
        (slot n = (if get then .f else .e) →
          ∃ t, exec i.1 s = .next t ∧ Claim.Past s t 4 ∧ Claim.ScalarWritten s t sd (BitVec.ofNat 64 (r.base + 128 * r.slines * n)) ∧
            (∀ u, u ≠ s.cur.uid → getG t u = getG s u) ∧ Claim.MemKept s t ∧ t = { s with groups := t.groups, tasks := t.tasks } ∧
            getT t g.task = { tk with rings := (getT t g.task).rings } ∧ (∀ u, u ≠ g.task → getT t u = getT s u) ∧
            ∀ j, j < 16 → ffind (getT t g.task).rings j = if j ≠ k.toNat then ffind tk.rings j else
              some (if get then { r with slots := r.slots.set n (.r g.taskg), c := (n + 1) % r.count }
                else { r with slots := r.slots.set n (.w g.taskg), p := (n + 1) % r.count })) ∧
        (slot n ≠ (if get then .f else .e) →
          let phase : Bool := match slot n with | .f => true | .r _ => true | _ => false
          ∃ t, exec i.1 s = .next t ∧ Claim.DepositedAt s t (curF s).pc (.ring k n (!phase)) ∧ Claim.RegsKept g (curG t) ∧
            t.tasks = s.tasks)) ∧
      -- the slot that the group holds is given up
      (∀ m, m < 64 → m < r.count → mine m = true → (∀ j, j < m → mine j = false) → sd = 0 →
        ∃ t, exec i.1 s = .next t ∧ Claim.OnlyGroup { s with tasks := t.tasks } t ∧ Claim.Past s t 4 ∧ curG t = { g with split := (curG t).split } ∧
          getT t g.task = { tk with rings := (getT t g.task).rings } ∧ (∀ u, u ≠ g.task → getT t u = getT s u) ∧
          ∀ j, j < 16 → (ffind (getT t g.task).rings j).map (fun x => x.slots) = if j = k.toNat then some (r.slots.set m (if get then .e else .f))
            else (ffind tk.rings j).map fun x => x.slots)

namespace Sys2Proof.Claim
open Machine

/-! Requests at their homes, and the messages that follow (R45, R46, R84 to R97, R105, R135 to R140, R144). -/

/-- A request in flight that no home works on. -/
def Idle (q : Req) (rq : Nat) : Prop := q.id = rq ∧ rq ≠ 0 ∧ q.busy = false ∧ q.done = false

/-- The group, and the operation, that a request belongs to. -/
def ofGroup (q : Req) : Option (Nat × Nat) := match q.agent with | .group u o => some (u, o) | _ => none

/-- R45: whether a request carries the generation of a translation: those of groups, engines and prefetches do. -/
def carries (q : Req) : Bool := match q.agent with | .group _ _ => true | .engine _ => true | .prefetch _ => true | _ => false

/-- Whether a request is an atomic, a row atomic among them. -/
def isAtomic (q : Req) : Bool := match q.kind with | .atomic _ _ => true | .rowAtomic _ => true | _ => false

/-- Whether a request stores bytes. -/
def isStore (q : Req) : Bool := match q.kind with | .write => true | .capWrite _ => true | _ => false

/-- R144, R422: the state in which the home takes a request that has reached it: a writer without a core has its time from then on, and at a
locked line the requests of others that had merged with one of the holder's, or with which one of the holder's had merged, arrive on their own. -/
def reached (s : State) (rq : Nat) : State := splitLocked (stampReq s rq) rq

/-- R46: a request whose generation is not its frame's. -/
def Outdated (s : State) (q : Req) : Prop := carries q = true ∧ q.gen ≠ fget 0 s.homes.gens (q.line * 128 / 65536)

/-- The group that a request acts for: its own, or, for words that an engine is to own in a stash, its command's. -/
def actsFor (s : State) (q : Req) : Option Nat :=
  match q.agent with
  | .group u _ => some u
  | .engine id => if q.kind = .own then (getCmd s id).map fun c => c.uid else none
  | _ => none

/-- R144: a group other than the one that the request acts for holds the line's lock. -/
def LockedOut (s : State) (q : Req) : Prop := (lockAt s q.line).holder ≠ none ∧ (lockAt s q.line).holder ≠ actsFor s q

/-- R86, R90: an earlier request on the same words is worked on or waits, or the request needs an entry and the set of the directory has no
room. -/
def Waits (s : State) (q : Req) : Prop := inTheWay s q = true ∨ (needsEntry s q = true ∧ dirRoom s q.line = none)

/-- R90, R144: the home as it takes a request up: it waits no more, has its entry when it needs one, the line is the most recently used,
and the holder of the line's lock has all its words again. -/
def takenUp (s : State) (q : Req) : Option State :=
  let s0 := { s with homes := { s.homes with waiting := s.homes.waiting.filter fun x => x != q.id } }
  (if needsEntry s0 q then dirRoom s0 q.line else some s0).map fun s1 =>
    regain (modDir s1 q.line fun e => if e = DirEntry.empty then e else { e with used := s.gtick.toNat }) q

/-- The event in which a request arrives at its home, by its kind, its mode and its unit: whether it writes. -/
def homeEvent (q : Req) (i : Instr) : Option Bool :=
  let plain (rq : Nat) : Bool := rq == q.id && q.mode == 0
  match i with
  | .homeRead rq => if plain rq && q.kind == .read then some false else none
  | .leaseRead rq => if rq == q.id && q.mode == 1 && (q.kind == .read || q.kind == .capRead) then some false else none
  | .homeOwnership rq => if !plain rq then none else
    match q.kind with
    | .own => some true
    | .capRead => if q.unit = 3 then none else some false
    | .capWrite _ => if q.unit = 3 then none else some true
    | _ => none
  | .homeWriteThrough rq => if !plain rq then none else
    match q.kind with
    | .write => some true
    | .capRead => if q.unit = 3 then some false else none
    | .capWrite _ => if q.unit = 3 then some true else none
    | _ => none
  | .leaseWrite rq => if rq == q.id && q.mode == 1 then (match q.kind with | .write => some true | .capWrite _ => some true | _ => none) else none
  | .homeAtomic rq => if rq == q.id && q.mode != 2 then (match q.kind with | .atomic _ _ => some true | _ => none) else none
  | .homeRowAtomic rq => if rq == q.id && q.mode != 2 then (match q.kind with | .rowAtomic _ => some true | _ => none) else none
  | _ => none

/-- R92, R94: whether a write of a request takes a timestamp: its page is in lease mode, or, without a translation, its line is. -/
def timed (s : State) (q : Req) : Bool :=
  let here : Bool := match q.kind with | .capWrite _ => q.unit == 3 | _ => true
  q.mode == 1 || (here && !carries q && leaseLine s q.line)

/-- R94: whether the timestamp of such a write is further ahead of ECLK than 2^13. -/
def tooFar (s : State) (q : Req) : Bool := tsBefore (eclk s + 0x2000#16) (leaseStamp s q.line q.pts)

/-- The bytes that a request of stores writes, each named once. -/
def Lone (q : Req) (x : Nat × Byte) : Prop := x ∈ reqBytes q ∧ ∀ y ∈ reqBytes q, y.1 = x.1 → y = x

/-- R135, R139: what an atomic at its home leaves and gives: an atomic of one thread the new value, a row atomic its words; the value before goes
into the result of one that fetches. -/
def AtomsDone (s t : State) (q : Req) (res : List (Nat × DWord)) : Prop :=
  match q.kind, q.pieces with
  | .atomic a f, [p] => p.space = 0 →
    let old := BitVec.ofNat 64 (visLe s p.place p.size)
    res = (if f then [(p.thread, old)] else []) ∧
      ∀ k, k < p.size → memByte t (p.place + k) = BitVec.ofNat 8 ((aopNew a old p.val p.exp).toNat / 256 ^ k)
  | .rowAtomic f, ps => (ps.map fun p => p.place / 4).Nodup → (∀ p ∈ ps, p.place % 4 = 0) →
    res = (if f then ps.map fun p => (p.thread, BitVec.ofNat 64 (visLe s p.place 4)) else []) ∧
      ∀ p ∈ ps, ∀ k, k < 4 → memByte t (p.place + k) =
        BitVec.ofNat 8 ((rowWord (BitVec.ofNat 32 (visLe s p.place 4)) (BitVec.truncate 32 p.val)).toNat / 256 ^ k)
  | _, _ => True

/-- R94: a write to a lease-mode line at its home: held while its timestamp lies too far ahead, with nothing changed; else the line takes the
timestamp, the words their values, and the acknowledgement with the timestamp is on its way. -/
def TimedWrite (s t : State) (q : Req) : Prop :=
  let w := leaseStamp s q.line q.pts
  let r := getR t q.id
  (tooFar s q = true → r.busy = true ∧ r.done = false ∧ MemKept s t ∧ t.agenda = s.agenda ∧ t.homes = s.homes) ∧
  (tooFar s q = false → (isAtomic q = true → fget false s.homes.errs q.line = false) →
    (dirAt t q.line).wts = w ∧ (dirAt t q.line).rts = w ∧ (dirAt t q.line).old = false ∧ (dirAt t q.line).lmode = true ∧
      r.busy = false ∧ r.done = true ∧ r.wts = w ∧ Event.ownershipAck q.id ∈ t.agenda ∧
      (∀ a, (∀ x ∈ reqBytes q, x.1 ≠ a) → isStore q = true → memByte t a = memByte s a) ∧
      (isStore q = true → ∀ x ∈ reqBytes q, Lone q x → memByte t x.1 = x.2) ∧
      ((dirAt s q.line).owners = [] → AtomsDone s t q r.result))

/-- What the home leaves as it was when it only turns a request away: all but the agenda, the locks' held writes and the waiting list. -/
def TurnedAway (s t : State) : Prop :=
  MemKept s t ∧ t = { s with agenda := t.agenda, homes := { s.homes with locks := t.homes.locks, waiting := t.homes.waiting } }

/-- The buffers of the host port and of a copy engine that hold words of a line (R85). -/
def buffers (e : DirEntry) : Nat := (if e.host then 1 else 0) + (if e.cpe then 1 else 0)

/-- The other holders of the words of a request: owners, sharers, replicas, buffers (R85, R86). -/
def holders (s : State) (q : Req) (unit : Nat) : Nat :=
  let e := dirAt s q.line
  (ownersIn e (reqMask q) (if isGroupReq q then q.core / 2 else 64) unit).length + (sharers e).length + (replicas e).length + buffers e

/-- R86: the home works on the request: it has asked every other holder, or acknowledges at once when there is none. -/
def AsksHolders (s t : State) (q : Req) (unit : Nat) : Prop :=
  (getR t q.id).busy = true ∧ (getR t q.id).acks = holders s q unit ∧
    ((t.agenda.drop s.agenda.length).length = max 1 (holders s q unit)) ∧ (holders s q unit = 0 → Event.ownershipAck q.id ∈ t.agenda) ∧
    ∀ e ∈ t.agenda.drop s.agenda.length, (∃ p ∈ sharers (dirAt s q.line), e = .invalidationReceived q.id p) ∨
      (∃ d ∈ replicas (dirAt s q.line), e = .invalidationReceived q.id (64 + d)) ∨
      ((dirAt s q.line).host = true ∧ e = .invalidationReceived q.id 68) ∨ ((dirAt s q.line).cpe = true ∧ e = .invalidationReceived q.id 69) ∨
      (∃ o ∈ ownersIn (dirAt s q.line) (reqMask q) (if isGroupReq q then q.core / 2 else 64) unit,
        e = .recallReceived q.id o.1 o.2.1 o.2.2) ∨ e = .ownershipAck q.id

end Sys2Proof.Claim

open Sys2Proof Sys2Proof.Machine

/-- R46, R84, R86, R90, R93, R94, R135, R139, R144: each event in which a request arrives at its home: one that carries an old generation is
refused; a write to a line that another group has locked is held; one behind earlier work, or without room in the directory, waits; else a
read's value is on its way or is asked of the owner, a write, an ownership request or an atomic asks every other holder, and a write to a
lease-mode line takes its timestamp and is performed, or held for it. Forms: homeRead, homeOwnership, homeWriteThrough, leaseRead,
leaseWrite, homeAtomic, homeRowAtomic. -/
def Obligations.HomeArrivals : Prop :=
  ∀ (s0 : State) (rq : Nat) (i : Instr),
    let s := Claim.reached s0 rq
    let q := getR s rq
    let carried := Claim.carries q = true
    Claim.Idle (getR s0 rq) rq → (getX s0 q.ctx).replay = none → Claim.OnSome (Claim.homeEvent (getR s0 rq) i) fun write =>
      (Claim.Outdated s q → ∃ t, exec i s0 = .next t ∧ t = { s with agenda := s.agenda ++ [.requestRefused rq] }) ∧
      (¬Claim.Outdated s q →
        (write = true → q.mode = 0 → Claim.LockedOut s q →
          ∃ t, exec i s0 = .next t ∧ Claim.TurnedAway s t ∧ t.agenda = s.agenda ∧ t.homes.waiting = s.homes.waiting ∧
            lockAt t q.line = { lockAt s q.line with writes := (lockAt s q.line).writes ++ [rq] } ∧
            ∀ l, l ≠ q.line → lockAt t l = lockAt s l) ∧
        (¬(write = true ∧ q.mode = 0 ∧ Claim.LockedOut s q) → Claim.Waits s q →
          ∃ t, exec i s0 = .next t ∧ Claim.TurnedAway s t ∧ t.agenda = s.agenda ∧ t.homes.locks = s.homes.locks ∧ rq ∈ t.homes.waiting ∧
            ∀ r, r ≠ rq → (r ∈ t.homes.waiting ↔ r ∈ s.homes.waiting)) ∧
        (¬(write = true ∧ q.mode = 0 ∧ Claim.LockedOut s q) → ¬Claim.Waits s q →
          Claim.OnSome (Claim.takenUp s q) fun s1 =>
          ∃ t, exec i s0 = .next t ∧ rq ∉ t.homes.waiting ∧ (∀ l, lockAt t l = lockAt s1 l) ∧
            -- reads
            (q.kind = .read → q.mode = 0 → carried → q.agent ≠ .prefetch true → Claim.MemKept s1 t ∧
              (if (ownersIn (dirAt s1 q.line) (reqMask q) (q.core / 2) 0).isEmpty then
                ∃ err ∈ [true, false], Event.replyArrival rq err ∈ t.agenda ∧ (getR t rq).busy = false
              else Event.forwardedRead rq ∈ t.agenda ∧ (getR t rq).busy = true)) ∧
            (q.kind = .read ∨ q.kind = .capRead → q.mode = 1 → q.agent ≠ .prefetch true →
              Claim.MemKept s1 t ∧ (∃ err ∈ [true, false], Event.replyArrival rq err ∈ t.agenda) ∧
                (getR t rq).wts = (dirAt t q.line).wts ∧ (getR t rq).rts = (dirAt t q.line).rts ∧ (dirAt t q.line).lmode = true) ∧
            -- a capability load: of words that its pair is to own, or of a value that leaves no copy
            (q.kind = .capRead → q.mode = 0 → carried → q.agent ≠ .prefetch true → Claim.MemKept s1 t ∧
              (q.unit ≠ 3 → ¬Claim.LockedOut s1 q → Claim.AsksHolders s1 t q 0) ∧
              (q.unit = 3 ∨ Claim.LockedOut s1 q → (getR t rq).done = true ∧ ∃ err ∈ [true, false], Event.replyArrival rq err ∈ t.agenda)) ∧
            -- ownership, stores and atomics
            (q.kind = .own → Claim.MemKept s1 t ∧ Claim.AsksHolders s1 t q q.unit.toNat) ∧
            (Claim.isStore q = true → Claim.timed s1 q = false → Claim.MemKept s1 t ∧
              Claim.AsksHolders s1 t q (if q.kind = .write ∨ q.unit = 3 then 3 else 0)) ∧
            (Claim.isAtomic q = true → Claim.timed s1 q = false → Claim.MemKept s1 t ∧
              ((lockAt s1 q.line).holder = none → Claim.AsksHolders s1 t q 3) ∧
              ((lockAt s1 q.line).holder ≠ none → isGroupReq q = true →
                (getR t rq).busy = true ∧ (getR t rq).acks = q.acks ∧ Event.ownershipAck rq ∈ t.agenda)) ∧
            (Claim.isStore q = true ∨ Claim.isAtomic q = true → Claim.timed s1 q = true → Claim.TimedWrite s1 t q)))

namespace Sys2Proof.Claim
open Machine

/-! What system software and firmware do through the Pergen controllers (R8, R15, R28, R197, R354, R369, R371, R376 to R378, R393 to R399). -/

/-- Only one die's registers have changed, to these. -/
def OnDie (s t : State) (d : Nat) (x : Die) : Prop :=
  t = { s with dies := t.dies } ∧ ∀ e, getDie t e = if e = d then x else getDie s e

/-- Only one context's registers have changed, to these. -/
def OnCtx (s t : State) (c : BitVec 12) (x : Ctx) : Prop :=
  t = { s with ctxs := t.ctxs } ∧ ∀ e : BitVec 12, getX t e = if e = c then x else getX s e

/-- Only one core's registers have changed, to these. -/
def OnCore (s t : State) (c : Nat) (x : Core) : Prop :=
  t = { s with cores := t.cores } ∧ ∀ e, getC t e = if e = c then x else getC s e

/-- R393: a value above its range takes the upper end, one below it the lower end. -/
def clamped (lo hi v : Nat) : Nat := if v < lo then lo else if hi < v then hi else v

/-- R393: what a write of a policy register does: the value, clamped to the register's range, and nothing else; WPMASK of a slice and number,
the cores of a queue and the priority in a queue's control block likewise; DLGMASK takes its writable bits (R354), CQBASE is a
multiple of 2^18 (R194) and bits 15:0 of CQSPILL stay 0 (R209). -/
def Policed (s t : State) (p : Policy) (v : Nat) : Prop :=
  match p with
  | .xlease c => OnCtx s t c { getX s c with xlease := BitVec.ofNat 21 (clamped 64 (2 ^ 20) v) }
  | .dataLease c => OnCtx s t c { getX s c with dataLease := BitVec.ofNat 8 (clamped 1 255 v) }
  | .stashLease c => OnCtx s t c { getX s c with stashLease := BitVec.ofNat 8 (clamped 1 255 v) }
  | .lholdlim c => OnCtx s t c { getX s c with lholdlim := BitVec.ofNat 32 (clamped 0 (2 ^ 32 - 1) v) }
  | .dlkprobe => t = { s with dlkprobe := clamped (2 ^ 10) (2 ^ 24) v }
  | .rbthresh => t = { s with rbthresh := clamped 0 255 v }
  | .rbhigh => t = { s with rbhigh := clamped 0 255 v }
  | .rbtime => t = { s with rbtime := clamped 1 (2 ^ 24) v }
  | .minres => t = { s with minres := if v < 360000 then 360000 else v }
  | .wpmask k n => t = { s with homes := { s.homes with wpmask := t.homes.wpmask } } ∧
      ∀ i, fget 0xFFFFFF t.homes.wpmask i = if i = k * 8 + n % 8 then BitVec.ofNat 24 (clamped 0 0xFFFFFF v) else fget 0xFFFFFF s.homes.wpmask i
  | .dlgmask c => OnCtx s t c { getX s c with dlgmask := (getX t c).dlgmask } ∧
      ∀ k, k < 128 → (getX t c).dlgmask.getLsbD k = (v.testBit k && dlgWritable.getLsbD k)
  | .skey c => OnCtx s t c { getX s c with skey := BitVec.ofNat 32 v }
  | .cqbase c => OnCtx s t c { getX s c with cqbase := (getX t c).cqbase } ∧ (getX t c).cqbase.toNat = v % 2 ^ 56 - v % 2 ^ 18
  | .cqspill c => OnCtx s t c { getX s c with cqspill := (getX t c).cqspill } ∧ (getX t c).cqspill.toNat = v % 2 ^ 64 - v % 2 ^ 16
  | .queueCores q => t = { s with queues := t.queues } ∧ ∀ k, ffind t.queues k = (ffind s.queues k).map fun x =>
      if k = q then { x with cores := (List.range (ncore s.part)).filter fun c => v.testBit c } else x
  | .queuePrio q => match ffind s.queues q with
    | some x => (visByte t (x.cb + 7)).toNat / 16 % 8 = clamped 0 7 v ∧ t.queues = s.queues ∧ t.groups = s.groups
    | none => t = s
  | .ageint d => OnDie s t d { getDie s d with ageint := clamped (2 ^ 30) (2 ^ 40) v }
  | .clockPlan d => OnDie s t d { getDie s d with slowed := decide (v % 2 = 1) }
  | .stopt => t = { s with stopt := BitVec.ofNat 64 v }
  | .sten => t = { s with sten := decide (v % 2 = 1) }
  | .trbase k => OnCore s t k { getC s k with trbase := BitVec.ofNat 56 v, trctx := BitVec.ofNat 12 (v / 2 ^ 56), trace := [] }
  | .trsize k => OnCore s t k { getC s k with trsize := v }
  | .watchpoint k n => OnCore s t k { getC s k with watches := (getC t k).watches } ∧
      ∀ j, fget Watch.zero (getC t k).watches j = if j = n % 4 then
        { addr := v % 2 ^ 23, en := v.testBit 23, mat := BitVec.ofNat 3 (v / 2 ^ 24), act := BitVec.ofNat 2 (v / 2 ^ 27), ctx := BitVec.ofNat 12 (v / 2 ^ 29) }
        else fget Watch.zero (getC s k).watches j
  | .traceMark u => t = { s with groups := t.groups } ∧
      ∀ k, getG t k = if k = u ∧ (getG s u).uid = u then { getG s u with marked := decide (v ≠ 0) } else getG s k
  | .replog c => OnCtx s t c { getX s c with replog := decide (v % 2 = 1) }
  | .replogBase c => OnCtx s t c { getX s c with logBase := BitVec.ofNat 56 v, logged := 0, logOvf := false }
  | .replogSize c => OnCtx s t c { getX s c with logSize := v }
  | .exportBase p => t = { s with windows := t.windows } ∧ ∀ k, fget (0, 0) t.windows k = if k = p then (v, (fget (0, 0) s.windows p).2) else fget (0, 0) s.windows k
  | .exportSize p => t = { s with windows := t.windows } ∧ ∀ k, fget (0, 0) t.windows k = if k = p then ((fget (0, 0) s.windows p).1, v) else fget (0, 0) s.windows k

/-- R1, R2: the part has the register that a write names: its core, slice or die is there. -/
def registerThere (s : State) (p : Policy) : Bool :=
  match p with
  | .wpmask k n => decide (k < 24 * ndie s.part ∧ n < 8)
  | .ageint d => decide (d < ndie s.part)
  | .clockPlan d => decide (d < ndie s.part)
  | .trbase k => decide (k < ncore s.part)
  | .trsize k => decide (k < ncore s.part)
  | .watchpoint k n => decide (k < ncore s.part ∧ n < 4)
  | _ => true

/-- R376, R377: a trigger of a checkpoint: with an extent list that holds the image, device memory and one tag bit for each 16 bytes of it, the engine
takes the device and notes GTICK; else it only records the trigger and that it was refused. A second one while it holds the device adds only that
power is being lost. -/
def Triggered (s t : State) (power : Bool) : Prop :=
  let k := s.ckpt
  let image := hbmSize s.part + hbmSize s.part / 128
  (k.quiesced = true → t.ckpt = { k with powerLoss := k.powerLoss || power }) ∧
  (k.quiesced = false → ((k.extents.map fun e => e.2).sum < image → t.ckpt = { k with trigger := true, refused := true }) ∧
    (image ≤ (k.extents.map fun e => e.2).sum →
      t.ckpt = { k with trigger := true, refused := false, quiesced := true, powerLoss := power, start := s.gtick }))

/-- R394: a die's boot ROM accepts an image: its public key has the fused digest, its signature over header and body verifies, and the SVN of its
header is not below the fuses'. -/
def Verifies (d : Die) (i : FwImage) : Prop :=
  i.key.length = 64 ∧ i.sig.length = 29792 ∧ Config.shake256 i.key = d.keyDigest ∧ Config.slhDsaVerify i.sig (i.head ++ i.body) i.key = true ∧
    d.svn.toNat ≤ (Config.headerSvn i.head).toNat

/-- R395: the digest of an image. -/
def digest (i : FwImage) : BitVec 512 := Config.shake256 (i.key ++ i.sig ++ i.head ++ i.body)

/-- R395: every die accepts its image, and the digests of all of them agree. -/
def Accepted (s : State) (l : List FwImage) : Prop :=
  (∀ p ∈ l.zipIdx, Verifies (getDie s p.2) p.1) ∧ ∀ i ∈ l, ∀ j ∈ l, digest i = digest j

/-- R395: the package after its reset with the images that its dies take: nothing of the package's state is left but the fuses; all dies run their
images, or, unless every die accepts its own and all are the same, all are in recovery. Host and peer memory lie outside. -/
def Rebooted (s t : State) (l : List FwImage) : Prop :=
  t = { State.reset with part := s.part, rev := s.rev, schedule := s.schedule, free := s.free, nextId := s.nextId, host := s.host, peers := s.peers, dies := t.dies } ∧
  ∀ p ∈ l.zipIdx, (getDie t p.2).keyDigest = (getDie s p.2).keyDigest ∧ (getDie t p.2).secret = (getDie s p.2).secret ∧
    (Accepted s l → (getDie t p.2).recovery = false ∧ (getDie t p.2).image = some p.1 ∧ (getDie t p.2).svn = Config.headerSvn p.1.head) ∧
    (¬Accepted s l → (getDie t p.2).recovery = true ∧ (getDie t p.2).image = none ∧ (getDie t p.2).svn = (getDie s p.2).svn)

/-- R397, R398: a measurement taken: SLACK, ROSC and the tick; below 8 ps of slack (80 tenths) the clock steps down, LOWF is 1, and the operating
point changes. A clock that is low stays so (log 91). -/
def Measured (d : Die) (now : BitVec 64) (slack rosc : BitVec 12) : Die :=
  let d1 := { d with slack, rosc, mtick := BitVec.ofNat 30 (now.toNat / 2 ^ 34), measure := false }
  if slack.toNat < 80 then { d1 with lowf := true, opChange := true, planned := false } else d1

end Sys2Proof.Claim

open Sys2Proof Sys2Proof.Machine

/-- Each event completes under its own condition and leaves exactly what its rule says: a policy register takes the defined bits of its
value; a root table makes its context live; a peer entry, the extent list, and a checkpoint trigger are held; a reset or an accepted image
runs the boot checks; a staged image waits; a report is added; a measurement, a guard band, an operating point, a throttle and a trip change
their die. Policy ranges follow log 4; images, fuses, recovery, measurements and the clock logs 50 to 53, 55, 56 and 91; a second trigger
log 93: the model's choices. Forms: setRootTable, peerTableWrite, policyWrite, checkpointExtentList, checkpointHostCommand,
powerLossWarning, packageReset, recoveryImageWrite, firmwareImageStage, attestationReport, ageingMeasurement, guardbandRequest,
thermalThrottle, thermalTrip, configurationSpaceWrite, operatingPointChangeDone. -/
def Sys2Proof.Claim.FirmwareEvents : Prop :=
  ∀ (s : State),
    -- policyWrite
    (∀ (p : Policy) (v : Nat), ∃ t, exec (.policyWrite p v) s = .next t ∧
      if Claim.registerThere s p = true ∧ (getDie s 0).recovery = false then Claim.Policed s t p v else t = s) ∧
    -- setRootTable
    (∀ (ctx : BitVec 12) (pa : BitVec 52), pa.toNat % 8192 = 0 → (getDie s 0).recovery = false →
      ∃ t, exec (.setRootTable ctx pa) s = .next t ∧ Claim.OnCtx s t ctx { getX s ctx with root := pa, live := true }) ∧
    -- peerTableWrite
    (∀ (ctx : BitVec 12) (peer : BitVec 8) (en : Bool) (port base size : Nat), port < 2 →
      ∃ t, exec (.peerTableWrite ctx peer en port base size) s = .next t ∧
        Claim.OnCtx s t ctx { getX s ctx with peers := (getX t ctx).peers } ∧
        ∀ k, ffind (getX t ctx).peers k = if k = peer.toNat then some { en, port, base, size } else ffind (getX s ctx).peers k) ∧
    -- checkpointExtentList, checkpointHostCommand, powerLossWarning
    (∀ (l : List (Nat × Nat)), (getDie s 0).recovery = false →
      ∃ t, exec (.checkpointExtentList l) s = .next t ∧ t = { s with ckpt := t.ckpt } ∧ t.ckpt = { s.ckpt with extents := l }) ∧
    (∀ (d : Nat), d < ndie s.part → (getDie s 0).recovery = false →
      ∃ t, exec (.checkpointHostCommand d) s = .next t ∧ t = { s with ckpt := t.ckpt } ∧ Claim.Triggered s t false) ∧
    ((getDie s 0).recovery = false → ∃ t, exec .powerLossWarning s = .next t ∧ t = { s with ckpt := t.ckpt } ∧ Claim.Triggered s t true) ∧
    -- packageReset, recoveryImageWrite, firmwareImageStage
    (∀ (l : List FwImage), l.length = ndie s.part →
      ∃ t, exec (.packageReset l) s = .next t ∧ Claim.Rebooted s t (l.zipIdx.map fun p =>
        ((getDie s p.2).staged.orElse fun _ => (getDie s p.2).stored).getD p.1)) ∧
    (∀ (d : Nat) (x : FwImage), d < ndie s.part → (getDie s d).recovery = true →
      ∃ t, exec (.recoveryImageWrite d x) s = .next t ∧
        (Claim.Verifies (getDie s d) x → Claim.Rebooted s t (List.replicate (ndie s.part) x) ∧ ∀ e, e < ndie s.part → (getDie t e).stored = some x) ∧
        (¬Claim.Verifies (getDie s d) x → t = s)) ∧
    (∀ (d : Nat) (x : FwImage), d < ndie s.part → (getDie s d).recovery = false →
      ∃ t, exec (.firmwareImageStage d x) s = .next t ∧
        (Claim.Verifies (getDie s d) x → Claim.OnDie s t d { getDie s d with staged := some x, stored := some x }) ∧
        (¬Claim.Verifies (getDie s d) x → t = s)) ∧
    -- attestationReport
    (∀ (d : Nat), d < ndie s.part →
      ∃ t, exec (.attestationReport d) s = .next t ∧ Claim.OnDie s t d { getDie s d with reports := (getDie t d).reports } ∧
        ∃ r ∈ (getDie t d).reports, (getDie t d).reports = (getDie s d).reports ++ [r] ∧ r.take 64 = leBytes (Config.romDigest d).toNat 64 ∧
          Claim.OnSome (getDie s d).image fun i => (r.drop 64).take 64 = leBytes (Claim.digest i).toNat 64) ∧
    -- ageingMeasurement, guardbandRequest, operatingPointChangeDone
    (∀ (d : Nat) (x y : BitVec 12), d < ndie s.part → (getDie s d).measure = true →
      ∃ t, exec (.ageingMeasurement d x y) s = .next t ∧
        if (getDie s d).opChange = true then t = s else Claim.OnDie s t d (Claim.Measured (getDie s d) s.gtick x y)) ∧
    (∀ (d mv : Nat), d < ndie s.part →
      ∃ t, exec (.guardbandRequest d mv) s = .next t ∧ Claim.OnDie s t d
        { getDie s d with gb := BitVec.ofNat 8 (Claim.clamped 15 120 mv), clamp := decide (mv < 15 ∨ 120 < mv), opChange := true, planned := true }) ∧
    (∀ (d : Nat), (getDie s d).opChange = true →
      let lifts := (getDie s d).lowf = true ∧ (getDie s d).planned = true
      ∃ t, exec (.operatingPointChangeDone d) s = .next t ∧ t = { s with dies := t.dies, free := t.free, agenda := t.agenda } ∧
        (∀ e, getDie t e = if e ≠ d then getDie s e else
          { getDie s d with opChange := false, planned := false, lowf := (getDie t d).lowf }) ∧
        (¬lifts → (getDie t d).lowf = (getDie s d).lowf ∧ t.free = s.free) ∧
        if (getDie s d).measure = true then ∃ x y, t.agenda = s.agenda ++ [.ageingMeasurement d x y] else t.agenda = s.agenda) ∧
    -- thermalThrottle, thermalTrip, configurationSpaceWrite
    (∀ (d : Nat), d < ndie s.part →
      ∃ t, exec (.thermalThrottle d) s = .next t ∧ Claim.OnDie s t d { getDie s d with throttled := true, opChange := true, planned := false }) ∧
    (∀ (d : Nat), d < ndie s.part →
      ∃ t, exec (.thermalTrip d) s = .next t ∧ t = { s with ckpt := t.ckpt, halted := true } ∧
        if (getDie s 0).recovery = true then t.ckpt = s.ckpt else Claim.Triggered s t true) ∧
    (∀ (d : Nat) (on : Bool), d < ndie s.part →
      ∃ t, exec (.configurationSpaceWrite d on) s = .next t ∧ Claim.OnDie s t d { getDie s d with atomicOp := on })

/-- capabilityMint, checkpointStream, checkpointRestore. Forms: capabilityMint, checkpointStream, checkpointRestore. -/
def Sys2Proof.Claim.MemoryImageEvents : Prop :=
  ∀ (s : State),
    (∀ (pa base top : Nat) (space : BitVec 4) (perms : BitVec 7), pa % 16 = 0 → pa + 16 ≤ hbmSize s.part → base ≤ top → top ≤ 2 ^ 56 → base < 2 ^ 56 →
      let c := capWithBounds { Cap.null with
        addr := BitVec.ofNat 56 base, perms := if space = 1 ∨ space = 2 then perms &&& 0x3F else perms, space, tag := true } base top
      ∃ t, exec (.capabilityMint pa space base top base perms) s = .next t ∧
        (∀ k, k < 16 → visByte t (pa + k) = BitVec.ofNat 8 (capBits c / 2 ^ (8 * k))) ∧ fget false t.homes.tags (pa / 16) = true ∧
        (∀ a, a < pa ∨ pa + 16 ≤ a → visByte t a = visByte s a)) ∧
    (s.ckpt.quiesced = true → ckptQuiet s = true →
      ∃ t, exec .checkpointStream s = .next t ∧
        t.ckpt = { s.ckpt with trigger := false, quiesced := false, done := s.ckpt.done ++ [(s.ckpt.start, s.gtick)] } ∧
        t.halted = (s.halted || s.ckpt.powerLoss) ∧
        (let b := Config.ckptRecordAt s.ckpt.extents
         (∀ k, k < 64 → fget 0 t.host (b + k) = BitVec.ofNat 8 ((Config.ckptRecord 0 s.ckpt.start s.gtick).toNat / 256 ^ k)) ∧
         ∀ o a, o < hbmSize s.part → extentAddr s.ckpt.extents o = some a → (a < b ∨ b + 64 ≤ a) →
          (∀ p, extentAddr s.ckpt.extents p = some a → p = o) → fget 0 t.host a = memByte t o)) ∧
    ((getDie s 0).recovery = false → (∀ p ∈ s.ctxs, p.2.live = false) →
      hbmSize s.part + hbmSize s.part / 128 ≤ (s.ckpt.extents.map fun e => e.2).sum →
      ∃ t, exec .checkpointRestore s = .next t ∧ t.host = s.host ∧ t.groups = s.groups ∧ t.homes.leases = [] ∧
        (∀ o a, o < hbmSize s.part → extentAddr s.ckpt.extents o = some a →
          (∀ p, extentAddr s.ckpt.extents p = some a → p = o) → memByte t o = fget 0 s.host a))

namespace Sys2Proof.Claim
open Machine

/-! The debugger, the samples and the named tick (R364, R380 to R390). -/

/-- A group that exists and has not ended. -/
def Alive (s : State) (u : Nat) : Prop := (getG s u).uid = u ∧ u ≠ 0 ∧ (getG s u).ended = false

/-- A group is as it was, but for a claim of slots that may have been granted (R171). -/
def OnlyClaims (g h : Group) : Prop :=
  h = { g with claim := h.claim, slots := h.slots, s := h.s, sEmpty := h.sEmpty, swr := h.swr }

/-- The record of a fragment, written or kept by its group. -/
def HasRecord (s : State) (u k : Nat) (cond : Cond) : Prop :=
  ∃ r ∈ s.records ++ (getG s u).stuck, r.uid = u ∧ r.frag = k ∧ r.cond = cond

/-- R385: every fragment of a resident group that could run waits in a record of COND 12 with the number; the group's registers are as they
were, but for a claim of slots that is granted. A group that is not resident keeps its fragments as they are. -/
def HoldsFragments (s t : State) (u : Nat) (n : BitVec 16) : Prop :=
  RegsKept (getG s u) { getG t u with s := (getG s u).s, sEmpty := (getG s u).sEmpty } ∧
  ∀ k, k < 8 → if (getG s u).slot.isSome = true ∧ (getF (getG s u) k).valid = true ∧ (getF (getG s u) k).st = 0
    then (getF (getG t u) k).st = 2 ∧ HasRecord t u k (.debug n)
    else getF (getG t u) k = getF (getG s u) k

/-- R385: the records of a group that its hold alone keeps waiting: COND 12, and not a parked ENC_BRK or DBG_STEP of another number. -/
def heldBy (u : Nat) (n : Option (BitVec 16)) (r : Record) : Bool :=
  r.uid == u && match r.cond with | .debug m => r.trap.isNone || some m == n | _ => false

/-- R385: those records are ready, with the tick in EVT; every other is as it was. -/
def Freed (s t : State) (u : Nat) (n : Option (BitVec 16)) : Prop :=
  t.records = s.records.map fun r => if heldBy u n r then (if r.ready then r else { r with ready := true, evt := BitVec.ofNat 32 s.gtick.toNat }) else r

/-- R389: the cores that an action stops: none, its own, its pair, its die. -/
def stops (s : State) (core : Nat) (act : BitVec 2) (c : Nat) : Bool :=
  match act.toNat with
  | 0 => false
  | 1 => c == core
  | 2 => c / 2 == core / 2
  | _ => decide (c < ncore s.part) && dieOf c == dieOf core

/-- R364: DBG_STOP has reached a core, for a context with a group there. -/
def StopTold (s t : State) (core : Nat) (x : BitVec 12) (arg : BitVec 32) : Prop :=
  ∃ r ∈ (getX t x).faults.drop (getX s x).faults.length, r.code = .dbgStop ∧ r.defr = true ∧ r.core = core ∧ r.arg = arg ∧ r.tick = s.gtick

/-- R382, R384: a record of the trace buffer: GTICK in bits 63:0, the core in bits 70:64. -/
def Stamped (s : State) (core : Nat) (r : BitVec 256) : Prop :=
  r.toNat % 2 ^ 64 = s.gtick.toNat ∧ r.toNat / 2 ^ 64 % 2 ^ 7 = core

/-- R381: a core samples every 2^INT cycles of its clock, for an interval from 6 to 16, while EN is 1 and its die has a cycle. -/
def SampleAt (s : State) (core phase : Nat) : Prop :=
  let w := (getC s core).sampctl.toNat
  core < ncore s.part ∧ (getDie s (dieOf core)).still = false ∧ w % 2 = 1 ∧ 6 ≤ w / 2 % 32 ∧ w / 2 % 32 ≤ 16 ∧
    cycleOf s core % 2 ^ (w / 2 % 32) = phase

end Sys2Proof.Claim

open Sys2Proof Sys2Proof.Machine

/-- A hold parks every fragment of a resident group that could run; a release and a step make those records ready and no others; a
watchpoint stop holds the groups of the cores that its action names; a role is halted and released; the named tick stops a die; SAMPCTL
takes its defined bits; a sample appends the records of its core. Where samples lie on the local clock follows log 69; that a stop lasts
until the last group held under 0xFFFF is released, and DBG_STOP once for each context with ARG 0xFFFF, or 0 for the named tick, follow log
44; the number of a halted role is free but not 0 (log 6). Forms: namedTickStop, sampctlWrite, stallSample, occupancyRecord, debugHold,
debugRelease, debugStep, watchpointStop, debugRoleHalt, debugRoleRelease. -/
def Obligations.DebuggerEvents : Prop :=
  ∀ (s : State),
    -- debugHold, debugRelease, debugStep
    (∀ (u : Nat) (n : BitVec 16), Claim.Alive s u → n ≠ 0 →
      ∃ t, exec (.debugHold u n) s = .next t ∧ (getG t u).hold = some n ∧ (getG t u).step = none ∧ Claim.HoldsFragments s t u n ∧
        ∀ v, v ≠ u → Claim.OnlyClaims (getG s v) (getG t v)) ∧
    (∀ (u : Nat), Claim.Alive s u → (getG s u).hold.isSome = true →
      ∃ t, exec (.debugRelease u) s = .next t ∧ (getG t u).hold = none ∧ Claim.Freed s t u (getG s u).hold ∧
        Claim.RegsKept (getG s u) (getG t u) ∧
        ∀ c, getC t c = { getC s c with stopped := (getC s c).stopped &&
          (c != (getG s u).core || s.groups.any fun p => p.1 != u && p.2.core == c && p.2.hold == some 0xFFFF) }) ∧
    (∀ (u : Nat), Claim.Alive s u → (getG s u).hold.isSome = true →
      ∃ t, exec (.debugStep u) s = .next t ∧ (getG t u).hold = none ∧ (getG t u).step = (getG s u).hold ∧
        Claim.Freed s t u (getG s u).hold ∧ Claim.RegsKept (getG s u) (getG t u)) ∧
    -- watchpointStop
    (∀ (c : Nat) (a : BitVec 2), c < ncore s.part → a ≠ 0 →
      ∃ t, exec (.watchpointStop c a) s = .next t ∧
        ∀ u, Claim.Alive s u → (if Claim.stops s c a (getG s u).core = true ∧ (getC s (getG s u).core).stopped = false
          then (getG t u).hold = some 0xFFFF ∧ (getG t u).skid = 0 ∧ (getC t (getG s u).core).stopped = true ∧
            Claim.StopTold s t (getG s u).core (getG s u).ctx 0xFFFF ∧
            ((getG s u).slot.isSome = true → ∃ r ∈ (getC t (getG s u).core).skid,
              r.tick = s.gtick ∧ r.gid = (getG s u).gid ∧ r.slot = (getG s u).slot.getD 0 ∧ r.n = min 255 (getG s u).skid)
          else Claim.OnlyClaims (getG s u) (getG t u))) ∧
    -- debugRoleHalt, debugRoleRelease
    (∀ (k : Nat) (r : BitVec 2), (ffind s.tasks k).isSome = true → (getT s k).hdr.pipe = true → r ≠ 0 → (getT s k).halted.contains r = false →
      ∃ t, exec (.debugRoleHalt k r) s = .next t ∧ getT t k = { getT s k with halted := (getT s k).halted ++ [r] } ∧
        ∃ n : BitVec 16, n ≠ 0 ∧ ∀ u, Claim.Alive s u → (if (getG s u).task = k ∧ (getG s u).role = r
          then Claim.HoldsFragments s t u n else Claim.OnlyClaims (getG s u) (getG t u))) ∧
    (∀ (k : Nat) (r : BitVec 2), (getT s k).halted.contains r = true →
      ∃ t, exec (.debugRoleRelease k r) s = .next t ∧ getT t k = { getT s k with halted := (getT s k).halted.filter fun x => x != r } ∧
        ((∃ q ∈ s.tasks, q.1 ≠ k ∧ q.2.ctx = (getT s k).ctx ∧ q.2.halted ≠ []) → ∀ x ∈ s.records,
          Claim.heldBy x.uid none x = true → (getG s x.uid).hold = none → (getG s x.uid).task = k → (getG s x.uid).role = r →
          (getG s x.uid).ended = false → ∃ y ∈ t.records, y.id = x.id ∧ y.ready = true)) ∧
    -- namedTickStop
    (∀ (d : Nat), s.sten = true → s.gtick = s.stopt → d < ndie s.part → (getDie s d).gated = false →
      ∃ t, exec (.namedTickStop d) s = .next t ∧ t = { s with dies := t.dies, ctxs := t.ctxs } ∧
        (∀ e, getDie t e = if e = d then { getDie s d with gated := true } else getDie s e) ∧
        ∀ u, Claim.Alive s u → dieOf (getG s u).core = d → (getG s u).core < ncore s.part →
          Claim.StopTold s t (getG s u).core (getG s u).ctx 0) ∧
    -- sampctlWrite, stallSample, occupancyRecord
    (∀ (c : Nat) (w : BitVec 64), c < ncore s.part →
      ∃ t, exec (.sampctlWrite c w) s = .next t ∧ Claim.OnCore s t c { getC s c with sampctl := (getC t c).sampctl } ∧
        (getC t c).sampctl.toNat = w.toNat % 2 ^ 7 + (if w.getLsbD 7 then 0 else 2 ^ 7 * ((getC s c).sampctl.toNat / 2 ^ 7 % 2))) ∧
    (∀ (c : Nat), Claim.SampleAt s c 0 →
      ∃ t, exec (.stallSample c) s = .next t ∧ (getC t c).rot = ((getC s c).rot + 1) % 4 ∧
        (let old := (getC s c).trace
         (getC t c).trace.take old.length = old ∧ (getC t c).trace.length = max old.length (min (getC s c).trsize (old.length + 256)) ∧
          ((getC s c).trsize < old.length + 256 → (getC t c).sampctl.getLsbD 7 = true) ∧
          ∀ l, l < 256 → old.length + l < (getC t c).trace.length → Claim.Stamped s c ((getC t c).trace.getD (old.length + l) 0) ∧
            ((getC t c).trace.getD (old.length + l) 0).toNat / 2 ^ 71 % 2 ^ 8 = l)) ∧
    (∀ (c : Nat), Claim.SampleAt s c 1 → (getC s c).sampctl.getLsbD 6 = true →
      ∃ t, exec (.occupancyRecord c) s = .next t ∧
        (if (getC s c).trsize ≤ (getC s c).trace.length then (getC t c).trace = (getC s c).trace ∧ (getC t c).sampctl.getLsbD 7 = true
        else (getC t c).trace.dropLast = (getC s c).trace ∧ (getC t c).trace ≠ [] ∧
          Claim.Stamped s c ((getC t c).trace.getLast?.getD 0) ∧
          ((getC t c).trace.getLast?.getD 0).toNat / 2 ^ 160 % 2 ^ 7 =
            (s.records.filter fun r => r.owner == c && r.place.cached).length % 2 ^ 7))

namespace Sys2Proof.Claim
open Machine

/-! The messages that follow a request's arrival at its home, the routers, the sweeps, and the fills of a stash (R69 to R74, R86 to R96, R105, R136 to
R138). -/

/-- A unit of a pair holds a word of a line in an owner record. -/
def owns (s : State) (line pair unit i : Nat) : Bool :=
  (dirAt s line).owners.any fun o => o.pair.toNat == pair && o.unit.toNat == unit && o.mask.getLsbD i

/-- Every byte of device memory at its home is as it was. -/
def HomeKept (s t : State) : Prop := ∀ a, memByte t a = memByte s a

/-- A request in flight that its home works on, and that a group has made. -/
def Working (s : State) (rq : Nat) : Prop := (getR s rq).id = rq ∧ rq ≠ 0 ∧ (getR s rq).busy = true

/-- R105: an operation that was held is on its way, or over. -/
def Released (t : State) (u op : Nat) : Prop := ∀ o ∈ (getG t u).ops, o.id = op → o.held = false

/-- R91: no marker of the operation is left in the core's FIFO. -/
def Unmarked (t : State) (core u op : Nat) : Prop := ∀ e ∈ (getC t core).fifo, ¬(e.marker = true ∧ e.uid = u ∧ e.op = op)

/-- The answer of one request of an operation: one less to wait for, and its results; the last answer ends an operation that waits for nothing else. -/
def Answered (s t : State) (u op : Nat) (res : List (Nat × DWord)) : Prop :=
  OnSome (opOf (getG s u) op) fun o =>
    (2 ≤ o.left → OnSome (opOf (getG t u) op) (fun x => x = { o with left := o.left - 1, got := o.got ++ res }) ∧ (opOf (getG t u) op).isSome = true) ∧
    (o.left = 1 → o.held = false → o.swait = [] → ∀ x ∈ (getG t u).ops, x.id ≠ op ∨ ∃ y ∈ (getG s u).ops, y ≠ o ∧ y.id = op)

/-- R63, R70: a fill can deliver its whole line at once: its entry governs the line; every global byte of an invalid word translates in the
core's TLB for a fill, under the generation of its frame; no home works on a request for its word; it has no uncorrectable error; its line has
a directory entry, or its set has room; and no die keeps replicas. -/
def FillReady (s : State) (x : Fill) (e : MapEntry) : Prop :=
  let c := getC s x.core
  let ks := ((List.range 32).map (32 * x.line + ·)).filter fun k => !(swordAt s x.core k).v
  let vas := ks.flatMap fun k => (wordSrc c e k).filterMap id
  x.core < ncore s.part ∧ e.sbase ≤ x.line ∧ x.line < e.sbase + e.slen ∧ (e.gath = true → 4 * (e.idx + e.count) ≤ 128 * x.line ∨ 128 * (x.line + 1) ≤ 4 * e.idx) ∧
    s.homes.reps = [] ∧ (∀ p ∈ s.homes.l2, ∀ w ∈ p.2, w.kind ≠ 1) ∧
    ∀ va ∈ vas, ∃ l ∈ (tlbFind c e.ctx va).toList, rightsCause .fill l = none ∧ modeCause .fill l = none ∧
      let pa := leafPa l va
      l.gen = fget 0 s.homes.gens (pa / 65536) ∧ busyOn s 0 (pa / 128) (BitVec.ofNat 32 (2 ^ (pa / 4 % 32))) = false ∧
        fget false s.homes.errs (pa / 128) = false ∧
        (dirAt s (pa / 128) ≠ DirEntry.empty ∨ (dirSet s (pa / 128)).length + (dirClaims s (pa / 128)).length + vas.length ≤ 16)

/-- No access of a group of a core waits for words of its stash. -/
def NoneWaits (s : State) (core : Nat) : Prop := ∀ p ∈ s.groups, p.2.core = core → ∀ o ∈ (getG s p.1).ops, o.swait = []

/-- R70: a stash word that was invalid has its bytes: the newest values of the global bytes that it stands for, to which it is bound, and 0 in
pad bytes; it is valid and not dirty. -/
def Delivered (s t : State) (core : Nat) (e : MapEntry) (k : Nat) : Prop :=
  let c := getC s core
  let w := wordOf t core k
  w.v = true ∧ w.d = false ∧ w.bound.length = 4 ∧
    ∀ p ∈ (wordSrc c e k).zipIdx,
      (OnSome p.1 fun va => OnSome (tlbFind c e.ctx va) fun l => w.bound.getD p.2 none = some (leafPa l va) ∧
        fget (0 : Byte) (getC t core).stash (4 * k + p.2) = visByte s (leafPa l va)) ∧
      (p.1 = none → w.bound.getD p.2 none = none ∧ fget (0 : Byte) (getC t core).stash (4 * k + p.2) = 0)

/-- R95: a timestamp further back than an age in ECLK units. -/
def older (s : State) (t : BitVec 16) (age : Nat) : Bool := decide (age ≤ (eclk s - t).toNat)

end Sys2Proof.Claim

open Sys2Proof Sys2Proof.Machine

/-- A write-back carries dirty words home and ends the ownership; recalls and invalidations give up their words and acknowledge; the last
acknowledgement completes a store, whose bytes every agent then reads; a reply answers its operation; a refused request is walked again; a
marker at the head and an ended hold let an operation go; merges answer every constituent; a held lease write is performed; sweeps age
timestamps and copies. A fill completes, with no dirty word and no byte of memory changed; one that finds its translations and its home free
makes every invalid word of its line valid, with the newest bytes of the global addresses that it stands for. The tick of a sweep follows
log 88. Forms: requestRefused, homeWriteBack, invalidationReceived, recallReceived, forwardedRead, invalidationAck, ownershipAck,
releaseMarkerHead, heldAccessRelease, leaseWriteHoldEnd, sliceLeaseSweep, coreLeaseSweep, replyArrival, stashFillArrival, routerMerge,
routerMergeReply. -/
def Obligations.CoherenceEvents : Prop :=
  ∀ (s : State),
    -- homeWriteBack: a pair cache's words go home
    (∀ (pair line : Nat) (m : Word), m ≠ 0 → (lockAt s line).holder = none → pair < 48 →
      (∃ o ∈ (dirAt s line).owners, o.pair.toNat = pair ∧ o.unit = 0 ∧ o.mask &&& m = m) →
      ∃ t, exec (.homeWriteBack pair 0 line m) s = .next t ∧
        (∀ i, i < 32 → m.getLsbD i = true → Claim.owns t line pair 0 i = false) ∧
        (∀ i, i < 32 → m.getLsbD i = false → Claim.owns t line pair 0 i = Claim.owns s line pair 0 i) ∧
        ∀ a, memByte t a = match ffind s.homes.pcache (unitKey pair (a / 4)) with
          | some w => if a / 128 = line ∧ m.getLsbD (a / 4 % 32) = true ∧ w.dirty = true then BitVec.ofNat 8 (w.val.toNat / 2 ^ (8 * (a % 4))) else memByte s a
          | none => memByte s a) ∧
    -- recallReceived, invalidationReceived, invalidationAck, forwardedRead
    (∀ (rq pair unit : Nat) (m : Word), Claim.Working s rq → 0 < (getR s rq).acks →
      ∃ t, exec (.recallReceived rq pair unit m) s = .next t ∧ Event.invalidationAck rq ∈ t.agenda ∧
        ∀ i, i < 32 → Claim.owns t (getR s rq).line pair unit i = (Claim.owns s (getR s rq).line pair unit i && !m.getLsbD i)) ∧
    (∀ (rq target : Nat), Claim.Working s rq → 0 < (getR s rq).acks →
      let q := getR s rq
      ∃ t, exec (.invalidationReceived rq target) s = .next t ∧ Event.invalidationAck rq ∈ t.agenda ∧ Claim.HomeKept s t ∧
        (target < 48 → (isGroupReq q = true → target ≠ q.core / 2) → ∀ i, i < 32 → (reqMask q).getLsbD i = true →
          Claim.owns s q.line target 0 i = false →
          ffind t.homes.pcache (unitKey target (32 * q.line + i)) = none)) ∧
    (∀ (rq : Nat), Claim.Working s rq → 0 < (getR s rq).acks →
      ∃ t, exec (.invalidationAck rq) s = .next t ∧ t = { s with reqs := t.reqs, agenda := t.agenda } ∧
        (∀ k, getR t k = if k = rq then { getR s rq with acks := (getR s rq).acks - 1 } else getR s k) ∧
        ((getR s rq).acks = 1 → Event.ownershipAck rq ∈ t.agenda) ∧ ((getR s rq).acks ≠ 1 → t.agenda = s.agenda)) ∧
    (∀ (rq : Nat), Claim.Working s rq → (getR s rq).mode = 0 → (getR s rq).kind = .read ∨ (getR s rq).kind = .capRead →
      (getR s rq).agent ≠ .prefetch true →
      ∃ t, exec (.forwardedRead rq) s = .next t ∧ Claim.HomeKept s t ∧ (getR t rq).busy = false ∧ (getR t rq).done = true ∧
        ∃ err ∈ [true, false], Event.replyArrival rq err ∈ t.agenda) ∧
    -- ownershipAck: the request is over; the bytes of a store are visible to every agent
    (∀ (rq : Nat), Claim.Working s rq → (getR s rq).acks = 0 → (getR s rq).mode = 0 → isGroupReq (getR s rq) = true → (getR s rq).merged = [] →
      rq < s.nextId →
      let q := getR s rq
      ∃ t, exec (.ownershipAck rq) s = .next t ∧ ffind t.reqs rq = none ∧
        (q.kind = .write ∨ (q.kind = .own ∧ q.unit = 0) → (∀ i, i < 32 → (reqMask q).getLsbD i = true → ownerOf (dirAt s q.line) i = none) →
          (∀ x ∈ reqBytes q, x.1 / 128 = q.line) → ∀ x ∈ reqBytes q, Claim.Lone q x → visByte t x.1 = x.2)) ∧
    -- replyArrival
    (∀ (rq : Nat), let q := getR s rq
      q.id = rq → rq ≠ 0 → q.done = true → q.kind = .read ∨ q.kind = .capRead → ∀ p ∈ (Claim.ofGroup q).toList, (getG s p.1).uid = p.1 →
        (∃ t, exec (.replyArrival rq false) s = .next t ∧ ffind t.reqs rq = none ∧ Claim.HomeKept s t ∧ Claim.Answered s t p.1 p.2 q.result) ∧
        ((∀ k ∈ q.merged, rq ∉ (getR s k).merged) →
          ∃ t, exec (.replyArrival rq true) s = .next t ∧ ffind t.reqs rq = none ∧ (q.merged = [] → (getG t p.1).poisoned = true))) ∧
    -- requestRefused
    (∀ (rq : Nat), let q := getR s rq
      q.id = rq → rq ≠ 0 → q.busy = false → q.done = false → isGroupReq q = true → q.mode ≠ 2 → q.merged = [] →
        q.gen ≠ fget 0 s.homes.gens (q.line * 128 / 65536) → (∀ p ∈ q.pieces, p.space ≠ 1) →
        ∃ t, exec (.requestRefused rq) s = .next t ∧ Claim.HomeKept s t ∧ getR t rq = q ∧
          ∃ w ∈ t.walks, w.2 = { ctx := q.ctx, core := q.core, va := (q.pieces.map fun p => p.shown).headD 0, why := .request rq, done := none } ∧
            Event.pageWalkComplete w.1 ∈ t.agenda) ∧
    -- releaseMarkerHead, heldAccessRelease
    (∀ (c : Nat), ∀ e ∈ (getC s c).fifo.head?.toList, e.marker = true →
      Claim.OnSome (opOf (getG s e.uid) e.op) fun o => sendEvent s (getG s e.uid) o = some (.releaseMarkerHead c) →
        ∃ t, exec (.releaseMarkerHead c) s = .next t ∧ Claim.Unmarked t c e.uid e.op ∧ Claim.Released t e.uid e.op) ∧
    (∀ (u op : Nat), Claim.OnSome (opOf (getG s u) op) fun o => sendEvent s (getG s u) o = some (.heldAccessRelease u op) →
      ∃ t, exec (.heldAccessRelease u op) s = .next t ∧ Claim.Released t u op) ∧
    -- routerMerge, routerMergeReply
    (∀ (a b : Nat), mayMerge (getR s a) (getR s b) = true → (getX s (getR s a).ctx).replay = none → a ≠ b → (getR s a).id = a → (getR s b).id = b →
      (∀ u, (lockAt s (getR s a).line).holder = some u → u ≠ reqUid (getR s a) ∧ u ≠ reqUid (getR s b)) →
      Event.homeAtomic a ∈ s.agenda → Event.homeAtomic b ∈ s.agenda →
      ∃ t, exec (.routerMerge a b) s = .next t ∧ ((getX s (getR s a).ctx).replog = false → Claim.HomeKept s t) ∧ (getR t a).merged = (getR s a).merged ++ b :: (getR s b).merged ∧
        Event.homeAtomic a ∈ t.agenda ∧ Event.homeAtomic b ∉ t.agenda) ∧
    (∀ (rq : Nat), (getR s rq).id = rq → rq ≠ 0 → (getR s rq).done = true → (getR s rq).merged ≠ [] →
      (∀ k ∈ rq :: (getR s rq).merged, (getR s k).id = k ∧ isGroupReq (getR s k) = true) →
      ∃ t, exec (.routerMergeReply rq) s = .next t ∧ Claim.HomeKept s t ∧ ∀ k ∈ rq :: (getR s rq).merged, ffind t.reqs k = none) ∧
    -- leaseWriteHoldEnd
    (∀ (rq : Nat), Claim.Working s rq → (getR s rq).mode = 1 → (getR s rq).kind = .write →
      tsBefore (eclk s + 0x2000#16) (leaseStamp s (getR s rq).line (getR s rq).pts) = false →
      ∃ t, exec (.leaseWriteHoldEnd rq) s = .next t ∧ (getR t rq).done = true ∧ (getR t rq).busy = false ∧
        (getR t rq).wts = (dirAt t (getR s rq).line).wts ∧ Event.ownershipAck rq ∈ t.agenda ∧
        ∀ x ∈ reqBytes (getR s rq), Claim.Lone (getR s rq) x → memByte t x.1 = x.2) ∧
    -- sliceLeaseSweep, coreLeaseSweep
    (∀ (k : Nat), ∃ t, exec (.sliceLeaseSweep k) s = .next t ∧ t = { s with homes := { s.homes with dir := t.homes.dir, evts := t.homes.evts } } ∧
      (∀ l, ffind t.homes.dir l = (ffind s.homes.dir l).map fun e => if e.lmode = true ∧ homeSlice l = k then
        { e with old := e.old || Claim.older s e.wts (2 ^ 14), rts := if Claim.older s e.rts (2 ^ 14) then eclk s - 0x4000#16 else e.rts } else e) ∧
      ∀ j, ffind t.homes.evts j = if j = k ∧ (fget { valid := false, ts := 0 } s.homes.evts k).valid = true ∧
        Claim.older s (fget { valid := false, ts := 0 } s.homes.evts k).ts (2 ^ 14) = true then none else ffind s.homes.evts j) ∧
    (∀ (c : Nat), ∃ t, exec (.coreLeaseSweep c) s = .next t ∧ Claim.HomeKept s t ∧ t.groups = s.groups ∧
      ∀ l, l < 2 ^ 45 → ffind t.homes.leases (2 ^ 45 * (c / 2) + l) = (ffind s.homes.leases (2 ^ 45 * (c / 2) + l)).filter fun x =>
        !(Claim.older s x.rts (2 ^ 13) && !Claim.older s x.rts (2 ^ 15))) ∧
    -- stashFillArrival: no dirty word and no byte of memory changes; a fill that can deliver its line makes every invalid word of it valid
    (∀ (f : Nat), Claim.OnSome (ffind s.fills f) fun x => x.parked = false →
      ∃ t, exec (.stashFillArrival f) s = .next t ∧ Claim.HomeKept s t ∧
        ∀ k, (Claim.wordOf s x.core k).d = true → (Claim.wordOf t x.core k).d = true ∧
          ∀ j, j < 4 → fget (0 : Byte) (getC t x.core).stash (4 * k + j) = fget 0 (getC s x.core).stash (4 * k + j)) ∧
    (∀ (f : Nat), Claim.OnSome (ffind s.fills f) fun x => x.parked = false →
      Claim.OnSome (ffind (getC s x.core).maps x.entry) fun e => Claim.FillReady s x e → Claim.NoneWaits s x.core →
      ∃ t, exec (.stashFillArrival f) s = .next t ∧ ffind t.fills f = none ∧ Claim.HomeKept s t ∧
        (badElements s x.core e x.line = [] → t.groups = s.groups) ∧
        (∀ k, k / 32 = x.line → (swordAt s x.core k).v = false → Claim.Delivered s t x.core e k) ∧
        (∀ k, (swordAt s x.core k).v = true ∨ k / 32 ≠ x.line → Claim.wordOf t x.core k = Claim.wordOf s x.core k ∧
          ∀ j, j < 4 → fget (0 : Byte) (getC t x.core).stash (4 * k + j) = fget 0 (getC s x.core).stash (4 * k + j)))

namespace Sys2Proof.Claim
open Machine

/-! Host memory, host ports, Col links and the ends of the links (R122, R131, R332, R366 to R375). -/

/-- Only one link end has changed, to this. -/
def OnLink (s t : State) (l : Nat) (x : Link) : Prop :=
  t = { s with links := t.links } ∧ ∀ k, getLink t k = if k = l then x else getLink s k

/-- R372: a sequence number lies after another, modulo 4,096. -/
def comesAfter (a b : BitVec 12) : Bool := decide (a ≠ b ∧ (a - b).toNat < 2048)

/-- R372: a flit has these fields, its reserved bits are 0, and its CRC matches. -/
def IsFlit (f : BitVec 2048) (seq ack : BitVec 12) (kind : BitVec 4) (m : BitVec 1920) : Prop :=
  f.extractLsb' 0 12 = seq ∧ f.extractLsb' 12 12 = ack ∧ f.extractLsb' 24 4 = kind ∧ f.extractLsb' 28 36 = 0 ∧ f.extractLsb' 64 1920 = m ∧
    flitOk f = true

/-- R372: the flit that a link end puts on the wire next, with the last SEQ that it accepted; one without a message has payload 0 (log 40). -/
def nextFlit (l : Link) (kind : Nat) (m : BitVec 1920) : BitVec 2048 := composeFlit l.nextSeq l.lastAcc kind m
def telling (l : Link) (kind : Nat) : Link := { l with sent := l.sent ++ [nextFlit l kind 0] }

/-- R373: messages go out in their order while the link is up and the send window has fewer than 256 entries: each in a data flit, which the window
keeps under its SEQ and the parity flit of its stripe takes in; the rest wait. -/
def flowing : List (BitVec 1920) → Link → Link
  | [], l => { l with outbox := [] }
  | m :: ms, l =>
    if l.st ≠ 0 ∨ 256 ≤ l.window.length then { l with outbox := m :: ms } else
    let q := l.nextSeq
    let f := nextFlit l 0 m
    let e := q.toNat % 256
    flowing ms { l with
      nextSeq := q + 1, sent := l.sent ++ [f], window := l.window ++ [(q, f)], stored := fset 0 l.stored e f,
      parity := fset 0 l.parity (e / 8) (fget 0 l.parity (e / 8) ^^^ fget 0 l.stored e ^^^ f) }

/-- R373: the flits up to an acknowledged number leave the send window, and messages that waited go out. -/
def freed (l : Link) (a : BitVec 12) : Link := flowing l.outbox { l with window := l.window.filter fun p => comesAfter p.1 a }

/-- R372: a data flit whose CRC matches: the next in order is delivered, and acknowledged in an idle flit (log 40); one further on makes a NAK unless
one is out; an earlier one does nothing. -/
def received (l : Link) (f : BitVec 2048) : Link :=
  let q := f.extractLsb' 0 12
  let l1 := freed l (f.extractLsb' 12 12)
  if q = l.lastAcc + 1 then telling { l1 with lastAcc := q, delivered := l.delivered ++ [f.extractLsb' 64 1920], nakSent := false } 1
  else if comesAfter q (l.lastAcc + 1) = true ∧ l.nakSent = false then telling { l1 with nakSent := true } 2 else l1

/-- R374, R375: a link end in its first retrain attempt, with RETRAIN counted up to its largest value. -/
def retraining (l : Link) (now : Nat) : Link :=
  { l with st := 1, attempts := 0, retrySince := now, retrain := if l.retrain = 0xFFF then 0xFFF else l.retrain + 1 }

/-- R375: a 16-bit count, one higher unless it is at its largest value. -/
def counted (x : BitVec 16) : BitVec 16 := if x = 0xFFFF then x else x + 1

/-- R373: a window entry as the other seven of its stripe and their parity give it. -/
def fromParity (l : Link) (e : Nat) : BitVec 2048 :=
  (List.range 8).foldl (fun x i => if 8 * (e / 8) + i = e then x else x ^^^ fget 0 l.stored (8 * (e / 8) + i)) (fget 0 l.parity (e / 8))

/-- R373: a NAK for the flit after `a`: it is sent again from the window; where SECDED cannot read its entry, that is rebuilt from the rest of its
stripe, and where two entries of the stripe are lost the link asks for a retrain and retrains. -/
def resent (l : Link) (bad : List Nat) (a : BitVec 12) (now : Nat) : Link :=
  match l.window.find? fun p => p.1 == a + 1 with
  | none => l
  | some (q, _) =>
    let e := q.toNat % 256
    let lost := bad.dedup.filter fun x => decide (x < 256) && x / 8 == e / 8
    if 2 ≤ lost.length then retraining (telling l 3) now
    else
      let f := if e ∈ lost then fromParity l e else fget 0 l.stored e
      { l with
        sent := l.sent ++ [f], replays := l.replays ++ [f], replay := counted l.replay,
        rebuild := if e ∈ lost then counted l.rebuild else l.rebuild }

/-- R374: a link end after a retrain in which the other end has told the last SEQ that it accepted: its window is empty, and the messages in flits
after that SEQ go out again, before those that waited; the SEQ that follows is the next (log 40). -/
def restarted (l : Link) (a : BitVec 12) : Link :=
  let lost := (l.window.filter fun p => comesAfter p.1 a).map fun p => p.2.extractLsb' 64 1920
  flowing (lost ++ l.outbox) { l with
    st := 0, attempts := 0, nakSent := false, window := [], stored := [], parity := [], nextSeq := a + 1, reissued := l.reissued ++ lost }

/-- R1, R2, R372: a link end that the part has, and that is up. -/
def Up (s : State) (l : Nat) : Prop := linkExists s l = true ∧ (getLink s l).st = 0

/-- The requests that have joined the order of a die's host port. -/
def joined (s t : State) (d : Nat) : List Nat := (getDie t d).hostq.drop (getDie s d).hostq.length

/-- R366, R367: the requests joined behind those that the port had, all of one kind and of the host. -/
def Queued (s t : State) (d : Nat) (k : ReqKind) : Prop :=
  (getDie t d).hostq.take (getDie s d).hostq.length = (getDie s d).hostq ∧ joined s t d ≠ [] ∧
    ∀ r ∈ joined s t d, (getR t r).id = r ∧ (getR t r).agent = .host d ∧ (getR t r).kind = k

/-- A request of a group for host memory whose completion it awaits. -/
def AwaitsHost (s : State) (rq : Nat) : Prop :=
  let q := getR s rq
  q.id = rq ∧ rq ≠ 0 ∧ q.mode = 2 ∧ isGroupReq q = true ∧ q.kind = .read

end Sys2Proof.Claim

open Sys2Proof Sys2Proof.Machine

/-- Host reads and writes join their port in order; a host access is answered in the order of the port or times out; a host store reaches
host memory; an atomic of the host is sent, and completed with the old value or refused; a Col write within its window becomes requests, and
none outside it; messages leave in flits with their SEQ, ACK and CRC while the window has room, their parity kept; flits are accepted in
order, answered with a NAK, and sent again, rebuilt where they are lost; a retrain attempt times out, fails at the eighth on both ends, or
completes with the unaccepted payloads sent again; LINKSTAT clears the bits written as 1. The model's choices of log 40: the bit order of
the CRC, SEQ and payload of control flits, one message a flit, the idle flit that acknowledges, the next SEQ after a retrain, and the flit
that a NAK asks for. Forms: hostWrite, hostRead, hostCompletion, hostCompletionTimeout, colWriteArrival, flitData, flitIdle, flitNak,
flitRetrainRequest, retrainAttemptTimeout, linkstatClear, retrainComplete, hostPortWriteSent. -/
def Obligations.HostAndLinkEvents : Prop :=
  ∀ (s : State),
    -- hostWrite, hostRead
    (∀ (d pa : Nat) (x : List (BitVec 8)), d < ndie s.part → (getDie s 0).recovery = false → pa + x.length ≤ hbmSize s.part → x ≠ [] →
      (∀ k ∈ s.reqs.map (fun p => p.1), k < s.nextId) →
      ∃ t, exec (.hostWrite d pa x) s = .next t ∧ Claim.HomeKept s t ∧ Claim.Queued s t d .write ∧
        ∀ i, i < x.length → ∃ r ∈ Claim.joined s t d, (pa + i, x.getD i 0) ∈ reqBytes (getR t r)) ∧
    (∀ (d pa n : Nat), d < ndie s.part → (getDie s 0).recovery = false → pa + n ≤ hbmSize s.part → 0 < n → n < 1000 →
      (∀ k ∈ s.reqs.map (fun p => p.1), k < s.nextId) →
      ∃ t, exec (.hostRead d pa n) s = .next t ∧ Claim.HomeKept s t ∧ Claim.Queued s t d .read ∧
        ∀ i, i < n → ∃ r ∈ Claim.joined s t d, ∃ p ∈ (getR t r).pieces, p.place ≤ pa + i ∧ pa + i < p.place + p.size) ∧
    -- hostCompletion, hostCompletionTimeout, hostPortWriteSent
    (∀ (rq : Nat), Claim.AwaitsHost s rq → ∀ p ∈ (Claim.ofGroup (getR s rq)).toList, (getG s p.1).uid = p.1 →
      let q := getR s rq
      let port := (getDie s (dieOf q.core)).hostq
      (port = [] ∨ port.head? = some rq →
        (∃ t, exec (.hostCompletion rq false) s = .next t ∧ ffind t.reqs rq = none ∧ t.host = s.host ∧ Claim.Answered s t p.1 p.2 (reqResults s q)) ∧
        ((∀ k ∈ q.merged, rq ∉ (getR s k).merged) →
          ∃ t, exec (.hostCompletion rq true) s = .next t ∧ ffind t.reqs rq = none ∧ (q.merged = [] → (getG t p.1).poisoned = true))) ∧
      (port ≠ [] → rq ∉ port → ∃ t, exec (.hostCompletion rq false) s = .next t ∧ (getDie t (dieOf q.core)).hostq = port ++ [rq] ∧
        (getR t rq).id = rq ∧ t.groups = s.groups) ∧
      (rq ∉ port → (∀ k ∈ q.merged, rq ∉ (getR s k).merged) → q.tick + 2 ^ 22 ≤ s.gtick.toNat → ∃ t, exec (.hostCompletionTimeout rq) s = .next t ∧ ffind t.reqs rq = none ∧ t.host = s.host ∧
        (q.merged = [] → (getG t p.1).poisoned = true))) ∧
    (∀ (rq : Nat), let q := getR s rq
      q.id = rq → rq ≠ 0 → q.mode = 2 → isGroupReq q = true → q.kind = .write → (∀ p ∈ q.pieces, p.size ≤ 8) →
      ∃ t, exec (.hostPortWriteSent rq) s = .next t ∧ ffind t.reqs rq = none ∧ Claim.HomeKept s t ∧
        ∀ x ∈ reqBytes q, Claim.Lone q x → x.1 < 2 ^ 52 → fget 0 t.host x.1 = x.2) ∧
    -- an atomic of the host: sent, then completed with the old value, or refused by the completer
    (∀ (rq u op : Nat) (a : AOp) (f : Bool), let q := getR s rq
      q.id = rq → rq ≠ 0 → q.mode = 2 → q.agent = .group u op → (getG s u).uid = u → q.kind = .atomic a f →
      (q.done = false → ∃ t, exec (.hostPortWriteSent rq) s = .next t ∧ getR t rq = { q with done := true } ∧ t.host = s.host ∧
        Event.hostCompletion rq false ∈ t.agenda) ∧
      ((getDie s (dieOf q.core)).hostq = [] → ∀ p, q.pieces = [p] → p.size ≤ 8 →
        let old := BitVec.ofNat 64 (readLe s.host p.place p.size)
        (∃ t, exec (.hostCompletion rq false) s = .next t ∧ ffind t.reqs rq = none ∧ Claim.HomeKept s t ∧
          Claim.Answered s t u op (if f then [(p.thread, old)] else []) ∧
          (∀ k, k < p.size → fget 0 t.host (p.place + k) = BitVec.ofNat 8 ((aopNew a old p.val p.exp).toNat / 256 ^ k)) ∧
          ∀ b, b < p.place ∨ p.place + p.size ≤ b → fget 0 t.host b = fget 0 s.host b) ∧
        ∃ t, exec (.hostCompletion rq true) s = .next t ∧ ffind t.reqs rq = none ∧ t.host = s.host ∧
          Claim.OnSome (opOf (getG s u) op) fun o => 2 ≤ o.left → Claim.OnSome (opOf (getG t u) op) fun x =>
            x.got = o.got ++ (if f then [(p.thread, 0)] else []) ∧ x.left = o.left - 1 ∧ x.refused = o.refused ||| BitVec.ofNat 32 (2 ^ p.thread))) ∧
    -- colWriteArrival
    (∀ (l peer pa : Nat) (flag : Bool) (x : List (BitVec 8)), l < 2 * ndie s.part → (getDie s 0).recovery = false → (x ≠ [] ∨ flag = true) →
      let w := fget (0, 0) s.windows peer
      let n := if flag = true then 4 else x.length
      (∀ k ∈ s.reqs.map (fun p => p.1), k < s.nextId) →
      ∃ t, exec (.colWriteArrival l peer pa flag x) s = .next t ∧ Claim.HomeKept s t ∧
        (¬(pa + n ≤ w.2 ∧ w.1 + pa + n ≤ hbmSize s.part) → t = s) ∧
        (pa + n ≤ w.2 → w.1 + pa + n ≤ hbmSize s.part → ∀ i, i < n → ∃ r ∈ t.reqs, s.nextId ≤ r.1 ∧ r.2.agent = .col l ∧
          (if flag = true then (r.2.kind = .atomic (.add 4) false) ∧ r.2.pieces.map (fun p => (p.place, p.size, p.val)) = [(w.1 + pa, 4, 1)]
            else r.2.kind = .write ∧ (w.1 + pa + i, x.getD i 0) ∈ reqBytes r.2))) ∧
    -- flits as they are composed, and messages handed to a link end
    (∀ (q a : BitVec 12) (k : Nat) (m : BitVec 1920), k < 16 → Claim.IsFlit (composeFlit q a k m) q a (BitVec.ofNat 4 k) m) ∧
    (∀ (l : Nat) (m : BitVec 1920), linkExists s l = true → (getLink s l).st ≠ 2 →
      Claim.OnLink s (takeMessage s l m) l (Claim.flowing ((getLink s l).outbox ++ [m]) (getLink s l))) ∧
    -- flitData, flitIdle, flitNak, flitRetrainRequest
    (∀ (l : Nat) (f : BitVec 2048) (bad : List Nat), Claim.Up s l →
      let x := getLink s l
      let k := (f.extractLsb' 24 4).toNat
      let a := f.extractLsb' 12 12
      let nak := Claim.telling { x with nakSent := true } 2
      (if flitOk f = false then
        (∃ t, exec (.flitData l f) s = .next t ∧ Claim.OnLink s t l nak) ∧
        (∃ t, exec (.flitIdle l f) s = .next t ∧ Claim.OnLink s t l nak) ∧
        (∃ t, exec (.flitNak l f bad) s = .next t ∧ Claim.OnLink s t l nak) ∧
        (∃ t, exec (.flitRetrainRequest l f) s = .next t ∧ Claim.OnLink s t l nak)
      else
        (k = 0 → ∃ t, exec (.flitData l f) s = .next t ∧ Claim.OnLink s t l (Claim.received x f)) ∧
        (4 ≤ k → ∃ t, exec (.flitData l f) s = .next t ∧ Claim.OnLink s t l x) ∧
        (k = 1 → ∃ t, exec (.flitIdle l f) s = .next t ∧ Claim.OnLink s t l (Claim.freed x a)) ∧
        (k = 2 → ∃ t, exec (.flitNak l f bad) s = .next t ∧ Claim.OnLink s t l (Claim.resent (Claim.freed x a) bad a s.gtick.toNat)) ∧
        (k = 3 → ∃ t, exec (.flitRetrainRequest l f) s = .next t ∧ Claim.OnLink s t l (Claim.retraining (Claim.freed x a) s.gtick.toNat)))) ∧
    -- retrainAttemptTimeout, retrainComplete, linkstatClear
    (∀ (l : Nat), linkExists s l = true → (getLink s l).st = 1 →
      let x := getLink s l
      (x.retrySince + 2 ^ 16 ≤ s.gtick.toNat →
        (x.attempts < 7 → ∃ t, exec (.retrainAttemptTimeout l) s = .next t ∧ Claim.OnLink s t l { x with attempts := x.attempts + 1, retrySince := s.gtick.toNat }) ∧
        (7 ≤ x.attempts → ∃ t, exec (.retrainAttemptTimeout l) s = .next t ∧ Claim.HomeKept s t ∧
          (∀ k, getLink t k = if k = l then { x with attempts := 8, st := 2, window := [] }
            else if otherEnd l = some k then { getLink s k with st := 2, window := [] } else getLink s k) ∧ (8 ≤ l → t.halted = true))) ∧
      (s.gtick.toNat ≤ x.retrySince + 2 ^ 16 → ∀ (a : BitVec 12),
        ((∃ k, otherEnd l = some k ∧ (getLink s k).lastAcc ≠ a) → ∃ t, exec (.retrainComplete l a) s = .next t ∧ t = s) ∧
        ((∀ k, otherEnd l = some k → (getLink s k).lastAcc = a) → ∃ t, exec (.retrainComplete l a) s = .next t ∧ t = { s with links := t.links } ∧
          ∀ k, getLink t k = if k = l then Claim.restarted x a else if otherEnd l = some k then Claim.restarted (getLink s k) x.lastAcc
            else getLink s k))) ∧
    (∀ (l : Nat) (w : BitVec 64), linkExists s l = true →
      let x := getLink s l
      ∃ t, exec (.linkstatClear l w) s = .next t ∧ Claim.OnLink s t l { x with
        replay := x.replay &&& ~~~(BitVec.ofNat 16 w.toNat), rebuild := x.rebuild &&& ~~~(BitVec.ofNat 16 (w.toNat / 2 ^ 16)),
        retrain := x.retrain &&& ~~~(BitVec.ofNat 12 (w.toNat / 2 ^ 32)) })

namespace Sys2Proof.Claim
open Machine

/-! Words, steps and reset. -/

/-- The codes that R230 gives the decoder: a halfword with bit 0 clear, or a word with bit 0 set. -/
def Formed (c : Code) : Prop := if c.wide then c.word.toNat % 2 = 1 else c.word.toNat % 2 = 0 ∧ c.word.toNat < 2 ^ 16

/-- The issuing fragment of a candidate, at its selection: R46 has made the translation by which it fetches anew where that was old. -/
def selected (s : State) (c : Cand) : State :=
  freshFetch (modCurF { s with cur := { uid := c.uid, entry := c.entry, tick := s.gtick.toNat } } fun f => { f with why := 0 })

/-- The fragment at its PC: the bytes there decode to an instruction, and no deferred cause is pending for its group. -/
def Fetches (s : State) (c : Cand) (i : Instr) : Prop :=
  let s0 := selected s c
  (curG s0).deferred = [] ∧ ∃ w, fetchCode s0 = .ok w ∧ decode w = .ok i

end Sys2Proof.Claim

open Sys2Proof Sys2Proof.Machine

/-- Tier 3 (encoding): every instruction with a word decodes from it to itself, and every code that decodes is the one that the encoder
writes for what it decodes to: no bit of an encoding is dropped. -/
def Obligations.DecodeAndEncodeAgree : Prop :=
  (∀ (i : Instr) (c : Code), i.WellFormed → encode i = some c → decode c = .ok i ∧ Claim.Formed c) ∧
  (∀ (c : Code) (i : Instr), Claim.Formed c → decode c = .ok i → encode i = some c)

/-- Words that the specification writes out, and the instructions that it gives for them. -/
def Obligations.SpecifiedWordsDecode : Prop :=
  decode { wide := true, word := 0x000000CF } = .ok .vjoin ∧
  decode { wide := true, word := 0x0000014F } = .ok .exit ∧
  decode { wide := true, word := 0x403F034F } = .ok (.retX 0 63) ∧
  decode { wide := true, word := 0xA1C32B93 } = .ok (.vfmaF32 2 1 0 7 3 10 3) ∧
  decode { wide := true, word := 0x30C4215F } = .ok (.vstRel 0 1 4 3 4 8 0 2) ∧
  decode { wide := true, word := 0x040200C9 } = .ok (.vbra 0x20 0x80 1) ∧
  decode { wide := true, word := 0x1FE8C2A3 } = .ok (.vaddImm 0 0 0x3FD 6 5) ∧
  decode { wide := true, word := 0x0185481F } = .ok (.vcmpI32 0 0 0 6 5 2 2) ∧
  decode { wide := true, word := 0x41031D0D } = .ok (.vsel 1 0 0 4 3 7 2) ∧
  decode { wide := true, word := 0x000225B1 } = .ok (.mpopc 2 9) ∧
  decode { wide := true, word := 0x05033129 } = .ok (.xshf 0 0 20 3 12) ∧
  decode { wide := true, word := 0x06021855 } = .ok (.cmk 0 24 2 6) ∧
  decode { wide := true, word := 0x0501106F } = .ok (.smap 20 1 4) ∧
  decode { wide := true, word := 0x24194C79 } = .ok (.satom 0 1 0 4 1 18 19 0) ∧
  decode { wide := true, word := 0x11C0147B } = .ok (.lckAcq 1 7 0 5) ∧
  decode { wide := true, word := 0x0C88007F } = .ok (.cpy 0 3 2 8 0) ∧
  decode { wide := true, word := 0x11214837 } = .ok (.mma 1 9 5 2) ∧
  decode { wide := true, word := 0x4001252F } = .ok (.vminidx 1 0 0 9 10) ∧
  decode { wide := true, word := 0x00064443 } = .ok (.sget 6 17)

/-- A step is a tick, then the fragment that is selected runs the instruction that its bytes decode to, by `exec`, in the state of the
selection; what follows every issue (R386, R389) and every step is added around it. -/
def Obligations.StepRunsDecoded : Prop :=
  ∀ (s : State) (core lane : Nat) (rest : List Choice) (c : Cand) (more : List Cand) (i : Instr),
    let s1 := { tick s with schedule := rest }
    gated s = false → (tick s).schedule = .lane core lane :: rest → laneCands s1 core lane = c :: more → Claim.Fetches s1 c i →
    runCand s1 c = exec i (Claim.selected s1 c) ∧
    ∀ t, exec i (Claim.selected s1 c) = .next t → (getF (getG t c.uid) c.entry).why = 0 →
      step s = .next (endTick (settle (if (getF (getG t c.uid) c.entry).walking = none then afterIssue s1 t c else noIssue t)))

/-- What package reset leaves where the specification says it: no context and no group, GTICK 0, LSPART 0x0008_4018, LSTALE 0, the
dispatcher's pointer at NCORE - 1, null capabilities, and DLGMASK with the bits of the causes whose default is the user handler. -/
def Obligations.ResetState : Prop :=
  let s := State.reset
  s.groups = [] ∧ s.tasks = [] ∧ s.records = [] ∧ s.gtick = 0 ∧ s.pointer = ncore s.part - 1 ∧
  (∀ k, (getC s k).stashG = 0x18 ∧ (getC s k).regG = 0x40 ∧ (getC s k).cacheG = 0x08 ∧ (getC s k).lstale = 0) ∧
  (∀ u, (∀ r, cReg (getG s u) r = Cap.null) ∧ ∀ r, sReg (getG s u) r = 0) ∧
  (∀ k, (getT s k).fflags = 0 ∧ (getT s k).tvec = 0) ∧
  (∀ x, (getX s x).dlgmask.getLsbD 0x02 = true ∧ (getX s x).dlgmask.getLsbD 0x0A = false ∧ (getX s x).dlgmask.getLsbD 0x7A = false ∧
    (getX s x).dlgmask.getLsbD 0x75 = true)

/-- The byte stores are in canonical form right after reset. -/
def Obligations.ResetBytesCanonical : Prop := Safety.BytesCanonical State.reset

/-- Tier 3 (invariant): every step, from every state, keeps the byte stores in canonical form: addresses strictly rising, and no entry equal
to what an unlisted address reads as. -/
def Obligations.StepKeepsBytesCanonical : Prop :=
  ∀ (s t : State), Safety.BytesCanonical s → step s = .next t → Safety.BytesCanonical t

namespace Sys2Proof.Claim
open Machine

/-! Locks, monitors, generations, barriers and exchanges at their homes (R45, R48, R142 to R158, R292, R293, R424). -/

/-- The home has answered a group's request with a code: the request is over, and its operation has the code. -/
def Replied (s t : State) (rq code : Nat) : Prop :=
  ffind t.reqs rq = none ∧ HomeKept s t ∧ ∀ p ∈ (ofGroup (getR s rq)).toList, Answered s t p.1 p.2 [(0, BitVec.ofNat 64 code)]

/-- A group's request at a home that carries its frame's generation. -/
def Current (s : State) (rq : Nat) : Prop :=
  let q := getR s rq
  q.id = rq ∧ rq ≠ 0 ∧ isGroupReq q = true ∧ q.gen = fget 0 s.homes.gens (q.line * 128 / 65536) ∧
    ∀ p ∈ (ofGroup q).toList, (getG s p.1).uid = p.1

/-- R142, R153: the lines that a slice has pinned, and the waiters in its queues. -/
def pinned (s : State) (k : Nat) : Nat := (s.homes.dir.filter fun p => p.2.pin && homeSlice p.1 == k).length
def waiters (s : State) (k : Nat) : Nat := ((s.homes.locks.filter fun p => homeSlice p.1 == k).map fun p => p.2.queue.length).sum

/-- R142, R154: when a timeout that starts now runs out; all ones never does. -/
def runsOut (s : State) (t : BitVec 32) : Option Nat := if t = 0xFFFFFFFF then none else some (s.gtick.toNat + t.toNat)

/-- A context of which no run is replayed and no group is being taken off its core. -/
def AtRest (s : State) (q : Req) : Prop :=
  (getX s q.ctx).replay = none ∧ waitsOff s (getG s (reqUid q)) = false

/-- The requests that wait for the locks of a frame. -/
def frameWaiters (s : State) (frame : Nat) : List Waiter := (s.homes.locks.filter fun p => p.1 / 512 == frame).flatMap fun p => p.2.queue

/-- R152: no request waits for a lock of the frame, and the operations of those that did have status 5, CANCELLED. -/
def Drained (s t : State) (frame : Nat) : Prop :=
  fget false t.homes.draining frame = true ∧ (∀ l, l / 512 = frame → (lockAt t l).queue = []) ∧
    (∀ l, l / 512 ≠ frame → lockAt t l = lockAt s l) ∧
    ∀ w ∈ frameWaiters s frame, (getR s w.rq).id = w.rq → isGroupReq (getR s w.rq) = true → ffind t.reqs w.rq = none ∧
      (((frameWaiters s frame).map fun x => (getR s x.rq).agent).Nodup → ∀ p ∈ (ofGroup (getR s w.rq)).toList, (getG s p.1).uid = p.1 →
        Answered s t p.1 p.2 [(0, 5)])

/-- R158: an arrival at a barrier word of a core that the stash atomic unit has gathered: its group and operation, the lane from which it issued, and
whether it drops. -/
structure Arrives where
  u    : Nat
  op   : Nat
  lane : Nat
  drop : Bool

def arrivals (s : State) (c a : Nat) : List Arrives :=
  ((getC s c).arrivals.filter fun x => x.1 == a).filterMap fun x => (opOf (getG s x.2.1) x.2.2).map fun o =>
    { u := x.2.1, op := x.2.2, lane := o.lane, drop := match o.kind with | .barrier d _ => d | _ => false }

/-- R158: the rank of an arrival: how many of the others have a lower lane. -/
def rankOf (l : List Arrives) (x : Arrives) : Nat := (l.filter fun y => decide (y.lane < x.lane)).length

/-- R158: the combined update of a barrier word with the arrivals of one cycle: the first EXP - ARR by lane count in the current phase, the rest in
the next. -/
def updated (w : Nat) (l : List Arrives) : Nat :=
  let know := min l.length (bExp w - bArr w)
  let knext := l.length - know
  let dnow := (l.filter fun x => x.drop && decide (rankOf l x < know)).length
  let dnext := (l.filter fun x => x.drop && decide (know ≤ rankOf l x)).length
  if bArr w + know = bExp w then bWord knext (bExp w - (bDrop w + dnow)) dnext (1 - bPh w)
  else bWord (bArr w + know) (bExp w) (bDrop w + dnow) (bPh w)

/-- R158, R424: an arrival has counted: its operation is over, and its destination holds the phase in which it counted. -/
def CountedIn (s t : State) (x : Arrives) (ph : Nat) : Prop :=
  OnSome (opOf (getG s x.u) x.op) fun o => (∀ y ∈ (getG t x.u).ops, y.id ≠ x.op) ∧
    ∀ r : BitVec 6, r ≠ 0 → o.dst = .scalar r → sReg (getG t x.u) r = BitVec.ofNat 64 ph

/-- R292: what a match does for one side: in the threads that are active on both sides vd takes the other side's values, and the PC, in the lane and in
the record, passes the `xshf`. -/
def Exchanged (s t : State) (q other : Req) : Prop :=
  let u := reqUid q
  let k := reqOp q
  let x := xchg q
  let y := xchg other
  (∀ n, n < 32 → vAt (vReg (getG t u) x.2.2.1.toNat) n =
    if (x.2.2.2.2 &&& y.2.2.2.2).getLsbD n then y.2.2.2.1.getD n 0 else vAt (vReg (getG s u) x.2.2.1.toNat) n) ∧
  (∀ r, r < 64 → r ≠ x.2.2.1.toNat → vReg (getG t u) r = vReg (getG s u) r) ∧
  (getF (getG t u) k).pc = (getF (getG s u) k).pc + 4 ∧
  ∀ r ∈ s.records, r.uid = u → r.frag = k → ∃ z ∈ t.records, z = { r with pc := r.pc + 4 }

end Sys2Proof.Claim

open Sys2Proof Sys2Proof.Machine

/-- A lock request is granted, answered 2 to 5, or queued; a release passes the lock on or frees it; waiters expire and cycles are found;
LCK_HOLD is told once; lck.stat reads the lock; a broken mark clears; a frame drains, takes a generation and is raised; mwait is answered or
watches, and a watch expires; and a drained waiter has status 5; held arrivals count, and the word of a barrier takes the update of R158 for
the arrivals of one cycle; exchanges match, each side taking the other's values in the threads active on both and passing its xshf, wait,
and go stale. The status word and the timers of a halted context, the probe, and what a frame loses follow logs 33, 34 and 35. Forms:
generationRaise, generationRaiseComplete, generationSet, lockDrainRequest, brokenMarkClear, lockRequestArrival, lockReleaseArrival,
lockWaiterExpiry, lckHold, deadlockProbe, lockStatRequest, mwaitRequestArrival, monitorExpiry, barrierUpdate, barrierCarriedCompletion,
barrierHeldArrival, xshfRequestArrival, xshfStale. -/
def Obligations.LockAndMonitorEvents : Prop :=
  ∀ (s : State),
    -- lockRequestArrival
    (∀ (rq : Nat) (y : Bool) (t0 : BitVec 32), let q := getR s rq
      let l := lockAt s q.line
      let T : BitVec 32 := if y = true then 0 else t0
      Claim.Current s rq → q.kind = .lock t0 y → Claim.AtRest s q → (∀ w ∈ l.queue, w.rq ≠ rq) →
      (fget false s.homes.draining (q.line / 512) = true → ∃ t, exec (.lockRequestArrival rq) s = .next t ∧ Claim.Replied s t rq 5) ∧
      (fget false s.homes.draining (q.line / 512) = false →
        (l.holder = some (reqUid q) → ∃ t, exec (.lockRequestArrival rq) s = .next t ∧ Claim.Replied s t rq 3) ∧
        (l.holder = none → l.queue = [] → l.writes = [] → ((dirAt s q.line).pin = true ∨ Claim.pinned s (homeSlice q.line) < 2048) →
          inTheWay s q = false → dirAt s q.line ≠ DirEntry.empty →
          ∃ t, exec (.lockRequestArrival rq) s = .next t ∧ ffind t.reqs rq = none ∧ (dirAt t q.line).pin = true ∧
            (let m := lockAt t q.line
             m.holder = some (reqUid q) ∧ m.hcore = q.core ∧ m.since = s.gtick.toNat ∧ m.broken = false ∧ m.queue = []) ∧
            ∀ p ∈ (Claim.ofGroup q).toList, Claim.Answered s t p.1 p.2 [(0, if l.broken = true then 1 else 0)]) ∧
        (l.holder = none → l.queue = [] → (dirAt s q.line).pin = false → 2048 ≤ Claim.pinned s (homeSlice q.line) →
          ∃ t, exec (.lockRequestArrival rq) s = .next t ∧ Claim.Replied s t rq 4) ∧
        (l.holder ≠ some (reqUid q) → (l.holder.isSome = true ∨ l.queue ≠ []) →
          (T = 0 → ∃ t, exec (.lockRequestArrival rq) s = .next t ∧ Claim.Replied s t rq 2) ∧
          (T ≠ 0 → 8192 ≤ Claim.waiters s (homeSlice q.line) → ∃ t, exec (.lockRequestArrival rq) s = .next t ∧ Claim.Replied s t rq 4) ∧
          (T ≠ 0 → Claim.waiters s (homeSlice q.line) < 8192 →
            ∃ t, exec (.lockRequestArrival rq) s = .next t ∧ t = { s with homes := { s.homes with locks := t.homes.locks } } ∧
              ∀ k, lockAt t k = if k = q.line then { l with
                queue := l.queue ++ [{ uid := reqUid q, rq, expiry := Claim.runsOut s T, since := s.gtick.toNat }] } else lockAt s k)))) ∧
    -- lockReleaseArrival
    (∀ (rq : Nat), let q := getR s rq
      let l := lockAt s q.line
      Claim.Current s rq → q.kind = .unlock →
      (l.holder ≠ some (reqUid q) → ∃ t, exec (.lockReleaseArrival rq) s = .next t ∧ ffind t.reqs rq = none ∧ t.homes = s.homes) ∧
      (l.holder = some (reqUid q) → l.writes = [] →
        (l.queue = [] → ∃ t, exec (.lockReleaseArrival rq) s = .next t ∧ ffind t.reqs rq = none ∧ lockAt t q.line = Lock.free ∧
          (dirAt t q.line).pin = false) ∧
        (∀ w ∈ l.queue.head?.toList, (getX s (getR s w.rq).ctx).replay = none → (getR s w.rq).id = w.rq → w.rq ≠ rq → isGroupReq (getR s w.rq) = true →
          ∃ t, exec (.lockReleaseArrival rq) s = .next t ∧ ffind t.reqs rq = none ∧ ffind t.reqs w.rq = none ∧
            (lockAt t q.line).holder = some (reqUid (getR s w.rq)) ∧ (lockAt t q.line).queue = l.queue.tail ∧ (dirAt t q.line).pin = true))) ∧
    -- lockWaiterExpiry, deadlockProbe
    (∀ (line u : Nat), ∀ w ∈ (lockAt s line).queue.head?.toList, w.uid = u → (getR s w.rq).id = w.rq → isGroupReq (getR s w.rq) = true →
      (expiryDue s (lockAt s line) w = true →
        ∃ t, exec (.lockWaiterExpiry line u) s = .next t ∧ lockAt t line = { lockAt s line with queue := (lockAt s line).queue.tail } ∧
          Claim.Replied s t w.rq 2) ∧
      (w.since + s.dlkprobe ≤ s.gtick.toNat →
        (chase s u 64 (lockAt s line).holder.toList = true →
          ∃ t, exec (.deadlockProbe line u) s = .next t ∧ (lockAt t line).queue = (lockAt s line).queue.tail ∧ ffind t.reqs w.rq = none) ∧
        (chase s u 64 (lockAt s line).holder.toList = false →
          ∃ t, exec (.deadlockProbe line u) s = .next t ∧ t = { s with homes := { s.homes with locks := t.homes.locks } } ∧
            ((lockAt t line).queue.head?.map fun x => x.since) = some s.gtick.toNat))) ∧
    -- lckHold
    (∀ (line h : Nat), (lockAt s line).holder = some h → (lockAt s line).told = false → (getX s (getG s h).ctx).lholdlim ≠ 0 →
      (lockAt s line).since + (getX s (getG s h).ctx).lholdlim.toNat ≤ s.gtick.toNat → ctxHalted s (getG s h).ctx = false →
      ∃ t, exec (.lckHold line) s = .next t ∧ lockAt t line = { lockAt s line with told := true } ∧
        ((∃ d ∈ (getG t h).deferred.drop (getG s h).deferred.length, d.1.cause = .lckHold ∧ d.1.xf1 = BitVec.ofNat 64 (line * 128)) ∨
          ∃ r ∈ (getX t (getG s h).ctx).faults.drop (getX s (getG s h).ctx).faults.length, r.code = .lckHold ∧ r.addr = line * 128)) ∧
    -- lockStatRequest
    (∀ (rq : Nat), let q := getR s rq
      let l := lockAt s q.line
      Claim.Current s rq → q.kind = .stat →
      ∃ t, exec (.lockStatRequest rq) s = .next t ∧
        (l.holder = none → l.broken = false → Claim.Replied s t rq 0) ∧
        (l.holder.isSome = true → ∀ p ∈ (Claim.ofGroup q).toList, let v := lockSnapshot s q.line
          Claim.Answered s t p.1 p.2 [(0, BitVec.ofNat 64 v)] ∧
          v % 2 = 1 ∧ (v / 2 % 2 = 1 ↔ l.broken = true) ∧ v / 2 ^ 8 % 2 ^ 8 = min 255 l.queue.length ∧ v / 2 ^ 16 % 2 ^ 7 = l.hcore % 2 ^ 7 ∧
          v / 2 ^ 24 % 2 ^ 10 = l.hslot % 2 ^ 10)) ∧
    -- brokenMarkClear, lockDrainRequest, generationRaise, generationSet
    (∀ (line : Nat), (lockAt s line).broken = true → (lockAt s line).holder = none →
      ∃ t, exec (.brokenMarkClear line) s = .next t ∧ lockAt t line = Lock.free ∧ (dirAt t line).pin = false ∧ Claim.HomeKept s t) ∧
    (∀ (frame : Nat), 2 ^ 16 * frame < hbmSize s.part →
      (∃ t, exec (.lockDrainRequest frame) s = .next t ∧ Claim.Drained s t frame) ∧
      (fget false s.homes.raising frame = false →
        ∃ t, exec (.generationRaise frame) s = .next t ∧ Claim.Drained s t frame ∧ fget false t.homes.raising frame = true) ∧
      ∀ (g : BitVec 8), ∃ t, exec (.generationSet frame g) s = .next t ∧
        t = { s with homes := { s.homes with gens := t.homes.gens, fmode := t.homes.fmode } } ∧
        ∀ k, fget 0 t.homes.gens k = if k = frame then g else fget 0 s.homes.gens k) ∧
    -- generationRaiseComplete
    (∀ (frame : Nat), fget false s.homes.raising frame = true → (∀ p ∈ s.homes.locks, p.1 / 512 = frame → p.2.holder = none) →
      (∀ p ∈ s.reqs, ¬(p.2.busy = true ∧ p.2.line / 512 = frame ∧ p.2.mode ≠ 2)) →
      ∃ t, exec (.generationRaiseComplete frame) s = .next t ∧
        (∀ k, fget 0 t.homes.gens k = if k = frame then fget 0 s.homes.gens k + 1 else fget 0 s.homes.gens k) ∧
        fget false t.homes.raising frame = false ∧ fget false t.homes.draining frame = false ∧
        (∀ p ∈ t.homes.leases, p.1 % 2 ^ 45 / 512 ≠ frame) ∧ ∀ p ∈ t.homes.dir, p.1 / 512 = frame → p.2.owners = [] ∧ p.2.pin = false) ∧
    -- mwaitRequestArrival, monitorExpiry
    (∀ (rq : Nat) (e : Word) (T : BitVec 32), let q := getR s rq
      Claim.Current s rq → q.kind = .monitor e T → (∀ m ∈ s.homes.mons, m.rq ≠ rq) → ∀ p ∈ q.pieces.head?.toList,
        readErr s q.line (pieceMask p) = false →
        let full := decide (512 ≤ (s.homes.mons.filter fun m => homeSlice (m.word / 32) == homeSlice q.line).length)
        (visWord s (p.place / 4) ≠ e → ∃ t, exec (.mwaitRequestArrival rq) s = .next t ∧ Claim.Replied s t rq 1) ∧
        (visWord s (p.place / 4) = e → (T = 0 → ∃ t, exec (.mwaitRequestArrival rq) s = .next t ∧ Claim.Replied s t rq 2) ∧
          (T ≠ 0 → full = true → ∃ t, exec (.mwaitRequestArrival rq) s = .next t ∧ Claim.Replied s t rq 4) ∧
          (T ≠ 0 → full = false → ∃ t, exec (.mwaitRequestArrival rq) s = .next t ∧ t.reqs = s.reqs ∧ t.groups = s.groups ∧
            ∃ m ∈ t.homes.mons, t.homes.mons = s.homes.mons ++ [m] ∧ m.word = p.place / 4 ∧ m.gen = q.gen ∧ m.uid = reqUid q ∧ m.rq = rq ∧
              m.expiry = Claim.runsOut s T))) ∧
    (∀ m ∈ s.homes.mons.head?.toList, (∃ e ∈ m.expiry.toList, e ≤ s.gtick.toNat) → (getR s m.rq).id = m.rq → isGroupReq (getR s m.rq) = true →
      ∃ t, exec (.monitorExpiry m.id) s = .next t ∧ Claim.Replied s t m.rq 2 ∧ t.homes.mons = s.homes.mons.filter fun x => x.id != m.id) ∧
    -- barrierHeldArrival, barrierUpdate, barrierCarriedCompletion
    (∀ (u op : Nat), Claim.OnSome (opOf (getG s u) op) fun o => ∀ p ∈ o.pieces.head?.toList, sendEvent s (getG s u) o = some (.barrierHeldArrival u op) →
      ∃ t, exec (.barrierHeldArrival u op) s = .next t ∧ Claim.Released t u op ∧
        (p.place, u, op) ∈ (getC t (getG s u).core).arrivals ∧ Event.barrierUpdate (getG s u).core p.place ∈ t.agenda) ∧
    (∀ (c a : Nat), (∃ x ∈ (getC s c).arrivals, x.1 = a ∧ (opOf (getG s x.2.1) x.2.2).isSome = true) →
      let w := Claim.wordAt s c a
      let l := Claim.arrivals s c a
      let know := min l.length (Claim.bExp w - Claim.bArr w)
      ∃ t, exec (.barrierUpdate c a) s = .next t ∧ (∀ x ∈ (getC t c).arrivals, x.1 ≠ a) ∧
        (Claim.bArr w ≤ Claim.bExp w → Claim.bDrop w + l.length ≤ Claim.bExp w → l.length ≤ 1024 → l.Pairwise (fun x y => x.lane ≠ y.lane ∧ x.u ≠ y.u) →
          (∀ n, fget Watch.zero (getC s c).watches n = Watch.zero) →
          Claim.wordAt t c a = Claim.updated w l ∧
            ∀ x ∈ l, (getG s x.u).uid = x.u →
              Claim.CountedIn s t x (if Claim.rankOf l x < know then Claim.bPh w else 1 - Claim.bPh w))) ∧
    (∀ (c a : Nat), Claim.bExp (Claim.wordAt s c a) ≠ 0 → Claim.bArr (Claim.wordAt s c a) = Claim.bExp (Claim.wordAt s c a) →
      (∀ x ∈ (getC s c).arrivals, x.1 ≠ a) →
      ∃ t, exec (.barrierCarriedCompletion c a) s = .next t ∧ Claim.wordAt t c a =
        (let w := Claim.wordAt s c a
         Claim.bWord 0 (Claim.bExp w - Claim.bDrop w) 0 (1 - Claim.bPh w))) ∧
    -- xshfRequestArrival, xshfStale
    (∀ (rq : Nat), let q := getR s rq
      let core := min q.core (xchg q).2.1
      let c := getC s core
      (match q.kind with | .exchange _ _ _ _ _ => true | _ => false) = true → q.id = rq → rq ≠ 0 → (∀ e ∈ c.xtable, e.rq ≠ rq) →
      (∀ e ∈ c.xtable.head?.toList, exchanges (getR s e.rq) q = true → (getR s e.rq).id = e.rq →
        ∃ t, exec (.xshfRequestArrival rq) s = .next t ∧ ffind t.reqs rq = none ∧ ffind t.reqs e.rq = none ∧ Claim.HomeKept s t ∧
          (reqUid q ≠ reqUid (getR s e.rq) → isGroupReq q = true → isGroupReq (getR s e.rq) = true →
            (getG s (reqUid q)).uid = reqUid q → (getG s (reqUid (getR s e.rq))).uid = reqUid (getR s e.rq) →
            Claim.Exchanged s t q (getR s e.rq) ∧ Claim.Exchanged s t (getR s e.rq) q)) ∧
      ((∀ e ∈ c.xtable, exchanges (getR s e.rq) q = false) → c.xheld = [] →
        ∃ t, exec (.xshfRequestArrival rq) s = .next t ∧ t.groups = s.groups ∧ t.reqs = s.reqs ∧
          (if c.xtable.length < 64 then (getC t core).xtable = c.xtable ++ [{ rq, since := s.gtick.toNat, stale := false }] ∧ (getC t core).xheld = []
          else (getC t core).xtable = c.xtable ∧ (getC t core).xheld = [rq]))) ∧
    (∀ (c u : Nat), ∀ e ∈ (getC s c).xtable.head?.toList, reqUid (getR s e.rq) = u → e.stale = false → e.since + 2 ^ 24 ≤ s.gtick.toNat →
      ∃ t, exec (.xshfStale c u) s = .next t ∧ (∀ x ∈ (getC t c).xtable, x.rq = e.rq → x.stale = true) ∧
        ((∃ d ∈ (getG t u).deferred.drop (getG s u).deferred.length, d.1.cause = .xshfStale) ∨
          ∃ r ∈ (getX t (getG s u).ctx).faults.drop (getX s (getG s u).ctx).faults.length, r.code = .xshfStale))

namespace Sys2Proof.Claim
open Machine

/-! Translation, queues, tasks and the relaunch engine (R36 to R46, R58, R92, R197 to R206, R267, R269). -/

/-- R43: whether the 64 KiB pages from `page` on hold a byte of the addresses from `lo` to `hi`. -/
def holdsByte (page n lo hi : Nat) : Bool := decide (65536 * page < hi ∧ lo < 65536 * (page + n))

/-- R37: how many 64 KiB pages a leaf translates, and the first of those that translate an address. -/
def leafSpan (l : Leaf) : Nat := if l.sz then 512 else 1
def firstPage (l : Leaf) (va : Nat) : Nat := va / 65536 / leafSpan l * leafSpan l

/-- What a walk answers: the leaf of its page, or its fault. -/
def walkAnswer (s : State) (w : Walk) : Walked :=
  match walkTables s w.ctx w.va with
  | .ok l => .leaf (w.va / 65536) l
  | .error c => .fail (w.va / 65536) c

/-- R37: a walk that found its leaf has left it in the walking core's TLB. -/
def InTlb (t : State) (w : Walk) (l : Leaf) : Prop :=
  ∃ e ∈ (getC t w.core).tlb, e.ctx = w.ctx ∧ e.leaf = l ∧ e.vbase = firstPage l w.va

/-- The fragment, and the translation register, for which a walk was made. -/
def forFrag (w : Walk) : Option (Nat × Nat) := match w.why with | .frag u k => some (u, k) | _ => none
def forReg (w : Walk) : Option (Nat × Nat × BitVec 4) := match w.why with | .xwreg u n c => some (u, n, c) | _ => none

/-- The leaf of a walk that has been answered with one. -/
def leafFound (w : Walk) : Option Leaf := match w.done with | some (.leaf _ l) => some l | _ => none

/-- The page of the leaf that a walk has been answered with: its first 64 KiB page, and how many it has. -/
def spanFound (w : Walk) : Option (Nat × Nat) :=
  match w.done with | some (.leaf p l) => some (p / leafSpan l * leafSpan l, leafSpan l) | _ => none

/-- R199: the wait counter of a descriptor has reached its value. -/
def waitMet (s : State) (ctx : BitVec 12) (d : Desc) : Bool :=
  d.waita == 0 || (readVirtNat s ctx d.waita.toNat 4).toOption.any fun x => decide (d.waitv.toNat ≤ x)

/-- What holds of the descriptor and the header at a queue's head, where they are well-formed. -/
def OnHead (x : Head) (P : Desc → Header → Prop) : Prop := match x with | .ok d h => P d h | .refused => True

/-- The state in which the dispatcher serves a queue: its dispatch is in progress, under a number. -/
def serving (s : State) (n : Nat) (q : Queue) (d : Desc) (h : Header) : Nat × State :=
  match q.current with
  | some id => (id, { s with served := n })
  | none => (s.nextId, { s with
      served := n, nextId := s.nextId + 1,
      disps := fput s.disps s.nextId { queue := n, ctx := q.ctx, desc := d, hdr := h, next := 0, live := 0, placed := false, done := false } })

/-- R267: the slot whose descriptor and header are being read for a successor. -/
def slotAt (x : Succ) : Option (BitVec 56) := match x with | .reading a => some a | _ => none

/-- R267: the descriptor in the slot and the header at its HDR, where neither read faults or meets an uncorrectable error. -/
def slotRead (s : State) (ctx : BitVec 12) (a : Nat) : Option (Nat × Nat) :=
  ((readVirt s ctx .load a 64).toOption).bind fun b =>
    let hdr := leNat b % 2 ^ 56
    ((readVirt s ctx .load hdr 64).toOption).bind fun hb =>
      if virtErr s ctx a 64 || virtErr s ctx hdr 64 then none else some (leNat b, leNat hb)

/-- R204: the timer of O < RBTHRESH, or of O ≥ RBHIGH, has run for RBTIME on a task whose role changes may start. -/
def ranOut (s : State) (k : Nat) (since : Option Nat) : Bool :=
  let x := getT s k
  x.hdr.pipe && x.pendRole.isNone && !ctxHalted s x.ctx && (x.rbSince == 0 || decide (x.rbSince + 4096 ≤ cycleOf s x.core)) &&
    since.any fun b => decide (b + s.rbtime ≤ cycleOf s x.core)

/-- R204: the full slots of the rings from the copy role to the matrix role, and the groups of a role. -/
def fullCount (x : Task) : Nat := ((x.rings.filter fun p => p.2.prod == 1 && p.2.cons == 2).map fun p => p.2.slots.count .f).sum
def ofRole (s : State) (k : Nat) (r : BitVec 2) : Nat := (s.groups.filter fun p => p.2.task == k && p.2.role == r && !p.2.ended).length

/-- R206: a group of a context that has not deposited, on its lane or inside a save routine, on a core that a request of it names, and
whose save budget has run out. -/
def isLate (s : State) (ctx : BitVec 12) (core : Nat) (p : Preempt) (g : Group) : Bool :=
  g.uid != 0 && !g.ended && g.ctx == ctx && g.core == core && (g.slot.isSome || g.saving.isSome) && p.core == core &&
    (p.only.all fun l => l.contains g.task) &&
    decide (p.t0 + (taskOf s g).hdr.sfpb ≤ s.gtick.toNat)

end Sys2Proof.Claim

open Sys2Proof Sys2Proof.Machine

/-- A shootdown removes exactly the TLB entries of its range; a walk answers its fragment or register and enters the TLB; a translation
register loads and its lease ends; ECLK raises every PTS; a queue is registered and its wait counter read; the dispatcher refuses a
malformed head, places a task or starts a partition change; a dispatch completes with one increment; launch copies its descriptor or answers
a code. The address of a control block, a head that does not translate, and the core whose partition changes follow logs 25, 29 and 36.
Forms: tlbShootdown, queueRegister, eclkAdvance, xwLoad, xwLeaseExpiry, pageWalkComplete, dispatcherServe, waitCounterPoll,
dispatchComplete, launchAction. -/
def Obligations.TranslationAndQueueEvents : Prop :=
  ∀ (s : State),
    -- tlbShootdown
    (∀ (x : BitVec 12) (lo hi : Nat), lo < hi →
      ∃ t, exec (.tlbShootdown x lo hi) s = .next t ∧ t.homes = s.homes ∧ t.records = s.records ∧ t.reqs = s.reqs ∧
        (∀ c, (getC t c).tlb = (getC s c).tlb.filter fun e => !(e.ctx == x && Claim.holdsByte e.vbase (Claim.leafSpan e.leaf) lo hi)) ∧
        (∀ u, Claim.RegsKept (getG s u) (getG t u) ∧ (getG t u).xw = (getG s u).xw) ∧
        ∀ w ∈ t.walks, w.2.ctx = x → (Claim.forReg w.2).isSome = true →
          Claim.OnSome (Claim.spanFound w.2) fun p => Claim.holdsByte p.1 p.2 lo hi = false) ∧
    -- pageWalkComplete
    (∀ (n : Nat), Claim.OnSome (ffind s.walks n) fun w => w.done = none →
      (Claim.OnSome (Claim.forFrag w) fun p =>
        ∃ t, exec (.pageWalkComplete n) s = .next t ∧ ffind t.walks n = none ∧ t.homes = s.homes ∧
          (Claim.OnSome (walkTables s w.ctx w.va).toOption fun l => Claim.InTlb t w l) ∧
          ∀ u k, getF (getG t u) k = if u = p.1 ∧ k = p.2 ∧ (getF (getG s u) k).walking = some n then
            { getF (getG s u) k with walking := none, walked := (getF (getG s u) k).walked ++ [Claim.walkAnswer s w] } else getF (getG s u) k) ∧
      (Claim.OnSome (Claim.forReg w) fun p =>
        ∃ t, exec (.pageWalkComplete n) s = .next t ∧ t.homes = s.homes ∧ t.groups = s.groups ∧
          ffind t.walks n = some { w with done := some (Claim.walkAnswer s w) } ∧ Event.xwLoad p.1 p.2.1 ∈ t.agenda ∧
          Claim.OnSome (walkTables s w.ctx w.va).toOption fun l => Claim.InTlb t w l)) ∧
    -- xwLoad, xwLeaseExpiry
    (∀ (u n : Nat), Claim.OnSome (s.walks.filter fun p => p.2.done.isSome && ((Claim.forReg p.2).any fun x => x.1 == u && x.2.1 == n)).head? fun p =>
      Claim.OnSome (Claim.forReg p.2) fun f => Claim.OnSome (Claim.leafFound p.2) fun l => Claim.OnSome (capDecode (cReg (getG s u) f.2.2)) fun b =>
        ((getG s u).slot.isSome = true → (cReg (getG s u) f.2.2).tag = true → b.1 ≤ p.2.va → p.2.va < b.2 →
          ∃ t, exec (.xwLoad u n) s = .next t ∧ ffind t.walks p.1 = none ∧ Claim.RegsKept (getG s u) (getG t u) ∧
            (∀ k, k ≠ n → fget XW.zero (getG t u).xw k = fget XW.zero (getG s u).xw k) ∧
            (let x := fget XW.zero (getG t u).xw n
             x.valid = true ∧ x.creg = f.2.2 ∧ x.sz = l.sz ∧ x.mode = l.mode ∧ x.mbf = l.mbf ∧ x.gen = l.gen ∧
             x.rights.getLsbD 0 = l.r ∧ x.rights.getLsbD 1 = l.w ∧ x.rights.getLsbD 2 = l.a ∧ x.rights.getLsbD 3 = l.l ∧
             x.vpage = BitVec.ofNat 40 (Claim.firstPage l p.2.va) ∧ x.pframe = BitVec.ofNat 36 (l.base / 65536) ∧
             x.limit = BitVec.ofNat 26 (min b.2 (65536 * (Claim.firstPage l p.2.va + Claim.leafSpan l)) - 65536 * Claim.firstPage l p.2.va) ∧
             x.expiry = BitVec.ofNat 32 (s.gtick.toNat + (getX s p.2.ctx).xlease.toNat))) ∧
        (((getG s u).slot = none ∨ (cReg (getG s u) f.2.2).tag = false) →
          ∃ t, exec (.xwLoad u n) s = .next t ∧ t = { s with walks := fdel s.walks p.1 })) ∧
    (∀ (u n : Nat), let x := fget XW.zero (getG s u).xw n
      x.valid = true → x.expiry = BitVec.truncate 32 s.gtick →
      ∃ t, exec (.xwLeaseExpiry u n) s = .next t ∧ t = { s with groups := t.groups } ∧
        (∀ k, fget XW.zero (getG t u).xw k = if k = n then { x with valid := false } else fget XW.zero (getG s u).xw k) ∧
        getG t u = { getG s u with xw := (getG t u).xw } ∧ ∀ v, v ≠ u → getG t v = getG s v) ∧
    -- eclkAdvance
    (s.gtick.toNat % 1024 = 0 →
      ∃ t, exec .eclkAdvance s = .next t ∧ t = { s with cores := t.cores } ∧
        ∀ c, getC t c = { getC s c with pts := if c < ncore s.part then lmax (getC s c).pts (eclk s) else (getC s c).pts }) ∧
    -- queueRegister
    (∀ (n : Nat) (x : BitVec 12) (l : List Nat) (cb : Nat), n < 64 → cb % 64 = 0 → cb + 64 ≤ hbmSize s.part →
      ∃ t, exec (.queueRegister n x l cb) s = .next t ∧ t = { s with queues := t.queues } ∧
        ∀ k, ffind t.queues k = if k = n then some { ctx := x, cores := l, cb, eligible := false, current := none, last := none } else ffind s.queues k) ∧
    -- waitCounterPoll
    (∀ (n : Nat), Claim.OnSome (ffind s.queues n) fun q => qServed s q = true → headFresh s q.ctx (qDesc s q (qHead s q)) = true →
      Claim.OnHead (readHead s q.ctx (qDesc s q (qHead s q))) fun d _ =>
        ∃ t, exec (.waitCounterPoll n) s = .next t ∧ t = { s with queues := t.queues } ∧
          ∀ k, ffind t.queues k = if k = n ∧ Claim.waitMet s q.ctx d = true then some { q with eligible := true } else ffind s.queues k) ∧
    -- dispatcherServe
    (frozen s = false → Claim.OnSome (pickQueues s).head? fun p =>
      let va := qDesc s p.2 (qHead s p.2)
      (readHead s p.2.ctx va = .refused →
        ∃ t, exec .dispatcherServe s = .next t ∧ t.served = p.1 ∧ qHead t p.2 = (qHead s p.2 + 1) % 2 ^ 32 ∧ t.tasks = s.tasks ∧
          ∃ r ∈ (getX t p.2.ctx).faults.drop (getX s p.2.ctx).faults.length, r.code = .launchForm ∧ r.defr = true ∧ r.gv = false ∧
            r.cseq = BitVec.ofNat 16 p.1 ∧ r.arg = BitVec.ofNat 32 (qHead s p.2) ∧ r.addr = va ∧ r.sub = 0) ∧
      Claim.OnHead (readHead s p.2.ctx va) fun d h =>
        let x := Claim.serving s p.1 p.2 d h
        (Claim.OnSome (placeTask x.2 x.1 p.2 (qPrio s p.2)) fun s2 =>
          ∃ t, exec .dispatcherServe s = .next t ∧ t.served = p.1 ∧ t.tasks = s2.tasks ∧ t.pointer ∈ p.2.cores ∧ t.pointer < ncore s.part ∧
            t.groups = s2.groups ∧ (∃ k ∈ t.tasks, (∀ j ∈ s.tasks, j.1 ≠ k.1) ∧ k.2.core = t.pointer ∧ ((ffind x.2.disps x.1).any fun e => e.ctx == k.2.ctx) = true ∧ k.2.disp = x.1) ∧
            qHead t p.2 = if (ffind s2.disps x.1).any (fun d => d.placed) then (qHead s2 p.2 + 1) % 2 ^ 32 else qHead s2 p.2) ∧
        (placeTask x.2 x.1 p.2 (qPrio s p.2) = none → Claim.OnSome (changeCore x.2 p.2 h) fun c =>
          ∃ t, exec .dispatcherServe s = .next t ∧ t.served = p.1 ∧ t.tasks = s.tasks ∧
            (getC t c).stashG = fld h.lsreq.toNat 0 7 ∧ (getC t c).regG = fld h.lsreq.toNat 8 7 ∧ (getC t c).cacheG = fld h.lsreq.toNat 16 7 ∧
            ∀ g, g < 96 → roleAt (getC t c) g = roleAt (getC s c) g)) ∧
    -- dispatchComplete
    (∀ (n : Nat), Claim.OnSome (ffind s.disps n) fun d => dispatchOver s n d = true → doneOpen s d = true → Claim.OnSome (ffind s.queues d.queue) fun q =>
      let a := queueWord s q 128 56
      ∃ t, exec (.dispatchComplete n) s = .next t ∧ ffind t.disps n = none ∧ (∀ g ∈ t.groups, g.2.disp ≠ n) ∧
        (a = 0 → t = { s with disps := t.disps, groups := t.groups }) ∧
        (a ≠ 0 → Claim.OnSome (xlateNow s d.ctx (.atomic false) a).toOption fun l =>
          let pa := leafPa l a
          if l.mode = 2 then readLe t.host pa 4 = (readLe s.host pa 4 + 1) % 2 ^ 32 else visLe t pa 4 = (visLe s pa 4 + 1) % 2 ^ 32)) ∧
    -- launchAction
    (∀ (rq n : Nat), let q := getR s rq
      Claim.Current s rq → q.kind = .launch n → launchOpen s q = true → ∀ p ∈ q.pieces.head?.toList,
        (ffind s.queues n = none → ∃ t, exec (.launchAction rq) s = .next t ∧ Claim.Replied s t rq (2 ^ 64 - 2)) ∧
        Claim.OnSome (ffind s.queues n) fun x =>
          let tail := qTail s x
          let full := decide ((tail + 2 ^ 32 - qHead s x) % 2 ^ 32 = 2 ^ queueWord s x 56 4)
          (full = true → ∃ t, exec (.launchAction rq) s = .next t ∧ Claim.Replied s t rq (2 ^ 64 - 1)) ∧
          (full = false → Claim.OnSome (launchCopy s (2, q.core) q.ctx p.shown (qDesc s x tail)).toOption fun s1 =>
            ∃ t, exec (.launchAction rq) s = .next t ∧ ffind t.reqs rq = none ∧ qTail t x = (tail + 1) % 2 ^ 32 ∧
              ∀ o ∈ (Claim.ofGroup q).toList, Claim.Answered s1 t o.1 o.2 [(0, BitVec.ofNat 64 tail)]) ∧
          (full = false → (launchCopy s (2, q.core) q.ctx p.shown (qDesc s x tail)).toOption = none →
            ∃ t, exec (.launchAction rq) s = .next t ∧ ffind t.reqs rq = none ∧ t.homes = s.homes ∧
              ∃ r ∈ (getX t q.ctx).faults.drop (getX s q.ctx).faults.length, r.code = .launchForm ∧ r.cseq = BitVec.ofNat 16 n ∧
                r.arg = BitVec.ofNat 32 tail))

/-- A drained granule takes its new role; a record that is relaunched runs its fragment at its PC in the slot chosen; CONT_STALL and
SFP_LATE are told once, SFP_LATE for a group on its lane or in its save routine; a role change becomes pending for the group that the rule
chooses; the reads of a successor fill the waiting scalars and hold the descriptor. Which position a group takes follows log 71. Forms:
granuleRoleMove, relaunchStep, contStall, rebalancePending, sfpLate, succReadComplete. -/
def Obligations.TaskEvents : Prop :=
  ∀ (s : State),
    -- granuleRoleMove
    (∀ (c g : Nat), nextMove s c = some g →
      ∃ t, exec (.granuleRoleMove c g) s = .next t ∧
        (∀ k, roleAt (getC t c) k = if k = g then targetRole (getC s c) g else roleAt (getC s c) k) ∧
        (getC t c).moved = (getC s c).moved + 1 ∧ ((getC t c).pend = true ↔ ∃ k ∈ (getC s c).roles, k.1 ≠ g) ∧
        ∀ u, Claim.OnlyClaims (getG s u) (getG t u)) ∧
    -- relaunchStep
    (∀ (c : Nat), Claim.OnSome (relaunchSlot s c) fun p =>
      (∀ x ∈ s.records, x.uid = p.1.uid → x.frag = p.1.frag → x = p.1) → (getX s (getG s p.1.uid).ctx).replay = none → p.1.frag < 8 →
      ofRequest s p.1 = false → (match p.1.cond with | .barrier _ _ _ => false | _ => true) = true →
      ∃ t, exec (.relaunchStep c) s = .next t ∧ (getG t p.1.uid).slot = some p.2 ∧ (getG t p.1.uid).adm = s.gtick.toNat ∧
        (getF (getG t p.1.uid) p.1.frag).st = 0 ∧ (getF (getG t p.1.uid) p.1.frag).pc = p.1.pc ∧ (∀ x ∈ t.records, x.id ≠ p.1.id) ∧
        (getG t p.1.uid).v = (getG s p.1.uid).v ∧ (getG t p.1.uid).m = (getG s p.1.uid).m ∧ (getG t p.1.uid).c = (getG s p.1.uid).c ∧
        (getG t p.1.uid).top = (getG s p.1.uid).top ∧ ∀ u, u ≠ p.1.uid → Claim.OnlyClaims (getG s u) (getG t u)) ∧
    -- contStall
    (∀ (c : Nat), Claim.OnSome (getC s c).blocked fun b => (getC s c).stalled = false → b.2 + 65536 ≤ cycleOf s c →
      ∃ t, exec (.contStall c) s = .next t ∧ Claim.OnCore s { t with ctxs := s.ctxs } c { getC s c with stalled := true } ∧
        ∃ r ∈ (getX t (getG s b.1).ctx).faults.drop (getX s (getG s b.1).ctx).faults.length, r.code = .contStall ∧ r.defr = true) ∧
    -- rebalancePending
    (∀ (k : Nat), let x := getT s k
      (Claim.ranOut s k x.loSince = true → Claim.fullCount x < s.rbthresh → 2 ≤ Claim.ofRole s k 2 → Claim.OnSome (chooseGroup s k 2) fun g =>
        ∃ t, exec (.rebalancePending k) s = .next t ∧ t = { s with tasks := t.tasks } ∧ getT t k = { x with pendRole := some (g, 1) } ∧
          ∀ j, j ≠ k → getT t j = getT s j) ∧
      (Claim.ranOut s k x.hiSince = true → ¬(Claim.ranOut s k x.loSince = true ∧ Claim.fullCount x < s.rbthresh ∧ 2 ≤ Claim.ofRole s k 2) →
        s.rbhigh ≤ Claim.fullCount x → 2 ≤ Claim.ofRole s k 1 → Claim.OnSome (chooseGroup s k 1) fun g =>
        ∃ t, exec (.rebalancePending k) s = .next t ∧ t = { s with tasks := t.tasks } ∧ getT t k = { x with pendRole := some (g, 2) } ∧
          ∀ j, j ≠ k → getT t j = getT s j)) ∧
    -- sfpLate
    (∀ (x : BitVec 12) (c : Nat), ∀ p ∈ (getX s x).preempts, ∀ g ∈ s.groups, g.1 = g.2.uid → Claim.isLate s x c p g.2 = true → g.2.late = false →
      ∃ t, exec (.sfpLate x c) s = .next t ∧
        (∀ u, getG t u = if (getG s u).uid ≠ 0 ∧ (getG s u).ctx = x ∧ (getG s u).core = c ∧ ((getG s u).slot.isSome || (getG s u).saving.isSome) = true
          then { getG s u with late := true } else getG s u) ∧
        ∃ r ∈ (getX t x).faults.drop (getX s x).faults.length, r.code = .sfpLate ∧ r.defr = true ∧ r.gv = true) ∧
    -- succReadComplete
    (∀ (k : Nat), let x := getT s k
      Claim.OnSome (Claim.slotAt x.succ) fun a => succFresh s x.ctx a.toNat = true →
        (taskAlive s k = true → Claim.OnSome (Claim.slotRead s x.ctx a.toNat) fun p =>
          ∃ t, exec (.succReadComplete k) s = .next t ∧ t.homes = s.homes ∧ (getT t k).succWait = [] ∧
            (∀ w ∈ x.succWait, sIsEmpty (getG t w.1) w.2.2 = false ∧ (getG t w.1).s = (getG s w.1).s) ∧
            (getT t k).succ = (match parseDesc p.1 (virtTag s x.ctx (a.toNat + 16)) (virtTag s x.ctx (a.toNat + 32)), parseHeader p.2 with
              | some d, some h => .read a true d h
              | _, _ => .read a false Desc.zero Header.zero)) ∧
        ((readVirt s x.ctx .load a.toNat 64).toOption = none →
          ∃ t, exec (.succReadComplete k) s = .next t ∧ t.homes = s.homes ∧ (getT t k).succ = .none ∧ (getT t k).succWait = [] ∧
            (taskAlive s k = false → getT t k = Task.none)))

namespace Sys2Proof.Claim
open Machine

/-! Pre-emption, the end of a context, firmware's resolutions, and the engines' events (R118 to R123, R150, R195, R206 to R209, R325,
R335, R341, R345 to R348, R360, R423). -/

/-- A group of a context on a core that has not ended. -/
def onCore (s : State) (x : BitVec 12) (c u : Nat) : Bool :=
  (getG s u).uid == u && u != 0 && (getG s u).ctx == x && (getG s u).core == c && !(getG s u).ended

/-- R206 step 4: what a core keeps on chip of a context's records. -/
def cachedOn (c : Nat) (r : Record) : Bool := r.place.cached && r.owner == c

/-- R209: a task, with those that share a team with it, may migrate: it has had its residence since its placement. -/
def rested (s : State) (k : Nat) : Bool :=
  decide ((getT s k).since + max s.minres 360000 ≤ s.gtick.toNat) && !(getT s k).off

/-- R206 step 5: a core of a list on which a request of a context is in progress. -/
def asked (s : State) (x : BitVec 12) (l : List Nat) (c : Nat) : Bool := l.contains c && (getX s x).preempts.any fun p => p.core == c

/-- R360: a record that is parked for firmware, of an instruction that its fragment stands at. -/
def Parked (s : State) (r : Record) : Prop :=
  parkedRecord s r.id = some r ∧ ofRequest s r = false ∧ (∀ q ∈ s.records, q.id = r.id → q = r) ∧ r.ready = false

/-- R360: the record is ready, at a PC, for a mask, and its fragment stands there; `again` says whether it executes the recorded instruction
again. -/
def Resolved (s t : State) (r : Record) (pc : BitVec 56) (mask : Word) (again : Bool) : Prop :=
  (∀ q ∈ t.records, q.id = r.id → q = { r with ready := true, evt := BitVec.ofNat 32 s.gtick.toNat, pc, mask, again }) ∧
    (∃ q ∈ t.records, q.id = r.id) ∧ (∀ q ∈ s.records, q.id ≠ r.id → q ∈ t.records) ∧
    ((getG s r.uid).uid = r.uid → (getF (getG t r.uid) r.frag).pc = pc)

/-- R150: nothing of a context is left: no task, record, dispatch, lock, queue entry or monitor, and its groups issue no more. -/
def Over (s t : State) (x : BitVec 12) : Prop :=
  (getX t x).live = false ∧ (getX t x).preempts = [] ∧ (∀ k ∈ t.tasks, k.2.ctx ≠ x) ∧ (∀ r ∈ t.records, r.ctx ≠ x) ∧
    (∀ d ∈ t.disps, d.2.ctx ≠ x) ∧ (∀ u, (getG s u).uid = u → u ≠ 0 → (getG s u).ctx = x → (getG t u).ended = true ∧ (getG t u).slot = none ∧
      (∀ l ∈ t.homes.locks, l.2.holder ≠ some u ∧ ∀ w ∈ l.2.queue, w.uid ≠ u) ∧ ∀ m ∈ t.homes.mons, m.uid ≠ u) ∧
    ∀ u, (getG s u).ctx ≠ x → (getG t u).ended = (getG s u).ended ∧ (getG t u).v = (getG s u).v ∧ (getG t u).c = (getG s u).c

/-- R325: the one command of a group and class has completed and is signalled: its counter is lower by 1. -/
def OnlyCmd (s : State) (id : Nat) (c : Cmd) : Prop :=
  ffind s.cmds id = some c ∧ (∀ p ∈ s.cmds, p.2.uid = c.uid → p.2.cls = c.cls → p.1 = id) ∧ (getG s c.uid).uid = c.uid
def Signalled (s t : State) (id : Nat) (c : Cmd) : Prop :=
  ffind t.cmds id = none ∧ ∀ u, ∀ k, k < 4 →
    fget 0 (getG t u).ec k = if u = c.uid ∧ k = c.cls.toNat then fget 0 (getG s u).ec k - 1 else fget 0 (getG s u).ec k

/-! What an engine command writes (R328 to R331, R337, R338), where its ranges lie in its core's stash (space 1), in host memory (3), or at a
peer (4, to which `cpy.rmt` writes). -/

/-- A byte of the stash of a core, of host memory, or of a peer. -/
def memAt (s : State) (core sp b : Nat) : Byte :=
  if sp = 1 then fget 0 (getC s core).stash b else if sp = 3 then fget 0 s.host b else fget 0 s.peers b

/-- A little-endian 32-bit word of a memory. -/
def word4 (m : Nat → Byte) (a : Nat) : Nat := ((List.range 4).map fun i => (m (a + i)).toNat * 256 ^ i).sum

/-- R222: rows, stored columns, column blocks and row blocks of a tensor, and the bits of an element. -/
def rowsT (t : Tid) : Nat := t.rowsm1 + 1
def storedT (t : Tid) : Nat := if t.sparse then 2 * ((t.km1 + 4) / 4) else t.km1 + 1
def colBlocks (t : Tid) : Nat := (storedT t + 63) / 64
def rowBlocks (t : Tid) : Nat := (t.rowsm1 + 64) / 64
def bitsT (t : Tid) : Nat := match t.fmt.toNat with | 2 | 3 => 16 | 4 => 32 | 5 => 64 | 7 => 1 | _ => 8

/-- R222: bit of a plane of an element, and the element's bits from the planes that are read. -/
def bitAt (m : Nat → Byte) (t : Tid) (r j p : Nat) : Nat :=
  (m (512 * (t.pbase + (r / 64 * colBlocks t + j / 64) * t.spl + p) + 8 * (r % 64) + j % 64 / 8)).toNat / 2 ^ (j % 8) % 2
def bitsAt (m : Nat → Byte) (t : Tid) (r j : Nat) : Nat := ((List.range t.rpl).map fun p => bitAt m t r j p * 2 ^ (bitsT t - 1 - p)).sum

/-- R219: qk of an element of which k planes are read. -/
def nested (code k : Nat) : Int := (if 128 ≤ code then (code : Int) - 256 else code) + if k = 8 then 0 else 2 ^ (7 - k)

/-- R337: the length of element form, the bits of an element that it holds, and a byte of it made from planes. -/
def formSize (t : Tid) : Nat := if t.fmt = 7 then (rowsT t * storedT t + 7) / 8 else rowsT t * storedT t * (bitsT t / 8)
def formElem (m : Nat → Byte) (a : Nat) (t : Tid) (r j : Nat) : Nat :=
  let n := r * storedT t + j
  if t.fmt = 7 then (m (a + n / 8)).toNat / 2 ^ (n % 8) % 2
  else ((List.range (bitsT t / 8)).map fun i => (m (a + n * (bitsT t / 8) + i)).toNat * 256 ^ i).sum
def fromPlanes (m : Nat → Byte) (t : Tid) (o : Nat) : Byte :=
  if t.fmt = 7 then BitVec.ofNat 8 ((List.range 8).map fun i =>
    let n := 8 * o + i
    if n / storedT t < rowsT t then bitsAt m t (n / storedT t) (n % storedT t) * 2 ^ i else 0).sum
  else
    let n := o / (bitsT t / 8)
    let x := bitsAt m t (n / storedT t) (n % storedT t)
    if t.fmt = 6 then BitVec.ofInt 8 (nested x t.rpl) else BitVec.ofNat 8 (x / 256 ^ (o % (bitsT t / 8)))

/-- R222, R337: a byte of the plane tiles of elements whose bits are given, pads 0. -/
def toPlanes (t : Tid) (code : Nat → Nat → Nat) (o : Nat) : Byte :=
  let p := o / 512 % t.spl
  let kb := o / 512 / t.spl % colBlocks t
  let r := 64 * (o / 512 / t.spl / colBlocks t) + o % 512 / 8
  BitVec.ofNat 8 ((List.range 8).map fun i =>
    let j := 64 * kb + o % 8 * 8 + i
    if r < rowsT t ∧ j < storedT t then code r j / 2 ^ (bitsT t - 1 - p) % 2 * 2 ^ i else 0).sum
def planeSize (t : Tid) : Nat := 512 * (rowBlocks t * colBlocks t * t.spl)

/-- R224, R338: a folded weight, a row's scale, and a quantised weight, all in bits. -/
def folded (m mc : Nat → Byte) (a b : Tid) (x : Nat) (i j : Nat) : Nat :=
  (fMul fmtF32 0 (fDecode fmtF32 (word4 mc (x + 4 * (i * (a.km1 + 1) + j)))) (fDecode fmtF32 (word4 m (4 * b.smb + 4 * j)))).1
def foldScale (w : Nat → Nat) (a : Tid) : Nat :=
  let mx := ((List.range (a.km1 + 1)).map fun j => w j % 2 ^ 31).foldl max 0
  let q := if a.fmt = 6 then 0x42FE0000 else if a.fmt = 0 then 0x43E00000 else 0x47600000
  if mx = 0 ∨ 0x7F800000 ≤ mx then 0x3F800000 else (fDiv fmtF32 0 (fDecode fmtF32 mx) (fDecode fmtF32 q)).1

/-- The ranges that a command reads and writes: a space, a first byte and a length. A gather from host memory reads its list in the stash. -/
def engineReads (c : Cmd) : List (Nat × Nat × Nat) :=
  match c.kind with
  | .copy _ x n | .remote _ x n _ => [(x.space.toNat, x.addr.toNat, n)]
  | .gather _ x _ _ n ia => [(1, ia, 4 * n), (if x.space = 3 then 3 else 0, 0, 0)]
  | .transpose _ x e r k p => [(x.space.toNat, x.addr.toNat, (r - 1) * p + k * e)]
  | .plane x t unp => if unp then [(1, 512 * t.pbase, planeSize t)] else [(x.space.toNat, x.addr.toNat, formSize t)]
  | .fold x a b => [(x.space.toNat, x.addr.toNat, 4 * (rowsT a * (a.km1 + 1))), (1, 4 * b.smb, 4 * (a.km1 + 1))]
  | _ => []
def engineWrites (c : Cmd) : List (Nat × Nat × Nat) :=
  match c.kind with
  | .copy d _ n => [(d.space.toNat, d.addr.toNat, n)]
  | .remote d _ n f => (d.space.toNat, d.addr.toNat, n) :: (f.map fun a => (d.space.toNat, a, 4)).toList
  | .gather d _ _ rl n _ => [(1, d.addr.toNat, n * rl)]
  | .transpose d _ e r k _ => [(1, d.addr.toNat, r * k * e)]
  | .plane x t unp => if unp then [(x.space.toNat, x.addr.toNat, formSize t)] else [(1, 512 * t.pbase, planeSize t)]
  | .fold _ a _ => [(1, 512 * a.pbase, planeSize a), (1, 4 * a.scb, 4 * rowsT a)]
  | _ => []

/-- The tensor entries that a command works on, each of which reads no more planes than it stores (R221). -/
def entriesOk (c : Cmd) : Bool :=
  match c.kind with | .plane _ t _ => decide (t.rpl ≤ t.spl ∧ t.fmt.toNat ≤ 7) | .fold _ a _ => !a.sparse | _ => true

/-- Ranges that do not meet. -/
def NoMeet (x y : Nat × Nat × Nat) : Prop := x.1 ≠ y.1 ∨ x.2.1 + x.2.2 ≤ y.2.1 ∨ y.2.1 + y.2.2 ≤ x.2.1

/-- R332: a command that reads the stash or host memory and writes the stash, host memory or a peer, none of its ranges over another. -/
def Plain (c : Cmd) : Prop :=
  (∀ x ∈ engineReads c, x.1 = 1 ∨ x.1 = 3) ∧ (∀ y ∈ engineWrites c, y.1 = 1 ∨ y.1 = 3 ∨ y.1 = 4) ∧
    (∀ x ∈ engineReads c, ∀ y ∈ engineWrites c, NoMeet x y) ∧ (engineWrites c).Pairwise NoMeet ∧ entriesOk c = true

/-- R330, R374: the link to the peer that a remote copy writes is not down. -/
def linkUp (s : State) (c : Cmd) : Bool :=
  match c.kind with
  | .remote d _ _ _ => (ffind (getX s c.ctx).peers (d.addr.toNat / 2 ^ 48)).all fun e => (getLink s (2 * dieOf c.core + e.port % 2)).st != 2
  | _ => true

/-- Whether a byte of a space lies in the range of `n` bytes from `a` of a space. -/
def inRun (sp0 a n sp b : Nat) : Bool := decide (sp = sp0 ∧ a ≤ b ∧ b < a + n)

/-- The byte that a command writes at `b` of a space, none where it writes nothing. -/
def engineWrote (s : State) (c : Cmd) (sp b : Nat) : Option Byte :=
  let m := memAt s c.core
  match c.kind with
  | .copy d x n => if inRun d.space.toNat d.addr.toNat n sp b then some (m x.space.toNat (x.addr.toNat + (b - d.addr.toNat))) else none
  | .remote d x n f =>
    if inRun d.space.toNat d.addr.toNat n sp b then some (m x.space.toNat (x.addr.toNat + (b - d.addr.toNat)))
    else f.bind fun a => if inRun d.space.toNat a 4 sp b then some (BitVec.ofNat 8 ((word4 (m 4) a + 1) / 256 ^ (b - a))) else none
  | .gather d x st rl n ia => if inRun 1 d.addr.toNat (n * rl) sp b then
      let a := x.addr.toNat + word4 (m 1) (ia + 4 * ((b - d.addr.toNat) / rl)) * st
      some (if (capDecode x).any (fun l => decide (l.1 ≤ a ∧ a + rl ≤ l.2)) then m 3 (a + (b - d.addr.toNat) % rl) else 0) else none
  | .transpose d x e r k p => if inRun 1 d.addr.toNat (r * k * e) sp b then
      let o := b - d.addr.toNat
      some (m x.space.toNat (x.addr.toNat + o / e % r * p + o / e / r * e + o % e)) else none
  | .plane x t true => if inRun x.space.toNat x.addr.toNat (formSize t) sp b then some (fromPlanes (m 1) t (b - x.addr.toNat)) else none
  | .plane x t false => if inRun 1 (512 * t.pbase) (planeSize t) sp b
      then some (toPlanes t (formElem (m x.space.toNat) x.addr.toNat t) (b - 512 * t.pbase)) else none
  | .fold x a y =>
    let w := folded (m 1) (m x.space.toNat) a y x.addr.toNat
    if inRun 1 (512 * a.pbase) (planeSize a) sp b then
      some (toPlanes a (fun i j => (quant a (w i j) (foldScale (w i) a)).1.toNat) (b - 512 * a.pbase))
    else if inRun 1 (4 * a.scb) (4 * rowsT a) sp b then
      let o := b - 4 * a.scb
      some (BitVec.ofNat 8 (foldScale (w (o / 4)) a / 256 ^ (o % 4)))
    else none
  | _ => none

/-! What a matrix operation leaves in its tiles (R226 to R228, R345). -/

/-- A byte of the snapshot of a side. -/
def snapByte (c : Cmd) (side a : Nat) : Byte := BitVec.ofNat 8 ((fget (0 : Word) c.result (2 ^ 24 * side + a / 4)).toNat / 2 ^ (8 * (a % 4)))

/-- R222, R228: the stored column at logical column k of a row of A, none where the position is pruned or its nibble bad. -/
def columnAt (m : Nat → Byte) (t : Tid) (r k : Nat) : Option Nat :=
  if t.sparse = false then some k else
  let n := (m (512 * t.mtb + 16 * ((t.km1 + 128) / 128) * r + k / 4 / 2)).toNat / 16 ^ (k / 4 % 2) % 16
  if n % 4 < n / 4 then (if k % 4 = n % 4 then some (2 * (k / 4)) else if k % 4 = n / 4 then some (2 * (k / 4) + 1) else none) else none

/-- R226: the products per chunk, and the columns of a chunk with their stored columns of A. -/
def perChunk (a b : Tid) : Nat := match a.fmt.toNat with | 0 | 1 => 8 | 2 | 3 => 4 | 6 => 64 / max a.rpl b.rpl | _ => 1
def chunkOf (m : Nat → Byte) (a b : Tid) (r i : Nat) : List (Nat × Nat) :=
  (((List.range (perChunk a b)).map (i * perChunk a b + ·)).filter fun k => k ≤ a.km1).filterMap fun k => (columnAt m a r k).map fun j => (j, k)

/-- R227: the accumulation of an element over all of K, chunk by chunk; `ma` and `mb` hold the planes of A and B. -/
def accumulated (ma mb : Nat → Byte) (a b : Tid) (r n acc : Nat) : Nat :=
  let l := List.range ((a.km1 + perChunk a b) / perChunk a b)
  if a.fmt = 6 then
    let q (p : Nat × Nat) : Int := nested (bitsAt ma a r p.1) a.rpl * nested (bitsAt mb b n p.2) b.rpl
    let start : Int := if 2 ^ 31 ≤ acc then (acc : Int) - 2 ^ 32 else acc
    ((l.foldl (fun x i => max (-(2 ^ 31)) (min (2 ^ 31 - 1) (x + ((chunkOf ma a b r i).map q).sum))) start) % 2 ^ 32).toNat
  else
    let q (p : Nat × Nat) : FVal := (fMulE (fDecode (tidFmt a) (bitsAt ma a r p.1)) (fDecode (tidFmt b) (bitsAt mb b n p.2))).1
    l.foldl (fun x i => floatChunk (if a.fmt = 5 then fmtF64 else fmtF32) x ((chunkOf ma a b r i).map q)) acc

/-- An element of an accumulator: of two tiles for f64. -/
def accAt (s : State) (k tc r n : Nat) (f64 : Bool) : Nat :=
  (fget (0 : Word) (getC s k).tiles (0x1800 * tc + 96 * r + n)).toNat +
    if f64 then 2 ^ 32 * (fget (0 : Word) (getC s k).tiles (0x1800 * (tc + 1) + 96 * r + n)).toNat else 0

/-- R345: the tiles of a side after an operation: `t` against `s`. -/
def TilesHold (s t : State) (c : Cmd) (k side tc : Nat) (z : Bool) (a b : Tid) : Prop :=
  ∀ r n, r < 64 → n < 96 →
    let old := if z then 0 else accAt s k tc r n (a.fmt == 5)
    accAt t k tc r n (a.fmt == 5) =
      if r ≤ a.rowsm1 ∧ n ≤ b.rowsm1 then accumulated (snapByte c side) (snapByte c 0) a b r n old else old

/-- R345: the tag of an operation's tiles: FREE after `mzero`, else the kind of the accumulator. -/
def tagFor (c : Cmd) : TileTag := match c.kind with | .mm _ _ _ a _ _ => some (if a.fmt = 6 then 1 else if a.fmt = 5 then 2 else 0) | _ => none

/-- The ring, the slot and the direction of a held publication. -/
def publication (o : Op) : Option (Nat × Nat × Bool) := match o.kind with | .ringPublish k n e => some (k, n, e) | _ => none

end Sys2Proof.Claim

open Sys2Proof Sys2Proof.Machine

/-- A request is recorded on each core and cancels its waiters; a save takes the context's tasks off their core and cancels commands that
have not started; a withdrawal ends requests; a restore places tasks again or leaves them waiting; a migration asks for its unit; the end of
a context leaves nothing of it; firmware retries, skips, sends to the user handler or ends; a larger CQSPILL resumes deposits. What a
request's fault leaves follows log 20; what a restore does not bring back, what the end of a context leaves in flight, and which commands
run follow logs 30, 39 and 86. Forms: preemptRequest, preemptContextSave, preemptWithdraw, contextRestore, thermalMigration, contextEnd,
faultResolveRetry, faultResolveSkip, faultResolveUser, faultResolveEnd, spillResizeResume. -/
def Obligations.PreemptionEvents : Prop :=
  ∀ (s : State),
    -- preemptRequest
    (∀ (x : BitVec 12) (l : List Nat), (∀ c ∈ l, c < ncore s.part) →
      (ctxHalted s x = true → ∃ t, exec (.preemptRequest x l) s = .next t ∧ t = { s with ctxs := t.ctxs } ∧
        (getX t x).preempts = (getX s x).preempts ∧ ∀ c, c ∈ (getX t x).preemptWait ↔ c ∈ (getX s x).preemptWait ∨ c ∈ l) ∧
      (ctxHalted s x = false → (getX s x).preempts = [] → ∃ t, exec (.preemptRequest x l) s = .next t ∧
        (∀ c, c ∈ l ↔ ∃ p ∈ (getX t x).preempts, p = { core := c, only := none, t0 := s.gtick.toNat, restore := false }) ∧
        (∀ m ∈ t.homes.locks, ∀ w ∈ m.2.queue, ∀ c ∈ l, Claim.onCore s x c w.uid = true → (getG s w.uid).saving = none → False) ∧
        ∀ u, (getG t u).v = (getG s u).v ∧ (getG t u).c = (getG s u).c ∧ (getG t u).s = (getG s u).s)) ∧
    -- preemptContextSave
    (∀ (x : BitVec 12) (c : Nat), ∀ p ∈ (getX s x).preempts, p.core = c → p.only = none → saveReady s x p = true →
      (∀ q ∈ (getX s x).preempts, q.core = c → q = p) → (∀ r ∈ s.records, Claim.cachedOn c r = false) →
      ∃ t, exec (.preemptContextSave x c) s = .next t ∧ (getX t x).preempts = (getX s x).preempts.filter (fun q => q != p) ∧
        (∀ k ∈ s.tasks, k.2.ctx = x → k.2.core = c → (getT t k.1).off = true) ∧
        (∀ k ∈ s.tasks, k.2.ctx ≠ x → getT s k.1 = k.2 → getT t k.1 = k.2) ∧ t.records = s.records ∧ t.homes = s.homes ∧ t.groups = s.groups ∧
        ∀ k ∈ t.cmds, (getT s k.2.task).ctx = x → (getT s k.2.task).core = c → (getT s k.2.task).off = false → (ffind s.tasks k.2.task).isSome = true →
          k.2.core = c → k.2.st = .armed → k.2.cancel = true) ∧
    -- preemptWithdraw
    (∀ (x : BitVec 12) (l : List Nat),
      ∃ t, exec (.preemptWithdraw x l) s = .next t ∧ t = { s with ctxs := t.ctxs, groups := t.groups, tasks := t.tasks } ∧
        (getX t x).preempts = (getX s x).preempts.filter (fun p => !l.contains p.core) ∧
        (∀ u, getG t u = if (getG s u).ctx = x ∧ Claim.asked s x l (getG s u).core = true then { getG s u with late := false } else getG s u) ∧
        ∀ k, getT t k = if (getT s k).ctx = x ∧ Claim.asked s x l (getT s k).core = true ∧ (getT s k).off = false
          then { getT s k with restored := false } else getT s k) ∧
    -- contextRestore, thermalMigration
    (∀ (x : BitVec 12) (l : List Nat),
      ((∀ k ∈ s.tasks, k.2.ctx = x → k.2.off = false) →
        ∃ t, exec (.contextRestore x l) s = .next t ∧ t = { s with ctxs := t.ctxs } ∧
          (getX t x).preempts = (getX s x).preempts.map fun p => if l.contains p.core then { p with restore := true } else p) ∧
      ((∃ k ∈ s.tasks, k.2.ctx = x ∧ k.2.off = true ∧ k.2.core ∈ l) →
        ∃ t, exec (.contextRestore x l) s = .next t ∧ ∀ k ∈ s.tasks, getT s k.1 = k.2 → k.2.ctx = x → k.2.off = true → k.2.core ∈ l →
          let y := getT t k.1
          (y.off = true ∧ y.back.isSome = true ∧ y.core = k.2.core) ∨
            (y.off = false ∧ y.restored = true ∧ y.core < ncore s.part ∧ y.ngran = k.2.hdr.sgr ∧ y.tiles.length = k.2.hdr.tsl ∧
              y.tvec = 0 ∧ y.fflags = 0 ∧ ((ffind s.queues k.2.queue).any fun q => q.cores.contains y.core) = true))) ∧
    (∀ (k : Nat), (ffind s.tasks k).isSome = true → (unitOf s k).all (Claim.rested s) = true → ctxHalted s (getT s k).ctx = false →
      (∀ p ∈ (getX s (getT s k).ctx).preempts, p.core = (getT s k).core → p.only ≠ none) →
      ∃ t, exec (.thermalMigration k) s = .next t ∧ (getX t (getT s k).ctx).preempts = (getX s (getT s k).ctx).preempts ++
        [{ core := (getT s k).core, only := some (unitOf s k), t0 := s.gtick.toNat, restore := true }]) ∧
    -- contextEnd
    (∀ (x : BitVec 12), ∃ t, exec (.contextEnd x) s = .next t ∧ Claim.Over s t x ∧
      ∀ c k, let d := fget Node.zero (getC s c).nodes k
        fget Node.zero (getC t c).nodes k = if d.ctx = x ∧ d.st ≠ .free then { Node.zero with gen := d.gen + 1 } else d) ∧
    -- faultResolveRetry, faultResolveSkip, faultResolveUser, faultResolveEnd
    (∀ r ∈ s.records, Claim.Parked s r →
      (∃ t, exec (.faultResolveRetry r.id) s = .next t ∧ Claim.Resolved s t r r.pc r.mask r.again) ∧
      (∃ t, exec (.faultResolveSkip r.id) s = .next t ∧
        Claim.Resolved s t r (BitVec.truncate 56 (r.trap.getD TrapRegs.zero).xf3) (getF (getG s r.uid) r.frag).mask false ∧
        ((getG s r.uid).uid = r.uid → (getF (getG t r.uid) r.frag).redo = none)) ∧
      (∃ t, exec (.faultResolveEnd r.id) s = .next t ∧ Claim.Over s t r.ctx) ∧
      (let g := getG s r.uid
       let v := (taskOf s g).tvec
       causeFixed (parkedCause r) = false → v ≠ 0 → g.handler = none → g.uid = r.uid → r.uid ≠ 0 →
        ∃ t, exec (.faultResolveUser r.id) s = .next t ∧ Claim.Resolved s t r v (getF g r.frag).mask false ∧ (getG t r.uid).handler = some r.frag ∧
          (getG t r.uid).xcause = BitVec.ofNat 7 (causeCode (parkedCause r)) ∧ (getG t r.uid).xpc = r.pc)) ∧
    (∀ (n : Nat), parkedRecord s n = none → parkedWalk s n = none → Claim.OnSome (ffind s.fills n) fun f => f.parked = true →
      ∃ t, exec (.faultResolveRetry n) s = .next t ∧ t = { s with fills := t.fills, agenda := s.agenda ++ [.stashFillArrival n] } ∧
        ∀ k, ffind t.fills k = if k = n then some { f with parked := false } else ffind s.fills k) ∧
    -- spillResizeResume
    (∀ (x : BitVec 12) (v : BitVec 64), (getX s x).cqspill.toNat / 2 ^ 56 ≤ v.toNat / 2 ^ 56 →
      ∃ t, exec (.spillResizeResume x v) s = .next t ∧ (getX t x).cqspill.toNat = 2 ^ 16 * (v.toNat / 2 ^ 16) ∧
        ((∀ g ∈ s.groups, g.2.ctx = x → g.2.stuck = []) → t = { s with ctxs := t.ctxs } ∧ (getX t x).overflow = false))

/-- A command on the stash, host memory or a peer completes with exactly the bytes of its rule written: cpy and cpy.rmt (with its flag)
copy, cpy.gth gathers with 0 for an index out of bounds, cpy.tr8 and cpy.tr16 transpose, cpy.pln packs planes and unpacks them, cpy.fold
quantises scaled weights with their scales; or with no access when it is cancelled; and it lowers its counter. A node starts. A matrix
operation starts with its tiles tagged, releases its operand ranges, and retires: each element of its accumulator is the accumulation over
all of K of the products of its snapshots, chunk by chunk, and its tiles are free (those of mzero are zero). A publication gives its slot
the new state. An operation counts in its queue until it retires (log 46). Forms: engineCommandComplete, graphNodeStart, matrixStart,
operandsConsumed, matrixRetire, ringPublishEffect. -/
def Obligations.EngineEvents : Prop :=
  ∀ (s : State),
    -- engineCommandComplete
    (∀ (n : Nat), Claim.OnSome (ffind s.cmds n) fun c => Claim.OnlyCmd s n c → c.cls ≠ 2 → c.st = .run → c.node = none → c.wmax = none →
      (c.cancel = true → ∃ t, exec (.engineCommandComplete n none) s = .next t ∧ Claim.HomeKept s t ∧ Claim.Signalled s t n c ∧
        ∀ k, (getC t k).stash = (getC s k).stash) ∧
      (c.cancel = false → c.fail = false → c.pos = 0 → c.todo = [] → c.held = [] → (getC s c.core).maps = [] → (getC s c.core).ranges = [] →
        (∀ k, fget Watch.zero (getC s c.core).watches k = Watch.zero) → (getDie s (dieOf c.core)).hostq = [] →
        (∀ r ∈ s.reqs, r.2.agent ≠ .engine n) → c.id = n → Claim.linkUp s c = true → Claim.Plain c →
        ∃ t, exec (.engineCommandComplete n none) s = .next t ∧ Claim.HomeKept s t ∧ Claim.Signalled s t n c ∧
          (∀ k, k ≠ c.core → (getC t k).stash = (getC s k).stash) ∧
          ∀ sp b, sp = 1 ∨ sp = 3 ∨ sp = 4 → Claim.memAt t c.core sp b = (Claim.engineWrote s c sp b).getD (Claim.memAt s c.core sp b))) ∧
    -- graphNodeStart
    (∀ (core n : Nat), let d := fget Node.zero (getC s core).nodes n
      d.st = .armed → d.count = 0 → Claim.OnSome d.cmd fun id => Claim.OnSome (ffind s.cmds id) fun c => c.st = .armed →
        groupHalted s (getG s c.uid) = false →
        ∃ t, exec (.graphNodeStart core n) s = .next t ∧ t = { s with cores := t.cores, cmds := t.cmds } ∧
          (∀ k, fget Node.zero (getC t core).nodes k = if k = n then { d with st := .run } else fget Node.zero (getC s core).nodes k) ∧
          ∀ k, ffind t.cmds k = if k = id then some { c with st := .run, cancel := c.cancel || d.cancel } else ffind s.cmds k) ∧
    -- matrixStart, operandsConsumed, matrixRetire
    (∀ (n : Nat), Claim.OnSome (ffind s.cmds n) fun c =>
      (mmNext s c.core = some n → c.cancel = false → snapWhole c = true → groupHalted s (getG s c.uid) = false →
        ∃ t, exec (.matrixStart n) s = .next t ∧ ffind t.cmds n = some { c with st := .started } ∧ Event.operandsConsumed n ∈ t.agenda ∧
          t.groups = s.groups ∧ t.homes = s.homes ∧
          ∀ k j, fget none (getC t k).ttags j = if (k = c.core ∨ k = partner c.core) ∧ j ∈ mmTiles c.kind then Claim.tagFor c else fget none (getC s k).ttags j) ∧
      (c.st = .started →
        ∃ t, exec (.operandsConsumed n) s = .next t ∧ ffind t.cmds n = some { c with st := .consumed } ∧ Event.matrixRetire n ∈ t.agenda ∧
          t.groups = s.groups ∧ ∀ k, (getC t k).ranges = if k = c.core ∨ k = partner c.core then (getC s k).ranges.filter fun r => r.cmd != n else (getC s k).ranges) ∧
      (c.st = .consumed → (getC s (pairCore c.core)).mqueue.head? = some n → c.node = none → (getC s (pairCore c.core)).mqueue.tail.contains n = false →
        ∃ t, exec (.matrixRetire n) s = .next t ∧ (getC t (pairCore c.core)).mqueue = (getC s (pairCore c.core)).mqueue.tail ∧
          (∀ o ∈ (getC t (pairCore c.core)).towner, o.2 ≠ n) ∧ (Claim.OnlyCmd s n c → ffind t.cmds n = none) ∧
          ∀ tc ∈ (match c.kind with | .mzero tc => [tc] | _ => []), ∀ k, ∀ w, k = c.core ∨ k = partner c.core → w < 0x1800 →
            fget (0 : Word) (getC t k).tiles (tc * 0x1800 + w) = 0) ∧
      (c.st = .consumed → (getC s (pairCore c.core)).mqueue.head? = some n →
        match c.kind with
        | .mm tc z _ a b p => a.rowsm1 ≤ 63 → p.rowsm1 ≤ 63 → b.rowsm1 ≤ 95 → a.fmt = p.fmt →
          ∃ t, exec (.matrixRetire n) s = .next t ∧ Claim.TilesHold s t c c.core 0 tc z a b ∧ Claim.TilesHold s t c (partner c.core) 1 tc z p b
        | _ => True)) ∧
    -- ringPublishEffect
    (∀ (u op : Nat), Claim.OnSome (opOf (getG s u) op) fun o => Claim.OnSome (Claim.publication o) fun p =>
      opBlocked s (getG s u) o = false → markerClear s (getG s u) o = true → (getG s u).task ≠ 0 →
      ∃ t, exec (.ringPublishEffect u op) s = .next t ∧ opOf (getG t u) op = none ∧ Claim.HomeKept s t ∧
        ∀ k, (ffind (getT t (getG s u).task).rings k).map (fun r => r.slots) = (ffind (getT s (getG s u).task).rings k).map fun r =>
          if k = p.1 then r.slots.set p.2.1 (if p.2.2 then .e else .f) else r.slots)

namespace Sys2Proof.Claim
open Machine

/-! Float arithmetic (R212 to R216, R227): one rounding of the exact result. -/

/-- R212: the fields of a code of a type: its sign, exponent and fraction. -/
def signOf (f : Fmt) (x : Nat) : Bool := x / 2 ^ (f.eb + f.fb) % 2 == 1
def exponentOf (f : Fmt) (x : Nat) : Nat := x / 2 ^ f.fb % 2 ^ f.eb
def fractionOf (f : Fmt) (x : Nat) : Nat := x % 2 ^ f.fb

/-- R212, R213: the codes that are NaNs, signalling NaNs, infinities and finite numbers. -/
def IsNan (f : Fmt) (x : Nat) : Prop :=
  exponentOf f x = 2 ^ f.eb - 1 ∧ if f.f8a then fractionOf f x = 2 ^ f.fb - 1 else fractionOf f x ≠ 0
def IsSig (f : Fmt) (x : Nat) : Prop := IsNan f x ∧ fractionOf f x < 2 ^ (f.fb - 1)
def IsInf (f : Fmt) (x : Nat) : Prop := f.f8a = false ∧ exponentOf f x = 2 ^ f.eb - 1 ∧ fractionOf f x = 0
def IsFin (f : Fmt) (x : Nat) : Prop := ¬IsNan f x ∧ ¬IsInf f x

/-- R212: the bias, and the number that a finite code stands for. -/
def biasOf (f : Fmt) : Int := 2 ^ (f.eb - 1) - 1
noncomputable def numberOf (f : Fmt) (x : Nat) : ℝ :=
  (if signOf f x then -1 else 1) *
    if exponentOf f x = 0 then (fractionOf f x : ℝ) * (2 : ℝ) ^ (1 - biasOf f - f.fb)
    else ((2 ^ f.fb + fractionOf f x : Nat) : ℝ) * (2 : ℝ) ^ (exponentOf f x - biasOf f - f.fb)

/-- R212: the codes of the canonical NaN, of infinity and of the largest finite number, all with the sign 0. -/
def nanCode (f : Fmt) : Nat := if f.f8a then 0x7F else (2 ^ f.eb - 1) * 2 ^ f.fb + 2 ^ (f.fb - 1)
def infinity (f : Fmt) : Nat := (2 ^ f.eb - 1) * 2 ^ f.fb
def largest (f : Fmt) : Nat := if f.f8a then 0x7E else (2 ^ f.eb - 1) * 2 ^ f.fb - 1
def signed (f : Fmt) (neg : Bool) (x : Nat) : Nat := (if neg then 2 ^ (f.eb + f.fb) else 0) + x

/-- The numbers that a type would hold were its exponents unbounded above, and unbounded both ways. -/
def OnGrid (f : Fmt) (z : ℝ) : Prop := ∃ n q : Int, |n| < 2 ^ (f.fb + 1) ∧ 1 - biasOf f - f.fb ≤ q ∧ z = n * (2 : ℝ) ^ q
def OnFree (f : Fmt) (z : ℝ) : Prop := ∃ n q : Int, |n| < 2 ^ (f.fb + 1) ∧ z = n * (2 : ℝ) ^ q

/-- R214: y is x rounded to the numbers of G in a mode. A tie goes to the number that is an even multiple of the distance between the two. -/
def RoundsTo (G : ℝ → Prop) (rm : Rm) (x y : ℝ) : Prop :=
  G y ∧ match rm.toNat with
  | 0 => ∀ z, G z → |x - y| ≤ |x - z| ∧ (|x - y| = |x - z| → z ≠ y → ∃ k : Int, y = 2 * k * (z - y))
  | 1 => |y| ≤ |x| ∧ 0 ≤ x * y ∧ ∀ z, G z → |z| ≤ |x| → |z| ≤ |y|
  | 2 => y ≤ x ∧ ∀ z, G z → z ≤ x → z ≤ y
  | _ => x ≤ y ∧ ∀ z, G z → x ≤ z → y ≤ z

/-- R215: what overflows of a sign give in a mode. -/
def overflowCode (f : Fmt) (rm : Rm) (neg : Bool) : Nat :=
  if f.f8a then largest f else
  match rm.toNat with
  | 0 => infinity f
  | 1 => largest f
  | 2 => if neg then infinity f else largest f
  | _ => if neg then largest f else infinity f

/-- R214, R215: a code and its flags are the exact result x rounded once; `zneg` is the sign where x is 0. y is x rounded to the type, w to it
with its exponents unbounded. -/
def Rounded (f : Fmt) (rm : Rm) (zneg : Bool) (x : ℝ) (r : Nat × Fl) : Prop :=
  ∃ y w : ℝ, RoundsTo (OnGrid f) rm x y ∧ RoundsTo (OnFree f) rm x w ∧ ∃ neg : Bool, (neg = true ↔ x < 0 ∨ (x = 0 ∧ zneg = true)) ∧
    (|y| ≤ numberOf f (largest f) →
      r.1 < 2 ^ (f.eb + f.fb + 1) ∧ IsFin f r.1 ∧ numberOf f r.1 = y ∧ signOf f r.1 = neg ∧
      (y = x → r.2 = 0) ∧ (y ≠ x → |w| < (2 : ℝ) ^ (1 - biasOf f) → r.2 = flNX ||| flUF) ∧
      (y ≠ x → (2 : ℝ) ^ (1 - biasOf f) ≤ |w| → r.2 = flNX)) ∧
    (numberOf f (largest f) < |y| → r = (signed f neg (overflowCode f rm neg), flOF ||| flNX))

/-- The number of an exact value. -/
noncomputable def valueOf (v : FVal) : ℝ := match v with | .fin n m e => (if n then -1 else 1) * (m : ℝ) * (2 : ℝ) ^ e | _ => 0
def Finite (v : FVal) : Prop := match v with | .fin _ _ _ => True | _ => False

/-- The types of R212, and those that the float instructions compute in. -/
def types : List Fmt := [fmtF16, fmtBf16, fmtF32, fmtF64, fmtF8a, fmtF8b]
def wide : List Fmt := [fmtF16, fmtBf16, fmtF32, fmtF64]

/-- The flags of an operation on operands of which some is a NaN: NV where one is signalling (R216). -/
def NanFlags (f : Fmt) (l : List Nat) (fl : Fl) : Prop := ((∃ x ∈ l, IsSig f x) → fl = flNV) ∧ ((∀ x ∈ l, ¬IsSig f x) → fl = 0)

/-- R216: the canonical NaN, with NV. -/
def Invalid (f : Fmt) (r : Nat × Fl) : Prop := r = (nanCode f, flNV)

end Sys2Proof.Claim

open Sys2Proof Sys2Proof.Machine


/-- R65 to R72, R311, R312: `smap`; `sunmap`, `sflush` and `sinval`. -/
def Obligations.StashMappings : Prop := Claim.StashMap ∧ Claim.StashMaintenance

/-- R142, R145, R153, R154, R319, R320: `lck.acq`, `lck.try`, `lck.rel`, `lck.stat`; `mwait`. -/
def Obligations.LocksAndMonitors : Prop := Claim.LockInstructions ∧ Claim.MonitorWait

/-- R178, R322: `tjoin` and `tleave`; R269: `launch`. -/
def Obligations.TeamsAndLaunch : Prop := Claim.Teams ∧ Claim.LaunchInstruction

/-- R105, R113, R117: `fence` and `ntdrain`; R157 to R160, R321, R424: the barrier instructions. -/
def Obligations.FencesAndBarriers : Prop := Claim.Fences ∧ Claim.BarrierArrival

/-- R333, R334, R336: graph nodes and tensor entries; R324, R326: `ewait`; R340, R341: stage rings. -/
def Obligations.EngineBookkeeping : Prop := Claim.NodesAndTensors ∧ Claim.EngineWait ∧ Claim.StageRings

/-- R238, R254 to R256: `sget` and `sset` of every special register. -/
def Obligations.SpecialRegisters : Prop := Claim.SpecialRegisterRead ∧ Claim.SpecialRegisterWrite

/-- R173, R282, R295: mask logic; `mpopc`, `mfirst` and `vshape`. -/
def Obligations.MaskInstructions : Prop := Claim.MaskForms ∧ Claim.ScalarFromMaskOrVector

/-- R184, R204 to R206, R273: `sfp`, `cont.dep`; `role.yield`, `nop`. -/
def Obligations.SafePointsAndRoles : Prop := Claim.SafePoints ∧ Claim.RoleYield

/-- R170 to R172, R175: `scope.open`, `scope.close`; `rgive`, `rclaim`. -/
def Obligations.ScopesAndSlots : Prop := Claim.Scopes ∧ Claim.RegisterSlots

/-- R262, R355, R357, R358: `ret.x`; the delivery of a deferred cause. -/
def Obligations.LeavingAndDeferring : Prop := Claim.ReturnFromHandler ∧ Claim.DeferredCauseDelivered

/-- R178, R266 to R268: `exit`; `exit.succ`. -/
def Obligations.ExitInstructions : Prop := Claim.ExitForms ∧ Claim.SuccessorExit

/-- R239 to R241, R273, R356, R359: an encoding cause of a reserved field; R169, R170, R188: the operands of vector instructions; `trap` and `brk`. -/
def Obligations.RaisedCauses : Prop := Claim.IllFormedRaises ∧ Claim.VectorOperandChecks ∧ Claim.TrapInstruction

/-- The events of system software, dies and the package; R8, R12: minting; R377, R378: checkpoint images. -/
def Obligations.FirmwareAndImageEvents : Prop := Claim.FirmwareEvents ∧ Claim.MemoryImageEvents

/-- R9 to R12: the region, the bounds and the 128 bits of a capability; R15, R22, R41, R307: `cmk`, `cbnd`, `cperm`, `cseal`. -/
def Obligations.CapabilityBoundsAndDerivations : Prop := Claim.CapabilityBounds ∧ Claim.CapabilityDerivations

/-- R31 to R40: the translation of one address; R49, R50: threads that do not translate. -/
def Obligations.TranslationsAndFaults : Prop := Claim.Translation ∧ Claim.TranslationFaults

/-- R175 to R177, R264, R265: `vbra`; `vjoin`. -/
def Obligations.DivergenceAndJoins : Prop := Claim.DivergentBranch ∧ Claim.JoinInstruction

/-- For every format of R212 and every rounding mode: a conversion to a float format gives the number of its source rounded once to the
format; a sum, difference, product, quotient, square root and fused product-sum of finite operands gives the exact real result rounded once,
with NX, UF and OF as R215 has them and the sign of a zero; a NaN operand gives the canonical NaN with NV exactly where one is signalling;
infinities and the invalid operations give what R216 says; a quotient by 0 raises DZ; and a chunk of a matrix product is added in one
rounding to nearest (R227). Of a fused product-sum with a quiet NaN the flag is left out. -/
def Obligations.FloatArithmetic : Prop :=
  -- R212: the canonical NaNs and the largest numbers
  (Claim.types.map Claim.nanCode = [0x7E00, 0x7FC0, 0x7FC00000, 0x7FF8000000000000, 0x7F, 0x7E]) ∧
  -- a conversion to another float type rounds once; a NaN gives the canonical NaN, an infinity the infinity, or 448 in f8a
  (∀ f ∈ Claim.types, ∀ g ∈ Claim.types, ∀ (rm : Rm) (a : Nat), a < 2 ^ (f.eb + f.fb + 1) →
    (Claim.IsFin f a → Claim.Rounded g rm (Claim.signOf f a) (Claim.numberOf f a) (fEncode g rm (fDecode f a))) ∧
    (Claim.IsNan f a → fEncode g rm (fDecode f a) = (Claim.nanCode g, 0) ∧ (fDecode f a = .nan true ↔ Claim.IsSig f a)) ∧
    (Claim.IsInf f a → fEncode g rm (fDecode f a) =
      if g.f8a then (Claim.signed g (Claim.signOf f a) 0x7E, flNV) else (Claim.signed g (Claim.signOf f a) (Claim.infinity g), 0))) ∧
  -- finite operands: the exact result rounded once
  (∀ f ∈ Claim.wide, ∀ (rm : Rm) (a b c : Nat), a < 2 ^ (f.eb + f.fb + 1) → b < 2 ^ (f.eb + f.fb + 1) → c < 2 ^ (f.eb + f.fb + 1) →
    Claim.IsFin f a → Claim.IsFin f b → Claim.IsFin f c →
    let x := Claim.numberOf f a; let y := Claim.numberOf f b; let z := Claim.numberOf f c
    let sa := Claim.signOf f a; let sb := Claim.signOf f b; let sc := Claim.signOf f c
    let va := fDecode f a; let vb := fDecode f b; let vc := fDecode f c
    Claim.Rounded f rm (if sa = sb then sa else rm == 2) (x + y) (fAdd f rm va vb) ∧
    Claim.Rounded f rm (if sa = !sb then sa else rm == 2) (x - y) (fSub f rm va vb) ∧
    Claim.Rounded f rm (sa != sb) (x * y) (fMul f rm va vb) ∧
    Claim.Rounded f rm (if (sa != sb) = sc then sc else rm == 2) (x * y + z) (fFma f rm va vb vc) ∧
    (y ≠ 0 → Claim.Rounded f rm (sa != sb) (x / y) (fDiv f rm va vb)) ∧
    (y = 0 → x ≠ 0 → fDiv f rm va vb = (Claim.signed f (sa != sb) (Claim.infinity f), flDZ)) ∧
    (y = 0 → x = 0 → Claim.Invalid f (fDiv f rm va vb)) ∧
    (0 ≤ x → Claim.Rounded f rm sa (Real.sqrt x) (fSqrt f rm va)) ∧ (x < 0 → Claim.Invalid f (fSqrt f rm va))) ∧
  -- a NaN operand
  (∀ f ∈ Claim.wide, ∀ (rm : Rm) (a b c : Nat), a < 2 ^ (f.eb + f.fb + 1) → b < 2 ^ (f.eb + f.fb + 1) → c < 2 ^ (f.eb + f.fb + 1) →
    let va := fDecode f a; let vb := fDecode f b; let vc := fDecode f c
    (Claim.IsNan f a ∨ Claim.IsNan f b →
      ∀ r ∈ [fAdd f rm va vb, fSub f rm va vb, fMul f rm va vb, fDiv f rm va vb], r.1 = Claim.nanCode f ∧ Claim.NanFlags f [a, b] r.2) ∧
    (Claim.IsNan f a → (fSqrt f rm va).1 = Claim.nanCode f ∧ Claim.NanFlags f [a] (fSqrt f rm va).2) ∧
    (Claim.IsNan f a ∨ Claim.IsNan f b ∨ Claim.IsNan f c → (fFma f rm va vb vc).1 = Claim.nanCode f ∧
      ((∃ x ∈ [a, b, c], Claim.IsSig f x) → (fFma f rm va vb vc).2 = flNV))) ∧
  -- an infinity among operands that are no NaN
  (∀ f ∈ Claim.wide, ∀ (rm : Rm) (a b c : Nat), a < 2 ^ (f.eb + f.fb + 1) → b < 2 ^ (f.eb + f.fb + 1) → c < 2 ^ (f.eb + f.fb + 1) →
    let va := fDecode f a; let vb := fDecode f b; let vc := fDecode f c
    let sa := Claim.signOf f a; let sb := Claim.signOf f b; let sc := Claim.signOf f c
    let inf (n : Bool) : Nat × Fl := (Claim.signed f n (Claim.infinity f), 0)
    (Claim.IsInf f a → Claim.IsInf f b → (sa = sb → fAdd f rm va vb = inf sa ∧ Claim.Invalid f (fSub f rm va vb)) ∧
      (sa ≠ sb → Claim.Invalid f (fAdd f rm va vb) ∧ fSub f rm va vb = inf sa) ∧ fMul f rm va vb = inf (sa != sb) ∧
      Claim.Invalid f (fDiv f rm va vb)) ∧
    (Claim.IsInf f a → Claim.IsFin f b → fAdd f rm va vb = inf sa ∧ fAdd f rm vb va = inf sa ∧ fSub f rm va vb = inf sa ∧
      fSub f rm vb va = inf (!sa) ∧ fDiv f rm va vb = inf (sa != sb) ∧ fDiv f rm vb va = (Claim.signed f (sb != sa) 0, 0) ∧
      (Claim.numberOf f b = 0 → Claim.Invalid f (fMul f rm va vb) ∧ Claim.Invalid f (fMul f rm vb va) ∧
        Claim.Invalid f (fFma f rm va vb vc) ∧ Claim.Invalid f (fFma f rm vb va vc)) ∧
      (Claim.numberOf f b ≠ 0 → fMul f rm va vb = inf (sa != sb) ∧ fMul f rm vb va = inf (sb != sa) ∧
        (Claim.IsInf f c → sc ≠ (sa != sb) → Claim.Invalid f (fFma f rm va vb vc)) ∧
        (Claim.IsFin f c → fFma f rm va vb vc = inf (sa != sb))) ∧
      (Claim.IsFin f c → fFma f rm vb vc va = inf sa)) ∧
    (Claim.IsInf f a → fSqrt f rm va = if sa then (Claim.nanCode f, flNV) else inf false)) ∧
  -- R227: a chunk of finite products is added in one rounding to nearest; a NaN product, or infinities of both signs, give the canonical NaN
  (∀ f ∈ [fmtF32, fmtF64], ∀ (acc : Nat) (ps : List FVal), acc < 2 ^ (f.eb + f.fb + 1) →
    (Claim.IsFin f acc → (∀ v ∈ ps, Claim.Finite v) →
      ∃ fl, Claim.Rounded f 0 false (Claim.numberOf f acc + (ps.map Claim.valueOf).sum) (floatChunk f acc ps, fl)) ∧
    ((∃ v ∈ ps, v.isNan = true) ∨ (.inf true ∈ ps ∧ .inf false ∈ ps) → floatChunk f acc ps = Claim.nanCode f) ∧
    (∀ n, Claim.IsFin f acc → (∀ v ∈ ps, Claim.Finite v ∨ v = .inf n) → .inf n ∈ ps → floatChunk f acc ps = Claim.signed f n (Claim.infinity f)))
end

