-- ==== Sys2Proof/Laws/Links.lean ====
section
/-! SUPPORT. The CRC of a flit (R372): a flit that the sender composes is one whose CRC matches. -/

namespace Sys2Proof.Machine

/-- The register of the CRC keeps to 64 bits. -/
theorem crcStep_lt (r : Nat) (b : Bool) : crcStep r b < 2 ^ 64 := by
  have h : r * 2 % 2 ^ 64 < 2 ^ 64 := Nat.mod_lt _ (by decide)
  simp only [crcStep]
  split
  · exact Nat.xor_lt_two_pow h (by decide)
  · exact h

/-- So it does after any number of bits. -/
theorem crcBits_lt (x : Nat) : ∀ n r, r < 2 ^ 64 → crcBits x n r < 2 ^ 64
  | 0, _, h => h
  | n + 1, r, _ => crcBits_lt x n _ (crcStep_lt r _)

/-- The CRC of the low `n` bits depends on these alone. -/
theorem crcBits_congr (x y : Nat) : ∀ n r, (∀ k, k < n → x.testBit k = y.testBit k) → crcBits x n r = crcBits y n r
  | 0, _, _ => rfl
  | n + 1, r, h => by
    simp only [crcBits, h n (Nat.lt_succ_self n)]
    exact crcBits_congr x y n _ fun k hk => h k (Nat.lt_succ_of_lt hk)

/-- A flit whose upper 64 bits hold the CRC of the rest has a CRC that matches. -/
theorem flitOk_of (f : BitVec 2048) (b c : Nat) (hb : b < 2 ^ 1984) (hc : c < 2 ^ 64) (hf : f.toNat = b + 2 ^ 1984 * c)
    (h : crcBits b 1984 0 = c) : flitOk f = true := by
  have h1 : (flitCrc f).toNat = c := by
    unfold flitCrc
    rw [BitVec.extractLsb'_toNat, hf, Nat.shiftRight_eq_div_pow, Nat.add_mul_div_left _ _ (Nat.two_pow_pos _), Nat.div_eq_of_lt hb, Nat.zero_add,
      Nat.mod_eq_of_lt hc]
  have h2 : crcBits f.toNat 1984 0 = c := by
    rw [← h, hf]
    exact crcBits_congr _ _ _ _ fun j hj => by rw [Nat.add_comm, Nat.testBit_two_pow_mul_add _ hb, if_pos hj]
  unfold flitOk
  rw [h1, h2, beq_self_eq_true]

/-- R372: a flit that is composed has a CRC that matches. -/
theorem flitOk_compose (q a : BitVec 12) (k : Nat) (m : BitVec 1920) (hk : k < 16) : flitOk (composeFlit q a k m) = true := by
  have hb : q.toNat + 2 ^ 12 * a.toNat + 2 ^ 24 * k + 2 ^ 64 * m.toNat < 2 ^ 1984 := by
    have h1 := q.isLt
    have h2 := a.isLt
    have h : (2 : Nat) ^ 1984 = 2 ^ 64 * 2 ^ 1920 := by rw [← pow_add]
    have h3 : 2 ^ 64 * (m.toNat + 1) ≤ 2 ^ 64 * 2 ^ 1920 := Nat.mul_le_mul_left _ m.isLt
    rw [h]
    generalize (2 : Nat) ^ 1920 = z at h3
    omega
  have hc := crcBits_lt (q.toNat + 2 ^ 12 * a.toNat + 2 ^ 24 * k + 2 ^ 64 * m.toNat) 1984 0 (by decide)
  have hlt : q.toNat + 2 ^ 12 * a.toNat + 2 ^ 24 * k + 2 ^ 64 * m.toNat +
      2 ^ 1984 * crcBits (q.toNat + 2 ^ 12 * a.toNat + 2 ^ 24 * k + 2 ^ 64 * m.toNat) 1984 0 < 2 ^ 2048 := by
    generalize crcBits (q.toNat + 2 ^ 12 * a.toNat + 2 ^ 24 * k + 2 ^ 64 * m.toNat) 1984 0 = c at hc
    generalize q.toNat + 2 ^ 12 * a.toNat + 2 ^ 24 * k + 2 ^ 64 * m.toNat = b at hb
    have h4 : 2 ^ 1984 * (c + 1) ≤ 2 ^ 1984 * 2 ^ 64 := Nat.mul_le_mul_left _ hc
    rw [show (2 : Nat) ^ 2048 = 2 ^ 1984 * 2 ^ 64 by rw [← pow_add]]
    rw [Nat.mul_add, Nat.mul_one] at h4
    omega
  refine flitOk_of _ _ _ hb hc ?_ rfl
  unfold composeFlit
  rw [BitVec.toNat_ofNat, Nat.mod_eq_of_lt hlt]

end Sys2Proof.Machine
end

