-- ==== Sys2Proof/Laws/Words.lean ====
section
/-!
SUPPORT. Words as lists of fields, from bit 0 up: what the decoder reads from such a word.
-/
namespace Sys2Proof.Laws

/-- A word's fields from bit 0 up. -/
abbrev Fields := List (Σ n : Nat, BitVec n)

/-- The value of a list of fields. -/
def value : Fields → Nat
  | [] => 0
  | ⟨n, x⟩ :: l => x.toNat + 2 ^ n * value l

/-- The number of bits of a list of fields. -/
def width : Fields → Nat
  | [] => 0
  | ⟨n, _⟩ :: l => n + width l

/-- The word that a list of fields makes. -/
def word (l : Fields) : BitVec 32 := BitVec.ofNat 32 (value l)

/-- The `n` bits from bit `lo` of a list of fields. -/
def fieldAt : Fields → Nat → (n : Nat) → BitVec n
  | [], _, n => 0#n
  | ⟨k, x⟩ :: l, lo, n =>
    if k ≤ lo ∧ 0 < lo then fieldAt l (lo - k) n
    else if h : lo = 0 ∧ k = n then h.2 ▸ x else BitVec.ofNat n ((x.toNat + 2 ^ k * value l) / 2 ^ lo)

theorem value_lt (l : Fields) : value l < 2 ^ width l := by
  induction l with
  | nil => simp [value, width]
  | cons p l ih =>
    obtain ⟨n, x⟩ := p
    simp only [value, width, pow_add]
    calc x.toNat + 2 ^ n * value l < 2 ^ n + 2 ^ n * value l := by have := x.isLt; omega
      _ = 2 ^ n * (value l + 1) := by ring
      _ ≤ 2 ^ n * 2 ^ width l := Nat.mul_le_mul_left _ ih

theorem fieldAt_eq (l : Fields) (lo n : Nat) : fieldAt l lo n = BitVec.ofNat n (value l / 2 ^ lo) := by
  induction l generalizing lo with
  | nil => simp [fieldAt, value]
  | cons p l ih =>
    obtain ⟨k, x⟩ := p
    simp only [fieldAt, value]
    split
    · rename_i h
      rw [ih]
      congr 1
      obtain ⟨j, rfl⟩ := Nat.exists_eq_add_of_le h.1
      rw [Nat.add_sub_cancel_left, pow_add, ← Nat.div_div_eq_div_mul, Nat.add_mul_div_left _ _ (by positivity),
        Nat.div_eq_of_lt x.isLt, zero_add]
    · split
      · rename_i h
        obtain ⟨rfl, rfl⟩ := h
        apply BitVec.eq_of_toNat_eq
        simp [Nat.mod_eq_of_lt x.isLt]
      · rfl

/-- What the decoder reads from a word that fits in 32 bits. -/
theorem bf_word (l : Fields) (lo n : Nat) (h : width l ≤ 32) : bf (word l) lo n = fieldAt l lo n := by
  rw [fieldAt_eq, bf, word, BitVec.toNat_ofNat, Nat.mod_eq_of_lt (lt_of_lt_of_le (value_lt l) (Nat.pow_le_pow_right (by norm_num) h))]

theorem bits_word (l : Fields) (lo n : Nat) (h : width l ≤ 32) : (word l).toNat / 2 ^ lo % 2 ^ n = (fieldAt l lo n).toNat := by
  rw [fieldAt_eq, word, BitVec.toNat_ofNat, BitVec.toNat_ofNat,
    Nat.mod_eq_of_lt (lt_of_lt_of_le (value_lt l) (Nat.pow_le_pow_right (by norm_num) h))]

/-- The check of zero fields on a word whose fields there are zero. -/
theorem must_word (l : Fields) (zs : List (Nat × Nat)) (i : Instr) (h : width l ≤ 32)
    (hz : (zs.all fun z => fieldAt l z.1 z.2 == 0) = true) : must zs (word l) i = .ok i := by
  have : (zs.all fun z => (word l).toNat / 2 ^ z.1 % 2 ^ z.2 == 0) = true := by
    simp only [List.all_eq_true] at hz ⊢
    intro z hm
    have hq : fieldAt l z.1 z.2 = 0 := by simpa using hz z hm
    rw [bits_word l _ _ h, hq]
    simp
  simp [must, this]

theorem mustSet_word (l : Fields) (k : Nat) (i : Instr) (h : width l ≤ 32) (hz : (fieldAt l k 1 == 1) = true) :
    mustSet k (word l) i = .ok i := by
  have := bits_word l k 1 h
  simp only [beq_iff_eq] at hz
  rw [hz, pow_one] at this
  simp only [mustSet, this]
  rfl

theorem below_word (l : Fields) (n : Nat) (r : Except Machine.Cause Instr) (h : width l ≤ 32)
    (hz : (decide ((fieldAt l 7 3).toNat < n)) = true) : below n (word l) r = r := by
  have := bits_word l 7 3 h
  simp only [decide_eq_true_eq] at hz
  simp only [below]
  rw [if_pos]
  have e : 2 ^ 3 = 8 := rfl
  rw [e] at this
  omega

end Sys2Proof.Laws
end

