-- ==== Sys2Proof/Laws/PerInstr.lean ====
section
/-!
SUPPORT. The round trip of each instruction: the decoder gives back what the encoder writes, one lemma for each constructor.
-/
namespace Sys2Proof.Laws

/-- A well-formed instruction that has words is what the decoder reads from them. -/
def RoundTrip.Statement (i : Instr) : Prop := Instr.WellFormed i → ∀ c, encode i = some c → decode c = .ok i

theorem wide_word {n : Nat} {l : Fields} (h : n = value l) : wideCode n = some { wide := true, word := word l } := by
  rw [h]; rfl

theorem decode_wide (w : BitVec 32) : decode { wide := true, word := w } = decode32 w := rfl

theorem half_word {n : Nat} {l : Fields} (h : n = value l) : halfCode n = some { wide := false, word := word l } := by
  rw [h]; rfl

/-- A list of causes with no cause begins with a check that passes. -/
theorem first_false {b : Bool} {c : Machine.Cause} {l : List (Bool × Machine.Cause)} (h : Machine.firstCause ((b, c) :: l) = none) :
    b = false := by
  cases b
  · rfl
  · cases h

theorem below_seven {w : BitVec 3} (h : ¬ w = 7) : w.toNat < 7 := by
  have h1 := w.isLt
  have h2 : w.toNat ≠ 7 := fun e => h (BitVec.eq_of_toNat_eq e)
  omega

/-- A compact word is not 0 where one of its fields is not. -/
theorem ne_zero_of_bf {w : BitVec 32} {lo n : Nat} {x : BitVec n} (h : bf w lo n = x) (hx : x ≠ 0#n) : w ≠ 0 := by
  rintro rfl
  apply hx
  rw [← h]
  simp [bf]


theorem major_0 (w : BitVec 32) (h : bf w 1 6 = 0#6) : decode32 w = decodeVia w := by unfold decode32; rw [h]; rfl

theorem major_1 (w : BitVec 32) (h : bf w 1 6 = 1#6) : decode32 w = decodeVib w := by unfold decode32; rw [h]; rfl

theorem major_2 (w : BitVec 32) (h : bf w 1 6 = 2#6) : decode32 w = decodeVic w := by unfold decode32; rw [h]; rfl

theorem major_3 (w : BitVec 32) (h : bf w 1 6 = 3#6) : decode32 w = decodeVid w := by unfold decode32; rw [h]; rfl

theorem major_4 (w : BitVec 32) (h : bf w 1 6 = 4#6) : decode32 w = decodeVun w := by unfold decode32; rw [h]; rfl

theorem major_5 (w : BitVec 32) (h : bf w 1 6 = 5#6) : decode32 w = decodeVsat w := by unfold decode32; rw [h]; rfl

theorem major_6 (w : BitVec 32) (h : bf w 1 6 = 6#6) : decode32 w = decodeVsel w := by unfold decode32; rw [h]; rfl

theorem major_7 (w : BitVec 32) (h : bf w 1 6 = 7#6) : decode32 w = decodeVmisc w := by unfold decode32; rw [h]; rfl

theorem major_8 (w : BitVec 32) (h : bf w 1 6 = 8#6) : decode32 w = decodeVfa32 w := by unfold decode32; rw [h]; rfl

theorem major_9 (w : BitVec 32) (h : bf w 1 6 = 9#6) : decode32 w = decodeVfm32 w := by unfold decode32; rw [h]; rfl

theorem major_10 (w : BitVec 32) (h : bf w 1 6 = 10#6) : decode32 w = decodeVfd32 w := by unfold decode32; rw [h]; rfl

theorem major_11 (w : BitVec 32) (h : bf w 1 6 = 11#6) : decode32 w = decodeVfa64 w := by unfold decode32; rw [h]; rfl

theorem major_12 (w : BitVec 32) (h : bf w 1 6 = 12#6) : decode32 w = decodeVfm64 w := by unfold decode32; rw [h]; rfl

theorem major_13 (w : BitVec 32) (h : bf w 1 6 = 13#6) : decode32 w = decodeVfd64 w := by unfold decode32; rw [h]; rfl

theorem major_14 (w : BitVec 32) (h : bf w 1 6 = 14#6) : decode32 w = decodeVfx w := by unfold decode32; rw [h]; rfl

theorem major_15 (w : BitVec 32) (h : bf w 1 6 = 15#6) : decode32 w = decodeVcmp w := by unfold decode32; rw [h]; rfl

theorem major_16 (w : BitVec 32) (h : bf w 1 6 = 16#6) : decode32 w = decodeVcvt w := by unfold decode32; rw [h]; rfl

theorem major_17 (w : BitVec 32) (h : bf w 1 6 = 17#6) : decode32 w = decodeVaddi w := by unfold decode32; rw [h]; rfl

theorem major_18 (w : BitVec 32) (h : bf w 1 6 = 18#6) : decode32 w = decodeVandi w := by unfold decode32; rw [h]; rfl

theorem major_19 (w : BitVec 32) (h : bf w 1 6 = 19#6) : decode32 w = decodeVshi w := by unfold decode32; rw [h]; rfl

theorem major_20 (w : BitVec 32) (h : bf w 1 6 = 20#6) : decode32 w = decodeVxl w := by unfold decode32; rw [h]; rfl

theorem major_21 (w : BitVec 32) (h : bf w 1 6 = 21#6) : decode32 w = decodeVred w := by unfold decode32; rw [h]; rfl

theorem major_22 (w : BitVec 32) (h : bf w 1 6 = 22#6) : decode32 w = decodeVscan w := by unfold decode32; rw [h]; rfl

theorem major_23 (w : BitVec 32) (h : bf w 1 6 = 23#6) : decode32 w = decodeVidx w := by unfold decode32; rw [h]; rfl

theorem major_24 (w : BitVec 32) (h : bf w 1 6 = 24#6) : decode32 w = decodeMask w := by unfold decode32; rw [h]; rfl

theorem major_25 (w : BitVec 32) (h : bf w 1 6 = 25#6) : decode32 w = decodeVpln w := by unfold decode32; rw [h]; rfl

theorem major_26 (w : BitVec 32) (h : bf w 1 6 = 26#6) : decode32 w = decodeVqnt w := by unfold decode32; rw [h]; rfl

theorem major_27 (w : BitVec 32) (h : bf w 1 6 = 27#6) : decode32 w = decodeMtx w := by unfold decode32; rw [h]; rfl

theorem major_28 (w : BitVec 32) (h : bf w 1 6 = 28#6) : decode32 w = decodeSalu w := by unfold decode32; rw [h]; rfl

theorem major_29 (w : BitVec 32) (h : bf w 1 6 = 29#6) : decode32 w = decodeSsh w := by unfold decode32; rw [h]; rfl

theorem major_30 (w : BitVec 32) (h : bf w 1 6 = 30#6) : decode32 w = decodeScmp w := by unfold decode32; rw [h]; rfl

theorem major_31 (w : BitVec 32) (h : bf w 1 6 = 31#6) : decode32 w = decodeSalui w := by unfold decode32; rw [h]; rfl

theorem major_32 (w : BitVec 32) (h : bf w 1 6 = 32#6) : decode32 w = decodeSimm w := by unfold decode32; rw [h]; rfl

theorem major_33 (w : BitVec 32) (h : bf w 1 6 = 33#6) : decode32 w = decodeSreg w := by unfold decode32; rw [h]; rfl

theorem major_34 (w : BitVec 32) (h : bf w 1 6 = 34#6) : decode32 w = decodeBcnd w := by unfold decode32; rw [h]; rfl

theorem major_35 (w : BitVec 32) (h : bf w 1 6 = 35#6) : decode32 w = decodeLoop w := by unfold decode32; rw [h]; rfl

theorem major_36 (w : BitVec 32) (h : bf w 1 6 = 36#6) : decode32 w = decodeVbra w := by unfold decode32; rw [h]; rfl

theorem major_37 (w : BitVec 32) (h : bf w 1 6 = 37#6) : decode32 w = decodeBra w := by unfold decode32; rw [h]; rfl

theorem major_38 (w : BitVec 32) (h : bf w 1 6 = 38#6) : decode32 w = decodeCall w := by unfold decode32; rw [h]; rfl

theorem major_39 (w : BitVec 32) (h : bf w 1 6 = 39#6) : decode32 w = decodeCtl0 w := by unfold decode32; rw [h]; rfl

theorem major_40 (w : BitVec 32) (h : bf w 1 6 = 40#6) : decode32 w = decodeCtl1 w := by unfold decode32; rw [h]; rfl

theorem major_41 (w : BitVec 32) (h : bf w 1 6 = 41#6) : decode32 w = decodeFence w := by unfold decode32; rw [h]; rfl

theorem major_42 (w : BitVec 32) (h : bf w 1 6 = 42#6) : decode32 w = decodeCapx w := by unfold decode32; rw [h]; rfl

theorem major_43 (w : BitVec 32) (h : bf w 1 6 = 43#6) : decode32 w = decodeCls w := by unfold decode32; rw [h]; rfl

theorem major_44 (w : BitVec 32) (h : bf w 1 6 = 44#6) : decode32 w = decodeVld w := by unfold decode32; rw [h]; rfl

theorem major_45 (w : BitVec 32) (h : bf w 1 6 = 45#6) : decode32 w = decodeVlda w := by unfold decode32; rw [h]; rfl

theorem major_46 (w : BitVec 32) (h : bf w 1 6 = 46#6) : decode32 w = decodeVst w := by unfold decode32; rw [h]; rfl

theorem major_47 (w : BitVec 32) (h : bf w 1 6 = 47#6) : decode32 w = decodeVstr w := by unfold decode32; rw [h]; rfl

theorem major_48 (w : BitVec 32) (h : bf w 1 6 = 48#6) : decode32 w = decodeVldnt w := by unfold decode32; rw [h]; rfl

theorem major_49 (w : BitVec 32) (h : bf w 1 6 = 49#6) : decode32 w = decodeVstnt w := by unfold decode32; rw [h]; rfl

theorem major_50 (w : BitVec 32) (h : bf w 1 6 = 50#6) : decode32 w = decodeSld w := by unfold decode32; rw [h]; rfl

theorem major_51 (w : BitVec 32) (h : bf w 1 6 = 51#6) : decode32 w = decodeSst w := by unfold decode32; rw [h]; rfl

theorem major_52 (w : BitVec 32) (h : bf w 1 6 = 52#6) : decode32 w = decodeLds w := by unfold decode32; rw [h]; rfl

theorem major_53 (w : BitVec 32) (h : bf w 1 6 = 53#6) : decode32 w = decodeSts w := by unfold decode32; rw [h]; rfl

theorem major_54 (w : BitVec 32) (h : bf w 1 6 = 54#6) : decode32 w = decodeMemx w := by unfold decode32; rw [h]; rfl

theorem major_55 (w : BitVec 32) (h : bf w 1 6 = 55#6) : decode32 w = decodeSmapx w := by unfold decode32; rw [h]; rfl

theorem major_56 (w : BitVec 32) (h : bf w 1 6 = 56#6) : decode32 w = decodeVat32 w := by unfold decode32; rw [h]; rfl

theorem major_57 (w : BitVec 32) (h : bf w 1 6 = 57#6) : decode32 w = decodeVat64 w := by unfold decode32; rw [h]; rfl

theorem major_58 (w : BitVec 32) (h : bf w 1 6 = 58#6) : decode32 w = decodeVatx w := by unfold decode32; rw [h]; rfl

theorem major_59 (w : BitVec 32) (h : bf w 1 6 = 59#6) : decode32 w = decodeVatf w := by unfold decode32; rw [h]; rfl

theorem major_60 (w : BitVec 32) (h : bf w 1 6 = 60#6) : decode32 w = decodeSatom w := by unfold decode32; rw [h]; rfl

theorem major_61 (w : BitVec 32) (h : bf w 1 6 = 61#6) : decode32 w = decodeSync w := by unfold decode32; rw [h]; rfl

theorem major_62 (w : BitVec 32) (h : bf w 1 6 = 62#6) : decode32 w = decodeEngc w := by unfold decode32; rw [h]; rfl

theorem major_63 (w : BitVec 32) (h : bf w 1 6 = 63#6) : decode32 w = decodeEngx w := by unfold decode32; rw [h]; rfl

theorem arm_vadd (w : BitVec 32) (h0 : bf w 7 3 = 0#3) : decodeVia w =
    .ok (.vadd (bf w 30 2) (bf w 29 1) (bf w 28 1) (bf w 22 6) (bf w 16 6) (bf w 10 6)) := by unfold decodeVia; rw [h0]; rfl

theorem RoundTrip.vadd (m b2 b1 vs2 vs1 vd) : RoundTrip.Statement (.vadd m b2 b1 vs2 vs1 vd) := by
  intro _ c0 he
  have hw : width [⟨1, 1#1⟩, ⟨6, 0#6⟩, ⟨3, 0#3⟩, ⟨6, vd⟩, ⟨6, vs1⟩, ⟨6, vs2⟩, ⟨1, b1⟩, ⟨1, b2⟩, ⟨2, m⟩] ≤ 32 := Nat.le.refl
  have hb := fun lo n => bf_word _ lo n hw
  rw [show encode (.vadd m b2 b1 vs2 vs1 vd) = _ from wide_word (l := [⟨1, 1#1⟩, ⟨6, 0#6⟩, ⟨3, 0#3⟩, ⟨6, vd⟩, ⟨6, vs1⟩, ⟨6, vs2⟩, ⟨1, b1⟩, ⟨1, b2⟩, ⟨2, m⟩]) (by simp only [value, BitVec.toNat_ofNat]; omega)] at he
  cases he
  rw [decode_wide, major_0 _ (hb 1 6)]
  refine (arm_vadd _ (hb 7 3)).trans ?_
  simp only [hb]
  rfl

theorem arm_vsub (w : BitVec 32) (h0 : bf w 7 3 = 1#3) : decodeVia w =
    .ok (.vsub (bf w 30 2) (bf w 29 1) (bf w 28 1) (bf w 22 6) (bf w 16 6) (bf w 10 6)) := by unfold decodeVia; rw [h0]; rfl

theorem RoundTrip.vsub (m b2 b1 vs2 vs1 vd) : RoundTrip.Statement (.vsub m b2 b1 vs2 vs1 vd) := by
  intro _ c0 he
  have hw : width [⟨1, 1#1⟩, ⟨6, 0#6⟩, ⟨3, 1#3⟩, ⟨6, vd⟩, ⟨6, vs1⟩, ⟨6, vs2⟩, ⟨1, b1⟩, ⟨1, b2⟩, ⟨2, m⟩] ≤ 32 := Nat.le.refl
  have hb := fun lo n => bf_word _ lo n hw
  rw [show encode (.vsub m b2 b1 vs2 vs1 vd) = _ from wide_word (l := [⟨1, 1#1⟩, ⟨6, 0#6⟩, ⟨3, 1#3⟩, ⟨6, vd⟩, ⟨6, vs1⟩, ⟨6, vs2⟩, ⟨1, b1⟩, ⟨1, b2⟩, ⟨2, m⟩]) (by simp only [value, BitVec.toNat_ofNat]; omega)] at he
  cases he
  rw [decode_wide, major_0 _ (hb 1 6)]
  refine (arm_vsub _ (hb 7 3)).trans ?_
  simp only [hb]
  rfl

theorem arm_vmul (w : BitVec 32) (h0 : bf w 7 3 = 2#3) : decodeVia w =
    .ok (.vmul (bf w 30 2) (bf w 29 1) (bf w 28 1) (bf w 22 6) (bf w 16 6) (bf w 10 6)) := by unfold decodeVia; rw [h0]; rfl

theorem RoundTrip.vmul (m b2 b1 vs2 vs1 vd) : RoundTrip.Statement (.vmul m b2 b1 vs2 vs1 vd) := by
  intro _ c0 he
  have hw : width [⟨1, 1#1⟩, ⟨6, 0#6⟩, ⟨3, 2#3⟩, ⟨6, vd⟩, ⟨6, vs1⟩, ⟨6, vs2⟩, ⟨1, b1⟩, ⟨1, b2⟩, ⟨2, m⟩] ≤ 32 := Nat.le.refl
  have hb := fun lo n => bf_word _ lo n hw
  rw [show encode (.vmul m b2 b1 vs2 vs1 vd) = _ from wide_word (l := [⟨1, 1#1⟩, ⟨6, 0#6⟩, ⟨3, 2#3⟩, ⟨6, vd⟩, ⟨6, vs1⟩, ⟨6, vs2⟩, ⟨1, b1⟩, ⟨1, b2⟩, ⟨2, m⟩]) (by simp only [value, BitVec.toNat_ofNat]; omega)] at he
  cases he
  rw [decode_wide, major_0 _ (hb 1 6)]
  refine (arm_vmul _ (hb 7 3)).trans ?_
  simp only [hb]
  rfl

theorem arm_vmulhiI32 (w : BitVec 32) (h0 : bf w 7 3 = 3#3) : decodeVia w =
    .ok (.vmulhiI32 (bf w 30 2) (bf w 29 1) (bf w 28 1) (bf w 22 6) (bf w 16 6) (bf w 10 6)) := by unfold decodeVia; rw [h0]; rfl

theorem RoundTrip.vmulhiI32 (m b2 b1 vs2 vs1 vd) : RoundTrip.Statement (.vmulhiI32 m b2 b1 vs2 vs1 vd) := by
  intro _ c0 he
  have hw : width [⟨1, 1#1⟩, ⟨6, 0#6⟩, ⟨3, 3#3⟩, ⟨6, vd⟩, ⟨6, vs1⟩, ⟨6, vs2⟩, ⟨1, b1⟩, ⟨1, b2⟩, ⟨2, m⟩] ≤ 32 := Nat.le.refl
  have hb := fun lo n => bf_word _ lo n hw
  rw [show encode (.vmulhiI32 m b2 b1 vs2 vs1 vd) = _ from wide_word (l := [⟨1, 1#1⟩, ⟨6, 0#6⟩, ⟨3, 3#3⟩, ⟨6, vd⟩, ⟨6, vs1⟩, ⟨6, vs2⟩, ⟨1, b1⟩, ⟨1, b2⟩, ⟨2, m⟩]) (by simp only [value, BitVec.toNat_ofNat]; omega)] at he
  cases he
  rw [decode_wide, major_0 _ (hb 1 6)]
  refine (arm_vmulhiI32 _ (hb 7 3)).trans ?_
  simp only [hb]
  rfl

theorem arm_vmulhiN32 (w : BitVec 32) (h0 : bf w 7 3 = 4#3) : decodeVia w =
    .ok (.vmulhiN32 (bf w 30 2) (bf w 29 1) (bf w 28 1) (bf w 22 6) (bf w 16 6) (bf w 10 6)) := by unfold decodeVia; rw [h0]; rfl

theorem RoundTrip.vmulhiN32 (m b2 b1 vs2 vs1 vd) : RoundTrip.Statement (.vmulhiN32 m b2 b1 vs2 vs1 vd) := by
  intro _ c0 he
  have hw : width [⟨1, 1#1⟩, ⟨6, 0#6⟩, ⟨3, 4#3⟩, ⟨6, vd⟩, ⟨6, vs1⟩, ⟨6, vs2⟩, ⟨1, b1⟩, ⟨1, b2⟩, ⟨2, m⟩] ≤ 32 := Nat.le.refl
  have hb := fun lo n => bf_word _ lo n hw
  rw [show encode (.vmulhiN32 m b2 b1 vs2 vs1 vd) = _ from wide_word (l := [⟨1, 1#1⟩, ⟨6, 0#6⟩, ⟨3, 4#3⟩, ⟨6, vd⟩, ⟨6, vs1⟩, ⟨6, vs2⟩, ⟨1, b1⟩, ⟨1, b2⟩, ⟨2, m⟩]) (by simp only [value, BitVec.toNat_ofNat]; omega)] at he
  cases he
  rw [decode_wide, major_0 _ (hb 1 6)]
  refine (arm_vmulhiN32 _ (hb 7 3)).trans ?_
  simp only [hb]
  rfl

theorem arm_vminI32 (w : BitVec 32) (h0 : bf w 7 3 = 5#3) : decodeVia w =
    .ok (.vminI32 (bf w 30 2) (bf w 29 1) (bf w 28 1) (bf w 22 6) (bf w 16 6) (bf w 10 6)) := by unfold decodeVia; rw [h0]; rfl

theorem RoundTrip.vminI32 (m b2 b1 vs2 vs1 vd) : RoundTrip.Statement (.vminI32 m b2 b1 vs2 vs1 vd) := by
  intro _ c0 he
  have hw : width [⟨1, 1#1⟩, ⟨6, 0#6⟩, ⟨3, 5#3⟩, ⟨6, vd⟩, ⟨6, vs1⟩, ⟨6, vs2⟩, ⟨1, b1⟩, ⟨1, b2⟩, ⟨2, m⟩] ≤ 32 := Nat.le.refl
  have hb := fun lo n => bf_word _ lo n hw
  rw [show encode (.vminI32 m b2 b1 vs2 vs1 vd) = _ from wide_word (l := [⟨1, 1#1⟩, ⟨6, 0#6⟩, ⟨3, 5#3⟩, ⟨6, vd⟩, ⟨6, vs1⟩, ⟨6, vs2⟩, ⟨1, b1⟩, ⟨1, b2⟩, ⟨2, m⟩]) (by simp only [value, BitVec.toNat_ofNat]; omega)] at he
  cases he
  rw [decode_wide, major_0 _ (hb 1 6)]
  refine (arm_vminI32 _ (hb 7 3)).trans ?_
  simp only [hb]
  rfl

theorem arm_vmaxI32 (w : BitVec 32) (h0 : bf w 7 3 = 6#3) : decodeVia w =
    .ok (.vmaxI32 (bf w 30 2) (bf w 29 1) (bf w 28 1) (bf w 22 6) (bf w 16 6) (bf w 10 6)) := by unfold decodeVia; rw [h0]; rfl

theorem RoundTrip.vmaxI32 (m b2 b1 vs2 vs1 vd) : RoundTrip.Statement (.vmaxI32 m b2 b1 vs2 vs1 vd) := by
  intro _ c0 he
  have hw : width [⟨1, 1#1⟩, ⟨6, 0#6⟩, ⟨3, 6#3⟩, ⟨6, vd⟩, ⟨6, vs1⟩, ⟨6, vs2⟩, ⟨1, b1⟩, ⟨1, b2⟩, ⟨2, m⟩] ≤ 32 := Nat.le.refl
  have hb := fun lo n => bf_word _ lo n hw
  rw [show encode (.vmaxI32 m b2 b1 vs2 vs1 vd) = _ from wide_word (l := [⟨1, 1#1⟩, ⟨6, 0#6⟩, ⟨3, 6#3⟩, ⟨6, vd⟩, ⟨6, vs1⟩, ⟨6, vs2⟩, ⟨1, b1⟩, ⟨1, b2⟩, ⟨2, m⟩]) (by simp only [value, BitVec.toNat_ofNat]; omega)] at he
  cases he
  rw [decode_wide, major_0 _ (hb 1 6)]
  refine (arm_vmaxI32 _ (hb 7 3)).trans ?_
  simp only [hb]
  rfl

theorem arm_vmad (w : BitVec 32) (h0 : bf w 7 3 = 7#3) : decodeVia w =
    .ok (.vmad (bf w 30 2) (bf w 29 1) (bf w 28 1) (bf w 22 6) (bf w 16 6) (bf w 10 6)) := by unfold decodeVia; rw [h0]; rfl

theorem RoundTrip.vmad (m b2 b1 vs2 vs1 vd) : RoundTrip.Statement (.vmad m b2 b1 vs2 vs1 vd) := by
  intro _ c0 he
  have hw : width [⟨1, 1#1⟩, ⟨6, 0#6⟩, ⟨3, 7#3⟩, ⟨6, vd⟩, ⟨6, vs1⟩, ⟨6, vs2⟩, ⟨1, b1⟩, ⟨1, b2⟩, ⟨2, m⟩] ≤ 32 := Nat.le.refl
  have hb := fun lo n => bf_word _ lo n hw
  rw [show encode (.vmad m b2 b1 vs2 vs1 vd) = _ from wide_word (l := [⟨1, 1#1⟩, ⟨6, 0#6⟩, ⟨3, 7#3⟩, ⟨6, vd⟩, ⟨6, vs1⟩, ⟨6, vs2⟩, ⟨1, b1⟩, ⟨1, b2⟩, ⟨2, m⟩]) (by simp only [value, BitVec.toNat_ofNat]; omega)] at he
  cases he
  rw [decode_wide, major_0 _ (hb 1 6)]
  refine (arm_vmad _ (hb 7 3)).trans ?_
  simp only [hb]
  rfl

theorem arm_vand (w : BitVec 32) (h0 : bf w 7 3 = 0#3) : decodeVib w =
    .ok (.vand (bf w 30 2) (bf w 29 1) (bf w 28 1) (bf w 22 6) (bf w 16 6) (bf w 10 6)) := by unfold decodeVib; rw [h0]; rfl

theorem RoundTrip.vand (m b2 b1 vs2 vs1 vd) : RoundTrip.Statement (.vand m b2 b1 vs2 vs1 vd) := by
  intro _ c0 he
  have hw : width [⟨1, 1#1⟩, ⟨6, 1#6⟩, ⟨3, 0#3⟩, ⟨6, vd⟩, ⟨6, vs1⟩, ⟨6, vs2⟩, ⟨1, b1⟩, ⟨1, b2⟩, ⟨2, m⟩] ≤ 32 := Nat.le.refl
  have hb := fun lo n => bf_word _ lo n hw
  rw [show encode (.vand m b2 b1 vs2 vs1 vd) = _ from wide_word (l := [⟨1, 1#1⟩, ⟨6, 1#6⟩, ⟨3, 0#3⟩, ⟨6, vd⟩, ⟨6, vs1⟩, ⟨6, vs2⟩, ⟨1, b1⟩, ⟨1, b2⟩, ⟨2, m⟩]) (by simp only [value, BitVec.toNat_ofNat]; omega)] at he
  cases he
  rw [decode_wide, major_1 _ (hb 1 6)]
  refine (arm_vand _ (hb 7 3)).trans ?_
  simp only [hb]
  rfl

theorem arm_vor (w : BitVec 32) (h0 : bf w 7 3 = 1#3) : decodeVib w =
    .ok (.vor (bf w 30 2) (bf w 29 1) (bf w 28 1) (bf w 22 6) (bf w 16 6) (bf w 10 6)) := by unfold decodeVib; rw [h0]; rfl

theorem RoundTrip.vor (m b2 b1 vs2 vs1 vd) : RoundTrip.Statement (.vor m b2 b1 vs2 vs1 vd) := by
  intro _ c0 he
  have hw : width [⟨1, 1#1⟩, ⟨6, 1#6⟩, ⟨3, 1#3⟩, ⟨6, vd⟩, ⟨6, vs1⟩, ⟨6, vs2⟩, ⟨1, b1⟩, ⟨1, b2⟩, ⟨2, m⟩] ≤ 32 := Nat.le.refl
  have hb := fun lo n => bf_word _ lo n hw
  rw [show encode (.vor m b2 b1 vs2 vs1 vd) = _ from wide_word (l := [⟨1, 1#1⟩, ⟨6, 1#6⟩, ⟨3, 1#3⟩, ⟨6, vd⟩, ⟨6, vs1⟩, ⟨6, vs2⟩, ⟨1, b1⟩, ⟨1, b2⟩, ⟨2, m⟩]) (by simp only [value, BitVec.toNat_ofNat]; omega)] at he
  cases he
  rw [decode_wide, major_1 _ (hb 1 6)]
  refine (arm_vor _ (hb 7 3)).trans ?_
  simp only [hb]
  rfl

theorem arm_vxor (w : BitVec 32) (h0 : bf w 7 3 = 2#3) : decodeVib w =
    .ok (.vxor (bf w 30 2) (bf w 29 1) (bf w 28 1) (bf w 22 6) (bf w 16 6) (bf w 10 6)) := by unfold decodeVib; rw [h0]; rfl

theorem RoundTrip.vxor (m b2 b1 vs2 vs1 vd) : RoundTrip.Statement (.vxor m b2 b1 vs2 vs1 vd) := by
  intro _ c0 he
  have hw : width [⟨1, 1#1⟩, ⟨6, 1#6⟩, ⟨3, 2#3⟩, ⟨6, vd⟩, ⟨6, vs1⟩, ⟨6, vs2⟩, ⟨1, b1⟩, ⟨1, b2⟩, ⟨2, m⟩] ≤ 32 := Nat.le.refl
  have hb := fun lo n => bf_word _ lo n hw
  rw [show encode (.vxor m b2 b1 vs2 vs1 vd) = _ from wide_word (l := [⟨1, 1#1⟩, ⟨6, 1#6⟩, ⟨3, 2#3⟩, ⟨6, vd⟩, ⟨6, vs1⟩, ⟨6, vs2⟩, ⟨1, b1⟩, ⟨1, b2⟩, ⟨2, m⟩]) (by simp only [value, BitVec.toNat_ofNat]; omega)] at he
  cases he
  rw [decode_wide, major_1 _ (hb 1 6)]
  refine (arm_vxor _ (hb 7 3)).trans ?_
  simp only [hb]
  rfl

theorem arm_vshl (w : BitVec 32) (h0 : bf w 7 3 = 3#3) : decodeVib w =
    .ok (.vshl (bf w 30 2) (bf w 29 1) (bf w 28 1) (bf w 22 6) (bf w 16 6) (bf w 10 6)) := by unfold decodeVib; rw [h0]; rfl

theorem RoundTrip.vshl (m b2 b1 vs2 vs1 vd) : RoundTrip.Statement (.vshl m b2 b1 vs2 vs1 vd) := by
  intro _ c0 he
  have hw : width [⟨1, 1#1⟩, ⟨6, 1#6⟩, ⟨3, 3#3⟩, ⟨6, vd⟩, ⟨6, vs1⟩, ⟨6, vs2⟩, ⟨1, b1⟩, ⟨1, b2⟩, ⟨2, m⟩] ≤ 32 := Nat.le.refl
  have hb := fun lo n => bf_word _ lo n hw
  rw [show encode (.vshl m b2 b1 vs2 vs1 vd) = _ from wide_word (l := [⟨1, 1#1⟩, ⟨6, 1#6⟩, ⟨3, 3#3⟩, ⟨6, vd⟩, ⟨6, vs1⟩, ⟨6, vs2⟩, ⟨1, b1⟩, ⟨1, b2⟩, ⟨2, m⟩]) (by simp only [value, BitVec.toNat_ofNat]; omega)] at he
  cases he
  rw [decode_wide, major_1 _ (hb 1 6)]
  refine (arm_vshl _ (hb 7 3)).trans ?_
  simp only [hb]
  rfl

theorem arm_vshr (w : BitVec 32) (h0 : bf w 7 3 = 4#3) : decodeVib w =
    .ok (.vshr (bf w 30 2) (bf w 29 1) (bf w 28 1) (bf w 22 6) (bf w 16 6) (bf w 10 6)) := by unfold decodeVib; rw [h0]; rfl

theorem RoundTrip.vshr (m b2 b1 vs2 vs1 vd) : RoundTrip.Statement (.vshr m b2 b1 vs2 vs1 vd) := by
  intro _ c0 he
  have hw : width [⟨1, 1#1⟩, ⟨6, 1#6⟩, ⟨3, 4#3⟩, ⟨6, vd⟩, ⟨6, vs1⟩, ⟨6, vs2⟩, ⟨1, b1⟩, ⟨1, b2⟩, ⟨2, m⟩] ≤ 32 := Nat.le.refl
  have hb := fun lo n => bf_word _ lo n hw
  rw [show encode (.vshr m b2 b1 vs2 vs1 vd) = _ from wide_word (l := [⟨1, 1#1⟩, ⟨6, 1#6⟩, ⟨3, 4#3⟩, ⟨6, vd⟩, ⟨6, vs1⟩, ⟨6, vs2⟩, ⟨1, b1⟩, ⟨1, b2⟩, ⟨2, m⟩]) (by simp only [value, BitVec.toNat_ofNat]; omega)] at he
  cases he
  rw [decode_wide, major_1 _ (hb 1 6)]
  refine (arm_vshr _ (hb 7 3)).trans ?_
  simp only [hb]
  rfl

theorem arm_vsra (w : BitVec 32) (h0 : bf w 7 3 = 5#3) : decodeVib w =
    .ok (.vsra (bf w 30 2) (bf w 29 1) (bf w 28 1) (bf w 22 6) (bf w 16 6) (bf w 10 6)) := by unfold decodeVib; rw [h0]; rfl

theorem RoundTrip.vsra (m b2 b1 vs2 vs1 vd) : RoundTrip.Statement (.vsra m b2 b1 vs2 vs1 vd) := by
  intro _ c0 he
  have hw : width [⟨1, 1#1⟩, ⟨6, 1#6⟩, ⟨3, 5#3⟩, ⟨6, vd⟩, ⟨6, vs1⟩, ⟨6, vs2⟩, ⟨1, b1⟩, ⟨1, b2⟩, ⟨2, m⟩] ≤ 32 := Nat.le.refl
  have hb := fun lo n => bf_word _ lo n hw
  rw [show encode (.vsra m b2 b1 vs2 vs1 vd) = _ from wide_word (l := [⟨1, 1#1⟩, ⟨6, 1#6⟩, ⟨3, 5#3⟩, ⟨6, vd⟩, ⟨6, vs1⟩, ⟨6, vs2⟩, ⟨1, b1⟩, ⟨1, b2⟩, ⟨2, m⟩]) (by simp only [value, BitVec.toNat_ofNat]; omega)] at he
  cases he
  rw [decode_wide, major_1 _ (hb 1 6)]
  refine (arm_vsra _ (hb 7 3)).trans ?_
  simp only [hb]
  rfl

theorem arm_vminN32 (w : BitVec 32) (h0 : bf w 7 3 = 6#3) : decodeVib w =
    .ok (.vminN32 (bf w 30 2) (bf w 29 1) (bf w 28 1) (bf w 22 6) (bf w 16 6) (bf w 10 6)) := by unfold decodeVib; rw [h0]; rfl

theorem RoundTrip.vminN32 (m b2 b1 vs2 vs1 vd) : RoundTrip.Statement (.vminN32 m b2 b1 vs2 vs1 vd) := by
  intro _ c0 he
  have hw : width [⟨1, 1#1⟩, ⟨6, 1#6⟩, ⟨3, 6#3⟩, ⟨6, vd⟩, ⟨6, vs1⟩, ⟨6, vs2⟩, ⟨1, b1⟩, ⟨1, b2⟩, ⟨2, m⟩] ≤ 32 := Nat.le.refl
  have hb := fun lo n => bf_word _ lo n hw
  rw [show encode (.vminN32 m b2 b1 vs2 vs1 vd) = _ from wide_word (l := [⟨1, 1#1⟩, ⟨6, 1#6⟩, ⟨3, 6#3⟩, ⟨6, vd⟩, ⟨6, vs1⟩, ⟨6, vs2⟩, ⟨1, b1⟩, ⟨1, b2⟩, ⟨2, m⟩]) (by simp only [value, BitVec.toNat_ofNat]; omega)] at he
  cases he
  rw [decode_wide, major_1 _ (hb 1 6)]
  refine (arm_vminN32 _ (hb 7 3)).trans ?_
  simp only [hb]
  rfl

theorem arm_vmaxN32 (w : BitVec 32) (h0 : bf w 7 3 = 7#3) : decodeVib w =
    .ok (.vmaxN32 (bf w 30 2) (bf w 29 1) (bf w 28 1) (bf w 22 6) (bf w 16 6) (bf w 10 6)) := by unfold decodeVib; rw [h0]; rfl

theorem RoundTrip.vmaxN32 (m b2 b1 vs2 vs1 vd) : RoundTrip.Statement (.vmaxN32 m b2 b1 vs2 vs1 vd) := by
  intro _ c0 he
  have hw : width [⟨1, 1#1⟩, ⟨6, 1#6⟩, ⟨3, 7#3⟩, ⟨6, vd⟩, ⟨6, vs1⟩, ⟨6, vs2⟩, ⟨1, b1⟩, ⟨1, b2⟩, ⟨2, m⟩] ≤ 32 := Nat.le.refl
  have hb := fun lo n => bf_word _ lo n hw
  rw [show encode (.vmaxN32 m b2 b1 vs2 vs1 vd) = _ from wide_word (l := [⟨1, 1#1⟩, ⟨6, 1#6⟩, ⟨3, 7#3⟩, ⟨6, vd⟩, ⟨6, vs1⟩, ⟨6, vs2⟩, ⟨1, b1⟩, ⟨1, b2⟩, ⟨2, m⟩]) (by simp only [value, BitVec.toNat_ofNat]; omega)] at he
  cases he
  rw [decode_wide, major_1 _ (hb 1 6)]
  refine (arm_vmaxN32 _ (hb 7 3)).trans ?_
  simp only [hb]
  rfl

theorem arm_vaddB64 (w : BitVec 32) (h0 : bf w 7 3 = 0#3) : decodeVic w =
    .ok (.vaddB64 (bf w 30 2) (bf w 29 1) (bf w 28 1) (bf w 22 6) (bf w 16 6) (bf w 10 6)) := by unfold decodeVic; rw [h0]; rfl

theorem RoundTrip.vaddB64 (m b2 b1 vs2 vs1 vd) : RoundTrip.Statement (.vaddB64 m b2 b1 vs2 vs1 vd) := by
  intro _ c0 he
  have hw : width [⟨1, 1#1⟩, ⟨6, 2#6⟩, ⟨3, 0#3⟩, ⟨6, vd⟩, ⟨6, vs1⟩, ⟨6, vs2⟩, ⟨1, b1⟩, ⟨1, b2⟩, ⟨2, m⟩] ≤ 32 := Nat.le.refl
  have hb := fun lo n => bf_word _ lo n hw
  rw [show encode (.vaddB64 m b2 b1 vs2 vs1 vd) = _ from wide_word (l := [⟨1, 1#1⟩, ⟨6, 2#6⟩, ⟨3, 0#3⟩, ⟨6, vd⟩, ⟨6, vs1⟩, ⟨6, vs2⟩, ⟨1, b1⟩, ⟨1, b2⟩, ⟨2, m⟩]) (by simp only [value, BitVec.toNat_ofNat]; omega)] at he
  cases he
  rw [decode_wide, major_2 _ (hb 1 6)]
  refine (arm_vaddB64 _ (hb 7 3)).trans ?_
  simp only [hb]
  rfl

theorem arm_vsubB64 (w : BitVec 32) (h0 : bf w 7 3 = 1#3) : decodeVic w =
    .ok (.vsubB64 (bf w 30 2) (bf w 29 1) (bf w 28 1) (bf w 22 6) (bf w 16 6) (bf w 10 6)) := by unfold decodeVic; rw [h0]; rfl

theorem RoundTrip.vsubB64 (m b2 b1 vs2 vs1 vd) : RoundTrip.Statement (.vsubB64 m b2 b1 vs2 vs1 vd) := by
  intro _ c0 he
  have hw : width [⟨1, 1#1⟩, ⟨6, 2#6⟩, ⟨3, 1#3⟩, ⟨6, vd⟩, ⟨6, vs1⟩, ⟨6, vs2⟩, ⟨1, b1⟩, ⟨1, b2⟩, ⟨2, m⟩] ≤ 32 := Nat.le.refl
  have hb := fun lo n => bf_word _ lo n hw
  rw [show encode (.vsubB64 m b2 b1 vs2 vs1 vd) = _ from wide_word (l := [⟨1, 1#1⟩, ⟨6, 2#6⟩, ⟨3, 1#3⟩, ⟨6, vd⟩, ⟨6, vs1⟩, ⟨6, vs2⟩, ⟨1, b1⟩, ⟨1, b2⟩, ⟨2, m⟩]) (by simp only [value, BitVec.toNat_ofNat]; omega)] at he
  cases he
  rw [decode_wide, major_2 _ (hb 1 6)]
  refine (arm_vsubB64 _ (hb 7 3)).trans ?_
  simp only [hb]
  rfl

theorem arm_vmulB64 (w : BitVec 32) (h0 : bf w 7 3 = 2#3) : decodeVic w =
    .ok (.vmulB64 (bf w 30 2) (bf w 29 1) (bf w 28 1) (bf w 22 6) (bf w 16 6) (bf w 10 6)) := by unfold decodeVic; rw [h0]; rfl

theorem RoundTrip.vmulB64 (m b2 b1 vs2 vs1 vd) : RoundTrip.Statement (.vmulB64 m b2 b1 vs2 vs1 vd) := by
  intro _ c0 he
  have hw : width [⟨1, 1#1⟩, ⟨6, 2#6⟩, ⟨3, 2#3⟩, ⟨6, vd⟩, ⟨6, vs1⟩, ⟨6, vs2⟩, ⟨1, b1⟩, ⟨1, b2⟩, ⟨2, m⟩] ≤ 32 := Nat.le.refl
  have hb := fun lo n => bf_word _ lo n hw
  rw [show encode (.vmulB64 m b2 b1 vs2 vs1 vd) = _ from wide_word (l := [⟨1, 1#1⟩, ⟨6, 2#6⟩, ⟨3, 2#3⟩, ⟨6, vd⟩, ⟨6, vs1⟩, ⟨6, vs2⟩, ⟨1, b1⟩, ⟨1, b2⟩, ⟨2, m⟩]) (by simp only [value, BitVec.toNat_ofNat]; omega)] at he
  cases he
  rw [decode_wide, major_2 _ (hb 1 6)]
  refine (arm_vmulB64 _ (hb 7 3)).trans ?_
  simp only [hb]
  rfl

theorem arm_vshlB64 (w : BitVec 32) (h0 : bf w 7 3 = 3#3) : decodeVic w =
    .ok (.vshlB64 (bf w 30 2) (bf w 29 1) (bf w 28 1) (bf w 22 6) (bf w 16 6) (bf w 10 6)) := by unfold decodeVic; rw [h0]; rfl

theorem RoundTrip.vshlB64 (m b2 b1 vs2 vs1 vd) : RoundTrip.Statement (.vshlB64 m b2 b1 vs2 vs1 vd) := by
  intro _ c0 he
  have hw : width [⟨1, 1#1⟩, ⟨6, 2#6⟩, ⟨3, 3#3⟩, ⟨6, vd⟩, ⟨6, vs1⟩, ⟨6, vs2⟩, ⟨1, b1⟩, ⟨1, b2⟩, ⟨2, m⟩] ≤ 32 := Nat.le.refl
  have hb := fun lo n => bf_word _ lo n hw
  rw [show encode (.vshlB64 m b2 b1 vs2 vs1 vd) = _ from wide_word (l := [⟨1, 1#1⟩, ⟨6, 2#6⟩, ⟨3, 3#3⟩, ⟨6, vd⟩, ⟨6, vs1⟩, ⟨6, vs2⟩, ⟨1, b1⟩, ⟨1, b2⟩, ⟨2, m⟩]) (by simp only [value, BitVec.toNat_ofNat]; omega)] at he
  cases he
  rw [decode_wide, major_2 _ (hb 1 6)]
  refine (arm_vshlB64 _ (hb 7 3)).trans ?_
  simp only [hb]
  rfl

theorem arm_vshrB64 (w : BitVec 32) (h0 : bf w 7 3 = 4#3) : decodeVic w =
    .ok (.vshrB64 (bf w 30 2) (bf w 29 1) (bf w 28 1) (bf w 22 6) (bf w 16 6) (bf w 10 6)) := by unfold decodeVic; rw [h0]; rfl

theorem RoundTrip.vshrB64 (m b2 b1 vs2 vs1 vd) : RoundTrip.Statement (.vshrB64 m b2 b1 vs2 vs1 vd) := by
  intro _ c0 he
  have hw : width [⟨1, 1#1⟩, ⟨6, 2#6⟩, ⟨3, 4#3⟩, ⟨6, vd⟩, ⟨6, vs1⟩, ⟨6, vs2⟩, ⟨1, b1⟩, ⟨1, b2⟩, ⟨2, m⟩] ≤ 32 := Nat.le.refl
  have hb := fun lo n => bf_word _ lo n hw
  rw [show encode (.vshrB64 m b2 b1 vs2 vs1 vd) = _ from wide_word (l := [⟨1, 1#1⟩, ⟨6, 2#6⟩, ⟨3, 4#3⟩, ⟨6, vd⟩, ⟨6, vs1⟩, ⟨6, vs2⟩, ⟨1, b1⟩, ⟨1, b2⟩, ⟨2, m⟩]) (by simp only [value, BitVec.toNat_ofNat]; omega)] at he
  cases he
  rw [decode_wide, major_2 _ (hb 1 6)]
  refine (arm_vshrB64 _ (hb 7 3)).trans ?_
  simp only [hb]
  rfl

theorem arm_vsraB64 (w : BitVec 32) (h0 : bf w 7 3 = 5#3) : decodeVic w =
    .ok (.vsraB64 (bf w 30 2) (bf w 29 1) (bf w 28 1) (bf w 22 6) (bf w 16 6) (bf w 10 6)) := by unfold decodeVic; rw [h0]; rfl

theorem RoundTrip.vsraB64 (m b2 b1 vs2 vs1 vd) : RoundTrip.Statement (.vsraB64 m b2 b1 vs2 vs1 vd) := by
  intro _ c0 he
  have hw : width [⟨1, 1#1⟩, ⟨6, 2#6⟩, ⟨3, 5#3⟩, ⟨6, vd⟩, ⟨6, vs1⟩, ⟨6, vs2⟩, ⟨1, b1⟩, ⟨1, b2⟩, ⟨2, m⟩] ≤ 32 := Nat.le.refl
  have hb := fun lo n => bf_word _ lo n hw
  rw [show encode (.vsraB64 m b2 b1 vs2 vs1 vd) = _ from wide_word (l := [⟨1, 1#1⟩, ⟨6, 2#6⟩, ⟨3, 5#3⟩, ⟨6, vd⟩, ⟨6, vs1⟩, ⟨6, vs2⟩, ⟨1, b1⟩, ⟨1, b2⟩, ⟨2, m⟩]) (by simp only [value, BitVec.toNat_ofNat]; omega)] at he
  cases he
  rw [decode_wide, major_2 _ (hb 1 6)]
  refine (arm_vsraB64 _ (hb 7 3)).trans ?_
  simp only [hb]
  rfl

theorem arm_vminI64 (w : BitVec 32) (h0 : bf w 7 3 = 6#3) : decodeVic w =
    .ok (.vminI64 (bf w 30 2) (bf w 29 1) (bf w 28 1) (bf w 22 6) (bf w 16 6) (bf w 10 6)) := by unfold decodeVic; rw [h0]; rfl

theorem RoundTrip.vminI64 (m b2 b1 vs2 vs1 vd) : RoundTrip.Statement (.vminI64 m b2 b1 vs2 vs1 vd) := by
  intro _ c0 he
  have hw : width [⟨1, 1#1⟩, ⟨6, 2#6⟩, ⟨3, 6#3⟩, ⟨6, vd⟩, ⟨6, vs1⟩, ⟨6, vs2⟩, ⟨1, b1⟩, ⟨1, b2⟩, ⟨2, m⟩] ≤ 32 := Nat.le.refl
  have hb := fun lo n => bf_word _ lo n hw
  rw [show encode (.vminI64 m b2 b1 vs2 vs1 vd) = _ from wide_word (l := [⟨1, 1#1⟩, ⟨6, 2#6⟩, ⟨3, 6#3⟩, ⟨6, vd⟩, ⟨6, vs1⟩, ⟨6, vs2⟩, ⟨1, b1⟩, ⟨1, b2⟩, ⟨2, m⟩]) (by simp only [value, BitVec.toNat_ofNat]; omega)] at he
  cases he
  rw [decode_wide, major_2 _ (hb 1 6)]
  refine (arm_vminI64 _ (hb 7 3)).trans ?_
  simp only [hb]
  rfl

theorem arm_vmaxI64 (w : BitVec 32) (h0 : bf w 7 3 = 7#3) : decodeVic w =
    .ok (.vmaxI64 (bf w 30 2) (bf w 29 1) (bf w 28 1) (bf w 22 6) (bf w 16 6) (bf w 10 6)) := by unfold decodeVic; rw [h0]; rfl

theorem RoundTrip.vmaxI64 (m b2 b1 vs2 vs1 vd) : RoundTrip.Statement (.vmaxI64 m b2 b1 vs2 vs1 vd) := by
  intro _ c0 he
  have hw : width [⟨1, 1#1⟩, ⟨6, 2#6⟩, ⟨3, 7#3⟩, ⟨6, vd⟩, ⟨6, vs1⟩, ⟨6, vs2⟩, ⟨1, b1⟩, ⟨1, b2⟩, ⟨2, m⟩] ≤ 32 := Nat.le.refl
  have hb := fun lo n => bf_word _ lo n hw
  rw [show encode (.vmaxI64 m b2 b1 vs2 vs1 vd) = _ from wide_word (l := [⟨1, 1#1⟩, ⟨6, 2#6⟩, ⟨3, 7#3⟩, ⟨6, vd⟩, ⟨6, vs1⟩, ⟨6, vs2⟩, ⟨1, b1⟩, ⟨1, b2⟩, ⟨2, m⟩]) (by simp only [value, BitVec.toNat_ofNat]; omega)] at he
  cases he
  rw [decode_wide, major_2 _ (hb 1 6)]
  refine (arm_vmaxI64 _ (hb 7 3)).trans ?_
  simp only [hb]
  rfl

theorem arm_vandB64 (w : BitVec 32) (h0 : bf w 7 3 = 0#3) : decodeVid w =
    .ok (.vandB64 (bf w 30 2) (bf w 29 1) (bf w 28 1) (bf w 22 6) (bf w 16 6) (bf w 10 6)) := by unfold decodeVid; rw [h0]; rfl

theorem RoundTrip.vandB64 (m b2 b1 vs2 vs1 vd) : RoundTrip.Statement (.vandB64 m b2 b1 vs2 vs1 vd) := by
  intro _ c0 he
  have hw : width [⟨1, 1#1⟩, ⟨6, 3#6⟩, ⟨3, 0#3⟩, ⟨6, vd⟩, ⟨6, vs1⟩, ⟨6, vs2⟩, ⟨1, b1⟩, ⟨1, b2⟩, ⟨2, m⟩] ≤ 32 := Nat.le.refl
  have hb := fun lo n => bf_word _ lo n hw
  rw [show encode (.vandB64 m b2 b1 vs2 vs1 vd) = _ from wide_word (l := [⟨1, 1#1⟩, ⟨6, 3#6⟩, ⟨3, 0#3⟩, ⟨6, vd⟩, ⟨6, vs1⟩, ⟨6, vs2⟩, ⟨1, b1⟩, ⟨1, b2⟩, ⟨2, m⟩]) (by simp only [value, BitVec.toNat_ofNat]; omega)] at he
  cases he
  rw [decode_wide, major_3 _ (hb 1 6)]
  refine (arm_vandB64 _ (hb 7 3)).trans ?_
  simp only [hb]
  rfl

theorem arm_vorB64 (w : BitVec 32) (h0 : bf w 7 3 = 1#3) : decodeVid w =
    .ok (.vorB64 (bf w 30 2) (bf w 29 1) (bf w 28 1) (bf w 22 6) (bf w 16 6) (bf w 10 6)) := by unfold decodeVid; rw [h0]; rfl

theorem RoundTrip.vorB64 (m b2 b1 vs2 vs1 vd) : RoundTrip.Statement (.vorB64 m b2 b1 vs2 vs1 vd) := by
  intro _ c0 he
  have hw : width [⟨1, 1#1⟩, ⟨6, 3#6⟩, ⟨3, 1#3⟩, ⟨6, vd⟩, ⟨6, vs1⟩, ⟨6, vs2⟩, ⟨1, b1⟩, ⟨1, b2⟩, ⟨2, m⟩] ≤ 32 := Nat.le.refl
  have hb := fun lo n => bf_word _ lo n hw
  rw [show encode (.vorB64 m b2 b1 vs2 vs1 vd) = _ from wide_word (l := [⟨1, 1#1⟩, ⟨6, 3#6⟩, ⟨3, 1#3⟩, ⟨6, vd⟩, ⟨6, vs1⟩, ⟨6, vs2⟩, ⟨1, b1⟩, ⟨1, b2⟩, ⟨2, m⟩]) (by simp only [value, BitVec.toNat_ofNat]; omega)] at he
  cases he
  rw [decode_wide, major_3 _ (hb 1 6)]
  refine (arm_vorB64 _ (hb 7 3)).trans ?_
  simp only [hb]
  rfl

theorem arm_vxorB64 (w : BitVec 32) (h0 : bf w 7 3 = 2#3) : decodeVid w =
    .ok (.vxorB64 (bf w 30 2) (bf w 29 1) (bf w 28 1) (bf w 22 6) (bf w 16 6) (bf w 10 6)) := by unfold decodeVid; rw [h0]; rfl

theorem RoundTrip.vxorB64 (m b2 b1 vs2 vs1 vd) : RoundTrip.Statement (.vxorB64 m b2 b1 vs2 vs1 vd) := by
  intro _ c0 he
  have hw : width [⟨1, 1#1⟩, ⟨6, 3#6⟩, ⟨3, 2#3⟩, ⟨6, vd⟩, ⟨6, vs1⟩, ⟨6, vs2⟩, ⟨1, b1⟩, ⟨1, b2⟩, ⟨2, m⟩] ≤ 32 := Nat.le.refl
  have hb := fun lo n => bf_word _ lo n hw
  rw [show encode (.vxorB64 m b2 b1 vs2 vs1 vd) = _ from wide_word (l := [⟨1, 1#1⟩, ⟨6, 3#6⟩, ⟨3, 2#3⟩, ⟨6, vd⟩, ⟨6, vs1⟩, ⟨6, vs2⟩, ⟨1, b1⟩, ⟨1, b2⟩, ⟨2, m⟩]) (by simp only [value, BitVec.toNat_ofNat]; omega)] at he
  cases he
  rw [decode_wide, major_3 _ (hb 1 6)]
  refine (arm_vxorB64 _ (hb 7 3)).trans ?_
  simp only [hb]
  rfl

theorem arm_vminN64 (w : BitVec 32) (h0 : bf w 7 3 = 3#3) : decodeVid w =
    .ok (.vminN64 (bf w 30 2) (bf w 29 1) (bf w 28 1) (bf w 22 6) (bf w 16 6) (bf w 10 6)) := by unfold decodeVid; rw [h0]; rfl

theorem RoundTrip.vminN64 (m b2 b1 vs2 vs1 vd) : RoundTrip.Statement (.vminN64 m b2 b1 vs2 vs1 vd) := by
  intro _ c0 he
  have hw : width [⟨1, 1#1⟩, ⟨6, 3#6⟩, ⟨3, 3#3⟩, ⟨6, vd⟩, ⟨6, vs1⟩, ⟨6, vs2⟩, ⟨1, b1⟩, ⟨1, b2⟩, ⟨2, m⟩] ≤ 32 := Nat.le.refl
  have hb := fun lo n => bf_word _ lo n hw
  rw [show encode (.vminN64 m b2 b1 vs2 vs1 vd) = _ from wide_word (l := [⟨1, 1#1⟩, ⟨6, 3#6⟩, ⟨3, 3#3⟩, ⟨6, vd⟩, ⟨6, vs1⟩, ⟨6, vs2⟩, ⟨1, b1⟩, ⟨1, b2⟩, ⟨2, m⟩]) (by simp only [value, BitVec.toNat_ofNat]; omega)] at he
  cases he
  rw [decode_wide, major_3 _ (hb 1 6)]
  refine (arm_vminN64 _ (hb 7 3)).trans ?_
  simp only [hb]
  rfl

theorem arm_vmaxN64 (w : BitVec 32) (h0 : bf w 7 3 = 4#3) : decodeVid w =
    .ok (.vmaxN64 (bf w 30 2) (bf w 29 1) (bf w 28 1) (bf w 22 6) (bf w 16 6) (bf w 10 6)) := by unfold decodeVid; rw [h0]; rfl

theorem RoundTrip.vmaxN64 (m b2 b1 vs2 vs1 vd) : RoundTrip.Statement (.vmaxN64 m b2 b1 vs2 vs1 vd) := by
  intro _ c0 he
  have hw : width [⟨1, 1#1⟩, ⟨6, 3#6⟩, ⟨3, 4#3⟩, ⟨6, vd⟩, ⟨6, vs1⟩, ⟨6, vs2⟩, ⟨1, b1⟩, ⟨1, b2⟩, ⟨2, m⟩] ≤ 32 := Nat.le.refl
  have hb := fun lo n => bf_word _ lo n hw
  rw [show encode (.vmaxN64 m b2 b1 vs2 vs1 vd) = _ from wide_word (l := [⟨1, 1#1⟩, ⟨6, 3#6⟩, ⟨3, 4#3⟩, ⟨6, vd⟩, ⟨6, vs1⟩, ⟨6, vs2⟩, ⟨1, b1⟩, ⟨1, b2⟩, ⟨2, m⟩]) (by simp only [value, BitVec.toNat_ofNat]; omega)] at he
  cases he
  rw [decode_wide, major_3 _ (hb 1 6)]
  refine (arm_vmaxN64 _ (hb 7 3)).trans ?_
  simp only [hb]
  rfl

theorem arm_vmulhiI64 (w : BitVec 32) (h0 : bf w 7 3 = 5#3) : decodeVid w =
    .ok (.vmulhiI64 (bf w 30 2) (bf w 29 1) (bf w 28 1) (bf w 22 6) (bf w 16 6) (bf w 10 6)) := by unfold decodeVid; rw [h0]; rfl

theorem RoundTrip.vmulhiI64 (m b2 b1 vs2 vs1 vd) : RoundTrip.Statement (.vmulhiI64 m b2 b1 vs2 vs1 vd) := by
  intro _ c0 he
  have hw : width [⟨1, 1#1⟩, ⟨6, 3#6⟩, ⟨3, 5#3⟩, ⟨6, vd⟩, ⟨6, vs1⟩, ⟨6, vs2⟩, ⟨1, b1⟩, ⟨1, b2⟩, ⟨2, m⟩] ≤ 32 := Nat.le.refl
  have hb := fun lo n => bf_word _ lo n hw
  rw [show encode (.vmulhiI64 m b2 b1 vs2 vs1 vd) = _ from wide_word (l := [⟨1, 1#1⟩, ⟨6, 3#6⟩, ⟨3, 5#3⟩, ⟨6, vd⟩, ⟨6, vs1⟩, ⟨6, vs2⟩, ⟨1, b1⟩, ⟨1, b2⟩, ⟨2, m⟩]) (by simp only [value, BitVec.toNat_ofNat]; omega)] at he
  cases he
  rw [decode_wide, major_3 _ (hb 1 6)]
  refine (arm_vmulhiI64 _ (hb 7 3)).trans ?_
  simp only [hb]
  rfl

theorem arm_vmulhiN64 (w : BitVec 32) (h0 : bf w 7 3 = 6#3) : decodeVid w =
    .ok (.vmulhiN64 (bf w 30 2) (bf w 29 1) (bf w 28 1) (bf w 22 6) (bf w 16 6) (bf w 10 6)) := by unfold decodeVid; rw [h0]; rfl

theorem RoundTrip.vmulhiN64 (m b2 b1 vs2 vs1 vd) : RoundTrip.Statement (.vmulhiN64 m b2 b1 vs2 vs1 vd) := by
  intro _ c0 he
  have hw : width [⟨1, 1#1⟩, ⟨6, 3#6⟩, ⟨3, 6#3⟩, ⟨6, vd⟩, ⟨6, vs1⟩, ⟨6, vs2⟩, ⟨1, b1⟩, ⟨1, b2⟩, ⟨2, m⟩] ≤ 32 := Nat.le.refl
  have hb := fun lo n => bf_word _ lo n hw
  rw [show encode (.vmulhiN64 m b2 b1 vs2 vs1 vd) = _ from wide_word (l := [⟨1, 1#1⟩, ⟨6, 3#6⟩, ⟨3, 6#3⟩, ⟨6, vd⟩, ⟨6, vs1⟩, ⟨6, vs2⟩, ⟨1, b1⟩, ⟨1, b2⟩, ⟨2, m⟩]) (by simp only [value, BitVec.toNat_ofNat]; omega)] at he
  cases he
  rw [decode_wide, major_3 _ (hb 1 6)]
  refine (arm_vmulhiN64 _ (hb 7 3)).trans ?_
  simp only [hb]
  rfl

theorem arm_vnot (w : BitVec 32) (h0 : bf w 7 3 = 0#3) : decodeVun w =
    must [(22, 6), (29, 1)] w (.vnot (bf w 30 2) (bf w 28 1) (bf w 16 6) (bf w 10 6)) := by unfold decodeVun; rw [h0]; rfl

theorem RoundTrip.vnot (m b1 vs1 vd) : RoundTrip.Statement (.vnot m b1 vs1 vd) := by
  intro _ c0 he
  have hw : width [⟨1, 1#1⟩, ⟨6, 4#6⟩, ⟨3, 0#3⟩, ⟨6, vd⟩, ⟨6, vs1⟩, ⟨6, 0#6⟩, ⟨1, b1⟩, ⟨1, 0#1⟩, ⟨2, m⟩] ≤ 32 := Nat.le.refl
  have hb := fun lo n => bf_word _ lo n hw
  rw [show encode (.vnot m b1 vs1 vd) = _ from wide_word (l := [⟨1, 1#1⟩, ⟨6, 4#6⟩, ⟨3, 0#3⟩, ⟨6, vd⟩, ⟨6, vs1⟩, ⟨6, 0#6⟩, ⟨1, b1⟩, ⟨1, 0#1⟩, ⟨2, m⟩]) (by simp only [value, BitVec.toNat_ofNat]; omega)] at he
  cases he
  rw [decode_wide, major_4 _ (hb 1 6)]
  refine (arm_vnot _ (hb 7 3)).trans ?_
  refine (must_word _ _ _ hw rfl).trans ?_
  simp only [hb]
  rfl

theorem arm_vnegI32 (w : BitVec 32) (h0 : bf w 7 3 = 1#3) : decodeVun w =
    must [(22, 6), (29, 1)] w (.vnegI32 (bf w 30 2) (bf w 28 1) (bf w 16 6) (bf w 10 6)) := by unfold decodeVun; rw [h0]; rfl

theorem RoundTrip.vnegI32 (m b1 vs1 vd) : RoundTrip.Statement (.vnegI32 m b1 vs1 vd) := by
  intro _ c0 he
  have hw : width [⟨1, 1#1⟩, ⟨6, 4#6⟩, ⟨3, 1#3⟩, ⟨6, vd⟩, ⟨6, vs1⟩, ⟨6, 0#6⟩, ⟨1, b1⟩, ⟨1, 0#1⟩, ⟨2, m⟩] ≤ 32 := Nat.le.refl
  have hb := fun lo n => bf_word _ lo n hw
  rw [show encode (.vnegI32 m b1 vs1 vd) = _ from wide_word (l := [⟨1, 1#1⟩, ⟨6, 4#6⟩, ⟨3, 1#3⟩, ⟨6, vd⟩, ⟨6, vs1⟩, ⟨6, 0#6⟩, ⟨1, b1⟩, ⟨1, 0#1⟩, ⟨2, m⟩]) (by simp only [value, BitVec.toNat_ofNat]; omega)] at he
  cases he
  rw [decode_wide, major_4 _ (hb 1 6)]
  refine (arm_vnegI32 _ (hb 7 3)).trans ?_
  refine (must_word _ _ _ hw rfl).trans ?_
  simp only [hb]
  rfl

theorem arm_vabsI32 (w : BitVec 32) (h0 : bf w 7 3 = 2#3) : decodeVun w =
    must [(22, 6), (29, 1)] w (.vabsI32 (bf w 30 2) (bf w 28 1) (bf w 16 6) (bf w 10 6)) := by unfold decodeVun; rw [h0]; rfl

theorem RoundTrip.vabsI32 (m b1 vs1 vd) : RoundTrip.Statement (.vabsI32 m b1 vs1 vd) := by
  intro _ c0 he
  have hw : width [⟨1, 1#1⟩, ⟨6, 4#6⟩, ⟨3, 2#3⟩, ⟨6, vd⟩, ⟨6, vs1⟩, ⟨6, 0#6⟩, ⟨1, b1⟩, ⟨1, 0#1⟩, ⟨2, m⟩] ≤ 32 := Nat.le.refl
  have hb := fun lo n => bf_word _ lo n hw
  rw [show encode (.vabsI32 m b1 vs1 vd) = _ from wide_word (l := [⟨1, 1#1⟩, ⟨6, 4#6⟩, ⟨3, 2#3⟩, ⟨6, vd⟩, ⟨6, vs1⟩, ⟨6, 0#6⟩, ⟨1, b1⟩, ⟨1, 0#1⟩, ⟨2, m⟩]) (by simp only [value, BitVec.toNat_ofNat]; omega)] at he
  cases he
  rw [decode_wide, major_4 _ (hb 1 6)]
  refine (arm_vabsI32 _ (hb 7 3)).trans ?_
  refine (must_word _ _ _ hw rfl).trans ?_
  simp only [hb]
  rfl

theorem arm_vpopc (w : BitVec 32) (h0 : bf w 7 3 = 3#3) : decodeVun w =
    must [(22, 6), (29, 1)] w (.vpopc (bf w 30 2) (bf w 28 1) (bf w 16 6) (bf w 10 6)) := by unfold decodeVun; rw [h0]; rfl

theorem RoundTrip.vpopc (m b1 vs1 vd) : RoundTrip.Statement (.vpopc m b1 vs1 vd) := by
  intro _ c0 he
  have hw : width [⟨1, 1#1⟩, ⟨6, 4#6⟩, ⟨3, 3#3⟩, ⟨6, vd⟩, ⟨6, vs1⟩, ⟨6, 0#6⟩, ⟨1, b1⟩, ⟨1, 0#1⟩, ⟨2, m⟩] ≤ 32 := Nat.le.refl
  have hb := fun lo n => bf_word _ lo n hw
  rw [show encode (.vpopc m b1 vs1 vd) = _ from wide_word (l := [⟨1, 1#1⟩, ⟨6, 4#6⟩, ⟨3, 3#3⟩, ⟨6, vd⟩, ⟨6, vs1⟩, ⟨6, 0#6⟩, ⟨1, b1⟩, ⟨1, 0#1⟩, ⟨2, m⟩]) (by simp only [value, BitVec.toNat_ofNat]; omega)] at he
  cases he
  rw [decode_wide, major_4 _ (hb 1 6)]
  refine (arm_vpopc _ (hb 7 3)).trans ?_
  refine (must_word _ _ _ hw rfl).trans ?_
  simp only [hb]
  rfl

theorem arm_vclz (w : BitVec 32) (h0 : bf w 7 3 = 4#3) : decodeVun w =
    must [(22, 6), (29, 1)] w (.vclz (bf w 30 2) (bf w 28 1) (bf w 16 6) (bf w 10 6)) := by unfold decodeVun; rw [h0]; rfl

theorem RoundTrip.vclz (m b1 vs1 vd) : RoundTrip.Statement (.vclz m b1 vs1 vd) := by
  intro _ c0 he
  have hw : width [⟨1, 1#1⟩, ⟨6, 4#6⟩, ⟨3, 4#3⟩, ⟨6, vd⟩, ⟨6, vs1⟩, ⟨6, 0#6⟩, ⟨1, b1⟩, ⟨1, 0#1⟩, ⟨2, m⟩] ≤ 32 := Nat.le.refl
  have hb := fun lo n => bf_word _ lo n hw
  rw [show encode (.vclz m b1 vs1 vd) = _ from wide_word (l := [⟨1, 1#1⟩, ⟨6, 4#6⟩, ⟨3, 4#3⟩, ⟨6, vd⟩, ⟨6, vs1⟩, ⟨6, 0#6⟩, ⟨1, b1⟩, ⟨1, 0#1⟩, ⟨2, m⟩]) (by simp only [value, BitVec.toNat_ofNat]; omega)] at he
  cases he
  rw [decode_wide, major_4 _ (hb 1 6)]
  refine (arm_vclz _ (hb 7 3)).trans ?_
  refine (must_word _ _ _ hw rfl).trans ?_
  simp only [hb]
  rfl

theorem arm_vbrev (w : BitVec 32) (h0 : bf w 7 3 = 5#3) : decodeVun w =
    must [(22, 6), (29, 1)] w (.vbrev (bf w 30 2) (bf w 28 1) (bf w 16 6) (bf w 10 6)) := by unfold decodeVun; rw [h0]; rfl

theorem RoundTrip.vbrev (m b1 vs1 vd) : RoundTrip.Statement (.vbrev m b1 vs1 vd) := by
  intro _ c0 he
  have hw : width [⟨1, 1#1⟩, ⟨6, 4#6⟩, ⟨3, 5#3⟩, ⟨6, vd⟩, ⟨6, vs1⟩, ⟨6, 0#6⟩, ⟨1, b1⟩, ⟨1, 0#1⟩, ⟨2, m⟩] ≤ 32 := Nat.le.refl
  have hb := fun lo n => bf_word _ lo n hw
  rw [show encode (.vbrev m b1 vs1 vd) = _ from wide_word (l := [⟨1, 1#1⟩, ⟨6, 4#6⟩, ⟨3, 5#3⟩, ⟨6, vd⟩, ⟨6, vs1⟩, ⟨6, 0#6⟩, ⟨1, b1⟩, ⟨1, 0#1⟩, ⟨2, m⟩]) (by simp only [value, BitVec.toNat_ofNat]; omega)] at he
  cases he
  rw [decode_wide, major_4 _ (hb 1 6)]
  refine (arm_vbrev _ (hb 7 3)).trans ?_
  refine (must_word _ _ _ hw rfl).trans ?_
  simp only [hb]
  rfl

theorem arm_vnegI64 (w : BitVec 32) (h0 : bf w 7 3 = 6#3) : decodeVun w =
    must [(22, 6), (29, 1)] w (.vnegI64 (bf w 30 2) (bf w 28 1) (bf w 16 6) (bf w 10 6)) := by unfold decodeVun; rw [h0]; rfl

theorem RoundTrip.vnegI64 (m b1 vs1 vd) : RoundTrip.Statement (.vnegI64 m b1 vs1 vd) := by
  intro _ c0 he
  have hw : width [⟨1, 1#1⟩, ⟨6, 4#6⟩, ⟨3, 6#3⟩, ⟨6, vd⟩, ⟨6, vs1⟩, ⟨6, 0#6⟩, ⟨1, b1⟩, ⟨1, 0#1⟩, ⟨2, m⟩] ≤ 32 := Nat.le.refl
  have hb := fun lo n => bf_word _ lo n hw
  rw [show encode (.vnegI64 m b1 vs1 vd) = _ from wide_word (l := [⟨1, 1#1⟩, ⟨6, 4#6⟩, ⟨3, 6#3⟩, ⟨6, vd⟩, ⟨6, vs1⟩, ⟨6, 0#6⟩, ⟨1, b1⟩, ⟨1, 0#1⟩, ⟨2, m⟩]) (by simp only [value, BitVec.toNat_ofNat]; omega)] at he
  cases he
  rw [decode_wide, major_4 _ (hb 1 6)]
  refine (arm_vnegI64 _ (hb 7 3)).trans ?_
  refine (must_word _ _ _ hw rfl).trans ?_
  simp only [hb]
  rfl

theorem arm_vabsI64 (w : BitVec 32) (h0 : bf w 7 3 = 7#3) : decodeVun w =
    must [(22, 6), (29, 1)] w (.vabsI64 (bf w 30 2) (bf w 28 1) (bf w 16 6) (bf w 10 6)) := by unfold decodeVun; rw [h0]; rfl

theorem RoundTrip.vabsI64 (m b1 vs1 vd) : RoundTrip.Statement (.vabsI64 m b1 vs1 vd) := by
  intro _ c0 he
  have hw : width [⟨1, 1#1⟩, ⟨6, 4#6⟩, ⟨3, 7#3⟩, ⟨6, vd⟩, ⟨6, vs1⟩, ⟨6, 0#6⟩, ⟨1, b1⟩, ⟨1, 0#1⟩, ⟨2, m⟩] ≤ 32 := Nat.le.refl
  have hb := fun lo n => bf_word _ lo n hw
  rw [show encode (.vabsI64 m b1 vs1 vd) = _ from wide_word (l := [⟨1, 1#1⟩, ⟨6, 4#6⟩, ⟨3, 7#3⟩, ⟨6, vd⟩, ⟨6, vs1⟩, ⟨6, 0#6⟩, ⟨1, b1⟩, ⟨1, 0#1⟩, ⟨2, m⟩]) (by simp only [value, BitVec.toNat_ofNat]; omega)] at he
  cases he
  rw [decode_wide, major_4 _ (hb 1 6)]
  refine (arm_vabsI64 _ (hb 7 3)).trans ?_
  refine (must_word _ _ _ hw rfl).trans ?_
  simp only [hb]
  rfl

theorem arm_vaddSatI32 (w : BitVec 32) (h0 : bf w 7 3 = 0#3) : decodeVsat w =
    .ok (.vaddSatI32 (bf w 30 2) (bf w 29 1) (bf w 28 1) (bf w 22 6) (bf w 16 6) (bf w 10 6)) := by unfold decodeVsat; rw [h0]; rfl

theorem RoundTrip.vaddSatI32 (m b2 b1 vs2 vs1 vd) : RoundTrip.Statement (.vaddSatI32 m b2 b1 vs2 vs1 vd) := by
  intro _ c0 he
  have hw : width [⟨1, 1#1⟩, ⟨6, 5#6⟩, ⟨3, 0#3⟩, ⟨6, vd⟩, ⟨6, vs1⟩, ⟨6, vs2⟩, ⟨1, b1⟩, ⟨1, b2⟩, ⟨2, m⟩] ≤ 32 := Nat.le.refl
  have hb := fun lo n => bf_word _ lo n hw
  rw [show encode (.vaddSatI32 m b2 b1 vs2 vs1 vd) = _ from wide_word (l := [⟨1, 1#1⟩, ⟨6, 5#6⟩, ⟨3, 0#3⟩, ⟨6, vd⟩, ⟨6, vs1⟩, ⟨6, vs2⟩, ⟨1, b1⟩, ⟨1, b2⟩, ⟨2, m⟩]) (by simp only [value, BitVec.toNat_ofNat]; omega)] at he
  cases he
  rw [decode_wide, major_5 _ (hb 1 6)]
  refine (arm_vaddSatI32 _ (hb 7 3)).trans ?_
  simp only [hb]
  rfl

theorem arm_vsubSatI32 (w : BitVec 32) (h0 : bf w 7 3 = 1#3) : decodeVsat w =
    .ok (.vsubSatI32 (bf w 30 2) (bf w 29 1) (bf w 28 1) (bf w 22 6) (bf w 16 6) (bf w 10 6)) := by unfold decodeVsat; rw [h0]; rfl

theorem RoundTrip.vsubSatI32 (m b2 b1 vs2 vs1 vd) : RoundTrip.Statement (.vsubSatI32 m b2 b1 vs2 vs1 vd) := by
  intro _ c0 he
  have hw : width [⟨1, 1#1⟩, ⟨6, 5#6⟩, ⟨3, 1#3⟩, ⟨6, vd⟩, ⟨6, vs1⟩, ⟨6, vs2⟩, ⟨1, b1⟩, ⟨1, b2⟩, ⟨2, m⟩] ≤ 32 := Nat.le.refl
  have hb := fun lo n => bf_word _ lo n hw
  rw [show encode (.vsubSatI32 m b2 b1 vs2 vs1 vd) = _ from wide_word (l := [⟨1, 1#1⟩, ⟨6, 5#6⟩, ⟨3, 1#3⟩, ⟨6, vd⟩, ⟨6, vs1⟩, ⟨6, vs2⟩, ⟨1, b1⟩, ⟨1, b2⟩, ⟨2, m⟩]) (by simp only [value, BitVec.toNat_ofNat]; omega)] at he
  cases he
  rw [decode_wide, major_5 _ (hb 1 6)]
  refine (arm_vsubSatI32 _ (hb 7 3)).trans ?_
  simp only [hb]
  rfl

theorem arm_vaddSatN32 (w : BitVec 32) (h0 : bf w 7 3 = 2#3) : decodeVsat w =
    .ok (.vaddSatN32 (bf w 30 2) (bf w 29 1) (bf w 28 1) (bf w 22 6) (bf w 16 6) (bf w 10 6)) := by unfold decodeVsat; rw [h0]; rfl

theorem RoundTrip.vaddSatN32 (m b2 b1 vs2 vs1 vd) : RoundTrip.Statement (.vaddSatN32 m b2 b1 vs2 vs1 vd) := by
  intro _ c0 he
  have hw : width [⟨1, 1#1⟩, ⟨6, 5#6⟩, ⟨3, 2#3⟩, ⟨6, vd⟩, ⟨6, vs1⟩, ⟨6, vs2⟩, ⟨1, b1⟩, ⟨1, b2⟩, ⟨2, m⟩] ≤ 32 := Nat.le.refl
  have hb := fun lo n => bf_word _ lo n hw
  rw [show encode (.vaddSatN32 m b2 b1 vs2 vs1 vd) = _ from wide_word (l := [⟨1, 1#1⟩, ⟨6, 5#6⟩, ⟨3, 2#3⟩, ⟨6, vd⟩, ⟨6, vs1⟩, ⟨6, vs2⟩, ⟨1, b1⟩, ⟨1, b2⟩, ⟨2, m⟩]) (by simp only [value, BitVec.toNat_ofNat]; omega)] at he
  cases he
  rw [decode_wide, major_5 _ (hb 1 6)]
  refine (arm_vaddSatN32 _ (hb 7 3)).trans ?_
  simp only [hb]
  rfl

theorem arm_vsubSatN32 (w : BitVec 32) (h0 : bf w 7 3 = 3#3) : decodeVsat w =
    .ok (.vsubSatN32 (bf w 30 2) (bf w 29 1) (bf w 28 1) (bf w 22 6) (bf w 16 6) (bf w 10 6)) := by unfold decodeVsat; rw [h0]; rfl

theorem RoundTrip.vsubSatN32 (m b2 b1 vs2 vs1 vd) : RoundTrip.Statement (.vsubSatN32 m b2 b1 vs2 vs1 vd) := by
  intro _ c0 he
  have hw : width [⟨1, 1#1⟩, ⟨6, 5#6⟩, ⟨3, 3#3⟩, ⟨6, vd⟩, ⟨6, vs1⟩, ⟨6, vs2⟩, ⟨1, b1⟩, ⟨1, b2⟩, ⟨2, m⟩] ≤ 32 := Nat.le.refl
  have hb := fun lo n => bf_word _ lo n hw
  rw [show encode (.vsubSatN32 m b2 b1 vs2 vs1 vd) = _ from wide_word (l := [⟨1, 1#1⟩, ⟨6, 5#6⟩, ⟨3, 3#3⟩, ⟨6, vd⟩, ⟨6, vs1⟩, ⟨6, vs2⟩, ⟨1, b1⟩, ⟨1, b2⟩, ⟨2, m⟩]) (by simp only [value, BitVec.toNat_ofNat]; omega)] at he
  cases he
  rw [decode_wide, major_5 _ (hb 1 6)]
  refine (arm_vsubSatN32 _ (hb 7 3)).trans ?_
  simp only [hb]
  rfl

theorem arm_vaddSatI64 (w : BitVec 32) (h0 : bf w 7 3 = 4#3) : decodeVsat w =
    .ok (.vaddSatI64 (bf w 30 2) (bf w 29 1) (bf w 28 1) (bf w 22 6) (bf w 16 6) (bf w 10 6)) := by unfold decodeVsat; rw [h0]; rfl

theorem RoundTrip.vaddSatI64 (m b2 b1 vs2 vs1 vd) : RoundTrip.Statement (.vaddSatI64 m b2 b1 vs2 vs1 vd) := by
  intro _ c0 he
  have hw : width [⟨1, 1#1⟩, ⟨6, 5#6⟩, ⟨3, 4#3⟩, ⟨6, vd⟩, ⟨6, vs1⟩, ⟨6, vs2⟩, ⟨1, b1⟩, ⟨1, b2⟩, ⟨2, m⟩] ≤ 32 := Nat.le.refl
  have hb := fun lo n => bf_word _ lo n hw
  rw [show encode (.vaddSatI64 m b2 b1 vs2 vs1 vd) = _ from wide_word (l := [⟨1, 1#1⟩, ⟨6, 5#6⟩, ⟨3, 4#3⟩, ⟨6, vd⟩, ⟨6, vs1⟩, ⟨6, vs2⟩, ⟨1, b1⟩, ⟨1, b2⟩, ⟨2, m⟩]) (by simp only [value, BitVec.toNat_ofNat]; omega)] at he
  cases he
  rw [decode_wide, major_5 _ (hb 1 6)]
  refine (arm_vaddSatI64 _ (hb 7 3)).trans ?_
  simp only [hb]
  rfl

theorem arm_vsubSatI64 (w : BitVec 32) (h0 : bf w 7 3 = 5#3) : decodeVsat w =
    .ok (.vsubSatI64 (bf w 30 2) (bf w 29 1) (bf w 28 1) (bf w 22 6) (bf w 16 6) (bf w 10 6)) := by unfold decodeVsat; rw [h0]; rfl

theorem RoundTrip.vsubSatI64 (m b2 b1 vs2 vs1 vd) : RoundTrip.Statement (.vsubSatI64 m b2 b1 vs2 vs1 vd) := by
  intro _ c0 he
  have hw : width [⟨1, 1#1⟩, ⟨6, 5#6⟩, ⟨3, 5#3⟩, ⟨6, vd⟩, ⟨6, vs1⟩, ⟨6, vs2⟩, ⟨1, b1⟩, ⟨1, b2⟩, ⟨2, m⟩] ≤ 32 := Nat.le.refl
  have hb := fun lo n => bf_word _ lo n hw
  rw [show encode (.vsubSatI64 m b2 b1 vs2 vs1 vd) = _ from wide_word (l := [⟨1, 1#1⟩, ⟨6, 5#6⟩, ⟨3, 5#3⟩, ⟨6, vd⟩, ⟨6, vs1⟩, ⟨6, vs2⟩, ⟨1, b1⟩, ⟨1, b2⟩, ⟨2, m⟩]) (by simp only [value, BitVec.toNat_ofNat]; omega)] at he
  cases he
  rw [decode_wide, major_5 _ (hb 1 6)]
  refine (arm_vsubSatI64 _ (hb 7 3)).trans ?_
  simp only [hb]
  rfl

theorem arm_vaddSatN64 (w : BitVec 32) (h0 : bf w 7 3 = 6#3) : decodeVsat w =
    .ok (.vaddSatN64 (bf w 30 2) (bf w 29 1) (bf w 28 1) (bf w 22 6) (bf w 16 6) (bf w 10 6)) := by unfold decodeVsat; rw [h0]; rfl

theorem RoundTrip.vaddSatN64 (m b2 b1 vs2 vs1 vd) : RoundTrip.Statement (.vaddSatN64 m b2 b1 vs2 vs1 vd) := by
  intro _ c0 he
  have hw : width [⟨1, 1#1⟩, ⟨6, 5#6⟩, ⟨3, 6#3⟩, ⟨6, vd⟩, ⟨6, vs1⟩, ⟨6, vs2⟩, ⟨1, b1⟩, ⟨1, b2⟩, ⟨2, m⟩] ≤ 32 := Nat.le.refl
  have hb := fun lo n => bf_word _ lo n hw
  rw [show encode (.vaddSatN64 m b2 b1 vs2 vs1 vd) = _ from wide_word (l := [⟨1, 1#1⟩, ⟨6, 5#6⟩, ⟨3, 6#3⟩, ⟨6, vd⟩, ⟨6, vs1⟩, ⟨6, vs2⟩, ⟨1, b1⟩, ⟨1, b2⟩, ⟨2, m⟩]) (by simp only [value, BitVec.toNat_ofNat]; omega)] at he
  cases he
  rw [decode_wide, major_5 _ (hb 1 6)]
  refine (arm_vaddSatN64 _ (hb 7 3)).trans ?_
  simp only [hb]
  rfl

theorem arm_vsubSatN64 (w : BitVec 32) (h0 : bf w 7 3 = 7#3) : decodeVsat w =
    .ok (.vsubSatN64 (bf w 30 2) (bf w 29 1) (bf w 28 1) (bf w 22 6) (bf w 16 6) (bf w 10 6)) := by unfold decodeVsat; rw [h0]; rfl

theorem RoundTrip.vsubSatN64 (m b2 b1 vs2 vs1 vd) : RoundTrip.Statement (.vsubSatN64 m b2 b1 vs2 vs1 vd) := by
  intro _ c0 he
  have hw : width [⟨1, 1#1⟩, ⟨6, 5#6⟩, ⟨3, 7#3⟩, ⟨6, vd⟩, ⟨6, vs1⟩, ⟨6, vs2⟩, ⟨1, b1⟩, ⟨1, b2⟩, ⟨2, m⟩] ≤ 32 := Nat.le.refl
  have hb := fun lo n => bf_word _ lo n hw
  rw [show encode (.vsubSatN64 m b2 b1 vs2 vs1 vd) = _ from wide_word (l := [⟨1, 1#1⟩, ⟨6, 5#6⟩, ⟨3, 7#3⟩, ⟨6, vd⟩, ⟨6, vs1⟩, ⟨6, vs2⟩, ⟨1, b1⟩, ⟨1, b2⟩, ⟨2, m⟩]) (by simp only [value, BitVec.toNat_ofNat]; omega)] at he
  cases he
  rw [decode_wide, major_5 _ (hb 1 6)]
  refine (arm_vsubSatN64 _ (hb 7 3)).trans ?_
  simp only [hb]
  rfl

theorem RoundTrip.vsel (m b2 b1 vs2 vs1 vd mk) : RoundTrip.Statement (.vsel m b2 b1 vs2 vs1 vd mk) := by
  intro _ c0 he
  have hw : width [⟨1, 1#1⟩, ⟨6, 6#6⟩, ⟨3, mk⟩, ⟨6, vd⟩, ⟨6, vs1⟩, ⟨6, vs2⟩, ⟨1, b1⟩, ⟨1, b2⟩, ⟨2, m⟩] ≤ 32 := Nat.le.refl
  have hb := fun lo n => bf_word _ lo n hw
  rw [show encode (.vsel m b2 b1 vs2 vs1 vd mk) = _ from wide_word (l := [⟨1, 1#1⟩, ⟨6, 6#6⟩, ⟨3, mk⟩, ⟨6, vd⟩, ⟨6, vs1⟩, ⟨6, vs2⟩, ⟨1, b1⟩, ⟨1, b2⟩, ⟨2, m⟩]) (by simp only [value, BitVec.toNat_ofNat]; omega)] at he
  cases he
  rw [decode_wide, major_6 _ (hb 1 6)]
  unfold decodeVsel
  simp only [hb]
  rfl

theorem arm_vtix (w : BitVec 32) (h0 : bf w 7 3 = 0#3) : decodeVmisc w =
    must [(16, 14)] w (.vtix (bf w 30 2) (bf w 10 6)) := by unfold decodeVmisc; rw [h0]; rfl

theorem RoundTrip.vtix (m vd) : RoundTrip.Statement (.vtix m vd) := by
  intro _ c0 he
  have hw : width [⟨1, 1#1⟩, ⟨6, 7#6⟩, ⟨3, 0#3⟩, ⟨6, vd⟩, ⟨14, 0#14⟩, ⟨2, m⟩] ≤ 32 := Nat.le.refl
  have hb := fun lo n => bf_word _ lo n hw
  rw [show encode (.vtix m vd) = _ from wide_word (l := [⟨1, 1#1⟩, ⟨6, 7#6⟩, ⟨3, 0#3⟩, ⟨6, vd⟩, ⟨14, 0#14⟩, ⟨2, m⟩]) (by simp only [value, BitVec.toNat_ofNat]; omega)] at he
  cases he
  rw [decode_wide, major_7 _ (hb 1 6)]
  refine (arm_vtix _ (hb 7 3)).trans ?_
  refine (must_word _ _ _ hw rfl).trans ?_
  simp only [hb]
  rfl

theorem arm_vshape (w : BitVec 32) (h0 : bf w 7 3 = 1#3) : decodeVmisc w =
    must [(22, 10)] w (.vshape (bf w 16 6) (bf w 10 6)) := by unfold decodeVmisc; rw [h0]; rfl

theorem RoundTrip.vshape (vs1 sd) : RoundTrip.Statement (.vshape vs1 sd) := by
  intro _ c0 he
  have hw : width [⟨1, 1#1⟩, ⟨6, 7#6⟩, ⟨3, 1#3⟩, ⟨6, sd⟩, ⟨6, vs1⟩, ⟨10, 0#10⟩] ≤ 32 := Nat.le.refl
  have hb := fun lo n => bf_word _ lo n hw
  rw [show encode (.vshape vs1 sd) = _ from wide_word (l := [⟨1, 1#1⟩, ⟨6, 7#6⟩, ⟨3, 1#3⟩, ⟨6, sd⟩, ⟨6, vs1⟩, ⟨10, 0#10⟩]) (by simp only [value, BitVec.toNat_ofNat]; omega)] at he
  cases he
  rw [decode_wide, major_7 _ (hb 1 6)]
  refine (arm_vshape _ (hb 7 3)).trans ?_
  refine (must_word _ _ _ hw rfl).trans ?_
  simp only [hb]
  rfl

theorem arm_vrdx (w : BitVec 32) (h0 : bf w 7 3 = 2#3) : decodeVmisc w =
    must [(22, 8)] w (.vrdx (bf w 30 2) (bf w 16 6) (bf w 10 6)) := by unfold decodeVmisc; rw [h0]; rfl

theorem RoundTrip.vrdx (m ss vd) : RoundTrip.Statement (.vrdx m ss vd) := by
  intro _ c0 he
  have hw : width [⟨1, 1#1⟩, ⟨6, 7#6⟩, ⟨3, 2#3⟩, ⟨6, vd⟩, ⟨6, ss⟩, ⟨8, 0#8⟩, ⟨2, m⟩] ≤ 32 := Nat.le.refl
  have hb := fun lo n => bf_word _ lo n hw
  rw [show encode (.vrdx m ss vd) = _ from wide_word (l := [⟨1, 1#1⟩, ⟨6, 7#6⟩, ⟨3, 2#3⟩, ⟨6, vd⟩, ⟨6, ss⟩, ⟨8, 0#8⟩, ⟨2, m⟩]) (by simp only [value, BitVec.toNat_ofNat]; omega)] at he
  cases he
  rw [decode_wide, major_7 _ (hb 1 6)]
  refine (arm_vrdx _ (hb 7 3)).trans ?_
  refine (must_word _ _ _ hw rfl).trans ?_
  simp only [hb]
  rfl

theorem arm_vwrx (w : BitVec 32) (h0 : bf w 7 3 = 3#3) : decodeVmisc w =
    must [(10, 6), (28, 1)] w (.vwrx (bf w 30 2) (bf w 29 1) (bf w 22 6) (bf w 16 6)) := by unfold decodeVmisc; rw [h0]; rfl

theorem RoundTrip.vwrx (m b2 vs2 ss) : RoundTrip.Statement (.vwrx m b2 vs2 ss) := by
  intro _ c0 he
  have hw : width [⟨1, 1#1⟩, ⟨6, 7#6⟩, ⟨3, 3#3⟩, ⟨6, 0#6⟩, ⟨6, ss⟩, ⟨6, vs2⟩, ⟨1, 0#1⟩, ⟨1, b2⟩, ⟨2, m⟩] ≤ 32 := Nat.le.refl
  have hb := fun lo n => bf_word _ lo n hw
  rw [show encode (.vwrx m b2 vs2 ss) = _ from wide_word (l := [⟨1, 1#1⟩, ⟨6, 7#6⟩, ⟨3, 3#3⟩, ⟨6, 0#6⟩, ⟨6, ss⟩, ⟨6, vs2⟩, ⟨1, 0#1⟩, ⟨1, b2⟩, ⟨2, m⟩]) (by simp only [value, BitVec.toNat_ofNat]; omega)] at he
  cases he
  rw [decode_wide, major_7 _ (hb 1 6)]
  refine (arm_vwrx _ (hb 7 3)).trans ?_
  refine (must_word _ _ _ hw rfl).trans ?_
  simp only [hb]
  rfl

theorem arm_vfaddF32 (w : BitVec 32) (h0 : bf w 7 1 = 0#1) : decodeVfa32 w =
    .ok (.vfaddF32 (bf w 30 2) (bf w 29 1) (bf w 28 1) (bf w 22 6) (bf w 16 6) (bf w 10 6) (bf w 8 2)) := by unfold decodeVfa32; rw [h0]; rfl

theorem RoundTrip.vfaddF32 (m b2 b1 vs2 vs1 vd rm) : RoundTrip.Statement (.vfaddF32 m b2 b1 vs2 vs1 vd rm) := by
  intro _ c0 he
  have hw : width [⟨1, 1#1⟩, ⟨6, 8#6⟩, ⟨1, 0#1⟩, ⟨2, rm⟩, ⟨6, vd⟩, ⟨6, vs1⟩, ⟨6, vs2⟩, ⟨1, b1⟩, ⟨1, b2⟩, ⟨2, m⟩] ≤ 32 := Nat.le.refl
  have hb := fun lo n => bf_word _ lo n hw
  rw [show encode (.vfaddF32 m b2 b1 vs2 vs1 vd rm) = _ from wide_word (l := [⟨1, 1#1⟩, ⟨6, 8#6⟩, ⟨1, 0#1⟩, ⟨2, rm⟩, ⟨6, vd⟩, ⟨6, vs1⟩, ⟨6, vs2⟩, ⟨1, b1⟩, ⟨1, b2⟩, ⟨2, m⟩]) (by simp only [value, BitVec.toNat_ofNat]; omega)] at he
  cases he
  rw [decode_wide, major_8 _ (hb 1 6)]
  refine (arm_vfaddF32 _ (hb 7 1)).trans ?_
  simp only [hb]
  rfl

theorem arm_vfsubF32 (w : BitVec 32) (h0 : bf w 7 1 = 1#1) : decodeVfa32 w =
    .ok (.vfsubF32 (bf w 30 2) (bf w 29 1) (bf w 28 1) (bf w 22 6) (bf w 16 6) (bf w 10 6) (bf w 8 2)) := by unfold decodeVfa32; rw [h0]; rfl

theorem RoundTrip.vfsubF32 (m b2 b1 vs2 vs1 vd rm) : RoundTrip.Statement (.vfsubF32 m b2 b1 vs2 vs1 vd rm) := by
  intro _ c0 he
  have hw : width [⟨1, 1#1⟩, ⟨6, 8#6⟩, ⟨1, 1#1⟩, ⟨2, rm⟩, ⟨6, vd⟩, ⟨6, vs1⟩, ⟨6, vs2⟩, ⟨1, b1⟩, ⟨1, b2⟩, ⟨2, m⟩] ≤ 32 := Nat.le.refl
  have hb := fun lo n => bf_word _ lo n hw
  rw [show encode (.vfsubF32 m b2 b1 vs2 vs1 vd rm) = _ from wide_word (l := [⟨1, 1#1⟩, ⟨6, 8#6⟩, ⟨1, 1#1⟩, ⟨2, rm⟩, ⟨6, vd⟩, ⟨6, vs1⟩, ⟨6, vs2⟩, ⟨1, b1⟩, ⟨1, b2⟩, ⟨2, m⟩]) (by simp only [value, BitVec.toNat_ofNat]; omega)] at he
  cases he
  rw [decode_wide, major_8 _ (hb 1 6)]
  refine (arm_vfsubF32 _ (hb 7 1)).trans ?_
  simp only [hb]
  rfl

theorem arm_vfmulF32 (w : BitVec 32) (h0 : bf w 7 1 = 0#1) : decodeVfm32 w =
    .ok (.vfmulF32 (bf w 30 2) (bf w 29 1) (bf w 28 1) (bf w 22 6) (bf w 16 6) (bf w 10 6) (bf w 8 2)) := by unfold decodeVfm32; rw [h0]; rfl

theorem RoundTrip.vfmulF32 (m b2 b1 vs2 vs1 vd rm) : RoundTrip.Statement (.vfmulF32 m b2 b1 vs2 vs1 vd rm) := by
  intro _ c0 he
  have hw : width [⟨1, 1#1⟩, ⟨6, 9#6⟩, ⟨1, 0#1⟩, ⟨2, rm⟩, ⟨6, vd⟩, ⟨6, vs1⟩, ⟨6, vs2⟩, ⟨1, b1⟩, ⟨1, b2⟩, ⟨2, m⟩] ≤ 32 := Nat.le.refl
  have hb := fun lo n => bf_word _ lo n hw
  rw [show encode (.vfmulF32 m b2 b1 vs2 vs1 vd rm) = _ from wide_word (l := [⟨1, 1#1⟩, ⟨6, 9#6⟩, ⟨1, 0#1⟩, ⟨2, rm⟩, ⟨6, vd⟩, ⟨6, vs1⟩, ⟨6, vs2⟩, ⟨1, b1⟩, ⟨1, b2⟩, ⟨2, m⟩]) (by simp only [value, BitVec.toNat_ofNat]; omega)] at he
  cases he
  rw [decode_wide, major_9 _ (hb 1 6)]
  refine (arm_vfmulF32 _ (hb 7 1)).trans ?_
  simp only [hb]
  rfl

theorem arm_vfmaF32 (w : BitVec 32) (h0 : bf w 7 1 = 1#1) : decodeVfm32 w =
    .ok (.vfmaF32 (bf w 30 2) (bf w 29 1) (bf w 28 1) (bf w 22 6) (bf w 16 6) (bf w 10 6) (bf w 8 2)) := by unfold decodeVfm32; rw [h0]; rfl

theorem RoundTrip.vfmaF32 (m b2 b1 vs2 vs1 vd rm) : RoundTrip.Statement (.vfmaF32 m b2 b1 vs2 vs1 vd rm) := by
  intro _ c0 he
  have hw : width [⟨1, 1#1⟩, ⟨6, 9#6⟩, ⟨1, 1#1⟩, ⟨2, rm⟩, ⟨6, vd⟩, ⟨6, vs1⟩, ⟨6, vs2⟩, ⟨1, b1⟩, ⟨1, b2⟩, ⟨2, m⟩] ≤ 32 := Nat.le.refl
  have hb := fun lo n => bf_word _ lo n hw
  rw [show encode (.vfmaF32 m b2 b1 vs2 vs1 vd rm) = _ from wide_word (l := [⟨1, 1#1⟩, ⟨6, 9#6⟩, ⟨1, 1#1⟩, ⟨2, rm⟩, ⟨6, vd⟩, ⟨6, vs1⟩, ⟨6, vs2⟩, ⟨1, b1⟩, ⟨1, b2⟩, ⟨2, m⟩]) (by simp only [value, BitVec.toNat_ofNat]; omega)] at he
  cases he
  rw [decode_wide, major_9 _ (hb 1 6)]
  refine (arm_vfmaF32 _ (hb 7 1)).trans ?_
  simp only [hb]
  rfl

theorem arm_vfdivF32 (w : BitVec 32) (h0 : bf w 7 1 = 0#1) : decodeVfd32 w =
    .ok (.vfdivF32 (bf w 30 2) (bf w 29 1) (bf w 28 1) (bf w 22 6) (bf w 16 6) (bf w 10 6) (bf w 8 2)) := by unfold decodeVfd32; rw [h0]; rfl

theorem RoundTrip.vfdivF32 (m b2 b1 vs2 vs1 vd rm) : RoundTrip.Statement (.vfdivF32 m b2 b1 vs2 vs1 vd rm) := by
  intro _ c0 he
  have hw : width [⟨1, 1#1⟩, ⟨6, 10#6⟩, ⟨1, 0#1⟩, ⟨2, rm⟩, ⟨6, vd⟩, ⟨6, vs1⟩, ⟨6, vs2⟩, ⟨1, b1⟩, ⟨1, b2⟩, ⟨2, m⟩] ≤ 32 := Nat.le.refl
  have hb := fun lo n => bf_word _ lo n hw
  rw [show encode (.vfdivF32 m b2 b1 vs2 vs1 vd rm) = _ from wide_word (l := [⟨1, 1#1⟩, ⟨6, 10#6⟩, ⟨1, 0#1⟩, ⟨2, rm⟩, ⟨6, vd⟩, ⟨6, vs1⟩, ⟨6, vs2⟩, ⟨1, b1⟩, ⟨1, b2⟩, ⟨2, m⟩]) (by simp only [value, BitVec.toNat_ofNat]; omega)] at he
  cases he
  rw [decode_wide, major_10 _ (hb 1 6)]
  refine (arm_vfdivF32 _ (hb 7 1)).trans ?_
  simp only [hb]
  rfl

theorem arm_vfsqrtF32 (w : BitVec 32) (h0 : bf w 7 1 = 1#1) : decodeVfd32 w =
    must [(22, 6), (29, 1)] w (.vfsqrtF32 (bf w 30 2) (bf w 28 1) (bf w 16 6) (bf w 10 6) (bf w 8 2)) := by unfold decodeVfd32; rw [h0]; rfl

theorem RoundTrip.vfsqrtF32 (m b1 vs1 vd rm) : RoundTrip.Statement (.vfsqrtF32 m b1 vs1 vd rm) := by
  intro _ c0 he
  have hw : width [⟨1, 1#1⟩, ⟨6, 10#6⟩, ⟨1, 1#1⟩, ⟨2, rm⟩, ⟨6, vd⟩, ⟨6, vs1⟩, ⟨6, 0#6⟩, ⟨1, b1⟩, ⟨1, 0#1⟩, ⟨2, m⟩] ≤ 32 := Nat.le.refl
  have hb := fun lo n => bf_word _ lo n hw
  rw [show encode (.vfsqrtF32 m b1 vs1 vd rm) = _ from wide_word (l := [⟨1, 1#1⟩, ⟨6, 10#6⟩, ⟨1, 1#1⟩, ⟨2, rm⟩, ⟨6, vd⟩, ⟨6, vs1⟩, ⟨6, 0#6⟩, ⟨1, b1⟩, ⟨1, 0#1⟩, ⟨2, m⟩]) (by simp only [value, BitVec.toNat_ofNat]; omega)] at he
  cases he
  rw [decode_wide, major_10 _ (hb 1 6)]
  refine (arm_vfsqrtF32 _ (hb 7 1)).trans ?_
  refine (must_word _ _ _ hw rfl).trans ?_
  simp only [hb]
  rfl

theorem arm_vfaddF64 (w : BitVec 32) (h0 : bf w 7 1 = 0#1) : decodeVfa64 w =
    .ok (.vfaddF64 (bf w 30 2) (bf w 29 1) (bf w 28 1) (bf w 22 6) (bf w 16 6) (bf w 10 6) (bf w 8 2)) := by unfold decodeVfa64; rw [h0]; rfl

theorem RoundTrip.vfaddF64 (m b2 b1 vs2 vs1 vd rm) : RoundTrip.Statement (.vfaddF64 m b2 b1 vs2 vs1 vd rm) := by
  intro _ c0 he
  have hw : width [⟨1, 1#1⟩, ⟨6, 11#6⟩, ⟨1, 0#1⟩, ⟨2, rm⟩, ⟨6, vd⟩, ⟨6, vs1⟩, ⟨6, vs2⟩, ⟨1, b1⟩, ⟨1, b2⟩, ⟨2, m⟩] ≤ 32 := Nat.le.refl
  have hb := fun lo n => bf_word _ lo n hw
  rw [show encode (.vfaddF64 m b2 b1 vs2 vs1 vd rm) = _ from wide_word (l := [⟨1, 1#1⟩, ⟨6, 11#6⟩, ⟨1, 0#1⟩, ⟨2, rm⟩, ⟨6, vd⟩, ⟨6, vs1⟩, ⟨6, vs2⟩, ⟨1, b1⟩, ⟨1, b2⟩, ⟨2, m⟩]) (by simp only [value, BitVec.toNat_ofNat]; omega)] at he
  cases he
  rw [decode_wide, major_11 _ (hb 1 6)]
  refine (arm_vfaddF64 _ (hb 7 1)).trans ?_
  simp only [hb]
  rfl

theorem arm_vfsubF64 (w : BitVec 32) (h0 : bf w 7 1 = 1#1) : decodeVfa64 w =
    .ok (.vfsubF64 (bf w 30 2) (bf w 29 1) (bf w 28 1) (bf w 22 6) (bf w 16 6) (bf w 10 6) (bf w 8 2)) := by unfold decodeVfa64; rw [h0]; rfl

theorem RoundTrip.vfsubF64 (m b2 b1 vs2 vs1 vd rm) : RoundTrip.Statement (.vfsubF64 m b2 b1 vs2 vs1 vd rm) := by
  intro _ c0 he
  have hw : width [⟨1, 1#1⟩, ⟨6, 11#6⟩, ⟨1, 1#1⟩, ⟨2, rm⟩, ⟨6, vd⟩, ⟨6, vs1⟩, ⟨6, vs2⟩, ⟨1, b1⟩, ⟨1, b2⟩, ⟨2, m⟩] ≤ 32 := Nat.le.refl
  have hb := fun lo n => bf_word _ lo n hw
  rw [show encode (.vfsubF64 m b2 b1 vs2 vs1 vd rm) = _ from wide_word (l := [⟨1, 1#1⟩, ⟨6, 11#6⟩, ⟨1, 1#1⟩, ⟨2, rm⟩, ⟨6, vd⟩, ⟨6, vs1⟩, ⟨6, vs2⟩, ⟨1, b1⟩, ⟨1, b2⟩, ⟨2, m⟩]) (by simp only [value, BitVec.toNat_ofNat]; omega)] at he
  cases he
  rw [decode_wide, major_11 _ (hb 1 6)]
  refine (arm_vfsubF64 _ (hb 7 1)).trans ?_
  simp only [hb]
  rfl

theorem arm_vfmulF64 (w : BitVec 32) (h0 : bf w 7 1 = 0#1) : decodeVfm64 w =
    .ok (.vfmulF64 (bf w 30 2) (bf w 29 1) (bf w 28 1) (bf w 22 6) (bf w 16 6) (bf w 10 6) (bf w 8 2)) := by unfold decodeVfm64; rw [h0]; rfl

theorem RoundTrip.vfmulF64 (m b2 b1 vs2 vs1 vd rm) : RoundTrip.Statement (.vfmulF64 m b2 b1 vs2 vs1 vd rm) := by
  intro _ c0 he
  have hw : width [⟨1, 1#1⟩, ⟨6, 12#6⟩, ⟨1, 0#1⟩, ⟨2, rm⟩, ⟨6, vd⟩, ⟨6, vs1⟩, ⟨6, vs2⟩, ⟨1, b1⟩, ⟨1, b2⟩, ⟨2, m⟩] ≤ 32 := Nat.le.refl
  have hb := fun lo n => bf_word _ lo n hw
  rw [show encode (.vfmulF64 m b2 b1 vs2 vs1 vd rm) = _ from wide_word (l := [⟨1, 1#1⟩, ⟨6, 12#6⟩, ⟨1, 0#1⟩, ⟨2, rm⟩, ⟨6, vd⟩, ⟨6, vs1⟩, ⟨6, vs2⟩, ⟨1, b1⟩, ⟨1, b2⟩, ⟨2, m⟩]) (by simp only [value, BitVec.toNat_ofNat]; omega)] at he
  cases he
  rw [decode_wide, major_12 _ (hb 1 6)]
  refine (arm_vfmulF64 _ (hb 7 1)).trans ?_
  simp only [hb]
  rfl

theorem arm_vfmaF64 (w : BitVec 32) (h0 : bf w 7 1 = 1#1) : decodeVfm64 w =
    .ok (.vfmaF64 (bf w 30 2) (bf w 29 1) (bf w 28 1) (bf w 22 6) (bf w 16 6) (bf w 10 6) (bf w 8 2)) := by unfold decodeVfm64; rw [h0]; rfl

theorem RoundTrip.vfmaF64 (m b2 b1 vs2 vs1 vd rm) : RoundTrip.Statement (.vfmaF64 m b2 b1 vs2 vs1 vd rm) := by
  intro _ c0 he
  have hw : width [⟨1, 1#1⟩, ⟨6, 12#6⟩, ⟨1, 1#1⟩, ⟨2, rm⟩, ⟨6, vd⟩, ⟨6, vs1⟩, ⟨6, vs2⟩, ⟨1, b1⟩, ⟨1, b2⟩, ⟨2, m⟩] ≤ 32 := Nat.le.refl
  have hb := fun lo n => bf_word _ lo n hw
  rw [show encode (.vfmaF64 m b2 b1 vs2 vs1 vd rm) = _ from wide_word (l := [⟨1, 1#1⟩, ⟨6, 12#6⟩, ⟨1, 1#1⟩, ⟨2, rm⟩, ⟨6, vd⟩, ⟨6, vs1⟩, ⟨6, vs2⟩, ⟨1, b1⟩, ⟨1, b2⟩, ⟨2, m⟩]) (by simp only [value, BitVec.toNat_ofNat]; omega)] at he
  cases he
  rw [decode_wide, major_12 _ (hb 1 6)]
  refine (arm_vfmaF64 _ (hb 7 1)).trans ?_
  simp only [hb]
  rfl

theorem arm_vfdivF64 (w : BitVec 32) (h0 : bf w 7 1 = 0#1) : decodeVfd64 w =
    .ok (.vfdivF64 (bf w 30 2) (bf w 29 1) (bf w 28 1) (bf w 22 6) (bf w 16 6) (bf w 10 6) (bf w 8 2)) := by unfold decodeVfd64; rw [h0]; rfl

theorem RoundTrip.vfdivF64 (m b2 b1 vs2 vs1 vd rm) : RoundTrip.Statement (.vfdivF64 m b2 b1 vs2 vs1 vd rm) := by
  intro _ c0 he
  have hw : width [⟨1, 1#1⟩, ⟨6, 13#6⟩, ⟨1, 0#1⟩, ⟨2, rm⟩, ⟨6, vd⟩, ⟨6, vs1⟩, ⟨6, vs2⟩, ⟨1, b1⟩, ⟨1, b2⟩, ⟨2, m⟩] ≤ 32 := Nat.le.refl
  have hb := fun lo n => bf_word _ lo n hw
  rw [show encode (.vfdivF64 m b2 b1 vs2 vs1 vd rm) = _ from wide_word (l := [⟨1, 1#1⟩, ⟨6, 13#6⟩, ⟨1, 0#1⟩, ⟨2, rm⟩, ⟨6, vd⟩, ⟨6, vs1⟩, ⟨6, vs2⟩, ⟨1, b1⟩, ⟨1, b2⟩, ⟨2, m⟩]) (by simp only [value, BitVec.toNat_ofNat]; omega)] at he
  cases he
  rw [decode_wide, major_13 _ (hb 1 6)]
  refine (arm_vfdivF64 _ (hb 7 1)).trans ?_
  simp only [hb]
  rfl

theorem arm_vfsqrtF64 (w : BitVec 32) (h0 : bf w 7 1 = 1#1) : decodeVfd64 w =
    must [(22, 6), (29, 1)] w (.vfsqrtF64 (bf w 30 2) (bf w 28 1) (bf w 16 6) (bf w 10 6) (bf w 8 2)) := by unfold decodeVfd64; rw [h0]; rfl

theorem RoundTrip.vfsqrtF64 (m b1 vs1 vd rm) : RoundTrip.Statement (.vfsqrtF64 m b1 vs1 vd rm) := by
  intro _ c0 he
  have hw : width [⟨1, 1#1⟩, ⟨6, 13#6⟩, ⟨1, 1#1⟩, ⟨2, rm⟩, ⟨6, vd⟩, ⟨6, vs1⟩, ⟨6, 0#6⟩, ⟨1, b1⟩, ⟨1, 0#1⟩, ⟨2, m⟩] ≤ 32 := Nat.le.refl
  have hb := fun lo n => bf_word _ lo n hw
  rw [show encode (.vfsqrtF64 m b1 vs1 vd rm) = _ from wide_word (l := [⟨1, 1#1⟩, ⟨6, 13#6⟩, ⟨1, 1#1⟩, ⟨2, rm⟩, ⟨6, vd⟩, ⟨6, vs1⟩, ⟨6, 0#6⟩, ⟨1, b1⟩, ⟨1, 0#1⟩, ⟨2, m⟩]) (by simp only [value, BitVec.toNat_ofNat]; omega)] at he
  cases he
  rw [decode_wide, major_13 _ (hb 1 6)]
  refine (arm_vfsqrtF64 _ (hb 7 1)).trans ?_
  refine (must_word _ _ _ hw rfl).trans ?_
  simp only [hb]
  rfl

theorem arm_vfminF32 (w : BitVec 32) (h0 : bf w 7 3 = 0#3) : decodeVfx w =
    .ok (.vfminF32 (bf w 30 2) (bf w 29 1) (bf w 28 1) (bf w 22 6) (bf w 16 6) (bf w 10 6)) := by unfold decodeVfx; rw [h0]; rfl

theorem RoundTrip.vfminF32 (m b2 b1 vs2 vs1 vd) : RoundTrip.Statement (.vfminF32 m b2 b1 vs2 vs1 vd) := by
  intro _ c0 he
  have hw : width [⟨1, 1#1⟩, ⟨6, 14#6⟩, ⟨3, 0#3⟩, ⟨6, vd⟩, ⟨6, vs1⟩, ⟨6, vs2⟩, ⟨1, b1⟩, ⟨1, b2⟩, ⟨2, m⟩] ≤ 32 := Nat.le.refl
  have hb := fun lo n => bf_word _ lo n hw
  rw [show encode (.vfminF32 m b2 b1 vs2 vs1 vd) = _ from wide_word (l := [⟨1, 1#1⟩, ⟨6, 14#6⟩, ⟨3, 0#3⟩, ⟨6, vd⟩, ⟨6, vs1⟩, ⟨6, vs2⟩, ⟨1, b1⟩, ⟨1, b2⟩, ⟨2, m⟩]) (by simp only [value, BitVec.toNat_ofNat]; omega)] at he
  cases he
  rw [decode_wide, major_14 _ (hb 1 6)]
  refine (arm_vfminF32 _ (hb 7 3)).trans ?_
  simp only [hb]
  rfl

theorem arm_vfmaxF32 (w : BitVec 32) (h0 : bf w 7 3 = 1#3) : decodeVfx w =
    .ok (.vfmaxF32 (bf w 30 2) (bf w 29 1) (bf w 28 1) (bf w 22 6) (bf w 16 6) (bf w 10 6)) := by unfold decodeVfx; rw [h0]; rfl

theorem RoundTrip.vfmaxF32 (m b2 b1 vs2 vs1 vd) : RoundTrip.Statement (.vfmaxF32 m b2 b1 vs2 vs1 vd) := by
  intro _ c0 he
  have hw : width [⟨1, 1#1⟩, ⟨6, 14#6⟩, ⟨3, 1#3⟩, ⟨6, vd⟩, ⟨6, vs1⟩, ⟨6, vs2⟩, ⟨1, b1⟩, ⟨1, b2⟩, ⟨2, m⟩] ≤ 32 := Nat.le.refl
  have hb := fun lo n => bf_word _ lo n hw
  rw [show encode (.vfmaxF32 m b2 b1 vs2 vs1 vd) = _ from wide_word (l := [⟨1, 1#1⟩, ⟨6, 14#6⟩, ⟨3, 1#3⟩, ⟨6, vd⟩, ⟨6, vs1⟩, ⟨6, vs2⟩, ⟨1, b1⟩, ⟨1, b2⟩, ⟨2, m⟩]) (by simp only [value, BitVec.toNat_ofNat]; omega)] at he
  cases he
  rw [decode_wide, major_14 _ (hb 1 6)]
  refine (arm_vfmaxF32 _ (hb 7 3)).trans ?_
  simp only [hb]
  rfl

theorem arm_vfminF64 (w : BitVec 32) (h0 : bf w 7 3 = 2#3) : decodeVfx w =
    .ok (.vfminF64 (bf w 30 2) (bf w 29 1) (bf w 28 1) (bf w 22 6) (bf w 16 6) (bf w 10 6)) := by unfold decodeVfx; rw [h0]; rfl

theorem RoundTrip.vfminF64 (m b2 b1 vs2 vs1 vd) : RoundTrip.Statement (.vfminF64 m b2 b1 vs2 vs1 vd) := by
  intro _ c0 he
  have hw : width [⟨1, 1#1⟩, ⟨6, 14#6⟩, ⟨3, 2#3⟩, ⟨6, vd⟩, ⟨6, vs1⟩, ⟨6, vs2⟩, ⟨1, b1⟩, ⟨1, b2⟩, ⟨2, m⟩] ≤ 32 := Nat.le.refl
  have hb := fun lo n => bf_word _ lo n hw
  rw [show encode (.vfminF64 m b2 b1 vs2 vs1 vd) = _ from wide_word (l := [⟨1, 1#1⟩, ⟨6, 14#6⟩, ⟨3, 2#3⟩, ⟨6, vd⟩, ⟨6, vs1⟩, ⟨6, vs2⟩, ⟨1, b1⟩, ⟨1, b2⟩, ⟨2, m⟩]) (by simp only [value, BitVec.toNat_ofNat]; omega)] at he
  cases he
  rw [decode_wide, major_14 _ (hb 1 6)]
  refine (arm_vfminF64 _ (hb 7 3)).trans ?_
  simp only [hb]
  rfl

theorem arm_vfmaxF64 (w : BitVec 32) (h0 : bf w 7 3 = 3#3) : decodeVfx w =
    .ok (.vfmaxF64 (bf w 30 2) (bf w 29 1) (bf w 28 1) (bf w 22 6) (bf w 16 6) (bf w 10 6)) := by unfold decodeVfx; rw [h0]; rfl

theorem RoundTrip.vfmaxF64 (m b2 b1 vs2 vs1 vd) : RoundTrip.Statement (.vfmaxF64 m b2 b1 vs2 vs1 vd) := by
  intro _ c0 he
  have hw : width [⟨1, 1#1⟩, ⟨6, 14#6⟩, ⟨3, 3#3⟩, ⟨6, vd⟩, ⟨6, vs1⟩, ⟨6, vs2⟩, ⟨1, b1⟩, ⟨1, b2⟩, ⟨2, m⟩] ≤ 32 := Nat.le.refl
  have hb := fun lo n => bf_word _ lo n hw
  rw [show encode (.vfmaxF64 m b2 b1 vs2 vs1 vd) = _ from wide_word (l := [⟨1, 1#1⟩, ⟨6, 14#6⟩, ⟨3, 3#3⟩, ⟨6, vd⟩, ⟨6, vs1⟩, ⟨6, vs2⟩, ⟨1, b1⟩, ⟨1, b2⟩, ⟨2, m⟩]) (by simp only [value, BitVec.toNat_ofNat]; omega)] at he
  cases he
  rw [decode_wide, major_14 _ (hb 1 6)]
  refine (arm_vfmaxF64 _ (hb 7 3)).trans ?_
  simp only [hb]
  rfl

theorem arm_vfrcpF32 (w : BitVec 32) (h0 : bf w 7 3 = 4#3) : decodeVfx w =
    must [(22, 6), (29, 1)] w (.vfrcpF32 (bf w 30 2) (bf w 28 1) (bf w 16 6) (bf w 10 6)) := by unfold decodeVfx; rw [h0]; rfl

theorem RoundTrip.vfrcpF32 (m b1 vs1 vd) : RoundTrip.Statement (.vfrcpF32 m b1 vs1 vd) := by
  intro _ c0 he
  have hw : width [⟨1, 1#1⟩, ⟨6, 14#6⟩, ⟨3, 4#3⟩, ⟨6, vd⟩, ⟨6, vs1⟩, ⟨6, 0#6⟩, ⟨1, b1⟩, ⟨1, 0#1⟩, ⟨2, m⟩] ≤ 32 := Nat.le.refl
  have hb := fun lo n => bf_word _ lo n hw
  rw [show encode (.vfrcpF32 m b1 vs1 vd) = _ from wide_word (l := [⟨1, 1#1⟩, ⟨6, 14#6⟩, ⟨3, 4#3⟩, ⟨6, vd⟩, ⟨6, vs1⟩, ⟨6, 0#6⟩, ⟨1, b1⟩, ⟨1, 0#1⟩, ⟨2, m⟩]) (by simp only [value, BitVec.toNat_ofNat]; omega)] at he
  cases he
  rw [decode_wide, major_14 _ (hb 1 6)]
  refine (arm_vfrcpF32 _ (hb 7 3)).trans ?_
  refine (must_word _ _ _ hw rfl).trans ?_
  simp only [hb]
  rfl

theorem arm_vfrsqF32 (w : BitVec 32) (h0 : bf w 7 3 = 5#3) : decodeVfx w =
    must [(22, 6), (29, 1)] w (.vfrsqF32 (bf w 30 2) (bf w 28 1) (bf w 16 6) (bf w 10 6)) := by unfold decodeVfx; rw [h0]; rfl

theorem RoundTrip.vfrsqF32 (m b1 vs1 vd) : RoundTrip.Statement (.vfrsqF32 m b1 vs1 vd) := by
  intro _ c0 he
  have hw : width [⟨1, 1#1⟩, ⟨6, 14#6⟩, ⟨3, 5#3⟩, ⟨6, vd⟩, ⟨6, vs1⟩, ⟨6, 0#6⟩, ⟨1, b1⟩, ⟨1, 0#1⟩, ⟨2, m⟩] ≤ 32 := Nat.le.refl
  have hb := fun lo n => bf_word _ lo n hw
  rw [show encode (.vfrsqF32 m b1 vs1 vd) = _ from wide_word (l := [⟨1, 1#1⟩, ⟨6, 14#6⟩, ⟨3, 5#3⟩, ⟨6, vd⟩, ⟨6, vs1⟩, ⟨6, 0#6⟩, ⟨1, b1⟩, ⟨1, 0#1⟩, ⟨2, m⟩]) (by simp only [value, BitVec.toNat_ofNat]; omega)] at he
  cases he
  rw [decode_wide, major_14 _ (hb 1 6)]
  refine (arm_vfrsqF32 _ (hb 7 3)).trans ?_
  refine (must_word _ _ _ hw rfl).trans ?_
  simp only [hb]
  rfl

theorem arm_vfexp2F32 (w : BitVec 32) (h0 : bf w 7 3 = 6#3) : decodeVfx w =
    must [(22, 6), (29, 1)] w (.vfexp2F32 (bf w 30 2) (bf w 28 1) (bf w 16 6) (bf w 10 6)) := by unfold decodeVfx; rw [h0]; rfl

theorem RoundTrip.vfexp2F32 (m b1 vs1 vd) : RoundTrip.Statement (.vfexp2F32 m b1 vs1 vd) := by
  intro _ c0 he
  have hw : width [⟨1, 1#1⟩, ⟨6, 14#6⟩, ⟨3, 6#3⟩, ⟨6, vd⟩, ⟨6, vs1⟩, ⟨6, 0#6⟩, ⟨1, b1⟩, ⟨1, 0#1⟩, ⟨2, m⟩] ≤ 32 := Nat.le.refl
  have hb := fun lo n => bf_word _ lo n hw
  rw [show encode (.vfexp2F32 m b1 vs1 vd) = _ from wide_word (l := [⟨1, 1#1⟩, ⟨6, 14#6⟩, ⟨3, 6#3⟩, ⟨6, vd⟩, ⟨6, vs1⟩, ⟨6, 0#6⟩, ⟨1, b1⟩, ⟨1, 0#1⟩, ⟨2, m⟩]) (by simp only [value, BitVec.toNat_ofNat]; omega)] at he
  cases he
  rw [decode_wide, major_14 _ (hb 1 6)]
  refine (arm_vfexp2F32 _ (hb 7 3)).trans ?_
  refine (must_word _ _ _ hw rfl).trans ?_
  simp only [hb]
  rfl

theorem arm_vflog2F32 (w : BitVec 32) (h0 : bf w 7 3 = 7#3) : decodeVfx w =
    must [(22, 6), (29, 1)] w (.vflog2F32 (bf w 30 2) (bf w 28 1) (bf w 16 6) (bf w 10 6)) := by unfold decodeVfx; rw [h0]; rfl

theorem RoundTrip.vflog2F32 (m b1 vs1 vd) : RoundTrip.Statement (.vflog2F32 m b1 vs1 vd) := by
  intro _ c0 he
  have hw : width [⟨1, 1#1⟩, ⟨6, 14#6⟩, ⟨3, 7#3⟩, ⟨6, vd⟩, ⟨6, vs1⟩, ⟨6, 0#6⟩, ⟨1, b1⟩, ⟨1, 0#1⟩, ⟨2, m⟩] ≤ 32 := Nat.le.refl
  have hb := fun lo n => bf_word _ lo n hw
  rw [show encode (.vflog2F32 m b1 vs1 vd) = _ from wide_word (l := [⟨1, 1#1⟩, ⟨6, 14#6⟩, ⟨3, 7#3⟩, ⟨6, vd⟩, ⟨6, vs1⟩, ⟨6, 0#6⟩, ⟨1, b1⟩, ⟨1, 0#1⟩, ⟨2, m⟩]) (by simp only [value, BitVec.toNat_ofNat]; omega)] at he
  cases he
  rw [decode_wide, major_14 _ (hb 1 6)]
  refine (arm_vflog2F32 _ (hb 7 3)).trans ?_
  refine (must_word _ _ _ hw rfl).trans ?_
  simp only [hb]
  rfl

theorem arm_vcmpI32 (w : BitVec 32) (h0 : bf w 7 3 = 0#3) : decodeVcmp w =
    .ok (.vcmpI32 (bf w 30 2) (bf w 29 1) (bf w 28 1) (bf w 22 6) (bf w 16 6) (bf w 13 3) (bf w 10 3)) := by unfold decodeVcmp; rw [h0]; rfl

theorem RoundTrip.vcmpI32 (m b2 b1 vs2 vs1 cond md) : RoundTrip.Statement (.vcmpI32 m b2 b1 vs2 vs1 cond md) := by
  intro _ c0 he
  have hw : width [⟨1, 1#1⟩, ⟨6, 15#6⟩, ⟨3, 0#3⟩, ⟨3, md⟩, ⟨3, cond⟩, ⟨6, vs1⟩, ⟨6, vs2⟩, ⟨1, b1⟩, ⟨1, b2⟩, ⟨2, m⟩] ≤ 32 := Nat.le.refl
  have hb := fun lo n => bf_word _ lo n hw
  rw [show encode (.vcmpI32 m b2 b1 vs2 vs1 cond md) = _ from wide_word (l := [⟨1, 1#1⟩, ⟨6, 15#6⟩, ⟨3, 0#3⟩, ⟨3, md⟩, ⟨3, cond⟩, ⟨6, vs1⟩, ⟨6, vs2⟩, ⟨1, b1⟩, ⟨1, b2⟩, ⟨2, m⟩]) (by simp only [value, BitVec.toNat_ofNat]; omega)] at he
  cases he
  rw [decode_wide, major_15 _ (hb 1 6)]
  refine (arm_vcmpI32 _ (hb 7 3)).trans ?_
  simp only [hb]
  rfl

theorem arm_vcmpN32 (w : BitVec 32) (h0 : bf w 7 3 = 1#3) : decodeVcmp w =
    .ok (.vcmpN32 (bf w 30 2) (bf w 29 1) (bf w 28 1) (bf w 22 6) (bf w 16 6) (bf w 13 3) (bf w 10 3)) := by unfold decodeVcmp; rw [h0]; rfl

theorem RoundTrip.vcmpN32 (m b2 b1 vs2 vs1 cond md) : RoundTrip.Statement (.vcmpN32 m b2 b1 vs2 vs1 cond md) := by
  intro _ c0 he
  have hw : width [⟨1, 1#1⟩, ⟨6, 15#6⟩, ⟨3, 1#3⟩, ⟨3, md⟩, ⟨3, cond⟩, ⟨6, vs1⟩, ⟨6, vs2⟩, ⟨1, b1⟩, ⟨1, b2⟩, ⟨2, m⟩] ≤ 32 := Nat.le.refl
  have hb := fun lo n => bf_word _ lo n hw
  rw [show encode (.vcmpN32 m b2 b1 vs2 vs1 cond md) = _ from wide_word (l := [⟨1, 1#1⟩, ⟨6, 15#6⟩, ⟨3, 1#3⟩, ⟨3, md⟩, ⟨3, cond⟩, ⟨6, vs1⟩, ⟨6, vs2⟩, ⟨1, b1⟩, ⟨1, b2⟩, ⟨2, m⟩]) (by simp only [value, BitVec.toNat_ofNat]; omega)] at he
  cases he
  rw [decode_wide, major_15 _ (hb 1 6)]
  refine (arm_vcmpN32 _ (hb 7 3)).trans ?_
  simp only [hb]
  rfl

theorem arm_vcmpI64 (w : BitVec 32) (h0 : bf w 7 3 = 2#3) : decodeVcmp w =
    .ok (.vcmpI64 (bf w 30 2) (bf w 29 1) (bf w 28 1) (bf w 22 6) (bf w 16 6) (bf w 13 3) (bf w 10 3)) := by unfold decodeVcmp; rw [h0]; rfl

theorem RoundTrip.vcmpI64 (m b2 b1 vs2 vs1 cond md) : RoundTrip.Statement (.vcmpI64 m b2 b1 vs2 vs1 cond md) := by
  intro _ c0 he
  have hw : width [⟨1, 1#1⟩, ⟨6, 15#6⟩, ⟨3, 2#3⟩, ⟨3, md⟩, ⟨3, cond⟩, ⟨6, vs1⟩, ⟨6, vs2⟩, ⟨1, b1⟩, ⟨1, b2⟩, ⟨2, m⟩] ≤ 32 := Nat.le.refl
  have hb := fun lo n => bf_word _ lo n hw
  rw [show encode (.vcmpI64 m b2 b1 vs2 vs1 cond md) = _ from wide_word (l := [⟨1, 1#1⟩, ⟨6, 15#6⟩, ⟨3, 2#3⟩, ⟨3, md⟩, ⟨3, cond⟩, ⟨6, vs1⟩, ⟨6, vs2⟩, ⟨1, b1⟩, ⟨1, b2⟩, ⟨2, m⟩]) (by simp only [value, BitVec.toNat_ofNat]; omega)] at he
  cases he
  rw [decode_wide, major_15 _ (hb 1 6)]
  refine (arm_vcmpI64 _ (hb 7 3)).trans ?_
  simp only [hb]
  rfl

theorem arm_vcmpN64 (w : BitVec 32) (h0 : bf w 7 3 = 3#3) : decodeVcmp w =
    .ok (.vcmpN64 (bf w 30 2) (bf w 29 1) (bf w 28 1) (bf w 22 6) (bf w 16 6) (bf w 13 3) (bf w 10 3)) := by unfold decodeVcmp; rw [h0]; rfl

theorem RoundTrip.vcmpN64 (m b2 b1 vs2 vs1 cond md) : RoundTrip.Statement (.vcmpN64 m b2 b1 vs2 vs1 cond md) := by
  intro _ c0 he
  have hw : width [⟨1, 1#1⟩, ⟨6, 15#6⟩, ⟨3, 3#3⟩, ⟨3, md⟩, ⟨3, cond⟩, ⟨6, vs1⟩, ⟨6, vs2⟩, ⟨1, b1⟩, ⟨1, b2⟩, ⟨2, m⟩] ≤ 32 := Nat.le.refl
  have hb := fun lo n => bf_word _ lo n hw
  rw [show encode (.vcmpN64 m b2 b1 vs2 vs1 cond md) = _ from wide_word (l := [⟨1, 1#1⟩, ⟨6, 15#6⟩, ⟨3, 3#3⟩, ⟨3, md⟩, ⟨3, cond⟩, ⟨6, vs1⟩, ⟨6, vs2⟩, ⟨1, b1⟩, ⟨1, b2⟩, ⟨2, m⟩]) (by simp only [value, BitVec.toNat_ofNat]; omega)] at he
  cases he
  rw [decode_wide, major_15 _ (hb 1 6)]
  refine (arm_vcmpN64 _ (hb 7 3)).trans ?_
  simp only [hb]
  rfl

theorem arm_vfcmpF32 (w : BitVec 32) (h0 : bf w 7 3 = 4#3) : decodeVcmp w =
    .ok (.vfcmpF32 (bf w 30 2) (bf w 29 1) (bf w 28 1) (bf w 22 6) (bf w 16 6) (bf w 13 3) (bf w 10 3)) := by unfold decodeVcmp; rw [h0]; rfl

theorem RoundTrip.vfcmpF32 (m b2 b1 vs2 vs1 cond md) : RoundTrip.Statement (.vfcmpF32 m b2 b1 vs2 vs1 cond md) := by
  intro _ c0 he
  have hw : width [⟨1, 1#1⟩, ⟨6, 15#6⟩, ⟨3, 4#3⟩, ⟨3, md⟩, ⟨3, cond⟩, ⟨6, vs1⟩, ⟨6, vs2⟩, ⟨1, b1⟩, ⟨1, b2⟩, ⟨2, m⟩] ≤ 32 := Nat.le.refl
  have hb := fun lo n => bf_word _ lo n hw
  rw [show encode (.vfcmpF32 m b2 b1 vs2 vs1 cond md) = _ from wide_word (l := [⟨1, 1#1⟩, ⟨6, 15#6⟩, ⟨3, 4#3⟩, ⟨3, md⟩, ⟨3, cond⟩, ⟨6, vs1⟩, ⟨6, vs2⟩, ⟨1, b1⟩, ⟨1, b2⟩, ⟨2, m⟩]) (by simp only [value, BitVec.toNat_ofNat]; omega)] at he
  cases he
  rw [decode_wide, major_15 _ (hb 1 6)]
  refine (arm_vfcmpF32 _ (hb 7 3)).trans ?_
  simp only [hb]
  rfl

theorem arm_vfcmpF64 (w : BitVec 32) (h0 : bf w 7 3 = 5#3) : decodeVcmp w =
    .ok (.vfcmpF64 (bf w 30 2) (bf w 29 1) (bf w 28 1) (bf w 22 6) (bf w 16 6) (bf w 13 3) (bf w 10 3)) := by unfold decodeVcmp; rw [h0]; rfl

theorem RoundTrip.vfcmpF64 (m b2 b1 vs2 vs1 cond md) : RoundTrip.Statement (.vfcmpF64 m b2 b1 vs2 vs1 cond md) := by
  intro _ c0 he
  have hw : width [⟨1, 1#1⟩, ⟨6, 15#6⟩, ⟨3, 5#3⟩, ⟨3, md⟩, ⟨3, cond⟩, ⟨6, vs1⟩, ⟨6, vs2⟩, ⟨1, b1⟩, ⟨1, b2⟩, ⟨2, m⟩] ≤ 32 := Nat.le.refl
  have hb := fun lo n => bf_word _ lo n hw
  rw [show encode (.vfcmpF64 m b2 b1 vs2 vs1 cond md) = _ from wide_word (l := [⟨1, 1#1⟩, ⟨6, 15#6⟩, ⟨3, 5#3⟩, ⟨3, md⟩, ⟨3, cond⟩, ⟨6, vs1⟩, ⟨6, vs2⟩, ⟨1, b1⟩, ⟨1, b2⟩, ⟨2, m⟩]) (by simp only [value, BitVec.toNat_ofNat]; omega)] at he
  cases he
  rw [decode_wide, major_15 _ (hb 1 6)]
  refine (arm_vfcmpF64 _ (hb 7 3)).trans ?_
  simp only [hb]
  rfl

theorem RoundTrip.vcvt (m b1 rm src dst vs1 vd) : RoundTrip.Statement (.vcvt m b1 rm src dst vs1 vd) := by
  intro _ c0 he
  have hw : width [⟨1, 1#1⟩, ⟨6, 16#6⟩, ⟨6, vd⟩, ⟨6, vs1⟩, ⟨4, dst⟩, ⟨4, src⟩, ⟨2, rm⟩, ⟨1, b1⟩, ⟨2, m⟩] ≤ 32 := Nat.le.refl
  have hb := fun lo n => bf_word _ lo n hw
  rw [show encode (.vcvt m b1 rm src dst vs1 vd) = _ from wide_word (l := [⟨1, 1#1⟩, ⟨6, 16#6⟩, ⟨6, vd⟩, ⟨6, vs1⟩, ⟨4, dst⟩, ⟨4, src⟩, ⟨2, rm⟩, ⟨1, b1⟩, ⟨2, m⟩]) (by simp only [value, BitVec.toNat_ofNat]; omega)] at he
  cases he
  rw [decode_wide, major_16 _ (hb 1 6)]
  unfold decodeVcvt
  simp only [hb]
  rfl

theorem RoundTrip.vaddImm (m b1 imm vs1 vd) : RoundTrip.Statement (.vaddImm m b1 imm vs1 vd) := by
  intro _ c0 he
  have hw : width [⟨1, 1#1⟩, ⟨6, 17#6⟩, ⟨6, vd⟩, ⟨6, vs1⟩, ⟨10, imm⟩, ⟨1, b1⟩, ⟨2, m⟩] ≤ 32 := Nat.le.refl
  have hb := fun lo n => bf_word _ lo n hw
  rw [show encode (.vaddImm m b1 imm vs1 vd) = _ from wide_word (l := [⟨1, 1#1⟩, ⟨6, 17#6⟩, ⟨6, vd⟩, ⟨6, vs1⟩, ⟨10, imm⟩, ⟨1, b1⟩, ⟨2, m⟩]) (by simp only [value, BitVec.toNat_ofNat]; omega)] at he
  cases he
  rw [decode_wide, major_17 _ (hb 1 6)]
  unfold decodeVaddi
  simp only [hb]
  rfl

theorem RoundTrip.vandImm (m b1 imm vs1 vd) : RoundTrip.Statement (.vandImm m b1 imm vs1 vd) := by
  intro _ c0 he
  have hw : width [⟨1, 1#1⟩, ⟨6, 18#6⟩, ⟨6, vd⟩, ⟨6, vs1⟩, ⟨10, imm⟩, ⟨1, b1⟩, ⟨2, m⟩] ≤ 32 := Nat.le.refl
  have hb := fun lo n => bf_word _ lo n hw
  rw [show encode (.vandImm m b1 imm vs1 vd) = _ from wide_word (l := [⟨1, 1#1⟩, ⟨6, 18#6⟩, ⟨6, vd⟩, ⟨6, vs1⟩, ⟨10, imm⟩, ⟨1, b1⟩, ⟨2, m⟩]) (by simp only [value, BitVec.toNat_ofNat]; omega)] at he
  cases he
  rw [decode_wide, major_18 _ (hb 1 6)]
  unfold decodeVandi
  simp only [hb]
  rfl

theorem arm_vshlImm (w : BitVec 32) (h0 : bf w 27 2 = 0#2) : decodeVshi w =
    must [(24, 3)] w (.vshlImm (bf w 30 2) (bf w 29 1) (bf w 19 5) (bf w 13 6) (bf w 7 6)) := by unfold decodeVshi; rw [h0]; rfl

theorem RoundTrip.vshlImm (m b1 amt vs1 vd) : RoundTrip.Statement (.vshlImm m b1 amt vs1 vd) := by
  intro _ c0 he
  have hw : width [⟨1, 1#1⟩, ⟨6, 19#6⟩, ⟨6, vd⟩, ⟨6, vs1⟩, ⟨5, amt⟩, ⟨3, 0#3⟩, ⟨2, 0#2⟩, ⟨1, b1⟩, ⟨2, m⟩] ≤ 32 := Nat.le.refl
  have hb := fun lo n => bf_word _ lo n hw
  rw [show encode (.vshlImm m b1 amt vs1 vd) = _ from wide_word (l := [⟨1, 1#1⟩, ⟨6, 19#6⟩, ⟨6, vd⟩, ⟨6, vs1⟩, ⟨5, amt⟩, ⟨3, 0#3⟩, ⟨2, 0#2⟩, ⟨1, b1⟩, ⟨2, m⟩]) (by simp only [value, BitVec.toNat_ofNat]; omega)] at he
  cases he
  rw [decode_wide, major_19 _ (hb 1 6)]
  refine (arm_vshlImm _ (hb 27 2)).trans ?_
  refine (must_word _ _ _ hw rfl).trans ?_
  simp only [hb]
  rfl

theorem arm_vshrImm (w : BitVec 32) (h0 : bf w 27 2 = 1#2) : decodeVshi w =
    must [(24, 3)] w (.vshrImm (bf w 30 2) (bf w 29 1) (bf w 19 5) (bf w 13 6) (bf w 7 6)) := by unfold decodeVshi; rw [h0]; rfl

theorem RoundTrip.vshrImm (m b1 amt vs1 vd) : RoundTrip.Statement (.vshrImm m b1 amt vs1 vd) := by
  intro _ c0 he
  have hw : width [⟨1, 1#1⟩, ⟨6, 19#6⟩, ⟨6, vd⟩, ⟨6, vs1⟩, ⟨5, amt⟩, ⟨3, 0#3⟩, ⟨2, 1#2⟩, ⟨1, b1⟩, ⟨2, m⟩] ≤ 32 := Nat.le.refl
  have hb := fun lo n => bf_word _ lo n hw
  rw [show encode (.vshrImm m b1 amt vs1 vd) = _ from wide_word (l := [⟨1, 1#1⟩, ⟨6, 19#6⟩, ⟨6, vd⟩, ⟨6, vs1⟩, ⟨5, amt⟩, ⟨3, 0#3⟩, ⟨2, 1#2⟩, ⟨1, b1⟩, ⟨2, m⟩]) (by simp only [value, BitVec.toNat_ofNat]; omega)] at he
  cases he
  rw [decode_wide, major_19 _ (hb 1 6)]
  refine (arm_vshrImm _ (hb 27 2)).trans ?_
  refine (must_word _ _ _ hw rfl).trans ?_
  simp only [hb]
  rfl

theorem arm_vsraImm (w : BitVec 32) (h0 : bf w 27 2 = 2#2) : decodeVshi w =
    must [(24, 3)] w (.vsraImm (bf w 30 2) (bf w 29 1) (bf w 19 5) (bf w 13 6) (bf w 7 6)) := by unfold decodeVshi; rw [h0]; rfl

theorem RoundTrip.vsraImm (m b1 amt vs1 vd) : RoundTrip.Statement (.vsraImm m b1 amt vs1 vd) := by
  intro _ c0 he
  have hw : width [⟨1, 1#1⟩, ⟨6, 19#6⟩, ⟨6, vd⟩, ⟨6, vs1⟩, ⟨5, amt⟩, ⟨3, 0#3⟩, ⟨2, 2#2⟩, ⟨1, b1⟩, ⟨2, m⟩] ≤ 32 := Nat.le.refl
  have hb := fun lo n => bf_word _ lo n hw
  rw [show encode (.vsraImm m b1 amt vs1 vd) = _ from wide_word (l := [⟨1, 1#1⟩, ⟨6, 19#6⟩, ⟨6, vd⟩, ⟨6, vs1⟩, ⟨5, amt⟩, ⟨3, 0#3⟩, ⟨2, 2#2⟩, ⟨1, b1⟩, ⟨2, m⟩]) (by simp only [value, BitVec.toNat_ofNat]; omega)] at he
  cases he
  rw [decode_wide, major_19 _ (hb 1 6)]
  refine (arm_vsraImm _ (hb 27 2)).trans ?_
  refine (must_word _ _ _ hw rfl).trans ?_
  simp only [hb]
  rfl

theorem arm_vshfl (w : BitVec 32) (h0 : bf w 7 3 = 0#3) : decodeVxl w =
    .ok (.vshfl (bf w 30 2) (bf w 29 1) (bf w 28 1) (bf w 22 6) (bf w 16 6) (bf w 10 6)) := by unfold decodeVxl; rw [h0]; rfl

theorem RoundTrip.vshfl (m b2 b1 vs2 vs1 vd) : RoundTrip.Statement (.vshfl m b2 b1 vs2 vs1 vd) := by
  intro _ c0 he
  have hw : width [⟨1, 1#1⟩, ⟨6, 20#6⟩, ⟨3, 0#3⟩, ⟨6, vd⟩, ⟨6, vs1⟩, ⟨6, vs2⟩, ⟨1, b1⟩, ⟨1, b2⟩, ⟨2, m⟩] ≤ 32 := Nat.le.refl
  have hb := fun lo n => bf_word _ lo n hw
  rw [show encode (.vshfl m b2 b1 vs2 vs1 vd) = _ from wide_word (l := [⟨1, 1#1⟩, ⟨6, 20#6⟩, ⟨3, 0#3⟩, ⟨6, vd⟩, ⟨6, vs1⟩, ⟨6, vs2⟩, ⟨1, b1⟩, ⟨1, b2⟩, ⟨2, m⟩]) (by simp only [value, BitVec.toNat_ofNat]; omega)] at he
  cases he
  rw [decode_wide, major_20 _ (hb 1 6)]
  refine (arm_vshfl _ (hb 7 3)).trans ?_
  simp only [hb]
  rfl

theorem arm_vballot (w : BitVec 32) (h0 : bf w 7 3 = 1#3) : decodeVxl w =
    must [(22, 6), (29, 1)] w (.vballot (bf w 30 2) (bf w 28 1) (bf w 16 6) (bf w 10 6)) := by unfold decodeVxl; rw [h0]; rfl

theorem RoundTrip.vballot (m b1 vs1 sd) : RoundTrip.Statement (.vballot m b1 vs1 sd) := by
  intro _ c0 he
  have hw : width [⟨1, 1#1⟩, ⟨6, 20#6⟩, ⟨3, 1#3⟩, ⟨6, sd⟩, ⟨6, vs1⟩, ⟨6, 0#6⟩, ⟨1, b1⟩, ⟨1, 0#1⟩, ⟨2, m⟩] ≤ 32 := Nat.le.refl
  have hb := fun lo n => bf_word _ lo n hw
  rw [show encode (.vballot m b1 vs1 sd) = _ from wide_word (l := [⟨1, 1#1⟩, ⟨6, 20#6⟩, ⟨3, 1#3⟩, ⟨6, sd⟩, ⟨6, vs1⟩, ⟨6, 0#6⟩, ⟨1, b1⟩, ⟨1, 0#1⟩, ⟨2, m⟩]) (by simp only [value, BitVec.toNat_ofNat]; omega)] at he
  cases he
  rw [decode_wide, major_20 _ (hb 1 6)]
  refine (arm_vballot _ (hb 7 3)).trans ?_
  refine (must_word _ _ _ hw rfl).trans ?_
  simp only [hb]
  rfl

theorem arm_xshf (w : BitVec 32) (h0 : bf w 7 3 = 2#3) : decodeVxl w =
    must [(29, 1)] w (.xshf (bf w 30 2) (bf w 28 1) (bf w 22 6) (bf w 16 6) (bf w 10 6)) := by unfold decodeVxl; rw [h0]; rfl

theorem RoundTrip.xshf (m b1 ss vs1 vd) : RoundTrip.Statement (.xshf m b1 ss vs1 vd) := by
  intro _ c0 he
  have hw : width [⟨1, 1#1⟩, ⟨6, 20#6⟩, ⟨3, 2#3⟩, ⟨6, vd⟩, ⟨6, vs1⟩, ⟨6, ss⟩, ⟨1, b1⟩, ⟨1, 0#1⟩, ⟨2, m⟩] ≤ 32 := Nat.le.refl
  have hb := fun lo n => bf_word _ lo n hw
  rw [show encode (.xshf m b1 ss vs1 vd) = _ from wide_word (l := [⟨1, 1#1⟩, ⟨6, 20#6⟩, ⟨3, 2#3⟩, ⟨6, vd⟩, ⟨6, vs1⟩, ⟨6, ss⟩, ⟨1, b1⟩, ⟨1, 0#1⟩, ⟨2, m⟩]) (by simp only [value, BitVec.toNat_ofNat]; omega)] at he
  cases he
  rw [decode_wide, major_20 _ (hb 1 6)]
  refine (arm_xshf _ (hb 7 3)).trans ?_
  refine (must_word _ _ _ hw rfl).trans ?_
  simp only [hb]
  rfl

theorem RoundTrip.vred (m b1 rm ty op vs1 vd) : RoundTrip.Statement (.vred m b1 rm ty op vs1 vd) := by
  intro _ c0 he
  have hw : width [⟨1, 1#1⟩, ⟨6, 21#6⟩, ⟨6, vd⟩, ⟨6, vs1⟩, ⟨4, op⟩, ⟨3, ty⟩, ⟨2, rm⟩, ⟨1, 0#1⟩, ⟨1, b1⟩, ⟨2, m⟩] ≤ 32 := Nat.le.refl
  have hb := fun lo n => bf_word _ lo n hw
  rw [show encode (.vred m b1 rm ty op vs1 vd) = _ from wide_word (l := [⟨1, 1#1⟩, ⟨6, 21#6⟩, ⟨6, vd⟩, ⟨6, vs1⟩, ⟨4, op⟩, ⟨3, ty⟩, ⟨2, rm⟩, ⟨1, 0#1⟩, ⟨1, b1⟩, ⟨2, m⟩]) (by simp only [value, BitVec.toNat_ofNat]; omega)] at he
  cases he
  rw [decode_wide, major_21 _ (hb 1 6)]
  unfold decodeVred
  refine (must_word _ _ _ hw rfl).trans ?_
  simp only [hb]
  rfl

theorem RoundTrip.vscan (m b1 excl rm ty op vs1 vd) : RoundTrip.Statement (.vscan m b1 excl rm ty op vs1 vd) := by
  intro _ c0 he
  have hw : width [⟨1, 1#1⟩, ⟨6, 22#6⟩, ⟨6, vd⟩, ⟨6, vs1⟩, ⟨4, op⟩, ⟨3, ty⟩, ⟨2, rm⟩, ⟨1, excl⟩, ⟨1, b1⟩, ⟨2, m⟩] ≤ 32 := Nat.le.refl
  have hb := fun lo n => bf_word _ lo n hw
  rw [show encode (.vscan m b1 excl rm ty op vs1 vd) = _ from wide_word (l := [⟨1, 1#1⟩, ⟨6, 22#6⟩, ⟨6, vd⟩, ⟨6, vs1⟩, ⟨4, op⟩, ⟨3, ty⟩, ⟨2, rm⟩, ⟨1, excl⟩, ⟨1, b1⟩, ⟨2, m⟩]) (by simp only [value, BitVec.toNat_ofNat]; omega)] at he
  cases he
  rw [decode_wide, major_22 _ (hb 1 6)]
  unfold decodeVscan
  simp only [hb]
  rfl

theorem arm_vminidx (w : BitVec 32) (h0 : bf w 19 1 = 0#1) : decodeVidx w =
    must [(22, 7)] w (.vminidx (bf w 30 2) (bf w 29 1) (bf w 20 2) (bf w 13 6) (bf w 7 6)) := by unfold decodeVidx; rw [h0]; rfl

theorem RoundTrip.vminidx (m b1 ty vs1 vd) : RoundTrip.Statement (.vminidx m b1 ty vs1 vd) := by
  intro _ c0 he
  have hw : width [⟨1, 1#1⟩, ⟨6, 23#6⟩, ⟨6, vd⟩, ⟨6, vs1⟩, ⟨1, 0#1⟩, ⟨2, ty⟩, ⟨7, 0#7⟩, ⟨1, b1⟩, ⟨2, m⟩] ≤ 32 := Nat.le.refl
  have hb := fun lo n => bf_word _ lo n hw
  rw [show encode (.vminidx m b1 ty vs1 vd) = _ from wide_word (l := [⟨1, 1#1⟩, ⟨6, 23#6⟩, ⟨6, vd⟩, ⟨6, vs1⟩, ⟨1, 0#1⟩, ⟨2, ty⟩, ⟨7, 0#7⟩, ⟨1, b1⟩, ⟨2, m⟩]) (by simp only [value, BitVec.toNat_ofNat]; omega)] at he
  cases he
  rw [decode_wide, major_23 _ (hb 1 6)]
  refine (arm_vminidx _ (hb 19 1)).trans ?_
  refine (must_word _ _ _ hw rfl).trans ?_
  simp only [hb]
  rfl

theorem arm_vmaxidx (w : BitVec 32) (h0 : bf w 19 1 = 1#1) : decodeVidx w =
    must [(22, 7)] w (.vmaxidx (bf w 30 2) (bf w 29 1) (bf w 20 2) (bf w 13 6) (bf w 7 6)) := by unfold decodeVidx; rw [h0]; rfl

theorem RoundTrip.vmaxidx (m b1 ty vs1 vd) : RoundTrip.Statement (.vmaxidx m b1 ty vs1 vd) := by
  intro _ c0 he
  have hw : width [⟨1, 1#1⟩, ⟨6, 23#6⟩, ⟨6, vd⟩, ⟨6, vs1⟩, ⟨1, 1#1⟩, ⟨2, ty⟩, ⟨7, 0#7⟩, ⟨1, b1⟩, ⟨2, m⟩] ≤ 32 := Nat.le.refl
  have hb := fun lo n => bf_word _ lo n hw
  rw [show encode (.vmaxidx m b1 ty vs1 vd) = _ from wide_word (l := [⟨1, 1#1⟩, ⟨6, 23#6⟩, ⟨6, vd⟩, ⟨6, vs1⟩, ⟨1, 1#1⟩, ⟨2, ty⟩, ⟨7, 0#7⟩, ⟨1, b1⟩, ⟨2, m⟩]) (by simp only [value, BitVec.toNat_ofNat]; omega)] at he
  cases he
  rw [decode_wide, major_23 _ (hb 1 6)]
  refine (arm_vmaxidx _ (hb 19 1)).trans ?_
  refine (must_word _ _ _ hw rfl).trans ?_
  simp only [hb]
  rfl

theorem arm_mand (w : BitVec 32) (h0 : bf w 7 3 = 0#3) : decodeMask w =
    must [(13, 3), (19, 3), (25, 7)] w (.mand (bf w 22 3) (bf w 16 3) (bf w 10 3)) := by unfold decodeMask; rw [h0]; rfl

theorem RoundTrip.mand (mb ma md) : RoundTrip.Statement (.mand mb ma md) := by
  intro _ c0 he
  have hw : width [⟨1, 1#1⟩, ⟨6, 24#6⟩, ⟨3, 0#3⟩, ⟨3, md⟩, ⟨3, 0#3⟩, ⟨3, ma⟩, ⟨3, 0#3⟩, ⟨3, mb⟩, ⟨7, 0#7⟩] ≤ 32 := Nat.le.refl
  have hb := fun lo n => bf_word _ lo n hw
  rw [show encode (.mand mb ma md) = _ from wide_word (l := [⟨1, 1#1⟩, ⟨6, 24#6⟩, ⟨3, 0#3⟩, ⟨3, md⟩, ⟨3, 0#3⟩, ⟨3, ma⟩, ⟨3, 0#3⟩, ⟨3, mb⟩, ⟨7, 0#7⟩]) (by simp only [value, BitVec.toNat_ofNat]; omega)] at he
  cases he
  rw [decode_wide, major_24 _ (hb 1 6)]
  refine (arm_mand _ (hb 7 3)).trans ?_
  refine (must_word _ _ _ hw rfl).trans ?_
  simp only [hb]
  rfl

theorem arm_mor (w : BitVec 32) (h0 : bf w 7 3 = 1#3) : decodeMask w =
    must [(13, 3), (19, 3), (25, 7)] w (.mor (bf w 22 3) (bf w 16 3) (bf w 10 3)) := by unfold decodeMask; rw [h0]; rfl

theorem RoundTrip.mor (mb ma md) : RoundTrip.Statement (.mor mb ma md) := by
  intro _ c0 he
  have hw : width [⟨1, 1#1⟩, ⟨6, 24#6⟩, ⟨3, 1#3⟩, ⟨3, md⟩, ⟨3, 0#3⟩, ⟨3, ma⟩, ⟨3, 0#3⟩, ⟨3, mb⟩, ⟨7, 0#7⟩] ≤ 32 := Nat.le.refl
  have hb := fun lo n => bf_word _ lo n hw
  rw [show encode (.mor mb ma md) = _ from wide_word (l := [⟨1, 1#1⟩, ⟨6, 24#6⟩, ⟨3, 1#3⟩, ⟨3, md⟩, ⟨3, 0#3⟩, ⟨3, ma⟩, ⟨3, 0#3⟩, ⟨3, mb⟩, ⟨7, 0#7⟩]) (by simp only [value, BitVec.toNat_ofNat]; omega)] at he
  cases he
  rw [decode_wide, major_24 _ (hb 1 6)]
  refine (arm_mor _ (hb 7 3)).trans ?_
  refine (must_word _ _ _ hw rfl).trans ?_
  simp only [hb]
  rfl

theorem arm_mnot (w : BitVec 32) (h0 : bf w 7 3 = 2#3) : decodeMask w =
    must [(13, 3), (19, 13)] w (.mnot (bf w 16 3) (bf w 10 3)) := by unfold decodeMask; rw [h0]; rfl

theorem RoundTrip.mnot (ma md) : RoundTrip.Statement (.mnot ma md) := by
  intro _ c0 he
  have hw : width [⟨1, 1#1⟩, ⟨6, 24#6⟩, ⟨3, 2#3⟩, ⟨3, md⟩, ⟨3, 0#3⟩, ⟨3, ma⟩, ⟨13, 0#13⟩] ≤ 32 := Nat.le.refl
  have hb := fun lo n => bf_word _ lo n hw
  rw [show encode (.mnot ma md) = _ from wide_word (l := [⟨1, 1#1⟩, ⟨6, 24#6⟩, ⟨3, 2#3⟩, ⟨3, md⟩, ⟨3, 0#3⟩, ⟨3, ma⟩, ⟨13, 0#13⟩]) (by simp only [value, BitVec.toNat_ofNat]; omega)] at he
  cases he
  rw [decode_wide, major_24 _ (hb 1 6)]
  refine (arm_mnot _ (hb 7 3)).trans ?_
  refine (must_word _ _ _ hw rfl).trans ?_
  simp only [hb]
  rfl

theorem arm_mpopc (w : BitVec 32) (h0 : bf w 7 3 = 3#3) : decodeMask w =
    must [(19, 13)] w (.mpopc (bf w 16 3) (bf w 10 6)) := by unfold decodeMask; rw [h0]; rfl

theorem RoundTrip.mpopc (ma sd) : RoundTrip.Statement (.mpopc ma sd) := by
  intro _ c0 he
  have hw : width [⟨1, 1#1⟩, ⟨6, 24#6⟩, ⟨3, 3#3⟩, ⟨6, sd⟩, ⟨3, ma⟩, ⟨13, 0#13⟩] ≤ 32 := Nat.le.refl
  have hb := fun lo n => bf_word _ lo n hw
  rw [show encode (.mpopc ma sd) = _ from wide_word (l := [⟨1, 1#1⟩, ⟨6, 24#6⟩, ⟨3, 3#3⟩, ⟨6, sd⟩, ⟨3, ma⟩, ⟨13, 0#13⟩]) (by simp only [value, BitVec.toNat_ofNat]; omega)] at he
  cases he
  rw [decode_wide, major_24 _ (hb 1 6)]
  refine (arm_mpopc _ (hb 7 3)).trans ?_
  refine (must_word _ _ _ hw rfl).trans ?_
  simp only [hb]
  rfl

theorem arm_mfirst (w : BitVec 32) (h0 : bf w 7 3 = 4#3) : decodeMask w =
    must [(19, 13)] w (.mfirst (bf w 16 3) (bf w 10 6)) := by unfold decodeMask; rw [h0]; rfl

theorem RoundTrip.mfirst (ma sd) : RoundTrip.Statement (.mfirst ma sd) := by
  intro _ c0 he
  have hw : width [⟨1, 1#1⟩, ⟨6, 24#6⟩, ⟨3, 4#3⟩, ⟨6, sd⟩, ⟨3, ma⟩, ⟨13, 0#13⟩] ≤ 32 := Nat.le.refl
  have hb := fun lo n => bf_word _ lo n hw
  rw [show encode (.mfirst ma sd) = _ from wide_word (l := [⟨1, 1#1⟩, ⟨6, 24#6⟩, ⟨3, 4#3⟩, ⟨6, sd⟩, ⟨3, ma⟩, ⟨13, 0#13⟩]) (by simp only [value, BitVec.toNat_ofNat]; omega)] at he
  cases he
  rw [decode_wide, major_24 _ (hb 1 6)]
  refine (arm_mfirst _ (hb 7 3)).trans ?_
  refine (must_word _ _ _ hw rfl).trans ?_
  simp only [hb]
  rfl

theorem RoundTrip.vpln (m b1 plane vs1 vd) : RoundTrip.Statement (.vpln m b1 plane vs1 vd) := by
  intro _ c0 he
  have hw : width [⟨1, 1#1⟩, ⟨6, 25#6⟩, ⟨6, vd⟩, ⟨6, vs1⟩, ⟨6, plane⟩, ⟨4, 0#4⟩, ⟨1, b1⟩, ⟨2, m⟩] ≤ 32 := Nat.le.refl
  have hb := fun lo n => bf_word _ lo n hw
  rw [show encode (.vpln m b1 plane vs1 vd) = _ from wide_word (l := [⟨1, 1#1⟩, ⟨6, 25#6⟩, ⟨6, vd⟩, ⟨6, vs1⟩, ⟨6, plane⟩, ⟨4, 0#4⟩, ⟨1, b1⟩, ⟨2, m⟩]) (by simp only [value, BitVec.toNat_ofNat]; omega)] at he
  cases he
  rw [decode_wide, major_25 _ (hb 1 6)]
  unfold decodeVpln
  refine (must_word _ _ _ hw rfl).trans ?_
  simp only [hb]
  rfl

theorem RoundTrip.vqnt (m b1 tid vs1 vd) : RoundTrip.Statement (.vqnt m b1 tid vs1 vd) := by
  intro _ c0 he
  have hw : width [⟨1, 1#1⟩, ⟨6, 26#6⟩, ⟨6, vd⟩, ⟨6, vs1⟩, ⟨7, tid⟩, ⟨3, 0#3⟩, ⟨1, b1⟩, ⟨2, m⟩] ≤ 32 := Nat.le.refl
  have hb := fun lo n => bf_word _ lo n hw
  rw [show encode (.vqnt m b1 tid vs1 vd) = _ from wide_word (l := [⟨1, 1#1⟩, ⟨6, 26#6⟩, ⟨6, vd⟩, ⟨6, vs1⟩, ⟨7, tid⟩, ⟨3, 0#3⟩, ⟨1, b1⟩, ⟨2, m⟩]) (by simp only [value, BitVec.toNat_ofNat]; omega)] at he
  cases he
  rw [decode_wide, major_26 _ (hb 1 6)]
  unfold decodeVqnt
  refine (must_word _ _ _ hw rfl).trans ?_
  simp only [hb]
  rfl

theorem arm_mma (w : BitVec 32) (h0 : bf w 7 3 = 0#3) : decodeMtx w =
    must [(29, 3)] w (.mma (bf w 28 1) (bf w 21 7) (bf w 14 7) (bf w 10 4)) := by unfold decodeMtx; rw [h0]; rfl

theorem RoundTrip.mma (z tb ta tc) : RoundTrip.Statement (.mma z tb ta tc) := by
  intro _ c0 he
  have hw : width [⟨1, 1#1⟩, ⟨6, 27#6⟩, ⟨3, 0#3⟩, ⟨4, tc⟩, ⟨7, ta⟩, ⟨7, tb⟩, ⟨1, z⟩, ⟨3, 0#3⟩] ≤ 32 := Nat.le.refl
  have hb := fun lo n => bf_word _ lo n hw
  rw [show encode (.mma z tb ta tc) = _ from wide_word (l := [⟨1, 1#1⟩, ⟨6, 27#6⟩, ⟨3, 0#3⟩, ⟨4, tc⟩, ⟨7, ta⟩, ⟨7, tb⟩, ⟨1, z⟩, ⟨3, 0#3⟩]) (by simp only [value, BitVec.toNat_ofNat]; omega)] at he
  cases he
  rw [decode_wide, major_27 _ (hb 1 6)]
  refine (arm_mma _ (hb 7 3)).trans ?_
  refine (must_word _ _ _ hw rfl).trans ?_
  simp only [hb]
  rfl

theorem arm_mmsp (w : BitVec 32) (h0 : bf w 7 3 = 1#3) : decodeMtx w =
    must [(29, 3)] w (.mmsp (bf w 28 1) (bf w 21 7) (bf w 14 7) (bf w 10 4)) := by unfold decodeMtx; rw [h0]; rfl

theorem RoundTrip.mmsp (z tb ta tc) : RoundTrip.Statement (.mmsp z tb ta tc) := by
  intro _ c0 he
  have hw : width [⟨1, 1#1⟩, ⟨6, 27#6⟩, ⟨3, 1#3⟩, ⟨4, tc⟩, ⟨7, ta⟩, ⟨7, tb⟩, ⟨1, z⟩, ⟨3, 0#3⟩] ≤ 32 := Nat.le.refl
  have hb := fun lo n => bf_word _ lo n hw
  rw [show encode (.mmsp z tb ta tc) = _ from wide_word (l := [⟨1, 1#1⟩, ⟨6, 27#6⟩, ⟨3, 1#3⟩, ⟨4, tc⟩, ⟨7, ta⟩, ⟨7, tb⟩, ⟨1, z⟩, ⟨3, 0#3⟩]) (by simp only [value, BitVec.toNat_ofNat]; omega)] at he
  cases he
  rw [decode_wide, major_27 _ (hb 1 6)]
  refine (arm_mmsp _ (hb 7 3)).trans ?_
  refine (must_word _ _ _ hw rfl).trans ?_
  simp only [hb]
  rfl

theorem arm_mzero (w : BitVec 32) (h0 : bf w 7 3 = 2#3) : decodeMtx w =
    must [(14, 18)] w (.mzero (bf w 10 4)) := by unfold decodeMtx; rw [h0]; rfl

theorem RoundTrip.mzero (tc) : RoundTrip.Statement (.mzero tc) := by
  intro _ c0 he
  have hw : width [⟨1, 1#1⟩, ⟨6, 27#6⟩, ⟨3, 2#3⟩, ⟨4, tc⟩, ⟨18, 0#18⟩] ≤ 32 := Nat.le.refl
  have hb := fun lo n => bf_word _ lo n hw
  rw [show encode (.mzero tc) = _ from wide_word (l := [⟨1, 1#1⟩, ⟨6, 27#6⟩, ⟨3, 2#3⟩, ⟨4, tc⟩, ⟨18, 0#18⟩]) (by simp only [value, BitVec.toNat_ofNat]; omega)] at he
  cases he
  rw [decode_wide, major_27 _ (hb 1 6)]
  refine (arm_mzero _ (hb 7 3)).trans ?_
  refine (must_word _ _ _ hw rfl).trans ?_
  simp only [hb]
  rfl

theorem arm_cpyPln (w : BitVec 32) (h0 : bf w 7 3 = 3#3) (h1 : bf w 28 1 = 0#1) : decodeMtx w =
    must [(21, 7), (29, 3)] w (.cpyPln (bf w 14 7) (bf w 10 4)) := by unfold decodeMtx; rw [h0, h1]; rfl

theorem RoundTrip.cpyPln (ta tc) : RoundTrip.Statement (.cpyPln ta tc) := by
  intro _ c0 he
  have hw : width [⟨1, 1#1⟩, ⟨6, 27#6⟩, ⟨3, 3#3⟩, ⟨4, tc⟩, ⟨7, ta⟩, ⟨7, 0#7⟩, ⟨1, 0#1⟩, ⟨3, 0#3⟩] ≤ 32 := Nat.le.refl
  have hb := fun lo n => bf_word _ lo n hw
  rw [show encode (.cpyPln ta tc) = _ from wide_word (l := [⟨1, 1#1⟩, ⟨6, 27#6⟩, ⟨3, 3#3⟩, ⟨4, tc⟩, ⟨7, ta⟩, ⟨7, 0#7⟩, ⟨1, 0#1⟩, ⟨3, 0#3⟩]) (by simp only [value, BitVec.toNat_ofNat]; omega)] at he
  cases he
  rw [decode_wide, major_27 _ (hb 1 6)]
  refine (arm_cpyPln _ (hb 7 3) (hb 28 1)).trans ?_
  refine (must_word _ _ _ hw rfl).trans ?_
  simp only [hb]
  rfl

theorem arm_cpyPlnUnp (w : BitVec 32) (h0 : bf w 7 3 = 3#3) (h1 : bf w 28 1 = 1#1) : decodeMtx w =
    must [(21, 7), (29, 3)] w (.cpyPlnUnp (bf w 14 7) (bf w 10 4)) := by unfold decodeMtx; rw [h0, h1]; rfl

theorem RoundTrip.cpyPlnUnp (ta tc) : RoundTrip.Statement (.cpyPlnUnp ta tc) := by
  intro _ c0 he
  have hw : width [⟨1, 1#1⟩, ⟨6, 27#6⟩, ⟨3, 3#3⟩, ⟨4, tc⟩, ⟨7, ta⟩, ⟨7, 0#7⟩, ⟨1, 1#1⟩, ⟨3, 0#3⟩] ≤ 32 := Nat.le.refl
  have hb := fun lo n => bf_word _ lo n hw
  rw [show encode (.cpyPlnUnp ta tc) = _ from wide_word (l := [⟨1, 1#1⟩, ⟨6, 27#6⟩, ⟨3, 3#3⟩, ⟨4, tc⟩, ⟨7, ta⟩, ⟨7, 0#7⟩, ⟨1, 1#1⟩, ⟨3, 0#3⟩]) (by simp only [value, BitVec.toNat_ofNat]; omega)] at he
  cases he
  rw [decode_wide, major_27 _ (hb 1 6)]
  refine (arm_cpyPlnUnp _ (hb 7 3) (hb 28 1)).trans ?_
  refine (must_word _ _ _ hw rfl).trans ?_
  simp only [hb]
  rfl

theorem arm_cpyFold (w : BitVec 32) (h0 : bf w 7 3 = 4#3) : decodeMtx w =
    must [(28, 4)] w (.cpyFold (bf w 21 7) (bf w 14 7) (bf w 10 4)) := by unfold decodeMtx; rw [h0]; rfl

theorem RoundTrip.cpyFold (tb ta tc) : RoundTrip.Statement (.cpyFold tb ta tc) := by
  intro _ c0 he
  have hw : width [⟨1, 1#1⟩, ⟨6, 27#6⟩, ⟨3, 4#3⟩, ⟨4, tc⟩, ⟨7, ta⟩, ⟨7, tb⟩, ⟨4, 0#4⟩] ≤ 32 := Nat.le.refl
  have hb := fun lo n => bf_word _ lo n hw
  rw [show encode (.cpyFold tb ta tc) = _ from wide_word (l := [⟨1, 1#1⟩, ⟨6, 27#6⟩, ⟨3, 4#3⟩, ⟨4, tc⟩, ⟨7, ta⟩, ⟨7, tb⟩, ⟨4, 0#4⟩]) (by simp only [value, BitVec.toNat_ofNat]; omega)] at he
  cases he
  rw [decode_wide, major_27 _ (hb 1 6)]
  refine (arm_cpyFold _ (hb 7 3)).trans ?_
  refine (must_word _ _ _ hw rfl).trans ?_
  simp only [hb]
  rfl

theorem arm_sadd (w : BitVec 32) (h0 : bf w 7 3 = 0#3) : decodeSalu w =
    must [(30, 2)] w (.sadd (bf w 29 1) (bf w 28 1) (bf w 22 6) (bf w 16 6) (bf w 10 6)) := by unfold decodeSalu; rw [h0]; rfl

theorem RoundTrip.sadd (b2 b1 ss2 ss1 sd) : RoundTrip.Statement (.sadd b2 b1 ss2 ss1 sd) := by
  intro _ c0 he
  have hw : width [⟨1, 1#1⟩, ⟨6, 28#6⟩, ⟨3, 0#3⟩, ⟨6, sd⟩, ⟨6, ss1⟩, ⟨6, ss2⟩, ⟨1, b1⟩, ⟨1, b2⟩, ⟨2, 0#2⟩] ≤ 32 := Nat.le.refl
  have hb := fun lo n => bf_word _ lo n hw
  rw [show encode (.sadd b2 b1 ss2 ss1 sd) = _ from wide_word (l := [⟨1, 1#1⟩, ⟨6, 28#6⟩, ⟨3, 0#3⟩, ⟨6, sd⟩, ⟨6, ss1⟩, ⟨6, ss2⟩, ⟨1, b1⟩, ⟨1, b2⟩, ⟨2, 0#2⟩]) (by simp only [value, BitVec.toNat_ofNat]; omega)] at he
  cases he
  rw [decode_wide, major_28 _ (hb 1 6)]
  refine (arm_sadd _ (hb 7 3)).trans ?_
  refine (must_word _ _ _ hw rfl).trans ?_
  simp only [hb]
  rfl

theorem arm_ssub (w : BitVec 32) (h0 : bf w 7 3 = 1#3) : decodeSalu w =
    must [(30, 2)] w (.ssub (bf w 29 1) (bf w 28 1) (bf w 22 6) (bf w 16 6) (bf w 10 6)) := by unfold decodeSalu; rw [h0]; rfl

theorem RoundTrip.ssub (b2 b1 ss2 ss1 sd) : RoundTrip.Statement (.ssub b2 b1 ss2 ss1 sd) := by
  intro _ c0 he
  have hw : width [⟨1, 1#1⟩, ⟨6, 28#6⟩, ⟨3, 1#3⟩, ⟨6, sd⟩, ⟨6, ss1⟩, ⟨6, ss2⟩, ⟨1, b1⟩, ⟨1, b2⟩, ⟨2, 0#2⟩] ≤ 32 := Nat.le.refl
  have hb := fun lo n => bf_word _ lo n hw
  rw [show encode (.ssub b2 b1 ss2 ss1 sd) = _ from wide_word (l := [⟨1, 1#1⟩, ⟨6, 28#6⟩, ⟨3, 1#3⟩, ⟨6, sd⟩, ⟨6, ss1⟩, ⟨6, ss2⟩, ⟨1, b1⟩, ⟨1, b2⟩, ⟨2, 0#2⟩]) (by simp only [value, BitVec.toNat_ofNat]; omega)] at he
  cases he
  rw [decode_wide, major_28 _ (hb 1 6)]
  refine (arm_ssub _ (hb 7 3)).trans ?_
  refine (must_word _ _ _ hw rfl).trans ?_
  simp only [hb]
  rfl

theorem arm_smul (w : BitVec 32) (h0 : bf w 7 3 = 2#3) : decodeSalu w =
    must [(30, 2)] w (.smul (bf w 29 1) (bf w 28 1) (bf w 22 6) (bf w 16 6) (bf w 10 6)) := by unfold decodeSalu; rw [h0]; rfl

theorem RoundTrip.smul (b2 b1 ss2 ss1 sd) : RoundTrip.Statement (.smul b2 b1 ss2 ss1 sd) := by
  intro _ c0 he
  have hw : width [⟨1, 1#1⟩, ⟨6, 28#6⟩, ⟨3, 2#3⟩, ⟨6, sd⟩, ⟨6, ss1⟩, ⟨6, ss2⟩, ⟨1, b1⟩, ⟨1, b2⟩, ⟨2, 0#2⟩] ≤ 32 := Nat.le.refl
  have hb := fun lo n => bf_word _ lo n hw
  rw [show encode (.smul b2 b1 ss2 ss1 sd) = _ from wide_word (l := [⟨1, 1#1⟩, ⟨6, 28#6⟩, ⟨3, 2#3⟩, ⟨6, sd⟩, ⟨6, ss1⟩, ⟨6, ss2⟩, ⟨1, b1⟩, ⟨1, b2⟩, ⟨2, 0#2⟩]) (by simp only [value, BitVec.toNat_ofNat]; omega)] at he
  cases he
  rw [decode_wide, major_28 _ (hb 1 6)]
  refine (arm_smul _ (hb 7 3)).trans ?_
  refine (must_word _ _ _ hw rfl).trans ?_
  simp only [hb]
  rfl

theorem arm_sand (w : BitVec 32) (h0 : bf w 7 3 = 3#3) : decodeSalu w =
    must [(30, 2)] w (.sand (bf w 29 1) (bf w 28 1) (bf w 22 6) (bf w 16 6) (bf w 10 6)) := by unfold decodeSalu; rw [h0]; rfl

theorem RoundTrip.sand (b2 b1 ss2 ss1 sd) : RoundTrip.Statement (.sand b2 b1 ss2 ss1 sd) := by
  intro _ c0 he
  have hw : width [⟨1, 1#1⟩, ⟨6, 28#6⟩, ⟨3, 3#3⟩, ⟨6, sd⟩, ⟨6, ss1⟩, ⟨6, ss2⟩, ⟨1, b1⟩, ⟨1, b2⟩, ⟨2, 0#2⟩] ≤ 32 := Nat.le.refl
  have hb := fun lo n => bf_word _ lo n hw
  rw [show encode (.sand b2 b1 ss2 ss1 sd) = _ from wide_word (l := [⟨1, 1#1⟩, ⟨6, 28#6⟩, ⟨3, 3#3⟩, ⟨6, sd⟩, ⟨6, ss1⟩, ⟨6, ss2⟩, ⟨1, b1⟩, ⟨1, b2⟩, ⟨2, 0#2⟩]) (by simp only [value, BitVec.toNat_ofNat]; omega)] at he
  cases he
  rw [decode_wide, major_28 _ (hb 1 6)]
  refine (arm_sand _ (hb 7 3)).trans ?_
  refine (must_word _ _ _ hw rfl).trans ?_
  simp only [hb]
  rfl

theorem arm_sor (w : BitVec 32) (h0 : bf w 7 3 = 4#3) : decodeSalu w =
    must [(30, 2)] w (.sor (bf w 29 1) (bf w 28 1) (bf w 22 6) (bf w 16 6) (bf w 10 6)) := by unfold decodeSalu; rw [h0]; rfl

theorem RoundTrip.sor (b2 b1 ss2 ss1 sd) : RoundTrip.Statement (.sor b2 b1 ss2 ss1 sd) := by
  intro _ c0 he
  have hw : width [⟨1, 1#1⟩, ⟨6, 28#6⟩, ⟨3, 4#3⟩, ⟨6, sd⟩, ⟨6, ss1⟩, ⟨6, ss2⟩, ⟨1, b1⟩, ⟨1, b2⟩, ⟨2, 0#2⟩] ≤ 32 := Nat.le.refl
  have hb := fun lo n => bf_word _ lo n hw
  rw [show encode (.sor b2 b1 ss2 ss1 sd) = _ from wide_word (l := [⟨1, 1#1⟩, ⟨6, 28#6⟩, ⟨3, 4#3⟩, ⟨6, sd⟩, ⟨6, ss1⟩, ⟨6, ss2⟩, ⟨1, b1⟩, ⟨1, b2⟩, ⟨2, 0#2⟩]) (by simp only [value, BitVec.toNat_ofNat]; omega)] at he
  cases he
  rw [decode_wide, major_28 _ (hb 1 6)]
  refine (arm_sor _ (hb 7 3)).trans ?_
  refine (must_word _ _ _ hw rfl).trans ?_
  simp only [hb]
  rfl

theorem arm_sxor (w : BitVec 32) (h0 : bf w 7 3 = 5#3) : decodeSalu w =
    must [(30, 2)] w (.sxor (bf w 29 1) (bf w 28 1) (bf w 22 6) (bf w 16 6) (bf w 10 6)) := by unfold decodeSalu; rw [h0]; rfl

theorem RoundTrip.sxor (b2 b1 ss2 ss1 sd) : RoundTrip.Statement (.sxor b2 b1 ss2 ss1 sd) := by
  intro _ c0 he
  have hw : width [⟨1, 1#1⟩, ⟨6, 28#6⟩, ⟨3, 5#3⟩, ⟨6, sd⟩, ⟨6, ss1⟩, ⟨6, ss2⟩, ⟨1, b1⟩, ⟨1, b2⟩, ⟨2, 0#2⟩] ≤ 32 := Nat.le.refl
  have hb := fun lo n => bf_word _ lo n hw
  rw [show encode (.sxor b2 b1 ss2 ss1 sd) = _ from wide_word (l := [⟨1, 1#1⟩, ⟨6, 28#6⟩, ⟨3, 5#3⟩, ⟨6, sd⟩, ⟨6, ss1⟩, ⟨6, ss2⟩, ⟨1, b1⟩, ⟨1, b2⟩, ⟨2, 0#2⟩]) (by simp only [value, BitVec.toNat_ofNat]; omega)] at he
  cases he
  rw [decode_wide, major_28 _ (hb 1 6)]
  refine (arm_sxor _ (hb 7 3)).trans ?_
  refine (must_word _ _ _ hw rfl).trans ?_
  simp only [hb]
  rfl

theorem arm_smin (w : BitVec 32) (h0 : bf w 7 3 = 6#3) : decodeSalu w =
    must [(31, 1)] w (.smin (bf w 30 1) (bf w 29 1) (bf w 28 1) (bf w 22 6) (bf w 16 6) (bf w 10 6)) := by unfold decodeSalu; rw [h0]; rfl

theorem RoundTrip.smin (u b2 b1 ss2 ss1 sd) : RoundTrip.Statement (.smin u b2 b1 ss2 ss1 sd) := by
  intro _ c0 he
  have hw : width [⟨1, 1#1⟩, ⟨6, 28#6⟩, ⟨3, 6#3⟩, ⟨6, sd⟩, ⟨6, ss1⟩, ⟨6, ss2⟩, ⟨1, b1⟩, ⟨1, b2⟩, ⟨1, u⟩, ⟨1, 0#1⟩] ≤ 32 := Nat.le.refl
  have hb := fun lo n => bf_word _ lo n hw
  rw [show encode (.smin u b2 b1 ss2 ss1 sd) = _ from wide_word (l := [⟨1, 1#1⟩, ⟨6, 28#6⟩, ⟨3, 6#3⟩, ⟨6, sd⟩, ⟨6, ss1⟩, ⟨6, ss2⟩, ⟨1, b1⟩, ⟨1, b2⟩, ⟨1, u⟩, ⟨1, 0#1⟩]) (by simp only [value, BitVec.toNat_ofNat]; omega)] at he
  cases he
  rw [decode_wide, major_28 _ (hb 1 6)]
  refine (arm_smin _ (hb 7 3)).trans ?_
  refine (must_word _ _ _ hw rfl).trans ?_
  simp only [hb]
  rfl

theorem arm_smax (w : BitVec 32) (h0 : bf w 7 3 = 7#3) : decodeSalu w =
    must [(31, 1)] w (.smax (bf w 30 1) (bf w 29 1) (bf w 28 1) (bf w 22 6) (bf w 16 6) (bf w 10 6)) := by unfold decodeSalu; rw [h0]; rfl

theorem RoundTrip.smax (u b2 b1 ss2 ss1 sd) : RoundTrip.Statement (.smax u b2 b1 ss2 ss1 sd) := by
  intro _ c0 he
  have hw : width [⟨1, 1#1⟩, ⟨6, 28#6⟩, ⟨3, 7#3⟩, ⟨6, sd⟩, ⟨6, ss1⟩, ⟨6, ss2⟩, ⟨1, b1⟩, ⟨1, b2⟩, ⟨1, u⟩, ⟨1, 0#1⟩] ≤ 32 := Nat.le.refl
  have hb := fun lo n => bf_word _ lo n hw
  rw [show encode (.smax u b2 b1 ss2 ss1 sd) = _ from wide_word (l := [⟨1, 1#1⟩, ⟨6, 28#6⟩, ⟨3, 7#3⟩, ⟨6, sd⟩, ⟨6, ss1⟩, ⟨6, ss2⟩, ⟨1, b1⟩, ⟨1, b2⟩, ⟨1, u⟩, ⟨1, 0#1⟩]) (by simp only [value, BitVec.toNat_ofNat]; omega)] at he
  cases he
  rw [decode_wide, major_28 _ (hb 1 6)]
  refine (arm_smax _ (hb 7 3)).trans ?_
  refine (must_word _ _ _ hw rfl).trans ?_
  simp only [hb]
  rfl

theorem arm_sshl (w : BitVec 32) (h0 : bf w 7 3 = 0#3) : decodeSsh w =
    must [(30, 2)] w (.sshl (bf w 29 1) (bf w 28 1) (bf w 22 6) (bf w 16 6) (bf w 10 6)) := by unfold decodeSsh; rw [h0]; rfl

theorem RoundTrip.sshl (b2 b1 ss2 ss1 sd) : RoundTrip.Statement (.sshl b2 b1 ss2 ss1 sd) := by
  intro _ c0 he
  have hw : width [⟨1, 1#1⟩, ⟨6, 29#6⟩, ⟨3, 0#3⟩, ⟨6, sd⟩, ⟨6, ss1⟩, ⟨6, ss2⟩, ⟨1, b1⟩, ⟨1, b2⟩, ⟨2, 0#2⟩] ≤ 32 := Nat.le.refl
  have hb := fun lo n => bf_word _ lo n hw
  rw [show encode (.sshl b2 b1 ss2 ss1 sd) = _ from wide_word (l := [⟨1, 1#1⟩, ⟨6, 29#6⟩, ⟨3, 0#3⟩, ⟨6, sd⟩, ⟨6, ss1⟩, ⟨6, ss2⟩, ⟨1, b1⟩, ⟨1, b2⟩, ⟨2, 0#2⟩]) (by simp only [value, BitVec.toNat_ofNat]; omega)] at he
  cases he
  rw [decode_wide, major_29 _ (hb 1 6)]
  refine (arm_sshl _ (hb 7 3)).trans ?_
  refine (must_word _ _ _ hw rfl).trans ?_
  simp only [hb]
  rfl

theorem arm_sshr (w : BitVec 32) (h0 : bf w 7 3 = 1#3) : decodeSsh w =
    must [(30, 2)] w (.sshr (bf w 29 1) (bf w 28 1) (bf w 22 6) (bf w 16 6) (bf w 10 6)) := by unfold decodeSsh; rw [h0]; rfl

theorem RoundTrip.sshr (b2 b1 ss2 ss1 sd) : RoundTrip.Statement (.sshr b2 b1 ss2 ss1 sd) := by
  intro _ c0 he
  have hw : width [⟨1, 1#1⟩, ⟨6, 29#6⟩, ⟨3, 1#3⟩, ⟨6, sd⟩, ⟨6, ss1⟩, ⟨6, ss2⟩, ⟨1, b1⟩, ⟨1, b2⟩, ⟨2, 0#2⟩] ≤ 32 := Nat.le.refl
  have hb := fun lo n => bf_word _ lo n hw
  rw [show encode (.sshr b2 b1 ss2 ss1 sd) = _ from wide_word (l := [⟨1, 1#1⟩, ⟨6, 29#6⟩, ⟨3, 1#3⟩, ⟨6, sd⟩, ⟨6, ss1⟩, ⟨6, ss2⟩, ⟨1, b1⟩, ⟨1, b2⟩, ⟨2, 0#2⟩]) (by simp only [value, BitVec.toNat_ofNat]; omega)] at he
  cases he
  rw [decode_wide, major_29 _ (hb 1 6)]
  refine (arm_sshr _ (hb 7 3)).trans ?_
  refine (must_word _ _ _ hw rfl).trans ?_
  simp only [hb]
  rfl

theorem arm_ssra (w : BitVec 32) (h0 : bf w 7 3 = 2#3) : decodeSsh w =
    must [(30, 2)] w (.ssra (bf w 29 1) (bf w 28 1) (bf w 22 6) (bf w 16 6) (bf w 10 6)) := by unfold decodeSsh; rw [h0]; rfl

theorem RoundTrip.ssra (b2 b1 ss2 ss1 sd) : RoundTrip.Statement (.ssra b2 b1 ss2 ss1 sd) := by
  intro _ c0 he
  have hw : width [⟨1, 1#1⟩, ⟨6, 29#6⟩, ⟨3, 2#3⟩, ⟨6, sd⟩, ⟨6, ss1⟩, ⟨6, ss2⟩, ⟨1, b1⟩, ⟨1, b2⟩, ⟨2, 0#2⟩] ≤ 32 := Nat.le.refl
  have hb := fun lo n => bf_word _ lo n hw
  rw [show encode (.ssra b2 b1 ss2 ss1 sd) = _ from wide_word (l := [⟨1, 1#1⟩, ⟨6, 29#6⟩, ⟨3, 2#3⟩, ⟨6, sd⟩, ⟨6, ss1⟩, ⟨6, ss2⟩, ⟨1, b1⟩, ⟨1, b2⟩, ⟨2, 0#2⟩]) (by simp only [value, BitVec.toNat_ofNat]; omega)] at he
  cases he
  rw [decode_wide, major_29 _ (hb 1 6)]
  refine (arm_ssra _ (hb 7 3)).trans ?_
  refine (must_word _ _ _ hw rfl).trans ?_
  simp only [hb]
  rfl

theorem arm_smov (w : BitVec 32) (h0 : bf w 7 3 = 3#3) : decodeSsh w =
    must [(22, 6), (29, 3)] w (.smov (bf w 28 1) (bf w 16 6) (bf w 10 6)) := by unfold decodeSsh; rw [h0]; rfl

theorem RoundTrip.smov (b1 ss1 sd) : RoundTrip.Statement (.smov b1 ss1 sd) := by
  intro _ c0 he
  have hw : width [⟨1, 1#1⟩, ⟨6, 29#6⟩, ⟨3, 3#3⟩, ⟨6, sd⟩, ⟨6, ss1⟩, ⟨6, 0#6⟩, ⟨1, b1⟩, ⟨3, 0#3⟩] ≤ 32 := Nat.le.refl
  have hb := fun lo n => bf_word _ lo n hw
  rw [show encode (.smov b1 ss1 sd) = _ from wide_word (l := [⟨1, 1#1⟩, ⟨6, 29#6⟩, ⟨3, 3#3⟩, ⟨6, sd⟩, ⟨6, ss1⟩, ⟨6, 0#6⟩, ⟨1, b1⟩, ⟨3, 0#3⟩]) (by simp only [value, BitVec.toNat_ofNat]; omega)] at he
  cases he
  rw [decode_wide, major_29 _ (hb 1 6)]
  refine (arm_smov _ (hb 7 3)).trans ?_
  refine (must_word _ _ _ hw rfl).trans ?_
  simp only [hb]
  rfl

theorem RoundTrip.scmp (u b2 b1 ss2 ss1 sd cond) : RoundTrip.Statement (.scmp u b2 b1 ss2 ss1 sd cond) := by
  intro hf c0 he
  have hw : width [⟨1, 1#1⟩, ⟨6, 30#6⟩, ⟨3, cond⟩, ⟨6, sd⟩, ⟨6, ss1⟩, ⟨6, ss2⟩, ⟨1, b1⟩, ⟨1, b2⟩, ⟨1, u⟩, ⟨1, 0#1⟩] ≤ 32 := Nat.le.refl
  have hb := fun lo n => bf_word _ lo n hw
  rw [show encode (.scmp u b2 b1 ss2 ss1 sd cond) = _ from wide_word (l := [⟨1, 1#1⟩, ⟨6, 30#6⟩, ⟨3, cond⟩, ⟨6, sd⟩, ⟨6, ss1⟩, ⟨6, ss2⟩, ⟨1, b1⟩, ⟨1, b2⟩, ⟨1, u⟩, ⟨1, 0#1⟩]) (by simp only [value, BitVec.toNat_ofNat]; omega)] at he
  cases he
  rw [decode_wide, major_30 _ (hb 1 6)]
  unfold decodeScmp
  refine (below_word _ _ _ hw ?_).trans ?_
  · exact decide_eq_true (Nat.lt_of_not_le (of_decide_eq_false (first_false hf)))
  refine (must_word _ _ _ hw rfl).trans ?_
  simp only [hb]
  rfl

theorem arm_saddImm (w : BitVec 32) (h0 : bf w 7 3 = 0#3) : decodeSalui w =
    .ok (.saddImm (bf w 16 16) (bf w 10 6)) := by unfold decodeSalui; rw [h0]; rfl

theorem RoundTrip.saddImm (imm sd) : RoundTrip.Statement (.saddImm imm sd) := by
  intro _ c0 he
  have hw : width [⟨1, 1#1⟩, ⟨6, 31#6⟩, ⟨3, 0#3⟩, ⟨6, sd⟩, ⟨16, imm⟩] ≤ 32 := Nat.le.refl
  have hb := fun lo n => bf_word _ lo n hw
  rw [show encode (.saddImm imm sd) = _ from wide_word (l := [⟨1, 1#1⟩, ⟨6, 31#6⟩, ⟨3, 0#3⟩, ⟨6, sd⟩, ⟨16, imm⟩]) (by simp only [value, BitVec.toNat_ofNat]; omega)] at he
  cases he
  rw [decode_wide, major_31 _ (hb 1 6)]
  refine (arm_saddImm _ (hb 7 3)).trans ?_
  simp only [hb]
  rfl

theorem arm_sandImm (w : BitVec 32) (h0 : bf w 7 3 = 1#3) : decodeSalui w =
    .ok (.sandImm (bf w 16 16) (bf w 10 6)) := by unfold decodeSalui; rw [h0]; rfl

theorem RoundTrip.sandImm (imm sd) : RoundTrip.Statement (.sandImm imm sd) := by
  intro _ c0 he
  have hw : width [⟨1, 1#1⟩, ⟨6, 31#6⟩, ⟨3, 1#3⟩, ⟨6, sd⟩, ⟨16, imm⟩] ≤ 32 := Nat.le.refl
  have hb := fun lo n => bf_word _ lo n hw
  rw [show encode (.sandImm imm sd) = _ from wide_word (l := [⟨1, 1#1⟩, ⟨6, 31#6⟩, ⟨3, 1#3⟩, ⟨6, sd⟩, ⟨16, imm⟩]) (by simp only [value, BitVec.toNat_ofNat]; omega)] at he
  cases he
  rw [decode_wide, major_31 _ (hb 1 6)]
  refine (arm_sandImm _ (hb 7 3)).trans ?_
  simp only [hb]
  rfl

theorem arm_sorImm (w : BitVec 32) (h0 : bf w 7 3 = 2#3) : decodeSalui w =
    .ok (.sorImm (bf w 16 16) (bf w 10 6)) := by unfold decodeSalui; rw [h0]; rfl

theorem RoundTrip.sorImm (imm sd) : RoundTrip.Statement (.sorImm imm sd) := by
  intro _ c0 he
  have hw : width [⟨1, 1#1⟩, ⟨6, 31#6⟩, ⟨3, 2#3⟩, ⟨6, sd⟩, ⟨16, imm⟩] ≤ 32 := Nat.le.refl
  have hb := fun lo n => bf_word _ lo n hw
  rw [show encode (.sorImm imm sd) = _ from wide_word (l := [⟨1, 1#1⟩, ⟨6, 31#6⟩, ⟨3, 2#3⟩, ⟨6, sd⟩, ⟨16, imm⟩]) (by simp only [value, BitVec.toNat_ofNat]; omega)] at he
  cases he
  rw [decode_wide, major_31 _ (hb 1 6)]
  refine (arm_sorImm _ (hb 7 3)).trans ?_
  simp only [hb]
  rfl

theorem arm_sxorImm (w : BitVec 32) (h0 : bf w 7 3 = 3#3) : decodeSalui w =
    .ok (.sxorImm (bf w 16 16) (bf w 10 6)) := by unfold decodeSalui; rw [h0]; rfl

theorem RoundTrip.sxorImm (imm sd) : RoundTrip.Statement (.sxorImm imm sd) := by
  intro _ c0 he
  have hw : width [⟨1, 1#1⟩, ⟨6, 31#6⟩, ⟨3, 3#3⟩, ⟨6, sd⟩, ⟨16, imm⟩] ≤ 32 := Nat.le.refl
  have hb := fun lo n => bf_word _ lo n hw
  rw [show encode (.sxorImm imm sd) = _ from wide_word (l := [⟨1, 1#1⟩, ⟨6, 31#6⟩, ⟨3, 3#3⟩, ⟨6, sd⟩, ⟨16, imm⟩]) (by simp only [value, BitVec.toNat_ofNat]; omega)] at he
  cases he
  rw [decode_wide, major_31 _ (hb 1 6)]
  refine (arm_sxorImm _ (hb 7 3)).trans ?_
  simp only [hb]
  rfl

theorem arm_sshlImm (w : BitVec 32) (h0 : bf w 7 3 = 4#3) : decodeSalui w =
    must [(22, 10)] w (.sshlImm (bf w 16 6) (bf w 10 6)) := by unfold decodeSalui; rw [h0]; rfl

theorem RoundTrip.sshlImm (amt sd) : RoundTrip.Statement (.sshlImm amt sd) := by
  intro _ c0 he
  have hw : width [⟨1, 1#1⟩, ⟨6, 31#6⟩, ⟨3, 4#3⟩, ⟨6, sd⟩, ⟨6, amt⟩, ⟨10, 0#10⟩] ≤ 32 := Nat.le.refl
  have hb := fun lo n => bf_word _ lo n hw
  rw [show encode (.sshlImm amt sd) = _ from wide_word (l := [⟨1, 1#1⟩, ⟨6, 31#6⟩, ⟨3, 4#3⟩, ⟨6, sd⟩, ⟨6, amt⟩, ⟨10, 0#10⟩]) (by simp only [value, BitVec.toNat_ofNat]; omega)] at he
  cases he
  rw [decode_wide, major_31 _ (hb 1 6)]
  refine (arm_sshlImm _ (hb 7 3)).trans ?_
  refine (must_word _ _ _ hw rfl).trans ?_
  simp only [hb]
  rfl

theorem arm_sshrImm (w : BitVec 32) (h0 : bf w 7 3 = 5#3) : decodeSalui w =
    must [(22, 10)] w (.sshrImm (bf w 16 6) (bf w 10 6)) := by unfold decodeSalui; rw [h0]; rfl

theorem RoundTrip.sshrImm (amt sd) : RoundTrip.Statement (.sshrImm amt sd) := by
  intro _ c0 he
  have hw : width [⟨1, 1#1⟩, ⟨6, 31#6⟩, ⟨3, 5#3⟩, ⟨6, sd⟩, ⟨6, amt⟩, ⟨10, 0#10⟩] ≤ 32 := Nat.le.refl
  have hb := fun lo n => bf_word _ lo n hw
  rw [show encode (.sshrImm amt sd) = _ from wide_word (l := [⟨1, 1#1⟩, ⟨6, 31#6⟩, ⟨3, 5#3⟩, ⟨6, sd⟩, ⟨6, amt⟩, ⟨10, 0#10⟩]) (by simp only [value, BitVec.toNat_ofNat]; omega)] at he
  cases he
  rw [decode_wide, major_31 _ (hb 1 6)]
  refine (arm_sshrImm _ (hb 7 3)).trans ?_
  refine (must_word _ _ _ hw rfl).trans ?_
  simp only [hb]
  rfl

theorem arm_ssraImm (w : BitVec 32) (h0 : bf w 7 3 = 6#3) : decodeSalui w =
    must [(22, 10)] w (.ssraImm (bf w 16 6) (bf w 10 6)) := by unfold decodeSalui; rw [h0]; rfl

theorem RoundTrip.ssraImm (amt sd) : RoundTrip.Statement (.ssraImm amt sd) := by
  intro _ c0 he
  have hw : width [⟨1, 1#1⟩, ⟨6, 31#6⟩, ⟨3, 6#3⟩, ⟨6, sd⟩, ⟨6, amt⟩, ⟨10, 0#10⟩] ≤ 32 := Nat.le.refl
  have hb := fun lo n => bf_word _ lo n hw
  rw [show encode (.ssraImm amt sd) = _ from wide_word (l := [⟨1, 1#1⟩, ⟨6, 31#6⟩, ⟨3, 6#3⟩, ⟨6, sd⟩, ⟨6, amt⟩, ⟨10, 0#10⟩]) (by simp only [value, BitVec.toNat_ofNat]; omega)] at he
  cases he
  rw [decode_wide, major_31 _ (hb 1 6)]
  refine (arm_ssraImm _ (hb 7 3)).trans ?_
  refine (must_word _ _ _ hw rfl).trans ?_
  simp only [hb]
  rfl

theorem arm_smulImm (w : BitVec 32) (h0 : bf w 7 3 = 7#3) : decodeSalui w =
    .ok (.smulImm (bf w 16 16) (bf w 10 6)) := by unfold decodeSalui; rw [h0]; rfl

theorem RoundTrip.smulImm (imm sd) : RoundTrip.Statement (.smulImm imm sd) := by
  intro _ c0 he
  have hw : width [⟨1, 1#1⟩, ⟨6, 31#6⟩, ⟨3, 7#3⟩, ⟨6, sd⟩, ⟨16, imm⟩] ≤ 32 := Nat.le.refl
  have hb := fun lo n => bf_word _ lo n hw
  rw [show encode (.smulImm imm sd) = _ from wide_word (l := [⟨1, 1#1⟩, ⟨6, 31#6⟩, ⟨3, 7#3⟩, ⟨6, sd⟩, ⟨16, imm⟩]) (by simp only [value, BitVec.toNat_ofNat]; omega)] at he
  cases he
  rw [decode_wide, major_31 _ (hb 1 6)]
  refine (arm_smulImm _ (hb 7 3)).trans ?_
  simp only [hb]
  rfl

theorem arm_sli (w : BitVec 32) (h0 : bf w 7 3 = 0#3) : decodeSimm w =
    .ok (.sli (bf w 16 16) (bf w 10 6)) := by unfold decodeSimm; rw [h0]; rfl

theorem RoundTrip.sli (imm sd) : RoundTrip.Statement (.sli imm sd) := by
  intro _ c0 he
  have hw : width [⟨1, 1#1⟩, ⟨6, 32#6⟩, ⟨3, 0#3⟩, ⟨6, sd⟩, ⟨16, imm⟩] ≤ 32 := Nat.le.refl
  have hb := fun lo n => bf_word _ lo n hw
  rw [show encode (.sli imm sd) = _ from wide_word (l := [⟨1, 1#1⟩, ⟨6, 32#6⟩, ⟨3, 0#3⟩, ⟨6, sd⟩, ⟨16, imm⟩]) (by simp only [value, BitVec.toNat_ofNat]; omega)] at he
  cases he
  rw [decode_wide, major_32 _ (hb 1 6)]
  refine (arm_sli _ (hb 7 3)).trans ?_
  simp only [hb]
  rfl

theorem arm_slih (w : BitVec 32) (x : BitVec 3) (hx : x = 1#3 ∨ x = 2#3 ∨ x = 3#3) (h0 : bf w 7 3 = x) :
    decodeSimm w = .ok (.slih (bf w 16 16) (bf w 10 6) (bf w 7 2)) := by
  rcases hx with rfl | rfl | rfl <;> (unfold decodeSimm; rw [h0]; rfl)

theorem slih_halves : ∀ h : BitVec 2, ¬ h = 0 → (0#1 ++ h = 1#3 ∨ 0#1 ++ h = 2#3 ∨ 0#1 ++ h = 3#3) := by decide

theorem slih_func (h : BitVec 2) (l : Fields) : fieldAt (⟨2, h⟩ :: ⟨1, 0#1⟩ :: l) 0 3 = 0#1 ++ h := by
  rw [fieldAt_eq]
  apply BitVec.eq_of_toNat_eq
  have := h.isLt
  simp only [value, BitVec.toNat_ofNat, BitVec.toNat_append]
  simp
  omega

theorem RoundTrip.slih (imm sd h) : RoundTrip.Statement (.slih imm sd h) := by
  intro hf c0 he
  have hw : width [⟨1, 1#1⟩, ⟨6, 32#6⟩, ⟨2, h⟩, ⟨1, 0#1⟩, ⟨6, sd⟩, ⟨16, imm⟩] ≤ 32 := Nat.le.refl
  have hb := fun lo n => bf_word _ lo n hw
  rw [show encode (.slih imm sd h) = _ from wide_word (l := [⟨1, 1#1⟩, ⟨6, 32#6⟩, ⟨2, h⟩, ⟨1, 0#1⟩, ⟨6, sd⟩, ⟨16, imm⟩]) (by simp only [value, BitVec.toNat_ofNat]; omega)] at he
  cases he
  rw [decode_wide, major_32 _ (hb 1 6)]
  refine (arm_slih _ _ (slih_halves h (of_decide_eq_false (first_false hf))) ((hb 7 3).trans (slih_func h _))).trans ?_
  simp only [hb]
  rfl

theorem arm_sget (w : BitVec 32) (h0 : bf w 7 3 = 0#3) : decodeSreg w =
    .ok (.sget (bf w 16 16) (bf w 10 6)) := by unfold decodeSreg; rw [h0]; rfl

theorem RoundTrip.sget (n sd) : RoundTrip.Statement (.sget n sd) := by
  intro _ c0 he
  have hw : width [⟨1, 1#1⟩, ⟨6, 33#6⟩, ⟨3, 0#3⟩, ⟨6, sd⟩, ⟨16, n⟩] ≤ 32 := Nat.le.refl
  have hb := fun lo n => bf_word _ lo n hw
  rw [show encode (.sget n sd) = _ from wide_word (l := [⟨1, 1#1⟩, ⟨6, 33#6⟩, ⟨3, 0#3⟩, ⟨6, sd⟩, ⟨16, n⟩]) (by simp only [value, BitVec.toNat_ofNat]; omega)] at he
  cases he
  rw [decode_wide, major_33 _ (hb 1 6)]
  refine (arm_sget _ (hb 7 3)).trans ?_
  simp only [hb]
  rfl

theorem arm_sset (w : BitVec 32) (h0 : bf w 7 3 = 1#3) : decodeSreg w =
    .ok (.sset (bf w 16 16) (bf w 10 6)) := by unfold decodeSreg; rw [h0]; rfl

theorem RoundTrip.sset (n ss) : RoundTrip.Statement (.sset n ss) := by
  intro _ c0 he
  have hw : width [⟨1, 1#1⟩, ⟨6, 33#6⟩, ⟨3, 1#3⟩, ⟨6, ss⟩, ⟨16, n⟩] ≤ 32 := Nat.le.refl
  have hb := fun lo n => bf_word _ lo n hw
  rw [show encode (.sset n ss) = _ from wide_word (l := [⟨1, 1#1⟩, ⟨6, 33#6⟩, ⟨3, 1#3⟩, ⟨6, ss⟩, ⟨16, n⟩]) (by simp only [value, BitVec.toNat_ofNat]; omega)] at he
  cases he
  rw [decode_wide, major_33 _ (hb 1 6)]
  refine (arm_sset _ (hb 7 3)).trans ?_
  simp only [hb]
  rfl

theorem RoundTrip.bcnd (off ss cond) : RoundTrip.Statement (.bcnd off ss cond) := by
  intro hf c0 he
  have hw : width [⟨1, 1#1⟩, ⟨6, 34#6⟩, ⟨3, cond⟩, ⟨6, ss⟩, ⟨16, off⟩] ≤ 32 := Nat.le.refl
  have hb := fun lo n => bf_word _ lo n hw
  rw [show encode (.bcnd off ss cond) = _ from wide_word (l := [⟨1, 1#1⟩, ⟨6, 34#6⟩, ⟨3, cond⟩, ⟨6, ss⟩, ⟨16, off⟩]) (by simp only [value, BitVec.toNat_ofNat]; omega)] at he
  cases he
  rw [decode_wide, major_34 _ (hb 1 6)]
  unfold decodeBcnd
  refine (below_word _ _ _ hw ?_).trans ?_
  · exact decide_eq_true (Nat.lt_of_not_le (of_decide_eq_false (first_false hf)))
  simp only [hb]
  rfl

theorem arm_loop (w : BitVec 32) (h0 : bf w 7 3 = 0#3) : decodeLoop w =
    .ok (.loop (bf w 16 16) (bf w 10 6)) := by unfold decodeLoop; rw [h0]; rfl

theorem RoundTrip.loop (off ss) : RoundTrip.Statement (.loop off ss) := by
  intro _ c0 he
  have hw : width [⟨1, 1#1⟩, ⟨6, 35#6⟩, ⟨3, 0#3⟩, ⟨6, ss⟩, ⟨16, off⟩] ≤ 32 := Nat.le.refl
  have hb := fun lo n => bf_word _ lo n hw
  rw [show encode (.loop off ss) = _ from wide_word (l := [⟨1, 1#1⟩, ⟨6, 35#6⟩, ⟨3, 0#3⟩, ⟨6, ss⟩, ⟨16, off⟩]) (by simp only [value, BitVec.toNat_ofNat]; omega)] at he
  cases he
  rw [decode_wide, major_35 _ (hb 1 6)]
  refine (arm_loop _ (hb 7 3)).trans ?_
  simp only [hb]
  rfl

theorem RoundTrip.vbra (toff joff mk) : RoundTrip.Statement (.vbra toff joff mk) := by
  intro _ c0 he
  have hw : width [⟨1, 1#1⟩, ⟨6, 36#6⟩, ⟨3, mk⟩, ⟨11, joff⟩, ⟨11, toff⟩] ≤ 32 := Nat.le.refl
  have hb := fun lo n => bf_word _ lo n hw
  rw [show encode (.vbra toff joff mk) = _ from wide_word (l := [⟨1, 1#1⟩, ⟨6, 36#6⟩, ⟨3, mk⟩, ⟨11, joff⟩, ⟨11, toff⟩]) (by simp only [value, BitVec.toNat_ofNat]; omega)] at he
  cases he
  rw [decode_wide, major_36 _ (hb 1 6)]
  unfold decodeVbra
  simp only [hb]
  rfl

theorem RoundTrip.bra (off) : RoundTrip.Statement (.bra off) := by
  intro _ c0 he
  have hw : width [⟨1, 1#1⟩, ⟨6, 37#6⟩, ⟨25, off⟩] ≤ 32 := Nat.le.refl
  have hb := fun lo n => bf_word _ lo n hw
  rw [show encode (.bra off) = _ from wide_word (l := [⟨1, 1#1⟩, ⟨6, 37#6⟩, ⟨25, off⟩]) (by simp only [value, BitVec.toNat_ofNat]; omega)] at he
  cases he
  rw [decode_wide, major_37 _ (hb 1 6)]
  unfold decodeBra
  simp only [hb]
  rfl

theorem RoundTrip.call (off) : RoundTrip.Statement (.call off) := by
  intro _ c0 he
  have hw : width [⟨1, 1#1⟩, ⟨6, 38#6⟩, ⟨25, off⟩] ≤ 32 := Nat.le.refl
  have hb := fun lo n => bf_word _ lo n hw
  rw [show encode (.call off) = _ from wide_word (l := [⟨1, 1#1⟩, ⟨6, 38#6⟩, ⟨25, off⟩]) (by simp only [value, BitVec.toNat_ofNat]; omega)] at he
  cases he
  rw [decode_wide, major_38 _ (hb 1 6)]
  unfold decodeCall
  simp only [hb]
  rfl

theorem arm_ret (w : BitVec 32) (h0 : bf w 7 3 = 6#3) (h1 : bf w 30 1 = 0#1) : decodeCtl0 w =
    must [(10, 6), (22, 6), (29, 1), (31, 1)] w (.ret (bf w 28 1) (bf w 16 6)) := by unfold decodeCtl0; rw [h0, h1]; rfl

theorem RoundTrip.ret (b1 ss) : RoundTrip.Statement (.ret b1 ss) := by
  intro _ c0 he
  have hw : width [⟨1, 1#1⟩, ⟨6, 39#6⟩, ⟨3, 6#3⟩, ⟨6, 0#6⟩, ⟨6, ss⟩, ⟨6, 0#6⟩, ⟨1, b1⟩, ⟨1, 0#1⟩, ⟨1, 0#1⟩, ⟨1, 0#1⟩] ≤ 32 := Nat.le.refl
  have hb := fun lo n => bf_word _ lo n hw
  rw [show encode (.ret b1 ss) = _ from wide_word (l := [⟨1, 1#1⟩, ⟨6, 39#6⟩, ⟨3, 6#3⟩, ⟨6, 0#6⟩, ⟨6, ss⟩, ⟨6, 0#6⟩, ⟨1, b1⟩, ⟨1, 0#1⟩, ⟨1, 0#1⟩, ⟨1, 0#1⟩]) (by simp only [value, BitVec.toNat_ofNat]; omega)] at he
  cases he
  rw [decode_wide, major_39 _ (hb 1 6)]
  refine (arm_ret _ (hb 7 3) (hb 30 1)).trans ?_
  refine (must_word _ _ _ hw rfl).trans ?_
  simp only [hb]
  rfl

theorem arm_retX (w : BitVec 32) (h0 : bf w 7 3 = 6#3) (h1 : bf w 30 1 = 1#1) : decodeCtl0 w =
    must [(10, 6), (22, 6), (29, 1), (31, 1)] w (.retX (bf w 28 1) (bf w 16 6)) := by unfold decodeCtl0; rw [h0, h1]; rfl

theorem RoundTrip.retX (b1 ss) : RoundTrip.Statement (.retX b1 ss) := by
  intro _ c0 he
  have hw : width [⟨1, 1#1⟩, ⟨6, 39#6⟩, ⟨3, 6#3⟩, ⟨6, 0#6⟩, ⟨6, ss⟩, ⟨6, 0#6⟩, ⟨1, b1⟩, ⟨1, 0#1⟩, ⟨1, 1#1⟩, ⟨1, 0#1⟩] ≤ 32 := Nat.le.refl
  have hb := fun lo n => bf_word _ lo n hw
  rw [show encode (.retX b1 ss) = _ from wide_word (l := [⟨1, 1#1⟩, ⟨6, 39#6⟩, ⟨3, 6#3⟩, ⟨6, 0#6⟩, ⟨6, ss⟩, ⟨6, 0#6⟩, ⟨1, b1⟩, ⟨1, 0#1⟩, ⟨1, 1#1⟩, ⟨1, 0#1⟩]) (by simp only [value, BitVec.toNat_ofNat]; omega)] at he
  cases he
  rw [decode_wide, major_39 _ (hb 1 6)]
  refine (arm_retX _ (hb 7 3) (hb 30 1)).trans ?_
  refine (must_word _ _ _ hw rfl).trans ?_
  simp only [hb]
  rfl

theorem arm_trap (w : BitVec 32) (h0 : bf w 7 3 = 0#3) : decodeCtl1 w =
    must [(10, 6)] w (.trap (bf w 16 16)) := by unfold decodeCtl1; rw [h0]; rfl

theorem RoundTrip.trap (code) : RoundTrip.Statement (.trap code) := by
  intro _ c0 he
  have hw : width [⟨1, 1#1⟩, ⟨6, 40#6⟩, ⟨3, 0#3⟩, ⟨6, 0#6⟩, ⟨16, code⟩] ≤ 32 := Nat.le.refl
  have hb := fun lo n => bf_word _ lo n hw
  rw [show encode (.trap code) = _ from wide_word (l := [⟨1, 1#1⟩, ⟨6, 40#6⟩, ⟨3, 0#3⟩, ⟨6, 0#6⟩, ⟨16, code⟩]) (by simp only [value, BitVec.toNat_ofNat]; omega)] at he
  cases he
  rw [decode_wide, major_40 _ (hb 1 6)]
  refine (arm_trap _ (hb 7 3)).trans ?_
  refine (must_word _ _ _ hw rfl).trans ?_
  simp only [hb]
  rfl

theorem arm_brk (w : BitVec 32) (h0 : bf w 7 3 = 1#3) : decodeCtl1 w =
    must [(10, 6)] w (.brk (bf w 16 16)) := by unfold decodeCtl1; rw [h0]; rfl

theorem RoundTrip.brk (code) : RoundTrip.Statement (.brk code) := by
  intro _ c0 he
  have hw : width [⟨1, 1#1⟩, ⟨6, 40#6⟩, ⟨3, 1#3⟩, ⟨6, 0#6⟩, ⟨16, code⟩] ≤ 32 := Nat.le.refl
  have hb := fun lo n => bf_word _ lo n hw
  rw [show encode (.brk code) = _ from wide_word (l := [⟨1, 1#1⟩, ⟨6, 40#6⟩, ⟨3, 1#3⟩, ⟨6, 0#6⟩, ⟨16, code⟩]) (by simp only [value, BitVec.toNat_ofNat]; omega)] at he
  cases he
  rw [decode_wide, major_40 _ (hb 1 6)]
  refine (arm_brk _ (hb 7 3)).trans ?_
  refine (must_word _ _ _ hw rfl).trans ?_
  simp only [hb]
  rfl

theorem arm_sfp (w : BitVec 32) (h0 : bf w 7 3 = 2#3) : decodeCtl1 w =
    must [(10, 6), (24, 8)] w (.sfp (bf w 16 8)) := by unfold decodeCtl1; rw [h0]; rfl

theorem RoundTrip.sfp (n) : RoundTrip.Statement (.sfp n) := by
  intro _ c0 he
  have hw : width [⟨1, 1#1⟩, ⟨6, 40#6⟩, ⟨3, 2#3⟩, ⟨6, 0#6⟩, ⟨8, n⟩, ⟨8, 0#8⟩] ≤ 32 := Nat.le.refl
  have hb := fun lo n => bf_word _ lo n hw
  rw [show encode (.sfp n) = _ from wide_word (l := [⟨1, 1#1⟩, ⟨6, 40#6⟩, ⟨3, 2#3⟩, ⟨6, 0#6⟩, ⟨8, n⟩, ⟨8, 0#8⟩]) (by simp only [value, BitVec.toNat_ofNat]; omega)] at he
  cases he
  rw [decode_wide, major_40 _ (hb 1 6)]
  refine (arm_sfp _ (hb 7 3)).trans ?_
  refine (must_word _ _ _ hw rfl).trans ?_
  simp only [hb]
  rfl

theorem arm_scopeOpen (w : BitVec 32) (h0 : bf w 7 3 = 3#3) : decodeCtl1 w =
    must [(10, 6), (22, 10)] w (.scopeOpen (bf w 16 6)) := by unfold decodeCtl1; rw [h0]; rfl

theorem RoundTrip.scopeOpen (k) : RoundTrip.Statement (.scopeOpen k) := by
  intro _ c0 he
  have hw : width [⟨1, 1#1⟩, ⟨6, 40#6⟩, ⟨3, 3#3⟩, ⟨6, 0#6⟩, ⟨6, k⟩, ⟨10, 0#10⟩] ≤ 32 := Nat.le.refl
  have hb := fun lo n => bf_word _ lo n hw
  rw [show encode (.scopeOpen k) = _ from wide_word (l := [⟨1, 1#1⟩, ⟨6, 40#6⟩, ⟨3, 3#3⟩, ⟨6, 0#6⟩, ⟨6, k⟩, ⟨10, 0#10⟩]) (by simp only [value, BitVec.toNat_ofNat]; omega)] at he
  cases he
  rw [decode_wide, major_40 _ (hb 1 6)]
  refine (arm_scopeOpen _ (hb 7 3)).trans ?_
  refine (must_word _ _ _ hw rfl).trans ?_
  simp only [hb]
  rfl

theorem arm_rgive (w : BitVec 32) (h0 : bf w 7 3 = 4#3) : decodeCtl1 w =
    must [(10, 6), (24, 8)] w (.rgive (bf w 16 8)) := by unfold decodeCtl1; rw [h0]; rfl

theorem RoundTrip.rgive (k) : RoundTrip.Statement (.rgive k) := by
  intro _ c0 he
  have hw : width [⟨1, 1#1⟩, ⟨6, 40#6⟩, ⟨3, 4#3⟩, ⟨6, 0#6⟩, ⟨8, k⟩, ⟨8, 0#8⟩] ≤ 32 := Nat.le.refl
  have hb := fun lo n => bf_word _ lo n hw
  rw [show encode (.rgive k) = _ from wide_word (l := [⟨1, 1#1⟩, ⟨6, 40#6⟩, ⟨3, 4#3⟩, ⟨6, 0#6⟩, ⟨8, k⟩, ⟨8, 0#8⟩]) (by simp only [value, BitVec.toNat_ofNat]; omega)] at he
  cases he
  rw [decode_wide, major_40 _ (hb 1 6)]
  refine (arm_rgive _ (hb 7 3)).trans ?_
  refine (must_word _ _ _ hw rfl).trans ?_
  simp only [hb]
  rfl

theorem arm_rclaim (w : BitVec 32) (h0 : bf w 7 3 = 5#3) : decodeCtl1 w =
    must [(24, 8)] w (.rclaim (bf w 16 8) (bf w 10 6)) := by unfold decodeCtl1; rw [h0]; rfl

theorem RoundTrip.rclaim (k sd) : RoundTrip.Statement (.rclaim k sd) := by
  intro _ c0 he
  have hw : width [⟨1, 1#1⟩, ⟨6, 40#6⟩, ⟨3, 5#3⟩, ⟨6, sd⟩, ⟨8, k⟩, ⟨8, 0#8⟩] ≤ 32 := Nat.le.refl
  have hb := fun lo n => bf_word _ lo n hw
  rw [show encode (.rclaim k sd) = _ from wide_word (l := [⟨1, 1#1⟩, ⟨6, 40#6⟩, ⟨3, 5#3⟩, ⟨6, sd⟩, ⟨8, k⟩, ⟨8, 0#8⟩]) (by simp only [value, BitVec.toNat_ofNat]; omega)] at he
  cases he
  rw [decode_wide, major_40 _ (hb 1 6)]
  refine (arm_rclaim _ (hb 7 3)).trans ?_
  refine (must_word _ _ _ hw rfl).trans ?_
  simp only [hb]
  rfl

theorem arm_exitSucc (w : BitVec 32) (h0 : bf w 7 3 = 6#3) : decodeCtl1 w =
    must [(16, 16)] w (.exitSucc (bf w 10 6)) := by unfold decodeCtl1; rw [h0]; rfl

theorem RoundTrip.exitSucc (sd) : RoundTrip.Statement (.exitSucc sd) := by
  intro _ c0 he
  have hw : width [⟨1, 1#1⟩, ⟨6, 40#6⟩, ⟨3, 6#3⟩, ⟨6, sd⟩, ⟨16, 0#16⟩] ≤ 32 := Nat.le.refl
  have hb := fun lo n => bf_word _ lo n hw
  rw [show encode (.exitSucc sd) = _ from wide_word (l := [⟨1, 1#1⟩, ⟨6, 40#6⟩, ⟨3, 6#3⟩, ⟨6, sd⟩, ⟨16, 0#16⟩]) (by simp only [value, BitVec.toNat_ofNat]; omega)] at he
  cases he
  rw [decode_wide, major_40 _ (hb 1 6)]
  refine (arm_exitSucc _ (hb 7 3)).trans ?_
  refine (must_word _ _ _ hw rfl).trans ?_
  simp only [hb]
  rfl

theorem arm_tjoin (w : BitVec 32) (h0 : bf w 7 3 = 7#3) : decodeCtl1 w =
    must [(22, 10)] w (.tjoin (bf w 16 6) (bf w 10 6)) := by unfold decodeCtl1; rw [h0]; rfl

theorem RoundTrip.tjoin (k sd) : RoundTrip.Statement (.tjoin k sd) := by
  intro _ c0 he
  have hw : width [⟨1, 1#1⟩, ⟨6, 40#6⟩, ⟨3, 7#3⟩, ⟨6, sd⟩, ⟨6, k⟩, ⟨10, 0#10⟩] ≤ 32 := Nat.le.refl
  have hb := fun lo n => bf_word _ lo n hw
  rw [show encode (.tjoin k sd) = _ from wide_word (l := [⟨1, 1#1⟩, ⟨6, 40#6⟩, ⟨3, 7#3⟩, ⟨6, sd⟩, ⟨6, k⟩, ⟨10, 0#10⟩]) (by simp only [value, BitVec.toNat_ofNat]; omega)] at he
  cases he
  rw [decode_wide, major_40 _ (hb 1 6)]
  refine (arm_tjoin _ (hb 7 3)).trans ?_
  refine (must_word _ _ _ hw rfl).trans ?_
  simp only [hb]
  rfl

theorem arm_fence (w : BitVec 32) (h0 : bf w 7 3 = 0#3) : decodeFence w =
    must [(10, 6), (21, 11)] w (.fence (bf w 18 3) (bf w 16 2)) := by unfold decodeFence; rw [h0]; rfl

theorem RoundTrip.fence (scope k) : RoundTrip.Statement (.fence scope k) := by
  intro _ c0 he
  have hw : width [⟨1, 1#1⟩, ⟨6, 41#6⟩, ⟨3, 0#3⟩, ⟨6, 0#6⟩, ⟨2, k⟩, ⟨3, scope⟩, ⟨11, 0#11⟩] ≤ 32 := Nat.le.refl
  have hb := fun lo n => bf_word _ lo n hw
  rw [show encode (.fence scope k) = _ from wide_word (l := [⟨1, 1#1⟩, ⟨6, 41#6⟩, ⟨3, 0#3⟩, ⟨6, 0#6⟩, ⟨2, k⟩, ⟨3, scope⟩, ⟨11, 0#11⟩]) (by simp only [value, BitVec.toNat_ofNat]; omega)] at he
  cases he
  rw [decode_wide, major_41 _ (hb 1 6)]
  refine (arm_fence _ (hb 7 3)).trans ?_
  refine (must_word _ _ _ hw rfl).trans ?_
  simp only [hb]
  rfl

theorem arm_cmk (w : BitVec 32) (h0 : bf w 7 3 = 0#3) : decodeCapx w =
    must [(14, 2), (20, 2), (28, 1), (30, 2)] w (.cmk (bf w 29 1) (bf w 22 6) (bf w 16 4) (bf w 10 4)) := by unfold decodeCapx; rw [h0]; rfl

theorem RoundTrip.cmk (b2 ss2 cs cd) : RoundTrip.Statement (.cmk b2 ss2 cs cd) := by
  intro _ c0 he
  have hw : width [⟨1, 1#1⟩, ⟨6, 42#6⟩, ⟨3, 0#3⟩, ⟨4, cd⟩, ⟨2, 0#2⟩, ⟨4, cs⟩, ⟨2, 0#2⟩, ⟨6, ss2⟩, ⟨1, 0#1⟩, ⟨1, b2⟩, ⟨2, 0#2⟩] ≤ 32 := Nat.le.refl
  have hb := fun lo n => bf_word _ lo n hw
  rw [show encode (.cmk b2 ss2 cs cd) = _ from wide_word (l := [⟨1, 1#1⟩, ⟨6, 42#6⟩, ⟨3, 0#3⟩, ⟨4, cd⟩, ⟨2, 0#2⟩, ⟨4, cs⟩, ⟨2, 0#2⟩, ⟨6, ss2⟩, ⟨1, 0#1⟩, ⟨1, b2⟩, ⟨2, 0#2⟩]) (by simp only [value, BitVec.toNat_ofNat]; omega)] at he
  cases he
  rw [decode_wide, major_42 _ (hb 1 6)]
  refine (arm_cmk _ (hb 7 3)).trans ?_
  refine (must_word _ _ _ hw rfl).trans ?_
  simp only [hb]
  rfl

theorem arm_cbnd (w : BitVec 32) (h0 : bf w 7 3 = 1#3) : decodeCapx w =
    must [(14, 2), (20, 2), (28, 1), (30, 2)] w (.cbnd (bf w 29 1) (bf w 22 6) (bf w 16 4) (bf w 10 4)) := by unfold decodeCapx; rw [h0]; rfl

theorem RoundTrip.cbnd (b2 ss2 cs cd) : RoundTrip.Statement (.cbnd b2 ss2 cs cd) := by
  intro _ c0 he
  have hw : width [⟨1, 1#1⟩, ⟨6, 42#6⟩, ⟨3, 1#3⟩, ⟨4, cd⟩, ⟨2, 0#2⟩, ⟨4, cs⟩, ⟨2, 0#2⟩, ⟨6, ss2⟩, ⟨1, 0#1⟩, ⟨1, b2⟩, ⟨2, 0#2⟩] ≤ 32 := Nat.le.refl
  have hb := fun lo n => bf_word _ lo n hw
  rw [show encode (.cbnd b2 ss2 cs cd) = _ from wide_word (l := [⟨1, 1#1⟩, ⟨6, 42#6⟩, ⟨3, 1#3⟩, ⟨4, cd⟩, ⟨2, 0#2⟩, ⟨4, cs⟩, ⟨2, 0#2⟩, ⟨6, ss2⟩, ⟨1, 0#1⟩, ⟨1, b2⟩, ⟨2, 0#2⟩]) (by simp only [value, BitVec.toNat_ofNat]; omega)] at he
  cases he
  rw [decode_wide, major_42 _ (hb 1 6)]
  refine (arm_cbnd _ (hb 7 3)).trans ?_
  refine (must_word _ _ _ hw rfl).trans ?_
  simp only [hb]
  rfl

theorem arm_cperm (w : BitVec 32) (h0 : bf w 7 3 = 2#3) : decodeCapx w =
    must [(14, 2), (20, 2), (28, 1), (30, 2)] w (.cperm (bf w 29 1) (bf w 22 6) (bf w 16 4) (bf w 10 4)) := by unfold decodeCapx; rw [h0]; rfl

theorem RoundTrip.cperm (b2 ss2 cs cd) : RoundTrip.Statement (.cperm b2 ss2 cs cd) := by
  intro _ c0 he
  have hw : width [⟨1, 1#1⟩, ⟨6, 42#6⟩, ⟨3, 2#3⟩, ⟨4, cd⟩, ⟨2, 0#2⟩, ⟨4, cs⟩, ⟨2, 0#2⟩, ⟨6, ss2⟩, ⟨1, 0#1⟩, ⟨1, b2⟩, ⟨2, 0#2⟩] ≤ 32 := Nat.le.refl
  have hb := fun lo n => bf_word _ lo n hw
  rw [show encode (.cperm b2 ss2 cs cd) = _ from wide_word (l := [⟨1, 1#1⟩, ⟨6, 42#6⟩, ⟨3, 2#3⟩, ⟨4, cd⟩, ⟨2, 0#2⟩, ⟨4, cs⟩, ⟨2, 0#2⟩, ⟨6, ss2⟩, ⟨1, 0#1⟩, ⟨1, b2⟩, ⟨2, 0#2⟩]) (by simp only [value, BitVec.toNat_ofNat]; omega)] at he
  cases he
  rw [decode_wide, major_42 _ (hb 1 6)]
  refine (arm_cperm _ (hb 7 3)).trans ?_
  refine (must_word _ _ _ hw rfl).trans ?_
  simp only [hb]
  rfl

theorem arm_cseal (w : BitVec 32) (h0 : bf w 7 3 = 3#3) : decodeCapx w =
    must [(14, 2), (20, 12)] w (.cseal (bf w 16 4) (bf w 10 4)) := by unfold decodeCapx; rw [h0]; rfl

theorem RoundTrip.cseal (cs cd) : RoundTrip.Statement (.cseal cs cd) := by
  intro _ c0 he
  have hw : width [⟨1, 1#1⟩, ⟨6, 42#6⟩, ⟨3, 3#3⟩, ⟨4, cd⟩, ⟨2, 0#2⟩, ⟨4, cs⟩, ⟨12, 0#12⟩] ≤ 32 := Nat.le.refl
  have hb := fun lo n => bf_word _ lo n hw
  rw [show encode (.cseal cs cd) = _ from wide_word (l := [⟨1, 1#1⟩, ⟨6, 42#6⟩, ⟨3, 3#3⟩, ⟨4, cd⟩, ⟨2, 0#2⟩, ⟨4, cs⟩, ⟨12, 0#12⟩]) (by simp only [value, BitVec.toNat_ofNat]; omega)] at he
  cases he
  rw [decode_wide, major_42 _ (hb 1 6)]
  refine (arm_cseal _ (hb 7 3)).trans ?_
  refine (must_word _ _ _ hw rfl).trans ?_
  simp only [hb]
  rfl

theorem arm_cget (w : BitVec 32) (h0 : bf w 7 3 = 4#3) : decodeCapx w =
    must [(20, 2), (28, 4)] w (.cget (bf w 22 6) (bf w 16 4) (bf w 10 6)) := by unfold decodeCapx; rw [h0]; rfl

theorem RoundTrip.cget (sel cs sd) : RoundTrip.Statement (.cget sel cs sd) := by
  intro _ c0 he
  have hw : width [⟨1, 1#1⟩, ⟨6, 42#6⟩, ⟨3, 4#3⟩, ⟨6, sd⟩, ⟨4, cs⟩, ⟨2, 0#2⟩, ⟨6, sel⟩, ⟨4, 0#4⟩] ≤ 32 := Nat.le.refl
  have hb := fun lo n => bf_word _ lo n hw
  rw [show encode (.cget sel cs sd) = _ from wide_word (l := [⟨1, 1#1⟩, ⟨6, 42#6⟩, ⟨3, 4#3⟩, ⟨6, sd⟩, ⟨4, cs⟩, ⟨2, 0#2⟩, ⟨6, sel⟩, ⟨4, 0#4⟩]) (by simp only [value, BitVec.toNat_ofNat]; omega)] at he
  cases he
  rw [decode_wide, major_42 _ (hb 1 6)]
  refine (arm_cget _ (hb 7 3)).trans ?_
  refine (must_word _ _ _ hw rfl).trans ?_
  simp only [hb]
  rfl

theorem arm_xbind (w : BitVec 32) (h0 : bf w 7 3 = 5#3) : decodeCapx w =
    must [(13, 3), (20, 2), (28, 1), (30, 2)] w (.xbind (bf w 29 1) (bf w 22 6) (bf w 16 4) (bf w 10 3)) := by unfold decodeCapx; rw [h0]; rfl

theorem RoundTrip.xbind (b2 ss2 cs n) : RoundTrip.Statement (.xbind b2 ss2 cs n) := by
  intro _ c0 he
  have hw : width [⟨1, 1#1⟩, ⟨6, 42#6⟩, ⟨3, 5#3⟩, ⟨3, n⟩, ⟨3, 0#3⟩, ⟨4, cs⟩, ⟨2, 0#2⟩, ⟨6, ss2⟩, ⟨1, 0#1⟩, ⟨1, b2⟩, ⟨2, 0#2⟩] ≤ 32 := Nat.le.refl
  have hb := fun lo n => bf_word _ lo n hw
  rw [show encode (.xbind b2 ss2 cs n) = _ from wide_word (l := [⟨1, 1#1⟩, ⟨6, 42#6⟩, ⟨3, 5#3⟩, ⟨3, n⟩, ⟨3, 0#3⟩, ⟨4, cs⟩, ⟨2, 0#2⟩, ⟨6, ss2⟩, ⟨1, 0#1⟩, ⟨1, b2⟩, ⟨2, 0#2⟩]) (by simp only [value, BitVec.toNat_ofNat]; omega)] at he
  cases he
  rw [decode_wide, major_42 _ (hb 1 6)]
  refine (arm_xbind _ (hb 7 3)).trans ?_
  refine (must_word _ _ _ hw rfl).trans ?_
  simp only [hb]
  rfl

theorem arm_cld (w : BitVec 32) (h0 : bf w 7 3 = 0#3) : decodeCls w =
    must [(14, 2), (27, 5)] w (.cld (bf w 26 1) (bf w 22 4) (bf w 16 6) (bf w 10 4)) := by unfold decodeCls; rw [h0]; rfl

theorem RoundTrip.cld (bo cap so cd) : RoundTrip.Statement (.cld bo cap so cd) := by
  intro _ c0 he
  have hw : width [⟨1, 1#1⟩, ⟨6, 43#6⟩, ⟨3, 0#3⟩, ⟨4, cd⟩, ⟨2, 0#2⟩, ⟨6, so⟩, ⟨4, cap⟩, ⟨1, bo⟩, ⟨5, 0#5⟩] ≤ 32 := Nat.le.refl
  have hb := fun lo n => bf_word _ lo n hw
  rw [show encode (.cld bo cap so cd) = _ from wide_word (l := [⟨1, 1#1⟩, ⟨6, 43#6⟩, ⟨3, 0#3⟩, ⟨4, cd⟩, ⟨2, 0#2⟩, ⟨6, so⟩, ⟨4, cap⟩, ⟨1, bo⟩, ⟨5, 0#5⟩]) (by simp only [value, BitVec.toNat_ofNat]; omega)] at he
  cases he
  rw [decode_wide, major_43 _ (hb 1 6)]
  refine (arm_cld _ (hb 7 3)).trans ?_
  refine (must_word _ _ _ hw rfl).trans ?_
  simp only [hb]
  rfl

theorem arm_cst (w : BitVec 32) (h0 : bf w 7 3 = 1#3) : decodeCls w =
    must [(14, 2), (27, 5)] w (.cst (bf w 26 1) (bf w 22 4) (bf w 16 6) (bf w 10 4)) := by unfold decodeCls; rw [h0]; rfl

theorem RoundTrip.cst (bo cap so cs) : RoundTrip.Statement (.cst bo cap so cs) := by
  intro _ c0 he
  have hw : width [⟨1, 1#1⟩, ⟨6, 43#6⟩, ⟨3, 1#3⟩, ⟨4, cs⟩, ⟨2, 0#2⟩, ⟨6, so⟩, ⟨4, cap⟩, ⟨1, bo⟩, ⟨5, 0#5⟩] ≤ 32 := Nat.le.refl
  have hb := fun lo n => bf_word _ lo n hw
  rw [show encode (.cst bo cap so cs) = _ from wide_word (l := [⟨1, 1#1⟩, ⟨6, 43#6⟩, ⟨3, 1#3⟩, ⟨4, cs⟩, ⟨2, 0#2⟩, ⟨6, so⟩, ⟨4, cap⟩, ⟨1, bo⟩, ⟨5, 0#5⟩]) (by simp only [value, BitVec.toNat_ofNat]; omega)] at he
  cases he
  rw [decode_wide, major_43 _ (hb 1 6)]
  refine (arm_cst _ (hb 7 3)).trans ?_
  refine (must_word _ _ _ hw rfl).trans ?_
  simp only [hb]
  rfl

theorem RoundTrip.vld (m lsel bo cap vo vd w) : RoundTrip.Statement (.vld m lsel bo cap vo vd w) := by
  intro hf c0 he
  have hw : width [⟨1, 1#1⟩, ⟨6, 44#6⟩, ⟨3, w⟩, ⟨6, vd⟩, ⟨6, vo⟩, ⟨4, cap⟩, ⟨1, bo⟩, ⟨1, 0#1⟩, ⟨2, lsel⟩, ⟨2, m⟩] ≤ 32 := Nat.le.refl
  have hb := fun lo n => bf_word _ lo n hw
  rw [show encode (.vld m lsel bo cap vo vd w) = _ from wide_word (l := [⟨1, 1#1⟩, ⟨6, 44#6⟩, ⟨3, w⟩, ⟨6, vd⟩, ⟨6, vo⟩, ⟨4, cap⟩, ⟨1, bo⟩, ⟨1, 0#1⟩, ⟨2, lsel⟩, ⟨2, m⟩]) (by simp only [value, BitVec.toNat_ofNat]; omega)] at he
  cases he
  rw [decode_wide, major_44 _ (hb 1 6)]
  unfold decodeVld
  refine (below_word _ _ _ hw ?_).trans ?_
  · exact decide_eq_true (Nat.lt_of_not_le (of_decide_eq_false (first_false hf)))
  refine (must_word _ _ _ hw rfl).trans ?_
  simp only [hb]
  rfl

theorem RoundTrip.vldAcq (m ln scope cap vo vd w) : RoundTrip.Statement (.vldAcq m ln scope cap vo vd w) := by
  intro hf c0 he
  have hw : width [⟨1, 1#1⟩, ⟨6, 45#6⟩, ⟨3, w⟩, ⟨6, vd⟩, ⟨6, vo⟩, ⟨4, cap⟩, ⟨3, scope⟩, ⟨1, ln⟩, ⟨2, m⟩] ≤ 32 := Nat.le.refl
  have hb := fun lo n => bf_word _ lo n hw
  rw [show encode (.vldAcq m ln scope cap vo vd w) = _ from wide_word (l := [⟨1, 1#1⟩, ⟨6, 45#6⟩, ⟨3, w⟩, ⟨6, vd⟩, ⟨6, vo⟩, ⟨4, cap⟩, ⟨3, scope⟩, ⟨1, ln⟩, ⟨2, m⟩]) (by simp only [value, BitVec.toNat_ofNat]; omega)] at he
  cases he
  rw [decode_wide, major_45 _ (hb 1 6)]
  unfold decodeVlda
  refine (below_word _ _ _ hw ?_).trans ?_
  · exact decide_eq_true (Nat.lt_of_not_le (of_decide_eq_false (first_false hf)))
  simp only [hb]
  rfl

theorem RoundTrip.vst (m bd bo cap vo vd sg w) : RoundTrip.Statement (.vst m bd bo cap vo vd sg w) := by
  intro _ c0 he
  have hw : width [⟨1, 1#1⟩, ⟨6, 46#6⟩, ⟨2, w⟩, ⟨1, sg⟩, ⟨6, vd⟩, ⟨6, vo⟩, ⟨4, cap⟩, ⟨1, bo⟩, ⟨1, bd⟩, ⟨2, 0#2⟩, ⟨2, m⟩] ≤ 32 := Nat.le.refl
  have hb := fun lo n => bf_word _ lo n hw
  rw [show encode (.vst m bd bo cap vo vd sg w) = _ from wide_word (l := [⟨1, 1#1⟩, ⟨6, 46#6⟩, ⟨2, w⟩, ⟨1, sg⟩, ⟨6, vd⟩, ⟨6, vo⟩, ⟨4, cap⟩, ⟨1, bo⟩, ⟨1, bd⟩, ⟨2, 0#2⟩, ⟨2, m⟩]) (by simp only [value, BitVec.toNat_ofNat]; omega)] at he
  cases he
  rw [decode_wide, major_46 _ (hb 1 6)]
  unfold decodeVst
  refine (must_word _ _ _ hw rfl).trans ?_
  simp only [hb]
  rfl

theorem RoundTrip.vstRel (m ln scope cap vo vd sg w) : RoundTrip.Statement (.vstRel m ln scope cap vo vd sg w) := by
  intro _ c0 he
  have hw : width [⟨1, 1#1⟩, ⟨6, 47#6⟩, ⟨2, w⟩, ⟨1, sg⟩, ⟨6, vd⟩, ⟨6, vo⟩, ⟨4, cap⟩, ⟨3, scope⟩, ⟨1, ln⟩, ⟨2, m⟩] ≤ 32 := Nat.le.refl
  have hb := fun lo n => bf_word _ lo n hw
  rw [show encode (.vstRel m ln scope cap vo vd sg w) = _ from wide_word (l := [⟨1, 1#1⟩, ⟨6, 47#6⟩, ⟨2, w⟩, ⟨1, sg⟩, ⟨6, vd⟩, ⟨6, vo⟩, ⟨4, cap⟩, ⟨3, scope⟩, ⟨1, ln⟩, ⟨2, m⟩]) (by simp only [value, BitVec.toNat_ofNat]; omega)] at he
  cases he
  rw [decode_wide, major_47 _ (hb 1 6)]
  unfold decodeVstr
  simp only [hb]
  rfl

theorem RoundTrip.vldNt (m lsel bo cap vo vd w) : RoundTrip.Statement (.vldNt m lsel bo cap vo vd w) := by
  intro hf c0 he
  have hw : width [⟨1, 1#1⟩, ⟨6, 48#6⟩, ⟨3, w⟩, ⟨6, vd⟩, ⟨6, vo⟩, ⟨4, cap⟩, ⟨1, bo⟩, ⟨1, 0#1⟩, ⟨2, lsel⟩, ⟨2, m⟩] ≤ 32 := Nat.le.refl
  have hb := fun lo n => bf_word _ lo n hw
  rw [show encode (.vldNt m lsel bo cap vo vd w) = _ from wide_word (l := [⟨1, 1#1⟩, ⟨6, 48#6⟩, ⟨3, w⟩, ⟨6, vd⟩, ⟨6, vo⟩, ⟨4, cap⟩, ⟨1, bo⟩, ⟨1, 0#1⟩, ⟨2, lsel⟩, ⟨2, m⟩]) (by simp only [value, BitVec.toNat_ofNat]; omega)] at he
  cases he
  rw [decode_wide, major_48 _ (hb 1 6)]
  unfold decodeVldnt
  refine (below_word _ _ _ hw ?_).trans ?_
  · exact decide_eq_true (Nat.lt_of_not_le (of_decide_eq_false (first_false hf)))
  refine (must_word _ _ _ hw rfl).trans ?_
  simp only [hb]
  rfl

theorem RoundTrip.vstNt (m bd bo cap vo vd w) : RoundTrip.Statement (.vstNt m bd bo cap vo vd w) := by
  intro _ c0 he
  have hw : width [⟨1, 1#1⟩, ⟨6, 49#6⟩, ⟨2, w⟩, ⟨1, 0#1⟩, ⟨6, vd⟩, ⟨6, vo⟩, ⟨4, cap⟩, ⟨1, bo⟩, ⟨1, bd⟩, ⟨2, 0#2⟩, ⟨2, m⟩] ≤ 32 := Nat.le.refl
  have hb := fun lo n => bf_word _ lo n hw
  rw [show encode (.vstNt m bd bo cap vo vd w) = _ from wide_word (l := [⟨1, 1#1⟩, ⟨6, 49#6⟩, ⟨2, w⟩, ⟨1, 0#1⟩, ⟨6, vd⟩, ⟨6, vo⟩, ⟨4, cap⟩, ⟨1, bo⟩, ⟨1, bd⟩, ⟨2, 0#2⟩, ⟨2, m⟩]) (by simp only [value, BitVec.toNat_ofNat]; omega)] at he
  cases he
  rw [decode_wide, major_49 _ (hb 1 6)]
  unfold decodeVstnt
  refine (must_word _ _ _ hw rfl).trans ?_
  simp only [hb]
  rfl

theorem RoundTrip.sld (ord scope cap so sd w) : RoundTrip.Statement (.sld ord scope cap so sd w) := by
  intro hf c0 he
  have hw : width [⟨1, 1#1⟩, ⟨6, 50#6⟩, ⟨3, w⟩, ⟨6, sd⟩, ⟨6, so⟩, ⟨4, cap⟩, ⟨3, scope⟩, ⟨1, ord⟩, ⟨2, 0#2⟩] ≤ 32 := Nat.le.refl
  have hb := fun lo n => bf_word _ lo n hw
  rw [show encode (.sld ord scope cap so sd w) = _ from wide_word (l := [⟨1, 1#1⟩, ⟨6, 50#6⟩, ⟨3, w⟩, ⟨6, sd⟩, ⟨6, so⟩, ⟨4, cap⟩, ⟨3, scope⟩, ⟨1, ord⟩, ⟨2, 0#2⟩]) (by simp only [value, BitVec.toNat_ofNat]; omega)] at he
  cases he
  rw [decode_wide, major_50 _ (hb 1 6)]
  unfold decodeSld
  refine (below_word _ _ _ hw ?_).trans ?_
  · exact decide_eq_true (below_seven (of_decide_eq_false (first_false hf)))
  refine (must_word _ _ _ hw rfl).trans ?_
  simp only [hb]
  rfl

theorem RoundTrip.sst (ord scope cap so ss sg w) : RoundTrip.Statement (.sst ord scope cap so ss sg w) := by
  intro _ c0 he
  have hw : width [⟨1, 1#1⟩, ⟨6, 51#6⟩, ⟨2, w⟩, ⟨1, sg⟩, ⟨6, ss⟩, ⟨6, so⟩, ⟨4, cap⟩, ⟨3, scope⟩, ⟨1, ord⟩, ⟨2, 0#2⟩] ≤ 32 := Nat.le.refl
  have hb := fun lo n => bf_word _ lo n hw
  rw [show encode (.sst ord scope cap so ss sg w) = _ from wide_word (l := [⟨1, 1#1⟩, ⟨6, 51#6⟩, ⟨2, w⟩, ⟨1, sg⟩, ⟨6, ss⟩, ⟨6, so⟩, ⟨4, cap⟩, ⟨3, scope⟩, ⟨1, ord⟩, ⟨2, 0#2⟩]) (by simp only [value, BitVec.toNat_ofNat]; omega)] at he
  cases he
  rw [decode_wide, major_51 _ (hb 1 6)]
  unfold decodeSst
  refine (must_word _ _ _ hw rfl).trans ?_
  simp only [hb]
  rfl

theorem RoundTrip.lds (m lsel bo cap so vd w) : RoundTrip.Statement (.lds m lsel bo cap so vd w) := by
  intro hf c0 he
  have hw : width [⟨1, 1#1⟩, ⟨6, 52#6⟩, ⟨3, w⟩, ⟨6, vd⟩, ⟨6, so⟩, ⟨4, cap⟩, ⟨1, bo⟩, ⟨1, 0#1⟩, ⟨2, lsel⟩, ⟨2, m⟩] ≤ 32 := Nat.le.refl
  have hb := fun lo n => bf_word _ lo n hw
  rw [show encode (.lds m lsel bo cap so vd w) = _ from wide_word (l := [⟨1, 1#1⟩, ⟨6, 52#6⟩, ⟨3, w⟩, ⟨6, vd⟩, ⟨6, so⟩, ⟨4, cap⟩, ⟨1, bo⟩, ⟨1, 0#1⟩, ⟨2, lsel⟩, ⟨2, m⟩]) (by simp only [value, BitVec.toNat_ofNat]; omega)] at he
  cases he
  rw [decode_wide, major_52 _ (hb 1 6)]
  unfold decodeLds
  refine (below_word _ _ _ hw ?_).trans ?_
  · exact decide_eq_true (Nat.lt_of_not_le (of_decide_eq_false (first_false hf)))
  refine (must_word _ _ _ hw rfl).trans ?_
  simp only [hb]
  rfl

theorem RoundTrip.sts (m bd bo cap so vd sg w) : RoundTrip.Statement (.sts m bd bo cap so vd sg w) := by
  intro _ c0 he
  have hw : width [⟨1, 1#1⟩, ⟨6, 53#6⟩, ⟨2, w⟩, ⟨1, sg⟩, ⟨6, vd⟩, ⟨6, so⟩, ⟨4, cap⟩, ⟨1, bo⟩, ⟨1, bd⟩, ⟨2, 0#2⟩, ⟨2, m⟩] ≤ 32 := Nat.le.refl
  have hb := fun lo n => bf_word _ lo n hw
  rw [show encode (.sts m bd bo cap so vd sg w) = _ from wide_word (l := [⟨1, 1#1⟩, ⟨6, 53#6⟩, ⟨2, w⟩, ⟨1, sg⟩, ⟨6, vd⟩, ⟨6, so⟩, ⟨4, cap⟩, ⟨1, bo⟩, ⟨1, bd⟩, ⟨2, 0#2⟩, ⟨2, m⟩]) (by simp only [value, BitVec.toNat_ofNat]; omega)] at he
  cases he
  rw [decode_wide, major_53 _ (hb 1 6)]
  unfold decodeSts
  refine (must_word _ _ _ hw rfl).trans ?_
  simp only [hb]
  rfl

theorem arm_pfch (w : BitVec 32) (h0 : bf w 7 3 = 0#3) : decodeMemx w =
    must [(10, 6), (27, 1)] w (.pfch (bf w 30 2) (bf w 28 2) (bf w 26 1) (bf w 22 4) (bf w 16 6)) := by unfold decodeMemx; rw [h0]; rfl

theorem RoundTrip.pfch (m lsel bo cap vo) : RoundTrip.Statement (.pfch m lsel bo cap vo) := by
  intro _ c0 he
  have hw : width [⟨1, 1#1⟩, ⟨6, 54#6⟩, ⟨3, 0#3⟩, ⟨6, 0#6⟩, ⟨6, vo⟩, ⟨4, cap⟩, ⟨1, bo⟩, ⟨1, 0#1⟩, ⟨2, lsel⟩, ⟨2, m⟩] ≤ 32 := Nat.le.refl
  have hb := fun lo n => bf_word _ lo n hw
  rw [show encode (.pfch m lsel bo cap vo) = _ from wide_word (l := [⟨1, 1#1⟩, ⟨6, 54#6⟩, ⟨3, 0#3⟩, ⟨6, 0#6⟩, ⟨6, vo⟩, ⟨4, cap⟩, ⟨1, bo⟩, ⟨1, 0#1⟩, ⟨2, lsel⟩, ⟨2, m⟩]) (by simp only [value, BitVec.toNat_ofNat]; omega)] at he
  cases he
  rw [decode_wide, major_54 _ (hb 1 6)]
  refine (arm_pfch _ (hb 7 3)).trans ?_
  refine (must_word _ _ _ hw rfl).trans ?_
  simp only [hb]
  rfl

theorem arm_tld (w : BitVec 32) (h0 : bf w 7 3 = 1#3) : decodeMemx w =
    must [(27, 3)] w (.tld (bf w 30 2) (bf w 26 1) (bf w 22 4) (bf w 16 6) (bf w 10 6)) := by unfold decodeMemx; rw [h0]; rfl

theorem RoundTrip.tld (m bo cap vo vd) : RoundTrip.Statement (.tld m bo cap vo vd) := by
  intro _ c0 he
  have hw : width [⟨1, 1#1⟩, ⟨6, 54#6⟩, ⟨3, 1#3⟩, ⟨6, vd⟩, ⟨6, vo⟩, ⟨4, cap⟩, ⟨1, bo⟩, ⟨3, 0#3⟩, ⟨2, m⟩] ≤ 32 := Nat.le.refl
  have hb := fun lo n => bf_word _ lo n hw
  rw [show encode (.tld m bo cap vo vd) = _ from wide_word (l := [⟨1, 1#1⟩, ⟨6, 54#6⟩, ⟨3, 1#3⟩, ⟨6, vd⟩, ⟨6, vo⟩, ⟨4, cap⟩, ⟨1, bo⟩, ⟨3, 0#3⟩, ⟨2, m⟩]) (by simp only [value, BitVec.toNat_ofNat]; omega)] at he
  cases he
  rw [decode_wide, major_54 _ (hb 1 6)]
  refine (arm_tld _ (hb 7 3)).trans ?_
  refine (must_word _ _ _ hw rfl).trans ?_
  simp only [hb]
  rfl

theorem arm_tst (w : BitVec 32) (h0 : bf w 7 3 = 2#3) : decodeMemx w =
    must [(28, 2)] w (.tst (bf w 30 2) (bf w 27 1) (bf w 26 1) (bf w 22 4) (bf w 16 6) (bf w 10 6)) := by unfold decodeMemx; rw [h0]; rfl

theorem RoundTrip.tst (m bd bo cap vo vd) : RoundTrip.Statement (.tst m bd bo cap vo vd) := by
  intro _ c0 he
  have hw : width [⟨1, 1#1⟩, ⟨6, 54#6⟩, ⟨3, 2#3⟩, ⟨6, vd⟩, ⟨6, vo⟩, ⟨4, cap⟩, ⟨1, bo⟩, ⟨1, bd⟩, ⟨2, 0#2⟩, ⟨2, m⟩] ≤ 32 := Nat.le.refl
  have hb := fun lo n => bf_word _ lo n hw
  rw [show encode (.tst m bd bo cap vo vd) = _ from wide_word (l := [⟨1, 1#1⟩, ⟨6, 54#6⟩, ⟨3, 2#3⟩, ⟨6, vd⟩, ⟨6, vo⟩, ⟨4, cap⟩, ⟨1, bo⟩, ⟨1, bd⟩, ⟨2, 0#2⟩, ⟨2, m⟩]) (by simp only [value, BitVec.toNat_ofNat]; omega)] at he
  cases he
  rw [decode_wide, major_54 _ (hb 1 6)]
  refine (arm_tst _ (hb 7 3)).trans ?_
  refine (must_word _ _ _ hw rfl).trans ?_
  simp only [hb]
  rfl

theorem arm_launch (w : BitVec 32) (h0 : bf w 7 3 = 3#3) : decodeMemx w =
    must [(26, 6)] w (.launch (bf w 22 4) (bf w 16 6) (bf w 10 6)) := by unfold decodeMemx; rw [h0]; rfl

theorem RoundTrip.launch (cap so sq) : RoundTrip.Statement (.launch cap so sq) := by
  intro _ c0 he
  have hw : width [⟨1, 1#1⟩, ⟨6, 54#6⟩, ⟨3, 3#3⟩, ⟨6, sq⟩, ⟨6, so⟩, ⟨4, cap⟩, ⟨6, 0#6⟩] ≤ 32 := Nat.le.refl
  have hb := fun lo n => bf_word _ lo n hw
  rw [show encode (.launch cap so sq) = _ from wide_word (l := [⟨1, 1#1⟩, ⟨6, 54#6⟩, ⟨3, 3#3⟩, ⟨6, sq⟩, ⟨6, so⟩, ⟨4, cap⟩, ⟨6, 0#6⟩]) (by simp only [value, BitVec.toNat_ofNat]; omega)] at he
  cases he
  rw [decode_wide, major_54 _ (hb 1 6)]
  refine (arm_launch _ (hb 7 3)).trans ?_
  refine (must_word _ _ _ hw rfl).trans ?_
  simp only [hb]
  rfl

theorem arm_smap (w : BitVec 32) (h0 : bf w 7 3 = 0#3) : decodeSmapx w =
    must [(20, 2), (28, 4)] w (.smap (bf w 22 6) (bf w 16 4) (bf w 10 6)) := by unfold decodeSmapx; rw [h0]; rfl

theorem RoundTrip.smap (ss2 cap sd) : RoundTrip.Statement (.smap ss2 cap sd) := by
  intro _ c0 he
  have hw : width [⟨1, 1#1⟩, ⟨6, 55#6⟩, ⟨3, 0#3⟩, ⟨6, sd⟩, ⟨4, cap⟩, ⟨2, 0#2⟩, ⟨6, ss2⟩, ⟨4, 0#4⟩] ≤ 32 := Nat.le.refl
  have hb := fun lo n => bf_word _ lo n hw
  rw [show encode (.smap ss2 cap sd) = _ from wide_word (l := [⟨1, 1#1⟩, ⟨6, 55#6⟩, ⟨3, 0#3⟩, ⟨6, sd⟩, ⟨4, cap⟩, ⟨2, 0#2⟩, ⟨6, ss2⟩, ⟨4, 0#4⟩]) (by simp only [value, BitVec.toNat_ofNat]; omega)] at he
  cases he
  rw [decode_wide, major_55 _ (hb 1 6)]
  refine (arm_smap _ (hb 7 3)).trans ?_
  refine (must_word _ _ _ hw rfl).trans ?_
  simp only [hb]
  rfl

theorem arm_sunmap (w : BitVec 32) (h0 : bf w 7 3 = 1#3) : decodeSmapx w =
    must [(10, 6), (22, 6), (29, 3)] w (.sunmap (bf w 28 1) (bf w 16 6)) := by unfold decodeSmapx; rw [h0]; rfl

theorem RoundTrip.sunmap (b1 ss) : RoundTrip.Statement (.sunmap b1 ss) := by
  intro _ c0 he
  have hw : width [⟨1, 1#1⟩, ⟨6, 55#6⟩, ⟨3, 1#3⟩, ⟨6, 0#6⟩, ⟨6, ss⟩, ⟨6, 0#6⟩, ⟨1, b1⟩, ⟨3, 0#3⟩] ≤ 32 := Nat.le.refl
  have hb := fun lo n => bf_word _ lo n hw
  rw [show encode (.sunmap b1 ss) = _ from wide_word (l := [⟨1, 1#1⟩, ⟨6, 55#6⟩, ⟨3, 1#3⟩, ⟨6, 0#6⟩, ⟨6, ss⟩, ⟨6, 0#6⟩, ⟨1, b1⟩, ⟨3, 0#3⟩]) (by simp only [value, BitVec.toNat_ofNat]; omega)] at he
  cases he
  rw [decode_wide, major_55 _ (hb 1 6)]
  refine (arm_sunmap _ (hb 7 3)).trans ?_
  refine (must_word _ _ _ hw rfl).trans ?_
  simp only [hb]
  rfl

theorem arm_sflush (w : BitVec 32) (h0 : bf w 7 3 = 2#3) : decodeSmapx w =
    must [(10, 6), (20, 2), (28, 1), (30, 2)] w (.sflush (bf w 29 1) (bf w 22 6) (bf w 16 4)) := by unfold decodeSmapx; rw [h0]; rfl

theorem RoundTrip.sflush (b2 ss2 cap) : RoundTrip.Statement (.sflush b2 ss2 cap) := by
  intro _ c0 he
  have hw : width [⟨1, 1#1⟩, ⟨6, 55#6⟩, ⟨3, 2#3⟩, ⟨6, 0#6⟩, ⟨4, cap⟩, ⟨2, 0#2⟩, ⟨6, ss2⟩, ⟨1, 0#1⟩, ⟨1, b2⟩, ⟨2, 0#2⟩] ≤ 32 := Nat.le.refl
  have hb := fun lo n => bf_word _ lo n hw
  rw [show encode (.sflush b2 ss2 cap) = _ from wide_word (l := [⟨1, 1#1⟩, ⟨6, 55#6⟩, ⟨3, 2#3⟩, ⟨6, 0#6⟩, ⟨4, cap⟩, ⟨2, 0#2⟩, ⟨6, ss2⟩, ⟨1, 0#1⟩, ⟨1, b2⟩, ⟨2, 0#2⟩]) (by simp only [value, BitVec.toNat_ofNat]; omega)] at he
  cases he
  rw [decode_wide, major_55 _ (hb 1 6)]
  refine (arm_sflush _ (hb 7 3)).trans ?_
  refine (must_word _ _ _ hw rfl).trans ?_
  simp only [hb]
  rfl

theorem arm_sinval (w : BitVec 32) (h0 : bf w 7 3 = 3#3) : decodeSmapx w =
    must [(10, 6), (20, 2), (28, 1), (30, 2)] w (.sinval (bf w 29 1) (bf w 22 6) (bf w 16 4)) := by unfold decodeSmapx; rw [h0]; rfl

theorem RoundTrip.sinval (b2 ss2 cap) : RoundTrip.Statement (.sinval b2 ss2 cap) := by
  intro _ c0 he
  have hw : width [⟨1, 1#1⟩, ⟨6, 55#6⟩, ⟨3, 3#3⟩, ⟨6, 0#6⟩, ⟨4, cap⟩, ⟨2, 0#2⟩, ⟨6, ss2⟩, ⟨1, 0#1⟩, ⟨1, b2⟩, ⟨2, 0#2⟩] ≤ 32 := Nat.le.refl
  have hb := fun lo n => bf_word _ lo n hw
  rw [show encode (.sinval b2 ss2 cap) = _ from wide_word (l := [⟨1, 1#1⟩, ⟨6, 55#6⟩, ⟨3, 3#3⟩, ⟨6, 0#6⟩, ⟨4, cap⟩, ⟨2, 0#2⟩, ⟨6, ss2⟩, ⟨1, 0#1⟩, ⟨1, b2⟩, ⟨2, 0#2⟩]) (by simp only [value, BitVec.toNat_ofNat]; omega)] at he
  cases he
  rw [decode_wide, major_55 _ (hb 1 6)]
  refine (arm_sinval _ (hb 7 3)).trans ?_
  refine (must_word _ _ _ hw rfl).trans ?_
  simp only [hb]
  rfl

theorem arm_vatomAddB32 (w : BitVec 32) (h0 : bf w 7 3 = 0#3) : decodeVat32 w =
    .ok (.vatomAddB32 (bf w 30 2) (bf w 29 1) (bf w 28 1) (bf w 24 4) (bf w 20 4) (bf w 15 5) (bf w 10 5)) := by unfold decodeVat32; rw [h0]; rfl

theorem RoundTrip.vatomAddB32 (m sg f os cap vo vd) : RoundTrip.Statement (.vatomAddB32 m sg f os cap vo vd) := by
  intro _ c0 he
  have hw : width [⟨1, 1#1⟩, ⟨6, 56#6⟩, ⟨3, 0#3⟩, ⟨5, vd⟩, ⟨5, vo⟩, ⟨4, cap⟩, ⟨4, os⟩, ⟨1, f⟩, ⟨1, sg⟩, ⟨2, m⟩] ≤ 32 := Nat.le.refl
  have hb := fun lo n => bf_word _ lo n hw
  rw [show encode (.vatomAddB32 m sg f os cap vo vd) = _ from wide_word (l := [⟨1, 1#1⟩, ⟨6, 56#6⟩, ⟨3, 0#3⟩, ⟨5, vd⟩, ⟨5, vo⟩, ⟨4, cap⟩, ⟨4, os⟩, ⟨1, f⟩, ⟨1, sg⟩, ⟨2, m⟩]) (by simp only [value, BitVec.toNat_ofNat]; omega)] at he
  cases he
  rw [decode_wide, major_56 _ (hb 1 6)]
  refine (arm_vatomAddB32 _ (hb 7 3)).trans ?_
  simp only [hb]
  rfl

theorem arm_vatomMinI32 (w : BitVec 32) (h0 : bf w 7 3 = 1#3) : decodeVat32 w =
    .ok (.vatomMinI32 (bf w 30 2) (bf w 29 1) (bf w 28 1) (bf w 24 4) (bf w 20 4) (bf w 15 5) (bf w 10 5)) := by unfold decodeVat32; rw [h0]; rfl

theorem RoundTrip.vatomMinI32 (m sg f os cap vo vd) : RoundTrip.Statement (.vatomMinI32 m sg f os cap vo vd) := by
  intro _ c0 he
  have hw : width [⟨1, 1#1⟩, ⟨6, 56#6⟩, ⟨3, 1#3⟩, ⟨5, vd⟩, ⟨5, vo⟩, ⟨4, cap⟩, ⟨4, os⟩, ⟨1, f⟩, ⟨1, sg⟩, ⟨2, m⟩] ≤ 32 := Nat.le.refl
  have hb := fun lo n => bf_word _ lo n hw
  rw [show encode (.vatomMinI32 m sg f os cap vo vd) = _ from wide_word (l := [⟨1, 1#1⟩, ⟨6, 56#6⟩, ⟨3, 1#3⟩, ⟨5, vd⟩, ⟨5, vo⟩, ⟨4, cap⟩, ⟨4, os⟩, ⟨1, f⟩, ⟨1, sg⟩, ⟨2, m⟩]) (by simp only [value, BitVec.toNat_ofNat]; omega)] at he
  cases he
  rw [decode_wide, major_56 _ (hb 1 6)]
  refine (arm_vatomMinI32 _ (hb 7 3)).trans ?_
  simp only [hb]
  rfl

theorem arm_vatomMaxI32 (w : BitVec 32) (h0 : bf w 7 3 = 2#3) : decodeVat32 w =
    .ok (.vatomMaxI32 (bf w 30 2) (bf w 29 1) (bf w 28 1) (bf w 24 4) (bf w 20 4) (bf w 15 5) (bf w 10 5)) := by unfold decodeVat32; rw [h0]; rfl

theorem RoundTrip.vatomMaxI32 (m sg f os cap vo vd) : RoundTrip.Statement (.vatomMaxI32 m sg f os cap vo vd) := by
  intro _ c0 he
  have hw : width [⟨1, 1#1⟩, ⟨6, 56#6⟩, ⟨3, 2#3⟩, ⟨5, vd⟩, ⟨5, vo⟩, ⟨4, cap⟩, ⟨4, os⟩, ⟨1, f⟩, ⟨1, sg⟩, ⟨2, m⟩] ≤ 32 := Nat.le.refl
  have hb := fun lo n => bf_word _ lo n hw
  rw [show encode (.vatomMaxI32 m sg f os cap vo vd) = _ from wide_word (l := [⟨1, 1#1⟩, ⟨6, 56#6⟩, ⟨3, 2#3⟩, ⟨5, vd⟩, ⟨5, vo⟩, ⟨4, cap⟩, ⟨4, os⟩, ⟨1, f⟩, ⟨1, sg⟩, ⟨2, m⟩]) (by simp only [value, BitVec.toNat_ofNat]; omega)] at he
  cases he
  rw [decode_wide, major_56 _ (hb 1 6)]
  refine (arm_vatomMaxI32 _ (hb 7 3)).trans ?_
  simp only [hb]
  rfl

theorem arm_vatomMinN32 (w : BitVec 32) (h0 : bf w 7 3 = 3#3) : decodeVat32 w =
    .ok (.vatomMinN32 (bf w 30 2) (bf w 29 1) (bf w 28 1) (bf w 24 4) (bf w 20 4) (bf w 15 5) (bf w 10 5)) := by unfold decodeVat32; rw [h0]; rfl

theorem RoundTrip.vatomMinN32 (m sg f os cap vo vd) : RoundTrip.Statement (.vatomMinN32 m sg f os cap vo vd) := by
  intro _ c0 he
  have hw : width [⟨1, 1#1⟩, ⟨6, 56#6⟩, ⟨3, 3#3⟩, ⟨5, vd⟩, ⟨5, vo⟩, ⟨4, cap⟩, ⟨4, os⟩, ⟨1, f⟩, ⟨1, sg⟩, ⟨2, m⟩] ≤ 32 := Nat.le.refl
  have hb := fun lo n => bf_word _ lo n hw
  rw [show encode (.vatomMinN32 m sg f os cap vo vd) = _ from wide_word (l := [⟨1, 1#1⟩, ⟨6, 56#6⟩, ⟨3, 3#3⟩, ⟨5, vd⟩, ⟨5, vo⟩, ⟨4, cap⟩, ⟨4, os⟩, ⟨1, f⟩, ⟨1, sg⟩, ⟨2, m⟩]) (by simp only [value, BitVec.toNat_ofNat]; omega)] at he
  cases he
  rw [decode_wide, major_56 _ (hb 1 6)]
  refine (arm_vatomMinN32 _ (hb 7 3)).trans ?_
  simp only [hb]
  rfl

theorem arm_vatomMaxN32 (w : BitVec 32) (h0 : bf w 7 3 = 4#3) : decodeVat32 w =
    .ok (.vatomMaxN32 (bf w 30 2) (bf w 29 1) (bf w 28 1) (bf w 24 4) (bf w 20 4) (bf w 15 5) (bf w 10 5)) := by unfold decodeVat32; rw [h0]; rfl

theorem RoundTrip.vatomMaxN32 (m sg f os cap vo vd) : RoundTrip.Statement (.vatomMaxN32 m sg f os cap vo vd) := by
  intro _ c0 he
  have hw : width [⟨1, 1#1⟩, ⟨6, 56#6⟩, ⟨3, 4#3⟩, ⟨5, vd⟩, ⟨5, vo⟩, ⟨4, cap⟩, ⟨4, os⟩, ⟨1, f⟩, ⟨1, sg⟩, ⟨2, m⟩] ≤ 32 := Nat.le.refl
  have hb := fun lo n => bf_word _ lo n hw
  rw [show encode (.vatomMaxN32 m sg f os cap vo vd) = _ from wide_word (l := [⟨1, 1#1⟩, ⟨6, 56#6⟩, ⟨3, 4#3⟩, ⟨5, vd⟩, ⟨5, vo⟩, ⟨4, cap⟩, ⟨4, os⟩, ⟨1, f⟩, ⟨1, sg⟩, ⟨2, m⟩]) (by simp only [value, BitVec.toNat_ofNat]; omega)] at he
  cases he
  rw [decode_wide, major_56 _ (hb 1 6)]
  refine (arm_vatomMaxN32 _ (hb 7 3)).trans ?_
  simp only [hb]
  rfl

theorem arm_vatomAndB32 (w : BitVec 32) (h0 : bf w 7 3 = 5#3) : decodeVat32 w =
    .ok (.vatomAndB32 (bf w 30 2) (bf w 29 1) (bf w 28 1) (bf w 24 4) (bf w 20 4) (bf w 15 5) (bf w 10 5)) := by unfold decodeVat32; rw [h0]; rfl

theorem RoundTrip.vatomAndB32 (m sg f os cap vo vd) : RoundTrip.Statement (.vatomAndB32 m sg f os cap vo vd) := by
  intro _ c0 he
  have hw : width [⟨1, 1#1⟩, ⟨6, 56#6⟩, ⟨3, 5#3⟩, ⟨5, vd⟩, ⟨5, vo⟩, ⟨4, cap⟩, ⟨4, os⟩, ⟨1, f⟩, ⟨1, sg⟩, ⟨2, m⟩] ≤ 32 := Nat.le.refl
  have hb := fun lo n => bf_word _ lo n hw
  rw [show encode (.vatomAndB32 m sg f os cap vo vd) = _ from wide_word (l := [⟨1, 1#1⟩, ⟨6, 56#6⟩, ⟨3, 5#3⟩, ⟨5, vd⟩, ⟨5, vo⟩, ⟨4, cap⟩, ⟨4, os⟩, ⟨1, f⟩, ⟨1, sg⟩, ⟨2, m⟩]) (by simp only [value, BitVec.toNat_ofNat]; omega)] at he
  cases he
  rw [decode_wide, major_56 _ (hb 1 6)]
  refine (arm_vatomAndB32 _ (hb 7 3)).trans ?_
  simp only [hb]
  rfl

theorem arm_vatomOrB32 (w : BitVec 32) (h0 : bf w 7 3 = 6#3) : decodeVat32 w =
    .ok (.vatomOrB32 (bf w 30 2) (bf w 29 1) (bf w 28 1) (bf w 24 4) (bf w 20 4) (bf w 15 5) (bf w 10 5)) := by unfold decodeVat32; rw [h0]; rfl

theorem RoundTrip.vatomOrB32 (m sg f os cap vo vd) : RoundTrip.Statement (.vatomOrB32 m sg f os cap vo vd) := by
  intro _ c0 he
  have hw : width [⟨1, 1#1⟩, ⟨6, 56#6⟩, ⟨3, 6#3⟩, ⟨5, vd⟩, ⟨5, vo⟩, ⟨4, cap⟩, ⟨4, os⟩, ⟨1, f⟩, ⟨1, sg⟩, ⟨2, m⟩] ≤ 32 := Nat.le.refl
  have hb := fun lo n => bf_word _ lo n hw
  rw [show encode (.vatomOrB32 m sg f os cap vo vd) = _ from wide_word (l := [⟨1, 1#1⟩, ⟨6, 56#6⟩, ⟨3, 6#3⟩, ⟨5, vd⟩, ⟨5, vo⟩, ⟨4, cap⟩, ⟨4, os⟩, ⟨1, f⟩, ⟨1, sg⟩, ⟨2, m⟩]) (by simp only [value, BitVec.toNat_ofNat]; omega)] at he
  cases he
  rw [decode_wide, major_56 _ (hb 1 6)]
  refine (arm_vatomOrB32 _ (hb 7 3)).trans ?_
  simp only [hb]
  rfl

theorem arm_vatomXorB32 (w : BitVec 32) (h0 : bf w 7 3 = 7#3) : decodeVat32 w =
    .ok (.vatomXorB32 (bf w 30 2) (bf w 29 1) (bf w 28 1) (bf w 24 4) (bf w 20 4) (bf w 15 5) (bf w 10 5)) := by unfold decodeVat32; rw [h0]; rfl

theorem RoundTrip.vatomXorB32 (m sg f os cap vo vd) : RoundTrip.Statement (.vatomXorB32 m sg f os cap vo vd) := by
  intro _ c0 he
  have hw : width [⟨1, 1#1⟩, ⟨6, 56#6⟩, ⟨3, 7#3⟩, ⟨5, vd⟩, ⟨5, vo⟩, ⟨4, cap⟩, ⟨4, os⟩, ⟨1, f⟩, ⟨1, sg⟩, ⟨2, m⟩] ≤ 32 := Nat.le.refl
  have hb := fun lo n => bf_word _ lo n hw
  rw [show encode (.vatomXorB32 m sg f os cap vo vd) = _ from wide_word (l := [⟨1, 1#1⟩, ⟨6, 56#6⟩, ⟨3, 7#3⟩, ⟨5, vd⟩, ⟨5, vo⟩, ⟨4, cap⟩, ⟨4, os⟩, ⟨1, f⟩, ⟨1, sg⟩, ⟨2, m⟩]) (by simp only [value, BitVec.toNat_ofNat]; omega)] at he
  cases he
  rw [decode_wide, major_56 _ (hb 1 6)]
  refine (arm_vatomXorB32 _ (hb 7 3)).trans ?_
  simp only [hb]
  rfl

theorem arm_vatomAddB64 (w : BitVec 32) (h0 : bf w 7 3 = 0#3) : decodeVat64 w =
    .ok (.vatomAddB64 (bf w 30 2) (bf w 29 1) (bf w 28 1) (bf w 24 4) (bf w 20 4) (bf w 15 5) (bf w 10 5)) := by unfold decodeVat64; rw [h0]; rfl

theorem RoundTrip.vatomAddB64 (m sg f os cap vo vd) : RoundTrip.Statement (.vatomAddB64 m sg f os cap vo vd) := by
  intro _ c0 he
  have hw : width [⟨1, 1#1⟩, ⟨6, 57#6⟩, ⟨3, 0#3⟩, ⟨5, vd⟩, ⟨5, vo⟩, ⟨4, cap⟩, ⟨4, os⟩, ⟨1, f⟩, ⟨1, sg⟩, ⟨2, m⟩] ≤ 32 := Nat.le.refl
  have hb := fun lo n => bf_word _ lo n hw
  rw [show encode (.vatomAddB64 m sg f os cap vo vd) = _ from wide_word (l := [⟨1, 1#1⟩, ⟨6, 57#6⟩, ⟨3, 0#3⟩, ⟨5, vd⟩, ⟨5, vo⟩, ⟨4, cap⟩, ⟨4, os⟩, ⟨1, f⟩, ⟨1, sg⟩, ⟨2, m⟩]) (by simp only [value, BitVec.toNat_ofNat]; omega)] at he
  cases he
  rw [decode_wide, major_57 _ (hb 1 6)]
  refine (arm_vatomAddB64 _ (hb 7 3)).trans ?_
  simp only [hb]
  rfl

theorem arm_vatomMinI64 (w : BitVec 32) (h0 : bf w 7 3 = 1#3) : decodeVat64 w =
    .ok (.vatomMinI64 (bf w 30 2) (bf w 29 1) (bf w 28 1) (bf w 24 4) (bf w 20 4) (bf w 15 5) (bf w 10 5)) := by unfold decodeVat64; rw [h0]; rfl

theorem RoundTrip.vatomMinI64 (m sg f os cap vo vd) : RoundTrip.Statement (.vatomMinI64 m sg f os cap vo vd) := by
  intro _ c0 he
  have hw : width [⟨1, 1#1⟩, ⟨6, 57#6⟩, ⟨3, 1#3⟩, ⟨5, vd⟩, ⟨5, vo⟩, ⟨4, cap⟩, ⟨4, os⟩, ⟨1, f⟩, ⟨1, sg⟩, ⟨2, m⟩] ≤ 32 := Nat.le.refl
  have hb := fun lo n => bf_word _ lo n hw
  rw [show encode (.vatomMinI64 m sg f os cap vo vd) = _ from wide_word (l := [⟨1, 1#1⟩, ⟨6, 57#6⟩, ⟨3, 1#3⟩, ⟨5, vd⟩, ⟨5, vo⟩, ⟨4, cap⟩, ⟨4, os⟩, ⟨1, f⟩, ⟨1, sg⟩, ⟨2, m⟩]) (by simp only [value, BitVec.toNat_ofNat]; omega)] at he
  cases he
  rw [decode_wide, major_57 _ (hb 1 6)]
  refine (arm_vatomMinI64 _ (hb 7 3)).trans ?_
  simp only [hb]
  rfl

theorem arm_vatomMaxI64 (w : BitVec 32) (h0 : bf w 7 3 = 2#3) : decodeVat64 w =
    .ok (.vatomMaxI64 (bf w 30 2) (bf w 29 1) (bf w 28 1) (bf w 24 4) (bf w 20 4) (bf w 15 5) (bf w 10 5)) := by unfold decodeVat64; rw [h0]; rfl

theorem RoundTrip.vatomMaxI64 (m sg f os cap vo vd) : RoundTrip.Statement (.vatomMaxI64 m sg f os cap vo vd) := by
  intro _ c0 he
  have hw : width [⟨1, 1#1⟩, ⟨6, 57#6⟩, ⟨3, 2#3⟩, ⟨5, vd⟩, ⟨5, vo⟩, ⟨4, cap⟩, ⟨4, os⟩, ⟨1, f⟩, ⟨1, sg⟩, ⟨2, m⟩] ≤ 32 := Nat.le.refl
  have hb := fun lo n => bf_word _ lo n hw
  rw [show encode (.vatomMaxI64 m sg f os cap vo vd) = _ from wide_word (l := [⟨1, 1#1⟩, ⟨6, 57#6⟩, ⟨3, 2#3⟩, ⟨5, vd⟩, ⟨5, vo⟩, ⟨4, cap⟩, ⟨4, os⟩, ⟨1, f⟩, ⟨1, sg⟩, ⟨2, m⟩]) (by simp only [value, BitVec.toNat_ofNat]; omega)] at he
  cases he
  rw [decode_wide, major_57 _ (hb 1 6)]
  refine (arm_vatomMaxI64 _ (hb 7 3)).trans ?_
  simp only [hb]
  rfl

theorem arm_vatomMinN64 (w : BitVec 32) (h0 : bf w 7 3 = 3#3) : decodeVat64 w =
    .ok (.vatomMinN64 (bf w 30 2) (bf w 29 1) (bf w 28 1) (bf w 24 4) (bf w 20 4) (bf w 15 5) (bf w 10 5)) := by unfold decodeVat64; rw [h0]; rfl

theorem RoundTrip.vatomMinN64 (m sg f os cap vo vd) : RoundTrip.Statement (.vatomMinN64 m sg f os cap vo vd) := by
  intro _ c0 he
  have hw : width [⟨1, 1#1⟩, ⟨6, 57#6⟩, ⟨3, 3#3⟩, ⟨5, vd⟩, ⟨5, vo⟩, ⟨4, cap⟩, ⟨4, os⟩, ⟨1, f⟩, ⟨1, sg⟩, ⟨2, m⟩] ≤ 32 := Nat.le.refl
  have hb := fun lo n => bf_word _ lo n hw
  rw [show encode (.vatomMinN64 m sg f os cap vo vd) = _ from wide_word (l := [⟨1, 1#1⟩, ⟨6, 57#6⟩, ⟨3, 3#3⟩, ⟨5, vd⟩, ⟨5, vo⟩, ⟨4, cap⟩, ⟨4, os⟩, ⟨1, f⟩, ⟨1, sg⟩, ⟨2, m⟩]) (by simp only [value, BitVec.toNat_ofNat]; omega)] at he
  cases he
  rw [decode_wide, major_57 _ (hb 1 6)]
  refine (arm_vatomMinN64 _ (hb 7 3)).trans ?_
  simp only [hb]
  rfl

theorem arm_vatomMaxN64 (w : BitVec 32) (h0 : bf w 7 3 = 4#3) : decodeVat64 w =
    .ok (.vatomMaxN64 (bf w 30 2) (bf w 29 1) (bf w 28 1) (bf w 24 4) (bf w 20 4) (bf w 15 5) (bf w 10 5)) := by unfold decodeVat64; rw [h0]; rfl

theorem RoundTrip.vatomMaxN64 (m sg f os cap vo vd) : RoundTrip.Statement (.vatomMaxN64 m sg f os cap vo vd) := by
  intro _ c0 he
  have hw : width [⟨1, 1#1⟩, ⟨6, 57#6⟩, ⟨3, 4#3⟩, ⟨5, vd⟩, ⟨5, vo⟩, ⟨4, cap⟩, ⟨4, os⟩, ⟨1, f⟩, ⟨1, sg⟩, ⟨2, m⟩] ≤ 32 := Nat.le.refl
  have hb := fun lo n => bf_word _ lo n hw
  rw [show encode (.vatomMaxN64 m sg f os cap vo vd) = _ from wide_word (l := [⟨1, 1#1⟩, ⟨6, 57#6⟩, ⟨3, 4#3⟩, ⟨5, vd⟩, ⟨5, vo⟩, ⟨4, cap⟩, ⟨4, os⟩, ⟨1, f⟩, ⟨1, sg⟩, ⟨2, m⟩]) (by simp only [value, BitVec.toNat_ofNat]; omega)] at he
  cases he
  rw [decode_wide, major_57 _ (hb 1 6)]
  refine (arm_vatomMaxN64 _ (hb 7 3)).trans ?_
  simp only [hb]
  rfl

theorem arm_vatomAndB64 (w : BitVec 32) (h0 : bf w 7 3 = 5#3) : decodeVat64 w =
    .ok (.vatomAndB64 (bf w 30 2) (bf w 29 1) (bf w 28 1) (bf w 24 4) (bf w 20 4) (bf w 15 5) (bf w 10 5)) := by unfold decodeVat64; rw [h0]; rfl

theorem RoundTrip.vatomAndB64 (m sg f os cap vo vd) : RoundTrip.Statement (.vatomAndB64 m sg f os cap vo vd) := by
  intro _ c0 he
  have hw : width [⟨1, 1#1⟩, ⟨6, 57#6⟩, ⟨3, 5#3⟩, ⟨5, vd⟩, ⟨5, vo⟩, ⟨4, cap⟩, ⟨4, os⟩, ⟨1, f⟩, ⟨1, sg⟩, ⟨2, m⟩] ≤ 32 := Nat.le.refl
  have hb := fun lo n => bf_word _ lo n hw
  rw [show encode (.vatomAndB64 m sg f os cap vo vd) = _ from wide_word (l := [⟨1, 1#1⟩, ⟨6, 57#6⟩, ⟨3, 5#3⟩, ⟨5, vd⟩, ⟨5, vo⟩, ⟨4, cap⟩, ⟨4, os⟩, ⟨1, f⟩, ⟨1, sg⟩, ⟨2, m⟩]) (by simp only [value, BitVec.toNat_ofNat]; omega)] at he
  cases he
  rw [decode_wide, major_57 _ (hb 1 6)]
  refine (arm_vatomAndB64 _ (hb 7 3)).trans ?_
  simp only [hb]
  rfl

theorem arm_vatomOrB64 (w : BitVec 32) (h0 : bf w 7 3 = 6#3) : decodeVat64 w =
    .ok (.vatomOrB64 (bf w 30 2) (bf w 29 1) (bf w 28 1) (bf w 24 4) (bf w 20 4) (bf w 15 5) (bf w 10 5)) := by unfold decodeVat64; rw [h0]; rfl

theorem RoundTrip.vatomOrB64 (m sg f os cap vo vd) : RoundTrip.Statement (.vatomOrB64 m sg f os cap vo vd) := by
  intro _ c0 he
  have hw : width [⟨1, 1#1⟩, ⟨6, 57#6⟩, ⟨3, 6#3⟩, ⟨5, vd⟩, ⟨5, vo⟩, ⟨4, cap⟩, ⟨4, os⟩, ⟨1, f⟩, ⟨1, sg⟩, ⟨2, m⟩] ≤ 32 := Nat.le.refl
  have hb := fun lo n => bf_word _ lo n hw
  rw [show encode (.vatomOrB64 m sg f os cap vo vd) = _ from wide_word (l := [⟨1, 1#1⟩, ⟨6, 57#6⟩, ⟨3, 6#3⟩, ⟨5, vd⟩, ⟨5, vo⟩, ⟨4, cap⟩, ⟨4, os⟩, ⟨1, f⟩, ⟨1, sg⟩, ⟨2, m⟩]) (by simp only [value, BitVec.toNat_ofNat]; omega)] at he
  cases he
  rw [decode_wide, major_57 _ (hb 1 6)]
  refine (arm_vatomOrB64 _ (hb 7 3)).trans ?_
  simp only [hb]
  rfl

theorem arm_vatomXorB64 (w : BitVec 32) (h0 : bf w 7 3 = 7#3) : decodeVat64 w =
    .ok (.vatomXorB64 (bf w 30 2) (bf w 29 1) (bf w 28 1) (bf w 24 4) (bf w 20 4) (bf w 15 5) (bf w 10 5)) := by unfold decodeVat64; rw [h0]; rfl

theorem RoundTrip.vatomXorB64 (m sg f os cap vo vd) : RoundTrip.Statement (.vatomXorB64 m sg f os cap vo vd) := by
  intro _ c0 he
  have hw : width [⟨1, 1#1⟩, ⟨6, 57#6⟩, ⟨3, 7#3⟩, ⟨5, vd⟩, ⟨5, vo⟩, ⟨4, cap⟩, ⟨4, os⟩, ⟨1, f⟩, ⟨1, sg⟩, ⟨2, m⟩] ≤ 32 := Nat.le.refl
  have hb := fun lo n => bf_word _ lo n hw
  rw [show encode (.vatomXorB64 m sg f os cap vo vd) = _ from wide_word (l := [⟨1, 1#1⟩, ⟨6, 57#6⟩, ⟨3, 7#3⟩, ⟨5, vd⟩, ⟨5, vo⟩, ⟨4, cap⟩, ⟨4, os⟩, ⟨1, f⟩, ⟨1, sg⟩, ⟨2, m⟩]) (by simp only [value, BitVec.toNat_ofNat]; omega)] at he
  cases he
  rw [decode_wide, major_57 _ (hb 1 6)]
  refine (arm_vatomXorB64 _ (hb 7 3)).trans ?_
  simp only [hb]
  rfl

theorem arm_vatomXchgB32 (w : BitVec 32) (h0 : bf w 7 3 = 0#3) : decodeVatx w =
    .ok (.vatomXchgB32 (bf w 30 2) (bf w 29 1) (bf w 28 1) (bf w 24 4) (bf w 20 4) (bf w 15 5) (bf w 10 5)) := by unfold decodeVatx; rw [h0]; rfl

theorem RoundTrip.vatomXchgB32 (m sg f os cap vo vd) : RoundTrip.Statement (.vatomXchgB32 m sg f os cap vo vd) := by
  intro _ c0 he
  have hw : width [⟨1, 1#1⟩, ⟨6, 58#6⟩, ⟨3, 0#3⟩, ⟨5, vd⟩, ⟨5, vo⟩, ⟨4, cap⟩, ⟨4, os⟩, ⟨1, f⟩, ⟨1, sg⟩, ⟨2, m⟩] ≤ 32 := Nat.le.refl
  have hb := fun lo n => bf_word _ lo n hw
  rw [show encode (.vatomXchgB32 m sg f os cap vo vd) = _ from wide_word (l := [⟨1, 1#1⟩, ⟨6, 58#6⟩, ⟨3, 0#3⟩, ⟨5, vd⟩, ⟨5, vo⟩, ⟨4, cap⟩, ⟨4, os⟩, ⟨1, f⟩, ⟨1, sg⟩, ⟨2, m⟩]) (by simp only [value, BitVec.toNat_ofNat]; omega)] at he
  cases he
  rw [decode_wide, major_58 _ (hb 1 6)]
  refine (arm_vatomXchgB32 _ (hb 7 3)).trans ?_
  simp only [hb]
  rfl

theorem arm_vatomXchgB64 (w : BitVec 32) (h0 : bf w 7 3 = 1#3) : decodeVatx w =
    .ok (.vatomXchgB64 (bf w 30 2) (bf w 29 1) (bf w 28 1) (bf w 24 4) (bf w 20 4) (bf w 15 5) (bf w 10 5)) := by unfold decodeVatx; rw [h0]; rfl

theorem RoundTrip.vatomXchgB64 (m sg f os cap vo vd) : RoundTrip.Statement (.vatomXchgB64 m sg f os cap vo vd) := by
  intro _ c0 he
  have hw : width [⟨1, 1#1⟩, ⟨6, 58#6⟩, ⟨3, 1#3⟩, ⟨5, vd⟩, ⟨5, vo⟩, ⟨4, cap⟩, ⟨4, os⟩, ⟨1, f⟩, ⟨1, sg⟩, ⟨2, m⟩] ≤ 32 := Nat.le.refl
  have hb := fun lo n => bf_word _ lo n hw
  rw [show encode (.vatomXchgB64 m sg f os cap vo vd) = _ from wide_word (l := [⟨1, 1#1⟩, ⟨6, 58#6⟩, ⟨3, 1#3⟩, ⟨5, vd⟩, ⟨5, vo⟩, ⟨4, cap⟩, ⟨4, os⟩, ⟨1, f⟩, ⟨1, sg⟩, ⟨2, m⟩]) (by simp only [value, BitVec.toNat_ofNat]; omega)] at he
  cases he
  rw [decode_wide, major_58 _ (hb 1 6)]
  refine (arm_vatomXchgB64 _ (hb 7 3)).trans ?_
  simp only [hb]
  rfl

theorem arm_vatomCasB32 (w : BitVec 32) (h0 : bf w 7 3 = 2#3) : decodeVatx w =
    mustSet 28 w (.vatomCasB32 (bf w 30 2) (bf w 29 1) (bf w 24 4) (bf w 20 4) (bf w 15 5) (bf w 10 5)) := by unfold decodeVatx; rw [h0]; rfl

theorem RoundTrip.vatomCasB32 (m sg os cap vo vd) : RoundTrip.Statement (.vatomCasB32 m sg os cap vo vd) := by
  intro _ c0 he
  have hw : width [⟨1, 1#1⟩, ⟨6, 58#6⟩, ⟨3, 2#3⟩, ⟨5, vd⟩, ⟨5, vo⟩, ⟨4, cap⟩, ⟨4, os⟩, ⟨1, 1#1⟩, ⟨1, sg⟩, ⟨2, m⟩] ≤ 32 := Nat.le.refl
  have hb := fun lo n => bf_word _ lo n hw
  rw [show encode (.vatomCasB32 m sg os cap vo vd) = _ from wide_word (l := [⟨1, 1#1⟩, ⟨6, 58#6⟩, ⟨3, 2#3⟩, ⟨5, vd⟩, ⟨5, vo⟩, ⟨4, cap⟩, ⟨4, os⟩, ⟨1, 1#1⟩, ⟨1, sg⟩, ⟨2, m⟩]) (by simp only [value, BitVec.toNat_ofNat]; omega)] at he
  cases he
  rw [decode_wide, major_58 _ (hb 1 6)]
  refine (arm_vatomCasB32 _ (hb 7 3)).trans ?_
  refine (mustSet_word _ _ _ hw rfl).trans ?_
  simp only [hb]
  rfl

theorem arm_vatomCasB64 (w : BitVec 32) (h0 : bf w 7 3 = 3#3) : decodeVatx w =
    mustSet 28 w (.vatomCasB64 (bf w 30 2) (bf w 29 1) (bf w 24 4) (bf w 20 4) (bf w 15 5) (bf w 10 5)) := by unfold decodeVatx; rw [h0]; rfl

theorem RoundTrip.vatomCasB64 (m sg os cap vo vd) : RoundTrip.Statement (.vatomCasB64 m sg os cap vo vd) := by
  intro _ c0 he
  have hw : width [⟨1, 1#1⟩, ⟨6, 58#6⟩, ⟨3, 3#3⟩, ⟨5, vd⟩, ⟨5, vo⟩, ⟨4, cap⟩, ⟨4, os⟩, ⟨1, 1#1⟩, ⟨1, sg⟩, ⟨2, m⟩] ≤ 32 := Nat.le.refl
  have hb := fun lo n => bf_word _ lo n hw
  rw [show encode (.vatomCasB64 m sg os cap vo vd) = _ from wide_word (l := [⟨1, 1#1⟩, ⟨6, 58#6⟩, ⟨3, 3#3⟩, ⟨5, vd⟩, ⟨5, vo⟩, ⟨4, cap⟩, ⟨4, os⟩, ⟨1, 1#1⟩, ⟨1, sg⟩, ⟨2, m⟩]) (by simp only [value, BitVec.toNat_ofNat]; omega)] at he
  cases he
  rw [decode_wide, major_58 _ (hb 1 6)]
  refine (arm_vatomCasB64 _ (hb 7 3)).trans ?_
  refine (mustSet_word _ _ _ hw rfl).trans ?_
  simp only [hb]
  rfl

theorem arm_vratomAddBf16 (w : BitVec 32) (h0 : bf w 7 3 = 4#3) : decodeVatx w =
    .ok (.vratomAddBf16 (bf w 30 2) (bf w 29 1) (bf w 28 1) (bf w 24 4) (bf w 20 4) (bf w 15 5) (bf w 10 5)) := by unfold decodeVatx; rw [h0]; rfl

theorem RoundTrip.vratomAddBf16 (m sg f os cap so vd) : RoundTrip.Statement (.vratomAddBf16 m sg f os cap so vd) := by
  intro _ c0 he
  have hw : width [⟨1, 1#1⟩, ⟨6, 58#6⟩, ⟨3, 4#3⟩, ⟨5, vd⟩, ⟨5, so⟩, ⟨4, cap⟩, ⟨4, os⟩, ⟨1, f⟩, ⟨1, sg⟩, ⟨2, m⟩] ≤ 32 := Nat.le.refl
  have hb := fun lo n => bf_word _ lo n hw
  rw [show encode (.vratomAddBf16 m sg f os cap so vd) = _ from wide_word (l := [⟨1, 1#1⟩, ⟨6, 58#6⟩, ⟨3, 4#3⟩, ⟨5, vd⟩, ⟨5, so⟩, ⟨4, cap⟩, ⟨4, os⟩, ⟨1, f⟩, ⟨1, sg⟩, ⟨2, m⟩]) (by simp only [value, BitVec.toNat_ofNat]; omega)] at he
  cases he
  rw [decode_wide, major_58 _ (hb 1 6)]
  refine (arm_vratomAddBf16 _ (hb 7 3)).trans ?_
  simp only [hb]
  rfl

theorem arm_vatomFaddF32 (w : BitVec 32) (h0 : bf w 7 3 = 0#3) : decodeVatf w =
    .ok (.vatomFaddF32 (bf w 30 2) (bf w 29 1) (bf w 28 1) (bf w 24 4) (bf w 20 4) (bf w 15 5) (bf w 10 5)) := by unfold decodeVatf; rw [h0]; rfl

theorem RoundTrip.vatomFaddF32 (m sg f os cap vo vd) : RoundTrip.Statement (.vatomFaddF32 m sg f os cap vo vd) := by
  intro _ c0 he
  have hw : width [⟨1, 1#1⟩, ⟨6, 59#6⟩, ⟨3, 0#3⟩, ⟨5, vd⟩, ⟨5, vo⟩, ⟨4, cap⟩, ⟨4, os⟩, ⟨1, f⟩, ⟨1, sg⟩, ⟨2, m⟩] ≤ 32 := Nat.le.refl
  have hb := fun lo n => bf_word _ lo n hw
  rw [show encode (.vatomFaddF32 m sg f os cap vo vd) = _ from wide_word (l := [⟨1, 1#1⟩, ⟨6, 59#6⟩, ⟨3, 0#3⟩, ⟨5, vd⟩, ⟨5, vo⟩, ⟨4, cap⟩, ⟨4, os⟩, ⟨1, f⟩, ⟨1, sg⟩, ⟨2, m⟩]) (by simp only [value, BitVec.toNat_ofNat]; omega)] at he
  cases he
  rw [decode_wide, major_59 _ (hb 1 6)]
  refine (arm_vatomFaddF32 _ (hb 7 3)).trans ?_
  simp only [hb]
  rfl

theorem arm_vatomFaddF64 (w : BitVec 32) (h0 : bf w 7 3 = 1#3) : decodeVatf w =
    .ok (.vatomFaddF64 (bf w 30 2) (bf w 29 1) (bf w 28 1) (bf w 24 4) (bf w 20 4) (bf w 15 5) (bf w 10 5)) := by unfold decodeVatf; rw [h0]; rfl

theorem RoundTrip.vatomFaddF64 (m sg f os cap vo vd) : RoundTrip.Statement (.vatomFaddF64 m sg f os cap vo vd) := by
  intro _ c0 he
  have hw : width [⟨1, 1#1⟩, ⟨6, 59#6⟩, ⟨3, 1#3⟩, ⟨5, vd⟩, ⟨5, vo⟩, ⟨4, cap⟩, ⟨4, os⟩, ⟨1, f⟩, ⟨1, sg⟩, ⟨2, m⟩] ≤ 32 := Nat.le.refl
  have hb := fun lo n => bf_word _ lo n hw
  rw [show encode (.vatomFaddF64 m sg f os cap vo vd) = _ from wide_word (l := [⟨1, 1#1⟩, ⟨6, 59#6⟩, ⟨3, 1#3⟩, ⟨5, vd⟩, ⟨5, vo⟩, ⟨4, cap⟩, ⟨4, os⟩, ⟨1, f⟩, ⟨1, sg⟩, ⟨2, m⟩]) (by simp only [value, BitVec.toNat_ofNat]; omega)] at he
  cases he
  rw [decode_wide, major_59 _ (hb 1 6)]
  refine (arm_vatomFaddF64 _ (hb 7 3)).trans ?_
  simp only [hb]
  rfl

theorem arm_vatomFaddBf16x2 (w : BitVec 32) (h0 : bf w 7 3 = 2#3) : decodeVatf w =
    .ok (.vatomFaddBf16x2 (bf w 30 2) (bf w 29 1) (bf w 28 1) (bf w 24 4) (bf w 20 4) (bf w 15 5) (bf w 10 5)) := by unfold decodeVatf; rw [h0]; rfl

theorem RoundTrip.vatomFaddBf16x2 (m sg f os cap vo vd) : RoundTrip.Statement (.vatomFaddBf16x2 m sg f os cap vo vd) := by
  intro _ c0 he
  have hw : width [⟨1, 1#1⟩, ⟨6, 59#6⟩, ⟨3, 2#3⟩, ⟨5, vd⟩, ⟨5, vo⟩, ⟨4, cap⟩, ⟨4, os⟩, ⟨1, f⟩, ⟨1, sg⟩, ⟨2, m⟩] ≤ 32 := Nat.le.refl
  have hb := fun lo n => bf_word _ lo n hw
  rw [show encode (.vatomFaddBf16x2 m sg f os cap vo vd) = _ from wide_word (l := [⟨1, 1#1⟩, ⟨6, 59#6⟩, ⟨3, 2#3⟩, ⟨5, vd⟩, ⟨5, vo⟩, ⟨4, cap⟩, ⟨4, os⟩, ⟨1, f⟩, ⟨1, sg⟩, ⟨2, m⟩]) (by simp only [value, BitVec.toNat_ofNat]; omega)] at he
  cases he
  rw [decode_wide, major_59 _ (hb 1 6)]
  refine (arm_vatomFaddBf16x2 _ (hb 7 3)).trans ?_
  simp only [hb]
  rfl

theorem arm_vatomFaddF16x2 (w : BitVec 32) (h0 : bf w 7 3 = 3#3) : decodeVatf w =
    .ok (.vatomFaddF16x2 (bf w 30 2) (bf w 29 1) (bf w 28 1) (bf w 24 4) (bf w 20 4) (bf w 15 5) (bf w 10 5)) := by unfold decodeVatf; rw [h0]; rfl

theorem RoundTrip.vatomFaddF16x2 (m sg f os cap vo vd) : RoundTrip.Statement (.vatomFaddF16x2 m sg f os cap vo vd) := by
  intro _ c0 he
  have hw : width [⟨1, 1#1⟩, ⟨6, 59#6⟩, ⟨3, 3#3⟩, ⟨5, vd⟩, ⟨5, vo⟩, ⟨4, cap⟩, ⟨4, os⟩, ⟨1, f⟩, ⟨1, sg⟩, ⟨2, m⟩] ≤ 32 := Nat.le.refl
  have hb := fun lo n => bf_word _ lo n hw
  rw [show encode (.vatomFaddF16x2 m sg f os cap vo vd) = _ from wide_word (l := [⟨1, 1#1⟩, ⟨6, 59#6⟩, ⟨3, 3#3⟩, ⟨5, vd⟩, ⟨5, vo⟩, ⟨4, cap⟩, ⟨4, os⟩, ⟨1, f⟩, ⟨1, sg⟩, ⟨2, m⟩]) (by simp only [value, BitVec.toNat_ofNat]; omega)] at he
  cases he
  rw [decode_wide, major_59 _ (hb 1 6)]
  refine (arm_vatomFaddF16x2 _ (hb 7 3)).trans ?_
  simp only [hb]
  rfl

theorem arm_vatomFaddF32Mrg (w : BitVec 32) (h0 : bf w 7 3 = 4#3) : decodeVatf w =
    .ok (.vatomFaddF32Mrg (bf w 30 2) (bf w 29 1) (bf w 28 1) (bf w 24 4) (bf w 20 4) (bf w 15 5) (bf w 10 5)) := by unfold decodeVatf; rw [h0]; rfl

theorem RoundTrip.vatomFaddF32Mrg (m sg f os cap vo vd) : RoundTrip.Statement (.vatomFaddF32Mrg m sg f os cap vo vd) := by
  intro _ c0 he
  have hw : width [⟨1, 1#1⟩, ⟨6, 59#6⟩, ⟨3, 4#3⟩, ⟨5, vd⟩, ⟨5, vo⟩, ⟨4, cap⟩, ⟨4, os⟩, ⟨1, f⟩, ⟨1, sg⟩, ⟨2, m⟩] ≤ 32 := Nat.le.refl
  have hb := fun lo n => bf_word _ lo n hw
  rw [show encode (.vatomFaddF32Mrg m sg f os cap vo vd) = _ from wide_word (l := [⟨1, 1#1⟩, ⟨6, 59#6⟩, ⟨3, 4#3⟩, ⟨5, vd⟩, ⟨5, vo⟩, ⟨4, cap⟩, ⟨4, os⟩, ⟨1, f⟩, ⟨1, sg⟩, ⟨2, m⟩]) (by simp only [value, BitVec.toNat_ofNat]; omega)] at he
  cases he
  rw [decode_wide, major_59 _ (hb 1 6)]
  refine (arm_vatomFaddF32Mrg _ (hb 7 3)).trans ?_
  simp only [hb]
  rfl

theorem arm_vatomFaddF64Mrg (w : BitVec 32) (h0 : bf w 7 3 = 5#3) : decodeVatf w =
    .ok (.vatomFaddF64Mrg (bf w 30 2) (bf w 29 1) (bf w 28 1) (bf w 24 4) (bf w 20 4) (bf w 15 5) (bf w 10 5)) := by unfold decodeVatf; rw [h0]; rfl

theorem RoundTrip.vatomFaddF64Mrg (m sg f os cap vo vd) : RoundTrip.Statement (.vatomFaddF64Mrg m sg f os cap vo vd) := by
  intro _ c0 he
  have hw : width [⟨1, 1#1⟩, ⟨6, 59#6⟩, ⟨3, 5#3⟩, ⟨5, vd⟩, ⟨5, vo⟩, ⟨4, cap⟩, ⟨4, os⟩, ⟨1, f⟩, ⟨1, sg⟩, ⟨2, m⟩] ≤ 32 := Nat.le.refl
  have hb := fun lo n => bf_word _ lo n hw
  rw [show encode (.vatomFaddF64Mrg m sg f os cap vo vd) = _ from wide_word (l := [⟨1, 1#1⟩, ⟨6, 59#6⟩, ⟨3, 5#3⟩, ⟨5, vd⟩, ⟨5, vo⟩, ⟨4, cap⟩, ⟨4, os⟩, ⟨1, f⟩, ⟨1, sg⟩, ⟨2, m⟩]) (by simp only [value, BitVec.toNat_ofNat]; omega)] at he
  cases he
  rw [decode_wide, major_59 _ (hb 1 6)]
  refine (arm_vatomFaddF64Mrg _ (hb 7 3)).trans ?_
  simp only [hb]
  rfl

theorem arm_vatomFaddBf16x2Mrg (w : BitVec 32) (h0 : bf w 7 3 = 6#3) : decodeVatf w =
    .ok (.vatomFaddBf16x2Mrg (bf w 30 2) (bf w 29 1) (bf w 28 1) (bf w 24 4) (bf w 20 4) (bf w 15 5) (bf w 10 5)) := by unfold decodeVatf; rw [h0]; rfl

theorem RoundTrip.vatomFaddBf16x2Mrg (m sg f os cap vo vd) : RoundTrip.Statement (.vatomFaddBf16x2Mrg m sg f os cap vo vd) := by
  intro _ c0 he
  have hw : width [⟨1, 1#1⟩, ⟨6, 59#6⟩, ⟨3, 6#3⟩, ⟨5, vd⟩, ⟨5, vo⟩, ⟨4, cap⟩, ⟨4, os⟩, ⟨1, f⟩, ⟨1, sg⟩, ⟨2, m⟩] ≤ 32 := Nat.le.refl
  have hb := fun lo n => bf_word _ lo n hw
  rw [show encode (.vatomFaddBf16x2Mrg m sg f os cap vo vd) = _ from wide_word (l := [⟨1, 1#1⟩, ⟨6, 59#6⟩, ⟨3, 6#3⟩, ⟨5, vd⟩, ⟨5, vo⟩, ⟨4, cap⟩, ⟨4, os⟩, ⟨1, f⟩, ⟨1, sg⟩, ⟨2, m⟩]) (by simp only [value, BitVec.toNat_ofNat]; omega)] at he
  cases he
  rw [decode_wide, major_59 _ (hb 1 6)]
  refine (arm_vatomFaddBf16x2Mrg _ (hb 7 3)).trans ?_
  simp only [hb]
  rfl

theorem arm_vatomFaddF16x2Mrg (w : BitVec 32) (h0 : bf w 7 3 = 7#3) : decodeVatf w =
    .ok (.vatomFaddF16x2Mrg (bf w 30 2) (bf w 29 1) (bf w 28 1) (bf w 24 4) (bf w 20 4) (bf w 15 5) (bf w 10 5)) := by unfold decodeVatf; rw [h0]; rfl

theorem RoundTrip.vatomFaddF16x2Mrg (m sg f os cap vo vd) : RoundTrip.Statement (.vatomFaddF16x2Mrg m sg f os cap vo vd) := by
  intro _ c0 he
  have hw : width [⟨1, 1#1⟩, ⟨6, 59#6⟩, ⟨3, 7#3⟩, ⟨5, vd⟩, ⟨5, vo⟩, ⟨4, cap⟩, ⟨4, os⟩, ⟨1, f⟩, ⟨1, sg⟩, ⟨2, m⟩] ≤ 32 := Nat.le.refl
  have hb := fun lo n => bf_word _ lo n hw
  rw [show encode (.vatomFaddF16x2Mrg m sg f os cap vo vd) = _ from wide_word (l := [⟨1, 1#1⟩, ⟨6, 59#6⟩, ⟨3, 7#3⟩, ⟨5, vd⟩, ⟨5, vo⟩, ⟨4, cap⟩, ⟨4, os⟩, ⟨1, f⟩, ⟨1, sg⟩, ⟨2, m⟩]) (by simp only [value, BitVec.toNat_ofNat]; omega)] at he
  cases he
  rw [decode_wide, major_59 _ (hb 1 6)]
  refine (arm_vatomFaddF16x2Mrg _ (hb 7 3)).trans ?_
  simp only [hb]
  rfl

theorem RoundTrip.satom (aoph sg f os cap so sd func) : RoundTrip.Statement (.satom aoph sg f os cap so sd func) := by
  intro _ c0 he
  have hw : width [⟨1, 1#1⟩, ⟨6, 60#6⟩, ⟨3, func⟩, ⟨5, sd⟩, ⟨5, so⟩, ⟨4, cap⟩, ⟨4, os⟩, ⟨1, f⟩, ⟨1, sg⟩, ⟨2, aoph⟩] ≤ 32 := Nat.le.refl
  have hb := fun lo n => bf_word _ lo n hw
  rw [show encode (.satom aoph sg f os cap so sd func) = _ from wide_word (l := [⟨1, 1#1⟩, ⟨6, 60#6⟩, ⟨3, func⟩, ⟨5, sd⟩, ⟨5, so⟩, ⟨4, cap⟩, ⟨4, os⟩, ⟨1, f⟩, ⟨1, sg⟩, ⟨2, aoph⟩]) (by simp only [value, BitVec.toNat_ofNat]; omega)] at he
  cases he
  rw [decode_wide, major_60 _ (hb 1 6)]
  unfold decodeSatom
  simp only [hb]
  rfl

theorem arm_lckAcq (w : BitVec 32) (h0 : bf w 7 3 = 0#3) : decodeSync w =
    .ok (.lckAcq (bf w 28 4) (bf w 22 6) (bf w 16 6) (bf w 10 6)) := by unfold decodeSync; rw [h0]; rfl

theorem RoundTrip.lckAcq (cap st so sd) : RoundTrip.Statement (.lckAcq cap st so sd) := by
  intro _ c0 he
  have hw : width [⟨1, 1#1⟩, ⟨6, 61#6⟩, ⟨3, 0#3⟩, ⟨6, sd⟩, ⟨6, so⟩, ⟨6, st⟩, ⟨4, cap⟩] ≤ 32 := Nat.le.refl
  have hb := fun lo n => bf_word _ lo n hw
  rw [show encode (.lckAcq cap st so sd) = _ from wide_word (l := [⟨1, 1#1⟩, ⟨6, 61#6⟩, ⟨3, 0#3⟩, ⟨6, sd⟩, ⟨6, so⟩, ⟨6, st⟩, ⟨4, cap⟩]) (by simp only [value, BitVec.toNat_ofNat]; omega)] at he
  cases he
  rw [decode_wide, major_61 _ (hb 1 6)]
  refine (arm_lckAcq _ (hb 7 3)).trans ?_
  simp only [hb]
  rfl

theorem arm_lckTry (w : BitVec 32) (h0 : bf w 7 3 = 1#3) : decodeSync w =
    must [(22, 6)] w (.lckTry (bf w 28 4) (bf w 16 6) (bf w 10 6)) := by unfold decodeSync; rw [h0]; rfl

theorem RoundTrip.lckTry (cap so sd) : RoundTrip.Statement (.lckTry cap so sd) := by
  intro _ c0 he
  have hw : width [⟨1, 1#1⟩, ⟨6, 61#6⟩, ⟨3, 1#3⟩, ⟨6, sd⟩, ⟨6, so⟩, ⟨6, 0#6⟩, ⟨4, cap⟩] ≤ 32 := Nat.le.refl
  have hb := fun lo n => bf_word _ lo n hw
  rw [show encode (.lckTry cap so sd) = _ from wide_word (l := [⟨1, 1#1⟩, ⟨6, 61#6⟩, ⟨3, 1#3⟩, ⟨6, sd⟩, ⟨6, so⟩, ⟨6, 0#6⟩, ⟨4, cap⟩]) (by simp only [value, BitVec.toNat_ofNat]; omega)] at he
  cases he
  rw [decode_wide, major_61 _ (hb 1 6)]
  refine (arm_lckTry _ (hb 7 3)).trans ?_
  refine (must_word _ _ _ hw rfl).trans ?_
  simp only [hb]
  rfl

theorem arm_lckRel (w : BitVec 32) (h0 : bf w 7 3 = 2#3) : decodeSync w =
    must [(10, 6), (22, 6)] w (.lckRel (bf w 28 4) (bf w 16 6)) := by unfold decodeSync; rw [h0]; rfl

theorem RoundTrip.lckRel (cap so) : RoundTrip.Statement (.lckRel cap so) := by
  intro _ c0 he
  have hw : width [⟨1, 1#1⟩, ⟨6, 61#6⟩, ⟨3, 2#3⟩, ⟨6, 0#6⟩, ⟨6, so⟩, ⟨6, 0#6⟩, ⟨4, cap⟩] ≤ 32 := Nat.le.refl
  have hb := fun lo n => bf_word _ lo n hw
  rw [show encode (.lckRel cap so) = _ from wide_word (l := [⟨1, 1#1⟩, ⟨6, 61#6⟩, ⟨3, 2#3⟩, ⟨6, 0#6⟩, ⟨6, so⟩, ⟨6, 0#6⟩, ⟨4, cap⟩]) (by simp only [value, BitVec.toNat_ofNat]; omega)] at he
  cases he
  rw [decode_wide, major_61 _ (hb 1 6)]
  refine (arm_lckRel _ (hb 7 3)).trans ?_
  refine (must_word _ _ _ hw rfl).trans ?_
  simp only [hb]
  rfl

theorem arm_lckStat (w : BitVec 32) (h0 : bf w 7 3 = 3#3) : decodeSync w =
    must [(22, 6)] w (.lckStat (bf w 28 4) (bf w 16 6) (bf w 10 6)) := by unfold decodeSync; rw [h0]; rfl

theorem RoundTrip.lckStat (cap so sd) : RoundTrip.Statement (.lckStat cap so sd) := by
  intro _ c0 he
  have hw : width [⟨1, 1#1⟩, ⟨6, 61#6⟩, ⟨3, 3#3⟩, ⟨6, sd⟩, ⟨6, so⟩, ⟨6, 0#6⟩, ⟨4, cap⟩] ≤ 32 := Nat.le.refl
  have hb := fun lo n => bf_word _ lo n hw
  rw [show encode (.lckStat cap so sd) = _ from wide_word (l := [⟨1, 1#1⟩, ⟨6, 61#6⟩, ⟨3, 3#3⟩, ⟨6, sd⟩, ⟨6, so⟩, ⟨6, 0#6⟩, ⟨4, cap⟩]) (by simp only [value, BitVec.toNat_ofNat]; omega)] at he
  cases he
  rw [decode_wide, major_61 _ (hb 1 6)]
  refine (arm_lckStat _ (hb 7 3)).trans ?_
  refine (must_word _ _ _ hw rfl).trans ?_
  simp only [hb]
  rfl

theorem arm_mwait (w : BitVec 32) (h0 : bf w 7 3 = 4#3) : decodeSync w =
    .ok (.mwait (bf w 28 4) (bf w 22 6) (bf w 16 6) (bf w 10 6)) := by unfold decodeSync; rw [h0]; rfl

theorem RoundTrip.mwait (cap st so sd) : RoundTrip.Statement (.mwait cap st so sd) := by
  intro _ c0 he
  have hw : width [⟨1, 1#1⟩, ⟨6, 61#6⟩, ⟨3, 4#3⟩, ⟨6, sd⟩, ⟨6, so⟩, ⟨6, st⟩, ⟨4, cap⟩] ≤ 32 := Nat.le.refl
  have hb := fun lo n => bf_word _ lo n hw
  rw [show encode (.mwait cap st so sd) = _ from wide_word (l := [⟨1, 1#1⟩, ⟨6, 61#6⟩, ⟨3, 4#3⟩, ⟨6, sd⟩, ⟨6, so⟩, ⟨6, st⟩, ⟨4, cap⟩]) (by simp only [value, BitVec.toNat_ofNat]; omega)] at he
  cases he
  rw [decode_wide, major_61 _ (hb 1 6)]
  refine (arm_mwait _ (hb 7 3)).trans ?_
  simp only [hb]
  rfl

theorem arm_barrArr (w : BitVec 32) (h0 : bf w 7 3 = 5#3) : decodeSync w =
    must [(22, 6)] w (.barrArr (bf w 28 4) (bf w 16 6) (bf w 10 6)) := by unfold decodeSync; rw [h0]; rfl

theorem RoundTrip.barrArr (cap so sd) : RoundTrip.Statement (.barrArr cap so sd) := by
  intro _ c0 he
  have hw : width [⟨1, 1#1⟩, ⟨6, 61#6⟩, ⟨3, 5#3⟩, ⟨6, sd⟩, ⟨6, so⟩, ⟨6, 0#6⟩, ⟨4, cap⟩] ≤ 32 := Nat.le.refl
  have hb := fun lo n => bf_word _ lo n hw
  rw [show encode (.barrArr cap so sd) = _ from wide_word (l := [⟨1, 1#1⟩, ⟨6, 61#6⟩, ⟨3, 5#3⟩, ⟨6, sd⟩, ⟨6, so⟩, ⟨6, 0#6⟩, ⟨4, cap⟩]) (by simp only [value, BitVec.toNat_ofNat]; omega)] at he
  cases he
  rw [decode_wide, major_61 _ (hb 1 6)]
  refine (arm_barrArr _ (hb 7 3)).trans ?_
  refine (must_word _ _ _ hw rfl).trans ?_
  simp only [hb]
  rfl

theorem arm_barrAw (w : BitVec 32) (h0 : bf w 7 3 = 6#3) : decodeSync w =
    must [(22, 6)] w (.barrAw (bf w 28 4) (bf w 16 6) (bf w 10 6)) := by unfold decodeSync; rw [h0]; rfl

theorem RoundTrip.barrAw (cap so sd) : RoundTrip.Statement (.barrAw cap so sd) := by
  intro _ c0 he
  have hw : width [⟨1, 1#1⟩, ⟨6, 61#6⟩, ⟨3, 6#3⟩, ⟨6, sd⟩, ⟨6, so⟩, ⟨6, 0#6⟩, ⟨4, cap⟩] ≤ 32 := Nat.le.refl
  have hb := fun lo n => bf_word _ lo n hw
  rw [show encode (.barrAw cap so sd) = _ from wide_word (l := [⟨1, 1#1⟩, ⟨6, 61#6⟩, ⟨3, 6#3⟩, ⟨6, sd⟩, ⟨6, so⟩, ⟨6, 0#6⟩, ⟨4, cap⟩]) (by simp only [value, BitVec.toNat_ofNat]; omega)] at he
  cases he
  rw [decode_wide, major_61 _ (hb 1 6)]
  refine (arm_barrAw _ (hb 7 3)).trans ?_
  refine (must_word _ _ _ hw rfl).trans ?_
  simp only [hb]
  rfl

theorem arm_barrDrop (w : BitVec 32) (h0 : bf w 7 3 = 7#3) : decodeSync w =
    must [(22, 6)] w (.barrDrop (bf w 28 4) (bf w 16 6) (bf w 10 6)) := by unfold decodeSync; rw [h0]; rfl

theorem RoundTrip.barrDrop (cap so sd) : RoundTrip.Statement (.barrDrop cap so sd) := by
  intro _ c0 he
  have hw : width [⟨1, 1#1⟩, ⟨6, 61#6⟩, ⟨3, 7#3⟩, ⟨6, sd⟩, ⟨6, so⟩, ⟨6, 0#6⟩, ⟨4, cap⟩] ≤ 32 := Nat.le.refl
  have hb := fun lo n => bf_word _ lo n hw
  rw [show encode (.barrDrop cap so sd) = _ from wide_word (l := [⟨1, 1#1⟩, ⟨6, 61#6⟩, ⟨3, 7#3⟩, ⟨6, sd⟩, ⟨6, so⟩, ⟨6, 0#6⟩, ⟨4, cap⟩]) (by simp only [value, BitVec.toNat_ofNat]; omega)] at he
  cases he
  rw [decode_wide, major_61 _ (hb 1 6)]
  refine (arm_barrDrop _ (hb 7 3)).trans ?_
  refine (must_word _ _ _ hw rfl).trans ?_
  simp only [hb]
  rfl

theorem arm_ewait (w : BitVec 32) (h0 : bf w 7 3 = 0#3) : decodeEngc w =
    must [(10, 6), (24, 8)] w (.ewait (bf w 18 6) (bf w 16 2)) := by unfold decodeEngc; rw [h0]; rfl

theorem RoundTrip.ewait (k cls) : RoundTrip.Statement (.ewait k cls) := by
  intro _ c0 he
  have hw : width [⟨1, 1#1⟩, ⟨6, 62#6⟩, ⟨3, 0#3⟩, ⟨6, 0#6⟩, ⟨2, cls⟩, ⟨6, k⟩, ⟨8, 0#8⟩] ≤ 32 := Nat.le.refl
  have hb := fun lo n => bf_word _ lo n hw
  rw [show encode (.ewait k cls) = _ from wide_word (l := [⟨1, 1#1⟩, ⟨6, 62#6⟩, ⟨3, 0#3⟩, ⟨6, 0#6⟩, ⟨2, cls⟩, ⟨6, k⟩, ⟨8, 0#8⟩]) (by simp only [value, BitVec.toNat_ofNat]; omega)] at he
  cases he
  rw [decode_wide, major_62 _ (hb 1 6)]
  refine (arm_ewait _ (hb 7 3)).trans ?_
  refine (must_word _ _ _ hw rfl).trans ?_
  simp only [hb]
  rfl

theorem arm_gnode (w : BitVec 32) (h0 : bf w 7 3 = 1#3) : decodeEngc w =
    must [(16, 16)] w (.gnode (bf w 10 6)) := by unfold decodeEngc; rw [h0]; rfl

theorem RoundTrip.gnode (sd) : RoundTrip.Statement (.gnode sd) := by
  intro _ c0 he
  have hw : width [⟨1, 1#1⟩, ⟨6, 62#6⟩, ⟨3, 1#3⟩, ⟨6, sd⟩, ⟨16, 0#16⟩] ≤ 32 := Nat.le.refl
  have hb := fun lo n => bf_word _ lo n hw
  rw [show encode (.gnode sd) = _ from wide_word (l := [⟨1, 1#1⟩, ⟨6, 62#6⟩, ⟨3, 1#3⟩, ⟨6, sd⟩, ⟨16, 0#16⟩]) (by simp only [value, BitVec.toNat_ofNat]; omega)] at he
  cases he
  rw [decode_wide, major_62 _ (hb 1 6)]
  refine (arm_gnode _ (hb 7 3)).trans ?_
  refine (must_word _ _ _ hw rfl).trans ?_
  simp only [hb]
  rfl

theorem arm_glink (w : BitVec 32) (h0 : bf w 7 3 = 2#3) : decodeEngc w =
    must [(22, 10)] w (.glink (bf w 16 6) (bf w 10 6)) := by unfold decodeEngc; rw [h0]; rfl

theorem RoundTrip.glink (succ pred) : RoundTrip.Statement (.glink succ pred) := by
  intro _ c0 he
  have hw : width [⟨1, 1#1⟩, ⟨6, 62#6⟩, ⟨3, 2#3⟩, ⟨6, pred⟩, ⟨6, succ⟩, ⟨10, 0#10⟩] ≤ 32 := Nat.le.refl
  have hb := fun lo n => bf_word _ lo n hw
  rw [show encode (.glink succ pred) = _ from wide_word (l := [⟨1, 1#1⟩, ⟨6, 62#6⟩, ⟨3, 2#3⟩, ⟨6, pred⟩, ⟨6, succ⟩, ⟨10, 0#10⟩]) (by simp only [value, BitVec.toNat_ofNat]; omega)] at he
  cases he
  rw [decode_wide, major_62 _ (hb 1 6)]
  refine (arm_glink _ (hb 7 3)).trans ?_
  refine (must_word _ _ _ hw rfl).trans ?_
  simp only [hb]
  rfl

theorem arm_ringGet (w : BitVec 32) (h0 : bf w 7 3 = 3#3) : decodeEngc w =
    must [(20, 12)] w (.ringGet (bf w 16 4) (bf w 10 6)) := by unfold decodeEngc; rw [h0]; rfl

theorem RoundTrip.ringGet (k sd) : RoundTrip.Statement (.ringGet k sd) := by
  intro _ c0 he
  have hw : width [⟨1, 1#1⟩, ⟨6, 62#6⟩, ⟨3, 3#3⟩, ⟨6, sd⟩, ⟨4, k⟩, ⟨12, 0#12⟩] ≤ 32 := Nat.le.refl
  have hb := fun lo n => bf_word _ lo n hw
  rw [show encode (.ringGet k sd) = _ from wide_word (l := [⟨1, 1#1⟩, ⟨6, 62#6⟩, ⟨3, 3#3⟩, ⟨6, sd⟩, ⟨4, k⟩, ⟨12, 0#12⟩]) (by simp only [value, BitVec.toNat_ofNat]; omega)] at he
  cases he
  rw [decode_wide, major_62 _ (hb 1 6)]
  refine (arm_ringGet _ (hb 7 3)).trans ?_
  refine (must_word _ _ _ hw rfl).trans ?_
  simp only [hb]
  rfl

theorem arm_ringPut (w : BitVec 32) (h0 : bf w 7 3 = 4#3) : decodeEngc w =
    must [(20, 12)] w (.ringPut (bf w 16 4) (bf w 10 6)) := by unfold decodeEngc; rw [h0]; rfl

theorem RoundTrip.ringPut (k sd) : RoundTrip.Statement (.ringPut k sd) := by
  intro _ c0 he
  have hw : width [⟨1, 1#1⟩, ⟨6, 62#6⟩, ⟨3, 4#3⟩, ⟨6, sd⟩, ⟨4, k⟩, ⟨12, 0#12⟩] ≤ 32 := Nat.le.refl
  have hb := fun lo n => bf_word _ lo n hw
  rw [show encode (.ringPut k sd) = _ from wide_word (l := [⟨1, 1#1⟩, ⟨6, 62#6⟩, ⟨3, 4#3⟩, ⟨6, sd⟩, ⟨4, k⟩, ⟨12, 0#12⟩]) (by simp only [value, BitVec.toNat_ofNat]; omega)] at he
  cases he
  rw [decode_wide, major_62 _ (hb 1 6)]
  refine (arm_ringPut _ (hb 7 3)).trans ?_
  refine (must_word _ _ _ hw rfl).trans ?_
  simp only [hb]
  rfl

theorem arm_tdesc (w : BitVec 32) (h0 : bf w 7 3 = 5#3) : decodeEngc w =
    must [(23, 9)] w (.tdesc (bf w 16 7) (bf w 10 6)) := by unfold decodeEngc; rw [h0]; rfl

theorem RoundTrip.tdesc (tid ss) : RoundTrip.Statement (.tdesc tid ss) := by
  intro _ c0 he
  have hw : width [⟨1, 1#1⟩, ⟨6, 62#6⟩, ⟨3, 5#3⟩, ⟨6, ss⟩, ⟨7, tid⟩, ⟨9, 0#9⟩] ≤ 32 := Nat.le.refl
  have hb := fun lo n => bf_word _ lo n hw
  rw [show encode (.tdesc tid ss) = _ from wide_word (l := [⟨1, 1#1⟩, ⟨6, 62#6⟩, ⟨3, 5#3⟩, ⟨6, ss⟩, ⟨7, tid⟩, ⟨9, 0#9⟩]) (by simp only [value, BitVec.toNat_ofNat]; omega)] at he
  cases he
  rw [decode_wide, major_62 _ (hb 1 6)]
  refine (arm_tdesc _ (hb 7 3)).trans ?_
  refine (must_word _ _ _ hw rfl).trans ?_
  simp only [hb]
  rfl

theorem arm_tdget (w : BitVec 32) (h0 : bf w 7 3 = 6#3) : decodeEngc w =
    must [(23, 9)] w (.tdget (bf w 16 7) (bf w 10 6)) := by unfold decodeEngc; rw [h0]; rfl

theorem RoundTrip.tdget (tid sd) : RoundTrip.Statement (.tdget tid sd) := by
  intro _ c0 he
  have hw : width [⟨1, 1#1⟩, ⟨6, 62#6⟩, ⟨3, 6#3⟩, ⟨6, sd⟩, ⟨7, tid⟩, ⟨9, 0#9⟩] ≤ 32 := Nat.le.refl
  have hb := fun lo n => bf_word _ lo n hw
  rw [show encode (.tdget tid sd) = _ from wide_word (l := [⟨1, 1#1⟩, ⟨6, 62#6⟩, ⟨3, 6#3⟩, ⟨6, sd⟩, ⟨7, tid⟩, ⟨9, 0#9⟩]) (by simp only [value, BitVec.toNat_ofNat]; omega)] at he
  cases he
  rw [decode_wide, major_62 _ (hb 1 6)]
  refine (arm_tdget _ (hb 7 3)).trans ?_
  refine (must_word _ _ _ hw rfl).trans ?_
  simp only [hb]
  rfl

theorem arm_cpy (w : BitVec 32) (h0 : bf w 7 3 = 0#3) : decodeEngx w =
    must [(31, 1)] w (.cpy (bf w 30 1) (bf w 26 4) (bf w 22 4) (bf w 16 6) (bf w 10 6)) := by unfold decodeEngx; rw [h0]; rfl

theorem RoundTrip.cpy (g cdst csrc sk sd) : RoundTrip.Statement (.cpy g cdst csrc sk sd) := by
  intro _ c0 he
  have hw : width [⟨1, 1#1⟩, ⟨6, 63#6⟩, ⟨3, 0#3⟩, ⟨6, sd⟩, ⟨6, sk⟩, ⟨4, csrc⟩, ⟨4, cdst⟩, ⟨1, g⟩, ⟨1, 0#1⟩] ≤ 32 := Nat.le.refl
  have hb := fun lo n => bf_word _ lo n hw
  rw [show encode (.cpy g cdst csrc sk sd) = _ from wide_word (l := [⟨1, 1#1⟩, ⟨6, 63#6⟩, ⟨3, 0#3⟩, ⟨6, sd⟩, ⟨6, sk⟩, ⟨4, csrc⟩, ⟨4, cdst⟩, ⟨1, g⟩, ⟨1, 0#1⟩]) (by simp only [value, BitVec.toNat_ofNat]; omega)] at he
  cases he
  rw [decode_wide, major_63 _ (hb 1 6)]
  refine (arm_cpy _ (hb 7 3)).trans ?_
  refine (must_word _ _ _ hw rfl).trans ?_
  simp only [hb]
  rfl

theorem arm_cpyGth (w : BitVec 32) (h0 : bf w 7 3 = 1#3) : decodeEngx w =
    must [(31, 1)] w (.cpyGth (bf w 30 1) (bf w 26 4) (bf w 22 4) (bf w 16 6) (bf w 10 6)) := by unfold decodeEngx; rw [h0]; rfl

theorem RoundTrip.cpyGth (g cdst csrc sk sd) : RoundTrip.Statement (.cpyGth g cdst csrc sk sd) := by
  intro _ c0 he
  have hw : width [⟨1, 1#1⟩, ⟨6, 63#6⟩, ⟨3, 1#3⟩, ⟨6, sd⟩, ⟨6, sk⟩, ⟨4, csrc⟩, ⟨4, cdst⟩, ⟨1, g⟩, ⟨1, 0#1⟩] ≤ 32 := Nat.le.refl
  have hb := fun lo n => bf_word _ lo n hw
  rw [show encode (.cpyGth g cdst csrc sk sd) = _ from wide_word (l := [⟨1, 1#1⟩, ⟨6, 63#6⟩, ⟨3, 1#3⟩, ⟨6, sd⟩, ⟨6, sk⟩, ⟨4, csrc⟩, ⟨4, cdst⟩, ⟨1, g⟩, ⟨1, 0#1⟩]) (by simp only [value, BitVec.toNat_ofNat]; omega)] at he
  cases he
  rw [decode_wide, major_63 _ (hb 1 6)]
  refine (arm_cpyGth _ (hb 7 3)).trans ?_
  refine (must_word _ _ _ hw rfl).trans ?_
  simp only [hb]
  rfl

theorem arm_cpyRmt (w : BitVec 32) (h0 : bf w 7 3 = 2#3) : decodeEngx w =
    must [(31, 1)] w (.cpyRmt (bf w 30 1) (bf w 26 4) (bf w 22 4) (bf w 16 6) (bf w 10 6)) := by unfold decodeEngx; rw [h0]; rfl

theorem RoundTrip.cpyRmt (g cdst csrc sk sd) : RoundTrip.Statement (.cpyRmt g cdst csrc sk sd) := by
  intro _ c0 he
  have hw : width [⟨1, 1#1⟩, ⟨6, 63#6⟩, ⟨3, 2#3⟩, ⟨6, sd⟩, ⟨6, sk⟩, ⟨4, csrc⟩, ⟨4, cdst⟩, ⟨1, g⟩, ⟨1, 0#1⟩] ≤ 32 := Nat.le.refl
  have hb := fun lo n => bf_word _ lo n hw
  rw [show encode (.cpyRmt g cdst csrc sk sd) = _ from wide_word (l := [⟨1, 1#1⟩, ⟨6, 63#6⟩, ⟨3, 2#3⟩, ⟨6, sd⟩, ⟨6, sk⟩, ⟨4, csrc⟩, ⟨4, cdst⟩, ⟨1, g⟩, ⟨1, 0#1⟩]) (by simp only [value, BitVec.toNat_ofNat]; omega)] at he
  cases he
  rw [decode_wide, major_63 _ (hb 1 6)]
  refine (arm_cpyRmt _ (hb 7 3)).trans ?_
  refine (must_word _ _ _ hw rfl).trans ?_
  simp only [hb]
  rfl

theorem arm_cpyTr8 (w : BitVec 32) (h0 : bf w 7 3 = 3#3) : decodeEngx w =
    must [(31, 1)] w (.cpyTr8 (bf w 30 1) (bf w 26 4) (bf w 22 4) (bf w 16 6) (bf w 10 6)) := by unfold decodeEngx; rw [h0]; rfl

theorem RoundTrip.cpyTr8 (g cdst csrc sk sd) : RoundTrip.Statement (.cpyTr8 g cdst csrc sk sd) := by
  intro _ c0 he
  have hw : width [⟨1, 1#1⟩, ⟨6, 63#6⟩, ⟨3, 3#3⟩, ⟨6, sd⟩, ⟨6, sk⟩, ⟨4, csrc⟩, ⟨4, cdst⟩, ⟨1, g⟩, ⟨1, 0#1⟩] ≤ 32 := Nat.le.refl
  have hb := fun lo n => bf_word _ lo n hw
  rw [show encode (.cpyTr8 g cdst csrc sk sd) = _ from wide_word (l := [⟨1, 1#1⟩, ⟨6, 63#6⟩, ⟨3, 3#3⟩, ⟨6, sd⟩, ⟨6, sk⟩, ⟨4, csrc⟩, ⟨4, cdst⟩, ⟨1, g⟩, ⟨1, 0#1⟩]) (by simp only [value, BitVec.toNat_ofNat]; omega)] at he
  cases he
  rw [decode_wide, major_63 _ (hb 1 6)]
  refine (arm_cpyTr8 _ (hb 7 3)).trans ?_
  refine (must_word _ _ _ hw rfl).trans ?_
  simp only [hb]
  rfl

theorem arm_cpyTr16 (w : BitVec 32) (h0 : bf w 7 3 = 4#3) : decodeEngx w =
    must [(31, 1)] w (.cpyTr16 (bf w 30 1) (bf w 26 4) (bf w 22 4) (bf w 16 6) (bf w 10 6)) := by unfold decodeEngx; rw [h0]; rfl

theorem RoundTrip.cpyTr16 (g cdst csrc sk sd) : RoundTrip.Statement (.cpyTr16 g cdst csrc sk sd) := by
  intro _ c0 he
  have hw : width [⟨1, 1#1⟩, ⟨6, 63#6⟩, ⟨3, 4#3⟩, ⟨6, sd⟩, ⟨6, sk⟩, ⟨4, csrc⟩, ⟨4, cdst⟩, ⟨1, g⟩, ⟨1, 0#1⟩] ≤ 32 := Nat.le.refl
  have hb := fun lo n => bf_word _ lo n hw
  rw [show encode (.cpyTr16 g cdst csrc sk sd) = _ from wide_word (l := [⟨1, 1#1⟩, ⟨6, 63#6⟩, ⟨3, 4#3⟩, ⟨6, sd⟩, ⟨6, sk⟩, ⟨4, csrc⟩, ⟨4, cdst⟩, ⟨1, g⟩, ⟨1, 0#1⟩]) (by simp only [value, BitVec.toNat_ofNat]; omega)] at he
  cases he
  rw [decode_wide, major_63 _ (hb 1 6)]
  refine (arm_cpyTr16 _ (hb 7 3)).trans ?_
  refine (must_word _ _ _ hw rfl).trans ?_
  simp only [hb]
  rfl

theorem arm_vadd16 (w : BitVec 32) (hz : w ≠ 0) (h : bf w 1 4 = 0#4) : decode16 w =
    .ok (.vadd16 (bf w 11 5) (bf w 5 6)) := by unfold decode16; rw [if_neg hz, h]; rfl

theorem RoundTrip.vadd16 (vs2 vd) : RoundTrip.Statement (.vadd16 vs2 vd) := by
  intro hf c0 he
  have hw : width [⟨1, 0#1⟩, ⟨4, 0#4⟩, ⟨6, vd⟩, ⟨5, vs2⟩] ≤ 32 := (by decide : (16 : Nat) ≤ 32)
  have hb := fun lo n => bf_word _ lo n hw
  rw [show encode (.vadd16 vs2 vd) = _ from half_word (l := [⟨1, 0#1⟩, ⟨4, 0#4⟩, ⟨6, vd⟩, ⟨5, vs2⟩]) (by simp only [value, BitVec.toNat_ofNat]; omega)] at he
  cases he
  refine (arm_vadd16 _ (by
    intro hz
    have e1 := (hb 11 5).symm.trans (congrArg (fun w => bf w 11 5) hz)
    have e2 := (hb 5 6).symm.trans (congrArg (fun w => bf w 5 6) hz)
    have e3 : vs2 = 0 := e1.trans (by decide)
    have e4 : vd = 0 := e2.trans (by decide)
    subst e3; subst e4; exact absurd hf (by decide)) (hb 1 4)).trans ?_
  simp only [hb]
  rfl

theorem arm_vsub16 (w : BitVec 32) (hz : w ≠ 0) (h : bf w 1 4 = 1#4) : decode16 w =
    .ok (.vsub16 (bf w 11 5) (bf w 5 6)) := by unfold decode16; rw [if_neg hz, h]; rfl

theorem RoundTrip.vsub16 (vs2 vd) : RoundTrip.Statement (.vsub16 vs2 vd) := by
  intro _ c0 he
  have hw : width [⟨1, 0#1⟩, ⟨4, 1#4⟩, ⟨6, vd⟩, ⟨5, vs2⟩] ≤ 32 := (by decide : (16 : Nat) ≤ 32)
  have hb := fun lo n => bf_word _ lo n hw
  rw [show encode (.vsub16 vs2 vd) = _ from half_word (l := [⟨1, 0#1⟩, ⟨4, 1#4⟩, ⟨6, vd⟩, ⟨5, vs2⟩]) (by simp only [value, BitVec.toNat_ofNat]; omega)] at he
  cases he
  refine (arm_vsub16 _ (ne_zero_of_bf (hb 1 4) (show 1#4 ≠ 0#4 by decide)) (hb 1 4)).trans ?_
  simp only [hb]
  rfl

theorem arm_vmul16 (w : BitVec 32) (hz : w ≠ 0) (h : bf w 1 4 = 2#4) : decode16 w =
    .ok (.vmul16 (bf w 11 5) (bf w 5 6)) := by unfold decode16; rw [if_neg hz, h]; rfl

theorem RoundTrip.vmul16 (vs2 vd) : RoundTrip.Statement (.vmul16 vs2 vd) := by
  intro _ c0 he
  have hw : width [⟨1, 0#1⟩, ⟨4, 2#4⟩, ⟨6, vd⟩, ⟨5, vs2⟩] ≤ 32 := (by decide : (16 : Nat) ≤ 32)
  have hb := fun lo n => bf_word _ lo n hw
  rw [show encode (.vmul16 vs2 vd) = _ from half_word (l := [⟨1, 0#1⟩, ⟨4, 2#4⟩, ⟨6, vd⟩, ⟨5, vs2⟩]) (by simp only [value, BitVec.toNat_ofNat]; omega)] at he
  cases he
  refine (arm_vmul16 _ (ne_zero_of_bf (hb 1 4) (show 2#4 ≠ 0#4 by decide)) (hb 1 4)).trans ?_
  simp only [hb]
  rfl

theorem arm_vand16 (w : BitVec 32) (hz : w ≠ 0) (h : bf w 1 4 = 3#4) : decode16 w =
    .ok (.vand16 (bf w 11 5) (bf w 5 6)) := by unfold decode16; rw [if_neg hz, h]; rfl

theorem RoundTrip.vand16 (vs2 vd) : RoundTrip.Statement (.vand16 vs2 vd) := by
  intro _ c0 he
  have hw : width [⟨1, 0#1⟩, ⟨4, 3#4⟩, ⟨6, vd⟩, ⟨5, vs2⟩] ≤ 32 := (by decide : (16 : Nat) ≤ 32)
  have hb := fun lo n => bf_word _ lo n hw
  rw [show encode (.vand16 vs2 vd) = _ from half_word (l := [⟨1, 0#1⟩, ⟨4, 3#4⟩, ⟨6, vd⟩, ⟨5, vs2⟩]) (by simp only [value, BitVec.toNat_ofNat]; omega)] at he
  cases he
  refine (arm_vand16 _ (ne_zero_of_bf (hb 1 4) (show 3#4 ≠ 0#4 by decide)) (hb 1 4)).trans ?_
  simp only [hb]
  rfl

theorem arm_vor16 (w : BitVec 32) (hz : w ≠ 0) (h : bf w 1 4 = 4#4) : decode16 w =
    .ok (.vor16 (bf w 11 5) (bf w 5 6)) := by unfold decode16; rw [if_neg hz, h]; rfl

theorem RoundTrip.vor16 (vs2 vd) : RoundTrip.Statement (.vor16 vs2 vd) := by
  intro _ c0 he
  have hw : width [⟨1, 0#1⟩, ⟨4, 4#4⟩, ⟨6, vd⟩, ⟨5, vs2⟩] ≤ 32 := (by decide : (16 : Nat) ≤ 32)
  have hb := fun lo n => bf_word _ lo n hw
  rw [show encode (.vor16 vs2 vd) = _ from half_word (l := [⟨1, 0#1⟩, ⟨4, 4#4⟩, ⟨6, vd⟩, ⟨5, vs2⟩]) (by simp only [value, BitVec.toNat_ofNat]; omega)] at he
  cases he
  refine (arm_vor16 _ (ne_zero_of_bf (hb 1 4) (show 4#4 ≠ 0#4 by decide)) (hb 1 4)).trans ?_
  simp only [hb]
  rfl

theorem arm_vxor16 (w : BitVec 32) (hz : w ≠ 0) (h : bf w 1 4 = 5#4) : decode16 w =
    .ok (.vxor16 (bf w 11 5) (bf w 5 6)) := by unfold decode16; rw [if_neg hz, h]; rfl

theorem RoundTrip.vxor16 (vs2 vd) : RoundTrip.Statement (.vxor16 vs2 vd) := by
  intro _ c0 he
  have hw : width [⟨1, 0#1⟩, ⟨4, 5#4⟩, ⟨6, vd⟩, ⟨5, vs2⟩] ≤ 32 := (by decide : (16 : Nat) ≤ 32)
  have hb := fun lo n => bf_word _ lo n hw
  rw [show encode (.vxor16 vs2 vd) = _ from half_word (l := [⟨1, 0#1⟩, ⟨4, 5#4⟩, ⟨6, vd⟩, ⟨5, vs2⟩]) (by simp only [value, BitVec.toNat_ofNat]; omega)] at he
  cases he
  refine (arm_vxor16 _ (ne_zero_of_bf (hb 1 4) (show 5#4 ≠ 0#4 by decide)) (hb 1 4)).trans ?_
  simp only [hb]
  rfl

theorem arm_vshl16 (w : BitVec 32) (hz : w ≠ 0) (h : bf w 1 4 = 6#4) : decode16 w =
    .ok (.vshl16 (bf w 11 5) (bf w 5 6)) := by unfold decode16; rw [if_neg hz, h]; rfl

theorem RoundTrip.vshl16 (vs2 vd) : RoundTrip.Statement (.vshl16 vs2 vd) := by
  intro _ c0 he
  have hw : width [⟨1, 0#1⟩, ⟨4, 6#4⟩, ⟨6, vd⟩, ⟨5, vs2⟩] ≤ 32 := (by decide : (16 : Nat) ≤ 32)
  have hb := fun lo n => bf_word _ lo n hw
  rw [show encode (.vshl16 vs2 vd) = _ from half_word (l := [⟨1, 0#1⟩, ⟨4, 6#4⟩, ⟨6, vd⟩, ⟨5, vs2⟩]) (by simp only [value, BitVec.toNat_ofNat]; omega)] at he
  cases he
  refine (arm_vshl16 _ (ne_zero_of_bf (hb 1 4) (show 6#4 ≠ 0#4 by decide)) (hb 1 4)).trans ?_
  simp only [hb]
  rfl

theorem arm_vshr16 (w : BitVec 32) (hz : w ≠ 0) (h : bf w 1 4 = 7#4) : decode16 w =
    .ok (.vshr16 (bf w 11 5) (bf w 5 6)) := by unfold decode16; rw [if_neg hz, h]; rfl

theorem RoundTrip.vshr16 (vs2 vd) : RoundTrip.Statement (.vshr16 vs2 vd) := by
  intro _ c0 he
  have hw : width [⟨1, 0#1⟩, ⟨4, 7#4⟩, ⟨6, vd⟩, ⟨5, vs2⟩] ≤ 32 := (by decide : (16 : Nat) ≤ 32)
  have hb := fun lo n => bf_word _ lo n hw
  rw [show encode (.vshr16 vs2 vd) = _ from half_word (l := [⟨1, 0#1⟩, ⟨4, 7#4⟩, ⟨6, vd⟩, ⟨5, vs2⟩]) (by simp only [value, BitVec.toNat_ofNat]; omega)] at he
  cases he
  refine (arm_vshr16 _ (ne_zero_of_bf (hb 1 4) (show 7#4 ≠ 0#4 by decide)) (hb 1 4)).trans ?_
  simp only [hb]
  rfl

theorem arm_vsra16 (w : BitVec 32) (hz : w ≠ 0) (h : bf w 1 4 = 8#4) : decode16 w =
    .ok (.vsra16 (bf w 11 5) (bf w 5 6)) := by unfold decode16; rw [if_neg hz, h]; rfl

theorem RoundTrip.vsra16 (vs2 vd) : RoundTrip.Statement (.vsra16 vs2 vd) := by
  intro _ c0 he
  have hw : width [⟨1, 0#1⟩, ⟨4, 8#4⟩, ⟨6, vd⟩, ⟨5, vs2⟩] ≤ 32 := (by decide : (16 : Nat) ≤ 32)
  have hb := fun lo n => bf_word _ lo n hw
  rw [show encode (.vsra16 vs2 vd) = _ from half_word (l := [⟨1, 0#1⟩, ⟨4, 8#4⟩, ⟨6, vd⟩, ⟨5, vs2⟩]) (by simp only [value, BitVec.toNat_ofNat]; omega)] at he
  cases he
  refine (arm_vsra16 _ (ne_zero_of_bf (hb 1 4) (show 8#4 ≠ 0#4 by decide)) (hb 1 4)).trans ?_
  simp only [hb]
  rfl

theorem arm_vminI3216 (w : BitVec 32) (hz : w ≠ 0) (h : bf w 1 4 = 9#4) : decode16 w =
    .ok (.vminI3216 (bf w 11 5) (bf w 5 6)) := by unfold decode16; rw [if_neg hz, h]; rfl

theorem RoundTrip.vminI3216 (vs2 vd) : RoundTrip.Statement (.vminI3216 vs2 vd) := by
  intro _ c0 he
  have hw : width [⟨1, 0#1⟩, ⟨4, 9#4⟩, ⟨6, vd⟩, ⟨5, vs2⟩] ≤ 32 := (by decide : (16 : Nat) ≤ 32)
  have hb := fun lo n => bf_word _ lo n hw
  rw [show encode (.vminI3216 vs2 vd) = _ from half_word (l := [⟨1, 0#1⟩, ⟨4, 9#4⟩, ⟨6, vd⟩, ⟨5, vs2⟩]) (by simp only [value, BitVec.toNat_ofNat]; omega)] at he
  cases he
  refine (arm_vminI3216 _ (ne_zero_of_bf (hb 1 4) (show 9#4 ≠ 0#4 by decide)) (hb 1 4)).trans ?_
  simp only [hb]
  rfl

theorem arm_vmaxI3216 (w : BitVec 32) (hz : w ≠ 0) (h : bf w 1 4 = 10#4) : decode16 w =
    .ok (.vmaxI3216 (bf w 11 5) (bf w 5 6)) := by unfold decode16; rw [if_neg hz, h]; rfl

theorem RoundTrip.vmaxI3216 (vs2 vd) : RoundTrip.Statement (.vmaxI3216 vs2 vd) := by
  intro _ c0 he
  have hw : width [⟨1, 0#1⟩, ⟨4, 10#4⟩, ⟨6, vd⟩, ⟨5, vs2⟩] ≤ 32 := (by decide : (16 : Nat) ≤ 32)
  have hb := fun lo n => bf_word _ lo n hw
  rw [show encode (.vmaxI3216 vs2 vd) = _ from half_word (l := [⟨1, 0#1⟩, ⟨4, 10#4⟩, ⟨6, vd⟩, ⟨5, vs2⟩]) (by simp only [value, BitVec.toNat_ofNat]; omega)] at he
  cases he
  refine (arm_vmaxI3216 _ (ne_zero_of_bf (hb 1 4) (show 10#4 ≠ 0#4 by decide)) (hb 1 4)).trans ?_
  simp only [hb]
  rfl

theorem arm_vfaddF3216 (w : BitVec 32) (hz : w ≠ 0) (h : bf w 1 4 = 11#4) : decode16 w =
    .ok (.vfaddF3216 (bf w 11 5) (bf w 5 6)) := by unfold decode16; rw [if_neg hz, h]; rfl

theorem RoundTrip.vfaddF3216 (vs2 vd) : RoundTrip.Statement (.vfaddF3216 vs2 vd) := by
  intro _ c0 he
  have hw : width [⟨1, 0#1⟩, ⟨4, 11#4⟩, ⟨6, vd⟩, ⟨5, vs2⟩] ≤ 32 := (by decide : (16 : Nat) ≤ 32)
  have hb := fun lo n => bf_word _ lo n hw
  rw [show encode (.vfaddF3216 vs2 vd) = _ from half_word (l := [⟨1, 0#1⟩, ⟨4, 11#4⟩, ⟨6, vd⟩, ⟨5, vs2⟩]) (by simp only [value, BitVec.toNat_ofNat]; omega)] at he
  cases he
  refine (arm_vfaddF3216 _ (ne_zero_of_bf (hb 1 4) (show 11#4 ≠ 0#4 by decide)) (hb 1 4)).trans ?_
  simp only [hb]
  rfl

theorem arm_vfsubF3216 (w : BitVec 32) (hz : w ≠ 0) (h : bf w 1 4 = 12#4) : decode16 w =
    .ok (.vfsubF3216 (bf w 11 5) (bf w 5 6)) := by unfold decode16; rw [if_neg hz, h]; rfl

theorem RoundTrip.vfsubF3216 (vs2 vd) : RoundTrip.Statement (.vfsubF3216 vs2 vd) := by
  intro _ c0 he
  have hw : width [⟨1, 0#1⟩, ⟨4, 12#4⟩, ⟨6, vd⟩, ⟨5, vs2⟩] ≤ 32 := (by decide : (16 : Nat) ≤ 32)
  have hb := fun lo n => bf_word _ lo n hw
  rw [show encode (.vfsubF3216 vs2 vd) = _ from half_word (l := [⟨1, 0#1⟩, ⟨4, 12#4⟩, ⟨6, vd⟩, ⟨5, vs2⟩]) (by simp only [value, BitVec.toNat_ofNat]; omega)] at he
  cases he
  refine (arm_vfsubF3216 _ (ne_zero_of_bf (hb 1 4) (show 12#4 ≠ 0#4 by decide)) (hb 1 4)).trans ?_
  simp only [hb]
  rfl

theorem arm_vfmulF3216 (w : BitVec 32) (hz : w ≠ 0) (h : bf w 1 4 = 13#4) : decode16 w =
    .ok (.vfmulF3216 (bf w 11 5) (bf w 5 6)) := by unfold decode16; rw [if_neg hz, h]; rfl

theorem RoundTrip.vfmulF3216 (vs2 vd) : RoundTrip.Statement (.vfmulF3216 vs2 vd) := by
  intro _ c0 he
  have hw : width [⟨1, 0#1⟩, ⟨4, 13#4⟩, ⟨6, vd⟩, ⟨5, vs2⟩] ≤ 32 := (by decide : (16 : Nat) ≤ 32)
  have hb := fun lo n => bf_word _ lo n hw
  rw [show encode (.vfmulF3216 vs2 vd) = _ from half_word (l := [⟨1, 0#1⟩, ⟨4, 13#4⟩, ⟨6, vd⟩, ⟨5, vs2⟩]) (by simp only [value, BitVec.toNat_ofNat]; omega)] at he
  cases he
  refine (arm_vfmulF3216 _ (ne_zero_of_bf (hb 1 4) (show 13#4 ≠ 0#4 by decide)) (hb 1 4)).trans ?_
  simp only [hb]
  rfl

theorem arm_vfminF3216 (w : BitVec 32) (hz : w ≠ 0) (h : bf w 1 4 = 14#4) : decode16 w =
    .ok (.vfminF3216 (bf w 11 5) (bf w 5 6)) := by unfold decode16; rw [if_neg hz, h]; rfl

theorem RoundTrip.vfminF3216 (vs2 vd) : RoundTrip.Statement (.vfminF3216 vs2 vd) := by
  intro _ c0 he
  have hw : width [⟨1, 0#1⟩, ⟨4, 14#4⟩, ⟨6, vd⟩, ⟨5, vs2⟩] ≤ 32 := (by decide : (16 : Nat) ≤ 32)
  have hb := fun lo n => bf_word _ lo n hw
  rw [show encode (.vfminF3216 vs2 vd) = _ from half_word (l := [⟨1, 0#1⟩, ⟨4, 14#4⟩, ⟨6, vd⟩, ⟨5, vs2⟩]) (by simp only [value, BitVec.toNat_ofNat]; omega)] at he
  cases he
  refine (arm_vfminF3216 _ (ne_zero_of_bf (hb 1 4) (show 14#4 ≠ 0#4 by decide)) (hb 1 4)).trans ?_
  simp only [hb]
  rfl

theorem arm_vfmaxF3216 (w : BitVec 32) (hz : w ≠ 0) (h : bf w 1 4 = 15#4) : decode16 w =
    .ok (.vfmaxF3216 (bf w 11 5) (bf w 5 6)) := by unfold decode16; rw [if_neg hz, h]; rfl

theorem RoundTrip.vfmaxF3216 (vs2 vd) : RoundTrip.Statement (.vfmaxF3216 vs2 vd) := by
  intro _ c0 he
  have hw : width [⟨1, 0#1⟩, ⟨4, 15#4⟩, ⟨6, vd⟩, ⟨5, vs2⟩] ≤ 32 := (by decide : (16 : Nat) ≤ 32)
  have hb := fun lo n => bf_word _ lo n hw
  rw [show encode (.vfmaxF3216 vs2 vd) = _ from half_word (l := [⟨1, 0#1⟩, ⟨4, 15#4⟩, ⟨6, vd⟩, ⟨5, vs2⟩]) (by simp only [value, BitVec.toNat_ofNat]; omega)] at he
  cases he
  refine (arm_vfmaxF3216 _ (ne_zero_of_bf (hb 1 4) (show 15#4 ≠ 0#4 by decide)) (hb 1 4)).trans ?_
  simp only [hb]
  rfl

theorem arm_nop (w : BitVec 32) (h0 : bf w 7 3 = 0#3) : decodeCtl0 w =
    must [(10, 22)] w .nop := by unfold decodeCtl0; rw [h0]; rfl

theorem RoundTrip.nop : RoundTrip.Statement (.nop) := by
  intro _ c0 he
  have hw : width [⟨1, 1#1⟩, ⟨6, 39#6⟩, ⟨3, 0#3⟩, ⟨22, 0#22⟩] ≤ 32 := Nat.le.refl
  have hb := fun lo n => bf_word _ lo n hw
  rw [show encode (.nop) = _ from wide_word (l := [⟨1, 1#1⟩, ⟨6, 39#6⟩, ⟨3, 0#3⟩, ⟨22, 0#22⟩]) (by simp only [value, BitVec.toNat_ofNat]; omega)] at he
  cases he
  rw [decode_wide, major_39 _ (hb 1 6)]
  refine (arm_nop _ (hb 7 3)).trans ?_
  refine (must_word _ _ _ hw rfl).trans ?_
  rfl

theorem arm_vjoin (w : BitVec 32) (h0 : bf w 7 3 = 1#3) : decodeCtl0 w =
    must [(10, 22)] w .vjoin := by unfold decodeCtl0; rw [h0]; rfl

theorem RoundTrip.vjoin : RoundTrip.Statement (.vjoin) := by
  intro _ c0 he
  have hw : width [⟨1, 1#1⟩, ⟨6, 39#6⟩, ⟨3, 1#3⟩, ⟨22, 0#22⟩] ≤ 32 := Nat.le.refl
  have hb := fun lo n => bf_word _ lo n hw
  rw [show encode (.vjoin) = _ from wide_word (l := [⟨1, 1#1⟩, ⟨6, 39#6⟩, ⟨3, 1#3⟩, ⟨22, 0#22⟩]) (by simp only [value, BitVec.toNat_ofNat]; omega)] at he
  cases he
  rw [decode_wide, major_39 _ (hb 1 6)]
  refine (arm_vjoin _ (hb 7 3)).trans ?_
  refine (must_word _ _ _ hw rfl).trans ?_
  rfl

theorem arm_exit (w : BitVec 32) (h0 : bf w 7 3 = 2#3) : decodeCtl0 w =
    must [(10, 22)] w .exit := by unfold decodeCtl0; rw [h0]; rfl

theorem RoundTrip.exit : RoundTrip.Statement (.exit) := by
  intro _ c0 he
  have hw : width [⟨1, 1#1⟩, ⟨6, 39#6⟩, ⟨3, 2#3⟩, ⟨22, 0#22⟩] ≤ 32 := Nat.le.refl
  have hb := fun lo n => bf_word _ lo n hw
  rw [show encode (.exit) = _ from wide_word (l := [⟨1, 1#1⟩, ⟨6, 39#6⟩, ⟨3, 2#3⟩, ⟨22, 0#22⟩]) (by simp only [value, BitVec.toNat_ofNat]; omega)] at he
  cases he
  rw [decode_wide, major_39 _ (hb 1 6)]
  refine (arm_exit _ (hb 7 3)).trans ?_
  refine (must_word _ _ _ hw rfl).trans ?_
  rfl

theorem arm_roleYield (w : BitVec 32) (h0 : bf w 7 3 = 3#3) : decodeCtl0 w =
    must [(10, 22)] w .roleYield := by unfold decodeCtl0; rw [h0]; rfl

theorem RoundTrip.roleYield : RoundTrip.Statement (.roleYield) := by
  intro _ c0 he
  have hw : width [⟨1, 1#1⟩, ⟨6, 39#6⟩, ⟨3, 3#3⟩, ⟨22, 0#22⟩] ≤ 32 := Nat.le.refl
  have hb := fun lo n => bf_word _ lo n hw
  rw [show encode (.roleYield) = _ from wide_word (l := [⟨1, 1#1⟩, ⟨6, 39#6⟩, ⟨3, 3#3⟩, ⟨22, 0#22⟩]) (by simp only [value, BitVec.toNat_ofNat]; omega)] at he
  cases he
  rw [decode_wide, major_39 _ (hb 1 6)]
  refine (arm_roleYield _ (hb 7 3)).trans ?_
  refine (must_word _ _ _ hw rfl).trans ?_
  rfl

theorem arm_scopeClose (w : BitVec 32) (h0 : bf w 7 3 = 4#3) : decodeCtl0 w =
    must [(10, 22)] w .scopeClose := by unfold decodeCtl0; rw [h0]; rfl

theorem RoundTrip.scopeClose : RoundTrip.Statement (.scopeClose) := by
  intro _ c0 he
  have hw : width [⟨1, 1#1⟩, ⟨6, 39#6⟩, ⟨3, 4#3⟩, ⟨22, 0#22⟩] ≤ 32 := Nat.le.refl
  have hb := fun lo n => bf_word _ lo n hw
  rw [show encode (.scopeClose) = _ from wide_word (l := [⟨1, 1#1⟩, ⟨6, 39#6⟩, ⟨3, 4#3⟩, ⟨22, 0#22⟩]) (by simp only [value, BitVec.toNat_ofNat]; omega)] at he
  cases he
  rw [decode_wide, major_39 _ (hb 1 6)]
  refine (arm_scopeClose _ (hb 7 3)).trans ?_
  refine (must_word _ _ _ hw rfl).trans ?_
  rfl

theorem arm_contDep (w : BitVec 32) (h0 : bf w 7 3 = 5#3) : decodeCtl0 w =
    must [(10, 22)] w .contDep := by unfold decodeCtl0; rw [h0]; rfl

theorem RoundTrip.contDep : RoundTrip.Statement (.contDep) := by
  intro _ c0 he
  have hw : width [⟨1, 1#1⟩, ⟨6, 39#6⟩, ⟨3, 5#3⟩, ⟨22, 0#22⟩] ≤ 32 := Nat.le.refl
  have hb := fun lo n => bf_word _ lo n hw
  rw [show encode (.contDep) = _ from wide_word (l := [⟨1, 1#1⟩, ⟨6, 39#6⟩, ⟨3, 5#3⟩, ⟨22, 0#22⟩]) (by simp only [value, BitVec.toNat_ofNat]; omega)] at he
  cases he
  rw [decode_wide, major_39 _ (hb 1 6)]
  refine (arm_contDep _ (hb 7 3)).trans ?_
  refine (must_word _ _ _ hw rfl).trans ?_
  rfl

theorem arm_tleave (w : BitVec 32) (h0 : bf w 7 3 = 7#3) : decodeCtl0 w =
    must [(10, 22)] w .tleave := by unfold decodeCtl0; rw [h0]; rfl

theorem RoundTrip.tleave : RoundTrip.Statement (.tleave) := by
  intro _ c0 he
  have hw : width [⟨1, 1#1⟩, ⟨6, 39#6⟩, ⟨3, 7#3⟩, ⟨22, 0#22⟩] ≤ 32 := Nat.le.refl
  have hb := fun lo n => bf_word _ lo n hw
  rw [show encode (.tleave) = _ from wide_word (l := [⟨1, 1#1⟩, ⟨6, 39#6⟩, ⟨3, 7#3⟩, ⟨22, 0#22⟩]) (by simp only [value, BitVec.toNat_ofNat]; omega)] at he
  cases he
  rw [decode_wide, major_39 _ (hb 1 6)]
  refine (arm_tleave _ (hb 7 3)).trans ?_
  refine (must_word _ _ _ hw rfl).trans ?_
  rfl

theorem arm_ntdrain (w : BitVec 32) (h0 : bf w 7 3 = 1#3) : decodeFence w =
    must [(10, 22)] w .ntdrain := by unfold decodeFence; rw [h0]; rfl

theorem RoundTrip.ntdrain : RoundTrip.Statement (.ntdrain) := by
  intro _ c0 he
  have hw : width [⟨1, 1#1⟩, ⟨6, 41#6⟩, ⟨3, 1#3⟩, ⟨22, 0#22⟩] ≤ 32 := Nat.le.refl
  have hb := fun lo n => bf_word _ lo n hw
  rw [show encode (.ntdrain) = _ from wide_word (l := [⟨1, 1#1⟩, ⟨6, 41#6⟩, ⟨3, 1#3⟩, ⟨22, 0#22⟩]) (by simp only [value, BitVec.toNat_ofNat]; omega)] at he
  cases he
  rw [decode_wide, major_41 _ (hb 1 6)]
  refine (arm_ntdrain _ (hb 7 3)).trans ?_
  refine (must_word _ _ _ hw rfl).trans ?_
  rfl

theorem RoundTrip.capabilityMint (a0 a1 a2 a3 a4 a5) : RoundTrip.Statement (.capabilityMint a0 a1 a2 a3 a4 a5) := fun _ _ h => nomatch h

theorem RoundTrip.setRootTable (a0 a1) : RoundTrip.Statement (.setRootTable a0 a1) := fun _ _ h => nomatch h

theorem RoundTrip.tlbShootdown (a0 a1 a2) : RoundTrip.Statement (.tlbShootdown a0 a1 a2) := fun _ _ h => nomatch h

theorem RoundTrip.generationRaise (a0) : RoundTrip.Statement (.generationRaise a0) := fun _ _ h => nomatch h

theorem RoundTrip.generationRaiseComplete (a0) : RoundTrip.Statement (.generationRaiseComplete a0) := fun _ _ h => nomatch h

theorem RoundTrip.generationSet (a0 a1) : RoundTrip.Statement (.generationSet a0 a1) := fun _ _ h => nomatch h

theorem RoundTrip.lockDrainRequest (a0) : RoundTrip.Statement (.lockDrainRequest a0) := fun _ _ h => nomatch h

theorem RoundTrip.brokenMarkClear (a0) : RoundTrip.Statement (.brokenMarkClear a0) := fun _ _ h => nomatch h

theorem RoundTrip.queueRegister (a0 a1 a2 a3) : RoundTrip.Statement (.queueRegister a0 a1 a2 a3) := fun _ _ h => nomatch h

theorem RoundTrip.peerTableWrite (a0 a1 a2 a3 a4 a5) : RoundTrip.Statement (.peerTableWrite a0 a1 a2 a3 a4 a5) := fun _ _ h => nomatch h

theorem RoundTrip.policyWrite (a0 a1) : RoundTrip.Statement (.policyWrite a0 a1) := fun _ _ h => nomatch h

theorem RoundTrip.preemptRequest (a0 a1) : RoundTrip.Statement (.preemptRequest a0 a1) := fun _ _ h => nomatch h

theorem RoundTrip.preemptContextSave (a0 a1) : RoundTrip.Statement (.preemptContextSave a0 a1) := fun _ _ h => nomatch h

theorem RoundTrip.preemptWithdraw (a0 a1) : RoundTrip.Statement (.preemptWithdraw a0 a1) := fun _ _ h => nomatch h

theorem RoundTrip.contextRestore (a0 a1) : RoundTrip.Statement (.contextRestore a0 a1) := fun _ _ h => nomatch h

theorem RoundTrip.thermalMigration (a0) : RoundTrip.Statement (.thermalMigration a0) := fun _ _ h => nomatch h

theorem RoundTrip.contextEnd (a0) : RoundTrip.Statement (.contextEnd a0) := fun _ _ h => nomatch h

theorem RoundTrip.faultResolveRetry (a0) : RoundTrip.Statement (.faultResolveRetry a0) := fun _ _ h => nomatch h

theorem RoundTrip.faultResolveSkip (a0) : RoundTrip.Statement (.faultResolveSkip a0) := fun _ _ h => nomatch h

theorem RoundTrip.faultResolveUser (a0) : RoundTrip.Statement (.faultResolveUser a0) := fun _ _ h => nomatch h

theorem RoundTrip.faultResolveEnd (a0) : RoundTrip.Statement (.faultResolveEnd a0) := fun _ _ h => nomatch h

theorem RoundTrip.spillResizeResume (a0 a1) : RoundTrip.Statement (.spillResizeResume a0 a1) := fun _ _ h => nomatch h

theorem RoundTrip.eclkAdvance : RoundTrip.Statement (.eclkAdvance) := fun _ _ h => nomatch h

theorem RoundTrip.xwLoad (a0 a1) : RoundTrip.Statement (.xwLoad a0 a1) := fun _ _ h => nomatch h

theorem RoundTrip.xwLeaseExpiry (a0 a1) : RoundTrip.Statement (.xwLeaseExpiry a0 a1) := fun _ _ h => nomatch h

theorem RoundTrip.pageWalkComplete (a0) : RoundTrip.Statement (.pageWalkComplete a0) := fun _ _ h => nomatch h

theorem RoundTrip.requestRefused (a0) : RoundTrip.Statement (.requestRefused a0) := fun _ _ h => nomatch h

theorem RoundTrip.homeRead (a0) : RoundTrip.Statement (.homeRead a0) := fun _ _ h => nomatch h

theorem RoundTrip.homeOwnership (a0) : RoundTrip.Statement (.homeOwnership a0) := fun _ _ h => nomatch h

theorem RoundTrip.homeWriteThrough (a0) : RoundTrip.Statement (.homeWriteThrough a0) := fun _ _ h => nomatch h

theorem RoundTrip.homeWriteBack (a0 a1 a2 a3) : RoundTrip.Statement (.homeWriteBack a0 a1 a2 a3) := fun _ _ h => nomatch h

theorem RoundTrip.invalidationReceived (a0 a1) : RoundTrip.Statement (.invalidationReceived a0 a1) := fun _ _ h => nomatch h

theorem RoundTrip.recallReceived (a0 a1 a2 a3) : RoundTrip.Statement (.recallReceived a0 a1 a2 a3) := fun _ _ h => nomatch h

theorem RoundTrip.forwardedRead (a0) : RoundTrip.Statement (.forwardedRead a0) := fun _ _ h => nomatch h

theorem RoundTrip.invalidationAck (a0) : RoundTrip.Statement (.invalidationAck a0) := fun _ _ h => nomatch h

theorem RoundTrip.ownershipAck (a0) : RoundTrip.Statement (.ownershipAck a0) := fun _ _ h => nomatch h

theorem RoundTrip.releaseMarkerHead (a0) : RoundTrip.Statement (.releaseMarkerHead a0) := fun _ _ h => nomatch h

theorem RoundTrip.heldAccessRelease (a0 a1) : RoundTrip.Statement (.heldAccessRelease a0 a1) := fun _ _ h => nomatch h

theorem RoundTrip.leaseRead (a0) : RoundTrip.Statement (.leaseRead a0) := fun _ _ h => nomatch h

theorem RoundTrip.leaseWrite (a0) : RoundTrip.Statement (.leaseWrite a0) := fun _ _ h => nomatch h

theorem RoundTrip.leaseWriteHoldEnd (a0) : RoundTrip.Statement (.leaseWriteHoldEnd a0) := fun _ _ h => nomatch h

theorem RoundTrip.sliceLeaseSweep (a0) : RoundTrip.Statement (.sliceLeaseSweep a0) := fun _ _ h => nomatch h

theorem RoundTrip.coreLeaseSweep (a0) : RoundTrip.Statement (.coreLeaseSweep a0) := fun _ _ h => nomatch h

theorem RoundTrip.replyArrival (a0 a1) : RoundTrip.Statement (.replyArrival a0 a1) := fun _ _ h => nomatch h

theorem RoundTrip.stashFillArrival (a0) : RoundTrip.Statement (.stashFillArrival a0) := fun _ _ h => nomatch h

theorem RoundTrip.homeAtomic (a0) : RoundTrip.Statement (.homeAtomic a0) := fun _ _ h => nomatch h

theorem RoundTrip.homeRowAtomic (a0) : RoundTrip.Statement (.homeRowAtomic a0) := fun _ _ h => nomatch h

theorem RoundTrip.routerMerge (a0 a1) : RoundTrip.Statement (.routerMerge a0 a1) := fun _ _ h => nomatch h

theorem RoundTrip.routerMergeReply (a0) : RoundTrip.Statement (.routerMergeReply a0) := fun _ _ h => nomatch h

theorem RoundTrip.lockRequestArrival (a0) : RoundTrip.Statement (.lockRequestArrival a0) := fun _ _ h => nomatch h

theorem RoundTrip.lockReleaseArrival (a0) : RoundTrip.Statement (.lockReleaseArrival a0) := fun _ _ h => nomatch h

theorem RoundTrip.lockWaiterExpiry (a0 a1) : RoundTrip.Statement (.lockWaiterExpiry a0 a1) := fun _ _ h => nomatch h

theorem RoundTrip.lckHold (a0) : RoundTrip.Statement (.lckHold a0) := fun _ _ h => nomatch h

theorem RoundTrip.deadlockProbe (a0 a1) : RoundTrip.Statement (.deadlockProbe a0 a1) := fun _ _ h => nomatch h

theorem RoundTrip.lockStatRequest (a0) : RoundTrip.Statement (.lockStatRequest a0) := fun _ _ h => nomatch h

theorem RoundTrip.mwaitRequestArrival (a0) : RoundTrip.Statement (.mwaitRequestArrival a0) := fun _ _ h => nomatch h

theorem RoundTrip.monitorExpiry (a0) : RoundTrip.Statement (.monitorExpiry a0) := fun _ _ h => nomatch h

theorem RoundTrip.barrierUpdate (a0 a1) : RoundTrip.Statement (.barrierUpdate a0 a1) := fun _ _ h => nomatch h

theorem RoundTrip.barrierCarriedCompletion (a0 a1) : RoundTrip.Statement (.barrierCarriedCompletion a0 a1) := fun _ _ h => nomatch h

theorem RoundTrip.barrierHeldArrival (a0 a1) : RoundTrip.Statement (.barrierHeldArrival a0 a1) := fun _ _ h => nomatch h

theorem RoundTrip.granuleRoleMove (a0 a1) : RoundTrip.Statement (.granuleRoleMove a0 a1) := fun _ _ h => nomatch h

theorem RoundTrip.dispatcherServe : RoundTrip.Statement (.dispatcherServe) := fun _ _ h => nomatch h

theorem RoundTrip.waitCounterPoll (a0) : RoundTrip.Statement (.waitCounterPoll a0) := fun _ _ h => nomatch h

theorem RoundTrip.dispatchComplete (a0) : RoundTrip.Statement (.dispatchComplete a0) := fun _ _ h => nomatch h

theorem RoundTrip.relaunchStep (a0) : RoundTrip.Statement (.relaunchStep a0) := fun _ _ h => nomatch h

theorem RoundTrip.contStall (a0) : RoundTrip.Statement (.contStall a0) := fun _ _ h => nomatch h

theorem RoundTrip.rebalancePending (a0) : RoundTrip.Statement (.rebalancePending a0) := fun _ _ h => nomatch h

theorem RoundTrip.sfpLate (a0 a1) : RoundTrip.Statement (.sfpLate a0 a1) := fun _ _ h => nomatch h

theorem RoundTrip.succReadComplete (a0) : RoundTrip.Statement (.succReadComplete a0) := fun _ _ h => nomatch h

theorem RoundTrip.launchAction (a0) : RoundTrip.Statement (.launchAction a0) := fun _ _ h => nomatch h

theorem RoundTrip.xshfRequestArrival (a0) : RoundTrip.Statement (.xshfRequestArrival a0) := fun _ _ h => nomatch h

theorem RoundTrip.xshfStale (a0 a1) : RoundTrip.Statement (.xshfStale a0 a1) := fun _ _ h => nomatch h

theorem RoundTrip.engineCommandComplete (a0 a1) : RoundTrip.Statement (.engineCommandComplete a0 a1) := fun _ _ h => nomatch h

theorem RoundTrip.graphNodeStart (a0 a1) : RoundTrip.Statement (.graphNodeStart a0 a1) := fun _ _ h => nomatch h

theorem RoundTrip.matrixStart (a0) : RoundTrip.Statement (.matrixStart a0) := fun _ _ h => nomatch h

theorem RoundTrip.operandsConsumed (a0) : RoundTrip.Statement (.operandsConsumed a0) := fun _ _ h => nomatch h

theorem RoundTrip.matrixRetire (a0) : RoundTrip.Statement (.matrixRetire a0) := fun _ _ h => nomatch h

theorem RoundTrip.ringPublishEffect (a0 a1) : RoundTrip.Statement (.ringPublishEffect a0 a1) := fun _ _ h => nomatch h

theorem RoundTrip.deferredCauseDelivery (a0) : RoundTrip.Statement (.deferredCauseDelivery a0) := fun _ _ h => nomatch h

theorem RoundTrip.hostRead (a0 a1 a2) : RoundTrip.Statement (.hostRead a0 a1 a2) := fun _ _ h => nomatch h

theorem RoundTrip.hostCompletion (a0 a1) : RoundTrip.Statement (.hostCompletion a0 a1) := fun _ _ h => nomatch h

theorem RoundTrip.hostCompletionTimeout (a0) : RoundTrip.Statement (.hostCompletionTimeout a0) := fun _ _ h => nomatch h

theorem RoundTrip.flitData (a0 a1) : RoundTrip.Statement (.flitData a0 a1) := fun _ _ h => nomatch h

theorem RoundTrip.flitIdle (a0 a1) : RoundTrip.Statement (.flitIdle a0 a1) := fun _ _ h => nomatch h

theorem RoundTrip.flitNak (a0 a1 a2) : RoundTrip.Statement (.flitNak a0 a1 a2) := fun _ _ h => nomatch h

theorem RoundTrip.flitRetrainRequest (a0 a1) : RoundTrip.Statement (.flitRetrainRequest a0 a1) := fun _ _ h => nomatch h

theorem RoundTrip.retrainAttemptTimeout (a0) : RoundTrip.Statement (.retrainAttemptTimeout a0) := fun _ _ h => nomatch h

theorem RoundTrip.linkstatClear (a0 a1) : RoundTrip.Statement (.linkstatClear a0 a1) := fun _ _ h => nomatch h

theorem RoundTrip.checkpointHostCommand (a0) : RoundTrip.Statement (.checkpointHostCommand a0) := fun _ _ h => nomatch h

theorem RoundTrip.powerLossWarning : RoundTrip.Statement (.powerLossWarning) := fun _ _ h => nomatch h

theorem RoundTrip.checkpointStream : RoundTrip.Statement (.checkpointStream) := fun _ _ h => nomatch h

theorem RoundTrip.checkpointRestore : RoundTrip.Statement (.checkpointRestore) := fun _ _ h => nomatch h

theorem RoundTrip.namedTickStop (a0) : RoundTrip.Statement (.namedTickStop a0) := fun _ _ h => nomatch h

theorem RoundTrip.sampctlWrite (a0 a1) : RoundTrip.Statement (.sampctlWrite a0 a1) := fun _ _ h => nomatch h

theorem RoundTrip.stallSample (a0) : RoundTrip.Statement (.stallSample a0) := fun _ _ h => nomatch h

theorem RoundTrip.occupancyRecord (a0) : RoundTrip.Statement (.occupancyRecord a0) := fun _ _ h => nomatch h

theorem RoundTrip.debugHold (a0 a1) : RoundTrip.Statement (.debugHold a0 a1) := fun _ _ h => nomatch h

theorem RoundTrip.debugRelease (a0) : RoundTrip.Statement (.debugRelease a0) := fun _ _ h => nomatch h

theorem RoundTrip.debugStep (a0) : RoundTrip.Statement (.debugStep a0) := fun _ _ h => nomatch h

theorem RoundTrip.watchpointStop (a0 a1) : RoundTrip.Statement (.watchpointStop a0 a1) := fun _ _ h => nomatch h

theorem RoundTrip.debugRoleHalt (a0 a1) : RoundTrip.Statement (.debugRoleHalt a0 a1) := fun _ _ h => nomatch h

theorem RoundTrip.debugRoleRelease (a0 a1) : RoundTrip.Statement (.debugRoleRelease a0 a1) := fun _ _ h => nomatch h

theorem RoundTrip.packageReset (a0) : RoundTrip.Statement (.packageReset a0) := fun _ _ h => nomatch h

theorem RoundTrip.recoveryImageWrite (a0 a1) : RoundTrip.Statement (.recoveryImageWrite a0 a1) := fun _ _ h => nomatch h

theorem RoundTrip.firmwareImageStage (a0 a1) : RoundTrip.Statement (.firmwareImageStage a0 a1) := fun _ _ h => nomatch h

theorem RoundTrip.attestationReport (a0) : RoundTrip.Statement (.attestationReport a0) := fun _ _ h => nomatch h

theorem RoundTrip.ageingMeasurement (a0 a1 a2) : RoundTrip.Statement (.ageingMeasurement a0 a1 a2) := fun _ _ h => nomatch h

theorem RoundTrip.guardbandRequest (a0 a1) : RoundTrip.Statement (.guardbandRequest a0 a1) := fun _ _ h => nomatch h

theorem RoundTrip.thermalThrottle (a0) : RoundTrip.Statement (.thermalThrottle a0) := fun _ _ h => nomatch h

theorem RoundTrip.thermalTrip (a0) : RoundTrip.Statement (.thermalTrip a0) := fun _ _ h => nomatch h

theorem RoundTrip.retrainComplete (a0 a1) : RoundTrip.Statement (.retrainComplete a0 a1) := fun _ _ h => nomatch h

theorem RoundTrip.configurationSpaceWrite (a0 a1) : RoundTrip.Statement (.configurationSpaceWrite a0 a1) := fun _ _ h => nomatch h

theorem RoundTrip.hostPortWriteSent (a0) : RoundTrip.Statement (.hostPortWriteSent a0) := fun _ _ h => nomatch h

theorem RoundTrip.operatingPointChangeDone (a0) : RoundTrip.Statement (.operatingPointChangeDone a0) := fun _ _ h => nomatch h


end Sys2Proof.Laws
end

