-- ==== Sys2Proof/Tests/Slice0.lean ====
section
/-! SUPPORT. Tests: words of the manual decode to their instructions, ill-formed terms are refused, single steps, and, for each
statement, a state and operands that meet its hypotheses. -/
namespace Sys2Proof.Tests
open Sys2Proof.Machine
set_option Elab.async false

/-! Words written out from the encoding tables (R231 to R237), most of them the manual's worked cases. -/

def wide (w : BitVec 32) : Code := { wide := true, word := w }
def half (w : BitVec 32) : Code := { wide := false, word := w }

theorem test_decode_half : decode (half 0x4880) = .ok (.vadd16 9 4) ∧ decode (half 0x0000) = .error .encHalf := by decide
theorem test_decode_vector_integer : decode (wide 0x1FE8C2A3) = .ok (.vaddImm 0 0 0x3FD 6 5) ∧
    decode (wide 0x43082103) = .ok (.vxor 1 0 0 12 8 8) ∧ decode (wide 0x40082189) = .ok (.vpopc 1 0 8 8) ∧
    decode (wide 0x438D3681) = .ok (.vminI32 1 0 0 14 13 13) ∧ decode (wide 0x087904A7) = .ok (.vshrImm 0 0 15 8 9) := by decide
theorem test_decode_compare_select : decode (wide 0x0185481F) = .ok (.vcmpI32 0 0 0 6 5 2 2) ∧
    decode (wide 0x41031D0D) = .ok (.vsel 1 0 0 4 3 7 2) ∧ decode (wide 0x000225B1) = .ok (.mpopc 2 9) := by decide
theorem test_decode_float_convert : decode (wide 0xA1C32B93) = .ok (.vfmaF32 2 1 0 7 3 10 3) ∧
    decode (wide 0x0549A6A1) = .ok (.vcvt 0 0 0 0xA 9 13 13) ∧ decode (wide 0x40014635) = .ok (.vqnt 1 0 0 10 12) := by decide
theorem test_decode_cross_lane : decode (wide 0x4000852F) = .ok (.vminidx 1 0 0 4 10) ∧
    decode (wide 0x05033129) = .ok (.xshf 0 0 20 3 12) := by decide
theorem test_decode_scalar_special : decode (wide 0x001600C3) = .ok (.sset 0x16 0) ∧ decode (wide 0x00064443) = .ok (.sget 6 17) := by decide
theorem test_decode_branches : decode (wide 0xCF) = .ok .vjoin ∧ decode (wide 0x040200C9) = .ok (.vbra 0x20 0x80 1) ∧
    decode (wide 0x003F034F) = .ok (.ret 0 63) ∧ decode (wide 0x403F034F) = .ok (.retX 0 63) := by decide
theorem test_decode_system : decode (wide 0x14F) = .ok .exit ∧ decode (wide 0x6751) = .ok (.exitSucc 25) ∧
    decode (wide 0x70151) = .ok (.sfp 7) ∧ decode (wide 0x2CF) = .ok .contDep ∧ decode (wide 0x1CF) = .ok .roleYield ∧
    decode (wide 0x24F) = .ok .scopeClose ∧ decode (wide 0x3CF) = .ok .tleave ∧ decode (wide 0x90051) = .ok (.trap 9) ∧
    decode (wide 0x900D1) = .ok (.brk 9) ∧ decode (wide 0x4F) = .ok .nop := by decide
theorem test_decode_memory : decode (wide 0x01822259) = .ok (.vld 0 0 0 6 2 8 4) ∧ decode (wide 0x3041225B) = .ok (.vldAcq 0 1 4 1 1 8 4) ∧
    decode (wide 0x0182215D) = .ok (.vst 0 0 0 6 2 8 0 2) ∧ decode (wide 0x30C4215F) = .ok (.vstRel 0 1 4 3 4 8 0 2) ∧
    decode (wide 0x004D3269) = .ok (.lds 0 0 0 1 13 12 4) ∧ decode (wide 0x0054416B) = .ok (.sts 0 0 0 1 20 16 0 2) := by decide
theorem test_decode_capability_map : decode (wide 0x06021855) = .ok (.cmk 0 24 2 6) ∧ decode (wide 0x0501106F) = .ok (.smap 20 1 4) := by decide
theorem test_decode_atomic_lock : decode (wide 0x24194C79) = .ok (.satom 0 1 0 4 1 18 19 0) ∧
    decode (wide 0x11C0147B) = .ok (.lckAcq 1 7 0 5) ∧ decode (wide 0x1000017B) = .ok (.lckRel 1 0) := by decide
theorem test_decode_engine_matrix : decode (wide 0x0C88007F) = .ok (.cpy 0 3 2 8 0) ∧ decode (wide 0x11214837) = .ok (.mma 1 9 5 2) ∧
    decode (wide 0x4E37) = .ok (.cpyFold 0 1 3) := by decide
/-- R241: a reserved FUNC of major 29 raises ENC_FUNC. -/
theorem test_decode_reserved : decode (wide 0x000002BB) = .error .encFunc := by decide

/-! Ill-formed terms, one for each check of R239. -/

theorem test_ill_vector : ¬(Instr.vcmpI32 0 0 0 0 0 6 1).WellFormed ∧ ¬(Instr.vcmpI32 0 0 0 0 0 0 0).WellFormed ∧
    ¬(Instr.vcmpN32 0 0 0 0 0 7 1).WellFormed ∧ ¬(Instr.vcmpN32 0 0 0 0 0 0 0).WellFormed ∧ ¬(Instr.vcmpI64 0 0 0 0 0 6 1).WellFormed ∧
    ¬(Instr.vcmpI64 0 0 0 0 0 0 0).WellFormed ∧ ¬(Instr.vcmpN64 0 0 0 0 0 7 1).WellFormed ∧ ¬(Instr.vcmpN64 0 0 0 0 0 0 0).WellFormed ∧
    ¬(Instr.vfcmpF32 0 0 0 0 0 0 0).WellFormed ∧ ¬(Instr.vfcmpF64 0 0 0 0 0 0 0).WellFormed ∧ ¬(Instr.vcvt 0 0 2 7 7 0 0).WellFormed ∧
    ¬(Instr.vred 0 0 0 4 5 0 0).WellFormed ∧ ¬(Instr.vred 0 0 1 0 0 0 0).WellFormed ∧ ¬(Instr.vscan 0 0 0 0 0 6 0 0).WellFormed ∧
    ¬(Instr.vminidx 0 0 3 0 0).WellFormed ∧ ¬(Instr.vmaxidx 0 0 3 0 0).WellFormed ∧ ¬(Instr.vadd16 0 0).WellFormed := by decide
theorem test_ill_mask_scalar : ¬(Instr.mand 0 0 0).WellFormed ∧ ¬(Instr.mor 0 0 0).WellFormed ∧ ¬(Instr.mnot 0 0).WellFormed ∧
    ¬(Instr.scmp 0 0 0 0 0 0 6).WellFormed ∧ ¬(Instr.slih 0 0 0).WellFormed ∧ ¬(Instr.sget 24 0).WellFormed ∧ ¬(Instr.sset 24 0).WellFormed ∧
    ¬(Instr.sset 0 0).WellFormed ∧ ¬(Instr.bcnd 0 0 6).WellFormed ∧ ¬(Instr.loop 0 0).WellFormed ∧ ¬(Instr.scopeOpen 0).WellFormed ∧
    ¬(Instr.rgive 129).WellFormed ∧ ¬(Instr.rclaim 129 1).WellFormed ∧ ¬(Instr.rclaim 1 0).WellFormed ∧ ¬(Instr.fence 6 0).WellFormed ∧
    ¬(Instr.cget 8 0 0).WellFormed := by decide
theorem test_ill_memory : ¬(Instr.vld 0 0 0 0 0 0 6).WellFormed ∧ ¬(Instr.vldAcq 0 0 0 0 0 0 7).WellFormed ∧
    ¬(Instr.vldAcq 0 0 6 0 0 0 0).WellFormed ∧ ¬(Instr.vstRel 0 0 7 0 0 0 0 0).WellFormed ∧ ¬(Instr.vldNt 0 0 0 0 0 0 6).WellFormed ∧
    ¬(Instr.sld 0 0 0 0 0 7).WellFormed ∧ ¬(Instr.sld 0 1 0 0 0 0).WellFormed ∧ ¬(Instr.sst 1 6 0 0 0 0 0).WellFormed ∧
    ¬(Instr.lds 0 0 0 0 0 0 6).WellFormed ∧ ¬(Instr.pfch 0 2 0 0 0).WellFormed ∧ ¬(Instr.smap 61 0 0).WellFormed ∧
    ¬(Instr.satom 3 0 0 0 0 0 0 4).WellFormed ∧ ¬(Instr.satom 2 0 0 0 0 0 0 2).WellFormed ∧ ¬(Instr.lckAcq 0 0 0 0).WellFormed ∧
    ¬(Instr.lckTry 0 0 0).WellFormed ∧ ¬(Instr.lckStat 0 0 0).WellFormed ∧ ¬(Instr.mwait 0 0 0 0).WellFormed := by decide
theorem test_ill_engine : ¬(Instr.gnode 0).WellFormed ∧ ¬(Instr.tdesc 0 61).WellFormed ∧ ¬(Instr.tdget 0 61).WellFormed ∧
    ¬(Instr.cpy 0 0 0 0 1).WellFormed ∧ ¬(Instr.cpyGth 0 0 0 0 1).WellFormed ∧ ¬(Instr.cpyGth 1 0 0 62 0).WellFormed ∧
    ¬(Instr.cpyRmt 0 0 0 0 1).WellFormed ∧ ¬(Instr.cpyRmt 1 0 0 63 0).WellFormed ∧ ¬(Instr.cpyTr8 0 0 0 0 1).WellFormed ∧
    ¬(Instr.cpyTr8 1 0 0 63 0).WellFormed ∧ ¬(Instr.cpyTr16 0 0 0 0 1).WellFormed ∧ ¬(Instr.cpyTr16 1 0 0 63 0).WellFormed := by decide

/-! Small states: the loaded group of log 8 issues, with what a test changes. -/

def at_ : Cursor := { uid := 1, entry := 0, tick := 0 }
def on (f : Group → Group) : State :=
  { State.reset with groups := [(1, f loadGroup)], tasks := [(1, loadTask)], nextId := 2, cur := at_, ctxs := [(1, { Ctx.reset with live := true })] }
def st : State := on id
def onCore (f : Core → Core) (s : State) : State := { s with cores := [(0, f Core.reset)] }
def onTask (f : Task → Task) (s : State) : State := { s with tasks := [(1, f loadTask)] }
def onCtx (f : Ctx → Ctx) (s : State) : State := { s with ctxs := [(1, f { Ctx.reset with live := true })] }
def onHomes (f : Homes → Homes) (s : State) : State := { s with homes := f Homes.reset }
def frag (pc : BitVec 56) (mask : Word) : Split := { Split.free with valid := true, mask, pc }

/-! Witnesses: a state and operands that meet the hypotheses of a statement. -/

theorem test_meets_ScalarRegisterForms : (Instr.ssub 0 0 2 1 3).WellFormed ∧ (Claim.scalarForm (.ssub 0 0 2 1 3)).isSome = true ∧
    Claim.Full st [1, 2, 3] := ⟨by decide, by decide, by unfold Claim.Full; decide⟩
theorem test_meets_ScalarImmediateForms : (Instr.slih 7 5 3).WellFormed ∧ (Claim.scalarImmForm (.slih 7 5 3)).isSome = true ∧
    Claim.Full st [5] := ⟨by decide, by decide, by unfold Claim.Full; decide⟩

/-- The hypotheses of LaneCompletes hold of a form in a state. -/
def Meets (form : Option Claim.LaneForm) (s : State) (i : Instr) : Prop :=
  i.WellFormed ∧ ∃ x, form = some x ∧ Claim.Named (curG s) (x.names ++ x.srcs ++ [x.dst]) ∧ Claim.Filled (curG s) (x.srcs ++ [x.dst]) ∧
    Claim.Room s x.m x.dst (x.result s)

theorem test_meets_VectorInteger32Forms : Meets (Claim.int32Form (.vmad 0 0 0 2 1 63)) st (.vmad 0 0 0 2 1 63) :=
  ⟨by decide, _, rfl, by unfold Claim.Named; decide +kernel, by unfold Claim.Filled; decide +kernel, by unfold Claim.Room; decide +kernel⟩
theorem test_meets_VectorCompactForms : Meets (Claim.intCompactForm (.vsub16 31 0)) st (.vsub16 31 0) :=
  ⟨by decide, _, rfl, by unfold Claim.Named; decide +kernel, by unfold Claim.Filled; decide +kernel, by unfold Claim.Room; decide +kernel⟩
theorem test_meets_VectorInteger64Forms : Meets (Claim.int64Form (.vmulhiI64 1 0 0 2 4 62)) st (.vmulhiI64 1 0 0 2 4 62) :=
  ⟨by decide, _, rfl, by unfold Claim.Named; decide +kernel, by unfold Claim.Filled; decide +kernel, by unfold Claim.Room; decide +kernel⟩
theorem test_meets_VectorUnaryForms : Meets (Claim.unaryForm (.vabsI64 0 0 62 0)) st (.vabsI64 0 0 62 0) :=
  ⟨by decide, _, rfl, by unfold Claim.Named; decide +kernel, by unfold Claim.Filled; decide +kernel, by unfold Claim.Room; decide +kernel⟩
theorem test_meets_VectorSaturatingForms : Meets (Claim.satForm (.vsubSatN64 0 0 0 2 4 6)) st (.vsubSatN64 0 0 0 2 4 6) :=
  ⟨by decide, _, rfl, by unfold Claim.Named; decide +kernel, by unfold Claim.Filled; decide +kernel, by unfold Claim.Room; decide +kernel⟩
theorem test_meets_VectorFloatForms : Meets (Claim.floatForm st (.vfaddF32 0 0 0 2 1 3 0)) st (.vfaddF32 0 0 0 2 1 3 0) :=
  ⟨by decide, _, rfl, by unfold Claim.Named; decide +kernel, by unfold Claim.Filled; decide +kernel, by unfold Claim.Room; decide +kernel⟩
theorem test_meets_VectorCrossForms : Meets (Claim.crossForm st (.vshfl 0 0 0 2 1 3)) st (.vshfl 0 0 0 2 1 3) :=
  ⟨by decide, _, rfl, by unfold Claim.Named; decide +kernel, by unfold Claim.Filled; decide +kernel, by unfold Claim.Room; decide +kernel⟩
theorem test_meets_VectorCompareForms : (Instr.vfcmpF64 0 0 0 2 4 7 7).WellFormed ∧
    ∃ x, Claim.compareForm (.vfcmpF64 0 0 0 2 4 7 7) = some x ∧ Claim.Usable (curG st) [x.a, x.b] :=
  ⟨by decide, _, rfl, by unfold Claim.Usable Claim.Named Claim.Filled; decide +kernel⟩
theorem test_meets_MaskForms : (Instr.mor 1 2 7).WellFormed ∧ (Claim.maskForm st (.mor 1 2 7)).isSome = true := by decide
theorem test_meets_ScalarFromMaskOrVector : (Instr.vshape 63 5).WellFormed ∧ (Claim.toScalarForm st (.vshape 63 5)).map (·.1) = some [63] ∧
    63 < (curG st).nNames ∧ 63 < (curG st).top ∧ Claim.Full st [5] := ⟨by decide, by decide, by decide, by decide, by unfold Claim.Full; decide⟩
theorem test_meets_BallotInstruction : 63 < (curG st).nNames ∧ 63 < (curG st).top ∧ vIsEmpty (curG st) 63 = false ∧ Claim.Full st [63] :=
  ⟨by decide, by decide, by decide, by unfold Claim.Full; decide⟩
theorem test_meets_SpecialRegisters : (Instr.sget 0x17 5).WellFormed ∧ (Instr.sset 0x16 0).WellFormed ∧ Claim.Full st [0, 5] :=
  ⟨by decide, by decide, by unfold Claim.Full; decide⟩

/-- s3 of the issuing group is empty. -/
def hole : State := on fun g => { g with sEmpty := 8 }
theorem test_meets_EmptyScalarSource : (Instr.sadd 0 1 2 3 4).WellFormed ∧ Claim.firstScalar (.sadd 0 1 2 3 4) = some (3, 1) ∧
    Claim.firstScalar (.smov 0 3 4) = some (3, 0) ∧ sIsEmpty (curG hole) 3 = true := by decide

/-- A handler at 0x100, and a group in handler state. -/
def handled : State := onTask (fun t => { t with tvec := 0x100 }) st
def nested : State := onTask (fun t => { t with tvec := 0x100 }) (on fun g => { g with handler := some 0, xpc := 0x40, xcause := 0x31, xf0 := 5 })
theorem test_meets_TakingAnException : (curG handled).handler = none ∧ Claim.Delegated handled .encTrap ∧ ¬Claim.Delegated st .encTrap ∧
    ¬Claim.Delegated handled .encBrk ∧ (curG nested).handler ≠ none ∧ Claim.Delegated nested .encTrap :=
  ⟨by decide, by unfold Claim.Delegated; decide, by unfold Claim.Delegated; decide, by unfold Claim.Delegated; decide, by decide,
    by unfold Claim.Delegated; decide⟩
theorem test_meets_IllFormedRaises : fieldCause (.sget 24 0) = some .encSreg := by decide
/-- Of the names, `n` are there and `top` live; v2 is empty, or s5 names 40; 20 of 36 slots are held; a claim waits for s7. -/
def names (n top : Nat) (empty : DWord) (claim : Option (Nat × BitVec 6)) : State := on fun g => { g with
  nNames := n, top, vEmpty := empty, s := [(5, 40)], sEmpty := 0x40, claim, slots := g.slots.take 1, v := [(1, .u 32), (2, .g (List.replicate 32 3))], gslot := [(2, 0)] }
theorem test_meets_VectorOperandChecks :
    (Claim.staticNames (.vadd 0 0 0 2 1 3)).bind (Claim.nameFault (curG (names 3 3 0 none))) = some .regName ∧
    (Claim.staticNames (.vadd 0 0 0 2 1 3)).bind (Claim.nameFault (curG (names 8 3 0 none))) = some .regDead ∧
    (Claim.staticNames (.vaddB64 0 0 0 2 1 4)).bind (Claim.nameFault (curG (names 8 8 0 none))) = some .regPair ∧
    (∀ i ∈ [Instr.vrdx 0 5 3, .vrdx 0 6 3, .vcvt 0 0 0 9 9 1 3, .vadd 0 0 1 2 1 3, .vadd 0 1 1 2 1 3, .vshfl 0 0 0 1 2 3],
      i.WellFormed ∧ (Claim.staticNames i).bind (Claim.nameFault (curG (names 8 8 0 none))) = none) ∧
    Claim.indexOf (.vrdx 0 6 3) = some 6 ∧ sIsEmpty (curG (names 8 8 0 none)) 6 = true ∧ sIsEmpty (curG (names 8 8 0 none)) 5 = false ∧
    (curG (names 8 8 0 none)).nNames ≤ (sReg (curG (names 8 8 0 none)) 5).toNat ∧
    (sReg (curG (names 48 40 0 none)) 5).toNat < (curG (names 48 40 0 none)).nNames ∧ (curG (names 48 40 0 none)).top ≤ (sReg (curG (names 48 40 0 none)) 5).toNat ∧
    Claim.typesOf (.vcvt 0 0 0 9 9 1 3) = some (9, 9) ∧
    (Claim.waitsOf (names 8 8 4 none) (.vadd 0 1 0 2 1 3)).bind (fun l => l.find? fun p => vIsEmpty (curG (names 8 8 4 none)) p.1) = some (2, 1) ∧
    (Claim.waitsOf (names 8 8 8 none) (.vadd 0 1 0 2 1 3)).bind (fun l => l.find? fun p => vIsEmpty (curG (names 8 8 8 none)) p.1) = some (3, 0) ∧
    Claim.shuffleOf (.vshfl 0 0 0 1 2 3) = some (0, 1, [2, 1, 3]) ∧
    ((Claim.activeList (names 8 8 0 none) 0).any fun k => decide (31 < (vAt (vReg (curG (names 8 8 0 none)) 1) k).toNat)) = true := by decide +kernel
theorem test_meets_VectorOperandChecks_slots : ∀ s ∈ [names 8 8 0 none, names 8 8 0 (some (2, 7))],
    ∃ x, Claim.laneForm s (.vadd 0 0 0 2 1 3) = some x ∧ Claim.Named (curG s) (x.srcs ++ [x.dst]) ∧ Claim.Filled (curG s) (x.srcs ++ [x.dst]) ∧
      ¬Claim.Room s x.m x.dst (x.result s) := by
  intro s h
  fin_cases h <;> exact ⟨_, rfl, by unfold Claim.Named; decide +kernel, by unfold Claim.Filled; decide +kernel, by unfold Claim.Room; decide +kernel⟩
theorem test_meets_TrapInstruction : (curG handled).handler = none ∧ Claim.Delegated handled .encTrap ∧ ¬Claim.Delegated handled .encBrk :=
  ⟨by decide, by unfold Claim.Delegated; decide, by unfold Claim.Delegated; decide⟩
theorem test_meets_ReturnFromHandler : Claim.Full nested [63] ∧ (sReg (curG nested) 63).getLsbD 0 = false ∧ (curG st).handler = none ∧
    Claim.Full st [63] ∧ (sReg (curG st) 63).getLsbD 0 = false :=
  ⟨by unfold Claim.Full; decide, by decide, by decide, by unfold Claim.Full; decide, by decide⟩

/-- A deferred LCK_HOLD is pending for the group. -/
def pending : State := onTask (fun t => { t with tvec := 0x100 }) (on fun g => { g with
  deferred := [({ cause := .lckHold, xf0 := 1, xf1 := 2, xf2 := 3 }, faultRec st 1 .lckHold true)] })
theorem test_meets_DeferredCauseDelivered : (getG pending 1).uid = 1 ∧ (getG pending 1).handler = none ∧
    (getG pending 1).deferred.length = 1 ∧ ((laneCands pending 0 0).find? fun c => c.uid == 1).isSome = true := by decide

theorem test_meets_BranchForms : (Instr.bcnd 0x8000 63 5).WellFormed ∧ (Instr.loop 0x7FFF 63).WellFormed ∧ Claim.Full st [63] ∧
    sIsEmpty (curG (on fun g => { g with sEmpty := 0x8000000000000000 })) 63 = true :=
  ⟨by decide, by decide, by unfold Claim.Full; decide, by decide⟩

/-- m1 holds a part of the threads. -/
def parted : State := on fun g => { g with m := [(1, 0xFFFF), (2, 0)] }
/-- The whole split table is in use. -/
def splitAll : State := on fun g => { g with m := [(1, 0xFFFF)], split := (List.range 8).map fun k => (k, { frag 0 0xF with st := if k = 0 then 0 else 1 }) }
theorem test_meets_DivergentBranch :
    ((curF parted).mask &&& mReg (curG parted) 2 = 0) ∧ ((curF parted).mask &&& ~~~mReg (curG parted) 0 = 0) ∧
    ((curF parted).mask &&& mReg (curG parted) 1 ≠ 0) ∧ ((curF parted).mask &&& ~~~mReg (curG parted) 1 ≠ 0) ∧ (curF parted).st = 0 ∧
    (curF parted).valid = true ∧ Claim.LowestFree (curG parted) 1 ∧ (∀ k, k < 8 → (getF (curG splitAll) k).valid = true) ∧
    ((curF splitAll).mask &&& mReg (curG splitAll) 1 ≠ 0) :=
  ⟨by decide, by decide, by decide, by decide, by decide, by decide, by unfold Claim.LowestFree; decide, by decide, by decide⟩

/-- Entry 0 issues a `vjoin` at 0x40, which is its join address; its child 1 has exited (`done`), or still runs. -/
def joining (done : Bool) : State := on fun g => { g with splitAge := 2, split :=
  [(0, { frag 0x40 0xF with join := 0x40, age := 1 }),
   (1, { frag 0x20 0xF0 with join := 0x40, parent := 0, age := 2, st := if done then 3 else 0, saved := 0x80 })] }
theorem test_meets_JoinInstruction : (curF st).join = 0 ∧ (curF st).valid = true ∧ (curF st).st = 0 ∧
    (curF (joining true)).join = (curF (joining true)).pc ∧ (curF (joining true)).pc ≠ 0 ∧ Claim.Child (curG (joining true)) 0 0x40 1 ∧
    Claim.AtJoin (getF (curG (joining true)) 1) 0x40 ∧ (getF (curG (joining true)) 1).saved ≠ 0x40 ∧
    Claim.Child (curG (joining false)) 0 0x40 1 ∧ ¬Claim.AtJoin (getF (curG (joining false)) 1) 0x40 :=
  ⟨by decide, by decide, by decide, by decide, by decide, by unfold Claim.Child; decide, by unfold Claim.AtJoin; decide, by decide,
    by unfold Claim.Child; decide, by unfold Claim.AtJoin; decide⟩

/-- A held lock, and its line. -/
def held : LockEnt := { line := 5, gen := 0, granted := true, marked := false, remain := 0, sd := 5, op := 1 }
theorem test_meets_ExitForms : st.cur.entry < 8 ∧ st.cur.uid < st.nextId ∧ (curG (on fun g => { g with locks := [held] })).locks ≠ [] ∧
    (curG (joining false)).locks = [] ∧ (getF (curG (joining false)) 1).valid = true ∧ (getF (curG (joining false)) 1).st ≠ 3 ∧
    (∀ j, j < 8 → j ≠ st.cur.entry → (getF (curG st) j).valid = false ∨ (getF (curG st) j).st = 3) := by decide

/-- A capability over [lo, hi) of a space, with permissions, and one with all but PX. -/
def capOver (space : BitVec 4) (perms : BitVec 7) (lo hi : Nat) : Cap :=
  capWithBounds { Cap.null with addr := BitVec.ofNat 56 lo, perms, space, tag := true } lo hi
def dataLeaf : Leaf :=
  { sz := false, r := true, w := true, a := true, l := true, x := true, tags := true, mode := 0, mbf := 0, gen := 0, base := 0x20000000 }
/-- c2 is over a page of global memory that the TLB holds, c3 over a granule of stash, c4 over tile 0; the task has both. -/
def mem : State :=
  onTask (fun t => { t with gbase := 0, ngran := 1, tiles := [0], hdr := { t.hdr with sgr := 1, tsl := 1 } }) <|
  onCore (fun c => { c with tlb := [{ ctx := 1, vbase := 0x500000, leaf := dataLeaf }] }) <|
  on fun g => { g with c := [(2, capOver 0 0x7F 0x5000000000 0x5000010000), (3, capOver 1 0x1B 0 0x10000), (4, capOver 2 0x3 0 0x6000)] }

theorem isOk_of {α : Type} {x : X α} (h : x.isOk = true) : Claim.IsOk x := by
  cases x with
  | ok a => exact ⟨a, rfl⟩
  | error e => cases h

/-! Ends, safe points, scopes and slots. -/

/-- A task whose header allows a successor; c1 is over the page of `mem`, whose first line is the descriptor. -/
def succeeding (x : Succ) : State :=
  onTask (fun t => { t with succ := x, hdr := { t.hdr with succ := true } }) <|
  onCore (fun c => { c with tlb := [{ ctx := 1, vbase := 0x500000, leaf := dataLeaf }] }) <|
  on fun g => { g with c := [(1, capOver 0 0x7F 0x5000000000 0x5000010000)], s := [(25, 0x5000000040)],
                       split := [(0, frag 0 0xF), (1, { frag 0 0xF0 with st := 1 })] }
def succAddr : BitVec 56 := 0x5000000040
theorem test_meets_SuccessorExit : (Instr.exitSucc 25).WellFormed ∧ Claim.Full (succeeding .none) [25] ∧ cIsEmpty (curG (succeeding .none)) 1 = false ∧
    (getT (succeeding .none) 1).hdr.succ = true ∧ (getT st 1).hdr.succ = false ∧ Claim.IsOk (capUse (cReg (curG (succeeding .none)) 1) permR [0]) ∧
    Claim.IsOk (boundsX (cReg (curG (succeeding .none)) 1) 64 [(0, (0x5000000040 : Int))]) ∧ succFault (curF (succeeding .none)) = none ∧
    Claim.IsOk (xltX (succeeding .none) .load 0x5000000040) :=
  ⟨by decide, by unfold Claim.Full; decide, by decide, by decide, by decide, isOk_of (by decide +kernel), isOk_of (by decide +kernel), by decide, isOk_of (by decide +kernel)⟩
/-- A descriptor of one group, whose header is the loaded task's, may follow it. -/
def okDesc : Desc := { Desc.zero with ng := 1, codec := loadTask.codec }
theorem test_meets_SuccessorExit_slot : (let x := Succ.reading succAddr; Claim.succAt (succeeding x) (getT (succeeding x) 1) = some (0x5000000040, none)) ∧
    (let x := Succ.read succAddr true okDesc loadTask.hdr; Claim.succAt (succeeding x) (getT (succeeding x) 1) = some (0x5000000040, some true)) ∧
    (let x := Succ.read succAddr false okDesc loadTask.hdr; Claim.succAt (succeeding x) (getT (succeeding x) 1) = some (0x5000000040, some false)) ∧
    (getF (curG (succeeding .none)) 1).valid = true ∧ (getF (curG (succeeding .none)) 1).st ≠ 3 := by decide +kernel

/-- A task with a safe point 0, its table at the start of the page of `loadVa`, in the TLB; a request for the group is pending. -/
def safePt (sv : Option (BitVec 8)) : State :=
  onCtx (fun x => { x with live := true, preempts := [{ core := 0, only := none, t0 := 0, restore := false }] }) <|
  onTask (fun t => { t with hdr := { t.hdr with sfpn := 1, sfpt := BitVec.ofNat 56 loadVa } }) <|
  onCore (fun c => { c with tlb := [{ ctx := 1, vbase := loadVa / 2 ^ 16, leaf := loadLeaf }] }) (on fun g => { g with saving := sv })
theorem test_meets_SafePoints : (getT st 1).hdr.sfpn ≤ 0 ∧ 0 < (getT (safePt none) 1).hdr.sfpn ∧ (curG (safePt none)).handler = none ∧
    (curG (safePt none)).saving = none ∧ Claim.Asked (safePt none) ∧ Claim.Alone (safePt none) ∧ ¬Claim.Asked st ∧
    Claim.IsOk (sfpEntry (safePt none) 0 0) ∧ (curG (safePt (some 0))).saving = some 0 ∧ Claim.Alone (safePt (some 0)) ∧
    (curG (safePt (some 0))).uid = (safePt (some 0)).cur.uid ∧ Claim.IsOk (sfpEntry (safePt (some 0)) 0 8) :=
  ⟨by decide, by decide, by decide, by decide, by unfold Claim.Asked; decide, by unfold Claim.Alone; decide, by unfold Claim.Asked; decide,
    isOk_of (by decide +kernel), by decide, by unfold Claim.Alone; decide, by decide, isOk_of (by decide +kernel)⟩
theorem test_meets_RoleYield : (curG st).role = 0 ∧
    (let s := onTask (fun t => { t with pendRole := some (0, 2) }) (on fun g => { g with role := 1 })
     (curG s).role ≠ 0 ∧ (getT s (curG s).task).pendRole = some ((curG s).taskg, 2)) ∧
    (let s := on fun g => { g with role := 1 }
     (curG s).role ≠ 0 ∧ (getT s (curG s).task).pendRole = none) := by decide

/-- A group with 8 of its names live, in one scope of 3 names; with `n` scopes. -/
def inScope (n : Nat) : State := on fun g => { g with top := 8, scopes := List.replicate n 5 }
theorem test_meets_Scopes : (Instr.scopeOpen 56).WellFormed ∧ (inScope 1).cur.entry < 8 ∧ (curF (inScope 1)).valid = true ∧
    (curG (inScope 7)).scopes.length < 8 ∧ (curG (inScope 7)).top + 56 ≤ (curG (inScope 7)).nNames ∧ (curG (inScope 7)).nNames ≤ 64 ∧
    Claim.Alone (inScope 7) ∧ 8 ≤ (curG (inScope 8)).scopes.length ∧ (curG (inScope 1)).scopes ≠ [] ∧
    (curG (inScope 1)).scopes.headD 0 ≤ (curG (inScope 1)).top ∧ (curG (inScope 1)).claim = none ∧ (curG (inScope 0)).scopes = [] :=
  ⟨by decide, by decide, by decide, by decide, by decide, by decide, by unfold Claim.Alone; decide, by decide, by decide, by decide, by decide,
    by decide⟩
theorem test_meets_RegisterSlots : (Instr.rgive 64).WellFormed ∧ Claim.Alone st ∧ 64 + Claim.heldNames (curG st) ≤ (curG st).slots.length ∧
    (curG st).slots.length < 65 + Claim.heldNames (curG st) ∧ (curG st).claim = none ∧ (Instr.rclaim 64 5).WellFormed ∧
    (curG st).slots.length + 64 ≤ 128 ∧ Claim.Full st [5] ∧ (getC st 0).claims = [] ∧ 64 ≤ (freeSlots st 0 0).length ∧
    128 < (curG st).slots.length + 65 ∧ (freeSlots st 0 0).length < 128 :=
  ⟨by decide, by unfold Claim.Alone; decide, by decide, by decide, by decide, by decide, by decide, by unfold Claim.Full; decide, by decide, by decide +kernel,
    by decide, by decide +kernel⟩

/-! Capabilities. -/

theorem test_meets_CapabilityBounds : capDecode (capOver 0 0x7F 0x5000000000 0x5000010000) ≠ none ∧
    (0x5000000000 : BitVec 56).toNat ≤ 2 ^ 56 := by decide
/-- The bounds that `cbnd` asks for lie inside, and reach past the end. -/
def bounded (v : DWord) : State := on fun g => { g with c := [(2, capOver 0 0x7F 0x5000000000 0x5000010000)], s := [(24, v)] }
theorem test_meets_CapabilityDerivations : Claim.Full (bounded 0x100) [24] ∧ cIsEmpty (curG (bounded 0x100)) 2 = false ∧
    Claim.Sound (cReg (curG (bounded 0x100)) 2) ∧ ¬Claim.Sound (cReg (curG (bounded 0x100)) 5) ∧
    cIsEmpty (curG (on fun g => { g with cEmpty := 4 })) 2 = true ∧
    capDecode (capWithBounds (cReg (curG (bounded 0x100)) 2) 0x5000000000 0x5000000100) = some (0x5000000000, 0x5000000100) ∧
    capDecode (capWithBounds (cReg (curG (bounded 0x10001)) 2) 0x5000000000 0x5000010001) = some (0x5000000000, 0x5000010001) ∧
    (BitVec.truncate 7 (0x100 : DWord) &&& ~~~(cReg (curG (bounded 0x100)) 2).perms = 0) ∧
    (BitVec.truncate 7 (0x20 : DWord) &&& ~~~(cReg (curG mem) 3).perms ≠ 0) :=
  ⟨by unfold Claim.Full; decide, by decide, by unfold Claim.Sound; decide, by unfold Claim.Sound; decide, by decide, by decide, by decide, by decide,
    by decide⟩
theorem test_meets_CapabilityDerivations_format : (let c : Cap := { Cap.null with tag := true, e := 31 }; c.tag = true ∧ capDecode c = none) := by decide
theorem test_meets_CapabilityRead : cIsEmpty (curG st) 2 = false ∧ Claim.Full st [5] ∧ (7 : BitVec 6).toNat < 8 ∧ 8 ≤ (8 : BitVec 6).toNat :=
  ⟨by decide, by unfold Claim.Full; decide, by decide, by decide⟩
theorem test_meets_TranslationRegisterBind : (curG mem).uid = mem.cur.uid ∧ Claim.Full mem [0] ∧ cIsEmpty (curG mem) 2 = false ∧
    Claim.Sound (cReg (curG mem) 2) ∧ (cReg (curG mem) 2).space = 0 ∧ (cReg (curG mem) 3).space ≠ 0 ∧ ¬Claim.Sound (cReg (curG mem) 5) ∧
    capDecode (cReg (curG mem) 2) = some (0x5000000000, 0x5000010000) :=
  ⟨by decide, by unfold Claim.Full; decide, by decide, by unfold Claim.Sound; decide, by decide, by decide, by unfold Claim.Sound; decide, by decide⟩

theorem readable_of {s : State} {x : Claim.Access} (h : (∀ r ∈ x.vecs, r < (curG s).top ∧ r < (curG s).nNames ∧ vIsEmpty (curG s) r = false) ∧
    (∀ p ∈ x.evens, p.1 % p.2 = 0) ∧ (∀ r ∈ x.scal, sIsEmpty (curG s) r = false) ∧ (∀ k ∈ x.caps, cIsEmpty (curG s) k = false) ∧
    (curF s).redo = none) : Claim.Readable s x := h

/-- Some access of an instruction passes all checks, or the first fault is the one named. -/
def Passes (s : State) (i : Instr) : Prop :=
  i.WellFormed ∧ ∃ x, Claim.accessOf s i = some x ∧ x.addrs ≠ [] ∧ Claim.Readable s x ∧ Claim.firstFault s x = none
def Faults (s : State) (i : Instr) (c : Cause) : Prop :=
  i.WellFormed ∧ ∃ x, Claim.accessOf s i = some x ∧ x.addrs ≠ [] ∧ Claim.Readable s x ∧ (Claim.firstFault s x).map (·.1) = some c

theorem test_meets_AccessChecks : Passes mem (.sst 0 0 2 0 6 0 2) ∧ Faults mem (.sst 0 0 5 0 6 0 2) .capTag ∧
    ∃ x, Claim.accessOf parted (.vld 2 0 0 2 1 3 4) = some x ∧ x.addrs = [] ∧ Claim.Readable parted x :=
  ⟨⟨by decide, _, rfl, by decide +kernel, readable_of (by decide +kernel), by decide +kernel⟩,
    ⟨by decide, _, rfl, by decide +kernel, readable_of (by decide +kernel), by decide +kernel⟩,
    _, rfl, by decide +kernel, readable_of (by decide +kernel)⟩
theorem test_meets_MemoryRequests : Passes mem (.sst 0 0 2 0 6 0 2) ∧ ∃ f, Claim.formOf mem (.sst 0 0 2 0 6 0 2) = some f ∧
    ((placeAll mem f.acc (cReg (curG mem) 2) f.creg 4 (Claim.first f) f.exp [(0, 0x5000000000)]).toOption.map fun p => (p.1.length, p.2.length)) = some (1, 0) ∧
    (∀ p ∈ ((placeAll mem f.acc (cReg (curG mem) 2) f.creg 4 (Claim.first f) f.exp [(0, 0x5000000000)]).toOption.map (·.1)).getD [],
      Claim.NeedsRequest mem 1 p ∧ Claim.PagesAllow mem (cReg (curG mem) 2) f p) ∧
    Claim.SlotsFor (curG mem) f.dst f.whole ∧ f.dst = .none ∧ (getC mem 0).fifo.length + 2 ≤ 256 :=
  ⟨⟨by decide, _, rfl, by decide +kernel, readable_of (by decide +kernel), by decide +kernel⟩, _, rfl, by decide +kernel, by
    unfold Claim.NeedsRequest Claim.PagesAllow Claim.OnSome; decide +kernel, by unfold Claim.SlotsFor; decide +kernel, by decide, by decide⟩

/-- An access passes all checks, to unmapped stash bytes of a group of which nothing is outstanding. -/
def InStash (s : State) (i : Instr) (write : Bool) (kind : OpKind → Bool) : Prop :=
  (curG s).uid = s.cur.uid ∧ Passes s i ∧ ∃ x, Claim.accessOf s i = some x ∧ ∃ f, Claim.formOf s i = some f ∧ Claim.Calm s f ∧ Claim.InBank s x write ∧
    Claim.SlotsFor (curG s) f.dst f.whole ∧ kind f.kind = true
theorem test_meets_StashLoads : InStash mem (.sld 0 0 3 0 6 2) false isLoad :=
  ⟨by decide, ⟨by decide, _, rfl, by decide +kernel, readable_of (by decide +kernel), by decide +kernel⟩, _, rfl, _, rfl,
    by unfold Claim.Calm; decide +kernel, by unfold Claim.InBank; decide +kernel, by unfold Claim.SlotsFor; decide +kernel, by decide⟩
theorem test_meets_StashStores : InStash mem (.sst 0 0 3 0 6 0 2) true isStore :=
  ⟨by decide, ⟨by decide, _, rfl, by decide +kernel, readable_of (by decide +kernel), by decide +kernel⟩, _, rfl, _, rfl,
    by unfold Claim.Calm; decide +kernel, by unfold Claim.InBank; decide +kernel, by unfold Claim.SlotsFor; decide +kernel, by decide⟩
theorem test_meets_StashAtomics : InStash mem (.satom 0 0 1 0 3 0 6 0) true (fun k => match k with | .atomic _ _ => true | _ => false) :=
  ⟨by decide, ⟨by decide, _, rfl, by decide +kernel, readable_of (by decide +kernel), by decide +kernel⟩, _, rfl, _, rfl,
    by unfold Claim.Calm; decide +kernel, by unfold Claim.InBank; decide +kernel, by unfold Claim.SlotsFor; decide +kernel, by decide⟩

/-- Translation register 1 serves c2 over the page of `mem`. -/
def bound : State := on fun g => { g with xw := [(1, { XW.zero with valid := true, creg := 2, vpage := 0x500000, limit := 0x10000, rights := 0xF })] }
theorem test_meets_Translation : (curF mem).walked = [] ∧ (tlbFind (getC mem 0) 1 0x5000000000).isSome = true ∧
    tlbFind (getC st 0) 1 0x5000000000 = none ∧ (∀ n, n < 8 → (fget XW.zero (curG mem).xw n).valid = false) ∧
    Claim.xwTakes (fget XW.zero (curG bound).xw 1) 2 .load 0x5000000000 4 = true ∧
    Claim.xwTakes (fget XW.zero (curG bound).xw 0) 2 .load 0x5000000000 4 = false ∧ entryAt (getC st 0) 1 0 = none := by decide +kernel
/-- `mem` without the page in the TLB, and with a page that grants no store. -/
def unwalked : State := onCore id mem
def unwritable : State := onCore (fun c => { c with tlb := [{ ctx := 1, vbase := 0x500000, leaf := { dataLeaf with w := false } }] }) mem
theorem test_meets_TranslationFaults :
    (∃ x, Claim.accessOf unwalked (.sst 0 0 2 0 6 0 2) = some x ∧ x.addrs ≠ [] ∧ Claim.Readable unwalked x ∧ Claim.firstFault unwalked x = none ∧
      ∃ f, Claim.formOf unwalked (.sst 0 0 2 0 6 0 2) = some f ∧
        (match placeAll unwalked f.acc x.cap f.creg x.size (Claim.first f) f.exp x.addrs with | .error (.walk va) => va | _ => 0) = 0x5000000000) ∧
    ∃ x, Claim.accessOf unwritable (.sst 0 0 2 0 6 0 2) = some x ∧ x.addrs ≠ [] ∧ Claim.Readable unwritable x ∧ Claim.firstFault unwritable x = none ∧
      ∃ f, Claim.formOf unwritable (.sst 0 0 2 0 6 0 2) = some f ∧ Claim.SlotsFor (curG unwritable) f.dst f.whole ∧ x.row = false ∧
        ((placeAll unwritable f.acc x.cap f.creg x.size (Claim.first f) f.exp x.addrs).toOption.map fun p => (p.1.length, p.2.map (·.2.1))) =
          some (0, [.xltWrite]) ∧ (getC unwritable 0).fifo.length + 1 ≤ 256 :=
  ⟨⟨_, rfl, by decide +kernel, readable_of (by decide +kernel), by decide +kernel, _, rfl, by decide +kernel⟩,
    _, rfl, by decide +kernel, readable_of (by decide +kernel), by decide +kernel, _, rfl, by unfold Claim.SlotsFor; decide +kernel, by decide +kernel,
    by decide +kernel, by decide +kernel⟩

/-- The first stash line is mapped, a word to each page; the TLB holds two pages, and the second grants no load. -/
def lacking : State :=
  onCore (fun _ => { getC mem 0 with
    maps := [(0, Claim.mapOf (capOver 0 0x7F 0x5000000000 0x5000100000) 1 0x8000000010000 32 0x100000000 0)],
    tlb := [{ ctx := 1, vbase := 0x500000, leaf := dataLeaf }, { ctx := 1, vbase := 0x500001, leaf := { dataLeaf with r := false, l := false } }] })
  { mem with groups := [(1, { curG mem with v := [(1, .g (0 :: 4 :: List.replicate 30 0))], split := [(0, frag 0 3)] })] }
theorem test_meets_TranslationFaults_fill : ∃ x, Claim.accessOf lacking (.vld 0 0 0 3 1 8 2) = some x ∧ x.addrs ≠ [] ∧ Claim.Readable lacking x ∧
    Claim.firstFault lacking x = none ∧ (getC lacking 0).ranges = [] ∧ ∃ f, Claim.formOf lacking (.vld 0 0 0 3 1 8 2) = some f ∧
      ((placeAll lacking f.acc x.cap f.creg x.size (Claim.first f) f.exp x.addrs).toOption.map fun p => (p.1.length, p.2.map fun u => (u.1, u.2.1))) =
        some (1, [(1, .xltRead)]) ∧
      ∀ p ∈ ((placeAll lacking f.acc x.cap f.creg x.size (Claim.first f) f.exp x.addrs).toOption.map (·.1)).getD [], Claim.PagesAllow lacking x.cap f p ∧
        fillsLacking lacking { Claim.opOfForm lacking (.vld 0 0 0 3 1 8 2) f x.line [p] with id := 0, seq := 0, keep := true } ≠ [] :=
  ⟨_, rfl, by decide +kernel, readable_of (by decide +kernel), by decide +kernel, by decide +kernel, _, rfl, by decide +kernel, by
    unfold Claim.PagesAllow; decide +kernel⟩

/-- c4 is over tile 0 of the task; a matrix operation owns it, where `own` says so. -/
def tiled (own : Bool) : State := onCore (fun c => { c with towner := if own then [(0, 7)] else [] }) mem
theorem test_meets_TileTransfers : Passes (tiled false) (.tld 0 0 4 1 2) ∧ Passes (tiled false) (.tst 0 0 0 4 1 2) ∧ Passes (tiled true) (.tst 0 0 0 4 1 2) ∧
    Passes mem (.pfch 0 0 0 2 0) ∧ Claim.owned (tiled false) 0 = false ∧ Claim.owned (tiled true) 0 = true :=
  ⟨⟨by decide, _, rfl, by decide +kernel, readable_of (by decide +kernel), by decide +kernel⟩,
    ⟨by decide, _, rfl, by decide +kernel, readable_of (by decide +kernel), by decide +kernel⟩,
    ⟨by decide, _, rfl, by decide +kernel, readable_of (by decide +kernel), by decide +kernel⟩,
    ⟨by decide, _, rfl, by decide +kernel, readable_of (by decide +kernel), by decide +kernel⟩, by decide +kernel, by decide +kernel⟩

/-! `vqnt`, `xshf`, stash maps. -/

/-- Entry 5 of the core is of context 1, with a scale in the stash; j of each thread is `j`. -/
def quantised (fmt : BitVec 4) (j : Word) : State :=
  onCore (fun c => { c with tids := [(5, { Claim.noTid with fmt, ctx := 1, scv := true })], roles := (getC mem 0).roles, gowner := (getC mem 0).gowner }) <|
  onTask (fun _ => getT mem 1) (on fun g => { g with v := [(3, .u j)] })
theorem test_meets_QuantiseInstruction : (Instr.vqnt 0 0 5 2 4).WellFormed ∧ Claim.Usable (curG (quantised 0 0)) [(2, true), (4, false)] ∧
    Claim.Room (quantised 0 0) 0 (4, false) 2 ∧ (getC (quantised 0 0) 0).fifo = [] ∧ (curF (quantised 0 0)).redo = none ∧ (ffind (getC st 0).tids 5).all (fun e => e.ctx != (curG st).ctx) = true ∧
    (∀ f ∈ ([0, 2] : List (BitVec 4)), (ffind (getC (quantised f 0) 0).tids 5).map (fun e => (e.ctx, e.fmt)) = some (1, f)) ∧
    (((List.range 32).filter (Claim.Active (quantised 0 0) 0)).any fun k => (vAt (vReg (curG (quantised 0 0x80000000)) 3) k).getLsbD 31) = true ∧
    Claim.inSpace (quantised 0 0) 1 0 4 = true ∧ (entryAt (getC (quantised 0 0) 0) 1 0).isNone = true ∧
    (∀ n, n < 4 → (fget Watch.zero (getC (quantised 0 0) 0).watches n).en = false) :=
  ⟨by decide, by unfold Claim.Usable Claim.Named Claim.Filled; decide +kernel, by unfold Claim.Room; decide +kernel, by decide, by decide, by decide,
    by decide, by decide +kernel, by decide +kernel, by decide +kernel, by decide⟩
/-- s5 names the core of a partner, and a key. -/
def exchanging : State := on fun g => { g with s := [(5, 0x700000002)] }
theorem test_meets_ExchangeRequest : Claim.Usable (curG exchanging) [(2, false), (4, false)] ∧ Claim.Full exchanging [5] ∧
    Claim.Room exchanging 0 (4, false) 2 ∧ exchanging.records = [] ∧ (curG exchanging).stuck = [] ∧ (sReg (curG exchanging) 5).toNat % 2 ^ 32 = 2 ∧
    (sReg (curG st) 5).toNat % 2 ^ 7 / 2 = (curG st).core / 2 :=
  ⟨by unfold Claim.Usable Claim.Named Claim.Filled; decide, by unfold Claim.Full; decide, by unfold Claim.Room; decide +kernel, by decide, by decide, by decide, by decide⟩

/-- s8 to s11 describe 32 fields of 4 bytes, 64 apart, in the first stash line; `maps` are the entries that there are. -/
def toMap : Group → Group := fun g => { g with s := [(8, 0x8000000000040), (9, 32), (10, 0x100000000), (11, 0)] }
def map0 : MapEntry := Claim.mapOf (cReg (curG mem) 2) 1 0x8000000000040 32 0x100000000 0
def mapping (maps : List (Nat × MapEntry)) : State :=
  onTask (fun _ => getT mem 1) <| onCore (fun _ => { getC mem 0 with maps }) <| on fun g => toMap { g with c := (curG mem).c }
theorem test_meets_StashMap : (Instr.smap 8 2 12).WellFormed ∧ Claim.Full (mapping []) [8, 9, 10, 11, 12] ∧ Claim.Sound (cReg (curG (mapping [])) 2) ∧
    ¬Claim.MapFormed (Claim.mapOf (cReg (curG mem) 2) 1 0 0 0 0) 0 0 0 0 [] ∧
    Claim.MapFormed map0 0x8000000000040 32 0x100000000 0 [] ∧ Claim.InStash (mapping []) (Claim.mapLo map0) (Claim.mapHi map0) ∧ map0.gath = false ∧
    Claim.Reaches map0 ∧ (getC (mapping []) 0).maps = [] ∧
    Claim.Renewed map0 { map0 with fills := 3 } ∧ (getC (mapping [(0, { map0 with fills := 3 })]) 0).maps = [(0, { map0 with fills := 3 })] :=
  ⟨by decide, by unfold Claim.Full; decide, by unfold Claim.Sound; decide +kernel, fun h => absurd h.2.1.1 (by decide +kernel),
    by unfold Claim.MapFormed Claim.Apart; decide +kernel, by unfold Claim.InStash; decide +kernel, by decide, by unfold Claim.Reaches Claim.OnSome; decide +kernel,
    by decide, by decide +kernel, by decide⟩
/-- The first stash word of the entry is dirty. -/
def dirty : State := onCore (fun _ => { getC mem 0 with maps := [(0, map0)], swords :=
  [(0, { SWord.zero with v := true, d := true, bound := [some 0x20000000, some 0x20000001, some 0x20000002, some 0x20000003] })] }) (mapping [])
theorem test_meets_StashMaintenance : Claim.Settled dirty 0 ∧ Claim.Full dirty [5, 9] ∧ (entryAt (getC dirty 0) 1 0).isSome = true ∧
    entryAt (getC dirty 0) 1 0x80 = none ∧ (sReg (curG dirty) 5).toNat = 0 ∧ (sReg (curG dirty) 9).toNat = 32 ∧
    (Instr.sflush 0 9 3).WellFormed ∧ (Instr.sinval 0 9 3).WellFormed ∧
    Claim.RangeAllowed dirty (cReg (curG dirty) 3) Claim.pR 32 ∧ Claim.RangeAllowed dirty (cReg (curG dirty) 3) (Claim.pR ||| Claim.pW) 32 ∧
    (Claim.dirtyBytes dirty 0 (Claim.mappedIn dirty 0 32)).length = 4 :=
  ⟨by unfold Claim.Settled; decide +kernel, by unfold Claim.Full; decide, by decide +kernel, by decide +kernel, by decide, by decide, by decide, by decide,
    by unfold Claim.RangeAllowed Claim.Sound Claim.OnSome; decide +kernel, by unfold Claim.RangeAllowed Claim.Sound Claim.OnSome; decide +kernel,
    by decide +kernel⟩

/-! Locks, monitors, barriers, fences, teams, `launch`. -/

def place (s : State) (a : Acc) (size : Nat) : Option (List Nat × Nat) :=
  (placeAll s a (cReg (curG s) 2) (some 2) size (fun _ => 0) (fun _ => 0) [(0, 0x5000000000)]).toOption.map fun p => (p.1.map (·.place), p.2.length)
/-- A state with the capabilities of `mem`, in which the group holds the lock of the line of c2. -/
def locked : State := { mem with groups := [(1, { curG mem with locks := [{ held with line := 0x20000000 / 128 }] })] }
def full8 : State := { mem with groups := [(1, { curG mem with locks := List.replicate 8 held })] }
theorem test_meets_LockInstructions : (∀ i ∈ [Instr.lckAcq 2 5 6 7, .lckTry 2 6 7, .lckRel 2 6, .lckStat 2 6 7], i.WellFormed) ∧
    (∀ s ∈ [mem, locked, full8], Claim.Full s [5, 7] ∧ Claim.Readable s (Claim.oneAccess s 2 6 (Claim.pL ||| Claim.pR) 0 128 .lckAlign) ∧
      Claim.firstFault s (Claim.oneAccess s 2 6 (Claim.pL ||| Claim.pR) 0 128 .lckAlign) = none ∧
      place s .lock 128 = some ([0x20000000], 0)) ∧
    (curG mem).locks = [] ∧ (∃ e ∈ (curG locked).locks, e.line = 0x20000000 / 128 ∧ e.granted = true) ∧ (curG full8).locks.length = 8 ∧
    (Claim.firstFault st (Claim.oneAccess st 2 6 (Claim.pL ||| Claim.pR) 0 128 .lckAlign)).map (·.1) = some .capTag :=
  ⟨by decide, by unfold Claim.Readable Claim.Full; decide +kernel, by decide, by decide, by decide, by decide +kernel⟩
theorem test_meets_MonitorWait : (Instr.mwait 2 5 6 7).WellFormed ∧ Claim.Full mem [5, 7] ∧ Claim.Readable mem (Claim.oneAccess mem 2 6 Claim.pR 0 4 .monForm) ∧
    Claim.firstFault mem (Claim.oneAccess mem 2 6 Claim.pR 0 4 .monForm) = none ∧
    place mem .monitor 4 = some ([0x20000000], 0) ∧
    (Claim.firstFault st (Claim.oneAccess st 2 6 Claim.pR 0 4 .monForm)).map (·.1) = some .capTag :=
  ⟨by decide, by unfold Claim.Full; decide, readable_of (by decide +kernel), by decide +kernel, by decide +kernel, by decide +kernel⟩

/-- A barrier word at stash address 0 with ARR `a` and EXP `e`. -/
def barrier (a e : Byte) : State := onCore (fun _ => { getC mem 0 with stash := (if a = 0 then [] else [(0, a)]) ++ if e = 0 then [] else [(2, e)] }) mem
def barrierAccess (s : State) : Claim.Access := Claim.oneAccess s 3 6 (Claim.pR ||| Claim.pW) 1 8 .barrAddr
/-- The word is in reach of the barrier instructions, with these fields. -/
def AtBarrier (a e : Byte) : Prop :=
  let s := barrier a e
  Claim.Full s [7] ∧ Claim.Readable s (barrierAccess s) ∧ Claim.firstFault s (barrierAccess s) = none ∧
    (barrierAccess s).addrs.map (fun p => p.2.toNat) = [0] ∧ entryAt (getC s 0) 1 0 = none ∧ Claim.bArr (Claim.wordAt s 0 0) = a.toNat ∧
    Claim.bExp (Claim.wordAt s 0 0) = e.toNat
theorem test_meets_BarrierForm : AtBarrier 0 0 ∧ AtBarrier 2 1 ∧ AtBarrier 2 2 ∧
    ∀ i ∈ [Instr.barrArr 3 6 7, .barrAw 3 6 7, .barrDrop 3 6 7], i.WellFormed :=
  ⟨⟨by unfold Claim.Full; decide, readable_of (by decide +kernel), by decide +kernel, by decide +kernel, by decide, by decide, by decide⟩,
    ⟨by unfold Claim.Full; decide, readable_of (by decide +kernel), by decide +kernel, by decide +kernel, by decide, by decide, by decide⟩,
    ⟨by unfold Claim.Full; decide, readable_of (by decide +kernel), by decide +kernel, by decide +kernel, by decide, by decide, by decide⟩, by decide⟩
theorem test_meets_BarrierArrival : AtBarrier 1 2 ∧ (curG (barrier 1 2)).ops = [] ∧ Claim.unfinished (barrier 1 2) = false ∧
    (getC (barrier 1 2) 0).fifo = [] ∧ (getC (barrier 1 2) 0).arrivals = [] ∧ (getC (barrier 1 2) 0).ranges = [] ∧
    ([{ line := 5, mask := 1, uid := 1, op := 1, marker := false, acked := false }] : List FifoEnt).all (fun e => e.uid == (curG (barrier 1 2)).uid) = true ∧ (barrier 1 2).records = [] ∧ (getC (barrier 1 2) 0).watches = [] ∧
    (entryAt (getC dirty 0) 1 0).isSome = true :=
  ⟨⟨by unfold Claim.Full; decide, readable_of (by decide +kernel), by decide +kernel, by decide +kernel, by decide, by decide, by decide⟩,
    by decide, by decide, by decide, by decide, by decide, by decide, by decide, by decide, by decide +kernel⟩

/-- A store of the fragment is outstanding. -/
def outstanding : State := on fun g => { g with ops := [{ Claim.opWith st .nop .store .none [] none none with id := 1, seq := 1 }] }
theorem test_meets_Fences : (Instr.fence 2 3).WellFormed ∧ Claim.fenceWaits st (some 3) 2 = false ∧ Claim.fenceWaits outstanding (some 3) 2 = true ∧
    (Instr.fence 0 3).WellFormed ∧ Instr.WellFormed .ntdrain ∧ Claim.fenceWaits st none 0 = false := by decide
theorem test_meets_Teams : (Instr.tjoin 63 5).WellFormed ∧ st.cur.entry < 8 ∧ (curF st).valid = true ∧ (curG st).team = none ∧ Claim.teamSize st 63 < 64 ∧
    Claim.Alone st ∧ Claim.Full st [5] ∧ (curG (on fun g => { g with team := some 63 })).team = some 63 :=
  ⟨by decide, by decide, by decide, by decide, by decide, by unfold Claim.Alone; decide, by unfold Claim.Full; decide, by decide⟩

/-- Queue 0 is registered to a context, its control block at 0x30000000 has the bit EN set. -/
def queued (ctx : BitVec 12) : State :=
  { onHomes (fun h => { h with mem := [(0x30000007, 0x80)] }) mem with
    queues := [(0, { ctx, cores := [], cb := 0x30000000, eligible := false, current := none, last := none })] }
theorem test_meets_LaunchDenied : (Instr.launch 2 6 5).WellFormed ∧ Claim.Full (queued 2) [5, 6] ∧ (sReg (curG (queued 2)) 5).toNat = 0 ∧
    (ffind (queued 2).queues 0).map (·.ctx) = some 2 ∧ (curG (queued 2)).ctx = 1 ∧ (curG (queued 2)).cEmpty.getLsbD 2 = false :=
  ⟨by decide, by unfold Claim.Full; decide, by decide, by decide, by decide, by decide⟩
theorem test_meets_LaunchInstruction : (Instr.launch 2 6 5).WellFormed ∧ Claim.Full (queued 1) [5] ∧ (ffind (queued 1).queues 0).map (·.ctx) = some 1 ∧
    ((ffind (queued 1).queues 0).map fun q => Claim.blockBits (queued 1) q 63 1) = some 1 ∧
    (let x := { Claim.oneAccess (queued 1) 2 6 Claim.pR 0 64 .memAlign with align := 1 }
     Claim.Readable (queued 1) x ∧ Claim.firstFault (queued 1) x = none ∧ x.addrs.map (·.2) = [0x5000000000]) :=
  ⟨by decide, by unfold Claim.Full; decide, by decide, by decide +kernel, by unfold Claim.Readable Claim.Full; decide +kernel, by decide +kernel, by decide +kernel⟩

/-! Engine commands, matrix operations, graph nodes, tensor entries, stage rings. -/

/-- The state `mem` with s5 = 16 and other counters; node 0 of the core is open. -/
def commanding (ec : Nat) : State :=
  { mem with groups := [(1, { curG mem with s := [(5, 16)], ec := if ec = 0 then [] else [(0, ec), (2, ec)] })],
             cores := [(0, { getC mem 0 with nodes := [(0, { Node.zero with st := .openN, ctx := 1 })] })] }
/-- An engine command of a state, whose checks pass or fail with a cause, and its node. -/
def Ordered (s : State) (i : Instr) (c : Option Cause) (node : Option Nat) : Prop :=
  i.WellFormed ∧ ∃ x, Claim.orderOf s i = some x ∧ Claim.Full s x.scal ∧ (∀ k ∈ x.caps, cIsEmpty (curG s) k = false) ∧
    (x.checks.findSome? id).map (·.1) = c ∧ (x.node.bind fun r => Claim.openNode s (sReg (curG s) r)) = node
theorem test_meets_EngineCommands : Ordered (commanding 0) (.cpy 0 2 3 5 0) none none ∧ Ordered (commanding 63) (.cpy 1 2 3 5 6) none (some 0) ∧
    Ordered (commanding 0) (.cpy 1 2 3 5 5) none none ∧ Ordered (commanding 0) (.cpy 0 2 5 5 0) (some .capTag) none ∧
    fget 0 (curG (commanding 63)).ec 0 = 63 ∧ fget 0 (curG (commanding 0)).ec 0 ≠ 63 :=
  ⟨⟨by decide, _, rfl, by unfold Claim.Full; decide +kernel, by decide +kernel, by decide +kernel, by decide +kernel⟩,
    ⟨by decide, _, rfl, by unfold Claim.Full; decide +kernel, by decide +kernel, by decide +kernel, by decide +kernel⟩,
    ⟨by decide, _, rfl, by unfold Claim.Full; decide +kernel, by decide +kernel, by decide +kernel, by decide +kernel⟩,
    ⟨by decide, _, rfl, by unfold Claim.Full; decide +kernel, by decide +kernel, by decide +kernel, by decide +kernel⟩, by decide +kernel, by decide +kernel⟩

/-- Both cores of the pair have entry 1 of context 1, in format 0. -/
def matrices (ec : Nat) : State :=
  let tids := [(1, { Claim.noTid with ctx := 1 })]
  { commanding ec with cores := [(0, { getC mem 0 with tids }), (1, { Core.reset with tids })] }
def Computed (s : State) (i : Instr) (c : Option Cause) : Prop :=
  i.WellFormed ∧ ∃ x, Claim.matrixForm s i = some x ∧ (x.1.findSome? id).map (·.1) = c ∧ Claim.MatrixRoom s x.2
theorem test_meets_MatrixOperations : Computed (matrices 0) (.mma 1 1 1 0) none ∧ Computed (matrices 63) (.mzero 0) none ∧
    Computed mem (.mzero 5) (some .spaceRange) ∧ fget 0 (curG (matrices 63)).ec 2 = 63 ∧ fget 0 (curG (matrices 0)).ec 2 ≠ 63 :=
  ⟨⟨by decide, _, rfl, by decide +kernel, by unfold Claim.MatrixRoom; decide +kernel⟩, ⟨by decide, _, rfl, by decide +kernel, by unfold Claim.MatrixRoom; decide +kernel⟩,
    ⟨by decide, _, rfl, by decide +kernel, by unfold Claim.MatrixRoom; decide +kernel⟩, by decide +kernel, by decide +kernel⟩

/-- Node 0 is open; node 1 has the state `x`; s6 names node 1; s8 to s11 hold an entry's words. -/
def linked (x : NodeSt) : State :=
  onCore (fun c => { c with nodes := [(0, { Node.zero with st := .openN, ctx := 1 }), (1, { Node.zero with st := x, ctx := 1, gen := if x = .free then 1 else 0 })] }) <|
  on fun g => { g with s := [(6, 1), (8, 1)] }
theorem test_meets_NodesAndTensors : (Instr.gnode 5).WellFormed ∧ (Instr.glink 5 6).WellFormed ∧ Claim.Full (linked .armed) [5, 6, 8, 9, 10, 11] ∧
    (curG st).role.toNat < 2 ∧ (Claim.nodeAt st 0).st = .free ∧ Claim.openNode (linked .armed) (sReg (curG (linked .armed)) 5) = some 0 ∧
    (sReg (curG (linked .armed)) 6).toNat = 1 ∧ (Claim.nodeAt (linked .armed) 1).gen = 0 ∧ (Claim.nodeAt (linked .armed) 1).ctx = 1 ∧
    (Claim.nodeAt (linked .armed) 1).succs.length ≠ 8 ∧ (Claim.nodeAt (linked .armed) 0).count ≠ 255 ∧ (Claim.nodeAt (linked .done) 1).st = .done ∧
    (Claim.nodeAt (linked .free) 1).gen ≠ 0 ∧ (Instr.tdesc 127 8).WellFormed ∧ (Instr.tdget 127 8).WellFormed ∧
    Claim.four (curG (linked .armed)) 8 % 2 = 1 ∧ Claim.four (curG st) 8 % 2 = 0 :=
  ⟨by decide, by decide, by unfold Claim.Full; decide, by decide, by decide, by decide, by decide, by decide, by decide, by decide, by decide, by decide,
    by decide, by decide, by decide, by decide, by decide⟩
theorem test_meets_EngineWait : (Instr.ewait 62 3).WellFormed ∧ fget 0 (curG st).ec 3 ≤ 62 ∧ 62 < fget 0 (curG (commanding 63)).ec 2 ∧
    (Instr.ewait 62 2).WellFormed := by decide

/-- Ring 0 of the task has two slots, of which the first has the state `x`. -/
def ringed (x : RingSlot) : State :=
  onTask (fun t => { t with rings := [(0, { base := 0, count := 2, slines := 1, prod := 0, cons := 0, slots := [x, .e], p := 0, c := 0 })] }) st
theorem test_meets_StageRings : (Instr.ringPut 0 5).WellFormed ∧ (Instr.ringGet 0 5).WellFormed ∧ (Instr.ringPut 0 0).WellFormed ∧ (Instr.ringGet 0 0).WellFormed ∧
    Claim.Full st [0, 5] ∧ (∀ x ∈ ([.e, .f, .w 0, .r 0] : List RingSlot), ((ffind (getT (ringed x) 1).rings 0).map (·.slots)) = some [x, .e] ∧ Claim.Quiet (ringed x)) ∧
    (curG (ringed .e)).taskg = 0 :=
  ⟨by decide, by decide, by decide, by decide, by unfold Claim.Full; decide, by unfold Claim.Quiet; decide, by decide⟩

/-! Requests at their homes, and the events that follow. -/

def line0 : Nat := 0x20000000 / 128
def word0 (val : DWord) : Piece := { thread := 0, space := 0, place := 0x20000000, size := 4, val, exp := 0, shown := 0x5000000000, gen := 0, mode := 0, mbf := 0, bound := [] }
/-- Request 3 of operation 7 of the group, for a word of the line. -/
def request (kind : ReqKind) : Req := { newReq (.group 1 7) 0 1 kind line0 with id := 3, pieces := [word0 5] }
/-- The group's operation 7, which waits for one answer. -/
def awaiting (kind : OpKind) (left : Nat) : Op := { Claim.opWith st .nop kind .none [word0 5] none none with id := 7, left }
def asked (q : Req) : State := { on (fun g => { g with ops := [awaiting .store 1] }) with reqs := [(3, q)], nextId := 8 }
def holderOf (h : Option Nat) (q : List Waiter) : Homes → Homes := fun x => { x with locks := [(line0, { Lock.free with holder := h, queue := q })] }
def atHome (f : Homes → Homes) (q : Req) : State := onHomes f (asked q)
theorem test_meets_HomeArrivals : Claim.Idle (getR (asked (request .read)) 3) 3 ∧ Claim.homeEvent (request .read) (.homeRead 3) = some false ∧
    Claim.homeEvent (request .write) (.homeWriteThrough 3) = some true ∧ Claim.homeEvent (request .own) (.homeOwnership 3) = some true ∧
    Claim.homeEvent (request (.atomic (.add 4) false)) (.homeAtomic 3) = some true ∧
    Claim.homeEvent { request .read with mode := 1 } (.leaseRead 3) = some false ∧
    Claim.Outdated (asked { request .read with gen := 1 }) { request .read with gen := 1 } ∧ ¬Claim.Outdated (asked (request .read)) (request .read) ∧
    Claim.LockedOut (atHome (holderOf (some 9) []) (request .write)) (request .write) ∧
    Claim.Waits { asked (request .write) with reqs := [(2, { request .write with id := 2, busy := true }), (3, request .write)] } (request .write) ∧
    ¬Claim.Waits (asked (request .write)) (request .write) ∧ ¬Claim.LockedOut (asked (request .write)) (request .write) ∧
    (Claim.takenUp (asked (request .read)) (request .read)).isSome = true ∧ (getX (asked (request .read)) 1).replay = none :=
  ⟨by unfold Claim.Idle; decide, by decide, by decide, by decide, by decide, by decide, by unfold Claim.Outdated; decide, by unfold Claim.Outdated; decide,
    by unfold Claim.LockedOut; decide, by unfold Claim.Waits; decide +kernel, by unfold Claim.Waits; decide +kernel, by unfold Claim.LockedOut; decide,
    by decide +kernel, by decide⟩

/-- The pair cache of pair 0 owns a word of the line. -/
def owner : State := onHomes (fun h => { h with dir := [(line0, { DirEntry.empty with owners := [{ pair := 0, unit := 0, mask := 1 }] })] }) st
theorem test_meets_CoherenceEvents : (lockAt owner line0).holder = none ∧
    (∃ o ∈ (dirAt owner line0).owners, o.pair.toNat = 0 ∧ o.unit = 0 ∧ o.mask &&& 1 = 1) ∧
    (let q := { request .read with busy := true, acks := 1 }
     Claim.Working (asked q) 3 ∧ 0 < (getR (asked q) 3).acks ∧ (getR (asked q) 3).kind = .read) ∧
    (let q := { request .write with busy := true }
     Claim.Working (asked q) 3 ∧ (getR (asked q) 3).acks = 0 ∧ isGroupReq q = true ∧ q.merged = [] ∧ ownerOf (dirAt (asked q) line0) 0 = none ∧
       Claim.Lone q (0x20000000, 5)) ∧
    (let q := { request .read with done := true }
     (getR (asked q) 3).done = true ∧ Claim.ofGroup q = some (1, 7) ∧ (getG (asked q) 1).uid = 1) ∧
    (let q := { request .read with gen := 1 }
     (getR (asked q) 3).gen ≠ fget 0 (asked q).homes.gens (line0 * 128 / 65536) ∧ ∀ p ∈ q.pieces, p.space ≠ 1) :=
  ⟨by decide, by decide +kernel, ⟨by unfold Claim.Working; decide, by decide, by decide⟩,
    ⟨by unfold Claim.Working; decide, by decide, by decide, by decide, by decide +kernel, by unfold Claim.Lone; decide +kernel⟩, by decide, by decide +kernel⟩

/-- A release whose marker is at the head of the FIFO, and a held store that nothing holds. -/
def markedOp (rel : Option (BitVec 3)) : State :=
  onCore (fun c => { c with fifo := if rel.isSome then [{ line := 0, mask := 0, uid := 1, op := 7, marker := true, acked := false }] else [] }) <|
  on fun g => { g with ops := [{ awaiting .store 0 with held := true, rel }] }
/-- Two equal atomics of a group in flight; `done` after the answer of both. -/
def merging (done : Bool) : State :=
  let q (n : Nat) : Req := { request (.atomic (.add 4) false) with id := n, done, merged := if done && n == 3 then [4] else [] }
  { st with reqs := [(3, q 3), (4, q 4)], agenda := [.homeAtomic 3, .homeAtomic 4], nextId := 8 }
theorem test_meets_CoherenceEvents_release : ((opOf (getG (markedOp (some 4)) 1) 7).map (sendEvent (markedOp (some 4)) (getG (markedOp (some 4)) 1))) =
      some (some (.releaseMarkerHead 0)) ∧
    ((opOf (getG (markedOp none) 1) 7).map (sendEvent (markedOp none) (getG (markedOp none) 1))) = some (some (.heldAccessRelease 1 7)) ∧
    mayMerge (getR (merging false) 3) (getR (merging false) 4) = true ∧ (getR (merging true) 3).merged = [4] ∧
    (∀ k ∈ [3, 4], (getR (merging true) k).id = k ∧ isGroupReq (getR (merging true) k) = true) ∧
    (let q := { request .write with busy := true, mode := 1 }
     Claim.Working (asked q) 3 ∧ tsBefore (eclk (asked q) + 0x2000#16) (leaseStamp (asked q) line0 q.pts) = false) ∧
    (ffind { st with fills := [(2, { core := 0, line := 0, entry := 0, uid := none, parked := false, counted := false })] }.fills 2).isSome = true :=
  ⟨by decide +kernel, by decide +kernel, by decide, by decide, by decide, ⟨by unfold Claim.Working; decide, by decide +kernel⟩, by decide⟩

/-! Firmware, images, the debugger. -/

def onDie (f : Die → Die) (s : State) : State := { s with dies := [(0, f Die.reset)] }
theorem test_meets_FirmwareEvents : (0x2000 : BitVec 52).toNat % 8192 = 0 ∧ (getDie st 0).recovery = false ∧ 0 < ndie st.part ∧
    (getDie (onDie (fun d => { d with recovery := true }) st) 0).recovery = true ∧ st.gtick.toNat % (getDie st 0).ageint = 0 ∧
    (getDie (onDie (fun d => { d with opChange := true }) st) 0).opChange = true := by decide
/-- No context is live, and the extent list holds the image. -/
def imaged : State :=
  { State.reset with ckpt := { State.reset.ckpt with extents := [(0x1000, hbmSize State.reset.part + hbmSize State.reset.part / 128)], quiesced := true } }
theorem test_meets_MemoryImageEvents : imaged.ckpt.quiesced = true ∧ ckptQuiet imaged = true ∧ (∀ p ∈ imaged.ctxs, p.2.live = false) ∧
    (getDie imaged 0).recovery = false ∧ hbmSize imaged.part + hbmSize imaged.part / 128 ≤ (imaged.ckpt.extents.map fun e => e.2).sum ∧
    extentAddr imaged.ckpt.extents 5 = some 0x1005 ∧ 0 + 16 ≤ hbmSize imaged.part := by decide +kernel

/-- The task is a pipeline, its group has the role 1; the core samples every 64 cycles. -/
def roles (halted : List (BitVec 2)) : State := onTask (fun t => { t with halted, hdr := { t.hdr with pipe := true } }) (on fun g => { g with role := 1 })
def sampling : State := onCore (fun c => { c with sampctl := 0x4D }) st
theorem test_meets_DebuggerEvents : Claim.Alive st 1 ∧ (getG (on fun g => { g with hold := some 5 }) 1).hold.isSome = true ∧ 0 < ncore st.part ∧
    (ffind (roles []).tasks 1).isSome = true ∧ (getT (roles []) 1).hdr.pipe = true ∧ (getT (roles []) 1).halted.contains 1 = false ∧
    (getT (roles [1]) 1).halted.contains 1 = true ∧ { st with sten := true }.gtick = st.stopt ∧ (getDie st 0).gated = false ∧
    Claim.SampleAt sampling 0 0 ∧ Claim.SampleAt { sampling with gtick := 1 } 0 1 ∧ (getC sampling 0).sampctl.getLsbD 6 = true :=
  ⟨by unfold Claim.Alive; decide, by decide, by decide, by decide, by decide, by decide, by decide, by decide, by decide,
    by unfold Claim.SampleAt; decide +kernel, by unfold Claim.SampleAt; decide +kernel, by decide⟩

/-! Host memory and links. -/

theorem test_meets_HostAndLinkEvents :
    (∀ s ∈ [{ asked { request .read with mode := 2 } with nextId := 8 }], Claim.AwaitsHost s 3 ∧ (getDie s 0).hostq = [] ∧ (getG s 1).uid = 1) ∧
    (getDie (onDie (fun d => { d with hostq := [9] }) st) 0).hostq ≠ [] ∧ (getR (asked { request .write with mode := 2 }) 3).kind = .write ∧
    (∀ p ∈ (request .write).pieces, p.size ≤ 8) ∧ (∀ k ∈ (asked (request .read)).reqs.map (fun p => p.1), k < (asked (request .read)).nextId) ∧
    Claim.Up st 0 ∧ (getLink { st with links := [(0, { Link.reset with st := 1 })] } 0).st = 1 ∧
    (getLink { st with links := [(0, { Link.reset with st := 1, attempts := 7 })], gtick := 0x10000 } 0).retrySince + 2 ^ 16 ≤
      { st with gtick := 0x10000 }.gtick.toNat ∧ linkExists st 0 = true :=
  ⟨by unfold Claim.AwaitsHost; decide, by decide, by decide, by decide, by decide, by unfold Claim.Up; decide, by decide, by decide, by decide⟩

/-! Locks, monitors, barriers and exchanges at their homes. -/

def waiterOf (n : Nat) (e : Option Nat) : Waiter := { uid := 1, rq := n, expiry := e, since := 0 }
def lockReq (k : ReqKind) : Req := request k
def homeLock (h : Option Nat) (q : List Waiter) (k : ReqKind) : State := atHome (holderOf h q) (request k)
theorem test_meets_LockAndMonitorEvents_lock : (request (.lock 5 false)).kind = .lock 5 false ∧
    Claim.Current (homeLock none [] (.lock 5 false)) 3 ∧ Claim.AtRest (homeLock none [] (.lock 5 false)) (request (.lock 5 false)) ∧
    fget false (onHomes (fun h => { h with draining := [(line0 / 512, true)] }) st).homes.draining (line0 / 512) = true ∧
    (lockAt (homeLock (some 1) [] (.lock 5 false)) line0).holder = some 1 ∧ reqUid (request (.lock 5 false)) = 1 ∧
    (lockAt (homeLock none [] (.lock 5 false)) line0).queue = [] ∧ Claim.pinned (homeLock none [] (.lock 5 false)) (homeSlice line0) < 2048 ∧
    inTheWay (homeLock none [] (.lock 5 false)) (request (.lock 5 false)) = false ∧
    dirAt (onHomes (fun h => { h with dir := [(line0, { DirEntry.empty with used := 1 })] }) st) line0 ≠ DirEntry.empty ∧
    (lockAt (homeLock (some 9) [] (.lock 5 false)) line0).holder = some 9 ∧ Claim.waiters (homeLock (some 9) [] (.lock 5 false)) (homeSlice line0) < 8192 ∧
    (lockAt (homeLock (some 1) [waiterOf 4 none] .unlock) line0).queue.head? = some (waiterOf 4 none) :=
  ⟨by decide, by unfold Claim.Current; decide, by unfold Claim.AtRest; decide, by decide, by decide, by decide, by decide, by decide, by decide +kernel, by decide,
    by decide, by decide, by decide⟩
theorem test_meets_LockAndMonitorEvents_waiters : expiryDue (homeLock (some 9) [waiterOf 3 (some 0)] (.lock 0 false)) (lockAt (homeLock (some 9) [waiterOf 3 (some 0)] (.lock 0 false)) line0)
      (waiterOf 3 (some 0)) = true ∧
    (waiterOf 3 none).since + st.dlkprobe ≤ { st with gtick := 0x1000000 }.gtick.toNat ∧ chase st 1 64 [1] = true ∧ chase st 1 64 [9] = false ∧
    (let s := onCtx (fun x => { x with live := true, lholdlim := 5 }) { homeLock (some 1) [] .stat with gtick := 5 }
     (lockAt s line0).holder = some 1 ∧ (lockAt s line0).told = false ∧ (getX s (getG s 1).ctx).lholdlim ≠ 0 ∧
       (lockAt s line0).since + (getX s (getG s 1).ctx).lholdlim.toNat ≤ s.gtick.toNat ∧ ctxHalted s (getG s 1).ctx = false) ∧
    Claim.Current (homeLock none [] .stat) 3 ∧ (lockAt (onHomes (fun h => { h with locks := [(line0, { Lock.free with broken := true })] }) st) line0).broken = true ∧
    line0 / 512 * 2 ^ 16 < hbmSize st.part ∧
    fget false (onHomes (fun h => { h with raising := [(line0 / 512, true)] }) st).homes.raising (line0 / 512) = true :=
  ⟨by decide, by decide, by decide, by decide, by decide, by unfold Claim.Current; decide, by decide, by decide, by decide⟩
/-- Entry 2 watches the word, and its time has run out. -/
def watched : State := atHome (fun h => { h with mons := [{ id := 2, word := 0x20000000 / 4, gen := 0, uid := 1, entry := 0, rq := 3, expiry := some 0 }] }) (request (.monitor 0 5))
/-- A held arrival at stash address 0 that may count; one that has come; an exchange request, with its counterpart in the table. -/
def arriving : State :=
  let p := { word0 0 with space := 1, place := 0 }
  onCore (fun c => { c with fifo := [{ line := 0, mask := 0, uid := 1, op := 7, marker := true, acked := false }], arrivals := [(0, 1, 7)] }) <|
  on fun g => { g with ops := [{ awaiting (.barrier false false) 0 with held := true, rel := some 1, pieces := [p] }] }
def swap (n core partner : Nat) : Req := { newReq (.group 1 n) core 1 (.exchange 5 partner 0 [] 0) 0 with id := n }
def swapping (since : Nat) : State :=
  onCore (fun c => { c with xtable := [{ rq := 4, since, stale := false }] }) { st with reqs := [(3, swap 3 2 0), (4, swap 4 0 2)], nextId := 8, gtick := 0x1000000 }
theorem test_meets_LockAndMonitorEvents_others : Claim.Current (asked (request (.monitor 0 5))) 3 ∧
    readErr (asked (request (.monitor 0 5))) line0 (pieceMask (word0 5)) = false ∧ visWord (asked (request (.monitor 0 5))) (0x20000000 / 4) = 0 ∧
    visWord (asked (request (.monitor 7 5))) (0x20000000 / 4) ≠ 7 ∧
    (watched.homes.mons.head?.map fun m => (m.id, m.expiry, (getR watched m.rq).id == m.rq && isGroupReq (getR watched m.rq))) = some (2, some 0, true) ∧
    ((opOf (getG arriving 1) 7).map (sendEvent arriving (getG arriving 1))) = some (some (.barrierHeldArrival 1 7)) ∧
    (∃ x ∈ (getC arriving 0).arrivals, x.1 = 0 ∧ (opOf (getG arriving x.2.1) x.2.2).isSome = true) ∧
    Claim.bExp (Claim.wordAt (barrier 2 2) 0 0) = Claim.bArr (Claim.wordAt (barrier 2 2) 0 0) ∧
    exchanges (getR (swapping 0) 4) (getR (swapping 0) 3) = true ∧ (getC (swapping 0) 0).xtable.length < 64 ∧
    (0 : Nat) + 2 ^ 24 ≤ (swapping 0).gtick.toNat ∧ reqUid (getR (swapping 0) 4) = 1 :=
  ⟨by unfold Claim.Current; decide, by decide, by decide +kernel, by decide +kernel, by decide, by decide +kernel, by decide, by decide, by decide, by decide, by decide, by decide⟩

/-! Translation, queues and tasks. -/

/-- Tables of context 1 at address 0 that map the page at 0x10000 to itself; a queue's control block at 0x30000, its ring at page 1 with bits 15:8 as given, with a signal at 0x13000; a
descriptor at 0x11000, with the code capability of the loaded task; its kernel header at 0x12000, with 64 names and SFPB 1. -/
def paged (ring : Byte) : State :=
  let s := onHomes (fun h => { h with
    mem := [(0, 1), (8, 0xFD), (11, 1), (0x11001, 0x20), (0x11002, 1), (0x11008, 1), (0x11024, 0x40), (0x11027, 4), (0x11028, 5), (0x1102E, 0x20),
      (0x12004, 0x40), (0x12007, 63), (0x12008, 63), (0x12009, 64), (0x12014, 1), (0x30001, ring), (0x30002, 1), (0x30007, 0x81), (0x3000C, 1),
      (0x30011, 0x30), (0x30012, 1)],
    tags := [(0x11020 / 16, true)] }) (onCtx (fun x => { x with live := true, root := 0 }) st)
  { s with queues := [(0, { ctx := 1, cores := [3], cb := 0x30000, eligible := false, current := none, last := none })],
           disps := [(6, { queue := 0, ctx := 1, desc := Desc.zero, hdr := Header.zero, next := 1, live := 0, placed := true, done := false })] }
def queue0 : Queue := { ctx := 1, cores := [3], cb := 0x30000, eligible := false, current := none, last := none }
theorem test_meets_TranslationAndQueueEvents_serve : frozen (paged 0x10) = false ∧ ((pickQueues (paged 0xFF)).map fun p => p.1) = [0] ∧
    (match readHead (paged 0x10) 1 0x11000 with
      | .ok d h => d.ng = 1 && h.n == 64 && (placeTask (Claim.serving (paged 0x10) 0 queue0 d h).2 2 queue0 0).isSome
      | _ => false) = true ∧
    (match readHead (paged 0) 1 0x40000000000000 with | .refused => true | _ => false) = true := by decide +kernel
theorem test_meets_TranslationAndQueueEvents_queue : qServed (paged 0x10) queue0 = true ∧
    ((ffind (paged 0x10).disps 6).map (dispatchOver (paged 0x10) 6)) = some true ∧ queueWord (paged 0x10) queue0 128 56 = 0x13000 ∧
    (xlateNow (paged 0x10) 1 (.atomic false) 0x13000).toOption.isSome = true ∧ (launchCopy (paged 0x10) (2, 0) 1 0x40000000000000 0x11040).toOption = none ∧
    (launchCopy (paged 0x10) (2, 0) 1 0x11000 0x11040).toOption.isSome = true ∧
    (qHead (paged 0x10) queue0, qTail (paged 0x10) queue0, queueWord (paged 0x10) queue0 56 4) = (0, 1, 1) ∧ Claim.Current (asked (request (.launch 0))) 3 :=
  ⟨by decide +kernel, by decide +kernel, by decide +kernel, by decide +kernel, by decide +kernel, by decide +kernel, by decide +kernel, by unfold Claim.Current; decide⟩
/-- Walks for the fragment, in flight, and for translation register 1, which has found its leaf. -/
def walked : State := { paged 0x10 with
  groups := [(1, { curG mem with xw := [(2, { XW.zero with valid := true, expiry := 0 })] })],
  walks := [(2, { ctx := 1, core := 0, va := 0x11000, why := .frag 1 0, done := none }), (3, { ctx := 1, core := 0, va := 0x11000, why := .xwreg 1 1 2, done := none }),
            (4, { ctx := 1, core := 0, va := 0x5000000000, why := .xwreg 1 1 2, done := some (.leaf 0x500000 dataLeaf) })] }
theorem test_meets_TranslationAndQueueEvents_walks : (ffind walked.walks 2).bind Claim.forFrag = some (1, 0) ∧ (ffind walked.walks 3).bind Claim.forReg = some (1, 1, 2) ∧
    (walkTables walked 1 0x11000).toOption.isSome = true ∧ (ffind walked.walks 4).bind Claim.leafFound = some dataLeaf ∧
    (capDecode (cReg (getG walked 1) 2)) = some (0x5000000000, 0x5000010000) ∧ (getG walked 1).slot.isSome = true ∧
    (fget XW.zero (getG walked 1).xw 2).expiry = BitVec.truncate 32 walked.gtick ∧ st.gtick.toNat % 1024 = 0 ∧ 0x30000 % 64 = 0 := by decide +kernel

/-- Granule 0x50 of core 0 still has the stash role, and takes the cache role next. -/
def moving : State := onCore (fun c => { c with roles := [(0x5F, 2)], pend := true, blocked := some (1, 0) }) { st with gtick := 0x10000 }
/-- A record of a group that is off its lane, ready to return, on core 0. -/
def recordOf (cond : Cond) (ready : Bool) : Record :=
  { id := 5, uid := 1, ctx := 1, cond, prio := 0, reacq := false, ready, sfpd := false, body := true, held := false, frag := 0, pc := 0x40, mask := 1, evt := 0,
    dseq := 0, wait := 0, size := 1, owner := 0, place := { cached := true, spill := false, unit := 0 }, trap := none, why := none, wrote := [] }
def returning : State := { on (fun g => { g with slot := none, split := [(0, { frag 0x40 1 with st := 2 })] }) with records := [recordOf (.tile 0) true] }
/-- Two groups of a task in a role, with the timers run. -/
def unbalanced (role : BitVec 2) : State := { onTask (fun t => { t with
    ngroups := 2, loSince := if role = 2 then some 0 else none, hiSince := if role = 1 then some 0 else none, hdr := { t.hdr with pipe := true },
    rings := [(0, { base := 0, count := 1, slines := 1, prod := 1, cons := 2, slots := [if role = 1 then .f else .e], p := 0, c := 0 })] }) st with
  groups := [(1, { loadGroup with role }), (2, { loadGroup with uid := 2, role, taskg := 1, slot := some 1 })], gtick := 0x2000000, rbthresh := 1, rbhigh := 1, rbtime := 1 }
theorem test_meets_TaskEvents : nextMove moving 0 = some 0x5F ∧ ((relaunchSlot returning 0).map fun p => (p.1.id, p.1.frag)) = some (5, 0) ∧
    (getX returning 1).replay = none ∧ ofRequest returning (recordOf (.tile 0) true) = false ∧ (getC moving 0).blocked = some (1, 0) ∧
    (getC moving 0).stalled = false ∧ 0 + 65536 ≤ cycleOf moving 0 ∧ Claim.ranOut (unbalanced 2) 1 (getT (unbalanced 2) 1).loSince = true ∧
    Claim.fullCount (getT (unbalanced 2) 1) < 1 ∧ Claim.ofRole (unbalanced 2) 1 2 = 2 ∧ (chooseGroup (unbalanced 2) 1 2).isSome = true ∧
    Claim.ranOut (unbalanced 1) 1 (getT (unbalanced 1) 1).hiSince = true ∧ Claim.ranOut (unbalanced 1) 1 (getT (unbalanced 1) 1).loSince = false ∧
    1 ≤ Claim.fullCount (getT (unbalanced 1) 1) ∧ Claim.ofRole (unbalanced 1) 1 1 = 2 ∧ (chooseGroup (unbalanced 1) 1 1).isSome = true ∧
    (∃ p ∈ (getX (safePt none) 1).preempts, Claim.isLate (safePt none) 1 0 p (getG (safePt none) 1) = true) ∧ (getG (safePt none) 1).late = false ∧
    Claim.slotAt (.reading 0x11000) = some 0x11000 ∧ (Claim.slotRead (paged 0x10) 1 0x11000).isSome = true ∧ taskAlive (paged 0x10) 1 = true ∧
    (readVirt (paged 0x10) 1 .load 0x40000000000000 64).toOption = none := by decide +kernel

/-! Pre-emption, ends, and the engines. -/

/-- The group is off its lane, with a request for its core; a record is parked for firmware. -/
def saved : State := onCtx (fun x => { x with live := true, preempts := [{ core := 0, only := none, t0 := 0, restore := false }] })
  { on (fun g => { g with slot := none, split := [(0, { frag 0x40 1 with st := 2 })] }) with cmds := [(6, { cls := 0, num := 0, uid := 1, gid := 0, ctx := 1, task := 1, core := 0, kind := .copy Cap.null Cap.null 0, node := some 0, st := .armed, cancel := false, pts := 0, result := [] })] }
def parked : State := { onTask (fun t => { t with tvec := 0x100 }) saved with records := [{ recordOf (.faultRes .xltRead) false with trap := some TrapRegs.zero, why := some .xltRead }] }
def offCore : State := onTask (fun t => { t with off := true }) saved
theorem test_meets_PreemptionEvents : 0 < ncore st.part ∧ ctxHalted (roles [1]) 1 = true ∧ ctxHalted st 1 = false ∧ (getX st 1).preempts = [] ∧
    (∃ p ∈ (getX saved 1).preempts, p.core = 0 ∧ p.only = none ∧ saveReady saved 1 p = true) ∧ saved.records = [] ∧
    (∀ k ∈ saved.tasks, k.2.ctx = 1 → k.2.off = false) ∧ (∃ k ∈ offCore.tasks, k.2.ctx = 1 ∧ k.2.off = true ∧ k.2.core ∈ [0]) ∧
    (unitOf { st with gtick := 0x1000000 } 1).all (Claim.rested { st with gtick := 0x1000000 }) = true ∧
    (∀ r ∈ parked.records, Claim.Parked parked r ∧ causeFixed (parkedCause r) = false ∧ (taskOf parked (getG parked 1)).tvec ≠ 0 ∧
      (getG parked 1).handler = none) ∧
    parkedRecord st 2 = none ∧ parkedWalk st 2 = none ∧ (getX st 1).cqspill.toNat / 2 ^ 56 ≤ (5 : BitVec 64).toNat / 2 ^ 56 :=
  ⟨by decide, by decide, by decide, by decide, by decide +kernel, by decide, by decide, by decide, by decide +kernel,
    by unfold Claim.Parked; decide +kernel, by decide, by decide, by decide⟩

/-- Command 6 of the group, and a copy from the second stash line to the first; matrix operations, by where they stand. -/
def cmd (cls : BitVec 2) (kind : CmdKind) (x : CmdSt) : Cmd :=
  { id := 6, cls, num := 0, uid := 1, gid := 0, ctx := 1, task := 1, core := 0, kind, node := none, st := x, cancel := false, pts := 0, result := [] }
def copying : Cmd := cmd 0 (.copy { capOver 1 0x1B 0 0x10000 with addr := 0 } { capOver 1 0x1B 0 0x10000 with addr := 0x80 } 64) .run
def commanded (c : Cmd) : State :=
  onCore (fun k => { k with mqueue := [6], towner := [(0, 6)], nodes := [(1, { Node.zero with st := .armed, cmd := some 6 })] }) { st with cmds := [(6, c)] }
theorem test_meets_EngineEvents : Claim.OnlyCmd (commanded copying) 6 copying ∧ Claim.Plain copying ∧ Claim.linkUp (commanded copying) copying = true ∧ (copying.st, copying.pos, copying.wmax) = (.run, 0, none) ∧
    (getC (commanded copying) 0).maps = [] ∧ (getC (commanded copying) 0).ranges = [] ∧ (getC (commanded copying) 0).watches = [] ∧
    (getDie (commanded copying) 0).hostq = [] ∧ (∀ r ∈ (commanded copying).reqs, r.2.agent ≠ .engine 6) ∧
    (fget Node.zero (getC (commanded (cmd 0 (.mzero 0) .armed)) 0).nodes 1).count = 0 ∧ groupHalted (commanded copying) (getG (commanded copying) 1) = false ∧
    mmNext (commanded (cmd 2 (.mzero 0) .armed)) 0 = some 6 ∧ snapWhole (cmd 2 (.mzero 0) .armed) = true ∧
    (getC (commanded (cmd 2 (.mzero 0) .consumed)) (pairCore 0)).mqueue.head? = some 6 ∧ (cmd 2 (.mzero 0) .started).st = .started ∧
    Claim.publication (awaiting (.ringPublish 0 1 false) 0) = some (0, 1, false) ∧
    (let s := on fun g => { g with ops := [{ awaiting (.ringPublish 0 1 false) 0 with held := true, rel := some 1 }] }
     (opOf (getG s 1) 7).map (fun o => (opBlocked s (getG s 1) o, markerClear s (getG s 1) o)) = some (false, true) ∧ (getG s 1).task ≠ 0) :=
  ⟨by unfold Claim.OnlyCmd; decide, by unfold Claim.Plain Claim.NoMeet; decide +kernel, by decide, by decide, by decide, by decide, by decide, by decide,
    by decide, by decide, by decide, by decide, by decide +kernel, by decide, by decide, by decide, by decide +kernel⟩

/-- Commands of the other kinds: a gather of three rows from host memory, a copy to a peer with its flag, a transpose, planes made and
unpacked, and a fold; a bf16 matrix operation. -/
def tensor (fmt : BitVec 4) (pbase : Nat) : Tid := { Claim.noTid with fmt, ctx := 1, spl := 8, rpl := 8, rowsm1 := 1, km1 := 3, pbase, scb := 0x800, smb := 0x900 }
def inBank (a : BitVec 56) : Cap := { capOver 1 0x1B 0 0x10000 with addr := a }
def peerPort : State := onCtx (fun x => { x with live := true, peers := [(3, { en := true, port := 0, base := 0, size := 2 ^ 40 })] }) st
theorem test_meets_EngineEvents_kinds : (∀ k ∈ ([.gather (inBank 0x4000) (capOver 3 0x7F 0 0x1000) 64 16 3 0x100,
      .remote { capOver 4 0x7F 0x3000000000000 0x3000000010000 with addr := 0x3000000000000 } (inBank 0x80) 64 (some 0x3000000001000),
      .transpose (inBank 0x4000) (inBank 0x80) 2 4 8 64, .plane (inBank 0x4000) (tensor 2 0) false, .plane (inBank 0x4000) (tensor 2 0) true,
      .fold (inBank 0x4000) (tensor 0 0) (tensor 0 0)] : List CmdKind), Claim.Plain (cmd 1 k .run)) ∧
    Claim.linkUp peerPort (cmd 3 (.remote { capOver 4 0x7F 0x3000000000000 0x3000000010000 with addr := 0x3000000000000 } (inBank 0x80) 64 none) .run) = true :=
  ⟨by unfold Claim.Plain Claim.NoMeet; decide +kernel, by decide +kernel⟩
theorem test_meets_EngineEvents_product : (cmd 2 (.mm 0 true false (tensor 2 0) (tensor 2 8) (tensor 2 16)) .consumed).st = .consumed ∧
    (getC (commanded (cmd 2 (.mm 0 true false (tensor 2 0) (tensor 2 8) (tensor 2 16)) .consumed)) (pairCore 0)).mqueue.head? = some 6 ∧
    (tensor 2 0).rowsm1 ≤ 63 ∧ (tensor 2 8).rowsm1 ≤ 95 ∧ (tensor 2 0).fmt = (tensor 2 16).fmt := by decide

/-! Words and steps. -/

theorem test_meets_DecodeAndEncodeAgree : (Instr.vsel 1 0 0 4 3 7 2).WellFormed ∧ (encode (.vsel 1 0 0 4 3 7 2)).map (·.word) = some 0x41031D0D ∧
    Claim.Formed { wide := true, word := 0x41031D0D } := ⟨by decide, by decide, by unfold Claim.Formed; decide⟩
/-- s5 := s1 + s36 at the PC, with 7 in s1 and 100 in s36, scheduled on lane 0. -/
def stepping : State :=
  let s := placeInsn State.reset (leBytes (((encode (.sadd 0 1 36 1 5)).map fun c => c.word.toNat).getD 0) 4)
  { s with schedule := [.lane 0 0], groups := s.groups.map fun p => (p.1, { p.2 with s := [(1, 7), (36, 100)] }) }
theorem test_meets_StepRunsDecoded : gated stepping = false ∧ (tick stepping).schedule = [.lane 0 0] ∧
    ((laneCands { tick stepping with schedule := [] } 0 0).map fun c => (c.uid, c.entry)) = [(1, 0)] ∧
    ((laneCands { tick stepping with schedule := [] } 0 0).all fun c =>
      let s0 := Claim.selected { tick stepping with schedule := [] } c
      (curG s0).deferred.isEmpty && match fetchCode s0 with
        | .ok w => decide ((decode w).toOption = some (Instr.sadd 0 1 36 1 5))
        | .error _ => false) = true := by decide +kernel
theorem test_meets_StepKeepsBytesCanonical : Safety.BytesCanonical st :=
  ⟨by decide, by decide, by decide, fun _ => by show Memory.wf []; decide⟩

/-! States for the clauses of the events: homes, fills, firmware, links, barriers, exchanges. -/

theorem test_meets_HomeArrivals_kinds : Claim.homeEvent (request .capRead) (.homeOwnership 3) = some false ∧
    Claim.homeEvent { request .capRead with unit := 3 } (.homeWriteThrough 3) = some false ∧
    Claim.homeEvent (request (.capWrite Cap.null)) (.homeOwnership 3) = some true ∧ Claim.homeEvent (request (.rowAtomic true)) (.homeRowAtomic 3) = some true ∧
    Claim.homeEvent { request .write with mode := 1 } (.leaseWrite 3) = some true ∧
    (let q := { request .write with mode := 1 }; Claim.timed (asked q) q = true ∧ Claim.tooFar (asked q) q = false ∧ (Claim.takenUp (asked q) q).isSome = true) ∧
    (let q := { request .write with mode := 1, pts := 0x3000 }; Claim.tooFar (asked q) q = true) ∧
    Claim.timed (asked (request .write)) (request .write) = false ∧
    (let q := request (.atomic (.add 4) true)
     ¬Claim.LockedOut (atHome (holderOf (some 1) []) q) q ∧ (lockAt (atHome (holderOf (some 1) []) q) line0).holder ≠ none ∧ isGroupReq q = true) ∧
    Claim.LockedOut (atHome (holderOf (some 9) []) (request .capRead)) (request .capRead) :=
  ⟨by decide, by decide, by decide, by decide, by decide, by decide +kernel, by decide +kernel, by decide +kernel, by unfold Claim.LockedOut; decide,
    by unfold Claim.LockedOut; decide⟩

/-- A map of one word of the page of `mem`, whose line is to be filled. -/
def oneWord : MapEntry := Claim.mapOf (cReg (curG mem) 2) 1 0x8000000000040 1 0x100000000 0
def toFill : Fill := { core := 0, line := 0, entry := 0, uid := none, parked := false, counted := false }
def filling : State := { onCore (fun _ => { getC mem 0 with maps := [(0, oneWord)] }) mem with fills := [(2, toFill)] }
theorem fill_ready : Claim.FillReady filling toFill oneWord ∧ Claim.NoneWaits filling 0 ∧ (swordAt filling 0 0).v = false ∧
    (ffind (getC filling 0).maps 0).isSome = true :=
  ⟨by unfold Claim.FillReady; decide +kernel, by unfold Claim.NoneWaits; decide +kernel, by decide +kernel, by decide⟩
theorem test_meets_CoherenceEvents_more : Claim.FillReady filling toFill oneWord ∧ Claim.NoneWaits filling 0 ∧
    (let q := { request .capRead with busy := true }; Claim.Working (asked q) 3 ∧ q.mode = 0 ∧ q.agent ≠ .prefetch true) ∧
    (∀ u, (lockAt (merging false) line0).holder = some u → False) ∧ (∀ k ∈ (request .read).merged, 3 ∉ (getR (asked (request .read)) k).merged) :=
  ⟨fill_ready.1, fill_ready.2.1, ⟨by unfold Claim.Working; decide, by decide, by decide⟩, by decide +kernel, by decide⟩

theorem test_meets_FirmwareEvents_clauses : Claim.registerThere st (.watchpoint 95 3) = true ∧ Claim.registerThere st (.watchpoint 96 0) = false ∧
    Claim.registerThere st (.wpmask 95 7) = true ∧ Claim.registerThere st (.wpmask 95 8) = false ∧ Claim.registerThere st (.ageint 4) = false ∧
    (let s := onDie (fun d => { d with measure := true, opChange := true, lowf := true, planned := true }) st
     (getDie s 0).measure = true ∧ (getDie s 0).opChange = true ∧ (getDie s 0).lowf = true ∧ (getDie s 0).planned = true) ∧
    (getDie (onDie (fun d => { d with measure := true }) st) 0).opChange = false ∧ (getDie st 0).measure = false := by decide
/-- Two tasks of a context have a halted role, and a record waits for the first alone. -/
def twoHalted : State :=
  let s := roles [1]
  { s with tasks := s.tasks ++ [(2, { loadTask with halted := [1] })], records := [recordOf (.debug 5) false] }
theorem test_meets_DebuggerEvents_halt : (∃ q ∈ twoHalted.tasks, q.1 ≠ 1 ∧ q.2.ctx = (getT twoHalted 1).ctx ∧ q.2.halted ≠ []) ∧
    (getT twoHalted 1).halted.contains 1 = true ∧ (∀ x ∈ twoHalted.records, Claim.heldBy x.uid none x = true ∧ (getG twoHalted x.uid).hold = none ∧
      (getG twoHalted x.uid).task = 1 ∧ (getG twoHalted x.uid).role = 1 ∧ (getG twoHalted x.uid).ended = false) := by decide +kernel

/-- An atomic of the host in flight, for four bytes; a Col link end that retrains. -/
def hostAtomic : Req := { request (.atomic (.add 4) true) with mode := 2 }
def windowed : State := { st with windows := [(5, (0x20000000, 0x1000))] }
def training (now : BitVec 64) (l : Nat) : State := { st with links := [(l, { Link.reset with st := 1 })], gtick := now }
theorem test_meets_HostAndLinkEvents_clauses : (getR (asked hostAtomic) 3).agent = .group 1 7 ∧ hostAtomic.done = false ∧ hostAtomic.pieces = [word0 5] ∧
    (word0 5).size ≤ 8 ∧ (request .read).tick + 2 ^ 22 ≤ { st with gtick := 0x400000 }.gtick.toNat ∧
    0x100 + 4 ≤ (fget (0, 0) windowed.windows 5).2 ∧ (fget (0, 0) windowed.windows 5).1 + 0x100 + 4 ≤ hbmSize windowed.part ∧
    ¬(0x1000 + 4 ≤ (fget (0, 0) windowed.windows 5).2) ∧ linkExists (training 0 9) 9 = true ∧ otherEnd 9 = some 12 ∧
    (getLink (training 0 9) 12).lastAcc = 0xFFF ∧ (training 0 9).gtick.toNat ≤ (getLink (training 0 9) 9).retrySince + 2 ^ 16 ∧
    (getLink (training 0x10000 9) 9).retrySince + 2 ^ 16 ≤ (training 0x10000 9).gtick.toNat := by decide +kernel
/-- The CRC of nothing but 0 is 0. -/
theorem crcBits_zero : ∀ n, crcBits 0 n 0 = 0
  | 0 => rfl
  | n + 1 => by
    rw [crcBits, Nat.zero_testBit, show crcStep 0 false = 0 from by decide]
    exact crcBits_zero n
/-- A flit whose bits are all 0 but for a CRC of 1 is bad. -/
theorem flit_bad (f : BitVec 2048) (h : f.toNat = 2 ^ 1984 * 1) : flitOk f = false := by
  have h1 : (flitCrc f).toNat = 1 := by
    unfold flitCrc
    rw [BitVec.extractLsb'_toNat, h, Nat.shiftRight_eq_div_pow, Nat.mul_div_cancel_left _ (Nat.two_pow_pos _)]
  have h2 : crcBits f.toNat 1984 0 = 0 := by
    rw [h]
    exact (crcBits_congr _ 0 _ _ fun j hj => by
      rw [Nat.zero_testBit, Nat.testBit_two_pow_mul, decide_eq_false (by omega), Bool.false_and]).trans (crcBits_zero 1984)
  unfold flitOk
  rw [h1, h2]
  rfl
theorem test_meets_HostAndLinkEvents_bad : ∃ f, flitOk f = false :=
  ⟨BitVec.ofNat 64 1 ++ (0 : BitVec 1984), flit_bad _ (by rw [BitVec.toNat_append, BitVec.toNat_ofNat, Nat.shiftLeft_eq]; simp)⟩
/-- A flit that is composed is good, whatever its number, its kind and its messages. -/
theorem test_meets_HostAndLinkEvents_flits (q a : BitVec 12) (m : BitVec 1920) : ∀ k ∈ [0, 1, 2, 3, 4], flitOk (composeFlit q a k m) = true :=
  fun k hk => flitOk_compose q a k m (by simp at hk; omega)

/-- Arrivals of two groups at a barrier word with EXP 3, from lanes 0 and 1; exchange requests of two groups. -/
def second : Group := { loadGroup with uid := 2, slot := some 4, gid := 1 }
def arriveAt (lane : Nat) : Op := { awaiting (.barrier false false) 0 with lane, pieces := [{ word0 0 with space := 1, place := 0 }], dst := .scalar 5 }
def gathering : State :=
  { onCore (fun _ => { getC mem 0 with stash := [(2, 3)], arrivals := [(0, 1, 7), (0, 2, 7)] }) mem with
    groups := [(1, { curG mem with ops := [arriveAt 0] }), (2, { second with ops := [arriveAt 1] })] }
def swapTwo : State :=
  let q (n u core partner : Nat) : Req := { newReq (.group u 0) core 1 (.exchange 5 partner 3 (List.replicate 32 7) 0xF) 0 with id := n }
  onCore (fun c => { c with xtable := [{ rq := 4, since := 0, stale := false }] })
    { st with reqs := [(3, q 3 1 2 0), (4, q 4 2 0 2)], nextId := 8, groups := [(1, loadGroup), (2, second)] }
theorem test_meets_LockAndMonitorEvents_clauses :
    (let l := Claim.arrivals gathering 0 0
     let w := Claim.wordAt gathering 0 0
     l.length = 2 ∧ Claim.bArr w ≤ Claim.bExp w ∧ Claim.bDrop w + l.length ≤ Claim.bExp w ∧ (l.map fun x => (x.lane, x.u)) = [(0, 1), (1, 2)] ∧
       ∀ x ∈ l, (getG gathering x.u).uid = x.u) ∧
    (let q := getR swapTwo 3
     let e := getR swapTwo 4
     (getC swapTwo (min q.core (xchg q).2.1)).xtable.map (·.rq) = [4] ∧ exchanges e q = true ∧ reqUid q ≠ reqUid e ∧ isGroupReq q = true ∧ isGroupReq e = true ∧
       (getG swapTwo (reqUid q)).uid = reqUid q ∧ (getG swapTwo (reqUid e)).uid = reqUid e) ∧
    (let s := homeLock (some 9) [waiterOf 3 none] (.lock 5 false)
     (Claim.frameWaiters s (line0 / 512)).map (·.rq) = [3] ∧ ((Claim.frameWaiters s (line0 / 512)).map fun x => (getR s x.rq).agent).Nodup ∧
       (getR s 3).id = 3 ∧ isGroupReq (getR s 3) = true) := by decide +kernel

theorem test_meets_TranslationAndQueueEvents_clauses : headFresh (paged 0x10) 1 0x11000 = true ∧
    ((ffind (paged 0x10).disps 6).map (doneOpen (paged 0x10))) = some true ∧
    (let q := { request (.launch 0) with pieces := [{ word0 0 with shown := 0x11000 }] }
     launchOpen { paged 0x10 with reqs := [(3, q)] } q = true ∧ q.kind = .launch 0) ∧
    (getG { walked with groups := [(1, { curG mem with slot := none })] } 1).slot = none := by decide +kernel
theorem test_meets_TaskEvents_clauses : succFresh (paged 0x10) 1 0x11000 = true ∧ succFresh (paged 0x10) 1 0x40000000000000 = true ∧
    taskAlive { paged 0x10 with groups := [] } 1 = false ∧
    (∃ p ∈ (getX (safePt (some 0)) 1).preempts, Claim.isLate (safePt (some 0)) 1 0 p { getG (safePt (some 0)) 1 with slot := none } = true) := by decide +kernel

/-! Single steps on the manual's worked cases. -/

/-- What a projection reads in the issuing group after a next state. -/
def after {α : Type} (f : Group → α) (o : Out) : Option α :=
  match o with | .next t => some (f (getG t 1)) | _ => none
/-- The state after an instruction that gives one. -/
def thenS (i : Instr) (s : State) : State := match exec i s with | .next t => t | _ => s

/-- R253's load of a wide constant: `sli s7, 0x40`, then `slih s7, 2, 0x8000`. -/
theorem test_load_constant : after (fun g => sReg g 7) (exec (.slih 0x8000 7 2) (thenS (.sli 0x40 7) st)) = some 0x0000800000000040 := by decide +kernel
theorem test_load_negative : after (fun g => sReg g 7) (exec (.slih 0 7 3) (thenS (.sli 0xFFFF 7) st)) = some 0x0000FFFFFFFFFFFF := by decide +kernel
/-- R80's case: the home of 0x20_0000_1A80 is global slice 30. -/
theorem test_home_slice : homeSlice (0x2000001A80 / 128) = 30 ∧ foldY (0x2000001A80 / 128) % 8 = 5 := by decide
/-- R12's case: the 3 MiB buffer, at its address and below its base. -/
def buffer (a : BitVec 56) : Cap := { capWithBounds { Cap.null with tag := true } 0x4000100000 0x4000400000 with addr := a }
theorem test_capability_bounds : (buffer 0x4000200000).e = 0 ∧ (buffer 0x4000200000).b = 0x100000 ∧ (buffer 0x4000200000).t = 0x400000 ∧
    capDecode (buffer 0x4000200000) = some (0x4000100000, 0x4000400000) ∧ capDecode (buffer 0x3FFFFFFFF0) = some (0x4000100000, 0x4000400000) ∧
    capDecode (buffer 0x3FFF0FFFF0) = some (0x3FF8100000, 0x3FF8400000) := by decide +kernel
/-- R218's case: 450.0, 470.0 and -2^-10 to f8a under RNE, 470.0 under RTZ. -/
theorem test_convert_f8a : (cvtVal 0 (.flt fmtF32) (.flt fmtF8a) 0x43E10000).1 = 0x7E ∧ (cvtVal 0 (.flt fmtF32) (.flt fmtF8a) 0x43EB0000).1 = 0x7E ∧
    (cvtVal 0 (.flt fmtF32) (.flt fmtF8a) 0xBA800000).1 = 0x80 ∧
    (cvtVal 0 (.flt fmtF32) (.flt fmtF8a) 0x43E10000).2 ≠ (cvtVal 0 (.flt fmtF32) (.flt fmtF8a) 0x43EB0000).2 ∧
    (cvtVal 1 (.flt fmtF32) (.flt fmtF8a) 0x43EB0000) = (cvtVal 0 (.flt fmtF32) (.flt fmtF8a) 0x43E10000) := by decide +kernel
/-- R290's case of `vred.fadd.f32 v2, v9`: the sum is rounded in thread order. -/
theorem test_reduce_order : after (fun g => fget (.u 0) g.v 2) (exec (.vred 0 0 0 4 6 9 2)
    (on fun g => { g with v := [(9, .g ([0x33800000, 0x33800000, 0x3F800000] ++ List.replicate 29 0))] })) = some (.u 0x3F800001) := by decide +kernel
/-- R291's case of `vminidx.i32 v10, v4`, with thread 20 inactive and without a mask. -/
def least : State := on fun g => { g with
  v := [(4, .g ((List.range 32).map fun t => if t = 3 then 5 else if t = 7 ∨ t = 12 then 2 else if t = 20 then 1 else 9))], m := [(1, 0xFFEFFFFF)] }
theorem test_least_index : after (fun g => (fget (.u 0) g.v 10, fget (.u 0) g.v 11)) (exec (.vminidx 0 0 0 4 10) least) = some (.u 1, .u 20) ∧
    after (fun g => (fget (.u 0) g.v 10, fget (.u 0) g.v 11)) (exec (.vminidx 1 0 0 4 10) least) =
      some (.g ((List.range 32).map fun t => if t = 20 then 0 else 2), .g ((List.range 32).map fun t => if t = 20 then 0 else 7)) := by decide +kernel
/-- R177's case: threads 0 to 9 take the branch, with join J1. -/
theorem test_divergent_branch : after (fun g => ((getF g 0).mask, (getF g 1).mask, (getF g 1).parent, (getF g 0).join == (getF g 1).join, (getF g 1).saved))
    (exec (.vbra 0x20 0x80 1) (on fun g => { g with m := [(1, 0x3FF)] })) = some (0xFFFFFC00, 0x3FF, 0, true, 0) := by decide +kernel
/-- R241's case: the reserved word 0x2BB raises ENC_FUNC, with its fields in XINSN and XF0. -/
def reservedWord : State := { placeInsn State.reset (leBytes 0x2BB 4) with schedule := [.lane 0 0] }
theorem test_step_adds : (match step stepping with | .next t => some (sReg (getG t 1) 5, (getF (getG t 1) 0).pc - (getF (getG stepping 1) 0).pc) | _ => none)
    = some (107, 4) := by decide +kernel
theorem test_step_reserved : (match step reservedWord with | .next t => some (((getX t 1).faults.map fun r => r.code), (getG t 1).xinsn, (getG t 1).xf0) | _ => none)
    = some ([.encFunc], 0x7000002BB, 0xED00000000) := by decide +kernel
end Sys2Proof.Tests
end

/-! ## The byte stores of a state stay canonical

A step changes device, host and peer memory and the stashes only through `fset`, `fsetN`, `writeLe` and filters, which keep the canonical
form. Everything between such a write and `step` is composed of functions that yield a state: each has one lemma below, named after it, in
the order of the model's files, and its proof follows the function's text: local states by `extract_lets`, branches by `split`, and each
call by the lemma of the function called. -/

namespace Sys2Proof.Machine
open Safety

variable {s t : State}

/-- The parts of a state that hold its byte stores. -/
def stores (s : State) : FMap Byte × FMap Byte × FMap Byte × FMap Core := (s.homes.mem, s.host, s.peers, s.cores)

/-- What an optional state, a computation's state and an outcome's next state are to satisfy. -/
def SomeCanonical (o : Option State) : Prop := ∀ t, o = some t → BytesCanonical t
def OkCanonical {ε : Type} (x : Except ε State) : Prop := ∀ t, x = .ok t → BytesCanonical t
def NextCanonical (o : Out) : Prop := ∀ t, o = .next t → BytesCanonical t

theorem canonical_of_same (h : BytesCanonical s) (e : stores t = stores s) : BytesCanonical t := by
  simp only [stores, Prod.mk.injEq] at e
  obtain ⟨hm, hh, hp, hc⟩ := e
  simpa only [BytesCanonical, getC, hm, hh, hp, hc] using h

theorem foldl_canonical {α : Type} {f : State → α → State} {l : List α}
    (hf : ∀ t a, BytesCanonical t → BytesCanonical (f t a)) (h : BytesCanonical s) : BytesCanonical (l.foldl f s) := by
  induction l generalizing s with
  | nil => exact h
  | cons a l ih => exact ih (hf s a h)

theorem foldl_someCanonical {α : Type} {f : Option State → α → Option State} {l : List α} {o : Option State}
    (hf : ∀ o a, SomeCanonical o → SomeCanonical (f o a)) (h : SomeCanonical o) : SomeCanonical (l.foldl f o) := by
  induction l generalizing o with
  | nil => exact h
  | cons a l ih => exact ih (hf o a h)

theorem getD_canonical {o : Option State} (ho : SomeCanonical o) (h : BytesCanonical s) : BytesCanonical (o.getD s) := by
  cases o with
  | none => exact h
  | some t => exact ho t rfl

theorem some_canonical (h : BytesCanonical s) : SomeCanonical (some s) := by
  rintro _ ⟨⟩; exact h

theorem none_canonical : SomeCanonical none := by
  rintro _ ⟨⟩

theorem ok_canonical {ε : Type} (h : BytesCanonical s) : OkCanonical (.ok s : Except ε State) := by
  rintro _ ⟨⟩; exact h

theorem error_canonical {ε : Type} {e : ε} : OkCanonical (.error e : Except ε State) := by
  rintro _ ⟨⟩

theorem bind_canonical {ε α : Type} {x : Except ε α} {f : α → Except ε State} (hf : ∀ a, x = .ok a → OkCanonical (f a)) :
    OkCanonical (x >>= f) := by
  cases x with
  | error e => exact error_canonical
  | ok a => exact hf a rfl

theorem map_canonical {ε α : Type} {x : Except ε α} {f : α → State} (hf : ∀ a, x = .ok a → BytesCanonical (f a)) :
    OkCanonical (x.map f) := by
  cases x with
  | error e => exact error_canonical
  | ok a => exact ok_canonical (hf a rfl)

theorem optionBind_canonical {α : Type} {o : Option α} {f : α → Option State} (hf : ∀ a, o = some a → SomeCanonical (f a)) :
    SomeCanonical (o.bind f) := by
  cases o with
  | none => exact none_canonical
  | some a => exact hf a rfl

theorem optionMap_canonical {α : Type} {o : Option α} {f : α → State} (hf : ∀ a, o = some a → BytesCanonical (f a)) :
    SomeCanonical (o.map f) := by
  cases o with
  | none => exact none_canonical
  | some a => exact some_canonical (hf a rfl)

theorem optionFilter_canonical {o : Option State} {p : State → Bool} (h : SomeCanonical o) : SomeCanonical (o.filter p) :=
  fun t e => h t (Option.eq_some_of_filter_eq_some e)

theorem foldl_fst_canonical {α β : Type} {f : State × β → α → State × β} {l : List α} {p : State × β}
    (hf : ∀ q a, BytesCanonical q.1 → BytesCanonical (f q a).1) (h : BytesCanonical p.1) : BytesCanonical (l.foldl f p).1 := by
  induction l generalizing p with
  | nil => exact h
  | cons a l ih => exact ih (hf p a h)

theorem findSome_canonical {α : Type} {l : List α} {f : α → Option State} (hf : ∀ a, SomeCanonical (f a)) :
    SomeCanonical (l.findSome? f) := by
  intro t e
  obtain ⟨a, -, ha⟩ := List.exists_of_findSome?_eq_some e
  exact hf a t ha

theorem foldlM_canonical {α : Type} {f : State → α → Option State} {l : List α}
    (hf : ∀ t a, BytesCanonical t → SomeCanonical (f t a)) (h : BytesCanonical s) : SomeCanonical (l.foldlM f s) := by
  induction l generalizing s with
  | nil => exact some_canonical h
  | cons a l ih => exact optionBind_canonical fun t e => ih (hf s a h t e)

theorem fst_canonical {α : Type} {p : State × α} {a : α} (e : p = (t, a)) (h : BytesCanonical p.1) : BytesCanonical t := by
  subst e; exact h

theorem snd_canonical {α : Type} {p : α × State} {a : α} (e : p = (a, t)) (h : BytesCanonical p.2) : BytesCanonical t := by
  subst e; exact h

theorem next_canonical (h : BytesCanonical s) : NextCanonical (.next s) := by
  rintro _ ⟨⟩; exact h

/-! ### The writes of a store -/

theorem modH_canonical {f : Homes → Homes} (h : BytesCanonical s) (hf : (f s.homes).mem = s.homes.mem) :
    BytesCanonical (modH s f) :=
  ⟨by rw [show (modH s f).homes.mem = s.homes.mem from hf]; exact h.1, h.2⟩

theorem modC_canonical {c : Nat} {f : Core → Core} (h : BytesCanonical s)
    (hf : ∀ x : Core, Memory.wf x.stash → Memory.wf (f x).stash) : BytesCanonical (modC s c f) := by
  obtain ⟨hm, hh, hp, hc⟩ := h
  refine ⟨hm, hh, hp, fun k => ?_⟩
  simp only [getC, modC, setC, fget_fset]
  split
  · exact hf _ (hc c)
  · exact hc k

theorem hostStore_canonical {m : FMap Byte} (h : BytesCanonical s) (hm : Memory.wf s.host → Memory.wf m) :
    BytesCanonical { s with host := m } :=
  ⟨h.1, hm h.2.1, h.2.2⟩

theorem peersStore_canonical {m : FMap Byte} (h : BytesCanonical s) (hm : Memory.wf s.peers → Memory.wf m) :
    BytesCanonical { s with peers := m } :=
  ⟨h.1, h.2.1, hm h.2.2.1, h.2.2.2⟩

/-- Cores changed one by one, each under its own number. -/
theorem mapCores_canonical {f : Nat × Core → Nat × Core} (h : BytesCanonical s)
    (hf : ∀ p, (f p).1 = p.1 ∧ (f p).2.stash = p.2.stash) : BytesCanonical { s with cores := s.cores.map f } := by
  obtain ⟨hm, hh, hp, hc⟩ := h
  refine ⟨hm, hh, hp, fun c => ?_⟩
  have hfind : (getC { s with cores := s.cores.map f } c).stash = (getC s c).stash := by
    simp only [getC, fget]
    induction s.cores with
    | nil => rfl
    | cons p l ih =>
      obtain ⟨hk, hs⟩ := hf p
      simp only [List.map_cons, ffind, hk]
      split
      · exact hs
      · exact ih
  rw [hfind]
  exact hc c

theorem fabove_filter {b : Nat} {m : FMap Byte} (p : Nat × Byte → Bool) (hw : Memory.wf m) (h : fabove b m) :
    fabove b (m.filter p) := by
  induction m with
  | nil => trivial
  | cons x m ih =>
    obtain ⟨-, ha, hm⟩ := (fwf_cons _ _ _ _).1 hw
    rw [List.filter_cons]
    split
    · exact h
    · exact ih hm (fabove_trans ha (le_of_lt h))

theorem filter_wf {m : FMap Byte} (p : Nat × Byte → Bool) (h : Memory.wf m) : Memory.wf (m.filter p) := by
  induction m with
  | nil => rfl
  | cons x m ih =>
    obtain ⟨hx, ha, hm⟩ := (fwf_cons _ _ _ _).1 h
    rw [List.filter_cons]
    split
    · exact (fwf_cons _ _ _ _).2 ⟨hx, fabove_filter p hm ha, ih hm⟩
    · exact ih hm

theorem foldl_wf {α : Type} {f : FMap Byte → α → FMap Byte} {m : FMap Byte} {l : List α}
    (hf : ∀ m a, Memory.wf m → Memory.wf (f m a)) (h : Memory.wf m) : Memory.wf (l.foldl f m) := by
  induction l generalizing m with
  | nil => exact h
  | cons a l ih => exact ih (hf m a h)

end Sys2Proof.Machine

/-! ### Access: the pieces of the state -/

namespace Sys2Proof.Machine
open Safety

theorem setG_canonical {s u g} (h : BytesCanonical s) : BytesCanonical (setG s u g) :=
  canonical_of_same h rfl

theorem modG_canonical {s u f} (h : BytesCanonical s) : BytesCanonical (modG s u f) :=
  setG_canonical h

theorem setT_canonical {s t x} (h : BytesCanonical s) : BytesCanonical (setT s t x) :=
  canonical_of_same h rfl

theorem modT_canonical {s t f} (h : BytesCanonical s) : BytesCanonical (modT s t f) :=
  setT_canonical h

theorem setX_canonical {s c x} (h : BytesCanonical s) : BytesCanonical (setX s c x) :=
  canonical_of_same h rfl

theorem modX_canonical {s c f} (h : BytesCanonical s) : BytesCanonical (modX s c f) :=
  setX_canonical h

theorem modDie_canonical {s d f} (h : BytesCanonical s) : BytesCanonical (modDie s d f) :=
  canonical_of_same h rfl

theorem modLink_canonical {s l f} (h : BytesCanonical s) : BytesCanonical (modLink s l f) :=
  canonical_of_same h rfl

theorem push_canonical {s e} (h : BytesCanonical s) : BytesCanonical (push s e) :=
  canonical_of_same h rfl

theorem pushAll_canonical {s es} (h : BytesCanonical s) : BytesCanonical (pushAll s es) :=
  canonical_of_same h rfl

theorem fresh_canonical {s} (h : BytesCanonical s) : BytesCanonical (fresh s).2 :=
  canonical_of_same h rfl

theorem modCur_canonical {s f} (h : BytesCanonical s) : BytesCanonical (modCur s f) :=
  modG_canonical h

theorem modCurF_canonical {s h} (hs : BytesCanonical s) : BytesCanonical (modCurF s h) :=
  modCur_canonical hs

theorem raisePts_canonical {s core w} (h : BytesCanonical s) : BytesCanonical (raisePts s core w) :=
  modC_canonical h fun _ e => e

theorem addFault_canonical {s r} (h : BytesCanonical s) : BytesCanonical (addFault s r) :=
  modX_canonical h

theorem traceAdd_canonical {s g kind op addr dest cseq} (h : BytesCanonical s) :
    BytesCanonical (traceAdd s g kind op addr dest cseq) := by
  unfold traceAdd
  split
  · exact h
  · refine modC_canonical h fun _ e => ?_
    split <;> exact e

theorem traceDone_canonical {s core op} (h : BytesCanonical s) : BytesCanonical (traceDone s core op) :=
  modC_canonical h fun _ e => e

theorem logTake_canonical {s ctx r} (h : BytesCanonical s) : BytesCanonical (logTake s ctx r) :=
  modX_canonical h

theorem mergeDone_canonical {s ctx word} (h : BytesCanonical s) : BytesCanonical (mergeDone s ctx word) := by
  unfold mergeDone
  split
  · exact h
  · extract_lets _ s1
    have h1 : BytesCanonical s1 := modX_canonical h
    split
    · exact logTake_canonical h1
    · exact h1

end Sys2Proof.Machine

/-! ### Coherent: homes, caches and stash words -/

namespace Sys2Proof.Machine
open Safety

theorem setDir_canonical {s line e} (h : BytesCanonical s) : BytesCanonical (setDir s line e) :=
  modH_canonical h rfl

theorem modDir_canonical {s line f} (h : BytesCanonical s) : BytesCanonical (modDir s line f) :=
  setDir_canonical h

theorem setMem_canonical {s pa b} (h : BytesCanonical s) : BytesCanonical (setMem s pa b) :=
  ⟨fwf_fset _ _ _ _ h.1, h.2⟩

theorem setTag_canonical {s pa t} (h : BytesCanonical s) : BytesCanonical (setTag s pa t) :=
  modH_canonical h rfl

theorem watchWord_canonical {s core ctx by_ w} (h : BytesCanonical s) :
    BytesCanonical (watchWord s core ctx by_ w) := by
  unfold watchWord
  refine foldl_canonical (fun _ _ ht => ?_) h
  extract_lets _ _ _ _ s1
  have h1 : BytesCanonical s1 := addFault_canonical ht
  split
  · exact ht
  · split
    · exact h1
    · exact push_canonical h1

theorem watchWords_canonical {s core by_ ks} (h : BytesCanonical s) : BytesCanonical (watchWords s core by_ ks) := by
  unfold watchWords
  refine foldl_canonical (fun _ _ ht => ?_) h
  split
  · exact watchWord_canonical ht
  · exact ht

theorem watchUnit_canonical {s line pair unit mask by_} (h : BytesCanonical s) :
    BytesCanonical (watchUnit s line pair unit mask by_) := by
  unfold watchUnit
  split
  · exact h
  · exact watchWords_canonical h

theorem memBytes_canonical {s pa bs} (h : BytesCanonical s) : BytesCanonical (memBytes s pa bs) :=
  ⟨fwf_fsetN _ _ _ _ h.1, h.2⟩

theorem setSWord_canonical {s core k w} (h : BytesCanonical s) : BytesCanonical (setSWord s core k w) :=
  modC_canonical h fun _ e => e

theorem disown_canonical {s line pair unit mask} (h : BytesCanonical s) :
    BytesCanonical (disown s line pair unit mask) := by
  unfold disown
  exact modDir_canonical h

theorem packLine_canonical {s line mbf} (h : BytesCanonical s) : BytesCanonical (packLine s line mbf) := by
  unfold packLine
  split
  · exact h
  · exact modH_canonical h rfl

theorem repackLine_canonical {s line} (h : BytesCanonical s) : BytesCanonical (repackLine s line) :=
  packLine_canonical h

theorem tidyPair_canonical {s pair line} (h : BytesCanonical s) : BytesCanonical (tidyPair s pair line) := by
  unfold tidyPair
  split
  · exact h
  · split
    · exact h
    · exact modH_canonical h rfl

theorem tidySlice_canonical {s slice line} (h : BytesCanonical s) : BytesCanonical (tidySlice s slice line) := by
  unfold tidySlice
  split
  · exact h
  · exact modH_canonical h rfl

theorem shareReport_canonical {s line pair} (h : BytesCanonical s) : BytesCanonical (shareReport s line pair) := by
  unfold shareReport
  extract_lets
  split
  · exact h
  · exact modDir_canonical h

theorem dropPair_canonical {s line pair keep mask by_} (h : BytesCanonical s) :
    BytesCanonical (dropPair s line pair keep mask by_) := by
  unfold dropPair
  extract_lets _ s' s1
  have h' : BytesCanonical s' := canonical_of_same h rfl
  have h1 : BytesCanonical s1 := by
    unfold s1
    refine foldl_canonical (fun _ _ ht => ?_) h'
    extract_lets _ s'' s'''
    have h'' : BytesCanonical s'' := by
      unfold s''
      split
      · exact ht
      · exact modH_canonical ht rfl
    have h''' : BytesCanonical s''' := modH_canonical h'' rfl
    refine foldl_canonical (fun _ _ ht' => ?_) h'''
    split
    · exact ht'
    · refine foldl_canonical (fun _ _ ht'' => ?_) ht'
      split
      · exact ht''
      · exact setSWord_canonical (watchWords_canonical ht'')
  exact tidySlice_canonical (tidyPair_canonical h1)

theorem dropReplicaAt_canonical {s line slice keepPair keepUnit mask by_} (h : BytesCanonical s) :
    BytesCanonical (dropReplicaAt s line slice keepPair keepUnit mask by_) := by
  unfold dropReplicaAt
  extract_lets s1
  have h1 : BytesCanonical s1 := foldl_canonical (fun _ _ ht => modH_canonical ht rfl) h
  exact tidySlice_canonical (foldl_canonical (fun _ _ ht => dropPair_canonical ht) h1)

theorem replicaReport_canonical {s line die} (h : BytesCanonical s) : BytesCanonical (replicaReport s line die) := by
  unfold replicaReport
  split
  · exact h
  · exact modDir_canonical h

theorem dropReplica_canonical {s line die keepPair keepUnit mask by_} (h : BytesCanonical s) :
    BytesCanonical (dropReplica s line die keepPair keepUnit mask by_) :=
  replicaReport_canonical (foldl_canonical (fun _ _ ht => dropReplicaAt_canonical ht) h)

theorem sliceVictim_canonical {s slice w} (h : BytesCanonical s) : BytesCanonical (sliceVictim s slice w) := by
  unfold sliceVictim
  split
  · exact replicaReport_canonical (dropReplicaAt_canonical h)
  · exact modH_canonical h rfl
  · exact h

theorem sliceTouch_canonical {s slice line kind mbf} (h : BytesCanonical s) :
    BytesCanonical (sliceTouch s slice line kind mbf) := by
  unfold sliceTouch
  extract_lets _ _ _ _ _ _ _ victim s1
  have h1 : BytesCanonical s1 := by
    unfold s1 victim
    split
    · exact sliceVictim_canonical h
    · exact h
  split
  · exact modH_canonical h rfl
  · split
    · exact h
    · exact modH_canonical h1 rfl

theorem homeTouch_canonical {s line mbf} (h : BytesCanonical s) : BytesCanonical (homeTouch s line mbf) :=
  sliceTouch_canonical (packLine_canonical h)

theorem countWbacks_canonical {s core ks} (h : BytesCanonical s) : BytesCanonical (countWbacks s core ks) := by
  unfold countWbacks
  extract_lets
  split
  · exact h
  · exact modC_canonical h fun _ e => e

theorem writeBackStash_canonical {s core k} (h : BytesCanonical s) : BytesCanonical (writeBackStash s core k) := by
  unfold writeBackStash
  extract_lets _ _ _ _ s1 _ s2 s3
  have h1 : BytesCanonical s1 := foldl_canonical (fun _ _ ht => setTag_canonical (setMem_canonical ht)) h
  have h2 : BytesCanonical s2 := foldl_canonical (fun _ _ ht => homeTouch_canonical ht) h1
  have h3 : BytesCanonical s3 := setSWord_canonical h2
  split
  · exact h
  · refine foldl_canonical (fun _ _ ht => ?_) h3
    split
    · exact ht
    · extract_lets s4
      have h4 : BytesCanonical s4 := disown_canonical ht
      exact modDir_canonical h4

theorem recallUnit_canonical {s line pair unit mask by_} (h : BytesCanonical s) :
    BytesCanonical (recallUnit s line pair unit mask by_) := by
  unfold recallUnit
  extract_lets s' _ _ _ _ s'' s1
  have h' : BytesCanonical s' := watchUnit_canonical h
  have h'' : BytesCanonical s'' := by
    unfold s''
    refine foldl_canonical (fun _ _ ht => ?_) h'
    extract_lets
    split
    · exact ht
    · extract_lets s'''
      have h''' : BytesCanonical s''' := by
        unfold s'''
        split
        · exact memBytes_canonical ht
        · exact ht
      exact modH_canonical h''' rfl
  have h1 : BytesCanonical s1 := by
    unfold s1
    split
    · exact homeTouch_canonical (tidyPair_canonical h'')
    · exact countWbacks_canonical (foldl_canonical (fun _ _ ht => setSWord_canonical (writeBackStash_canonical ht)) h')
  exact disown_canonical h1

theorem dropHost_canonical {s line mask} (h : BytesCanonical s) : BytesCanonical (dropHost s line mask) := by
  unfold dropHost
  split
  · exact h
  · exact modDir_canonical (modH_canonical h rfl)

theorem dropCpe_canonical {s line mask} (h : BytesCanonical s) : BytesCanonical (dropCpe s line mask) := by
  unfold dropCpe
  split
  · exact h
  · exact modDir_canonical (modH_canonical h rfl)

theorem hostReads_canonical {s line mask} (h : BytesCanonical s) : BytesCanonical (hostReads s line mask) :=
  modDir_canonical (modH_canonical h rfl)

theorem cpeReads_canonical {s line mask} (h : BytesCanonical s) : BytesCanonical (cpeReads s line mask) :=
  modDir_canonical (modH_canonical h rfl)

theorem dropSharers_canonical {s line mask pair unit by_} (h : BytesCanonical s) :
    BytesCanonical (dropSharers s line mask pair unit by_) := by
  unfold dropSharers
  extract_lets _ s1
  have h1 : BytesCanonical s1 := foldl_canonical (fun _ _ ht => dropPair_canonical ht) h
  exact dropCpe_canonical (dropHost_canonical (foldl_canonical (fun _ _ ht => dropReplica_canonical ht) h1))

theorem clearCopies_canonical {s line mask pair unit by_} (h : BytesCanonical s) :
    BytesCanonical (clearCopies s line mask pair unit by_) :=
  dropSharers_canonical (foldl_canonical (fun _ _ ht => recallUnit_canonical ht) h)

theorem pokeByte_canonical {s pa b} (h : BytesCanonical s) : BytesCanonical (pokeByte s pa b) := by
  refine setTag_canonical ?_
  split
  · exact setMem_canonical h
  · split
    · exact modH_canonical h rfl
    · dsimp only
      split
      · exact modC_canonical h fun _ hx => fwf_fset _ _ _ _ hx
      · exact setMem_canonical h

theorem pokeBytes_canonical {s pa bs} (h : BytesCanonical s) : BytesCanonical (pokeBytes s pa bs) := by
  induction bs generalizing s pa with
  | nil => exact h
  | cons b bs ih => exact ih (pokeByte_canonical h)

theorem recallLine_canonical {s line} (h : BytesCanonical s) : BytesCanonical (recallLine s line) := by
  unfold recallLine
  extract_lets s1
  have h1 : BytesCanonical s1 := clearCopies_canonical h
  exact modH_canonical h1 rfl

theorem evictLease_canonical {s line e} (h : BytesCanonical s) : BytesCanonical (evictLease s line e) := by
  unfold evictLease
  split
  · exact h
  · exact modH_canonical h rfl

theorem evictDir_canonical {s line} (h : BytesCanonical s) : BytesCanonical (evictDir s line) := by
  unfold evictDir
  extract_lets _ s1 s2
  have h1 : BytesCanonical s1 := evictLease_canonical h
  have h2 : BytesCanonical s2 := by
    unfold s2
    split
    · exact h1
    · exact recallLine_canonical h1
  exact setDir_canonical h2

theorem dirRoom_canonical {s line} (h : BytesCanonical s) : SomeCanonical (dirRoom s line) := by
  unfold dirRoom
  split
  · exact some_canonical h
  · extract_lets
    split
    · exact some_canonical h
    · split
      · exact none_canonical
      · exact some_canonical (evictDir_canonical h)

theorem leaseGrant_canonical {s line l pts} (h : BytesCanonical s) : BytesCanonical (leaseGrant s line l pts).1 :=
  modH_canonical (setDir_canonical h) rfl

theorem leaseWritten_canonical {s line pts} (h : BytesCanonical s) : BytesCanonical (leaseWritten s line pts) :=
  modH_canonical (setDir_canonical h) rfl

theorem devByte_canonical {s by_ pa b} (h : BytesCanonical s) : BytesCanonical (devByte s by_ pa b) :=
  setTag_canonical (setMem_canonical (clearCopies_canonical h))

theorem devBytes_canonical {s by_ pa bs} (h : BytesCanonical s) : BytesCanonical (devBytes s by_ pa bs) := by
  induction bs generalizing s pa with
  | nil => exact h
  | cons b bs ih => exact ih (devByte_canonical h)

theorem devWrite_canonical {s pa bs} (h : BytesCanonical s) : BytesCanonical (devWrite s pa bs) :=
  foldl_canonical (fun _ _ ht => repackLine_canonical ht) (devBytes_canonical h)

theorem devWriteLe_canonical {s pa n x} (h : BytesCanonical s) : BytesCanonical (devWriteLe s pa n x) :=
  devWrite_canonical h

theorem devWriteMode_canonical {s by_ mode mbf pts pa bs} (h : BytesCanonical s) :
    BytesCanonical (devWriteMode s by_ mode mbf pts pa bs) := by
  unfold devWriteMode
  extract_lets _ s1
  have h1 : BytesCanonical s1 := foldl_canonical (fun _ _ ht => homeTouch_canonical ht) (devBytes_canonical h)
  split
  · exact foldl_canonical (fun _ _ ht => leaseWritten_canonical (getD_canonical (dirRoom_canonical ht) ht)) h1
  · exact h1

theorem setLock_canonical {s line l} (h : BytesCanonical s) : BytesCanonical (setLock s line l) :=
  modH_canonical h rfl

theorem pairEvict_canonical {s pair line} (h : BytesCanonical s) : BytesCanonical (pairEvict s pair line) := by
  unfold pairEvict
  extract_lets _ _ _ _ s1 _ s2 s3 _ _ s4 s5
  have h1 : BytesCanonical s1 := recallUnit_canonical h
  have h2 : BytesCanonical s2 := foldl_canonical (fun _ _ ht => modH_canonical ht rfl) h1
  have h3 : BytesCanonical s3 := tidyPair_canonical (modH_canonical h2 rfl)
  have h4 : BytesCanonical s4 := sliceTouch_canonical h3
  have h5 : BytesCanonical s5 := by
    unfold s5
    split
    · exact h3
    · split
      · exact h4
      · exact modDir_canonical (foldl_canonical (fun _ _ ht => modH_canonical ht rfl) h4)
  exact shareReport_canonical h5

theorem addStale_canonical {s core n} (h : BytesCanonical s) : BytesCanonical (addStale s core n) :=
  modC_canonical h fun _ e => e

theorem renewalCheck_canonical {s pair line} (h : BytesCanonical s) : BytesCanonical (renewalCheck s pair line) := by
  unfold renewalCheck
  split
  · exact h
  · extract_lets s1
    have h1 : BytesCanonical s1 := by
      unfold s1
      split
      · exact h
      · exact addStale_canonical (addStale_canonical h)
    exact modH_canonical h1 rfl

theorem pairTouch_canonical {s pair line mbf} (h : BytesCanonical s) : SomeCanonical (pairTouch s pair line mbf) := by
  unfold pairTouch
  split
  · extract_lets
    refine some_canonical ?_
    split
    · exact modH_canonical h rfl
    · exact h
  · split
    · exact none_canonical
    · extract_lets _ _ _ victim s1
      have h1 : BytesCanonical s1 := by
        unfold s1 victim
        split
        · exact pairEvict_canonical (renewalCheck_canonical h)
        · exact h
      split
      · exact none_canonical
      · exact some_canonical (modH_canonical h1 rfl)

end Sys2Proof.Machine

/-! ### Walk: translation buffers -/

namespace Sys2Proof.Machine
open Safety

theorem tlbAdd_canonical {s core ctx va l} (h : BytesCanonical s) : BytesCanonical (tlbAdd s core ctx va l) :=
  modC_canonical h fun _ e => e

theorem tlbDrop_canonical {s core ctx va} (h : BytesCanonical s) : BytesCanonical (tlbDrop s core ctx va) :=
  modC_canonical h fun _ e => e

theorem tlbLoad_canonical {s core ctx va} (h : BytesCanonical s) : BytesCanonical (tlbLoad s core ctx va) := by
  unfold tlbLoad
  split
  · exact tlbAdd_canonical h
  · exact h

theorem bufferWrite_canonical {s ctx pts va bs} (h : BytesCanonical s) :
    BytesCanonical (bufferWrite s ctx pts va bs) := by
  unfold bufferWrite
  split
  · exact h
  · split
    · exact hostStore_canonical h (fwf_fsetN _ _ _ _)
    · split
      · exact devWriteMode_canonical h
      · exact h

theorem replogAdd_canonical {s ctx kind src where_ who} (h : BytesCanonical s) :
    BytesCanonical (replogAdd s ctx kind src where_ who) := by
  unfold replogAdd
  extract_lets _ _ _ s1
  have h1 : BytesCanonical s1 := modX_canonical (canonical_of_same h rfl)
  split
  · exact h
  · split
    · exact modX_canonical h
    · exact bufferWrite_canonical h1

end Sys2Proof.Machine

/-! ### Records: continuation records and claims -/

namespace Sys2Proof.Machine
open Safety

theorem contOverflow_canonical {s g sub addr} (h : BytesCanonical s) : BytesCanonical (contOverflow s g sub addr) :=
  modX_canonical (addFault_canonical h)

theorem putRecord_canonical {s r} (h : BytesCanonical s) : BytesCanonical (putRecord s r) :=
  canonical_of_same h rfl

theorem mapRecords_canonical {s f} (h : BytesCanonical s) : BytesCanonical (mapRecords s f) :=
  canonical_of_same h rfl

theorem keepRecord_canonical {s r} (h : BytesCanonical s) : BytesCanonical (keepRecord s r) := by
  unfold keepRecord
  extract_lets
  split
  · exact putRecord_canonical h
  · exact modG_canonical (canonical_of_same h rfl)

theorem writeRecord_canonical {s r} (h : BytesCanonical s) : BytesCanonical (writeRecord s r) := by
  unfold writeRecord
  extract_lets
  split
  · exact contOverflow_canonical (keepRecord_canonical h)
  · split
    · exact keepRecord_canonical h
    · extract_lets s1 s2
      have h1 : BytesCanonical s1 := foldl_canonical (fun _ _ ht => devWrite_canonical ht) h
      have h2 : BytesCanonical s2 := foldl_canonical (fun _ _ ht => setTag_canonical ht) h1
      exact putRecord_canonical h2

theorem resizeRecord_canonical {s r} (h : BytesCanonical s) : BytesCanonical (resizeRecord s r) := by
  unfold resizeRecord
  extract_lets _ others
  have hothers : BytesCanonical others := canonical_of_same h rfl
  split
  · exact h
  · split
    · exact putRecord_canonical h
    · split
      · exact putRecord_canonical h
      · exact contOverflow_canonical (modG_canonical hothers)

theorem syncRecords_canonical {s} (h : BytesCanonical s) : BytesCanonical (syncRecords s) := by
  unfold syncRecords
  extract_lets _ s'
  have h' : BytesCanonical s' := foldl_canonical (fun _ _ ht => resizeRecord_canonical ht) (canonical_of_same h rfl)
  exact foldl_canonical (fun _ _ ht => writeRecord_canonical ht) h'

theorem cacheRoom_canonical {s core} (h : BytesCanonical s) : BytesCanonical (cacheRoom s core).1 := by
  unfold cacheRoom
  extract_lets
  split
  · exact h
  · split
    · extract_lets s1
      exact writeRecord_canonical (canonical_of_same h rfl)
    · exact h

theorem grantClaims_canonical {s core lane n} (h : BytesCanonical s) :
    BytesCanonical (grantClaims s core lane n) := by
  induction n generalizing s with
  | zero => exact h
  | succ n ih =>
    rw [grantClaims]
    split
    · exact h
    · extract_lets
      split
      · exact modC_canonical h fun _ e => e
      · extract_lets
        split
        · exact h
        · exact ih (modC_canonical (traceDone_canonical (setG_canonical h)) fun _ e => e)

theorem leaveLane_canonical {s uid} (h : BytesCanonical s) : BytesCanonical (leaveLane s uid) := by
  unfold leaveLane
  extract_lets _ s1 s2
  have h1 : BytesCanonical s1 := setG_canonical h
  have h2 : BytesCanonical s2 := modC_canonical h1 fun _ e => e
  split
  · exact h
  · exact grantClaims_canonical h2

theorem placeRecord_canonical {s r} (h : BytesCanonical s) : BytesCanonical (placeRecord s r) := by
  unfold placeRecord
  extract_lets _ _ _ _ _ stay
  have hstay : ∀ s, BytesCanonical s → BytesCanonical (stay s) := fun _ h' => setG_canonical h'
  split
  · exact hstay _ h
  · split
    · exact contOverflow_canonical (hstay _ h)
    · split
      next s1 e1 =>
        have h1 : BytesCanonical s1 := fst_canonical e1 (cacheRoom_canonical h)
        exact hstay _ h1
      next s1 e1 =>
        have h1 : BytesCanonical s1 := fst_canonical e1 (cacheRoom_canonical h)
        extract_lets s2 s3
        have h2 : BytesCanonical s2 := by
          unfold s2
          split
          · exact h1
          · exact modC_canonical h1 fun _ e => e
        have h3 : BytesCanonical s3 := canonical_of_same h2 rfl
        split
        · exact leaveLane_canonical h3
        · exact h3

theorem depositWhy_canonical {s uid k cond mask st trap why sfpd held} (h : BytesCanonical s) :
    BytesCanonical (depositWhy s uid k cond mask st trap why sfpd held) := by
  unfold depositWhy
  extract_lets _ s1
  have h1 : BytesCanonical s1 := setG_canonical h
  exact placeRecord_canonical h1

theorem deposit_canonical {s uid k cond mask st trap sfpd held} (h : BytesCanonical s) :
    BytesCanonical (deposit s uid k cond mask st trap sfpd held) :=
  depositWhy_canonical h

theorem retryDeposits_canonical {s uid} (h : BytesCanonical s) : BytesCanonical (retryDeposits s uid) := by
  unfold retryDeposits
  extract_lets
  refine foldl_canonical (fun _ _ ht => ?_) h
  split
  · exact placeRecord_canonical (setG_canonical ht)
  · exact ht

theorem dropRecord_canonical {s id} (h : BytesCanonical s) : BytesCanonical (dropRecord s id) :=
  canonical_of_same h rfl

end Sys2Proof.Machine

/-! ### Ops: how an instruction ends -/

namespace Sys2Proof.Machine
open Safety

theorem suspendCur_canonical {s c} (h : BytesCanonical s) : BytesCanonical (suspendCur s c) :=
  deposit_canonical h

theorem takePrecise_canonical {s c t unf acc} (h : BytesCanonical s) :
    BytesCanonical (takePrecise s c t unf acc) := by
  unfold takePrecise
  extract_lets _ _ _ _ _ _ _ _ park
  have hpark : ∀ c, BytesCanonical (park c) := fun _ => depositWhy_canonical (addFault_canonical (setG_canonical h))
  split
  · exact setG_canonical h
  · exact hpark _
  · exact hpark _

theorem startWalk_canonical {s va} (h : BytesCanonical s) : BytesCanonical (startWalk s va) := by
  unfold startWalk
  split
  next s1 e =>
    have h1 : BytesCanonical s1 := snd_canonical e (fresh_canonical h)
    extract_lets _ src
    have hsrc : BytesCanonical src := modCurF_canonical h1
    exact push_canonical (canonical_of_same hsrc rfl)

theorem startFill_canonical {s core ctx uid line} (h : BytesCanonical s) :
    BytesCanonical (startFill s core ctx uid line) := by
  unfold startFill
  split
  · exact h
  · split
    · exact h
    · split
      next s1 e =>
        have h1 : BytesCanonical s1 := snd_canonical e (fresh_canonical h)
        extract_lets s2
        have h2 : BytesCanonical s2 := by
          unfold s2
          split
          · exact traceAdd_canonical h1
          · exact h1
        exact push_canonical (canonical_of_same h2 rfl)

theorem stopped_canonical {s regs e} (h : BytesCanonical s) : BytesCanonical (stopped s regs e) := by
  unfold stopped
  split
  · exact takePrecise_canonical h
  · exact suspendCur_canonical h
  · exact modCurF_canonical h
  · exact startWalk_canonical h
  · exact modCurF_canonical (foldl_canonical (fun _ _ ht => startFill_canonical ht) h)

theorem commit_canonical {i s x} (h : BytesCanonical s) (hx : OkCanonical x) : NextCanonical (commit i s x) := by
  cases x with
  | ok t => exact next_canonical (hx t rfl)
  | error e => exact next_canonical (stopped_canonical h)

theorem advance_canonical {i s} (h : BytesCanonical s) : BytesCanonical (advance i s) :=
  modCurF_canonical h

theorem commitNext_canonical {i s x} (h : BytesCanonical s) (hx : OkCanonical x) :
    NextCanonical (commitNext i s x) := by
  unfold commitNext
  refine commit_canonical h ?_
  refine map_canonical fun t e => ?_
  have ht : BytesCanonical t := hx _ e
  exact advance_canonical ht

theorem jump_canonical {a s} (h : BytesCanonical s) : BytesCanonical (jump a s) :=
  modCurF_canonical h

theorem raiseDeferred_canonical {s uid d r} (h : BytesCanonical s) : BytesCanonical (raiseDeferred s uid d r) := by
  unfold raiseDeferred
  extract_lets
  split
  · exact setG_canonical h
  · exact addFault_canonical h

theorem deferredToFirmware_canonical {s uid} (h : BytesCanonical s) : BytesCanonical (deferredToFirmware s uid) := by
  unfold deferredToFirmware
  extract_lets
  split
  · exact h
  · exact foldl_canonical (fun _ _ ht => addFault_canonical ht) (setG_canonical h)

theorem deliverDeferred_canonical {s d} (h : BytesCanonical s) : BytesCanonical (deliverDeferred s d) :=
  setG_canonical h

theorem returnHandler_canonical {s a} (h : BytesCanonical s) : BytesCanonical (returnHandler s a) := by
  unfold returnHandler
  extract_lets _ _ _ _ s1
  have h1 : BytesCanonical s1 := setG_canonical h
  split <;> exact modCurF_canonical h1

end Sys2Proof.Machine

/-! ### Requests: requests to homes and ports -/

namespace Sys2Proof.Machine
open Safety

theorem setR_canonical {s r q} (h : BytesCanonical s) : BytesCanonical (setR s r q) :=
  canonical_of_same h rfl

theorem modR_canonical {s r f} (h : BytesCanonical s) : BytesCanonical (modR s r f) :=
  setR_canonical h

theorem delR_canonical {s r} (h : BytesCanonical s) : BytesCanonical (delR s r) :=
  canonical_of_same h rfl

theorem addReq_canonical {s q} (h : BytesCanonical s) : BytesCanonical (addReq s q).2 := by
  unfold addReq
  split
  next s1 e =>
    have h1 : BytesCanonical s1 := snd_canonical e (fresh_canonical h)
    exact setR_canonical h1

theorem sendReq_canonical {s q} (h : BytesCanonical s) : BytesCanonical (sendReq s q) := by
  unfold sendReq
  split
  next s1 e =>
    have h1 : BytesCanonical s1 := snd_canonical e (addReq_canonical h)
    exact push_canonical h1

theorem resendAcquires_canonical {s uid} (h : BytesCanonical s) : BytesCanonical (resendAcquires s uid) := by
  unfold resendAcquires
  extract_lets _ _ s1 s2
  have h1 : BytesCanonical s1 := setG_canonical h
  have h2 : BytesCanonical s2 := mapRecords_canonical h1
  exact foldl_canonical (fun _ _ ht => sendReq_canonical ht) h2

theorem cancelWaits_canonical {s uid} (h : BytesCanonical s) : BytesCanonical (cancelWaits s uid) := by
  unfold cancelWaits
  extract_lets
  refine foldl_canonical (fun _ _ ht => ?_) h
  extract_lets _ _ _ _ s1 s2
  have h1 : BytesCanonical s1 := delR_canonical (setLock_canonical ht)
  have h2 : BytesCanonical s2 := modG_canonical h1
  exact mapRecords_canonical h2

end Sys2Proof.Machine

/-! ### Lifecycle: groups, tasks and dispatches -/

namespace Sys2Proof.Machine
open Safety

theorem putTid_canonical {s core n t} (h : BytesCanonical s) : BytesCanonical (putTid s core n t) :=
  modC_canonical h fun _ e => e

theorem preloadTids_canonical {s t i n} (h : BytesCanonical s) : BytesCanonical (preloadTids s t i n) := by
  induction n generalizing s i with
  | zero => exact h
  | succ n ih =>
    rw [preloadTids]
    refine ih ?_
    split
    · exact raiseDeferred_canonical h
    · split
      · exact putTid_canonical h
      · exact raiseDeferred_canonical (putTid_canonical h)

theorem placeGroups_canonical {s t n} (h : BytesCanonical s) : BytesCanonical (placeGroups s t n) := by
  induction n generalizing s with
  | zero => exact h
  | succ n ih =>
    rw [placeGroups]
    split
    · exact h
    · split
      · exact h
      · exact ih (setT_canonical (setG_canonical (fresh_canonical h)))

theorem leaveTeam_canonical {s uid} (h : BytesCanonical s) : BytesCanonical (leaveTeam s uid) := by
  unfold leaveTeam
  extract_lets
  split
  · exact h
  · exact modC_canonical (setG_canonical h) fun _ e => e

theorem slotEffect_canonical {s t k n toE} (h : BytesCanonical s) : BytesCanonical (slotEffect s t k n toE) :=
  modT_canonical h

theorem endRings_canonical {s uid} (h : BytesCanonical s) : BytesCanonical (endRings s uid) := by
  unfold endRings
  extract_lets _ _ s0
  have h0 : BytesCanonical s0 := setG_canonical h
  split
  · exact h
  · split
    · exact foldl_canonical (fun _ _ ht => slotEffect_canonical ht) h
    · refine foldl_canonical (fun _ _ ht => ?_) h0
      split
      next s1 e =>
        have h1 : BytesCanonical s1 := snd_canonical e (fresh_canonical ht)
        exact modG_canonical h1

theorem freeOpenNodes_canonical {s core t} (h : BytesCanonical s) : BytesCanonical (freeOpenNodes s core t) :=
  foldl_canonical (fun _ _ ht' => modC_canonical ht' fun _ e => e) h

theorem startSuccessor_canonical {s t d h} (hs : BytesCanonical s) : BytesCanonical (startSuccessor s t d h) := by
  unfold startSuccessor
  extract_lets
  split
  next s1 e =>
    have h1 : BytesCanonical s1 := snd_canonical e (fresh_canonical hs)
    extract_lets s2
    have h2 : BytesCanonical s2 := canonical_of_same h1 rfl
    exact preloadTids_canonical (placeGroups_canonical (setT_canonical h2))

theorem endTask_canonical {s t} (h : BytesCanonical s) : BytesCanonical (endTask s t) := by
  unfold endTask
  split
  · exact h
  · extract_lets _ live s0 s1
    have hlive : ∀ n s, BytesCanonical s → BytesCanonical (live n s) := fun _ _ h' => canonical_of_same h' rfl
    have h0 : BytesCanonical s0 := canonical_of_same h rfl
    have h1 : BytesCanonical s1 := hlive _ _ (freeOpenNodes_canonical h0)
    split
    · exact h
    · split
      · exact h
      · split
        · exact startSuccessor_canonical h1
        · exact setT_canonical h1
    · exact setT_canonical (hlive _ _ (freeOpenNodes_canonical h0))

theorem endGroup_canonical {s uid} (h : BytesCanonical s) : BytesCanonical (endGroup s uid) := by
  unfold endGroup
  extract_lets s1 _ s2
  have h1 : BytesCanonical s1 := leaveLane_canonical (leaveTeam_canonical (deferredToFirmware_canonical h))
  have h2 : BytesCanonical s2 := setG_canonical h1
  exact endTask_canonical (endRings_canonical h2)

theorem wakeFragment_canonical {s r} (h : BytesCanonical s) : BytesCanonical (wakeFragment s r) := by
  unfold wakeFragment
  extract_lets s1
  have h1 : BytesCanonical s1 := modG_canonical h
  exact dropRecord_canonical h1

theorem admitGroup_canonical {s uid slot} (h : BytesCanonical s) : BytesCanonical (admitGroup s uid slot) := by
  unfold admitGroup
  extract_lets _ _ _ s1 s2 s3 s4 s5
  have h1 : BytesCanonical s1 := setG_canonical h
  have h2 : BytesCanonical s2 := modC_canonical h1 fun _ e => e
  have h3 : BytesCanonical s3 := resendAcquires_canonical h2
  have h4 : BytesCanonical s4 := foldl_canonical (fun _ _ ht => wakeFragment_canonical ht) h3
  have h5 : BytesCanonical s5 := canonical_of_same h4 rfl
  exact grantClaims_canonical h5

end Sys2Proof.Machine

/-! ### Operands: reading and writing vector registers -/

namespace Sys2Proof.Machine
open Safety

theorem writeV_canonical {s a ws} (h : BytesCanonical s) : OkCanonical (writeV s a ws) := by
  unfold writeV
  extract_lets
  split
  · exact error_canonical
  · exact ok_canonical (modCur_canonical h)

theorem raiseFlags_canonical {s fl} (h : BytesCanonical s) : BytesCanonical (raiseFlags s fl) := by
  unfold raiseFlags
  split
  · exact h
  · exact modT_canonical h

theorem laneOp_canonical {i m srcs vd pair aform f s} (h : BytesCanonical s) :
    NextCanonical (laneOp i m srcs vd pair aform f s) := by
  unfold laneOp
  refine commitNext_canonical h ?_
  refine bind_canonical fun _ _ => ?_
  extract_lets
  iterate 3 refine bind_canonical fun _ _ => ?_
  extract_lets
  refine bind_canonical fun t e => ?_
  have ht : BytesCanonical t := writeV_canonical h _ e
  exact ok_canonical (raiseFlags_canonical ht)

end Sys2Proof.Machine

/-! ### Control: branches, divergence, scopes and roles -/

namespace Sys2Proof.Machine
open Safety

theorem execBcnd_canonical {off ss cond s} (h : BytesCanonical s) : NextCanonical (execBcnd off ss cond s) := by
  unfold execBcnd
  extract_lets
  refine commit_canonical h ?_
  iterate 2 refine bind_canonical fun _ _ => ?_
  refine ok_canonical ?_
  split
  · exact jump_canonical h
  · exact advance_canonical h

theorem execLoop_canonical {off ss s} (h : BytesCanonical s) : NextCanonical (execLoop off ss s) := by
  unfold execLoop
  extract_lets
  refine commit_canonical h ?_
  iterate 2 refine bind_canonical fun _ _ => ?_
  extract_lets s1
  have h1 : BytesCanonical s1 := modCur_canonical h
  refine ok_canonical ?_
  split
  · exact jump_canonical h1
  · exact advance_canonical h1

theorem execCall_canonical {off s} (h : BytesCanonical s) : NextCanonical (execCall off s) := by
  unfold execCall
  refine commit_canonical h ?_
  refine bind_canonical fun _ _ => ?_
  extract_lets s1
  have h1 : BytesCanonical s1 := modCur_canonical h
  exact ok_canonical (jump_canonical h1)

theorem execRet_canonical {b1 ss s} (h : BytesCanonical s) : NextCanonical (execRet b1 ss s) :=
  commit_canonical h (bind_canonical fun _ _ => ok_canonical (jump_canonical h))

theorem execRetX_canonical {b1 ss s} (h : BytesCanonical s) : NextCanonical (execRetX b1 ss s) :=
  commit_canonical h (bind_canonical fun _ _ => bind_canonical fun _ _ => ok_canonical (returnHandler_canonical h))

theorem execVbra_canonical {toff joff mk s} (h : BytesCanonical s) : NextCanonical (execVbra toff joff mk s) := by
  unfold execVbra
  extract_lets
  refine commit_canonical h ?_
  split
  · exact ok_canonical (advance_canonical h)
  · split
    · exact ok_canonical (jump_canonical h)
    · split
      · exact error_canonical
      · exact ok_canonical (setG_canonical h)

theorem onVjoin_canonical {s uid p next n k} (h : BytesCanonical s) : BytesCanonical (onVjoin s uid p next n k) := by
  induction n generalizing s k with
  | zero => exact h
  | succ n ih =>
    rw [onVjoin]
    split
    · exact h
    · split
      · exact deposit_canonical (modG_canonical h)
      · split
        · exact deposit_canonical (modG_canonical h)
        · split
          extract_lets s1 s2
          have h1 : BytesCanonical s1 := setG_canonical h
          have h2 : BytesCanonical s2 := canonical_of_same h1 rfl
          exact ih h2

theorem exitFragment_canonical {s} (h : BytesCanonical s) : BytesCanonical (exitFragment s) := by
  unfold exitFragment
  extract_lets s1
  have h1 : BytesCanonical s1 := modCur_canonical h
  split
  · exact endGroup_canonical h1
  · exact h1

theorem execExit_canonical {s} (h : BytesCanonical s) : NextCanonical (execExit s) :=
  commit_canonical h (bind_canonical fun _ _ => ok_canonical (exitFragment_canonical h))

theorem succWaits_canonical {s sd} (h : BytesCanonical s) : BytesCanonical (succWaits s sd) := by
  unfold succWaits
  extract_lets s1
  have h1 : BytesCanonical s1 := modCur_canonical h
  exact modT_canonical h1

theorem execExitSucc_canonical {sd s} (h : BytesCanonical s) : NextCanonical (execExitSucc sd s) := by
  unfold execExitSucc
  extract_lets _ _ _ s1
  have h1 : BytesCanonical s1 := modT_canonical h
  refine commit_canonical h ?_
  iterate 4 refine bind_canonical fun _ _ => ?_
  extract_lets _ s1'
  have h1' : BytesCanonical s1' := succWaits_canonical (modT_canonical h)
  iterate 3 refine bind_canonical fun _ _ => ?_
  split
  · exact error_canonical
  · split
    · exact bind_canonical fun _ _ => bind_canonical fun _ _ => ok_canonical (push_canonical h1')
    · exact bind_canonical fun _ _ => ok_canonical (succWaits_canonical h)
    · refine bind_canonical fun _ _ => ?_
      split
      · exact ok_canonical (exitFragment_canonical h)
      · exact ok_canonical (stopped_canonical h1)

theorem execSfp_canonical {n s} (h : BytesCanonical s) : NextCanonical (execSfp n s) := by
  unfold execSfp
  extract_lets
  refine commit_canonical h ?_
  refine bind_canonical fun _ _ => ?_
  split
  · exact ok_canonical (advance_canonical h)
  · split
    · exact bind_canonical fun _ _ => ok_canonical (jump_canonical (modCur_canonical h))
    · exact ok_canonical (advance_canonical (modCur_canonical h))

theorem execContDep_canonical {s} (h : BytesCanonical s) : NextCanonical (execContDep s) := by
  unfold execContDep
  refine commit_canonical h ?_
  extract_lets
  split
  · exact error_canonical
  · iterate 2 refine bind_canonical fun _ _ => ?_
    extract_lets s1
    have h1 : BytesCanonical s1 := cancelWaits_canonical (modCur_canonical (jump_canonical h))
    exact ok_canonical (deposit_canonical h1)

theorem execRoleYield_canonical {s} (h : BytesCanonical s) : NextCanonical (execRoleYield s) := by
  unfold execRoleYield
  refine commitNext_canonical h ?_
  extract_lets
  refine bind_canonical fun _ _ => ?_
  split
  · split
    · exact ok_canonical h
    · extract_lets s1
      have h1 : BytesCanonical s1 := modCur_canonical h
      exact ok_canonical (modT_canonical h1)
  · exact ok_canonical h

theorem execScopeOpen_canonical {k s} (h : BytesCanonical s) : NextCanonical (execScopeOpen k s) :=
  commitNext_canonical h (bind_canonical fun _ _ => bind_canonical fun _ _ => ok_canonical (modCur_canonical h))

theorem grantLane_canonical {s} (h : BytesCanonical s) : BytesCanonical (grantLane s) := by
  unfold grantLane
  split
  · exact grantClaims_canonical h
  · exact h

theorem execScopeClose_canonical {s} (h : BytesCanonical s) : NextCanonical (execScopeClose s) := by
  unfold execScopeClose
  refine commitNext_canonical h ?_
  extract_lets
  split
  · exact error_canonical
  · exact bind_canonical fun _ _ => ok_canonical (grantLane_canonical (modCur_canonical h))

theorem execRgive_canonical {k s} (h : BytesCanonical s) : NextCanonical (execRgive k s) :=
  commitNext_canonical h (bind_canonical fun _ _ => bind_canonical fun _ _ => ok_canonical
    (grantLane_canonical (modCur_canonical h)))

theorem execRclaim_canonical {k sd s} (h : BytesCanonical s) : NextCanonical (execRclaim k sd s) := by
  unfold execRclaim
  refine commitNext_canonical h ?_
  refine bind_canonical fun _ _ => ?_
  extract_lets _ _ _ s1
  have h1 : BytesCanonical s1 := modCur_canonical h
  iterate 2 refine bind_canonical fun _ _ => ?_
  split
  · exact ok_canonical (modC_canonical (traceAdd_canonical h1) fun _ e => e)
  · exact ok_canonical (modCur_canonical h)

end Sys2Proof.Machine

/-! ### Pipe: the memory pipeline of a core -/

namespace Sys2Proof.Machine
open Safety

theorem retire_canonical {s core} (h : BytesCanonical s) : BytesCanonical (retire s core) :=
  modC_canonical h fun _ e => e

theorem ackFifo_canonical {s core0 uid op line} (h : BytesCanonical s) :
    BytesCanonical (ackFifo s core0 uid op line) :=
  retire_canonical (modC_canonical h fun _ e => e)

theorem ackAll_canonical {s core0 uid op} (h : BytesCanonical s) : BytesCanonical (ackAll s core0 uid op) :=
  retire_canonical (modC_canonical h fun _ e => e)

theorem dropMarker_canonical {s core0 uid op} (h : BytesCanonical s) : BytesCanonical (dropMarker s core0 uid op) :=
  retire_canonical (modC_canonical h fun _ e => e)

theorem watchPiece_canonical {s core ctx kind p} (h : BytesCanonical s) :
    BytesCanonical (watchPiece s core ctx kind p) := by
  unfold watchPiece
  split
  · exact h
  · exact foldl_canonical (fun _ _ ht => watchWord_canonical ht) h

theorem tellRefused_canonical {s g o} (h : BytesCanonical s) : BytesCanonical (tellRefused s g o) := by
  unfold tellRefused
  split
  · exact h
  · exact raiseDeferred_canonical h

theorem finishOp_canonical {s uid id} (h : BytesCanonical s) : BytesCanonical (finishOp s uid id) := by
  unfold finishOp
  extract_lets
  split
  · exact h
  · split
    · extract_lets s'
      have h' : BytesCanonical s' := by
        unfold s'
        split
        · exact h
        · exact modT_canonical h
      exact tellRefused_canonical (traceDone_canonical (setG_canonical h'))

theorem settleOp_canonical {s uid id} (h : BytesCanonical s) : BytesCanonical (settleOp s uid id) := by
  unfold settleOp
  split
  · split
    · exact finishOp_canonical h
    · exact h
  · exact h

theorem answer_canonical {s rq res} (h : BytesCanonical s) : BytesCanonical (answer s rq res) := by
  unfold answer
  extract_lets _ s1
  have h1 : BytesCanonical s1 := delR_canonical h
  split
  · extract_lets s2
    have h2 : BytesCanonical s2 := setG_canonical h1
    exact settleOp_canonical h2
  · exact h1

theorem monitorReply_canonical {s m code} (h : BytesCanonical s) : BytesCanonical (monitorReply s m code) :=
  answer_canonical (modH_canonical h rfl)

theorem wakeMonitors_canonical {s gw} (h : BytesCanonical s) : BytesCanonical (wakeMonitors s gw) :=
  foldl_canonical (fun _ _ ht => monitorReply_canonical ht) h

theorem signal_canonical {s sig p} (h : BytesCanonical s) : BytesCanonical (signal s sig p) := by
  unfold signal
  split
  · exact h
  · exact foldl_canonical (fun _ _ ht => wakeMonitors_canonical ht) h

theorem countStash_canonical {s core p} (h : BytesCanonical s) : BytesCanonical (countStash s core p) := by
  unfold countStash
  refine foldl_canonical (fun _ _ ht => ?_) h
  extract_lets
  split
  · exact setSWord_canonical ht
  · exact ht

theorem stashWrite_canonical {s core place bs} (h : BytesCanonical s) : BytesCanonical (stashWrite s core place bs) :=
  modC_canonical h fun _ hx => fwf_fsetN _ _ _ _ hx

theorem stashCheck_canonical {s core k} (h : BytesCanonical s) : BytesCanonical (stashCheck s core k) := by
  unfold stashCheck
  extract_lets _ _ s1
  have h1 : BytesCanonical s1 := setSWord_canonical h
  split
  · exact h
  · split
    · exact addStale_canonical h1
    · exact h1

theorem leaseBytes_canonical {s core k bound x} (h : BytesCanonical s) :
    BytesCanonical (leaseBytes s core k bound x) := by
  refine modC_canonical h fun c hc => foldl_wf (fun m b hm => ?_) hc
  split
  · exact fwf_fset _ _ _ _ hm
  · exact hm

theorem storeMapped_canonical {s core p bs} (h : BytesCanonical s) : BytesCanonical (storeMapped s core p bs) := by
  unfold storeMapped
  extract_lets _ s1
  have h1 : BytesCanonical s1 := by
    unfold s1
    refine foldl_canonical (fun _ _ ht => ?_) h
    extract_lets _ _ _ _ _ s' s'' s'''
    have h' : BytesCanonical s' := stashCheck_canonical ht
    have h'' : BytesCanonical s'' := foldl_canonical (fun _ _ ht' => dropSharers_canonical ht') h'
    have h''' : BytesCanonical s''' := foldl_canonical (fun _ _ ht' => leaseBytes_canonical ht') h''
    exact setSWord_canonical h'''
  exact stashWrite_canonical h1

theorem orderPieces_canonical {s ps} (h : BytesCanonical s) : BytesCanonical (orderPieces s ps).1 := by
  unfold orderPieces
  split
  · exact canonical_of_same h rfl
  · exact h

end Sys2Proof.Machine

/-! ### Issue: sending and issuing operations -/

namespace Sys2Proof.Machine
open Safety

theorem atomicHome_canonical {s by_ a p inUnit} (h : BytesCanonical s) :
    BytesCanonical (atomicHome s by_ a p inUnit).1 := by
  unfold atomicHome
  extract_lets
  dsimp only
  refine foldl_canonical (fun _ _ ht => ?_) h
  split
  · split
    · exact pokeByte_canonical ht
    · exact devByte_canonical ht
  · exact ht

theorem atomicBank_canonical {s core a p} (h : BytesCanonical s) : BytesCanonical (atomicBank s core a p).1 :=
  stashWrite_canonical h

theorem expect_canonical {s uid op} (h : BytesCanonical s) : BytesCanonical (expect s uid op) :=
  setG_canonical h

theorem sendFor_canonical {s uid op q} (h : BytesCanonical s) : BytesCanonical (sendFor s uid op q) :=
  sendReq_canonical (expect_canonical h)

theorem replyFor_canonical {s uid op q res} (h : BytesCanonical s) : BytesCanonical (replyFor s uid op q res) := by
  unfold replyFor
  split
  next s1 e =>
    have h1 : BytesCanonical s1 := snd_canonical e (addReq_canonical (expect_canonical h))
    exact push_canonical h1

theorem addGot_canonical {s uid op l} (h : BytesCanonical s) : BytesCanonical (addGot s uid op l) :=
  setG_canonical h

theorem setWait_canonical {s uid op l} (h : BytesCanonical s) : BytesCanonical (setWait s uid op l) :=
  setG_canonical h

theorem addWait_canonical {s uid op l} (h : BytesCanonical s) : BytesCanonical (addWait s uid op l) :=
  setG_canonical h

theorem mapPieces_canonical {s core uid op f} (h : BytesCanonical s) :
    BytesCanonical (mapPieces s core uid op f) := by
  unfold mapPieces
  extract_lets _ _ s1
  have h1 : BytesCanonical s1 := setG_canonical h
  split
  · exact ackAll_canonical h1
  · exact foldl_canonical (fun _ _ ht => ackFifo_canonical ht) h1

theorem donePieces_canonical {s core uid op ps} (h : BytesCanonical s) :
    BytesCanonical (donePieces s core uid op ps) :=
  mapPieces_canonical h

theorem hitLease_canonical {s g line n c mbf} (h : BytesCanonical s) :
    BytesCanonical (hitLease s g line n c mbf) := by
  unfold hitLease
  extract_lets s1 s2
  have h1 : BytesCanonical s1 := modH_canonical h rfl
  have h2 : BytesCanonical s2 := getD_canonical (pairTouch_canonical h1) h1
  exact raisePts_canonical h2

theorem sendLeaseLoad_canonical {s g o line ps} (h : BytesCanonical s) :
    BytesCanonical (sendLeaseLoad s g o line ps) := by
  unfold sendLeaseLoad
  extract_lets
  split
  · exact replyFor_canonical (hitLease_canonical h)
  · exact sendFor_canonical h

theorem sendDirLoad_canonical {s g o line ps} (h : BytesCanonical s) :
    BytesCanonical (sendDirLoad s g o line ps) := by
  unfold sendDirLoad
  extract_lets _ _ _ s1
  have h1 : BytesCanonical s1 := getD_canonical (pairTouch_canonical h) h
  split
  · exact replyFor_canonical h1
  · split
    · exact sendFor_canonical h
    · extract_lets s1' s2
      have h1' : BytesCanonical s1' := sliceTouch_canonical h
      have h2 : BytesCanonical s2 := by
        unfold s2
        split
        · exact modH_canonical h1' rfl
        · exact h1'
      split
      next s1'' e =>
        have h1'' : BytesCanonical s1'' := snd_canonical e (addReq_canonical (expect_canonical h2))
        exact push_canonical h1''

theorem fillFor_canonical {s g ps} (h : BytesCanonical s) : BytesCanonical (fillFor s g ps) := by
  unfold fillFor
  refine foldl_canonical (fun _ _ ht => ?_) h
  split
  · exact ht
  · refine foldl_canonical (fun _ _ ht' => ?_) ht
    split
    · exact ht'
    · exact startFill_canonical ht'

theorem sendHost_canonical {s g o kind} (h : BytesCanonical s) : BytesCanonical (sendHost s g o kind) := by
  unfold sendHost
  extract_lets
  split <;> exact foldl_canonical (fun _ _ ht => sendFor_canonical ht) h

theorem sendLoad_canonical {s g o} (h : BytesCanonical s) : BytesCanonical (sendLoad s g o) := by
  unfold sendLoad
  extract_lets _ _ _ s0 s1 s2 s3 _ s4 _ s5
  have h0 : BytesCanonical s0 := foldl_canonical (fun _ _ ht => countStash_canonical ht) h
  have h1 : BytesCanonical s1 := foldl_canonical (fun _ _ ht => watchPiece_canonical ht) h0
  have h2 : BytesCanonical s2 := setWait_canonical (addGot_canonical h1)
  have h3 : BytesCanonical s3 := fillFor_canonical h2
  have h4 : BytesCanonical s4 := foldl_canonical (fun _ _ ht => sendLeaseLoad_canonical ht) h3
  have h5 : BytesCanonical s5 := by
    unfold s5
    split <;> exact foldl_canonical (fun _ _ ht => sendDirLoad_canonical ht) h4
  exact sendHost_canonical h5

theorem performGlobal_canonical {s g o p} (h : BytesCanonical s) : BytesCanonical (performGlobal s g o p) := by
  unfold performGlobal
  extract_lets s1 s2
  have h1 : BytesCanonical s1 := dropSharers_canonical h
  have h2 : BytesCanonical s2 := pokeBytes_canonical h1
  refine signal_canonical ?_
  split
  · exact setTag_canonical h2
  · exact h2

theorem performStash_canonical {s g o p} (h : BytesCanonical s) : BytesCanonical (performStash s g o p) := by
  unfold performStash
  extract_lets s0 s1 s2
  have h0 : BytesCanonical s0 := watchPiece_canonical h
  have h1 : BytesCanonical s1 := by
    unfold s1
    split
    · exact stashWrite_canonical h0
    · exact storeMapped_canonical h0
  have h2 : BytesCanonical s2 := by
    unfold s2
    split
    · exact h1
    · exact modC_canonical h1 fun _ e => e
  exact signal_canonical h2

theorem pairTakes_canonical {s core p} (h : BytesCanonical s) : SomeCanonical (pairTakes s core p) :=
  pairTouch_canonical h

theorem mergeReq_canonical {s uid op r q} (h : BytesCanonical s) : BytesCanonical (mergeReq s uid op r q) := by
  unfold mergeReq
  split
  next s1 e =>
    have h1 : BytesCanonical s1 := snd_canonical e (addReq_canonical (expect_canonical h))
    exact modR_canonical h1

theorem requestOwn_canonical {s g o q} (h : BytesCanonical s) : BytesCanonical (requestOwn s g o q) := by
  unfold requestOwn
  extract_lets _ _ s1
  have h1 : BytesCanonical s1 := by
    unfold s1
    split
    · exact h
    · exact sendFor_canonical h
  exact foldl_canonical (fun _ _ ht => mergeReq_canonical ht) h1

theorem sendDirStore_canonical {s g o line ps} (h : BytesCanonical s) :
    BytesCanonical (sendDirStore s g o line ps) := by
  unfold sendDirStore
  extract_lets _ _ takes
  unfold takes
  split
  · exact sendFor_canonical h
  next s1 e =>
    have h1 : BytesCanonical s1 := by
      refine (?_ : SomeCanonical _) _ e
      split
      · exact none_canonical
      · exact optionBind_canonical fun _ _ => pairTakes_canonical h
    extract_lets _ _ s2 s3
    have h2 : BytesCanonical s2 := foldl_canonical (fun _ _ ht => performGlobal_canonical ht) h1
    have h3 : BytesCanonical s3 := by
      unfold s3
      split
      · exact h2
      · exact donePieces_canonical h2
    split
    · exact h3
    · split
      · exact sendFor_canonical h3
      · exact requestOwn_canonical h3

theorem requestMapped_canonical {s g o ps x} (h : BytesCanonical s) : BytesCanonical (requestMapped s g o ps x) := by
  unfold requestMapped
  extract_lets
  split
  · exact h
  · split
    · exact sendFor_canonical h
    · exact requestOwn_canonical h

theorem sendMapped_canonical {s g o ps} (h : BytesCanonical s) : BytesCanonical (sendMapped s g o ps) := by
  unfold sendMapped
  extract_lets _ _ s1 s2
  have h1 : BytesCanonical s1 := foldl_canonical (fun _ _ ht => performStash_canonical ht) h
  have h2 : BytesCanonical s2 := by
    unfold s2
    split
    · exact h1
    · exact donePieces_canonical h1
  exact foldl_canonical (fun _ _ ht => requestMapped_canonical ht) h2

theorem startMapped_canonical {s g o ps} (h : BytesCanonical s) : BytesCanonical (startMapped s g o ps) := by
  unfold startMapped
  extract_lets _ s1
  have h1 : BytesCanonical s1 := by
    unfold s1
    split
    · exact h
    · exact fillFor_canonical (addWait_canonical h)
  exact sendMapped_canonical h1

theorem sendStore_canonical {s g o} (h : BytesCanonical s) : BytesCanonical (sendStore s g o) := by
  unfold sendStore
  extract_lets _ s1 s2 s3 _ s4 s5
  have h1 : BytesCanonical s1 := foldl_canonical (fun _ _ ht => performStash_canonical ht) h
  have h2 : BytesCanonical s2 := by
    unfold s2
    split
    · exact h1
    · exact donePieces_canonical h1
  have h3 : BytesCanonical s3 := startMapped_canonical h2
  have h4 : BytesCanonical s4 := foldl_canonical (fun _ _ ht => sendDirStore_canonical ht) h3
  have h5 : BytesCanonical s5 := foldl_canonical (fun _ _ ht => sendFor_canonical ht) h4
  exact sendHost_canonical h5

theorem sendTiles_canonical {s g o} (h : BytesCanonical s) : BytesCanonical (sendTiles s g o) :=
  donePieces_canonical (modC_canonical h fun _ e => e)

theorem ackBanks_canonical {s uid op} (h : BytesCanonical s) : BytesCanonical (ackBanks s uid op) := by
  unfold ackBanks
  split
  · exact h
  · exact foldl_canonical (fun _ _ ht => ackFifo_canonical ht) h

theorem sendAtomic_canonical {a fetch s g o p} (h : BytesCanonical s) :
    BytesCanonical (sendAtomic a fetch s g o p) := by
  unfold sendAtomic
  split
  · split
    · extract_lets r s1
      have hr : BytesCanonical r.1 := atomicBank_canonical (watchPiece_canonical h)
      have h1 : BytesCanonical s1 := by
        unfold s1
        refine foldl_canonical (fun _ _ ht => ?_) hr
        split
        · exact ht
        · exact setSWord_canonical ht
      split
      · exact addGot_canonical h1
      · exact h1
    · extract_lets s1
      have h1 : BytesCanonical s1 := setG_canonical h
      exact fillFor_canonical h1
  · exact sendFor_canonical h

theorem sendRow_canonical {fetch s g o} (h : BytesCanonical s) : BytesCanonical (sendRow fetch s g o) := by
  unfold sendRow
  split
  · exact h
  · split
    · exact sendFor_canonical h
    · refine foldl_canonical (fun _ _ ht => ?_) h
      extract_lets _ s1
      have h1 : BytesCanonical s1 := stashWrite_canonical (watchPiece_canonical ht)
      split
      · exact addGot_canonical h1
      · exact h1

theorem sendCap_canonical {s g o} (h : BytesCanonical s) : BytesCanonical (sendCap s g o) := by
  unfold sendCap
  split
  · exact h
  · extract_lets _ _ s'
    have h' : BytesCanonical s' := watchPiece_canonical h
    split
    · split
      · split
        · exact addGot_canonical h'
        · exact fillFor_canonical (setWait_canonical h')
      · split
        · exact replyFor_canonical (hitLease_canonical h)
        · exact sendFor_canonical h
    · extract_lets
      split
      · split
        · exact donePieces_canonical (performStash_canonical h)
        · exact startMapped_canonical h
      · split
        · exact donePieces_canonical (performGlobal_canonical (getD_canonical (pairTakes_canonical h) h))
        · split
          · exact mergeReq_canonical h
          · exact sendFor_canonical h
    · exact h

theorem sendEngine_canonical {s cmd} (h : BytesCanonical s) : BytesCanonical (sendEngine s cmd) :=
  canonical_of_same h rfl

theorem sendOp_canonical {s uid id} (h : BytesCanonical s) : BytesCanonical (sendOp s uid id) := by
  unfold sendOp
  extract_lets _ s0
  have h0 : BytesCanonical s0 := setG_canonical h
  split
  · exact h
  · extract_lets _ one s1
    have hone : ∀ k, BytesCanonical (one k) := by
      intro _
      unfold one
      split
      · exact sendFor_canonical h0
      · exact h0
    have h1 : BytesCanonical s1 := by
      unfold s1
      split
      · exact sendLoad_canonical h0
      · exact sendLoad_canonical h0
      · exact sendStore_canonical h0
      · exact sendStore_canonical h0
      · exact sendTiles_canonical h0
      · exact ackBanks_canonical (foldl_canonical (fun _ _ ht => sendAtomic_canonical ht) h0)
      · exact ackBanks_canonical (sendRow_canonical h0)
      · exact sendCap_canonical h0
      · exact sendCap_canonical h0
      · exact hone _
      · exact hone _
      · exact hone _
      · exact hone _
      · exact hone _
      · exact sendEngine_canonical h0
      · exact h0
      · exact h0
      · exact h0
      · exact h0
    exact settleOp_canonical h1

theorem resendMapped_canonical {s uid op ps} (h : BytesCanonical s) : BytesCanonical (resendMapped s uid op ps) := by
  unfold resendMapped
  extract_lets _ _ _ _ _ _ s1
  have h1 : BytesCanonical s1 := setG_canonical h
  split
  · exact h
  · extract_lets s2 s3 s4
    have h2 : BytesCanonical s2 := foldl_canonical (fun _ _ ht => performStash_canonical ht) h1
    have h3 : BytesCanonical s3 := by
      unfold s3
      split
      · exact h2
      · exact donePieces_canonical h2
    have h4 : BytesCanonical s4 := by
      unfold s4
      split
      · exact h3
      · exact fillFor_canonical (addWait_canonical h3)
    exact settleOp_canonical (startMapped_canonical h4)

theorem finishMapped_canonical {s uid op} (h : BytesCanonical s) : BytesCanonical (finishMapped s uid op) := by
  unfold finishMapped
  extract_lets
  split
  · exact h
  · extract_lets _ _ _ _ _ _ _ s1 s2
    have h1 : BytesCanonical s1 := by
      unfold s1
      refine foldl_canonical (fun _ _ ht => performStash_canonical ht) ?_
      split
      · exact h
      · exact addWait_canonical h
    have h2 : BytesCanonical s2 := by
      unfold s2
      split
      · exact h1
      · exact donePieces_canonical h1
    split
    · exact settleOp_canonical h2
    · exact resendMapped_canonical h2

theorem serveGroup_canonical {s uid} (h : BytesCanonical s) : BytesCanonical (serveGroup s uid) := by
  unfold serveGroup
  refine foldl_canonical (fun _ _ ht => ?_) h
  extract_lets
  split
  · exact ht
  · split
    · exact ht
    · extract_lets _ _ s1 s2
      have h1 : BytesCanonical s1 := setWait_canonical ht
      have h2 : BytesCanonical s2 := by
        unfold s2
        split
        · exact settleOp_canonical (addGot_canonical h1)
        · exact settleOp_canonical (addGot_canonical h1)
        · exact settleOp_canonical (addGot_canonical h1)
        · exact settleOp_canonical (ackBanks_canonical (foldl_canonical (fun _ _ ht' => sendAtomic_canonical ht') h1))
        · exact resendMapped_canonical h1
        · exact resendMapped_canonical h1
        · exact h1
      split
      · exact ht
      · exact h2

theorem serveCore_canonical {s core} (h : BytesCanonical s) : BytesCanonical (serveCore s core) :=
  foldl_canonical (fun _ _ ht => serveGroup_canonical ht) h

theorem endMem_canonical {i s s1 us one acc} (h1 : BytesCanonical s1) :
    BytesCanonical (endMem i s s1 us one acc) := by
  unfold endMem
  split
  · exact advance_canonical h1
  · extract_lets _ _ s1'
    have h1' : BytesCanonical s1' := modCurF_canonical h1
    exact takePrecise_canonical h1'

theorem issueOp_canonical {s o} (h : BytesCanonical s) : BytesCanonical (issueOp s o) := by
  unfold issueOp
  extract_lets
  split
  next s1 e =>
    have h1 : BytesCanonical s1 := snd_canonical e (fresh_canonical h)
    split
    next s2 _ e1 =>
      have h2 : BytesCanonical s2 := by
        refine fst_canonical e1 ?_
        split
        · exact orderPieces_canonical h1
        · exact h1
      extract_lets _ _ _ s3 _ s4 s5
      have h3 : BytesCanonical s3 := modC_canonical h2 fun _ e => e
      have h4 : BytesCanonical s4 := setG_canonical h3
      have h5 : BytesCanonical s5 := by
        unfold s5
        split
        · exact traceAdd_canonical h4
        · exact h4
      split
      · exact h5
      · exact sendOp_canonical h5

theorem issueTo_canonical {s o uni us} (h : BytesCanonical s) : OkCanonical (issueTo s o uni us) := by
  unfold issueTo
  split
  · split
    · exact ok_canonical h
    · exact bind_canonical fun _ _ => ok_canonical (modCur_canonical h)
  · split
    · exact error_canonical
    · exact bind_canonical fun _ _ => bind_canonical fun _ _ => ok_canonical (issueOp_canonical (modCur_canonical h))

end Sys2Proof.Machine

/-! ### Memory: loads, stores and tile transfers -/

namespace Sys2Proof.Machine
open Safety

theorem vload_canonical {i m vo vd w cap lease nt od s} (h : BytesCanonical s) :
    NextCanonical (vload i m vo vd w cap lease nt od s) := by
  unfold vload
  refine commit_canonical h ?_
  refine bind_canonical fun _ _ => ?_
  extract_lets
  iterate 4 refine bind_canonical fun _ _ => ?_
  split
  · exact ok_canonical (advance_canonical h)
  · extract_lets
    iterate 2 refine bind_canonical fun _ _ => ?_
    split
    · extract_lets
      refine bind_canonical fun t e => ?_
      have ht : BytesCanonical t := issueTo_canonical h _ e
      exact ok_canonical (endMem_canonical ht)

theorem vstore_canonical {i m vo dv w cap nt sig od s} (h : BytesCanonical s) :
    NextCanonical (vstore i m vo dv w cap nt sig od s) := by
  unfold vstore
  refine commit_canonical h ?_
  refine bind_canonical fun _ _ => ?_
  extract_lets
  iterate 4 refine bind_canonical fun _ _ => ?_
  split
  · exact ok_canonical (advance_canonical h)
  · extract_lets
    iterate 3 refine bind_canonical fun _ _ => ?_
    split
    · refine bind_canonical fun _ _ => ?_
      extract_lets
      refine bind_canonical fun t e => ?_
      have ht : BytesCanonical t := issueTo_canonical h _ e
      exact ok_canonical (endMem_canonical ht)

theorem execLds_canonical {m lsel bo cap so vd w s} (h : BytesCanonical s) :
    NextCanonical (execLds m lsel bo cap so vd w s) := by
  unfold execLds
  extract_lets
  refine commit_canonical h ?_
  iterate 5 refine bind_canonical fun _ _ => ?_
  split
  · exact ok_canonical (advance_canonical h)
  · extract_lets
    iterate 2 refine bind_canonical fun _ _ => ?_
    split
    · extract_lets
      refine bind_canonical fun t e => ?_
      have ht : BytesCanonical t := issueTo_canonical h _ e
      exact ok_canonical (endMem_canonical ht)

theorem execSts_canonical {m bd bo cap so vd sg w s} (h : BytesCanonical s) :
    NextCanonical (execSts m bd bo cap so vd sg w s) := by
  unfold execSts
  extract_lets
  refine commit_canonical h ?_
  iterate 5 refine bind_canonical fun _ _ => ?_
  split
  · exact ok_canonical (advance_canonical h)
  · extract_lets
    iterate 3 refine bind_canonical fun _ _ => ?_
    split
    · refine bind_canonical fun _ _ => ?_
      refine bind_canonical fun t e => ?_
      have ht : BytesCanonical t := issueTo_canonical h _ e
      exact ok_canonical (endMem_canonical ht)

theorem execSld_canonical {ord scope cap so sd w s} (h : BytesCanonical s) :
    NextCanonical (execSld ord scope cap so sd w s) := by
  unfold execSld
  extract_lets
  refine commit_canonical h ?_
  iterate 4 refine bind_canonical fun _ _ => ?_
  extract_lets
  iterate 2 refine bind_canonical fun _ _ => ?_
  split
  · refine bind_canonical fun t e => ?_
    have ht : BytesCanonical t := issueTo_canonical h _ e
    exact ok_canonical (endMem_canonical ht)

theorem execSst_canonical {ord scope cap so ss sg w s} (h : BytesCanonical s) :
    NextCanonical (execSst ord scope cap so ss sg w s) := by
  unfold execSst
  extract_lets
  refine commit_canonical h ?_
  iterate 4 refine bind_canonical fun _ _ => ?_
  extract_lets
  iterate 3 refine bind_canonical fun _ _ => ?_
  split
  · refine bind_canonical fun _ _ => ?_
    refine bind_canonical fun t e => ?_
    have ht : BytesCanonical t := issueTo_canonical h _ e
    exact ok_canonical (endMem_canonical ht)

theorem prefetchLine_canonical {s level va} (h : BytesCanonical s) : BytesCanonical (prefetchLine s level va) := by
  unfold prefetchLine
  extract_lets
  split
  · exact h
  · split
    · exact h
    · exact sendReq_canonical h

theorem prefetchStash_canonical {s a} (h : BytesCanonical s) : BytesCanonical (prefetchStash s a) := by
  unfold prefetchStash
  extract_lets
  split
  · exact h
  · split
    · exact h
    · exact startFill_canonical h

theorem execPfch_canonical {m lsel bo cap vo s} (h : BytesCanonical s) :
    NextCanonical (execPfch m lsel bo cap vo s) := by
  unfold execPfch
  extract_lets
  refine commitNext_canonical h ?_
  iterate 4 refine bind_canonical fun _ _ => ?_
  extract_lets
  split
  · exact ok_canonical h
  · refine bind_canonical fun _ _ => ?_
    refine ok_canonical ?_
    refine foldl_canonical (fun _ _ ht => ?_) h
    split
    · exact ht
    · split
      · exact prefetchStash_canonical ht
      · exact prefetchLine_canonical ht

theorem execTld_canonical {m bo cap vo vd s} (h : BytesCanonical s) : NextCanonical (execTld m bo cap vo vd s) := by
  unfold execTld
  extract_lets
  refine commitNext_canonical h ?_
  iterate 5 refine bind_canonical fun _ _ => ?_
  split
  · exact ok_canonical h
  · exact bind_canonical fun _ _ => issueTo_canonical h

theorem execTst_canonical {m bd bo cap vo vd s} (h : BytesCanonical s) :
    NextCanonical (execTst m bd bo cap vo vd s) := by
  unfold execTst
  extract_lets
  refine commitNext_canonical h ?_
  iterate 5 refine bind_canonical fun _ _ => ?_
  split
  · exact ok_canonical h
  · extract_lets
    refine bind_canonical fun _ _ => ?_
    split
    · exact error_canonical
    · exact issueTo_canonical h

end Sys2Proof.Machine

/-! ### Atomic: vector, row and scalar atomics -/

namespace Sys2Proof.Machine
open Safety

theorem vatom_canonical {i a m sg fetch os cap vo vd s} (h : BytesCanonical s) :
    NextCanonical (vatom i a m sg fetch os cap vo vd s) := by
  unfold vatom
  refine commit_canonical h ?_
  refine bind_canonical fun _ _ => ?_
  extract_lets
  iterate 4 refine bind_canonical fun _ _ => ?_
  split
  · exact ok_canonical (advance_canonical h)
  · extract_lets
    iterate 2 refine bind_canonical fun _ _ => ?_
    split
    · iterate 2 refine bind_canonical fun _ _ => ?_
      refine bind_canonical fun t e => ?_
      have ht : BytesCanonical t := issueTo_canonical h _ e
      exact ok_canonical (endMem_canonical ht)

theorem execVratomAddBf16_canonical {m sg f os cap so vd s} (h : BytesCanonical s) :
    NextCanonical (execVratomAddBf16 m sg f os cap so vd s) := by
  unfold execVratomAddBf16
  extract_lets
  refine commit_canonical h ?_
  iterate 5 refine bind_canonical fun _ _ => ?_
  split
  · exact ok_canonical (advance_canonical h)
  · extract_lets
    iterate 4 refine bind_canonical fun _ _ => ?_
    split
    · exact error_canonical
    · refine bind_canonical fun _ _ => ?_
      split
      · extract_lets
        refine bind_canonical fun _ _ => ?_
        refine bind_canonical fun t e => ?_
        have ht : BytesCanonical t := issueTo_canonical h _ e
        exact ok_canonical (endMem_canonical ht)

theorem execSatom_canonical {aoph sg f os cap so sd func s} (h : BytesCanonical s) :
    NextCanonical (execSatom aoph sg f os cap so sd func s) := by
  unfold execSatom
  extract_lets
  refine commit_canonical h ?_
  iterate 5 refine bind_canonical fun _ _ => ?_
  extract_lets _ jp
  have hjp : ∀ x, OkCanonical (jp x) := by
    intro _
    unfold jp
    iterate 2 refine bind_canonical fun _ _ => ?_
    split
    · iterate 2 refine bind_canonical fun _ _ => ?_
      refine bind_canonical fun t e => ?_
      have ht : BytesCanonical t := issueTo_canonical h _ e
      exact ok_canonical (endMem_canonical ht)
  split <;> exact bind_canonical fun _ _ => hjp _

end Sys2Proof.Machine

/-! ### Capability: capability instructions -/

namespace Sys2Proof.Machine
open Safety

theorem derive_canonical {i b2 ss2 cs cd f s} (h : BytesCanonical s) :
    NextCanonical (derive_ i b2 ss2 cs cd f s) := by
  unfold derive_
  refine commitNext_canonical h ?_
  iterate 6 refine bind_canonical fun _ _ => ?_
  exact ok_canonical (modCur_canonical h)

theorem execCseal_canonical {cs cd s} (h : BytesCanonical s) : NextCanonical (execCseal cs cd s) := by
  unfold execCseal
  refine commitNext_canonical h ?_
  extract_lets
  iterate 2 refine bind_canonical fun _ _ => ?_
  split
  · exact error_canonical
  · exact ok_canonical (modCur_canonical h)

theorem execCget_canonical {sel cs sd s} (h : BytesCanonical s) : NextCanonical (execCget sel cs sd s) := by
  unfold execCget
  refine commitNext_canonical h ?_
  iterate 3 refine bind_canonical fun _ _ => ?_
  exact ok_canonical (modCur_canonical h)

theorem bindXw_canonical {s n creg va} (h : BytesCanonical s) : BytesCanonical (bindXw s n creg va) := by
  unfold bindXw
  extract_lets _ _ s1 s2
  have h1 : BytesCanonical s1 := canonical_of_same h rfl
  have h2 : BytesCanonical s2 := setG_canonical h1
  split
  next s1' e =>
    have h1' : BytesCanonical s1' := snd_canonical e (fresh_canonical h2)
    exact push_canonical (canonical_of_same h1' rfl)

theorem execXbind_canonical {b2 ss2 cs n s} (h : BytesCanonical s) : NextCanonical (execXbind b2 ss2 cs n s) := by
  unfold execXbind
  refine commitNext_canonical h ?_
  refine bind_canonical fun _ _ => ?_
  extract_lets
  iterate 3 refine bind_canonical fun _ _ => ?_
  split
  · exact error_canonical
  · exact bind_canonical fun _ _ => ok_canonical (bindXw_canonical h)

theorem execCld_canonical {bo cap so cd s} (h : BytesCanonical s) : NextCanonical (execCld bo cap so cd s) := by
  unfold execCld
  extract_lets
  refine commit_canonical h ?_
  iterate 4 refine bind_canonical fun _ _ => ?_
  extract_lets
  iterate 2 refine bind_canonical fun _ _ => ?_
  split
  · extract_lets
    refine bind_canonical fun t e => ?_
    have ht : BytesCanonical t := issueTo_canonical h _ e
    exact ok_canonical (endMem_canonical ht)

theorem execCst_canonical {bo cap so cs s} (h : BytesCanonical s) : NextCanonical (execCst bo cap so cs s) := by
  unfold execCst
  extract_lets
  refine commit_canonical h ?_
  iterate 4 refine bind_canonical fun _ _ => ?_
  extract_lets
  refine bind_canonical fun _ _ => ?_
  split
  · exact error_canonical
  · iterate 5 refine bind_canonical fun _ _ => ?_
    split
    · split
      · exact error_canonical
      · refine bind_canonical fun _ _ => ?_
        refine bind_canonical fun t e => ?_
        have ht : BytesCanonical t := issueTo_canonical h _ e
        exact ok_canonical (endMem_canonical ht)

end Sys2Proof.Machine

/-! ### Sync: fences, locks, barriers, teams, launches -/

namespace Sys2Proof.Machine
open Safety

theorem holdAfter_canonical {s o} (h : BytesCanonical s) : BytesCanonical (holdAfter s o) := by
  unfold holdAfter
  split
  · exact h
  · exact issueOp_canonical h

theorem execFence_canonical {scope k s} (h : BytesCanonical s) : NextCanonical (execFence scope k s) := by
  unfold execFence
  refine commitNext_canonical h ?_
  refine bind_canonical fun _ _ => ?_
  split
  · exact ok_canonical h
  · exact ok_canonical (holdAfter_canonical h)

theorem acquire_canonical {i cap so sd st s} (h : BytesCanonical s) : NextCanonical (acquire i cap so sd st s) := by
  unfold acquire
  refine commit_canonical h ?_
  refine bind_canonical fun _ _ => ?_
  extract_lets
  refine bind_canonical fun _ _ => ?_
  extract_lets
  split
  next jp' =>
    refine bind_canonical fun _ _ => ?_
    unfold jp'
    iterate 5 refine bind_canonical fun _ _ => ?_
    split
    · extract_lets s1
      have h1 : BytesCanonical s1 := modCur_canonical h
      refine bind_canonical fun t' e => ?_
      have ht' : BytesCanonical t' := issueTo_canonical h1 _ e
      exact ok_canonical (endMem_canonical ht')
  next jp' =>
    refine bind_canonical fun _ _ => ?_
    unfold jp'
    iterate 5 refine bind_canonical fun _ _ => ?_
    split
    · extract_lets s1
      have h1 : BytesCanonical s1 := modCur_canonical h
      refine bind_canonical fun t e => ?_
      have ht : BytesCanonical t := issueTo_canonical h1 _ e
      exact ok_canonical (endMem_canonical ht)

theorem execLckRel_canonical {cap so s} (h : BytesCanonical s) : NextCanonical (execLckRel cap so s) := by
  unfold execLckRel
  extract_lets
  refine commit_canonical h ?_
  iterate 5 refine bind_canonical fun _ _ => ?_
  split
  · split
    · exact error_canonical
    · extract_lets s1
      have h1 : BytesCanonical s1 := modCur_canonical h
      refine bind_canonical fun t e => ?_
      have ht : BytesCanonical t := issueTo_canonical h1 _ e
      exact ok_canonical (endMem_canonical ht)

theorem execLckStat_canonical {cap so sd s} (h : BytesCanonical s) : NextCanonical (execLckStat cap so sd s) := by
  unfold execLckStat
  extract_lets
  refine commit_canonical h ?_
  iterate 6 refine bind_canonical fun _ _ => ?_
  split
  · refine bind_canonical fun t e => ?_
    have ht : BytesCanonical t := issueTo_canonical h _ e
    exact ok_canonical (endMem_canonical ht)

theorem execMwait_canonical {cap st so sd s} (h : BytesCanonical s) : NextCanonical (execMwait cap st so sd s) := by
  unfold execMwait
  extract_lets
  refine commit_canonical h ?_
  iterate 5 refine bind_canonical fun _ _ => ?_
  extract_lets
  iterate 2 refine bind_canonical fun _ _ => ?_
  split
  · split
    · exact ok_canonical (endMem_canonical h)
    · extract_lets s1
      have h1 : BytesCanonical s1 := issueOp_canonical (modCur_canonical h)
      exact ok_canonical (suspendCur_canonical (advance_canonical h1))

theorem barCount_canonical {s core addr l} (h : BytesCanonical s) : BytesCanonical (barCount s core addr l).1 := by
  unfold barCount
  extract_lets _ _ _ _ _ s1 s2
  have h1 : BytesCanonical s1 := stashWrite_canonical h
  have h2 : BytesCanonical s2 := by
    unfold s2
    split
    · exact push_canonical h1
    · exact h1
  exact h2

theorem barCounted_canonical {s addr x} (h : BytesCanonical s) : BytesCanonical (barCounted s addr x) := by
  unfold barCounted
  split
  · exact h
  · extract_lets _ s1 s2
    have h1 : BytesCanonical s1 := canonical_of_same h rfl
    have h2 : BytesCanonical s2 := modG_canonical h1
    exact finishOp_canonical h2

theorem countGathered_canonical {s core addr more} (h : BytesCanonical s) :
    BytesCanonical (countGathered s core addr more).1 := by
  unfold countGathered
  extract_lets _ s0
  have h0 : BytesCanonical s0 := modC_canonical h fun _ e => e
  split
  next s1 _ e =>
    have h1 : BytesCanonical s1 := fst_canonical e (barCount_canonical (watchWord_canonical (watchWord_canonical h0)))
    exact foldl_canonical (fun _ _ ht => barCounted_canonical ht) h1

theorem barrier_canonical {i drop wait cap so sd s} (h : BytesCanonical s) :
    NextCanonical (barrier i drop wait cap so sd s) := by
  unfold barrier
  refine commit_canonical h ?_
  refine bind_canonical fun _ _ => ?_
  extract_lets
  iterate 3 refine bind_canonical fun _ _ => ?_
  extract_lets _ _ _ _ _ _ s1
  have h1 : BytesCanonical s1 := by
    unfold s1
    refine advance_canonical ?_
    refine issueOp_canonical ?_
    split
    · exact h
    · exact modCur_canonical h
  refine bind_canonical fun _ _ => ?_
  split
  · exact error_canonical
  · split
    · exact error_canonical
    · split
      · split
        next s1' _ e =>
          have h1' : BytesCanonical s1' := fst_canonical e (countGathered_canonical h)
          extract_lets _ s2
          have h2 : BytesCanonical s2 := advance_canonical h1'
          refine ok_canonical ?_
          split
          · exact suspendCur_canonical h2
          · exact modCur_canonical h2
      · refine bind_canonical fun _ _ => ?_
        refine ok_canonical ?_
        split
        · exact suspendCur_canonical h1
        · exact h1

theorem execBarrierHeldArrival_canonical {uid op s} (h : BytesCanonical s) :
    NextCanonical (execBarrierHeldArrival uid op s) := by
  unfold execBarrierHeldArrival
  extract_lets _ s1
  have h1 : BytesCanonical s1 := dropMarker_canonical (setG_canonical h)
  split
  · split
    · split
      · exact next_canonical h
      · extract_lets s2
        have h2 : BytesCanonical s2 := modC_canonical h1 fun _ e => e
        exact next_canonical (push_canonical h2)
    · exact next_canonical h
  · exact next_canonical h

theorem execBarrierUpdate_canonical {core addr s} (h : BytesCanonical s) :
    NextCanonical (execBarrierUpdate core addr s) := by
  unfold execBarrierUpdate
  split
  · exact next_canonical h
  · exact next_canonical (countGathered_canonical h)

theorem execBarrierCarriedCompletion_canonical {core addr s} (h : BytesCanonical s) :
    NextCanonical (execBarrierCarriedCompletion core addr s) := by
  unfold execBarrierCarriedCompletion
  extract_lets
  split
  · exact next_canonical (countGathered_canonical h)
  · exact next_canonical h

theorem execTjoin_canonical {k sd s} (h : BytesCanonical s) : NextCanonical (execTjoin k sd s) := by
  unfold execTjoin
  refine commitNext_canonical h ?_
  refine bind_canonical fun _ _ => ?_
  extract_lets _ _ s1
  have h1 : BytesCanonical s1 := modC_canonical h fun _ e => e
  exact bind_canonical fun _ _ => bind_canonical fun _ _ => ok_canonical (modCur_canonical h1)

theorem execTleave_canonical {s} (h : BytesCanonical s) : NextCanonical (execTleave s) :=
  commitNext_canonical h (bind_canonical fun _ _ => ok_canonical (leaveTeam_canonical h))

theorem execLaunch_canonical {cap so sq s} (h : BytesCanonical s) : NextCanonical (execLaunch cap so sq s) := by
  unfold execLaunch
  extract_lets
  refine commit_canonical h ?_
  iterate 4 refine bind_canonical fun _ _ => ?_
  split
  · exact error_canonical
  · refine bind_canonical fun _ _ => ?_
    extract_lets
    iterate 2 refine bind_canonical fun _ _ => ?_
    split
    · exact error_canonical
    · exact bind_canonical fun _ _ => ok_canonical (advance_canonical (issueOp_canonical (modCur_canonical h)))

end Sys2Proof.Machine

/-! ### Directory: ownership at the directory -/

namespace Sys2Proof.Machine
open Safety

theorem joinOwner_canonical {s line pair unit mask by_} (h : BytesCanonical s) :
    BytesCanonical (joinOwner s line pair unit mask by_) := by
  unfold joinOwner
  extract_lets _ s1
  have h1 : BytesCanonical s1 := by
    unfold s1
    split
    · split
      · exact h
      · exact recallUnit_canonical h
    · exact h
  exact modDir_canonical h1

theorem ownNow_canonical {s line pair unit mask by_} (h : BytesCanonical s) :
    SomeCanonical (ownNow s line pair unit mask by_) := by
  unfold ownNow
  refine optionMap_canonical fun t e => ?_
  have ht : BytesCanonical t := dirRoom_canonical h _ e
  exact joinOwner_canonical (clearCopies_canonical ht)

end Sys2Proof.Machine

/-! ### Stash: fills and mapping instructions -/

namespace Sys2Proof.Machine
open Safety

theorem writeBackRange_canonical {s core lo hi} (h : BytesCanonical s) :
    BytesCanonical (writeBackRange s core lo hi) := by
  unfold writeBackRange
  extract_lets _ s1
  have h1 : BytesCanonical s1 := foldl_canonical (fun _ _ ht => writeBackStash_canonical ht) h
  exact countWbacks_canonical h1

theorem reportWords_canonical {s core ws} (h : BytesCanonical s) : BytesCanonical (reportWords s core ws) :=
  foldl_canonical (fun _ _ ht => shareReport_canonical ht) h

theorem clearWords_canonical {s core lo hi} (h : BytesCanonical s) : BytesCanonical (clearWords s core lo hi) := by
  unfold clearWords
  extract_lets _ s'
  have h' : BytesCanonical s' := foldl_canonical (fun _ _ ht => stashCheck_canonical ht) h
  exact reportWords_canonical (modC_canonical h' fun _ e => e)

theorem shareBound_canonical {s core lines} (h : BytesCanonical s) : SomeCanonical (shareBound s core lines) := by
  unfold shareBound
  refine optionFilter_canonical ?_
  refine foldlM_canonical (fun _ _ ht => ?_) h
  refine optionMap_canonical fun t' e => ?_
  have ht' : BytesCanonical t' := dirRoom_canonical ht _ e
  exact modDir_canonical ht'

theorem leaseWord_canonical {s core lease line} (h : BytesCanonical s) :
    BytesCanonical (leaseWord s core lease line).1 := by
  unfold leaseWord
  extract_lets
  split
  next s1 _ _ e =>
    have h1 : BytesCanonical s1 := fst_canonical e (leaseGrant_canonical h)
    exact raisePts_canonical h1

theorem registerWord_canonical {s core bound infos} (h : BytesCanonical s) :
    SomeCanonical (registerWord s core bound infos) := by
  unfold registerWord
  extract_lets _ room
  have hroom : SomeCanonical room := by
    unfold room
    refine optionBind_canonical fun t e => ?_
    have ht : BytesCanonical t := shareBound_canonical h _ e
    exact foldlM_canonical (fun _ _ ht' => dirRoom_canonical ht') ht
  refine optionMap_canonical fun t e => ?_
  have ht : BytesCanonical t := hroom _ e
  extract_lets s1
  have h1 : BytesCanonical s1 := foldl_canonical (fun _ _ ht' => sliceTouch_canonical ht') ht
  refine foldl_canonical (fun _ _ ht' => ?_) h1
  split
  · exact modH_canonical (sliceTouch_canonical ht') rfl
  · exact ht'

theorem deliverWord_canonical {s core e k b} (h : BytesCanonical s) : SomeCanonical (deliverWord s core e k b) := by
  unfold deliverWord
  extract_lets
  refine optionMap_canonical fun t e1 => ?_
  have ht : BytesCanonical t := registerWord_canonical (stashCheck_canonical h) _ e1
  extract_lets
  split
  next s1 _ _ e2 =>
    have h1 : BytesCanonical s1 := by
      refine fst_canonical e2 ?_
      refine foldl_fst_canonical (fun _ _ h' => ?_) ht
      split
      next s1' _ _ e3 =>
        exact fst_canonical e3 (leaseWord_canonical h')
    extract_lets s2 s3
    have h2 : BytesCanonical s2 := stashWrite_canonical h1
    have h3 : BytesCanonical s3 := setSWord_canonical h2
    exact modC_canonical h3 fun _ e => e

theorem dropBound_canonical {s q} (h : BytesCanonical s) : BytesCanonical (dropBound s q) :=
  foldl_canonical (fun _ _ ht => tlbDrop_canonical ht) h

theorem reportElement_canonical {s core n e uid x} (h : BytesCanonical s) :
    BytesCanonical (reportElement s core n e uid x) :=
  raiseDeferred_canonical h

theorem fillFault_canonical {s id f ctx ks c a} (h : BytesCanonical s) :
    BytesCanonical (fillFault s id f ctx ks c a) := by
  unfold fillFault
  extract_lets _ _ _ _ _ src'
  have hsrc' : BytesCanonical src' := addFault_canonical h
  exact canonical_of_same hsrc' rfl

theorem fillError_canonical {s core k a} (h : BytesCanonical s) : BytesCanonical (fillError s core k a) := by
  unfold fillError
  refine foldl_canonical (fun _ _ ht => ?_) h
  extract_lets
  split
  · exact ht
  · exact addFault_canonical (setG_canonical ht)

theorem fillNow_canonical {s id} (h : BytesCanonical s) : BytesCanonical (fillNow s id) := by
  unfold fillNow
  split
  · exact h
  · extract_lets gone
    have hgone : ∀ s, BytesCanonical s → BytesCanonical (gone s) :=
      fun _ h' => serveCore_canonical (traceDone_canonical (canonical_of_same h' rfl))
    split
    · exact hgone _ h
    · split
      · exact hgone _ h
      · extract_lets
        split
        next s1 _ _ _ e1 =>
          have h1 : BytesCanonical s1 := by
            refine fst_canonical e1 ?_
            refine foldl_fst_canonical (fun _ _ h' => ?_) h
            split
            · split
              next s' e2 =>
                have h'' : BytesCanonical s' := deliverWord_canonical h' _ e2
                exact foldl_canonical (fun _ _ ht => tlbLoad_canonical ht) h''
              · exact h'
            · exact foldl_canonical (fun _ _ ht => tlbDrop_canonical ht) h'
            · exact fillError_canonical h'
            · exact h'
          extract_lets _ s2 s3 _ _ s4
          have h2 : BytesCanonical s2 := modC_canonical h1 fun _ e => e
          have h3 : BytesCanonical s3 := foldl_canonical (fun _ _ ht => reportElement_canonical ht) h2
          have h4 : BytesCanonical s4 := serveCore_canonical (canonical_of_same h3 rfl)
          split
          · split
            · exact fillFault_canonical h4
            · exact hgone _ h4
          · split
            · exact push_canonical h4
            · exact hgone _ h4

theorem unmapOp_canonical {s core uid lo hi o} (h : BytesCanonical s) :
    BytesCanonical (unmapOp s core uid lo hi o) := by
  unfold unmapOp
  extract_lets _ _ _ _ s1 kind s2 s3 s4
  have h1 : BytesCanonical s1 := foldl_canonical (fun _ _ ht => stashWrite_canonical ht) h
  have h2 : BytesCanonical s2 := setG_canonical h1
  have h3 : BytesCanonical s3 := mapPieces_canonical h2
  have h4 : BytesCanonical s4 := setG_canonical h3
  split
  · exact h
  · split
    · exact h4
    · refine settleOp_canonical ?_
      unfold kind
      split
      · exact sendCap_canonical h4
      · exact sendStore_canonical h4

theorem unmapStores_canonical {s core ctx lo hi} (h : BytesCanonical s) :
    BytesCanonical (unmapStores s core ctx lo hi) :=
  foldl_canonical (fun _ _ ht => foldl_canonical (fun _ _ ht' => unmapOp_canonical ht') ht) h

theorem discardStores_canonical {s uid ks} (h : BytesCanonical s) : BytesCanonical (discardStores s uid ks) := by
  unfold discardStores
  refine foldl_canonical (fun _ _ ht => ?_) h
  extract_lets _ _ _ s1 s2
  have h1 : BytesCanonical s1 := setG_canonical ht
  have h2 : BytesCanonical s2 := mapPieces_canonical h1
  split
  · exact ht
  · split
    · exact h2
    · exact finishMapped_canonical h2

theorem dropEntry_canonical {s core n} (h : BytesCanonical s) : BytesCanonical (dropEntry s core n) := by
  unfold dropEntry
  split
  · exact h
  · extract_lets _ _ s1
    have h1 : BytesCanonical s1 := unmapStores_canonical h
    exact modC_canonical (clearWords_canonical (writeBackRange_canonical h1)) fun _ e => e

theorem handOver_canonical {s core ctx lo hi} (h : BytesCanonical s) :
    BytesCanonical (handOver s core ctx lo hi) := by
  unfold handOver
  extract_lets s1 _ s2
  have h1 : BytesCanonical s1 := foldl_canonical (fun _ _ ht => dropEntry_canonical ht) h
  have h2 : BytesCanonical s2 := modC_canonical h1 fun _ e => filter_wf _ e
  exact modC_canonical h2 fun _ e => e

theorem cutEntry_canonical {s core n line} (h : BytesCanonical s) : BytesCanonical (cutEntry s core n line) := by
  unfold cutEntry
  split
  · exact h
  · extract_lets _ _ s0 s1
    have h0 : BytesCanonical s0 := unmapStores_canonical h
    have h1 : BytesCanonical s1 := clearWords_canonical (writeBackRange_canonical h0)
    exact modC_canonical h1 fun _ e => e

theorem conflictOut_canonical {s core e} (h : BytesCanonical s) : BytesCanonical (conflictOut s core e) := by
  unfold conflictOut
  extract_lets s1
  have h1 : BytesCanonical s1 := by
    unfold s1
    refine foldl_canonical (fun _ _ ht => ?_) h
    split
    · exact ht
    · split
      · exact cutEntry_canonical ht
      · exact dropEntry_canonical ht
  refine foldl_canonical (fun _ _ ht => ?_) h1
  split
  · exact dropEntry_canonical ht
  · exact ht

theorem entrySlot_canonical {s t core n} (h : BytesCanonical s) (e : entrySlot s core = some (t, n)) :
    BytesCanonical t := by
  unfold entrySlot at e
  split at e
  · cases e
    exact h
  · obtain ⟨p, -, hp⟩ := Option.map_eq_some_iff.1 e
    cases hp
    exact dropEntry_canonical h

theorem execSmap_canonical {ss2 cap sd s} (h : BytesCanonical s) : NextCanonical (execSmap ss2 cap sd s) := by
  unfold execSmap
  refine commitNext_canonical h (bind_canonical fun _ _ => ?_)
  extract_lets g
  iterate 6 refine bind_canonical fun _ _ => ?_
  split
  · exact error_canonical
  next m _ =>
    iterate 4 refine bind_canonical fun _ _ => ?_
    split
    · exact ok_canonical (modCur_canonical (modC_canonical h fun _ e => e))
    · extract_lets s0
      have h0 : BytesCanonical s0 := conflictOut_canonical h
      split
      · exact error_canonical
      · split
        · exact error_canonical
        next s1 n e =>
          have h1 : BytesCanonical s1 := entrySlot_canonical h0 e
          exact ok_canonical (modCur_canonical (modC_canonical (clearWords_canonical h1) fun _ e => e))

theorem execSunmap_canonical {b1 ss s} (h : BytesCanonical s) : NextCanonical (execSunmap b1 ss s) := by
  unfold execSunmap
  refine commitNext_canonical h ?_
  refine bind_canonical fun _ _ => ?_
  extract_lets
  refine bind_canonical fun _ _ => ?_
  split
  · exact ok_canonical h
  · split
    · exact error_canonical
    · exact ok_canonical (serveCore_canonical (dropEntry_canonical h))

theorem flushRange_canonical {s g lo hi} (h : BytesCanonical s) : BytesCanonical (flushRange s g lo hi) := by
  unfold flushRange
  refine foldl_canonical (fun _ _ ht => ?_) h
  split
  · exact ht
  · exact writeBackRange_canonical ht

theorem invalWord_canonical {s core k} (h : BytesCanonical s) : BytesCanonical (invalWord s core k) := by
  unfold invalWord
  extract_lets _ s1 s2
  have h1 : BytesCanonical s1 := setSWord_canonical (stashCheck_canonical h)
  have h2 : BytesCanonical s2 := by
    unfold s2
    split
    · exact h1
    · refine foldl_canonical (fun _ _ ht => ?_) h1
      split
      · split
        · exact ht
        · exact disown_canonical ht
      · exact ht
  exact reportWords_canonical h2

theorem invalRange_canonical {s g lo hi} (h : BytesCanonical s) : BytesCanonical (invalRange s g lo hi) :=
  foldl_canonical (fun _ _ ht => invalWord_canonical ht) (discardStores_canonical h)

theorem stashRange_canonical {i b2 ss2 cap need waits f s}
    (hf : ∀ t x a b, BytesCanonical t → BytesCanonical (f t x a b)) (h : BytesCanonical s) :
    NextCanonical (stashRange i b2 ss2 cap need waits f s) := by
  unfold stashRange
  refine commitNext_canonical h ?_
  refine bind_canonical fun _ _ => ?_
  extract_lets
  iterate 2 refine bind_canonical fun _ _ => ?_
  split
  · exact ok_canonical h
  · refine bind_canonical fun _ _ => ?_
    extract_lets
    iterate 2 refine bind_canonical fun _ _ => ?_
    split
    · exact error_canonical
    · exact ok_canonical (hf _ _ _ _ h)

end Sys2Proof.Machine

/-! ### Work: what an engine command does -/

namespace Sys2Proof.Machine
open Safety

theorem putCmd_canonical {s id c} (h : BytesCanonical s) : BytesCanonical (putCmd s id c) :=
  canonical_of_same h rfl

theorem hostBytes_canonical {s a bs} (h : BytesCanonical s) : BytesCanonical (hostBytes s a bs) :=
  hostStore_canonical h (fwf_fsetN _ _ _ _)

theorem noteLease_canonical {s id w} (h : BytesCanonical s) : BytesCanonical (noteLease s id w) := by
  unfold noteLease
  split
  · exact putCmd_canonical h
  · exact h

theorem globalBytes_canonical {s c a bs} (h : BytesCanonical s) : OkCanonical (globalBytes s c a bs) := by
  unfold globalBytes
  split
  · exact error_canonical
  · extract_lets _ _ s1
    have h1 : BytesCanonical s1 := devWriteMode_canonical h
    split
    · exact ok_canonical (hostBytes_canonical h)
    · split
      · refine ok_canonical ?_
        split
        · exact noteLease_canonical h1
        · exact h1
      · exact ok_canonical (sendReq_canonical h)

theorem noteWritten_canonical {s id line w data} (h : BytesCanonical s) :
    BytesCanonical (noteWritten s id line w data) := by
  unfold noteWritten
  extract_lets
  split
  · exact noteLease_canonical (putCmd_canonical h)
  · exact h

theorem stashOwn_canonical {s id x} (h : BytesCanonical s) : BytesCanonical (stashOwn s id x) := by
  unfold stashOwn
  split
  · exact h
  · extract_lets _ _ _ _ s0 s1 s2
    have h0 : BytesCanonical s0 := foldl_canonical (fun _ _ ht => stashCheck_canonical ht) h
    have h1 : BytesCanonical s1 := foldl_canonical (fun _ _ ht => devByte_canonical ht) h0
    have h2 : BytesCanonical s2 :=
      leaseWritten_canonical (homeTouch_canonical (getD_canonical (dirRoom_canonical h1) h1))
    split
    · split
      · exact noteWritten_canonical h2
      · exact sendReq_canonical h
    · split
      · exact getD_canonical (ownNow_canonical h) h
      · exact sendReq_canonical h

theorem engineStore_canonical {s c p} (h : BytesCanonical s) : BytesCanonical (engineStore s c p) := by
  unfold engineStore
  extract_lets _ _ _ s1
  have h1 : BytesCanonical s1 := by
    unfold s1
    split
    · exact h
    · exact stashWrite_canonical h
  split
  · split
    · exact stashWrite_canonical h
    · exact storeMapped_canonical h
  · exact foldl_canonical (fun _ _ ht => devByte_canonical ht) h1

theorem engineStep_canonical {s id} (h : BytesCanonical s) : BytesCanonical (engineStep s id) := by
  unfold engineStep
  split
  · exact h
  · split
    · split
      · exact h
      · exact putCmd_canonical h
    · split
      · exact h
      · extract_lets _ _ s1 _ _ _ s2
        have h1 : BytesCanonical s1 := by
          unfold s1
          refine foldl_canonical (fun _ _ ht => ?_) h
          split
          · exact stashOwn_canonical ht
          · exact ht
        have h2 : BytesCanonical s2 := foldl_canonical (fun _ _ ht => engineStore_canonical ht) h1
        split
        · exact h1
        · split
          · exact foldl_canonical (fun _ _ ht => sendReq_canonical ht) h1
          · split
            · exact h1
            · exact putCmd_canonical h2

theorem stashLine_canonical {s c a bs} (h : BytesCanonical s) : OkCanonical (stashLine s c a bs) :=
  map_canonical fun _ _ => engineStep_canonical (putCmd_canonical h)

theorem dstLine_canonical {s c space a bs} (h : BytesCanonical s) : OkCanonical (dstLine s c space a bs) := by
  unfold dstLine
  split
  · split
    · exact error_canonical
    · extract_lets s1
      have h1 : BytesCanonical s1 := foldl_canonical (fun _ _ ht => watchWord_canonical ht) h
      exact stashLine_canonical h1
  · exact ok_canonical (hostBytes_canonical h)
  · exact ok_canonical (peersStore_canonical h (fwf_fsetN _ _ _ _))
  · exact globalBytes_canonical h

theorem watchReads_canonical {s c reads o n} (h : BytesCanonical s) : BytesCanonical (watchReads s c reads o n) := by
  unfold watchReads
  split
  · exact h
  · exact foldl_canonical (fun _ _ ht => watchWord_canonical ht) h

theorem stepPos_canonical {s id} (h : BytesCanonical s) : BytesCanonical (stepPos s id) := by
  unfold stepPos
  split
  · exact putCmd_canonical h
  · exact h

theorem byLines_canonical {c space a reads src ls s} (h : BytesCanonical s) :
    BytesCanonical (byLines c space a reads src ls s).1 := by
  induction ls generalizing s with
  | nil => exact h
  | cons l ls ih =>
    have hw : BytesCanonical (watchReads s c reads (l.1 - a) l.2) := watchReads_canonical h
    rw [byLines]
    split
    · exact hw
    · split
      · exact hw
      next s1 e =>
        extract_lets s2
        have h2 : BytesCanonical s2 := stepPos_canonical (dstLine_canonical hw _ e)
        split
        · exact h2
        · exact ih h2

theorem putLines_canonical {c ls s} (h : BytesCanonical s) : BytesCanonical (putLines c ls s).1 := by
  induction ls generalizing s with
  | nil => exact h
  | cons l ls ih =>
    rw [putLines]
    split
    · exact h
    next s1 e =>
      extract_lets _ s2
      have h2 : BytesCanonical s2 := putCmd_canonical (dstLine_canonical h _ e)
      split
      · exact h2
      · exact ih h2

theorem byBlocks_canonical {c reads read rb n s} (h : BytesCanonical s) :
    BytesCanonical (byBlocks c reads read rb n s).1 := by
  induction n generalizing rb s with
  | zero => exact h
  | succ n ih =>
    unfold byBlocks
    extract_lets s'
    have hs : BytesCanonical s' := by
      unfold s'
      split
      · exact h
      · exact foldl_canonical (fun _ _ ht => watchWord_canonical ht) h
    clear_value s'
    split
    · exact hs
    · split
      next e =>
        have h1 := fst_canonical e (putLines_canonical (stepPos_canonical hs))
        split
        · exact h1
        · exact ih h1
      next e => exact fst_canonical e (putLines_canonical (stepPos_canonical hs))

theorem workBlocks_canonical {c n reads read s} (h : BytesCanonical s) :
    BytesCanonical (workBlocks c n reads read s).1 := by
  unfold workBlocks
  split
  next e =>
    have h1 := fst_canonical e (putLines_canonical h)
    split
    · exact h1
    · exact byBlocks_canonical h1
  · exact putLines_canonical h

theorem addFlag_canonical {s c space a} (h : BytesCanonical s) : BytesCanonical (addFlag s c space a).1 := by
  unfold addFlag
  split
  · exact peersStore_canonical h (wf_writeLe _ _ _ _)
  · split
    · exact h
    · extract_lets _ _ s1
      have h1 : BytesCanonical s1 := devWriteMode_canonical h
      split
      · exact hostBytes_canonical h
      · split
        · exact h
        · split
          · dsimp only
            split
            · exact noteLease_canonical h1
            · exact h1
          · exact sendReq_canonical h

theorem cmdWork_canonical {s c cut} (h : BytesCanonical s) : BytesCanonical (cmdWork s c cut).1 := by
  unfold cmdWork
  extract_lets
  split
  · exact byLines_canonical h
  · exact byLines_canonical h
  · extract_lets
    split
    next s1 _ e =>
      exact fst_canonical e (byLines_canonical h)
    next s1 e1 =>
      have h1 : BytesCanonical s1 := fst_canonical e1 (byLines_canonical h)
      split <;> exact h1
  · exact byLines_canonical h
  · exact byLines_canonical h
  · exact workBlocks_canonical h
  · exact workBlocks_canonical h
  · exact h
  · exact h

theorem touchSources_canonical {s c} (h : BytesCanonical s) : BytesCanonical (touchSources s c) := by
  unfold touchSources
  refine foldl_canonical (fun _ _ ht => ?_) h
  extract_lets _ s1
  have h1 : BytesCanonical s1 := sliceTouch_canonical ht
  split
  · exact h1
  · split
    next s' e =>
      have h' : BytesCanonical s' := dirRoom_canonical h1 _ e
      exact cpeReads_canonical h'
    · exact h1

theorem fillWords_canonical {s core ctx ks} (h : BytesCanonical s) : BytesCanonical (fillWords s core ctx ks) :=
  foldl_canonical (fun _ _ ht => startFill_canonical ht) h

theorem cmdCause_canonical {s c k a row sub} (h : BytesCanonical s) : BytesCanonical (cmdCause s c k a row sub) :=
  raiseDeferred_canonical h

theorem gatherReports_canonical {s c end_} (h : BytesCanonical s) : BytesCanonical (gatherReports s c end_) := by
  unfold gatherReports
  split
  · refine foldl_canonical (fun _ _ ht => ?_) h
    extract_lets
    split
    · exact ht
    · exact cmdCause_canonical ht
  · exact h

theorem endReport_canonical {s c e} (h : BytesCanonical s) : BytesCanonical (endReport s c e) := by
  unfold endReport
  split <;> exact cmdCause_canonical h

theorem signalCmds_canonical {s uid cls} (h : BytesCanonical s) : BytesCanonical (signalCmds s uid cls) := by
  unfold signalCmds
  extract_lets _ _ s1
  have h1 : BytesCanonical s1 := canonical_of_same h rfl
  exact modG_canonical h1

theorem metEdges_canonical {s core succs fail} (h : BytesCanonical s) : BytesCanonical (metEdges s core succs fail) :=
  modC_canonical h fun _ e => e

theorem freeNode_canonical {s core n} (h : BytesCanonical s) : BytesCanonical (freeNode s core n) :=
  modC_canonical h fun _ e => e

theorem completeCmd_canonical {s id fail} (h : BytesCanonical s) : BytesCanonical (completeCmd s id fail) := by
  unfold completeCmd
  split
  · exact h
  · extract_lets s1 s2
    have h1 : BytesCanonical s1 := putCmd_canonical h
    have h2 : BytesCanonical s2 := by
      unfold s2
      split
      · exact h1
      · extract_lets _ sx
        have hsx : BytesCanonical sx := by
          unfold sx
          split
          · exact cmdCause_canonical h1
          · exact h1
        exact freeNode_canonical (metEdges_canonical hsx)
    exact traceDone_canonical (signalCmds_canonical h2)

theorem cmdDone_canonical {s id} (h : BytesCanonical s) : BytesCanonical (cmdDone s id) := by
  unfold cmdDone
  split
  · exact h
  · refine completeCmd_canonical ?_
    split
    · exact raisePts_canonical h
    · exact h

theorem cmdNext_canonical {s id} (h : BytesCanonical s) : BytesCanonical (cmdNext s id) := by
  unfold cmdNext
  split
  · exact h
  · split
    · exact h
    · split
      · exact cmdDone_canonical h
      · split
        · exact push_canonical (putCmd_canonical h)
        · split
          · split
            · exact cmdDone_canonical h
            · split
              next s1 _ _ =>
                split
                next e =>
                  have h1' : BytesCanonical s1 := fst_canonical e (addFlag_canonical (putCmd_canonical h))
                  exact cmdDone_canonical (endReport_canonical (putCmd_canonical h1'))
                next e =>
                  have h1' : BytesCanonical s1 := fst_canonical e (addFlag_canonical (putCmd_canonical h))
                  split
                  · exact h1'
                  · exact cmdDone_canonical h1'
          · exact cmdDone_canonical h
      · exact h

theorem engineFail_canonical {s q id e} (h : BytesCanonical s) : BytesCanonical (engineFail s q id e) := by
  unfold engineFail
  split
  · exact delR_canonical h
  · extract_lets s1
    have h1 : BytesCanonical s1 := engineStep_canonical (putCmd_canonical (delR_canonical h))
    exact cmdNext_canonical (endReport_canonical (gatherReports_canonical h1))

theorem engineAcked_canonical {s q id} (h : BytesCanonical s) : BytesCanonical (engineAcked s q id) := by
  unfold engineAcked
  refine cmdNext_canonical ?_
  split
  · exact noteLease_canonical (delR_canonical h)
  · exact delR_canonical h

theorem engineMapped_canonical {s q id} (h : BytesCanonical s) : BytesCanonical (engineMapped s q id) := by
  unfold engineMapped
  refine cmdNext_canonical ?_
  refine engineStep_canonical ?_
  split
  · exact noteWritten_canonical (delR_canonical h)
  · exact delR_canonical h

theorem engineRetry_canonical {s q id} (h : BytesCanonical s) : BytesCanonical (engineRetry s q id) := by
  unfold engineRetry
  extract_lets _ _ s0
  have h0 : BytesCanonical s0 := dropBound_canonical (delR_canonical h)
  split
  · split
    · exact engineFail_canonical h
    · extract_lets _ _ put
      have hput : ∀ s p, BytesCanonical s → BytesCanonical (put s p) := by
        intro _ _ h'
        unfold put
        split <;> exact hostBytes_canonical h'
      split
      · exact cmdNext_canonical (foldl_canonical (fun _ _ ht => hput _ _ ht) (delR_canonical h))
      · exact sendReq_canonical (delR_canonical h)
  · split
    · exact delR_canonical h
    · split
      · exact engineFail_canonical h
      · exact cmdNext_canonical (engineStep_canonical (putCmd_canonical h0))

theorem engineResume_canonical {s core} (h : BytesCanonical s) : BytesCanonical (engineResume s core) :=
  foldl_canonical (fun _ _ ht => cmdNext_canonical (engineStep_canonical ht)) h

theorem captureSide_canonical {s id side} (h : BytesCanonical s) : BytesCanonical (captureSide s id side) := by
  unfold captureSide
  split
  · exact h
  · extract_lets _ s1
    have h1 : BytesCanonical s1 := putCmd_canonical h
    exact foldl_canonical (fun _ _ ht => watchWord_canonical ht) h1

theorem capture_canonical {s id} (h : BytesCanonical s) : BytesCanonical (capture s id) :=
  captureSide_canonical (captureSide_canonical h)

theorem tagTiles_canonical {s c} (h : BytesCanonical s) : BytesCanonical (tagTiles s c) :=
  foldl_canonical (fun _ _ ht => modC_canonical ht fun _ e => e) h

theorem mmWrite_canonical {s c} (h : BytesCanonical s) : BytesCanonical (mmWrite s c) := by
  unfold mmWrite
  split
  · extract_lets _ _ _ s1 s2
    have h1 : BytesCanonical s1 := modC_canonical (modC_canonical h fun _ e => e) fun _ e => e
    have h2 : BytesCanonical s2 := by
      unfold s2
      split
      · exact cmdCause_canonical h1
      · exact h1
    split
    · exact cmdCause_canonical h2
    · exact h2
  · exact foldl_canonical (fun _ _ ht => modC_canonical ht fun _ e => e) h
  · exact h

end Sys2Proof.Machine

/-! ### Engine: the issue of engine commands -/

namespace Sys2Proof.Machine
open Safety

theorem newCmd_canonical {s cls kind node st} (h : BytesCanonical s) :
    BytesCanonical (newCmd s cls kind node st).2 := by
  unfold newCmd
  extract_lets
  split
  next s1 e =>
    have h1 : BytesCanonical s1 := snd_canonical e (fresh_canonical h)
    extract_lets _ s2 s3
    have h2 : BytesCanonical s2 := modC_canonical (putCmd_canonical h1) fun _ e => e
    have h3 : BytesCanonical s3 := modCur_canonical h2
    exact traceAdd_canonical h3

theorem queueCmd_canonical {s cls kind node} (h : BytesCanonical s) : BytesCanonical (queueCmd s cls kind node) := by
  unfold queueCmd
  split
  next s1 e =>
    have h1 : BytesCanonical s1 := snd_canonical e (newCmd_canonical h)
    extract_lets _ s2
    have h2 : BytesCanonical s2 := by
      unfold s2
      split
      · exact modC_canonical h1 fun _ e => e
      · exact h1
    exact issueOp_canonical h2

theorem issueCmd_canonical {s cls kind gbit h} (hs : BytesCanonical s) : OkCanonical (issueCmd s cls kind gbit h) :=
  bind_canonical fun _ _ => bind_canonical fun _ _ => ok_canonical (queueCmd_canonical hs)

theorem execCpy_canonical {gb cdst csrc sk sd s} (h : BytesCanonical s) :
    NextCanonical (execCpy gb cdst csrc sk sd s) := by
  unfold execCpy
  refine commitNext_canonical h ?_
  iterate 3 refine bind_canonical fun _ _ => ?_
  split
  iterate 7 refine bind_canonical fun _ _ => ?_
  exact issueCmd_canonical h

theorem execCpyGth_canonical {gb cdst csrc sk sd s} (h : BytesCanonical s) :
    NextCanonical (execCpyGth gb cdst csrc sk sd s) := by
  unfold execCpyGth
  refine commitNext_canonical h ?_
  iterate 3 refine bind_canonical fun _ _ => ?_
  split
  iterate 6 refine bind_canonical fun _ _ => ?_
  exact issueCmd_canonical h

theorem execCpyRmt_canonical {gb cdst csrc sk sd s} (h : BytesCanonical s) :
    NextCanonical (execCpyRmt gb cdst csrc sk sd s) := by
  unfold execCpyRmt
  refine commitNext_canonical h ?_
  iterate 3 refine bind_canonical fun _ _ => ?_
  split
  next x _ _ _ _ _ =>
    extract_lets _ _ _ _ _ jp
    have hjp : ∀ x, OkCanonical (jp x) := fun _ => bind_canonical fun _ _ => issueCmd_canonical h
    iterate 5 refine bind_canonical fun _ _ => ?_
    split
    · refine bind_canonical fun _ _ => ?_
      split <;> exact bind_canonical fun _ _ => hjp ()
    · exact hjp ()

theorem transpose_canonical {i e gb cdst csrc sk sd s} (h : BytesCanonical s) :
    NextCanonical (transpose i e gb cdst csrc sk sd s) := by
  unfold transpose
  refine commitNext_canonical h ?_
  iterate 3 refine bind_canonical fun _ _ => ?_
  split
  iterate 6 refine bind_canonical fun _ _ => ?_
  exact issueCmd_canonical h

theorem execEwait_canonical {k cls s} (h : BytesCanonical s) : NextCanonical (execEwait k cls s) := by
  unfold execEwait
  refine commit_canonical h ?_
  refine bind_canonical fun _ _ => ?_
  extract_lets s1
  have h1 : BytesCanonical s1 := advance_canonical h
  refine ok_canonical ?_
  split
  · exact h1
  · exact suspendCur_canonical h1

theorem execGnode_canonical {sd s} (h : BytesCanonical s) : NextCanonical (execGnode sd s) := by
  unfold execGnode
  refine commitNext_canonical h ?_
  refine bind_canonical fun _ _ => ?_
  extract_lets
  refine bind_canonical fun _ _ => ?_
  split
  · exact error_canonical
  · refine bind_canonical fun _ _ => ?_
    extract_lets _ s1
    have h1 : BytesCanonical s1 := modC_canonical h fun _ e => e
    exact ok_canonical (modCur_canonical h1)

theorem execGlink_canonical {succ pred s} (h : BytesCanonical s) : NextCanonical (execGlink succ pred s) := by
  unfold execGlink
  refine commitNext_canonical h ?_
  refine bind_canonical fun _ _ => ?_
  extract_lets
  iterate 4 refine bind_canonical fun _ _ => ?_
  extract_lets
  split
  · exact error_canonical
  · split
    · exact ok_canonical h
    · split
      · exact error_canonical
      · exact ok_canonical (modC_canonical h fun _ e => e)

theorem execTdesc_canonical {tid ss s} (h : BytesCanonical s) : NextCanonical (execTdesc tid ss s) := by
  unfold execTdesc
  refine commitNext_canonical h ?_
  refine bind_canonical fun _ _ => ?_
  extract_lets
  refine bind_canonical fun _ _ => ?_
  extract_lets
  split
  · exact ok_canonical (putTid_canonical h)
  · split
    · exact ok_canonical (putTid_canonical h)
    · exact error_canonical

theorem execTdget_canonical {tid sd s} (h : BytesCanonical s) : NextCanonical (execTdget tid sd s) :=
  commitNext_canonical h (bind_canonical fun _ _ => bind_canonical fun _ _ => ok_canonical (modCur_canonical h))

theorem planeCmd_canonical {i unp ta tc s} (h : BytesCanonical s) : NextCanonical (planeCmd i unp ta tc s) := by
  unfold planeCmd
  refine commitNext_canonical h ?_
  refine bind_canonical fun _ _ => ?_
  extract_lets
  iterate 6 refine bind_canonical fun _ _ => ?_
  extract_lets jp
  have hjp : ∀ x, OkCanonical (jp x) := fun _ => issueCmd_canonical h
  split <;> exact bind_canonical fun _ _ => hjp ()

theorem execCpyFold_canonical {tb ta tc s} (h : BytesCanonical s) : NextCanonical (execCpyFold tb ta tc s) := by
  unfold execCpyFold
  refine commitNext_canonical h ?_
  iterate 14 refine bind_canonical fun _ _ => ?_
  exact issueCmd_canonical h

theorem listRanges_canonical {s core id l} (h : BytesCanonical s) : BytesCanonical (listRanges s core id l) := by
  refine modC_canonical h fun c hc => ?_
  dsimp only
  induction l generalizing c with
  | nil => exact hc
  | cons r l ih => exact ih _ hc

theorem acceptMatrix_canonical {s kind} (h : BytesCanonical s) : OkCanonical (acceptMatrix s kind) := by
  unfold acceptMatrix
  extract_lets
  refine bind_canonical fun _ _ => ?_
  split
  · exact error_canonical
  · split
    next s1 e1 =>
      have h1 : BytesCanonical s1 := snd_canonical e1 (newCmd_canonical h)
      extract_lets s2 s3
      have h2 : BytesCanonical s2 := modC_canonical h1 fun _ e => e
      have h3 : BytesCanonical s3 := listRanges_canonical (listRanges_canonical h2)
      exact ok_canonical (capture_canonical h3)

theorem matrixOp_canonical {i sparse z tb ta tc s} (h : BytesCanonical s) :
    NextCanonical (matrixOp i sparse z tb ta tc s) := by
  unfold matrixOp
  refine commitNext_canonical h ?_
  iterate 11 refine bind_canonical fun _ _ => ?_
  exact acceptMatrix_canonical h

theorem execMzero_canonical {tc s} (h : BytesCanonical s) : NextCanonical (execMzero tc s) := by
  unfold execMzero
  refine commitNext_canonical h ?_
  iterate 3 refine bind_canonical fun _ _ => ?_
  exact acceptMatrix_canonical h

theorem ringX_canonical {s k p} (h : BytesCanonical s) (e : ringX s k = .ok p) : BytesCanonical p.1 := by
  unfold ringX at e
  extract_lets g t a q o at e
  split at e
  · cases e; exact h
  · split at e
    · cases e
    · split at e
      · split at e
        · cases e
        · cases e; exact fillFor_canonical h
      · split at e
        · cases e
        · cases e; exact modT_canonical h

theorem giveSlot_canonical {i s k n get} (h : BytesCanonical s) : OkCanonical (giveSlot i s k n get) := by
  unfold giveSlot
  split
  · exact ok_canonical (slotEffect_canonical h)
  · exact bind_canonical fun _ _ => ok_canonical (issueOp_canonical h)

theorem reserve_canonical {i s k sd get} (h : BytesCanonical s) : BytesCanonical (reserve i s k sd get) := by
  unfold reserve
  extract_lets
  split
  · exact h
  · extract_lets _ _ _ _ _ s1
    have h1 : BytesCanonical s1 := modT_canonical h
    split
    · split
      · exact advance_canonical (modCur_canonical h1)
      · exact suspendCur_canonical h
    · split
      · exact advance_canonical (modCur_canonical h1)
      · exact suspendCur_canonical h

theorem ringOp_canonical {i get k sd s} (h : BytesCanonical s) : NextCanonical (ringOp i get k sd s) := by
  unfold ringOp
  refine commit_canonical h (bind_canonical fun _ _ => bind_canonical fun _ _ => bind_canonical fun p e => ?_)
  have h1 : BytesCanonical p.1 := ringX_canonical h e
  split
  extract_lets jp
  have hjp (t) (ht : BytesCanonical t) : OkCanonical (jp t) := by
    refine ok_canonical ?_
    split
    · exact advance_canonical ht
    · exact reserve_canonical ht
  split
  · exact ok_canonical (suspendCur_canonical h1)
  · split
    · exact bind_canonical fun t e => hjp t (giveSlot_canonical h1 t e)
    · exact hjp _ h1

theorem execRingPublishEffect_canonical {uid op s} (h : BytesCanonical s) :
    NextCanonical (execRingPublishEffect uid op s) := by
  unfold execRingPublishEffect
  extract_lets _ s1
  have h1 : BytesCanonical s1 := dropMarker_canonical (setG_canonical h)
  split
  · split
    · split
      · exact next_canonical h
      · refine next_canonical ?_
        split
        · exact h1
        · exact slotEffect_canonical h1
    · exact next_canonical h
  · exact next_canonical h

theorem execVpln_canonical {m b1 plane vs1 vd s} (h : BytesCanonical s) :
    NextCanonical (execVpln m b1 plane vs1 vd s) := by
  unfold execVpln
  refine commitNext_canonical h ?_
  iterate 4 refine bind_canonical fun _ _ => ?_
  exact writeV_canonical h

theorem execVqnt_canonical {m b1 tid vs1 vd s} (h : BytesCanonical s) :
    NextCanonical (execVqnt m b1 tid vs1 vd s) := by
  unfold execVqnt
  extract_lets
  refine commit_canonical h ?_
  iterate 6 refine bind_canonical fun _ _ => ?_
  extract_lets
  split
  · exact error_canonical
  · refine bind_canonical fun _ _ => ?_
    split
    · split
      · extract_lets
        refine bind_canonical fun t e => ?_
        have ht : BytesCanonical t := writeV_canonical h _ e
        exact ok_canonical (advance_canonical (raiseFlags_canonical ht))
    · refine bind_canonical fun t e1 => ?_
      have ht : BytesCanonical t := issueTo_canonical h _ e1
      exact ok_canonical (endMem_canonical ht)

end Sys2Proof.Machine

/-! ### Home: requests at their homes -/

namespace Sys2Proof.Machine
open Safety

theorem enabled_canonical {s ok s1} (h : BytesCanonical s) (h1 : BytesCanonical s1) :
    NextCanonical (enabled s ok s1) := by
  unfold enabled
  refine next_canonical ?_
  split
  · exact h1
  · exact h

theorem regain_canonical {s q} (h : BytesCanonical s) : BytesCanonical (regain s q) := by
  unfold regain
  extract_lets
  split
  · exact h
  · exact joinOwner_canonical (clearCopies_canonical h)

theorem waitReq_canonical {s rq} (h : BytesCanonical s) : BytesCanonical (waitReq s rq) :=
  modH_canonical h rfl

theorem wakeReqs_canonical {s line} (h : BytesCanonical s) : BytesCanonical (wakeReqs s line) := by
  unfold wakeReqs
  extract_lets _ _ s1
  have h1 : BytesCanonical s1 := modH_canonical h rfl
  exact canonical_of_same h1 rfl

theorem stampReq_canonical {s rq} (h : BytesCanonical s) : BytesCanonical (stampReq s rq) := by
  unfold stampReq
  extract_lets
  split
  · exact h
  · exact setR_canonical h

theorem splitLocked_canonical {s rq} (h : BytesCanonical s) : BytesCanonical (splitLocked s rq) := by
  unfold splitLocked
  extract_lets
  split
  · exact h
  · extract_lets
    split
    · exact h
    · exact pushAll_canonical (setR_canonical h)

theorem atGate_canonical {s rq write go}
    (h : BytesCanonical s) (hgo : ∀ t x, BytesCanonical t → BytesCanonical (go t x)) :
    BytesCanonical (atGate s rq write go) := by
  unfold atGate
  extract_lets s' _ _ s0 s1
  have h' : BytesCanonical s' := splitLocked_canonical (stampReq_canonical h)
  have h0 : BytesCanonical s0 := modH_canonical h' rfl
  have h1 : BytesCanonical s1 := by
    unfold s1
    split
    · exact getD_canonical (dirRoom_canonical h0) h0
    · exact h0
  split
  · exact push_canonical h'
  · exact setLock_canonical h'
  · exact waitReq_canonical h'
  · exact hgo _ _ (regain_canonical (modDir_canonical h1))

theorem hostNext_canonical {s die} (h : BytesCanonical s) : BytesCanonical (hostNext s die) := by
  unfold hostNext
  split
  · exact push_canonical h
  · exact h

theorem hostDone_canonical {s die rq} (h : BytesCanonical s) : BytesCanonical (hostDone s die rq) :=
  hostNext_canonical (delR_canonical (modDie_canonical h))

theorem colDone_canonical {s q} (h : BytesCanonical s) : BytesCanonical (colDone s q) := by
  unfold colDone
  extract_lets s1
  have h1 : BytesCanonical s1 := delR_canonical h
  split
  · exact push_canonical (setR_canonical h1)
  · exact h1

theorem ackKeys_canonical {s q} (h : BytesCanonical s) : BytesCanonical (ackKeys s q) :=
  foldl_canonical (fun _ _ ht => ackFifo_canonical ht) h

theorem ackReq_canonical {s q res} (h : BytesCanonical s) : BytesCanonical (ackReq s q res) := by
  unfold ackReq
  split
  · refine answer_canonical ?_
    split
    · exact donePieces_canonical h
    · exact donePieces_canonical h
    · exact donePieces_canonical h
    · exact ackKeys_canonical h
  · exact hostDone_canonical h
  · exact colDone_canonical h
  · exact engineAcked_canonical h
  · exact delR_canonical h

theorem memErrorOne_canonical {s q} (h : BytesCanonical s) : BytesCanonical (memErrorOne s q) := by
  unfold memErrorOne
  split
  · extract_lets _ _ _ s1
    have h1 : BytesCanonical s1 := by
      unfold s1
      split
      · exact h
      · exact addFault_canonical (setG_canonical h)
    exact delR_canonical (ackKeys_canonical h1)
  · exact engineFail_canonical h
  · exact hostDone_canonical h
  · exact colDone_canonical h
  · exact delR_canonical h

theorem memError_canonical {s q} (h : BytesCanonical s) : BytesCanonical (memError s q) := by
  unfold memError
  split
  · exact foldl_canonical (fun _ _ ht => memErrorOne_canonical ht) (memErrorOne_canonical h)
  · exact memErrorOne_canonical h

theorem shareRead_canonical {s q m} (h : BytesCanonical s) : BytesCanonical (shareRead s q m) := by
  unfold shareRead
  extract_lets _ _ s1 _ s2 s3
  have h1 : BytesCanonical s1 := modDir_canonical h
  have h2 : BytesCanonical s2 := sliceTouch_canonical h1
  have h3 : BytesCanonical s3 := modDir_canonical h2
  split
  · exact h1
  · split
    · exact h2
    · exact modH_canonical h3 rfl

theorem readNow_canonical {s q} (h : BytesCanonical s) : BytesCanonical (readNow s q) := by
  unfold readNow
  extract_lets _ s0 _ s1
  have h0 : BytesCanonical s0 := sliceTouch_canonical h
  have h1 : BytesCanonical s1 := by
    unfold s1
    split
    · exact shareRead_canonical h0
    · exact h0
  split
  · exact delR_canonical h0
  · exact push_canonical (setR_canonical h1)

theorem execHomeRead_canonical {rq s} (h : BytesCanonical s) : NextCanonical (execHomeRead rq s) := by
  unfold execHomeRead
  extract_lets
  refine enabled_canonical h ?_
  refine atGate_canonical h fun _ _ ht => ?_
  split
  · extract_lets _ s1 s2
    have h1 : BytesCanonical s1 := sliceTouch_canonical ht
    have h2 : BytesCanonical s2 := by
      unfold s2
      split
      · exact h1
      · exact hostReads_canonical h1
    exact hostDone_canonical (modDie_canonical h2)
  · extract_lets
    split
    · exact readNow_canonical ht
    · exact push_canonical (setR_canonical ht)

theorem execForwardedRead_canonical {rq s} (h : BytesCanonical s) : NextCanonical (execForwardedRead rq s) := by
  unfold execForwardedRead
  extract_lets _ s0
  have h0 : BytesCanonical s0 := foldl_canonical (fun _ _ ht => watchUnit_canonical ht) h
  exact enabled_canonical h (wakeReqs_canonical (readNow_canonical (setR_canonical h0)))

theorem installWords_canonical {s q} (h : BytesCanonical s) : BytesCanonical (installWords s q) := by
  unfold installWords
  split
  · exact h
  next s1 e =>
    have h1 : BytesCanonical s1 := pairTouch_canonical h _ e
    exact modH_canonical h1 rfl

theorem installLease_canonical {s q} (h : BytesCanonical s) : BytesCanonical (installLease s q) := by
  unfold installLease
  extract_lets s0 s1
  have h0 : BytesCanonical s0 := renewalCheck_canonical h
  have h1 : BytesCanonical s1 := raisePts_canonical h0
  split
  · exact h1
  · split
    · exact h1
    next s1' e =>
      have h1' : BytesCanonical s1' := pairTouch_canonical h1 _ e
      exact modH_canonical h1' rfl

theorem execReplyArrival_canonical {rq err s} (h : BytesCanonical s) : NextCanonical (execReplyArrival rq err s) := by
  unfold execReplyArrival
  extract_lets _ s1 s2
  have h1 : BytesCanonical s1 := by
    unfold s1
    split
    · exact h
    · split
      · exact installLease_canonical h
      · exact installWords_canonical h
  have h2 : BytesCanonical s2 := answer_canonical h1
  refine enabled_canonical h ?_
  split
  · exact memError_canonical h
  · split
    · exact shareReport_canonical h2
    · exact h2

theorem execLeaseRead_canonical {rq s} (h : BytesCanonical s) : NextCanonical (execLeaseRead rq s) := by
  unfold execLeaseRead
  extract_lets
  refine enabled_canonical h ?_
  refine atGate_canonical h fun _ _ ht => ?_
  extract_lets s0 s1
  have h0 : BytesCanonical s0 := sliceTouch_canonical ht
  have h1 : BytesCanonical s1 := renewalCheck_canonical h0
  split
  · exact delR_canonical (leaseGrant_canonical h0)
  · split
    next s1' _ _ e =>
      have h1' : BytesCanonical s1' := fst_canonical e (leaseGrant_canonical h1)
      exact push_canonical (setR_canonical h1')

theorem writeTouch_canonical {s q} (h : BytesCanonical s) : BytesCanonical (writeTouch s q) := by
  unfold writeTouch
  split
  · exact repackLine_canonical h
  · split
    · exact packLine_canonical h
    · exact homeTouch_canonical h

theorem writeHome_canonical {s q} (h : BytesCanonical s) : BytesCanonical (writeHome s q) := by
  unfold writeHome
  extract_lets _ s1 s2
  have h1 : BytesCanonical s1 := foldl_canonical (fun _ _ ht => setTag_canonical (memBytes_canonical ht)) h
  have h2 : BytesCanonical s2 := by
    unfold s2
    refine writeTouch_canonical ?_
    split
    · split
      · exact setTag_canonical h1
      · exact h1
    · exact h1
  split
  · exact foldl_canonical (fun _ _ ht => wakeMonitors_canonical ht) h2
  · exact h2

theorem atomicsOf_canonical {s ids inUnit} (h : BytesCanonical s) : BytesCanonical (atomicsOf s ids inUnit) := by
  unfold atomicsOf
  refine foldl_canonical (fun _ _ ht => ?_) h
  extract_lets _ after s0
  have hafter : ∀ s, BytesCanonical s → BytesCanonical (after s) := by
    intro _ h'
    unfold after
    split
    · exact h'
    · exact writeTouch_canonical h'
  have h0 : BytesCanonical s0 := by
    unfold s0
    split
    · exact dropSharers_canonical ht
    · exact ht
  split
  · split
    next s1 _ e =>
      have h1 : BytesCanonical s1 := fst_canonical e (atomicHome_canonical h0)
      extract_lets s1' s2
      have h1' : BytesCanonical s1' := by
        unfold s1'
        split
        · exact mergeDone_canonical h1
        · exact h1
      have h2 : BytesCanonical s2 := hafter _ (setR_canonical h1')
      split
      · exact foldl_canonical (fun _ _ ht' => wakeMonitors_canonical ht') h2
      · exact h2
  · extract_lets _ s1 s2
    have h1 : BytesCanonical s1 := by
      unfold s1
      refine foldl_canonical (fun _ _ ht' => ?_) ht
      extract_lets
      split
      · exact pokeBytes_canonical (dropSharers_canonical ht')
      · exact devBytes_canonical ht'
    have h2 : BytesCanonical s2 := hafter _ (setR_canonical h1)
    split
    · exact foldl_canonical (fun _ _ ht' => wakeMonitors_canonical ht') h2
    · exact h2
  · exact ht

theorem writerChecks_canonical {s q} (h : BytesCanonical s) : BytesCanonical (writerChecks s q) := by
  unfold writerChecks
  split
  · exact h
  · split
    · exact renewalCheck_canonical h
    · exact foldl_canonical (fun _ _ ht => stashCheck_canonical ht) h

theorem leasePerform_canonical {s q} (h : BytesCanonical s) : BytesCanonical (leasePerform s q) := by
  unfold leasePerform
  extract_lets _ s1 _ s2
  have h1 : BytesCanonical s1 := leaseWritten_canonical (writerChecks_canonical h)
  have h2 : BytesCanonical s2 := by
    unfold s2
    split
    · exact atomicsOf_canonical h1
    · exact writeHome_canonical h1
  split
  · exact memError_canonical h
  · exact push_canonical (setR_canonical h2)

theorem leaseStart_canonical {s q} (h : BytesCanonical s) : BytesCanonical (leaseStart s q) := by
  unfold leaseStart
  extract_lets _ s1
  have h1 : BytesCanonical s1 := setR_canonical h
  split
  · exact h1
  · exact leasePerform_canonical h1

theorem execLeaseWrite_canonical {rq s} (h : BytesCanonical s) : NextCanonical (execLeaseWrite rq s) :=
  enabled_canonical h (atGate_canonical h fun _ _ ht => leaseStart_canonical ht)

theorem execLeaseWriteHoldEnd_canonical {rq s} (h : BytesCanonical s) : NextCanonical (execLeaseWriteHoldEnd rq s) :=
  enabled_canonical h (wakeReqs_canonical (leasePerform_canonical h))

theorem leaseAcked_canonical {s q} (h : BytesCanonical s) : BytesCanonical (leaseAcked s q) := by
  unfold leaseAcked
  extract_lets s1
  have h1 : BytesCanonical s1 := renewalCheck_canonical (raisePts_canonical h)
  split
  · exact h1
  · exact modH_canonical h1 rfl

theorem execSliceLeaseSweep_canonical {slice s} (h : BytesCanonical s) :
    NextCanonical (execSliceLeaseSweep slice s) :=
  enabled_canonical h (modH_canonical h rfl)

theorem execCoreLeaseSweep_canonical {core s} (h : BytesCanonical s) : NextCanonical (execCoreLeaseSweep core s) := by
  unfold execCoreLeaseSweep
  extract_lets _ _ _ s1
  have h1 : BytesCanonical s1 := by
    unfold s1
    refine foldl_canonical (fun _ _ ht => ?_) h
    extract_lets s1'
    have h1' : BytesCanonical s1' := renewalCheck_canonical ht
    exact tidyPair_canonical (modH_canonical h1' rfl)
  exact enabled_canonical h (foldl_canonical (fun _ _ ht => setSWord_canonical (stashCheck_canonical ht)) h1)

theorem gather_canonical {s q unit} (h : BytesCanonical s) : BytesCanonical (gather s q unit) := by
  unfold gather
  extract_lets _ _ _ _ s1
  have h1 : BytesCanonical s1 := setR_canonical h
  split
  · exact push_canonical h1
  · exact pushAll_canonical h1

theorem execHomeOwnership_canonical {rq s} (h : BytesCanonical s) : NextCanonical (execHomeOwnership rq s) := by
  unfold execHomeOwnership
  extract_lets
  refine enabled_canonical h ?_
  refine atGate_canonical h fun _ _ ht => ?_
  split
  · exact readNow_canonical ht
  · exact gather_canonical ht

theorem execHomeWriteThrough_canonical {rq s} (h : BytesCanonical s) : NextCanonical (execHomeWriteThrough rq s) := by
  unfold execHomeWriteThrough
  extract_lets
  refine enabled_canonical h ?_
  refine atGate_canonical h fun _ _ ht => ?_
  split
  · exact leaseStart_canonical ht
  · split
    · exact readNow_canonical ht
    · exact gather_canonical ht

theorem homeAtomicAt_canonical {s q} (h : BytesCanonical s) : BytesCanonical (homeAtomicAt s q) := by
  unfold homeAtomicAt
  split
  · exact leaseStart_canonical h
  · split
    · exact push_canonical (setR_canonical h)
    · exact gather_canonical h

theorem execHomeAtomic_canonical {rq s} (h : BytesCanonical s) : NextCanonical (execHomeAtomic rq s) := by
  unfold execHomeAtomic
  extract_lets
  refine enabled_canonical h ?_
  split
  · exact waitReq_canonical h
  · exact atGate_canonical h fun _ _ ht => homeAtomicAt_canonical ht

theorem execHomeRowAtomic_canonical {rq s} (h : BytesCanonical s) : NextCanonical (execHomeRowAtomic rq s) :=
  enabled_canonical h (atGate_canonical h fun _ _ ht => homeAtomicAt_canonical ht)

theorem execRecallReceived_canonical {rq pair unit mask s} (h : BytesCanonical s) :
    NextCanonical (execRecallReceived rq pair unit mask s) :=
  enabled_canonical h (push_canonical (recallUnit_canonical h))

theorem execInvalidationReceived_canonical {rq target s} (h : BytesCanonical s) :
    NextCanonical (execInvalidationReceived rq target s) := by
  unfold execInvalidationReceived
  extract_lets
  refine enabled_canonical h ?_
  split
  · exact push_canonical (dropPair_canonical h)
  · refine push_canonical ?_
    split
    · exact dropHost_canonical h
    · split
      · exact dropCpe_canonical h
      · exact dropReplica_canonical h

theorem execInvalidationAck_canonical {rq s} (h : BytesCanonical s) : NextCanonical (execInvalidationAck rq s) := by
  unfold execInvalidationAck
  extract_lets _ s1
  have h1 : BytesCanonical s1 := setR_canonical h
  refine enabled_canonical h ?_
  split
  · exact push_canonical h1
  · exact h1

theorem returnIdle_canonical {s core line mask} (h : BytesCanonical s) :
    BytesCanonical (returnIdle s core line mask) :=
  disown_canonical h

theorem mappedBack_canonical {s q w} (h : BytesCanonical s) : BytesCanonical (mappedBack s q w) := by
  unfold mappedBack
  extract_lets _ _ s1
  have h1 : BytesCanonical s1 := modG_canonical (delR_canonical h)
  exact finishMapped_canonical h1

theorem ackMapped_canonical {s q} (h : BytesCanonical s) : BytesCanonical (ackMapped s q) := by
  unfold ackMapped
  split
  · exact engineMapped_canonical h
  · exact mappedBack_canonical h

theorem ownedStore_canonical {s q} (h : BytesCanonical s) : BytesCanonical (ownedStore s q) := by
  unfold ownedStore
  extract_lets s1 s2
  have h1 : BytesCanonical s1 := foldl_canonical (fun _ _ ht => pokeByte_canonical ht) h
  have h2 : BytesCanonical s2 := by
    unfold s2
    split
    · split
      · exact setTag_canonical h1
      · exact h1
    · exact h1
  split
  · exact foldl_canonical (fun _ _ ht => wakeMonitors_canonical ht) h2
  · exact h2

theorem ownNowCached_canonical {s q f} (h : BytesCanonical s) (hf : ∀ t, BytesCanonical t → BytesCanonical (f t)) :
    BytesCanonical (ownNowCached s q f) := by
  unfold ownNowCached
  extract_lets s1
  have h1 : BytesCanonical s1 := sliceTouch_canonical (joinOwner_canonical h)
  split
  next s' e =>
    have h' : BytesCanonical s' := pairTouch_canonical h1 _ e
    exact hf _ h'
  · exact recallUnit_canonical (hf _ h1)

theorem finishReq_canonical {s rq} (h : BytesCanonical s) : BytesCanonical (finishReq s rq) := by
  unfold finishReq
  extract_lets _ s0 _ _ s1 s1' s1''
  have h0 : BytesCanonical s0 := modR_canonical h
  have h1 : BytesCanonical s1 :=
    foldl_canonical (fun _ _ ht => ackMapped_canonical ht) (sliceTouch_canonical (joinOwner_canonical h0))
  have h1' : BytesCanonical s1' := atomicsOf_canonical h0
  have h1'' : BytesCanonical s1'' := atomicsOf_canonical h0
  split
  · split
    · exact ownNowCached_canonical h0 fun _ ht => foldl_canonical (fun _ _ ht' => ackReq_canonical
        (ownedStore_canonical ht')) ht
    · split
      · exact returnIdle_canonical h1
      · exact h1
  · split
    · exact memError_canonical h0
    · exact ownNowCached_canonical h0 fun _ ht => answer_canonical ht
  · split
    · exact ackReq_canonical (writeHome_canonical h0)
    · exact ownNowCached_canonical h0 fun _ ht => foldl_canonical (fun _ _ ht' => ackReq_canonical
        (ownedStore_canonical ht')) ht
  · split
    · exact memError_canonical h0
    · split
      · exact ackReq_canonical h1'
      · exact push_canonical (modR_canonical h1')
  · split
    · exact memError_canonical h0
    · exact ackReq_canonical h1''
  · exact ackReq_canonical (writeHome_canonical h0)

theorem ackLease_canonical {s q} (h : BytesCanonical s) : BytesCanonical (ackLease s q) := by
  unfold ackLease
  extract_lets s1
  have h1 : BytesCanonical s1 := by
    unfold s1
    split
    · exact leaseAcked_canonical h
    · exact h
  split
  · exact ackReq_canonical h1
  · exact ackMapped_canonical h1

theorem execOwnershipAck_canonical {rq s} (h : BytesCanonical s) : NextCanonical (execOwnershipAck rq s) := by
  unfold execOwnershipAck
  extract_lets _ s1
  have h1 : BytesCanonical s1 := by
    unfold s1
    split
    · exact ackLease_canonical h
    · exact finishReq_canonical h
  exact enabled_canonical h (wakeReqs_canonical h1)

theorem performHeld_canonical {s rq} (h : BytesCanonical s) : BytesCanonical (performHeld s rq) := by
  unfold performHeld
  extract_lets
  split
  · exact h
  · exact finishReq_canonical (clearCopies_canonical h)

theorem execHomeWriteBack_canonical {pair unit line mask s} (h : BytesCanonical s) :
    NextCanonical (execHomeWriteBack pair unit line mask s) := by
  unfold execHomeWriteBack
  extract_lets _ s1
  have h1 : BytesCanonical s1 := by
    unfold s1
    refine foldl_canonical (fun _ _ ht => ?_) h
    extract_lets
    split
    · refine modH_canonical ?_ rfl
      split
      · exact memBytes_canonical ht
      · exact ht
    · exact ht
  exact enabled_canonical h (modDir_canonical (disown_canonical (homeTouch_canonical h1)))

theorem execRouterMerge_canonical {rq other s} (h : BytesCanonical s) :
    NextCanonical (execRouterMerge rq other s) := by
  unfold execRouterMerge
  extract_lets _ _ _ s1 _ _ _ s2
  have h1 : BytesCanonical s1 := setR_canonical (setR_canonical h)
  have h2 : BytesCanonical s2 := replogAdd_canonical (canonical_of_same h1 rfl)
  exact enabled_canonical h (canonical_of_same h2 rfl)

theorem execRouterMergeReply_canonical {rq s} (h : BytesCanonical s) : NextCanonical (execRouterMergeReply rq s) :=
  enabled_canonical h (foldl_canonical (fun _ _ ht => ackReq_canonical ht) h)

theorem retranslate_canonical {s rq} (h : BytesCanonical s) : BytesCanonical (retranslate s rq) := by
  unfold retranslate
  extract_lets _ _ _ s1
  have h1 : BytesCanonical s1 := modG_canonical (tlbDrop_canonical h)
  split
  next s1' e =>
    have h1' : BytesCanonical s1' := snd_canonical e (fresh_canonical h1)
    exact push_canonical (canonical_of_same h1' rfl)

theorem refuseOne_canonical {s id} (h : BytesCanonical s) : BytesCanonical (refuseOne s id) := by
  unfold refuseOne
  extract_lets _ _ s1
  have h1 : BytesCanonical s1 := setR_canonical h
  split
  · exact engineRetry_canonical h1
  · split
    · split
      · exact retranslate_canonical (dropBound_canonical h1)
      · exact retranslate_canonical (dropBound_canonical h1)
      · exact mappedBack_canonical (dropBound_canonical h1)
    · exact retranslate_canonical h1
  · exact delR_canonical h1

theorem execRequestRefused_canonical {rq s} (h : BytesCanonical s) : NextCanonical (execRequestRefused rq s) :=
  enabled_canonical h (foldl_canonical (fun _ _ ht => refuseOne_canonical ht) h)

theorem execReleaseMarkerHead_canonical {core s} (h : BytesCanonical s) :
    NextCanonical (execReleaseMarkerHead core s) := by
  unfold execReleaseMarkerHead
  split
  · extract_lets
    split
    · split
      · exact next_canonical (sendOp_canonical (dropMarker_canonical h))
      · exact next_canonical h
    · exact next_canonical h
  · exact next_canonical h

theorem execHeldAccessRelease_canonical {uid op s} (h : BytesCanonical s) :
    NextCanonical (execHeldAccessRelease uid op s) := by
  unfold execHeldAccessRelease
  extract_lets
  split
  · split
    · exact next_canonical (sendOp_canonical (dropMarker_canonical h))
    · exact next_canonical h
  · exact next_canonical h

theorem execStashFillArrival_canonical {fill s} (h : BytesCanonical s) :
    NextCanonical (execStashFillArrival fill s) :=
  enabled_canonical h (fillNow_canonical h)

theorem hostComplete_canonical {s q refused} (h : BytesCanonical s) : BytesCanonical (hostComplete s q refused) := by
  unfold hostComplete
  extract_lets
  split
  · split
    · exact ackReq_canonical (modG_canonical h)
    · extract_lets s1
      have h1 : BytesCanonical s1 := hostBytes_canonical h
      exact ackReq_canonical h1
  · split
    · exact memError_canonical h
    · exact answer_canonical h
  · split
    · exact memError_canonical h
    · exact answer_canonical h

theorem execHostCompletion_canonical {rq refused s} (h : BytesCanonical s) :
    NextCanonical (execHostCompletion rq refused s) := by
  unfold execHostCompletion
  extract_lets
  refine enabled_canonical h ?_
  split
  · exact hostNext_canonical (modDie_canonical (hostComplete_canonical h))
  · split
    · exact hostComplete_canonical h
    · exact modDie_canonical (setR_canonical h)

theorem execHostCompletionTimeout_canonical {rq s} (h : BytesCanonical s) :
    NextCanonical (execHostCompletionTimeout rq s) := by
  unfold execHostCompletionTimeout
  extract_lets _ s1
  have h1 : BytesCanonical s1 := canonical_of_same h rfl
  refine enabled_canonical h ?_
  split
  · extract_lets
    refine memError_canonical ?_
    split
    · exact hostBytes_canonical h1
    · exact h1
  · exact memError_canonical h

theorem execHostPortWriteSent_canonical {rq s} (h : BytesCanonical s) :
    NextCanonical (execHostPortWriteSent rq s) := by
  unfold execHostPortWriteSent
  extract_lets
  refine enabled_canonical h ?_
  split
  · exact push_canonical (setR_canonical (ackKeys_canonical h))
  · exact ackReq_canonical (foldl_canonical (fun _ _ ht => hostBytes_canonical ht) h)

theorem hostEnqueue_canonical {s die qs} (h : BytesCanonical s) : BytesCanonical (hostEnqueue s die qs) := by
  unfold hostEnqueue
  extract_lets
  split
  next s1 _ e =>
    have h1 : BytesCanonical s1 := by
      refine fst_canonical e ?_
      refine foldl_fst_canonical (fun _ _ h' => ?_) h
      split
      next s1' e1 =>
        exact snd_canonical e1 (addReq_canonical h')
    extract_lets s2
    have h2 : BytesCanonical s2 := modDie_canonical h1
    split
    · exact hostNext_canonical h2
    · exact h2

theorem execHostWrite_canonical {die pa data s} (h : BytesCanonical s) :
    NextCanonical (execHostWrite die pa data s) :=
  enabled_canonical h (hostEnqueue_canonical h)

theorem execHostRead_canonical {die pa len s} (h : BytesCanonical s) : NextCanonical (execHostRead die pa len s) :=
  enabled_canonical h (hostEnqueue_canonical h)

theorem colEnqueue_canonical {s link qs} (h : BytesCanonical s) : BytesCanonical (colEnqueue s link qs) := by
  unfold colEnqueue
  extract_lets first
  split
  next s1 _ _ =>
    unfold first
    split
    next e =>
      have h1' : BytesCanonical s1 := by
        refine fst_canonical e ?_
        refine foldl_fst_canonical (fun _ _ h' => ?_) h
        split
        next s1' e1 =>
          exact snd_canonical e1 (addReq_canonical h')
      exact modR_canonical h1'
    next e =>
      have h1' : BytesCanonical s1 := by
        refine fst_canonical e ?_
        refine foldl_fst_canonical (fun _ _ h' => ?_) h
        split
        next s1' e1 =>
          exact snd_canonical e1 (addReq_canonical h')
      exact push_canonical (setR_canonical h1')
    next e =>
      have h1' : BytesCanonical s1 := by
        refine fst_canonical e ?_
        refine foldl_fst_canonical (fun _ _ h' => ?_) h
        split
        next s1' e1 =>
          exact snd_canonical e1 (addReq_canonical h')
      exact h1'

theorem execColWriteArrival_canonical {link peer pa flag data s} (h : BytesCanonical s) :
    NextCanonical (execColWriteArrival link peer pa flag data s) := by
  unfold execColWriteArrival
  split
  · refine enabled_canonical h ?_
    extract_lets
    split
    · exact h
    · exact colEnqueue_canonical h

end Sys2Proof.Machine

/-! ### LockHome: locks, monitors and generations -/

namespace Sys2Proof.Machine
open Safety

theorem lockReply_canonical {s rq code} (h : BytesCanonical s) : BytesCanonical (lockReply s rq code) :=
  answer_canonical (modG_canonical h)

theorem performWrites_canonical {s line} (h : BytesCanonical s) : BytesCanonical (performWrites s line) :=
  foldl_canonical (fun _ _ ht => performHeld_canonical ht) (setLock_canonical h)

theorem passWords_canonical {s line a b} (h : BytesCanonical s) : SomeCanonical (passWords s line a b) := by
  unfold passWords
  extract_lets
  split
  · exact none_canonical
  · refine optionMap_canonical fun t e => ?_
    have ht : BytesCanonical t := pairTouch_canonical (dropSharers_canonical h) _ e
    extract_lets s1
    have h1 : BytesCanonical s1 := modH_canonical ht rfl
    exact joinOwner_canonical (disown_canonical (tidyPair_canonical h1))

theorem grantLock_canonical {s line rq brk} (h : BytesCanonical s) : BytesCanonical (grantLock s line rq brk) := by
  unfold grantLock
  extract_lets _ _ _ s1 s2 _ _ s3
  have h1 : BytesCanonical s1 := by
    unfold s1
    split
    next s' e =>
      have h' : BytesCanonical s' := by
        refine (?_ : SomeCanonical _) _ e
        split
        · exact passWords_canonical h
        · exact none_canonical
      exact h'
    · exact joinOwner_canonical (clearCopies_canonical (performWrites_canonical h))
  have h2 : BytesCanonical s2 := modDir_canonical h1
  have h3 : BytesCanonical s3 := setLock_canonical h2
  exact lockReply_canonical (replogAdd_canonical h3)

theorem passLock_canonical {s line brk} (h : BytesCanonical s) : BytesCanonical (passLock s line brk) := by
  unfold passLock
  extract_lets _ s1 _ s2
  have h1 : BytesCanonical s1 := performWrites_canonical h
  have h2 : BytesCanonical s2 := setLock_canonical h1
  split
  · split
    · exact setLock_canonical h
    · exact grantLock_canonical (setLock_canonical h)
  · exact wakeReqs_canonical (modDir_canonical h2)

theorem markWait_canonical {s q timeout} (h : BytesCanonical s) : BytesCanonical (markWait s q timeout) := by
  unfold markWait
  extract_lets _ s1
  have h1 : BytesCanonical s1 := modG_canonical (delR_canonical h)
  exact mapRecords_canonical h1

theorem awaitGrant_canonical {s q timeout} (h : BytesCanonical s) : BytesCanonical (awaitGrant s q timeout) :=
  setLock_canonical h

theorem grantLogged_canonical {s n} (h : BytesCanonical s) : BytesCanonical (grantLogged s n) := by
  induction n generalizing s with
  | zero => exact h
  | succ n ih =>
    rw [grantLogged]
    split
    · exact h
    · exact ih (grantLock_canonical (setLock_canonical (logTake_canonical h)))

theorem lockArrive_canonical {s q timeout} (h : BytesCanonical s) : BytesCanonical (lockArrive s q timeout) := by
  unfold lockArrive
  extract_lets _ _ s0 s1
  have h0 : BytesCanonical s0 := modH_canonical h rfl
  have h1 : BytesCanonical s1 := getD_canonical (dirRoom_canonical h0) h0
  split
  · exact lockReply_canonical h
  · split
    · exact lockReply_canonical h
    · split
      · split
        · exact lockReply_canonical h
        · split
          · exact waitReq_canonical h
          · split
            · exact awaitGrant_canonical (modDir_canonical h1)
            · exact grantLock_canonical h1
      · split
        · exact awaitGrant_canonical h
        · split
          · exact lockReply_canonical h
          · split
            · exact markWait_canonical h
            · split
              · exact lockReply_canonical h
              · exact awaitGrant_canonical h

theorem execLockRequestArrival_canonical {rq s} (h : BytesCanonical s) :
    NextCanonical (execLockRequestArrival rq s) := by
  unfold execLockRequestArrival
  extract_lets
  split
  · refine enabled_canonical h ?_
    split
    · exact push_canonical h
    · exact lockArrive_canonical h
  · exact next_canonical h

theorem execLockReleaseArrival_canonical {rq s} (h : BytesCanonical s) :
    NextCanonical (execLockReleaseArrival rq s) := by
  unfold execLockReleaseArrival
  extract_lets
  refine enabled_canonical h ?_
  split
  · exact push_canonical h
  · split
    · exact passLock_canonical (answer_canonical h)
    · exact answer_canonical h

theorem execLockWaiterExpiry_canonical {line uid s} (h : BytesCanonical s) :
    NextCanonical (execLockWaiterExpiry line uid s) := by
  unfold execLockWaiterExpiry
  extract_lets
  split
  · exact next_canonical (lockReply_canonical (setLock_canonical h))
  · exact next_canonical h

theorem lockCause_canonical {s uid line c} (h : BytesCanonical s) : BytesCanonical (lockCause s uid line c) :=
  raiseDeferred_canonical h

theorem execLckHold_canonical {line s} (h : BytesCanonical s) : NextCanonical (execLckHold line s) :=
  enabled_canonical h (lockCause_canonical (setLock_canonical h))

theorem execDeadlockProbe_canonical {line uid s} (h : BytesCanonical s) :
    NextCanonical (execDeadlockProbe line uid s) := by
  unfold execDeadlockProbe
  extract_lets
  split
  · refine next_canonical ?_
    split
    · exact lockCause_canonical (lockReply_canonical (setLock_canonical h))
    · exact setLock_canonical h
  · exact next_canonical h

theorem execLockStatRequest_canonical {rq s} (h : BytesCanonical s) : NextCanonical (execLockStatRequest rq s) := by
  unfold execLockStatRequest
  extract_lets
  refine enabled_canonical h ?_
  split
  · exact push_canonical h
  · exact answer_canonical h

theorem execMwaitRequestArrival_canonical {rq s} (h : BytesCanonical s) :
    NextCanonical (execMwaitRequestArrival rq s) := by
  unfold execMwaitRequestArrival
  extract_lets
  split
  · refine enabled_canonical h ?_
    split
    · exact push_canonical h
    · split
      · exact memError_canonical h
      · split
        · exact answer_canonical h
        · split
          · exact answer_canonical h
          · split
            · exact answer_canonical h
            · split
              next s1 e =>
                have h1 : BytesCanonical s1 := snd_canonical e (fresh_canonical h)
                exact modH_canonical h1 rfl
  · exact next_canonical h

theorem execMonitorExpiry_canonical {mon s} (h : BytesCanonical s) : NextCanonical (execMonitorExpiry mon s) := by
  unfold execMonitorExpiry
  split
  · exact next_canonical (monitorReply_canonical h)
  · exact next_canonical h

theorem drainFrame_canonical {s frame} (h : BytesCanonical s) : BytesCanonical (drainFrame s frame) := by
  unfold drainFrame
  extract_lets s1
  have h1 : BytesCanonical s1 := modH_canonical h rfl
  exact foldl_canonical (fun _ _ ht => foldl_canonical (fun _ _ ht' => lockReply_canonical ht') (setLock_canonical ht)) h1

theorem execLockDrainRequest_canonical {frame s} (h : BytesCanonical s) :
    NextCanonical (execLockDrainRequest frame s) :=
  enabled_canonical h (drainFrame_canonical h)

theorem execGenerationRaise_canonical {frame s} (h : BytesCanonical s) :
    NextCanonical (execGenerationRaise frame s) := by
  unfold execGenerationRaise
  refine enabled_canonical h ?_
  extract_lets s1
  have h1 : BytesCanonical s1 := drainFrame_canonical h
  exact modH_canonical h1 rfl

theorem dropUntracked_canonical {s line} (h : BytesCanonical s) : BytesCanonical (dropUntracked s line) := by
  unfold dropUntracked
  extract_lets here s' s'' late words s2
  have h' : BytesCanonical s' := foldl_canonical (fun _ _ ht => renewalCheck_canonical ht) h
  have h'' : BytesCanonical s'' :=
    foldl_canonical (fun _ _ ht => foldl_canonical (fun _ _ ht => stashCheck_canonical ht) ht) h'
  have h2 : BytesCanonical s2 :=
    canonical_of_same (mapCores_canonical (f := fun p => (p.1, { p.2 with swords := words p.2 })) h'' fun _ => ⟨rfl, rfl⟩) rfl
  exact modH_canonical h2 rfl

theorem execGenerationRaiseComplete_canonical {frame s} (h : BytesCanonical s) :
    NextCanonical (execGenerationRaiseComplete frame s) := by
  unfold execGenerationRaiseComplete
  refine enabled_canonical h ?_
  extract_lets _ s1 s2 s3 _ s4
  have h1 : BytesCanonical s1 := foldl_canonical (fun _ _ ht => setLock_canonical (modDir_canonical ht)) h
  have h2 : BytesCanonical s2 := foldl_canonical (fun _ _ ht => dropUntracked_canonical (evictDir_canonical ht)) h1
  have h3 : BytesCanonical s3 := foldl_canonical (fun _ _ ht => monitorReply_canonical ht) h2
  have h4 : BytesCanonical s4 := modH_canonical h3 rfl
  exact foldl_canonical (fun _ _ ht => wakeReqs_canonical ht) h4

theorem execGenerationSet_canonical {frame gen s} (h : BytesCanonical s) :
    NextCanonical (execGenerationSet frame gen s) :=
  enabled_canonical h (modH_canonical h rfl)

theorem execBrokenMarkClear_canonical {line s} (h : BytesCanonical s) :
    NextCanonical (execBrokenMarkClear line s) := by
  unfold execBrokenMarkClear
  refine enabled_canonical h ?_
  extract_lets s1
  have h1 : BytesCanonical s1 := setLock_canonical h
  exact wakeReqs_canonical (modDir_canonical h1)

end Sys2Proof.Machine

/-! ### Dispatcher: dispatch, relaunch, rebalancing, exchange -/

namespace Sys2Proof.Machine
open Safety

theorem execQueueRegister_canonical {q ctx cores cb s} (h : BytesCanonical s) :
    NextCanonical (execQueueRegister q ctx cores cb s) :=
  enabled_canonical h (canonical_of_same h rfl)

theorem execWaitCounterPoll_canonical {q s} (h : BytesCanonical s) : NextCanonical (execWaitCounterPoll q s) := by
  unfold execWaitCounterPoll
  split
  · exact next_canonical h
  · refine enabled_canonical h ?_
    split
    · split
      · exact canonical_of_same h rfl
      · exact h
    · exact h

theorem advanceHead_canonical {s n q} (h : BytesCanonical s) : BytesCanonical (advanceHead s n q) :=
  devWriteLe_canonical (canonical_of_same h rfl)

theorem launchForm_canonical {s n ctx idx addr code} (h : BytesCanonical s) :
    BytesCanonical (launchForm s n ctx idx addr code) :=
  addFault_canonical h

theorem flushGranule_canonical {s core g} (h : BytesCanonical s) : BytesCanonical (flushGranule s core g) := by
  unfold flushGranule
  extract_lets _ _ _ s1
  have h1 : BytesCanonical s1 := foldl_canonical (fun _ _ ht => pairEvict_canonical (renewalCheck_canonical ht)) h
  exact modH_canonical h1 rfl

theorem startChange_canonical {s core x} (h : BytesCanonical s) : BytesCanonical (startChange s core x) :=
  modC_canonical h fun _ e => e

theorem leaveStash_canonical {s core g} (h : BytesCanonical s) : BytesCanonical (leaveStash s core g) := by
  unfold leaveStash
  extract_lets _ _ s2
  have h2 : BytesCanonical s2 := by
    unfold s2
    refine foldl_canonical (fun _ _ ht => ?_) h
    split
    · exact cutEntry_canonical ht
    · exact ht
  exact modC_canonical (clearWords_canonical h2) fun _ e => filter_wf _ e

theorem execGranuleRoleMove_canonical {core granule s} (h : BytesCanonical s) :
    NextCanonical (execGranuleRoleMove core granule s) := by
  unfold execGranuleRoleMove
  refine enabled_canonical h ?_
  extract_lets s1 s2
  have h1 : BytesCanonical s1 := by
    unfold s1
    split
    · exact leaveStash_canonical h
    · exact flushGranule_canonical h
    · exact h
  have h2 : BytesCanonical s2 := modC_canonical h1 fun _ e => e
  split
  · exact h2
  · exact foldl_canonical (fun _ _ ht => grantClaims_canonical ht) h2

theorem placeOn_canonical {s disp d prio core} (h : BytesCanonical s) :
    SomeCanonical (placeOn s disp d prio core) := by
  unfold placeOn
  split
  · exact none_canonical
  · extract_lets
    split
    next s1 e =>
      have h1 : BytesCanonical s1 := snd_canonical e (fresh_canonical h)
      extract_lets s2 s3 s4
      have h2 : BytesCanonical s2 := handOver_canonical h1
      have h3 : BytesCanonical s3 := setT_canonical h2
      have h4 : BytesCanonical s4 := preloadTids_canonical (placeGroups_canonical (canonical_of_same h3 rfl))
      split
      · exact none_canonical
      · exact some_canonical h4

theorem placeTask_canonical {s disp q prio} (h : BytesCanonical s) : SomeCanonical (placeTask s disp q prio) := by
  unfold placeTask
  split
  · exact none_canonical
  · split
    · exact none_canonical
    · exact findSome_canonical fun _ => placeOn_canonical h

theorem serveHead_canonical {s n q} (h : BytesCanonical s) : SomeCanonical (serveHead s n q) := by
  unfold serveHead
  extract_lets
  split
  · exact some_canonical (launchForm_canonical (advanceHead_canonical h))
  · split
    next s1 e =>
      have h1 : BytesCanonical s1 := by
        refine snd_canonical e ?_
        split
        · exact h
        · split
          next s1' e1 =>
            have h1' : BytesCanonical s1' := snd_canonical e1 (fresh_canonical h)
            exact canonical_of_same h1' rfl
      extract_lets
      split
      next s' e2 =>
        have h' : BytesCanonical s' := placeTask_canonical h1 _ e2
        extract_lets s3
        have h3 : BytesCanonical s3 := canonical_of_same h' rfl
        split
        · exact some_canonical (advanceHead_canonical h3)
        · exact some_canonical h3
      · exact optionMap_canonical fun _ _ => startChange_canonical h

theorem execDispatcherServe_canonical {s} (h : BytesCanonical s) : NextCanonical (execDispatcherServe s) := by
  have served (n : Nat) : BytesCanonical { s with served := n } := canonical_of_same h rfl
  have heads : SomeCanonical ((pickQueues s).findSome? fun p => serveHead { s with served := p.1 } p.1 p.2) :=
    findSome_canonical fun p => serveHead_canonical (served p.1)
  unfold execDispatcherServe
  split
  next s1 e => exact enabled_canonical h (heads s1 e)
  · exact next_canonical h

theorem countDone_canonical {s ctx a sig} (h : BytesCanonical s) : BytesCanonical (countDone s ctx a sig) := by
  unfold countDone
  split
  · exact h
  · split
    · exact addFault_canonical h
    · extract_lets _ s1
      have h1 : BytesCanonical s1 := devWriteMode_canonical h
      split
      · exact hostStore_canonical h (wf_writeLe _ _ _ _)
      · split
        · exact wakeMonitors_canonical h1
        · exact h1

theorem execDispatchComplete_canonical {disp s} (h : BytesCanonical s) :
    NextCanonical (execDispatchComplete disp s) := by
  unfold execDispatchComplete
  split
  · exact next_canonical h
  · refine enabled_canonical h ?_
    extract_lets s1
    have h1 : BytesCanonical s1 := canonical_of_same h rfl
    exact countDone_canonical h1

theorem execRelaunchStep_canonical {core s} (h : BytesCanonical s) : NextCanonical (execRelaunchStep core s) := by
  unfold execRelaunchStep
  split
  · exact next_canonical h
  · extract_lets _ s'
    have h' : BytesCanonical s' := by
      unfold s'
      split
      · exact logTake_canonical h
      · exact h
    exact next_canonical (admitGroup_canonical (replogAdd_canonical h'))

theorem execContStall_canonical {core s} (h : BytesCanonical s) : NextCanonical (execContStall core s) := by
  unfold execContStall
  extract_lets
  split
  · exact next_canonical h
  · exact enabled_canonical h (addFault_canonical (modC_canonical h fun _ e => e))

theorem execRebalancePending_canonical {task s} (h : BytesCanonical s) :
    NextCanonical (execRebalancePending task s) := by
  unfold execRebalancePending
  split
  · exact next_canonical (modT_canonical h)
  · exact next_canonical h

theorem succFill_canonical {s t} (h : BytesCanonical s) : BytesCanonical (succFill s t) :=
  foldl_canonical (fun _ _ ht' => modG_canonical ht') (modT_canonical h)

theorem succFails_canonical {s t c va} (h : BytesCanonical s) : BytesCanonical (succFails s t c va) := by
  unfold succFails
  extract_lets told
  have htold : BytesCanonical told := by
    unfold told
    split
    · exact modG_canonical h
    · exact h
  exact modT_canonical (succFill_canonical htold)

theorem succErr_canonical {s t va} (h : BytesCanonical s) : BytesCanonical (succErr s t va) := by
  unfold succErr
  extract_lets s1
  have h1 : BytesCanonical s1 := by
    unfold s1
    split
    · exact addFault_canonical (modG_canonical h)
    · exact h
  exact modT_canonical (succFill_canonical h1)

theorem execSuccReadComplete_canonical {task s} (h : BytesCanonical s) :
    NextCanonical (execSuccReadComplete task s) := by
  unfold execSuccReadComplete
  extract_lets
  split
  · refine enabled_canonical h ?_
    refine endTask_canonical ?_
    split
    · exact succFails_canonical h
    · split
      · exact succErr_canonical h
      · extract_lets _ read
        have hread : ∀ ok d h, BytesCanonical (read ok d h) := fun _ _ _ => modT_canonical (succFill_canonical h)
        split
        · exact succFails_canonical h
        · split
          · exact succErr_canonical h
          · split <;> exact hread _ _ _
  · exact next_canonical h

theorem launchCopy_canonical {s by_ ctx src dst} (h : BytesCanonical s) :
    OkCanonical (launchCopy s by_ ctx src dst) := by
  unfold launchCopy
  split
  · exact error_canonical
  · exact error_canonical
  · extract_lets _ s1
    have h1 : BytesCanonical s1 := devWriteMode_canonical h
    split
    · exact ok_canonical (hostStore_canonical h (wf_writeLe _ _ _ _))
    · split
      · exact error_canonical
      · refine ok_canonical ?_
        refine foldl_canonical (fun _ _ ht => ?_) h1
        split
        · exact setTag_canonical ht
        · exact ht

theorem execLaunchAction_canonical {rq s} (h : BytesCanonical s) : NextCanonical (execLaunchAction rq s) := by
  unfold execLaunchAction
  extract_lets _ reply
  have hreply : ∀ s r, BytesCanonical s → BytesCanonical (reply s r) := fun _ _ h' => answer_canonical h'
  split
  · refine enabled_canonical h ?_
    split
    · exact hreply _ _ h
    · extract_lets
      split
      · exact hreply _ _ h
      · split
        next s1 e =>
          have h1 : BytesCanonical s1 := launchCopy_canonical h _ e
          exact hreply _ _ (devWriteLe_canonical h1)
        · exact hreply _ _ (launchForm_canonical h)
  · exact next_canonical h

theorem exchangeSide_canonical {s q other} (h : BytesCanonical s) : BytesCanonical (exchangeSide s q other) := by
  unfold exchangeSide
  split
  · split
    · extract_lets _ _ _ s1
      have h1 : BytesCanonical s1 := modG_canonical h
      exact traceDone_canonical (delR_canonical (canonical_of_same h1 rfl))

theorem resendHeld_canonical {s core} (h : BytesCanonical s) : BytesCanonical (resendHeld s core) :=
  pushAll_canonical h

theorem execXshfRequestArrival_canonical {rq s} (h : BytesCanonical s) :
    NextCanonical (execXshfRequestArrival rq s) := by
  unfold execXshfRequestArrival
  extract_lets _ _ _ leave
  have hleave : ∀ s, BytesCanonical s → BytesCanonical (leave s) := fun _ h' => modC_canonical h' fun _ e => e
  refine enabled_canonical h ?_
  split
  · extract_lets s1
    have h1 : BytesCanonical s1 := modC_canonical (hleave _ h) fun _ e => e
    exact resendHeld_canonical (exchangeSide_canonical (exchangeSide_canonical h1))
  · split
    · exact resendHeld_canonical (modC_canonical (hleave _ h) fun _ e => e)
    · split
      · exact h
      · exact modC_canonical h fun _ e => e

theorem execXshfStale_canonical {core uid s} (h : BytesCanonical s) : NextCanonical (execXshfStale core uid s) := by
  unfold execXshfStale
  split
  · exact next_canonical h
  · extract_lets s1
    have h1 : BytesCanonical s1 := modC_canonical h fun _ e => e
    exact next_canonical (raiseDeferred_canonical h1)

theorem dropExchanges_canonical {s uid} (h : BytesCanonical s) : BytesCanonical (dropExchanges s uid) := by
  unfold dropExchanges
  extract_lets mine ids clean s1 aside s2
  have h1 : BytesCanonical s1 := mapCores_canonical h fun _ => ⟨rfl, rfl⟩
  have h2 : BytesCanonical s2 := by
    refine foldl_canonical (fun _ _ ht => traceDone_canonical (delR_canonical ht)) ?_
    split
    · exact h1
    · exact modG_canonical h1
  split
  · exact h2
  · exact foldl_canonical (fun _ _ ht => resendHeld_canonical ht) h2

end Sys2Proof.Machine

/-! ### Paging: the events of translation -/

namespace Sys2Proof.Machine
open Safety

theorem execSetRootTable_canonical {ctx pa s} (h : BytesCanonical s) : NextCanonical (execSetRootTable ctx pa s) :=
  enabled_canonical h (modX_canonical h)

theorem execTlbShootdown_canonical {ctx lo hi s} (h : BytesCanonical s) :
    NextCanonical (execTlbShootdown ctx lo hi s) := by
  unfold execTlbShootdown
  extract_lets page keep old calm late
  refine enabled_canonical h (pushAll_canonical ?_)
  exact canonical_of_same
    (mapCores_canonical (f := fun p => (p.1, { p.2 with tlb := p.2.tlb.filter keep })) h fun _ => ⟨rfl, rfl⟩) rfl

theorem eclkEffect_canonical {s} (h : BytesCanonical s) : BytesCanonical (eclkEffect s) :=
  foldl_canonical (fun _ _ ht => raisePts_canonical ht) h

theorem execEclkAdvance_canonical {s} (h : BytesCanonical s) : NextCanonical (execEclkAdvance s) :=
  enabled_canonical h (eclkEffect_canonical h)

theorem execXwLoad_canonical {uid n s} (h : BytesCanonical s) : NextCanonical (execXwLoad uid n s) := by
  unfold execXwLoad
  split
  · exact next_canonical h
  · extract_lets _ s1
    have h1 : BytesCanonical s1 := canonical_of_same h rfl
    split
    · split
      · refine next_canonical ?_
        split
        · exact setG_canonical h1
        · exact h1
      · exact next_canonical h1
    · exact next_canonical h1

theorem execXwLeaseExpiry_canonical {uid n s} (h : BytesCanonical s) : NextCanonical (execXwLeaseExpiry uid n s) :=
  enabled_canonical h (setG_canonical h)

theorem expireXw_canonical {s} (h : BytesCanonical s) : BytesCanonical (expireXw s) :=
  canonical_of_same h rfl

theorem moveFifo_canonical {s core0 uid op old nw} (h : BytesCanonical s) :
    BytesCanonical (moveFifo s core0 uid op old nw) :=
  modC_canonical h fun _ e => e

theorem resend_canonical {s q l} (h : BytesCanonical s) : BytesCanonical (resend s q l) := by
  unfold resend
  extract_lets _ _ _ _ _ _ _ _ _ _ _ s1 src
  have h1 : BytesCanonical s1 := moveFifo_canonical (setG_canonical h)
  have hsrc : BytesCanonical src := setR_canonical h1
  exact push_canonical (canonical_of_same hsrc rfl)

theorem rebind_canonical {s q} (h : BytesCanonical s) : OkCanonical (rebind s q) := by
  unfold rebind
  extract_lets
  split
  · refine map_canonical fun _ _ => ?_
    extract_lets s1 s2 s3
    have h1 : BytesCanonical s1 := setG_canonical h
    have h2 : BytesCanonical s2 := moveFifo_canonical h1
    have h3 : BytesCanonical s3 := ackBanks_canonical (sendAtomic_canonical (delR_canonical h2))
    split
    · exact push_canonical (setR_canonical h2)
    · exact settleOp_canonical (modG_canonical h3)
  · exact ok_canonical h

theorem parkedUser_canonical {s r c t} (h : BytesCanonical s) : BytesCanonical (parkedUser s r c t) := by
  unfold parkedUser
  extract_lets _ _ s1
  have h1 : BytesCanonical s1 := setG_canonical h
  exact putRecord_canonical h1

theorem requestFault_canonical {s q c va} (h : BytesCanonical s) : BytesCanonical (requestFault s q c va) := by
  unfold requestFault
  extract_lets _ _ s' _ told
  have hs : BytesCanonical s' := by
    unfold s'
    split
    · exact h
    · exact setG_canonical h
  have htold (c) : BytesCanonical (told c) := addFault_canonical hs
  clear_value s' told
  split
  · exact htold _
  · extract_lets _ _ stop old mine again _ regs loaded s1
    have hstop {s} (h : BytesCanonical s) : BytesCanonical (stop s) := modG_canonical h
    have hloaded {s} (h : BytesCanonical s) : BytesCanonical (loaded s) := modG_canonical h
    have h1 : BytesCanonical s1 := depositWhy_canonical (hloaded (hstop (htold _)))
    clear_value loaded stop s1 mine again regs
    split
    · exact htold _
    · split
      · exact setG_canonical hs
      · split
        · exact canonical_of_same hs rfl
        · clear_value old
          split
          · exact modG_canonical (hstop hs)
          · split
            · split
              · exact parkedUser_canonical (hstop hs)
              · exact putRecord_canonical (hloaded (hstop (htold _)))
            · split
              · exact htold _
              · exact modG_canonical (canonical_of_same h1 rfl)

theorem retranslated_canonical {s walk w rq} (h : BytesCanonical s) : BytesCanonical (retranslated s walk w rq) := by
  unfold retranslated
  extract_lets q rest res
  have hrest : BytesCanonical rest := canonical_of_same h rfl
  have hres : OkCanonical res := by
    unfold res
    split
    · exact rebind_canonical hrest
    · split
      · exact error_canonical
      · split
        · exact error_canonical
        · split
          · exact error_canonical
          · exact ok_canonical (resend_canonical (tlbAdd_canonical hrest))
  clear_value res
  split
  · exact hrest
  · cases res with
    | ok s1 => exact hres _ rfl
    | error e => exact requestFault_canonical (canonical_of_same h rfl)

theorem execPageWalkComplete_canonical {walk s} (h : BytesCanonical s) :
    NextCanonical (execPageWalkComplete walk s) := by
  unfold execPageWalkComplete
  split
  · exact next_canonical h
  · refine enabled_canonical h ?_
    extract_lets ans s1
    have h1 : BytesCanonical s1 := by
      unfold s1 ans
      split
      · exact tlbAdd_canonical h
      · exact h
    split
    · extract_lets src
      have hsrc : BytesCanonical src := modG_canonical h1
      exact canonical_of_same hsrc rfl
    · exact push_canonical (canonical_of_same h1 rfl)
    · exact retranslated_canonical h

end Sys2Proof.Machine

/-! ### Preempt: pre-emption, restore, resolutions -/

namespace Sys2Proof.Machine
open Safety

theorem askPreempt_canonical {s ctx core only restore} (h : BytesCanonical s) :
    BytesCanonical (askPreempt s ctx core only restore) := by
  unfold askPreempt
  split
  · exact h
  · extract_lets s1
    have h1 : BytesCanonical s1 := modX_canonical h
    refine foldl_canonical (fun _ _ ht => ?_) h1
    refine dropExchanges_canonical ?_
    split
    · exact cancelWaits_canonical ht
    · exact ht

theorem execPreemptRequest_canonical {ctx cores s} (h : BytesCanonical s) :
    NextCanonical (execPreemptRequest ctx cores s) := by
  unfold execPreemptRequest
  refine enabled_canonical h ?_
  split
  · exact modX_canonical h
  · exact foldl_canonical (fun _ _ ht => askPreempt_canonical ht) h

theorem moveTeams_canonical {s gs core off} (h : BytesCanonical s) : BytesCanonical (moveTeams s gs core off) := by
  unfold moveTeams
  refine foldl_canonical (fun _ _ ht => ?_) h
  split
  · exact modC_canonical ht fun _ e => e
  · exact ht

theorem widenPreempts_canonical {s} (h : BytesCanonical s) : BytesCanonical (widenPreempts s) := by
  unfold widenPreempts
  extract_lets
  refine foldl_canonical (fun _ _ ht => ?_) h
  extract_lets _ s1
  have h1 : BytesCanonical s1 := modX_canonical ht
  refine foldl_canonical (fun _ _ ht' => ?_) h1
  refine dropExchanges_canonical ?_
  split
  · exact cancelWaits_canonical ht'
  · exact ht'

theorem saveContext_canonical {s ctx p} (h : BytesCanonical s) : BytesCanonical (saveContext s ctx p) := by
  unfold saveContext
  extract_lets _ _ _ s1 _ s2 s3 _ s3'
  have h1 : BytesCanonical s1 := foldl_canonical (fun _ _ ht => writeRecord_canonical ht) h
  have h2 : BytesCanonical s2 := canonical_of_same h1 rfl
  have h3 : BytesCanonical s3 := modX_canonical (moveTeams_canonical h2)
  have h3' : BytesCanonical s3' := canonical_of_same h3 rfl
  split
  · exact h1
  · exact foldl_canonical (fun _ _ ht => modT_canonical ht) h3'

theorem execPreemptContextSave_canonical {ctx core s} (h : BytesCanonical s) :
    NextCanonical (execPreemptContextSave ctx core s) := by
  unfold execPreemptContextSave
  split
  · exact next_canonical (saveContext_canonical h)
  · exact next_canonical h

theorem execPreemptWithdraw_canonical {ctx all s} (h : BytesCanonical s) :
    NextCanonical (execPreemptWithdraw ctx all s) := by
  unfold execPreemptWithdraw
  extract_lets _ s1
  have h1 : BytesCanonical s1 := modX_canonical h
  exact enabled_canonical h (canonical_of_same h1 rfl)

theorem execSfpLate_canonical {ctx core s} (h : BytesCanonical s) : NextCanonical (execSfpLate ctx core s) := by
  unfold execSfpLate
  split
  · exact next_canonical h
  · extract_lets _ s1
    have h1 : BytesCanonical s1 := canonical_of_same h rfl
    exact next_canonical (addFault_canonical h1)

theorem moveRecord_canonical {s core r} (h : BytesCanonical s) : BytesCanonical (moveRecord s core r) := by
  unfold moveRecord
  split
  · exact h
  · split
    · split
      · exact h
      · exact writeRecord_canonical (putRecord_canonical h)
    · extract_lets s1
      have h1 : BytesCanonical s1 := modG_canonical (dropRecord_canonical h)
      exact contOverflow_canonical h1

theorem backOn_canonical {core s t} (h : BytesCanonical s) : SomeCanonical (backOn core s t) := by
  unfold backOn
  extract_lets _ _ _ come
  have hcome : ∀ s g, BytesCanonical s → BytesCanonical (come s g) :=
    fun _ _ h' => raisePts_canonical (modG_canonical h')
  split
  · exact none_canonical
  · extract_lets _ _ src s1 s2 s3
    have hsrc : BytesCanonical src := handOver_canonical h
    have h1 : BytesCanonical s1 := canonical_of_same hsrc rfl
    have h2 : BytesCanonical s2 := setT_canonical h1
    have h3 : BytesCanonical s3 := moveTeams_canonical (foldl_canonical (fun _ _ ht' => hcome _ _ ht') h2)
    split
    · exact none_canonical
    · exact some_canonical (preloadTids_canonical (foldl_canonical (fun _ _ ht' => moveRecord_canonical ht') h3))

theorem unitOn_canonical {s unit core} (h : BytesCanonical s) : SomeCanonical (unitOn s unit core) := by
  unfold unitOn
  extract_lets
  split
  · exact none_canonical
  · refine foldl_someCanonical (fun _ _ ho => ?_) (some_canonical h)
    refine optionBind_canonical fun t e => ?_
    have ht : BytesCanonical t := ho _ e
    exact backOn_canonical ht

theorem placeBack_canonical {s t} (h : BytesCanonical s) : SomeCanonical (placeBack s t) := by
  unfold placeBack
  extract_lets
  split
  · exact none_canonical
  · exact findSome_canonical fun _ => unitOn_canonical h

theorem execContextRestore_canonical {ctx cores s} (h : BytesCanonical s) :
    NextCanonical (execContextRestore ctx cores s) := by
  unfold execContextRestore
  refine enabled_canonical h ?_
  extract_lets s1 _ s2
  have h1 : BytesCanonical s1 := modX_canonical h
  have h2 : BytesCanonical s2 := canonical_of_same h1 rfl
  refine foldl_canonical (fun _ _ ht => ?_) h2
  split
  · exact getD_canonical (placeBack_canonical ht) ht
  · exact ht

theorem execThermalMigration_canonical {task s} (h : BytesCanonical s) :
    NextCanonical (execThermalMigration task s) :=
  enabled_canonical h (askPreempt_canonical h)

theorem breakLocks_canonical {s ctx} (h : BytesCanonical s) : BytesCanonical (breakLocks s ctx) := by
  unfold breakLocks
  extract_lets _ leave _ s1
  have hleave : ∀ s line, BytesCanonical s → BytesCanonical (leave s line) :=
    fun _ _ h' => foldl_canonical (fun _ _ ht => delR_canonical ht) (setLock_canonical h')
  have h1 : BytesCanonical s1 := foldl_canonical (fun _ _ ht => hleave _ _ ht) h
  refine foldl_canonical (fun _ _ ht => ?_) h1
  split
  · extract_lets back
    have hback : BytesCanonical back := foldl_canonical (fun _ _ ht' => recallUnit_canonical ht') ht
    exact passLock_canonical hback
  · exact ht

theorem quitGroup_canonical {s uid} (h : BytesCanonical s) : BytesCanonical (quitGroup s uid) := by
  unfold quitGroup
  extract_lets s1
  have h1 : BytesCanonical s1 :=
    leaveLane_canonical (dropExchanges_canonical (leaveTeam_canonical (deferredToFirmware_canonical h)))
  exact modG_canonical h1

theorem execContextEnd_canonical {ctx s} (h : BytesCanonical s) : NextCanonical (execContextEnd ctx s) := by
  unfold execContextEnd
  extract_lets s1 us _ s2 s3 _ _ _ nodes s4
  have h1 : BytesCanonical s1 := breakLocks_canonical h
  have h2 : BytesCanonical s2 := foldl_canonical (fun _ _ ht => delR_canonical (modH_canonical ht rfl)) h1
  have h3 : BytesCanonical s3 := foldl_canonical (fun _ _ ht => quitGroup_canonical ht) h2
  have h4 : BytesCanonical s4 :=
    canonical_of_same (mapCores_canonical (f := fun p => (p.1, nodes p.2)) h3 fun _ => ⟨rfl, rfl⟩) rfl
  exact enabled_canonical h (modX_canonical h4)

theorem execSpillResizeResume_canonical {ctx cqspill s} (h : BytesCanonical s) :
    NextCanonical (execSpillResizeResume ctx cqspill s) := by
  unfold execSpillResizeResume
  refine enabled_canonical h ?_
  extract_lets s1
  have h1 : BytesCanonical s1 := modX_canonical h
  exact foldl_canonical (fun _ _ ht => retryDeposits_canonical ht) h1

theorem walkAgain_canonical {s f} (h : BytesCanonical s) : BytesCanonical (walkAgain s f) :=
  pushAll_canonical (canonical_of_same h rfl)

theorem giveUp_canonical {s uid k} (h : BytesCanonical s) : BytesCanonical (giveUp s uid k) := by
  unfold giveUp
  extract_lets
  refine foldl_canonical (fun _ _ ht => ?_) h
  split
  · exact ackReq_canonical (canonical_of_same ht rfl)
  · exact ht

theorem answerHandlers_canonical {s} (h : BytesCanonical s) : BytesCanonical (answerHandlers s) := by
  unfold answerHandlers
  extract_lets
  refine foldl_canonical (fun _ _ ht => ?_) h
  extract_lets s1
  have h1 : BytesCanonical s1 := modG_canonical ht
  split
  · exact walkAgain_canonical h1
  · exact giveUp_canonical h1

theorem resolve_canonical {s r pc mask} (h : BytesCanonical s) : BytesCanonical (resolve s r pc mask) := by
  unfold resolve
  extract_lets s1
  have h1 : BytesCanonical s1 := putRecord_canonical h
  exact modG_canonical h1

theorem execFaultResolveRetry_canonical {rid s} (h : BytesCanonical s) :
    NextCanonical (execFaultResolveRetry rid s) := by
  unfold execFaultResolveRetry
  split
  · extract_lets s1
    have h1 : BytesCanonical s1 := resolve_canonical h
    refine next_canonical ?_
    split
    · exact walkAgain_canonical h1
    · exact h1
  · exact next_canonical (walkAgain_canonical h)
  · exact enabled_canonical h (push_canonical (canonical_of_same h rfl))
  · exact next_canonical h

theorem elsewhere_canonical {s r} (h : BytesCanonical s) : BytesCanonical (elsewhere s r) := by
  unfold elsewhere
  extract_lets s1
  have h1 : BytesCanonical s1 := putRecord_canonical h
  exact modG_canonical h1

theorem execFaultResolveSkip_canonical {rid s} (h : BytesCanonical s) :
    NextCanonical (execFaultResolveSkip rid s) := by
  unfold execFaultResolveSkip
  split
  · exact next_canonical h
  · extract_lets _ s1
    have h1 : BytesCanonical s1 := elsewhere_canonical h
    refine next_canonical ?_
    split
    · exact giveUp_canonical (resolve_canonical h)
    · exact resolve_canonical h1

theorem nestParked_canonical {s r c t} (h : BytesCanonical s) : BytesCanonical (nestParked s r c t) := by
  unfold nestParked
  extract_lets _ _ s1
  have h1 : BytesCanonical s1 := setG_canonical h
  exact putRecord_canonical (addFault_canonical h1)

theorem execFaultResolveUser_canonical {rid s} (h : BytesCanonical s) :
    NextCanonical (execFaultResolveUser rid s) := by
  unfold execFaultResolveUser
  split
  · exact next_canonical h
  · extract_lets
    refine enabled_canonical h ?_
    split
    · exact parkedUser_canonical h
    · exact nestParked_canonical h

theorem execFaultResolveEnd_canonical {rid s} (h : BytesCanonical s) : NextCanonical (execFaultResolveEnd rid s) := by
  unfold execFaultResolveEnd
  split
  · exact execContextEnd_canonical h
  · exact execContextEnd_canonical h
  · split
    · split
      · exact execContextEnd_canonical h
      · exact next_canonical h
    · exact next_canonical h
  · exact next_canonical h

end Sys2Proof.Machine

/-! ### Debug: holds, steps, stops and samples -/

namespace Sys2Proof.Machine
open Safety

theorem execDeferredCauseDelivery_canonical {uid s} (h : BytesCanonical s) :
    NextCanonical (execDeferredCauseDelivery uid s) := by
  unfold execDeferredCauseDelivery
  extract_lets
  split
  · refine enabled_canonical h ?_
    split
    · exact deferredToFirmware_canonical h
    · exact deliverDeferred_canonical (canonical_of_same h rfl)
  · exact next_canonical h

theorem holdFragments_canonical {s uid n} (h : BytesCanonical s) : BytesCanonical (holdFragments s uid n) := by
  unfold holdFragments
  split
  · exact h
  · refine foldl_canonical (fun _ _ ht => ?_) h
    extract_lets
    split
    · exact deposit_canonical ht
    · exact ht

theorem holdGroup_canonical {s uid n} (h : BytesCanonical s) : BytesCanonical (holdGroup s uid n) :=
  holdFragments_canonical (modG_canonical h)

theorem execDebugHold_canonical {uid hold s} (h : BytesCanonical s) : NextCanonical (execDebugHold uid hold s) :=
  enabled_canonical h (holdGroup_canonical h)

theorem releaseRecords_canonical {s uid n} (h : BytesCanonical s) : BytesCanonical (releaseRecords s uid n) :=
  mapRecords_canonical h

theorem stopOver_canonical {s core} (h : BytesCanonical s) : BytesCanonical (stopOver s core) := by
  unfold stopOver
  split
  · exact h
  · exact modC_canonical h fun _ e => e

theorem execDebugRelease_canonical {uid s} (h : BytesCanonical s) : NextCanonical (execDebugRelease uid s) :=
  enabled_canonical h (stopOver_canonical (releaseRecords_canonical (modG_canonical h)))

theorem execDebugStep_canonical {uid s} (h : BytesCanonical s) : NextCanonical (execDebugStep uid s) :=
  enabled_canonical h (releaseRecords_canonical (modG_canonical h))

theorem stopReport_canonical {s core arg} (h : BytesCanonical s) : BytesCanonical (stopReport s core arg) :=
  foldl_canonical (fun _ _ ht => addFault_canonical ht) h

theorem stopCore_canonical {s core} (h : BytesCanonical s) : BytesCanonical (stopCore s core) := by
  unfold stopCore
  split
  · exact h
  · extract_lets _ s1
    have h1 : BytesCanonical s1 := modC_canonical h fun _ e => e
    exact stopOver_canonical (stopReport_canonical (foldl_canonical (fun _ _ ht => modG_canonical
      (holdGroup_canonical ht)) h1))

theorem execWatchpointStop_canonical {core act s} (h : BytesCanonical s) :
    NextCanonical (execWatchpointStop core act s) :=
  enabled_canonical h (foldl_canonical (fun _ _ ht => stopCore_canonical ht) h)

theorem execDebugRoleHalt_canonical {task role s} (h : BytesCanonical s) :
    NextCanonical (execDebugRoleHalt task role s) := by
  unfold execDebugRoleHalt
  extract_lets _ s1
  have h1 : BytesCanonical s1 := modT_canonical h
  exact enabled_canonical h (foldl_canonical (fun _ _ ht' => holdFragments_canonical ht') (canonical_of_same h1 rfl))

theorem execDebugRoleRelease_canonical {task role s} (h : BytesCanonical s) :
    NextCanonical (execDebugRoleRelease task role s) := by
  unfold execDebugRoleRelease
  extract_lets _ s1 s2
  have h1 : BytesCanonical s1 := modT_canonical h
  have h2 : BytesCanonical s2 := by
    unfold s2
    refine foldl_canonical (fun _ _ ht' => ?_) h1
    split
    · exact releaseRecords_canonical ht'
    · exact ht'
  refine enabled_canonical h ?_
  split
  · exact h2
  · exact foldl_canonical (fun _ _ ht' => askPreempt_canonical ht') (modX_canonical h2)

theorem endReplay_canonical {s e} (h : BytesCanonical s) : BytesCanonical (endReplay s e) := by
  unfold endReplay
  split
  · exact h
  · split
    · exact h
    · extract_lets _ _ _ s1
      have h1 : BytesCanonical s1 := addFault_canonical (modX_canonical h)
      exact foldl_canonical (fun _ _ ht => holdGroup_canonical ht) (canonical_of_same h1 rfl)

theorem replayRuns_canonical {s} (h : BytesCanonical s) : BytesCanonical (replayRuns s) := by
  unfold replayRuns
  split
  · exact h
  · extract_lets _ s1
    have h1 : BytesCanonical s1 := grantLogged_canonical h
    exact foldl_canonical (fun _ _ ht => endReplay_canonical ht) h1

theorem execNamedTickStop_canonical {die s} (h : BytesCanonical s) : NextCanonical (execNamedTickStop die s) :=
  enabled_canonical h (modDie_canonical (foldl_canonical (fun _ _ ht => stopReport_canonical ht) h))

theorem execSampctlWrite_canonical {core w s} (h : BytesCanonical s) : NextCanonical (execSampctlWrite core w s) :=
  enabled_canonical h (modC_canonical h fun _ e => e)

theorem traceRecord_canonical {s core r} (h : BytesCanonical s) : BytesCanonical (traceRecord s core r) := by
  unfold traceRecord
  extract_lets _ _ s1
  have h1 : BytesCanonical s1 := modC_canonical h fun _ e => e
  split
  · exact modC_canonical h fun _ e => e
  · exact bufferWrite_canonical h1

theorem execStallSample_canonical {core s} (h : BytesCanonical s) : NextCanonical (execStallSample core s) := by
  unfold execStallSample
  extract_lets _ s1
  have h1 : BytesCanonical s1 := foldl_canonical (fun _ _ ht => traceRecord_canonical ht) h
  exact enabled_canonical h (modC_canonical h1 fun _ e => e)

theorem execOccupancyRecord_canonical {core s} (h : BytesCanonical s) : NextCanonical (execOccupancyRecord core s) :=
  enabled_canonical h (traceRecord_canonical h)

end Sys2Proof.Machine

/-! ### EngineEvents: the events of the engines -/

namespace Sys2Proof.Machine
open Safety

theorem execEngineCommandComplete_canonical {cmd err s} (h : BytesCanonical s) :
    NextCanonical (execEngineCommandComplete cmd err s) := by
  unfold execEngineCommandComplete
  split
  · exact next_canonical h
  · extract_lets
    refine enabled_canonical h ?_
    split
    · exact completeCmd_canonical h
    · split
      next s1 _ e =>
        have h1 : BytesCanonical s1 := by
          refine fst_canonical e (cmdWork_canonical ?_)
          split
          · exact touchSources_canonical h
          · exact h
        extract_lets _ s2 s3
        have h2 : BytesCanonical s2 := gatherReports_canonical h1
        have h3 : BytesCanonical s3 := by
          unfold s3
          split
          · exact endReport_canonical h2
          · exact h2
        split
        · exact serveCore_canonical (putCmd_canonical h1)
        · exact cmdNext_canonical (serveCore_canonical (putCmd_canonical h3))

theorem execGraphNodeStart_canonical {core node s} (h : BytesCanonical s) :
    NextCanonical (execGraphNodeStart core node s) := by
  unfold execGraphNodeStart
  extract_lets _ s1
  have h1 : BytesCanonical s1 := modC_canonical h fun _ e => e
  refine enabled_canonical h ?_
  split
  · exact putCmd_canonical h1
  · exact h1

theorem operandsFree_canonical {s c id} (h : BytesCanonical s) : BytesCanonical (operandsFree s c id) :=
  engineResume_canonical (engineResume_canonical (modC_canonical (modC_canonical h fun _ e => e) fun _ e => e))

theorem mmLeave_canonical {s c id} (h : BytesCanonical s) : BytesCanonical (mmLeave s c id) := by
  unfold mmLeave
  extract_lets s1
  have h1 : BytesCanonical s1 := modC_canonical h fun _ e => e
  exact serveCore_canonical (serveCore_canonical (completeCmd_canonical h1))

theorem execMatrixStart_canonical {cmd s} (h : BytesCanonical s) : NextCanonical (execMatrixStart cmd s) := by
  unfold execMatrixStart
  split
  · refine enabled_canonical h ?_
    split
    · exact mmLeave_canonical (operandsFree_canonical h)
    · exact push_canonical (tagTiles_canonical (putCmd_canonical h))
  · exact next_canonical h

theorem execOperandsConsumed_canonical {cmd s} (h : BytesCanonical s) :
    NextCanonical (execOperandsConsumed cmd s) := by
  unfold execOperandsConsumed
  split
  · exact enabled_canonical h (push_canonical (operandsFree_canonical (putCmd_canonical h)))
  · exact next_canonical h

theorem execMatrixRetire_canonical {cmd s} (h : BytesCanonical s) : NextCanonical (execMatrixRetire cmd s) := by
  unfold execMatrixRetire
  split
  · exact enabled_canonical h (mmLeave_canonical (mmWrite_canonical h))
  · exact next_canonical h

end Sys2Proof.Machine

/-! ### Firmware: system software, checkpoints, boot -/

namespace Sys2Proof.Machine
open Safety

theorem execCapabilityMint_canonical {pa space base top addr perms s} (h : BytesCanonical s) :
    NextCanonical (execCapabilityMint pa space base top addr perms s) :=
  enabled_canonical h (setTag_canonical (devWriteLe_canonical h))

theorem execPeerTableWrite_canonical {ctx peer en port base size s} (h : BytesCanonical s) :
    NextCanonical (execPeerTableWrite ctx peer en port base size s) :=
  enabled_canonical h (modX_canonical h)

theorem writePolicy_canonical {p v s} (h : BytesCanonical s) : BytesCanonical (writePolicy p v s) := by
  unfold writePolicy
  split
  · exact modX_canonical h
  · exact modX_canonical h
  · exact modX_canonical h
  · exact modX_canonical h
  · exact canonical_of_same h rfl
  · exact canonical_of_same h rfl
  · exact canonical_of_same h rfl
  · exact canonical_of_same h rfl
  · exact canonical_of_same h rfl
  · exact modDie_canonical h
  · exact modH_canonical h rfl
  · exact modX_canonical h
  · exact modX_canonical h
  · exact modX_canonical h
  · exact modX_canonical h
  · exact canonical_of_same h rfl
  · split
    · exact devWrite_canonical h
    · exact h
  · exact modDie_canonical h
  · exact canonical_of_same h rfl
  · exact canonical_of_same h rfl
  · exact modC_canonical h fun _ e => e
  · exact modC_canonical h fun _ e => e
  · exact modC_canonical h fun _ e => e
  · split
    · exact modG_canonical h
    · exact h
  · exact modX_canonical h
  · exact modX_canonical h
  · exact modX_canonical h
  · exact canonical_of_same h rfl
  · exact canonical_of_same h rfl

theorem execPolicyWrite_canonical {p value s} (h : BytesCanonical s) : NextCanonical (execPolicyWrite p value s) :=
  enabled_canonical h (writePolicy_canonical h)

theorem execCheckpointExtentList_canonical {extents s} (h : BytesCanonical s) :
    NextCanonical (execCheckpointExtentList extents s) :=
  enabled_canonical h (canonical_of_same h rfl)

theorem ckptTrigger_canonical {s power} (h : BytesCanonical s) : BytesCanonical (ckptTrigger s power) := by
  unfold ckptTrigger
  extract_lets
  split
  · exact h
  · split
    · exact canonical_of_same h rfl
    · split <;> exact canonical_of_same h rfl

theorem execCheckpointHostCommand_canonical {die s} (h : BytesCanonical s) :
    NextCanonical (execCheckpointHostCommand die s) :=
  enabled_canonical h (ckptTrigger_canonical h)

theorem execPowerLossWarning_canonical {s} (h : BytesCanonical s) : NextCanonical (execPowerLossWarning s) :=
  enabled_canonical h (ckptTrigger_canonical h)

theorem cleanPairs_canonical {s} (h : BytesCanonical s) : BytesCanonical (cleanPairs s) := by
  unfold cleanPairs
  refine foldl_canonical (fun _ _ ht => ?_) h
  extract_lets _ _ s1 _ s2 s3
  have h1 : BytesCanonical s1 := homeTouch_canonical (memBytes_canonical ht)
  have h2 : BytesCanonical s2 := modH_canonical h1 rfl
  have h3 : BytesCanonical s3 := disown_canonical h2
  exact modDir_canonical h3

theorem cleanStashes_canonical {s} (h : BytesCanonical s) : BytesCanonical (cleanStashes s) :=
  foldl_canonical (fun _ _ ht => countWbacks_canonical (foldl_canonical (fun _ _ ht' => writeBackStash_canonical ht') ht)) h

theorem streamImage_canonical {s} (h : BytesCanonical s) : BytesCanonical (streamImage s) := by
  refine hostStore_canonical h fun hh => foldl_wf (fun m p hm => ?_) (filter_wf _ hh)
  split
  · exact fwf_fset _ _ _ _ hm
  · exact hm

theorem ckptReport_canonical {s} (h : BytesCanonical s) : BytesCanonical (ckptReport s) :=
  hostBytes_canonical h

theorem execCheckpointStream_canonical {s} (h : BytesCanonical s) : NextCanonical (execCheckpointStream s) := by
  unfold execCheckpointStream
  refine enabled_canonical h ?_
  extract_lets s1
  have h1 : BytesCanonical s1 :=
    ckptReport_canonical (streamImage_canonical (cleanStashes_canonical (cleanPairs_canonical h)))
  exact canonical_of_same h1 rfl

theorem loadImage_canonical {s} (h : BytesCanonical s) : BytesCanonical (loadImage s) := by
  unfold loadImage
  extract_lets es base img put mem tagBits tags s1 s2 clean s3 s4
  have hmem : Memory.wf mem := by
    refine foldl_wf (fun m p hm => ?_) rfl
    unfold put
    split
    · exact fwf_fset _ _ _ _ hm
    · exact hm
  have h1 : BytesCanonical s1 := foldl_canonical (fun _ _ ht => recallLine_canonical ht) h
  have h2 : BytesCanonical s2 := ⟨hmem, h1.2⟩
  have h3 : BytesCanonical s3 := mapCores_canonical h2 fun _ => ⟨rfl, rfl⟩
  have h4 : BytesCanonical s4 := foldl_canonical (fun _ _ ht => leaseWritten_canonical ht) h3
  exact foldl_canonical (fun _ _ ht => repackLine_canonical ht) h4

theorem execCheckpointRestore_canonical {s} (h : BytesCanonical s) : NextCanonical (execCheckpointRestore s) :=
  enabled_canonical h (loadImage_canonical h)

theorem resetPackage_canonical {s l} (h : BytesCanonical s) : BytesCanonical (resetPackage s l) :=
  ⟨rfl, h.2.1, h.2.2.1, fun _ => rfl⟩

theorem execPackageReset_canonical {images s} (h : BytesCanonical s) : NextCanonical (execPackageReset images s) :=
  enabled_canonical h (resetPackage_canonical h)

theorem execRecoveryImageWrite_canonical {die image s} (h : BytesCanonical s) :
    NextCanonical (execRecoveryImageWrite die image s) := by
  unfold execRecoveryImageWrite
  refine enabled_canonical h ?_
  split
  · extract_lets s1
    have h1 : BytesCanonical s1 := foldl_canonical (fun _ _ ht => modDie_canonical ht) h
    exact resetPackage_canonical h1
  · exact h

theorem execFirmwareImageStage_canonical {die image s} (h : BytesCanonical s) :
    NextCanonical (execFirmwareImageStage die image s) := by
  unfold execFirmwareImageStage
  refine enabled_canonical h ?_
  split
  · exact modDie_canonical h
  · exact h

theorem execAttestationReport_canonical {die s} (h : BytesCanonical s) :
    NextCanonical (execAttestationReport die s) :=
  enabled_canonical h (modDie_canonical h)

theorem execAgeingMeasurement_canonical {die slack rosc s} (h : BytesCanonical s) :
    NextCanonical (execAgeingMeasurement die slack rosc s) :=
  enabled_canonical h (modDie_canonical h)

theorem execGuardbandRequest_canonical {die mv s} (h : BytesCanonical s) :
    NextCanonical (execGuardbandRequest die mv s) :=
  enabled_canonical h (modDie_canonical h)

theorem execOperatingPointChangeDone_canonical {die s} (h : BytesCanonical s) :
    NextCanonical (execOperatingPointChangeDone die s) := by
  unfold execOperatingPointChangeDone
  extract_lets _ _ s1
  have h1 : BytesCanonical s1 := by
    unfold s1
    refine modDie_canonical ?_
    split
    · exact canonical_of_same h rfl
    · exact h
  refine enabled_canonical h ?_
  split
  · exact push_canonical h1
  · exact h1

theorem execThermalThrottle_canonical {die s} (h : BytesCanonical s) : NextCanonical (execThermalThrottle die s) :=
  enabled_canonical h (modDie_canonical h)

theorem execThermalTrip_canonical {die s} (h : BytesCanonical s) : NextCanonical (execThermalTrip die s) := by
  unfold execThermalTrip
  refine enabled_canonical h ?_
  extract_lets src
  have hsrc : BytesCanonical src := ckptTrigger_canonical h
  exact canonical_of_same hsrc rfl

theorem execConfigurationSpaceWrite_canonical {die atomicOp s} (h : BytesCanonical s) :
    NextCanonical (execConfigurationSpaceWrite die atomicOp s) :=
  enabled_canonical h (modDie_canonical h)

end Sys2Proof.Machine

/-! ### Links: the ends of the links -/

namespace Sys2Proof.Machine
open Safety

theorem takeMessage_canonical {s link m} (h : BytesCanonical s) : BytesCanonical (takeMessage s link m) := by
  unfold takeMessage
  split
  · exact h
  · exact modLink_canonical h

theorem onFlit_canonical {s link flit kinds act} (h : BytesCanonical s) :
    NextCanonical (onFlit s link flit kinds act) :=
  enabled_canonical h (modLink_canonical h)

theorem execFlitData_canonical {link flit s} (h : BytesCanonical s) : NextCanonical (execFlitData link flit s) :=
  enabled_canonical h (modLink_canonical h)

theorem execFlitIdle_canonical {link flit s} (h : BytesCanonical s) : NextCanonical (execFlitIdle link flit s) :=
  onFlit_canonical h

theorem execFlitNak_canonical {link flit bad s} (h : BytesCanonical s) :
    NextCanonical (execFlitNak link flit bad s) :=
  onFlit_canonical h

theorem execFlitRetrainRequest_canonical {link flit s} (h : BytesCanonical s) :
    NextCanonical (execFlitRetrainRequest link flit s) :=
  onFlit_canonical h

theorem execRetrainComplete_canonical {link accepted s} (h : BytesCanonical s) :
    NextCanonical (execRetrainComplete link accepted s) := by
  unfold execRetrainComplete
  extract_lets _ _ s1
  have h1 : BytesCanonical s1 := modLink_canonical h
  refine enabled_canonical h ?_
  split
  · exact modLink_canonical h1
  · exact h1

theorem failCopy_canonical {s id} (h : BytesCanonical s) : BytesCanonical (failCopy s id) := by
  unfold failCopy
  split
  · exact h
  · extract_lets _ s1
    have h1 : BytesCanonical s1 := canonical_of_same h rfl
    exact serveCore_canonical (completeCmd_canonical (endReport_canonical h1))

theorem linkDown_canonical {s link} (h : BytesCanonical s) : BytesCanonical (linkDown s link) := by
  unfold linkDown
  extract_lets down s1 s2 _ _ s3
  have hdown : ∀ s k, BytesCanonical s → BytesCanonical (down s k) := fun _ _ h' => modLink_canonical h'
  have h1 : BytesCanonical s1 := foldl_canonical (fun _ _ ht => hdown _ _ ht) (hdown _ _ h)
  have h2 : BytesCanonical s2 := foldl_canonical (fun _ _ ht => failCopy_canonical ht) h1
  have h3 : BytesCanonical s3 := foldl_canonical (fun _ _ ht => memError_canonical ht) (canonical_of_same h2 rfl)
  split
  · exact h2
  · exact foldl_canonical (fun _ _ ht => fillError_canonical ht) h3

theorem execRetrainAttemptTimeout_canonical {link s} (h : BytesCanonical s) :
    NextCanonical (execRetrainAttemptTimeout link s) := by
  unfold execRetrainAttemptTimeout
  extract_lets
  refine enabled_canonical h ?_
  split
  · exact linkDown_canonical (modLink_canonical h)
  · exact modLink_canonical h

theorem execLinkstatClear_canonical {link w s} (h : BytesCanonical s) : NextCanonical (execLinkstatClear link w s) :=
  enabled_canonical h (modLink_canonical h)

end Sys2Proof.Machine

/-! ### Scalar: scalar instructions -/

namespace Sys2Proof.Machine
open Safety

theorem scalar2_canonical {i b2 b1 ss2 ss1 sd f s} (h : BytesCanonical s) :
    NextCanonical (scalar2 i b2 b1 ss2 ss1 sd f s) := by
  unfold scalar2
  refine commitNext_canonical h ?_
  iterate 4 refine bind_canonical fun _ _ => ?_
  exact ok_canonical (modCur_canonical h)

theorem scalarImm_canonical {i sd f s} (h : BytesCanonical s) : NextCanonical (scalarImm i sd f s) :=
  commitNext_canonical h (bind_canonical fun _ _ => bind_canonical fun _ _ => ok_canonical (modCur_canonical h))

theorem execSmov_canonical {b1 ss1 sd s} (h : BytesCanonical s) : NextCanonical (execSmov b1 ss1 sd s) :=
  commitNext_canonical h (bind_canonical fun _ _ => bind_canonical fun _ _ => ok_canonical (modCur_canonical h))

theorem execSli_canonical {imm sd s} (h : BytesCanonical s) : NextCanonical (execSli imm sd s) :=
  commitNext_canonical h (bind_canonical fun _ _ => ok_canonical (modCur_canonical h))

theorem execSlih_canonical {imm sd h s} (hs : BytesCanonical s) : NextCanonical (execSlih imm sd h s) :=
  scalarImm_canonical hs

theorem specialWrite_canonical {s n v} (h : BytesCanonical s) : BytesCanonical (specialWrite s n v) := by
  unfold specialWrite
  extract_lets
  split
  · exact modT_canonical h
  · exact modT_canonical h
  · exact modCur_canonical h
  · exact modCur_canonical h
  · exact modCur_canonical h
  · exact modCur_canonical h
  · exact modCur_canonical h
  · exact modCur_canonical h
  · exact modCur_canonical h
  · exact modCur_canonical h
  · exact modC_canonical h fun _ e => e
  · exact h

theorem execSget_canonical {n sd s} (h : BytesCanonical s) : NextCanonical (execSget n sd s) :=
  commitNext_canonical h (bind_canonical fun _ _ => bind_canonical fun _ _ => ok_canonical (modCur_canonical h))

theorem execSset_canonical {n ss s} (h : BytesCanonical s) : NextCanonical (execSset n ss s) :=
  commitNext_canonical h (bind_canonical fun _ _ => bind_canonical fun _ _ => ok_canonical (specialWrite_canonical h))

end Sys2Proof.Machine

/-! ### VecInt: vector integer instructions -/

namespace Sys2Proof.Machine
open Safety

theorem vec2_canonical {i m b2 b1 vs2 vs1 vd aform f s} (h : BytesCanonical s) :
    NextCanonical (vec2 i m b2 b1 vs2 vs1 vd aform f s) :=
  laneOp_canonical h

theorem vec2q_canonical {i m b2 b1 vs2 vs1 vd f s} (h : BytesCanonical s) :
    NextCanonical (vec2q i m b2 b1 vs2 vs1 vd f s) :=
  laneOp_canonical h

theorem vec16_canonical {i vs2 vd aform f s} (h : BytesCanonical s) : NextCanonical (vec16 i vs2 vd aform f s) :=
  laneOp_canonical h

theorem execVsel_canonical {m b2 b1 vs2 vs1 vd mk s} (h : BytesCanonical s) :
    NextCanonical (execVsel m b2 b1 vs2 vs1 vd mk s) := by
  unfold execVsel
  refine commitNext_canonical h ?_
  iterate 4 refine bind_canonical fun _ _ => ?_
  exact writeV_canonical h

theorem compareOp_canonical {i m x y md f s} (h : BytesCanonical s) : NextCanonical (compareOp i m x y md f s) := by
  unfold compareOp
  refine commitNext_canonical h ?_
  refine bind_canonical fun _ _ => ?_
  extract_lets
  iterate 3 refine bind_canonical fun _ _ => ?_
  extract_lets _ _ s1
  have h1 : BytesCanonical s1 := modCur_canonical h
  exact ok_canonical (raiseFlags_canonical h1)

theorem execVtix_canonical {m vd s} (h : BytesCanonical s) : NextCanonical (execVtix m vd s) :=
  commitNext_canonical h (bind_canonical fun _ _ => bind_canonical fun _ _ => writeV_canonical h)

theorem execVshape_canonical {vs1 sd s} (h : BytesCanonical s) : NextCanonical (execVshape vs1 sd s) :=
  commitNext_canonical h (bind_canonical fun _ _ => bind_canonical fun _ _ => ok_canonical (modCur_canonical h))

theorem moveV_canonical {s a vd v} (h : BytesCanonical s) : OkCanonical (moveV s a vd v) :=
  writeV_canonical h

theorem execVrdx_canonical {m ss vd s} (h : BytesCanonical s) : NextCanonical (execVrdx m ss vd s) := by
  unfold execVrdx
  refine commitNext_canonical h ?_
  iterate 4 refine bind_canonical fun _ _ => ?_
  exact moveV_canonical h

theorem execVwrx_canonical {m b2 vs2 ss s} (h : BytesCanonical s) : NextCanonical (execVwrx m b2 vs2 ss s) := by
  unfold execVwrx
  refine commitNext_canonical h ?_
  iterate 4 refine bind_canonical fun _ _ => ?_
  exact moveV_canonical h

end Sys2Proof.Machine

/-! ### VecFloat: conversion -/

namespace Sys2Proof.Machine
open Safety

theorem execVcvt_canonical {m b1 rm src dst vs1 vd s} (h : BytesCanonical s) :
    NextCanonical (execVcvt m b1 rm src dst vs1 vd s) := by
  unfold execVcvt
  extract_lets
  refine commitNext_canonical h ?_
  iterate 2 refine bind_canonical fun _ _ => ?_
  split
  · split
    · exact error_canonical
    · iterate 2 refine bind_canonical fun _ _ => ?_
      extract_lets
      refine bind_canonical fun t e => ?_
      have ht : BytesCanonical t := writeV_canonical h _ e
      exact ok_canonical (raiseFlags_canonical ht)
  · exact error_canonical

end Sys2Proof.Machine

/-! ### VecCross: cross-lane operations and masks -/

namespace Sys2Proof.Machine
open Safety

theorem execVshfl_canonical {m b2 b1 vs2 vs1 vd s} (h : BytesCanonical s) :
    NextCanonical (execVshfl m b2 b1 vs2 vs1 vd s) := by
  unfold execVshfl
  refine commitNext_canonical h ?_
  iterate 5 refine bind_canonical fun _ _ => ?_
  exact writeV_canonical h

theorem execVballot_canonical {m b1 vs1 sd s} (h : BytesCanonical s) : NextCanonical (execVballot m b1 vs1 sd s) := by
  unfold execVballot
  refine commitNext_canonical h ?_
  iterate 3 refine bind_canonical fun _ _ => ?_
  exact ok_canonical (modCur_canonical h)

theorem reduceOp_canonical {i m b1 rm ty op vs1 vd uni pick s} (h : BytesCanonical s) :
    NextCanonical (reduceOp i m b1 rm ty op vs1 vd uni pick s) := by
  unfold reduceOp
  refine commitNext_canonical h ?_
  refine bind_canonical fun _ _ => ?_
  extract_lets
  iterate 3 refine bind_canonical fun _ _ => ?_
  extract_lets
  refine bind_canonical fun t e => ?_
  have ht : BytesCanonical t := writeV_canonical h _ e
  exact ok_canonical (raiseFlags_canonical ht)

theorem idxOp_canonical {i mx m b1 ty vs1 vd s} (h : BytesCanonical s) :
    NextCanonical (idxOp i mx m b1 ty vs1 vd s) := by
  unfold idxOp
  refine commitNext_canonical h ?_
  refine bind_canonical fun _ _ => ?_
  extract_lets
  iterate 3 refine bind_canonical fun _ _ => ?_
  extract_lets
  split
  · refine bind_canonical fun t e => ?_
    have ht : BytesCanonical t := writeV_canonical h _ e
    exact ok_canonical (raiseFlags_canonical ht)

theorem execXshf_canonical {m b1 ss vs1 vd s} (h : BytesCanonical s) : NextCanonical (execXshf m b1 ss vs1 vd s) := by
  unfold execXshf
  extract_lets _ _ _ s'
  have h' : BytesCanonical s' := by
    unfold s'
    split
    · exact h
    · exact modCur_canonical h
  refine commit_canonical h ?_
  iterate 4 refine bind_canonical fun _ _ => ?_
  extract_lets _ _ _ s1
  have h1 : BytesCanonical s1 := traceAdd_canonical (sendReq_canonical h')
  iterate 3 refine bind_canonical fun _ _ => ?_
  exact ok_canonical (suspendCur_canonical h1)

theorem execMand_canonical {mb ma md s} (h : BytesCanonical s) : NextCanonical (execMand mb ma md s) :=
  commitNext_canonical h (bind_canonical fun _ _ => ok_canonical (modCur_canonical h))

theorem execMor_canonical {mb ma md s} (h : BytesCanonical s) : NextCanonical (execMor mb ma md s) :=
  commitNext_canonical h (bind_canonical fun _ _ => ok_canonical (modCur_canonical h))

theorem execMnot_canonical {ma md s} (h : BytesCanonical s) : NextCanonical (execMnot ma md s) :=
  commitNext_canonical h (bind_canonical fun _ _ => ok_canonical (modCur_canonical h))

theorem execMpopc_canonical {ma sd s} (h : BytesCanonical s) : NextCanonical (execMpopc ma sd s) :=
  commitNext_canonical h (bind_canonical fun _ _ => ok_canonical (modCur_canonical h))

theorem execMfirst_canonical {ma sd s} (h : BytesCanonical s) : NextCanonical (execMfirst ma sd s) :=
  commitNext_canonical h (bind_canonical fun _ _ => ok_canonical (modCur_canonical h))

end Sys2Proof.Machine

/-! ### Dispatch: one instruction -/

namespace Sys2Proof.Machine
open Safety

theorem exec_canonical {i s} (h : BytesCanonical s) : NextCanonical (exec i s) := by
  unfold exec
  cases i
  case vadd | vsub | vmul | vmulhiI32 | vmulhiN32 | vminI32 | vmaxI32 | vand | vor | vxor | vshl | vshr | vsra
      | vminN32 | vmaxN32 | vaddSatI32 | vsubSatI32 | vaddSatN32 | vsubSatN32 | vfaddF32 | vfsubF32 | vfmulF32
      | vfdivF32 | vfminF32 | vfmaxF32 =>
    exact vec2_canonical h
  case vmad | vnot | vnegI32 | vabsI32 | vpopc | vclz | vbrev | vnegI64 | vabsI64 | vfmaF32 | vfsqrtF32
      | vfmaF64 | vfsqrtF64 | vfrcpF32 | vfrsqF32 | vfexp2F32 | vflog2F32 | vaddImm | vandImm | vshlImm
      | vshrImm | vsraImm =>
    exact laneOp_canonical h
  case vaddB64 | vsubB64 | vmulB64 | vshlB64 | vshrB64 | vsraB64 | vminI64 | vmaxI64 | vandB64 | vorB64
      | vxorB64 | vminN64 | vmaxN64 | vmulhiI64 | vmulhiN64 | vaddSatI64 | vsubSatI64 | vaddSatN64 | vsubSatN64
      | vfaddF64 | vfsubF64 | vfmulF64 | vfdivF64 | vfminF64 | vfmaxF64 =>
    exact vec2q_canonical h
  case vsel => exact execVsel_canonical h
  case vtix => exact execVtix_canonical h
  case vshape => exact execVshape_canonical h
  case vrdx => exact execVrdx_canonical h
  case vwrx => exact execVwrx_canonical h
  case vcmpI32 | vcmpN32 | vcmpI64 | vcmpN64 | vfcmpF32 | vfcmpF64 => exact compareOp_canonical h
  case vcvt => exact execVcvt_canonical h
  case vshfl => exact execVshfl_canonical h
  case vballot => exact execVballot_canonical h
  case xshf => exact execXshf_canonical h
  case vred | vscan => exact reduceOp_canonical h
  case vminidx | vmaxidx => exact idxOp_canonical h
  case mand => exact execMand_canonical h
  case mor => exact execMor_canonical h
  case mnot => exact execMnot_canonical h
  case mpopc => exact execMpopc_canonical h
  case mfirst => exact execMfirst_canonical h
  case vpln => exact execVpln_canonical h
  case vqnt => exact execVqnt_canonical h
  case mma | mmsp => exact matrixOp_canonical h
  case mzero => exact execMzero_canonical h
  case cpyPln | cpyPlnUnp => exact planeCmd_canonical h
  case cpyFold => exact execCpyFold_canonical h
  case sadd | ssub | smul | sand | sor | sxor | smin | smax | sshl | sshr | ssra | scmp => exact scalar2_canonical h
  case smov => exact execSmov_canonical h
  case saddImm | sandImm | sorImm | sxorImm | sshlImm | sshrImm | ssraImm | smulImm => exact scalarImm_canonical h
  case sli => exact execSli_canonical h
  case slih => exact execSlih_canonical h
  case sget => exact execSget_canonical h
  case sset => exact execSset_canonical h
  case bcnd => exact execBcnd_canonical h
  case loop => exact execLoop_canonical h
  case vbra => exact execVbra_canonical h
  case bra => exact next_canonical (jump_canonical h)
  case call => exact execCall_canonical h
  case ret => exact execRet_canonical h
  case retX => exact execRetX_canonical h
  case trap | brk => exact commit_canonical h error_canonical
  case sfp => exact execSfp_canonical h
  case scopeOpen => exact execScopeOpen_canonical h
  case rgive => exact execRgive_canonical h
  case rclaim => exact execRclaim_canonical h
  case exitSucc => exact execExitSucc_canonical h
  case tjoin => exact execTjoin_canonical h
  case fence => exact execFence_canonical h
  case cmk | cbnd | cperm => exact derive_canonical h
  case cseal => exact execCseal_canonical h
  case cget => exact execCget_canonical h
  case xbind => exact execXbind_canonical h
  case cld => exact execCld_canonical h
  case cst => exact execCst_canonical h
  case vld | vldAcq | vldNt => exact vload_canonical h
  case vst | vstRel | vstNt => exact vstore_canonical h
  case sld => exact execSld_canonical h
  case sst => exact execSst_canonical h
  case lds => exact execLds_canonical h
  case sts => exact execSts_canonical h
  case pfch => exact execPfch_canonical h
  case tld => exact execTld_canonical h
  case tst => exact execTst_canonical h
  case launch => exact execLaunch_canonical h
  case smap => exact execSmap_canonical h
  case sunmap => exact execSunmap_canonical h
  case sflush => exact stashRange_canonical (fun _ _ _ _ ht => flushRange_canonical ht) h
  case sinval => exact stashRange_canonical (fun _ _ _ _ ht => invalRange_canonical ht) h
  case vatomAddB32 | vatomMinI32 | vatomMaxI32 | vatomMinN32 | vatomMaxN32 | vatomAndB32 | vatomOrB32
      | vatomXorB32 | vatomAddB64 | vatomMinI64 | vatomMaxI64 | vatomMinN64 | vatomMaxN64 | vatomAndB64
      | vatomOrB64 | vatomXorB64 | vatomXchgB32 | vatomXchgB64 | vatomCasB32 | vatomCasB64 | vatomFaddF32
      | vatomFaddF64 | vatomFaddBf16x2 | vatomFaddF16x2 | vatomFaddF32Mrg | vatomFaddF64Mrg | vatomFaddBf16x2Mrg
      | vatomFaddF16x2Mrg =>
    exact vatom_canonical h
  case vratomAddBf16 => exact execVratomAddBf16_canonical h
  case satom => exact execSatom_canonical h
  case lckAcq | lckTry => exact acquire_canonical h
  case lckRel => exact execLckRel_canonical h
  case lckStat => exact execLckStat_canonical h
  case mwait => exact execMwait_canonical h
  case barrArr | barrAw | barrDrop => exact barrier_canonical h
  case ewait => exact execEwait_canonical h
  case gnode => exact execGnode_canonical h
  case glink => exact execGlink_canonical h
  case ringGet | ringPut => exact ringOp_canonical h
  case tdesc => exact execTdesc_canonical h
  case tdget => exact execTdget_canonical h
  case cpy => exact execCpy_canonical h
  case cpyGth => exact execCpyGth_canonical h
  case cpyRmt => exact execCpyRmt_canonical h
  case cpyTr8 | cpyTr16 => exact transpose_canonical h
  case vadd16 | vsub16 | vmul16 | vand16 | vor16 | vxor16 | vshl16 | vshr16 | vsra16 | vminI3216 | vmaxI3216
      | vfaddF3216 | vfsubF3216 | vfmulF3216 | vfminF3216 | vfmaxF3216 =>
    exact vec16_canonical h
  case nop => exact commitNext_canonical h (ok_canonical h)
  case vjoin => exact next_canonical (onVjoin_canonical (advance_canonical h))
  case exit => exact execExit_canonical h
  case roleYield => exact execRoleYield_canonical h
  case scopeClose => exact execScopeClose_canonical h
  case contDep => exact execContDep_canonical h
  case tleave => exact execTleave_canonical h
  case ntdrain => exact commitNext_canonical h (ok_canonical (holdAfter_canonical h))
  case capabilityMint => exact execCapabilityMint_canonical h
  case setRootTable => exact execSetRootTable_canonical h
  case tlbShootdown => exact execTlbShootdown_canonical h
  case generationRaise => exact execGenerationRaise_canonical h
  case generationRaiseComplete => exact execGenerationRaiseComplete_canonical h
  case generationSet => exact execGenerationSet_canonical h
  case lockDrainRequest => exact execLockDrainRequest_canonical h
  case brokenMarkClear => exact execBrokenMarkClear_canonical h
  case queueRegister => exact execQueueRegister_canonical h
  case peerTableWrite => exact execPeerTableWrite_canonical h
  case policyWrite => exact execPolicyWrite_canonical h
  case preemptRequest => exact execPreemptRequest_canonical h
  case preemptContextSave => exact execPreemptContextSave_canonical h
  case preemptWithdraw => exact execPreemptWithdraw_canonical h
  case contextRestore => exact execContextRestore_canonical h
  case thermalMigration => exact execThermalMigration_canonical h
  case contextEnd => exact execContextEnd_canonical h
  case faultResolveRetry => exact execFaultResolveRetry_canonical h
  case faultResolveSkip => exact execFaultResolveSkip_canonical h
  case faultResolveUser => exact execFaultResolveUser_canonical h
  case faultResolveEnd => exact execFaultResolveEnd_canonical h
  case spillResizeResume => exact execSpillResizeResume_canonical h
  case eclkAdvance => exact execEclkAdvance_canonical h
  case xwLoad => exact execXwLoad_canonical h
  case xwLeaseExpiry => exact execXwLeaseExpiry_canonical h
  case pageWalkComplete => exact execPageWalkComplete_canonical h
  case requestRefused => exact execRequestRefused_canonical h
  case homeRead => exact execHomeRead_canonical h
  case homeOwnership => exact execHomeOwnership_canonical h
  case homeWriteThrough => exact execHomeWriteThrough_canonical h
  case homeWriteBack => exact execHomeWriteBack_canonical h
  case invalidationReceived => exact execInvalidationReceived_canonical h
  case recallReceived => exact execRecallReceived_canonical h
  case forwardedRead => exact execForwardedRead_canonical h
  case invalidationAck => exact execInvalidationAck_canonical h
  case ownershipAck => exact execOwnershipAck_canonical h
  case releaseMarkerHead => exact execReleaseMarkerHead_canonical h
  case heldAccessRelease => exact execHeldAccessRelease_canonical h
  case leaseRead => exact execLeaseRead_canonical h
  case leaseWrite => exact execLeaseWrite_canonical h
  case leaseWriteHoldEnd => exact execLeaseWriteHoldEnd_canonical h
  case sliceLeaseSweep => exact execSliceLeaseSweep_canonical h
  case coreLeaseSweep => exact execCoreLeaseSweep_canonical h
  case replyArrival => exact execReplyArrival_canonical h
  case stashFillArrival => exact execStashFillArrival_canonical h
  case homeAtomic => exact execHomeAtomic_canonical h
  case homeRowAtomic => exact execHomeRowAtomic_canonical h
  case routerMerge => exact execRouterMerge_canonical h
  case routerMergeReply => exact execRouterMergeReply_canonical h
  case lockRequestArrival => exact execLockRequestArrival_canonical h
  case lockReleaseArrival => exact execLockReleaseArrival_canonical h
  case lockWaiterExpiry => exact execLockWaiterExpiry_canonical h
  case lckHold => exact execLckHold_canonical h
  case deadlockProbe => exact execDeadlockProbe_canonical h
  case lockStatRequest => exact execLockStatRequest_canonical h
  case mwaitRequestArrival => exact execMwaitRequestArrival_canonical h
  case monitorExpiry => exact execMonitorExpiry_canonical h
  case barrierUpdate => exact execBarrierUpdate_canonical h
  case barrierCarriedCompletion => exact execBarrierCarriedCompletion_canonical h
  case barrierHeldArrival => exact execBarrierHeldArrival_canonical h
  case granuleRoleMove => exact execGranuleRoleMove_canonical h
  case dispatcherServe => exact execDispatcherServe_canonical h
  case waitCounterPoll => exact execWaitCounterPoll_canonical h
  case dispatchComplete => exact execDispatchComplete_canonical h
  case relaunchStep => exact execRelaunchStep_canonical h
  case contStall => exact execContStall_canonical h
  case rebalancePending => exact execRebalancePending_canonical h
  case sfpLate => exact execSfpLate_canonical h
  case succReadComplete => exact execSuccReadComplete_canonical h
  case launchAction => exact execLaunchAction_canonical h
  case xshfRequestArrival => exact execXshfRequestArrival_canonical h
  case xshfStale => exact execXshfStale_canonical h
  case engineCommandComplete => exact execEngineCommandComplete_canonical h
  case graphNodeStart => exact execGraphNodeStart_canonical h
  case matrixStart => exact execMatrixStart_canonical h
  case operandsConsumed => exact execOperandsConsumed_canonical h
  case matrixRetire => exact execMatrixRetire_canonical h
  case ringPublishEffect => exact execRingPublishEffect_canonical h
  case deferredCauseDelivery => exact execDeferredCauseDelivery_canonical h
  case hostWrite => exact execHostWrite_canonical h
  case hostRead => exact execHostRead_canonical h
  case hostCompletion => exact execHostCompletion_canonical h
  case hostCompletionTimeout => exact execHostCompletionTimeout_canonical h
  case colWriteArrival => exact execColWriteArrival_canonical h
  case flitData => exact execFlitData_canonical h
  case flitIdle => exact execFlitIdle_canonical h
  case flitNak => exact execFlitNak_canonical h
  case flitRetrainRequest => exact execFlitRetrainRequest_canonical h
  case retrainAttemptTimeout => exact execRetrainAttemptTimeout_canonical h
  case linkstatClear => exact execLinkstatClear_canonical h
  case checkpointExtentList => exact execCheckpointExtentList_canonical h
  case checkpointHostCommand => exact execCheckpointHostCommand_canonical h
  case powerLossWarning => exact execPowerLossWarning_canonical h
  case checkpointStream => exact execCheckpointStream_canonical h
  case checkpointRestore => exact execCheckpointRestore_canonical h
  case namedTickStop => exact execNamedTickStop_canonical h
  case sampctlWrite => exact execSampctlWrite_canonical h
  case stallSample => exact execStallSample_canonical h
  case occupancyRecord => exact execOccupancyRecord_canonical h
  case debugHold => exact execDebugHold_canonical h
  case debugRelease => exact execDebugRelease_canonical h
  case debugStep => exact execDebugStep_canonical h
  case watchpointStop => exact execWatchpointStop_canonical h
  case debugRoleHalt => exact execDebugRoleHalt_canonical h
  case debugRoleRelease => exact execDebugRoleRelease_canonical h
  case packageReset => exact execPackageReset_canonical h
  case recoveryImageWrite => exact execRecoveryImageWrite_canonical h
  case firmwareImageStage => exact execFirmwareImageStage_canonical h
  case attestationReport => exact execAttestationReport_canonical h
  case ageingMeasurement => exact execAgeingMeasurement_canonical h
  case guardbandRequest => exact execGuardbandRequest_canonical h
  case thermalThrottle => exact execThermalThrottle_canonical h
  case thermalTrip => exact execThermalTrip_canonical h
  case retrainComplete => exact execRetrainComplete_canonical h
  case configurationSpaceWrite => exact execConfigurationSpaceWrite_canonical h
  case hostPortWriteSent => exact execHostPortWriteSent_canonical h
  case operatingPointChangeDone => exact execOperatingPointChangeDone_canonical h

end Sys2Proof.Machine

/-! ### EventRun: one event -/

namespace Sys2Proof.Machine
open Safety

theorem runEvent_canonical {e s} (h : BytesCanonical s) : NextCanonical (runEvent e s) := by
  unfold runEvent
  cases e
  case capabilityMint => exact execCapabilityMint_canonical h
  case setRootTable => exact execSetRootTable_canonical h
  case tlbShootdown => exact execTlbShootdown_canonical h
  case generationRaise => exact execGenerationRaise_canonical h
  case generationRaiseComplete => exact execGenerationRaiseComplete_canonical h
  case generationSet => exact execGenerationSet_canonical h
  case lockDrainRequest => exact execLockDrainRequest_canonical h
  case brokenMarkClear => exact execBrokenMarkClear_canonical h
  case queueRegister => exact execQueueRegister_canonical h
  case peerTableWrite => exact execPeerTableWrite_canonical h
  case policyWrite => exact execPolicyWrite_canonical h
  case preemptRequest => exact execPreemptRequest_canonical h
  case preemptContextSave => exact execPreemptContextSave_canonical h
  case preemptWithdraw => exact execPreemptWithdraw_canonical h
  case contextRestore => exact execContextRestore_canonical h
  case thermalMigration => exact execThermalMigration_canonical h
  case contextEnd => exact execContextEnd_canonical h
  case faultResolveRetry => exact execFaultResolveRetry_canonical h
  case faultResolveSkip => exact execFaultResolveSkip_canonical h
  case faultResolveUser => exact execFaultResolveUser_canonical h
  case faultResolveEnd => exact execFaultResolveEnd_canonical h
  case spillResizeResume => exact execSpillResizeResume_canonical h
  case eclkAdvance => exact execEclkAdvance_canonical h
  case xwLoad => exact execXwLoad_canonical h
  case xwLeaseExpiry => exact execXwLeaseExpiry_canonical h
  case pageWalkComplete => exact execPageWalkComplete_canonical h
  case requestRefused => exact execRequestRefused_canonical h
  case homeRead => exact execHomeRead_canonical h
  case homeOwnership => exact execHomeOwnership_canonical h
  case homeWriteThrough => exact execHomeWriteThrough_canonical h
  case homeWriteBack => exact execHomeWriteBack_canonical h
  case invalidationReceived => exact execInvalidationReceived_canonical h
  case recallReceived => exact execRecallReceived_canonical h
  case forwardedRead => exact execForwardedRead_canonical h
  case invalidationAck => exact execInvalidationAck_canonical h
  case ownershipAck => exact execOwnershipAck_canonical h
  case releaseMarkerHead => exact execReleaseMarkerHead_canonical h
  case heldAccessRelease => exact execHeldAccessRelease_canonical h
  case leaseRead => exact execLeaseRead_canonical h
  case leaseWrite => exact execLeaseWrite_canonical h
  case leaseWriteHoldEnd => exact execLeaseWriteHoldEnd_canonical h
  case sliceLeaseSweep => exact execSliceLeaseSweep_canonical h
  case coreLeaseSweep => exact execCoreLeaseSweep_canonical h
  case replyArrival => exact execReplyArrival_canonical h
  case stashFillArrival => exact execStashFillArrival_canonical h
  case homeAtomic => exact execHomeAtomic_canonical h
  case homeRowAtomic => exact execHomeRowAtomic_canonical h
  case routerMerge => exact execRouterMerge_canonical h
  case routerMergeReply => exact execRouterMergeReply_canonical h
  case lockRequestArrival => exact execLockRequestArrival_canonical h
  case lockReleaseArrival => exact execLockReleaseArrival_canonical h
  case lockWaiterExpiry => exact execLockWaiterExpiry_canonical h
  case lckHold => exact execLckHold_canonical h
  case deadlockProbe => exact execDeadlockProbe_canonical h
  case lockStatRequest => exact execLockStatRequest_canonical h
  case mwaitRequestArrival => exact execMwaitRequestArrival_canonical h
  case monitorExpiry => exact execMonitorExpiry_canonical h
  case barrierUpdate => exact execBarrierUpdate_canonical h
  case barrierCarriedCompletion => exact execBarrierCarriedCompletion_canonical h
  case barrierHeldArrival => exact execBarrierHeldArrival_canonical h
  case granuleRoleMove => exact execGranuleRoleMove_canonical h
  case dispatcherServe => exact execDispatcherServe_canonical h
  case waitCounterPoll => exact execWaitCounterPoll_canonical h
  case dispatchComplete => exact execDispatchComplete_canonical h
  case relaunchStep => exact execRelaunchStep_canonical h
  case contStall => exact execContStall_canonical h
  case rebalancePending => exact execRebalancePending_canonical h
  case sfpLate => exact execSfpLate_canonical h
  case succReadComplete => exact execSuccReadComplete_canonical h
  case launchAction => exact execLaunchAction_canonical h
  case xshfRequestArrival => exact execXshfRequestArrival_canonical h
  case xshfStale => exact execXshfStale_canonical h
  case engineCommandComplete => exact execEngineCommandComplete_canonical h
  case graphNodeStart => exact execGraphNodeStart_canonical h
  case matrixStart => exact execMatrixStart_canonical h
  case operandsConsumed => exact execOperandsConsumed_canonical h
  case matrixRetire => exact execMatrixRetire_canonical h
  case ringPublishEffect => exact execRingPublishEffect_canonical h
  case deferredCauseDelivery => exact execDeferredCauseDelivery_canonical h
  case hostWrite => exact execHostWrite_canonical h
  case hostRead => exact execHostRead_canonical h
  case hostCompletion => exact execHostCompletion_canonical h
  case hostCompletionTimeout => exact execHostCompletionTimeout_canonical h
  case colWriteArrival => exact execColWriteArrival_canonical h
  case flitData => exact execFlitData_canonical h
  case flitIdle => exact execFlitIdle_canonical h
  case flitNak => exact execFlitNak_canonical h
  case flitRetrainRequest => exact execFlitRetrainRequest_canonical h
  case retrainAttemptTimeout => exact execRetrainAttemptTimeout_canonical h
  case linkstatClear => exact execLinkstatClear_canonical h
  case checkpointExtentList => exact execCheckpointExtentList_canonical h
  case checkpointHostCommand => exact execCheckpointHostCommand_canonical h
  case powerLossWarning => exact execPowerLossWarning_canonical h
  case checkpointStream => exact execCheckpointStream_canonical h
  case checkpointRestore => exact execCheckpointRestore_canonical h
  case namedTickStop => exact execNamedTickStop_canonical h
  case sampctlWrite => exact execSampctlWrite_canonical h
  case stallSample => exact execStallSample_canonical h
  case occupancyRecord => exact execOccupancyRecord_canonical h
  case debugHold => exact execDebugHold_canonical h
  case debugRelease => exact execDebugRelease_canonical h
  case debugStep => exact execDebugStep_canonical h
  case watchpointStop => exact execWatchpointStop_canonical h
  case debugRoleHalt => exact execDebugRoleHalt_canonical h
  case debugRoleRelease => exact execDebugRoleRelease_canonical h
  case packageReset => exact execPackageReset_canonical h
  case recoveryImageWrite => exact execRecoveryImageWrite_canonical h
  case firmwareImageStage => exact execFirmwareImageStage_canonical h
  case attestationReport => exact execAttestationReport_canonical h
  case ageingMeasurement => exact execAgeingMeasurement_canonical h
  case guardbandRequest => exact execGuardbandRequest_canonical h
  case thermalThrottle => exact execThermalThrottle_canonical h
  case thermalTrip => exact execThermalTrip_canonical h
  case retrainComplete => exact execRetrainComplete_canonical h
  case configurationSpaceWrite => exact execConfigurationSpaceWrite_canonical h
  case hostPortWriteSent => exact execHostPortWriteSent_canonical h
  case operatingPointChangeDone => exact execOperatingPointChangeDone_canonical h

end Sys2Proof.Machine

/-! ### Run: fetch and issue -/

namespace Sys2Proof.Machine
open Safety

theorem freshFetch_canonical {s} (h : BytesCanonical s) : BytesCanonical (freshFetch s) := by
  unfold freshFetch
  extract_lets
  refine foldl_canonical (fun _ _ ht => ?_) h
  split
  · exact modCurF_canonical (tlbDrop_canonical ht)
  · exact ht

theorem fetchStopped_canonical {s e} (h : BytesCanonical s) : BytesCanonical (fetchStopped s e) := by
  unfold fetchStopped
  split
  · exact takePrecise_canonical h
  · exact stopped_canonical h

theorem runFragment_canonical {s0} (h0 : BytesCanonical s0) : NextCanonical (runFragment s0) := by
  unfold runFragment
  extract_lets s
  have h : BytesCanonical s := freshFetch_canonical h0
  split
  · exact next_canonical (fetchStopped_canonical h)
  · split
    · exact next_canonical (stopped_canonical h)
    · exact exec_canonical h

theorem stepEnds_canonical {s s1 n} (h1 : BytesCanonical s1) : BytesCanonical (stepEnds s s1 n) := by
  unfold stepEnds
  extract_lets _ _ _ s2 done _ _ _ _ s3
  have h2 : BytesCanonical s2 := modG_canonical h1
  have hdone : ∀ s, BytesCanonical s → BytesCanonical (done s) := fun _ h' => holdFragments_canonical h'
  have h3 : BytesCanonical s3 := modG_canonical (addFault_canonical h2)
  split
  · exact h1
  · split
    · split
      · exact hdone _ h2
      · exact hdone _ h2
      · exact hdone _ (canonical_of_same h2 rfl)
    · split
      · exact hdone _ h2
      · exact hdone _ (depositWhy_canonical h3)

theorem noIssue_canonical {s} (h : BytesCanonical s) : BytesCanonical (noIssue s) :=
  canonical_of_same h rfl

theorem runCand_canonical {s c} (h : BytesCanonical s) : NextCanonical (runCand s c) := by
  have h0 : BytesCanonical (runCand.modF' { s with cur :=
    { uid := c.uid, entry := c.entry, tick := s.gtick.toNat } }) :=
    modCurF_canonical (canonical_of_same h rfl)
  unfold runCand
  extract_lets s0
  split
  · split
    · exact runFragment_canonical h0
    · split
      · exact runFragment_canonical (deferredToFirmware_canonical h0)
      · have hr : NextCanonical (runFragment s0) := runFragment_canonical h0
        split
        next s1 e =>
          refine next_canonical ?_
          split
          · exact deliverDeferred_canonical h0
          · exact hr _ e
        · exact hr
  · exact runFragment_canonical h0

theorem afterIssue_canonical {s s1 c} (h1 : BytesCanonical s1) : BytesCanonical (afterIssue s s1 c) := by
  unfold afterIssue
  extract_lets s2 s3
  have h2 : BytesCanonical s2 := by
    unfold s2
    split
    · exact modG_canonical h1
    · exact h1
  have h3 : BytesCanonical s3 := by
    unfold s3
    split
    · exact stepEnds_canonical h2
    · exact h2
  split
  · exact h3
  · exact noIssue_canonical h3

/-- What issuing answers: the state with the interlocks that were met, and the outcome of the fragment that issued. -/
def IssueCanonical (x : State × Option Out) : Prop := BytesCanonical x.1 ∧ ∀ o, x.2 = some o → NextCanonical o

theorem issueFirst_canonical {s l} (h : BytesCanonical s) : IssueCanonical (issueFirst s l) := by
  induction l generalizing s with
  | nil => exact ⟨h, by rintro _ ⟨⟩⟩
  | cons c l ih =>
    rw [issueFirst]
    have hr : NextCanonical (runCand s c) := runCand_canonical h
    split
    next s1 e =>
      have h1 : BytesCanonical s1 := hr _ e
      split
      · exact ih (noIssue_canonical h1)
      · refine ⟨h, ?_⟩
        rintro _ ⟨⟩
        refine next_canonical ?_
        split
        · exact afterIssue_canonical h1
        · exact noIssue_canonical h1
    · exact ⟨h, by rintro _ ⟨⟩; exact hr⟩

theorem issueLane_canonical {s core lane} (h : BytesCanonical s) : IssueCanonical (issueLane s core lane) :=
  issueFirst_canonical h

theorem issueLanes_canonical {s l} (h : BytesCanonical s) : IssueCanonical (issueLanes s l) := by
  induction l generalizing s with
  | nil => exact ⟨h, by rintro _ ⟨⟩⟩
  | cons x l ih =>
    rw [issueLanes]
    have hx : IssueCanonical (issueLane s x.2.1 x.2.2) := issueLane_canonical h
    split
    next s1 e => exact ih (e ▸ hx).1
    · exact hx

theorem freezeCtx_canonical {s ctx} (h : BytesCanonical s) : BytesCanonical (freezeCtx s ctx) :=
  modH_canonical (canonical_of_same h rfl) rfl

theorem tickDies_canonical {s} (h : BytesCanonical s) : BytesCanonical (tickDies s) := by
  unfold tickDies
  refine foldl_canonical (fun _ _ ht => ?_) h
  extract_lets
  split
  · exact modDie_canonical ht
  · exact modDie_canonical (canonical_of_same ht rfl)

theorem measureDue_canonical {s} (h : BytesCanonical s) : BytesCanonical (measureDue s) := by
  unfold measureDue
  split
  · exact h
  · refine foldl_canonical (fun _ _ ht => ?_) h
    extract_lets s1
    have h1 : BytesCanonical s1 := modDie_canonical ht
    split
    · exact h1
    · exact push_canonical h1

theorem tick_canonical {s} (h : BytesCanonical s) : BytesCanonical (tick s) := by
  unfold tick
  extract_lets s1 _ s2 s3
  have h1 : BytesCanonical s1 :=
    measureDue_canonical (expireXw_canonical (tickDies_canonical (canonical_of_same h rfl)))
  have h2 : BytesCanonical s2 := by
    unfold s2
    split
    · exact eclkEffect_canonical h1
    · exact h1
  have h3 : BytesCanonical s3 := by
    unfold s3
    split
    · exact pushAll_canonical h2
    · exact h2
  exact foldl_canonical (fun _ _ ht => freezeCtx_canonical ht) h3

end Sys2Proof.Machine

/-! ### Sched: what follows between issues -/

namespace Sys2Proof.Machine
open Safety

theorem updateRecords_canonical {s} (h : BytesCanonical s) : BytesCanonical (updateRecords s) :=
  mapRecords_canonical h

theorem wakeResident_canonical {s} (h : BytesCanonical s) : BytesCanonical (wakeResident s) := by
  unfold wakeResident
  split
  · exact h
  · exact foldl_canonical (fun _ _ ht => wakeFragment_canonical ht) h

theorem holdDueGroups_canonical {s} (h : BytesCanonical s) : BytesCanonical (holdDueGroups s) :=
  foldl_canonical (fun _ _ ht => holdFragments_canonical ht) h

theorem dropFences_canonical {s} (h : BytesCanonical s) : BytesCanonical (dropFences s) :=
  canonical_of_same h rfl

theorem depositAgain_canonical {s} (h : BytesCanonical s) : BytesCanonical (depositAgain s) :=
  foldl_canonical (fun _ _ ht => retryDeposits_canonical ht) h

theorem endTasks_canonical {s} (h : BytesCanonical s) : BytesCanonical (endTasks s) :=
  foldl_canonical (fun _ _ ht => endTask_canonical ht) h

theorem placeRest_canonical {s} (h : BytesCanonical s) : BytesCanonical (placeRest s) := by
  unfold placeRest
  split
  · exact h
  · exact foldl_canonical (fun _ _ ht => placeGroups_canonical ht) h

theorem dropEnded_canonical {s} (h : BytesCanonical s) : BytesCanonical (dropEnded s) :=
  canonical_of_same h rfl

theorem feedEngines_canonical {s} (h : BytesCanonical s) : BytesCanonical (feedEngines s) := by
  unfold feedEngines
  extract_lets one
  have hone : ∀ s p, BytesCanonical s → BytesCanonical (one s p) := by
    intro _ _ h'
    unfold one
    extract_lets _ s1
    have h1 : BytesCanonical s1 := capture_canonical h'
    split
    · exact h'
    · split
      · split
        · exact h'
        · exact foldl_canonical (fun _ _ ht => fillWords_canonical ht) h1
      · split
        · exact fillWords_canonical h'
        · exact h'
  exact foldl_canonical (fun _ _ ht => hone _ _ ht) h

theorem updateTimers_canonical {s} (h : BytesCanonical s) : BytesCanonical (updateTimers s) := by
  unfold updateTimers
  extract_lets cores s1 clear
  have h1 : BytesCanonical s1 := by
    refine foldl_canonical (fun t c ht => modC_canonical ht fun x hx => ?_) h
    unfold blockTimer
    split
    · split <;> exact hx
    · exact hx
  refine canonical_of_same (mapCores_canonical (f := clear) h1 fun p => ?_) rfl
  unfold clear
  split <;> exact ⟨rfl, rfl⟩

theorem pushDue_canonical {s} (h : BytesCanonical s) : BytesCanonical (pushDue s) :=
  pushAll_canonical h

theorem settle_canonical {s} (h : BytesCanonical s) : BytesCanonical (settle s) := by
  unfold settle
  extract_lets s1 s2 s3
  have h1 : BytesCanonical s1 :=
    dropFences_canonical (depositAgain_canonical (holdDueGroups_canonical (replayRuns_canonical (answerHandlers_canonical (widenPreempts_canonical h)))))
  have h2 : BytesCanonical s2 := wakeResident_canonical (updateRecords_canonical h1)
  have h3 : BytesCanonical s3 := foldl_canonical (fun _ _ ht => resendAcquires_canonical ht) h2
  exact pushDue_canonical (updateTimers_canonical (syncRecords_canonical (dropEnded_canonical
    (placeRest_canonical (endTasks_canonical (feedEngines_canonical h3))))))

theorem orElse_canonical {s o} (h : BytesCanonical s) (ho : NextCanonical o) : BytesCanonical (orElse s o) := by
  cases o with
  | next t => exact ho t rfl
  | fault r => exact h
  | refused r => exact h

theorem sampleCycle_canonical {s} (h : BytesCanonical s) : BytesCanonical (sampleCycle s) :=
  foldl_canonical (fun _ _ ht => orElse_canonical ht (execOccupancyRecord_canonical (orElse_canonical ht
    (execStallSample_canonical ht)))) h

theorem endTick_canonical {s} (h : BytesCanonical s) : BytesCanonical (endTick s) := by
  unfold endTick
  extract_lets s1
  have h1 : BytesCanonical s1 := sampleCycle_canonical h
  split
  · exact foldl_canonical (fun _ _ ht => orElse_canonical ht (execNamedTickStop_canonical ht)) h1
  · exact h1

theorem takeEvent_canonical {s k} (h : BytesCanonical s) : BytesCanonical (takeEvent s k) := by
  unfold takeEvent
  split
  · exact h
  · exact orElse_canonical (canonical_of_same h rfl) (runEvent_canonical (canonical_of_same h rfl))

theorem settled_canonical {o} (ho : NextCanonical o) : NextCanonical (settled o) := by
  cases o with
  | next t => exact next_canonical (endTick_canonical (settle_canonical (ho t rfl)))
  | fault r => exact ho
  | refused r => exact ho

theorem unscheduled_canonical {s} (h : BytesCanonical s) : NextCanonical (unscheduled s) := by
  unfold unscheduled
  split
  · obtain ⟨hs, ho⟩ := issueLanes_canonical (l := busyLanes s) h
    split
    next e => exact settled_canonical (ho _ (by rw [e]))
    next s1 e => exact settled_canonical (next_canonical (by rw [e] at hs; exact hs))
  · exact settled_canonical (next_canonical (takeEvent_canonical h))

theorem stepOnce_canonical {s} (h : BytesCanonical s) : NextCanonical (stepOnce s) := by
  unfold stepOnce
  split
  · split
    · exact runEvent_canonical h
    · exact next_canonical h
  · extract_lets s1
    have h1 : BytesCanonical s1 := tick_canonical h
    have hr (rest : List Choice) : BytesCanonical { s1 with schedule := rest } := canonical_of_same h1 rfl
    split
    · exact unscheduled_canonical h1
    · exact settled_canonical (next_canonical (takeEvent_canonical (hr _)))
    next c l rest _ =>
      obtain ⟨hs, ho⟩ := issueLane_canonical (core := c) (lane := l) (hr rest)
      split
      next e => exact settled_canonical (ho _ (by rw [e]))
      next e => exact settled_canonical (next_canonical (by rw [e] at hs; exact hs))
    · exact settled_canonical (next_canonical (hostBytes_canonical (hr _)))
    · exact settled_canonical (next_canonical (takeMessage_canonical (hr _)))

end Sys2Proof.Machine

/-! ## The obligations of the byte stores -/

namespace Sys2Proof.Machine

/-- Settles O37: every byte store is empty at reset. -/
theorem resetBytesCanonical : Obligations.ResetBytesCanonical :=
  ⟨rfl, rfl, rfl, fun _ => rfl⟩

/-- Settles O38: a step is made of the functions above, each of which keeps the byte stores canonical. -/
theorem stepKeepsBytesCanonical : Obligations.StepKeepsBytesCanonical :=
  fun _ t h e => stepOnce_canonical h t e

end Sys2Proof.Machine

/-! ## A restore from host memory that lists an address twice (R378) -/

namespace Sys2Proof.Machine

/-- The reset state with an extent list that holds the whole image from host address 0, and host memory that lists address 0 twice, first
with 1 and then with 2. A read takes the first entry; `loadImage` puts the entries one after the other, so that the last one stays. -/
def twiceListed : State :=
  { State.reset with
    host := [(0, 1), (0, 2)]
    ckpt := { State.reset.ckpt with extents := [(0, imageSize State.reset)] } }

theorem exec_checkpointRestore_twiceListed : exec .checkpointRestore twiceListed = .next (loadImage twiceListed) := by
  rfl

theorem memByte_loadImage_twiceListed : memByte (loadImage twiceListed) 0 = 2 := by
  decide +kernel

theorem add_eq_of_extentAddr_singleton {b n o a : Nat} (h : extentAddr [(b, n)] o = some a) : b + o = a := by
  simp only [extentAddr] at h
  split at h
  · exact Option.some.inj h
  · cases h

/-- Refutes O56, in the clause of `checkpointRestore`: `twiceListed` meets its hypotheses, yet after the restore byte 0 of device memory is
2, where host address 0, which alone holds that byte of the image, reads as 1. The statement speaks of every state; this one breaks
`Safety.BytesCanonical`, which holds at reset (O37) and which steps keep (O38), so that no run from reset reaches it. -/
theorem not_firmwareAndImageEvents : ¬ Obligations.FirmwareAndImageEvents := by
  rintro ⟨-, himages⟩
  obtain ⟨-, -, hrestore⟩ := himages twiceListed
  obtain ⟨t, ht, -, -, -, hbytes⟩ := hrestore rfl (by rintro p ⟨⟩) (by decide +kernel)
  obtain rfl : loadImage twiceListed = t := by simpa [exec_checkpointRestore_twiceListed] using ht
  have hbyte : memByte (loadImage twiceListed) 0 = fget 0 twiceListed.host 0 :=
    hbytes 0 0 (by decide +kernel) rfl fun o ho => by simpa using add_eq_of_extentAddr_singleton ho
  rw [memByte_loadImage_twiceListed] at hbyte
  exact absurd hbyte (by decide)

end Sys2Proof.Machine

/-! ## The reset state (R54, R379)

Every table of the reset state lists nothing, so that each entry reads as its own default. -/

namespace Sys2Proof.Machine

theorem getG_reset (u : Nat) : getG State.reset u = Group.none := rfl
theorem getC_reset (k : Nat) : getC State.reset k = Core.reset := rfl
theorem getT_reset (k : Nat) : getT State.reset k = Task.none := rfl
theorem getX_reset (x : BitVec 12) : getX State.reset x = Ctx.reset := rfl

theorem cReg_none (r : BitVec 4) : cReg Group.none r = Cap.null := rfl
theorem sReg_none (r : BitVec 6) : sReg Group.none r = 0 := ite_self 0

/-- Settles O36: the lists are empty, and the entries of the tables are the defaults. -/
theorem resetState : Obligations.ResetState := by
  unfold Obligations.ResetState
  simp only [getG_reset, getC_reset, getT_reset, getX_reset]
  exact ⟨rfl, rfl, rfl, rfl, rfl, fun _ => ⟨rfl, rfl, rfl, rfl⟩, fun _ => ⟨cReg_none, sReg_none⟩, fun _ => ⟨rfl, rfl⟩,
    fun _ => by decide⟩

end Sys2Proof.Machine


/-! ## The bounds of a capability (R10 to R12) -/

namespace Sys2Proof.Machine

/-- The first middle field of a capability's representable region (R10). -/
def repOf (c : Cap) : Nat := (c.b.toNat + 2 ^ 27 - 2 ^ 24) % 2 ^ 27

/-- The number of the window of 2^(E + 27) bytes, counted from the region's first middle field, in which an address lies. -/
def windowOf (c : Cap) (a : Nat) : Int := ((a : Int) - repOf c * 2 ^ c.e.toNat) / 2 ^ (c.e.toNat + 27)

/-- The bound that a 27-bit field `x` stands for, where the address lies in window `h`. -/
def boundIn (c : Cap) (h : Int) (x : BitVec 27) : Int :=
  (h + if x.toNat < repOf c then 1 else 0) * 2 ^ (c.e.toNat + 27) + x.toNat * 2 ^ c.e.toNat

/-- R10: the correction on a bound `x`, for an address with the middle field `m`. -/
def corrOf (rep m x : Nat) : Int := if m < rep ∧ rep ≤ x then -1 else if rep ≤ m ∧ x < rep then 1 else 0

theorem repOf_lt (c : Cap) : repOf c < 2 ^ 27 := Nat.mod_lt _ (by norm_num)

theorem corrOf_eq (rep m x : Nat) : corrOf rep m x = (if x < rep then 1 else 0) - if m < rep then 1 else 0 := by
  unfold corrOf
  split_ifs <;> omega

/-- The window of an address from its fields: the high one, less 1 where the middle one lies below the region's. -/
theorem windowOf_eq (c : Cap) (a : Nat) :
    windowOf c a = (a / 2 ^ (c.e.toNat + 27) : Nat) - if a / 2 ^ c.e.toNat % 2 ^ 27 < repOf c then 1 else 0 := by
  have hrep := repOf_lt c
  have hpos : (0 : Int) < 2 ^ c.e.toNat := by positivity
  have hhi : a / 2 ^ (c.e.toNat + 27) = a / 2 ^ c.e.toNat / 2 ^ 27 := by rw [pow_add, Nat.div_div_eq_div_mul]
  have hwin : windowOf c a = (((a / 2 ^ c.e.toNat : Nat) : Int) - repOf c) / 2 ^ 27 := by
    rw [windowOf, pow_add, ← Int.ediv_ediv_of_nonneg hpos.le, Int.sub_mul_ediv_right _ _ hpos.ne']
    push_cast
    rfl
  rw [hwin, hhi]
  generalize a / 2 ^ c.e.toNat = q
  split_ifs <;> omega

/-- The high field with the correction of a bound is the window, with 1 more for a field below the region's. -/
theorem high_add_corrOf (c : Cap) (a : Nat) (x : BitVec 27) :
    ((a / 2 ^ (c.e.toNat + 27) : Nat) : Int) + corrOf (repOf c) (a / 2 ^ c.e.toNat % 2 ^ 27) x.toNat =
      windowOf c a + if x.toNat < repOf c then 1 else 0 := by
  rw [windowOf_eq, corrOf_eq]
  ring

/-- R10: the decoded bounds depend on the address through its window alone. -/
theorem capDecode_eq (c : Cap) : capDecode c =
    if 30 < c.e.toNat then none else
    let base := boundIn c (windowOf c c.addr.toNat) c.b
    let top := boundIn c (windowOf c c.addr.toNat) c.t
    if base < 0 ∨ 2 ^ 56 < top ∨ top < base then none else some (base.toNat, top.toNat) := by
  unfold boundIn
  rw [← high_add_corrOf, ← high_add_corrOf]
  rfl

/-- R11: the region is the window of the capability's address. -/
theorem inRegion_iff (c : Cap) (a : Nat) : Claim.inRegion c a = true ↔ windowOf c a = windowOf c c.addr.toNat := by
  have hfirst : ∀ h : Int, (h + if c.b.toNat < repOf c then 1 else 0) * 2 ^ (c.e.toNat + 27) + (repOf c : Int) * 2 ^ c.e.toNat -
      (if c.b.toNat < repOf c then 2 ^ (c.e.toNat + 27) else 0) = h * 2 ^ (c.e.toNat + 27) + repOf c * 2 ^ c.e.toNat := by
    intro h
    split_ifs <;> ring
  have hregion : Claim.inRegion c a = decide
      (windowOf c c.addr.toNat * 2 ^ (c.e.toNat + 27) + repOf c * 2 ^ c.e.toNat ≤ a ∧
        a < windowOf c c.addr.toNat * 2 ^ (c.e.toNat + 27) + repOf c * 2 ^ c.e.toNat + 2 ^ (c.e.toNat + 27)) := by
    rw [← hfirst, ← high_add_corrOf]
    rfl
  rw [hregion, decide_eq_true_iff]
  generalize windowOf c c.addr.toNat = h
  rw [windowOf, Int.ediv_eq_iff_of_pos (by positivity)]
  constructor <;> rintro ⟨h1, h2⟩ <;> constructor <;> linarith

/-- A capability with another address has the same bounds where that lies in the same window. -/
theorem capDecode_addr_congr (c : Cap) (x : BitVec 56) (h : windowOf c x.toNat = windowOf c c.addr.toNat) :
    capDecode { c with addr := x } = capDecode c := by
  rw [capDecode_eq, capDecode_eq c, ← h]
  rfl

/-- The bounds decode to a base and a top where the address's window gives these, in order and at most 2^56. -/
theorem capDecode_eq_some_iff (c : Cap) (b t : Nat) : capDecode c = some (b, t) ↔
    c.e.toNat ≤ 30 ∧ boundIn c (windowOf c c.addr.toNat) c.b = b ∧ boundIn c (windowOf c c.addr.toNat) c.t = t ∧
    b ≤ t ∧ t ≤ 2 ^ 56 := by
  rw [capDecode_eq]
  generalize boundIn c (windowOf c c.addr.toNat) c.b = x
  generalize boundIn c (windowOf c c.addr.toNat) c.t = y
  dsimp only
  split_ifs with he hxy
  · simp only [false_iff]
    omega
  · simp only [false_iff]
    omega
  · simp only [Option.some.injEq, Prod.mk.injEq]
    omega

/-- Bounds that decode give the window back: the base lies in it. -/
theorem windowOf_of_capDecode (c : Cap) (x : BitVec 56) (hc : capDecode c ≠ none)
    (h : capDecode { c with addr := x } = capDecode c) : windowOf c x.toNat = windowOf c c.addr.toNat := by
  obtain ⟨⟨b, t⟩, hbt⟩ := Option.ne_none_iff_exists'.mp hc
  obtain ⟨-, hb, -⟩ := (capDecode_eq_some_iff c b t).mp hbt
  obtain ⟨-, hb', -⟩ := (capDecode_eq_some_iff { c with addr := x } b t).mp (h.trans hbt)
  have hbase : boundIn c (windowOf c x.toNat) c.b = boundIn c (windowOf c c.addr.toNat) c.b := hb'.trans hb.symm
  have hp : (2 : Int) ^ (c.e.toNat + 27) ≠ 0 := by positivity
  simpa only [boundIn, add_left_inj, mul_eq_mul_right_iff, hp, or_false] using hbase

/-- R11: the region is the set of addresses that leave the decoded bounds as they are. -/
theorem inRegion_iff_capDecode (c : Cap) (x : BitVec 56) (hc : capDecode c ≠ none) :
    Claim.inRegion c x.toNat = true ↔ capDecode { c with addr := x } = capDecode c := by
  rw [inRegion_iff]
  exact ⟨capDecode_addr_congr c x, windowOf_of_capDecode c x hc⟩

/-! R12: the bounds that a capability is given. -/

theorem spans_iff (b t e : Nat) : Claim.spans b t e = true ↔ ceilDiv t (2 ^ e) - b / 2 ^ e ≤ 2 ^ 26 := by
  unfold Claim.spans ceilDiv
  rw [decide_eq_true_iff]
  omega

/-- The search for the exponent ends at one that spans the bounds, or at the end of its fuel, past none that does. -/
theorem capExponent_spec (b t e fuel : Nat) :
    e ≤ capExponent b t e fuel ∧ capExponent b t e fuel ≤ e + fuel ∧
      (Claim.spans b t (capExponent b t e fuel) = true ∨ capExponent b t e fuel = e + fuel) ∧
      ∀ k, e ≤ k → k < capExponent b t e fuel → Claim.spans b t k = false := by
  induction fuel generalizing e with
  | zero => exact ⟨le_rfl, le_rfl, .inr rfl, fun k h1 h2 => absurd h1 (not_le.mpr h2)⟩
  | succ fuel ih =>
    rw [capExponent]
    split_ifs with h
    · exact ⟨le_rfl, by omega, .inl ((spans_iff b t e).mpr h), fun k h1 h2 => absurd h1 (not_le.mpr h2)⟩
    · obtain ⟨hle, hge, hend, hpast⟩ := ih (e + 1)
      refine ⟨by omega, by omega, hend.imp_right fun he => by omega, fun k h1 h2 => ?_⟩
      obtain rfl | hk := h1.eq_or_lt
      · exact Bool.eq_false_iff.mpr fun hs => h ((spans_iff b t e).mp hs)
      · exact hpast k hk h2

/-- Exponent 30 spans every range of the address space. -/
theorem spans_thirty (b t : Nat) (ht : t ≤ 2 ^ 56) : Claim.spans b t 30 = true := by
  rw [spans_iff, ceilDiv]
  omega

/-- The correction on the top of bounds that an exponent spans, with the address at their base. -/
theorem high_add_corrOf_top (q u rep : Nat) (hqu : q ≤ u) (hspan : u ≤ q + 2 ^ 26) (hrep : rep = (q % 2 ^ 27 + 2 ^ 27 - 2 ^ 24) % 2 ^ 27) :
    (((q / 2 ^ 27 : Nat) : Int) + corrOf rep (q % 2 ^ 27) (u % 2 ^ 27)) * 2 ^ 27 + (u % 2 ^ 27 : Nat) = u := by
  rw [corrOf_eq]
  split_ifs <;> omega

/-- A bound within the reach of an exponent above the address decodes to itself. -/
theorem boundIn_windowOf_near (c : Cap) (u : Nat) (hb : c.b = BitVec.ofNat 27 (c.addr.toNat / 2 ^ c.e.toNat))
    (hqu : c.addr.toNat / 2 ^ c.e.toNat ≤ u) (hspan : u ≤ c.addr.toNat / 2 ^ c.e.toNat + 2 ^ 26) :
    boundIn c (windowOf c c.addr.toNat) (BitVec.ofNat 27 u) = (u * 2 ^ c.e.toNat : Nat) := by
  have hrep : repOf c = (c.addr.toNat / 2 ^ c.e.toNat % 2 ^ 27 + 2 ^ 27 - 2 ^ 24) % 2 ^ 27 := by rw [repOf, hb, BitVec.toNat_ofNat]
  have htop := high_add_corrOf_top _ u _ hqu hspan hrep
  rw [Nat.div_div_eq_div_mul, ← pow_add] at htop
  have hpow : (2 : Int) ^ (c.e.toNat + 27) = 2 ^ 27 * 2 ^ c.e.toNat := by rw [add_comm, pow_add]
  rw [boundIn, ← high_add_corrOf, BitVec.toNat_ofNat, hpow, ← mul_assoc, ← add_mul, htop]
  push_cast
  rfl

/-- The exponent that bounds are given. -/
theorem capWithBounds_e (c : Cap) (b t : Nat) : (capWithBounds c b t).e.toNat = capExponent b t 0 30 := by
  have := (capExponent_spec b t 0 30).2.1
  simp only [capWithBounds, BitVec.toNat_ofNat]
  omega

/-- R12: the exponent of given bounds is at most 30, spans them, and is the least that does. -/
theorem capWithBounds_e_least (c : Cap) (b t : Nat) (ht : t ≤ 2 ^ 56) :
    (capWithBounds c b t).e.toNat ≤ 30 ∧ Claim.spans b t (capWithBounds c b t).e.toNat = true ∧
      ∀ e, e < (capWithBounds c b t).e.toNat → Claim.spans b t e = false := by
  obtain ⟨-, hle, hend, hpast⟩ := capExponent_spec b t 0 30
  rw [capWithBounds_e]
  refine ⟨by omega, hend.elim id fun h => ?_, fun e => hpast e (Nat.zero_le e)⟩
  rw [h]
  exact spans_thirty b t ht

/-- R12: given bounds decode to the least multiples of 2^E around them. -/
theorem capDecode_capWithBounds (c : Cap) (t : Nat) (hbt : c.addr.toNat ≤ t) (ht : t ≤ 2 ^ 56) :
    let r := capWithBounds c c.addr.toNat t
    capDecode r = some (c.addr.toNat / 2 ^ r.e.toNat * 2 ^ r.e.toNat, ceilDiv t (2 ^ r.e.toNat) * 2 ^ r.e.toNat) := by
  intro r
  obtain ⟨he, hspan, -⟩ : r.e.toNat ≤ 30 ∧ Claim.spans c.addr.toNat t r.e.toNat = true ∧ _ := capWithBounds_e_least c c.addr.toNat t ht
  have hpos : 0 < 2 ^ r.e.toNat := by positivity
  have hqu : c.addr.toNat / 2 ^ r.e.toNat ≤ ceilDiv t (2 ^ r.e.toNat) := Nat.div_le_div_right (by omega)
  have hb : r.b = BitVec.ofNat 27 (r.addr.toNat / 2 ^ r.e.toNat) := by
    rw [capWithBounds_e]
    rfl
  have hu : r.t = BitVec.ofNat 27 (ceilDiv t (2 ^ r.e.toNat)) := by
    rw [capWithBounds_e]
    rfl
  have hreach : ceilDiv t (2 ^ r.e.toNat) ≤ c.addr.toNat / 2 ^ r.e.toNat + 2 ^ 26 := by
    have := (spans_iff _ _ _).mp hspan
    omega
  refine (capDecode_eq_some_iff r _ _).mpr ⟨he, ?_, ?_, Nat.mul_le_mul_right _ hqu, ?_⟩
  · exact hb ▸ boundIn_windowOf_near r _ hb le_rfl (Nat.le_add_right _ _)
  · exact hu ▸ boundIn_windowOf_near r _ hb hqu hreach
  · have hdvd : 2 ^ 56 = 2 ^ (56 - r.e.toNat) * 2 ^ r.e.toNat := by rw [← pow_add]; congr 1; omega
    rw [hdvd]
    refine Nat.mul_le_mul_right _ ?_
    rw [ceilDiv, ← Nat.lt_succ_iff, Nat.div_lt_iff_lt_mul hpos, Nat.succ_mul, ← hdvd]
    omega

theorem capBits_null : capBits Cap.null = 0 := rfl

/-- R9: the 128 bits with the tag give the capability back. -/
theorem capOfBits_capBits (c : Cap) : capOfBits (capBits c) c.tag = c := by
  have h1 := c.addr.isLt
  have h2 := c.perms.isLt
  have h3 := c.sealed.toNat_lt
  have h4 := c.space.isLt
  have h5 := c.e.isLt
  have h6 := c.b.isLt
  have h7 := c.t.isLt
  have hs : (capBits c / 2 ^ 63 % 2 == 1) = c.sealed := by
    unfold capBits
    cases c.sealed <;> simp <;> omega
  cases c
  simp only [capOfBits, Cap.mk.injEq, and_true, ← BitVec.toNat_inj, BitVec.toNat_ofNat, hs, capBits] at *
  refine ⟨?_, ?_, trivial, ?_, ?_, ?_, ?_⟩ <;> omega

/-- The part of O57 about bounds. -/
theorem capabilityBounds : Claim.CapabilityBounds := by
  unfold Claim.CapabilityBounds
  intro c x b t
  refine ⟨inRegion_iff_capDecode c x, fun hbt ht => ?_, capOfBits_capBits c, capBits_null, rfl⟩
  obtain ⟨he, hspan, hleast⟩ := capWithBounds_e_least { c with addr := b } b.toNat t ht
  exact ⟨he, hspan, hleast, capDecode_capWithBounds { c with addr := b } t hbt ht⟩

end Sys2Proof.Machine


/-! ## How an instruction ends: what the statements' predicates ask -/

namespace Sys2Proof.Machine

/-- A stop with a cause is the exception of the statements. -/
theorem commit_trap (i : Instr) (s : State) (c : Cause) (a : Nat) (x1 : Option DWord) :
    commit i s (.error (.trap c a x1)) = .next (Claim.raised s i c (BitVec.ofNat 56 a) x1) := rfl

theorem commitNext_trap (i : Instr) (s : State) (c : Cause) (a : Nat) (x1 : Option DWord) :
    commitNext i s (.error (.trap c a x1)) = .next (Claim.raised s i c (BitVec.ofNat 56 a) x1) := rfl

/-- An interlock changes nothing but when the fragment was last ready. -/
theorem commitNext_hold (i : Instr) (s : State) (w : Nat) :
    ∃ t, commitNext i s (.error (.hold w)) = .next t ∧ Claim.Interlocked s t := by
  refine ⟨_, rfl, ?_⟩
  unfold Claim.Interlocked
  simp only [stopped, curF_modCurF]

/-- Memory is read through the homes and the cores, so that a change of the groups keeps it. -/
theorem memKept_of_groups {s t : State} (h : t = { s with groups := t.groups }) : Claim.MemKept s t := by
  rw [h]
  exact fun _ => ⟨rfl, rfl⟩

theorem onlyGroup_self (s : State) : Claim.OnlyGroup s s := ⟨rfl, fun _ _ => rfl, fun _ => ⟨rfl, rfl⟩⟩

theorem onlyGroup_modCur (s : State) (f : Group → Group) : Claim.OnlyGroup s (modCur s f) :=
  ⟨modCur_groups s f, fun u hu => getG_modCur_ne s f u hu, memKept_of_groups (modCur_groups s f)⟩

/-- The move past an instruction changes nothing but the issuing group. -/
theorem onlyGroup_advance {s t : State} (i : Instr) (h : Claim.OnlyGroup s t) : Claim.OnlyGroup s (advance i t) := by
  obtain ⟨hgroups, hne, -⟩ := h
  have hcur : t.cur = s.cur := by rw [hgroups]
  have hadv : advance i t = { s with groups := (advance i t).groups } := by
    rw [advance_groups]
    generalize (advance i t).groups = gs
    rw [hgroups]
  exact ⟨hadv, fun u hu => (getG_advance_ne i t u (hcur ▸ hu)).trans (hne u hu), memKept_of_groups hadv⟩

/-- The fragment has moved past an instruction that left the split table as it was. -/
theorem past_advance {i : Instr} {s t : State} {n : Nat} (hn : (codeOf i).len = n) (hcur : t.cur = s.cur)
    (hsplit : (curG t).split = (curG s).split) : Claim.Past s (advance i t) n := by
  have hF : ∀ k, getF (curG t) k = getF (curG s) k := fun k => by rw [getF, hsplit, getF]
  have hf : curF t = curF s := by rw [curF, hF, hcur, curF]
  refine ⟨?_, ?_, ?_, fun k hk => ?_⟩
  · rw [curF_advance, hf, hn]
  · rw [curF_advance]
  · rw [curF_advance, hf]
  · rw [getF_advance_ne i t k (hcur ▸ hk), hF]

theorem curG_advance_split (i : Instr) (s : State) : curG (advance i s) = { curG s with split := (curG (advance i s)).split } := by
  rw [curG_advance]
  rfl

theorem curG_advance_modCur (i : Instr) (s : State) (f : Group → Group) :
    curG (advance i (modCur s f)) = { f (curG s) with split := (curG (advance i (modCur s f))).split } := by
  rw [curG_advance, curG_modCur]
  rfl

end Sys2Proof.Machine

/-! ## Capability derivations (R22, R307) -/

namespace Sys2Proof.Machine

theorem capValid_ok {c : Cap} (h : Claim.Sound c) : capValid c = .ok () := by
  obtain ⟨ht, hd, hs⟩ := h
  rw [Option.isSome_iff_ne_none] at hd
  simp [capValid, ht, hd, hs]

theorem capValid_error {c : Cap} (h : ¬Claim.Sound c) : capValid c = .error (.trap (Claim.unsound c) c.addr.toNat none) := by
  unfold capValid Claim.unsound
  cases ht : c.tag
  · rfl
  cases hd : capDecode c with
  | none => rfl
  | some p =>
    cases hs : c.sealed
    · exact absurd ⟨ht, by rw [hd]; rfl, hs⟩ h
    · rfl

/-! A write of a capability register. -/

theorem cReg_cPut (g : Group) (d r : BitVec 4) (v : Cap) : cReg (cPut g d v) r = if r = d then v else cReg g r := by
  simp only [cReg, cPut, xwDropCreg, fget_fset, BitVec.toNat_inj]

theorem cIsEmpty_cPut (g : Group) (d r : BitVec 4) (v : Cap) (h : cIsEmpty g d = false) : cIsEmpty (cPut g d v) r = cIsEmpty g r := by
  have hd : d.toNat < 16 := d.isLt
  simp only [cIsEmpty, cPut, xwDropCreg, withBit_getLsbD _ _ _ _ hd]
  split_ifs with hr
  · rw [hr]
    exact h.symm
  · rfl

/-- R41: dropping the translation registers of a list one by one. -/
def xwUnbind (k : BitVec 4) (m : FMap XW) (n : Nat) : FMap XW :=
  if (fget XW.zero m n).valid && (fget XW.zero m n).creg == k then fset XW.zero m n { fget XW.zero m n with valid := false } else m

theorem fget_xwUnbind (k : BitVec 4) (m : FMap XW) (j n : Nat) :
    fget XW.zero (xwUnbind k m j) n = fget XW.zero m n ∨
      ((fget XW.zero m n).creg = k ∧ fget XW.zero (xwUnbind k m j) n = { fget XW.zero m n with valid := false }) := by
  unfold xwUnbind
  split_ifs with h
  · rw [fget_fset]
    split_ifs with hn
    · subst hn
      exact .inr ⟨by simpa using (Bool.and_eq_true_iff.mp h).2, rfl⟩
    · exact .inl rfl
  · exact .inl rfl

theorem fget_foldl_xwUnbind (k : BitVec 4) (l : List Nat) (m : FMap XW) (n : Nat) :
    fget XW.zero (l.foldl (xwUnbind k) m) n = fget XW.zero m n ∨
      ((fget XW.zero m n).creg = k ∧ fget XW.zero (l.foldl (xwUnbind k) m) n = { fget XW.zero m n with valid := false }) := by
  induction l generalizing m with
  | nil => exact .inl rfl
  | cons j l ih =>
    rw [List.foldl_cons]
    obtain hj | ⟨hk, hj⟩ := fget_xwUnbind k m j n <;> obtain hl | ⟨hk', hl⟩ := ih (xwUnbind k m j) <;> rw [hj] at hl
    · exact .inl hl
    · exact .inr ⟨hj ▸ hk', hl⟩
    · exact .inr ⟨hk, hl⟩
    · exact .inr ⟨hk, hl⟩

theorem cPut_eq (g : Group) (d : BitVec 4) (v : Cap) : cPut g d v =
    { g with c := fset Cap.null g.c d.toNat v, cEmpty := withBit g.cEmpty d.toNat false, xw := (List.range 8).foldl (xwUnbind d) g.xw } := rfl

theorem cPut_xw (g : Group) (d : BitVec 4) (v : Cap) (n : Nat) :
    fget XW.zero (cPut g d v).xw n = fget XW.zero g.xw n ∨
      ((fget XW.zero g.xw n).creg = d ∧ fget XW.zero (cPut g d v).xw n = { fget XW.zero g.xw n with valid := false }) :=
  fget_foldl_xwUnbind d (List.range 8) g.xw n

theorem cPut_rest (g : Group) (d : BitVec 4) (v : Cap) :
    cPut g d v = { g with c := (cPut g d v).c, cEmpty := (cPut g d v).cEmpty, xw := (cPut g d v).xw } := by
  simp only [cPut_eq]

/-- A change of the issuing group that is a write of a capability register, then the move past the instruction. -/
theorem capOnly_advance_of {i : Instr} {s : State} {cd : BitVec 4} {v : Cap} {f : Group → Group} (hlen : (codeOf i).len = 4)
    (hc : ∀ r, cReg (f (curG s)) r = if r = cd then v else cReg (curG s) r) (he : ∀ r, cIsEmpty (f (curG s)) r = cIsEmpty (curG s) r)
    (hx : ∀ n, fget XW.zero (f (curG s)).xw n = fget XW.zero (curG s).xw n ∨ ((fget XW.zero (curG s).xw n).creg = cd ∧
      fget XW.zero (f (curG s)).xw n = { fget XW.zero (curG s).xw n with valid := false }))
    (hrest : f (curG s) = { curG s with c := (f (curG s)).c, cEmpty := (f (curG s)).cEmpty, xw := (f (curG s)).xw }) :
    Claim.CapOnly s (advance i (modCur s f)) cd v := by
  refine ⟨onlyGroup_advance i (onlyGroup_modCur s f), past_advance hlen rfl (by rw [curG_modCur, hrest]), ?_⟩
  unfold Claim.CapWritten
  rw [curG_advance_modCur]
  exact ⟨hc, he, fun n _ => hx n, by rw [hrest]⟩

/-- An instruction whose only effect is a write of a capability register. -/
theorem capOnly_advance {i : Instr} {s : State} {cd : BitVec 4} (v : Cap) (hlen : (codeOf i).len = 4) (hd : cIsEmpty (curG s) cd = false) :
    Claim.CapOnly s (advance i (modCur s fun g => cPut g cd v)) cd v :=
  capOnly_advance_of hlen (fun r => cReg_cPut _ cd r v) (fun r => cIsEmpty_cPut _ cd r v hd) (cPut_xw _ cd v) (cPut_rest _ cd v)

end Sys2Proof.Machine

namespace Sys2Proof.Machine

/-! The derivations (R307), each with `derive_` as its frame. -/

section Derive
variable {i : Instr} {s : State} {b2 : BitVec 1} {ss : BitVec 6} {cs cd : BitVec 4} {f : Cap → DWord → X Cap}

theorem srcC_hold {g : Group} {r : BitVec 4} (h : cIsEmpty g r = true) : srcC g r = .error (.hold 11) := by simp [srcC, h]
theorem dstC_hold {g : Group} {r : BitVec 4} (h : cIsEmpty g r = true) : dstC g r = .error (.hold 11) := by simp [dstC, h]
theorem dstC_ok {g : Group} {r : BitVec 4} (h : cIsEmpty g r = false) : dstC g r = .ok () := by simp [dstC, h]

/-- An empty capability register, source or destination, interlocks (log 14). -/
theorem srcC_dstC_hold {α : Type} {g : Group} (k : Cap → X α) (he : cIsEmpty g cs = true ∨ cIsEmpty g cd = true) :
    (srcC g cs >>= fun c => dstC g cd >>= fun _ => k c) = .error (.hold 11) := by
  cases hs : cIsEmpty g cs with
  | true => rw [srcC_hold hs, error_bind]
  | false =>
    have hd : cIsEmpty g cd = true := he.resolve_left (by rw [hs]; decide)
    rw [srcC_ok hs, ok_bind, dstC_hold hd, error_bind]

theorem derive_interlocked (hi : i.WellFormed) (he : cIsEmpty (curG s) cs = true ∨ cIsEmpty (curG s) cd = true) :
    ∃ t, derive_ i b2 ss cs cd f s = .next t ∧ Claim.Interlocked s t := by
  unfold derive_
  simp only [checkField_ok hi, ok_bind, srcC_dstC_hold _ he]
  exact commitNext_hold i s 11

variable (hi : i.WellFormed) (hs : cIsEmpty (curG s) cs = false) (hd : cIsEmpty (curG s) cd = false) (hv : sIsEmpty (curG s) ss = false)
include hi hs hd hv

/-- A derivation whose registers hold values makes steps 1 to 3 of R22, then what its own rule says. -/
theorem derive_eq : derive_ i b2 ss cs cd f s = commitNext i s (do
    capValid (cReg (curG s) cs)
    let r ← f (cReg (curG s) cs) (sReg (curG s) ss)
    .ok (modCur s fun g => cPut g cd r)) := by
  unfold derive_
  rw [checkField_ok hi]
  simp only [ok_bind, srcC_ok hs, dstC_ok hd, srcS_ok _ hv]

theorem derive_unsound (h : ¬Claim.Sound (cReg (curG s) cs)) :
    derive_ i b2 ss cs cd f s = .next (Claim.raised s i (Claim.unsound (cReg (curG s) cs)) (cReg (curG s) cs).addr none) := by
  rw [derive_eq hi hs hd hv, capValid_error h, error_bind, commitNext_trap, BitVec.ofNat_toNat, BitVec.setWidth_eq]

theorem derive_error {c : Cause} (h : Claim.Sound (cReg (curG s) cs)) (hf : f (cReg (curG s) cs) (sReg (curG s) ss) = trapX c) :
    derive_ i b2 ss cs cd f s = .next (Claim.raised s i c 0 none) := by
  rw [derive_eq hi hs hd hv, capValid_ok h, ok_bind, hf]
  rfl

theorem derive_ok {r : Cap} (hlen : (codeOf i).len = 4) (h : Claim.Sound (cReg (curG s) cs))
    (hf : f (cReg (curG s) cs) (sReg (curG s) ss) = .ok r) : ∃ t, derive_ i b2 ss cs cd f s = .next t ∧ Claim.CapOnly s t cd r := by
  rw [derive_eq hi hs hd hv, capValid_ok h, ok_bind, hf]
  exact ⟨_, rfl, capOnly_advance r hlen hd⟩

end Derive

section Exec
variable (b2 : BitVec 1) (ss : BitVec 6) (cs cd : BitVec 4) (s : State)

/-- The derivations with a scalar operand have one frame. -/
theorem exec_derivation {i : Instr} (h : i ∈ [Instr.cmk b2 ss cs cd, .cbnd b2 ss cs cd, .cperm b2 ss cs cd]) :
    i.WellFormed ∧ ∃ f, exec i s = derive_ i b2 ss cs cd f s := by
  simp only [List.mem_cons, List.not_mem_nil, or_false] at h
  obtain rfl | rfl | rfl := h <;> exact ⟨rfl, _, rfl⟩

end Exec

/-- R11: the capability with another address keeps its tag in the representable region only. -/
theorem capWithAddr_eq {c : Cap} (h : Claim.Sound c) (a : Int) : capWithAddr c a =
    { c with addr := BitVec.ofInt 56 a, tag := decide (0 ≤ a ∧ a < 2 ^ 56) && Claim.inRegion c a.toNat } := by
  obtain ⟨ht, hd, -⟩ := h
  rw [Option.isSome_iff_ne_none] at hd
  have hiff : (0 ≤ a ∧ a < 2 ^ 56 ∧ capDecode { c with addr := BitVec.ofInt 56 a } = capDecode c ∧ capDecode c ≠ none) ↔
      (decide (0 ≤ a ∧ a < 2 ^ 56) && Claim.inRegion c a.toNat) = true := by
    rw [Bool.and_eq_true, decide_eq_true_iff, and_iff_left hd, ← and_assoc]
    refine and_congr_right fun ha => ?_
    have hx : (BitVec.ofInt 56 a).toNat = a.toNat := by rw [BitVec.toNat_ofInt]; omega
    rw [← hx]
    exact (inRegion_iff_capDecode c _ hd).symm
  unfold capWithAddr
  cases htag : decide (0 ≤ a ∧ a < 2 ^ 56) && Claim.inRegion c a.toNat
  · exact if_neg fun h => by rw [htag] at hiff; exact absurd (hiff.mp h) (by decide)
  · rw [← ht]
    exact if_pos (hiff.mpr htag)

/-- R307: `cbnd` traps where the bounds reach past those of its source or of the address space, or do not decode. -/
theorem boundTo_eq {c : Cap} (h : Claim.Sound c) (v : DWord) {p : Nat × Nat}
    (hp : capDecode (capWithBounds c c.addr.toNat (c.addr.toNat + v.toNat)) = some p) :
    boundTo c v = if 2 ^ 56 < c.addr.toNat + v.toNat ∨ p.1 < ((capDecode c).getD (0, 0)).1 ∨ ((capDecode c).getD (0, 0)).2 < p.2
      then trapX .capMono else .ok (capWithBounds c c.addr.toNat (c.addr.toNat + v.toNat)) := by
  obtain ⟨-, hd, -⟩ := h
  obtain ⟨q, hq⟩ := Option.isSome_iff_exists.mp hd
  simp [boundTo, hq, hp, or_assoc]

theorem boundTo_past {c : Cap} (v : DWord) (h : 2 ^ 56 < c.addr.toNat + v.toNat) : boundTo c v = trapX .capMono := by
  simp only [boundTo, h, decide_true, Bool.true_or, if_true]
  split <;> rfl

section Cseal
variable {s : State} {cs cd : BitVec 4}

theorem execCseal_interlocked (he : cIsEmpty (curG s) cs = true ∨ cIsEmpty (curG s) cd = true) :
    ∃ t, execCseal cs cd s = .next t ∧ Claim.Interlocked s t := by
  unfold execCseal
  simp only [srcC_dstC_hold _ he]
  exact commitNext_hold _ s 11

variable (hs : cIsEmpty (curG s) cs = false) (hd : cIsEmpty (curG s) cd = false)
include hs hd

theorem execCseal_eq : execCseal cs cd s = commitNext (.cseal cs cd) s
    (if (cReg (curG s) cs).tag && (capDecode (cReg (curG s) cs)).isNone then trapAt .capFormat (cReg (curG s) cs).addr.toNat
      else .ok (modCur s fun g => cPut g cd { cReg (curG s) cs with sealed := true })) := by
  unfold execCseal
  simp only [ok_bind, srcC_ok hs, dstC_ok hd]

theorem execCseal_format (ht : (cReg (curG s) cs).tag = true) (hc : capDecode (cReg (curG s) cs) = none) :
    execCseal cs cd s = .next (Claim.raised s (.cseal cs cd) .capFormat (cReg (curG s) cs).addr none) := by
  rw [execCseal_eq hs hd, ht, hc]
  exact (commitNext_trap _ _ _ _ _).trans (by rw [BitVec.ofNat_toNat, BitVec.setWidth_eq])

theorem execCseal_ok (hc : (cReg (curG s) cs).tag = false ∨ capDecode (cReg (curG s) cs) ≠ none) :
    ∃ t, execCseal cs cd s = .next t ∧ Claim.CapOnly s t cd { cReg (curG s) cs with sealed := true } := by
  have hpass : ((cReg (curG s) cs).tag && (capDecode (cReg (curG s) cs)).isNone) = false := by
    rw [Bool.and_eq_false_iff, Option.isNone_eq_false_iff, Option.isSome_iff_ne_none]
    exact hc
  rw [execCseal_eq hs hd, hpass]
  exact ⟨_, rfl, capOnly_advance _ rfl hd⟩

end Cseal

/-- The part of O57 about the derivations. -/
theorem capabilityDerivations : Claim.CapabilityDerivations := by
  unfold Claim.CapabilityDerivations
  intro s b2 ss cs cd
  refine ⟨fun i hi => ?frame, fun hv hs hd hsound => ?derived, fun he => ?interlocked, fun hs hd => ⟨fun ht hc => ?format, fun hc => ?sealed⟩⟩
  case frame =>
    obtain ⟨hwf, f, hf⟩ := exec_derivation b2 ss cs cd s hi
    rw [hf]
    exact ⟨fun he _ => derive_interlocked hwf he, fun hs hd hv h => derive_unsound hwf hs hd (hv ss (List.mem_singleton_self ss)) h⟩
  case derived =>
    have hv : sIsEmpty (curG s) ss = false := hv ss (List.mem_singleton_self ss)
    refine ⟨?cmk, fun hout hne => ?widens, fun hlim hne hin => ?cbnd, fun hp => ?lacks, fun hp => ?cperm⟩
    case cmk => exact derive_ok rfl hs hd hv rfl hsound (congrArg Except.ok (capWithAddr_eq hsound _))
    case widens =>
      refine derive_error rfl hs hd hv hsound ?_
      by_cases hlim : 2 ^ 56 < (cReg (curG s) cs).addr.toNat + (sReg (curG s) ss).toNat
      · exact boundTo_past _ hlim
      · obtain ⟨p, hp⟩ := Option.ne_none_iff_exists'.mp (hne.resolve_right hlim)
        rw [boundTo_eq hsound _ hp]
        exact if_pos (.inr (hout.resolve_left hlim p hp))
    case cbnd =>
      obtain ⟨p, hp⟩ := Option.ne_none_iff_exists'.mp hne
      obtain ⟨hlo, hhi⟩ := hin p hp
      refine derive_ok rfl hs hd hv rfl hsound ((boundTo_eq hsound _ hp).trans (if_neg ?_))
      omega
    case lacks => exact derive_error rfl hs hd hv hsound (if_pos hp)
    case cperm => exact derive_ok rfl hs hd hv rfl hsound (if_neg (not_not.mpr hp))
  case interlocked => exact execCseal_interlocked he
  case format => exact execCseal_format hs hd ht hc
  case sealed => exact execCseal_ok hs hd hc

/-- Settles O57. -/
theorem capabilityBoundsAndDerivations : Obligations.CapabilityBoundsAndDerivations :=
  ⟨capabilityBounds, capabilityDerivations⟩

end Sys2Proof.Machine


/-! ## A store of the user handler to bytes of the unfinished threads (R102, R103, log 75) -/

namespace Sys2Proof.Machine

/-- The first 4 KiB of the stash, to be read and written. -/
def lowStash : Cap := capWithBounds { Cap.null with perms := 3, space := 1, tag := true } 0 0x1000

/-- A group in the user handler of a translation fault: the instruction at 0x4000000100 has a thread that has not yet accessed the four
bytes from stash address 0, since they were mapped when it faulted. The handler has unmapped them; c2 names them, and s6 holds 1. -/
def replaying : State :=
  { State.reset with
    nextId := 2, tasks := [(1, loadTask)], cur := { uid := 1, entry := 0, tick := 0 }
    groups := [(1, { loadGroup with
      c := [(2, lowStash)], s := [(6, 1)], handler := some 0
      split := [(0, { Split.free with
        valid := true, mask := 0xFFFFFFFF, pc := 0x4000000200, redoAt := some (0x4000000100, 1), redoSpots := [(0x4000000100, 1, 0, 4)] })] })] }

/-- `sst.b32 s6, [c2, s0]`. -/
def handlerStore : Instr := .sst 0 0 2 0 6 0 2

/-- The store is held back, so that the byte keeps its value. -/
theorem bankByte_handlerStore :
    (match exec handlerStore replaying with | .next t => Claim.bankByte t 0 | _ => 1) = 0 := by decide +kernel

/-- The access of the store passes every check, and meets what `Obligations.StashStores` asks of it. -/
theorem handlerStore_access : ∃ x f, Claim.accessOf replaying handlerStore = some x ∧ Claim.formOf replaying handlerStore = some f ∧
    x.addrs = [(0, 0)] ∧ x.size = 4 ∧ Claim.Readable replaying x ∧ Claim.firstFault replaying x = none ∧ Claim.Calm replaying f ∧
    Claim.InBank replaying x true ∧ isStore f.kind = true ∧ Claim.formBytes f 4 0 = [1, 0, 0, 0] :=
  ⟨_, _, rfl, rfl, by decide +kernel, by decide +kernel, by unfold Claim.Readable Claim.Full; decide +kernel, by decide +kernel,
    by unfold Claim.Calm; decide +kernel, by unfold Claim.InBank; decide +kernel, by decide +kernel, by decide +kernel⟩

/-- Refutes O20: a store of the user handler to unmapped stash bytes that the unfinished threads are still to access does not complete at
once, since it waits for them (log 75). Nothing in the statement excludes such a fragment: `Calm` speaks of the outstanding operations,
and the unfinished threads of a faulted instruction are none. -/
theorem not_stashStores : ¬Obligations.StashStores := by
  intro h
  obtain ⟨x, f, hx, hf, haddrs, hsize, hread, hpass, hcalm, hbank, hstore, hbytes⟩ := handlerStore_access
  obtain ⟨t, ht, -, -, -, -, -, -, hwritten, -⟩ :=
    h replaying handlerStore rfl x hx f hf rfl (by simp [haddrs]) hread hpass hcalm hbank (.inl hstore)
  obtain ⟨q, hq, -, -, hbyte⟩ := hwritten (0, 0) (by simp [haddrs]) 0 (by omega)
  have hkept := bankByte_handlerStore
  rw [ht] at hkept
  obtain rfl : q = (0, 0) := by simpa [haddrs] using hq
  rw [hsize, hbytes] at hbyte
  exact absurd (hkept.symm.trans hbyte) (by decide)

end Sys2Proof.Machine


/-! ## The checks of an access (R22, R23) -/

namespace Sys2Proof.Machine

/-- A check whose fault is known: a cause with its XADDR. -/
def faultX (o : Option (Cause × BitVec 56)) : X Unit :=
  match o with
  | some p => .error (.trap p.1 p.2.toNat none)
  | none => .ok ()

/-- The checks of an access in the order of R22, as the instructions make them. -/
def checksX (s : State) (x : Claim.Access) : X Unit := do
  capUse x.cap x.perms x.spaces
  faultX (x.mid.map fun p => (p.1, BitVec.ofNat 56 p.2))
  alignX x.align x.cause x.addrs
  lineX x.line x.addrs
  boundsX x.cap x.size x.addrs
  extentX s (curG s) x.cap x.size x.addrs
  (if x.writes then stashRoX s (curG s) x.cap x.addrs else .ok ())
  (if x.row && x.cap.space = 1 then eachX x.addrs (fun a => (entryAt (getC s (curG s).core) (curG s).ctx a.toNat).isNone) .atomOp else .ok ())

/-- Steps after a check need to agree only where it passes. -/
theorem bind_congr_ok {α β : Type} {x : X α} {f g : α → X β} (h : ∀ a, x = .ok a → f a = g a) : (x >>= f) = (x >>= g) := by
  cases x with
  | error e => rfl
  | ok a => exact h a rfl

theorem bind_ok_unit (x : X Unit) : (x >>= fun _ => .ok ()) = x := by cases x <;> rfl

@[simp] theorem faultX_none : faultX none = .ok () := rfl

/-- Of a list of checks the first that fails tells the fault. -/
theorem faultX_findSome (o : Option (Cause × BitVec 56)) (l : List (Option (Cause × BitVec 56))) :
    faultX ((o :: l).findSome? id) = faultX o >>= fun _ => faultX (l.findSome? id) := by
  cases o <;> rfl

/-- XADDR of a thread's address. -/
theorem addr56_eq (a : Int) : addr56 a = (BitVec.ofInt 56 a).toNat := by
  rw [addr56, BitVec.toNat_ofInt]
  rfl

/-- R22: a check of each thread's address. -/
def eachFault (l : List (Nat × Int)) (ok : Int → Bool) (k : Cause) : Option (Cause × BitVec 56) :=
  (l.find? fun p => !ok p.2).map fun p => (k, BitVec.ofInt 56 p.2)

theorem eachX_eq (l : List (Nat × Int)) (ok : Int → Bool) (k : Cause) : eachX l ok k = faultX (eachFault l ok k) := by
  unfold eachX eachFault
  cases l.find? fun p => !ok p.2 with
  | none => rfl
  | some p => exact congrArg (fun a => Except.error (Stop.trap k a none)) (addr56_eq p.2)

theorem eachFault_eq_none (l : List (Nat × Int)) (ok : Int → Bool) (k : Cause) :
    eachFault l ok k = none ↔ ∀ p ∈ l, ok p.2 = true := by
  simp [eachFault]

/-- Two checks that agree on the threads' addresses. -/
theorem eachFault_congr {l : List (Nat × Int)} {f g : Int → Bool} (k : Cause) (h : ∀ p ∈ l, f p.2 = g p.2) :
    eachFault l f k = eachFault l g k := by
  unfold eachFault
  rw [List.find?_congr fun p hp => by rw [h p hp]]

theorem faultX_eq_ok (o : Option (Cause × BitVec 56)) : faultX o = .ok () ↔ o = none := by
  cases o <;> simp [faultX]

theorem faultX_bind_eq_ok {α : Type} (o : Option (Cause × BitVec 56)) (y : X α) (a : α) :
    (faultX o >>= fun _ => y) = .ok a ↔ o = none ∧ y = .ok a := by
  cases o <;> simp [faultX]

/-- R22 steps 1 to 5. -/
theorem capUse_eq (c : Cap) (need : BitVec 7) (spaces : List Nat) : capUse c need spaces = (do
    faultX (if c.tag then none else some (.capTag, c.addr))
    faultX (if (capDecode c).isSome then none else some (.capFormat, c.addr))
    faultX (if c.sealed then some (.capSealed, c.addr) else none)
    faultX (if spaces.contains c.space.toNat then none else some (.capSpace, c.addr))
    faultX (if c.perms &&& need = need then none else some (.capPerm, c.addr))) := by
  unfold capUse capValid
  cases c.tag
  · rfl
  cases capDecode c
  · rfl
  cases c.sealed
  · cases spaces.contains c.space.toNat
    · rfl
    · by_cases hp : c.perms &&& need = need
      · simp only [hp, bne_self_eq_false]; rfl
      · simp only [hp, bne_iff_ne.mpr hp]; rfl
  · rfl

/-- The capability that steps 1 to 5 of R22 pass. -/
theorem capUse_ok {c : Cap} {need : BitVec 7} {spaces : List Nat} (h : capUse c need spaces = .ok ()) :
    spaces.contains c.space.toNat = true ∧ (capDecode c).isSome = true := by
  simp only [capUse_eq, faultX_bind_eq_ok, faultX_eq_ok, ite_eq_left_iff, reduceCtorEq, imp_false, not_not] at h
  obtain ⟨-, hd, -, hs, -⟩ := h
  exact ⟨hs, hd⟩

/-- R115: the line of an access of `.line` extent is that of its lowest thread. -/
theorem lineX_eq (on : Bool) (l : List (Nat × Int)) :
    lineX on l = faultX (if on then eachFault l (fun a => a / 128 == ((l.map fun p => p.2).headD 0) / 128) .ordLine else none) := by
  cases on
  · rfl
  · cases l with
    | nil => rfl
    | cons p l =>
      obtain ⟨k, a⟩ := p
      simp only [if_true]
      exact eachX_eq ((k, a) :: l) (fun b => b / 128 == a / 128) .ordLine

/-- R23: the bytes of an access lie in the bounds of its capability. -/
def inBounds (c : Cap) (size : Nat) (a : Int) : Bool :=
  decide ((((capDecode c).getD (0, 0)).1 : Int) ≤ a ∧ a + size ≤ ((capDecode c).getD (0, 0)).2)

theorem boundsX_eq {c : Cap} (hc : (capDecode c).isSome = true) (size : Nat) (l : List (Nat × Int)) :
    boundsX c size l = faultX (eachFault l (inBounds c size) .capBound) := by
  obtain ⟨p, hp⟩ := Option.isSome_iff_exists.mp hc
  unfold boundsX
  rw [hp]
  unfold inBounds
  simp only [hp, Option.getD_some, Bool.decide_and]
  exact eachX_eq _ _ _

/-- R7: the granules of 64 KiB that an access reaches are those of its bytes. -/
theorem granules_all_iff (P : Nat → Bool) (a size : Nat) (hsize : 0 < size) :
    ((List.range (ceilDiv (a % 65536 + size) 65536)).all fun i => P (a / 65536 + i)) = true ↔
      ∀ k < size, P ((a + k) / 2 ^ 16) = true := by
  simp only [List.all_eq_true, List.mem_range, ceilDiv]
  constructor
  · intro h k hk
    have := h ((a + k) / 65536 - a / 65536) (by omega)
    rwa [show a / 65536 + ((a + k) / 65536 - a / 65536) = (a + k) / 2 ^ 16 by omega] at this
  · intro h i hi
    have hk : ∃ k < size, (a + k) / 2 ^ 16 = a / 65536 + i := by
      by_cases h0 : i = 0
      · exact ⟨0, hsize, by omega⟩
      · exact ⟨(a / 65536 + i) * 65536 - a, by omega, by omega⟩
    obtain ⟨k, hk, he⟩ := hk
    exact he ▸ h k hk

/-- R7: the extent of a space by its granules or tiles is the extent by the bytes of the access. -/
theorem inExtent_eq (s : State) (space a size : Nat) (hsize : 0 < size)
    (htile : space = 2 → a / 0x6000 = (a + size - 1) / 0x6000) : inExtent s (curG s) space a size = Claim.inSpace s space a size := by
  rw [Bool.eq_iff_iff]
  unfold Claim.inSpace
  by_cases h1 : space = 1
  · subst h1
    have hgran := granules_all_iff (fun g => roleAt (getC s (curG s).core) g == 2) a size hsize
    simp only [inExtent, Bool.and_eq_true, decide_eq_true_iff, hgran, List.all_eq_true, List.mem_range, if_true]
    constructor
    · exact fun ⟨hle, hr⟩ k hk => ⟨by omega, hr k hk⟩
    · exact fun h => ⟨by have := (h (size - 1) (by omega)).1; omega, fun k hk => (h k hk).2⟩
  by_cases h2 : space = 2
  · subst h2
    have hone := htile rfl
    have hall : ∀ k < size, (a + k) / 0x6000 = a / 0x6000 := fun k hk => by omega
    simp only [inExtent, Bool.and_eq_true, beq_iff_eq, List.all_eq_true, List.mem_range, h1, if_false, if_true]
    constructor
    · exact fun ⟨hc, _⟩ k hk => by rw [hall k hk]; exact hc
    · exact fun h => ⟨by have := h 0 hsize; rwa [hall 0 hsize] at this, hone⟩
  · simp [inExtent, h1, h2]

/-- R73: an address is not that of a stash word mapped to be read only. -/
def writable (s : State) (g : Group) (c : Cap) (a : Int) : Bool := c.space ≠ 1 || (entryAt (getC s g.core) g.ctx a.toNat).all fun e => e.2.rwm

/-- R73: only words of the stash are refused as read-only. -/
theorem stashRoX_eq (s : State) (g : Group) (c : Cap) (l : List (Nat × Int)) : stashRoX s g c l = faultX (eachFault l (writable s g c) .stashRo) := by
  unfold writable
  by_cases hc : c.space = 1
  · simp only [stashRoX, hc, ne_eq, not_true_eq_false, if_false, decide_false, Bool.false_or, eachX_eq]
  · rw [(eachFault_eq_none _ _ _).mpr fun _ _ => by rw [decide_eq_true hc, Bool.true_or]]
    exact if_pos hc

theorem faultX_ite (p : Prop) [Decidable p] (o : Option (Cause × BitVec 56)) :
    faultX (if p then o else none) = if p then faultX o else .ok () := by
  split_ifs <;> rfl

/-- The checks of `Claim.firstFault`, one by one. -/
theorem faultX_firstFault (s : State) (x : Claim.Access) : faultX (Claim.firstFault s x) = (do
    capUse x.cap x.perms x.spaces
    faultX (x.mid.map fun p => (p.1, BitVec.ofNat 56 p.2))
    alignX x.align x.cause x.addrs
    lineX x.line x.addrs
    faultX (eachFault x.addrs (inBounds x.cap x.size) .capBound)
    faultX (eachFault x.addrs (fun a => Claim.inSpace s x.cap.space.toNat a.toNat x.size) .spaceRange)
    faultX (if x.writes then eachFault x.addrs (writable s (curG s) x.cap) .stashRo else none)
    faultX (if x.row && x.cap.space = 1 then eachFault x.addrs (fun a => (entryAt (getC s (curG s).core) (curG s).ctx a.toNat).isNone) .atomOp
      else none)) := by
  simp only [capUse_eq, alignX, eachX_eq, lineX_eq, bind_assoc]
  unfold Claim.firstFault
  simp only [faultX_findSome, List.findSome?_nil, faultX_none, bind_ok_unit]
  rfl

/-- What is asked of an access so that the model's checks tell the fault of R22: it has bytes, and accesses of tiles are those of `tld` and
`tst`. -/
def Checkable (x : Claim.Access) : Prop := 0 < x.size ∧ (x.spaces.contains 2 = true → x.size = 4 ∧ x.align = 4)

/-- An access of a tile that is aligned lies in one tile. -/
theorem one_tile {x : Claim.Access} (hx : Checkable x) (hs : x.spaces.contains x.cap.space.toNat = true) {a : Int}
    (halign : (a % x.align == 0) = true) (h2 : x.cap.space.toNat = 2) :
    a.toNat / 0x6000 = (a.toNat + x.size - 1) / 0x6000 := by
  rw [h2] at hs
  obtain ⟨hsize, halign4⟩ := hx.2 hs
  rw [halign4, beq_iff_eq] at halign
  rw [hsize]
  omega

/-- The checks that the instructions make find the fault that `Claim.firstFault` names. -/
theorem checksX_eq {s : State} {x : Claim.Access} (hx : Checkable x) : checksX s x = faultX (Claim.firstFault s x) := by
  rw [faultX_firstFault]
  refine bind_congr_ok fun _ huse => bind_congr_ok fun _ _ => bind_congr_ok fun _ halign => bind_congr_ok fun _ _ => ?_
  obtain ⟨hspace, hdec⟩ := capUse_ok huse
  rw [alignX, eachX_eq, faultX_eq_ok, eachFault_eq_none] at halign
  rw [boundsX_eq hdec]
  refine bind_congr_ok fun _ _ => ?_
  have hext : ∀ p ∈ x.addrs, inExtent s (curG s) x.cap.space.toNat p.2.toNat x.size = Claim.inSpace s x.cap.space.toNat p.2.toNat x.size := by
    intro p hp
    exact inExtent_eq s _ _ _ hx.1 (one_tile hx hspace (halign p hp))
  rw [extentX, eachX_eq, eachFault_congr (g := fun a => Claim.inSpace s x.cap.space.toNat a.toNat x.size) _ hext, stashRoX_eq, eachX_eq]
  simp only [faultX_ite]

end Sys2Proof.Machine


/-! ## The instructions that access memory make the checks first -/

namespace Sys2Proof.Machine

/-- The instruction makes the checks of its access before any thread performs anything; with no active thread it only moves on. -/
def ChecksFirst (s : State) (i : Instr) (x : Claim.Access) : Prop :=
  Checkable x ∧ (codeOf i).len = 4 ∧ (x.addrs ≠ [] → ∃ rest, exec i s = commit i s (checksX s x >>= rest)) ∧
    (x.addrs = [] → exec i s = .next (advance i s))

theorem raised_of_checksFirst {s : State} {i : Instr} {x : Claim.Access} (h : ChecksFirst s i x) (hne : x.addrs ≠ [])
    {p : Cause × BitVec 56} (hp : Claim.firstFault s x = some p) : exec i s = .next (Claim.raised s i p.1 p.2 none) := by
  obtain ⟨hx, -, hexec, -⟩ := h
  obtain ⟨rest, hrest⟩ := hexec hne
  rw [hrest, checksX_eq hx, hp]
  exact (commit_trap i s p.1 p.2.toNat none).trans (by rw [BitVec.ofNat_toNat, BitVec.setWidth_eq])

section
variable {s : State} {i : Instr} {x x' : Claim.Access} {p : Prop} [Decidable p]

/-- An instruction that makes the checks of its access in any case. -/
theorem checksFirst_always (hx : Checkable x) (hlen : (codeOf i).len = 4) (hne : x.addrs ≠ [])
    (hexec : ∃ rest, exec i s = commit i s (checksX s x >>= rest)) : ChecksFirst s i x :=
  ⟨hx, hlen, fun _ => hexec, fun h => absurd h hne⟩

/-- An instruction that makes them unless it has no active thread. -/
theorem checksFirst_of (hx : Checkable x) (hlen : (codeOf i).len = 4) (hp : x.addrs = [] ↔ p) (hx' : ¬p → x' = x)
    (hexec : ∃ rest, exec i s = commit i s (if p then .ok (advance i s) else checksX s x' >>= rest)) : ChecksFirst s i x := by
  obtain ⟨rest, hexec⟩ := hexec
  refine ⟨hx, hlen, fun hne => ⟨rest, ?_⟩, fun h => ?_⟩
  · have hnp : ¬p := fun h => hne (hp.mpr h)
    rw [hexec, if_neg hnp, hx' hnp]
  · rw [hexec, if_pos (hp.mp h), commit_ok]

/-- The same of one that ends in `commitNext`. -/
theorem checksFirst_of_next (hx : Checkable x) (hlen : (codeOf i).len = 4) (hp : x.addrs = [] ↔ p)
    (hexec : ∃ rest, exec i s = commitNext i s (if p then .ok s else checksX s x >>= rest)) : ChecksFirst s i x := by
  obtain ⟨rest, hexec⟩ := hexec
  refine checksFirst_of hx hlen hp (fun _ => rfl) ⟨fun u => (rest u).map (advance i), ?_⟩
  rw [hexec, commitNext]
  split_ifs
  · rfl
  · cases checksX s x <;> rfl

end

/-! Operands that are usable. -/

theorem nameX_ok {g : Group} {r : Nat} (h : r < g.top ∧ r < g.nNames ∧ vIsEmpty g r = false) : nameX g r = .ok () := by
  rw [nameX, if_neg (by omega), if_neg (by omega)]

theorem forM_ok {α : Type} {l : List α} {f : α → X Unit} (h : ∀ a ∈ l, f a = .ok ()) : l.forM f = .ok () := by
  induction l with
  | nil => rfl
  | cons a l ih =>
    rw [List.forM, h a List.mem_cons_self, ok_bind]
    exact ih fun b hb => h b (List.mem_cons_of_mem a hb)

theorem readSrc_ok {g : Group} {x : Src} (h : vIsEmpty g x.reg = false) (h2 : x.pair = true → vIsEmpty g (x.reg + 1) = false) :
    readSrc g x = .ok (vReg g x.reg, if x.pair then vReg g (x.reg + 1) else .u 0) := by
  unfold readSrc emptyName
  cases hp : x.pair with
  | false => simp [h]
  | true => simp [h, h2 hp]

theorem dstV_ok {g : Group} {r : Nat} {pair : Bool} (h : vIsEmpty g r = false) (h2 : pair = true → vIsEmpty g (r + 1) = false) :
    dstV g r pair = .ok () := by
  unfold dstV emptyName
  cases pair with
  | false => simp [h]
  | true => simp [h, h2 rfl]

theorem threadsOf_eq_nil {a : Word} : threadsOf a = [] ↔ a = 0 := by
  constructor
  · intro h
    refine BitVec.eq_of_getLsbD_eq fun k hk => ?_
    have := List.filter_eq_nil_iff.mp h k (List.mem_range.mpr hk)
    simpa using this
  · rintro rfl
    exact List.filter_eq_nil_iff.mpr fun k _ => by simp

theorem vecAt_eq_nil {s : State} {m : BitVec 2} {c : Cap} {vo : Nat} :
    Claim.vecAt s m c vo = [] ↔ activeMask (curG s) (curF s) m.toNat = 0 := by
  rw [Claim.vecAt, List.map_eq_nil_iff, threadsOf_eq_nil]

theorem oneAt_ne_nil {s : State} {c : Cap} {so : BitVec 6} {k : Nat} : Claim.oneAt s c so k ≠ [] := List.cons_ne_nil _ _

theorem someAt_oneAt_eq_nil {s : State} {a : Word} {c : Cap} {so : BitVec 6} {k : Nat} :
    Claim.someAt a (Claim.oneAt s c so k) = [] ↔ a = 0 := by
  unfold Claim.someAt
  split_ifs with h
  · exact iff_of_true rfl h
  · exact iff_of_false oneAt_ne_nil h

/-- A loaded or stored vector register: one name, or a pair that begins at an even one. -/
structure Usable (g : Group) (r : Nat) (pair : Bool) : Prop where
  name : r < g.top ∧ r < g.nNames ∧ vIsEmpty g r = false
  next : pair = true → (r + 1 < g.top ∧ r + 1 < g.nNames ∧ vIsEmpty g (r + 1) = false) ∧ r % 2 = 0

theorem regsX_ok {g : Group} {l : List (Nat × Bool)} (h : ∀ p ∈ l, Usable g p.1 p.2) : regsX g l = .ok () := by
  unfold regsX
  rw [forM_ok fun p hp => nameX_ok (h p hp).name, ok_bind, forM_ok, ok_bind, forM_ok]
  · intro p hp
    split_ifs with hpair
    · exact nameX_ok ((h p hp).next hpair).1
    · rfl
  · intro p hp
    split_ifs with hpair
    · exact needX_ok _ (by simpa using ((h p hp).next hpair).2)
    · rfl

theorem Usable.readSrc {g : Group} {r : Nat} {pair bang : Bool} (h : Usable g r pair) :
    readSrc g { reg := r, pair, bang } = .ok (vReg g r, if pair then vReg g (r + 1) else .u 0) :=
  readSrc_ok h.name.2.2 fun hp => (h.next hp).1.2.2

/-- An instruction that is not executed again takes its offsets from a register that holds values. -/
theorem readOff_ok {s : State} {vo : Src} {d : Dest} (hr : (curF s).redo = none) : readOff s vo d = readSrc (curG s) vo := by
  simp [readOff, reexecuting, hr]

theorem destFree_vec {s : State} {vd : BitVec 6} {pair : Bool} (h : Usable (curG s) vd.toNat pair) :
    destFree s (if pair then .pair vd else .vec vd) = .ok () := by
  unfold destFree
  cases pair with
  | false =>
    split
    · rfl
    · exact dstV_ok h.name.2.2 nofun
  | true =>
    split
    · rfl
    · exact dstV_ok h.name.2.2 fun _ => (h.next rfl).1.2.2

/-! Loads and stores. -/

section
variable {s : State} {x : Claim.Access}

theorem checksX_load (hmid : x.mid = none) (hw : x.writes = false) (hrow : x.row = false) :
    checksX s x = memChecks s x.cap x.perms x.spaces x.align x.cause x.size x.line x.addrs := by
  simp [checksX, memChecks, hmid, hw, hrow, bind_ok_unit]

theorem checksX_store (hmid : x.mid = none) (hw : x.writes = true) (hrow : x.row = false) :
    checksX s x = (memChecks s x.cap x.perms x.spaces x.align x.cause x.size x.line x.addrs >>= fun _ =>
      stashRoX s (curG s) x.cap x.addrs) := by
  simp [checksX, memChecks, hmid, hw, hrow, bind_ok_unit]

end

/-- The names of a vector operand, and what its first one is to be a multiple of. -/
def pairNames (r : Nat) (pair : Bool) : List Nat := if pair then [r, r + 1] else [r]
def pairEven (r : Nat) (pair : Bool) : List (Nat × Nat) := if pair then [(r, 2)] else []

theorem usable_of {g : Group} {r : Nat} {pair : Bool} (h : ∀ n ∈ pairNames r pair, n < g.top ∧ n < g.nNames ∧ vIsEmpty g n = false)
    (he : ∀ p ∈ pairEven r pair, p.1 % p.2 = 0) : Usable g r pair := by
  cases pair with
  | false => exact ⟨h r (by simp [pairNames]), nofun⟩
  | true => exact ⟨h r (by simp [pairNames]), fun _ => ⟨h (r + 1) (by simp [pairNames]), he (r, 2) (by simp [pairEven])⟩⟩

/-- The operands that a memory instruction names, and its access from its checks. -/
def loadAccess (s : State) (m : BitVec 2) (cap : BitVec 4) (vo vd : BitVec 6) (w : BitVec 3) (line : Bool) : Claim.Access :=
  { Claim.plain (cReg (curG s) cap) cap Claim.pR [0, 1, 3, 5] (Claim.vecBytes w.toNat) line (Claim.vecAt s m (cReg (curG s) cap) vo.toNat) with
    vecs := vo.toNat :: pairNames vd.toNat (w == 5), evens := pairEven vd.toNat (w == 5) }

def storeAccess (s : State) (m : BitVec 2) (cap : BitVec 4) (vo vd : BitVec 6) (w : BitVec 2) (line : Bool) : Claim.Access :=
  { Claim.plain (cReg (curG s) cap) cap (Claim.pR ||| Claim.pW) [0, 1, 3] (2 ^ w.toNat) line
      (Claim.vecAt s m (cReg (curG s) cap) vo.toNat) with
    vecs := vo.toNat :: pairNames vd.toNat (w == 3), evens := pairEven vd.toNat (w == 3) }

theorem loadSize_eq : ∀ w : BitVec 3, loadSize w.toNat = Claim.vecBytes w.toNat := by decide
theorem vecBytes_pos : ∀ w : BitVec 3, 0 < Claim.vecBytes w.toNat := by decide
theorem toNat_beq_five : ∀ w : BitVec 3, (w.toNat == 5) = (w == 5) := by decide

section
variable {s : State} {i : Instr}

/-- R300: `vld`, `vld.acq` and `vld.nt`. -/
theorem vload_checksFirst {m : BitVec 2} {bo : BitVec 1} {cap : BitVec 4} {vo vd : BitVec 6} {w : BitVec 3} {lease : Nat} {nt : Bool} {od : Order}
    (hwf : i.WellFormed) (hlen : (codeOf i).len = 4) (hexec : exec i s = vload i m (src32 vo bo) vd w.toNat cap lease nt od s)
    (hread : Claim.Readable s (loadAccess s m cap vo vd w od.line)) : ChecksFirst s i (loadAccess s m cap vo vd w od.line) := by
  obtain ⟨hvecs, hevens, -, hcaps, hredo⟩ := hread
  have hcap : cIsEmpty (curG s) cap = false := hcaps cap List.mem_cons_self
  have hvo : Usable (curG s) vo.toNat false := ⟨hvecs _ List.mem_cons_self, nofun⟩
  have hvd : Usable (curG s) vd.toNat (w == 5) := usable_of (fun n hn => hvecs n (List.mem_cons_of_mem _ hn)) hevens
  have hregs : regsX (curG s) [(vo.toNat, false), (vd.toNat, w == 5)] = .ok () :=
    regsX_ok (List.forall_mem_cons.mpr ⟨hvo, List.forall_mem_singleton.mpr hvd⟩)
  refine checksFirst_of ⟨vecBytes_pos w, nofun⟩ hlen vecAt_eq_nil (fun _ => rfl) ?_
  rw [hexec, vload, toNat_beq_five, checksX_load rfl rfl rfl, loadSize_eq]
  simp only [checkField_ok hwf, ok_bind, src32, hregs, srcC_ok hcap, readOff_ok hredo, hvo.readSrc, destFree_vec hvd]
  exact ⟨_, rfl⟩

/-- R301: `vst`, `vst.rel` and `vst.nt`. -/
theorem vstore_checksFirst {m : BitVec 2} {bo bd : BitVec 1} {cap : BitVec 4} {vo vd : BitVec 6} {w : BitVec 2} {nt sig : Bool} {od : Order}
    (hwf : i.WellFormed) (hlen : (codeOf i).len = 4)
    (hexec : exec i s = vstore i m (src32 vo bo) (storeSrc vd bd w) w.toNat cap nt sig od s)
    (hread : Claim.Readable s (storeAccess s m cap vo vd w od.line)) : ChecksFirst s i (storeAccess s m cap vo vd w od.line) := by
  obtain ⟨hvecs, hevens, -, hcaps, -⟩ := hread
  have hcap : cIsEmpty (curG s) cap = false := hcaps cap List.mem_cons_self
  have hvo : Usable (curG s) vo.toNat false := ⟨hvecs _ List.mem_cons_self, nofun⟩
  have hvd : Usable (curG s) vd.toNat (w == 3) := usable_of (fun n hn => hvecs n (List.mem_cons_of_mem _ hn)) hevens
  have hregs : regsX (curG s) [(vo.toNat, false), (vd.toNat, w == 3)] = .ok () :=
    regsX_ok (List.forall_mem_cons.mpr ⟨hvo, List.forall_mem_singleton.mpr hvd⟩)
  refine checksFirst_of ⟨Nat.two_pow_pos w.toNat, nofun⟩ hlen vecAt_eq_nil (fun _ => rfl) ?_
  rw [hexec, vstore, checksX_store rfl rfl rfl]
  simp only [bind_assoc, checkField_ok hwf, ok_bind, src32, storeSrc, hregs, srcC_ok hcap, hvo.readSrc, hvd.readSrc]
  exact ⟨_, rfl⟩

/-- R304: `lds`. -/
theorem lds_checksFirst {m lsel bo cap so vd w x} (hwf : (Instr.lds m lsel bo cap so vd w).WellFormed)
    (hx : Claim.accessOf s (.lds m lsel bo cap so vd w) = some x) (hread : Claim.Readable s x) :
    ChecksFirst s (.lds m lsel bo cap so vd w) x := by
  cases hx
  obtain ⟨hvecs, hevens, hscal, hcaps, hredo⟩ := hread
  have hcap : cIsEmpty (curG s) cap = false := hcaps cap List.mem_cons_self
  have hso : sIsEmpty (curG s) so = false := hscal so List.mem_cons_self
  have hvd : Usable (curG s) vd.toNat (w == 5) := usable_of hvecs hevens
  have hregs : regsX (curG s) [(vd.toNat, w == 5)] = .ok () := regsX_ok (List.forall_mem_singleton.mpr hvd)
  refine checksFirst_of (x' := { Claim.plain (cReg (curG s) cap) cap Claim.pR [0, 1, 3, 5] (Claim.vecBytes w.toNat) false
    (Claim.oneAt s (cReg (curG s) cap) so 0) with vecs := pairNames vd.toNat (w == 5), evens := pairEven vd.toNat (w == 5), scal := [so] })
    ⟨vecBytes_pos w, nofun⟩ rfl someAt_oneAt_eq_nil (fun h => by rw [Claim.someAt, if_neg h]; rfl) ?_
  rw [show exec (.lds m lsel bo cap so vd w) s = execLds m lsel bo cap so vd w s from rfl, execLds, checksX_load rfl rfl rfl, loadSize_eq]
  simp only [checkField_ok hwf, ok_bind, hregs, srcC_ok hcap, srcS_ok _ hso, destFree_vec hvd]
  exact ⟨_, rfl⟩

end

end Sys2Proof.Machine


/-! ## Scalar addresses, prefetches and tiles -/

namespace Sys2Proof.Machine

theorem loadSize_scalar : ∀ w : BitVec 3, loadSize (8 + w.toNat) = Claim.scaBytes w.toNat := by decide
theorem scaBytes_pos : ∀ w : BitVec 3, 0 < Claim.scaBytes w.toNat := by decide

theorem destFree_scalar {s : State} {r : BitVec 6} (h : sIsEmpty (curG s) r = false) :
    destFree s (if r = 0 then .none else .scalar r) = .ok () := by
  unfold destFree
  split
  · rfl
  · split_ifs
    · rfl
    · exact dstS_ok h

theorem destFree_capreg {s : State} {r : BitVec 4} (h : cIsEmpty (curG s) r = false) : destFree s (.capreg r) = .ok () := by
  simp [destFree, h]

section
variable {s : State}

/-- R304: `sts`. -/
theorem sts_checksFirst {m bd bo cap so vd sg w x} (hwf : (Instr.sts m bd bo cap so vd sg w).WellFormed)
    (hx : Claim.accessOf s (.sts m bd bo cap so vd sg w) = some x) (hread : Claim.Readable s x) :
    ChecksFirst s (.sts m bd bo cap so vd sg w) x := by
  cases hx
  obtain ⟨hvecs, hevens, hscal, hcaps, -⟩ := hread
  have hcap : cIsEmpty (curG s) cap = false := hcaps cap List.mem_cons_self
  have hso : sIsEmpty (curG s) so = false := hscal so List.mem_cons_self
  have hvd : Usable (curG s) vd.toNat (w == 3) := usable_of hvecs hevens
  have hregs : regsX (curG s) [(vd.toNat, w == 3)] = .ok () := regsX_ok (List.forall_mem_singleton.mpr hvd)
  refine checksFirst_of (x' := { Claim.plain (cReg (curG s) cap) cap (Claim.pR ||| Claim.pW) [0, 1, 3] (2 ^ w.toNat) false
    (Claim.oneAt s (cReg (curG s) cap) so (lowest (activeMask (curG s) (curF s) m.toNat))) with
      vecs := pairNames vd.toNat (w == 3), evens := pairEven vd.toNat (w == 3), scal := [so] })
    ⟨Nat.two_pow_pos w.toNat, nofun⟩ rfl someAt_oneAt_eq_nil (fun h => by rw [Claim.someAt, if_neg h]; rfl) ?_
  rw [show exec (.sts m bd bo cap so vd sg w) s = execSts m bd bo cap so vd sg w s from rfl, execSts, checksX_store rfl rfl rfl]
  simp only [bind_assoc, checkField_ok hwf, ok_bind, storeSrc, hregs, srcC_ok hcap, srcS_ok _ hso, hvd.readSrc]
  exact ⟨_, rfl⟩

/-- R258, R259: `sld`. -/
theorem sld_checksFirst {ord scope cap so sd w x} (hwf : (Instr.sld ord scope cap so sd w).WellFormed)
    (hx : Claim.accessOf s (.sld ord scope cap so sd w) = some x) (hread : Claim.Readable s x) :
    ChecksFirst s (.sld ord scope cap so sd w) x := by
  cases hx
  obtain ⟨-, -, hscal, hcaps, -⟩ := hread
  have hcap : cIsEmpty (curG s) cap = false := hcaps cap List.mem_cons_self
  have hso : sIsEmpty (curG s) so = false := hscal so List.mem_cons_self
  have hsd : sIsEmpty (curG s) sd = false := hscal sd (List.mem_cons_of_mem _ List.mem_cons_self)
  refine checksFirst_always ⟨scaBytes_pos w, nofun⟩ rfl oneAt_ne_nil ?_
  rw [show exec (.sld ord scope cap so sd w) s = execSld ord scope cap so sd w s from rfl, execSld, checksX_load rfl rfl rfl, loadSize_scalar]
  simp only [checkField_ok hwf, ok_bind, srcC_ok hcap, srcS_ok _ hso, destFree_scalar hsd]
  exact ⟨_, rfl⟩

/-- R258, R259: `sst`. -/
theorem sst_checksFirst {ord scope cap so ss sg w x} (hwf : (Instr.sst ord scope cap so ss sg w).WellFormed)
    (hx : Claim.accessOf s (.sst ord scope cap so ss sg w) = some x) (hread : Claim.Readable s x) :
    ChecksFirst s (.sst ord scope cap so ss sg w) x := by
  cases hx
  obtain ⟨-, -, hscal, hcaps, -⟩ := hread
  have hcap : cIsEmpty (curG s) cap = false := hcaps cap List.mem_cons_self
  have hso : sIsEmpty (curG s) so = false := hscal so List.mem_cons_self
  have hss : sIsEmpty (curG s) ss = false := hscal ss (List.mem_cons_of_mem _ List.mem_cons_self)
  refine checksFirst_always ⟨Nat.two_pow_pos w.toNat, nofun⟩ rfl oneAt_ne_nil ?_
  rw [show exec (.sst ord scope cap so ss sg w) s = execSst ord scope cap so ss sg w s from rfl, execSst, checksX_store rfl rfl rfl]
  simp only [bind_assoc, checkField_ok hwf, ok_bind, srcC_ok hcap, srcS_ok _ hso, srcS_ok _ hss]
  exact ⟨_, rfl⟩

/-- R305: `pfch`. -/
theorem pfch_checksFirst {m lsel bo cap vo x} (hwf : (Instr.pfch m lsel bo cap vo).WellFormed)
    (hx : Claim.accessOf s (.pfch m lsel bo cap vo) = some x) (hread : Claim.Readable s x) :
    ChecksFirst s (.pfch m lsel bo cap vo) x := by
  cases hx
  obtain ⟨hvecs, -, -, hcaps, -⟩ := hread
  have hcap : cIsEmpty (curG s) cap = false := hcaps cap List.mem_cons_self
  have hvo : Usable (curG s) vo.toNat false := ⟨hvecs _ List.mem_cons_self, nofun⟩
  have hregs : regsX (curG s) [(vo.toNat, false)] = .ok () := regsX_ok (List.forall_mem_singleton.mpr hvo)
  refine checksFirst_of_next ⟨Nat.one_pos, nofun⟩ rfl List.isEmpty_iff.symm ?_
  rw [show exec (.pfch m lsel bo cap vo) s = execPfch m lsel bo cap vo s from rfl, execPfch, checksX_load rfl rfl rfl]
  simp only [checkField_ok hwf, ok_bind, src32, hregs, srcC_ok hcap, hvo.readSrc]
  exact ⟨_, rfl⟩

/-- R306: `tld`. -/
theorem tld_checksFirst {m bo cap vo vd x} (hwf : (Instr.tld m bo cap vo vd).WellFormed)
    (hx : Claim.accessOf s (.tld m bo cap vo vd) = some x) (hread : Claim.Readable s x) :
    ChecksFirst s (.tld m bo cap vo vd) x := by
  cases hx
  obtain ⟨hvecs, -, -, hcaps, -⟩ := hread
  have hcap : cIsEmpty (curG s) cap = false := hcaps cap List.mem_cons_self
  have hvo : Usable (curG s) vo.toNat false := ⟨hvecs _ List.mem_cons_self, nofun⟩
  have hvd : Usable (curG s) vd.toNat false := ⟨hvecs _ (List.mem_cons_of_mem _ List.mem_cons_self), nofun⟩
  have hregs : regsX (curG s) [(vo.toNat, false), (vd.toNat, false)] = .ok () :=
    regsX_ok (List.forall_mem_cons.mpr ⟨hvo, List.forall_mem_singleton.mpr hvd⟩)
  have hfree : destFree s (.vec vd) = .ok () := destFree_vec hvd
  refine checksFirst_of_next ⟨Nat.succ_pos _, fun _ => ⟨rfl, rfl⟩⟩ rfl vecAt_eq_nil ?_
  rw [show exec (.tld m bo cap vo vd) s = execTld m bo cap vo vd s from rfl, execTld, checksX_load rfl rfl rfl]
  simp only [checkField_ok hwf, ok_bind, src32, hregs, srcC_ok hcap, hvo.readSrc, hfree]
  exact ⟨_, rfl⟩

/-- An access of tiles reaches no stash word. -/
theorem checksX_tile {x : Claim.Access} (hsp : x.spaces = [2]) (hmid : x.mid = none) (hrow : x.row = false) :
    checksX s x = memChecks s x.cap x.perms x.spaces x.align x.cause x.size x.line x.addrs := by
  simp only [checksX, memChecks, hmid, hrow, Option.map_none, faultX_none, ok_bind, Bool.false_and, Bool.false_eq_true, if_false,
    bind_ok_unit]
  refine bind_congr_ok fun _ huse => ?_
  have hne : x.cap.space ≠ 1 := by
    intro h
    have := (capUse_ok huse).1
    rw [hsp, h] at this
    exact absurd this (by decide)
  simp only [stashRoX, if_pos hne, ite_self, bind_ok_unit]

/-- R306: `tst`. -/
theorem tst_checksFirst {m bd bo cap vo vd x} (hwf : (Instr.tst m bd bo cap vo vd).WellFormed)
    (hx : Claim.accessOf s (.tst m bd bo cap vo vd) = some x) (hread : Claim.Readable s x) :
    ChecksFirst s (.tst m bd bo cap vo vd) x := by
  cases hx
  obtain ⟨hvecs, -, -, hcaps, -⟩ := hread
  have hcap : cIsEmpty (curG s) cap = false := hcaps cap List.mem_cons_self
  have hvo : Usable (curG s) vo.toNat false := ⟨hvecs _ List.mem_cons_self, nofun⟩
  have hvd : Usable (curG s) vd.toNat false := ⟨hvecs _ (List.mem_cons_of_mem _ List.mem_cons_self), nofun⟩
  have hregs : regsX (curG s) [(vo.toNat, false), (vd.toNat, false)] = .ok () :=
    regsX_ok (List.forall_mem_cons.mpr ⟨hvo, List.forall_mem_singleton.mpr hvd⟩)
  refine checksFirst_of_next ⟨Nat.succ_pos _, fun _ => ⟨rfl, rfl⟩⟩ rfl vecAt_eq_nil ?_
  rw [show exec (.tst m bd bo cap vo vd) s = execTst m bd bo cap vo vd s from rfl, execTst, checksX_tile rfl rfl rfl]
  simp only [checkField_ok hwf, ok_bind, src32, hregs, srcC_ok hcap, hvo.readSrc, hvd.readSrc]
  exact ⟨_, rfl⟩

/-- R309, R310: `cld`. -/
theorem cld_checksFirst {bo cap so cd x} (hwf : (Instr.cld bo cap so cd).WellFormed)
    (hx : Claim.accessOf s (.cld bo cap so cd) = some x) (hread : Claim.Readable s x) : ChecksFirst s (.cld bo cap so cd) x := by
  cases hx
  obtain ⟨-, -, hscal, hcaps, -⟩ := hread
  have hcap : cIsEmpty (curG s) cap = false := hcaps cap List.mem_cons_self
  have hcd : cIsEmpty (curG s) cd = false := hcaps cd (List.mem_cons_of_mem _ List.mem_cons_self)
  have hso : sIsEmpty (curG s) so = false := hscal so List.mem_cons_self
  refine checksFirst_always ⟨Nat.succ_pos _, nofun⟩ rfl oneAt_ne_nil ?_
  rw [show exec (.cld bo cap so cd) s = execCld bo cap so cd s from rfl, execCld, checksX_load rfl rfl rfl]
  simp only [checkField_ok hwf, ok_bind, srcC_ok hcap, srcS_ok _ hso, destFree_capreg hcd]
  exact ⟨_, rfl⟩

end

end Sys2Proof.Machine


/-! ## Atomics and the store of a capability -/

namespace Sys2Proof.Machine

theorem aopSize_eq (a : AOp) : aopSize a = Claim.aopBytes a := by cases a <;> rfl
theorem aopHost_eq (a : AOp) : aopHost a = Claim.onHost a := by cases a <;> rfl

theorem atomPerms_eq : ∀ f : BitVec 1, atomPerms (f == 1) = Claim.pA ||| Claim.pW ||| (if f = 1 then Claim.pR else 0) := by decide
theorem atomPerms_ne_pR : ∀ f : BitVec 1, (Claim.pA ||| Claim.pW ||| (if f = 1 then Claim.pR else 0) != Claim.pR) = true := by decide

theorem addr56_lt (a : Int) : addr56 a < 2 ^ 56 := by unfold addr56; omega

theorem faultX_trapAt {c : Cause} {n : Nat} (h : n < 2 ^ 56) : faultX (some (c, BitVec.ofNat 56 n)) = trapAt c n :=
  congrArg (fun a => Except.error (Stop.trap c a none)) (Nat.mod_eq_of_lt h)

/-- R134: the checks on an atomic through a host-space capability. -/
theorem hostAtomX_eq (s : State) (c : Cap) (a : AOp) (l : List (Nat × Int)) :
    hostAtomX s c (aopHost a) l = faultX ((Claim.hostCheck s c a l).map fun p => (p.1, BitVec.ofNat 56 p.2)) := by
  have htrap (k : Cause) : trapAt k (addr56 ((l.map fun p => p.2).headD 0)) =
      faultX (some (k, BitVec.ofNat 56 ((l.map Prod.snd).headD 0 % 2 ^ 56).toNat)) := (faultX_trapAt (addr56_lt _)).symm
  rw [aopHost_eq]
  unfold hostAtomX Claim.hostCheck
  by_cases hsp : c.space ≠ 3
  · rw [if_pos hsp, if_pos hsp]
    rfl
  · simp only [if_neg hsp, htrap, hostAtomics]
    cases Claim.onHost a
    · rfl
    · cases (getDie s (dieOf (curG s).core)).atomicOp <;> rfl

/-- The access of an atomic to one address for each thread, or to one. -/
def atomAccess (s : State) (cap : BitVec 4) (a : AOp) (f : BitVec 1) (l : List (Nat × Int)) : Claim.Access :=
  let c := cReg (curG s) cap
  { Claim.plain c cap (Claim.pA ||| Claim.pW ||| (if f = 1 then Claim.pR else 0)) [0, 1, 3] (Claim.aopBytes a) false l with
    mid := Claim.hostCheck s c a l, cause := .atomAlign }

theorem checksX_atom (s : State) (cap : BitVec 4) (a : AOp) (f : BitVec 1) (l : List (Nat × Int)) :
    checksX s (atomAccess s cap a f l) = atomChecks s (cReg (curG s) cap) (f == 1) (aopHost a) [0, 1, 3] (aopSize a) l := by
  unfold checksX atomChecks
  rw [hostAtomX_eq, atomPerms_eq, aopSize_eq]
  simp only [atomAccess, Claim.plain, atomPerms_ne_pR, lineX_eq, Bool.false_and, Bool.false_eq_true, if_false, if_true, faultX_none, ok_bind,
    bind_ok_unit]

/-- How many names the operand and the expected value of an atomic take. -/
def atomCount (a : AOp) : Nat := match a with | .cas 8 => 4 | .cas _ => 2 | _ => Claim.aopBytes a / 4

theorem atomCount_of_not_cas {a : AOp} (h : ∀ n, a = .cas n → False) : atomCount a = aopSize a / 4 := by
  unfold atomCount
  split
  · exact (h _ rfl).elim
  · exact (h _ rfl).elim
  · rw [aopSize_eq]

theorem atomNames_eq {a : AOp} (ha : aopSize a = 4 ∨ aopSize a = 8) (d : Nat) :
    atomNames a d = (List.range (atomCount a)).map (d + ·) := by
  unfold atomNames
  split
  case h_1 => rfl
  case h_2 n hn =>
    obtain rfl : n = 4 := ha.resolve_right hn
    rfl
  case h_3 h8 hcas =>
    rw [atomCount_of_not_cas hcas]
    rcases ha with h | h <;> rw [h] <;> rfl

theorem atomCount_pos {a : AOp} (ha : aopSize a = 4 ∨ aopSize a = 8) : 0 < atomCount a := by
  unfold atomCount
  split
  · decide
  · decide
  · rw [← aopSize_eq]
    rcases ha with h | h <;> rw [h] <;> decide

theorem atomRegs_ok {g : Group} {a : AOp} {vo d : Nat} (ha : aopSize a = 4 ∨ aopSize a = 8) (hvo : nameX g vo = .ok ())
    (hnames : ∀ r ∈ (List.range (atomCount a)).map (d + ·), nameX g r = .ok ()) (hd : d % atomCount a = 0) :
    atomRegs g a (some vo) d = .ok () := by
  have hfirst : nameX g d = .ok () := hnames d (List.mem_map.mpr ⟨0, List.mem_range.mpr (atomCount_pos ha), rfl⟩)
  simp only [atomRegs, atomNames_eq ha, List.length_map, List.length_range, hd, Option.toList_some, ok_bind, beq_self_eq_true, needX_true,
    forM_ok hnames, hfirst, forM_ok (List.forall_mem_singleton.mpr hvo)]

theorem atomSrc_ok {s : State} {g : Group} {r : Nat} (own : Bool) (h : vIsEmpty g r = false) : atomSrc s g own r = .ok (vReg g r) := by
  simp [atomSrc, h]

theorem mapM_ok {α β : Type} {l : List α} {f : α → X β} {v : α → β} (h : ∀ a ∈ l, f a = .ok (v a)) : l.mapM f = .ok (l.map v) := by
  induction l with
  | nil => rfl
  | cons a l ih =>
    rw [List.mapM_cons, h a List.mem_cons_self, ok_bind, ih fun b hb => h b (List.mem_cons_of_mem a hb)]
    rfl

/-- The access of a vector atomic. -/
def vatomAccess (s : State) (a : AOp) (m : BitVec 2) (f : BitVec 1) (cap : BitVec 4) (vo vd : BitVec 5) : Claim.Access :=
  { atomAccess s cap a f (Claim.vecAt s m (cReg (curG s) cap) vo.toNat) with
    vecs := vo.toNat :: (List.range (atomCount a)).map (vd.toNat + ·), evens := [(vd.toNat, atomCount a)] }

section
variable {s : State} {i : Instr}

/-- R313, R314: a vector atomic. -/
theorem vatom_checksFirst {a : AOp} {m : BitVec 2} {sg : Bool} {f : BitVec 1} {os cap : BitVec 4} {vo vd : BitVec 5} (hwf : i.WellFormed)
    (hlen : (codeOf i).len = 4) (ha : aopSize a = 4 ∨ aopSize a = 8) (hexec : exec i s = vatom i a m sg (f == 1) os cap vo vd s)
    (hread : Claim.Readable s (vatomAccess s a m f cap vo vd)) : ChecksFirst s i (vatomAccess s a m f cap vo vd) := by
  obtain ⟨hvecs, hevens, -, hcaps, hredo⟩ := hread
  have hcap : cIsEmpty (curG s) cap = false := hcaps cap List.mem_cons_self
  have hvo : Usable (curG s) vo.toNat false := ⟨hvecs _ List.mem_cons_self, nofun⟩
  have hvd : ∀ r ∈ (List.range (atomCount a)).map (vd.toNat + ·), r < (curG s).top ∧ r < (curG s).nNames ∧ vIsEmpty (curG s) r = false :=
    fun r hr => hvecs r (List.mem_cons_of_mem _ hr)
  have hregs : atomRegs (curG s) a (some vo.toNat) vd.toNat = .ok () :=
    atomRegs_ok ha (nameX_ok hvo.name) (fun r hr => nameX_ok (hvd r hr)) (hevens _ List.mem_cons_self)
  have hsrc : ∀ own : Nat → Bool, ((List.range (atomCount a)).map (vd.toNat + ·)).mapM (fun r => atomSrc s (curG s) (own r) r) = _ :=
    fun own => mapM_ok fun r hr => atomSrc_ok (own r) (hvd r hr).2.2
  have hchecks : checksX s (vatomAccess s a m f cap vo vd) = _ := checksX_atom s cap a f _
  refine checksFirst_of (x' := vatomAccess s a m f cap vo vd)
    ⟨by rcases ha with h | h <;> simp [vatomAccess, atomAccess, Claim.plain, ← aopSize_eq, h], nofun⟩ hlen vecAt_eq_nil (fun _ => rfl) ?_
  rw [hexec, vatom, hchecks]
  simp only [checkField_ok hwf, ok_bind, hregs, srcC_ok hcap, readOff_ok hredo, hvo.readSrc, atomNames_eq ha, hsrc]
  exact ⟨_, rfl⟩

end

end Sys2Proof.Machine


/-! ## The remaining atomics, and every form -/

namespace Sys2Proof.Machine

/-- R237: the two readings of an AOP code agree on the codes that are in use. -/
theorem aopCode_eq : ∀ n < 28, aopCode n = Claim.aopAt n := by decide
theorem aopSize_aopCode : ∀ n < 28, aopSize (aopCode n) = 4 ∨ aopSize (aopCode n) = 8 := by decide

theorem satom_code_lt {aoph sg f os cap so sd func} (hwf : (Instr.satom aoph sg f os cap so sd func).WellFormed) :
    aopOf aoph func < 28 := by
  by_contra h
  have hc : fieldCause (.satom aoph sg f os cap so sd func) = some .encField := by
    simp [fieldCause, firstCause, Nat.le_of_not_lt h]
  exact absurd (hwf.symm.trans hc) nofun

/-- The access of a scalar atomic. -/
def satomAccess (s : State) (a : AOp) (f : BitVec 1) (cap : BitVec 4) (so sd : BitVec 5) : Claim.Access :=
  { atomAccess s cap a f (Claim.oneAt s (cReg (curG s) cap) (BitVec.zeroExtend 6 so) 0) with
    evens := if isCas a then [(sd.toNat, 2)] else [],
    scal := [BitVec.zeroExtend 6 so, BitVec.zeroExtend 6 sd] ++ (if isCas a then [BitVec.zeroExtend 6 sd + 1] else []) }

/-- The access of a row atomic whose mask has a thread. -/
def rowAccess (s : State) (m : BitVec 2) (f : BitVec 1) (cap : BitVec 4) (so vd : BitVec 5) : Claim.Access :=
  { Claim.plain (cReg (curG s) cap) cap (atomPerms (f == 1)) [0, 1] 128 false
      (Claim.oneAt s (cReg (curG s) cap) (BitVec.zeroExtend 6 so) (lowest (activeMask (curG s) (curF s) m.toNat))) with
    vecs := [vd.toNat], scal := [BitVec.zeroExtend 6 so], cause := .atomAlign, row := true, writes := false }

/-- The access of the store of a capability. -/
def cstAccess (s : State) (cap : BitVec 4) (so : BitVec 6) (cs : BitVec 4) : Claim.Access :=
  let c := cReg (curG s) cap
  let v := cReg (curG s) cs
  { Claim.plain c cap (if v.tag then permW ||| permC else permW) (if v.tag then [0, 1] else [0, 1, 3]) 16 false (Claim.oneAt s c so 0) with
    scal := [so], caps := [cap, cs], cause := .capAlign,
    mid := if v.tag && !capPerm v 6 && c.space ≠ 1 then some (.capGlobal, c.addr.toNat) else none }

theorem cst_perms_ne_pR : ∀ b : Bool, ((if b then permW ||| permC else permW) != Claim.pR) = true := by decide
theorem cst_spaces_no_tile : ∀ b : Bool, (if b then [0, 1] else [0, 1, 3] : List Nat).contains 2 = false := by decide

section
variable {s : State}

/-- R316: `satom`. -/
theorem satom_checksFirst {aoph sg f os cap so sd func x} (hwf : (Instr.satom aoph sg f os cap so sd func).WellFormed)
    (hx : Claim.accessOf s (.satom aoph sg f os cap so sd func) = some x) (hread : Claim.Readable s x) :
    ChecksFirst s (.satom aoph sg f os cap so sd func) x := by
  have hlt := satom_code_lt hwf
  have hcode : aopCode (aopOf aoph func) = Claim.aopAt (aoph.toNat * 8 + func.toNat) := aopCode_eq _ hlt
  have hacc : satomAccess s (aopCode (aopOf aoph func)) f cap so sd = x := by
    rw [hcode]
    exact Option.some.inj hx
  have ha := aopSize_aopCode _ hlt
  have hexec : exec (.satom aoph sg f os cap so sd func) s = execSatom aoph sg f os cap so sd func s := rfl
  rw [execSatom] at hexec
  generalize aopCode (aopOf aoph func) = a at hacc ha hexec
  subst hacc
  obtain ⟨-, hevens, hscal, hcaps, -⟩ := hread
  have hcap : cIsEmpty (curG s) cap = false := hcaps cap List.mem_cons_self
  have hso : sIsEmpty (curG s) (BitVec.zeroExtend 6 so) = false := hscal _ List.mem_cons_self
  have hsd : sIsEmpty (curG s) (BitVec.zeroExtend 6 sd) = false := hscal _ (List.mem_cons_of_mem _ List.mem_cons_self)
  have hpair : needX (!isCas a || sd.toNat % 2 == 0) .regPair = .ok () := by
    refine needX_ok _ ?_
    cases hcas : isCas a with
    | false => rfl
    | true => simpa using hevens (sd.toNat, 2) (by simp [satomAccess, hcas])
  have hexp : ∃ e, ∀ rest : DWord → X State,
      (if isCas a then srcS (curG s) (BitVec.zeroExtend 6 sd + 1) false >>= rest else rest 0) = rest e := by
    cases hcas : isCas a with
    | false => exact ⟨0, fun _ => rfl⟩
    | true => exact ⟨_, fun _ => by rw [srcS_ok _ (hscal _ (by simp [satomAccess, hcas]))]; rfl⟩
  obtain ⟨e, hexp⟩ := hexp
  have hchecks : checksX s (satomAccess s a f cap so sd) = _ := checksX_atom s cap a f _
  refine checksFirst_always
    ⟨by rcases ha with h | h <;> simp [satomAccess, atomAccess, Claim.plain, ← aopSize_eq, h], nofun⟩ rfl oneAt_ne_nil ?_
  rw [hexec, hchecks]
  simp only [checkField_ok hwf, ok_bind, hpair, srcC_ok hcap, srcS_ok _ hso, srcS_ok _ hsd, hexp]
  exact ⟨_, rfl⟩

/-- The address that passes the bounds check is below 2^56. -/
theorem addr56_of_boundsX {c : Cap} (hc : (capDecode c).isSome = true) {n k : Nat} {a : Int} (hn : 0 < n) (h : boundsX c n [(k, a)] = .ok ()) :
    addr56 a = a.toNat := by
  obtain ⟨⟨b, t⟩, hbt⟩ := Option.isSome_iff_exists.mp hc
  obtain ⟨-, -, -, -, htop⟩ := (capDecode_eq_some_iff c b t).mp hbt
  rw [boundsX_eq hc, faultX_eq_ok, eachFault_eq_none] at h
  have hin : (b : Int) ≤ a ∧ a + n ≤ t := by simpa [inBounds, hbt] using h (k, a) List.mem_cons_self
  unfold addr56
  omega

theorem eachX_singleton (k : Nat) (a : Int) (ok : Int → Bool) (c : Cause) :
    eachX [(k, a)] ok c = if ok a then .ok () else trapAt c (addr56 a) := by
  unfold eachX
  cases h : ok a <;> simp [h]

/-- R140: the checks of a row atomic, with that of a mapped stash word last. -/
theorem checksX_row {x : Claim.Access} {k : Nat} {a : Int} {y : X State} (hsize : 0 < x.size) (hmid : x.mid = none) (hline : x.line = false)
    (hw : x.writes = false) (hrow : x.row = true) (hl : x.addrs = [(k, a)]) :
    (checksX s x >>= fun _ => y) = (do
      capUse x.cap x.perms x.spaces
      alignX x.align x.cause x.addrs
      boundsX x.cap x.size x.addrs
      extentX s (curG s) x.cap x.size x.addrs
      if x.cap.space = 1 && mappedAt s (curG s).core (curG s).ctx a.toNat then trapAt .atomOp a.toNat else y) := by
  simp only [checksX, hmid, hline, hw, hrow, lineX_eq, Option.map_none, faultX_none, ok_bind, Bool.false_eq_true, if_false, Bool.true_and,
    bind_assoc, hl]
  refine bind_congr_ok fun _ huse => bind_congr_ok fun _ _ => bind_congr_ok fun _ hbound => bind_congr_ok fun _ _ => ?_
  rw [eachX_singleton, addr56_of_boundsX (capUse_ok huse).2 hsize hbound]
  unfold mappedAt
  by_cases hsp : x.cap.space = 1#4
  · cases entryAt (getC s (curG s).core) (curG s).ctx a.toNat <;> simp [hsp, trapAt]
  · simp [hsp]

/-- R139, R140, R315: `vratom.add.bf16`. -/
theorem vratom_checksFirst {m sg f os cap so vd x} (hwf : (Instr.vratomAddBf16 m sg f os cap so vd).WellFormed)
    (hx : Claim.accessOf s (.vratomAddBf16 m sg f os cap so vd) = some x) (hread : Claim.Readable s x) :
    ChecksFirst s (.vratomAddBf16 m sg f os cap so vd) x := by
  cases hx
  obtain ⟨hvecs, -, hscal, hcaps, -⟩ := hread
  have hcap : cIsEmpty (curG s) cap = false := hcaps cap List.mem_cons_self
  have hso : sIsEmpty (curG s) (BitVec.zeroExtend 6 so) = false := hscal _ List.mem_cons_self
  have hvd := hvecs vd.toNat List.mem_cons_self
  refine checksFirst_of (x' := rowAccess s m f cap so vd) ⟨Nat.succ_pos _, nofun⟩ rfl someAt_oneAt_eq_nil
    (fun h => by rw [rowAccess, Claim.someAt, if_neg h, atomPerms_eq]; rfl) ?_
  rw [show exec (.vratomAddBf16 m sg f os cap so vd) s = execVratomAddBf16 m sg f os cap so vd s from rfl, execVratomAddBf16]
  simp only [checkField_ok hwf, ok_bind, nameX_ok hvd, srcC_ok hcap, srcS_ok _ hso, atomSrc_ok _ hvd.2.2]
  exact ⟨_, congrArg (commit _ s) (if_congr Iff.rfl rfl
    (checksX_row (x := rowAccess s m f cap so vd) (Nat.succ_pos _) rfl rfl rfl rfl rfl).symm)⟩

/-- The checks of an access that writes, one of them after those of its capability. -/
theorem checksX_mid {x : Claim.Access} {p : Prop} [Decidable p] {k : Cause} {n : Nat} {y : X State}
    (hmid : x.mid = if p then some (k, n) else none) (hn : n < 2 ^ 56) (hline : x.line = false) (hw : x.writes = true) (hrow : x.row = false) :
    (checksX s x >>= fun _ => y) = (do
      capUse x.cap x.perms x.spaces
      if p then trapAt k n else
      alignX x.align x.cause x.addrs
      boundsX x.cap x.size x.addrs
      extentX s (curG s) x.cap x.size x.addrs
      stashRoX s (curG s) x.cap x.addrs
      y) := by
  simp only [checksX, hmid, hline, hw, hrow, lineX_eq, Bool.false_and, Bool.false_eq_true, if_false, if_true, faultX_none, ok_bind,
    bind_assoc]
  refine bind_congr_ok fun _ _ => ?_
  by_cases hp : p
  · rw [if_pos hp, if_pos hp, Option.map_some, faultX_trapAt hn]
    rfl
  · rw [if_neg hp, if_neg hp]
    rfl

/-- R19, R309: `cst`. -/
theorem cst_checksFirst {bo cap so cs x} (hwf : (Instr.cst bo cap so cs).WellFormed)
    (hx : Claim.accessOf s (.cst bo cap so cs) = some x) (hread : Claim.Readable s x) : ChecksFirst s (.cst bo cap so cs) x := by
  obtain rfl : cstAccess s cap so cs = x := Option.some.inj hx
  obtain ⟨-, -, hscal, hcaps, -⟩ := hread
  have hcap : cIsEmpty (curG s) cap = false := hcaps cap List.mem_cons_self
  have hcs : cIsEmpty (curG s) cs = false := hcaps cs (List.mem_cons_of_mem _ List.mem_cons_self)
  have hso : sIsEmpty (curG s) so = false := hscal so List.mem_cons_self
  have htile : (cstAccess s cap so cs).spaces.contains 2 = false := cst_spaces_no_tile _
  refine checksFirst_always ⟨Nat.succ_pos _, fun h => absurd (htile.symm.trans h) nofun⟩ rfl oneAt_ne_nil ?_
  rw [show exec (.cst bo cap so cs) s = execCst bo cap so cs s from rfl, execCst]
  simp only [checkField_ok hwf, ok_bind, srcC_ok hcap, srcC_ok hcs, srcS_ok _ hso]
  exact ⟨_, congrArg (commit _ s)
    (checksX_mid (x := cstAccess s cap so cs) rfl (cReg (curG s) cap).addr.isLt rfl (cst_perms_ne_pR _) rfl).symm⟩

end

end Sys2Proof.Machine


/-! ## The checks of every access (R22) -/

namespace Sys2Proof.Machine

/-- R132: the vector atomics are those of `vatom`. -/
theorem exec_of_vatomForm {s : State} {i : Instr} {a m sg f os cap vo vd} (h : Claim.vatomForm i = some (a, m, sg, f, os, cap, vo, vd)) :
    exec i s = vatom i a m (sg == 1) (f == 1) os cap vo vd s ∧ (codeOf i).len = 4 ∧ (aopSize a = 4 ∨ aopSize a = 8) := by
  unfold Claim.vatomForm at h
  split at h <;> cases h <;> exact ⟨rfl, rfl, by decide⟩

section
variable {s : State}

/-- R300: `vld`. -/
theorem vld_checksFirst {m lsel bo cap vo vd w x} (hwf : (Instr.vld m lsel bo cap vo vd w).WellFormed)
    (hx : Claim.accessOf s (.vld m lsel bo cap vo vd w) = some x) (hread : Claim.Readable s x) :
    ChecksFirst s (.vld m lsel bo cap vo vd w) x := by
  obtain rfl : loadAccess s m cap vo vd w false = x := Option.some.inj hx
  exact vload_checksFirst (bo := bo) (od := Order.none) hwf rfl rfl hread

/-- R303: `vld.nt`. -/
theorem vldNt_checksFirst {m lsel bo cap vo vd w x} (hwf : (Instr.vldNt m lsel bo cap vo vd w).WellFormed)
    (hx : Claim.accessOf s (.vldNt m lsel bo cap vo vd w) = some x) (hread : Claim.Readable s x) :
    ChecksFirst s (.vldNt m lsel bo cap vo vd w) x := by
  obtain rfl : loadAccess s m cap vo vd w false = x := Option.some.inj hx
  exact vload_checksFirst (bo := bo) (od := Order.none) hwf rfl rfl hread

/-- R302: `vld.acq`. -/
theorem vldAcq_checksFirst {m ln scope cap vo vd w x} (hwf : (Instr.vldAcq m ln scope cap vo vd w).WellFormed)
    (hx : Claim.accessOf s (.vldAcq m ln scope cap vo vd w) = some x) (hread : Claim.Readable s x) :
    ChecksFirst s (.vldAcq m ln scope cap vo vd w) x := by
  obtain rfl : loadAccess s m cap vo vd w (ln == 1) = x := Option.some.inj hx
  exact vload_checksFirst (bo := 0) (od := { acq := some scope, rel := none, line := ln == 1 }) hwf rfl rfl hread

/-- R301: `vst`. -/
theorem vst_checksFirst {m bd bo cap vo vd sg w x} (hwf : (Instr.vst m bd bo cap vo vd sg w).WellFormed)
    (hx : Claim.accessOf s (.vst m bd bo cap vo vd sg w) = some x) (hread : Claim.Readable s x) :
    ChecksFirst s (.vst m bd bo cap vo vd sg w) x := by
  obtain rfl : storeAccess s m cap vo vd w false = x := Option.some.inj hx
  exact vstore_checksFirst (bo := bo) (bd := bd) (od := Order.none) hwf rfl rfl hread

/-- R303: `vst.nt`. -/
theorem vstNt_checksFirst {m bd bo cap vo vd w x} (hwf : (Instr.vstNt m bd bo cap vo vd w).WellFormed)
    (hx : Claim.accessOf s (.vstNt m bd bo cap vo vd w) = some x) (hread : Claim.Readable s x) :
    ChecksFirst s (.vstNt m bd bo cap vo vd w) x := by
  obtain rfl : storeAccess s m cap vo vd w false = x := Option.some.inj hx
  exact vstore_checksFirst (bo := bo) (bd := bd) (od := Order.none) hwf rfl rfl hread

/-- R302: `vst.rel`. -/
theorem vstRel_checksFirst {m ln scope cap vo vd sg w x} (hwf : (Instr.vstRel m ln scope cap vo vd sg w).WellFormed)
    (hx : Claim.accessOf s (.vstRel m ln scope cap vo vd sg w) = some x) (hread : Claim.Readable s x) :
    ChecksFirst s (.vstRel m ln scope cap vo vd sg w) x := by
  obtain rfl : storeAccess s m cap vo vd w (ln == 1) = x := Option.some.inj hx
  exact vstore_checksFirst (bo := 0) (bd := 0) (od := { acq := none, rel := some scope, line := ln == 1 }) hwf rfl rfl hread

end

/-- R22: every instruction that accesses memory makes the checks of its access first. -/
theorem checksFirst_of_accessOf {s : State} {i : Instr} {x : Claim.Access} (hwf : i.WellFormed) (hx : Claim.accessOf s i = some x)
    (hread : Claim.Readable s x) : ChecksFirst s i x := by
  have hall := hx
  unfold Claim.accessOf at hx
  split at hx
  case h_1 => exact vld_checksFirst hwf hall hread
  case h_2 => exact vldNt_checksFirst hwf hall hread
  case h_3 => exact vldAcq_checksFirst hwf hall hread
  case h_4 => exact vst_checksFirst hwf hall hread
  case h_5 => exact vstNt_checksFirst hwf hall hread
  case h_6 => exact vstRel_checksFirst hwf hall hread
  case h_7 => exact lds_checksFirst hwf hall hread
  case h_8 => exact sts_checksFirst hwf hall hread
  case h_9 => exact sld_checksFirst hwf hall hread
  case h_10 => exact sst_checksFirst hwf hall hread
  case h_11 => exact pfch_checksFirst hwf hall hread
  case h_12 => exact tld_checksFirst hwf hall hread
  case h_13 => exact tst_checksFirst hwf hall hread
  case h_14 => exact vratom_checksFirst hwf hall hread
  case h_15 => exact satom_checksFirst hwf hall hread
  case h_16 => exact cld_checksFirst hwf hall hread
  case h_17 => exact cst_checksFirst hwf hall hread
  case h_18 =>
    obtain ⟨⟨a, m, sg, f, os, cap, vo, vd⟩, hform, hacc⟩ := Option.map_eq_some_iff.mp hx
    obtain ⟨hexec, hlen, ha⟩ := exec_of_vatomForm hform
    obtain rfl : vatomAccess s a m f cap vo vd = x := hacc
    exact vatom_checksFirst hwf hlen ha hexec hread

/-- Settles O17: each instruction makes the checks of R22 in its order before any thread performs anything. -/
theorem accessChecks : Obligations.AccessChecks := by
  unfold Obligations.AccessChecks
  intro s i hwf x hx hread
  have h := checksFirst_of_accessOf hwf hx hread
  refine ⟨fun hne p hp => raised_of_checksFirst h hne hp, fun hnil => ?_⟩
  obtain ⟨-, hlen, -, hnext⟩ := h
  exact ⟨advance i s, hnext hnil, onlyGroup_advance i (onlyGroup_self s), past_advance hlen rfl rfl, curG_advance_split i s⟩

end Sys2Proof.Machine


/-! ## The binding of a translation register (R38, R39) -/

namespace Sys2Proof.Machine

theorem mem_fput_self {α : Type} (m : FMap α) (k : Nat) (v : α) : (k, v) ∈ fput m k v := by
  induction m with
  | nil => exact List.mem_singleton_self _
  | cons p m ih =>
    simp only [fput]
    split_ifs
    · exact List.mem_cons_self
    · exact List.mem_cons_self
    · exact List.mem_cons_of_mem _ ih

/-! A state that differs in its groups, its walks, its agenda and its next number. -/

section Frame
variable {s t : State} (h : t = { s with groups := t.groups, walks := t.walks, agenda := t.agenda, nextId := t.nextId })
include h

/-- Memory is read through the homes and the cores. -/
theorem memKept_of_walks : Claim.MemKept s t := by
  rw [h]
  exact fun _ => ⟨rfl, rfl⟩

/-- The move past an instruction stays within the groups. -/
theorem advance_frame (i : Instr) : advance i t = { s with
    groups := (advance i t).groups, walks := (advance i t).walks, agenda := (advance i t).agenda, nextId := (advance i t).nextId } := by
  rw [advance_groups]
  generalize (advance i t).groups = gs
  rw [h]

end Frame

theorem advance_walks (i : Instr) (s : State) : (advance i s).walks = s.walks := rfl
theorem advance_agenda (i : Instr) (s : State) : (advance i s).agenda = s.agenda := rfl

/-! What a binding changes. -/

section Bind
variable (s : State) (n : Nat) (cs : BitVec 4) (va : Nat)

theorem bindXw_cur : (bindXw s n cs va).cur = s.cur := rfl

theorem bindXw_frame : bindXw s n cs va = { s with
    groups := (bindXw s n cs va).groups, walks := (bindXw s n cs va).walks, agenda := (bindXw s n cs va).agenda
    nextId := (bindXw s n cs va).nextId } := rfl

variable {s} in
theorem curG_bindXw (hcur : (curG s).uid = s.cur.uid) :
    curG (bindXw s n cs va) = { curG s with xw := fmod XW.zero (curG s).xw n fun x => { x with valid := false } } := by
  show getG (setG _ (curG s).uid _) s.cur.uid = _
  rw [getG_setG, if_pos hcur.symm]

theorem fget_xw_unbound (m : FMap XW) (k : Nat) : fget XW.zero (fmod XW.zero m n fun x => { x with valid := false }) k =
    if k = n then { fget XW.zero m k with valid := false } else fget XW.zero m k := by
  rw [fmod, fget_fset]
  split
  next h => rw [h]
  next => rfl

/-- The binding stands among the walks, with the TLB's answer or as one to be made, and the event that goes on with it is to come. -/
theorem bindXw_walk : ∃ p ∈ (bindXw s n cs va).walks,
    p.2.va = va ∧ p.2.ctx = (curG s).ctx ∧ p.2.core = (curG s).core ∧ p.2.why = .xwreg (curG s).uid n cs ∧
      (if p.2.done.isSome then .xwLoad (curG s).uid n else .pageWalkComplete p.1) ∈ (bindXw s n cs va).agenda :=
  ⟨(s.nextId, _), mem_fput_self .., rfl, rfl, rfl, rfl, List.mem_append_right _ (List.mem_singleton_self _)⟩

end Bind

/-! The instruction. -/

section Xbind
variable {s : State} {b2 : BitVec 1} {ss : BitVec 6} {cs : BitVec 4} {n : BitVec 3}

theorem exec_xbind_interlocked (he : cIsEmpty (curG s) cs = true) : ∃ t, exec (.xbind b2 ss cs n) s = .next t ∧ Claim.Interlocked s t := by
  show ∃ t, execXbind b2 ss cs n s = .next t ∧ _
  simp only [execXbind, checkField_ok (i := .xbind b2 ss cs n) rfl, srcC_hold he, ok_bind, error_bind]
  exact commitNext_hold _ s 11

variable (hs : cIsEmpty (curG s) cs = false) (hv : sIsEmpty (curG s) ss = false)
include hs hv

/-- With its registers full, the binding makes the first three checks of R22, then those of its own. -/
theorem exec_xbind : exec (.xbind b2 ss cs n) s = commitNext (.xbind b2 ss cs n) s (do
    capValid (cReg (curG s) cs)
    if (cReg (curG s) cs).space ≠ 0 then trapAt .capSpace (cReg (curG s) cs).addr.toNat else
    boundsX (cReg (curG s) cs) 1 [(0, scalarAddr (cReg (curG s) cs) (sReg (curG s) ss))]
    .ok (bindXw s n.toNat cs (scalarAddr (cReg (curG s) cs) (sReg (curG s) ss)).toNat)) := by
  show execXbind b2 ss cs n s = _
  simp only [execXbind, checkField_ok (i := .xbind b2 ss cs n) rfl, srcC_ok hs, srcS_ok _ hv, ok_bind]

theorem exec_xbind_unsound (h : ¬Claim.Sound (cReg (curG s) cs)) : exec (.xbind b2 ss cs n) s =
    .next (Claim.raised s (.xbind b2 ss cs n) (Claim.unsound (cReg (curG s) cs)) (cReg (curG s) cs).addr none) := by
  rw [exec_xbind hs hv, capValid_error h, error_bind, commitNext_trap, BitVec.ofNat_toNat, BitVec.setWidth_eq]

theorem exec_xbind_space (h : Claim.Sound (cReg (curG s) cs)) (hspace : (cReg (curG s) cs).space ≠ 0) : exec (.xbind b2 ss cs n) s =
    .next (Claim.raised s (.xbind b2 ss cs n) .capSpace (cReg (curG s) cs).addr none) := by
  rw [exec_xbind hs hv, capValid_ok h, ok_bind, if_pos hspace, trapAt, commitNext_trap, BitVec.ofNat_toNat, BitVec.setWidth_eq]

/-- In global space only the bounds are left. -/
theorem exec_xbind_global (h : Claim.Sound (cReg (curG s) cs)) (hspace : (cReg (curG s) cs).space = 0) {b l : Nat}
    (hdec : capDecode (cReg (curG s) cs) = some (b, l)) {a : Int} (ha : (cReg (curG s) cs).addr.toNat + (sReg (curG s) ss).toInt = a) :
    exec (.xbind b2 ss cs n) s = commitNext (.xbind b2 ss cs n) s
      (if (b : Int) ≤ a ∧ a < l then .ok (bindXw s n.toNat cs a.toNat) else trapAt .capBound (addr56 a)) := by
  rw [exec_xbind hs hv, capValid_ok h, ok_bind, if_neg (not_not.mpr hspace), scalarAddr, ha, boundsX, hdec]
  simp only [eachX_singleton, Nat.cast_one, Int.add_one_le_iff, Bool.and_eq_true, decide_eq_true_eq]
  split_ifs <;> rfl

end Xbind

/-- Settles O16: the checks in their order, then the binding, whose effect the lemmas above say. -/
theorem translationRegisterBind : Obligations.TranslationRegisterBind := by
  intro s b2 ss cs n
  refine ⟨fun he _ => exec_xbind_interlocked he, fun hcur hv hs => ?_⟩
  have hv : sIsEmpty (curG s) ss = false := hv ss (List.mem_singleton_self ss)
  refine ⟨exec_xbind_unsound hs hv, exec_xbind_space hs hv, fun hsound hspace ⟨b, l⟩ hdec => ?_⟩
  have hexec := exec_xbind_global (b2 := b2) (n := n) hs hv hsound hspace hdec rfl
  refine ⟨fun hout => ?outside, fun hlo hhi => ?bound⟩
  case outside => rw [hexec, if_neg hout, trapAt, commitNext_trap, addr56_eq, BitVec.ofNat_toNat, BitVec.setWidth_eq]
  case bound =>
    rw [hexec, if_pos ⟨hlo, hhi⟩]
    refine ⟨_, rfl, ?past, ?memory, fun k _ => ?xw, ?group, ?walk, ?frame⟩
    case past =>
      refine past_advance (i := .xbind b2 ss cs n) rfl (bindXw_cur ..) ?_
      rw [curG_bindXw _ _ _ hcur]
    case memory => exact memKept_of_walks (advance_frame (bindXw_frame ..) _)
    case walk =>
      simp only [advance_walks, advance_agenda]
      exact bindXw_walk s n.toNat cs _
    case xw =>
      rw [curG_advance_split, curG_bindXw _ _ _ hcur]
      exact fget_xw_unbound ..
    case group =>
      rw [curG_advance_split, curG_bindXw _ _ _ hcur]
    case frame => exact advance_frame (bindXw_frame ..) _

end Sys2Proof.Machine


/-! ## An atomic of page mode 3 at a line that another group has locked (R144) -/

namespace Sys2Proof.Machine

/-- The line at device address 0x20000000. -/
def lockedLine : Nat := 0x20000000 / 128

/-- Request 3, an atomic add of group 1 to the first word of the line, which has come with mode 3. -/
def unmodedAtomic : Req :=
  { newReq (.group 1 7) 0 1 (.atomic (.add 4) false) lockedLine with
    id := 3, mode := 3
    pieces := [{ thread := 0, space := 0, place := 0x20000000, size := 4, val := 5, exp := 0, shown := 0x5000000000, gen := 0, mode := 3,
                 mbf := 0, bound := [] }] }

/-- Group 9 holds the lock of the line, and pair 0 shares it; request 3 reaches its home. -/
def foreignLock : State :=
  { State.reset with
    nextId := 8, reqs := [(3, unmodedAtomic)], groups := [(1, loadGroup)], tasks := [(1, loadTask)]
    homes := { Homes.reset with
      locks := [(lockedLine, { Lock.free with holder := some 9 })], dir := [(lockedLine, { DirEntry.empty with shr := 1 })] } }

theorem getR_foreignLock : getR foreignLock 3 = unmodedAtomic := rfl
theorem reached_foreignLock : Claim.reached foreignLock 3 = foreignLock := by decide +kernel

/-- The home holds back requests of mode 0 only; this one goes on to the pair that shares the line. -/
theorem exec_homeAtomic_foreignLock : ∃ t, exec (.homeAtomic 3) foreignLock = .next t ∧ (getR t 3).acks = 1 :=
  ⟨_, rfl, by decide +kernel⟩

/-- The request meets what `Obligations.HomeArrivals` asks of one that its home takes up. -/
theorem unmodedAtomic_arrives : Claim.Idle unmodedAtomic 3 ∧ Claim.homeEvent unmodedAtomic (.homeAtomic 3) = some true ∧
    ¬Claim.Outdated foreignLock unmodedAtomic ∧ ¬Claim.Waits foreignLock unmodedAtomic := by
  unfold Claim.Idle Claim.Outdated Claim.Waits
  decide +kernel

theorem takenUp_foreignLock : ∃ s1, Claim.takenUp foreignLock unmodedAtomic = some s1 ∧ Claim.timed s1 unmodedAtomic = false ∧
    (lockAt s1 unmodedAtomic.line).holder ≠ none :=
  ⟨_, rfl, by decide +kernel, by decide +kernel⟩

/-- Refutes O29, in the clause of atomics that take no timestamp: at a locked line the statement has a group's atomic acknowledged at once,
as one of the lock's holder is (R144), since others are held back before. But it holds back those of mode 0 only, and an atomic comes here
with any mode but 2: in `foreignLock` one of mode 3 asks the pair that shares the line. The statement speaks of every state; a leaf of mode 3
is PT_FORMAT (`leafOf`), so that no run from reset makes such a request. -/
theorem not_homeArrivals : ¬ Obligations.HomeArrivals := by
  intro h
  obtain ⟨hidle, hevent, hcurrent, hwaits⟩ := unmodedAtomic_arrives
  obtain ⟨s1, hup, htimed, hlock⟩ := takenUp_foreignLock
  obtain ⟨t', ht', hacks⟩ := exec_homeAtomic_foreignLock
  have harrives := h foreignLock 3 (.homeAtomic 3)
  simp only [reached_foreignLock, getR_foreignLock] at harrives
  obtain ⟨-, htaken⟩ := harrives hidle rfl true hevent
  obtain ⟨-, -, hgoes⟩ := htaken hcurrent
  obtain ⟨t, ht, -, -, -, -, -, -, -, hatomic, -⟩ := hgoes (fun ⟨_, hmode, _⟩ => absurd hmode (by decide)) hwaits s1 hup
  obtain ⟨-, -, hlocked⟩ := hatomic rfl htimed
  obtain ⟨-, hsame, -⟩ := hlocked hlock rfl
  obtain rfl : t' = t := by simpa [ht'] using ht
  rw [hacks] at hsame
  exact absurd hsame (by decide)

end Sys2Proof.Machine


/-! ## A task placed under a number that is taken (R200) -/

namespace Sys2Proof.Machine

/-- The launch queue of context 1, with its control block at 0x30000, for core 3. -/
def loneQueue : Queue := { ctx := 1, cores := [3], cb := 0x30000, eligible := false, current := none, last := none }

/-- The tables of context 1, from address 0, map the page at 0x10000 to itself. The control block at 0x30000 names a ring of two slots at
0x11000, of which the first holds a descriptor of one group; its kernel header is at 0x12000. -/
def queueBytes : FMap Byte :=
  [(0, 1), (8, 0xFD), (11, 1), (0x11001, 0x20), (0x11002, 1), (0x11008, 1), (0x11024, 0x40), (0x11027, 4), (0x11028, 5), (0x1102E, 0x20),
    (0x12004, 0x40), (0x12007, 63), (0x12008, 63), (0x12009, 64), (0x12014, 1), (0x30001, 0x10), (0x30002, 1), (0x30007, 0x81), (0x3000C, 1)]

/-- The queue is to be served, which takes number 1 for the dispatch and number 2 for its task. A task of number 2 is there already. -/
def numberTaken : State :=
  { State.reset with
    nextId := 1, tasks := [(2, loadTask)], ctxs := [(1, { Ctx.reset with live := true })], queues := [(0, loneQueue)]
    homes := { Homes.reset with mem := queueBytes, tags := [(0x11020 / 16, true)] } }

/-- The numbers of the tasks once a queue's head is served, where it is well-formed and a task of it finds room. -/
def numbersServed (s : State) (n : Nat) (q : Queue) : Option (List Nat) :=
  match readHead s q.ctx (qDesc s q (qHead s q)) with
  | .refused => none
  | .ok d h => (placeTask (Claim.serving s n q d h).2 (Claim.serving s n q d h).1 q (qPrio s q)).map fun t => t.tasks.map Prod.fst

theorem numbersServed_eq_some {s : State} {n : Nat} {q : Queue} {l : List Nat} (hs : numbersServed s n q = some l) :
    ∃ d h t, readHead s q.ctx (qDesc s q (qHead s q)) = .ok d h ∧
      placeTask (Claim.serving s n q d h).2 (Claim.serving s n q d h).1 q (qPrio s q) = some t ∧ t.tasks.map Prod.fst = l := by
  unfold numbersServed at hs
  split at hs
  next => cases hs
  next d h hhead =>
    obtain ⟨t, ht, hl⟩ := Option.map_eq_some_iff.mp hs
    exact ⟨d, h, t, hhead, ht, hl⟩

theorem pickQueues_numberTaken : (pickQueues numberTaken).head? = some (0, loneQueue) := by decide +kernel

theorem numbersServed_numberTaken : numbersServed numberTaken 0 loneQueue = some [2] := by decide +kernel

/-- What O40 says of the number of a task that the dispatcher places. -/
theorem number_new_of_served (h : Obligations.TranslationAndQueueEvents) {s t : State} {n : Nat} {q : Queue} {d : Desc} {hd : Header}
    (hrun : frozen s = false) (hpick : (pickQueues s).head? = some (n, q)) (hhead : readHead s q.ctx (qDesc s q (qHead s q)) = .ok d hd)
    (hplace : placeTask (Claim.serving s n q d hd).2 (Claim.serving s n q d hd).1 q (qPrio s q) = some t) :
    ∃ k ∈ t.tasks, ∀ j ∈ s.tasks, j.1 ≠ k.1 := by
  obtain ⟨-, -, -, -, -, -, -, hserve, -⟩ := h s
  obtain ⟨-, hok⟩ := hserve hrun _ hpick
  rw [hhead] at hok
  obtain ⟨hplaced, -⟩ := hok
  obtain ⟨t', -, -, htasks, -, -, -, ⟨k, hk, hnew, -⟩, -⟩ := hplaced t hplace
  exact ⟨k, htasks ▸ hk, hnew⟩

/-- Refutes O40, in the clause of `dispatcherServe`: a task that is placed is to have a number that no task had before, and in `numberTaken`
the placed task takes number 2 from another. The statement speaks of every state and does not ask that the next number is a fresh one; at
reset it is, and steps only count up from it, so that no run from reset reaches such a state. -/
theorem not_translationAndQueueEvents : ¬ Obligations.TranslationAndQueueEvents := by
  intro h
  obtain ⟨d, hd, t, hhead, hplace, hnumbers⟩ := numbersServed_eq_some numbersServed_numberTaken
  obtain ⟨k, hk, hnew⟩ := number_new_of_served h rfl pickQueues_numberTaken hhead hplace
  have hnumber : k.1 ∈ t.tasks.map Prod.fst := List.mem_map_of_mem hk
  rw [hnumbers, List.mem_singleton] at hnumber
  exact hnew (2, loadTask) (List.mem_singleton_self _) hnumber.symm

end Sys2Proof.Machine


/-! ## A store of a whole mapped stash word to a page without W (R35, R69) -/

namespace Sys2Proof.Machine

/-- Core 0 of the reset state with a translation of context 0 for the page at 0: R and X are set in its leaf, W is not. -/
def readOnlyPage : State :=
  { State.reset with cores := [(0, { Core.reset with tlb := [{ ctx := 0, vbase := 0, leaf := loadLeaf }] })] }

theorem walked_readOnlyPage : (curF readOnlyPage).walked = [] := rfl

theorem tlbFind_readOnlyPage :
    tlbFind (getC readOnlyPage (curG readOnlyPage).core) (curG readOnlyPage).ctx 0 = some loadLeaf := by decide +kernel

/-- R35, R69: a stash word that is to be written back to its page asks for W. -/
theorem xlate_stashStore_readOnlyPage :
    xlate readOnlyPage (curG readOnlyPage) (curF readOnlyPage) .stashStore 0 = .fault .xltWrite := by decide +kernel

/-- The statement's rights know accesses to pages only: of a store to a mapped stash word they ask none. -/
theorem leafFault_stashStore_loadLeaf : Claim.leafFault .stashStore loadLeaf = none := by decide

/-- Refutes O58, in the clause of an address that the core's TLB holds: it speaks of every access of the model, and `Claim.rightsOf` asks no
right of `stashStore`, the store of a whole mapped stash word, while the model asks for W, as its write-back will (R35, R69). In
`readOnlyPage` the statement has it translate, and it takes XLT_WRITE. -/
theorem not_translationsAndFaults : ¬ Obligations.TranslationsAndFaults := by
  rintro ⟨htranslation, -⟩
  obtain ⟨hheld, -⟩ := htranslation readOnlyPage .stashStore 0 0 4 0 0 0 walked_readOnlyPage
  obtain ⟨hxlate, -⟩ := hheld loadLeaf tlbFind_readOnlyPage
  simp [xlate_stashStore_readOnlyPage, leafFault_stashStore_loadLeaf] at hxlate

end Sys2Proof.Machine


/-! ## A load of the user handler from bytes that an unfinished thread is still to reach (R102, R103) -/

namespace Sys2Proof.Machine

/-- Fragment 0 in the user handler: of its instruction at 0x2000 a thread has still to access the word at stash byte 0. -/
def handlerFragment : Split :=
  { Split.free with valid := true, mask := 1, pc := 0x3000, redoAt := some (0x2000, 0), redoSpots := [(0x2000, 1, 0, 4)] }

/-- The capability of the first word of the stash, to read it. -/
def wordCap : Cap := { Cap.null with perms := Claim.pR, space := 1, t := 4, tag := true }

/-- A group in its handler, with `wordCap` in c1 and no operation outstanding. Nothing maps its stash. -/
def inHandler : State :=
  { State.reset with
    nextId := 2, cur := { uid := 1, entry := 0, tick := 0 }, tasks := [(1, loadTask)]
    groups := [(1, { loadGroup with handler := some 0, c := [(1, wordCap)], split := [(0, handlerFragment)] })] }

/-- The handler reads the word into s2. -/
def handlerLoad : Instr := .sld 0 0 1 0 2 5

/-- The access and the form of `handlerLoad`. -/
def wordAccess : Claim.Access := { Claim.plain wordCap 1 Claim.pR [0, 1, 3, 5] 4 false [(0, 0)] with scal := [0, 2] }
def wordForm : Claim.Form := Claim.loadForm 13 1 1 (.scalar 2) 0

theorem accessOf_handlerLoad : Claim.accessOf inHandler handlerLoad = some wordAccess := rfl
theorem formOf_handlerLoad : Claim.formOf inHandler handlerLoad = some wordForm := rfl

/-- The load passes every check, and nothing of the group is outstanding. -/
theorem passes_handlerLoad : Claim.Readable inHandler wordAccess ∧ Claim.firstFault inHandler wordAccess = none ∧
    Claim.Calm inHandler wordForm ∧ Claim.InBank inHandler wordAccess false ∧ Claim.SlotsFor (curG inHandler) wordForm.dst wordForm.whole := by
  unfold Claim.Readable Claim.Full Claim.Calm Claim.InBank Claim.SlotsFor
  decide +kernel

/-- The load waits for the unfinished thread. -/
theorem exec_handlerLoad : ∃ t, exec handlerLoad inHandler = .next t ∧ (curG t).ops ≠ [] :=
  ⟨_, rfl, by decide +kernel⟩

/-- Refutes O19, for `sld`: a group with no operation outstanding is to have its load answered at once, its operations being as before. In
`inHandler` the load is of the bytes that a thread of the interrupted instruction has still to access: that access precedes it in program
order (R102), so that R103 holds the load back (log 75). -/
theorem not_stashLoads : ¬ Obligations.StashLoads := by
  intro h
  obtain ⟨hread, hfault, hcalm, hbank, hslots⟩ := passes_handlerLoad
  obtain ⟨t, ht, -, -, -, -, -, -, -, -, -, -, -, -, hgroup⟩ := h inHandler handlerLoad (by decide) wordAccess accessOf_handlerLoad
    wordForm formOf_handlerLoad rfl (List.cons_ne_nil _ _) hread hfault hcalm hbank hslots (.inl rfl)
  obtain ⟨t', ht', hops⟩ := exec_handlerLoad
  obtain rfl : t' = t := Host.Outcome.next.inj (ht'.symm.trans ht)
  have hsame := congrArg Group.ops hgroup
  exact hops hsame

end Sys2Proof.Machine


/-! ## A stash word that holds bytes of two global words, recalled for one of them (R69, R71, R86) -/

namespace Sys2Proof.Machine

/-- A dirty stash word that stands for the bytes from 0x10002 to 0x10005: the upper half of the first word of line 0x200 and the lower
half of the second. -/
def straddlingWord : SWord :=
  { SWord.zero with v := true, d := true, bound := [some 0x10002, some 0x10003, some 0x10004, some 0x10005] }

/-- A write of the first word of line 0x200 that the home works on: one holder has still to answer. -/
def recallingWrite : Req :=
  { newReq (.group 2 7) 2 1 .write 0x200 with
    id := 3, busy := true, acks := 1
    pieces := [{ thread := 0, space := 0, place := 0x10000, size := 4, val := 5, exp := 0, shown := 0x10000, gen := 0, mode := 0, mbf := 0,
                 bound := [] }] }

/-- The stash of core 0 (unit 1 of pair 0) owns both words for its `straddlingWord`, which `recallingWrite` takes from it. -/
def halfRecalled : State :=
  { State.reset with
    nextId := 8, reqs := [(3, recallingWrite)], cores := [(0, { Core.reset with swords := [(0, straddlingWord)] })]
    homes := { Homes.reset with dir := [(0x200, { DirEntry.empty with owners := [{ pair := 0, unit := 1, mask := 3 }] })] } }

theorem working_halfRecalled : Claim.Working halfRecalled 3 ∧ 0 < (getR halfRecalled 3).acks := by
  unfold Claim.Working
  decide +kernel

theorem owns_halfRecalled : Claim.owns halfRecalled 0x200 0 1 1 = true := by decide +kernel

/-- The recall of word 0 writes the stash word back whole, and word 1 goes home with it. -/
theorem exec_recallReceived_halfRecalled :
    ∃ t, exec (.recallReceived 3 0 1 1) halfRecalled = .next t ∧ Claim.owns t 0x200 0 1 1 = false :=
  ⟨_, rfl, by decide +kernel⟩

/-- Refutes O31, in the clause of `recallReceived`: it has a recall end the ownership of the words of its mask and of no other. A stash word
need not lie on a word of global memory, and a recall takes a stash word whole: in `halfRecalled` the recall of word 0 of the line writes
back the only bytes for which the stash owned word 1, which the home takes back as well (R69, R86). -/
theorem not_coherenceEvents : ¬ Obligations.CoherenceEvents := by
  intro h
  obtain ⟨-, hrecall, -⟩ := h halfRecalled
  obtain ⟨hworking, hacks⟩ := working_halfRecalled
  obtain ⟨t, ht, -, howns⟩ := hrecall 3 0 1 1 hworking hacks
  obtain ⟨t', ht', hgone⟩ := exec_recallReceived_halfRecalled
  obtain rfl : t' = t := Host.Outcome.next.inj (ht'.symm.trans ht)
  have hkept : Claim.owns t' 0x200 0 1 1 = (Claim.owns halfRecalled 0x200 0 1 1 && !(1 : Word).getLsbD 1) := howns 1 (by decide)
  rw [hgone, owns_halfRecalled] at hkept
  exact absurd hkept (by decide)

end Sys2Proof.Machine


/-! ## A late group that has left its lane inside its save routine (R206, R361) -/

namespace Sys2Proof.Machine

/-- A group of context 1 that was suspended inside its save routine: it holds no lane position. -/
def savingGroup : Group := { loadGroup with slot := none, saving := some 0 }

/-- The request that core 0 saves context 1, made at tick 0. -/
def saveRequest : Preempt := { core := 0, only := none, t0 := 0, restore := false }

/-- The save budget of `savingGroup` has run out, and nobody has been told. -/
def lateInSave : State :=
  { State.reset with
    nextId := 2, tasks := [(1, loadTask)], groups := [(1, savingGroup)]
    ctxs := [(1, { Ctx.reset with live := true, preempts := [saveRequest] })] }

theorem preempts_lateInSave : (getX lateInSave 1).preempts = [saveRequest] := rfl

theorem isLate_savingGroup : Claim.isLate lateInSave 1 0 saveRequest savingGroup = true := by decide +kernel

/-- R361: the record that tells SFP_LATE names no slot, since the group has none. -/
theorem exec_sfpLate_lateInSave :
    ∃ t, exec (.sfpLate 1 0) lateInSave = .next t ∧ ∀ r ∈ (getX t 1).faults, r.gv = false :=
  ⟨_, rfl, by decide +kernel⟩

/-- Refutes O41, in the clause of `sfpLate`: it has the record of SFP_LATE name the slot of its group (GV), for a group inside its save
routine too. `savingGroup` has been suspended there and has no slot, so that R361 leaves SLOT and GID of its record invalid. -/
theorem not_taskEvents : ¬ Obligations.TaskEvents := by
  intro h
  obtain ⟨-, -, -, -, hlate, -⟩ := h lateInSave
  obtain ⟨t, ht, -, r, hr, -, -, hgv⟩ := hlate 1 0 saveRequest (preempts_lateInSave ▸ List.mem_singleton_self _)
    (1, savingGroup) (List.mem_singleton_self _) rfl isLate_savingGroup rfl
  obtain ⟨t', ht', hnames⟩ := exec_sfpLate_lateInSave
  obtain rfl : t' = t := Host.Outcome.next.inj (ht'.symm.trans ht)
  simp [hnames r (List.mem_of_mem_drop hr)] at hgv

end Sys2Proof.Machine


/-! ## A dirty stash word of which some bytes lie on a line in lease mode (R72, R74) -/

namespace Sys2Proof.Machine

/-- An entry of context 1 that maps fields of 2 bytes, 64 KiB apart, from 0x10000 to the first stash line. -/
def spreadEntry : MapEntry :=
  { cap := capWithBounds { Cap.null with addr := 0x10000, perms := Claim.pR ||| Claim.pW, tag := true } 0x10000 0x20002
    rwm := true, gath := false, err := false, ctx := 1, stride := 0x10000, foff := 0, flen := 2, count := 2, sbase := 0, slen := 1, idx := 0
    fills := 0, wbacks := 0 }

/-- Its first word: two bytes of line 0x200, a copy under a lease of the version of timestamp 1, and two of line 0x400. -/
def halfLeasedWord : SWord :=
  { SWord.zero with
    v := true, d := true, bound := [some 0x10000, some 0x10001, some 0x20000, some 0x20001], rts := some 4, wtss := [(0x200, 1)] }

/-- The stash byte that stands for 0x10000 is 3. Line 0x200 has been written since, at timestamp 5, and holds 7 there. -/
def writtenSince : State :=
  { State.reset with
    nextId := 2, cur := { uid := 1, entry := 0, tick := 0 }, tasks := [(1, loadTask)], groups := [(1, loadGroup)]
    cores := [(0, { Core.reset with stash := [(0, 3)], maps := [(0, spreadEntry)], swords := [(0, halfLeasedWord)] })]
    homes := { Homes.reset with
      mem := [(0x10000, 7)]
      dir := [(0x200, { DirEntry.empty with lmode := true, wts := 5, rts := 5 }),
              (0x400, { DirEntry.empty with owners := [{ pair := 0, unit := 1, mask := 1 }] })] } }

theorem settled_writtenSince : Claim.Settled writtenSince 0 ∧ Claim.Full writtenSince [1] := by
  unfold Claim.Settled Claim.Full
  decide +kernel

theorem entryAt_writtenSince : entryAt (getC writtenSince 0) 1 0 = some (0, spreadEntry) := by decide +kernel

theorem dirtyBytes_writtenSince {inside : Nat → Bool} (h : inside 0 = true) :
    Claim.dirtyBytes writtenSince 0 inside = [(0x10000, 3), (0x10001, 0), (0x20000, 0), (0x20001, 0)] := by
  have hword : (getC writtenSince 0).swords = [(0, halfLeasedWord)] := rfl
  rw [Claim.dirtyBytes, hword, List.filter_cons_of_pos (by rw [h]; rfl)]
  rfl

/-- A write-back of the word as the statement has it takes the leased byte home too. -/
theorem memByte_of_writtenBack {t : State} {inside : Nat → Bool} (hin : inside 0 = true)
    (h : Claim.WrittenBack writtenSince t (Claim.dirtyBytes writtenSince 0 inside)) : memByte t 0x10000 = 3 := by
  rw [dirtyBytes_writtenSince hin] at h
  rcases h 0x10000 with hmem | ⟨hnone, -⟩
  · simpa using hmem
  · exact absurd rfl (hnone (0x10000, 3) List.mem_cons_self)

/-- R74: the byte of the leased line stays at its home as the later write left it. -/
theorem exec_sunmap_writtenSince : ∃ t, exec (.sunmap 0 1) writtenSince = .next t ∧ memByte t 0x10000 = 7 :=
  ⟨_, rfl, by decide +kernel⟩

/-- Refutes O44, in the clause of `sunmap`: it has every byte of a dirty word written back, and a dirty word may hold bytes of a line in lease
mode beside those that its stash owns (log 23). These lie at their home already (R74). In `writtenSince` the home of such a byte has been
written again since, and `sunmap` rightly leaves 7 there, where the statement asks for the 3 of the stash. -/
theorem not_stashMappings : ¬ Obligations.StashMappings := by
  rintro ⟨-, h⟩
  obtain ⟨hsettled, hfull⟩ := settled_writtenSince
  obtain ⟨hsunmap, -⟩ := h writtenSince hsettled
  obtain ⟨-, hmapped⟩ := hsunmap 0 1 hfull
  obtain ⟨t, ht, -, -, -, hback, -⟩ := hmapped (0, spreadEntry) entryAt_writtenSince rfl
  obtain ⟨t', ht', hkept⟩ := exec_sunmap_writtenSince
  obtain rfl : t' = t := Host.Outcome.next.inj (ht'.symm.trans ht)
  rw [memByte_of_writtenBack (by decide) hback] at hkept
  exact absurd hkept (by decide)

end Sys2Proof.Machine

/-! ## A store to a word that another group of the pair has stored to before (R89) -/

namespace Sys2Proof.Machine

/-- A page of global memory, to be read and written. -/
def sharedPage : Cap :=
  capWithBounds { Cap.null with addr := 0x5000000000, perms := Claim.pR ||| Claim.pW, tag := true } 0x5000000000 0x5000010000

/-- One of the two groups of a task, with `sharedPage` in c2 and its number in s6. -/
def storingGroup (n : Nat) : Group :=
  { loadGroup with
    uid := n, gid := BitVec.ofNat 32 (n - 1), slot := some (n - 1), ngrp := 2, c := [(2, sharedPage)], s := [(6, BitVec.ofNat 64 n)] }

/-- Groups 1 and 2 are on core 0, whose TLB holds the page; group 2 issues. -/
def twoGroups : State :=
  { State.reset with
    nextId := 3, cur := { uid := 2, entry := 0, tick := 0 }, tasks := [(1, { loadTask with ngroups := 2, placed := 2 })]
    groups := [(1, storingGroup 1), (2, storingGroup 2)], ctxs := [(1, { Ctx.reset with live := true })]
    cores := [(0, { Core.reset with tlb := [{ ctx := 1, vbase := 0x500000, leaf := { loadLeaf with w := true, base := 0x20000000 } }] })] }

/-- `sst.b32 s6, [c2, s0]`. -/
def wordStore : Instr := .sst 0 0 2 0 6 0 2

/-- Group 2 has issued `wordStore`, whose ownership request is on its way; now group 1 issues. -/
def storedBefore : State :=
  match exec wordStore twoGroups with
  | .next t => { t with cur := { uid := 1, entry := 0, tick := 1 } }
  | _ => twoGroups

/-- The access and the form of group 1's `wordStore`. -/
def wordStoreAccess : Claim.Access :=
  { Claim.plain sharedPage 2 (Claim.pR ||| Claim.pW) [0, 1, 3] 4 false [(0, 0x5000000000)] with scal := [0, 6] }
def wordStoreForm : Claim.Form := Claim.storeForm 2 1 (fun _ => 1) false

/-- The first word of the page, as that access reaches it. -/
def sharedWord : Piece :=
  { thread := 0, space := 0, place := 0x20000000, size := 4, val := 1, exp := 0, shown := 0x5000000000, gen := 0, mode := 0, mbf := 0,
    bound := [] }

theorem accessOf_wordStore : Claim.accessOf storedBefore wordStore = some wordStoreAccess := rfl
theorem formOf_wordStore : Claim.formOf storedBefore wordStore = some wordStoreForm := rfl
theorem uid_storedBefore : (curG storedBefore).uid = storedBefore.cur.uid := by decide
theorem placeAll_wordStore : placeAll storedBefore .store sharedPage (some 2) 4 (fun _ => 1) (fun _ => 0) [(0, 0x5000000000)] =
    .ok ([sharedWord], []) := rfl

/-- The store passes every check, and core 0's pair holds nothing of the line yet. -/
theorem passes_wordStore : Claim.Readable storedBefore wordStoreAccess ∧ Claim.firstFault storedBefore wordStoreAccess = none ∧
    Claim.NeedsRequest storedBefore 1 sharedWord ∧ Claim.PagesAllow storedBefore sharedPage wordStoreForm sharedWord ∧
    Claim.SlotsFor (curG storedBefore) .none false ∧ (getC storedBefore (curG storedBefore).core).fifo.length + 1 + 1 ≤ 256 := by
  unfold Claim.Readable Claim.Full Claim.NeedsRequest Claim.OnSome Claim.PagesAllow Claim.SlotsFor
  decide

/-- R89: the store is not held back, and its request, which is not sent, has merged into that of group 2. -/
theorem exec_wordStore : ∃ t, exec wordStore storedBefore = .next t ∧
    (opOf (curG t) storedBefore.nextId).map (fun o => o.held) = some false ∧
    ∀ q ∈ t.reqs, q.2.agent = .group 1 storedBefore.nextId →
      arrivalEvent q.2 ∉ t.agenda ∧ ∀ r ∈ t.reqs, q.1 ∈ r.2.merged → reqUid r.2 = 2 :=
  ⟨_, rfl, by decide, by decide⟩

/-- What the statement asks of a piece fails where the operation's requests are not sent, and merge into those of another group only. -/
theorem not_sent_of_merged {s t : State} {ok : ReqKind → Bool} {ps : List Piece} {p : Piece} {uid id other : Nat} (hother : other ≠ uid)
    (hmerged : ∀ q ∈ t.reqs, q.2.agent = .group uid id →
      arrivalEvent q.2 ∉ t.agenda ∧ ∀ r ∈ t.reqs, q.1 ∈ r.2.merged → reqUid r.2 = other) :
    ¬ Claim.Sent s t uid id ok ps p := by
  rintro ⟨q, hq, hagent, -, -, -, -, -, -, hway⟩
  obtain ⟨hunsent, hinto⟩ := hmerged q hq hagent
  rcases hway with hsent | ⟨r, hr, hmember, -, -, ⟨_, hown⟩, -⟩
  · exact hunsent hsent
  · have huid := hinto r hr hmember
    rw [reqUid, hown] at huid
    exact hother huid.symm

/-- Refutes O18: it has each request of the operation sent, or merged into a pending request of the same group. R89 merges a store into the
pending store of its unit, whichever group made that: in `storedBefore` a group of the core has stored to the word before, so that the
request of group 1's store has merged into the request of group 2. -/
theorem not_memoryRequests : ¬ Obligations.MemoryRequests := by
  intro h
  obtain ⟨hread, hfault, hneeds, hallow, hslots, hroom⟩ := passes_wordStore
  have hpieces : ∀ p ∈ [sharedWord], Claim.NeedsRequest storedBefore 1 p ∧ Claim.PagesAllow storedBefore sharedPage wordStoreForm p := by
    simpa using ⟨hneeds, hallow⟩
  obtain ⟨t, ht, -, -, hissued, hop⟩ := h storedBefore wordStore rfl wordStoreAccess accessOf_wordStore wordStoreForm formOf_wordStore
    uid_storedBefore (List.cons_ne_nil _ _) hread hfault _ placeAll_wordStore rfl hpieces hslots (.inl rfl) hroom
  obtain ⟨o, ho⟩ := Option.isSome_iff_exists.mp hissued
  obtain ⟨-, -, -, -, -, -, -, -, -, -, hsent⟩ := hop o ho
  obtain ⟨t', ht', hheld, hmerged⟩ := exec_wordStore
  obtain rfl : t' = t := Host.Outcome.next.inj (ht'.symm.trans ht)
  have hfree : o.held = false := by simpa [ho] using hheld
  obtain ⟨-, hway⟩ := hsent hfree
  exact not_sent_of_merged (by decide) hmerged (hway sharedWord (List.mem_singleton_self _))

end Sys2Proof.Machine


/-! ## A fence of a fragment whose number is no entry of the split table (R102, R175) -/

namespace Sys2Proof.Machine

/-- Entry 8 of the split table of a group issues, with no operation outstanding. It stands at an instruction of which threads are left
unfinished. -/
def ninthFragment : State :=
  { State.reset with
    nextId := 2, cur := { uid := 1, entry := 8, tick := 0 }, tasks := [(1, loadTask)]
    groups := [(1, { loadGroup with split := [(8, { Split.free with valid := true, mask := 1, pc := 0x2000, redoAt := some (0x2000, 1) })] })] }

theorem fenceWaits_ninthFragment : Claim.fenceWaits ninthFragment (some 3) 1 = true := rfl

/-- The order of fragments is kept for the eight entries that a split table has, so that nothing is found for the fence to wait for. -/
theorem exec_fence_ninthFragment : ∃ t, exec (.fence 1 3) ninthFragment = .next t ∧ (curG t).ops = [] :=
  ⟨_, rfl, rfl⟩

/-- Refutes O47, in the clause of a `fence` that waits: for the unfinished threads of an earlier instruction the statement looks at the
issuing entry of the split table whatever its number is, and the model at the entries 0 to 7 alone. In `ninthFragment` entry 8 issues a
`fence` beyond scope grp, which is to enter the group's operations and does not. The statement speaks of every state and does not ask for
an entry below 8; a split table has eight entries (R175) and the scheduler picks from these, so that no run from reset reaches such a
state. -/
theorem not_fencesAndBarriers : ¬ Obligations.FencesAndBarriers := by
  rintro ⟨hfences, -⟩
  obtain ⟨-, hwaits⟩ := hfences ninthFragment 1 3 rfl _ List.mem_cons_self rfl
  obtain ⟨t, ht, -, -, -, ⟨hops, -⟩, -⟩ := hwaits (by decide) fenceWaits_ninthFragment
  obtain ⟨t', ht', hnone⟩ := exec_fence_ninthFragment
  obtain rfl : t' = t := Host.Outcome.next.inj (ht'.symm.trans ht)
  rw [hnone] at hops
  exact List.append_ne_nil_of_right_ne_nil _ (List.cons_ne_nil _ _) hops.symm

end Sys2Proof.Machine


/-! ## A write to host memory with a piece of the stash (R64, R368) -/

namespace Sys2Proof.Machine

/-- Request 3, a write of group 1 to host memory. Its one byte lies at stash byte 0, which stands for global byte 5. -/
def stashPieceWrite : Req :=
  { newReq (.group 1 7) 0 1 .write 0 with
    id := 3, mode := 2
    pieces := [{ thread := 0, space := 1, place := 0, size := 1, val := 7, exp := 0, shown := 0, gen := 0, mode := 2, mbf := 0, bound := [some 5] }] }

/-- The host port of die 0 has request 3 to send. -/
def stashToHost : State :=
  { State.reset with nextId := 8, reqs := [(3, stashPieceWrite)], groups := [(1, loadGroup)], tasks := [(1, loadTask)] }

theorem reqBytes_stashPieceWrite : reqBytes stashPieceWrite = [(5, 7)] := by decide

/-- The port writes the byte where the piece lies. -/
theorem exec_hostPortWriteSent_stashToHost : ∃ t, exec (.hostPortWriteSent 3) stashToHost = .next t ∧ fget 0 t.host 5 = 0 :=
  ⟨_, rfl, rfl⟩

/-- Refutes O32, in the clause of a write that a host port has sent: it names the bytes of host memory by `reqBytes`, which reads a piece of
the stash as the global bytes that it stands for, while the port writes every piece at its own place. `stashToHost` meets the hypotheses,
with such a piece in the request, and host byte 5 stays 0. The statement speaks of every state; a mapped stash word is not stored to under
page mode 2 (`modeCause`), and stores to host memory go out with pieces of space 3 (`sendHost`), so that no run from reset makes such a
request. -/
theorem not_hostAndLinkEvents : ¬ Obligations.HostAndLinkEvents := by
  intro h
  obtain ⟨-, -, -, hsent, -⟩ := h stashToHost
  obtain ⟨t, ht, -, -, hbytes⟩ := hsent 3 rfl (by decide) rfl rfl rfl (by decide)
  obtain ⟨t', ht', hkept⟩ := exec_hostPortWriteSent_stashToHost
  obtain rfl : t' = t := Host.Outcome.next.inj (ht'.symm.trans ht)
  have hmem : ((5, 7) : Nat × Byte) ∈ reqBytes stashPieceWrite := by rw [reqBytes_stashPieceWrite]; exact List.mem_cons_self
  have hlone : Claim.Lone stashPieceWrite (5, 7) := ⟨hmem, fun y hy _ => by simpa [reqBytes_stashPieceWrite] using hy⟩
  have hbyte : fget 0 t'.host 5 = 7 := hbytes (5, 7) hmem hlone (by decide)
  rw [hkept] at hbyte
  exact absurd hbyte (by decide)

end Sys2Proof.Machine


/-! ## What leaves every stash byte and every fragment where it is

The deposit of a record may write another one to memory (R196), which recalls copies of the lines that it reaches. None of this changes a
byte of a stash, the fragment that issues, a handler state or a PC. -/

namespace Sys2Proof.Machine

/-- Two records of a group with one handler state, and the same PC for each fragment. -/
def SamePlace (g h : Group) : Prop := h.handler = g.handler ∧ ∀ k, (getF h k).pc = (getF g k).pc

theorem samePlace_of_fields {g h : Group} (hh : h.handler = g.handler) (hs : h.split = g.split) : SamePlace g h :=
  ⟨hh, fun k => by rw [getF, hs, ← getF]⟩

theorem SamePlace.symm {g h : Group} (H : SamePlace g h) : SamePlace h g := ⟨H.1.symm, fun k => (H.2 k).symm⟩

theorem SamePlace.trans {f g h : Group} (H : SamePlace f g) (K : SamePlace g h) : SamePlace f h :=
  ⟨K.1.trans H.1, fun k => (K.2 k).trans (H.2 k)⟩

/-- A change of a fragment that keeps its PC. -/
theorem samePlace_modF {g : Group} {k : Nat} {f : Split → Split} (hf : ∀ x, (f x).pc = x.pc) : SamePlace g (modF g k f) := by
  refine ⟨rfl, fun j => ?_⟩
  rw [modF, getF_setF]
  split_ifs with h
  · rw [hf, h]
  · rfl

/-- The same fragment issues, and every group is at the same place. -/
structure Unmoved (s t : State) : Prop where
  cur : t.cur = s.cur
  groups : ∀ u, SamePlace (getG s u) (getG t u)

/-- Besides, the stash of every core is as it was. -/
structure Quiet (s t : State) : Prop extends Unmoved s t where
  stash : ∀ c, (getC t c).stash = (getC s c).stash

theorem Unmoved.trans {r s t : State} (h : Unmoved r s) (k : Unmoved s t) : Unmoved r t :=
  ⟨k.cur.trans h.cur, fun u => (h.groups u).trans (k.groups u)⟩

theorem Quiet.trans {r s t : State} (h : Quiet r s) (k : Quiet s t) : Quiet r t :=
  ⟨h.toUnmoved.trans k.toUnmoved, fun c => (k.stash c).trans (h.stash c)⟩

theorem Quiet.refl (s : State) : Quiet s s := ⟨⟨rfl, fun _ => ⟨rfl, fun _ => rfl⟩⟩, fun _ => rfl⟩

/-! The updates of a state. -/

section
variable {r s t : State}

/-- Nothing but the groups, the cores and the cursor counts. -/
theorem quiet_of_same (h : Quiet r s) (hcur : t.cur = s.cur) (hgroups : t.groups = s.groups) (hcores : t.cores = s.cores) : Quiet r t := by
  refine ⟨⟨hcur.trans h.cur, fun u => ?_⟩, fun c => ?_⟩
  · rw [show getG t u = getG s u by rw [getG, hgroups, ← getG]]
    exact h.groups u
  · rw [show getC t c = getC s c by rw [getC, hcores, ← getC]]
    exact h.stash c

theorem quiet_modH {f} (h : Quiet r s) : Quiet r (modH s f) := quiet_of_same h rfl rfl rfl
theorem quiet_modX {c f} (h : Quiet r s) : Quiet r (modX s c f) := quiet_of_same h rfl rfl rfl
theorem quiet_push {e} (h : Quiet r s) : Quiet r (push s e) := quiet_of_same h rfl rfl rfl

theorem quiet_modC {c : Nat} {f : Core → Core} (h : Quiet r s) (hf : ∀ x, (f x).stash = x.stash) : Quiet r (modC s c f) := by
  refine ⟨⟨h.cur, h.groups⟩, fun d => ?_⟩
  rw [modC, getC_setC]
  split_ifs with hd
  · rw [hf, ← hd]
    exact h.stash d
  · exact h.stash d

theorem quiet_setG {u : Nat} {g : Group} (h : Quiet r s) (hg : SamePlace (getG s u) g) : Quiet r (setG s u g) := by
  refine ⟨⟨h.cur, fun v => ?_⟩, h.stash⟩
  rw [getG_setG]
  split_ifs with hv
  · exact hv ▸ (h.groups u).trans hg
  · exact h.groups v

theorem quiet_foldl {α : Type} {f : State → α → State} {l : List α} (hf : ∀ t a, Quiet r t → Quiet r (f t a)) (h : Quiet r s) :
    Quiet r (l.foldl f s) := by
  induction l generalizing s with
  | nil => exact h
  | cons a l ih => exact ih (hf s a h)

theorem quiet_addFault {x} (h : Quiet r s) : Quiet r (addFault s x) := quiet_modX h

theorem quiet_traceDone {core op} (h : Quiet r s) : Quiet r (traceDone s core op) := quiet_modC h fun _ => rfl

/-! Homes, caches and stash words. -/

theorem quiet_setDir {line e} (h : Quiet r s) : Quiet r (setDir s line e) := quiet_modH h

theorem quiet_modDir {line f} (h : Quiet r s) : Quiet r (modDir s line f) := quiet_setDir h

theorem quiet_setTag {pa x} (h : Quiet r s) : Quiet r (setTag s pa x) := quiet_modH h

theorem quiet_setMem {pa b} (h : Quiet r s) : Quiet r (setMem s pa b) := quiet_modH h

theorem quiet_memBytes {pa bs} (h : Quiet r s) : Quiet r (memBytes s pa bs) := quiet_modH h

theorem quiet_watchWord {core ctx by_ w} (h : Quiet r s) : Quiet r (watchWord s core ctx by_ w) := by
  unfold watchWord
  refine quiet_foldl (fun _ _ ht => ?_) h
  extract_lets _ _ _ _ s1
  have h1 : Quiet r s1 := quiet_addFault ht
  split
  · exact ht
  · split
    · exact h1
    · exact quiet_push h1

theorem quiet_watchWords {core by_ ks} (h : Quiet r s) : Quiet r (watchWords s core by_ ks) := by
  unfold watchWords
  refine quiet_foldl (fun _ _ ht => ?_) h
  split
  · exact quiet_watchWord ht
  · exact ht

theorem quiet_watchUnit {line pair unit mask by_} (h : Quiet r s) : Quiet r (watchUnit s line pair unit mask by_) := by
  unfold watchUnit
  split
  · exact h
  · exact quiet_watchWords h

theorem quiet_setSWord {core k w} (h : Quiet r s) : Quiet r (setSWord s core k w) := quiet_modC h fun _ => rfl

theorem quiet_disown {line pair unit mask} (h : Quiet r s) : Quiet r (disown s line pair unit mask) := by
  unfold disown
  exact quiet_modDir h

theorem quiet_packLine {line mbf} (h : Quiet r s) : Quiet r (packLine s line mbf) := by
  unfold packLine
  split
  · exact h
  · exact quiet_modH h

theorem quiet_repackLine {line} (h : Quiet r s) : Quiet r (repackLine s line) := quiet_packLine h

theorem quiet_tidyPair {pair line} (h : Quiet r s) : Quiet r (tidyPair s pair line) := by
  unfold tidyPair
  split
  · exact h
  · split
    · exact h
    · exact quiet_modH h

theorem quiet_tidySlice {slice line} (h : Quiet r s) : Quiet r (tidySlice s slice line) := by
  unfold tidySlice
  split
  · exact h
  · exact quiet_modH h

theorem quiet_dropPair {line pair keep mask by_} (h : Quiet r s) : Quiet r (dropPair s line pair keep mask by_) := by
  unfold dropPair
  extract_lets _ s' s1
  have h' : Quiet r s' := quiet_of_same h rfl rfl rfl
  have h1 : Quiet r s1 := by
    refine quiet_foldl (fun _ _ ht => ?_) h'
    extract_lets _ s'' s'''
    have h'' : Quiet r s'' := by
      unfold s''
      split
      · exact ht
      · exact quiet_modH ht
    have h''' : Quiet r s''' := quiet_modH h''
    refine quiet_foldl (fun _ _ ht' => ?_) h'''
    split
    · exact ht'
    · refine quiet_foldl (fun _ _ ht'' => ?_) ht'
      split
      · exact ht''
      · exact quiet_setSWord (quiet_watchWords ht'')
  exact quiet_tidySlice (quiet_tidyPair h1)

theorem quiet_dropReplicaAt {line slice keepPair keepUnit mask by_} (h : Quiet r s) :
    Quiet r (dropReplicaAt s line slice keepPair keepUnit mask by_) := by
  unfold dropReplicaAt
  extract_lets s1
  have h1 : Quiet r s1 := quiet_foldl (fun _ _ ht => quiet_modH ht) h
  exact quiet_tidySlice (quiet_foldl (fun _ _ ht => quiet_dropPair ht) h1)

theorem quiet_replicaReport {line die} (h : Quiet r s) : Quiet r (replicaReport s line die) := by
  unfold replicaReport
  split
  · exact h
  · exact quiet_modDir h

theorem quiet_dropReplica {line die keepPair keepUnit mask by_} (h : Quiet r s) :
    Quiet r (dropReplica s line die keepPair keepUnit mask by_) :=
  quiet_replicaReport (quiet_foldl (fun _ _ ht => quiet_dropReplicaAt ht) h)

theorem quiet_sliceVictim {slice w} (h : Quiet r s) : Quiet r (sliceVictim s slice w) := by
  unfold sliceVictim
  split
  · exact quiet_replicaReport (quiet_dropReplicaAt h)
  · exact quiet_modH h
  · exact h

theorem quiet_sliceTouch {slice line kind mbf} (h : Quiet r s) : Quiet r (sliceTouch s slice line kind mbf) := by
  unfold sliceTouch
  extract_lets _ _ _ _ _ _ _ victim s1
  have h1 : Quiet r s1 := by
    unfold s1 victim
    split
    · exact quiet_sliceVictim h
    · exact h
  split
  · exact quiet_modH h
  · split
    · exact h
    · exact quiet_modH h1

theorem quiet_homeTouch {line mbf} (h : Quiet r s) : Quiet r (homeTouch s line mbf) := quiet_sliceTouch (quiet_packLine h)

theorem quiet_countWbacks {core ks} (h : Quiet r s) : Quiet r (countWbacks s core ks) := by
  unfold countWbacks
  extract_lets
  split
  · exact h
  · exact quiet_modC h fun _ => rfl

theorem quiet_writeBackStash {core k} (h : Quiet r s) : Quiet r (writeBackStash s core k) := by
  unfold writeBackStash
  extract_lets _ _ _ _ s1 _ s2 s3
  have h1 : Quiet r s1 := quiet_foldl (fun _ _ ht => quiet_setTag (quiet_setMem ht)) h
  have h2 : Quiet r s2 := quiet_foldl (fun _ _ ht => quiet_homeTouch ht) h1
  have h3 : Quiet r s3 := quiet_setSWord h2
  split
  · exact h
  · refine quiet_foldl (fun _ _ ht => ?_) h3
    split
    · exact ht
    · extract_lets s4
      have h4 : Quiet r s4 := quiet_disown ht
      exact quiet_modDir h4

theorem quiet_recallUnit {line pair unit mask by_} (h : Quiet r s) : Quiet r (recallUnit s line pair unit mask by_) := by
  unfold recallUnit
  extract_lets s' _ _ _ _ s'' s1
  have h' : Quiet r s' := quiet_watchUnit h
  have h'' : Quiet r s'' := by
    refine quiet_foldl (fun _ _ ht => ?_) h'
    extract_lets
    split
    · exact ht
    · extract_lets s'''
      have h''' : Quiet r s''' := by
        unfold s'''
        split
        · exact quiet_memBytes ht
        · exact ht
      exact quiet_modH h'''
  have h1 : Quiet r s1 := by
    unfold s1
    split
    · exact quiet_homeTouch (quiet_tidyPair h'')
    · exact quiet_countWbacks (quiet_foldl (fun _ _ ht => quiet_setSWord (quiet_writeBackStash ht)) h')
  exact quiet_disown h1

theorem quiet_dropHost {line mask} (h : Quiet r s) : Quiet r (dropHost s line mask) := by
  unfold dropHost
  split
  · exact h
  · exact quiet_modDir (quiet_modH h)

theorem quiet_dropCpe {line mask} (h : Quiet r s) : Quiet r (dropCpe s line mask) := by
  unfold dropCpe
  split
  · exact h
  · exact quiet_modDir (quiet_modH h)

theorem quiet_dropSharers {line mask pair unit by_} (h : Quiet r s) : Quiet r (dropSharers s line mask pair unit by_) := by
  unfold dropSharers
  extract_lets _ s1
  have h1 : Quiet r s1 := quiet_foldl (fun _ _ ht => quiet_dropPair ht) h
  exact quiet_dropCpe (quiet_dropHost (quiet_foldl (fun _ _ ht => quiet_dropReplica ht) h1))

theorem quiet_clearCopies {line mask pair unit by_} (h : Quiet r s) : Quiet r (clearCopies s line mask pair unit by_) :=
  quiet_dropSharers (quiet_foldl (fun _ _ ht => quiet_recallUnit ht) h)

theorem quiet_devByte {by_ pa b} (h : Quiet r s) : Quiet r (devByte s by_ pa b) :=
  quiet_setTag (quiet_setMem (quiet_clearCopies h))

theorem quiet_devBytes {by_ pa bs} (h : Quiet r s) : Quiet r (devBytes s by_ pa bs) := by
  induction bs generalizing s pa with
  | nil => exact h
  | cons b bs ih => exact ih (quiet_devByte h)

theorem quiet_devWrite {pa bs} (h : Quiet r s) : Quiet r (devWrite s pa bs) :=
  quiet_foldl (fun _ _ ht => quiet_repackLine ht) (quiet_devBytes h)

/-! Records. -/

theorem quiet_contOverflow {g sub addr} (h : Quiet r s) : Quiet r (contOverflow s g sub addr) := quiet_modX (quiet_addFault h)

theorem quiet_keepRecord {x} (h : Quiet r s) : Quiet r (keepRecord s x) := by
  unfold keepRecord
  extract_lets
  split
  · exact quiet_of_same h rfl rfl rfl
  · exact quiet_setG (quiet_of_same h rfl rfl rfl) (samePlace_of_fields rfl rfl)

theorem quiet_writeRecord {x} (h : Quiet r s) : Quiet r (writeRecord s x) := by
  unfold writeRecord
  extract_lets
  split
  · exact quiet_contOverflow (quiet_keepRecord h)
  · split
    · exact quiet_keepRecord h
    · extract_lets s1 s2
      have h1 : Quiet r s1 := quiet_foldl (fun _ _ ht => quiet_devWrite ht) h
      have h2 : Quiet r s2 := quiet_foldl (fun _ _ ht => quiet_setTag ht) h1
      exact quiet_of_same h2 rfl rfl rfl

theorem quiet_cacheRoom {core} (h : Quiet r s) : Quiet r (cacheRoom s core).1 := by
  unfold cacheRoom
  extract_lets
  split
  · exact h
  · split
    · exact quiet_writeRecord (quiet_of_same h rfl rfl rfl)
    · exact h

theorem samePlace_sPut (g : Group) (d : BitVec 6) (v : DWord) : SamePlace g (sPut g d v) := by
  rw [sPut_rest]
  exact samePlace_of_fields rfl rfl

theorem quiet_grantClaims {core lane n} (h : Quiet r s) : Quiet r (grantClaims s core lane n) := by
  induction n generalizing s with
  | zero => exact h
  | succ n ih =>
    rw [grantClaims]
    split
    · exact h
    next uid _ =>
      extract_lets g
      split
      · exact quiet_modC h fun _ => rfl
      · extract_lets g1 s1
        have hg : SamePlace (getG s uid) g1 := samePlace_of_fields rfl rfl
        have h1 : Quiet r s1 := quiet_traceDone (quiet_setG h (hg.trans (samePlace_sPut _ _ _)))
        split
        · exact h
        · exact ih (quiet_modC h1 fun _ => rfl)

theorem quiet_leaveLane {uid} (h : Quiet r s) : Quiet r (leaveLane s uid) := by
  unfold leaveLane
  extract_lets _ s1 s2
  have h1 : Quiet r s1 := quiet_setG h (samePlace_of_fields rfl rfl)
  have h2 : Quiet r s2 := quiet_modC h1 fun _ => rfl
  split
  · exact h
  · exact quiet_grantClaims h2

theorem quiet_placeRecord {x} (h : Quiet r s) : Quiet r (placeRecord s x) := by
  unfold placeRecord
  extract_lets g _ _ _ r1 stay
  have hstay : ∀ t, Quiet s t → Quiet s (stay t) := fun t ht =>
    quiet_setG ht ((ht.groups x.uid).symm.trans (samePlace_of_fields rfl rfl))
  refine h.trans ?_
  split
  · exact hstay s (.refl s)
  · split
    · exact quiet_contOverflow (hstay s (.refl s))
    · have hroom : Quiet s (cacheRoom s g.core).1 := quiet_cacheRoom (.refl s)
      split
      next s1 e1 =>
        rw [e1] at hroom
        exact hstay s1 hroom
      next s1 e1 =>
        rw [e1] at hroom
        extract_lets s2 s3
        have h2 : Quiet s s2 := by
          unfold s2
          split
          · exact hroom
          · exact quiet_modC hroom fun _ => rfl
        have h3 : Quiet s s3 := quiet_of_same h2 rfl rfl rfl
        split
        · exact quiet_leaveLane h3
        · exact h3

theorem quiet_depositWhy {uid k cond mask st trap why sfpd held} (h : Quiet r s) :
    Quiet r (depositWhy s uid k cond mask st trap why sfpd held) := by
  unfold depositWhy
  extract_lets _ s1
  have h1 : Quiet r s1 := quiet_setG h (samePlace_modF fun _ => rfl)
  exact quiet_placeRecord h1

theorem quiet_suspendCur {c} (h : Quiet r s) : Quiet r (suspendCur s c) := quiet_depositWhy h

end

end Sys2Proof.Machine


/-! ## An arrival at a barrier word keeps each group in its place

R158, R424: the count changes the stash word of the barrier, the destinations of the arrivals and the records that name them. It moves no
fragment, and no group enters or leaves its handler. -/

namespace Sys2Proof.Machine

theorem samePlace_refl (g : Group) : SamePlace g g := samePlace_of_fields rfl rfl

theorem samePlace_putV (g : Group) (r : Nat) (v : VVal) : SamePlace g (putV g r v) := by
  unfold putV takeSlot dropSlot
  extract_lets g1
  have h1 : SamePlace g g1 := by
    unfold g1
    split
    · split
      · exact samePlace_refl g
      · split <;> exact samePlace_of_fields rfl rfl
    · exact samePlace_of_fields rfl rfl
  exact h1.trans (samePlace_of_fields rfl rfl)

theorem samePlace_cPut (g : Group) (d : BitVec 4) (v : Cap) : SamePlace g (cPut g d v) := by
  rw [cPut_rest]
  exact samePlace_of_fields rfl rfl

theorem samePlace_writeGot (g : Group) (o : Op) : SamePlace g (writeGot g o) := by
  unfold writeGot
  split
  · exact samePlace_refl g
  · cases o.dst with
    | none => exact samePlace_refl g
    | vec r => exact samePlace_putV _ _ _
    | pair r => exact (samePlace_putV _ _ _).trans (samePlace_putV _ _ _)
    | scalar r => exact samePlace_sPut _ _ _
    | capreg r => exact samePlace_cPut _ _ _

theorem samePlace_setEmpty (g : Group) (d : Dest) (e : Bool) : SamePlace g (setEmpty g d e) := by
  cases d with
  | none => exact samePlace_refl g
  | scalar r =>
    unfold setEmpty sMakeEmpty
    dsimp only
    split_ifs <;> exact samePlace_of_fields rfl rfl
  | vec r | pair r | capreg r => exact samePlace_of_fields rfl rfl

theorem samePlace_dropOp (g : Group) (id : Nat) : SamePlace g (dropOp g id) := samePlace_of_fields rfl rfl

section
variable {r s : State}

theorem quiet_raiseDeferred {uid d x} (h : Quiet r s) : Quiet r (raiseDeferred s uid d x) := by
  unfold raiseDeferred
  extract_lets
  split
  · exact quiet_setG h (samePlace_of_fields rfl rfl)
  · exact quiet_addFault h

theorem quiet_tellRefused {g o} (h : Quiet r s) : Quiet r (tellRefused s g o) := by
  unfold tellRefused
  split
  · exact h
  · exact quiet_raiseDeferred h

theorem quiet_modT {k f} (h : Quiet r s) : Quiet r (modT s k f) := quiet_of_same h rfl rfl rfl

theorem quiet_finishOp {uid id} (h : Quiet r s) : Quiet r (finishOp s uid id) := by
  unfold finishOp
  extract_lets g
  split
  · exact h
  · split
    next o fl _ =>
      extract_lets s' g1 busy g2 g3
      have hg1 : SamePlace g g1 := samePlace_writeGot g o
      have hg3 : SamePlace g g3 := by
        unfold g3
        split
        · exact hg1.trans (samePlace_dropOp _ _)
        · exact (hg1.trans (samePlace_setEmpty _ _ _)).trans (samePlace_dropOp _ _)
      have h' : Quiet r s' ∧ getG s' uid = g := by
        unfold s'
        split
        · exact ⟨h, rfl⟩
        · exact ⟨quiet_modT h, rfl⟩
      exact quiet_tellRefused (quiet_traceDone (quiet_setG h'.1 (h'.2 ▸ hg3)))

theorem quiet_barCounted {addr x} (h : Quiet r s) : Quiet r (barCounted s addr x) := by
  unfold barCounted
  split
  · exact h
  · extract_lets _ s1 s2
    have h1 : Quiet r s1 := quiet_of_same h rfl rfl rfl
    have h2 : Quiet r s2 := quiet_setG h1 (samePlace_of_fields rfl rfl)
    exact quiet_finishOp h2

end

/-- R158: the update of a word changes nothing but the core that has it, and the events to come. -/
theorem unmoved_barCount {s : State} {core addr : Nat} {l : List Arrival} : Unmoved s (barCount s core addr l).1 := by
  unfold barCount
  extract_lets _ _ _ _ _ s1 s2
  have h1 : Unmoved s s1 := ⟨rfl, fun _ => samePlace_refl _⟩
  have h2 : Unmoved s s2 := by
    unfold s2
    split
    · exact h1.trans (quiet_push (.refl s1)).toUnmoved
    · exact h1
  exact h2

theorem unmoved_countGathered {s : State} {core addr : Nat} {more : List Arrival} : Unmoved s (countGathered s core addr more).1 := by
  unfold countGathered
  extract_lets l s0 ctx
  have h0 : Quiet s s0 := quiet_modC (.refl s) fun _ => rfl
  have hcounted : Unmoved s (barCount (watchWord (watchWord s0 core ctx (4, core) (addr / 4)) core ctx (4, core) (addr / 4 + 1)) core addr l).1 :=
    (quiet_watchWord (quiet_watchWord h0)).toUnmoved.trans unmoved_barCount
  split
  next s1 rs e =>
    rw [e] at hcounted
    exact hcounted.trans (quiet_foldl (fun _ _ ht => quiet_barCounted ht) (.refl s1)).toUnmoved

end Sys2Proof.Machine


/-! ## What a barrier instruction does with the word that it finds (R159, R424) -/

namespace Sys2Proof.Machine

/-! The word of the statements is the one that the instruction reads. -/

/-- R9: a little-endian value is the sum of its bytes, each at its place. -/
theorem leNat_fgetN (m : FMap Byte) (a n : Nat) :
    leNat (fgetN 0 m a n) = ((List.range n).map fun k => (fget 0 m (a + k)).toNat * 2 ^ (8 * k)).sum := by
  induction n generalizing a with
  | zero => rfl
  | succ n ih =>
    rw [fgetN, leNat, ih, List.range_succ_eq_map, List.map_cons, List.sum_cons, List.map_map, ← List.sum_map_mul_right, Nat.add_comm]
    congr 1
    · simp
    · congr 1
      refine List.map_congr_left fun k _ => ?_
      rw [Function.comp_apply, Nat.add_right_comm a 1 k, Nat.mul_assoc, Nat.mul_succ 8 k, Nat.pow_add]
      rfl

theorem barRead_eq_wordAt (s : State) (core a : Nat) : barRead s core a = Claim.wordAt s core a := leNat_fgetN _ a 8

theorem barArr_eq_bArr (w : Nat) : barArr w = Claim.bArr w := by simp [barArr, fld, Claim.bArr]

/-! An exception changes no stash. -/

theorem raised_stash (s : State) (i : Instr) (c : Cause) (a : BitVec 56) (x1 : Option DWord) (k : Nat) :
    (getC (Claim.raised s i c a x1) k).stash = (getC s k).stash := by
  unfold Claim.raised takePrecise
  extract_lets _ _ _ _ _ _ _ _ g park
  have hpark : ∀ c, (getC (park c) k).stash = (getC s k).stash := fun c => by
    unfold park
    exact (quiet_depositWhy (quiet_addFault (.refl _))).stash k
  split
  · rfl
  · exact hpark _
  · exact hpark _

theorem wordAt_raised (s : State) (i : Instr) (c : Cause) (a : BitVec 56) (x1 : Option DWord) (k b : Nat) :
    Claim.wordAt (Claim.raised s i c a x1) k b = Claim.wordAt s k b := by
  rw [Claim.wordAt, raised_stash]
  rfl

end Sys2Proof.Machine


/-! ### The checks pass -/

namespace Sys2Proof.Machine

/-- R424: the operation of an arrival at the word at address `a`. -/
def arrivalOp (i : Instr) (drop wait : Bool) (sd : BitVec 6) (a : Nat) (s : State) : Op :=
  { mkOp i s (.barrier drop wait) 0 (if wait then .none else statusDest sd)
      [{ thread := 0, space := 1, place := a, size := 8, val := 0, exp := 0, shown := a, gen := 0, mode := 0, mbf := 0, bound := [] }] with
    rel := some 1 }

/-- R158, R160: the state after an arrival that counts at issue: the fragment waits while the phase of its arrival lasts, or sd takes that
phase. -/
def arrivalCounted (i : Instr) (drop wait : Bool) (sd : BitVec 6) (a : Nat) (s : State) : State :=
  let g := curG s
  let me : Arrival := { uid := g.uid, op := 0, lane := laneOf (g.slot.getD 0), drop }
  let (s1, rs) := countGathered s g.core a [me]
  let ph := ((rs.find? fun r => r.1 == me).map fun r => r.2).getD (barPh (barRead s g.core a))
  let s2 := advance i s1
  if wait && barPh (barRead s2 g.core a) == ph then suspendCur s2 (.barrier a (some ph) sd)
  else modCur s2 fun g => sPut g sd (if ph then 1 else 0)

/-- R159: the word is malformed, for an arrival that drops or does not. -/
def malformed (drop : Bool) (w : Nat) : Bool := barExp w = 0 || barExp w < barArr w || (drop && barExp w < barDrop w + 1)

theorem malformed_iff (drop : Bool) (w : Nat) : malformed drop w = true ↔
    Claim.bExp w = 0 ∨ Claim.bExp w < Claim.bArr w ∨ (drop = true ∧ Claim.bExp w < Claim.bDrop w + 1) := by
  rw [malformed, barArr_eq_bArr]
  simp only [Bool.or_eq_true, Bool.and_eq_true, decide_eq_true_eq, or_assoc]
  rfl

/-- R424: what the instruction does once its checks have passed for the word at address `a`. -/
def arrivalAt (i : Instr) (drop wait : Bool) (sd : BitVec 6) (a : Nat) (s : State) : X State :=
  if mappedAt s (curG s).core (curG s).ctx a then trapAt .barrAddr a else
  if malformed drop (barRead s (curG s).core a) then trapAt .barrForm a else
  if countsNow s (arrivalOp i drop wait sd a s) then .ok (arrivalCounted i drop wait sd a s) else do
    fifoRoom s 1
    let s1 := advance i (issueOp (if wait then s else modCur s fun g => setEmpty g (statusDest sd) true) (arrivalOp i drop wait sd a s))
    .ok (if wait then suspendCur s1 (.barrier a none sd) else s1)

theorem barrier_eq (i : Instr) (drop wait : Bool) (cap : BitVec 4) (so sd : BitVec 6) (s : State) :
    barrier i drop wait cap so sd s = commit i s (do
      checkField i
      let c ← srcC (curG s) cap
      let off ← srcS (curG s) so false
      destFree s (statusDest sd)
      memChecks s c (permR ||| permW) [1] 8 .barrAddr 8 false [(0, scalarAddr c off)]
      arrivalAt i drop wait sd (scalarAddr c off).toNat s) := rfl

section
variable {s : State} {cap : BitVec 4} {so sd : BitVec 6} {i : Instr} {drop wait : Bool} {a : Nat}

/-- What the statement asks of the state: the operands are usable, the checks of the address pass, and no entry maps its word. -/
structure ArrivalReady (s : State) (i : Instr) (cap : BitVec 4) (so sd : BitVec 6) (a : Nat) : Prop where
  formed : fieldCause i = none
  usable : Claim.Readable s (Claim.oneAccess s cap so (Claim.pR ||| Claim.pW) 1 8 .barrAddr)
  dest : sIsEmpty (curG s) sd = false
  checked : Claim.firstFault s (Claim.oneAccess s cap so (Claim.pR ||| Claim.pW) 1 8 .barrAddr) = none
  place : (scalarAddr (cReg (curG s) cap) (sReg (curG s) so)).toNat = a
  unmapped : entryAt (getC s (curG s).core) (curG s).ctx a = none

theorem checkable_barrier : Checkable (Claim.oneAccess s cap so (Claim.pR ||| Claim.pW) 1 8 .barrAddr) :=
  ⟨Nat.zero_lt_succ 7, fun h => absurd h (by simp [Claim.oneAccess, Claim.plain])⟩

theorem ArrivalReady.memChecks_ok (h : ArrivalReady s i cap so sd a) :
    memChecks s (cReg (curG s) cap) (permR ||| permW) [1] 8 .barrAddr 8 false [(0, scalarAddr (cReg (curG s) cap) (sReg (curG s) so))] =
      .ok () := by
  have hchecks := checksX_eq (s := s) (checkable_barrier (s := s) (cap := cap) (so := so))
  rw [h.checked, faultX_none, checksX_load rfl rfl rfl] at hchecks
  exact hchecks

theorem barrier_of_ready (h : ArrivalReady s i cap so sd a) :
    barrier i drop wait cap so sd s = commit i s (arrivalAt i drop wait sd a s) := by
  obtain ⟨-, -, hscal, hcaps, -⟩ := h.usable
  rw [barrier_eq, checkField_ok h.formed, ok_bind, srcC_ok (hcaps cap (List.mem_singleton.mpr rfl)), ok_bind,
    srcS_ok false (hscal so (List.mem_singleton.mpr rfl)), ok_bind, statusDest, destFree_scalar h.dest, ok_bind, h.memChecks_ok, ok_bind,
    h.place]

theorem ArrivalReady.not_mapped (h : ArrivalReady s i cap so sd a) : ¬mappedAt s (curG s).core (curG s).ctx a = true := by
  simp [mappedAt, h.unmapped]

/-- R159: a malformed word is a BARR_FORM. -/
theorem barrier_malformed (h : ArrivalReady s i cap so sd a) (hw : malformed drop (Claim.wordAt s (curG s).core a) = true) :
    barrier i drop wait cap so sd s = .next (Claim.raised s i .barrForm (BitVec.ofNat 56 a) none) := by
  rw [barrier_of_ready h, arrivalAt, if_neg h.not_mapped, barRead_eq_wordAt, if_pos hw]
  exact commit_trap i s .barrForm a none

/-- R424: at a word that is not malformed an arrival that waits for nothing counts. -/
theorem barrier_counted (h : ArrivalReady s i cap so sd a) (hw : ¬malformed drop (Claim.wordAt s (curG s).core a) = true)
    (hcounts : countsNow s (arrivalOp i drop wait sd a s) = true) :
    barrier i drop wait cap so sd s = .next (arrivalCounted i drop wait sd a s) := by
  rw [barrier_of_ready h, arrivalAt, if_neg h.not_mapped, barRead_eq_wordAt, if_neg hw, if_pos hcounts]
  exact commit_ok i s _

end

end Sys2Proof.Machine


/-! ### An arrival that waits for nothing, and where it leaves the group -/

namespace Sys2Proof.Machine

/-- Of a word with one bit, no other bit is set. -/
theorem eq_of_getLsbD_withBit_zero {n k : Nat} (h : (withBit 0#8 n true).getLsbD k = true) : k = n := by
  rw [withBit, if_pos rfl, BitVec.getLsbD_or, BitVec.getLsbD_zero, Bool.false_or, BitVec.getLsbD_ofNat, Nat.testBit_two_pow,
    Bool.and_eq_true_iff, decide_eq_true_eq, decide_eq_true_eq] at h
  exact h.2.symm

theorem Unmoved.curG {s t : State} (h : Unmoved s t) : SamePlace (curG s) (curG t) := by
  rw [Machine.curG, Machine.curG, h.cur]
  exact h.groups _

theorem Unmoved.pc {s t : State} (h : Unmoved s t) : (curF t).pc = (curF s).pc := by
  rw [curF, curF, h.cur]
  exact h.curG.2 _

section
variable {s : State} {i : Instr} {drop wait : Bool} {sd : BitVec 6} {a : Nat}

/-- R102: of the fragments that precede the operation, which is the issuing one, none has unfinished threads. -/
theorem unfinishedBefore_arrival (h : Claim.unfinished s = false) :
    unfinishedBefore (curG s) { arrivalOp i drop wait sd a s with id := s.nextId, seq := s.nextId } = false := by
  unfold unfinishedBefore
  refine List.any_eq_false.mpr fun k hk hunf => ?_
  obtain ⟨hpre, hany⟩ := Bool.and_eq_true_iff.mp hunf
  obtain rfl : k = s.cur.entry := eq_of_getLsbD_withBit_zero hpre
  exact absurd hany (Bool.eq_false_iff.mp h)

/-- R123: no operand range holds a byte of the word. -/
theorem rangeHeld_arrival (h : ∀ r ∈ (getC s (curG s).core).ranges, a + 8 ≤ r.base ∨ r.base + r.len ≤ a) :
    (arrivalOp i drop wait sd a s).pieces.any (rangeHeld s (curG s).core (curG s).uid) = false := by
  rw [arrivalOp, mkOp, List.any_cons, List.any_nil, Bool.or_false, rangeHeld, Bool.and_eq_false_iff]
  refine .inr (List.any_eq_false.mpr fun r hr hheld => ?_)
  have hapart := h r hr
  simp only [Bool.and_eq_true, decide_eq_true_eq] at hheld
  omega

/-- R424: nothing of the group is outstanding, so that its arrival counts in the cycle of issue. -/
theorem countsNow_arrival (hops : (curG s).ops = []) (hunf : Claim.unfinished s = false)
    (hfifo : ∀ e ∈ (getC s (curG s).core).fifo, e.uid ≠ (curG s).uid)
    (hranges : ∀ r ∈ (getC s (curG s).core).ranges, a + 8 ≤ r.base ∨ r.base + r.len ≤ a) :
    countsNow s (arrivalOp i drop wait sd a s) = true := by
  have hclear : (getC s (curG s).core).fifo.all (fun e => e.uid != (curG s).uid) = true :=
    List.all_eq_true.mpr fun e he => bne_iff_ne.mpr (hfifo e he)
  have hreplay : replayAhead (curG s) { arrivalOp i drop wait sd a s with id := s.nextId, seq := s.nextId } = false := by
    rw [replayAhead, unfinishedBefore_arrival hunf, hops, Bool.and_false]
    rfl
  have hblocked : opBlocked s (curG s) { arrivalOp i drop wait sd a s with id := s.nextId, seq := s.nextId } = false := by
    rw [opBlocked, hreplay, hops, scHolds, hops]
    simp only [List.any_nil, Bool.and_false, Bool.false_or]
    rw [rangeHeld_arrival hranges, Bool.and_false, Bool.or_false]
    rfl
  rw [countsNow, hclear, hblocked, hops]
  rfl

/-- R160: whether the fragment waits or goes on, it is past the instruction, and the group is in the handler state in which it was. -/
theorem arrivalCounted_place (hlen : (codeOf i).len = 4) :
    (curF (arrivalCounted i drop wait sd a s)).pc = (curF s).pc + 4 ∧
      (curG (arrivalCounted i drop wait sd a s)).handler = (curG s).handler := by
  unfold arrivalCounted
  extract_lets g me
  have hcount : Unmoved s (countGathered s g.core a [me]).1 := unmoved_countGathered
  split
  next s1 rs e =>
    rw [e] at hcount
    extract_lets ph s2
    have hend : ∀ t, Unmoved s2 t → (curF t).pc = (curF s).pc + 4 ∧ (curG t).handler = (curG s).handler := fun t ht => by
      refine ⟨?_, ?_⟩
      · rw [ht.pc, curF_advance, hlen, ← hcount.pc]
        rfl
      · rw [ht.curG.1, curG_advance, ← hcount.curG.1]
        rfl
    split
    · exact hend _ (quiet_suspendCur (.refl s2)).toUnmoved
    · exact hend _ (quiet_setG (.refl s2) (samePlace_sPut _ _ _)).toUnmoved

end

end Sys2Proof.Machine


/-! ### BARR_FORM -/

namespace Sys2Proof.Machine

/-- R159: what the statement says of an instruction whose checks pass, from what it does with the word. -/
theorem barrierForm_of_ready {s : State} {cap : BitVec 4} {so sd : BitVec 6} {i : Instr} {drop wait : Bool} {a : Nat}
    (hexec : exec i s = barrier i drop wait cap so sd s) (hlen : (codeOf i).len = 4) (h : ArrivalReady s i cap so sd a) :
    let g := curG s
    let w := Claim.wordAt s g.core a
    (Claim.bExp w = 0 ∨ Claim.bExp w < Claim.bArr w ∨ (drop = true ∧ Claim.bExp w < Claim.bDrop w + 1) →
      exec i s = .next (Claim.raised s i .barrForm (BitVec.ofNat 56 a) none) ∧
      Claim.wordAt (Claim.raised s i .barrForm (BitVec.ofNat 56 a) none) g.core a = w) ∧
    (Claim.bExp w ≠ 0 → Claim.bArr w = Claim.bExp w → (drop = true → Claim.bDrop w < Claim.bExp w) → g.ops = [] →
      Claim.unfinished s = false → (∀ e ∈ (getC s g.core).fifo, e.uid ≠ g.uid) →
      (∀ r ∈ (getC s g.core).ranges, a + 8 ≤ r.base ∨ r.base + r.len ≤ a) →
      ∃ t, exec i s = .next t ∧ (curF t).pc = (curF s).pc + 4 ∧ (curG t).handler = g.handler) := by
  intro g w
  refine ⟨fun hw => ⟨hexec.trans (barrier_malformed h ((malformed_iff drop w).mpr hw)), wordAt_raised ..⟩, ?_⟩
  intro hexp harr hdrop hops hunf hfifo hranges
  have hformed : ¬malformed drop w = true := by
    rw [malformed_iff]
    rintro (h0 | hlt | ⟨hd, hlt⟩)
    · exact hexp h0
    · omega
    · have := hdrop hd
      omega
  exact ⟨_, hexec.trans (barrier_counted h hformed (countsNow_arrival hops hunf hfifo hranges)), arrivalCounted_place hlen⟩

/-- Settles O25: a malformed word stops the instruction before it changes anything, and no way of taking an exception writes a stash
(`Quiet`); at a word with ARR = EXP the arrival counts in the cycle of issue, which moves no other fragment (`Unmoved`). -/
theorem barrierForm : Obligations.BarrierForm := by
  unfold Obligations.BarrierForm
  intro s cap so sd g x hread hfull hpass a ha hunmapped i hi hwf
  have ha' : (scalarAddr (cReg (curG s) cap) (sReg (curG s) so)).toNat = a := (List.mem_singleton.mp ha).symm
  have hready : ∀ j : Instr, j.WellFormed → ArrivalReady s j cap so sd a := fun j hj =>
    ⟨hj, hread, hfull sd (List.mem_singleton_self sd), hpass, ha', hunmapped⟩
  simp only [List.mem_cons, List.not_mem_nil, or_false] at hi
  obtain rfl | rfl | rfl := hi
  · exact barrierForm_of_ready (i := .barrArr cap so sd) (drop := false) (wait := false) rfl rfl (hready _ hwf)
  · exact barrierForm_of_ready (i := .barrAw cap so sd) (drop := false) (wait := true) rfl rfl (hready _ hwf)
  · exact barrierForm_of_ready (i := .barrDrop cap so sd) (drop := true) (wait := false) rfl rfl (hready _ hwf)

end Sys2Proof.Machine


/-! ## An atomic of the user handler on bytes that an unfinished thread is still to reach (R102, R103) -/

namespace Sys2Proof.Machine

/-- `replaying`, with c2 a capability by which the handler may perform atomics on the bytes of the unfinished thread. -/
def replayingAtomics : State :=
  { replaying with groups := [(1, { getG replaying 1 with c := [(2, { lowStash with perms := Claim.pW ||| Claim.pA })] })] }

/-- `satom.add.b32 s6, [c2, s0]`, which fetches nothing. -/
def handlerAtomic : Instr := .satom 0 0 0 0 2 0 6 0

theorem bank_replayingAtomics : Claim.bank replayingAtomics 0 4 = 0 := by decide

/-- The addition is held back, so that the word keeps its value. -/
theorem bank_handlerAtomic :
    (match exec handlerAtomic replayingAtomics with | .next t => Claim.bank t 0 4 | _ => 1) = 0 := by decide

/-- The access of the atomic passes every check, and meets what `Obligations.StashAtomics` asks of it. -/
theorem handlerAtomic_access : ∃ x f, Claim.accessOf replayingAtomics handlerAtomic = some x ∧
    Claim.formOf replayingAtomics handlerAtomic = some f ∧ x.addrs = [(0, 0)] ∧ x.size = 4 ∧ x.row = false ∧ x.cause = .atomAlign ∧
    Claim.Readable replayingAtomics x ∧ Claim.firstFault replayingAtomics x = none ∧ Claim.Calm replayingAtomics f ∧
    Claim.InBank replayingAtomics x true ∧ Claim.SlotsFor (curG replayingAtomics) f.dst false ∧
    f.kind = .atomic (.add 4) false ∧ f.val 0 = 1 :=
  ⟨_, _, rfl, rfl, by decide, by decide, by decide, by decide,
    by unfold Claim.Readable Claim.Full; decide, by decide, by unfold Claim.Calm; decide,
    by unfold Claim.InBank; decide, by unfold Claim.SlotsFor; decide, by decide, by decide⟩

/-- Refutes O21: an atomic of the user handler on unmapped stash bytes that the unfinished threads are still to access does not complete at
once, since it waits for them (log 75). As in O20 (`not_stashStores`), `Calm` speaks of the outstanding operations alone, and the
unfinished threads of a faulted instruction are none. -/
theorem not_stashAtomics : ¬ Obligations.StashAtomics := by
  intro h
  obtain ⟨x, f, hx, hf, haddrs, hsize, hrow, hcause, hread, hpass, hcalm, hbank, hslots, hkind, hval⟩ := handlerAtomic_access
  obtain ⟨t, ht, -, -, -, -, -, -, -, hapart⟩ :=
    h replayingAtomics handlerAtomic rfl x hx f hf rfl (by simp [haddrs]) hread hpass hcalm (by rw [haddrs]; decide) hbank hslots hcause
  obtain ⟨hnew, -⟩ := hapart (by rw [haddrs]; rfl)
  have hone : Claim.bank t 0 4 = 1 := by
    simpa [haddrs, hrow, hsize, hkind, hval, Claim.aopValue, bank_replayingAtomics] using hnew 0
  have hkept := bank_handlerAtomic
  rw [ht] at hkept
  exact absurd (hkept.symm.trans hone) (by decide)

end Sys2Proof.Machine


/-! ## A lock instruction whose number an outstanding operation has (R319) -/

namespace Sys2Proof.Machine

/-- A page of global memory whose lines may be locked. -/
def lockPage : Cap :=
  capWithBounds { Cap.null with addr := 0x5000000000, perms := Claim.pL ||| Claim.pR, tag := true } 0x5000000000 0x5000010000

/-- Group 1, with `lockPage` in c2, on core 0, whose TLB holds the page. -/
def locking : State :=
  { State.reset with
    nextId := 2, cur := { uid := 1, entry := 0, tick := 0 }, tasks := [(1, loadTask)], groups := [(1, { loadGroup with c := [(2, lockPage)] })]
    ctxs := [(1, { Ctx.reset with live := true })]
    cores := [(0, { Core.reset with tlb := [{ ctx := 1, vbase := 0x500000, leaf := { loadLeaf with l := true, base := 0x20000000 } }] })] }

/-- A fence of group 1 under the next number of the device. -/
def earlyFence : Op := Claim.opWith locking (.fence 1 0) (.fence 0) .none [] (some 1) none

/-- Group 1 has that fence outstanding. -/
def numberInUse : State := { locking with groups := [(1, { getG locking 1 with ops := [earlyFence] })] }

/-- The access of `lck.stat s6, [c2, s0]`, and the line as it is placed. -/
def lockAccess : Claim.Access := Claim.oneAccess numberInUse 2 0 (Claim.pL ||| Claim.pR) 0 128 .lckAlign
def placedLine : Piece :=
  { thread := 0, space := 0, place := 0x20000000, size := 128, val := 0, exp := 0, shown := 0x5000000000, gen := 0, mode := 0, mbf := 0,
    bound := [] }

theorem placeAll_lockAccess : placeAll numberInUse .lock lockAccess.cap (some 2) 128 (fun _ => 0) (fun _ => 0) lockAccess.addrs =
    .ok ([placedLine], []) := rfl

theorem passes_lockAccess : (curG numberInUse).uid = numberInUse.cur.uid ∧ Claim.Readable numberInUse lockAccess ∧ Claim.Full numberInUse [0, 6] ∧
    Claim.firstFault numberInUse lockAccess = none := by
  unfold Claim.Readable Claim.Full
  decide

/-- The sending of number 2 finds the fence, which is over, and with it goes the operation of `lck.stat`. -/
theorem exec_lckStat_numberInUse : ∃ t, exec (.lckStat 2 0 6) numberInUse = .next t ∧ (curG t).ops = [] :=
  ⟨_, rfl, by decide⟩

/-- Refutes O45, in the clause of `lck.stat`: it has the operation of the instruction enter those of the group, under the next number of the
device, and does not ask that none of them has this number. In `numberInUse` a fence has it, so that both end at once. Numbers rise and
are not given again, so that no run from reset reaches such a state. -/
theorem not_locksAndMonitors : ¬ Obligations.LocksAndMonitors := by
  rintro ⟨hlocks, -⟩
  obtain ⟨huid, hread, hfull, hpass⟩ := passes_lockAccess
  obtain ⟨-, hissues⟩ := hlocks numberInUse 2 0 0 6 huid hread hfull
  obtain ⟨-, hplaced⟩ := hissues hpass
  obtain ⟨-, -, hstat⟩ := hplaced _ placeAll_lockAccess rfl placedLine (List.mem_singleton_self _)
  obtain ⟨t, ht, -, -, -, ⟨hops, -⟩, -⟩ := hstat rfl
  obtain ⟨t', ht', hnone⟩ := exec_lckStat_numberInUse
  obtain rfl : t' = t := Host.Outcome.next.inj (ht'.symm.trans ht)
  rw [hnone] at hops
  exact List.append_ne_nil_of_right_ne_nil _ (List.cons_ne_nil _ _) hops.symm

end Sys2Proof.Machine


/-! ## The end of a context that holds back an atomic of another context (R135, R144, R150) -/

namespace Sys2Proof.Machine

/-- A mapped stash word of which one byte is not padding, the first of the line at device address 0x20000000. -/
def paddedWord : Piece :=
  { thread := 0, space := 1, place := 0, size := 4, val := 0, exp := 0, shown := 0, gen := 0, mode := 0, mbf := 0,
    bound := [some 0x20000000, none, none, none] }

/-- Operation 3 of group 2, an atomic add to that word for whose old value v3 waits, and its request, which has number 4. -/
def fetchingOp : Op :=
  { Claim.opWith State.reset (.vatomAddB32 0 0 1 0 2 0 3) (.atomic (.add 4) true) (.vec 3) [paddedWord] none none with
    id := 3, mask := 1, left := 1 }
def fetchingRequest : Req := { newReq (.group 2 3) 2 2 (.atomic (.add 4) true) lockedLine with id := 4, pieces := [paddedWord] }

/-- Group 1, of context 1, holds the lock of the line, and group 2, of context 2, has that operation outstanding. -/
def lockHolder : Group :=
  { loadGroup with locks := [{ line := lockedLine, gen := 0, granted := true, marked := false, remain := 0, sd := 0, op := 0 }] }
def fetchingGroup : Group := { loadGroup with uid := 2, ctx := 2, task := 2, core := 2, vEmpty := 8, ops := [fetchingOp] }

/-- The first byte of the locked line is 7, and its home holds request 4 back (R144). -/
def fetchHeldBack : State :=
  { State.reset with
    nextId := 5, tasks := [(1, loadTask), (2, { loadTask with ctx := 2 })], groups := [(1, lockHolder), (2, fetchingGroup)]
    ctxs := [(1, { Ctx.reset with live := true }), (2, { Ctx.reset with live := true })], reqs := [(4, fetchingRequest)]
    homes := { Homes.reset with
      mem := [(0x20000000, 7)], locks := [(lockedLine, { Lock.free with holder := some 1, writes := [4] })]
      dir := [(lockedLine, { DirEntry.empty with pin := true })] } }

/-- R150, R144: as context 1 ends its lock is broken, the home performs the atomic, and v3 receives the old value of the word. -/
theorem exec_contextEnd_fetchHeldBack :
    ∃ t, exec (.contextEnd 1) fetchHeldBack = .next t ∧ vAt (vReg (getG t 2) 3) 0 = 7 :=
  ⟨_, rfl, by decide⟩

/-- Refutes O42, in the clause of `contextEnd`: it has the vector registers of every group of another context stay as they are. The end of a
context breaks the locks of its groups (R150), and the home then performs the writes that it held back for them (R144), those of other
contexts too. In `fetchHeldBack` one of them is an atomic that fetches: its group rightly receives the old value as context 1 ends. -/
theorem not_preemptionEvents : ¬ Obligations.PreemptionEvents := by
  intro h
  obtain ⟨-, -, -, -, -, hend, -⟩ := h fetchHeldBack
  obtain ⟨t, ht, ⟨-, -, -, -, -, -, hothers⟩, -⟩ := hend 1
  obtain ⟨-, hkept, -⟩ := hothers 2 (by decide)
  obtain ⟨t', ht', hfetched⟩ := exec_contextEnd_fetchHeldBack
  obtain rfl : t' = t := Host.Outcome.next.inj (ht'.symm.trans ht)
  rw [vReg, hkept] at hfetched
  exact absurd hfetched (by decide)

end Sys2Proof.Machine


/-! ## Mask instructions (R173, R282, R295) -/

namespace Sys2Proof.Machine

/-- A mask register is read as it was written, and m0 cannot be written. -/
theorem mReg_mPut (g : Group) (d r : Nat) (v : Word) : mReg (mPut g d v) r = if r = d ∧ d ≠ 0 then v else mReg g r := by
  unfold mPut mReg
  by_cases hd : d = 0
  · simp [hd]
  · by_cases hr : r = d
    · subst hr
      simp [hd]
    · simp [hd, hr, fget_fset_ne]

/-- A write of a mask register changes the mask registers and nothing else. -/
theorem mPut_rest (g : Group) (d : Nat) (v : Word) : mPut g d v = { g with m := (mPut g d v).m } := by
  unfold mPut; split <;> rfl

theorem mPut_split (g : Group) (d : Nat) (v : Word) : (mPut g d v).split = g.split := by rw [mPut_rest]

theorem sPut_split (g : Group) (d : BitVec 6) (v : DWord) : (sPut g d v).split = g.split := by rw [sPut_rest]

section
variable {s : State} {i : Instr}

/-- What an instruction leaves that writes a mask register and moves on. -/
theorem maskWritten_advance {md : Nat} {v : Word} (hlen : (codeOf i).len = 4) (hmd : md ≠ 0) :
    let t := advance i (modCur s fun g => mPut g md v)
    Claim.OnlyGroup s t ∧ Claim.Past s t 4 ∧ Claim.MaskWritten s t md v.getLsbD := by
  have hread : ∀ r, mReg (curG (advance i (modCur s fun g => mPut g md v))) r = if r = md then v else mReg (curG s) r := by
    intro r
    rw [curG_advance_modCur]
    exact (mReg_mPut _ _ _ _).trans (by simp [hmd])
  refine ⟨onlyGroup_advance i (onlyGroup_modCur s _), past_advance hlen rfl (by rw [curG_modCur, mPut_split]), fun k _ => ?_, fun r hr => ?_, ?_⟩
  · rw [hread, if_pos rfl]
  · rw [hread, if_neg hr]
  · rw [curG_advance_modCur, mPut_rest]

/-- What an instruction leaves that writes a scalar register and moves on. -/
theorem scalarOnly_advance {sd : BitVec 6} {v : DWord} (hlen : (codeOf i).len = 4) (hd : sIsEmpty (curG s) sd = false) :
    Claim.ScalarOnly s (advance i (modCur s fun g => sPut g sd v)) sd v := by
  refine ⟨onlyGroup_advance i (onlyGroup_modCur s _), past_advance hlen rfl (by rw [curG_modCur, sPut_split]), fun r => ?_, fun r => ?_, ?_⟩
  · rw [curG_advance_modCur]
    exact sReg_sPut _ _ _ _
  · rw [curG_advance_modCur]
    refine (sIsEmpty_sPut _ _ _ _).trans ?_
    split_ifs with h
    · rw [h.1, hd]
    · rfl
  · rw [curG_advance_modCur, sPut_rest]

/-- A mask form that completes: md receives a word whose bits are those of the form. -/
theorem maskForm_completes {md : BitVec 3} {v : Group → Word} {f : Nat → Bool} (hwf : i.WellFormed) (hlen : (codeOf i).len = 4) (hmd : md ≠ 0)
    (hexec : exec i s = commitNext i s (checkField i >>= fun _ => .ok (modCur s fun g => mPut g md.toNat (v g))))
    (hf : ∀ k < 32, (v (curG s)).getLsbD k = f k) :
    ∃ t, exec i s = .next t ∧ Claim.OnlyGroup s t ∧ Claim.Past s t 4 ∧ Claim.MaskWritten s t md.toNat f := by
  have hmd' : md.toNat ≠ 0 := fun h => hmd (BitVec.eq_of_toNat_eq h)
  obtain ⟨honly, hpast, hbits, hrest⟩ := maskWritten_advance (s := s) (v := v (curG s)) hlen hmd'
  refine ⟨_, ?_, honly, hpast, fun k hk => (hbits k hk).trans (hf k hk), hrest⟩
  rw [hexec, checkField_ok hwf, ok_bind, commitNext_ok]
  rfl

end

theorem maskForms : Claim.MaskForms := by
  intro s i hwf x hx
  cases i
  case mand b a md =>
    obtain rfl := Option.some.inj hx
    refine maskForm_completes hwf rfl ?_ (v := fun g => mReg g a.toNat &&& mReg g b.toNat) rfl fun k _ => BitVec.getLsbD_and
    rintro rfl
    cases hwf
  case mor b a md =>
    obtain rfl := Option.some.inj hx
    refine maskForm_completes hwf rfl ?_ (v := fun g => mReg g a.toNat ||| mReg g b.toNat) rfl fun k _ => BitVec.getLsbD_or
    rintro rfl
    cases hwf
  case mnot a md =>
    obtain rfl := Option.some.inj hx
    refine maskForm_completes hwf rfl ?_ (v := fun g => ~~~ mReg g a.toNat) rfl fun k hk => by simp [hk]
    rintro rfl
    cases hwf
  all_goals cases hx

/-- The name of an instruction that reads only its shape is live. -/
theorem regsX_live {g : Group} {r : Nat} (h : r < g.nNames ∧ r < g.top) : regsX g [(r, false)] = .ok () := by
  have hname : nameX g r = .ok () := by rw [nameX, if_neg (by omega), if_neg (by omega)]
  simp [regsX, hname]

/-- An instruction that completes by a write of a scalar register. -/
theorem scalarForm_completes {s : State} {i : Instr} {sd : BitVec 6} {v : Group → DWord} (hlen : (codeOf i).len = 4) (hfull : Claim.Full s [sd])
    (hexec : exec i s = commitNext i s (dstS (curG s) sd >>= fun _ => .ok (modCur s fun g => sPut g sd (v g)))) :
    ∃ t, exec i s = .next t ∧ Claim.ScalarOnly s t sd (v (curG s)) := by
  have hd := hfull sd (List.mem_singleton_self sd)
  refine ⟨_, ?_, scalarOnly_advance hlen hd⟩
  rw [hexec, dstS_ok hd, ok_bind, commitNext_ok]
  rfl

theorem scalarFromMaskOrVector : Claim.ScalarFromMaskOrVector := by
  rintro s i - x hx
  cases i
  case mpopc a sd =>
    obtain rfl := Option.some.inj hx
    exact fun _ _ hfull => scalarForm_completes rfl hfull (v := fun g => BitVec.ofNat 64 (popCount (mReg g a.toNat))) rfl
  case mfirst a sd =>
    obtain rfl := Option.some.inj hx
    exact fun _ _ hfull => scalarForm_completes rfl hfull (v := fun g => BitVec.ofNat 64 ((threadsOf (mReg g a.toNat)).headD 32)) rfl
  case vshape a sd =>
    obtain rfl := Option.some.inj hx
    intro hnames _ hfull
    refine scalarForm_completes rfl hfull
      (v := fun g => BitVec.ofNat 64 (shapeCode (vReg g a.toNat) + if vIsEmpty g a.toNat then 4 else 0)) ?_
    simp only [exec, execVshape, regsX_live (hnames a.toNat (List.mem_singleton_self _)), ok_bind]
    rfl
  all_goals cases hx

/-- Settles O50: a mask form writes md alone, bit by bit, and mpopc, mfirst and vshape write sd alone. -/
theorem maskInstructions : Obligations.MaskInstructions :=
  ⟨maskForms, scalarFromMaskOrVector⟩

end Sys2Proof.Machine


/-! ## The end of a scope whose name holds the first slot of its group (R170, R172) -/

namespace Sys2Proof.Machine

/-- Group 1 in a scope that opened with 8 live names. v8 has shape G and holds slot 0, the lower of the group's two. -/
def scopedGroup : Group :=
  { loadGroup with top := 9, scopes := [8], slots := [0, 1], v := [(8, .g (List.replicate 32 1))], gslot := [(8, 0)] }
def closingScope : State :=
  { State.reset with
    nextId := 2, cur := { uid := 1, entry := 0, tick := 0 }, tasks := [(1, loadTask)], groups := [(1, scopedGroup)]
    ctxs := [(1, { Ctx.reset with live := true })] }

theorem alone_closingScope : Claim.Alone closingScope := by
  unfold Claim.Alone
  decide

/-- v8 dies and its slot returns to the pool, so that slot 1 stays with the group. -/
theorem exec_scopeClose_closingScope : ∃ t, exec .scopeClose closingScope = .next t ∧ (curG t).slots = [1] :=
  ⟨_, rfl, by decide⟩

/-- Refutes O52, in the clause of `scope.close`: it has the group keep the first slots of its list, as many as remain. The slots that leave
are those of the dying names (log 73), and a name takes the first slot that is free (log 71), so that they may stand anywhere in the list.
In `closingScope` the one name that dies holds the first of two slots. -/
theorem not_scopesAndSlots : ¬ Obligations.ScopesAndSlots := by
  rintro ⟨hscopes, -⟩
  obtain ⟨-, -, hclose, -⟩ := hscopes closingScope 0 (by decide) (by decide)
  obtain ⟨t, ht, -, -, -, -, -, hslots, -⟩ := hclose (by decide) (by decide) alone_closingScope rfl
  obtain ⟨t', ht', hkept⟩ := exec_scopeClose_closingScope
  obtain rfl : t' = t := Host.Outcome.next.inj (ht'.symm.trans ht)
  rw [hkept] at hslots
  exact absurd hslots (by decide)

end Sys2Proof.Machine


/-! ## A lone fragment, and what memory is read through (R2, R85, R175) -/

namespace Sys2Proof.Machine

/-- A well-formed instruction passes the checks of its fields. -/
theorem exec_formed {s : State} {i : Instr} {x : X State} (hwf : i.WellFormed) (h : exec i s = commitNext i s (checkField i >>= fun _ => x)) :
    exec i s = commitNext i s x := by
  rw [h, checkField_ok hwf, ok_bind]

/-- One entry of a split table is valid exactly when an entry that is valid is the only one. -/
theorem validCount_eq_one_iff {g : Group} {k : Nat} (hk : k < 8) (hv : (getF g k).valid = true) :
    validCount g = 1 ↔ ∀ j, j < 8 → j ≠ k → (getF g j).valid = false := by
  have hcount : validCount g = ((List.range 8).filter fun j => (getF g j).valid).length := by
    rw [validCount, entries, List.filter_map, List.length_map]
    rfl
  rw [hcount]
  constructor
  · intro h j hj hne
    obtain ⟨a, ha⟩ := List.length_eq_one_iff.mp h
    have hmem : ∀ n, n < 8 → (getF g n).valid = true → n = a := fun n hn hvn =>
      List.mem_singleton.mp (ha ▸ List.mem_filter.mpr ⟨List.mem_range.mpr hn, hvn⟩)
    by_contra hvj
    exact hne ((hmem j hj (by simpa using hvj)).trans (hmem k hk hv).symm)
  · intro h
    have honly : ∀ n ∈ List.range 8, (getF g n).valid = (n == k) := by
      intro n hn
      by_cases hnk : n = k
      · rw [hnk, hv, beq_self_eq_true]
      · rw [h n (List.mem_range.mp hn) hnk, beq_false_of_ne hnk]
    rw [List.filter_congr honly, ← List.countP_eq_length_filter]
    exact List.count_eq_one_of_mem List.nodup_range (List.mem_range.mpr hk)

/-- R175: the count of R172 to R178 is 1 exactly when the fragment that issues is alone. -/
theorem validCount_beq_one {s : State} (hk : s.cur.entry < 8) (hv : (curF s).valid = true) :
    (validCount (curG s) == 1) = true ↔ Claim.Alone s := by
  rw [beq_iff_eq, validCount_eq_one_iff hk hv]
  exact ⟨fun h => ⟨hk, hv, h⟩, fun h => h.2.2⟩

theorem validCount_of_alone {s : State} (h : Claim.Alone s) : (validCount (curG s) == 1) = true :=
  (validCount_beq_one h.1 h.2.1).mpr h

theorem validCount_of_not_alone {s : State} (hk : s.cur.entry < 8) (hv : (curF s).valid = true) (h : ¬Claim.Alone s) :
    (validCount (curG s) == 1) = false := by
  rw [Bool.eq_false_iff]
  exact fun hone => h ((validCount_beq_one hk hv).mp hone)

/-- Memory is read through the homes and the stash words. -/
theorem memKept_of_stash {s t : State} (hh : t.homes = s.homes) (hw : ∀ c, (getC t c).swords = (getC s c).swords)
    (hs : ∀ c, (getC t c).stash = (getC s c).stash) : Claim.MemKept s t := by
  have hmem : ∀ a, memByte t a = memByte s a := fun a => by rw [memByte, hh, memByte]
  have hdir : ∀ l, dirAt t l = dirAt s l := fun l => by rw [dirAt, hh, dirAt]
  have hbound : ∀ c w, boundWords t c w = boundWords s c w := fun c w => by rw [boundWords, hw, boundWords]
  have hstash : ∀ c a, stashByteOf t c a = stashByteOf s c a := fun c a => by
    unfold stashByteOf
    rw [hbound, hs]
  exact fun a => ⟨hmem a, by unfold visByte; simp only [hdir, hmem, hstash, hh]⟩

end Sys2Proof.Machine

/-! ## Teams (R178, R322) -/

namespace Sys2Proof.Machine

section
variable {s : State} {i : Instr} {k : BitVec 6} {n : Nat} {f : Group → Group}

/-- The issuing group changed, with the member count of one of its teams. -/
def teamChange (k : BitVec 6) (n : Nat) (f : Group → Group) (s : State) : State :=
  modCur (modC s (curG s).core fun c => { c with teams := fset 0 c.teams (teamKey (curG s) k) n }) f

theorem getC_teamChange (c : Nat) : getC (teamChange k n f s) c =
    if c = (curG s).core then { getC s c with teams := fset 0 (getC s c).teams (teamKey (curG s) k) n } else getC s c := by
  rw [teamChange, getC_modCur, modC, getC_setC]
  split_ifs with h
  · rw [h]
  · rfl

theorem curG_teamChange : curG (advance i (teamChange k n f s)) = { f (curG s) with split := (curG (advance i (teamChange k n f s))).split } := by
  rw [teamChange, curG_advance_modCur, curG_modC]

theorem teamFrame_teamChange : Claim.TeamFrame s (advance i (teamChange k n f s)) k n := by
  have hcore : ∀ c, getC (advance i (teamChange k n f s)) c = getC (teamChange k n f s) c := fun _ => rfl
  refine ⟨fun j => ?_, ?_, fun c hc => ?_, fun u hu => ?_, memKept_of_stash rfl (fun c => ?_) (fun c => ?_), rfl⟩
  · rw [hcore, getC_teamChange, if_pos rfl]
    exact fget_fset _ _ _ _ _
  · rw [hcore, getC_teamChange, if_pos rfl]
  · rw [hcore, getC_teamChange, if_neg hc]
  · exact (getG_advance_ne i (teamChange k n f s) u hu).trans (getG_modCur_ne _ f u hu)
  · rw [hcore, getC_teamChange]
    split_ifs <;> rfl
  · rw [hcore, getC_teamChange]
    split_ifs <;> rfl

theorem past_teamChange (hlen : (codeOf i).len = 4) (hf : (f (curG s)).split = (curG s).split) :
    Claim.Past s (advance i (teamChange k n f s)) 4 :=
  past_advance hlen rfl (by rw [teamChange, curG_modCur, curG_modC, hf])

end

section
variable {s : State} {k sd : BitVec 6}

/-- What the group of a `tjoin` becomes. -/
def joined (k sd : BitVec 6) (n : Nat) (g : Group) : Group := sPut { g with team := some k } sd (BitVec.ofNat 64 n)

theorem exec_tjoin (hwf : (Instr.tjoin k sd).WellFormed) : exec (.tjoin k sd) s = commitNext (.tjoin k sd) s (do
    needX ((curG s).team.isNone && decide (Claim.teamSize s k < 64) && validCount (curG s) == 1) .teamForm
    dstS (curG s) sd
    .ok (teamChange k (Claim.teamSize s k + 1) (joined k sd (Claim.teamSize s k)) s)) :=
  exec_formed hwf rfl

theorem exec_tjoin_denied (hk : s.cur.entry < 8) (hv : (curF s).valid = true) (hwf : (Instr.tjoin k sd).WellFormed)
    (h : (curG s).team ≠ none ∨ 64 ≤ Claim.teamSize s k ∨ ¬Claim.Alone s) :
    exec (.tjoin k sd) s = .next (Claim.raised s (.tjoin k sd) .teamForm 0 none) := by
  have hneed : ((curG s).team.isNone && decide (Claim.teamSize s k < 64) && validCount (curG s) == 1) = false := by
    obtain hteam | hfull | halone := h
    · rw [Option.isNone_eq_false_iff.mpr (Option.isSome_iff_ne_none.mpr hteam), Bool.false_and, Bool.false_and]
    · rw [decide_eq_false (by omega), Bool.and_false, Bool.false_and]
    · rw [validCount_of_not_alone hk hv halone, Bool.and_false]
  rw [exec_tjoin hwf, hneed, needX_false, error_bind]
  exact commitNext_trap _ _ _ 0 _

theorem exec_tjoin_joined (hwf : (Instr.tjoin k sd).WellFormed) (hfull : Claim.Full s [sd]) (hteam : (curG s).team = none)
    (hn : Claim.teamSize s k < 64) (halone : Claim.Alone s) : exec (.tjoin k sd) s =
      .next (advance (.tjoin k sd) (teamChange k (Claim.teamSize s k + 1) (joined k sd (Claim.teamSize s k)) s)) := by
  rw [exec_tjoin hwf, hteam, Option.isNone_none, decide_eq_true hn, validCount_of_alone halone, Bool.and_self, Bool.and_self, needX_true,
    ok_bind, dstS_ok (hfull sd (List.mem_singleton_self sd)), ok_bind, commitNext_ok]

/-- What the group of a `tleave` becomes. -/
def unteamed (g : Group) : Group := { g with team := none }

theorem leaveTeam_eq (h : (curG s).team = some k) :
    leaveTeam s s.cur.uid = teamChange k (Claim.teamSize s k - 1) unteamed s := by
  unfold leaveTeam
  simp only [show getG s s.cur.uid = curG s from rfl, h]
  rfl

theorem exec_tleave_denied (hk : s.cur.entry < 8) (hv : (curF s).valid = true) (h : (curG s).team = none ∨ ¬Claim.Alone s) :
    exec .tleave s = .next (Claim.raised s .tleave .teamForm 0 none) := by
  have hneed : ((curG s).team.isSome && validCount (curG s) == 1) = false := by
    obtain hteam | halone := h
    · rw [hteam, Option.isSome_none, Bool.false_and]
    · rw [validCount_of_not_alone hk hv halone, Bool.and_false]
  simp only [exec, execTleave, hneed, needX_false, error_bind]
  exact commitNext_trap _ _ _ 0 _

theorem exec_tleave_left (hteam : (curG s).team = some k) (halone : Claim.Alone s) :
    exec .tleave s = .next (advance .tleave (teamChange k (Claim.teamSize s k - 1) unteamed s)) := by
  have hneed : ((curG s).team.isSome && validCount (curG s) == 1) = true := by
    rw [hteam, Option.isSome_some, validCount_of_alone halone, Bool.true_and]
  simp only [exec, execTleave, hneed, needX_true, ok_bind, leaveTeam_eq hteam, commitNext_ok]

end

theorem teams : Claim.Teams := by
  intro s k sd g n hk hv hfull
  refine ⟨fun hwf => ⟨exec_tjoin_denied hk hv hwf, fun hteam hn halone => ⟨_, exec_tjoin_joined hwf hfull hteam hn halone, ?_⟩⟩,
    exec_tleave_denied hk hv, fun hteam halone => ⟨_, exec_tleave_left hteam halone, past_teamChange rfl rfl, teamFrame_teamChange,
      curG_teamChange⟩⟩
  refine ⟨past_teamChange rfl (sPut_split _ _ _), teamFrame_teamChange, fun r => ?_, fun r => ?_, ?_⟩
  · rw [curG_teamChange]
    exact sReg_sPut _ _ _ _
  · rw [curG_teamChange]
    refine (sIsEmpty_sPut _ _ _ _).trans ?_
    split_ifs with h
    · exact h.1 ▸ (hfull sd (List.mem_singleton_self sd)).symm
    · rfl
  · rw [curG_teamChange, joined, sPut_rest]

end Sys2Proof.Machine
/-! ## The parts of the location that `launch` reads (R31, R101, R269) -/

namespace Sys2Proof.Machine

/-- R31: pages of 64 KiB and of 32 MiB lie at multiples of 64 KiB. -/
theorem leafOf_aligned {s : State} {bad : Bool} {e va : Nat} {l : Leaf} (h : leafOf s bad e va = .ok l) : l.base % 65536 = 0 := by
  unfold leafOf at h
  extract_lets _ _ _ _ base _ at h
  split_ifs at h
  obtain rfl := Except.ok.inj h
  exact Nat.mul_mod_right _ _

theorem walkFrom_aligned {s : State} {va n table : Nat} {bad : Bool} {l : Leaf} (h : walkFrom s va n table bad = .ok l) :
    l.base % 65536 = 0 := by
  induction n generalizing table bad with
  | zero =>
    rw [walkFrom] at h
    extract_lets at h
    split at h
    · cases h
    · split at h
      · cases h
      · exact leafOf_aligned h
  | succ n ih =>
    rw [walkFrom] at h
    extract_lets at h
    split at h
    · cases h
    · split at h
      · cases h
      · dsimp only at h
        split at h
        · cases h
        · exact ih h

theorem leafPa_mod {l : Leaf} (h : l.base % 65536 = 0) (va : Nat) : leafPa l va % 65536 = va % 65536 := by
  unfold leafPa
  split_ifs <;> omega

theorem xlateNow_aligned {s : State} {ctx : BitVec 12} {a : Acc} {va : Nat} {l : Leaf} (h : xlateNow s ctx a va = .ok l) :
    leafPa l va % 65536 = va % 65536 := by
  unfold xlateNow walkTables at h
  split at h
  · cases h
  next l' hwalk =>
    refine leafPa_mod ?_ va
    split at h
    · cases h
    · exact Except.ok.inj h ▸ walkFrom_aligned hwalk

/-- R101: pieces of which no two meet are performed in their order. -/
theorem orderPieces_apart {s : State} {ps : List Piece}
    (h : ∀ (i j : Nat) (p q : Piece), i < j → ps[i]? = some p → ps[j]? = some q → meets p q = false) : orderPieces s ps = (s, ps) := by
  have hapart : collide ps = false := by
    unfold collide
    simp only [List.any_eq_false, Bool.and_eq_true, decide_eq_true_eq, not_and, Bool.not_eq_true]
    exact fun p hp q hq hlt => h p.2 q.2 p.1 q.1 hlt (List.mem_zipIdx_iff_getElem?.mp hp) (List.mem_zipIdx_iff_getElem?.mp hq)
  rw [orderPieces, hapart]
  rfl

/-- Pieces without bound bytes meet only where their places overlap. -/
theorem meets_eq_false {p q : Piece} (hp : p.bound = []) (hq : q.bound = [])
    (h : ∀ i < p.size, ∀ j < q.size, p.place + i ≠ q.place + j) : meets p q = false := by
  simp only [meets, spots, hp, hq, List.filterMap_nil, List.append_nil, List.any_map, List.any_eq_false, List.mem_range, Function.comp_apply,
    List.contains_eq_mem, List.mem_map, Prod.mk.injEq, not_exists, not_and, decide_eq_true_eq]
  exact fun i hi j hj _ he => h i hi j hj he.symm

/-- The parts of the location are 16 bytes each, and lie as far apart within 64 KiB as their addresses do. -/
theorem launchPieces_getElem? {s : State} {ctx : BitVec 12} {a k : Nat} {p : Piece} (h : (launchPieces s ctx a)[k]? = some p) :
    k < 4 ∧ p.bound = [] ∧ p.size = 16 ∧ p.place % 65536 = (a + 16 * k) % 65536 := by
  unfold launchPieces at h
  rw [List.getElem?_map, Option.map_eq_some_iff] at h
  obtain ⟨k', hk', rfl⟩ := h
  obtain ⟨hk, rfl⟩ := List.getElem?_eq_some_iff.mp hk'
  rw [List.length_range] at hk
  refine ⟨hk, rfl, rfl, ?_⟩
  simp only [List.getElem_range]
  split
  next l hl => exact xlateNow_aligned hl
  · rfl

theorem orderPieces_launchPieces (s t : State) (ctx : BitVec 12) (a : Nat) :
    orderPieces t (launchPieces s ctx a) = (t, launchPieces s ctx a) := by
  refine orderPieces_apart fun i j p q hij hp hq => ?_
  obtain ⟨hi, hpb, hps, hpp⟩ := launchPieces_getElem? hp
  obtain ⟨hj, hqb, hqs, hqp⟩ := launchPieces_getElem? hq
  refine meets_eq_false hpb hqb fun m hm n hn => ?_
  omega

end Sys2Proof.Machine

/-! ## `launch` (R269) -/

namespace Sys2Proof.Machine

section
variable {s : State} {cap : BitVec 4} {so sq : BitVec 6}

/-- The access of a `launch`. Its alignment is checked last. -/
def launchAccess (s : State) (cap : BitVec 4) (so : BitVec 6) : Claim.Access :=
  { Claim.oneAccess s cap so Claim.pR 0 64 .memAlign with align := 1 }

/-- The address of a `launch`, and the operation that it issues. -/
def launchAddr (s : State) (cap : BitVec 4) (so : BitVec 6) : Int := scalarAddr (cReg (curG s) cap) (sReg (curG s) so)
def launchOp (s : State) (cap : BitVec 4) (so sq : BitVec 6) : Op :=
  { mkOp (.launch cap so sq) s (.launch (sReg (curG s) sq).toNat) 0 (statusDest sq)
      (launchPieces s (curG s).ctx (launchAddr s cap so).toNat) with rel := some 5 }

/-- The state that a `launch` makes. -/
def launched (s : State) (cap : BitVec 4) (so sq : BitVec 6) : State :=
  issueOp (modCur s fun g => setEmpty g (statusDest sq) true) (launchOp s cap so sq)

theorem checkable_launchAccess : Checkable (launchAccess s cap so) :=
  ⟨Nat.zero_lt_succ 63, fun h => absurd h (by simp [launchAccess, Claim.oneAccess, Claim.plain])⟩

/-- R269: global space has no extent to be checked, and nothing is checked of an alignment of 1. -/
theorem checksX_launchAccess : checksX s (launchAccess s cap so) = (do
    capUse (cReg (curG s) cap) permR [0]
    boundsX (cReg (curG s) cap) 64 [(0, launchAddr s cap so)]) := by
  refine bind_congr_ok fun _ huse => ?_
  have hspace : (cReg (curG s) cap).space.toNat = 0 := by
    simpa [launchAccess, Claim.oneAccess, Claim.plain] using (capUse_ok huse).1
  have halign : alignX 1 .memAlign [(0, launchAddr s cap so)] = .ok () := by simp [alignX, eachX]
  have hextent : extentX s (curG s) (cReg (curG s) cap) 64 [(0, launchAddr s cap so)] = .ok () := by
    simp [extentX, eachX, hspace, inExtent]
  calc (_ : X Unit)
      = (do
          alignX 1 .memAlign [(0, launchAddr s cap so)]
          boundsX (cReg (curG s) cap) 64 [(0, launchAddr s cap so)]
          extentX s (curG s) (cReg (curG s) cap) 64 [(0, launchAddr s cap so)]
          (.ok () : X Unit)
          .ok ()) := rfl
    _ = _ := by rw [halign, ok_bind, hextent]; exact bind_ok_unit _

variable (hwf : (Instr.launch cap so sq).WellFormed) (hread : Claim.Readable s (launchAccess s cap so)) (hfull : Claim.Full s [sq])
  (hn : (sReg (curG s) sq).toNat < 64) {q : Queue} (hq : ffind s.queues (sReg (curG s) sq).toNat = some q) (hctx : q.ctx = (curG s).ctx)
  (hen : Claim.blockBits s q 63 1 = 1)
include hwf hread hfull hn hq hctx hen

/-- R269: a `launch` on an enabled queue of its context checks its source, then its alignment, then the room for its marker. -/
theorem exec_launch : exec (.launch cap so sq) s = commit (.launch cap so sq) s (checksX s (launchAccess s cap so) >>= fun _ =>
    if launchAddr s cap so % 16 ≠ 0 then trapAt .memAlign (addr56 (launchAddr s cap so)) else do
      fifoRoom s 1
      .ok (advance (.launch cap so sq) (launched s cap so sq))) := by
  obtain ⟨-, -, hscal, hcaps, -⟩ := hread
  have hneed : (q.ctx == (curG s).ctx && queueWord s q 63 1 == 1) = true := by
    rw [show queueWord s q 63 1 = 1 from hen, beq_iff_eq.mpr hctx, Bool.true_and, beq_self_eq_true]
  rw [checksX_launchAccess]
  simp only [exec, execLaunch, checkField_ok hwf, srcC_ok (hcaps cap (List.mem_singleton.mpr rfl)),
    srcS_ok false (hfull sq (List.mem_singleton.mpr rfl)), srcS_ok false (hscal so (List.mem_singleton.mpr rfl)), ok_bind, if_pos hn, hq, hneed,
    needX_true, bind_assoc]
  rfl

theorem launch_checksFirst : ChecksFirst s (.launch cap so sq) (launchAccess s cap so) :=
  checksFirst_always checkable_launchAccess rfl (List.cons_ne_nil _ _) ⟨_, exec_launch hwf hread hfull hn hq hctx hen⟩

theorem exec_launch_misaligned (hpass : Claim.firstFault s (launchAccess s cap so) = none) (ha : launchAddr s cap so % 16 ≠ 0) :
    exec (.launch cap so sq) s =
      .next (Claim.raised s (.launch cap so sq) .memAlign (BitVec.ofInt 56 (launchAddr s cap so)) none) := by
  rw [exec_launch hwf hread hfull hn hq hctx hen, checksX_eq checkable_launchAccess, hpass, faultX_none, ok_bind, if_pos ha]
  exact (commit_trap ..).trans (by rw [addr56_eq, BitVec.ofNat_toNat, BitVec.setWidth_eq])

theorem exec_launch_issued (hpass : Claim.firstFault s (launchAccess s cap so) = none) (ha : launchAddr s cap so % 16 = 0)
    (hroom : (getC s (curG s).core).fifo.length < 256) :
    exec (.launch cap so sq) s = .next (advance (.launch cap so sq) (launched s cap so sq)) := by
  rw [exec_launch hwf hread hfull hn hq hctx hen, checksX_eq checkable_launchAccess, hpass, faultX_none, ok_bind, if_neg (not_not.mpr ha),
    fifoRoom, if_pos (by omega), ok_bind, commit_ok]

end

end Sys2Proof.Machine

/-! ### The operation of a `launch` -/

namespace Sys2Proof.Machine

/-- R91: the marker of a release. -/
def releaseMarker (uid id : Nat) (mask : Word) : FifoEnt := { line := 0, mask, uid, op := id, marker := true, acked := false }

/-- The operation as it enters the pipeline of the issuing group, held behind its marker. -/
def heldOp (s : State) (o : Op) : Op :=
  { o with
    id := s.nextId, lane := laneOf ((curG s).slot.getD 0),
    seq := (((curF s).redoAt.filter fun p => p.1 == (curF s).pc).map fun p => p.2).getD s.nextId, held := true }

/-- R91, R105: the operation of a `launch` takes a marker in the FIFO and waits for its head. -/
theorem issueOp_launch {s : State} {o : Op} {n : Nat} (hkind : o.kind = .launch n) (hrel : o.rel = some 5)
    (hps : ∀ t, orderPieces t o.pieces = (t, o.pieces)) : ∃ mask, issueOp s o =
      setG (modC (fresh s).2 (curG s).core fun c => { c with fifo := c.fifo ++ [releaseMarker (curG s).uid s.nextId mask] })
        (curG s).uid { curG s with ops := (curG s).ops ++ [heldOp s o] } := by
  cases o
  dsimp only at hkind hrel hps
  subst hkind hrel
  unfold issueOp
  simp only [fresh, opWrites, if_true, hps, isRelease, beyondGrp, Option.any_some, fifoLines, List.map_nil, List.append_nil,
    traceKind, show ((5 : BitVec 3) != 0) = true from rfl, Bool.true_or]
  exact ⟨_, rfl⟩

end Sys2Proof.Machine

/-! ### What a `launch` leaves -/

namespace Sys2Proof.Machine

theorem setEmpty_statusDest (g : Group) (sd : BitVec 6) : setEmpty g (statusDest sd) true = sMakeEmpty g sd := by
  unfold statusDest
  split_ifs with h
  · rw [sMakeEmpty, if_pos h]
    rfl
  · rfl

/-- Making a scalar empty changes its empty bit and SWR, and nothing else. -/
theorem sMakeEmpty_rest (g : Group) (sd : BitVec 6) :
    sMakeEmpty g sd = { g with sEmpty := (sMakeEmpty g sd).sEmpty, swr := (sMakeEmpty g sd).swr } := by
  unfold sMakeEmpty
  split <;> rfl

theorem sIsEmpty_sMakeEmpty (g : Group) (sd r : BitVec 6) :
    sIsEmpty (sMakeEmpty g sd) r = (statusDest sd == .scalar r && r != 0 || sIsEmpty g r) := by
  unfold sMakeEmpty statusDest
  by_cases hd : sd = 0
  · simp [hd]
  · rw [if_neg hd, if_neg hd]
    unfold sIsEmpty
    rw [withBit_getLsbD _ _ _ _ sd.isLt]
    by_cases hr : r = sd
    · subst hr
      simp
      exact Or.inl hd
    · simp [BitVec.toNat_inj, hr, Ne.symm hr]

/-- R102: the place in program order of what the issuing fragment issues. -/
theorem placeInOrder_eq (s : State) :
    (((curF s).redoAt.filter fun p => p.1 == (curF s).pc).map fun p => p.2).getD s.nextId = Claim.placeInOrder s := by
  unfold Claim.placeInOrder
  cases (curF s).redoAt with
  | none => rfl
  | some p => by_cases h : p.1 = (curF s).pc <;> simp [Option.filter, h]

section
variable {s : State} {cap : BitVec 4} {so sq : BitVec 6}

/-- The state in which the operation of a `launch` enters the pipeline. -/
def awaited (s : State) (sq : BitVec 6) : State := modCur s fun g => setEmpty g (statusDest sq) true

theorem curG_awaited : curG (awaited s sq) = sMakeEmpty (curG s) sq := by rw [awaited, curG_modCur, setEmpty_statusDest]

theorem curF_awaited : curF (awaited s sq) = curF s := by
  rw [curF, curG_awaited, sMakeEmpty_rest]
  rfl

/-- The operation that a `launch` leaves outstanding. -/
theorem heldOp_launchOp : heldOp (awaited s sq) (launchOp s cap so sq) =
    { Claim.opWith s (.launch cap so sq) (.launch (sReg (curG s) sq).toNat) (if sq = 0 then .none else .scalar sq)
        (launchPieces s (curG s).ctx (launchAddr s cap so).toNat) none (some 5) with held := true } := by
  have hseq : (((curF (awaited s sq)).redoAt.filter fun p => p.1 == (curF (awaited s sq)).pc).map fun p => p.2).getD (awaited s sq).nextId =
      Claim.placeInOrder s := by
    rw [curF_awaited]
    exact placeInOrder_eq s
  have hlane : laneOf ((curG (awaited s sq)).slot.getD 0) = (curG s).slot.getD 0 / 4 := by
    rw [curG_awaited, sMakeEmpty_rest]
    rfl
  have hpre : withBit (0 : BitVec 8) s.cur.entry true = BitVec.ofNat 8 (2 ^ s.cur.entry) := BitVec.zero_or
  rw [heldOp, hseq, hlane, launchOp, mkOp, hpre]
  rfl

/-- The group of a `launch` as it was, with sq empty and the operation. -/
theorem launched_eq : ∃ mask, launched s cap so sq =
    setG (modC (fresh (awaited s sq)).2 (curG s).core fun c => { c with fifo := c.fifo ++ [releaseMarker (curG s).uid s.nextId mask] })
      (curG s).uid { sMakeEmpty (curG s) sq with ops := (curG s).ops ++ [heldOp (awaited s sq) (launchOp s cap so sq)] } := by
  obtain ⟨mask, hmask⟩ := issueOp_launch (s := awaited s sq) (o := launchOp s cap so sq) rfl rfl fun t => orderPieces_launchPieces s t _ _
  refine ⟨mask, hmask.trans ?_⟩
  rw [curG_awaited, sMakeEmpty_rest]
  rfl

end

/-- R91, R105: the issuing group has gained an operation that makes a scalar empty, and its core's FIFO a marker. -/
structure HeldIssue (s u : State) (sd : BitVec 6) (o : Op) (e : FifoEnt) : Prop where
  state : u = { s with groups := u.groups, cores := u.cores, nextId := u.nextId }
  cores : ∀ c, getC u c = if c = (curG s).core then { getC s c with fifo := (getC s c).fifo ++ [e] } else getC s c
  group : curG u = { sMakeEmpty (curG s) sd with ops := (curG s).ops ++ [o] }
  others : ∀ v, v ≠ s.cur.uid → getG u v = getG s v

theorem curG_setG_cur {u : State} {v : Nat} (hv : v = u.cur.uid) (g : Group) : curG (setG u v g) = g :=
  hv ▸ getG_setG_same u v g

theorem setG_modC_fresh_modCur_rest (s : State) (h : Group → Group) (c : Nat) (f : Core → Core) (v : Nat) (g : Group) :
    setG (modC (fresh (modCur s h)).2 c f) v g = { s with
      groups := (setG (modC (fresh (modCur s h)).2 c f) v g).groups
      cores := (setG (modC (fresh (modCur s h)).2 c f) v g).cores
      nextId := (setG (modC (fresh (modCur s h)).2 c f) v g).nextId } := by
  unfold setG modC setC fresh modCur modG
  rfl

theorem cur_modC_fresh_modCur (s : State) (h : Group → Group) (c : Nat) (f : Core → Core) :
    (modC (fresh (modCur s h)).2 c f).cur = s.cur := rfl

theorem heldIssue_setG {s : State} {h : Group → Group} {sd : BitVec 6} {o : Op} {e : FifoEnt} (huid : (curG s).uid = s.cur.uid) :
    HeldIssue s (setG (modC (fresh (modCur s h)).2 (curG s).core fun c => { c with fifo := c.fifo ++ [e] }) (curG s).uid
      { sMakeEmpty (curG s) sd with ops := (curG s).ops ++ [o] }) sd o e := by
  refine ⟨setG_modC_fresh_modCur_rest _ _ _ _ _ _, fun c => ?_, curG_setG_cur ?_ _, fun v hv => ?_⟩
  · refine (getC_setC _ _ _ _).trans ?_
    split_ifs with hc
    · rw [hc]
      rfl
    · rfl
  · rw [cur_modC_fresh_modCur, huid]
  · exact (getG_setG_ne _ _ _ _ (huid ▸ hv)).trans (getG_modCur_ne s _ v hv)

theorem heldIssue_launched {s : State} {cap : BitVec 4} {so sq : BitVec 6} (huid : (curG s).uid = s.cur.uid) :
    ∃ mask, HeldIssue s (launched s cap so sq) sq (heldOp (awaited s sq) (launchOp s cap so sq)) (releaseMarker (curG s).uid s.nextId mask) := by
  obtain ⟨mask, heq⟩ := launched_eq (s := s) (cap := cap) (so := so) (sq := sq)
  exact ⟨mask, heq ▸ heldIssue_setG huid⟩

section
variable {s u : State} {sd : BitVec 6} {o : Op} {e : FifoEnt} {i : Instr} (h : HeldIssue s u sd o e)
include h

theorem HeldIssue.reqs : (advance i u).reqs = s.reqs := by rw [show (advance i u).reqs = u.reqs from rfl, h.state]

theorem HeldIssue.agenda : (advance i u).agenda = s.agenda := by rw [show (advance i u).agenda = u.agenda from rfl, h.state]

theorem HeldIssue.cur : u.cur = s.cur := by rw [h.state]

theorem HeldIssue.curG_advance : curG (advance i u) =
    { sMakeEmpty (curG s) sd with ops := (curG s).ops ++ [o], split := (curG (advance i u)).split } := by
  rw [curG_advance_split, h.group]

theorem HeldIssue.past (hlen : (codeOf i).len = 4) : Claim.Past s (advance i u) 4 :=
  past_advance hlen h.cur (by rw [h.group, sMakeEmpty_rest])

theorem HeldIssue.memKept : Claim.MemKept s (advance i u) := by
  refine memKept_of_stash (show u.homes = s.homes by rw [h.state]) (fun c => ?_) (fun c => ?_)
  · rw [show getC (advance i u) c = getC u c from rfl, h.cores]
    split_ifs <;> rfl
  · rw [show getC (advance i u) c = getC u c from rfl, h.cores]
    split_ifs <;> rfl

theorem HeldIssue.issueFrame : Claim.IssueFrame s (advance i u) := by
  refine ⟨fun v hv => ?_, h.memKept, ?_, fun c => ?_, fun c hc => ?_, ?_⟩
  · rw [getG_advance_ne i u v (h.cur ▸ hv), h.others v hv]
  · rw [show (advance i u).homes = u.homes from rfl, h.state]
  · rw [show getC (advance i u) c = getC u c from rfl, h.cores]
    split_ifs <;> rfl
  · rw [show getC (advance i u) c = getC u c from rfl, h.cores, if_neg hc]
  · rw [advance_groups]
    generalize (advance i u).groups = gs
    rw [h.state]

theorem HeldIssue.fifoGains (hu : e.uid = (curG s).uid) (ho : e.op = s.nextId) (ha : e.acked = false) :
    Claim.FifoGains s (advance i u) [(e.line, e.marker)] := by
  unfold Claim.FifoGains
  dsimp only
  rw [show getC (advance i u) (curG s).core = getC u (curG s).core from rfl, h.cores, if_pos rfl]
  refine ⟨List.take_left, ?_, ?_⟩
  · rw [List.drop_left]
    rfl
  · rw [List.drop_left]
    exact List.forall_mem_singleton.mpr ⟨hu, ho, ha⟩

theorem HeldIssue.opIssued (hdst : o.dst = statusDest sd) : Claim.OpIssued s (advance i u) o (curG s).locks := by
  unfold Claim.OpIssued
  rw [h.curG_advance, hdst]
  refine ⟨rfl, ?_, fun r => ⟨?_, sIsEmpty_sMakeEmpty _ _ _⟩, ?_⟩
  · rw [sMakeEmpty_rest]
  · rw [sMakeEmpty_rest]
    rfl
  · rw [sMakeEmpty_rest]

end

theorem launchInstruction : Claim.LaunchInstruction := by
  intro s cap so sq g i x a huid hwf hread hfull hn q hq hctx hen
  refine ⟨fun p hp => ?_, fun hpass ha => ?_, fun hpass ha hroom => ?_⟩
  · exact raised_of_checksFirst (launch_checksFirst hwf hread hfull hn hq hctx hen) (List.cons_ne_nil _ _) hp
  · exact exec_launch_misaligned hwf hread hfull hn hq hctx hen hpass ha
  · intro o
    obtain ⟨mask, hissue⟩ := heldIssue_launched (cap := cap) (so := so) (sq := sq) huid
    rw [show heldOp (awaited s sq) (launchOp s cap so sq) = o from heldOp_launchOp] at hissue
    exact ⟨_, exec_launch_issued hwf hread hfull hn hq hctx hen hpass ha hroom, hissue.past rfl, hissue.issueFrame,
      hissue.fifoGains rfl rfl rfl, hissue.opIssued rfl, hissue.reqs, hissue.agenda⟩

/-- Settles O46: a team's count follows its members, and a `launch` that passes its checks leaves one operation held behind a marker. -/
theorem teamsAndLaunch : Obligations.TeamsAndLaunch :=
  ⟨teams, launchInstruction⟩

end Sys2Proof.Machine


/-! ## What a write by the device can touch (R84, R86, R87)

A write of memory recalls the copies of the lines that it reaches. All that it does to a state is to change the homes, the contexts' event
records, the agenda, the cores and the requests, so a property that none of these changes can break holds after the write. -/

namespace Sys2Proof.Machine

/-- A property of states that no change of the homes, the contexts, the agenda, the cores or the requests can break. -/
structure MemorySide (P : State → Prop) : Prop where
  modH : ∀ {s f}, P s → P (modH s f)
  modX : ∀ {s c f}, P s → P (modX s c f)
  push : ∀ {s e}, P s → P (push s e)
  modC : ∀ {s} {c : Nat} {f}, P s → P (modC s c f)
  reqs : ∀ {s : State} {q : FMap Req}, P s → P { s with reqs := q }

theorem foldl_preserves {P : State → Prop} {s : State} {α : Type} {f : State → α → State} {l : List α} (hf : ∀ t a, P t → P (f t a)) (h : P s) :
    P (l.foldl f s) := by
  induction l generalizing s with
  | nil => exact h
  | cons a l ih => exact ih (hf s a h)

section
variable {P : State → Prop} {s : State} (C : MemorySide P)
include C

theorem MemorySide.addFault {x} (h : P s) : P (addFault s x) := C.modX h

/-! Homes, caches and stash words. -/

theorem MemorySide.setDir {line e} (h : P s) : P (setDir s line e) := C.modH h

theorem MemorySide.modDir {line f} (h : P s) : P (modDir s line f) := C.setDir h

theorem MemorySide.setTag {pa x} (h : P s) : P (setTag s pa x) := C.modH h

theorem MemorySide.setMem {pa b} (h : P s) : P (setMem s pa b) := C.modH h

theorem MemorySide.memBytes {pa bs} (h : P s) : P (memBytes s pa bs) := C.modH h

theorem MemorySide.watchWord {core ctx by_ w} (h : P s) : P (watchWord s core ctx by_ w) := by
  unfold Machine.watchWord
  refine foldl_preserves (fun _ _ ht => ?_) h
  extract_lets _ _ _ _ s1
  have h1 : P s1 := C.addFault ht
  split
  · exact ht
  · split
    · exact h1
    · exact C.push h1

theorem MemorySide.watchWords {core by_ ks} (h : P s) : P (watchWords s core by_ ks) := by
  unfold Machine.watchWords
  refine foldl_preserves (fun _ _ ht => ?_) h
  split
  · exact C.watchWord ht
  · exact ht

theorem MemorySide.watchUnit {line pair unit mask by_} (h : P s) : P (watchUnit s line pair unit mask by_) := by
  unfold Machine.watchUnit
  split
  · exact h
  · exact C.watchWords h

theorem MemorySide.setSWord {core k w} (h : P s) : P (setSWord s core k w) := C.modC h

theorem MemorySide.disown {line pair unit mask} (h : P s) : P (disown s line pair unit mask) := by
  unfold Machine.disown
  exact C.modDir h

theorem MemorySide.packLine {line mbf} (h : P s) : P (packLine s line mbf) := by
  unfold Machine.packLine
  split
  · exact h
  · exact C.modH h

theorem MemorySide.repackLine {line} (h : P s) : P (repackLine s line) := C.packLine h

theorem MemorySide.tidyPair {pair line} (h : P s) : P (tidyPair s pair line) := by
  unfold Machine.tidyPair
  split
  · exact h
  · split
    · exact h
    · exact C.modH h

theorem MemorySide.tidySlice {slice line} (h : P s) : P (tidySlice s slice line) := by
  unfold Machine.tidySlice
  split
  · exact h
  · exact C.modH h

theorem MemorySide.dropPair {line pair keep mask by_} (h : P s) : P (dropPair s line pair keep mask by_) := by
  unfold Machine.dropPair
  extract_lets _ s' s1
  have h' : P s' := C.reqs h
  have h1 : P s1 := by
    refine foldl_preserves (fun _ _ ht => ?_) h'
    extract_lets _ s'' s'''
    have h'' : P s'' := by
      unfold s''
      split
      · exact ht
      · exact C.modH ht
    have h''' : P s''' := C.modH h''
    refine foldl_preserves (fun _ _ ht' => ?_) h'''
    split
    · exact ht'
    · refine foldl_preserves (fun _ _ ht'' => ?_) ht'
      split
      · exact ht''
      · exact C.setSWord (C.watchWords ht'')
  exact C.tidySlice (C.tidyPair h1)

theorem MemorySide.dropReplicaAt {line slice keepPair keepUnit mask by_} (h : P s) :
    P (dropReplicaAt s line slice keepPair keepUnit mask by_) := by
  unfold Machine.dropReplicaAt
  extract_lets s1
  have h1 : P s1 := foldl_preserves (fun _ _ ht => C.modH ht) h
  exact C.tidySlice (foldl_preserves (fun _ _ ht => C.dropPair ht) h1)

theorem MemorySide.replicaReport {line die} (h : P s) : P (replicaReport s line die) := by
  unfold Machine.replicaReport
  split
  · exact h
  · exact C.modDir h

theorem MemorySide.dropReplica {line die keepPair keepUnit mask by_} (h : P s) :
    P (dropReplica s line die keepPair keepUnit mask by_) :=
  C.replicaReport (foldl_preserves (fun _ _ ht => C.dropReplicaAt ht) h)

theorem MemorySide.sliceVictim {slice w} (h : P s) : P (sliceVictim s slice w) := by
  unfold Machine.sliceVictim
  split
  · exact C.replicaReport (C.dropReplicaAt h)
  · exact C.modH h
  · exact h

theorem MemorySide.sliceTouch {slice line kind mbf} (h : P s) : P (sliceTouch s slice line kind mbf) := by
  unfold Machine.sliceTouch
  extract_lets _ _ _ _ _ _ _ victim s1
  have h1 : P s1 := by
    unfold s1 victim
    split
    · exact C.sliceVictim h
    · exact h
  split
  · exact C.modH h
  · split
    · exact h
    · exact C.modH h1

theorem MemorySide.homeTouch {line mbf} (h : P s) : P (homeTouch s line mbf) := C.sliceTouch (C.packLine h)

theorem MemorySide.countWbacks {core ks} (h : P s) : P (countWbacks s core ks) := by
  unfold Machine.countWbacks
  extract_lets
  split
  · exact h
  · exact C.modC h

theorem MemorySide.writeBackStash {core k} (h : P s) : P (writeBackStash s core k) := by
  unfold Machine.writeBackStash
  extract_lets _ _ _ _ s1 _ s2 s3
  have h1 : P s1 := foldl_preserves (fun _ _ ht => C.setTag (C.setMem ht)) h
  have h2 : P s2 := foldl_preserves (fun _ _ ht => C.homeTouch ht) h1
  have h3 : P s3 := C.setSWord h2
  split
  · exact h
  · refine foldl_preserves (fun _ _ ht => ?_) h3
    split
    · exact ht
    · extract_lets s4
      have h4 : P s4 := C.disown ht
      exact C.modDir h4

theorem MemorySide.recallUnit {line pair unit mask by_} (h : P s) : P (recallUnit s line pair unit mask by_) := by
  unfold Machine.recallUnit
  extract_lets s' _ _ _ _ s'' s1
  have h' : P s' := C.watchUnit h
  have h'' : P s'' := by
    refine foldl_preserves (fun _ _ ht => ?_) h'
    extract_lets
    split
    · exact ht
    · extract_lets s'''
      have h''' : P s''' := by
        unfold s'''
        split
        · exact C.memBytes ht
        · exact ht
      exact C.modH h'''
  have h1 : P s1 := by
    unfold s1
    split
    · exact C.homeTouch (C.tidyPair h'')
    · exact C.countWbacks (foldl_preserves (fun _ _ ht => C.setSWord (C.writeBackStash ht)) h')
  exact C.disown h1

theorem MemorySide.dropHost {line mask} (h : P s) : P (dropHost s line mask) := by
  unfold Machine.dropHost
  split
  · exact h
  · exact C.modDir (C.modH h)

theorem MemorySide.dropCpe {line mask} (h : P s) : P (dropCpe s line mask) := by
  unfold Machine.dropCpe
  split
  · exact h
  · exact C.modDir (C.modH h)

theorem MemorySide.dropSharers {line mask pair unit by_} (h : P s) : P (dropSharers s line mask pair unit by_) := by
  unfold Machine.dropSharers
  extract_lets _ s1
  have h1 : P s1 := foldl_preserves (fun _ _ ht => C.dropPair ht) h
  exact C.dropCpe (C.dropHost (foldl_preserves (fun _ _ ht => C.dropReplica ht) h1))

theorem MemorySide.clearCopies {line mask pair unit by_} (h : P s) : P (clearCopies s line mask pair unit by_) :=
  C.dropSharers (foldl_preserves (fun _ _ ht => C.recallUnit ht) h)

theorem MemorySide.devByte {by_ pa b} (h : P s) : P (devByte s by_ pa b) :=
  C.setTag (C.setMem (C.clearCopies h))

theorem MemorySide.devBytes {by_ pa bs} (h : P s) : P (devBytes s by_ pa bs) := by
  induction bs generalizing s pa with
  | nil => exact h
  | cons b bs ih => exact ih (C.devByte h)

theorem MemorySide.devWrite {pa bs} (h : P s) : P (devWrite s pa bs) :=
  foldl_preserves (fun _ _ ht => C.repackLine ht) (C.devBytes h)

end

/-- R196, R361: who is on the device: the groups, the number of the records and the fragment that issues. -/
def SameTenants (s t : State) : Prop := t.groups = s.groups ∧ t.records.length = s.records.length ∧ t.cur = s.cur

theorem memorySide_sameTenants (r : State) : MemorySide (SameTenants r) where
  modH := id
  modX := id
  push := id
  modC := id
  reqs := id

end Sys2Proof.Machine


/-! ## What the deposit of a record leaves of its group (R189, R191, R195, R196) -/

namespace Sys2Proof.Machine

section
variable {r s : State}

theorem sameTenants_contOverflow {g sub addr} (h : SameTenants r s) : SameTenants r (contOverflow s g sub addr) := h

/-- A record of the cache whose write fails keeps its place in the list. -/
theorem sameTenants_keepRecord {x : Record} (hx : x.place.cached = true) (h : SameTenants r s) : SameTenants r (keepRecord s x) := by
  obtain ⟨hgroups, hrecords, hcur⟩ := h
  unfold keepRecord
  extract_lets
  rw [hx, Bool.true_or, if_pos rfl]
  exact ⟨hgroups, (List.length_map _).trans hrecords, hcur⟩

theorem sameTenants_writeRecord {x : Record} (hx : x.place.cached = true) (h : SameTenants r s) : SameTenants r (writeRecord s x) := by
  have C := memorySide_sameTenants r
  unfold writeRecord
  extract_lets
  split
  · exact sameTenants_contOverflow (sameTenants_keepRecord hx h)
  · split
    · exact sameTenants_keepRecord hx h
    · extract_lets s1 s2
      have h1 : SameTenants r s1 := foldl_preserves (fun _ _ ht => C.devWrite ht) h
      have h2 : SameTenants r s2 := foldl_preserves (fun _ _ ht => C.setTag ht) h1
      obtain ⟨hgroups, hrecords, hcur⟩ := h2
      exact ⟨hgroups, (List.length_map _).trans hrecords, hcur⟩

/-- R196: room is made by writing one of the cached records. -/
theorem sameTenants_cacheRoom (s : State) (core : Nat) : SameTenants s (cacheRoom s core).1 := by
  unfold cacheRoom
  extract_lets cached
  split
  · exact ⟨rfl, rfl, rfl⟩
  · split
    next x hx =>
      have hmem : x ∈ cached := List.mem_of_getElem? hx
      exact sameTenants_writeRecord (Bool.and_eq_true_iff.mp (List.mem_filter.mp hmem).2).2 ⟨rfl, rfl, rfl⟩
    · exact ⟨rfl, rfl, rfl⟩

theorem cacheRoom_of_lt {s : State} {core : Nat} (h : (s.records.filter fun r => r.owner == core && r.place.cached).length < 64) :
    cacheRoom s core = (s, true) := by
  unfold cacheRoom
  rw [if_pos h]

end

/-! ### Leaving a lane -/

/-- R85: what memory is read through. -/
structure SameBytes (s t : State) : Prop where
  homes : t.homes = s.homes
  swords : ∀ c, (getC t c).swords = (getC s c).swords
  stash : ∀ c, (getC t c).stash = (getC s c).stash

theorem SameBytes.refl (s : State) : SameBytes s s := ⟨rfl, fun _ => rfl, fun _ => rfl⟩

theorem SameBytes.trans {r s t : State} (h : SameBytes r s) (k : SameBytes s t) : SameBytes r t :=
  ⟨k.homes.trans h.homes, fun c => (k.swords c).trans (h.swords c), fun c => (k.stash c).trans (h.stash c)⟩

theorem SameBytes.memKept {s t : State} (h : SameBytes s t) : Claim.MemKept s t := memKept_of_stash h.homes h.swords h.stash

theorem sameBytes_modC {s : State} {c : Nat} {f : Core → Core} (hw : ∀ x, (f x).swords = x.swords) (hs : ∀ x, (f x).stash = x.stash) :
    SameBytes s (modC s c f) := by
  refine ⟨rfl, fun d => ?_, fun d => ?_⟩
  · rw [modC, getC_setC]
    split_ifs with hd
    · rw [hd, hw]
    · rfl
  · rw [modC, getC_setC]
    split_ifs with hd
    · rw [hd, hs]
    · rfl

/-- What a change of lanes leaves: the records, the fragment that issues, and every byte. -/
structure LaneSide (s t : State) : Prop extends SameBytes s t where
  records : t.records = s.records
  cur : t.cur = s.cur

theorem LaneSide.refl (s : State) : LaneSide s s := ⟨.refl s, rfl, rfl⟩

theorem LaneSide.trans {r s t : State} (h : LaneSide r s) (k : LaneSide s t) : LaneSide r t :=
  ⟨h.toSameBytes.trans k.toSameBytes, k.records.trans h.records, k.cur.trans h.cur⟩

theorem laneSide_modC {s : State} {c : Nat} {f : Core → Core} (hw : ∀ x, (f x).swords = x.swords) (hs : ∀ x, (f x).stash = x.stash) :
    LaneSide s (modC s c f) :=
  ⟨sameBytes_modC hw hs, rfl, rfl⟩

theorem laneSide_setG (s : State) (u : Nat) (g : Group) : LaneSide s (setG s u g) := ⟨⟨rfl, fun _ => rfl, fun _ => rfl⟩, rfl, rfl⟩

theorem mem_of_mem_dropFirst {β : Type} [DecidableEq β] {x y : β} {l : List β} (h : y ∈ dropFirst x l) : y ∈ l := by
  induction l with
  | nil => exact h
  | cons z l ih =>
    rw [dropFirst] at h
    split_ifs at h
    · exact List.mem_cons_of_mem _ h
    · exact (List.mem_cons.mp h).elim (fun e => e ▸ List.mem_cons_self) fun hl => List.mem_cons_of_mem _ (ih hl)

/-- R171: the grants of a lane go to groups that have claimed there. -/
theorem grantClaims_other {s : State} {core lane n u : Nat} (hu : ∀ p ∈ (getC s core).claims, p.2 ≠ u) :
    getG (grantClaims s core lane n) u = getG s u ∧ LaneSide s (grantClaims s core lane n) := by
  induction n generalizing s with
  | zero => exact ⟨rfl, .refl s⟩
  | succ n ih =>
    rw [grantClaims]
    split
    · exact ⟨rfl, .refl s⟩
    next uid hfind =>
      have huid : u ≠ uid := (hu _ (List.mem_of_find?_eq_some hfind)).symm
      extract_lets g
      split
      · exact ⟨rfl, laneSide_modC (fun _ => rfl) fun _ => rfl⟩
      · extract_lets g1 s1
        split_ifs
        · exact ⟨rfl, .refl s⟩
        · have h1 : LaneSide s s1 := (laneSide_setG s uid _).trans (laneSide_modC (fun _ => rfl) fun _ => rfl)
          have hg1 : getG s1 u = getG s u := getG_setG_ne s uid u _ huid
          have hclaims : (getC s1 core).claims = (getC s core).claims := by
            rw [show getC s1 core = _ from getC_modC _ _ _]
            rfl
          obtain ⟨hg, h2⟩ := ih (s := modC s1 core fun c => { c with claims := dropFirst (lane, uid) c.claims }) fun p hp => by
            rw [getC_modC] at hp
            exact hu p (hclaims ▸ mem_of_mem_dropFirst hp)
          have h3 : LaneSide s1 (modC s1 core fun c => { c with claims := dropFirst (lane, uid) c.claims }) :=
            laneSide_modC (fun _ => rfl) fun _ => rfl
          exact ⟨hg.trans hg1, (h1.trans h3).trans h2⟩

/-- R41, R189: what a group loses with its lane. -/
theorem leaveLane_leaves (s : State) (uid : Nat) :
    getG (leaveLane s uid) uid = { getG s uid with slot := none, xw := (getG (leaveLane s uid) uid).xw, pts := (getG (leaveLane s uid) uid).pts } ∧
      LaneSide s (leaveLane s uid) := by
  unfold leaveLane
  extract_lets g s1 s2
  split
  next hslot => exact ⟨by rw [← hslot], .refl s⟩
  next k hslot =>
    obtain ⟨hg, h⟩ := grantClaims_other (s := s2) (core := g.core) (lane := laneOf k) (n := 256) (u := uid) fun p hp => by
      rw [show getC s2 g.core = _ from getC_modC _ _ _] at hp
      simpa using (List.mem_filter.mp hp).2
    have h1 : LaneSide s s1 := laneSide_setG s uid _
    have h2 : LaneSide s1 s2 := laneSide_modC (fun _ => rfl) fun _ => rfl
    refine ⟨?_, (h1.trans h2).trans h⟩
    rw [hg, show getG s2 uid = _ from getG_setG_same s uid _]

end Sys2Proof.Machine


/-! ### The record that a deposit makes -/

namespace Sys2Proof.Machine

/-- R189: whether the group leaves its lane with a record. -/
def bodyRecord (g : Group) (r : Record) : Bool :=
  if g.slot.isNone then r.body else g.stuck.isEmpty && !((entries g).any fun p => p.1 != r.frag && p.2.valid && p.2.st == 0)

/-- R189: a record that a group with a lane deposits is its body record when no other fragment is ready and no other deposit waits. -/
theorem bodyRecord_iff {g : Group} {r : Record} (hr : r.body = false) : bodyRecord g r = true ↔
    g.slot ≠ none ∧ g.stuck = [] ∧ ∀ k, k < 8 → k ≠ r.frag → ¬((getF g k).valid = true ∧ (getF g k).st = 0) := by
  unfold bodyRecord entries
  cases g.slot with
  | none => simp [hr]
  | some n => simp

/-- A record with the identity and the contents of another. -/
def SameWait (r q : Record) : Prop :=
  q = { r with reacq := q.reacq, body := q.body, wait := q.wait, id := q.id, size := q.size, dseq := q.dseq, place := q.place }

/-- R189, R195: a record is the last of the device's, or its group keeps it; of the group, only the lane and what goes with it, and the
deposits that wait, have changed. -/
structure RecordPlaced (s t : State) (r : Record) : Prop where
  record : ∃ q, ((∃ l, t.records = l ++ [q] ∧ l.length = s.records.length) ∨
      (t.records.length = s.records.length ∧ q ∈ (getG t r.uid).stuck)) ∧
    SameWait r q ∧ q.body = bodyRecord (getG s r.uid) r
  group : getG t r.uid = { getG s r.uid with
    stuck := (getG t r.uid).stuck, slot := (getG t r.uid).slot, xw := (getG t r.uid).xw, pts := (getG t r.uid).pts }
  cur : t.cur = s.cur
  bytes : (s.records.filter fun q => q.owner == (getG s r.uid).core && q.place.cached).length < 64 → SameBytes s t

/-- A record that stays with its group. -/
theorem recordPlaced_stuck {s u t : State} {r q : Record} (hu : SameTenants s u)
    (ht : SameTenants (setG u r.uid { getG s r.uid with stuck := (getG s r.uid).stuck ++ [q] }) t)
    (hq : SameWait r q) (hbody : q.body = bodyRecord (getG s r.uid) r)
    (hbytes : (s.records.filter fun q => q.owner == (getG s r.uid).core && q.place.cached).length < 64 → SameBytes s t) : RecordPlaced s t r := by
  obtain ⟨_, hrecords, hcur⟩ := hu
  obtain ⟨hgroups, hrecords', hcur'⟩ := ht
  have hg : getG t r.uid = { getG s r.uid with stuck := (getG s r.uid).stuck ++ [q] } := by
    rw [getG, hgroups, ← getG, getG_setG_same]
  refine ⟨⟨q, .inr ⟨hrecords'.trans hrecords, ?_⟩, hq, hbody⟩, ?_, hcur'.trans hcur, hbytes⟩
  · rw [hg]
    exact List.mem_append_right _ List.mem_cons_self
  · rw [hg]

/-- A record that joins those of the device, with which its group may leave its lane. -/
theorem recordPlaced_last {s u v : State} {r q : Record} {b : Prop} [Decidable b] (hu : SameTenants s u) (hg : v.groups = u.groups)
    (hr : v.records = u.records ++ [q]) (hc : v.cur = u.cur)
    (hq : SameWait r q) (hbody : q.body = bodyRecord (getG s r.uid) r)
    (hbytes : (s.records.filter fun q => q.owner == (getG s r.uid).core && q.place.cached).length < 64 → SameBytes s v) :
    RecordPlaced s (if b then leaveLane v r.uid else v) r := by
  obtain ⟨hgroups, hrecords, hcur⟩ := hu
  have hgv : getG v r.uid = getG s r.uid := by rw [getG, hg, hgroups, ← getG]
  split_ifs
  · obtain ⟨hleave, hside⟩ := leaveLane_leaves v r.uid
    refine ⟨⟨q, .inl ⟨_, hside.records.trans hr, hrecords⟩, hq, hbody⟩, ?_, hside.cur.trans (hc.trans hcur), fun h =>
      (hbytes h).trans hside.toSameBytes⟩
    rw [hleave, hgv]
  · exact ⟨⟨q, .inl ⟨_, hr, hrecords⟩, hq, hbody⟩, by rw [hgv], hc.trans hcur, hbytes⟩

theorem recordPlaced_placeRecord (s : State) (r : Record) : RecordPlaced s (placeRecord s r) r := by
  unfold placeRecord
  extract_lets g r' body r0 r1 stay
  have hq : ∀ p, SameWait r { r1 with place := p } := fun _ => rfl
  have hbody : body = bodyRecord g r := rfl
  have hstay : SameTenants (stay s) (stay s) := ⟨rfl, rfl, rfl⟩
  have hself : SameTenants s s := ⟨rfl, rfl, rfl⟩
  split
  · exact recordPlaced_stuck hself hstay (hq _) hbody fun _ => ⟨rfl, fun _ => rfl, fun _ => rfl⟩
  · split
    next => exact recordPlaced_stuck hself (sameTenants_contOverflow hstay) (hq _) hbody fun _ => ⟨rfl, fun _ => rfl, fun _ => rfl⟩
    next p _ =>
      have hroom := sameTenants_cacheRoom s g.core
      split
      next s1 e1 =>
        rw [e1] at hroom
        refine recordPlaced_stuck hroom (t := stay s1) ⟨rfl, rfl, rfl⟩ (hq _) hbody fun hlt => ?_
        rw [cacheRoom_of_lt hlt] at e1
        cases e1
      next s1 e1 =>
        rw [e1] at hroom
        extract_lets s2 s3
        have h2 : SameTenants s1 s2 ∧ s2.records = s1.records ∧ SameBytes s1 s2 := by
          unfold s2
          split
          · exact ⟨⟨rfl, rfl, rfl⟩, rfl, .refl _⟩
          · exact ⟨⟨rfl, rfl, rfl⟩, rfl, sameBytes_modC (fun _ => rfl) fun _ => rfl⟩
        obtain ⟨⟨hgroups, hlength, hcur⟩, hrecords, hbytes⟩ := h2
        refine recordPlaced_last (v := s3) hroom hgroups (congrArg (· ++ [{ r1 with place := p }]) hrecords) hcur (hq _) hbody fun hlt => ?_
        rw [cacheRoom_of_lt hlt] at e1
        cases e1
        exact hbytes.trans ⟨rfl, fun _ => rfl, fun _ => rfl⟩

end Sys2Proof.Machine


namespace Sys2Proof.Machine

/-- The issuing fragment, at the same address and with the same threads, with everything else of its group and every byte as they were. -/
structure AtSamePlace (s u : State) : Prop extends SameBytes s u where
  cur : u.cur = s.cur
  records : u.records = s.records
  group : curG u = { curG s with split := (curG u).split }
  pc : (curF u).pc = (curF s).pc
  mask : (curF u).mask = (curF s).mask
  others : ∀ k, k ≠ s.cur.entry → getF (curG u) k = getF (curG s) k

section
variable {s u : State} (h : AtSamePlace s u)
include h

theorem AtSamePlace.curG_eq : getG u s.cur.uid = curG u := by rw [curG, h.cur]

theorem AtSamePlace.curF_eq : getF (curG u) s.cur.entry = curF u := by rw [curF, h.cur]

theorem AtSamePlace.curG_setF (f : Split) :
    curG (setG u s.cur.uid (Machine.setF (getG u s.cur.uid) s.cur.entry f)) = Machine.setF (curG u) s.cur.entry f := by
  rw [h.curG_eq, ← h.cur]
  exact curG_setG_cur rfl _

theorem AtSamePlace.curF_setF (f : Split) : curF (setG u s.cur.uid (Machine.setF (getG u s.cur.uid) s.cur.entry f)) = f := by
  rw [curF, h.curG_setF, show (setG u s.cur.uid _).cur.entry = s.cur.entry from congrArg _ h.cur, getF_setF_same]

theorem AtSamePlace.setF {f : Split} (hpc : f.pc = (curF s).pc) (hmask : f.mask = (curF s).mask) :
    AtSamePlace s (setG u s.cur.uid (Machine.setF (getG u s.cur.uid) s.cur.entry f)) := by
  refine ⟨⟨h.homes, h.swords, h.stash⟩, h.cur, h.records, ?_, by rw [h.curF_setF, hpc], by rw [h.curF_setF, hmask], fun k hk => ?_⟩
  · rw [h.curG_setF, Machine.setF, h.group]
  · rw [h.curG_setF, getF_setF_ne _ _ _ _ hk, h.others k hk]

end

/-- R189, R190: what a record of the issuing fragment says, and what its deposit leaves. -/
theorem deposited_placeRecord {s u : State} {r : Record} {cond : Cond} {mask : Word} {st : BitVec 2} (h : AtSamePlace s u)
    (hst : (curF u).st = st) (huid : r.uid = s.cur.uid) (hfrag : r.frag = s.cur.entry) (hctx : r.ctx = (curG s).ctx)
    (hpc : r.pc = (curF s).pc) (hmask : r.mask = mask) (hcond : r.cond = cond) (hready : r.ready = false) (howner : r.owner = (curG s).core)
    (hprio : r.prio = (curG s).prio) (hbody : r.body = false) : Claim.Deposited s (placeRecord u r) cond mask st := by
  obtain ⟨⟨q, hplace, hq, hqbody⟩, hgroup, hcur, hbytes⟩ := recordPlaced_placeRecord u r
  have hgu : getG u r.uid = curG u := by rw [huid, h.curG_eq]
  have hgt : getG (placeRecord u r) r.uid = curG (placeRecord u r) := by rw [curG, hcur, h.cur, huid]
  rw [hgt, hgu] at hgroup
  rw [hgt, h.records] at hplace
  rw [hgu] at hqbody hbytes
  have hsplit : ∀ k, getF (curG (placeRecord u r)) k = getF (curG u) k := fun k => by rw [hgroup]; rfl
  have hF : curF (placeRecord u r) = curF u := by rw [curF, hsplit, hcur, ← curF]
  have hslot : (curG u).slot = (curG s).slot := by rw [h.group]
  have hstuck : (curG u).stuck = (curG s).stuck := by rw [h.group]
  have halone : q.body = true ↔ (curG s).slot ≠ none ∧ (curG s).stuck = [] ∧
      ∀ k, k < 8 → k ≠ s.cur.entry → ¬((getF (curG s) k).valid = true ∧ (getF (curG s) k).st = 0) := by
    rw [hqbody, bodyRecord_iff hbody, hfrag, hslot, hstuck]
    refine and_congr_right fun _ => and_congr_right fun _ => forall_congr' fun k => forall_congr' fun _ => forall_congr' fun hk => ?_
    rw [h.others k hk]
  refine ⟨⟨q, hplace, ?_⟩, by rw [hF, hst], by rw [hF, h.pc], by rw [hF, h.mask], fun k hk => by rw [hsplit, h.others k hk], ?_, fun hlt =>
    (h.toSameBytes.trans (hbytes ?_)).memKept⟩
  · unfold SameWait at hq
    rw [hq]
    exact ⟨huid, hfrag, hctx, hpc, hmask, hcond, hready, howner, hprio, halone⟩
  · rw [hgroup, h.group]
    exact ⟨rfl, rfl, rfl, rfl, rfl, rfl, rfl, rfl, rfl, rfl, rfl⟩
  · rw [h.records, h.group]
    exact hlt

theorem deposited_depositWhy {s u : State} {cond : Cond} {mask : Word} {st : BitVec 2} {trap : Option TrapRegs} {why : Option Cause}
    {sfpd held : Bool} (h : AtSamePlace s u) :
    Claim.Deposited s (depositWhy u s.cur.uid s.cur.entry cond mask st trap why sfpd held) cond mask st := by
  unfold depositWhy
  extract_lets g s1
  have hgu : g = curG u := h.curG_eq
  have hF : getF g s.cur.entry = curF u := by rw [hgu, h.curF_eq]
  have h1 : AtSamePlace s s1 := h.setF (hF ▸ h.pc) (hF ▸ h.mask)
  have hst : (curF s1).st = st := by rw [show curF s1 = _ from h.curF_setF _]
  rw [hF, hgu, h.group]
  exact deposited_placeRecord h1 hst rfl rfl rfl h.pc rfl rfl rfl rfl rfl rfl

end Sys2Proof.Machine


/-! ## `vbra` (R176, R264) -/

namespace Sys2Proof.Machine

/-! The target of a branch. -/

/-- R246: an address at a signed offset in halfwords. -/
theorem branchTo_ofInt (s : State) (z : Int) : branchTo s (BitVec.ofInt 56 z) = Claim.target s z := by
  unfold branchTo Claim.target
  rw [Int.two_mul, ← Int.add_assoc, BitVec.ofInt_add, BitVec.ofInt_add, BitVec.ofInt_natCast, BitVec.ofNat_toNat, BitVec.setWidth_eq]

theorem branchTo_signExtend (s : State) {w : Nat} (off : BitVec w) : branchTo s (BitVec.signExtend 56 off) = Claim.target s off.toInt :=
  branchTo_ofInt s off.toInt

theorem branchTo_zeroExtend (s : State) {w : Nat} (off : BitVec w) : branchTo s (BitVec.zeroExtend 56 off) = Claim.target s off.toNat := by
  rw [← branchTo_ofInt, BitVec.ofInt_natCast, BitVec.zeroExtend, BitVec.ofNat_toNat]

/-! A move of the issuing fragment. -/

theorem moved_advance {i : Instr} (s : State) (hlen : (codeOf i).len = 4) : Claim.Moved s (advance i s) ((curF s).pc + 4) :=
  ⟨onlyGroup_advance i (onlyGroup_self s), past_advance hlen rfl rfl, curG_advance_split i s⟩

theorem moved_jump (a : BitVec 56) (s : State) : Claim.Moved s (jump a s) a := by
  refine ⟨⟨jump_groups a s, fun u hu => getG_jump_ne a s u hu, memKept_of_groups (jump_groups a s)⟩, ?_, ?_⟩
  · refine ⟨by simp, by simp, by simp, fun k hk => ?_⟩
    rw [curG_jump, getF_modF_ne _ _ _ _ hk]
  · rw [curG_jump]
    rfl

/-! The split table. -/

theorem freeEntry_eq_some {g : Group} {c : Nat} (h : Claim.LowestFree g c) : freeEntry g = some c := by
  obtain ⟨hc, hfree, hbelow⟩ := h
  refine List.find?_range_eq_some.mpr ⟨by simp [hfree], List.mem_range.mpr hc, fun k hk => by simp [hbelow k hk]⟩

theorem freeEntry_eq_none {g : Group} (h : ∀ k, k < 8 → (getF g k).valid = true) : freeEntry g = none :=
  List.find?_eq_none.mpr fun k hk => by simp [h k (List.mem_range.mp hk)]

theorem and_not_and {w : Nat} (a b : BitVec w) : a &&& ~~~(a &&& b) = a &&& ~~~b := by
  rw [BitVec.not_and, BitVec.and_or_distrib_left, BitVec.and_not_self]
  exact BitVec.zero_or

theorem and_eq_self_iff {w : Nat} {a b : BitVec w} : a &&& b = a ↔ a &&& ~~~b = 0 := by
  constructor
  · intro h
    rw [← and_not_and, h]
    exact BitVec.and_not_self _
  · intro h
    calc a &&& b = (a &&& b) ||| (a &&& ~~~b) := by rw [h]; exact (BitVec.or_zero).symm
      _ = a &&& (b ||| ~~~b) := BitVec.and_or_distrib_left.symm
      _ = a := by rw [BitVec.or_not_self, BitVec.and_allOnes]

/-- R176: entry `c` has a new child of fragment `k`, younger than every fragment before it, and nothing else of the group changed but the
place of the two. -/
structure SplitOff (g h : Group) (k c : Nat) : Prop where
  parent : (getF h c).parent.toNat = k % 8
  saved : (getF h c).saved = (getF g k).join
  keptSaved : (getF h k).saved = (getF g k).saved
  keptParent : (getF h k).parent = (getF g k).parent
  keptAge : (getF h k).age = (getF g k).age
  age : (getF h c).age = g.splitAge + 1
  others : ∀ j, j ≠ c → j ≠ k → getF h j = getF g j
  regs : Claim.RegsKept g h

section
variable {g : Group} {k c now : Nat} {join : BitVec 56} (hck : c ≠ k)
include hck

/-- R176: a split with the threads and the PC of either side: the child's first. -/
theorem splitOff_setF (ops : List Op) (dm km : Word) (dpc kpc : BitVec 56) (hvalid : (getF g k).valid = true) (hst : (getF g k).st = 0) :
    let h := setF (setF { g with splitAge := g.splitAge + 1, ops } c { Split.free with
        valid := true, parent := BitVec.ofNat 3 k, mask := dm, pc := dpc, join, saved := (getF g k).join, age := g.splitAge + 1, rdy := now })
      k { getF g k with mask := km, pc := kpc, join, redo := none, walked := [], why := 0, rdy := now }
    SplitOff g h k c ∧ Claim.Runs (getF h c) dm dpc join ∧ Claim.Runs (getF h k) km kpc join := by
  intro h
  have hchild : getF h c = _ := (getF_setF_ne _ _ _ _ hck).trans (getF_setF_same _ _ _)
  have hkept : getF h k = _ := getF_setF_same _ _ _
  refine ⟨⟨?_, by rw [hchild], by rw [hkept], by rw [hkept], by rw [hkept], by rw [hchild], fun j hjc hjk => ?_,
    ⟨rfl, rfl, rfl, rfl, rfl, rfl, rfl, rfl, rfl, rfl, rfl⟩⟩, ?_, ?_⟩
  · rw [hchild]
    exact BitVec.toNat_ofNat k 3
  · exact (getF_setF_ne _ _ _ _ hjk).trans (getF_setF_ne _ _ _ _ hjc)
  · rw [hchild]
    exact ⟨rfl, rfl, rfl, rfl, rfl, rfl⟩
  · rw [hkept]
    exact ⟨hvalid, hst, rfl, rfl, rfl, rfl⟩

/-- R176: the smaller side detaches, the taken one of two equal sides. -/
theorem splitOff_splitGroup (taken : Word) (target next : BitVec 56) (hvalid : (getF g k).valid = true) (hst : (getF g k).st = 0) :
    let h := splitGroup g k c taken target next join now
    let rest := (getF g k).mask &&& ~~~taken
    SplitOff g h k c ∧
      if Claim.count taken ≤ Claim.count rest then Claim.Runs (getF h c) taken target join ∧ Claim.Runs (getF h k) rest next join
      else Claim.Runs (getF h c) rest next join ∧ Claim.Runs (getF h k) taken target join := by
  unfold splitGroup
  simp only [show ∀ m, (threadsOf m).length = Claim.count m from fun _ => rfl]
  split_ifs
  · exact splitOff_setF hck _ _ _ _ _ hvalid hst
  · exact splitOff_setF hck _ _ _ _ _ hvalid hst

end

theorem onlyGroup_setCur (s : State) (g : Group) : Claim.OnlyGroup s (setG s s.cur.uid g) :=
  ⟨rfl, fun u hu => getG_setG_ne s _ u g hu, memKept_of_groups rfl⟩

/-- R264, R176: `vbra` in its four cases. -/
theorem divergentBranch : Claim.DivergentBranch := by
  intro s toff joff mk g f taken rest go join
  have htarget : branchTo s (BitVec.signExtend 56 toff) = go := branchTo_signExtend s toff
  have hjoin : (if joff = 0 then 0 else branchTo s (BitVec.zeroExtend 56 joff)) = join := by rw [branchTo_zeroExtend]
  have hrest : f.mask &&& ~~~taken = rest := and_not_and _ _
  have hall : taken = f.mask ↔ rest = 0 := and_eq_self_iff
  have hexec : exec (.vbra toff joff mk) s = commit (.vbra toff joff mk) s
      (if taken = 0 then .ok (advance (.vbra toff joff mk) s) else if taken = f.mask then .ok (jump go s)
      else match freeEntry g with
        | none => trapX .splitFull
        | some c => .ok (setG s s.cur.uid (splitGroup g s.cur.entry c taken go (f.pc + 4) join (cycleG s s.cur.uid)))) := by
    rw [← htarget, ← hjoin]
    rfl
  refine ⟨fun hnone => ?_, fun hsome hevery => ?_, fun hsome hnot hst hvalid c hfree => ?_, fun hsome hnot hfull => ?_⟩
  · rw [hexec, if_pos hnone]
    exact ⟨_, rfl, moved_advance s rfl⟩
  · rw [hexec, if_neg hsome, if_pos (hall.mpr hevery)]
    exact ⟨_, rfl, moved_jump _ s⟩
  · rw [hexec, if_neg hsome, if_neg (hall.not.mpr hnot), freeEntry_eq_some hfree]
    have hck : c ≠ s.cur.entry := fun hc => by
      obtain ⟨-, hinvalid, -⟩ := hfree
      rw [hc] at hinvalid
      exact absurd (hvalid.symm.trans hinvalid) (by decide)
    obtain ⟨hoff, hruns⟩ := splitOff_splitGroup (join := join) (now := cycleG s s.cur.uid) hck taken go (f.pc + 4) hvalid hst
    rw [show (getF g s.cur.entry).mask &&& ~~~taken = rest from hrest] at hruns
    refine ⟨_, rfl, onlyGroup_setCur s _, ?_⟩
    rw [curF, curG_setG_cur rfl]
    refine ⟨hoff.regs, hoff.parent, hoff.saved, hoff.keptSaved, hoff.keptParent, fun k _ hk => ?_, hoff.others, hruns⟩
    have hage : (getF (splitGroup g s.cur.entry c taken go (f.pc + 4) join (cycleG s s.cur.uid)) k).age = (getF g k).age := by
      by_cases he : k = s.cur.entry
      · rw [he, hoff.keptAge]
      · rw [hoff.others k hk he]
    rcases Nat.lt_or_ge g.splitAge (getF g k).age with hlater | hbefore
    · exact .inr hlater
    · refine .inl ?_
      rw [hage, hoff.age]
      exact Nat.lt_succ_of_le hbefore
  · rw [hexec, if_neg hsome, if_neg (hall.not.mpr hnot), freeEntry_eq_none hfull]
    exact commit_trap _ s .splitFull 0 none

end Sys2Proof.Machine


/-! ## `vjoin` (R177, R265) -/

namespace Sys2Proof.Machine

/-! The youngest child. -/

/-- The insertion of an entry in a list that runs from the youngest to the oldest. -/
def insertByAge (q : Nat × Split) (m : List (Nat × Split)) : List (Nat × Split) :=
  (m.takeWhile fun r => q.2.age < r.2.age) ++ [q] ++ m.dropWhile fun r => q.2.age < r.2.age

theorem mem_insertByAge {q r : Nat × Split} {m : List (Nat × Split)} : r ∈ insertByAge q m ↔ r = q ∨ r ∈ m := by
  unfold insertByAge
  rw [List.mem_append, List.mem_append, List.mem_singleton, or_assoc, or_left_comm, ← List.mem_append, List.takeWhile_append_dropWhile]

theorem mem_foldr_insertByAge {r : Nat × Split} {l : List (Nat × Split)} : r ∈ l.foldr insertByAge [] ↔ r ∈ l := by
  induction l with
  | nil => rfl
  | cons q l ih => rw [List.foldr_cons, mem_insertByAge, ih, List.mem_cons]

/-- The entry that is younger than all others comes first. -/
theorem head?_foldr_insertByAge {b : Nat × Split} {l : List (Nat × Split)} (hb : b ∈ l) (hmax : ∀ r ∈ l, r = b ∨ r.2.age < b.2.age) :
    (l.foldr insertByAge []).head? = some b := by
  induction l with
  | nil => cases hb
  | cons q l ih =>
    rw [List.foldr_cons]
    have hmax' : ∀ r ∈ l, r = b ∨ r.2.age < b.2.age := fun r hr => hmax r (List.mem_cons_of_mem _ hr)
    rcases hmax q List.mem_cons_self with rfl | hq
    · have hnone : (l.foldr insertByAge []).takeWhile (fun r => q.2.age < r.2.age) = [] := by
        cases hl : l.foldr insertByAge [] with
        | nil => rfl
        | cons r m =>
          have hr : r ∈ l := mem_foldr_insertByAge.mp (hl ▸ List.mem_cons_self)
          have hle : ¬q.2.age < r.2.age := by
            rcases hmax' r hr with rfl | hlt
            · exact Nat.lt_irrefl _
            · exact Nat.lt_asymm hlt
          exact List.takeWhile_cons_of_neg (by simpa using hle)
      rw [insertByAge, hnone]
      rfl
    · have hbl : b ∈ l := (List.mem_cons.mp hb).resolve_left fun e => Nat.lt_irrefl _ (e ▸ hq)
      obtain ⟨m, hm⟩ := List.head?_eq_some_iff.mp (ih hbl hmax')
      rw [hm, insertByAge, List.takeWhile_cons_of_pos (by simpa using hq)]
      rfl

/-- The entries of a split table that are children of `x` with join address `p`. -/
def childEntries (g : Group) (x : Nat) (p : BitVec 56) : List (Nat × Split) :=
  (entries g).filter fun q => q.1 != 0 && q.2.valid && q.2.parent.toNat == x && q.2.join == p

theorem mem_childEntries {g : Group} {x : Nat} {p : BitVec 56} {e : Nat × Split} :
    e ∈ childEntries g x p ↔ Claim.Child g x p e.1 ∧ e.2 = getF g e.1 := by
  unfold childEntries entries Claim.Child
  obtain ⟨k, f⟩ := e
  simp only [List.mem_filter, List.mem_map, List.mem_range, Prod.mk.injEq, Bool.and_eq_true, bne_iff_ne, beq_iff_eq, ne_eq]
  constructor
  · rintro ⟨⟨j, hj, rfl, rfl⟩, ⟨⟨h0, hv⟩, hp⟩, hjoin⟩
    exact ⟨⟨Nat.pos_of_ne_zero h0, hj, hv, hp, hjoin⟩, rfl⟩
  · rintro ⟨⟨h0, hk, hv, hp, hjoin⟩, rfl⟩
    exact ⟨⟨k, hk, rfl, rfl⟩, ⟨⟨Nat.ne_of_gt h0, hv⟩, hp⟩, hjoin⟩

theorem kidsOf_eq (g : Group) (x : Nat) (p : BitVec 56) :
    kidsOf g x p = ((childEntries g x p).foldr insertByAge []).map fun q => q.1 := rfl

theorem kidsOf_eq_nil {g : Group} {x : Nat} {p : BitVec 56} (h : ∀ c, ¬Claim.Child g x p c) : kidsOf g x p = [] := by
  have hnone : childEntries g x p = [] := List.eq_nil_iff_forall_not_mem.mpr fun e he => h e.1 (mem_childEntries.mp he).1
  rw [kidsOf_eq, hnone]
  rfl

theorem head?_kidsOf {g : Group} {x q : Nat} {p : BitVec 56} (hq : Claim.Child g x p q)
    (hmax : ∀ c, c ≠ q → Claim.Child g x p c → (getF g c).age < (getF g q).age) : (kidsOf g x p).head? = some q := by
  have hhead : ((childEntries g x p).foldr insertByAge []).head? = some (q, getF g q) := by
    refine head?_foldr_insertByAge (mem_childEntries.mpr ⟨hq, rfl⟩) fun r hr => ?_
    obtain ⟨hchild, hget⟩ := mem_childEntries.mp hr
    by_cases hc : r.1 = q
    · exact .inl (Prod.ext hc (by rw [hget, hc]))
    · exact .inr (hget ▸ hmax r.1 hc hchild)
  rw [kidsOf_eq, List.head?_map, hhead]
  rfl

/-- R177: the partner of a fragment at its join: its youngest child there, or, where it has none, the parent whose youngest child it is. -/
def IsPartner (g : Group) (k : Nat) (p : BitVec 56) (q : Nat) (up : Bool) : Prop :=
  if up = true then (∀ c, ¬Claim.Child g k p c) ∧ 0 < k ∧ q = (getF g k).parent.toNat ∧ (getF g q).valid = true ∧
      ∀ c, c ≠ k → Claim.Child g q p c → (getF g c).age < (getF g k).age
    else Claim.Child g k p q ∧ ∀ c, c ≠ q → Claim.Child g k p c → (getF g c).age < (getF g q).age

theorem joinPartner_of_isPartner {g : Group} {k q : Nat} {p : BitVec 56} {up : Bool} (hk : k < 8) (hvalid : (getF g k).valid = true)
    (hjoin : (getF g k).join = p) (h : IsPartner g k p q up) : joinPartner g k p = some (q, up) := by
  unfold joinPartner
  cases up with
  | false =>
    obtain ⟨hchild, hmax⟩ := h
    obtain ⟨m, hm⟩ := List.head?_eq_some_iff.mp (head?_kidsOf hchild hmax)
    rw [hm]
  | true =>
    obtain ⟨hnone, hpos, rfl, -, hmax⟩ := h
    rw [kidsOf_eq_nil hnone]
    have hfirst : (kidsOf g (getF g k).parent.toNat p).head? = some k := head?_kidsOf ⟨hpos, hk, hvalid, rfl, hjoin⟩ hmax
    simp [hfirst, Nat.ne_of_gt hpos]

theorem joinReady_iff {g : Group} {q : Nat} {p : BitVec 56} : joinReady g q p = true ↔ Claim.AtJoin (getF g q) p := by
  simp [joinReady, Claim.AtJoin]

/-! Two split tables that differ in the places of their fragments only. -/

/-- An entry with the same parent, age, threads and joins, and the same ST. -/
structure SameEntry (f h : Split) : Prop where
  valid : h.valid = f.valid
  st : h.st = f.st
  parent : h.parent = f.parent
  join : h.join = f.join
  age : h.age = f.age
  mask : h.mask = f.mask
  saved : h.saved = f.saved

section
variable {g h : Group} (H : ∀ j, SameEntry (getF g j) (getF h j))
include H

theorem child_iff_of_sameEntry {x c : Nat} {p : BitVec 56} : Claim.Child h x p c ↔ Claim.Child g x p c := by
  unfold Claim.Child
  rw [(H c).valid, (H c).parent, (H c).join]

theorem IsPartner.of_sameEntry {k q : Nat} {p : BitVec 56} {up : Bool} (hq : IsPartner g k p q up) : IsPartner h k p q up := by
  unfold IsPartner at hq ⊢
  simp only [child_iff_of_sameEntry H, (H _).age, (H _).parent, (H _).valid]
  exact hq

theorem atJoin_iff_of_sameEntry {q : Nat} {p : BitVec 56} : Claim.AtJoin (getF h q) p ↔ Claim.AtJoin (getF g q) p := by
  unfold Claim.AtJoin
  rw [(H q).st, (H q).join]

end

/-! The issuing fragment past its `vjoin`. -/

theorem getF_advanced (s : State) (j : Nat) : getF (curG (advance .vjoin s)) j = if j = s.cur.entry then { curF s with
    pc := (curF s).pc + 4, redo := none, redoAt := (curF s).redoAt.filter fun p => p.1 != (curF s).pc,
    walked := [], rdy := cycleG s s.cur.uid, why := 0 } else getF (curG s) j := by
  rw [curG_advance, modF, getF_setF]
  rfl

theorem sameEntry_advanced (s : State) (j : Nat) : SameEntry (getF (curG s) j) (getF (curG (advance .vjoin s)) j) := by
  rw [getF_advanced]
  split_ifs with h
  · rw [h]
    exact ⟨rfl, rfl, rfl, rfl, rfl, rfl, rfl⟩
  · exact ⟨rfl, rfl, rfl, rfl, rfl, rfl, rfl⟩

/-! What `on_vjoin` does in each case. -/

/-- R177, log 15: fragment `k` waits at the join. -/
def waitAtJoin (s : State) (uid k : Nat) (p : BitVec 56) : State :=
  deposit (modG s uid fun g => modF g k fun f => { f with pc := p }) uid k (.joined p) (getF (getG s uid) k).mask 1 none false false

/-- R177: a partner's record goes as it fuses. -/
def fused (s : State) (uid q keep drop : Nat) (next : BitVec 56) : State :=
  { setG s uid (fuse (getG s uid) keep drop next (cycleG s uid)) with records := s.records.filter fun r => !(r.uid == uid && r.frag == q) }

section
variable {s : State} {uid n k q : Nat} {p next : BitVec 56} {up : Bool}

theorem onVjoin_elsewhere (h : (getF (getG s uid) k).join = 0 ∨ (getF (getG s uid) k).join ≠ p) : onVjoin s uid p next n k = s := by
  cases n with
  | zero => rfl
  | succ n =>
    unfold onVjoin
    exact if_pos (by simpa using h)

theorem onVjoin_wait (hp : p ≠ 0) (hjoin : (getF (getG s uid) k).join = p) (hpartner : joinPartner (getG s uid) k p = some (q, up))
    (hready : joinReady (getG s uid) q p = false) : onVjoin s uid p next (n + 1) k = waitAtJoin s uid k p := by
  unfold onVjoin
  rw [if_neg (by simpa [hjoin] using hp), hpartner]
  exact if_pos (by simp [hready])

theorem onVjoin_fuse (hp : p ≠ 0) (hjoin : (getF (getG s uid) k).join = p) (hpartner : joinPartner (getG s uid) k p = some (q, up))
    (hready : joinReady (getG s uid) q p = true) : onVjoin s uid p next (n + 1) k =
      onVjoin (fused s uid q (if up then q else k) (if up then k else q) next) uid p next n (if up then q else k) := by
  rw [onVjoin]
  rw [if_neg (by simpa [hjoin] using hp), hpartner]
  cases up <;> exact if_neg (by simp [hready])

end

/-- R177: the parent takes over the threads of a fused child and goes on after the join. -/
theorem getF_fuse_keep {g : Group} {keep drop now : Nat} {next : BitVec 56} : getF (fuse g keep drop next now) keep =
    { getF g keep with
      mask := Claim.live (getF g keep) ||| Claim.live (getF g drop), join := (getF g drop).saved, pc := next, st := 0, redo := none,
      walked := [], why := 0, rdy := now } := by
  unfold fuse
  rw [getF_setF_same]
  simp [Claim.live]

theorem getF_fuse_drop {g : Group} {keep drop now : Nat} {next : BitVec 56} (h : drop ≠ keep) :
    getF (fuse g keep drop next now) drop = Split.free := by
  unfold fuse
  rw [getF_setF_ne _ _ _ _ h, getF_setF_same]

theorem getF_fuse_ne {g : Group} {keep drop now j : Nat} {next : BitVec 56} (hkeep : j ≠ keep) (hdrop : j ≠ drop) :
    getF (fuse g keep drop next now) j = getF g j := by
  unfold fuse
  rw [getF_setF_ne _ _ _ _ hkeep, getF_setF_ne _ _ _ _ hdrop]
  rfl

theorem regsKept_fuse {g h : Group} (H : Claim.RegsKept g h) (keep drop now : Nat) (next : BitVec 56) :
    Claim.RegsKept g (fuse h keep drop next now) := by
  obtain ⟨hs, hsEmpty, hv, hvEmpty, hm, hc, hcEmpty, hec, htop, hscopes, hlocks⟩ := H
  exact ⟨hs, hsEmpty, hv, hvEmpty, hm, hc, hcEmpty, hec, htop, hscopes, hlocks⟩

theorem regsKept_advance (i : Instr) (s : State) : Claim.RegsKept (curG s) (curG (advance i s)) := by
  rw [curG_advance]
  exact ⟨rfl, rfl, rfl, rfl, rfl, rfl, rfl, rfl, rfl, rfl, rfl⟩

section
variable {s : State}

theorem exec_vjoin (s : State) : exec .vjoin s =
    .next (onVjoin (advance .vjoin s) s.cur.uid (curF s).pc ((curF s).pc + 4) 8 s.cur.entry) := rfl

theorem atSamePlace_waiting (s : State) : AtSamePlace s
    (modG (advance .vjoin s) s.cur.uid fun g => modF g s.cur.entry fun f => { f with pc := (curF s).pc }) := by
  have hg : curG (modG (advance .vjoin s) s.cur.uid fun g => modF g s.cur.entry fun f => { f with pc := (curF s).pc }) =
      modF (curG (advance .vjoin s)) s.cur.entry fun f => { f with pc := (curF s).pc } := curG_modCur (advance .vjoin s) _
  have hk : getF (modF (curG (advance .vjoin s)) s.cur.entry fun f => { f with pc := (curF s).pc }) s.cur.entry =
      { curF (advance .vjoin s) with pc := (curF s).pc } := getF_modF _ _ _
  have hf : curF (modG (advance .vjoin s) s.cur.uid fun g => modF g s.cur.entry fun f => { f with pc := (curF s).pc }) =
      { curF (advance .vjoin s) with pc := (curF s).pc } := by
    rw [curF, hg]
    exact hk
  refine ⟨⟨rfl, fun _ => rfl, fun _ => rfl⟩, rfl, rfl, ?_, by rw [hf], by rw [hf, curF_advance], fun j hj => ?_⟩
  · rw [hg, modF, Machine.setF, curG_advance_split]
  · rw [hg, getF_modF_ne _ _ _ _ hj, getF_advance_ne _ _ _ hj]

theorem deposited_waitAtJoin (s : State) :
    Claim.Deposited s (waitAtJoin (advance .vjoin s) s.cur.uid s.cur.entry (curF s).pc) (.joined (curF s).pc) (curF s).mask 1 := by
  have hmask : (getF (getG (advance .vjoin s) s.cur.uid) s.cur.entry).mask = (curF s).mask := (sameEntry_advanced s s.cur.entry).mask
  unfold waitAtJoin
  rw [hmask]
  exact deposited_depositWhy (atSamePlace_waiting s)

end

/-- The threads that an entry contributes to a fusion, those of the issuing fragment included. -/
theorem live_advanced {s : State} (hst : (curF s).st = 0) (j : Nat) :
    Claim.live (getF (curG (advance .vjoin s)) j) = if j = s.cur.entry then (curF s).mask else Claim.live (getF (curG s) j) := by
  rw [getF_advanced]
  split_ifs
  · simp [Claim.live, hst]
  · rfl

theorem sameBytes_fused (s : State) (uid q keep drop : Nat) (next : BitVec 56) : SameBytes s (fused s uid q keep drop next) :=
  ⟨rfl, fun _ => rfl, fun _ => rfl⟩

theorem sameBytes_advance (i : Instr) (s : State) : SameBytes s (advance i s) := ⟨rfl, fun _ => rfl, fun _ => rfl⟩

/-- R177: what a fusion past the join leaves. -/
theorem fused_leaves {s : State} {q keep drop : Nat} (hst : (curF s).st = 0) (hne : drop ≠ keep)
    (hin : s.cur.entry = keep ∨ s.cur.entry = drop) (hvalid : (getF (curG s) keep).valid = true) :
    let t := fused (advance .vjoin s) s.cur.uid q keep drop ((curF s).pc + 4)
    Claim.MemKept s t ∧ Claim.RegsKept (curG s) (curG t) ∧
      Claim.Runs (getF (curG t) keep)
        ((if keep = s.cur.entry then (curF s).mask else Claim.live (getF (curG s) keep)) |||
          (if drop = s.cur.entry then (curF s).mask else Claim.live (getF (curG s) drop)))
        ((curF s).pc + 4) (getF (curG s) drop).saved ∧
      (getF (curG t) drop).valid = false ∧ (∀ j, j ≠ keep → j ≠ drop → getF (curG t) j = getF (curG s) j) ∧
      t.records = s.records.filter fun r => !(r.uid == s.cur.uid && r.frag == q) := by
  intro t
  have hg : curG t = fuse (curG (advance .vjoin s)) keep drop ((curF s).pc + 4) (cycleG (advance .vjoin s) s.cur.uid) := getG_setG_same _ _ _
  have H := sameEntry_advanced s
  refine ⟨((sameBytes_advance _ s).trans (sameBytes_fused _ _ _ _ _ _)).memKept, ?_, ?_, ?_, fun j hkeep hdrop => ?_, rfl⟩
  · rw [hg]
    exact regsKept_fuse (regsKept_advance _ s) _ _ _ _
  · rw [hg, getF_fuse_keep, ← live_advanced hst, ← live_advanced hst, ← (H drop).saved]
    exact ⟨(H keep).valid.trans hvalid, rfl, rfl, rfl, rfl, rfl⟩
  · rw [hg, getF_fuse_drop hne]
    rfl
  · rw [hg, getF_fuse_ne hkeep hdrop, getF_advance_ne]
    rintro rfl
    exact hin.elim hkeep hdrop

/-- R265, R177: `vjoin` elsewhere, at its join with its partner there, and without. -/
theorem joinInstruction : Claim.JoinInstruction := by
  intro s g f k hk hvalid hst
  have H := sameEntry_advanced s
  have hk' : (getF (curG (advance .vjoin s)) k).join = f.join := (H k).join
  refine ⟨fun helse => ?_, fun hjoin hpc q up hq => ?_⟩
  · rw [exec_vjoin, onVjoin_elsewhere (by rw [show getG (advance .vjoin s) s.cur.uid = curG (advance .vjoin s) from rfl, hk']; exact helse)]
    exact ⟨_, rfl, moved_advance s rfl⟩
  have hpartner : joinPartner (curG (advance .vjoin s)) k f.pc = some (q, up) :=
    joinPartner_of_isPartner hk ((H k).valid.trans hvalid) (hk'.trans hjoin) (IsPartner.of_sameEntry H hq)
  constructor
  · intro hat hqk keep drop hsaved
    have hready : joinReady (curG (advance .vjoin s)) q f.pc = true := joinReady_iff.mpr ((atJoin_iff_of_sameEntry H).mpr hat)
    have hne : drop ≠ keep := by
      cases up with
      | false => exact hqk
      | true => exact hqk.symm
    have hin : k = keep ∨ k = drop := by
      cases up with
      | false => exact .inl rfl
      | true => exact .inr rfl
    have hkeep : (getF g keep).valid = true := by
      cases up with
      | false => exact hvalid
      | true =>
        obtain ⟨-, -, -, hparent, -⟩ := hq
        exact hparent
    have hstop : (getF (getG (fused (advance .vjoin s) s.cur.uid q keep drop (f.pc + 4)) s.cur.uid) keep).join ≠ f.pc := by
      rw [show getG (fused (advance .vjoin s) s.cur.uid q keep drop (f.pc + 4)) s.cur.uid = _ from getG_setG_same _ _ _, getF_fuse_keep,
        show (getF (getG (advance .vjoin s) s.cur.uid) drop).saved = _ from (H drop).saved]
      exact hsaved
    have hfuse := onVjoin_fuse (uid := s.cur.uid) (n := 7) (next := f.pc + 4) hpc (hk'.trans hjoin) hpartner hready
    exact ⟨_, (exec_vjoin s).trans (congrArg _ (hfuse.trans (onVjoin_elsewhere (.inr hstop)))), fused_leaves hst hne hin hkeep⟩
  · intro hnot
    have hready : joinReady (curG (advance .vjoin s)) q f.pc = false :=
      Bool.eq_false_iff.mpr fun hr => hnot ((atJoin_iff_of_sameEntry H).mp (joinReady_iff.mp hr))
    have hwait := onVjoin_wait (uid := s.cur.uid) (n := 7) (next := f.pc + 4) hpc (hk'.trans hjoin) hpartner hready
    exact ⟨_, (exec_vjoin s).trans (congrArg _ hwait), deposited_waitAtJoin s⟩

/-- Settles O59: a divergent branch splits a fragment, and a join fuses two or waits. -/
theorem divergenceAndJoins : Obligations.DivergenceAndJoins := ⟨divergentBranch, joinInstruction⟩

end Sys2Proof.Machine


/-! ## What a vector write leaves (R164 to R166, R170) -/

namespace Sys2Proof.Machine

/-! The active threads. -/

theorem activeMask_getLsbD (s : State) (m : Nat) {k : Nat} (hk : k < 32) :
    (activeMask (curG s) (curF s) m).getLsbD k = Claim.Active s m k := by
  have hredo : ((curF s).redo.getD 0xFFFFFFFF).getLsbD k = (curF s).redo.all fun x => x.getLsbD k := by
    cases (curF s).redo with
    | none =>
      have hall : ∀ j, j < 32 → (0xFFFFFFFF : Word).getLsbD j = true := by decide
      exact hall k hk
    | some x => rfl
  unfold activeMask Claim.Active
  rw [BitVec.getLsbD_and, BitVec.getLsbD_and, hredo]

theorem threadsOf_activeMask (s : State) (m : Nat) : threadsOf (activeMask (curG s) (curF s) m) = Claim.activeList s m :=
  List.filter_congr fun _ hk => activeMask_getLsbD s m (List.mem_range.mp hk)

theorem length_threadsOf_eq {a : Word} : (threadsOf a).length = 32 ↔ a = 0xFFFFFFFF := by
  constructor
  · intro h
    have hall : ∀ k ∈ List.range 32, a.getLsbD k = true := List.length_filter_eq_length_iff.mp (h.trans List.length_range.symm)
    refine BitVec.eq_of_getLsbD_eq fun k hk => ?_
    have hones : ∀ j, j < 32 → (0xFFFFFFFF : Word).getLsbD j = true := by decide
    rw [hall k (List.mem_range.mpr hk), hones k hk]
  · rintro rfl
    decide

/-! Shapes. -/

theorem isG_eq (v : VVal) : isG v = (shapeCode v == 2) := by cases v <;> rfl

theorem isU_eq (v : VVal) : isU v = (shapeCode v == 0) := by cases v <;> rfl

theorem vAt_gather (f : Nat → Word) {k : Nat} (hk : k < 32) : vAt (.g ((List.range 32).map f)) k = f k := by
  simp [vAt, hk]

/-- R166: the active threads take the result's value, the others keep theirs. -/
theorem vAt_mergeV (old res : VVal) (a : Word) {k : Nat} (hk : k < 32) :
    vAt (mergeV old a res) k = if a.getLsbD k then vAt res k else vAt old k := by
  by_cases h0 : a = 0
  · rw [mergeV, if_pos h0, h0, if_neg (by simp)]
  · by_cases h1 : a = 0xFFFFFFFF
    · have hones : ∀ j, j < 32 → (0xFFFFFFFF : Word).getLsbD j = true := by decide
      rw [mergeV, if_neg h0, if_pos h1, h1, if_pos (hones k hk)]
    · rw [mergeV, if_neg h0, if_neg h1, vAt_gather _ hk]

theorem shapeCode_mergeV (s : State) (m r : Nat) (res : VVal) :
    shapeCode (mergeV (vReg (curG s) r) (activeMask (curG s) (curF s) m) res) = Claim.newShape s m (shapeCode res) r := by
  unfold mergeV Claim.newShape
  rw [← threadsOf_activeMask]
  simp only [threadsOf_eq_nil, length_threadsOf_eq]
  split_ifs <;> rfl

/-! A vector name written. -/

theorem putV_rest (g : Group) (r : Nat) (v : VVal) : putV g r v = { g with v := fset (VVal.u 0) g.v r v, gslot := (putV g r v).gslot } := by
  unfold putV takeSlot dropSlot
  cases isG v
  · rfl
  · cases (ffind g.gslot r).isSome
    · cases freeHeld g <;> rfl
    · rfl

theorem vReg_putV (g : Group) (r j : Nat) (v : VVal) : vReg (putV g r v) j = if j = r then v else vReg g j := by
  rw [vReg, putV_rest]
  exact fget_fset _ _ _ _ _

/-- R170: a write that finds room for its name needs no other held slot. -/
theorem slotsX_single {g : Group} {r : Nat} {v : VVal} {shape : Nat → Nat} (hv : shapeCode v = shape r)
    (h : gNames g + ([r].filter fun j => shape j == 2 && !holdsSlot g j).length ≤
      heldH g + ([r].filter fun j => shape j != 2 && holdsSlot g j).length) : slotsX g [(r, v)] = .ok () := by
  have hlen : ∀ (P : Nat × VVal → Bool) (Q : Nat → Bool), P (r, v) = Q r → ([(r, v)].filter P).length = ([r].filter Q).length := fun P Q e => by
    cases hQ : Q r <;> simp [e, hQ]
  unfold slotsX
  extract_lets need give
  have hneed : need = ([r].filter fun j => shape j == 2 && !holdsSlot g j).length := hlen _ _ (by rw [isG_eq, hv])
  have hgive : give = ([r].filter fun j => shape j != 2 && holdsSlot g j).length := hlen _ _ (by rw [isG_eq, hv]; rfl)
  refine if_pos ?_
  rw [hneed, hgive, Nat.add_comm]
  exact h

/-- R166, R170: one name written, where it has room. -/
theorem writeV_single {s : State} {a : Word} {r : Nat} {res : VVal}
    (h : slotsX (curG s) [(r, mergeV (vReg (curG s) r) a res)] = .ok ()) :
    writeV s a [(r, res)] = .ok (modCur s fun g => putV g r (mergeV (vReg (curG s) r) a res)) := by
  unfold writeV
  simp only [List.map_cons, List.map_nil, h]
  cases hg : isG (mergeV (vReg (curG s) r) a res) <;> simp [hg]

end Sys2Proof.Machine


/-! ## Lane operations on single names (R164 to R166, R274) -/

namespace Sys2Proof.Machine

/-! One thread's operands. -/

/-- A name's value as a source of an operation on single names. -/
def single (v : VVal) : SrcVal := (v, .u 0)

theorem lo32_zeroExtend (w : Word) : lo32 (BitVec.zeroExtend 64 w) = w := BitVec.setWidth_setWidth_of_le w (by decide)

theorem lo32_srcAt (v : VVal) (k : Nat) : lo32 (srcAt (single v) k) = vAt v k := by
  unfold lo32 srcAt single
  exact BitVec.setWidth_append_eq_right

theorem vAt_of_isU {v : VVal} (h : isU v = true) (k j : Nat) : vAt v k = vAt v j := by
  cases v with
  | u x => rfl
  | a b st => cases h
  | g ws => cases h

theorem srcU_single (v : VVal) : srcU (single v) = isU v := Bool.and_true _

/-! The result. -/

/-- R165, R274: the result of a lane operation on single names: U of nothing but U, A where the instruction keeps it, else G. -/
def laneResult (aform : List VVal → Option VVal) (f : List DWord → DWord × BitVec 6) (l : List VVal) : VVal :=
  let at_ (k : Nat) : Word := lo32 (f (l.map fun v => srcAt (single v) k)).1
  if l.all isU then .u (at_ 0) else (aform l).getD (.g ((List.range 32).map at_))

/-- R165: where an instruction keeps shape A: exactly for the shapes of the sources for which it gives base and stride, and these give
each thread's result. -/
structure KeepsAffine (aform : List VVal → Option VVal) (f : List DWord → DWord × BitVec 6) (keeps : List Nat → Bool) (n : Nat) : Prop where
  affine : ∀ l r, l.length = n → l.all isU = false → aform l = some r →
    keeps (l.map shapeCode) = true ∧ shapeCode r = 1 ∧ ∀ k, vAt r k = lo32 (f (l.map fun v => srcAt (single v) k)).1
  gathers : ∀ l, l.length = n → l.all isU = false → aform l = none → keeps (l.map shapeCode) = false

theorem keepsAffine_noA (f : List DWord → DWord × BitVec 6) (n : Nat) : KeepsAffine noA f (fun _ => false) n :=
  ⟨nofun, fun _ _ _ _ => rfl⟩

section
variable {aform : List VVal → Option VVal} {f : List DWord → DWord × BitVec 6} {keeps : List Nat → Bool} {n : Nat} {l : List VVal}

theorem vAt_laneResult (h : KeepsAffine aform f keeps n) (hl : l.length = n) {k : Nat} (hk : k < 32) :
    vAt (laneResult aform f l) k = lo32 (f (l.map fun v => srcAt (single v) k)).1 := by
  unfold laneResult
  extract_lets at_
  cases hu : l.all isU with
  | true =>
    have hsame : (l.map fun v => srcAt (single v) 0) = l.map fun v => srcAt (single v) k :=
      List.map_congr_left fun v hv => by rw [srcAt, srcAt, single, vAt_of_isU (List.all_eq_true.mp hu v hv) 0 k]; rfl
    exact congrArg (fun x => lo32 (f x).1) hsame
  | false =>
    cases ha : aform l with
    | some r => exact (h.affine l r hl hu ha).2.2 k
    | none => exact vAt_gather at_ hk

theorem shapeCode_laneResult (h : KeepsAffine aform f keeps n) (hl : l.length = n) :
    shapeCode (laneResult aform f l) = Claim.shapeBy keeps (l.map shapeCode) := by
  have hall : (l.map shapeCode).all (· == 0) = l.all isU := by
    rw [List.all_map]
    exact congrArg _ (funext fun v => (isU_eq v).symm)
  unfold laneResult Claim.shapeBy
  rw [hall]
  cases hu : l.all isU with
  | true => rfl
  | false =>
    cases ha : aform l with
    | some r =>
      obtain ⟨hkeeps, hr, -⟩ := h.affine l r hl hu ha
      rw [hkeeps]
      exact hr
    | none => rw [h.gathers l hl hu ha]; rfl

end

/-! The instruction. -/

section
variable {s : State} {i : Instr} {m : BitVec 2} {srcs : List Src} {vd : BitVec 6} {aform : List VVal → Option VVal}
  {f : List DWord → DWord × BitVec 6}

theorem raiseFlags_zero (s : State) : raiseFlags s 0 = s := if_pos rfl

/-- The state after a lane operation on single names without flags. -/
def laneDone (s : State) (m : BitVec 2) (vd : BitVec 6) (res : VVal) : State :=
  modCur s fun g => putV g vd.toNat (mergeV (vReg (curG s) vd.toNat) (activeMask (curG s) (curF s) m.toNat) res)

theorem foldl_flags_zero {F : Nat → DWord × BitVec 6} (h : ∀ k, (F k).2 = 0) (l : List Nat) :
    l.foldl (fun fl t => fl ||| (F t).2) (0 : BitVec 6) = 0 := by
  induction l with
  | nil => rfl
  | cons k l ih =>
    rw [List.foldl_cons, h]
    exact ih

theorem laneOp_single (hwf : i.WellFormed) (hsrcs : ∀ x ∈ srcs, x.pair = false ∧ Usable (curG s) x.reg false)
    (hvd : Usable (curG s) vd.toNat false) (hf : ∀ l, (f l).2 = 0) (res : VVal)
    (hres : res = laneResult aform f (srcs.map fun x => vReg (curG s) x.reg))
    (hroom : slotsX (curG s) [(vd.toNat, mergeV (vReg (curG s) vd.toNat) (activeMask (curG s) (curF s) m.toNat) res)] = .ok ()) :
    laneOp i m srcs vd false aform f s = .next (advance i (laneDone s m vd res)) := by
  have hregs : regsX (curG s) ((srcs.map fun x => (x.reg, x.pair)) ++ [(vd.toNat, false)]) = .ok () := regsX_ok fun p hp => by
    rcases List.mem_append.mp hp with h | h
    · obtain ⟨x, hx, rfl⟩ := List.mem_map.mp h
      obtain ⟨hpair, husable⟩ := hsrcs x hx
      exact hpair ▸ husable
    · rw [List.mem_singleton.mp h]
      exact hvd
  have hread : srcs.mapM (readSrc (curG s)) = .ok ((srcs.map fun x => vReg (curG s) x.reg).map single) := by
    rw [List.map_map]
    refine mapM_ok fun x hx => ?_
    obtain ⟨hpair, husable⟩ := hsrcs x hx
    rw [readSrc_ok husable.name.2.2 (by rw [hpair]; exact nofun), hpair]
    rfl
  have hdst : dstV (curG s) vd.toNat false = .ok () := dstV_ok hvd.name.2.2 nofun
  generalize (srcs.map fun x => vReg (curG s) x.reg) = l at hread hres
  have hall : (l.map single).all srcU = l.all isU := by
    rw [List.all_map]
    exact congrArg _ (funext srcU_single)
  have hfst : (l.map single).map (fun v => v.1) = l := by
    rw [List.map_map]
    exact List.map_id l
  have hwrite : ∀ ws, ws = [(vd.toNat, res)] →
      commitNext i s (writeV s (activeMask (curG s) (curF s) m.toNat) ws >>= fun s1 => .ok (raiseFlags s1 0)) =
        .next (advance i (laneDone s m vd res)) := by
    rintro ws rfl
    rw [writeV_single hroom, ok_bind, raiseFlags_zero]
    rfl
  unfold laneOp
  rw [checkField_ok hwf, ok_bind]
  simp only [hregs, hread, hdst, ok_bind]
  rw [foldl_flags_zero fun _ => hf _]
  refine hwrite _ ?_
  rw [hall, hfst, hres, laneResult]
  cases l.all isU with
  | true => simp [resultV, List.map_map, Function.comp_def]
  | false =>
    cases aform l with
    | some r => rfl
    | none => simp [resultV, List.map_map, Function.comp_def]

end

end Sys2Proof.Machine


/-! ### A lane form completes -/

namespace Sys2Proof.Machine

theorem onlyGroupFlags_zero {s t : State} (h : Claim.OnlyGroup s t) : Claim.OnlyGroupFlags s t 0 := by
  obtain ⟨hgroups, hne, hmem⟩ := h
  have htasks : t.tasks = s.tasks := by rw [hgroups]
  refine ⟨?_, hne, hmem, fun k => ?_⟩
  · rw [htasks]
    exact hgroups
  · rw [getT, htasks, ← getT]
    split_ifs
    · rw [show (getT s k).fflags ||| (0 : BitVec 6) = (getT s k).fflags from BitVec.or_zero]
    · rfl

theorem named_append {g : Group} {l l' : List (Nat × Bool)} (h : Claim.Named g (l ++ l')) : Claim.Named g l' := by
  obtain ⟨hlive, heven⟩ := h
  refine ⟨fun r hr => hlive r ?_, fun r hr => heven r (List.mem_append_right _ hr)⟩
  unfold Claim.namesOf at hr ⊢
  rw [List.flatMap_append]
  exact List.mem_append_right _ hr

theorem usable_single {g : Group} {l : List (Nat × Bool)} {r : Nat} (hnamed : Claim.Named g l) (hfilled : Claim.Filled g l)
    (hr : (r, false) ∈ l) : Usable g r false := by
  have hmem : r ∈ Claim.namesOf l := List.mem_flatMap.mpr ⟨_, hr, List.mem_singleton_self r⟩
  obtain ⟨hname, htop⟩ := hnamed.1 r hmem
  exact ⟨⟨htop, hname, hfilled r hmem⟩, nofun⟩

/-- A name of its own has the values and the shape of a result under the active threads. -/
theorem vectorWritten_laneDone {s : State} {i : Instr} {m : BitVec 2} {vd : BitVec 6} {res : VVal} {val : Nat → Nat} {shape : Nat}
    (hval : ∀ k, k < 32 → (vAt res k).toNat = val k) (hshape : shapeCode res = shape) :
    Claim.VectorWritten s (advance i (laneDone s m vd res)) m.toNat (vd.toNat, false) shape val := by
  have hg : curG (advance i (laneDone s m vd res)) = _ := curG_advance_modCur i s _
  have hv : ∀ r, vReg (curG (advance i (laneDone s m vd res))) r =
      if r = vd.toNat then mergeV (vReg (curG s) vd.toNat) (activeMask (curG s) (curF s) m.toNat) res else vReg (curG s) r := fun r => by
    rw [hg]
    exact vReg_putV _ _ _ _
  refine ⟨fun k hk => ?_, fun r hr => ?_, fun r hr => ?_, ?_⟩
  · show (vAt _ k).toNat + 0 = if _ then _ else (vAt _ k).toNat + 0
    rw [hv, if_pos rfl, vAt_mergeV _ _ _ hk, activeMask_getLsbD s _ hk]
    split_ifs
    · exact hval k hk
    · rfl
  · obtain rfl : r = vd.toNat := List.mem_singleton.mp hr
    rw [hv, if_pos rfl, shapeCode_mergeV, hshape]
  · rw [hv, if_neg fun h => hr (List.mem_singleton.mpr h)]
  · rw [hg, putV_rest]

theorem namesOf_single (srcs : List Src) : Claim.namesOf (srcs.map fun y => (y.reg, false)) = srcs.map fun y => y.reg := by
  rw [Claim.namesOf, List.flatMap_map]
  exact List.map_eq_flatMap.symm

/-- A lane operation on single names, without flags, that is what a form says of it. -/
structure LaneMatches (x : Claim.LaneForm) (m : BitVec 2) (srcs : List Src) (vd : BitVec 6) (aform : List VVal → Option VVal)
    (f : List DWord → DWord × BitVec 6) (keeps : List Nat → Bool) : Prop where
  mask : x.m = m.toNat
  sources : x.srcs = srcs.map fun y => (y.reg, false)
  noPair : ∀ y ∈ srcs, y.pair = false
  dst : x.dst = (vd.toNat, false)
  shape : x.shape = Claim.shapeBy keeps
  flags : ∀ l, (f l).2 = 0
  formFlags : ∀ k l, (x.val k l).2 = 0
  affine : KeepsAffine aform f keeps srcs.length
  value : ∀ l : List VVal, l.length = srcs.length → ∀ k,
    (lo32 (f (l.map fun v => srcAt (single v) k)).1).toNat = (x.val k (l.map fun v j => (vAt v j).toNat)).1

theorem laneCompletes_single {s : State} {i : Instr} {x : Claim.LaneForm} {m : BitVec 2} {srcs : List Src} {vd : BitVec 6}
    {aform : List VVal → Option VVal} {f : List DWord → DWord × BitVec 6} {keeps : List Nat → Bool}
    (H : LaneMatches x m srcs vd aform f keeps) (hexec : exec i s = laneOp i m srcs vd false aform f s) (hlen : (codeOf i).len = x.len) :
    Claim.LaneCompletes (some x) s i := by
  rintro hwf x' ⟨⟩ hnamed hfilled hroom
  obtain ⟨hmask, hsrcs, hsingle, hdst, hshape, hflags, hformFlags, haffine, hvalue⟩ := H
  have husable : ∀ r, (r, false) ∈ x.srcs ++ [x.dst] → Usable (curG s) r false := fun r hr =>
    usable_single (named_append (List.append_assoc .. ▸ hnamed)) hfilled hr
  have hvd : Usable (curG s) vd.toNat false := husable _ (by rw [hdst]; exact List.mem_append_right _ (List.mem_singleton_self _))
  have hsrc : ∀ y ∈ srcs, y.pair = false ∧ Usable (curG s) y.reg false := fun y hy =>
    ⟨hsingle y hy, husable _ (by rw [hsrcs]; exact List.mem_append_left _ (List.mem_map_of_mem hy))⟩
  have hlength : (srcs.map fun y => vReg (curG s) y.reg).length = srcs.length := List.length_map _
  have hvals : x.srcs.map (Claim.laneNat (curG s)) = (srcs.map fun y => vReg (curG s) y.reg).map fun v j => (vAt v j).toNat := by
    rw [hsrcs, List.map_map, List.map_map]
    rfl
  have hnames : (Claim.namesOf x.srcs).map (fun r => shapeCode (vReg (curG s) r)) = (srcs.map fun y => vReg (curG s) y.reg).map shapeCode := by
    rw [hsrcs, namesOf_single, List.map_map, List.map_map]
    rfl
  obtain ⟨res, hres⟩ : ∃ res, res = laneResult aform f (srcs.map fun y => vReg (curG s) y.reg) := ⟨_, rfl⟩
  have hcode : shapeCode res = x.result s := by
    rw [hres, shapeCode_laneResult haffine hlength, Claim.LaneForm.result, hshape, hnames]
  have hslots : slotsX (curG s) [(vd.toNat, mergeV (vReg (curG s) vd.toNat) (activeMask (curG s) (curF s) m.toNat) res)] = .ok () := by
    rw [hdst, hmask] at hroom
    exact slotsX_single (shape := Claim.newShape s m.toNat (x.result s)) (by rw [shapeCode_mergeV, hcode]) hroom
  refine ⟨_, hexec.trans (laneOp_single hwf hsrc hvd hflags res hres hslots), ?_, ?_, ?_⟩
  · have hnone : (Claim.flagsOf s x.m fun k => (x.val k (x.srcs.map (Claim.laneNat (curG s)))).2) = 0 :=
      foldl_flags_zero (F := fun k => (0, (x.val k (x.srcs.map (Claim.laneNat (curG s)))).2)) (fun k => hformFlags k _) _
    rw [hnone]
    exact onlyGroupFlags_zero (onlyGroup_advance i (onlyGroup_modCur s _))
  · exact past_advance hlen rfl (by rw [laneDone, curG_modCur, putV_rest])
  · rw [hmask, hdst]
    refine vectorWritten_laneDone (fun k hk => ?_) hcode
    rw [hres, vAt_laneResult haffine hlength hk, hvalue _ hlength, hvals]

end Sys2Proof.Machine


/-! ## The 32-bit integer forms (R165, R277) -/

namespace Sys2Proof.Machine

/-! What they compute, on natural numbers. -/

section
variable {n : Nat} (a b : BitVec n)

theorem sgn_toNat (hn : 0 < n) : Claim.sgn n a.toNat = a.toInt := by
  have hpow : 2 ^ (n - 1) + 2 ^ (n - 1) = 2 ^ n := Nat.two_pow_pred_add_two_pow_pred hn
  have hhalf : a.toNat < 2 ^ (n - 1) ↔ 2 * a.toNat < 2 ^ n := by omega
  simp only [Claim.sgn, BitVec.toInt_eq_toNat_cond, hhalf, Int.natCast_pow, Nat.cast_ofNat]

theorem bits_eq_ofInt (z : Int) : Claim.bits n z = (BitVec.ofInt n z).toNat := by
  rw [BitVec.toNat_ofInt, Claim.bits, Int.natCast_pow]
  rfl

theorem subB_toNat : Claim.subB n a.toNat b.toNat = (a - b).toNat := by
  rw [Claim.subB, bits_eq_ofInt, Int.sub_eq_add_neg, BitVec.ofInt_add, BitVec.ofInt_neg, BitVec.ofInt_natCast, BitVec.ofInt_natCast,
    BitVec.ofNat_toNat, BitVec.ofNat_toNat, BitVec.setWidth_eq, BitVec.setWidth_eq, ← BitVec.sub_eq_add_neg]

theorem hiS_toNat (hn : 0 < n) : Claim.hiS n a.toNat b.toNat = (mulHi false a b).toNat := by
  rw [Claim.hiS, sgn_toNat a hn, sgn_toNat b hn, bits_eq_ofInt]
  rfl

theorem hiU_toNat : Claim.hiU n a.toNat b.toNat = (mulHi true a b).toNat := by
  have hlt : a.toNat * b.toNat / 2 ^ n < 2 ^ n :=
    Nat.div_lt_of_lt_mul (Nat.mul_lt_mul_of_lt_of_lt a.isLt b.isLt)
  exact (Nat.mod_eq_of_lt hlt).symm.trans (BitVec.toNat_ofNat _ _).symm

theorem minZ_toNat (hn : 0 < n) : Claim.minZ n a.toNat b.toNat = (minB false a b).toNat := by
  rw [Claim.minZ, sgn_toNat a hn, sgn_toNat b hn, bits_eq_ofInt, minB]
  by_cases h : a.toInt ≤ b.toInt
  · simp [BitVec.sle, h]
  · simp [BitVec.sle, h, min_eq_right (le_of_not_ge h)]

theorem maxZ_toNat (hn : 0 < n) : Claim.maxZ n a.toNat b.toNat = (maxB false a b).toNat := by
  rw [Claim.maxZ, sgn_toNat a hn, sgn_toNat b hn, bits_eq_ofInt, maxB]
  by_cases h : a.toInt ≤ b.toInt
  · simp [BitVec.sle, h]
  · simp [BitVec.sle, h, max_eq_left (le_of_not_ge h)]

theorem min_toNat : min a.toNat b.toNat = (minB true a b).toNat := by
  unfold minB
  by_cases h : a.toNat ≤ b.toNat
  · simp [BitVec.ule, h]
  · simp [BitVec.ule, h, min_eq_right (le_of_not_ge h)]

theorem max_toNat : max a.toNat b.toNat = (maxB true a b).toNat := by
  unfold maxB
  by_cases h : a.toNat ≤ b.toNat
  · simp [BitVec.ule, h]
  · simp [BitVec.ule, h, max_eq_left (le_of_not_ge h)]

end

theorem leftB_toNat (a b : Word) : Claim.leftB 32 a.toNat b.toNat = (shlB a b).toNat := by
  rw [shlB, BitVec.toNat_shiftLeft, Nat.shiftLeft_eq]
  rfl

theorem rightB_toNat (a b : Word) : Claim.rightB 32 a.toNat b.toNat = (shrB a b).toNat := by
  rw [shrB, BitVec.toNat_ushiftRight, Nat.shiftRight_eq_div_pow]
  rfl

theorem rightZ_toNat (a b : Word) : Claim.rightZ 32 a.toNat b.toNat = (sraB a b).toNat := by
  rw [Claim.rightZ, sgn_toNat a (by decide), bits_eq_ofInt, sraB, BitVec.sshiftRight, Int.shiftRight_eq_div_pow]
  simp

/-! Base and stride. -/

theorem vAt_of_asA {v : VVal} {b st : Word} (h : asA v = some (b, st)) (k : Nat) : vAt v k = b + BitVec.ofNat 32 k * st := by
  cases v with
  | u x => obtain ⟨rfl, rfl⟩ := Prod.mk.inj (Option.some.inj h); simp [vAt]
  | a c y => obtain ⟨rfl, rfl⟩ := Prod.mk.inj (Option.some.inj h); rfl
  | g ws => cases h

theorem shapeCode_of_asA {v : VVal} {p : Word × Word} (h : asA v = some p) : shapeCode v ≤ 1 := by
  cases v with
  | u x => exact Nat.zero_le _
  | a b st => exact Nat.le_refl _
  | g ws => cases h

theorem shapeCode_of_asA_none {v : VVal} (h : asA v = none) : shapeCode v = 2 := by
  cases v with
  | u x => cases h
  | a b st => cases h
  | g ws => rfl

/-- What a form of base and stride must give for two operands. -/
structure AffineTwo (aform : List VVal → Option VVal) (g : Word → Word → Word) (keeps : List Nat → Bool) : Prop where
  affine : ∀ {u v r}, aform [u, v] = some r → keeps [shapeCode u, shapeCode v] = true ∧ shapeCode r = 1 ∧ ∀ k, vAt r k = g (vAt u k) (vAt v k)
  gathers : ∀ {u v}, aform [u, v] = none → keeps [shapeCode u, shapeCode v] = false

/-- R165: a sum or a difference of operands that have base and stride. -/
theorem affineTwo_of_asA {aform : List VVal → Option VVal} {g : Word → Word → Word}
    (hform : ∀ u v, aform [u, v] = (asA u).bind fun p => (asA v).map fun q => .a (g p.1 q.1) (g p.2 q.2))
    (hg : ∀ b x c y t : Word, g b c + t * g x y = g (b + t * x) (c + t * y)) : AffineTwo aform g Claim.keepSum := by
  constructor
  · intro u v r h
    obtain ⟨⟨b, x⟩, hu, h'⟩ := Option.bind_eq_some_iff.mp ((hform u v).symm.trans h)
    obtain ⟨⟨c, y⟩, hv, rfl⟩ := Option.map_eq_some_iff.mp h'
    refine ⟨by simp [Claim.keepSum, shapeCode_of_asA hu, shapeCode_of_asA hv], rfl, fun k => ?_⟩
    rw [vAt_of_asA hu, vAt_of_asA hv]
    exact hg b x c y _
  · intro u v h
    have hnone := (hform u v).symm.trans h
    cases hu : asA u with
    | none => simp [Claim.keepSum, shapeCode_of_asA_none hu]
    | some p =>
      cases hv : asA v with
      | none => simp [Claim.keepSum, shapeCode_of_asA_none hv]
      | some q => rw [hu, hv] at hnone; cases hnone

theorem affineTwo_add : AffineTwo affAdd (fun a b => a + b) Claim.keepSum := by
  refine affineTwo_of_asA (fun u v => ?_) fun b x c y t => by ring
  cases hu : asA u with
  | none => simp [affAdd, hu]
  | some p => cases hv : asA v <;> simp [affAdd, hu, hv]

theorem affineTwo_sub : AffineTwo affSub (fun a b => a - b) Claim.keepSum := by
  refine affineTwo_of_asA (fun u v => ?_) fun b x c y t => by ring
  cases hu : asA u with
  | none => simp [affSub, hu]
  | some p => cases hv : asA v <;> simp [affSub, hu, hv]

theorem affineTwo_mul : AffineTwo affMul (fun a b => a * b) Claim.keepMul := by
  constructor
  · intro u v r h
    cases u with
    | u x =>
      cases v with
      | a b st =>
        cases h
        refine ⟨rfl, rfl, fun k => ?_⟩
        simp only [vAt]
        ring
      | u y => cases h
      | g ws => cases h
    | a b st =>
      cases v with
      | u y =>
        cases h
        refine ⟨rfl, rfl, fun k => ?_⟩
        simp only [vAt]
        ring
      | a c x => cases h
      | g ws => cases h
    | g ws => cases h
  · intro u v h
    cases u with
    | u x =>
      cases v with
      | a b st => cases h
      | u y => rfl
      | g ws => rfl
    | a b st =>
      cases v with
      | u y => cases h
      | a c x => rfl
      | g ws => rfl
    | g ws => rfl

theorem affineTwo_shl : AffineTwo affShl shlB Claim.keepShl := by
  constructor
  · intro u v r h
    cases u with
    | a b st =>
      cases v with
      | u y =>
        cases h
        refine ⟨rfl, rfl, fun k => ?_⟩
        simp only [vAt, shlB, BitVec.shiftLeft_eq_mul_twoPow]
        ring
      | a c x => cases h
      | g ws => cases h
    | u x => cases h
    | g ws => cases h
  · intro u v h
    cases u with
    | a b st =>
      cases v with
      | u y => cases h
      | a c x => rfl
      | g ws => rfl
    | u x => rfl
    | g ws => rfl

theorem AffineTwo.keepsAffine {aform : List VVal → Option VVal} {g : Word → Word → Word} {keeps : List Nat → Bool}
    (H : AffineTwo aform g keeps) : KeepsAffine aform (on2 g) keeps 2 := by
  constructor
  · intro l r hl _ h
    obtain ⟨u, v, rfl⟩ := List.length_eq_two.mp hl
    obtain ⟨hkeeps, hr, hval⟩ := H.affine h
    refine ⟨hkeeps, hr, fun k => (hval k).trans ?_⟩
    simp only [List.map_cons, List.map_nil, on2, lo32_srcAt, lo32_zeroExtend]
  · intro l hl _ h
    obtain ⟨u, v, rfl⟩ := List.length_eq_two.mp hl
    exact H.gathers h

/-- R165: a product with an addend that has base and stride. -/
theorem keepsAffine_mad {f : List DWord → DWord × BitVec 6}
    (hf : ∀ x y z : DWord, lo32 (f [x, y, z]).1 = lo32 x * lo32 y + lo32 z) : KeepsAffine affMad f Claim.keepMad 3 := by
  constructor
  · intro l r hl _ h
    obtain ⟨x, y, z, rfl⟩ := List.length_eq_three.mp hl
    cases hp : affMul [x, y] with
    | none => simp [affMad, hp] at h
    | some p =>
      have hsum : affAdd [p, z] = some r := by simpa [affMad, hp] using h
      obtain ⟨hmul, -, hval⟩ := affineTwo_mul.affine hp
      obtain ⟨hadd, hr, hval'⟩ := affineTwo_add.affine hsum
      have hz : shapeCode z ≤ 1 := by simpa [Claim.keepSum] using (List.all_eq_true.mp hadd) (shapeCode z) (by simp)
      refine ⟨by simpa [Claim.keepMad, hmul] using hz, hr, fun k => ?_⟩
      simp only [List.map_cons, List.map_nil, hf, lo32_srcAt, hval', hval]
  · intro l hl _ h
    obtain ⟨x, y, z, rfl⟩ := List.length_eq_three.mp hl
    cases hp : affMul [x, y] with
    | none => simp [Claim.keepMad, affineTwo_mul.gathers hp]
    | some p =>
      have hsum : affAdd [p, z] = none := by simpa [affMad, hp] using h
      have hshape : shapeCode p = 1 := (affineTwo_mul.affine hp).2.1
      have hz : ¬shapeCode z ≤ 1 := by simpa [Claim.keepSum, hshape] using affineTwo_add.gathers hsum
      simp [Claim.keepMad, hz]

/-! The instructions. -/

/-- A form with two sources on single names. -/
theorem wide32_completes {s : State} {i : Instr} {m : BitVec 2} {b2 b1 : BitVec 1} {vs2 vs1 vd : BitVec 6} {g : Word → Word → Word}
    {F : Nat → Nat → Nat} {b : List (BitVec 1)} {aform : List VVal → Option VVal} {keeps : List Nat → Bool}
    (hexec : exec i s = vec2 i m b2 b1 vs2 vs1 vd aform (on2 g) s) (hlen : (codeOf i).len = 4)
    (hval : ∀ x y : Word, F x.toNat y.toNat = (g x y).toNat) (H : KeepsAffine aform (on2 g) keeps 2) :
    Claim.LaneCompletes (Claim.wide32 m b vs1 vs2 vd F keeps) s i := by
  refine laneCompletes_single (srcs := [src32 vs1 b1, src32 vs2 b2]) (f := on2 g) (keeps := keeps) ?_ hexec hlen
  refine ⟨rfl, rfl, by simp [src32], rfl, rfl, fun l => ?_, fun k l => ?_, H, fun l hl k => ?_⟩
  · unfold on2
    split <;> rfl
  · simp only [Claim.two]
    split <;> rfl
  · obtain ⟨u, v, rfl⟩ := List.length_eq_two.mp hl
    simp only [List.map_cons, List.map_nil, on2, lo32_srcAt, lo32_zeroExtend, Claim.two, hval]

/-- R277: one thread's result of `vmad`. -/
def madLane (l : List DWord) : DWord × BitVec 6 :=
  match l with
  | [a, b, c] => (BitVec.zeroExtend 64 (lo32 a * lo32 b + lo32 c), 0)
  | _ => (0, 0)

theorem exec_vmad (s : State) (m : BitVec 2) (b2 b1 : BitVec 1) (vs2 vs1 vd : BitVec 6) : exec (.vmad m b2 b1 vs2 vs1 vd) s =
    laneOp (.vmad m b2 b1 vs2 vs1 vd) m [src32 vs1 b1, src32 vs2 b2, src32 vd 0] vd false affMad madLane s := rfl

theorem vmad_completes (s : State) (m : BitVec 2) (b2 b1 : BitVec 1) (vs2 vs1 vd : BitVec 6) :
    Claim.LaneCompletes (Claim.int32Form (.vmad m b2 b1 vs2 vs1 vd)) s (.vmad m b2 b1 vs2 vs1 vd) := by
  have haffine : KeepsAffine affMad madLane Claim.keepMad 3 := keepsAffine_mad fun x y z => lo32_zeroExtend _
  refine laneCompletes_single (keeps := Claim.keepMad) ?_ (exec_vmad s m b2 b1 vs2 vs1 vd) rfl
  refine ⟨rfl, rfl, by simp [src32], rfl, rfl, fun l => ?_, fun k l => ?_, haffine, fun l hl k => ?_⟩
  · unfold madLane
    split <;> rfl
  · simp only [Claim.three]
    split <;> rfl
  · obtain ⟨x, y, z, rfl⟩ := List.length_eq_three.mp hl
    simp only [List.map_cons, List.map_nil, madLane, lo32_srcAt, lo32_zeroExtend, Claim.three, BitVec.toNat_add, BitVec.toNat_mul,
      Nat.mod_add_mod]

/-- Settles O3: each 32-bit integer form is one lane operation on single names. -/
theorem vectorInteger32Forms : Obligations.VectorInteger32Forms := by
  intro s i
  unfold Claim.int32Form
  split
  case h_1 => exact wide32_completes rfl rfl (fun x y => (BitVec.toNat_add x y).symm) affineTwo_add.keepsAffine
  case h_2 => exact wide32_completes rfl rfl subB_toNat affineTwo_sub.keepsAffine
  case h_3 => exact wide32_completes rfl rfl (fun x y => (BitVec.toNat_mul x y).symm) affineTwo_mul.keepsAffine
  case h_4 => exact wide32_completes rfl rfl (fun x y => hiS_toNat x y (by decide)) (keepsAffine_noA _ 2)
  case h_5 => exact wide32_completes rfl rfl hiU_toNat (keepsAffine_noA _ 2)
  case h_6 => exact wide32_completes rfl rfl (fun x y => minZ_toNat x y (by decide)) (keepsAffine_noA _ 2)
  case h_7 => exact wide32_completes rfl rfl (fun x y => maxZ_toNat x y (by decide)) (keepsAffine_noA _ 2)
  case h_8 => exact wide32_completes rfl rfl min_toNat (keepsAffine_noA _ 2)
  case h_9 => exact wide32_completes rfl rfl max_toNat (keepsAffine_noA _ 2)
  case h_10 => exact wide32_completes rfl rfl (fun x y => (BitVec.toNat_and x y).symm) (keepsAffine_noA _ 2)
  case h_11 => exact wide32_completes rfl rfl (fun x y => (BitVec.toNat_or x y).symm) (keepsAffine_noA _ 2)
  case h_12 => exact wide32_completes rfl rfl (fun x y => (BitVec.toNat_xor x y).symm) (keepsAffine_noA _ 2)
  case h_13 => exact wide32_completes rfl rfl leftB_toNat affineTwo_shl.keepsAffine
  case h_14 => exact wide32_completes rfl rfl rightB_toNat (keepsAffine_noA _ 2)
  case h_15 => exact wide32_completes rfl rfl rightZ_toNat (keepsAffine_noA _ 2)
  case h_16 m b2 b1 vs2 vs1 vd => exact vmad_completes s m b2 b1 vs2 vs1 vd
  case h_17 => exact fun _ _ h => nomatch h

end Sys2Proof.Machine


/-! ## A scheduled lane runs the instruction at its first candidate's PC (R202, R239) -/

namespace Sys2Proof.Machine

section
variable {s : State}

/-- R46: a translation fetched anew changes no pending deferred cause of the group that issues. -/
theorem deferred_freshFetch (s : State) : (curG (freshFetch s)).deferred = (curG s).deferred := by
  unfold freshFetch
  refine foldl_preserves (P := fun t => (curG t).deferred = (curG s).deferred) (fun t a ht => ?_) rfl
  dsimp only
  split
  · rw [curG_modCurF, modF_deferred]
    exact ht
  · exact ht

/-- R358: a candidate whose group has no deferred cause pending runs its fragment. -/
theorem runCand_of_deferred_nil {c : Cand}
    (h : (curG (runCand.modF' { s with cur := { uid := c.uid, entry := c.entry, tick := s.gtick.toNat } })).deferred = []) :
    runCand s c = runFragment (runCand.modF' { s with cur := { uid := c.uid, entry := c.entry, tick := s.gtick.toNat } }) := by
  unfold runCand
  dsimp only
  rw [h]

theorem runFragment_of_decode {w : Code} {i : Instr} (hcode : fetchCode (freshFetch s) = .ok w) (hdecode : decode w = .ok i) :
    runFragment s = exec i (freshFetch s) := by
  unfold runFragment
  simp only [hcode, hdecode]

theorem runCand_of_fetches {c : Cand} {i : Instr} (h : Claim.Fetches s c i) : runCand s c = exec i (Claim.selected s c) := by
  obtain ⟨hnone, w, hcode, hdecode⟩ := h
  rw [runCand_of_deferred_nil ((deferred_freshFetch _).symm.trans hnone)]
  exact runFragment_of_decode hcode hdecode

theorem didIssue_eq {t : State} {c : Cand} (hwhy : (getF (getG t c.uid) c.entry).why = 0) :
    didIssue t c = decide ((getF (getG t c.uid) c.entry).walking = none) := by
  rw [didIssue, hwhy, beq_self_eq_true, Bool.true_and, Bool.eq_iff_iff, Option.isNone_iff_eq_none, decide_eq_true_iff]

/-- R202: a candidate that no interlock holds is the one that its lane issues. -/
theorem issueFirst_of_runs {t : State} {c : Cand} {more : List Cand} (hrun : runCand s c = .next t)
    (hwhy : (getF (getG t c.uid) c.entry).why = 0) : issueFirst s (c :: more) =
      (s, some (.next (if (getF (getG t c.uid) c.entry).walking = none then afterIssue s t c else noIssue t))) := by
  rw [issueFirst, hrun]
  simp only [hwhy, didIssue_eq hwhy, bne_self_eq_false, Bool.false_eq_true, if_false, decide_eq_true_eq]

theorem step_of_lane {core lane : Nat} {rest : List Choice} {s2 : State} {o : Out} (hgate : gated s = false)
    (hlane : (tick s).schedule = .lane core lane :: rest)
    (hissue : issueLane { tick s with schedule := rest } core lane = (s2, some o)) : step s = settled o := by
  rw [step, stepOnce, if_neg (Bool.eq_false_iff.mp hgate)]
  simp only [hlane, hissue]

end

/-- Settles O35: the lane's first candidate runs what its bytes decode to, and issues where nothing interlocks it. -/
theorem stepRunsDecoded : Obligations.StepRunsDecoded := by
  intro s core lane rest c more i s1 hgate hlane hcands hfetch
  have hrun : runCand s1 c = exec i (Claim.selected s1 c) := runCand_of_fetches hfetch
  refine ⟨hrun, fun t ht hwhy => ?_⟩
  exact step_of_lane hgate hlane ((congrArg (issueFirst s1) hcands).trans (issueFirst_of_runs (hrun.trans ht) hwhy))

end Sys2Proof.Machine


/-! ## `cont.dep` of a group that holds no lane position (R189, R205, R206) -/

namespace Sys2Proof.Machine

/-- The task of `savingGroup` with one safe point: its table is at the start of the code page, whose translation the TLB of core 0 holds. -/
def safePointTask : Task := { loadTask with hdr := { loadTask.hdr with sfpn := 1, sfpt := BitVec.ofNat 56 loadVa } }

/-- `savingGroup`, at the end of its save routine, off its lane. -/
def depositingOffLane : State :=
  { lateInSave with
    cur := { uid := 1, entry := 0, tick := 0 }, tasks := [(1, safePointTask)]
    cores := [(0, { Core.reset with tlb := [{ ctx := 1, vbase := loadVa / 2 ^ 16, leaf := loadLeaf }] })] }

theorem alone_depositingOffLane : Claim.Alone depositingOffLane := by
  unfold Claim.Alone
  decide

theorem sfpEntry_depositingOffLane : sfpEntry depositingOffLane 0 8 = .ok 0 := by decide +kernel

/-- R189: the group has no lane to leave, so that its record is header-only. -/
theorem exec_contDep_depositingOffLane : ∃ t, exec .contDep depositingOffLane = .next t ∧ ∀ r ∈ t.records ++ (curG t).stuck, r.body = false :=
  ⟨_, rfl, by decide +kernel⟩

/-- Refutes O51, in the clause of `cont.dep`: it has the record be a body record (BODY) of every group inside its save routine whose fragment
is alone. R189 has a group deposit its body record as it leaves its lane, and the statement does not ask for a lane: in `depositingOffLane`
the group holds none, and its record stays header-only. No lane selects such a group (R202), but the statement speaks of every state. -/
theorem not_safePointsAndRoles : ¬ Obligations.SafePointsAndRoles := by
  rintro ⟨hsafe, -⟩
  obtain ⟨-, -, -, hdep⟩ := hsafe depositingOffLane 0
  obtain ⟨t, ht, -, -, -, -, -, r, hr, -, -, -, -, -, hbody, -⟩ := hdep rfl alone_depositingOffLane rfl 0 sfpEntry_depositingOffLane
  obtain ⟨t', ht', hheader⟩ := exec_contDep_depositingOffLane
  obtain rfl : t' = t := Host.Outcome.next.inj (ht'.symm.trans ht)
  rw [hheader r hr] at hbody
  exact absurd hbody (by decide)

end Sys2Proof.Machine


/-! ## Rounding on the reals: to integers, and to the numbers of a float type (R212, R214) -/

namespace Sys2Proof.Machine

/-- R214 on the integers: `n` is the real `x` rounded in a mode. -/
def RoundsInt (rm : Rm) (x : ℝ) (n : ℤ) : Prop :=
  match rm.toNat with
  | 0 => |x - n| ≤ 1 / 2 ∧ (|x - n| = 1 / 2 → Even n)
  | 1 => n = if 0 ≤ x then ⌊x⌋ else ⌈x⌉
  | 2 => n = ⌊x⌋
  | _ => n = ⌈x⌉

theorem rm_cases (rm : Rm) : rm = 0 ∨ rm = 1 ∨ rm = 2 ∨ rm = 3 := by
  revert rm
  decide

theorem roundsInt_nearest {x : ℝ} {n : ℤ} : RoundsInt 0 x n ↔ |x - n| ≤ 1 / 2 ∧ (|x - n| = 1 / 2 → Even n) := Iff.rfl
theorem roundsInt_zero {x : ℝ} {n : ℤ} : RoundsInt 1 x n ↔ n = if 0 ≤ x then ⌊x⌋ else ⌈x⌉ := Iff.rfl
theorem roundsInt_down {x : ℝ} {n : ℤ} : RoundsInt 2 x n ↔ n = ⌊x⌋ := Iff.rfl
theorem roundsInt_up {x : ℝ} {n : ℤ} : RoundsInt 3 x n ↔ n = ⌈x⌉ := Iff.rfl

/-- A rounded number is less than 1 away. -/
theorem abs_sub_lt_of_roundsInt {rm : Rm} {x : ℝ} {n : ℤ} (h : RoundsInt rm x n) : |x - n| < 1 := by
  have hfloor : |x - ⌊x⌋| < 1 := by
    rw [Int.self_sub_floor, abs_of_nonneg (Int.fract_nonneg x)]
    exact Int.fract_lt_one x
  have hceil : |x - ⌈x⌉| < 1 := by
    rw [abs_lt]
    constructor <;> linarith [Int.ceil_lt_add_one x, Int.le_ceil x]
  rcases rm_cases rm with rfl | rfl | rfl | rfl
  · linarith [(roundsInt_nearest.mp h).1]
  · rw [roundsInt_zero.mp h]
    split
    · exact hfloor
    · exact hceil
  · rw [roundsInt_down.mp h]
    exact hfloor
  · rw [roundsInt_up.mp h]
    exact hceil

/-- An integer rounds to itself. -/
theorem eq_of_roundsInt_intCast {rm : Rm} {k n : ℤ} (h : RoundsInt rm k n) : n = k := by
  have hlt := abs_sub_lt_of_roundsInt h
  rw [← Int.cast_sub, ← Int.cast_abs, ← Int.cast_one, Int.cast_lt, abs_lt] at hlt
  omega

/-- A magnitude that an integer bounds is still bounded by it after rounding. -/
theorem abs_le_of_roundsInt {rm : Rm} {x : ℝ} {n b : ℤ} (h : RoundsInt rm x n) (hb : |x| ≤ b) : |n| ≤ b := by
  by_contra hlt
  have hle : (b : ℝ) + 1 ≤ |(n : ℝ)| := by exact_mod_cast (by omega : b + 1 ≤ |n|)
  have hnear := abs_sub_lt_of_roundsInt h
  have htri := abs_sub_abs_le_abs_sub (n : ℝ) x
  rw [abs_sub_comm] at htri
  linarith

theorem le_abs_of_roundsInt {rm : Rm} {x : ℝ} {n b : ℤ} (h : RoundsInt rm x n) (hb : (b : ℝ) ≤ |x|) : b ≤ |n| := by
  by_contra hlt
  have hle : |(n : ℝ)| + 1 ≤ b := by exact_mod_cast (by omega : |n| + 1 ≤ b)
  have hnear := abs_sub_lt_of_roundsInt h
  have htri := abs_sub_abs_le_abs_sub x (n : ℝ)
  linarith

/-- No integer is nearer than the one that rounding to nearest gives. -/
theorem abs_sub_le_of_nearest {x : ℝ} {n : ℤ} (h : |x - n| ≤ 1 / 2) (k : ℤ) : |x - n| ≤ |x - k| := by
  rcases eq_or_ne k n with rfl | hne
  · exact le_rfl
  have hone : (1 : ℝ) ≤ |(k : ℝ) - n| := by exact_mod_cast Int.one_le_abs (sub_ne_zero.mpr hne)
  have htri := abs_sub_le (k : ℝ) x n
  rw [abs_sub_comm (k : ℝ) x] at htri
  linarith

/-- Among the integers, a tie goes to the even one. -/
theorem even_multiple_of_tie {x : ℝ} {n k : ℤ} (hle : |x - n| ≤ 1 / 2) (heven : |x - n| = 1 / 2 → Even n) (htie : |x - n| = |x - k|)
    (hne : k ≠ n) : ∃ j : ℤ, (n : ℝ) = 2 * j * ((k : ℝ) - n) := by
  have hone : (1 : ℝ) ≤ |(k : ℝ) - n| := by exact_mod_cast Int.one_le_abs (sub_ne_zero.mpr hne)
  have htri := abs_sub_le (k : ℝ) x n
  rw [abs_sub_comm (k : ℝ) x] at htri
  have hhalf : |x - n| = 1 / 2 := by linarith
  have hdist : |(k : ℝ) - n| = 1 := by linarith
  obtain ⟨i, rfl⟩ := heven hhalf
  rcases eq_or_eq_neg_of_abs_eq hdist with h | h
  · exact ⟨i, by rw [h]; push_cast; ring⟩
  · exact ⟨-i, by rw [h]; push_cast; ring⟩

open Claim in
/-- Rounding commutes with a positive unit. -/
theorem roundsTo_mul {G : ℝ → Prop} {rm : Rm} {x y u : ℝ} (hu : 0 < u) (h : RoundsTo (fun z => G (z * u)) rm x y) :
    RoundsTo G rm (x * u) (y * u) := by
  have hdiv (z : ℝ) : z / u * u = z := div_mul_cancel₀ z hu.ne'
  have hG {z : ℝ} (hz : G z) : G (z / u * u) := by rwa [hdiv]
  obtain ⟨hy, h⟩ := h
  refine ⟨hy, ?_⟩
  rcases rm_cases rm with rfl | rfl | rfl | rfl
  · intro z hz
    obtain ⟨hle, htie⟩ := h (z / u) (hG hz)
    have habs (w : ℝ) : |x * u - w * u| = |x - w| * u := by rw [← sub_mul, abs_mul, abs_of_pos hu]
    rw [← hdiv z, habs, habs]
    refine ⟨mul_le_mul_of_nonneg_right hle hu.le, fun heq hne => ?_⟩
    obtain ⟨j, hj⟩ := htie (mul_right_cancel₀ hu.ne' heq) fun hzy => hne (by rw [hzy])
    exact ⟨j, by linear_combination u * hj⟩
  · obtain ⟨habs, hsign, hmax⟩ := h
    simp only [abs_mul, abs_of_pos hu]
    refine ⟨mul_le_mul_of_nonneg_right habs hu.le, ?_, fun z hz hzx => ?_⟩
    · have := mul_nonneg hsign (mul_pos hu hu).le
      linarith
    · have := hmax (z / u) (hG hz)
      rw [abs_div, abs_of_pos hu, div_le_iff₀ hu, div_le_iff₀ hu] at this
      exact this hzx
  · refine ⟨mul_le_mul_of_nonneg_right h.1 hu.le, fun z hz hzx => ?_⟩
    have := h.2 (z / u) (hG hz)
    rw [div_le_iff₀ hu, div_le_iff₀ hu] at this
    exact this hzx
  · refine ⟨mul_le_mul_of_nonneg_right h.1 hu.le, fun z hz hzx => ?_⟩
    have := h.2 (z / u) (hG hz)
    rw [le_div_iff₀ hu, le_div_iff₀ hu] at this
    exact this hzx

/-- The numbers that compete with an integer: the integers, and below a magnitude that the rounded number reaches any others. -/
def IntFrom (b : ℤ) (x z : ℝ) : Prop := (∃ k : ℤ, z = k) ∨ (|z| < b ∧ (b : ℝ) ≤ |x|)

open Claim in
theorem roundsTo_of_roundsInt {G : ℝ → Prop} {rm : Rm} {x : ℝ} {n b : ℤ} (hn : G n) (hG : ∀ z, G z → IntFrom b x z)
    (h : RoundsInt rm x n) : RoundsTo G rm x n := by
  refine ⟨hn, ?_⟩
  rcases rm_cases rm with rfl | rfl | rfl | rfl
  · obtain ⟨hle, heven⟩ := roundsInt_nearest.mp h
    intro z hz
    rcases hG z hz with ⟨k, rfl⟩ | ⟨hzb, hbx⟩
    · exact ⟨abs_sub_le_of_nearest hle k, fun heq hne => even_multiple_of_tie hle heven heq fun hkn => hne (by rw [hkn])⟩
    · have hb : |x - n| ≤ |x| - b := by
        rcases le_total 0 x with hx | hx
        · rw [abs_of_nonneg hx] at hbx ⊢
          simpa [abs_of_nonneg (sub_nonneg.mpr hbx)] using abs_sub_le_of_nearest hle b
        · rw [abs_of_nonpos hx] at hbx ⊢
          have := abs_sub_le_of_nearest hle (-b)
          rwa [Int.cast_neg, sub_neg_eq_add, abs_of_nonpos (by linarith : x + b ≤ 0), neg_add, ← sub_eq_add_neg] at this
      have hlt : |x - n| < |x - z| := by linarith [abs_sub_abs_le_abs_sub x z]
      exact ⟨hlt.le, fun heq => absurd heq hlt.ne⟩
  · have hsub := abs_sub_lt_of_roundsInt h
    have hle : |(n : ℝ)| ≤ |x| ∧ 0 ≤ x * n := by
      rw [roundsInt_zero.mp h]
      split
      case isTrue hx =>
        have hf : (0 : ℝ) ≤ ⌊x⌋ := by exact_mod_cast Int.floor_nonneg.mpr hx
        rw [abs_of_nonneg hf, abs_of_nonneg hx]
        exact ⟨Int.floor_le x, mul_nonneg hx hf⟩
      case isFalse hx =>
        have hc : ((⌈x⌉ : ℤ) : ℝ) ≤ 0 := by exact_mod_cast Int.ceil_le.mpr (by simpa using (not_le.mp hx).le)
        rw [abs_of_nonpos hc, abs_of_neg (not_le.mp hx)]
        exact ⟨neg_le_neg (Int.le_ceil x), mul_nonneg_of_nonpos_of_nonpos (not_le.mp hx).le hc⟩
    refine ⟨hle.1, hle.2, fun z hz hzx => ?_⟩
    have hbound (k : ℤ) (hk : (k : ℝ) ≤ |x|) : (k : ℝ) ≤ |(n : ℝ)| := by exact_mod_cast le_abs_of_roundsInt h hk
    rcases hG z hz with ⟨k, rfl⟩ | ⟨hzb, hbx⟩
    · simpa using hbound |k| (by simpa using hzx)
    · exact hzb.le.trans (hbound b hbx)
  · rw [roundsInt_down.mp h]
    refine ⟨Int.floor_le x, fun z hz hzx => ?_⟩
    rcases hG z hz with ⟨k, rfl⟩ | ⟨hzb, hbx⟩
    · exact_mod_cast Int.le_floor.mpr hzx
    · rcases le_total 0 x with hx | hx
      · rw [abs_of_nonneg hx] at hbx
        have : (b : ℝ) ≤ ⌊x⌋ := by exact_mod_cast Int.le_floor.mpr hbx
        linarith [le_abs_self z]
      · rw [abs_of_nonpos hx] at hbx
        linarith [neg_abs_le z]
  · rw [roundsInt_up.mp h]
    refine ⟨Int.le_ceil x, fun z hz hzx => ?_⟩
    rcases hG z hz with ⟨k, rfl⟩ | ⟨hzb, hbx⟩
    · exact_mod_cast Int.ceil_le.mpr hzx
    · rcases le_total 0 x with hx | hx
      · rw [abs_of_nonneg hx] at hbx
        linarith [le_abs_self z]
      · rw [abs_of_nonpos hx] at hbx
        have : ((⌈x⌉ : ℤ) : ℝ) ≤ ((-b : ℤ) : ℝ) := by exact_mod_cast Int.ceil_le.mpr (by push_cast; linarith)
        push_cast at this
        linarith [neg_abs_le z]

end Sys2Proof.Machine

/-! ## The grid of a float type, and the magnitudes of its codes (R212) -/

namespace Sys2Proof.Machine
open Claim

/-- What the types of R212 have in common. -/
structure IsType (f : Fmt) : Prop where
  eb_pos : 1 ≤ f.eb
  fb_pos : 1 ≤ f.fb
  /-- `f8a` keeps one code of its highest exponent for its NaN. -/
  f8a : f.f8a = true → f.eb = 4 ∧ f.fb = 3

theorem isType_of_mem {f : Fmt} (h : f ∈ types) : IsType f := by
  simp only [types, List.mem_cons, List.not_mem_nil, or_false] at h
  rcases h with rfl | rfl | rfl | rfl | rfl | rfl <;> exact ⟨by decide, by decide, by decide⟩

theorem two_zpow_pos (k : ℤ) : (0 : ℝ) < 2 ^ k := zpow_pos two_pos k

theorem two_zpow_add (j k : ℤ) : (2 : ℝ) ^ (j + k) = 2 ^ j * 2 ^ k := zpow_add₀ two_ne_zero j k

theorem two_zpow_natCast (n : ℕ) : (2 : ℝ) ^ (n : ℤ) = ((2 ^ n : ℕ) : ℝ) := by simp

theorem two_zpow_of_nonneg {k : ℤ} (h : 0 ≤ k) : (2 : ℝ) ^ k = ((2 ^ k.toNat : ℕ) : ℝ) := by
  rw [← two_zpow_natCast, Int.toNat_of_nonneg h]

theorem qmin_eq (f : Fmt) : f.qmin = 1 - biasOf f - f.fb := by
  simp [Fmt.qmin, Fmt.bias, biasOf, Nat.one_le_two_pow]

theorem qmin_add_fb (f : Fmt) : f.qmin + f.fb = 1 - biasOf f := by
  rw [qmin_eq]
  ring

theorem onFree_of_onGrid {f : Fmt} {z : ℝ} (h : OnGrid f z) : OnFree f z := by
  obtain ⟨n, q, hn, -, hz⟩ := h
  exact ⟨n, q, hn, hz⟩

/-- Above the smallest magnitude of a binade the numbers of the type are multiples of its unit. -/
theorem intFrom_of_onFree {f : Fmt} {q : ℤ} {x z : ℝ} (hz : OnFree f (z * 2 ^ q)) (hx : (2 : ℝ) ^ f.fb ≤ |x|) : IntFrom (2 ^ f.fb) x z := by
  obtain ⟨n, p, hn, hzn⟩ := hz
  have hscale : z = n * 2 ^ (p - q) := by
    rw [zpow_sub₀ two_ne_zero, ← mul_div_assoc, eq_div_iff (two_zpow_pos q).ne', hzn]
  rcases le_or_gt q p with hqp | hpq
  · refine .inl ⟨n * 2 ^ (p - q).toNat, ?_⟩
    rw [hscale, two_zpow_of_nonneg (by omega)]
    push_cast
    rfl
  · refine .inr ⟨?_, by exact_mod_cast hx⟩
    have habs : |(n : ℝ)| < 2 ^ (f.fb + 1) := by exact_mod_cast hn
    have hhalf : (2 : ℝ) ^ (p - q) ≤ 2 ^ (-1 : ℤ) := zpow_le_zpow_right₀ one_le_two (by omega)
    push_cast
    calc |z| = |(n : ℝ)| * 2 ^ (p - q) := by rw [hscale, abs_mul, abs_of_pos (two_zpow_pos _)]
      _ < 2 ^ (f.fb + 1) * 2 ^ (p - q) := mul_lt_mul_of_pos_right habs (two_zpow_pos _)
      _ ≤ 2 ^ (f.fb + 1) * 2 ^ (-1 : ℤ) := mul_le_mul_of_nonneg_left hhalf (by positivity)
      _ = 2 ^ f.fb := by rw [pow_succ, zpow_neg_one]; ring

/-- In the lowest binade, and below it, they are the multiples of its unit. -/
theorem intFrom_of_onGrid {f : Fmt} {x z : ℝ} {b : ℤ} (hz : OnGrid f (z * 2 ^ f.qmin)) : IntFrom b x z := by
  obtain ⟨n, p, -, hp, hzn⟩ := hz
  rw [← qmin_eq] at hp
  refine .inl ⟨n * 2 ^ (p - f.qmin).toNat, ?_⟩
  have hscale : z = n * 2 ^ (p - f.qmin) := by
    rw [zpow_sub₀ two_ne_zero, ← mul_div_assoc, eq_div_iff (two_zpow_pos _).ne', hzn]
  rw [hscale, two_zpow_of_nonneg (by omega)]
  push_cast
  rfl

/-- An integer of at most `2 ^ (fb + 1)` with a unit of the type is a number of it. -/
theorem onGrid_of_abs_le {f : Fmt} {n q : ℤ} (hn : |n| ≤ 2 ^ (f.fb + 1)) (hq : f.qmin ≤ q) : OnGrid f (n * 2 ^ q) := by
  rw [qmin_eq] at hq
  rcases hn.lt_or_eq with hlt | heq
  · exact ⟨n, q, hlt, hq, rfl⟩
  · have hbelow : (2 : ℤ) ^ f.fb < 2 ^ (f.fb + 1) := pow_lt_pow_right₀ one_lt_two (Nat.lt_succ_self _)
    have hunit : (2 : ℝ) ^ (q + 1) = 2 ^ q * 2 := zpow_add_one₀ two_ne_zero q
    rcases eq_or_eq_neg_of_abs_eq heq with rfl | rfl
    · exact ⟨2 ^ f.fb, q + 1, by rwa [abs_of_pos (by positivity)], by omega, by rw [hunit]; push_cast; ring⟩
    · exact ⟨-2 ^ f.fb, q + 1, by rwa [abs_neg, abs_of_pos (by positivity)], by omega, by rw [hunit]; push_cast; ring⟩

theorem onFree_of_abs_le {f : Fmt} {n q : ℤ} (hn : |n| ≤ 2 ^ (f.fb + 1)) : OnFree f (n * 2 ^ q) := by
  rcases hn.lt_or_eq with hlt | heq
  · exact ⟨n, q, hlt, rfl⟩
  · have hbelow : (2 : ℤ) ^ f.fb < 2 ^ (f.fb + 1) := pow_lt_pow_right₀ one_lt_two (Nat.lt_succ_self _)
    have hunit : (2 : ℝ) ^ (q + 1) = 2 ^ q * 2 := zpow_add_one₀ two_ne_zero q
    rcases eq_or_eq_neg_of_abs_eq heq with rfl | rfl
    · exact ⟨2 ^ f.fb, q + 1, by rwa [abs_of_pos (by positivity)], by rw [hunit]; push_cast; ring⟩
    · exact ⟨-2 ^ f.fb, q + 1, by rwa [abs_neg, abs_of_pos (by positivity)], by rw [hunit]; push_cast; ring⟩

/-- R212: the magnitude of a code without its sign, were the exponents unbounded above. -/
noncomputable def magOf (f : Fmt) (x : ℕ) : ℝ :=
  if x / 2 ^ f.fb = 0 then ((x % 2 ^ f.fb : ℕ) : ℝ) * 2 ^ f.qmin
  else ((2 ^ f.fb + x % 2 ^ f.fb : ℕ) : ℝ) * 2 ^ (f.qmin + (x / 2 ^ f.fb - 1 : ℕ))

theorem magOf_nonneg (f : Fmt) (x : ℕ) : 0 ≤ magOf f x := by
  unfold magOf
  split <;> positivity

/-- The code of a significand in a binade. -/
theorem magOf_mul_add {f : Fmt} {e n : ℕ} (hn : n < 2 ^ (f.fb + 1)) (he : e = 0 ∨ 2 ^ f.fb ≤ n) :
    magOf f (e * 2 ^ f.fb + n) = n * 2 ^ (f.qmin + e) := by
  have hpos : 0 < 2 ^ f.fb := by positivity
  rw [pow_succ] at hn
  unfold magOf
  rcases lt_or_ge n (2 ^ f.fb) with hlt | hge
  · obtain rfl : e = 0 := he.resolve_right (by omega)
    simp [Nat.div_eq_of_lt hlt, Nat.mod_eq_of_lt hlt]
  · obtain ⟨m, rfl⟩ := Nat.exists_eq_add_of_le hge
    have hm : m < 2 ^ f.fb := by omega
    have hsplit : e * 2 ^ f.fb + (2 ^ f.fb + m) = m + (e + 1) * 2 ^ f.fb := by ring
    simp [hsplit, Nat.add_mul_div_right _ _ hpos, Nat.div_eq_of_lt hm, Nat.mod_eq_of_lt hm]

theorem magOf_lt_succ (f : Fmt) (x : ℕ) : magOf f x < magOf f (x + 1) := by
  have hpos : 0 < 2 ^ f.fb := by positivity
  have hfr := Nat.mod_lt x hpos
  have hunit (k : ℤ) : (2 : ℝ) ^ (k + 1) = 2 ^ k * 2 := zpow_add_one₀ two_ne_zero k
  obtain ⟨e, n, hn, he, hx⟩ : ∃ e n, n < 2 ^ (f.fb + 1) ∧ (e = 0 ∨ 2 ^ f.fb ≤ n) ∧ x = e * 2 ^ f.fb + n := by
    have hdiv := Nat.div_add_mod' x (2 ^ f.fb)
    rcases Nat.eq_zero_or_pos (x / 2 ^ f.fb) with h0 | h1
    · exact ⟨0, x % 2 ^ f.fb, by rw [pow_succ]; omega, .inl rfl, by rw [h0] at hdiv; omega⟩
    · refine ⟨x / 2 ^ f.fb - 1, 2 ^ f.fb + x % 2 ^ f.fb, by rw [pow_succ]; omega, .inr (by omega), ?_⟩
      obtain ⟨k, hk⟩ := Nat.exists_eq_add_of_le' h1
      rw [hk, add_mul] at hdiv
      rw [hk, Nat.add_sub_cancel]
      omega
  subst hx
  rw [magOf_mul_add hn he]
  rcases Nat.lt_or_ge (n + 1) (2 ^ (f.fb + 1)) with hlt | hge
  · rw [add_assoc, magOf_mul_add hlt (he.imp_right Nat.le_succ_of_le)]
    push_cast
    exact mul_lt_mul_of_pos_right (lt_add_one _) (two_zpow_pos _)
  · have htop : n + 1 = 2 ^ (f.fb + 1) := le_antisymm hn hge
    have hcarry : e * 2 ^ f.fb + n + 1 = (e + 1) * 2 ^ f.fb + 2 ^ f.fb := by
      rw [add_assoc, htop, pow_succ]
      ring
    rw [hcarry, magOf_mul_add (Nat.pow_lt_pow_right one_lt_two (Nat.lt_succ_self _)) (.inr le_rfl)]
    have hn' : (n : ℝ) + 1 = 2 ^ f.fb * 2 := by rw [← pow_succ]; exact_mod_cast htop
    push_cast
    rw [← add_assoc, hunit]
    nlinarith [two_zpow_pos (f.qmin + e)]

theorem magOf_strictMono (f : Fmt) : StrictMono (magOf f) := strictMono_nat_of_lt_succ (magOf_lt_succ f)

/-- A sign as a factor. -/
def signR (neg : Bool) : ℝ := if neg then -1 else 1
def signZ (neg : Bool) : ℤ := if neg then -1 else 1

@[simp] theorem signR_true : signR true = -1 := rfl
@[simp] theorem signR_false : signR false = 1 := rfl
@[simp] theorem signZ_true : signZ true = -1 := rfl
@[simp] theorem signZ_false : signZ false = 1 := rfl
@[simp] theorem abs_signR (neg : Bool) : |signR neg| = 1 := by cases neg <;> simp
@[simp] theorem abs_signZ (neg : Bool) : |signZ neg| = 1 := by cases neg <;> rfl
@[simp] theorem intCast_signZ (neg : Bool) : (signZ neg : ℝ) = signR neg := by cases neg <;> simp

theorem signR_ne_zero (neg : Bool) : signR neg ≠ 0 := by cases neg <;> simp
theorem signR_bne (a b : Bool) : signR (a != b) = signR a * signR b := by cases a <;> cases b <;> simp
theorem signR_not (a : Bool) : signR (!a) = -signR a := by cases a <;> simp

/-! Codes with their sign. -/

theorem exponentOf_add {f : Fmt} (neg : Bool) {c : ℕ} (hc : c < 2 ^ (f.eb + f.fb)) : exponentOf f (signed f neg c) = c / 2 ^ f.fb := by
  have hpos : 0 < 2 ^ f.fb := by positivity
  have hlt : c / 2 ^ f.fb < 2 ^ f.eb := by rwa [Nat.div_lt_iff_lt_mul hpos, ← pow_add]
  cases neg
  · simp [exponentOf, signed, Nat.mod_eq_of_lt hlt]
  · simp only [exponentOf, signed, pow_add, if_true]
    rw [mul_comm, Nat.mul_add_div hpos, Nat.add_mod_left, Nat.mod_eq_of_lt hlt]

theorem fractionOf_add (f : Fmt) (neg : Bool) (c : ℕ) : fractionOf f (signed f neg c) = c % 2 ^ f.fb := by
  cases neg
  · simp [fractionOf, signed]
  · simp [fractionOf, signed, pow_add, Nat.add_mod]

theorem signOf_add {f : Fmt} {neg : Bool} {c : ℕ} (hc : c < 2 ^ (f.eb + f.fb)) : signOf f (signed f neg c) = neg := by
  cases neg
  · simp [signOf, signed, Nat.div_eq_of_lt hc]
  · simp [signOf, signed, Nat.add_div_left, Nat.div_eq_of_lt hc]

/-- A code is its sign with the rest. -/
theorem signed_mod {f : Fmt} {x : ℕ} (hx : x < 2 ^ (f.eb + f.fb + 1)) : signed f (signOf f x) (x % 2 ^ (f.eb + f.fb)) = x := by
  have hdm := Nat.div_add_mod x (2 ^ (f.eb + f.fb))
  have hq : x / 2 ^ (f.eb + f.fb) < 2 := by
    rw [Nat.div_lt_iff_lt_mul (by positivity), ← pow_succ']
    exact hx
  unfold signed signOf
  rcases Nat.le_one_iff_eq_zero_or_eq_one.mp (Nat.lt_succ_iff.mp hq) with h | h
  · rw [h, mul_zero, zero_add] at hdm
    simp [h, hdm]
  · rw [h, mul_one] at hdm
    simp [h, hdm]

theorem numberOf_signed {f : Fmt} (neg : Bool) {c : ℕ} (hc : c < 2 ^ (f.eb + f.fb)) : numberOf f (signed f neg c) = signR neg * magOf f c := by
  unfold numberOf magOf
  rw [exponentOf_add neg hc, fractionOf_add, signOf_add hc, qmin_eq]
  congr 1
  split
  · rfl
  next h =>
    generalize c / 2 ^ f.fb = e at h ⊢
    rw [(by omega : (1 : ℤ) - biasOf f - f.fb + ((e - 1 : ℕ) : ℤ) = e - biasOf f - f.fb)]

end Sys2Proof.Machine

/-! ## The model's rounding is the rounding of the reals (R214, R215) -/

namespace Sys2Proof.Machine
open Claim

/-! Scaled fractions. -/

theorem shlI_pos {n : ℕ} (hn : 0 < n) (k : ℤ) : 0 < shlI n k := by
  unfold shlI
  positivity

theorem shlI_div_shlI_neg (a b : ℕ) (k : ℤ) : (shlI a k : ℝ) / shlI b (-k) = a / b * 2 ^ k := by
  simp only [shlI, Nat.cast_mul, Nat.cast_pow, Nat.cast_ofNat]
  rcases le_total 0 k with hk | hk
  · rw [Int.toNat_of_nonpos (by omega : -k ≤ 0), two_zpow_of_nonneg hk]
    push_cast
    ring
  · have hneg : (2 : ℝ) ^ k = ((2 : ℝ) ^ (-k).toNat)⁻¹ := by
      rw [← zpow_natCast, Int.toNat_of_nonneg (by omega), zpow_neg, inv_inv]
    rw [Int.toNat_of_nonpos hk, hneg, pow_zero, mul_one, div_mul_eq_div_div, div_eq_mul_inv _ ((2 : ℝ) ^ _)]

/-- R214: whether a magnitude `k + t` is rounded up. -/
def RoundsUp (rm : Rm) (neg : Bool) (k : ℕ) (t : ℝ) : Prop :=
  match rm.toNat with
  | 0 => 1 / 2 < t ∨ (t = 1 / 2 ∧ k % 2 = 1)
  | 1 => False
  | 2 => neg = true ∧ t ≠ 0
  | _ => neg = false ∧ t ≠ 0

theorem roundsInt_of_roundsUp {rm : Rm} {neg : Bool} {k : ℕ} {t : ℝ} {up : Bool} (h0 : 0 ≤ t) (h1 : t < 1)
    (hup : up = true ↔ RoundsUp rm neg k t) : RoundsInt rm (signR neg * (k + t)) (signZ neg * ((k + up.toNat : ℕ) : ℤ)) := by
  have hk : (0 : ℝ) ≤ k := k.cast_nonneg
  rcases rm_cases rm with rfl | rfl | rfl | rfl
  · have habs (n : ℕ) : |signR neg * (k + t) - ((signZ neg * (n : ℤ) : ℤ) : ℝ)| = |k + t - n| := by
      rw [Int.cast_mul, intCast_signZ, Int.cast_natCast, ← mul_sub, abs_mul, abs_signR, one_mul]
    have heven (n : ℕ) (hn : Even n) : Even (signZ neg * (n : ℤ)) := ((Int.even_coe_nat n).mpr hn).mul_left _
    rw [roundsInt_nearest, habs]
    change _ ↔ 1 / 2 < t ∨ (t = 1 / 2 ∧ k % 2 = 1) at hup
    cases up
    · have hle : t ≤ 1 / 2 ∧ (t = 1 / 2 → k % 2 ≠ 1) := by
        simpa [not_or] using hup
      simp only [Bool.toNat_false, add_zero, add_sub_cancel_left, abs_of_nonneg h0]
      exact ⟨hle.1, fun ht => heven _ (Nat.even_iff.mpr (by have := hle.2 ht; omega))⟩
    · simp only [Bool.toNat_true, Nat.cast_add, Nat.cast_one, add_sub_add_left_eq_sub, abs_of_neg (sub_neg.mpr h1)]
      rcases hup.mp rfl with h | ⟨h, hodd⟩
      · exact ⟨by linarith, fun ht => by linarith⟩
      · exact ⟨by linarith, fun _ => heven _ (Nat.odd_iff.mpr hodd).add_one⟩
  · have hdown : up = false := by simpa [RoundsUp] using hup
    subst hdown
    rw [roundsInt_zero]
    cases neg
    · simp only [signR_false, signZ_false, one_mul, Bool.toNat_false, add_zero, if_pos (by positivity : (0 : ℝ) ≤ k + t)]
      exact (Int.floor_eq_iff.mpr ⟨by simpa using h0, by simpa using h1⟩).symm
    · simp only [signR_true, signZ_true, neg_one_mul, Bool.toNat_false, add_zero]
      split
      case isTrue hx =>
        obtain rfl : k = 0 := by
          have : (k : ℝ) = 0 := by linarith
          exact_mod_cast this
        refine (Int.floor_eq_iff.mpr ⟨by simpa using hx, by simp; linarith⟩).symm
      case isFalse =>
        exact (Int.ceil_eq_iff.mpr ⟨by push_cast; linarith, by push_cast; linarith⟩).symm
  · change _ ↔ neg = true ∧ t ≠ 0 at hup
    rw [roundsInt_down, eq_comm, Int.floor_eq_iff]
    cases neg
    · obtain rfl : up = false := by simpa using hup
      exact ⟨by simpa using h0, by simpa using h1⟩
    · cases up
      · obtain rfl : t = 0 := by simpa using hup
        simp
      · have ht : 0 < t := h0.lt_of_ne' (hup.mp rfl).2
        constructor <;> simp <;> linarith
  · change _ ↔ neg = false ∧ t ≠ 0 at hup
    rw [roundsInt_up, eq_comm, Int.ceil_eq_iff]
    cases neg
    · cases up
      · obtain rfl : t = 0 := by simpa using hup
        simp
      · have ht : 0 < t := h0.lt_of_ne' (hup.mp rfl).2
        constructor <;> simp <;> linarith
    · obtain rfl : up = false := by simpa using hup
      constructor <;> simp <;> linarith

/-- R214: `roundAt` rounds the fraction, in units of `2 ^ q`, to an integer, and tells whether that was needed. -/
theorem roundAt_spec (rm : Rm) (neg : Bool) {num den : ℕ} (hden : 0 < den) (e q : ℤ) :
    RoundsInt rm (signR neg * (num / den * 2 ^ (e - q))) (signZ neg * ((roundAt rm neg num den e q).1 : ℤ)) ∧
      ((roundAt rm neg num den e q).2 = false ↔ (num / den * 2 ^ (e - q) : ℝ) = (roundAt rm neg num den e q).1) := by
  rw [← shlI_div_shlI_neg, neg_sub]
  unfold roundAt
  generalize hn : shlI num (e - q) = n
  generalize hd : shlI den (q - e) = d
  have hd0 : 0 < d := hd ▸ shlI_pos hden _
  have hdR : (0 : ℝ) < d := by exact_mod_cast hd0
  have hr : n % d < d := Nat.mod_lt n hd0
  obtain ⟨t, ht⟩ : ∃ t : ℝ, t = ((n % d : ℕ) : ℝ) / d := ⟨_, rfl⟩
  have h0 : 0 ≤ t := by rw [ht]; positivity
  have h1 : t < 1 := by rw [ht, div_lt_one hdR]; exact_mod_cast hr
  have hx : (n : ℝ) / d = ((n / d : ℕ) : ℝ) + t := by
    have hdm : (n : ℝ) = d * ((n / d : ℕ) : ℝ) + ((n % d : ℕ) : ℝ) := by exact_mod_cast (Nat.div_add_mod n d).symm
    rw [ht, div_eq_iff hdR.ne', add_mul, div_mul_cancel₀ _ hdR.ne']
    linarith
  have hhalf : 1 / 2 < t ↔ d < 2 * (n % d) := by
    rw [ht, div_lt_div_iff₀ two_pos hdR, one_mul, mul_comm]
    exact_mod_cast Iff.rfl
  have htie : t = 1 / 2 ↔ d = 2 * (n % d) := by
    rw [ht, div_eq_div_iff hdR.ne' two_ne_zero, one_mul, mul_comm, eq_comm]
    exact_mod_cast Iff.rfl
  have hzero : t = 0 ↔ n % d = 0 := by
    rw [ht, div_eq_zero_iff, or_iff_left hdR.ne']
    exact_mod_cast Iff.rfl
  rw [hx]
  refine ⟨roundsInt_of_roundsUp h0 h1 ?_, ?_⟩
  · rcases rm_cases rm with rfl | rfl | rfl | rfl
    · change _ ↔ 1 / 2 < t ∨ (t = 1 / 2 ∧ n / d % 2 = 1)
      rw [hhalf, htie]
      simp
    all_goals simp [RoundsUp, hzero]
  · by_cases hz : n % d = 0
    · have ht0 := hzero.mpr hz
      rcases rm_cases rm with rfl | rfl | rfl | rfl <;> simp [hz, ht0, hd0.ne']
    · have ht0 : t ≠ 0 := mt hzero.mp hz
      refine iff_of_false (by simpa using hz) fun h => ?_
      push_cast at h
      rw [add_right_inj] at h
      generalize Bool.toNat _ = b at h
      rw [h] at h0 h1 ht0
      have hb : b < 1 := by exact_mod_cast h1
      exact ht0 (by simp [Nat.lt_one_iff.mp hb])

/-- `leadBit` is the exponent of the fraction's binade. -/
theorem leadBit_spec {num den : ℕ} (hnum : 0 < num) (hden : 0 < den) (e : ℤ) :
    (2 : ℝ) ^ leadBit num den e ≤ num / den * 2 ^ e ∧ (num / den * 2 ^ e : ℝ) < 2 ^ (leadBit num den e + 1) := by
  have hdR : (0 : ℝ) < den := by exact_mod_cast hden
  have hlog {n : ℕ} (hn : 0 < n) : (2 : ℝ) ^ (n.log2 : ℤ) ≤ n ∧ (n : ℝ) < 2 ^ ((n.log2 : ℤ) + 1) := by
    constructor
    · exact_mod_cast Nat.log2_self_le hn.ne'
    · exact_mod_cast Nat.lt_log2_self
  obtain ⟨hnlo, hnhi⟩ := hlog hnum
  obtain ⟨hdlo, hdhi⟩ := hlog hden
  generalize hl : (num.log2 : ℤ) - den.log2 = l
  have hln : (num.log2 : ℤ) = l + den.log2 := by omega
  rw [hln] at hnlo hnhi
  have hcmp : shlI den l ≤ shlI num (-l) ↔ (2 : ℝ) ^ l ≤ num / den := by
    have hpos : (0 : ℝ) < shlI den l := by exact_mod_cast shlI_pos hden l
    have heq := shlI_div_shlI_neg num den (-l)
    rw [neg_neg] at heq
    rw [← Nat.cast_le (α := ℝ), ← one_le_div hpos, heq, zpow_neg, ← div_eq_mul_inv, one_le_div (two_zpow_pos l)]
  have hlow : (2 : ℝ) ^ (l - 1) ≤ num / den := by
    rw [le_div_iff₀ hdR]
    calc (2 : ℝ) ^ (l - 1) * den ≤ 2 ^ (l - 1) * 2 ^ ((den.log2 : ℤ) + 1) := mul_le_mul_of_nonneg_left hdhi.le (two_zpow_pos _).le
      _ = 2 ^ (l + den.log2) := by rw [← two_zpow_add]; congr 1; ring
      _ ≤ num := hnlo
  have hhigh : (num / den : ℝ) < 2 ^ (l + 1) := by
    rw [div_lt_iff₀ hdR]
    calc (num : ℝ) < 2 ^ (l + den.log2 + 1) := hnhi
      _ = 2 ^ (l + 1) * 2 ^ (den.log2 : ℤ) := by rw [← two_zpow_add]; congr 1; ring
      _ ≤ 2 ^ (l + 1) * den := mul_le_mul_of_nonneg_left hdlo (two_zpow_pos _).le
  unfold leadBit
  simp only [hl]
  split
  case isTrue h =>
    rw [two_zpow_add l e, add_right_comm, two_zpow_add (l + 1) e]
    exact ⟨mul_le_mul_of_nonneg_right (hcmp.mp h) (two_zpow_pos e).le, mul_lt_mul_of_pos_right hhigh (two_zpow_pos e)⟩
  case isFalse h =>
    rw [two_zpow_add (l - 1) e, add_right_comm, two_zpow_add (l - 1 + 1) e, sub_add_cancel]
    exact ⟨mul_le_mul_of_nonneg_right hlow (two_zpow_pos e).le,
      mul_lt_mul_of_pos_right (not_le.mp (mt hcmp.mpr h)) (two_zpow_pos e)⟩

end Sys2Proof.Machine

/-! ## One rounding of an exact result (R214, R215) -/

namespace Sys2Proof.Machine
open Claim

/-- Two reals in one open cell between neighbouring multiples of 1/2, or equal: rounding to an integer does not tell them apart. -/
def SameHalf (x y : ℝ) : Prop := x = y ∨ ∃ j : ℤ, ((j : ℝ) < 2 * x ∧ 2 * x < j + 1) ∧ ((j : ℝ) < 2 * y ∧ 2 * y < j + 1)

theorem SameHalf.symm {x y : ℝ} (h : SameHalf x y) : SameHalf y x :=
  h.imp Eq.symm fun ⟨j, hx, hy⟩ => ⟨j, hy, hx⟩

theorem SameHalf.signed {x y : ℝ} (h : SameHalf x y) (neg : Bool) : SameHalf (signR neg * x) (signR neg * y) := by
  rcases h with rfl | ⟨j, hx, hy⟩
  · exact .inl rfl
  · cases neg
    · exact .inr ⟨j, by simpa using hx, by simpa using hy⟩
    · refine .inr ⟨-(j + 1), ?_, ?_⟩ <;> push_cast <;> constructor <;> simp <;> linarith

/-- A real strictly inside a cell is no integer. -/
theorem ne_intCast_of_cell {x : ℝ} {j : ℤ} (h : (j : ℝ) < 2 * x ∧ 2 * x < j + 1) (n : ℤ) : 2 * x ≠ n := by
  intro hx
  rw [hx] at h
  have hlo : j < n := by exact_mod_cast h.1
  have hhi : n < j + 1 := by exact_mod_cast h.2
  omega

theorem floor_of_cell {x : ℝ} {j : ℤ} (h : (j : ℝ) < 2 * x ∧ 2 * x < j + 1) : ⌊x⌋ = j / 2 := by
  have hlo : ((2 * (j / 2) : ℤ) : ℝ) ≤ j := by exact_mod_cast (by omega : 2 * (j / 2) ≤ j)
  have hhi : (j : ℝ) + 1 ≤ ((2 * (j / 2) + 2 : ℤ) : ℝ) := by exact_mod_cast (by omega : j + 1 ≤ 2 * (j / 2) + 2)
  push_cast at hlo hhi
  rw [Int.floor_eq_iff]
  constructor <;> linarith

theorem ceil_of_cell {x : ℝ} {j : ℤ} (h : (j : ℝ) < 2 * x ∧ 2 * x < j + 1) : ⌈x⌉ = j / 2 + 1 := by
  have hlo : ((2 * (j / 2) : ℤ) : ℝ) ≤ j := by exact_mod_cast (by omega : 2 * (j / 2) ≤ j)
  have hhi : (j : ℝ) + 1 ≤ ((2 * (j / 2) + 2 : ℤ) : ℝ) := by exact_mod_cast (by omega : j + 1 ≤ 2 * (j / 2) + 2)
  push_cast at hlo hhi
  rw [Int.ceil_eq_iff]
  push_cast
  constructor <;> linarith

theorem nonneg_iff_of_cell {x : ℝ} {j : ℤ} (h : (j : ℝ) < 2 * x ∧ 2 * x < j + 1) : 0 ≤ x ↔ 0 ≤ j := by
  rcases le_or_gt 0 j with hj | hj
  · have : (0 : ℝ) ≤ j := by exact_mod_cast hj
    exact iff_of_true (by linarith) hj
  · have : (j : ℝ) + 1 ≤ 0 := by exact_mod_cast hj
    exact iff_of_false (by linarith) (by omega)

theorem nearest_iff_of_cell {x : ℝ} {j : ℤ} (h : (j : ℝ) < 2 * x ∧ 2 * x < j + 1) (n : ℤ) : |x - n| ≤ 1 / 2 ↔ 2 * n - 1 ≤ j ∧ j ≤ 2 * n := by
  rw [abs_le]
  constructor
  · rintro ⟨hlo, hhi⟩
    have hj : ((2 * n - 1 : ℤ) : ℝ) < ((j + 1 : ℤ) : ℝ) ∧ (j : ℝ) < ((2 * n + 1 : ℤ) : ℝ) := by
      push_cast
      constructor <;> linarith
    have hlt := Int.cast_lt.mp hj.1
    have hgt := Int.cast_lt.mp hj.2
    omega
  · rintro ⟨hlo, hhi⟩
    have hloR : ((2 * n - 1 : ℤ) : ℝ) ≤ j := by exact_mod_cast hlo
    have hhiR : (j : ℝ) ≤ ((2 * n : ℤ) : ℝ) := by exact_mod_cast hhi
    push_cast at hloR hhiR
    constructor <;> linarith

theorem roundsInt_of_sameHalf {rm : Rm} {x y : ℝ} {n : ℤ} (hxy : SameHalf x y) (h : RoundsInt rm y n) : RoundsInt rm x n := by
  rcases hxy with rfl | ⟨j, hx, hy⟩
  · exact h
  rcases rm_cases rm with rfl | rfl | rfl | rfl
  · rw [roundsInt_nearest, nearest_iff_of_cell hx] at *
    rw [nearest_iff_of_cell hy] at h
    refine ⟨h.1, fun htie => absurd htie fun heq => ?_⟩
    rcases (abs_eq (by norm_num)).mp heq with heq | heq
    · exact ne_intCast_of_cell hx (2 * n + 1) (by push_cast; linarith)
    · exact ne_intCast_of_cell hx (2 * n - 1) (by push_cast; linarith)
  · rw [roundsInt_zero, floor_of_cell hx, ceil_of_cell hx, if_congr (nonneg_iff_of_cell hx) rfl rfl]
    rwa [roundsInt_zero, floor_of_cell hy, ceil_of_cell hy, if_congr (nonneg_iff_of_cell hy) rfl rfl] at h
  · rwa [roundsInt_down, floor_of_cell hx, ← floor_of_cell hy]
  · rwa [roundsInt_up, ceil_of_cell hx, ← ceil_of_cell hy]

theorem eq_natCast_iff_of_sameHalf {x y : ℝ} (h : SameHalf x y) (n : ℕ) : x = n ↔ y = n := by
  rcases h with rfl | ⟨j, hx, hy⟩
  · rfl
  · refine iff_of_false (fun hn => ne_intCast_of_cell hx (2 * n) ?_) fun hn => ne_intCast_of_cell hy (2 * n) ?_ <;> rw [hn] <;> push_cast <;> rfl

/-- Two magnitudes that no rounding to a type tells apart: equal, or strictly between the same neighbouring multiples of a unit that is far
below the last place of either. -/
def Alike (f : Fmt) (x y : ℝ) : Prop :=
  x = y ∨ ∃ (h : ℕ) (p : ℤ), 2 ^ (f.fb + 2) ≤ h ∧ (h * (2 : ℝ) ^ p < x ∧ x < (h + 1) * (2 : ℝ) ^ p) ∧
    (h * (2 : ℝ) ^ p < y ∧ y < (h + 1) * (2 : ℝ) ^ p)

/-- The unit of such a cell against the binade of what it holds. -/
theorem unit_of_cell {b h : ℕ} {p l : ℤ} {y : ℝ} (hh : 2 ^ b ≤ h) (hy : h * (2 : ℝ) ^ p < y) (hl : y < 2 ^ (l + 1)) : p + b < l + 1 := by
  have hb : (2 : ℝ) ^ (b : ℤ) ≤ h := by exact_mod_cast hh
  have hlt : (2 : ℝ) ^ (p + b) < 2 ^ (l + 1) := by
    rw [add_comm, two_zpow_add]
    exact (mul_le_mul_of_nonneg_right hb (two_zpow_pos p).le).trans_lt (hy.trans hl)
  exact (zpow_lt_zpow_iff_right₀ one_lt_two).mp hlt

theorem binade_of_alike {f : Fmt} {x y : ℝ} {l : ℤ} (hxy : Alike f x y) (hlo : (2 : ℝ) ^ l ≤ y) (hhi : y < 2 ^ (l + 1)) :
    (2 : ℝ) ^ l ≤ x ∧ x < 2 ^ (l + 1) := by
  rcases hxy with rfl | ⟨h, p, hh, hx, hy⟩
  · exact ⟨hlo, hhi⟩
  have hp := unit_of_cell hh hy.1 hhi
  push_cast at hp
  have hpow (k : ℤ) (hk : p ≤ k) : (2 : ℝ) ^ k = ((2 ^ (k - p).toNat : ℕ) : ℝ) * 2 ^ p := by
    rw [← two_zpow_of_nonneg (by omega), ← two_zpow_add, sub_add_cancel]
  constructor
  · rw [hpow l (by omega)] at hlo ⊢
    have hlt : ((2 ^ (l - p).toNat : ℕ) : ℝ) < ((h + 1 : ℕ) : ℝ) := by
      push_cast
      exact lt_of_mul_lt_mul_right (by simpa using hlo.trans_lt hy.2) (two_zpow_pos p).le
    have hle : ((2 ^ (l - p).toNat : ℕ) : ℝ) ≤ (h : ℝ) := by exact_mod_cast Nat.lt_succ_iff.mp (by exact_mod_cast hlt)
    exact (mul_le_mul_of_nonneg_right hle (two_zpow_pos p).le).trans hx.1.le
  · rw [hpow (l + 1) (by omega)] at hhi ⊢
    have hlt : (h : ℝ) < ((2 ^ (l + 1 - p).toNat : ℕ) : ℝ) := lt_of_mul_lt_mul_right (hy.1.trans hhi) (two_zpow_pos p).le
    have hle : ((h + 1 : ℕ) : ℝ) ≤ ((2 ^ (l + 1 - p).toNat : ℕ) : ℝ) := by exact_mod_cast Nat.succ_le_of_lt (by exact_mod_cast hlt)
    push_cast at hle
    refine hx.2.trans_le ?_
    push_cast
    exact mul_le_mul_of_nonneg_right hle (two_zpow_pos p).le

/-- In units of the last place, or of any coarser place, they lie in the same half. -/
theorem sameHalf_of_alike {f : Fmt} {x y : ℝ} {l q : ℤ} (hxy : Alike f x y) (hhi : y < 2 ^ (l + 1)) (hq : l - f.fb ≤ q) :
    SameHalf (x * 2 ^ (-q)) (y * 2 ^ (-q)) := by
  rcases hxy with rfl | ⟨h, p, hh, hx, hy⟩
  · exact .inl rfl
  have hp := unit_of_cell hh hy.1 hhi
  push_cast at hp
  obtain ⟨d, hd⟩ : ∃ d : ℕ, d = 2 ^ (q - 1 - p).toNat := ⟨_, rfl⟩
  have hd0 : 0 < d := by rw [hd]; positivity
  have hdR : (0 : ℝ) < d := by exact_mod_cast hd0
  have hunit : (2 : ℝ) ^ p * 2 ^ (-q) * 2 = (d : ℝ)⁻¹ := by
    rw [hd, ← two_zpow_of_nonneg (by omega), ← zpow_neg, ← two_zpow_add, ← zpow_add_one₀ two_ne_zero]
    congr 1
    ring
  have hlo : ((h / d : ℕ) : ℝ) ≤ h * (d : ℝ)⁻¹ := by
    rw [← div_eq_mul_inv, le_div_iff₀ hdR]
    exact_mod_cast Nat.div_mul_le_self h d
  have hhi' : (h + 1) * (d : ℝ)⁻¹ ≤ ((h / d : ℕ) : ℝ) + 1 := by
    rw [← div_eq_mul_inv, div_le_iff₀ hdR]
    exact_mod_cast Nat.succ_le_of_lt (Nat.lt_mul_of_div_lt (Nat.lt_succ_self (h / d)) hd0)
  have hcell {z : ℝ} (hz : h * (2 : ℝ) ^ p < z ∧ z < (h + 1) * (2 : ℝ) ^ p) :
      (((h / d : ℕ) : ℤ) : ℝ) < 2 * (z * 2 ^ (-q)) ∧ 2 * (z * 2 ^ (-q)) < ((h / d : ℕ) : ℤ) + 1 := by
    have hlt := mul_lt_mul_of_pos_right hz.1 (two_zpow_pos (-q))
    have hgt := mul_lt_mul_of_pos_right hz.2 (two_zpow_pos (-q))
    rw [← hunit] at hlo hhi'
    rw [Int.cast_natCast]
    constructor <;> linarith
  exact .inr ⟨_, hcell hx, hcell hy⟩

/-- The code of `n` units of `2 ^ q`, as `roundRat` places it. -/
def placed (f : Fmt) (n : ℕ) (q : ℤ) : ℕ :=
  if n = 2 ^ (f.fb + 1) then (q + 1 - f.qmin).toNat * 2 ^ f.fb + 2 ^ f.fb else (q - f.qmin).toNat * 2 ^ f.fb + n

theorem magOf_placed {f : Fmt} {n : ℕ} {q : ℤ} (hn : n ≤ 2 ^ (f.fb + 1)) (hq : f.qmin ≤ q) (hbig : q = f.qmin ∨ 2 ^ f.fb ≤ n) :
    magOf f (placed f n q) = n * 2 ^ q := by
  unfold placed
  split
  next htop =>
    have hlt : 2 ^ f.fb < 2 ^ (f.fb + 1) := Nat.pow_lt_pow_right one_lt_two (Nat.lt_succ_self _)
    rw [magOf_mul_add hlt (.inr le_rfl), htop, Int.toNat_of_nonneg (by omega), add_sub_cancel, zpow_add_one₀ two_ne_zero, pow_succ]
    push_cast
    ring
  next hne =>
    rw [magOf_mul_add (lt_of_le_of_ne hn hne) (hbig.imp_left fun h => by simp [h]), Int.toNat_of_nonneg (by omega), add_sub_cancel]

/-- The place of the last bit of a fraction's rounding to a type. -/
def lastPlace (f : Fmt) (num den : ℕ) (e : ℤ) : ℤ := max (leadBit num den e - f.fb) f.qmin

/-- The flags of an inexact result. -/
def inexactFlags (f : Fmt) (rm : Rm) (neg : Bool) (num den : ℕ) (e : ℤ) : Fl :=
  let l := leadBit num den e
  if l < f.qmin + f.fb && (roundAt rm neg num den e (l - f.fb)).1 < 2 ^ (f.fb + (f.qmin - (l - f.fb)).toNat) then flNX ||| flUF else flNX

theorem roundRat_zero (f : Fmt) (rm : Rm) (neg : Bool) (den : ℕ) (e : ℤ) : roundRat f rm neg 0 den e = (signed f neg 0, 0) := by
  cases neg <;> simp [roundRat, signed, Fmt.sign]

theorem roundRat_eq (f : Fmt) (rm : Rm) (neg : Bool) {num : ℕ} (hnum : num ≠ 0) (den : ℕ) (e : ℤ) :
    roundRat f rm neg num den e =
      let r := roundAt rm neg num den e (lastPlace f num den e)
      let c := placed f r.1 (lastPlace f num den e)
      if f.maxCode < c then (signed f neg (overCode f rm neg), flOF ||| flNX)
      else (signed f neg c, if r.2 then inexactFlags f rm neg num den e else 0) := by
  unfold roundRat placed inexactFlags lastPlace
  rw [if_neg hnum]
  dsimp only
  split <;> rfl

end Sys2Proof.Machine

/-! ## `roundRat` gives the exact result rounded once (R214, R215) -/

namespace Sys2Proof.Machine
open Claim

theorem maxCode_lt {f : Fmt} (hf : IsType f) : f.maxCode < 2 ^ (f.eb + f.fb) := by
  unfold Fmt.maxCode Fmt.infCode
  split
  next h =>
    obtain ⟨he, hb⟩ := hf.f8a h
    rw [he, hb]
    norm_num
  next =>
    have hpos : 0 < 2 ^ f.fb := by positivity
    have hlt : (2 ^ f.eb - 1) * 2 ^ f.fb ≤ 2 ^ f.eb * 2 ^ f.fb := Nat.mul_le_mul_right _ (Nat.sub_le _ _)
    rw [pow_add]
    exact (Nat.sub_le _ _).trans_lt (lt_of_le_of_ne hlt fun h => by
      have := Nat.eq_of_mul_eq_mul_right hpos h
      have : 0 < 2 ^ f.eb := by positivity
      omega)

theorem isFin_signed {f : Fmt} (hf : IsType f) (neg : Bool) {c : ℕ} (hc : c ≤ f.maxCode) : IsFin f (signed f neg c) := by
  have hlt := hc.trans_lt (maxCode_lt hf)
  unfold Fmt.maxCode Fmt.infCode at hc
  simp only [IsFin, IsNan, IsInf, exponentOf_add neg hlt, fractionOf_add]
  cases h8 : f.f8a
  · have hpos : 0 < 2 ^ f.fb := by positivity
    have hexp : 1 ≤ 2 ^ f.eb - 1 := by
      have : 2 ^ 1 ≤ 2 ^ f.eb := Nat.pow_le_pow_right two_pos hf.eb_pos
      omega
    have hmul : 1 ≤ (2 ^ f.eb - 1) * 2 ^ f.fb := Nat.mul_pos hexp hpos
    have hdiv : c / 2 ^ f.fb < 2 ^ f.eb - 1 := by
      rw [Nat.div_lt_iff_lt_mul hpos]
      simp only [h8, Bool.false_eq_true, if_false] at hc
      omega
    exact ⟨fun h => hdiv.ne h.1, fun h => hdiv.ne h.2.1⟩
  · obtain ⟨he, hb⟩ := hf.f8a h8
    simp only [h8, if_true, he, hb] at hc ⊢
    exact ⟨by norm_num; omega, by simp⟩

/-- What `roundAt` does at a place, read on the real result. -/
theorem roundAt_alike {f : Fmt} {rm : Rm} {neg : Bool} {num den : ℕ} {e q : ℤ} {y : ℝ} (hnum : 0 < num) (hden : 0 < den)
    (hy : Alike f y (num / den * 2 ^ e)) (hq : leadBit num den e - f.fb ≤ q) :
    RoundsInt rm (signR neg * (y * 2 ^ (-q))) (signZ neg * ((roundAt rm neg num den e q).1 : ℤ)) ∧
      ((roundAt rm neg num den e q).2 = false ↔ y = (roundAt rm neg num den e q).1 * 2 ^ q) := by
  obtain ⟨hrounds, hexact⟩ := roundAt_spec rm neg hden e (num := num) q
  have hhalf := sameHalf_of_alike hy (leadBit_spec hnum hden e).2 hq
  have hscale : (num / den * 2 ^ (e - q) : ℝ) = num / den * 2 ^ e * 2 ^ (-q) := by rw [mul_assoc, ← two_zpow_add, ← sub_eq_add_neg]
  rw [hscale] at hrounds hexact
  refine ⟨roundsInt_of_sameHalf (hhalf.signed neg) hrounds, ?_⟩
  rw [hexact, ← eq_natCast_iff_of_sameHalf hhalf, zpow_neg, ← div_eq_mul_inv, div_eq_iff (two_zpow_pos q).ne']

theorem abs_signed_scaled {neg : Bool} {y : ℝ} (hy : 0 < y) (q : ℤ) : |signR neg * (y * 2 ^ (-q))| = y * 2 ^ (-q) := by
  rw [abs_mul, abs_signR, one_mul, abs_of_pos (mul_pos hy (two_zpow_pos _))]

theorem abs_signZ_mul (neg : Bool) (n : ℕ) : |signZ neg * (n : ℤ)| = n := by
  rw [abs_mul, abs_signZ, one_mul, Nat.abs_cast]

/-- A result in the binade of `2 ^ l` has at most `fb + 1` bits, or is the next power of 2. -/
theorem rounded_le {f : Fmt} {rm : Rm} {neg : Bool} {n : ℕ} {q l : ℤ} {y : ℝ} (hy : 0 < y) (hhi : y < 2 ^ (l + 1)) (hq : l - f.fb ≤ q)
    (h : RoundsInt rm (signR neg * (y * 2 ^ (-q))) (signZ neg * (n : ℤ))) : n ≤ 2 ^ (f.fb + 1) := by
  have hle : y * 2 ^ (-q) ≤ 2 ^ (f.fb + 1) := by
    have hpow : (2 : ℝ) ^ (l + 1) * 2 ^ (-q) ≤ 2 ^ ((f.fb + 1 : ℕ) : ℤ) := by
      rw [← two_zpow_add]
      exact zpow_le_zpow_right₀ one_le_two (by push_cast; omega)
    rw [zpow_natCast] at hpow
    exact (mul_le_mul_of_nonneg_right hhi.le (two_zpow_pos _).le).trans hpow
  have hb := abs_le_of_roundsInt (b := 2 ^ (f.fb + 1)) h (by rw [abs_signed_scaled hy]; exact_mod_cast hle)
  rw [abs_signZ_mul] at hb
  exact_mod_cast hb

theorem scaled_ge {b : ℕ} {q l : ℤ} {y : ℝ} (hlo : (2 : ℝ) ^ l ≤ y) (hq : q = l - b) : (2 : ℝ) ^ b ≤ y * 2 ^ (-q) := by
  calc (2 : ℝ) ^ b = 2 ^ l * 2 ^ (-q) := by
        rw [← two_zpow_add, hq, ← zpow_natCast]
        congr 1
        ring
    _ ≤ y * 2 ^ (-q) := mul_le_mul_of_nonneg_right hlo (two_zpow_pos _).le

/-- At the place of the last bit a normal result keeps its leading bit. -/
theorem le_rounded {b : ℕ} {rm : Rm} {neg : Bool} {n : ℕ} {q l : ℤ} {y : ℝ} (hy : 0 < y) (hlo : (2 : ℝ) ^ l ≤ y) (hq : q = l - b)
    (h : RoundsInt rm (signR neg * (y * 2 ^ (-q))) (signZ neg * (n : ℤ))) : 2 ^ b ≤ n := by
  have hb := le_abs_of_roundsInt (b := 2 ^ b) h (by rw [abs_signed_scaled hy]; exact_mod_cast scaled_ge hlo hq)
  rw [abs_signZ_mul] at hb
  exact_mod_cast hb

/-- A rounding to integers in units of `2 ^ q` is the rounding to numbers of a type, where those are the integers at this scale. -/
theorem roundsTo_of_unit {G : ℝ → Prop} {rm : Rm} {neg : Bool} {n : ℕ} {b q : ℤ} {y : ℝ}
    (hn : G ((signZ neg * (n : ℤ) : ℤ) * 2 ^ q)) (hG : ∀ z, G (z * 2 ^ q) → IntFrom b (signR neg * (y * 2 ^ (-q))) z)
    (h : RoundsInt rm (signR neg * (y * 2 ^ (-q))) (signZ neg * (n : ℤ))) :
    RoundsTo G rm (signR neg * y) (signR neg * (n * 2 ^ q)) := by
  have hto := roundsTo_mul (two_zpow_pos q) (roundsTo_of_roundsInt hn hG h)
  have hx : signR neg * (y * 2 ^ (-q)) * 2 ^ q = signR neg * y := by
    rw [mul_assoc, mul_assoc, ← two_zpow_add, neg_add_cancel, zpow_zero, mul_one]
  rwa [hx, Int.cast_mul, intCast_signZ, Int.cast_natCast, mul_assoc] at hto

/-- R215: the flags of an inexact result: tiny is judged on the result rounded with the exponent unbounded. -/
theorem inexactFlags_eq {f : Fmt} {rm : Rm} {neg : Bool} {num den n : ℕ} {e l : ℤ} (hl : leadBit num den e = l)
    (hn : (roundAt rm neg num den e (l - f.fb)).1 = n) (hge : 2 ^ f.fb ≤ n) :
    inexactFlags f rm neg num den e = if (n : ℝ) * 2 ^ (l - f.fb) < 2 ^ (1 - biasOf f) then flNX ||| flUF else flNX := by
  have hcond : (decide (l < f.qmin + f.fb) && decide (n < 2 ^ (f.fb + (f.qmin - (l - f.fb)).toNat))) = true ↔
      (n : ℝ) * 2 ^ (l - f.fb) < 2 ^ (1 - biasOf f) := by
    rw [← qmin_add_fb, Bool.and_eq_true, decide_eq_true_iff, decide_eq_true_iff]
    rcases lt_or_ge l (f.qmin + f.fb) with hsmall | hbig
    · have hpow : (2 : ℝ) ^ (f.qmin + f.fb) = ((2 ^ (f.fb + (f.qmin - (l - f.fb)).toNat) : ℕ) : ℝ) * 2 ^ (l - f.fb) := by
        rw [← two_zpow_natCast, ← two_zpow_add]
        congr 1
        push_cast
        omega
      rw [hpow, mul_lt_mul_iff_left₀ (two_zpow_pos _), Nat.cast_lt, and_iff_right hsmall]
    · refine iff_of_false (fun h => hbig.not_gt h.1) (not_lt.mpr ?_)
      have hnR : (2 : ℝ) ^ (f.fb : ℤ) ≤ n := by exact_mod_cast hge
      calc (2 : ℝ) ^ (f.qmin + f.fb) ≤ 2 ^ l := zpow_le_zpow_right₀ one_le_two hbig
        _ = 2 ^ (f.fb : ℤ) * 2 ^ (l - f.fb) := by rw [← two_zpow_add]; congr 1; ring
        _ ≤ n * 2 ^ (l - f.fb) := mul_le_mul_of_nonneg_right hnR (two_zpow_pos _).le
  unfold inexactFlags
  simp only [hl, hn]
  exact if_congr hcond rfl rfl

theorem abs_signR_mul {neg : Bool} {y : ℝ} (hy : 0 ≤ y) : |signR neg * y| = y := by
  rw [abs_mul, abs_signR, one_mul, abs_of_nonneg hy]

theorem signR_mul_inj {neg : Bool} {x y : ℝ} : signR neg * x = signR neg * y ↔ x = y := mul_right_inj' (signR_ne_zero neg)

theorem numberOf_largest {f : Fmt} (hf : IsType f) : numberOf f (largest f) = magOf f f.maxCode := by
  have h := numberOf_signed false (maxCode_lt hf)
  rwa [signR_false, one_mul, signed, if_neg (by simp), zero_add] at h

/-- R214, R215: a code of the rounded magnitude, or the overflow's, with these flags, is the result rounded. -/
theorem rounded_of_code {f : Fmt} (hf : IsType f) {rm : Rm} {neg zneg : Bool} {y w : ℝ} {c : ℕ} {r : ℕ × Fl} (hy : 0 < y) (hw : 0 ≤ w)
    (hgrid : RoundsTo (OnGrid f) rm (signR neg * y) (signR neg * magOf f c)) (hfree : RoundsTo (OnFree f) rm (signR neg * y) (signR neg * w))
    (hfits : c ≤ f.maxCode → r = (signed f neg c, if y = magOf f c then 0 else if w < 2 ^ (1 - biasOf f) then flNX ||| flUF else flNX))
    (hover : f.maxCode < c → r = (signed f neg (overCode f rm neg), flOF ||| flNX)) : Rounded f rm zneg (signR neg * y) r := by
  have hneg : neg = true ↔ signR neg * y < 0 ∨ (signR neg * y = 0 ∧ zneg = true) := by
    cases neg <;> simp [hy, hy.ne', hy.le]
  refine ⟨_, _, hgrid, hfree, neg, hneg, ?_, ?_⟩
  · rw [abs_signR_mul (magOf_nonneg f c), numberOf_largest hf, (magOf_strictMono f).le_iff_le, Ne, signR_mul_inj, eq_comm (b := y),
      abs_signR_mul hw]
    intro hle
    obtain rfl := hfits hle
    have hlt := hle.trans_lt (maxCode_lt hf)
    refine ⟨?_, isFin_signed hf neg hle, numberOf_signed neg hlt, signOf_add hlt, fun heq => if_pos heq, fun hne hw => ?_, fun hne hw => ?_⟩
    · unfold signed
      rw [pow_succ]
      split <;> omega
    · simp only [if_neg hne, if_pos hw]
    · simp only [if_neg hne, if_neg hw.not_gt]
  · rw [abs_signR_mul (magOf_nonneg f c), numberOf_largest hf, (magOf_strictMono f).lt_iff_lt]
    exact hover

/-- R214, R215: `roundRat` gives a real that it cannot tell from its fraction, rounded once, with the flags. -/
theorem rounded_roundRat {f : Fmt} (hf : IsType f) {rm : Rm} {neg zneg : Bool} {num den : ℕ} {e : ℤ} {y : ℝ} (hnum : 0 < num) (hden : 0 < den)
    (hy : Alike f y (num / den * 2 ^ e)) : Rounded f rm zneg (signR neg * y) (roundRat f rm neg num den e) := by
  obtain ⟨hlo', hhi'⟩ := leadBit_spec hnum hden e
  obtain ⟨hlo, hhi⟩ := binade_of_alike hy hlo' hhi'
  have hpos : 0 < y := (two_zpow_pos _).trans_le hlo
  rw [roundRat_eq f rm neg hnum.ne']
  generalize hl : leadBit num den e = l at hlo hhi
  obtain ⟨q, hq⟩ : ∃ q, q = lastPlace f num den e := ⟨_, rfl⟩
  rw [← hq]
  rw [lastPlace, hl] at hq
  obtain ⟨hround, hexact⟩ := roundAt_alike (rm := rm) (neg := neg) hnum hden hy (by omega : _ ≤ q)
  obtain ⟨hfree, -⟩ := roundAt_alike (rm := rm) (neg := neg) hnum hden hy (by omega : _ ≤ l - f.fb)
  have hflags := inexactFlags_eq (f := f) (rm := rm) (neg := neg) (e := e) hl rfl (le_rounded hpos hlo rfl hfree)
  generalize roundAt rm neg num den e q = r at hround hexact ⊢
  obtain ⟨n, inex⟩ := r
  generalize (roundAt rm neg num den e (l - f.fb)).1 = m at hfree hflags
  dsimp only at hround hexact ⊢
  have hn_le := rounded_le (f := f) hpos hhi (by omega) hround
  have hm_le := rounded_le (f := f) hpos hhi le_rfl hfree
  have hcases : q = f.qmin ∨ q = l - f.fb := by omega
  have hmag : magOf f (placed f n q) = n * 2 ^ q :=
    magOf_placed hn_le (by omega) (hcases.imp_right fun h => le_rounded hpos hlo h hround)
  have hbinade {q : ℤ} (h : q = l - f.fb) : (2 : ℝ) ^ f.fb ≤ |signR neg * (y * 2 ^ (-q))| := by
    rw [abs_signed_scaled hpos]
    exact scaled_ge hlo h
  refine rounded_of_code (w := m * 2 ^ (l - f.fb)) (c := placed f n q) hf hpos (by positivity) ?_ ?_ (fun hfits => ?_) fun hover => if_pos hover
  · rw [hmag]
    refine roundsTo_of_unit (b := 2 ^ f.fb) (onGrid_of_abs_le ?_ (by omega)) (fun z hz => ?_) hround
    · rw [abs_signZ_mul]
      exact_mod_cast hn_le
    · rcases hcases with rfl | h
      · exact intFrom_of_onGrid hz
      · exact intFrom_of_onFree (onFree_of_onGrid hz) (hbinade h)
  · refine roundsTo_of_unit (b := 2 ^ f.fb) (onFree_of_abs_le ?_) (fun z hz => intFrom_of_onFree hz (hbinade rfl)) hfree
    rw [abs_signZ_mul]
    exact_mod_cast hm_le
  · rw [if_neg hfits.not_gt, hmag, hflags]
    cases inex
    · rw [if_pos (hexact.mp rfl)]
      rfl
    · rw [if_neg fun h => absurd (hexact.mpr h) (by simp)]
      rfl

end Sys2Proof.Machine

/-! ## What codes decode to, and the encoding of a value (R212, R213, R218) -/

namespace Sys2Proof.Machine
open Claim

theorem fDecode_signed {f : Fmt} (neg : Bool) {c : ℕ} (hc : c < 2 ^ (f.eb + f.fb)) : fDecode f (signed f neg c) =
    if f.f8a && c = 0x7F then .nan false
    else if !f.f8a && c / 2 ^ f.fb = 2 ^ f.eb - 1 then if c % 2 ^ f.fb = 0 then .inf neg else .nan (c % 2 ^ f.fb < 2 ^ (f.fb - 1))
    else if c / 2 ^ f.fb = 0 then .fin neg (c % 2 ^ f.fb) f.qmin
    else .fin neg (2 ^ f.fb + c % 2 ^ f.fb) (f.qmin + (c / 2 ^ f.fb - 1 : ℕ)) := by
  unfold fDecode Fmt.sign signed
  cases neg
  · simp only [Bool.false_eq_true, if_false, zero_add, Nat.mod_eq_of_lt (by omega : c < 2 * 2 ^ (f.eb + f.fb)), Nat.mod_eq_of_lt hc,
      decide_eq_false hc.not_ge]
  · simp only [if_true, Nat.mod_eq_of_lt (by omega : 2 ^ (f.eb + f.fb) + c < 2 * 2 ^ (f.eb + f.fb)), Nat.add_mod_left, Nat.mod_eq_of_lt hc,
      decide_eq_true (Nat.le_add_right (2 ^ (f.eb + f.fb)) c)]

/-- A code as its sign and the rest. -/
theorem exists_signed {f : Fmt} {x : ℕ} (hx : x < 2 ^ (f.eb + f.fb + 1)) : ∃ neg c, c < 2 ^ (f.eb + f.fb) ∧ x = signed f neg c :=
  ⟨_, _, Nat.mod_lt _ (by positivity), (signed_mod hx).symm⟩

theorem isNan_signed {f : Fmt} (hf : IsType f) (neg : Bool) {c : ℕ} (hc : c < 2 ^ (f.eb + f.fb)) : IsNan f (signed f neg c) ↔
    (f.f8a = true ∧ c = 0x7F) ∨ (f.f8a = false ∧ c / 2 ^ f.fb = 2 ^ f.eb - 1 ∧ c % 2 ^ f.fb ≠ 0) := by
  rw [IsNan, exponentOf_add neg hc, fractionOf_add]
  cases h : f.f8a
  · simp
  · obtain ⟨he, hb⟩ := hf.f8a h
    simp only [he, hb, if_true] at hc ⊢
    norm_num at hc ⊢
    omega

theorem isInf_signed {f : Fmt} (neg : Bool) {c : ℕ} (hc : c < 2 ^ (f.eb + f.fb)) : IsInf f (signed f neg c) ↔
    f.f8a = false ∧ c / 2 ^ f.fb = 2 ^ f.eb - 1 ∧ c % 2 ^ f.fb = 0 := by
  rw [IsInf, exponentOf_add neg hc, fractionOf_add]

/-- A value as a sign and a magnitude. -/
theorem valueOf_fin (n : Bool) (m : ℕ) (e : ℤ) : valueOf (.fin n m e) = signR n * (m * 2 ^ e) := by
  rw [← mul_assoc]
  rfl

theorem fDecode_of_isFin {f : Fmt} (hf : IsType f) {x : ℕ} (hx : x < 2 ^ (f.eb + f.fb + 1)) (h : IsFin f x) :
    ∃ m e, fDecode f x = .fin (signOf f x) m e ∧ numberOf f x = signR (signOf f x) * (m * 2 ^ e) := by
  obtain ⟨neg, c, hc, rfl⟩ := exists_signed hx
  rw [IsFin, isNan_signed hf neg hc, isInf_signed neg hc] at h
  rw [fDecode_signed neg hc, numberOf_signed neg hc, signOf_add hc, magOf, if_neg (by simp; tauto), if_neg (by simp; tauto)]
  split <;> exact ⟨_, _, rfl, rfl⟩

theorem fDecode_of_isNan {f : Fmt} (hf : IsType f) {x : ℕ} (hx : x < 2 ^ (f.eb + f.fb + 1)) (h : IsNan f x) :
    ∃ sig, fDecode f x = .nan sig ∧ (sig = true ↔ IsSig f x) := by
  rw [IsSig, and_iff_right h]
  obtain ⟨neg, c, hc, rfl⟩ := exists_signed hx
  rw [fDecode_signed neg hc, fractionOf_add]
  rcases (isNan_signed hf neg hc).mp h with ⟨h8, rfl⟩ | ⟨h8, he, hfr⟩
  · obtain ⟨-, hb⟩ := hf.f8a h8
    rw [if_pos (by simp [h8]), hb]
    exact ⟨_, rfl, by norm_num⟩
  · rw [if_neg (by simp [h8]), if_pos (by simp [h8, he]), if_neg hfr]
    exact ⟨_, rfl, by simp⟩

theorem fDecode_of_isInf {f : Fmt} {x : ℕ} (hx : x < 2 ^ (f.eb + f.fb + 1)) (h : IsInf f x) : fDecode f x = .inf (signOf f x) := by
  obtain ⟨neg, c, hc, rfl⟩ := exists_signed hx
  obtain ⟨h8, he, hfr⟩ := (isInf_signed neg hc).mp h
  rw [fDecode_signed neg hc, signOf_add hc, if_neg (by simp [h8]), if_pos (by simp [h8, he]), if_pos hfr]

theorem fDecode_eq_nan_true_iff {f : Fmt} (hf : IsType f) {x : ℕ} (hx : x < 2 ^ (f.eb + f.fb + 1)) : fDecode f x = .nan true ↔ IsSig f x := by
  by_cases hn : IsNan f x
  · obtain ⟨sig, hd, hsig⟩ := fDecode_of_isNan hf hx hn
    simp [hd, hsig]
  · refine iff_of_false (fun hd => ?_) fun h => hn h.1
    by_cases hi : IsInf f x
    · simp [fDecode_of_isInf hx hi] at hd
    · obtain ⟨m, e, hd', -⟩ := fDecode_of_isFin hf hx ⟨hn, hi⟩
      simp [hd'] at hd

/-! Zero, and the encoding of a finite value. -/

theorem roundsTo_zero {G : ℝ → Prop} (rm : Rm) (h : G 0) : RoundsTo G rm 0 0 := by
  refine ⟨h, ?_⟩
  rcases rm_cases rm with rfl | rfl | rfl | rfl
  · intro z _
    simp only [sub_self, abs_zero, zero_sub, abs_neg]
    exact ⟨abs_nonneg z, fun heq hne => absurd (abs_eq_zero.mp heq.symm) hne⟩
  · exact ⟨le_rfl, by simp, fun z _ hz => hz⟩
  · exact ⟨le_rfl, fun z _ hz => hz⟩
  · exact ⟨le_rfl, fun z _ hz => hz⟩

theorem magOf_zero (f : Fmt) : magOf f 0 = 0 := by simp [magOf]

theorem rounded_zero {f : Fmt} (hf : IsType f) (rm : Rm) (zneg : Bool) : Rounded f rm zneg 0 (signed f zneg 0, 0) := by
  have hlt : 0 < 2 ^ (f.eb + f.fb) := by positivity
  have hfree : OnFree f 0 := ⟨0, 0, by simp, by simp⟩
  have hgrid : OnGrid f 0 := ⟨0, f.qmin, by simp, (qmin_eq f).ge, by simp⟩
  refine ⟨0, 0, roundsTo_zero rm hgrid, roundsTo_zero rm hfree, zneg, by simp, fun _ => ?_, fun h => ?_⟩
  · refine ⟨?_, isFin_signed hf zneg (Nat.zero_le _), by rw [numberOf_signed zneg hlt, magOf_zero, mul_zero], signOf_add hlt, fun _ => rfl,
      fun h => absurd rfl h, fun h => absurd rfl h⟩
    unfold signed
    rw [pow_succ]
    split <;> omega
  · rw [abs_zero, numberOf_largest hf] at h
    exact absurd h (magOf_nonneg f _).not_gt

/-- The sign of a zero counts only where the result is 0. -/
theorem rounded_congr_zero {f : Fmt} {rm : Rm} {a b : Bool} {x : ℝ} {r : ℕ × Fl} (hab : x = 0 → a = b) (h : Rounded f rm a x r) :
    Rounded f rm b x r := by
  obtain ⟨y, w, hy, hw, neg, hneg, hrest⟩ := h
  exact ⟨y, w, hy, hw, neg, hneg.trans (or_congr_right (and_congr_right fun h => by rw [hab h])), hrest⟩

/-- A fraction with its sign rounds to the code that `roundRat` gives it; a zero keeps its sign. -/
theorem rounded_fraction {f : Fmt} (hf : IsType f) (rm : Rm) (neg : Bool) (num : ℕ) {den : ℕ} (hden : 0 < den) (e : ℤ) :
    Rounded f rm neg (signR neg * (num / den * 2 ^ e)) (roundRat f rm neg num den e) := by
  rcases Nat.eq_zero_or_pos num with rfl | hnum
  · rw [roundRat_zero, Nat.cast_zero, zero_div, zero_mul, mul_zero]
    exact rounded_zero hf rm neg
  · exact rounded_roundRat hf hnum hden (.inl rfl)

theorem rounded_fEncode {f : Fmt} (hf : IsType f) (rm : Rm) (neg : Bool) (m : ℕ) (e : ℤ) :
    Rounded f rm neg (signR neg * (m * 2 ^ e)) (fEncode f rm (.fin neg m e)) := by
  have h := rounded_fraction hf rm neg m Nat.one_pos e
  rwa [Nat.cast_one, div_one] at h

/-! ## Exact sums, products and square roots of finite values (R216) -/

theorem shlI_mul_zpow (n : ℕ) {k : ℤ} (hk : 0 ≤ k) (q : ℤ) : (shlI n k : ℝ) * 2 ^ q = n * 2 ^ (k + q) := by
  rw [two_zpow_add, two_zpow_of_nonneg hk, ← mul_assoc]
  unfold shlI
  push_cast
  rfl

/-- The sum of two finite values is exact; that of a zero has the sign of R216. -/
theorem fAddE_fin (rm : Rm) (n k : Bool) (m p : ℕ) (e d : ℤ) :
    ∃ s u q, fAddE rm (.fin n m e) (.fin k p d) = (.fin s u q, 0) ∧
      signR s * (u * 2 ^ q) = signR n * (m * 2 ^ e) + signR k * (p * 2 ^ d) ∧ (u = 0 → s = if n = k then n else rm == 2) := by
  obtain ⟨q, hq⟩ : ∃ q, q = min e d := ⟨_, rfl⟩
  obtain ⟨z, hz⟩ : ∃ z : ℤ, z = (if n then -1 else 1) * (shlI m (e - q) : ℤ) + (if k then -1 else 1) * (shlI p (d - q) : ℤ) := ⟨_, rfl⟩
  have hsum : (z : ℝ) * 2 ^ q = signR n * (m * 2 ^ e) + signR k * (p * 2 ^ d) := by
    have hm := shlI_mul_zpow m (by omega : 0 ≤ e - q) q
    have hp := shlI_mul_zpow p (by omega : 0 ≤ d - q) q
    rw [sub_add_cancel] at hm hp
    rw [← hm, ← hp, hz]
    cases n <;> cases k <;> simp <;> ring
  have hadd : fAddE rm (.fin n m e) (.fin k p d) =
      if z = 0 then (.fin (if n = k then n else rm = 2) 0 0, 0) else (.fin (z < 0) z.natAbs q, 0) := by
    rw [hz, hq]
    rfl
  rw [hadd]
  rcases eq_or_ne z 0 with h0 | h0
  · rw [if_pos h0]
    refine ⟨_, _, _, rfl, ?_, fun _ => rfl⟩
    rw [← hsum, h0]
    simp
  · rw [if_neg h0]
    refine ⟨_, _, _, rfl, ?_, fun h => absurd (Int.natAbs_eq_zero.mp h) h0⟩
    rw [← hsum, ← mul_assoc, Nat.cast_natAbs]
    congr 1
    rcases lt_or_ge z 0 with hneg | hpos
    · simp [hneg, abs_of_neg hneg]
    · simp [hpos.not_gt, abs_of_nonneg hpos]

theorem signR_mul_mag (n k : Bool) (m p : ℕ) (e d : ℤ) :
    signR (n != k) * ((m * p : ℕ) * (2 : ℝ) ^ (e + d)) = signR n * (m * 2 ^ e) * (signR k * (p * 2 ^ d)) := by
  rw [signR_bne, two_zpow_add]
  push_cast
  ring

theorem signR_div_mag (n k : Bool) (m p : ℕ) (e d : ℤ) :
    signR (n != k) * (m / p * (2 : ℝ) ^ (e - d)) = signR n * (m * 2 ^ e) / (signR k * (p * 2 ^ d)) := by
  rw [signR_bne, zpow_sub₀ two_ne_zero, mul_div_mul_comm, mul_div_mul_comm]
  cases n <;> cases k <;> simp

/-- `isqrt` closes in on the square root, one bit of it at a time. -/
theorem isqrt_spec (n : ℕ) : ∀ k r : ℕ, r * r ≤ n → n < (r + 2 ^ (k + 1)) * (r + 2 ^ (k + 1)) →
    isqrt n k r * isqrt n k r ≤ n ∧ n < (isqrt n k r + 1) * (isqrt n k r + 1) := by
  intro k
  induction k with
  | zero =>
    intro r hlo hhi
    unfold isqrt
    split
    · next h => exact ⟨h, by simpa [add_assoc] using hhi⟩
    · next h => exact ⟨hlo, not_le.mp h⟩
  | succ k ih =>
    intro r hlo hhi
    unfold isqrt
    split
    · next h =>
      refine ih _ h ?_
      rwa [add_assoc, ← two_mul, ← pow_succ']
    · next h => exact ih _ hlo (not_le.mp h)

theorem sqrtN_eq (n : ℕ) : sqrtN n = Nat.sqrt n := by
  have hhi : n < (0 + 2 ^ (Nat.log2 n / 2 + 1 + 1)) * (0 + 2 ^ (Nat.log2 n / 2 + 1 + 1)) := by
    rw [zero_add, ← pow_add]
    exact Nat.lt_log2_self.trans_le (Nat.pow_le_pow_right two_pos (by omega))
  obtain ⟨hlo, hlt⟩ := isqrt_spec n _ 0 (Nat.zero_le _) hhi
  exact Nat.eq_sqrt.mpr ⟨hlo, hlt⟩

/-- The magnitude that `sqrtMag` gives stands for the square root in every rounding to a type of at most 78 bits of fraction. -/
theorem sqrtMag_alike {f : Fmt} (hf : f.fb ≤ 78) {m : ℕ} (hm : 0 < m) (e : ℤ) :
    0 < (sqrtMag m e).1 ∧ Alike f (Real.sqrt (m * 2 ^ e)) (((sqrtMag m e).1 : ℝ) / (1 : ℕ) * 2 ^ (sqrtMag m e).2) := by
  obtain ⟨m1, j, hm1, hval, hdef⟩ : ∃ (m1 : ℕ) (j : ℤ), 0 < m1 ∧ (m * 2 ^ e : ℝ) = m1 * 2 ^ (2 * j) ∧ sqrtMag m e =
      if sqrtN (2 ^ 160 * m1) * sqrtN (2 ^ 160 * m1) = 2 ^ 160 * m1 then (sqrtN (2 ^ 160 * m1), j - 80)
      else (2 * sqrtN (2 ^ 160 * m1) + 1, j - 81) := by
    unfold sqrtMag
    by_cases hodd : e % 2 = 1
    · refine ⟨2 * m, (e - 1) / 2, by omega, ?_, by simp [hodd]⟩
      have he : e = 2 * ((e - 1) / 2) + 1 := by omega
      conv_lhs => rw [he, zpow_add_one₀ two_ne_zero]
      push_cast
      ring
    · refine ⟨m, e / 2, hm, ?_, by simp [hodd]⟩
      have he : e = 2 * (e / 2) := by omega
      conv_lhs => rw [he]
  rw [sqrtN_eq] at hdef
  generalize hn : 2 ^ 160 * m1 = n at hdef
  have hroot : Real.sqrt (m * 2 ^ e) = Real.sqrt n * 2 ^ (j - 80) := by
    have hpow : (m * 2 ^ e : ℝ) = n * (2 ^ (j - 80)) ^ 2 := by
      have hsplit : (2 : ℝ) ^ (2 * j) = (2 ^ 160 : ℕ) * (2 ^ (j - 80)) ^ 2 := by
        rw [← zpow_natCast, ← zpow_mul, ← two_zpow_natCast, ← two_zpow_add]
        congr 1
        push_cast
        ring
      rw [hval, hsplit, ← hn, Nat.cast_mul]
      ring
    rw [hpow, Real.sqrt_mul (by positivity), Real.sqrt_sq (two_zpow_pos _).le]
  have hbig : 2 ^ 80 ≤ Nat.sqrt n := by
    rw [Nat.le_sqrt, ← hn]
    calc 2 ^ 80 * 2 ^ 80 = 2 ^ 160 * 1 := by norm_num
      _ ≤ 2 ^ 160 * m1 := Nat.mul_le_mul_left _ hm1
  have hpos : 0 < Nat.sqrt n := lt_of_lt_of_le (by positivity) hbig
  rw [hroot, Nat.cast_one, div_one, hdef]
  split
  next hexact =>
    refine ⟨hpos, .inl ?_⟩
    have hsq : Real.sqrt n = Nat.sqrt n := by
      rw [Real.sqrt_eq_iff_mul_self_eq (by positivity) (by positivity)]
      exact_mod_cast hexact.symm
    rw [hsq]
  next hne =>
    have hlo : (Nat.sqrt n : ℝ) < Real.sqrt n := by
      rw [Real.lt_sqrt (by positivity), sq]
      exact_mod_cast lt_of_le_of_ne (Nat.sqrt_le n) hne
    have hhi : Real.sqrt n < Nat.sqrt n + 1 := by
      rw [Real.sqrt_lt' (by positivity), sq]
      exact_mod_cast Nat.lt_succ_sqrt n
    have hsticky : ((2 * Nat.sqrt n + 1 : ℕ) : ℝ) * 2 ^ (j - 81) = (Nat.sqrt n + 1 / 2) * 2 ^ (j - 80) := by
      rw [(by ring : j - 80 = j - 81 + 1), zpow_add_one₀ two_ne_zero]
      push_cast
      ring
    have hunit := two_zpow_pos (j - 80)
    refine ⟨Nat.succ_pos _, .inr ⟨Nat.sqrt n, j - 80, (Nat.pow_le_pow_right two_pos (by omega)).trans hbig, ⟨?_, ?_⟩, ?_, ?_⟩⟩
    · exact mul_lt_mul_of_pos_right hlo hunit
    · exact mul_lt_mul_of_pos_right hhi hunit
    · rw [hsticky]
      exact mul_lt_mul_of_pos_right (by linarith) hunit
    · rw [hsticky]
      exact mul_lt_mul_of_pos_right (by linarith) hunit

end Sys2Proof.Machine

/-! ## The float operations on finite values, NaNs and infinities (R214, R216) -/

namespace Sys2Proof.Machine
open Claim

/-! Finite operands: one rounding of the exact result. -/

section Finite

variable {f : Fmt} (hf : IsType f) (rm : Rm) (n k : Bool) (m p : ℕ) (e d : ℤ)

theorem sigFlag_fin (n : Bool) (m : ℕ) (e : ℤ) (l : List FVal) : sigFlag (.fin n m e :: l) = sigFlag l := by simp [sigFlag]
theorem sigFlag_nil : sigFlag [] = 0 := rfl

/-- A signed magnitude is 0 only where its significand is. -/
theorem signR_mul_mag_eq_zero_iff : signR n * (m * (2 : ℝ) ^ e) = 0 ↔ m = 0 := by
  simp [signR_ne_zero, (two_zpow_pos e).ne']

include hf

theorem rounded_fAdd : Rounded f rm (if n = k then n else rm == 2) (signR n * (m * 2 ^ e) + signR k * (p * 2 ^ d))
    (fAdd f rm (.fin n m e) (.fin k p d)) := by
  obtain ⟨s, u, q, hadd, hval, hzero⟩ := fAddE_fin rm n k m p e d
  have hsum : fAdd f rm (.fin n m e) (.fin k p d) = fEncode f rm (.fin s u q) := by
    simp [fAdd, hadd, sigFlag_fin, sigFlag_nil]
  rw [hsum, ← hval]
  exact rounded_congr_zero (fun h => hzero ((signR_mul_mag_eq_zero_iff s u q).mp h)) (rounded_fEncode hf rm s u q)

theorem rounded_fSub : Rounded f rm (if n = !k then n else rm == 2) (signR n * (m * 2 ^ e) - signR k * (p * 2 ^ d))
    (fSub f rm (.fin n m e) (.fin k p d)) := by
  have h := rounded_fAdd hf rm n (!k) m p e d
  rwa [signR_not, neg_mul, ← sub_eq_add_neg] at h

theorem rounded_fMul : Rounded f rm (n != k) (signR n * (m * 2 ^ e) * (signR k * (p * 2 ^ d))) (fMul f rm (.fin n m e) (.fin k p d)) := by
  have hmul : fMul f rm (.fin n m e) (.fin k p d) = fEncode f rm (.fin (n != k) (m * p) (e + d)) := by
    simp [fMul, fMulE, sigFlag_fin, sigFlag_nil]
  rw [hmul, ← signR_mul_mag]
  exact rounded_fEncode hf rm _ _ _

theorem rounded_fFma (j : Bool) (r : ℕ) (c : ℤ) : Rounded f rm (if (n != k) = j then j else rm == 2)
    (signR n * (m * 2 ^ e) * (signR k * (p * 2 ^ d)) + signR j * (r * 2 ^ c)) (fFma f rm (.fin n m e) (.fin k p d) (.fin j r c)) := by
  have hadd : fFma f rm (.fin n m e) (.fin k p d) (.fin j r c) = fAdd f rm (.fin (n != k) (m * p) (e + d)) (.fin j r c) := by
    simp [fFma, fMulE, fAdd, sigFlag_fin, sigFlag_nil]
  have h := rounded_fAdd hf rm (n != k) j (m * p) r (e + d) c
  rw [hadd, ← signR_mul_mag]
  by_cases hj : (n != k) = j
  · rwa [if_pos hj, hj] at h ⊢
  · rwa [if_neg hj] at h ⊢

theorem rounded_fDiv (hp : 0 < p) : Rounded f rm (n != k) (signR n * (m * 2 ^ e) / (signR k * (p * 2 ^ d)))
    (fDiv f rm (.fin n m e) (.fin k p d)) := by
  have hdiv : fDiv f rm (.fin n m e) (.fin k p d) = roundRat f rm (n != k) m p (e - d) := by
    simp [fDiv, hp.ne']
  rw [hdiv, ← signR_div_mag]
  exact rounded_fraction hf rm _ m hp _

/-- R216: the root of a zero is that zero; below it there is none. -/
theorem rounded_fSqrt (hb : f.fb ≤ 78) (h0 : 0 ≤ signR n * (m * (2 : ℝ) ^ e)) :
    Rounded f rm n (Real.sqrt (signR n * (m * 2 ^ e))) (fSqrt f rm (.fin n m e)) := by
  rcases Nat.eq_zero_or_pos m with rfl | hm
  · rw [Nat.cast_zero, zero_mul, mul_zero, Real.sqrt_zero]
    exact rounded_zero hf rm n
  · obtain rfl : n = false := by
      cases n
      · rfl
      · have hpos : (0 : ℝ) < m * 2 ^ e := mul_pos (by exact_mod_cast hm) (two_zpow_pos e)
        rw [signR_true] at h0
        linarith
    obtain ⟨hpos, halike⟩ := sqrtMag_alike hb hm e
    have hsqrt : fSqrt f rm (.fin false m e) = roundRat f rm false (sqrtMag m e).1 1 (sqrtMag m e).2 := by
      simp [fSqrt, hm.ne']
    have h := rounded_roundRat (rm := rm) (neg := false) (zneg := false) hf hpos Nat.one_pos halike
    rw [signR_false, one_mul] at h ⊢
    rwa [hsqrt]

end Finite

theorem fDiv_zero (f : Fmt) (rm : Rm) (n k : Bool) {m : ℕ} (hm : m ≠ 0) (e d : ℤ) :
    fDiv f rm (.fin n m e) (.fin k 0 d) = (signed f (n != k) (infinity f), flDZ) := by
  simp only [fDiv, if_true, if_neg hm]
  rfl

theorem fDiv_zero_zero (f : Fmt) (rm : Rm) (n k : Bool) (e d : ℤ) : Invalid f (fDiv f rm (.fin n 0 e) (.fin k 0 d)) := rfl

theorem fSqrt_neg (f : Fmt) (rm : Rm) {n : Bool} {m : ℕ} {e : ℤ} (h : signR n * (m * (2 : ℝ) ^ e) < 0) : Invalid f (fSqrt f rm (.fin n m e)) := by
  have hm : m ≠ 0 := fun h0 => h.ne ((signR_mul_mag_eq_zero_iff n m e).mpr h0)
  cases n
  · rw [signR_false, one_mul] at h
    exact absurd h (by positivity : (0 : ℝ) ≤ m * 2 ^ e).not_gt
  · simp [fSqrt, hm]
    rfl

/-! NaN operands. -/

theorem sigFlag_eq (l : List FVal) : sigFlag l = if .nan true ∈ l then flNV else 0 := by
  simp [sigFlag]

theorem flNV_or_sigFlag (l : List FVal) : flNV ||| sigFlag l = flNV := by
  rw [sigFlag_eq]
  split <;> rfl

theorem nanFlags_sigFlag {f : Fmt} (hf : IsType f) {l : List ℕ} (hl : ∀ x ∈ l, x < 2 ^ (f.eb + f.fb + 1)) :
    NanFlags f l (sigFlag (l.map (fDecode f))) := by
  have hmem : FVal.nan true ∈ l.map (fDecode f) ↔ ∃ x ∈ l, IsSig f x := by
    rw [List.mem_map]
    exact exists_congr fun x => and_congr_right fun hx => fDecode_eq_nan_true_iff hf (hl x hx)
  rw [sigFlag_eq]
  exact ⟨fun h => if_pos (hmem.mpr h), fun h => if_neg fun hs => by
    obtain ⟨x, hx, hsig⟩ := hmem.mp hs
    exact h x hx hsig⟩

theorem exists_of_isNan {a : FVal} (h : a.isNan = true) : ∃ s, a = .nan s := by
  cases a with
  | nan s => exact ⟨s, rfl⟩
  | inf _ => cases h
  | fin _ _ _ => cases h

theorem fAddE_nan (rm : Rm) {a b : FVal} (h : a.isNan = true ∨ b.isNan = true) : fAddE rm a b = (.nan false, 0) := by
  rcases h with h | h <;> obtain ⟨s, rfl⟩ := exists_of_isNan h
  · rfl
  · cases a <;> rfl

theorem fMulE_nan {a b : FVal} (h : a.isNan = true ∨ b.isNan = true) : fMulE a b = (.nan false, 0) := by
  rcases h with h | h <;> obtain ⟨s, rfl⟩ := exists_of_isNan h
  · rfl
  · cases a <;> rfl

theorem isNan_neg (a : FVal) : a.neg.isNan = a.isNan := by cases a <;> rfl

theorem neg_eq_nan_iff (a : FVal) (s : Bool) : a.neg = .nan s ↔ a = .nan s := by cases a <;> simp [FVal.neg]

theorem fEncode_nan (f : Fmt) (rm : Rm) (s : Bool) : fEncode f rm (.nan s) = (nanCode f, 0) := rfl

theorem fAdd_nan (f : Fmt) (rm : Rm) {a b : FVal} (h : a.isNan = true ∨ b.isNan = true) :
    fAdd f rm a b = (nanCode f, sigFlag [a, b]) := by
  simp [fAdd, fAddE_nan rm h, fEncode_nan]

theorem fSub_nan (f : Fmt) (rm : Rm) {a b : FVal} (h : a.isNan = true ∨ b.isNan = true) :
    fSub f rm a b = (nanCode f, sigFlag [a, b]) := by
  rw [fSub, fAdd_nan f rm (by rwa [isNan_neg])]
  simp [sigFlag_eq, eq_comm (a := FVal.nan true), neg_eq_nan_iff]

theorem fMul_nan (f : Fmt) (rm : Rm) {a b : FVal} (h : a.isNan = true ∨ b.isNan = true) :
    fMul f rm a b = (nanCode f, sigFlag [a, b]) := by
  simp [fMul, fMulE_nan h, fEncode_nan]

theorem fDiv_nan (f : Fmt) (rm : Rm) {a b : FVal} (h : a.isNan = true ∨ b.isNan = true) :
    fDiv f rm a b = (nanCode f, sigFlag [a, b]) := by
  rcases h with h | h <;> obtain ⟨s, rfl⟩ := exists_of_isNan h
  · rfl
  · cases a <;> rfl

theorem fSqrt_nan (f : Fmt) (rm : Rm) (s : Bool) : fSqrt f rm (.nan s) = (nanCode f, sigFlag [.nan s]) := by
  cases s <;> rfl

theorem fMulE_flags (a b : FVal) : (fMulE a b).2 = 0 ∨ (fMulE a b).2 = flNV := by
  cases a <;> cases b <;> simp [fMulE] <;> split <;> simp

theorem fFma_nan (f : Fmt) (rm : Rm) {a b c : FVal} (h : a.isNan = true ∨ b.isNan = true ∨ c.isNan = true) :
    (fFma f rm a b c).1 = nanCode f ∧ (.nan true ∈ [a, b, c] → (fFma f rm a b c).2 = flNV) := by
  have hadd : fAddE rm (fMulE a b).1 c = (.nan false, 0) := by
    refine fAddE_nan rm ?_
    rcases or_assoc.mpr h with hab | hc
    · exact .inl (by rw [fMulE_nan hab]; rfl)
    · exact .inr hc
  have hfma : fFma f rm a b c = (nanCode f, (fMulE a b).2 ||| sigFlag [a, b, c]) := by
    simp [fFma, hadd, fEncode_nan]
  rw [hfma]
  refine ⟨rfl, fun hsig => ?_⟩
  rw [sigFlag_eq, if_pos hsig]
  rcases fMulE_flags a b with h0 | h0 <;> rw [h0] <;> rfl

/-! Infinities. -/

section Infinite

variable {f : Fmt} (h8 : f.f8a = false) (rm : Rm) (n k : Bool) (m p : ℕ) (e d : ℤ)

theorem sigFlag_inf (n : Bool) (l : List FVal) : sigFlag (.inf n :: l) = sigFlag l := by simp [sigFlag]

/-- R216: the result of an operation that gives an infinity, exactly. -/
def infResult (f : Fmt) (n : Bool) : ℕ × Fl := (signed f n (infinity f), 0)

theorem fAdd_inf_opp (h : n ≠ k) : Invalid f (fAdd f rm (.inf n) (.inf k)) := by
  simp [fAdd, fAddE, h, fEncode_nan, sigFlag_inf, sigFlag_nil, Invalid]

theorem fDiv_inf_inf : Invalid f (fDiv f rm (.inf n) (.inf k)) := rfl
theorem fDiv_inf_fin : fDiv f rm (.inf n) (.fin k p d) = infResult f (n != k) := rfl
theorem fDiv_fin_inf : fDiv f rm (.fin n m e) (.inf k) = (signed f (n != k) 0, 0) := rfl
theorem fSqrt_inf : fSqrt f rm (.inf n) = if n then (nanCode f, flNV) else infResult f false := by
  cases n
  · simp [fSqrt, infResult, signed, infinity, Fmt.infCode]
  · rfl

theorem fMul_inf_zero : Invalid f (fMul f rm (.inf n) (.fin k 0 d)) ∧ Invalid f (fMul f rm (.fin k 0 d) (.inf n)) := by
  simp [fMul, fMulE, fEncode_nan, sigFlag_inf, sigFlag_fin, sigFlag_nil, Invalid]

theorem fFma_inf_zero (c : FVal) : Invalid f (fFma f rm (.inf n) (.fin k 0 d) c) ∧ Invalid f (fFma f rm (.fin k 0 d) (.inf n) c) := by
  have hnan : fAddE rm (.nan false) c = (.nan false, 0) := fAddE_nan rm (.inl rfl)
  simp only [fFma, fMulE, hnan, if_true, fEncode_nan, Invalid, sigFlag_inf, sigFlag_fin]
  exact ⟨congrArg _ (flNV_or_sigFlag [c]), congrArg _ (flNV_or_sigFlag [c])⟩

theorem fFma_inf_opp {p : ℕ} (hp : p ≠ 0) {j : Bool} (hj : j ≠ (n != k)) : Invalid f (fFma f rm (.inf n) (.fin k p d) (.inf j)) := by
  simp [fFma, fMulE, hp, fAddE, hj.symm, fEncode_nan, Invalid, sigFlag_inf, sigFlag_fin, sigFlag_nil]

include h8

theorem fEncode_inf : fEncode f rm (.inf n) = infResult f n := by
  simp [fEncode, h8]
  rfl

theorem fAdd_inf_same : fAdd f rm (.inf n) (.inf n) = infResult f n := by
  simp [fAdd, fAddE, fEncode_inf h8, sigFlag_inf, sigFlag_nil, infResult]

theorem fAdd_inf_fin : fAdd f rm (.inf n) (.fin k p d) = infResult f n ∧ fAdd f rm (.fin k p d) (.inf n) = infResult f n := by
  simp [fAdd, fAddE, fEncode_inf h8, sigFlag_inf, sigFlag_fin, sigFlag_nil, infResult]

theorem fMul_inf_inf : fMul f rm (.inf n) (.inf k) = infResult f (n != k) := by
  simp [fMul, fMulE, fEncode_inf h8, sigFlag_inf, sigFlag_nil, infResult]

theorem fMul_inf_fin {p : ℕ} (hp : p ≠ 0) :
    fMul f rm (.inf n) (.fin k p d) = infResult f (n != k) ∧ fMul f rm (.fin k p d) (.inf n) = infResult f (k != n) := by
  simp [fMul, fMulE, hp, fEncode_inf h8, sigFlag_inf, sigFlag_fin, sigFlag_nil, infResult, bne_comm]

theorem fFma_inf_fin {p : ℕ} (hp : p ≠ 0) (j : Bool) (r : ℕ) (c : ℤ) :
    fFma f rm (.inf n) (.fin k p d) (.fin j r c) = infResult f (n != k) := by
  simp [fFma, fMulE, hp, fAddE, fEncode_inf h8, sigFlag_inf, sigFlag_fin, sigFlag_nil, infResult]

theorem fFma_fin_inf (j : Bool) (r : ℕ) (c : ℤ) : fFma f rm (.fin k p d) (.fin j r c) (.inf n) = infResult f n := by
  simp [fFma, fMulE, fAddE, fEncode_inf h8, sigFlag_inf, sigFlag_fin, sigFlag_nil, infResult]

end Infinite

/-! ## A chunk of a matrix product (R227) -/

theorem finite_iff {v : FVal} : Claim.Finite v ↔ ∃ n m e, v = .fin n m e := by
  cases v <;> simp [Claim.Finite]

theorem not_finite_inf (n : Bool) : ¬Claim.Finite (.inf n) := fun h => h

/-- The exact sum of a chunk's finite products; a sum of 0 has the sign 0. -/
theorem foldl_fAddE_finite (ps : List FVal) (hps : ∀ v ∈ ps, Claim.Finite v) : ∀ (n : Bool) (m : ℕ) (e : ℤ), (m = 0 → n = false) →
    ∃ s u q, ps.foldl (fun x v => (fAddE 0 x v).1) (.fin n m e) = .fin s u q ∧
      signR s * (u * 2 ^ q) = signR n * (m * 2 ^ e) + (ps.map valueOf).sum ∧ (u = 0 → s = false) := by
  induction ps with
  | nil => exact fun n m e h0 => ⟨n, m, e, rfl, by simp, h0⟩
  | cons v ps ih =>
    intro n m e h0
    obtain ⟨k, p, d, rfl⟩ := finite_iff.mp (hps v List.mem_cons_self)
    obtain ⟨s, u, q, hadd, hval, hzero⟩ := fAddE_fin 0 n k m p e d
    have hs : u = 0 → s = false := by
      intro hu
      rw [hzero hu]
      by_cases hnk : n = k
      · rw [if_pos hnk]
        refine h0 ((signR_mul_mag_eq_zero_iff n m e).mp ?_)
        subst hnk
        have hm : (0 : ℝ) ≤ m * 2 ^ e := by positivity
        have hp : (0 : ℝ) ≤ p * 2 ^ d := by positivity
        rw [hu, Nat.cast_zero, zero_mul, mul_zero, ← mul_add, eq_comm, mul_eq_zero, or_iff_right (signR_ne_zero n)] at hval
        rw [(by linarith : (m * 2 ^ e : ℝ) = 0), mul_zero]
      · rw [if_neg hnk]
        rfl
    obtain ⟨s', u', q', hfold, hval', hs'⟩ := ih (fun v hv => hps v (List.mem_cons_of_mem _ hv)) s u q hs
    refine ⟨s', u', q', ?_, ?_, hs'⟩
    · rw [List.foldl_cons, hadd, hfold]
    · rw [hval', hval, List.map_cons, List.sum_cons, valueOf_fin, add_assoc]

/-- An infinite sum stays infinite under finite values and infinities of its sign. -/
theorem foldl_fAddE_inf (n : Bool) (ps : List FVal) (hps : ∀ v ∈ ps, Claim.Finite v ∨ v = .inf n) :
    ps.foldl (fun x v => (fAddE 0 x v).1) (.inf n) = .inf n := by
  induction ps with
  | nil => rfl
  | cons v ps ih =>
    have hstep : (fAddE 0 (.inf n) v).1 = .inf n := by
      rcases hps v List.mem_cons_self with hfin | rfl
      · obtain ⟨k, p, d, rfl⟩ := finite_iff.mp hfin
        rfl
      · simp [fAddE]
    rw [List.foldl_cons, hstep]
    exact ih fun v hv => hps v (List.mem_cons_of_mem _ hv)

theorem foldl_fAddE_of_inf_mem {n : Bool} {ps : List FVal} (hps : ∀ v ∈ ps, Claim.Finite v ∨ v = .inf n) (hmem : .inf n ∈ ps) :
    ∀ (k : Bool) (m : ℕ) (e : ℤ), ps.foldl (fun x v => (fAddE 0 x v).1) (.fin k m e) = .inf n := by
  induction ps with
  | nil => simp at hmem
  | cons v ps ih =>
    intro k m e
    have hrest := fun v hv => hps v (List.mem_cons_of_mem _ hv)
    rw [List.foldl_cons]
    rcases hps v List.mem_cons_self with hfin | rfl
    · obtain ⟨j, p, d, rfl⟩ := finite_iff.mp hfin
      obtain ⟨s, u, q, hadd, -, -⟩ := fAddE_fin 0 k j m p e d
      rw [hadd]
      exact ih hrest (by simpa using hmem) s u q
    · exact foldl_fAddE_inf n ps hrest

/-- Whether a chunk has a NaN product or infinities of both signs. -/
def BadChunk (ps : List FVal) : Prop := (∃ v ∈ ps, v.isNan = true) ∨ (.inf true ∈ ps ∧ .inf false ∈ ps)

theorem floatChunk_of_bad (f : Fmt) (acc : ℕ) {ps : List FVal} (h : BadChunk ps) : floatChunk f acc ps = nanCode f := by
  have hbad : (ps.any (fun v => v.isNan) || (ps.contains (.inf true) && ps.contains (.inf false))) = true := by
    simpa [BadChunk] using h
  rw [floatChunk, hbad, if_pos rfl, fAdd_nan f 0 (.inr rfl)]

theorem floatChunk_of_not_bad (f : Fmt) (acc : ℕ) {ps : List FVal} (h : ¬BadChunk ps) :
    floatChunk f acc ps = (fAdd f 0 (fDecode f acc) (ps.foldl (fun x v => (fAddE 0 x v).1) (.fin false 0 0))).1 := by
  have hbad : (ps.any (fun v => v.isNan) || (ps.contains (.inf true) && ps.contains (.inf false))) = false := by
    rw [← Bool.not_eq_true]
    simpa [BadChunk] using h
  rw [floatChunk, hbad, if_neg (by simp)]

theorem not_badChunk_of_finite {ps : List FVal} {n : Bool} (h : ∀ v ∈ ps, Claim.Finite v ∨ v = .inf n) : ¬BadChunk ps := by
  rintro (⟨v, hv, hnan⟩ | ⟨ht, hf⟩)
  · rcases h v hv with hfin | rfl
    · obtain ⟨k, m, e, rfl⟩ := finite_iff.mp hfin
      cases hnan
    · cases hnan
  · have htrue := (h _ ht).resolve_left (not_finite_inf true)
    have hfalse := (h _ hf).resolve_left (not_finite_inf false)
    exact absurd (htrue.trans hfalse.symm) (by simp)

end Sys2Proof.Machine

/-! ## Float arithmetic -/

namespace Sys2Proof.Machine
open Claim

theorem isType_of_mem_wide {f : Fmt} (h : f ∈ wide) : IsType f :=
  isType_of_mem (List.mem_of_mem_take (i := 4) h)

theorem fb_le_of_mem_wide {f : Fmt} (h : f ∈ wide) : f.fb ≤ 78 := by
  simp only [wide, List.mem_cons, List.not_mem_nil, or_false] at h
  rcases h with rfl | rfl | rfl | rfl <;> decide

theorem f8a_of_mem_wide {f : Fmt} (h : f ∈ wide) : f.f8a = false := by
  simp only [wide, List.mem_cons, List.not_mem_nil, or_false] at h
  rcases h with rfl | rfl | rfl | rfl <;> rfl

theorem isNan_fDecode {f : Fmt} (hf : IsType f) {x : ℕ} (hx : x < 2 ^ (f.eb + f.fb + 1)) (h : IsNan f x) : (fDecode f x).isNan = true := by
  obtain ⟨s, hs, -⟩ := fDecode_of_isNan hf hx h
  rw [hs]
  rfl

/-- R218: a conversion between float types. -/
theorem convert_spec {f g : Fmt} (hf : IsType f) (hg : IsType g) (rm : Rm) {a : ℕ} (ha : a < 2 ^ (f.eb + f.fb + 1)) :
    (IsFin f a → Rounded g rm (signOf f a) (numberOf f a) (fEncode g rm (fDecode f a))) ∧
    (IsNan f a → fEncode g rm (fDecode f a) = (nanCode g, 0) ∧ (fDecode f a = .nan true ↔ IsSig f a)) ∧
    (IsInf f a → fEncode g rm (fDecode f a) =
      if g.f8a then (signed g (signOf f a) 0x7E, flNV) else (signed g (signOf f a) (infinity g), 0)) := by
  refine ⟨fun h => ?_, fun h => ⟨?_, fDecode_eq_nan_true_iff hf ha⟩, fun h => ?_⟩
  · obtain ⟨m, e, hd, hx⟩ := fDecode_of_isFin hf ha h
    rw [hd, hx]
    exact rounded_fEncode hg rm _ m e
  · obtain ⟨s, hd, -⟩ := fDecode_of_isNan hf ha h
    rw [hd, fEncode_nan]
  · rw [fDecode_of_isInf ha h]
    cases h8 : g.f8a
    · exact fEncode_inf h8 rm _
    · simp only [fEncode, h8, if_true, Fmt.maxCode]
      rfl

theorem floatChunk_finite {f : Fmt} (hf : IsType f) {acc : ℕ} (hacc : acc < 2 ^ (f.eb + f.fb + 1)) {ps : List FVal} (hfin : IsFin f acc)
    (hps : ∀ v ∈ ps, Claim.Finite v) : ∃ fl, Rounded f 0 false (numberOf f acc + (ps.map valueOf).sum) (floatChunk f acc ps, fl) := by
  obtain ⟨m, e, hd, hx⟩ := fDecode_of_isFin hf hacc hfin
  obtain ⟨s, u, q, hfold, hval, hzero⟩ := foldl_fAddE_finite ps hps false 0 0 fun _ => rfl
  have hsum : signR s * (u * (2 : ℝ) ^ q) = (ps.map valueOf).sum := by simpa using hval
  rw [floatChunk_of_not_bad f acc (not_badChunk_of_finite (n := false) fun v hv => .inl (hps v hv)), hfold, hd, hx, ← hsum]
  refine ⟨_, rounded_congr_zero (fun h0 => ?_) (rounded_fAdd hf 0 (signOf f acc) s m u e q)⟩
  by_cases hs : signOf f acc = s
  · rw [if_pos hs]
    rw [hs, ← mul_add, mul_eq_zero, or_iff_right (signR_ne_zero s)] at h0
    have hm : (0 : ℝ) ≤ m * 2 ^ e := by positivity
    have hu : (0 : ℝ) ≤ u * 2 ^ q := by positivity
    rw [hs]
    refine hzero ((signR_mul_mag_eq_zero_iff s u q).mp ?_)
    rw [(by linarith : (u * 2 ^ q : ℝ) = 0), mul_zero]
  · rw [if_neg hs]
    rfl

theorem floatChunk_inf {f : Fmt} (hf : IsType f) (h8 : f.f8a = false) {acc : ℕ} (hacc : acc < 2 ^ (f.eb + f.fb + 1)) {ps : List FVal} {n : Bool}
    (hfin : IsFin f acc) (hps : ∀ v ∈ ps, Claim.Finite v ∨ v = .inf n) (hmem : .inf n ∈ ps) :
    floatChunk f acc ps = signed f n (infinity f) := by
  obtain ⟨m, e, hd, -⟩ := fDecode_of_isFin hf hacc hfin
  rw [floatChunk_of_not_bad f acc (not_badChunk_of_finite hps), foldl_fAddE_of_inf_mem hps hmem, hd, (fAdd_inf_fin h8 0 n _ m e).2]
  rfl

/-- R216: a fused product-sum with a NaN operand. -/
theorem fFma_of_isNan {f : Fmt} (hf : IsType f) (rm : Rm) {a b c : ℕ} (ha : a < 2 ^ (f.eb + f.fb + 1)) (hb : b < 2 ^ (f.eb + f.fb + 1))
    (hc : c < 2 ^ (f.eb + f.fb + 1)) (h : IsNan f a ∨ IsNan f b ∨ IsNan f c) :
    (fFma f rm (fDecode f a) (fDecode f b) (fDecode f c)).1 = nanCode f ∧
      ((∃ x ∈ [a, b, c], IsSig f x) → (fFma f rm (fDecode f a) (fDecode f b) (fDecode f c)).2 = flNV) := by
  obtain ⟨hnan, hsig⟩ := fFma_nan f rm (h.imp (isNan_fDecode hf ha) (.imp (isNan_fDecode hf hb) (isNan_fDecode hf hc)))
  refine ⟨hnan, fun ⟨x, hx, hs⟩ => hsig ?_⟩
  have hmem : fDecode f x ∈ [a, b, c].map (fDecode f) := List.mem_map_of_mem hx
  have hlt : x < 2 ^ (f.eb + f.fb + 1) := by
    simp only [List.mem_cons, List.not_mem_nil, or_false] at hx
    rcases hx with rfl | rfl | rfl <;> assumption
  rwa [(fDecode_eq_nan_true_iff hf hlt).mpr hs] at hmem

/-- R216: an infinity times a number that is not 0, alone and with an addend. -/
theorem mul_fma_inf {f : Fmt} (hf : IsType f) (h8 : f.f8a = false) (rm : Rm) (sa sb : Bool) {p : ℕ} (d : ℤ) (hp : p ≠ 0) {c : ℕ}
    (hc : c < 2 ^ (f.eb + f.fb + 1)) :
    fMul f rm (.inf sa) (.fin sb p d) = (signed f (sa != sb) (infinity f), 0) ∧
      fMul f rm (.fin sb p d) (.inf sa) = (signed f (sb != sa) (infinity f), 0) ∧
      (IsInf f c → signOf f c ≠ (sa != sb) → Invalid f (fFma f rm (.inf sa) (.fin sb p d) (fDecode f c))) ∧
      (IsFin f c → fFma f rm (.inf sa) (.fin sb p d) (fDecode f c) = (signed f (sa != sb) (infinity f), 0)) := by
  obtain ⟨hmul, hmul'⟩ := fMul_inf_fin h8 rm sa sb d hp
  refine ⟨hmul, hmul', fun hic hsign => ?_, fun hfc => ?_⟩
  · rw [fDecode_of_isInf hc hic]
    exact fFma_inf_opp rm sa sb d hp hsign
  · obtain ⟨r, j, hdc, -⟩ := fDecode_of_isFin hf hc hfc
    rw [hdc]
    exact fFma_inf_fin h8 rm sa sb d hp _ r j

/-- R216: two infinities. -/
theorem inf_inf_spec {f : Fmt} (h8 : f.f8a = false) (rm : Rm) (sa sb : Bool) :
    (sa = sb → fAdd f rm (.inf sa) (.inf sb) = (signed f sa (infinity f), 0) ∧ Invalid f (fSub f rm (.inf sa) (.inf sb))) ∧
      (sa ≠ sb → Invalid f (fAdd f rm (.inf sa) (.inf sb)) ∧ fSub f rm (.inf sa) (.inf sb) = (signed f sa (infinity f), 0)) ∧
      fMul f rm (.inf sa) (.inf sb) = (signed f (sa != sb) (infinity f), 0) ∧ Invalid f (fDiv f rm (.inf sa) (.inf sb)) := by
  refine ⟨fun h => ?_, fun h => ?_, fMul_inf_inf h8 rm sa sb, fDiv_inf_inf rm sa sb⟩
  · subst h
    exact ⟨fAdd_inf_same h8 rm sa, fAdd_inf_opp rm sa (!sa) (by simp)⟩
  · obtain rfl : sb = !sa := by
      cases sa <;> cases sb <;> simp at h ⊢
    exact ⟨fAdd_inf_opp rm sa (!sa) h, by simpa [fSub, FVal.neg, infResult] using fAdd_inf_same h8 rm sa⟩

/-- Settles O60: `roundRat` rounds an exact fraction once, through the rounding of reals to integers at the place of the last bit; the
operations on finite values give it their exact result, the square root one that no rounding tells from it; and NaNs and infinities follow
R216 by the cases of the operations. -/
theorem floatArithmetic : Obligations.FloatArithmetic := by
  unfold Obligations.FloatArithmetic
  refine ⟨by decide, fun f hf g hg rm a ha => convert_spec (isType_of_mem hf) (isType_of_mem hg) rm ha, ?_, ?_, ?_, ?_⟩
  · intro f hw rm a b c ha hb hc hfa hfb hfc
    have hf := isType_of_mem_wide hw
    obtain ⟨m, e, hda, hxa⟩ := fDecode_of_isFin hf ha hfa
    obtain ⟨p, d, hdb, hxb⟩ := fDecode_of_isFin hf hb hfb
    obtain ⟨r, j, hdc, hxc⟩ := fDecode_of_isFin hf hc hfc
    simp only [hda, hdb, hdc, hxa, hxb, hxc]
    refine ⟨rounded_fAdd hf rm .., rounded_fSub hf rm .., rounded_fMul hf rm .., rounded_fFma hf rm .., fun hy => ?_, fun hy hx => ?_,
      fun hy hx => ?_, rounded_fSqrt hf rm _ _ _ (fb_le_of_mem_wide hw), fSqrt_neg f rm⟩
    · exact rounded_fDiv hf rm _ _ _ _ _ _ (Nat.pos_of_ne_zero (mt (signR_mul_mag_eq_zero_iff _ p d).mpr hy))
    · rw [(signR_mul_mag_eq_zero_iff _ p d).mp hy]
      exact fDiv_zero f rm _ _ (mt (signR_mul_mag_eq_zero_iff _ m e).mpr hx) e d
    · rw [(signR_mul_mag_eq_zero_iff _ p d).mp hy, (signR_mul_mag_eq_zero_iff _ m e).mp hx]
      exact fDiv_zero_zero f rm _ _ e d
  · intro f hw rm a b c ha hb hc
    have hf := isType_of_mem_wide hw
    refine ⟨fun h => ?_, fun h => ?_, fun h => ?_⟩
    · have hnan : (fDecode f a).isNan = true ∨ (fDecode f b).isNan = true := h.imp (isNan_fDecode hf ha) (isNan_fDecode hf hb)
      have hflags := nanFlags_sigFlag hf (l := [a, b]) (by simp [ha, hb])
      simp only [fAdd_nan f rm hnan, fSub_nan f rm hnan, fMul_nan f rm hnan, fDiv_nan f rm hnan, List.forall_mem_cons, List.not_mem_nil]
      exact ⟨⟨trivial, hflags⟩, ⟨trivial, hflags⟩, ⟨trivial, hflags⟩, ⟨trivial, hflags⟩, fun _ h => h.elim⟩
    · have hflags := nanFlags_sigFlag hf (l := [a]) (by simp [ha])
      obtain ⟨s, hs, -⟩ := fDecode_of_isNan hf ha h
      rw [List.map_singleton, hs] at hflags
      simp only [hs, fSqrt_nan]
      exact ⟨trivial, hflags⟩
    · exact fFma_of_isNan hf rm ha hb hc h
  · intro f hw rm a b c ha hb hc
    have hf := isType_of_mem_wide hw
    have h8 := f8a_of_mem_wide hw
    refine ⟨fun hia hib => ?_, fun hia hfb => ?_, fun hia => ?_⟩
    · simp only [fDecode_of_isInf ha hia, fDecode_of_isInf hb hib]
      exact inf_inf_spec h8 rm _ _
    · obtain ⟨p, d, hdb, hxb⟩ := fDecode_of_isFin hf hb hfb
      simp only [fDecode_of_isInf ha hia, hdb, hxb]
      generalize signOf f a = sa
      generalize signOf f b = sb
      refine ⟨(fAdd_inf_fin h8 rm sa sb p d).1, (fAdd_inf_fin h8 rm sa sb p d).2, (fAdd_inf_fin h8 rm sa (!sb) p d).1,
        (fAdd_inf_fin h8 rm (!sa) sb p d).2, rfl, rfl, fun hzero => ?_, fun hne => ?_, fun hfc => ?_⟩
      · rw [(signR_mul_mag_eq_zero_iff sb p d).mp hzero]
        obtain ⟨hmul, hmul'⟩ := fMul_inf_zero rm sa sb d (f := f)
        obtain ⟨hfma, hfma'⟩ := fFma_inf_zero rm sa sb d (f := f) (fDecode f c)
        exact ⟨hmul, hmul', hfma, hfma'⟩
      · exact mul_fma_inf hf h8 rm sa sb d (mt (signR_mul_mag_eq_zero_iff sb p d).mpr hne) hc
      · obtain ⟨r, j, hdc, -⟩ := fDecode_of_isFin hf hc hfc
        rw [hdc]
        exact fFma_fin_inf h8 rm sa sb p d _ r j
    · simp only [fDecode_of_isInf ha hia]
      exact fSqrt_inf rm _
  · intro f hmem acc ps hacc
    have hw : f ∈ wide := List.mem_of_mem_drop (i := 2) hmem
    have hf := isType_of_mem_wide hw
    exact ⟨floatChunk_finite hf hacc, floatChunk_of_bad f acc, fun n => floatChunk_inf hf (f8a_of_mem_wide hw) hacc⟩

end Sys2Proof.Machine


/-! ## A copy that waits for the operand range of a matrix operation (R123, R332) -/

namespace Sys2Proof.Machine

/-- A tensor of one bfloat16 element at stash address 0. -/
def operandEntry : Tid := { Claim.noTid with ctx := 1 }

/-- Command 1 of group 1: a matrix product of core 0 that has started, over operands that begin at stash address 0. -/
def startedProduct : Cmd :=
  { id := 1, cls := 2, num := 0, uid := 1, gid := 0, ctx := 1, task := 1, core := 0, kind := .mm 0 false false operandEntry operandEntry operandEntry,
    node := none, st := .started, cancel := false, pts := 0, result := [] }

/-- The copy's four bytes, which go to stash address 0. -/
def heldWord : Piece :=
  { thread := 0, space := 1, place := 0, size := 4, val := 5, exp := 0, shown := 0, gen := 0, mode := 0, mbf := 0, bound := [] }

/-- Command 2 of group 1: a copy of four bytes to stash address 0, all of whose work is done but for its held bytes. -/
def waitingCopy : Cmd :=
  { id := 2, cls := 0, num := 0, uid := 1, gid := 0, ctx := 1, task := 1, core := 0, kind := .copy lowStash lowStash 4,
    node := none, st := .writing, cancel := false, pts := 0, result := [], pos := 1, held := [heldWord] }

/-- The operand range of the product on core 0 holds back the copy; the group's counter of class 0 counts the copy. -/
def copyInRange : State :=
  { State.reset with
    nextId := 3, tasks := [(1, loadTask)], groups := [(1, { loadGroup with ec := [(0, 1)] })]
    cmds := [(1, startedProduct), (2, waitingCopy)]
    cores := [(0, { Core.reset with ranges := [{ cmd := 1, slot := 0, base := 0, len := 4 }] })] }

/-- The operand range holds the copy's bytes back, as R332 has it. -/
theorem inRange_copyInRange : inRange copyInRange 0 heldWord = true := by decide +kernel

/-- When the operands are consumed, the copy goes on and completes: its group's counter falls. -/
theorem exec_operandsConsumed_copyInRange : ∃ t, exec (.operandsConsumed 1) copyInRange = .next t ∧ fget 0 (getG t 1).ec 0 = 0 :=
  ⟨_, rfl, by decide +kernel⟩

/-- Refutes O43, in the clause of `operandsConsumed`: the statement has the groups unchanged. But the ranges that the operation gives up may
hold back a write of an engine command, which then goes on (R123, R332); where it was the command's last, the command completes in the same
step and lowers the counter of its group (R325). In `copyInRange` a copy waits so. -/
theorem not_engineEvents : ¬ Obligations.EngineEvents := by
  intro h
  obtain ⟨t', ht', hec⟩ := exec_operandsConsumed_copyInRange
  obtain ⟨-, -, hmatrix, -⟩ := h copyInRange
  obtain ⟨-, hconsumed, -, -⟩ := hmatrix 1 startedProduct rfl
  obtain ⟨t, ht, -, -, hgroups, -⟩ := hconsumed rfl
  obtain rfl : t' = t := by simpa [ht'] using ht
  unfold getG at hec
  rw [hgroups] at hec
  exact absurd hec (by decide)

end Sys2Proof.Machine


/-! ## A vqnt that reads no stash word, of a group with task number 0 (R217) -/

namespace Sys2Proof.Machine

/-- Entry 5 of context 1 is of f8 elements and has neither scale nor smoothing values; the group's v2 holds 1/3 in each thread, to nearest,
and v3 the index 0. The group names task 0. -/
def plainQuantise : State :=
  { State.reset with
    nextId := 2, cur := { uid := 1, entry := 0, tick := 0 }
    groups := [(1, { loadGroup with task := 0, v := [(2, .u 0x3EAAAAAB), (3, .u 0)] })]
    cores := [(0, { Core.reset with tids := [(5, { Claim.noTid with ctx := 1 })] })] }

/-- No code of the element format is 1/3: the quantised value is inexact, which task 0 gets as a flag. -/
theorem exec_vqnt_plainQuantise : ∃ t, exec (.vqnt 0 0 5 2 4) plainQuantise = .next t ∧ (getT t 0).fflags ≠ (getT plainQuantise 0).fflags :=
  ⟨_, rfl, by decide +kernel⟩

/-- The instruction meets what `Obligations.QuantiseInstruction` asks of one that is to complete. -/
theorem plainQuantise_usable : Claim.Usable (curG plainQuantise) [(2, true), (4, false)] ∧
    Claim.Room plainQuantise 0 (4, false) (Claim.shapeBy (fun _ => false) [0, 0]) := by
  unfold Claim.Usable Claim.Named Claim.Filled Claim.Room
  decide +kernel

/-- Refutes O23, in the clause of FFLAGS: the statement has the flags of a group with task number 0 go nowhere, as where the instruction reads
a scale or a smoothing value and performs as an operation. Where its entry has neither, the instruction completes at issue and raises its
flags in the group's task whatever its number (`raiseFlags`): in `plainQuantise` task 0 gets NX. The statement speaks of every state; tasks are
numbered from 1, so that no run from reset has such a group. -/
theorem not_quantiseInstruction : ¬ Obligations.QuantiseInstruction := by
  intro h
  obtain ⟨husable, hroom⟩ := plainQuantise_usable
  obtain ⟨t', ht', hraised⟩ := exec_vqnt_plainQuantise
  obtain ⟨-, hentry⟩ := h plainQuantise (.vqnt 0 0 5 2 4) (by decide) _ rfl rfl husable rfl
  obtain ⟨-, hfits⟩ := hentry { Claim.noTid with ctx := 1 } rfl rfl
  obtain ⟨-, hcompletes⟩ := hfits (.inl rfl)
  obtain ⟨t, ht, -, -, -, -, -, -, hflags⟩ := hcompletes (by decide +kernel) rfl (by decide) (by decide) hroom (by simp [Claim.quantReads, Claim.noTid])
  obtain rfl : t' = t := Host.Outcome.next.inj (ht'.symm.trans ht)
  have hkept : getT t' 0 = getT plainQuantise 0 := (hflags 0).trans (if_neg fun ⟨_, htask⟩ => htask rfl)
  exact hraised (by rw [hkept])

end Sys2Proof.Machine


/-! ## Vector compares (R281)

### Comparisons of codes -/

namespace Sys2Proof.Machine

/-- The integer that orders the codes of a type whose sign bit weighs `w`, with −0 = +0. -/
def codeOrd (w v : ℕ) : ℤ := if v < w then v else -((v : ℤ) - w)

section
variable {f : Fmt} {x y : ℕ}

theorem fKey_cases (hx : x < 2 * f.sign) :
    (x < f.sign ∧ x % f.sign = x ∧ fKey f x = x) ∨ (f.sign ≤ x ∧ x % f.sign = x - f.sign ∧ fKey f x = -((x - f.sign : ℕ) : ℤ) - 1) := by
  unfold fKey
  rw [Nat.mod_eq_of_lt hx]
  rcases Nat.lt_or_ge x f.sign with h | h
  · rw [if_neg (by omega), Nat.mod_eq_of_lt h]
    exact .inl ⟨h, rfl, rfl⟩
  · have hmod : x % f.sign = x - f.sign := by rw [Nat.mod_eq_sub_mod h, Nat.mod_eq_of_lt (by omega)]
    rw [if_pos h, hmod]
    exact .inr ⟨h, rfl, rfl⟩

theorem fEq_eq (hx : x < 2 * f.sign) (hy : y < 2 * f.sign) : fEq f x y = decide (codeOrd f.sign x = codeOrd f.sign y) := by
  unfold fEq codeOrd
  rw [← Bool.decide_and, ← Bool.decide_or]
  refine decide_eq_decide.mpr ?_
  rcases fKey_cases hx with ⟨hx, hx0, hxk⟩ | ⟨hx, hx0, hxk⟩ <;> rcases fKey_cases hy with ⟨hy, hy0, hyk⟩ | ⟨hy, hy0, hyk⟩ <;>
    rw [hx0, hy0, hxk, hyk] <;> split_ifs <;> omega

theorem fLt_eq (hx : x < 2 * f.sign) (hy : y < 2 * f.sign) : fLt f x y = decide (codeOrd f.sign x < codeOrd f.sign y) := by
  unfold fLt codeOrd
  rw [← Bool.decide_and, ← decide_not, ← Bool.decide_and]
  refine decide_eq_decide.mpr ?_
  rcases fKey_cases hx with ⟨hx, hx0, hxk⟩ | ⟨hx, hx0, hxk⟩ <;> rcases fKey_cases hy with ⟨hy, hy0, hyk⟩ | ⟨hy, hy0, hyk⟩ <;>
    rw [hx0, hy0, hxk, hyk] <;> split_ifs <;> omega

theorem mod_lt_two_pow_iff (x n : ℕ) : x % 2 ^ (n + 1) < 2 ^ n ↔ x.testBit n = false := by
  have hlow := Nat.mod_lt x (show 0 < 2 ^ n by positivity)
  rw [Nat.testBit_eq_decide_div_mod_eq, Nat.pow_succ, Nat.mod_mul]
  rcases Nat.mod_two_eq_zero_or_one (x / 2 ^ n) with h | h <;> simp [h, hlow]

/-- A NaN lies above infinity among the codes without sign. -/
theorem infCode_lt_iff {c : ℕ} (hc : c / 2 ^ f.fb < 2 ^ f.eb) : f.infCode < c ↔ c / 2 ^ f.fb = 2 ^ f.eb - 1 ∧ c % 2 ^ f.fb ≠ 0 := by
  have hcode := Nat.div_add_mod c (2 ^ f.fb)
  unfold Fmt.infCode
  rw [mul_comm]
  constructor
  · intro h
    have he : 2 ^ f.eb - 1 ≤ c / 2 ^ f.fb := by
      rw [Nat.le_div_iff_mul_le (by positivity), mul_comm]
      exact h.le
    obtain he' : c / 2 ^ f.fb = 2 ^ f.eb - 1 := by omega
    rw [he'] at hcode
    exact ⟨he', by omega⟩
  · rintro ⟨he, h⟩
    rw [he] at hcode
    omega

/-- A NaN signals where its quiet bit is clear. -/
theorem fDecode_eq_nan (h8 : f.f8a = false) (hfb : 0 < f.fb) {sig : Bool} :
    fDecode f x = .nan sig ↔ f.infCode < x % f.sign ∧ sig = !x.testBit (f.fb - 1) := by
  have hmod : x % (2 * f.sign) % f.sign = x % f.sign := Nat.mod_mul_left_mod x 2 f.sign
  have hinf := infCode_lt_iff (f := f) (c := x % f.sign) (by
    rw [Nat.div_lt_iff_lt_mul (by positivity), ← pow_add]
    exact Nat.mod_lt _ (by unfold Fmt.sign; positivity))
  have hquiet : decide (x % f.sign % 2 ^ f.fb < 2 ^ (f.fb - 1)) = !x.testBit (f.fb - 1) := by
    have hfrac : x % f.sign % 2 ^ f.fb = x % 2 ^ f.fb := Nat.mod_mod_of_dvd x (pow_dvd_pow 2 (Nat.le_add_left f.fb f.eb))
    have htop := mod_lt_two_pow_iff x (f.fb - 1)
    rw [Nat.sub_add_cancel hfb] at htop
    rw [hfrac]
    simp [htop]
  unfold fDecode
  simp only [hmod, h8, Bool.false_and, Bool.false_eq_true, if_false, Bool.not_false, Bool.true_and, decide_eq_true_eq]
  rw [hinf, ← hquiet]
  split_ifs with he hr hz
  · simp [hr]
  · simp [he, hr, eq_comm]
  · simp [he]
  · simp [he]

theorem isNan_eq (h8 : f.f8a = false) (hfb : 0 < f.fb) : (fDecode f x).isNan = decide (f.infCode < x % f.sign) := by
  by_cases h : f.infCode < x % f.sign
  · rw [(fDecode_eq_nan h8 hfb).mpr ⟨h, rfl⟩, decide_eq_true h]
    rfl
  · rw [decide_eq_false h]
    cases hd : fDecode f x with
    | nan sig => exact absurd ((fDecode_eq_nan h8 hfb).mp hd).1 h
    | inf | fin => rfl

theorem signals_eq (h8 : f.f8a = false) (hfb : 0 < f.fb) :
    (fDecode f x == .nan true) = (decide (f.infCode < x % f.sign) && !x.testBit (f.fb - 1)) := by
  rw [Bool.eq_iff_iff, beq_iff_eq, fDecode_eq_nan h8 hfb]
  simp

end

section
variable {f : Fmt} {n : ℕ}

theorem cond_cases (c : BitVec 3) : c = 0 ∨ c = 1 ∨ c = 2 ∨ c = 3 ∨ c = 4 ∨ c = 5 ∨ c = 6 ∨ c = 7 := by
  revert c
  decide

theorem lt_or_eq (a b : ℤ) : (decide (a < b) || decide (a = b)) = decide (a ≤ b) := by
  rw [← Bool.decide_or]
  exact decide_eq_decide.mpr le_iff_lt_or_eq.symm

theorem lt_or_eq' (a b : ℤ) : (decide (b < a) || decide (a = b)) = decide (b ≤ a) := by
  rw [← lt_or_eq b a]
  exact congrArg _ (decide_eq_decide.mpr eq_comm)

/-- A condition on two codes of n bits, and NV of its comparison. -/
theorem fCond_eq (h8 : f.f8a = false) (hfb : 0 < f.fb) (hn : f.sign = 2 ^ (n - 1)) (c : BitVec 3) {x y : ℕ} (hx : x < 2 * f.sign)
    (hy : y < 2 * f.sign) :
    fCond f c x y = (Claim.holdsF n f.infCode c x y, Claim.nvF n f.infCode (f.fb - 1) c x y) := by
  have hord : ∀ v : ℕ, (if v < f.sign then (v : ℤ) else -((v : ℤ) - (2 : ℤ) ^ (n - 1))) = codeOrd f.sign v := fun v => by
    rw [codeOrd, hn, Nat.cast_pow, Nat.cast_ofNat]
  unfold fCond sigFlag Claim.holdsF Claim.nvF
  simp only [List.any_cons, List.any_nil, Bool.or_false, isNan_eq h8 hfb, signals_eq h8 hfb, ← hn, hord, fEq_eq hx hy, fLt_eq hx hy, fLt_eq hy hx,
    lt_or_eq, lt_or_eq']
  generalize decide (f.infCode < x % f.sign) = nx
  generalize decide (f.infCode < y % f.sign) = ny
  generalize codeOrd f.sign x = ox
  generalize codeOrd f.sign y = oy
  refine Prod.ext ?_ ?_
  · cases hun : nx || ny <;> rcases cond_cases c with rfl | rfl | rfl | rfl | rfl | rfl | rfl | rfl <;> simp [Claim.holdsZ]
  · have hflag : ∀ p q : Bool, (if p then flNV else if q then flNV else 0) = if q || p then 0b010000 else 0 := by decide
    rw [Bool.and_assoc (nx || ny)]
    exact hflag _ _

end

end Sys2Proof.Machine

/-! ### The instruction -/

namespace Sys2Proof.Machine

theorem getLsbD_foldl_withBit {l : List Nat} (hl : ∀ j ∈ l, j < 32) (w : Word) (k : Nat) :
    (l.foldl (fun m t => withBit m t true) w).getLsbD k = (decide (k ∈ l) || w.getLsbD k) := by
  induction l generalizing w with
  | nil => simp
  | cons j l ih =>
    rw [List.foldl_cons, ih (fun i hi => hl i (List.mem_cons_of_mem j hi)), withBit_getLsbD w j k true (hl j List.mem_cons_self)]
    by_cases hk : k = j <;> simp [hk]

theorem getLsbD_maskOf {l : List Nat} (hl : ∀ j ∈ l, j < 32) (k : Nat) : (maskOf l).getLsbD k = decide (k ∈ l) := by
  rw [maskOf, getLsbD_foldl_withBit hl]
  simp

/-! What a compare leaves. -/

@[simp] theorem raiseFlags_groups (s : State) (fl : BitVec 6) : (raiseFlags s fl).groups = s.groups := by
  unfold raiseFlags
  split_ifs <;> rfl

@[simp] theorem raiseFlags_cur (s : State) (fl : BitVec 6) : (raiseFlags s fl).cur = s.cur := by
  unfold raiseFlags
  split_ifs <;> rfl

@[simp] theorem getG_raiseFlags (s : State) (fl : BitVec 6) (u : Nat) : getG (raiseFlags s fl) u = getG s u := by
  rw [getG, raiseFlags_groups, getG]

@[simp] theorem curG_raiseFlags (s : State) (fl : BitVec 6) : curG (raiseFlags s fl) = curG s := by
  rw [curG, raiseFlags_cur, getG_raiseFlags, curG]

theorem advance_raiseFlags_modCur (i : Instr) (s : State) (h : Group → Group) (fl : BitVec 6) :
    let t := advance i (raiseFlags (modCur s h) fl)
    t = { s with groups := t.groups, tasks := t.tasks } := by
  unfold raiseFlags
  split_ifs <;> rfl

theorem getT_raiseFlags (s : State) (fl : BitVec 6) (k : Nat) :
    getT (raiseFlags s fl) k = if k = (curG s).task then { getT s k with fflags := (getT s k).fflags ||| fl } else getT s k := by
  unfold raiseFlags
  by_cases hfl : fl = 0
  · rw [if_pos hfl, hfl, show (getT s k).fflags ||| (0 : BitVec 6) = (getT s k).fflags from BitVec.or_zero, ite_self]
  · rw [if_neg hfl, modT, getT_setT]
    split_ifs with hk
    · rw [hk]
    · rfl

section
variable {s : State} {i : Instr} {md : Nat} {v : Word} {fl : BitVec 6}

/-- What an instruction leaves that writes a mask register, raises flags and moves on. -/
theorem maskFlags_advance (hlen : (codeOf i).len = 4) (hmd : md ≠ 0) :
    let t := advance i (raiseFlags (modCur s fun g => mPut g md v) fl)
    Claim.OnlyGroupFlags s t fl ∧ Claim.Past s t 4 ∧ Claim.MaskWritten s t md v.getLsbD := by
  intro t
  have hstate : t = { s with groups := t.groups, tasks := t.tasks } := advance_raiseFlags_modCur i s _ fl
  have hgroup : curG (raiseFlags (modCur s fun g => mPut g md v) fl) = mPut (curG s) md v := by rw [curG_raiseFlags, curG_modCur]
  have hcur : curG t = { mPut (curG s) md v with split := (curG t).split } := by
    rw [show curG t = _ from curG_advance _ _, hgroup]
    rfl
  have hread : ∀ r, mReg (curG t) r = if r = md then v else mReg (curG s) r := fun r => by
    rw [hcur]
    exact (mReg_mPut _ _ _ _).trans (by simp [hmd])
  refine ⟨⟨hstate, fun u hu => ?_, ?_, fun k => ?_⟩, ?_, fun k _ => ?_, fun r hr => ?_, ?_⟩
  · rw [show getG t u = _ from getG_advance_ne i _ u ((raiseFlags_cur _ _).symm ▸ hu), getG_raiseFlags]
    exact getG_modCur_ne s _ u hu
  · rw [hstate]
    exact fun _ => ⟨rfl, rfl⟩
  · refine (getT_raiseFlags (modCur s fun g => mPut g md v) fl k).trans ?_
    rw [curG_modCur, mPut_rest]
    rfl
  · exact past_advance hlen (raiseFlags_cur _ _) (by rw [hgroup, mPut_split])
  · rw [hread, if_pos rfl]
  · rw [hread, if_neg hr]
  · rw [hcur, mPut_rest]

end

/-- The values that a source name, or the pair that begins at it, is read as. -/
def sourceAt (g : Group) (r : Nat) (pair : Bool) (k : Nat) : DWord := srcAt (vReg g r, if pair then vReg g (r + 1) else .u 0) k

section
variable {s : State} {i : Instr} {m : BitVec 2} {x y : Src} {md : BitVec 3} {f : DWord → DWord → Bool × Fl} {c : Nat → Bool × Fl}

/-- The word that a compare writes: the conditions of the active threads, and the old bits elsewhere. -/
def compared (s : State) (m : BitVec 2) (md : BitVec 3) (c : Nat → Bool × Fl) : Word :=
  (mReg (curG s) md.toNat &&& ~~~activeMask (curG s) (curF s) m.toNat) ||| maskOf ((Claim.activeList s m.toNat).filter fun t => (c t).1)

theorem getLsbD_compared {k : Nat} (hk : k < 32) :
    (compared s m md c).getLsbD k = if Claim.Active s m.toNat k then (c k).1 else (mReg (curG s) md.toNat).getLsbD k := by
  have hlt : ∀ j ∈ (Claim.activeList s m.toNat).filter (fun t => (c t).1), j < 32 := fun j hj =>
    List.mem_range.mp (List.mem_of_mem_filter (List.mem_of_mem_filter hj))
  unfold compared
  rw [BitVec.getLsbD_or, BitVec.getLsbD_and, BitVec.getLsbD_not, getLsbD_maskOf hlt, activeMask_getLsbD s m.toNat hk]
  cases hact : Claim.Active s m.toNat k <;> simp [Claim.activeList, hk, hact]

/-- A compare whose sources can be read completes with each thread's condition in the mask, and all flags raised. -/
theorem compareOp_completes (hwf : i.WellFormed) (hlen : (codeOf i).len = 4) (hmd : md ≠ 0) (hx : Usable (curG s) x.reg x.pair)
    (hy : Usable (curG s) y.reg y.pair)
    (hf : ∀ k, f (sourceAt (curG s) x.reg x.pair k) (sourceAt (curG s) y.reg y.pair k) = c k) :
    ∃ t, compareOp i m x y md f s = .next t ∧ Claim.OnlyGroupFlags s t (Claim.flagsOf s m.toNat fun k => (c k).2) ∧ Claim.Past s t 4 ∧
      Claim.MaskWritten s t md.toNat fun k => if Claim.Active s m.toNat k then (c k).1 else (mReg (curG s) md.toNat).getLsbD k := by
  have hmd' : md.toNat ≠ 0 := fun h => hmd (BitVec.eq_of_toNat_eq h)
  obtain ⟨honly, hpast, hbits, hrest⟩ := maskFlags_advance (s := s) (i := i) (v := compared s m md c)
    (fl := Claim.flagsOf s m.toNat fun k => (c k).2) hlen hmd'
  refine ⟨_, ?_, honly, hpast, fun k hk => (hbits k hk).trans (getLsbD_compared hk), hrest⟩
  have hregs : regsX (curG s) [(x.reg, x.pair), (y.reg, y.pair)] = .ok () := regsX_ok (by simp [hx, hy])
  unfold compareOp
  unfold sourceAt at hf
  simp only [checkField_ok hwf, hregs, Usable.readSrc hx, Usable.readSrc hy, ok_bind, hf]
  rw [threadsOf_activeMask]
  rfl

end

/-! The sources as numbers. -/

theorem usable_of_mem {g : Group} {l : List (Nat × Bool)} (h : Claim.Usable g l) {r : Nat × Bool} (hr : r ∈ l) : Usable g r.1 r.2 := by
  obtain ⟨⟨hlive, heven⟩, hfilled⟩ := h
  have hname : ∀ n ∈ (if r.2 then [r.1, r.1 + 1] else [r.1]), n < g.top ∧ n < g.nNames ∧ vIsEmpty g n = false := fun n hn => by
    have hmem : n ∈ Claim.namesOf l := List.mem_flatMap.mpr ⟨r, hr, hn⟩
    exact ⟨(hlive n hmem).2, (hlive n hmem).1, hfilled n hmem⟩
  refine ⟨hname r.1 (by split_ifs <;> simp), fun hpair => ⟨hname _ (by simp [hpair]), heven r hr hpair⟩⟩

section
variable {g : Group} {r : Nat}

theorem sourceAt_toNat_pair (k : Nat) : (sourceAt g r true k).toNat = Claim.laneNat g (r, true) k := by
  have happend : ∀ hi lo : Word, (hi ++ lo : DWord).toNat = lo.toNat + 2 ^ 32 * hi.toNat := fun hi lo => by
    rw [BitVec.toNat_append, Nat.shiftLeft_eq, ← Nat.mul_comm (2 ^ 32), ← Nat.two_pow_add_eq_or_of_lt lo.isLt, Nat.add_comm]
  exact happend _ _

theorem lo32_sourceAt (k : Nat) : (lo32 (sourceAt g r false k)).toNat = Claim.laneNat g (r, false) k :=
  congrArg BitVec.toNat (lo32_srcAt (vReg g r) k)

theorem sourceAt_mod (k : Nat) : (sourceAt g r false k).toNat % 2 ^ 32 = Claim.laneNat g (r, false) k := by
  rw [← lo32_sourceAt, lo32, BitVec.toNat_setWidth]

end

section
variable {n : ℕ} (c : BitVec 3) (a b : BitVec n)

theorem decide_le_eq (a b : ℤ) : decide (a ≤ b) = !decide (b < a) := by
  rw [← decide_not]
  exact decide_eq_decide.mpr not_lt.symm

theorem condI_eq {u : Bool} {x y : ℤ} (hlt : (if u then a.ult b else a.slt b) = decide (x < y)) (heq : (a == b) = decide (x = y)) :
    condI u c a b = Claim.holdsZ c x y := by
  unfold condI Claim.holdsZ
  rcases cond_cases c with rfl | rfl | rfl | rfl | rfl | rfl | rfl | rfl <;> simp [hlt, bne, heq, lt_or_eq, decide_le_eq]

theorem condI_unsigned : condI true c a b = Claim.holdsZ c a.toNat b.toNat :=
  condI_eq c a b (by simp [BitVec.ult]) (decide_eq_decide.mpr (by rw [Nat.cast_inj, BitVec.toNat_inj]))

theorem condI_signed (hn : 0 < n) : condI false c a b = Claim.holdsZ c (Claim.sgn n a.toNat) (Claim.sgn n b.toNat) := by
  rw [sgn_toNat a hn, sgn_toNat b hn]
  exact condI_eq c a b rfl (decide_eq_decide.mpr BitVec.toInt_inj.symm)

end

section
variable {s : State} {i : Instr} {m : BitVec 2} {b1 b2 : BitVec 1} {vs1 vs2 : BitVec 6} {md : BitVec 3} {f : DWord → DWord → Bool × Fl}
  {holds : Nat → Nat → Bool} {flags : Nat → Nat → BitVec 6}

/-- What O10 says of a compare of a form. -/
def Compares (s : State) (i : Instr) (x : Claim.CompareForm) : Prop :=
  let va := Claim.laneNat (curG s) x.a
  let vb := Claim.laneNat (curG s) x.b
  ∃ t, exec i s = .next t ∧ Claim.OnlyGroupFlags s t (Claim.flagsOf s x.m fun k => x.flags (va k) (vb k)) ∧ Claim.Past s t 4 ∧
    Claim.MaskWritten s t x.md fun k => if Claim.Active s x.m k then x.holds (va k) (vb k) else (mReg (curG s) x.md).getLsbD k

/-- A compare of 32-bit values or of pairs, whose condition is that of its form on the sources as numbers. -/
theorem compares_of {pair : Bool} (hwf : i.WellFormed) (hlen : (codeOf i).len = 4) (hmd : md ≠ 0)
    (hexec : exec i s = compareOp i m { reg := vs1.toNat, pair, bang := b1 == 1 } { reg := vs2.toNat, pair, bang := b2 == 1 } md f s)
    (husable : Claim.Usable (curG s) [(vs1.toNat, pair), (vs2.toNat, pair)])
    (hf : ∀ k, let x := Claim.laneNat (curG s) (vs1.toNat, pair) k
      let y := Claim.laneNat (curG s) (vs2.toNat, pair) k
      f (sourceAt (curG s) vs1.toNat pair k) (sourceAt (curG s) vs2.toNat pair k) = (holds x y, flags x y)) :
    Compares s i ⟨m.toNat, (vs1.toNat, pair), (vs2.toNat, pair), md.toNat, holds, flags⟩ := by
  unfold Compares
  rw [hexec]
  exact compareOp_completes (c := fun k => (holds (Claim.laneNat (curG s) (vs1.toNat, pair) k) (Claim.laneNat (curG s) (vs2.toNat, pair) k),
    flags (Claim.laneNat (curG s) (vs1.toNat, pair) k) (Claim.laneNat (curG s) (vs2.toNat, pair) k)))
    hwf hlen hmd (usable_of_mem husable (r := (vs1.toNat, pair)) (by simp)) (usable_of_mem husable (r := (vs2.toNat, pair)) (by simp)) hf

end

/-! The conditions of the forms. -/

section
variable {g : Group} {a b : Nat} {c : BitVec 3} (k : Nat)

theorem condI_singles (u : Bool) : condI u c (lo32 (sourceAt g a false k)) (lo32 (sourceAt g b false k)) =
    if u then Claim.holdsZ c (Claim.laneNat g (a, false) k) (Claim.laneNat g (b, false) k)
    else Claim.holdsZ c (Claim.sgn 32 (Claim.laneNat g (a, false) k)) (Claim.sgn 32 (Claim.laneNat g (b, false) k)) := by
  rw [← lo32_sourceAt, ← lo32_sourceAt]
  cases u with
  | false => exact condI_signed c _ _ (by decide)
  | true => exact condI_unsigned c _ _

theorem condI_pairs (u : Bool) : condI u c (sourceAt g a true k) (sourceAt g b true k) =
    if u then Claim.holdsZ c (Claim.laneNat g (a, true) k) (Claim.laneNat g (b, true) k)
    else Claim.holdsZ c (Claim.sgn 64 (Claim.laneNat g (a, true) k)) (Claim.sgn 64 (Claim.laneNat g (b, true) k)) := by
  rw [← sourceAt_toNat_pair, ← sourceAt_toNat_pair]
  cases u with
  | false => exact condI_signed c _ _ (by decide)
  | true => exact condI_unsigned c _ _

theorem fCond_singles : fCond fmtF32 c ((sourceAt g a false k).toNat % 2 ^ 32) ((sourceAt g b false k).toNat % 2 ^ 32) =
    (Claim.holdsF 32 0x7F800000 c (Claim.laneNat g (a, false) k) (Claim.laneNat g (b, false) k),
      Claim.nvF 32 0x7F800000 22 c (Claim.laneNat g (a, false) k) (Claim.laneNat g (b, false) k)) := by
  rw [← sourceAt_mod, ← sourceAt_mod]
  exact fCond_eq (f := fmtF32) (n := 32) rfl (by decide) rfl c (Nat.mod_lt _ (by decide)) (Nat.mod_lt _ (by decide))

theorem fCond_pairs : fCond fmtF64 c ((sourceAt g a true k).toNat % 2 ^ 64) ((sourceAt g b true k).toNat % 2 ^ 64) =
    (Claim.holdsF 64 0x7FF0000000000000 c (Claim.laneNat g (a, true) k) (Claim.laneNat g (b, true) k),
      Claim.nvF 64 0x7FF0000000000000 51 c (Claim.laneNat g (a, true) k) (Claim.laneNat g (b, true) k)) := by
  rw [← sourceAt_toNat_pair, ← sourceAt_toNat_pair, Nat.mod_eq_of_lt (BitVec.isLt _), Nat.mod_eq_of_lt (BitVec.isLt _)]
  exact fCond_eq (f := fmtF64) (n := 64) rfl (by decide) rfl c (BitVec.isLt _) (BitVec.isLt _)

end

/-! What each compare runs. -/

section
variable (s : State) (m : BitVec 2) (b2 b1 : BitVec 1) (b a : BitVec 6) (c md : BitVec 3)

theorem exec_vcmpI32 : exec (.vcmpI32 m b2 b1 b a c md) s =
    compareOp (.vcmpI32 m b2 b1 b a c md) m (src32 a b1) (src32 b b2) md (fun x y => (condI false c (lo32 x) (lo32 y), 0)) s := rfl
theorem exec_vcmpN32 : exec (.vcmpN32 m b2 b1 b a c md) s =
    compareOp (.vcmpN32 m b2 b1 b a c md) m (src32 a b1) (src32 b b2) md (fun x y => (condI true c (lo32 x) (lo32 y), 0)) s := rfl
theorem exec_vcmpI64 : exec (.vcmpI64 m b2 b1 b a c md) s =
    compareOp (.vcmpI64 m b2 b1 b a c md) m (src64 a b1) (src64 b b2) md (fun x y => (condI false c x y, 0)) s := rfl
theorem exec_vcmpN64 : exec (.vcmpN64 m b2 b1 b a c md) s =
    compareOp (.vcmpN64 m b2 b1 b a c md) m (src64 a b1) (src64 b b2) md (fun x y => (condI true c x y, 0)) s := rfl
theorem exec_vfcmpF32 : exec (.vfcmpF32 m b2 b1 b a c md) s =
    compareOp (.vfcmpF32 m b2 b1 b a c md) m (src32 a b1) (src32 b b2) md (fun x y => fCond fmtF32 c (x.toNat % 2 ^ 32) (y.toNat % 2 ^ 32)) s := rfl
theorem exec_vfcmpF64 : exec (.vfcmpF64 m b2 b1 b a c md) s =
    compareOp (.vfcmpF64 m b2 b1 b a c md) m (src64 a b1) (src64 b b2) md (fun x y => fCond fmtF64 c (x.toNat % 2 ^ 64) (y.toNat % 2 ^ 64)) s := rfl

end

theorem maskDest_ne_zero {c : BitVec 3} {e : Cause} {md : BitVec 3} (h : firstCause [(6 ≤ c.toNat, e), (md = 0, .encMdst)] = none) : md ≠ 0 := by
  rintro rfl
  cases hc : decide (6 ≤ c.toNat) <;> rw [hc] at h <;> cases h

theorem compares_form {s : State} {i : Instr} (hwf : i.WellFormed) {x : Claim.CompareForm} (hx : Claim.compareForm i = some x)
    (husable : Claim.Usable (curG s) [x.a, x.b]) : Compares s i x := by
  cases i
  case vcmpI32 m b2 b1 b a c md =>
    obtain rfl := Option.some.inj hx
    exact compares_of hwf rfl (maskDest_ne_zero hwf) (exec_vcmpI32 s m b2 b1 b a c md) husable fun k => Prod.ext (condI_singles k false) rfl
  case vcmpN32 m b2 b1 b a c md =>
    obtain rfl := Option.some.inj hx
    exact compares_of hwf rfl (maskDest_ne_zero hwf) (exec_vcmpN32 s m b2 b1 b a c md) husable fun k => Prod.ext (condI_singles k true) rfl
  case vcmpI64 m b2 b1 b a c md =>
    obtain rfl := Option.some.inj hx
    exact compares_of hwf rfl (maskDest_ne_zero hwf) (exec_vcmpI64 s m b2 b1 b a c md) husable fun k => Prod.ext (condI_pairs k false) rfl
  case vcmpN64 m b2 b1 b a c md =>
    obtain rfl := Option.some.inj hx
    exact compares_of hwf rfl (maskDest_ne_zero hwf) (exec_vcmpN64 s m b2 b1 b a c md) husable fun k => Prod.ext (condI_pairs k true) rfl
  case vfcmpF32 m b2 b1 b a c md =>
    obtain rfl := Option.some.inj hx
    refine compares_of hwf rfl ?_ (exec_vfcmpF32 s m b2 b1 b a c md) husable fun k => fCond_singles k
    rintro rfl
    cases hwf
  case vfcmpF64 m b2 b1 b a c md =>
    obtain rfl := Option.some.inj hx
    refine compares_of hwf rfl ?_ (exec_vfcmpF64 s m b2 b1 b a c md) husable fun k => fCond_pairs k
    rintro rfl
    cases hwf
  all_goals cases hx

/-- Settles O10, by the form: every compare is `compareOp`, whose condition on a thread's values is that of the form on their numbers. -/
theorem vectorCompareForms : Obligations.VectorCompareForms :=
  fun _ _ hwf _ hx husable => compares_form hwf hx husable

end Sys2Proof.Machine


/-! ## Engine bookkeeping: graph nodes and tensor entries (R220, R333, R334, R336)

### A change of the group's core -/

namespace Sys2Proof.Machine

theorem memKept_trans {s u t : State} (h : Claim.MemKept s u) (k : Claim.MemKept u t) : Claim.MemKept s t :=
  fun a => ⟨(k a).1.trans (h a).1, (k a).2.trans (h a).2⟩

section
variable {s u : State} {i : Instr}

theorem coreFrame_self (s : State) : Claim.CoreFrame s s := ⟨fun _ _ => rfl, fun _ _ => rfl, fun _ => ⟨rfl, rfl⟩, rfl⟩

/-- The group's core changes, but for what memory is read through. -/
theorem coreFrame_modC {f : Core → Core} (hw : ∀ x, (f x).swords = x.swords) (hs : ∀ x, (f x).stash = x.stash) :
    Claim.CoreFrame s (modC s (curG s).core f) :=
  ⟨fun _ _ => rfl, fun _ hk => getC_setC_ne _ _ _ _ hk, (sameBytes_modC hw hs).memKept, rfl⟩

/-- A change of the issuing group keeps the frame. -/
theorem coreFrame_of_group {v : State} (h : Claim.CoreFrame s u) (hv : v = { u with groups := v.groups })
    (hne : ∀ w, w ≠ u.cur.uid → getG v w = getG u w) : Claim.CoreFrame s v := by
  obtain ⟨hgroups, hcores, hmem, hstate⟩ := h
  have hcur : u.cur = s.cur := by rw [hstate]
  refine ⟨fun w hw => (hne w (hcur ▸ hw)).trans (hgroups w hw), fun k hk => ?_, memKept_trans hmem (memKept_of_groups hv), ?_⟩
  · rw [hv]
    exact hcores k hk
  · rw [hv]
    generalize v.groups = gs
    rw [hstate]

theorem coreFrame_modCur (h : Claim.CoreFrame s u) (f : Group → Group) : Claim.CoreFrame s (modCur u f) :=
  coreFrame_of_group h (modCur_groups u f) fun w hw => getG_modCur_ne u f w hw

theorem coreFrame_advance (h : Claim.CoreFrame s u) : Claim.CoreFrame s (advance i u) :=
  coreFrame_of_group h (advance_groups i u) fun w hw => getG_advance_ne i u w hw

/-- What a scalar destination holds where nothing else of the group has changed. -/
theorem scalarWritten_of_sPut {t : State} {sd : BitVec 6} {v : DWord} (hd : sIsEmpty (curG s) sd = false)
    (h : curG t = { sPut (curG s) sd v with split := (curG t).split }) : Claim.ScalarWritten s t sd v := by
  refine ⟨fun r => ?_, fun r => ?_, ?_⟩
  · rw [h]
    exact sReg_sPut _ _ _ _
  · rw [h]
    refine (sIsEmpty_sPut _ _ _ _).trans ?_
    split_ifs with hr
    · rw [hr.1, hd]
    · rfl
  · rw [h, sPut_rest]

/-! ### `gnode` and `glink` -/

/-- The table of nodes of the group's core. -/
def withNodes (s : State) (m : FMap Node) : State := modC s (curG s).core fun c => { c with nodes := m }

theorem coreFrame_withNodes (s : State) (m : FMap Node) : Claim.CoreFrame s (withNodes s m) :=
  coreFrame_modC (fun _ => rfl) fun _ => rfl

/-- The state whose group's core has the table of nodes that `withNodes` gives it. -/
theorem getC_of_withNodes {t : State} {m : FMap Node} (ht : t.cores = (withNodes s m).cores) :
    getC t (curG s).core = { getC s (curG s).core with nodes := m } := by
  rw [getC, ht, ← getC, withNodes, getC_modC]

theorem nodeAt_of_withNodes {t : State} {m : FMap Node} (hcore : (curG t).core = (curG s).core) (ht : t.cores = (withNodes s m).cores) (k : Nat) :
    Claim.nodeAt t k = fget Node.zero m k := by
  rw [Claim.nodeAt, hcore, getC_of_withNodes ht]

theorem fget_fput {α : Type} (d : α) (m : FMap α) (k j : Nat) (v : α) : fget d (fput m k v) j = if j = k then v else fget d m j := by
  rw [fget, ffind_fput]
  split_ifs <;> rfl

end

section
variable {s : State} {sd : BitVec 6} {n : Nat}

/-- A node that `gnode` opens. -/
def openedNode (s : State) (n : Nat) : Node :=
  { Node.zero with st := .openN, ctx := (curG s).ctx, task := (curG s).task, gen := (Claim.nodeAt s n).gen }

theorem roleX_ok {g : Group} (h : g.role.toNat < 2) : roleX g [2, 3] = .ok () := by
  refine needX_ok _ ?_
  simp only [List.contains_cons, List.contains_nil, Bool.or_false, Bool.not_eq_true', Bool.or_eq_false_iff, beq_eq_false_iff_ne]
  omega

/-- The state after `gnode` has opened node n. -/
def opened (s : State) (sd : BitVec 6) (n : Nat) : State :=
  advance (.gnode sd) (modCur (withNodes s (fput (getC s (curG s).core).nodes n (openedNode s n)))
    fun g => sPut g sd (BitVec.ofNat 64 (n + (Claim.nodeAt s n).gen.toNat * 256)))

theorem opened_cores (s : State) (sd : BitVec 6) (n : Nat) :
    (opened s sd n).cores = (withNodes s (fput (getC s (curG s).core).nodes n (openedNode s n))).cores := rfl

theorem curG_opened (s : State) (sd : BitVec 6) (n : Nat) : curG (opened s sd n) =
    { sPut (curG s) sd (BitVec.ofNat 64 (n + (Claim.nodeAt s n).gen.toNat * 256)) with split := (curG (opened s sd n)).split } :=
  curG_advance_modCur _ _ _

theorem exec_gnode (hwf : (Instr.gnode sd).WellFormed) (hfull : Claim.Full s [sd]) (hrole : (curG s).role.toNat < 2) (hn : n < 256)
    (hlow : ∀ k, k < n → (Claim.nodeAt s k).st ≠ .free) (hfree : (Claim.nodeAt s n).st = .free) :
    exec (.gnode sd) s = .next (opened s sd n) := by
  have hfind : (List.range 256).find? (fun n => (fget Node.zero (getC s (curG s).core).nodes n).st == .free) = some n := by
    rw [List.find?_range_eq_some]
    exact ⟨beq_iff_eq.mpr hfree, List.mem_range.mpr hn, fun k hk => by simpa [Claim.nodeAt] using hlow k hk⟩
  refine (exec_formed hwf rfl).trans ?_
  simp only [roleX_ok hrole, ok_bind, hfind, dstS_ok (hfull sd (List.mem_singleton_self sd))]
  rfl

theorem gnode_opens (hwf : (Instr.gnode sd).WellFormed) (hfull : Claim.Full s [sd]) (hrole : (curG s).role.toNat < 2) (hn : n < 256)
    (hlow : ∀ k, k < n → (Claim.nodeAt s k).st ≠ .free) (hfree : (Claim.nodeAt s n).st = .free) :
    ∃ t, exec (.gnode sd) s = .next t ∧ Claim.Past s t 4 ∧ Claim.CoreFrame s t ∧
      Claim.ScalarWritten s t sd (BitVec.ofNat 64 (n + 256 * (Claim.nodeAt s n).gen.toNat)) ∧
      getC t (curG s).core = { getC s (curG s).core with nodes := (getC t (curG s).core).nodes } ∧
      ∀ k, k < 256 → Claim.nodeAt t k = if k = n then openedNode s n else Claim.nodeAt s k := by
  have hcore : (curG (opened s sd n)).core = (curG s).core := by rw [curG_opened, sPut_rest]
  refine ⟨_, exec_gnode hwf hfull hrole hn hlow hfree, past_advance rfl rfl ?_, coreFrame_advance (coreFrame_modCur (coreFrame_withNodes s _) _), ?_, ?_,
    fun k _ => ?_⟩
  · rw [curG_modCur, sPut_split]
    rfl
  · rw [Nat.mul_comm 256]
    exact scalarWritten_of_sPut (hfull sd (List.mem_singleton_self sd)) (curG_opened s sd n)
  · rw [getC_of_withNodes (opened_cores s sd n)]
  · exact (nodeAt_of_withNodes hcore (opened_cores s sd n) k).trans (fget_fput _ _ _ _ _)

/-! Edges. -/

variable {sa sb : BitVec 6} {a : Nat}

/-- The node that the predecessor's handle names, by its number. -/
def predOf (s : State) (sb : BitVec 6) : Nat := (sReg (curG s) sb).toNat % 256

theorem nodeX_of_openNode {h : DWord} (ha : Claim.openNode s h = some a) : nodeX s (curG s) h = .ok a := by
  unfold Claim.openNode at ha
  unfold nodeX
  extract_lets at ha ⊢
  split_ifs at ha with hopen
  obtain ⟨hst, hgen, hctx⟩ := hopen
  simp only [hst, hgen, hctx, beq_self_eq_true, Bool.and_self, decide_true, if_true]
  exact congrArg Except.ok (Option.some.inj ha)

/-- `glink` with an open successor that is another node than the predecessor. -/
theorem exec_glink (hwf : (Instr.glink sa sb).WellFormed) (hfull : Claim.Full s [sa, sb]) (hrole : (curG s).role.toNat < 2)
    (ha : Claim.openNode s (sReg (curG s) sa) = some a) (hne : a ≠ predOf s sb) :
    let nb := Claim.nodeAt s (predOf s sb)
    let na := Claim.nodeAt s a
    exec (.glink sa sb) s = commitNext (.glink sa sb) s (
      if nb.gen.toNat ≠ (sReg (curG s) sb).toNat / 256 % 256 || nb.st = .free || nb.st = .done then .ok s
      else if nb.ctx ≠ (curG s).ctx || nb.succs.length = 8 || na.count = 255 then trapX .engGraph
      else .ok (withNodes s (fput (fput (getC s (curG s).core).nodes (predOf s sb) { nb with succs := nb.succs ++ [(a, na.gen)] }) a
        { na with count := na.count + 1 }))) := by
  intro nb na
  refine (exec_formed hwf rfl).trans ?_
  have hsa := srcS_ok false (hfull sa (by simp))
  have hsb := srcS_ok false (hfull sb (by simp))
  simp only [roleX_ok hrole, ok_bind, hsa, hsb, nodeX_of_openNode ha]
  exact congrArg _ (if_neg hne)

/-- The edge that `glink` adds. -/
def linkedNodes (s : State) (a b : Nat) : FMap Node :=
  fput (fput (getC s (curG s).core).nodes b { Claim.nodeAt s b with succs := (Claim.nodeAt s b).succs ++ [(a, (Claim.nodeAt s a).gen)] }) a
    { Claim.nodeAt s a with count := (Claim.nodeAt s a).count + 1 }

theorem glink_idle (hwf : (Instr.glink sa sb).WellFormed) (hfull : Claim.Full s [sa, sb]) (hrole : (curG s).role.toNat < 2)
    (ha : Claim.openNode s (sReg (curG s) sa) = some a) (hne : a ≠ predOf s sb)
    (h : (Claim.nodeAt s (predOf s sb)).gen.toNat ≠ (sReg (curG s) sb).toNat / 256 % 256 ∨ (Claim.nodeAt s (predOf s sb)).st = .free ∨
      (Claim.nodeAt s (predOf s sb)).st = .done) : exec (.glink sa sb) s = .next (advance (.glink sa sb) s) := by
  refine (exec_glink hwf hfull hrole ha hne).trans ?_
  rw [if_pos (by simpa [or_assoc] using h), commitNext_ok]

theorem glink_denied (hwf : (Instr.glink sa sb).WellFormed) (hfull : Claim.Full s [sa, sb]) (hrole : (curG s).role.toNat < 2)
    (ha : Claim.openNode s (sReg (curG s) sa) = some a) (hne : a ≠ predOf s sb)
    (hgen : (Claim.nodeAt s (predOf s sb)).gen.toNat = (sReg (curG s) sb).toNat / 256 % 256) (hfree : (Claim.nodeAt s (predOf s sb)).st ≠ .free)
    (hdone : (Claim.nodeAt s (predOf s sb)).st ≠ .done)
    (h : (Claim.nodeAt s (predOf s sb)).ctx ≠ (curG s).ctx ∨ (Claim.nodeAt s (predOf s sb)).succs.length = 8 ∨ (Claim.nodeAt s a).count = 255) :
    exec (.glink sa sb) s = .next (Claim.raised s (.glink sa sb) .engGraph 0 none) := by
  refine (exec_glink hwf hfull hrole ha hne).trans ?_
  rw [if_neg (by simp [hgen, hfree, hdone]), if_pos (by simpa [or_assoc] using h)]
  exact commitNext_trap _ _ _ 0 _

theorem exec_glink_linked (hwf : (Instr.glink sa sb).WellFormed) (hfull : Claim.Full s [sa, sb]) (hrole : (curG s).role.toNat < 2)
    (ha : Claim.openNode s (sReg (curG s) sa) = some a) (hne : a ≠ predOf s sb)
    (hgen : (Claim.nodeAt s (predOf s sb)).gen.toNat = (sReg (curG s) sb).toNat / 256 % 256) (hfree : (Claim.nodeAt s (predOf s sb)).st ≠ .free)
    (hdone : (Claim.nodeAt s (predOf s sb)).st ≠ .done)
    (hctx : (Claim.nodeAt s (predOf s sb)).ctx = (curG s).ctx) (hsuccs : (Claim.nodeAt s (predOf s sb)).succs.length ≠ 8)
    (hcount : (Claim.nodeAt s a).count ≠ 255) :
    exec (.glink sa sb) s = .next (advance (.glink sa sb) (withNodes s (linkedNodes s a (predOf s sb)))) := by
  refine (exec_glink hwf hfull hrole ha hne).trans ?_
  rw [if_neg (by simp [hgen, hfree, hdone]), if_neg (by simp [hctx, hsuccs, hcount]), commitNext_ok]
  rfl

/-- What an instruction leaves that only changes the nodes. -/
theorem withNodes_frame {i : Instr} (hlen : (codeOf i).len = 4) (m : FMap Node) :
    let t := advance i (withNodes s m)
    Claim.Past s t 4 ∧ Claim.CoreFrame s t ∧ curG t = { curG s with split := (curG t).split } ∧ ∀ k, Claim.nodeAt t k = fget Node.zero m k := by
  intro t
  have hcur : curG t = { curG s with split := (curG t).split } := curG_advance_split i (withNodes s m)
  exact ⟨past_advance hlen rfl rfl, coreFrame_advance (coreFrame_withNodes s m), hcur, nodeAt_of_withNodes (by rw [hcur]) rfl⟩

theorem glink_links (hwf : (Instr.glink sa sb).WellFormed) (hfull : Claim.Full s [sa, sb]) (hrole : (curG s).role.toNat < 2) :
    let b := (sReg (curG s) sb).toNat % 256
    let nb := Claim.nodeAt s b
    Claim.OnSome (Claim.openNode s (sReg (curG s) sa)) fun a => a ≠ b →
      (nb.gen.toNat ≠ (sReg (curG s) sb).toNat / 256 % 256 ∨ nb.st = .free ∨ nb.st = .done →
        ∃ t, exec (.glink sa sb) s = .next t ∧ Claim.OnlyGroup s t ∧ Claim.Past s t 4 ∧ curG t = { curG s with split := (curG t).split }) ∧
      (nb.gen.toNat = (sReg (curG s) sb).toNat / 256 % 256 → nb.st ≠ .free → nb.st ≠ .done →
        (nb.ctx ≠ (curG s).ctx ∨ nb.succs.length = 8 ∨ (Claim.nodeAt s a).count = 255 →
          exec (.glink sa sb) s = .next (Claim.raised s (.glink sa sb) .engGraph 0 none)) ∧
        (nb.ctx = (curG s).ctx → nb.succs.length ≠ 8 → (Claim.nodeAt s a).count ≠ 255 →
          ∃ t, exec (.glink sa sb) s = .next t ∧ Claim.Past s t 4 ∧ Claim.CoreFrame s t ∧ curG t = { curG s with split := (curG t).split } ∧
            ∀ k, k < 256 → Claim.nodeAt t k =
              if k = a then { Claim.nodeAt s a with count := (Claim.nodeAt s a).count + 1 }
              else if k = b then { nb with succs := nb.succs ++ [(a, (Claim.nodeAt s a).gen)] } else Claim.nodeAt s k)) := by
  intro b nb a ha hne
  refine ⟨fun h => ?_, fun hgen hfree hdone => ⟨glink_denied hwf hfull hrole ha hne hgen hfree hdone, fun hctx hsuccs hcount => ?_⟩⟩
  · obtain ⟨honly, hpast, hcur⟩ := moved_advance (i := .glink sa sb) s rfl
    exact ⟨_, glink_idle hwf hfull hrole ha hne h, honly, hpast, hcur⟩
  · obtain ⟨hpast, hframe, hcur, hnodes⟩ := withNodes_frame (s := s) (i := .glink sa sb) rfl (linkedNodes s a b)
    refine ⟨_, exec_glink_linked hwf hfull hrole ha hne hgen hfree hdone hctx hsuccs hcount, hpast, hframe, hcur, fun k _ => (hnodes k).trans ?_⟩
    rw [linkedNodes, fget_fput, fget_fput]
    rfl

end

end Sys2Proof.Machine


/-! ### `tdesc` and `tdget` -/

namespace Sys2Proof.Machine

section
variable {s : State} {tid : BitVec 7} {ss sd : BitVec 6}

theorem range_four : List.range 4 = [0, 1, 2, 3] := rfl

/-- The four scalars of a group are read as one number. -/
theorem readFour (hfull : Claim.Full s [ss, ss + 1, ss + 2, ss + 3]) :
    (List.range 4).mapM (fun k => srcS (curG s) (ss + BitVec.ofNat 6 k) false) =
      .ok ((List.range 4).map fun k => sReg (curG s) (ss + BitVec.ofNat 6 k)) := by
  refine mapM_ok fun k hk => srcS_ok false (hfull _ ?_)
  have hk4 : k = 0 ∨ k = 1 ∨ k = 2 ∨ k = 3 := by
    have := List.mem_range.mp hk
    omega
  rcases hk4 with rfl | rfl | rfl | rfl <;> simp

theorem sum_zipIdx_four (B : ℕ) (a b c d : DWord) : (([a, b, c, d].zipIdx).map fun p => p.1.toNat * B ^ p.2).sum =
    a.toNat + B * b.toNat + B ^ 2 * c.toNat + B ^ 3 * d.toNat := by
  simp only [List.zipIdx_cons, List.zipIdx_nil, List.map_cons, List.map_nil, List.sum_cons, List.sum_nil]
  ring

theorem four_eq (g : Group) (r : BitVec 6) : Claim.four g r =
    (sReg g r).toNat + 2 ^ 64 * (sReg g (r + 1)).toNat + (2 ^ 64) ^ 2 * (sReg g (r + 2)).toNat + (2 ^ 64) ^ 3 * (sReg g (r + 3)).toNat := by
  rw [Claim.four, ← pow_mul, ← pow_mul]

theorem sum_four : ((((List.range 4).map fun k => sReg (curG s) (ss + BitVec.ofNat 6 k)).zipIdx).map fun p => p.1.toNat * 2 ^ (64 * p.2)).sum =
    Claim.four (curG s) ss := by
  rw [four_eq]
  simp only [pow_mul]
  generalize 2 ^ 64 = B
  rw [range_four, List.map_cons, List.map_cons, List.map_cons, List.map_cons, List.map_nil, BitVec.add_zero]
  exact sum_zipIdx_four _ _ _ _ _

/-- What `tdesc` does with the 256 bits that it reads. -/
def writeEntry (s : State) (tid : BitVec 7) (x : Nat) : X State :=
  if fld x 0 1 = 0 then .ok (putTid s (curG s).core tid.toNat none) else
  match (parseTid x (curG s).ctx).2 with
  | some t => .ok (putTid s (curG s).core tid.toNat (some t))
  | none => trapX .tidForm

theorem exec_tdesc (hwf : (Instr.tdesc tid ss).WellFormed) (hfull : Claim.Full s [ss, ss + 1, ss + 2, ss + 3]) :
    exec (.tdesc tid ss) s = commitNext (.tdesc tid ss) s (writeEntry s tid (Claim.four (curG s) ss)) := by
  have hexec : exec (.tdesc tid ss) s = commitNext (.tdesc tid ss) s
      (((List.range 4).mapM fun k => srcS (curG s) (ss + BitVec.ofNat 6 k) false) >>= fun ws =>
        writeEntry s tid ((ws.zipIdx.map fun p => p.1.toNat * 2 ^ (64 * p.2)).sum)) := exec_formed hwf rfl
  rw [hexec, readFour hfull, ok_bind, sum_four]

theorem writeEntry_form {x : Nat} (hx : x % 2 = 1) (he : (parseTid x (curG s).ctx).2 = none) : writeEntry s tid x = trapX .tidForm := by
  rw [writeEntry, fld, Nat.pow_zero, Nat.div_one, Nat.pow_one, if_neg (by omega), he]

theorem writeEntry_ok {x : Nat} (h : x % 2 = 0 ∨ (parseTid x (curG s).ctx).2 ≠ none) :
    writeEntry s tid x = .ok (putTid s (curG s).core tid.toNat (if x % 2 = 0 then none else (parseTid x (curG s).ctx).2)) := by
  rw [writeEntry, fld, Nat.pow_zero, Nat.div_one, Nat.pow_one]
  split_ifs with hx
  · rfl
  · obtain ⟨v, hv⟩ := Option.ne_none_iff_exists'.mp (h.resolve_left hx)
    rw [hv]

theorem ffind_putTid (e : Option Tid) (k : Nat) : ffind (getC (putTid s (curG s).core tid.toNat e) (curG s).core).tids k =
    if k = tid.toNat then e else ffind (getC s (curG s).core).tids k := by
  rw [putTid, getC_modC]
  cases e with
  | none => exact ffind_fdel _ _ _
  | some t => exact ffind_fput _ _ _ _

/-- What an instruction leaves that writes a tensor entry. -/
theorem putTid_frame {i : Instr} (hlen : (codeOf i).len = 4) (e : Option Tid) :
    let t := advance i (putTid s (curG s).core tid.toNat e)
    Claim.Past s t 4 ∧ Claim.CoreFrame s t ∧ curG t = { curG s with split := (curG t).split } ∧
      ∀ k, k < 128 → ffind (getC t (curG s).core).tids k = if k = tid.toNat then e else ffind (getC s (curG s).core).tids k :=
  ⟨past_advance hlen rfl rfl, coreFrame_advance (coreFrame_modC (fun _ => rfl) fun _ => rfl), curG_advance_split _ _, fun k _ => ffind_putTid e k⟩

theorem tdesc_writes (hwf : (Instr.tdesc tid ss).WellFormed) (hfull : Claim.Full s [ss, ss + 1, ss + 2, ss + 3]) :
    let x := Claim.four (curG s) ss
    let e := (parseTid x (curG s).ctx).2
    (x % 2 = 1 → e = none → exec (.tdesc tid ss) s = .next (Claim.raised s (.tdesc tid ss) .tidForm 0 none)) ∧
    (x % 2 = 0 ∨ e ≠ none →
      ∃ t, exec (.tdesc tid ss) s = .next t ∧ Claim.Past s t 4 ∧ Claim.CoreFrame s t ∧ curG t = { curG s with split := (curG t).split } ∧
        ∀ k, k < 128 → ffind (getC t (curG s).core).tids k =
          if k = tid.toNat then (if x % 2 = 0 then none else e) else ffind (getC s (curG s).core).tids k) := by
  intro x e
  refine ⟨fun hx he => ?_, fun h => ⟨advance (.tdesc tid ss) (putTid s (curG s).core tid.toNat (if x % 2 = 0 then none else e)), ?_, putTid_frame rfl _⟩⟩
  · rw [exec_tdesc hwf hfull, writeEntry_form hx he]
    exact commitNext_trap _ _ _ 0 _
  · rw [exec_tdesc hwf hfull, writeEntry_ok h, commitNext_ok]

/-! `tdget`. -/

/-- Four scalars from sd on, which receive the words of a number. -/
def putFour (sd : BitVec 6) (x : Nat) (g : Group) : Group :=
  (List.range 4).foldl (fun g k => sPut g (sd + BitVec.ofNat 6 k) (BitVec.ofNat 64 (x / 2 ^ (64 * k)))) g

theorem dstFour (hfull : Claim.Full s [sd, sd + 1, sd + 2, sd + 3]) :
    (List.range 4).forM (fun k => dstS (curG s) (sd + BitVec.ofNat 6 k)) = .ok () := by
  refine forM_ok fun k hk => dstS_ok (hfull _ ?_)
  have hk4 : k = 0 ∨ k = 1 ∨ k = 2 ∨ k = 3 := by
    have := List.mem_range.mp hk
    omega
  rcases hk4 with rfl | rfl | rfl | rfl <;> simp

theorem exec_tdget (hwf : (Instr.tdget tid sd).WellFormed) (hfull : Claim.Full s [sd, sd + 1, sd + 2, sd + 3]) :
    exec (.tdget tid sd) s = .next (advance (.tdget tid sd) (modCur s
      (putFour sd (((Claim.entryFor s (curG s).core tid).map (tidImage tid.toNat)).getD 0)))) := by
  have himage : (match ffind (getC s (curG s).core).tids tid.toNat with
      | some t => if t.ctx = (curG s).ctx then tidImage tid.toNat t else 0
      | none => 0) = ((Claim.entryFor s (curG s).core tid).map (tidImage tid.toNat)).getD 0 := by
    unfold Claim.entryFor
    cases ffind (getC s (curG s).core).tids tid.toNat with
    | none => rfl
    | some t => by_cases h : t.ctx = (curG s).ctx <;> simp [Option.filter, h]
  refine (exec_formed hwf rfl).trans ?_
  simp only [dstFour hfull, ok_bind]
  rw [commitNext_ok]
  exact congrArg (fun x => Host.Outcome.next (advance (.tdget tid sd) (modCur s (putFour sd x)))) himage

/-- A register that holds a value is written with no change of the empty bits. -/
theorem sPut_of_full {g : Group} {r : BitVec 6} (v : DWord) (h : sIsEmpty g r = false) :
    sPut g r v = { g with s := (sPut g r v).s, swr := (sPut g r v).swr } := by
  unfold sPut
  split_ifs with hr
  · rfl
  · have hempty : withBit g.sEmpty r.toNat false = g.sEmpty := BitVec.eq_of_getLsbD_eq fun j _ => by
      rw [withBit_getLsbD _ _ _ _ r.isLt]
      split_ifs with hj
      · exact hj ▸ h.symm
      · rfl
    simp only [hempty]

theorem foldl_sPut_rest {l : List (BitVec 6 × DWord)} {g : Group} (h : ∀ p ∈ l, sIsEmpty g p.1 = false) :
    let g' := l.foldl (fun g p => sPut g p.1 p.2) g
    g' = { g with s := g'.s, swr := g'.swr } := by
  induction l generalizing g with
  | nil => rfl
  | cons p l ih =>
    have hp := sPut_of_full p.2 (h p List.mem_cons_self)
    have hrest := ih (g := sPut g p.1 p.2) fun q hq => by
      rw [hp]
      exact h q (List.mem_cons_of_mem p hq)
    intro g'
    rw [show g' = l.foldl (fun g p => sPut g p.1 p.2) (sPut g p.1 p.2) from rfl]
    generalize l.foldl (fun g p => sPut g p.1 p.2) (sPut g p.1 p.2) = g'' at hrest
    rw [hrest, hp]

/-- A word of a number of 256 bits. -/
def wordOf (x k : Nat) : DWord := BitVec.ofNat 64 (x / 2 ^ (64 * k))

theorem putFour_eq (sd : BitVec 6) (x : Nat) (g : Group) : putFour sd x g =
    [(sd, wordOf x 0), (sd + 1, wordOf x 1), (sd + 2, wordOf x 2), (sd + 3, wordOf x 3)].foldl (fun g p => sPut g p.1 p.2) g := by
  unfold putFour
  rw [range_four, List.foldl_cons, BitVec.add_zero]
  rfl

theorem putFour_rest {x : Nat} (hfull : Claim.Full s [sd, sd + 1, sd + 2, sd + 3]) :
    putFour sd x (curG s) = { curG s with s := (putFour sd x (curG s)).s, swr := (putFour sd x (curG s)).swr } := by
  rw [putFour_eq]
  refine foldl_sPut_rest fun p hp => ?_
  simp only [List.mem_cons, List.not_mem_nil, or_false] at hp
  rcases hp with rfl | rfl | rfl | rfl <;> exact hfull _ (by simp)

theorem lt_four_cases (d : BitVec 6) : d = 0 ∨ d = 1 ∨ d = 2 ∨ d = 3 ∨ 4 ≤ d.toNat ∧ d ≠ 0 ∧ d ≠ 1 ∧ d ≠ 2 ∧ d ≠ 3 := by
  revert d
  decide

theorem sReg_putFour (sd : BitVec 6) (x : Nat) (g : Group) (d : BitVec 6) : sReg (putFour sd x g) (sd + d) =
    if d.toNat < 4 then (if sd + d = 0 then 0 else wordOf x d.toNat) else sReg g (sd + d) := by
  have hput : ∀ k : BitVec 6, sd + d = sd + k ↔ d = k := fun k => BitVec.add_right_inj sd
  have hput0 : sd + d = sd ↔ d = 0 := by simp
  rw [putFour_eq]
  simp only [List.foldl_cons, List.foldl_nil, sReg_sPut, hput, hput0]
  rcases lt_four_cases d with rfl | rfl | rfl | rfl | ⟨hd, h0, h1, h2, h3⟩
  · by_cases h : sd = 0#6 <;> simp [h, sReg]
  · by_cases h : sd + 1#6 = 0#6 <;> simp [h, sReg]
  · by_cases h : sd + 2#6 = 0#6 <;> simp [h, sReg]
  · by_cases h : sd + 3#6 = 0#6 <;> simp [h, sReg]
  · rw [if_neg fun h => h3 h.1, if_neg fun h => h2 h.1, if_neg fun h => h1 h.1, if_neg fun h => h0 h.1, if_neg (by omega)]

/-- What `tdget` leaves. -/
theorem tdget_reads (hwf : (Instr.tdget tid sd).WellFormed) (hfull : Claim.Full s [sd, sd + 1, sd + 2, sd + 3]) :
    let x := ((Claim.entryFor s (curG s).core tid).map (tidImage tid.toNat)).getD 0
    ∃ t, exec (.tdget tid sd) s = .next t ∧ Claim.OnlyGroup s t ∧ Claim.Past s t 4 ∧
      (∀ r, sIsEmpty (curG t) r = sIsEmpty (curG s) r) ∧
      (∀ k : BitVec 6, k.toNat < 4 → sReg (curG t) (sd + k) = if sd + k = 0 then 0 else BitVec.ofNat 64 (x / 2 ^ (64 * k.toNat))) ∧
      (∀ r : BitVec 6, 4 ≤ (r - sd).toNat → sReg (curG t) r = sReg (curG s) r) ∧
      curG t = { curG s with s := (curG t).s, swr := (curG t).swr, split := (curG t).split } := by
  intro x
  have hrest := putFour_rest (x := x) hfull
  have hcur := curG_advance_modCur (.tdget tid sd) s (putFour sd x)
  have hpast : Claim.Past s (advance (.tdget tid sd) (modCur s (putFour sd x))) 4 := past_advance rfl rfl (by rw [curG_modCur, hrest])
  have honly : Claim.OnlyGroup s (advance (.tdget tid sd) (modCur s (putFour sd x))) := onlyGroup_advance _ (onlyGroup_modCur s _)
  refine ⟨_, exec_tdget hwf hfull, honly, hpast, ?_⟩
  generalize advance (.tdget tid sd) (modCur s (putFour sd x)) = t at hcur
  have hreg : ∀ r, sReg (curG t) r = sReg (putFour sd x (curG s)) r := fun r => by rw [hcur]; rfl
  refine ⟨fun r => ?_, fun k hk => ?_, fun r hr => ?_, ?_⟩
  · rw [hcur, hrest]
    rfl
  · rw [hreg, sReg_putFour, if_pos hk]
    rfl
  · have hadd : sd + (r - sd) = r := by rw [BitVec.add_comm, BitVec.sub_add_cancel]
    rw [hreg, ← hadd, sReg_putFour, if_neg (by omega)]
  · rw [hcur, hrest]

theorem nodesAndTensors : Claim.NodesAndTensors :=
  fun _ => ⟨fun _ _ => gnode_opens, fun _ _ => glink_links, fun _ _ => tdesc_writes, fun _ _ => tdget_reads⟩

end

end Sys2Proof.Machine


/-! ### A deposit leaves the tasks as they were (R189, R195, R196) -/

namespace Sys2Proof.Machine

section
variable {r s : State}

/-- The tasks are those of a state. -/
def SameTasks (r s : State) : Prop := s.tasks = r.tasks

theorem memorySide_sameTasks (r : State) : MemorySide (SameTasks r) where
  modH := id
  modX := id
  push := id
  modC := id
  reqs := id

theorem sameTasks_keepRecord {x : Record} (h : SameTasks r s) : SameTasks r (keepRecord s x) := by
  unfold keepRecord
  extract_lets
  split <;> exact h

theorem sameTasks_writeRecord {x : Record} (h : SameTasks r s) : SameTasks r (writeRecord s x) := by
  have C := memorySide_sameTasks r
  unfold writeRecord
  extract_lets
  split
  · exact sameTasks_keepRecord h
  · split
    · exact sameTasks_keepRecord h
    · extract_lets s1 s2
      have h1 : SameTasks r s1 := foldl_preserves (fun _ _ ht => C.devWrite ht) h
      have h2 : SameTasks r s2 := foldl_preserves (fun _ _ ht => C.setTag ht) h1
      exact h2

theorem sameTasks_cacheRoom {core : Nat} (h : SameTasks r s) : SameTasks r (cacheRoom s core).1 := by
  unfold cacheRoom
  extract_lets
  split
  · exact h
  · split
    · exact sameTasks_writeRecord h
    · exact h

theorem sameTasks_grantClaims {core lane n : Nat} (h : SameTasks r s) : SameTasks r (grantClaims s core lane n) := by
  induction n generalizing s with
  | zero => exact h
  | succ n ih =>
    rw [grantClaims]
    split
    · exact h
    · extract_lets
      split
      · exact h
      · extract_lets
        split_ifs
        · exact h
        · exact ih h

theorem sameTasks_leaveLane {uid : Nat} (h : SameTasks r s) : SameTasks r (leaveLane s uid) := by
  unfold leaveLane
  extract_lets
  split
  · exact h
  · exact sameTasks_grantClaims h

theorem sameTasks_placeRecord {x : Record} (h : SameTasks r s) : SameTasks r (placeRecord s x) := by
  unfold placeRecord
  extract_lets g x' body r0 r1 stay
  split
  · exact h
  · split
    · exact h
    next p _ =>
      have hroom := sameTasks_cacheRoom (core := g.core) h
      split
      next s1 e1 =>
        rw [e1] at hroom
        exact hroom
      next s1 e1 =>
        rw [e1] at hroom
        extract_lets s2 s3
        have h2 : SameTasks r s2 := by
          unfold s2
          split <;> exact hroom
        split
        · exact sameTasks_leaveLane h2
        · exact h2

theorem suspendCur_tasks (s : State) (c : Cond) : (suspendCur s c).tasks = s.tasks :=
  sameTasks_placeRecord (r := s) (s := setG s _ _) rfl

end

/-! ### `ewait` (R324, R326) -/

section
variable {s u t : State} {c : Cond}

theorem regsKept_trans {g h k : Group} (hgh : Claim.RegsKept g h) (hhk : Claim.RegsKept h k) : Claim.RegsKept g k := by
  obtain ⟨a1, a2, a3, a4, a5, a6, a7, a8, a9, a10, a11⟩ := hgh
  obtain ⟨b1, b2, b3, b4, b5, b6, b7, b8, b9, b10, b11⟩ := hhk
  exact ⟨b1.trans a1, b2.trans a2, b3.trans a3, b4.trans a4, b5.trans a5, b6.trans a6, b7.trans a7, b8.trans a8, b9.trans a9, b10.trans a10,
    b11.trans a11⟩

theorem atSamePlace_self (s : State) : AtSamePlace s s := ⟨.refl s, rfl, rfl, rfl, rfl, rfl, fun _ _ => rfl⟩

/-- What a suspension leaves on a condition with ST 2. -/
theorem deposited_suspendCur (hc : suspendCur s c = deposit s s.cur.uid s.cur.entry c (curF s).mask 2 none false false) :
    Claim.Deposited s (suspendCur s c) c (curF s).mask 2 := by
  rw [hc]
  exact deposited_depositWhy (atSamePlace_self s)

/-- A deposit in a state that has moved the issuing fragment. -/
theorem depositedAt_of_deposited {pc : BitVec 56} (hcur : u.cur = s.cur) (hgroup : curG u = { curG s with split := (curG u).split })
    (hpc : (curF u).pc = pc) (hmask : (curF u).mask = (curF s).mask) (hothers : ∀ k, k ≠ s.cur.entry → getF (curG u) k = getF (curG s) k)
    (h : Claim.Deposited u t c (curF u).mask 2) : Claim.DepositedAt s t pc c := by
  obtain ⟨⟨q, hplace, huid, hfrag, hctx, hqpc, hqmask, hcond, hready, howner, -⟩, hst, htpc, htmask, htothers, -⟩ := h
  rw [hcur] at huid hfrag htothers
  refine ⟨⟨q, ?_, huid, hfrag, ?_, hqpc.trans hpc, hqmask.trans hmask, hcond, hready, ?_⟩, hst, htpc.trans hpc, htmask.trans hmask, fun k hk =>
    (htothers k hk).trans (hothers k hk)⟩
  · rcases hplace with ⟨l, hl, -⟩ | ⟨-, hstuck⟩
    · rw [hl]
      simp
    · exact List.mem_append_right _ hstuck
  · rw [hctx, hgroup]
  · rw [howner, hgroup]

end

theorem engineWait : Claim.EngineWait := by
  intro s k cls hwf
  have hexec : exec (.ewait k cls) s = commit (.ewait k cls) s (checkField (.ewait k cls) >>= fun _ =>
    .ok (if ecOf (curG s) cls ≤ k.toNat then advance (.ewait k cls) s else suspendCur (advance (.ewait k cls) s) (.counter cls k))) := rfl
  rw [checkField_ok hwf, ok_bind, commit_ok] at hexec
  obtain ⟨honly, hpast, hcur⟩ := moved_advance (i := .ewait k cls) s rfl
  refine ⟨fun h => ⟨_, hexec.trans (by rw [ecOf, if_pos h]), honly, hpast, hcur⟩, fun h =>
    ⟨_, hexec.trans (by rw [ecOf, if_neg (by omega)]), ?_⟩⟩
  have hdep := deposited_suspendCur (s := advance (.ewait k cls) s) (c := .counter cls k) rfl
  obtain ⟨-, -, -, -, -, hregs, -⟩ := id hdep
  obtain ⟨hpc, -, hmask, hothers⟩ := hpast
  exact ⟨regsKept_trans (regsKept_advance _ s) hregs,
    depositedAt_of_deposited (u := advance (.ewait k cls) s) rfl hcur hpc hmask hothers hdep⟩

end Sys2Proof.Machine


/-! ### Stage rings (R340, R341) -/

namespace Sys2Proof.Machine

section
variable {s : State} {i : Instr} {k : BitVec 4} {sd : BitVec 6} {get : Bool} {r : Ring}

/-- The ring of a number of the group's task. -/
def ringAt (s : State) (k : BitVec 4) : Option Ring := ffind (getT s (curG s).task).rings k.toNat

/-- The group holds a slot of a ring for reading, or for writing. -/
def holdsRingSlot (g : Group) (r : Ring) (get : Bool) (m : Nat) : Bool :=
  if get then r.slots.getD m .e == .r g.taskg else r.slots.getD m .e == .w g.taskg

theorem heldSlot_eq {g : Group} (hops : g.ops = []) : heldSlot g k r get = (List.range r.count).find? (holdsRingSlot g r get) := by
  unfold heldSlot
  extract_lets mine
  have hmine : ∀ x, mine x = if get then x == .r g.taskg else x == .w g.taskg := fun x => by
    cases get <;> cases x <;> simp [mine]
  congr 1
  funext m
  rw [hops, List.any_nil, Bool.not_false, Bool.and_true, hmine, holdsRingSlot]

theorem ringOp_bound (hwf : i.WellFormed) (hd : sIsEmpty (curG s) sd = false) (hr : ringAt s k = some r) :
    ringOp i get k sd s = commit i s (do
      let s2 ← match heldSlot (curG s) k r get with
        | some n => giveSlot i s k n get
        | none => .ok s
      .ok (if sd = 0 then advance i s2 else reserve i s2 k sd get)) := by
  have hring : ringX s k = .ok (s, r, true) := by
    unfold ringX taskOf
    extract_lets
    rw [show ffind (getT s (curG s).task).rings k.toNat = some r from hr]
  unfold ringOp
  rw [checkField_ok hwf, ok_bind, dstS_ok hd, ok_bind, hring, ok_bind]
  rfl

/-! No slot is held. -/

theorem ringOp_reserves (hwf : i.WellFormed) (hd : sIsEmpty (curG s) sd = false) (hr : ringAt s k = some r) (hops : (curG s).ops = [])
    (hnone : ∀ m, m < r.count → holdsRingSlot (curG s) r get m = false) (hsd : sd ≠ 0) :
    ringOp i get k sd s = .next (reserve i s k sd get) := by
  have hheld : heldSlot (curG s) k r get = none := by
    rw [heldSlot_eq hops, List.find?_eq_none]
    exact fun m hm => by rw [hnone m (List.mem_range.mp hm)]; exact nofun
  rw [ringOp_bound hwf hd hr, hheld]
  show commit i s (.ok (if sd = 0 then advance i s else reserve i s k sd get)) = _
  rw [if_neg hsd, commit_ok]

/-- The number of the next slot, and the state that it is to have. -/
def nextSlot (r : Ring) (get : Bool) : Nat := if get then r.c else r.p
def wantedSlot (get : Bool) : RingSlot := if get then .f else .e

/-- A ring whose next slot a group has taken. -/
def takenRing (r : Ring) (taskg : BitVec 6) (get : Bool) : Ring :=
  if get then { r with slots := r.slots.set (nextSlot r get) (.r taskg), c := (nextSlot r get + 1) % r.count }
  else { r with slots := r.slots.set (nextSlot r get) (.w taskg), p := (nextSlot r get + 1) % r.count }

/-- A ring of the group's task replaced. -/
def withRing (s : State) (k : BitVec 4) (r : Ring) : State := modT s (curG s).task fun t => { t with rings := fput t.rings k.toNat r }

/-- The state after the next slot has been taken: its address is in sd. -/
def slotTaken (i : Instr) (s : State) (k : BitVec 4) (sd : BitVec 6) (get : Bool) (r : Ring) : State :=
  advance i (modCur (withRing s k (takenRing r (curG s).taskg get)) fun g =>
    sPut g sd (BitVec.ofNat 64 (r.base + 128 * r.slines * nextSlot r get)))

theorem reserve_taken (hr : ringAt s k = some r) (hslot : r.slots.getD (nextSlot r get) .e = wantedSlot get) :
    reserve i s k sd get = slotTaken i s k sd get r := by
  unfold reserve taskOf
  extract_lets
  rw [show ffind (getT s (curG s).task).rings k.toNat = some r from hr]
  cases get with
  | false => exact if_pos (beq_iff_eq.mpr hslot)
  | true => exact if_pos (beq_iff_eq.mpr hslot)

theorem reserve_waits (hr : ringAt s k = some r) (hslot : r.slots.getD (nextSlot r get) .e ≠ wantedSlot get) :
    reserve i s k sd get = suspendCur s (.ring k (nextSlot r get) (!phaseOf (r.slots.getD (nextSlot r get) .e))) := by
  unfold reserve taskOf
  extract_lets
  rw [show ffind (getT s (curG s).task).rings k.toNat = some r from hr]
  cases get with
  | false => exact if_neg (by simpa [nextSlot, wantedSlot] using hslot)
  | true => exact if_neg (by simpa [nextSlot, wantedSlot] using hslot)

theorem getT_withRing (r : Ring) (u : Nat) : getT (withRing s k r) u =
    if u = (curG s).task then { getT s (curG s).task with rings := fput (getT s (curG s).task).rings k.toNat r } else getT s u := getT_setT _ _ _ _

theorem ffind_takenRing (tk : Task) (j : Nat) : ffind (fput tk.rings k.toNat (takenRing r (curG s).taskg get)) j =
    if j ≠ k.toNat then ffind tk.rings j else some (takenRing r (curG s).taskg get) := by
  rw [ffind_fput]
  by_cases hj : j = k.toNat <;> simp [hj]

/-- What taking the next slot leaves. -/
theorem slotTaken_leaves (hlen : (codeOf i).len = 4) (hd : sIsEmpty (curG s) sd = false) :
    let t := slotTaken i s k sd get r
    let tk := getT s (curG s).task
    Claim.Past s t 4 ∧ Claim.ScalarWritten s t sd (BitVec.ofNat 64 (r.base + 128 * r.slines * nextSlot r get)) ∧
      (∀ u, u ≠ s.cur.uid → getG t u = getG s u) ∧ Claim.MemKept s t ∧ t = { s with groups := t.groups, tasks := t.tasks } ∧
      ∀ u, getT t u = if u = (curG s).task then { tk with rings := fput tk.rings k.toNat (takenRing r (curG s).taskg get) } else getT s u := by
  intro t tk
  have hsplit : ∀ g : Group, (sPut g sd (BitVec.ofNat 64 (r.base + 128 * r.slines * nextSlot r get))).split = g.split := fun g => sPut_split _ _ _
  have hcur : curG t = { sPut (curG s) sd (BitVec.ofNat 64 (r.base + 128 * r.slines * nextSlot r get)) with split := (curG t).split } :=
    curG_advance_modCur _ _ _
  have hpast : Claim.Past s t 4 := past_advance hlen rfl (by rw [curG_modCur, hsplit]; rfl)
  have hring : ∀ u, getT t u = getT (withRing s k (takenRing r (curG s).taskg get)) u := fun _ => rfl
  have honly : Claim.OnlyGroup (withRing s k (takenRing r (curG s).taskg get)) t := onlyGroup_advance i (onlyGroup_modCur _ _)
  obtain ⟨hstate, hne, hmem⟩ := honly
  refine ⟨hpast, scalarWritten_of_sPut hd hcur, hne, memKept_trans (fun _ => ⟨rfl, rfl⟩) hmem, ?_, fun u => (hring u).trans (getT_withRing _ u)⟩
  rw [hstate]
  rfl

/-- What waiting for the next slot leaves. -/
theorem ringWait_leaves {n : Nat} {phase : Bool} :
    let t := suspendCur s (.ring k n phase)
    Claim.DepositedAt s t (curF s).pc (.ring k n phase) ∧ Claim.RegsKept (curG s) (curG t) ∧ t.tasks = s.tasks := by
  intro t
  have hdep := deposited_suspendCur (s := s) (c := .ring k n phase) rfl
  obtain ⟨-, -, -, -, -, hregs, -⟩ := id hdep
  exact ⟨depositedAt_of_deposited rfl rfl rfl rfl (fun _ _ => rfl) hdep, hregs, suspendCur_tasks _ _⟩

/-! The slot that the group holds is given up. -/

/-- A slot of a ring set, in every ring of a number. -/
def slotSet (rings : FMap Ring) (k m : Nat) (x : RingSlot) : FMap Ring :=
  rings.map fun p => if p.1 == k then (p.1, { p.2 with slots := p.2.slots.set m x }) else p

theorem ffind_slotSet (rings : FMap Ring) (k m : Nat) (x : RingSlot) (j : Nat) : (ffind (slotSet rings k m x) j).map (fun r => r.slots) =
    if j = k then (ffind rings j).map fun r => r.slots.set m x else (ffind rings j).map fun r => r.slots := by
  induction rings with
  | nil => simp [slotSet]
  | cons p l ih =>
    obtain ⟨n, q⟩ := p
    have hcons : slotSet ((n, q) :: l) k m x = (if n = k then (n, { q with slots := q.slots.set m x }) else (n, q)) :: slotSet l k m x := by
      simp [slotSet]
    rw [hcons]
    by_cases hn : n = j
    · subst hn
      by_cases hk : n = k <;> simp [ffind, hk]
    · have hkey : ffind ((if n = k then (n, { q with slots := q.slots.set m x }) else (n, q)) :: slotSet l k m x) j = ffind (slotSet l k m x) j := by
        split_ifs <;> exact if_neg hn
      rw [hkey, ih, show ffind ((n, q) :: l) j = ffind l j from if_neg hn]

theorem publishesNow_of_quiet (h : Claim.Quiet s) : publishesNow s (curG s) = true := by
  obtain ⟨hfifo, hops⟩ := h
  unfold publishesNow
  rw [hops, List.all_nil, Bool.and_true, List.all_eq_true]
  exact fun e he => bne_iff_ne.mpr (hfifo e he)

theorem ringOp_gives {m : Nat} (hwf : i.WellFormed) (hd : sIsEmpty (curG s) sd = false) (hr : ringAt s k = some r) (hq : Claim.Quiet s)
    (hm : m < r.count) (hmine : holdsRingSlot (curG s) r get m = true) (hlow : ∀ j, j < m → holdsRingSlot (curG s) r get j = false) (hsd : sd = 0) :
    ringOp i get k sd s = .next (advance i (slotEffect s (curG s).task k.toNat m get)) := by
  have hheld : heldSlot (curG s) k r get = some m := by
    rw [heldSlot_eq hq.2, List.find?_range_eq_some]
    exact ⟨hmine, List.mem_range.mpr hm, fun j hj => by rw [hlow j hj]; rfl⟩
  have hgive : giveSlot i s k m get = .ok (slotEffect s (curG s).task k.toNat m get) := by
    unfold giveSlot
    rw [if_pos (publishesNow_of_quiet hq)]
  rw [ringOp_bound hwf hd hr, hheld]
  show commit i s (giveSlot i s k m get >>= fun s2 => .ok (if sd = 0 then advance i s2 else reserve i s2 k sd get)) = _
  rw [hgive, ok_bind, if_pos hsd, commit_ok]

/-- What giving a slot up leaves. -/
theorem slotEffect_leaves {m : Nat} (hlen : (codeOf i).len = 4) (hr : ringAt s k = some r) :
    let t := advance i (slotEffect s (curG s).task k.toNat m get)
    let tk := getT s (curG s).task
    Claim.OnlyGroup { s with tasks := t.tasks } t ∧ Claim.Past s t 4 ∧ curG t = { curG s with split := (curG t).split } ∧
      getT t (curG s).task = { tk with rings := (getT t (curG s).task).rings } ∧ (∀ u, u ≠ (curG s).task → getT t u = getT s u) ∧
      ∀ j, (ffind (getT t (curG s).task).rings j).map (fun x => x.slots) =
        if j = k.toNat then some (r.slots.set m (if get then .e else .f)) else (ffind tk.rings j).map fun x => x.slots := by
  intro t tk
  have hcur : curG t = { curG s with split := (curG t).split } := curG_advance_split i (slotEffect s (curG s).task k.toNat m get)
  have htask : ∀ u, getT t u = if u = (curG s).task then { tk with rings := slotSet tk.rings k.toNat m (if get then .e else .f) } else getT s u :=
    fun u => getT_setT s (curG s).task u _
  have hsame : getT t (curG s).task = { tk with rings := slotSet tk.rings k.toNat m (if get then .e else .f) } := (htask _).trans (if_pos rfl)
  refine ⟨onlyGroup_advance i (onlyGroup_self (slotEffect s (curG s).task k.toNat m get)), past_advance hlen rfl rfl, hcur, by rw [hsame],
    fun u hu => (htask u).trans (if_neg hu), fun j => ?_⟩
  rw [hsame]
  refine (ffind_slotSet _ _ _ _ j).trans ?_
  by_cases hj : j = k.toNat
  · rw [if_pos hj, if_pos hj, hj, show ffind tk.rings k.toNat = some r from hr]
    rfl
  · rw [if_neg hj, if_neg hj]

end

theorem stageRings : Claim.StageRings := by
  intro s k sd g tk i hi hwf hfull r hr get slot mine n _ _ _ hcount hq
  have hd : sIsEmpty (curG s) sd = false := hfull sd (List.mem_singleton_self sd)
  obtain ⟨hexec, hlen⟩ : exec i.1 s = ringOp i.1 get k sd s ∧ (codeOf i.1).len = 4 := by
    have hcases : i = (.ringPut k sd, false) ∨ i = (.ringGet k sd, true) := by simpa using hi
    rcases hcases with rfl | rfl
    · exact ⟨rfl, rfl⟩
    · exact ⟨rfl, rfl⟩
  refine ⟨fun hnone hsd => ?_, fun m _ hm hmine hlow hsd => ?_⟩
  · have hreserve := hexec.trans (ringOp_reserves hwf hd hr hq.2 (fun m hm => hnone m (by omega) hm) hsd)
    refine ⟨fun hslot => ?_, fun hslot => ?_⟩
    · obtain ⟨hpast, hscalar, hne, hmem, hstate, htask⟩ := slotTaken_leaves (s := s) (i := i.1) (k := k) (get := get) (r := r) hlen hd
      have hsame := (htask g.task).trans (if_pos rfl)
      refine ⟨_, hreserve.trans (congrArg _ (reserve_taken hr hslot)), hpast, hscalar, hne, hmem, hstate, by rw [hsame],
        fun u hu => (htask u).trans (if_neg hu), fun j _ => ?_⟩
      rw [hsame]
      exact ffind_takenRing tk j
    · exact ⟨_, hreserve.trans (congrArg _ (reserve_waits hr hslot)), ringWait_leaves⟩
  · obtain ⟨honly, hpast, hcur, htask, hothers, hrings⟩ := slotEffect_leaves (s := s) (i := i.1) (k := k) (get := get) (r := r) (m := m) hlen hr
    exact ⟨_, hexec.trans (ringOp_gives hwf hd hr hq hm hmine hlow hsd), honly, hpast, hcur, htask, hothers, fun j _ => hrings j⟩

/-- Settles O48, by its parts: graph nodes and tensor entries, `ewait`, and stage rings. -/
theorem engineBookkeeping : Obligations.EngineBookkeeping :=
  ⟨nodesAndTensors, engineWait, stageRings⟩

end Sys2Proof.Machine
